-- ==== Sys2Proof/Word.lean ====
section
/-! DEFINITION. Word.lean: the word types of the spec (R2) and nothing else. -/

namespace Sys2Proof

/-- A byte, 8 bits (R2). -/
abbrev Byte := BitVec 8
/-- A word, 32 bits (R2). -/
abbrev Word := BitVec 32
/-- A double, 64 bits (R2). -/
abbrev Dbl := BitVec 64
/-- A lane program counter or virtual address, 56 bits (R38, R304). -/
abbrev VAddr := BitVec 56

end Sys2Proof
end

