-- ==== Sys2Proof/Config.lean ====
section
/-! DEFINITION. Config.lean: what the spec leaves open. Every constant here is a free value: it has no
body, so nothing can be proved of its value, and a statement that mentions it holds whatever it is. -/

namespace Sys2Proof.Config

/-- The value a returning operation to a peer device brings back, by the number of the draw (R96,
R223, R338; log 14): the peer is outside this module. -/
opaque peerAnswer : (draw : Nat) → Dbl

/-- A byte of host memory as a PCIe read returns it is held in State; what the host's own code does
to that memory is not modelled. The answer of a host AtomicOp that the host does not support (R223). -/
opaque hostAtomicSupported : (draw : Nat) → Bool

/-- ECDSA P-384 with SHA-384 verification of a policy blob under a bound key (R406). -/
opaque policySignatureOk : (key : Nat) → (blob : List Byte) → Bool

/-- SHA-512 (R402, R403). -/
opaque sha512 : List Byte → BitVec 512

/-- RSA-4096 verification of a boot stage image by the mask ROM (R402). -/
opaque stageSignatureOk : (stage : Nat) → (image : List Byte) → Bool

/-- A key drawn by Raljan's random source (R405), by the number of the draw. -/
opaque drawnKey : (draw : Nat) → BitVec 256

/-- ECDSA P-384 signature of the device's identity key (R403). -/
opaque identitySign : (measurement : BitVec 512) → (message : List Byte) → BitVec 768

/-- The certificate chain of the identity key (R403). -/
opaque certificateChain : (measurement : BitVec 512) → List Byte

/-- The session secret that a secp384r1 exchange gives (R403). -/
opaque sessionSecret : (draw share : Nat) → Nat

/-- The finish check value of an SPDM session (R403). -/
opaque finishValue : (secret : Nat) → Nat

/-- The capabilities an SPDM responder reports (R403 names none). -/
opaque capabilities : Nat

/-- A byte of a save record that no item of R85 takes, or one of an accumulator tile (R286), by the number of the draw. -/
opaque savedByte : (draw : Nat) → Byte

/-- The value MMT takes for the invalid ternary code 0b10 where it stands in the slab (R27 calls the code invalid and
gives it no value; log 118). -/
opaque invalidTernary : Int

/-- The home link a packet to a peer takes: a fixed hash of device and frame (R335). -/
opaque linkHash : (dev frame : Nat) → Nat

/-- Whether the owner of a grain answers a READ with a lease: it does not while a write waits on the grain's
horizon (R337), by the number of the draw. -/
opaque peerLeases : (draw : Nat) → Bool

/-- The responder's public share of a key exchange (R403), by the number of the draw. -/
opaque exchangeShare : (draw : Nat) → Nat

/-- A byte of memory written under an earlier key, as it reads under the key of a draw (R321, log 39). -/
opaque rekeyedByte : (draw off : Nat) → Byte

/-- Whether a configuration record selects kickstand service, and its kickstand die (R412). -/
opaque recordKickstand : (record : List Byte) → Bool
opaque recordKdie : (record : List Byte) → Nat

end Sys2Proof.Config
end

