-- ==== Sys2Proof/Syntax.lean ====
section
/-! DEFINITION. Syntax.lean: the instructions of spec/opcode_table.json, one constructor per row. -/

namespace Sys2Proof

/-- The operations of the atomics ATADD to ATFMIN (R221). -/
inductive AtOp where
  | add | and | or | xor | min | max | xchg | cas | fmax | fmin
deriving DecidableEq, Repr

/-- What a peer device asks of this device (R333, R338). A partial names the context whose accumulator
table holds its handle (log 15), and says whether it is a replayed one (R273); an append carries the order of
the instruction that sent it (R96); `scatter` is a packet of PSTORE, its bytes by their offset in a frame (R340). -/
inductive PeerOp where
  | read (offset len : Nat)
  | write (offset : Nat) (data : List Byte)
  | atomic (op : AtOp) (signed : Bool) (offset size : Nat) (operand compare : Dbl)
  | enq (offset esize order : Nat) (image : List Byte)
  | scatter (offset : Nat) (bytes : List (Nat × Byte))
  | partialSum (part ctx : Nat) (handle : Word) (elem : Nat) (label : Word) (value : Dbl) (type : Nat) (replay : Bool)
deriving DecidableEq, Repr

/-- A peer request carries the requester's device number, partition and incarnation (R333). -/
structure PeerReq where
  dev  : Nat
  part : Nat
  inc  : Nat
  tag  : Nat
  op   : PeerOp
deriving DecidableEq, Repr

/-- Register fields of the pages that have no behaviour of their own (R4, R68, R100, R332). -/
inductive PlainReg where
  | ctxwDesc (part : Nat)
  | ctxwCmd (part : Nat)
  | hewQueue (part win : Nat)
  | hewEntry (part win off : Nat)
  | hewCmd (part win : Nat)
  | leaseNs
  | readOnly
deriving DecidableEq, Repr

/-- A virtual function, and the IDE stream by which the host reaches it (R331, R405). -/
structure HostFn where
  vf     : Nat
  stream : Nat
deriving DecidableEq, Repr

/-- The space a host read names (R331): BAR2 and BAR0 of a virtual function, BAR0 of the physical function. -/
inductive HostBar where
  | memory (fn : HostFn)
  | control (fn : HostFn)
  | management
deriving DecidableEq, Repr

/-- A flit of a link, by its number on the link (R334). -/
structure LinkFlit where
  link : Nat
  flit : Nat
deriving DecidableEq, Repr

/-- The tiers that hold data (R181, R410); the window is a group's local memory. -/
inductive MemTier where
  | l1 | localSlice | homeSlice | llc | lpddr | window
deriving DecidableEq, Repr

/-- Where an uncorrectable error is found (R195, R257, R277, R310, R410, R411): in the data of a part of an operation, by
the tier that delivers it; in a local slice's block that is written back; in a cell a copy reads; in a table entry; in a
spilled stack entry; in what a slice or a tile stream reads of its own stores; in a held partial; in memory that tree
hardware reads; where there is no content; in a die's control state. -/
inductive ErrSite where
  | loadData (op part : Nat) (tier : MemTier)
  | writeBack (die frame cell : Nat)
  | copyData (copy cell : Nat)
  | walkEntry (part ctx : Nat) (va : Dbl) (die slice : Nat)
  | stackEntry (gang slice : Nat)
  | sliceData (gang slice : Nat) (addr : Dbl)
  | streamData (group : Nat) (addr : Dbl)
  | heldPartial (held : Nat)
  | accMemory (part ctx : Nat) (addr : Dbl) (die slice : Nat)
  | noContent (die : Nat)
  | control (die : Nat)
deriving DecidableEq, Repr

/-- Which keys an update concerns (R405): the session of a function or a Hyloth link. -/
inductive KeyTarget where
  | session (fn : Nat)
  | link (l : Nat)
deriving DecidableEq, Repr

/-- One constructor per row of spec/opcode_table.json. Encoded rows carry their fields at the widths
of the table; event rows carry what names their target. The events that the model's own schedule makes stand
before the others. -/
inductive Instr where
  | nop   -- R57
  | mode (n : BitVec 1) (g : BitVec 3) (t : BitVec 4) (r : BitVec 3) (s : BitVec 1) (c : BitVec 3) (o : BitVec 3) (p : BitVec 4)   -- R58
  | imm (i : BitVec 24)   -- R59
  | immh (i : BitVec 8)   -- R60
  | wait (l : BitVec 6) (s : BitVec 6) (c : BitVec 6) (f : BitVec 6)   -- R61
  | bra (o : BitVec 24)   -- R129
  | call (o : BitVec 24)   -- R130
  | ret   -- R131
  | brx (a : BitVec 8) (s : BitVec 1)   -- R132
  | rpush (o : BitVec 24)   -- R133
  | join   -- R134
  | regang (t : BitVec 24)   -- R135
  | exit   -- R136
  | yield   -- R137
  | elect (d : BitVec 3) (s : BitVec 1)   -- R138
  | vote (d : BitVec 8) (a : BitVec 3) (s : BitVec 2)   -- R139
  | getc (d : BitVec 8) (s : BitVec 4)   -- R106
  | evwait (a : BitVec 8) (b : BitVec 8)   -- R101
  | evadd (a : BitVec 8) (b : BitVec 8)   -- R101
  | trap (c : BitVec 8)   -- R79
  | rtt   -- R79
  | brk (c : BitVec 8)   -- R79
  | halt (c : BitVec 8)   -- R79
  | ctr (d : BitVec 8) (s : BitVec 2)   -- R81
  | csrr (d : BitVec 8) (n : BitVec 12)   -- R80
  | csrw (d : BitVec 8) (n : BitVec 12)   -- R80
  | iadd (d : BitVec 8) (a : BitVec 8) (b : BitVec 8)   -- R143
  | isub (d : BitVec 8) (a : BitVec 8) (b : BitVec 8)   -- R143
  | imul (d : BitVec 8) (a : BitVec 8) (b : BitVec 8)   -- R143
  | imulh (d : BitVec 8) (a : BitVec 8) (b : BitVec 8)   -- R144
  | imad (d : BitVec 8) (a : BitVec 8) (b : BitVec 8)   -- R143
  | imin (d : BitVec 8) (a : BitVec 8) (b : BitVec 8)   -- R143
  | imax (d : BitVec 8) (a : BitVec 8) (b : BitVec 8)   -- R143
  | iabs (d : BitVec 8) (a : BitVec 8)   -- R143
  | and (d : BitVec 8) (a : BitVec 8) (b : BitVec 8)   -- R146
  | or (d : BitVec 8) (a : BitVec 8) (b : BitVec 8)   -- R146
  | xor (d : BitVec 8) (a : BitVec 8) (b : BitVec 8)   -- R146
  | andn (d : BitVec 8) (a : BitVec 8) (b : BitVec 8)   -- R146
  | shl (d : BitVec 8) (a : BitVec 8) (b : BitVec 8)   -- R147
  | shr (d : BitVec 8) (a : BitVec 8) (b : BitVec 8)   -- R147
  | sar (d : BitVec 8) (a : BitVec 8) (b : BitVec 8)   -- R147
  | rot (d : BitVec 8) (a : BitVec 8) (b : BitVec 8)   -- R147
  | popc (d : BitVec 8) (a : BitVec 8)   -- R148
  | clz (d : BitVec 8) (a : BitVec 8)   -- R148
  | brev (d : BitVec 8) (a : BitVec 8)   -- R148
  | bfe (d : BitVec 8) (a : BitVec 8) (b : BitVec 8)   -- R149
  | bfi (d : BitVec 8) (a : BitVec 8) (b : BitVec 8)   -- R149
  | icmp (c : BitVec 3) (d : BitVec 3) (a : BitVec 8) (b : BitVec 8)   -- R150
  | sel (d : BitVec 8) (a : BitVec 8) (b : BitVec 8)   -- R151
  | mov (d : BitVec 8) (a : BitVec 8)   -- R152
  | movi (d : BitVec 8) (i : BitVec 16)   -- R152
  | movh (d : BitVec 8) (i : BitVec 16)   -- R152
  | lea (d : BitVec 8) (a : BitVec 8) (b : BitVec 8)   -- R153
  | shfli (d : BitVec 8) (a : BitVec 8) (n : BitVec 5)   -- R154
  | shflx (d : BitVec 8) (a : BitVec 8) (n : BitVec 5)   -- R154
  | shflu (d : BitVec 8) (a : BitVec 8) (n : BitVec 5)   -- R154
  | shfld (d : BitVec 8) (a : BitVec 8) (n : BitVec 5)   -- R154
  | idot4 (d : BitVec 8) (a : BitVec 8) (b : BitVec 8)   -- R145
  | pand (d : BitVec 3) (a : BitVec 3) (b : BitVec 3)   -- R155
  | por (d : BitVec 3) (a : BitVec 3) (b : BitVec 3)   -- R155
  | pxor (d : BitVec 3) (a : BitVec 3) (b : BitVec 3)   -- R155
  | pnot (d : BitVec 3) (a : BitVec 3)   -- R155
  | p2v (d : BitVec 8) (a : BitVec 3) (s : BitVec 1)   -- R156
  | v2p (d : BitVec 3) (a : BitVec 8) (s : BitVec 1)   -- R156
  | pmov (d : BitVec 3) (a : BitVec 3)   -- R155
  | sadd (d : BitVec 8) (a : BitVec 8) (b : BitVec 8)   -- R157
  | ssub (d : BitVec 8) (a : BitVec 8) (b : BitVec 8)   -- R157
  | smul (d : BitVec 8) (a : BitVec 8) (b : BitVec 8)   -- R157
  | sand (d : BitVec 8) (a : BitVec 8) (b : BitVec 8)   -- R157
  | sor (d : BitVec 8) (a : BitVec 8) (b : BitVec 8)   -- R157
  | sxor (d : BitVec 8) (a : BitVec 8) (b : BitVec 8)   -- R157
  | sshl (d : BitVec 8) (a : BitVec 8) (b : BitVec 8)   -- R157
  | sshr (d : BitVec 8) (a : BitVec 8) (b : BitVec 8)   -- R157
  | smov (d : BitVec 8) (a : BitVec 8)   -- R157
  | smovi (d : BitVec 8) (i : BitVec 16)   -- R157
  | scmp (c : BitVec 3) (d : BitVec 3) (a : BitVec 8) (b : BitVec 8)   -- R157
  | s2v (d : BitVec 8) (a : BitVec 8)   -- R157
  | v2s (d : BitVec 8) (a : BitVec 8)   -- R157
  | sld (d : BitVec 8) (a : BitVec 8) (b : BitVec 8)   -- R158
  | sst (d : BitVec 8) (a : BitVec 8) (b : BitVec 8)   -- R158
  | fadd (d : BitVec 8) (a : BitVec 8) (b : BitVec 8)   -- R162
  | fsub (d : BitVec 8) (a : BitVec 8) (b : BitVec 8)   -- R162
  | fmul (d : BitVec 8) (a : BitVec 8) (b : BitVec 8)   -- R162
  | ffma (d : BitVec 8) (a : BitVec 8) (b : BitVec 8)   -- R162
  | fmin (d : BitVec 8) (a : BitVec 8) (b : BitVec 8)   -- R163
  | fmax (d : BitVec 8) (a : BitVec 8) (b : BitVec 8)   -- R163
  | fabs (d : BitVec 8) (a : BitVec 8)   -- R163
  | fneg (d : BitVec 8) (a : BitVec 8)   -- R163
  | fcmp (c : BitVec 3) (d : BitVec 3) (a : BitVec 8) (b : BitVec 8)   -- R164
  | fclass (d : BitVec 8) (a : BitVec 8)   -- R165
  | fscale (d : BitVec 8) (a : BitVec 8) (b : BitVec 8)   -- R162
  | frint (d : BitVec 8) (a : BitVec 8)   -- R166
  | frcp (d : BitVec 8) (a : BitVec 8)   -- R167
  | frsq (d : BitVec 8) (a : BitVec 8)   -- R167
  | fsqrt (d : BitVec 8) (a : BitVec 8)   -- R167
  | fexp2 (d : BitVec 8) (a : BitVec 8)   -- R167
  | flog2 (d : BitVec 8) (a : BitVec 8)   -- R167
  | fsin (d : BitVec 8) (a : BitVec 8)   -- R167
  | fcos (d : BitVec 8) (a : BitVec 8)   -- R167
  | ftanh (d : BitVec 8) (a : BitVec 8)   -- R167
  | fdiv (d : BitVec 8) (a : BitVec 8) (b : BitVec 8)   -- R162
  | cvt (d : BitVec 8) (a : BitVec 8) (p : BitVec 2) (t : BitVec 4)   -- R169
  | cvtsr (d : BitVec 8) (a : BitVec 8) (f : BitVec 3) (p : BitVec 2) (r : BitVec 3)   -- R170
  | rng (d : BitVec 8) (a : BitVec 8) (s : BitVec 8)   -- R171
  | qmx (d : BitVec 8) (a : BitVec 8) (f : BitVec 3)   -- R172
  | dqmx (d : BitVec 8) (a : BitVec 8) (b : BitVec 8)   -- R173
  | packl (d : BitVec 8) (a : BitVec 8) (b : BitVec 8)   -- R174
  | unpackl (d : BitVec 8) (a : BitVec 8) (f : BitVec 4)   -- R174
  | gamax (d : BitVec 8) (a : BitVec 8)   -- R175
  | gred (d : BitVec 8) (a : BitVec 8) (s : BitVec 2)   -- R176
  | fdot2 (d : BitVec 8) (a : BitVec 8) (b : BitVec 8)   -- R177
  | cmp24 (d : BitVec 8) (a : BitVec 8) (s : BitVec 1)   -- R178
  | ld (d : BitVec 8) (a : BitVec 8) (b : BitVec 8)   -- R198
  | ld2 (d : BitVec 8) (a : BitVec 8) (b : BitVec 8)   -- R198
  | ld4 (d : BitVec 8) (a : BitVec 8) (b : BitVec 8)   -- R198
  | st (d : BitVec 8) (a : BitVec 8) (b : BitVec 8)   -- R198
  | st2 (d : BitVec 8) (a : BitVec 8) (b : BitVec 8)   -- R198
  | st4 (d : BitVec 8) (a : BitVec 8) (b : BitVec 8)   -- R198
  | ldl (d : BitVec 8) (a : BitVec 8) (b : BitVec 8)   -- R200
  | ldl4 (d : BitVec 8) (a : BitVec 8) (b : BitVec 8)   -- R200
  | stl (d : BitVec 8) (a : BitVec 8) (b : BitVec 8)   -- R200
  | stl4 (d : BitVec 8) (a : BitVec 8) (b : BitVec 8)   -- R200
  | atadd (d : BitVec 8) (a : BitVec 8) (b : BitVec 8)   -- R221
  | atand (d : BitVec 8) (a : BitVec 8) (b : BitVec 8)   -- R221
  | ator (d : BitVec 8) (a : BitVec 8) (b : BitVec 8)   -- R221
  | atxor (d : BitVec 8) (a : BitVec 8) (b : BitVec 8)   -- R221
  | atmin (d : BitVec 8) (a : BitVec 8) (b : BitVec 8)   -- R221
  | atmax (d : BitVec 8) (a : BitVec 8) (b : BitVec 8)   -- R221
  | atxchg (d : BitVec 8) (a : BitVec 8) (b : BitVec 8)   -- R221
  | atcas (d : BitVec 8) (a : BitVec 8) (b : BitVec 8)   -- R221
  | atfmax (d : BitVec 8) (a : BitVec 8) (b : BitVec 8)   -- R222
  | atfmin (d : BitVec 8) (a : BitVec 8) (b : BitVec 8)   -- R222
  | atladd (d : BitVec 8) (a : BitVec 8) (b : BitVec 8)   -- R224
  | atlcas (d : BitVec 8) (a : BitVec 8) (b : BitVec 8)   -- R224
  | fence   -- R219
  | flush (a : BitVec 8) (b : BitVec 8)   -- R201
  | invr (a : BitVec 8) (b : BitVec 8)   -- R203
  | pref (l : BitVec 2) (a : BitVec 8) (b : BitVec 8)   -- R204
  | lockb (d : BitVec 8) (a : BitVec 8) (b : BitVec 8)   -- R205
  | unlockb (a : BitVec 8) (b : BitVec 8)   -- R206
  | enq (d : BitVec 8) (a : BitVec 8) (b : BitVec 8)   -- R94
  | deq (d : BitVec 8) (a : BitVec 8) (b : BitVec 8)   -- R94
  | pstore (d : BitVec 8) (a : BitVec 8) (b : BitVec 8)   -- R340
  | binit (a : BitVec 8) (b : BitVec 8)   -- R244
  | barr (d : BitVec 8) (a : BitVec 8) (k : BitVec 2)   -- R245
  | bexp (a : BitVec 8) (b : BitVec 8)   -- R246
  | bwait (a : BitVec 8) (b : BitVec 8)   -- R247
  | btest (d : BitVec 3) (a : BitVec 8) (b : BitVec 8)   -- R247
  | nbarr (d : BitVec 8) (a : BitVec 8) (g : BitVec 2) (n : BitVec 4)   -- R249
  | nbwait (a : BitVec 8) (n : BitVec 4)   -- R249
  | copy (d : BitVec 8) (a : BitVec 8) (n : BitVec 1) (r : BitVec 2)   -- R252
  | copyg (d : BitVec 8) (a : BitVec 8) (n : BitVec 1)   -- R256
  | copyc (d : BitVec 8) (a : BitVec 8) (n : BitVec 1) (f : BitVec 2)   -- R271
  | accarm (d : BitVec 8) (a : BitVec 8)   -- R267
  | contrib (d : BitVec 8) (a : BitVec 8) (b : BitVec 8)   -- R268
  | contribn (d : BitVec 8) (a : BitVec 8) (b : BitVec 8)   -- R268
  | accq (d : BitVec 8) (a : BitVec 8) (b : BitVec 8)   -- R269
  | accdrop (a : BitVec 8)   -- R270
  | axb (d : BitVec 8) (a : BitVec 8) (i : BitVec 6)   -- R355
  | axe (a : BitVec 8) (i : BitVec 6)   -- R356
  | axinv (i : BitVec 6)   -- R357
  | axq (d : BitVec 8) (s : BitVec 4) (i : BitVec 6)   -- R358
  | tnop   -- R290
  | tfmt (d : BitVec 2) (a : BitVec 4)   -- R290
  | tset (d : BitVec 4) (p : BitVec 2) (i : BitVec 16)   -- R290
  | taddImm (d : BitVec 4) (a : BitVec 4) (i : BitVec 16)   -- R290
  | taddReg (d : BitVec 4) (a : BitVec 4) (b : BitVec 4)   -- R290
  | tldb (a : BitVec 4) (b : BitVec 4) (s : BitVec 4) (f : BitVec 2)   -- R291
  | tldc (k : BitVec 2) (a : BitVec 4) (s : BitVec 4) (f : BitVec 2)   -- R291
  | tzero (k : BitVec 2)   -- R286
  | mm (k : BitVec 2) (f : BitVec 2) (a : BitVec 4) (b : BitVec 4) (l : BitVec 4) (s : BitVec 4)   -- R292
  | mmdual (k : BitVec 2) (f : BitVec 2) (a : BitVec 4) (b : BitVec 4) (o : BitVec 4) (s : BitVec 4)   -- R296
  | mmt (k : BitVec 2) (f : BitVec 2) (a : BitVec 4) (b : BitVec 4) (l : BitVec 4) (s : BitVec 4)   -- R294
  | mms (k : BitVec 2) (f : BitVec 2) (a : BitVec 4) (b : BitVec 4) (l : BitVec 4) (s : BitVec 4)   -- R293
  | tlds (a : BitVec 4) (b : BitVec 4) (s : BitVec 4)   -- R291
  | tsta (k : BitVec 2) (f : BitVec 2) (d : BitVec 4) (o : BitVec 3) (t : BitVec 1)   -- R297
  | temit (k : BitVec 2) (d : BitVec 4)   -- R298
  | tloopImm (l : BitVec 6) (c : BitVec 19)   -- R299
  | tloopReg (l : BitVec 6) (a : BitVec 4)   -- R299
  | tincOff (s : BitVec 2)   -- R299
  | tincT (s : BitVec 2) (x : BitVec 4) (i : BitVec 16)   -- R299
  | tincAcc (s : BitVec 2) (i : BitVec 16)   -- R299
  | twait (k : BitVec 4) (a : BitVec 4)   -- R300
  | tarr (k : BitVec 4) (d : BitVec 4)   -- R300
  | tstop   -- R290
  | ctxBuild (part ctx : Nat)   -- R69
  | ctxEnable (part ctx : Nat)   -- R70
  | ctxPark (part ctx : Nat)   -- R70
  | ctxResume (part ctx : Nat)   -- R70
  | ctxDstop (part ctx : Nat)   -- R88
  | ctxHalt (part ctx : Nat)   -- R75
  | ctxRetire (part ctx : Nat)   -- R70
  | ctxRelease (part ctx : Nat)   -- R70
  | hewEnq (part win ctx : Nat)   -- R100
  | hewDeq (part win ctx : Nat)   -- R100
  | hewBind (part win ctx : Nat)   -- R93
  | hewDrain (part win ctx : Nat)   -- R91
  | hewReset (part win ctx : Nat)   -- R91
  | dispatcherTake   -- R99
  | dependencyPoll (queue : Nat)   -- R99
  | nopPacket (k : Nat)   -- R97
  | launchPacket (k : Nat)   -- R97
  | pinPacket (k : Nat)   -- R315
  | unpinPacket (k : Nat)   -- R318
  | signalPacket (k : Nat)   -- R97
  | recordPacket (k : Nat)   -- R413
  | fitsyncPacket (k : Nat)   -- R348
  | policyPacket (k : Nat)   -- R407
  | gridAccept (k : Nat)   -- R109
  | groupPlace (part : Nat)   -- R109
  | groupRestore (group : Nat)   -- R84
  | groupParked (group : Nat)   -- R84
  | groupDone (group : Nat)   -- R117
  | groupRequeue (group : Nat)   -- R115
  | kernelRetire (k : Nat)   -- R114
  | faultAtHub (part ctx : Nat)   -- R74
  | contextStopped (part ctx : Nat)   -- R70
  | watchdog (k : Nat)   -- R72
  | pageWalk (part ctx die : Nat) (va : Dbl)   -- R310
  | fitTrainingDone (part ctx region : Nat)   -- R352
  | scrubComplete (die : Nat)   -- R405
  | turnPass (k : Nat)   -- R87
  | sampleAtHome (sample : Nat)   -- R356
  | loadComplete (op : Nat)   -- R51
  | storeAck (op : Nat)   -- R51
  | fitAnswer (op : Nat)   -- R51
  | fillComplete (op frame : Nat)   -- R189
  | homeRead (op part : Nat)   -- R326
  | homeOwn (op part : Nat)   -- R326
  | homeWrite (op part : Nat)   -- R326
  | homeEvict (notice : Nat)   -- R329
  | homeWback (notice : Nat)   -- R329
  | invalidate (txn agent : Nat)   -- R328
  | invalidateAck (txn agent : Nat)   -- R328
  | rmwAtHome (op part : Nat)   -- R221
  | queueOpAtHome (op part : Nat)   -- R95
  | horizonReached (txn : Nat)   -- R337
  | copyEntryAssign (core : Nat)   -- R250
  | copyCellLand (copy cell : Nat)   -- R253
  | copycRowRead (copy : Nat)   -- R272
  | partialAtBuffer (p : Nat)   -- R274
  | partialForwardTimeout (held : Nat)   -- R274
  | partialAtHome (p : Nat)   -- R275
  | accdropAtHome (part ctx slot home : Nat)   -- R270
  | leaseExpiry (die frame : Nat)   -- R337
  | directorySweep (die slice : Nat)   -- R325
  | gangStarved (gang : Nat)   -- R122
  | eagerHitNotify (core part ctx region : Nat)   -- R353
  | peerRequest (r : PeerReq)   -- R333
  | refused (op : Nat)   -- R333
  | dieLost (die : Nat)   -- R330
  | peerLost (dev : Nat)   -- R336
  | hostWrite (fn : HostFn) (offset : Nat) (data : List Byte)   -- R331
  | hostRead (bar : HostBar) (offset len : Nat)   -- R331
  | debugWindowAccess (part ctx : Nat) (addr : Dbl) (len : Nat) (data : Option (List Byte))   -- R408
  | guardNsWrite (value : Word)   -- R332
  | domIdWrite (value : Word)   -- R332
  | registerWrite (reg : PlainReg) (value : Dbl)   -- R4
  | linkEnable (link : Nat)   -- R334
  | linkDisable (link : Nat)   -- R334
  | linkQuarantine (link : Nat)   -- R334
  | linkRelease (link : Nat)   -- R334
  | linkTrained (link lanes farInc : Nat)   -- R334
  | linkTrainingFail (link : Nat)   -- R334
  | laneFail (link working : Nat)   -- R334
  | flitCrcFail (flit : LinkFlit)   -- R335
  | linkRetrain (link : Nat)   -- R334
  | gcmTagFail (link : Nat)   -- R334
  | moduleReset   -- R402
  | getVersion (fn : Nat)   -- R403
  | getCapabilities (fn : Nat)   -- R403
  | negotiateAlgorithms (fn offered : Nat)   -- R403
  | getDigests (fn : Nat)   -- R403
  | getCertificate (fn offset len : Nat)   -- R403
  | challenge (fn nonce : Nat)   -- R403
  | getMeasurements (fn index : Nat)   -- R403
  | keyExchange (fn share : Nat)   -- R403
  | finish (fn verifyData : Nat)   -- R403
  | keyUpdate (target : KeyTarget)   -- R405
  | endSession (fn : Nat)   -- R403
  | lockInterfaceRequest (fn : Nat)   -- R404
  | bindPolicyKey (fn key : Nat)   -- R404
  | startInterfaceRequest (fn : Nat)   -- R404
  | stopInterfaceRequest (fn : Nat)   -- R404
  | ideIntegrityFailure (fn : Nat)   -- R404
  | correctedError (die : Nat)   -- R411
  | uncorrectableError (site : ErrSite)   -- R411
  | patrolScrub (die corrected uncorrected : Nat)   -- R411
  | throttle (temp : Nat)   -- R414
  | thermalTrip (temp : Nat)   -- R414
  | undervoltageTrip (millivolts : Nat)   -- R414
  | stopGoSignal (link cls : Nat) (stop : Bool)   -- R335
  | peerReadmission (dev : Nat)   -- R336
  | changePartition (fn part : Nat) (dies : List Nat) (reserved : List (Nat × Nat))   -- R404
  | ideKeyManagement (fn stream key : Nat)   -- R405
  | fullModuleTrainingComplete   -- R412
deriving DecidableEq, Repr

end Sys2Proof
end

