-- ==== Sys2Proof/Machine/State.lean ====
section
/-! DEFINITION. State.lean: everything the spec gives the machine, as plain data. -/

namespace Sys2Proof.Machine

/-- A sparse map from keys to values of `n` bits in one canonical form: keys strictly rising and no
entry zero; a key with no entry reads zero (log 1 for memory, R45 for registers). -/
abbrev SMap (n : Nat) := List (Nat × BitVec n)

/-! ## Slices, gangs, groups -/

/-- The kinds of a reconvergence stack entry (R125). -/
inductive StackKind where
  | joinpt | call | trap
deriving DecidableEq, Repr

/-- A reconvergence stack entry (R125). -/
structure StackEntry where
  kind  : StackKind
  lanes : BitVec 4
  pc    : VAddr
  pend  : BitVec 4 := 0
  ppc   : VAddr := 0
  mode  : BitVec 24 := 0
  im    : Word := 0
deriving DecidableEq, Repr

/-- A slice: four lanes with one program counter (R119, R47, R51, R80). -/
structure Slice where
  pc      : VAddr
  mode    : BitVec 24 := 0x040200
  im      : Word := 0
  cL      : Nat := 0
  cS      : Nat := 0
  cC      : Nat := 0
  cF      : Nat := 0
  run     : BitVec 4 := 0xF
  exited  : BitVec 4 := 0
  stack   : List StackEntry := []
  trapCause : Word := 0
  trapInfo  : Dbl := 0
  fpx     : Word := 0
  retired : Nat := 0
  regang  : Option (BitVec 24) := none
  stopped : Bool := false
deriving DecidableEq, Repr

/-- A region that a lane has open between AXB and AXE (R355). -/
structure OpenRegion where
  lane    : Nat
  id      : Nat
  sampled : Bool
  count   : Nat
  x       : List Word
  yhat    : List Word
deriving DecidableEq, Repr

/-- A gang: eight slices, 32 lanes, one set of uniform registers (R14, R41, R44, R80, R119). Lane
registers have the key 256 × lane + code; predicate p has the mask of its lanes at key p. -/
structure Gang where
  grp     : Nat
  idx     : Nat
  slices  : List Slice
  cohorts : List (BitVec 8) := [0xFF]
  lastCoh : Option Nat := none
  regs    : SMap 32 := []
  preds   : SMap 32 := []
  sregs   : SMap 32 := []
  trapBase : Dbl := 0
  fpxEn   : Word := 0
  dbgCtl  : Word := 0
  gear    : Word := 0
  issues  : Nat := 0
  starve  : Nat := 0
  slot    : Nat := 0
  rotPos  : Nat := 0
  yielded : Bool := false
  area    : Option Nat := none
  axCount : SMap 32 := []
  opens   : List OpenRegion := []
deriving DecidableEq, Repr

/-- Group states (R115). -/
inductive GState where
  | pending | placed | running | parking | parked | killed | exiting | done
deriving DecidableEq, Repr

/-- A numbered barrier (R248, R249). `arrived` says whether an arrival has been made since the
current phase began, `byTile` whether the tile stream made one. -/
structure NumBar where
  phase   : Nat := 0
  reload  : Nat
  pend    : Nat
  arrived : Bool := false
  byTile  : Bool := false
deriving DecidableEq, Repr

/-- An exact sum of products held before its one rounding (R285): the finite sum is
`sum × 2^-700`; `negOnly` says that every term so far was negative or −0. -/
structure ExactSum where
  nan     : Bool := false
  pinf    : Bool := false
  ninf    : Bool := false
  sum     : Int := 0
  negOnly : Bool := true
deriving DecidableEq, Repr

/-- A node of the canonical tree that an accumulator tile holds (R286): its label and one value
per element, keyed 128 × row + column. -/
structure AccNode where
  level : Nat
  index : Nat
  vals  : SMap 32
deriving DecidableEq, Repr

/-- The four states of an accumulator tile (R286). -/
inductive AccKind where
  | empty | float | int | resident
deriving DecidableEq, Repr

/-- An accumulator tile (R286). `openN` is how many leaves the open fused node holds, `opens` its
exact sums per element, `slots` the held nodes from the highest level down. -/
structure AccTile where
  kind  : AccKind := .empty
  k0    : Nat := 0
  next  : Nat := 0
  shape : Option (Nat × Nat) := none
  openN : Nat := 0
  opens : List (Nat × ExactSum) := []
  slots : List AccNode := []
  vals  : SMap 32 := []
deriving DecidableEq, Repr

/-- A rule set by TINC (R299). -/
inductive TincRule where
  | off
  | treg (x : Nat) (step : BitVec 16)
  | acc (step : BitVec 16)
deriving DecidableEq, Repr

/-- The cassette while TLOOP replays it (R299). -/
structure Cassette where
  words : List Word
  count : Nat
  pass  : Nat
  at_   : Nat
  off   : Nat
  back  : VAddr
deriving DecidableEq, Repr

/-- A TLDB or TLDS as executed, for the restore of the slab quarter (R303). -/
structure SlabLoad where
  isScale : Bool
  pc      : VAddr
  win     : Word
  slab    : Word
  shape   : Word
  desc    : List Byte
deriving DecidableEq, Repr

/-- A group's tile stream (R279, R280); `lastPc` is the address of the last word issued (R76). -/
structure TileStream where
  pc      : VAddr
  lastPc  : VAddr := 0
  regs    : SMap 32 := []
  fdesc   : List (Option (List Byte)) := [none, none, none, none]
  slab    : SMap 8 := []
  accs    : List AccTile
  cassette : Option Cassette := none
  rules   : List TincRule := [.off, .off, .off, .off]
  log     : List SlabLoad := []
  ended   : Bool := false
  stopped : Bool := false
deriving DecidableEq, Repr

/-- A group (R115): its kernel, its place, its window and what its gangs share. `atStop` says that a
parking group's slices have stopped issuing (R84), `debugSave` that a debug stop parks it (R88); `slots` and
`rots` are its gangs' slots and rotation positions, in gang order (R86). -/
structure Group where
  kern    : Nat
  lid     : Nat
  state   : GState
  core    : Nat := 0
  placeNo : Nat := 0
  gangs   : List Nat := []
  window  : SMap 8 := []
  nbs     : List NumBar := []
  tile    : Option TileStream := none
  tctx    : Option Nat := none
  pins    : List Nat := []
  replay  : Bool := false
  saved   : Option Nat := none
  debugSave : Bool := false
  atStop  : Bool := false
  slots   : List Nat := []
  rots    : List Nat := []
deriving DecidableEq, Repr

/-! ## Memory operations in flight -/

/-- Counter classes (R51). -/
inductive Cls where
  | none | l | s | c | f
deriving DecidableEq, Repr

/-- What an operation in flight does when it is performed. -/
inductive OpKind where
  | load
  | store
  | rmw (op : AtOp) (signed : Bool) (ret : Bool)
  | enq (esize : Nat)
  | deq (esize : Nat)
  | ldl
  | stl
  | atl (cas : Bool) (ret : Bool)
  | flush
  | lockb
  | unlockb
  | accarm
  | contrib
  | accq
  | accdrop
  | pstore
  | axinv (region : Nat)
  | axq (region sel : Nat)
  | axb (region : Nat)
  | axe (region : Nat)
  | sload
  | copyAck
deriving DecidableEq, Repr

/-- One access of an operation: one lane's bytes within one cell, or the lane's whole action. `off`
is where its bytes stand in the lane's value; `leaf` is the leaf it was translated by, which gives its policy,
grain and way partition (R309, R313); `aux` holds the operation's further operand. -/
structure MemPart where
  lane  : Nat
  va    : Dbl
  pa    : Nat
  len   : Nat
  off   : Nat := 0
  leaf  : Nat := 0
  wdata : List Byte := []
  cmp   : Dbl := 0
  aux   : Nat := 0
  aux2  : Nat := 0
  got   : Option (List Byte) := none
  performed : Bool := false
  acked : Bool := false
deriving DecidableEq, Repr

/-- An operation a slice has issued and that is not yet complete (R51, R207). Operations of one
slice have rising ids in program order; `issue` is shared by the slices of one cohort issue. `joint` says that
the operations of the issue are one access of the whole cohort (R158, R201, R340). -/
structure MemOp where
  id     : Nat
  issue  : Nat
  gang   : Nat
  slice  : Nat
  core   : Nat
  part   : Nat
  ctx    : Nat
  kern   : Nat
  kind   : OpKind
  cls    : Cls
  order  : Nat
  scope  : Nat
  dst    : Nat := 0
  nreg   : Nat := 0
  pc     : VAddr := 0
  span   : Nat := 0
  parts  : List MemPart
  joint  : Bool := false
  stamp  : Nat := 0
  done   : Bool := false
  killed : Bool := false
deriving DecidableEq, Repr

/-! ## Caches, directory, translation -/

/-- An L1 block (R186, R188): a run of cells of one frame. -/
structure L1Block where
  core    : Nat
  frame   : Nat
  start   : Nat
  cells   : List (BitVec 256)
  missPc  : VAddr
  missCell : Nat
  touched : BitVec 16
  policy  : Nat
deriving DecidableEq, Repr

/-- A cell of a local-slice block: its bytes and whether it is modified. -/
structure L2Cell where
  data  : BitVec 256
  dirty : Bool
deriving DecidableEq, Repr

/-- An L2 block of a frame homed on another die or device (R181, R193, R330, R337). -/
structure L2Block where
  die    : Nat
  frame  : Nat
  start  : Nat
  cells  : List L2Cell
  part   : Nat
  ctx    : Nat
  policy : Nat
  expiry : Option Nat := none
deriving DecidableEq, Repr

/-- A home-slice block (R186): which cells of a frame it holds and which are dirty towards LPDDR, and the
policy and way partition of its page. Its data are the home's copy. -/
structure HomeBlock where
  frame  : Nat
  start  : Nat
  dirty  : List Bool
  policy : Nat
  wayp   : Nat := 0
deriving DecidableEq, Repr

/-- An LLC line (R181): 512 bytes with a valid and a dirty bit per cell, in one way of its set. -/
structure LlcLine where
  frame : Nat
  valid : BitVec 16
  dirty : BitVec 16
  way   : Nat
  policy : Nat := 0
deriving DecidableEq, Repr

/-- A directory entry (R324): pointer mode lists the agents of PTR0 upward in `ptrs`. -/
structure DirEntry where
  grain   : Nat
  size    : Nat
  horizon : Word := 0
  coarse  : Bool := false
  owned   : Bool := false
  ptrs    : List Nat := []
  vec     : BitVec 8 := 0
deriving DecidableEq, Repr

/-- Who waits for the acknowledgement of an OWN or WRITE (R326): a part of an operation, a copy, a peer's
request with the answer it is to have, or an engine of this device. -/
inductive Writer where
  | nobody
  | part (op i : Nat)
  | copy (id : Nat)
  | peer (dev tag cls : Nat) (data : List Byte)
  | engine (id : Nat)
deriving DecidableEq, Repr

/-- A transaction in progress on a grain (R326, R328): `outstanding` are the agents whose
acknowledgement is not counted, `acks` those sent with the sender's incarnation (R323) and the modified bytes
they carry; `also` are the engines whose writes were performed within it (log 116). -/
structure Txn where
  id     : Nat
  grain  : Nat
  size   : Nat
  writer : Writer
  own    : Option Nat
  bytes  : SMap 8
  wpa    : Nat
  wlen   : Nat
  outstanding : List Nat
  acks   : List (Nat × Nat × List (Nat × Byte))
  also   : List Writer := []
deriving DecidableEq, Repr

/-- An eviction notice on its way to a home (R329), with its sender's incarnation (R323). -/
structure Notice where
  id    : Nat
  agent : Nat
  inc   : Nat
  grain : Nat
  size  : Nat
  data  : Option (List (Nat × Byte))
deriving DecidableEq, Repr

/-- A translation held by a TLB (R317): tagged with partition, context and page size. `place` names the L1 TLB
of a core or the L2 TLB of a slice; `held` says that PIN or LAUNCH loaded it. -/
structure TlbEntry where
  place : Nat
  part : Nat
  ctx  : Nat
  page : Nat
  size : Nat
  leaf : Dbl
  held : Bool := false
deriving DecidableEq, Repr

/-- A table entry in a die's upper-level cache (R317): the entry of level `lvl` for the addresses that agree
with `va` above that level's page. -/
structure UpperEntry where
  die   : Nat
  part  : Nat
  ctx   : Nat
  lvl   : Nat
  va    : Nat
  entry : Dbl
deriving DecidableEq, Repr

/-- A miss waiting for a walker of its die (R319): one per context and 64 KiB page, with the cores whose
misses have joined it. -/
structure Walk where
  die   : Nat
  part  : Nat
  ctx   : Nat
  page  : Nat
  cores : List Nat
deriving DecidableEq, Repr

/-- A line of a core's instruction cache (R194): 128 bytes from `va`. -/
structure ICell where
  core : Nat
  part : Nat
  ctx  : Nat
  va   : VAddr
  data : List Byte
deriving DecidableEq, Repr

/-! ## Copies, trees, regions -/

/-- The kinds of copy (R251, R256, R271). -/
inductive CopyKind where
  | g2l | l2g | l2l | gather | contrib
deriving DecidableEq, Repr

/-- A copy accepted by a copy unit (R250, R251, R256, R271). `pages` maps each probed 64 KiB page of
its global rows to a physical base and its leaf; `left` are the cells still to land, as (row, cell), and `sent` those
whose request is on its way to a peer. -/
structure Copy where
  id     : Nat
  issue  : Nat
  core   : Nat
  grp    : Nat
  gang   : Nat
  slice  : Nat
  part   : Nat
  ctx    : Nat
  kern   : Nat
  pc     : VAddr
  kind   : CopyKind
  queued : Bool
  owords : List Word
  gaddr  : Dbl := 0
  gofs   : Word := 0
  lofs   : Word := 0
  rows   : Nat := 1
  len    : Nat := 4
  rowVa  : List (Option Dbl) := []
  bar    : Option Nat := none
  pages  : List (Nat × Nat × Nat) := []
  left   : List (Nat × Nat) := []
  sent   : List (Nat × Nat) := []
  landed : Nat := 0
  fmt    : Nat := 0
  cols   : Nat := 1
  handle : Word := 0
  label  : Word := 0
  e0     : Nat := 0
  estride : Nat := 0
  replay : Bool := false
  stopped : Bool := false
deriving DecidableEq, Repr

/-- Where a partial is on its path (R273, R274); `rooted` when its root is written and the completion event
is still to be raised (R276). -/
inductive PLoc where
  | toCore (core : Nat)
  | heldCore (core : Nat)
  | toPort (port : Nat)
  | heldPort (port : Nat)
  | toHome
  | heldHome (home : Nat)
  | rooted (home : Nat)
deriving DecidableEq, Repr

/-- A partial sum in flight or held (R268, R273). `acks` are the operations that wait for it to pass
step 1 at its home; `kerns` are the kernels of the partials it was
paired from, `tags` the peers' packets that await its acknowledgement (R338). -/
structure Partial where
  id     : Nat
  part   : Nat
  ctx    : Nat
  kern   : Nat
  handle : Word
  elem   : Nat
  level  : Nat
  index  : Nat
  value  : Dbl
  replay : Bool
  acks   : List (Nat × Nat)
  loc    : PLoc
  since  : Nat
  core   : Nat
  tags   : List (Nat × Nat) := []
  kerns  : List Nat := []
deriving DecidableEq, Repr

/-- The states of an accumulator slot (R265). -/
inductive AccSlotState where
  | free | armed | dropping
deriving DecidableEq, Repr

/-- A slot of a context's accumulator table (R264, R261). -/
structure AccSlot where
  slot   : Nat
  gen    : Nat
  state  : AccSlotState
  desc   : Dbl := 0
  base   : Dbl := 0
  ecount : Nat := 0
  nleaf  : Nat := 0
  fmt    : Nat := 0
  flags  : Nat := 0
  cap    : Nat := 0
  leafmap : Dbl := 0
  spill  : Dbl := 0
  event  : Dbl := 0
  purged : List Nat := []
deriving DecidableEq, Repr

/-- A sample on its way to its region's home (R356). -/
structure Sample where
  id     : Nat
  part   : Nat
  ctx    : Nat
  region : Nat
  kern   : Nat
  kord   : Nat
  gid    : Nat
  word3  : Word
  x      : List Word
  y      : List Word
  err    : Option Word
  op     : Nat
deriving DecidableEq, Repr

/-! ## Contexts, queues, kernels -/

/-- Context states (R70). -/
inductive CState where
  | free | built | runnable | running | parked | halting | halted | debugStopped | retired
deriving DecidableEq, Repr

/-- Fault codes (R71). -/
inductive FaultCode where
  | illegalOp | xlateFault | permFault | cellCross | lmRange | stackOverflow | dupMismatch
  | spillOverflow | dataLoss | homeLost | linkLoss | regionFault | carryOverflow | barrierMisuse
  | watchdog | haltRequest | debugStop
deriving DecidableEq, Repr

/-- A fault raised by an engine and its stop record (R76); `prim` and `dbg` are FLAGS bits [0] and [2]. -/
structure FaultRec where
  part  : Nat
  ctx   : Nat
  code  : Option FaultCode
  kind  : Nat
  die   : Nat
  unit  : Nat
  place : Nat := 0
  exact : Bool := true
  pc    : Dbl := 0
  info  : Dbl := 0
  mode  : Word := 0
  counters : Word := 0
  kord  : Nat := 0
  group : Nat := 0
  gang  : Nat := 0
  detail : List (Nat × Byte) := []
  cycle : Nat := 0
  ptp   : Nat := 0
  prim  : Bool := false
  dbg   : Bool := false
deriving DecidableEq, Repr

/-- The context descriptor's fields (R69). -/
structure CtxDesc where
  ptRoot   : Nat := 0
  fixedGear : Bool := false
  pbufQuota : Nat := 64
  lockQuota : Nat := 0
  seed     : Dbl := 0
  trapBase : Dbl := 0
  stopArea : Dbl := 0
  stopSize : Nat := 0x10000
  wdogMs   : Nat := 0
  saveArea : Dbl := 0
  saveSize : Nat := 0
deriving DecidableEq, Repr

/-- A context (R69, R70, R73, R80, R103, R264, R315). -/
structure Ctx where
  part   : Nat
  cid    : Nat
  state  : CState
  desc   : CtxDesc := {}
  lockUsed : Nat := 0
  kord   : Nat := 0
  pinned : List (Nat × Nat × Nat) := []
  parkCmd : Bool := false
  debugHalt : Bool := false
  t0ptp  : Nat := 0
  primary : Option FaultRec := none
  recs   : List FaultRec := []
  orphans : Nat := 0
  orphanLost : Nat := 0
  orphanNext : Nat := 0
  saves  : List (Nat × Nat × Nat) := []
  accs   : List AccSlot := []
  regionAt : List (Nat × Dbl) := []
  held   : List (Nat × Nat) := []
  eagerSeen : List (Nat × Nat) := []
  perf   : List (Nat × Nat × Dbl) := []
deriving DecidableEq, Repr

/-- Launch-queue and data-queue states (R89, R91). -/
inductive QState where
  | unbound | bound | active | stalled | draining | error
deriving DecidableEq, Repr

/-- A bound queue's latched configuration, the header's translation and its place in the dispatcher's order (R90,
R99). -/
structure Queue where
  id     : Nat
  part   : Nat
  ctx    : Nat
  va     : Dbl
  pa     : Nat
  leaf   : Nat
  launch : Bool
  esize  : Nat
  cap    : Nat
  base   : Dbl
  prio   : Nat
  qflags : Nat
  state  : QState
  stamps : List Nat
  taken  : Option Nat := none
deriving DecidableEq, Repr

/-- A launch packet's fields (R97). -/
structure Packet where
  kind   : Nat
  prio   : Nat
  flags  : Nat
  stages : List Nat
  code   : Dbl
  tile   : Dbl
  gx     : Nat
  gy     : Nat
  gz     : Nat
  regs   : Nat
  acc    : Nat
  lmem   : Nat
  args   : Dbl
  wset   : Dbl
  dep0   : Dbl
  dep0v  : Nat
  dep1   : Dbl
  dep1v  : Nat
  done   : Dbl
  donev  : Nat
  regions : Dbl
  recdest : Dbl
  raw    : List Byte
deriving DecidableEq, Repr

/-- Kernel states (R112); other packets use waiting, active (dispatching) and retired. -/
inductive KState where
  | waiting | pinning | dispatching | running | draining | fitting | retired | failed
deriving DecidableEq, Repr

/-- Region states (R343, R346). -/
inductive RState where
  | off | observe | train | armed | fallback | invalid
deriving DecidableEq, Repr

/-- A region latched by a launch (R346, R347). -/
structure RLatch where
  id    : Nat
  desc  : Dbl
  hash  : Dbl
  mode  : RState
  treated : Bool := false
deriving DecidableEq, Repr

/-- What a packet that has ended still owes of its completion (R97, R113): all of it, when its context has
halted, or the add that follows its status word. -/
inductive Completion where
  | none | atHalt | add
deriving DecidableEq, Repr

/-- A packet taken by the dispatcher; a LAUNCH packet's record is its kernel (R97, R112). `plan` are the cores
chosen for the groups of a cooperative kernel while victims leave them (R110). -/
structure Kernel where
  id     : Nat
  part   : Nat
  ctx    : Nat
  queue  : Nat
  qidx   : Nat
  qpa    : Nat
  qleaf  : Nat
  ord    : Nat
  pkt    : Packet
  state  : KState
  prio   : Nat
  fixed  : Bool
  core   : Option Nat := none
  acceptNo : Option Nat := none
  nextLid : Nat := 0
  total  : Nat := 0
  turn   : Nat := 0
  started : Bool := false
  countNs : Nat := 0
  status : Nat := 0
  faultCode : Nat := 0
  linkLoss : Bool := false
  pins   : List (Nat × Nat) := []
  regions : List RLatch := []
  advanced : Bool := false
  due    : Completion := .none
  plan   : List Nat := []
deriving DecidableEq, Repr

/-! ## Partitions, trust, fabric, service -/

/-- A host enqueue window (R100); `cmd` is the command, and the context it names, that BUSY stands for. -/
structure Hew where
  cmd    : Option (Nat × Nat) := none
  queue  : Dbl := 0
  entry  : SMap 8 := []
  status : Word := 0
  index  : Dbl := 0
deriving DecidableEq, Repr

/-- TDISP interface states (R404). -/
inductive TState where
  | configUnlocked | configLocked | run | error
deriving DecidableEq, Repr

/-- The standing policy of a partition (R406, R407). -/
structure Policy where
  facil  : Nat
  counter : Nat
  doms   : List (Nat × Nat × Bool)
  blob   : List Byte
deriving DecidableEq, Repr

/-- A partition and the device interface of its virtual function (R67, R68, R116, R404, R405). `areas` are the
stack areas in use and `pool` the bytes of the stack pool (R126). -/
structure Partition where
  id     : Nat
  vf     : Nat
  dies   : List Nat
  reserved : List (Nat × Nat) := []
  state  : TState := .configUnlocked
  key    : BitVec 256 := 0
  keyGen : Word := 0
  polKey : Option Nat := none
  policy : Option Policy := none
  lastCounter : Nat := 0
  placeNo : Nat := 0
  areas  : List Nat := []
  pool   : SMap 8 := []
  ctxwDesc : Dbl := 0
  ctxwCmd : Option (Nat × Nat) := none
  ctxwStatus : Word := 0
  hews   : List Hew := [{}, {}, {}, {}, {}, {}, {}, {}]
  ideKeys : List (Nat × Nat) := []
deriving DecidableEq, Repr

/-- Hyloth link states (R332, R334). -/
inductive LState where
  | down | training | up | degraded | quarantined
deriving DecidableEq, Repr

/-- A Hyloth link (R332, R334, R335); `replays` counts the replays of the flit numbered `flit`, the last to fail its
CRC. -/
structure Link where
  state   : LState := .down
  lanes   : Nat := 0
  retries : Nat := 0
  peerInc : Nat := 0
  attempts : Nat := 0
  flit    : Nat := 0
  replays : Nat := 0
  stops   : List Nat := []
  keyNo   : Nat := 0
deriving DecidableEq, Repr

/-- A packet this device has put on the fabric (R333, R338): a request with what it asks of device `dev`, or an
answer with its data and note. `src`, `part` and `inc` are this device's number, the requester's partition and this
device's incarnation. -/
structure FabricOut where
  dev    : Nat
  tag    : Nat
  inc    : Nat
  cls    : Nat
  src    : Nat := 0
  part   : Nat := 0
  req    : Option PeerOp := none
  data   : List Byte := []
  note   : Nat := 0
  link   : Option Nat := none
deriving DecidableEq, Repr

/-- An SPDM responder's state for one function (R403). -/
structure Spdm where
  fn      : Nat
  version : Bool := false
  caps    : Bool := false
  algs    : Bool := false
  secret  : Option Nat := none
  session : Bool := false
  answer  : List Byte := []
  status  : Nat := 0
  keyNo   : Nat := 0
deriving DecidableEq, Repr

/-- An agent's move (log 2); `starved` is the issue of a gang that has starved (R122). -/
inductive Move where
  | lane (gang : Nat) (mask : BitVec 8)
  | tile (group : Nat)
  | event (i : Instr)
  | starved (gang : Nat)
  | tick (cycles ns : Nat)
deriving DecidableEq, Repr

/-! ## The state -/

/-- The gangs, groups and tile streams, and the model's own schedule (log 2, log 7). -/
structure Exe where
  cur    : Option (Nat × BitVec 8) := none
  curTile : Option Nat := none
  agenda : List Move := []
  gangs  : List Gang := []
  groups : List Group := []
  copies : List Copy := []
  fresh  : Nat := 0
  nextId : Nat := 0
  lastGang : List (Nat × Nat) := []
deriving DecidableEq, Repr

/-- The memory system. Byte addresses of `bytes` are device offsets, of `lpddr` addresses on the module's channels
(R306), of `host` host bus addresses (R305); `homeStamp` has a key per home slice (R216); `leases` are the leases
granted, as (device, offset, expiry) (R336); `keys` has the draw of the key that a die's memory was last re-keyed with:
there a byte is stored as its difference, by exclusive or, from what memory that nothing has written since reads as (R321,
log 39). -/
structure Mem where
  bytes  : SMap 8 := []
  lpddr  : SMap 8 := []
  keys   : List (Nat × Nat) := []
  host   : SMap 8 := []
  ops    : List MemOp := []
  l1     : List L1Block := []
  l2     : List L2Block := []
  homeBlocks : List HomeBlock := []
  llc    : List LlcLine := []
  dir    : List DirEntry := []
  txns   : List Txn := []
  notices : List Notice := []
  tlb    : List TlbEntry := []
  upper  : List UpperEntry := []
  walks  : List Walk := []
  icache : List ICell := []
  predict : SMap 8 := []
  clocks : List (Nat × Nat) := []
  homeStamp : SMap 64 := []
  hostBuf : List Nat := []
  hubBuf : List Nat := []
  leases : List (Nat × Nat × Nat) := []
  lastKord : List (Nat × Nat × Nat × Nat) := []
deriving DecidableEq, Repr

/-- Contexts, queues, kernels, trees and regions. -/
structure Ctl where
  ctxs   : List Ctx := []
  parts  : List Partition := []
  queues : List Queue := []
  kernels : List Kernel := []
  faults : List FaultRec := []
  partials : List Partial := []
  samples : List Sample := []
  stampNo : Nat := 0
  acceptNo : Nat := 0
deriving DecidableEq, Repr

/-- Clocks, fabric, trust and service. `dieReplays` has, for links between dies, the last flit to fail its CRC and how
often it has been replayed (R410); `cut` has the pairs of a link and a device that the link's switch plane does not
reach (R335, log 133). -/
structure Sys where
  cycle  : Nat := 0
  ptp    : Nat := 0
  domId  : Nat := 0x1FF
  leaseNs : Nat := 8000
  guardNs : Nat := 200
  syncNs : Nat := 0
  links  : List Link := List.replicate 24 {}
  ownInc : Nat := 0
  agentInc : SMap 8 := []
  peerInc : SMap 8 := []
  dieReplays : List (Nat × Nat × Nat) := []
  cut    : List (Nat × Nat) := []
  lostDies : List Nat := []
  lostPeers : List Nat := []
  scrubbing : List Nat := []
  out    : List FabricOut := []
  flight : List FabricOut := []
  hostOut : List (Nat × List Byte) := []
  spdm   : List Spdm := []
  temp   : Nat := 0
  step   : Nat := 0
  kickstand : Bool := false
  kdie   : Nat := 0
  nextFull : Bool := false
  tripped : Bool := false
  clocksStopped : Bool := false
  errUncorr : SMap 16 := []
  errCorr : SMap 16 := []
  flash  : List (List Byte) := []
  bootFailed : Option Nat := none
  measures : List (BitVec 512) := []
  draws  : Nat := 0
deriving DecidableEq, Repr

/-- The whole machine. -/
structure State where
  exe : Exe := {}
  mem : Mem := {}
  ctl : Ctl := {}
  sys : Sys := {}
deriving DecidableEq, Repr

/-- The machine right after module reset: no partition, no context, memory with nothing listed,
links down, DOM_ID 0x1FF, leases at their reset values (R332, R411). Values the spec does not give are
named in log 6. -/
def State.reset : State := {}

/-- Why the machine stops. -/
inductive Fault where
  /-- Raised by every step while the module's clocks are stopped after a thermal or undervoltage trip;
  only MODULE_RESET goes on (R414). Safe: the hardware does not run either. -/
  | clocksStopped
deriving DecidableEq, Repr

/-- Why an instruction has no meaning in the model. -/
inductive Refusal where
  /-- Raised by an arm of `exec` whose instruction has no meaning yet. Safe. -/
  | notModelled (mnemonic : String)
deriving DecidableEq, Repr

end Sys2Proof.Machine
end

