-- ==== Sys2Proof/Machine/Sparse.lean ====
section
/-! DEFINITION. Sparse.lean: reading and writing sparse maps, byte order (R1), bit fields (R8). -/

namespace Sys2Proof.Machine

/-- The value at key `k`; zero where no entry stands. -/
def smGet {n : Nat} (m : SMap n) (k : Nat) : BitVec n :=
  match m with
  | [] => 0
  | (a, v) :: t => if a = k then v else smGet t k

/-- The map with the nonzero value `v` put at key `k`, in its place. -/
def smIns {n : Nat} (m : SMap n) (k : Nat) (v : BitVec n) : SMap n :=
  match m with
  | [] => [(k, v)]
  | (a, w) :: t =>
    if a < k then (a, w) :: smIns t k v
    else if a = k then (k, v) :: t
    else (k, v) :: (a, w) :: t

/-- The map with `v` at key `k`, in canonical form: a zero removes the entry. -/
def smSet {n : Nat} (m : SMap n) (k : Nat) (v : BitVec n) : SMap n :=
  if v = 0 then m.filter fun p => p.1 != k else smIns m k v

/-- The canonical form: keys strictly rising, no zero value. -/
def smWf {n : Nat} : SMap n → Bool
  | [] => true
  | [(_, v)] => v != 0
  | (a, v) :: (b, w) :: t => decide (a < b) && v != 0 && smWf ((b, w) :: t)

/-- Writes a run of values from key `k` upward. -/
def smPut {n : Nat} (m : SMap n) (k : Nat) : List (BitVec n) → SMap n
  | [] => m
  | v :: vs => smPut (smSet m k v) (k + 1) vs

/-- Reads a run of `c` values from key `k` upward. -/
def smRun {n : Nat} (m : SMap n) (k : Nat) : (c : Nat) → List (BitVec n)
  | 0 => []
  | c + 1 => smGet m k :: smRun m (k + 1) c

/-- The entries outside the keys [lo, hi). -/
def smDrop {n : Nat} (m : SMap n) (lo hi : Nat) : SMap n :=
  m.filter fun p => p.1 < lo || hi ≤ p.1

/-- Memory's canonical form (the maps of bytes of State). -/
def Memory.wf (m : SMap 8) : Bool := smWf m

/-- The natural number that little-endian bytes stand for (R1). -/
def leNat : List Byte → Nat
  | [] => 0
  | b :: bs => b.toNat + 256 * leNat bs

/-- The `c` little-endian bytes of a natural number (R1). -/
def natLe (x : Nat) : (c : Nat) → List Byte
  | 0 => []
  | c + 1 => BitVec.ofNat 8 x :: natLe (x / 256) c

/-- Bits [m:l] of `x` as a natural number (R8). -/
def bits (x m l : Nat) : Nat := x / 2 ^ l % 2 ^ (m + 1 - l)

/-- `x` read as an n-bit two's-complement value (R8). -/
def signed (x n : Nat) : Int :=
  let v := x % 2 ^ n
  if 2 * v < 2 ^ n then (v : Int) else (v : Int) - 2 ^ n

/-- The n-bit pattern of an integer: `z` modulo 2^n. -/
def wrap (z : Int) (n : Nat) : Nat := (z % (2 ^ n : Int)).toNat

/-- `z` clamped to [lo, hi]. -/
def clampInt (z lo hi : Int) : Int := if z < lo then lo else if hi < z then hi else z

/-- Element number `i` of a list, or the given default. -/
def nth {α : Type} (l : List α) (i : Nat) (d : α) : α := (l[i]?).getD d

/-- The list with element `i` changed by `f`. -/
def modAt {α : Type} (l : List α) (i : Nat) (f : α → α) : List α :=
  match l, i with
  | [], _ => []
  | x :: t, 0 => f x :: t
  | x :: t, i + 1 => x :: modAt t i f

/-- Every element satisfying `p` changed by `f`. -/
def modIf {α : Type} (l : List α) (p : α → Bool) (f : α → α) : List α :=
  l.map fun x => if p x then f x else x

/-- Inserts into a list kept in rising order by `key`. -/
def insertBy {α : Type} (key : α → Nat) (x : α) : List α → List α
  | [] => [x]
  | y :: t => if key x < key y then x :: y :: t else y :: insertBy key x t

/-- The elements of a list, each once, in the order of their first places. -/
def uniq {α : Type} [DecidableEq α] (l : List α) : List α :=
  l.foldl (fun acc x => if acc.contains x then acc else acc ++ [x]) []

/-- Rounds `x` up to a multiple of `m`. -/
def alignUp (x m : Nat) : Nat := (x + m - 1) / m * m

/-- mix64 of R171. -/
def mix64 (z0 : Nat) : Nat :=
  let z := z0 % 2 ^ 64
  let z := (Nat.xor z (z >>> 30)) * 0xBF58476D1CE4E5B9 % 2 ^ 64
  let z := (Nat.xor z (z >>> 27)) * 0x94D049BB133111EB % 2 ^ 64
  Nat.xor z (z >>> 31)

end Sys2Proof.Machine
end

