-- ==== Sys2Proof/Machine/Num.lean ====
section
/-! DEFINITION. Num.lean: the floating-point formats (R22 to R26), rounding and overflow (R30, R31),
conditions (R33), conversion (R32), stochastic rounding (R34), the MX scale (R36) and the canonical
tree (R37). -/

namespace Sys2Proof.Machine

/-- A floating-point format of R22: exponent and fraction widths, bias, and which special codes. -/
structure Fmt where
  eb : Nat
  mb : Nat
  bias : Nat
  hasInf : Bool
  ieeeNan : Bool
  onesNan : Bool
deriving DecidableEq, Repr

def F64 : Fmt := ⟨11, 52, 1023, true, true, false⟩
def F32 : Fmt := ⟨8, 23, 127, true, true, false⟩
def F16 : Fmt := ⟨5, 10, 15, true, true, false⟩
def BF16 : Fmt := ⟨8, 7, 127, true, true, false⟩
def E4M3 : Fmt := ⟨4, 3, 7, false, false, true⟩
def E5M2 : Fmt := ⟨5, 2, 15, true, true, false⟩
def E3M2 : Fmt := ⟨3, 2, 3, false, false, false⟩
def E2M3 : Fmt := ⟨2, 3, 1, false, false, false⟩
def E2M1 : Fmt := ⟨2, 1, 1, false, false, false⟩

/-- The width of a format's code. -/
def fmtWidth (f : Fmt) : Nat := 1 + f.eb + f.mb

/-- The code of the largest finite magnitude (R22). -/
def maxCode (f : Fmt) : Nat :=
  if f.ieeeNan then (2 ^ f.eb - 1) * 2 ^ f.mb - 1
  else if f.onesNan then 2 ^ (f.eb + f.mb) - 2
  else 2 ^ (f.eb + f.mb) - 1

/-- The code of infinity's magnitude in a format that has one. -/
def infCode (f : Fmt) : Nat := (2 ^ f.eb - 1) * 2 ^ f.mb

/-- The canonical NaN of a format (R24); 0 in a format without one (R32). -/
def canonNan (f : Fmt) : Nat :=
  if f.ieeeNan then infCode f + 2 ^ (f.mb - 1)
  else if f.onesNan then 2 ^ (f.eb + f.mb) - 1
  else 0

/-- A code with the sign bit put in place. -/
def withSign (f : Fmt) (neg : Bool) (mag : Nat) : Nat :=
  if neg then 2 ^ (f.eb + f.mb) + mag else mag

/-- The value of a code: a NaN, an infinity, or ±mant × 2^exp. -/
inductive FVal where
  | nan
  | inf (neg : Bool)
  | fin (neg : Bool) (mant : Nat) (exp : Int)
deriving DecidableEq, Repr

/-- The value a code stands for (R22). -/
def decodeF (f : Fmt) (c : Nat) : FVal :=
  let neg := c / 2 ^ (f.eb + f.mb) % 2 == 1
  let mag := c % 2 ^ (f.eb + f.mb)
  let e := mag / 2 ^ f.mb
  let m := mag % 2 ^ f.mb
  if f.ieeeNan && e == 2 ^ f.eb - 1 then (if m == 0 then .inf neg else .nan)
  else if f.onesNan && mag == 2 ^ (f.eb + f.mb) - 1 then .nan
  else if e == 0 then .fin neg m (1 - (f.bias : Int) - f.mb)
  else .fin neg (2 ^ f.mb + m) ((e : Int) - f.bias - f.mb)

/-- The five conditions of R33, as the bits of FPX_FLAGS (R80). -/
abbrev Conds := BitVec 5

def condNX : Conds := 1
def condUF : Conds := 2
def condOF : Conds := 4
def condDZ : Conds := 8
def condNV : Conds := 16

/-- Two to a possibly negative power, as a fraction. -/
def pow2Frac (e : Int) : Nat × Nat :=
  if 0 ≤ e then (2 ^ e.toNat, 1) else (1, 2 ^ (-e).toNat)

/-- floor(log2(num / den)) for nonzero num and den. -/
def floorLog2 (num den : Nat) : Int :=
  let e : Int := (Nat.log2 num : Int) - Nat.log2 den
  let (p, q) := pow2Frac e
  if den * p ≤ num * q then e else e - 1

/-- Whether the quotient with remainder `r` of divisor `d`, truncated to `k`, is stepped away from
zero by rounding mode `rm` (R30). -/
def roundsUp (rm : Nat) (neg : Bool) (k r d : Nat) : Bool :=
  if r = 0 then false
  else if rm = 0 then decide (d < 2 * r) || (decide (2 * r = d) && k % 2 == 1)
  else if rm = 1 then false
  else if rm = 2 then !neg
  else if rm = 3 then neg
  else decide (d ≤ 2 * r)

/-- The magnitude num/den on the grid of a format with the exponent range unbounded above (R30): the
grid code (which passes `maxCode` on overflow) and whether it is inexact. -/
def roundMag (f : Fmt) (rm : Nat) (neg : Bool) (num den : Nat) : Nat × Bool :=
  if num = 0 then (0, false)
  else
    let emin : Int := 1 - (f.bias : Int)
    let e := floorLog2 num den
    let q : Int := (if e < emin then emin else e) - f.mb
    let (p, s) := pow2Frac q
    let n := num * s
    let d := den * p
    let k := n / d
    let r := n % d
    let k' := if roundsUp rm neg k r d then k + 1 else k
    ((q - (emin - f.mb)).toNat * 2 ^ f.mb + k', r != 0)

/-- The outcome of an overflow (R31). -/
def overflowMag (f : Fmt) (rm : Nat) (sat neg : Bool) : Nat :=
  if !f.hasInf || sat then maxCode f
  else if rm = 0 ∨ rm = 4 then infCode f
  else if rm = 1 then maxCode f
  else if rm = 2 then (if neg then maxCode f else infCode f)
  else (if neg then infCode f else maxCode f)

/-- round_to of R8 for a finite exact value ±num/den: the code and the conditions of R33. -/
def roundTo (f : Fmt) (rm : Nat) (sat neg : Bool) (num den : Nat) : Nat × Conds :=
  let (mag, ix) := roundMag f rm neg num den
  if maxCode f < mag then (withSign f neg (overflowMag f rm sat neg), condOF ||| condNX)
  else
    let uf := ix && mag != 0 && decide (mag < 2 ^ f.mb)
    (withSign f neg mag, (if ix then condNX else 0) ||| (if uf then condUF else 0))

/-- An exact result before its rounding: a NaN (newly invalid or not), an infinity, or ±num/den. -/
inductive Exact where
  | nan (invalid : Bool)
  | inf (neg : Bool) (divZero : Bool)
  | fin (neg : Bool) (num den : Nat)
deriving DecidableEq, Repr

/-- The fraction of ±mant × 2^exp. -/
def finExact (neg : Bool) (mant : Nat) (exp : Int) : Exact :=
  let (p, q) := pow2Frac exp
  .fin neg (mant * p) q

/-- An arithmetic result written in its format (R160): NaNs canonical, an infinite exact result
returned under every mode (R31), a finite one rounded once. -/
def finishF (f : Fmt) (rm : Nat) (sat : Bool) : Exact → Nat × Conds
  | .nan iv => (canonNan f, if iv then condNV else 0)
  | .inf neg dz => (withSign f neg (infCode f), if dz then condDZ else 0)
  | .fin neg n d => roundTo f rm sat neg n d

/-- The sign of an exact zero sum (R160). -/
def zeroSign (rm : Nat) (n1 n2 : Bool) : Bool := if n1 == n2 then n1 else rm == 3

/-- The exact sum of two values (R162). -/
def addF (rm : Nat) : FVal → FVal → Exact
  | .nan, _ => .nan false
  | _, .nan => .nan false
  | .inf a, .inf b => if a == b then .inf a false else .nan true
  | .inf a, .fin _ _ _ => .inf a false
  | .fin _ _ _, .inf b => .inf b false
  | .fin n1 m1 e1, .fin n2 m2 e2 =>
    let e := if e1 ≤ e2 then e1 else e2
    let a : Int := (if n1 then -1 else 1) * ((m1 * 2 ^ (e1 - e).toNat : Nat) : Int)
    let b : Int := (if n2 then -1 else 1) * ((m2 * 2 ^ (e2 - e).toNat : Nat) : Int)
    if a + b = 0 then .fin (zeroSign rm n1 n2) 0 1
    else finExact (decide (a + b < 0)) (a + b).natAbs e

/-- The value with its sign inverted. -/
def negF : FVal → FVal
  | .nan => .nan
  | .inf n => .inf (!n)
  | .fin n m e => .fin (!n) m e

/-- The exact product as a value (R162); none where it is 0 × ∞. -/
def mulV : FVal → FVal → Option FVal
  | .nan, _ => some .nan
  | _, .nan => some .nan
  | .inf a, .inf b => some (.inf (a != b))
  | .inf a, .fin b m _ => if m = 0 then none else some (.inf (a != b))
  | .fin a m _, .inf b => if m = 0 then none else some (.inf (a != b))
  | .fin a m1 e1, .fin b m2 e2 => some (.fin (a != b) (m1 * m2) (e1 + e2))

/-- The exact product (R162). -/
def mulF (x y : FVal) : Exact :=
  match mulV x y with
  | none => .nan true
  | some .nan => .nan false
  | some (.inf n) => .inf n false
  | some (.fin n m e) => finExact n m e

/-- x × y + c, exact (R162). -/
def fmaF (rm : Nat) (x y c : FVal) : Exact :=
  match mulV x y with
  | none => if c = .nan then .nan false else .nan true
  | some p => addF rm p c

/-- x / y, exact (R162). -/
def divF : FVal → FVal → Exact
  | .nan, _ => .nan false
  | _, .nan => .nan false
  | .inf _, .inf _ => .nan true
  | .inf a, .fin b _ _ => .inf (a != b) false
  | .fin a _ _, .inf b => .fin (a != b) 0 1
  | .fin a m1 e1, .fin b m2 e2 =>
    if m2 = 0 then (if m1 = 0 then .nan true else .inf (a != b) true)
    else
      let (p, q) := pow2Frac (e1 - e2)
      .fin (a != b) (m1 * p) (m2 * q)

/-- x × 2^n (R162). Shifts beyond ±5,000 round as ±5,000 does in every format of R22. -/
def scaleF (x : FVal) (n : Int) : Exact :=
  match x with
  | .nan => .nan false
  | .inf a => .inf a false
  | .fin a m e => finExact a m (e + clampInt n (-5000) 5000)

/-- A signed zero or fraction compared: the order of R164 on values that are not NaN; −1, 0 or 1. -/
def cmpF (x y : FVal) : Int :=
  match x, y with
  | .inf a, .inf b => if a == b then 0 else if a then -1 else 1
  | .inf a, _ => if a then -1 else 1
  | _, .inf b => if b then 1 else -1
  | .fin n1 m1 e1, .fin n2 m2 e2 =>
    let e := if e1 ≤ e2 then e1 else e2
    let a : Int := (if n1 then -1 else 1) * ((m1 * 2 ^ (e1 - e).toNat : Nat) : Int)
    let b : Int := (if n2 then -1 else 1) * ((m2 * 2 ^ (e2 - e).toNat : Nat) : Int)
    if a < b then -1 else if b < a then 1 else 0
  | _, _ => 0

/-- FMIN and FMAX on codes of one format (R163): −0 below +0, a NaN gives the canonical NaN. -/
def minmaxF (f : Fmt) (wantMax : Bool) (a b : Nat) : Nat :=
  match decodeF f a, decodeF f b with
  | .nan, _ => canonNan f
  | _, .nan => canonNan f
  | x, y =>
    let c := cmpF x y
    let aNeg := a / 2 ^ (f.eb + f.mb) % 2 == 1
    let aLess := decide (c < 0) || (decide (c = 0) && aNeg)
    if wantMax then (if aLess then b else a) else (if aLess then a else b)

/-! ## Conversion -/

/-- The rounding of a fraction to an integer (R32, R166). -/
def roundInt (rm : Nat) (neg : Bool) (num den : Nat) : Nat × Bool :=
  let k := num / den
  let r := num % den
  (if roundsUp rm neg k r den then k + 1 else k, r != 0)

/-- Conversion between floating formats (R31, R32): an infinite source is not rounded. -/
def cvtFF (dst : Fmt) (rm : Nat) (sat : Bool) (x : FVal) : Nat × Conds :=
  match x with
  | .nan => (canonNan dst, if dst.ieeeNan || dst.onesNan then 0 else condNV)
  | .inf n =>
    if dst.hasInf && !sat then (withSign dst n (infCode dst), 0)
    else (withSign dst n (maxCode dst), if dst.hasInf then condNX else condNV ||| condNX)
  | .fin n m e =>
    let (p, q) := pow2Frac e
    roundTo dst rm sat n (m * p) q

/-- Conversion of a floating value to an integer of [lo, hi], as a pattern of `w` bits (R32). -/
def cvtFI (w : Nat) (lo hi : Int) (rm : Nat) (x : FVal) : Nat × Conds :=
  match x with
  | .nan => (0, condNV)
  | .inf n => (wrap (if n then lo else hi) w, condNV ||| condNX)
  | .fin n m e =>
    let (p, q) := pow2Frac e
    let (k, ix) := roundInt rm n (m * p) q
    let z : Int := if n then -(k : Int) else k
    let c := clampInt z lo hi
    if c = z then (wrap z w, if ix then condNX else 0)
    else (wrap c w, condNV ||| condNX)

/-- Conversion of an integer to a floating format (R32). -/
def cvtIF (dst : Fmt) (rm : Nat) (sat : Bool) (z : Int) : Nat × Conds :=
  roundTo dst rm sat (decide (z < 0)) z.natAbs 1

/-- FRINT (R166): an integral value of the element's own format, with no condition. -/
def frintF (f : Fmt) (rm : Nat) (c : Nat) : Nat :=
  match decodeF f c with
  | .nan => canonNan f
  | .inf _ => c
  | .fin n m e =>
    let (p, q) := pow2Frac e
    (roundTo f 1 true n (roundInt rm n (m * p) q).1 1).1

/-- Stochastic rounding of a finite value (R34): the code and whether it differs from x. -/
def roundStoch (f : Fmt) (sat neg : Bool) (num den rnd : Nat) : Nat × Conds :=
  if num = 0 then (withSign f neg 0, 0)
  else
    let emin : Int := 1 - (f.bias : Int)
    let e := floorLog2 num den
    let q : Int := (if e < emin then emin else e) - f.mb
    let (p, s) := pow2Frac q
    let n := num * s
    let d := den * p
    let k := n / d
    let r := n % d
    let k' := if rnd < r * 2 ^ 32 / d then k + 1 else k
    let mag := (q - (emin - f.mb)).toNat * 2 ^ f.mb + k'
    if maxCode f < mag then (withSign f neg (overflowMag f 0 sat neg), condOF ||| condNX)
    else
      let uf := r != 0 && mag != 0 && decide (mag < 2 ^ f.mb)
      (withSign f neg mag, (if r ≠ 0 then condNX else 0) ||| (if uf then condUF else 0))

/-! ## Microscaling -/

/-- The element formats by code (R161, R282): 0 BF16 to 6 E2M1. -/
def elemFmt (c : Nat) : Option Fmt :=
  if c = 0 then some BF16 else if c = 1 then some F16 else if c = 2 then some E4M3
  else if c = 3 then some E5M2 else if c = 4 then some E3M2 else if c = 5 then some E2M3
  else if c = 6 then some E2M1 else none

/-- The width in bits of an element format (R174). -/
def elemWidth (c : Nat) : Nat :=
  if c ≤ 1 then 16 else if c ≤ 3 then 8 else if c ≤ 5 then 6 else if c = 6 then 4
  else if c = 7 then 8 else 2

/-- The largest exponent of an element format (R36). -/
def elemEmax (c : Nat) : Int :=
  if c = 2 then 8 else if c = 3 then 15 else if c = 4 then 4 else if c = 5 then 2
  else if c = 6 then 2 else 0

/-- The value of an element code: formats 0 to 6 by R22; code 7 read as MXINT8, c × 2^−6 (R26). -/
def elemValue (c code : Nat) : FVal :=
  match elemFmt c with
  | some f => decodeF f (code % 2 ^ fmtWidth f)
  | none =>
    let z := signed code 8
    .fin (decide (z < 0)) z.natAbs (-6)

/-- An MX element code for a finite value x × 2^(−e), always saturating (R36, R26). -/
def mxElem (c rm : Nat) (e : Int) (x : FVal) : Nat × Conds :=
  match x with
  | .fin n m xe =>
    let (p, q) := pow2Frac (xe - e)
    match elemFmt c with
    | some f => roundTo f rm true n (m * p) q
    | none =>
      let (k, ix) := roundInt rm n (m * p * 64) q
      if 127 < k then (wrap (if n then -127 else 127) 8, condOF ||| condNX)
      else (wrap (if n then -(k : Int) else k) 8, if ix then condNX else 0)
  | _ => (0, condNV)

/-- The shared scale of a block of F32 values (R36); none where a value is a NaN or an infinity. -/
def mxScale (c : Nat) (vs : List FVal) : Option Int :=
  if vs.any (fun v => match v with | .fin _ _ _ => false | _ => true) then none
  else
    let amax := vs.foldl (fun a v => match v with
      | .fin _ m e => if cmpF a (.fin false m e) < 0 then .fin false m e else a
      | _ => a) (FVal.fin false 0 0)
    match amax with
    | .fin _ m e =>
      if m = 0 then some (-127)
      else some (clampInt ((Nat.log2 m : Int) + e - elemEmax c) (-127) 127)
    | _ => none

/-! ## The canonical tree (R37) -/

/-- The sum of two present children of a tree node, rounded by RNE with saturate off (R37). -/
def nodeAdd (f : Fmt) (a b : Nat) : Nat × Conds :=
  finishF f 0 false (addF 0 (decodeF f a) (decodeF f b))

/-- One level of the tree over present and absent leaves (R37, R176). -/
def treeLevel (f : Fmt) : List (Option Nat) → List (Option Nat) × Conds
  | [] => ([], 0)
  | [x] => ([x], 0)
  | x :: y :: t =>
    let (rest, c) := treeLevel f t
    match x, y with
    | some a, some b => let (v, d) := nodeAdd f a b; (some v :: rest, c ||| d)
    | some a, none => (some a :: rest, c)
    | none, y => (y :: rest, c)

/-- The root of the tree over the leaves, by `fuel` levels; an absent root is none. -/
def treeRoot (f : Fmt) : (fuel : Nat) → List (Option Nat) → Option Nat × Conds
  | 0, l => ((l.head?).join, 0)
  | fuel + 1, l =>
    match l with
    | [] => (none, 0)
    | [x] => (x, 0)
    | _ =>
      let (l', c) := treeLevel f l
      let (r, d) := treeRoot f fuel l'
      (r, c ||| d)

/-- The root of T(N) over N present leaves. -/
def treeSum (f : Fmt) (l : List Nat) : Nat := ((treeRoot f 28 (l.map some)).1).getD 0

end Sys2Proof.Machine
end

