-- ==== Sys2Proof/Machine/Operands.lean ====
section
/-! DEFINITION. Operands.lean: the fields of the mode word (R47), lanes and guards (R50), and every
operand form of lane code: per-lane registers (R41, R42, R43), uniform registers and predicates (R44),
the declared registers (R46) and the element types (R48). -/

namespace Sys2Proof.Machine

/-! ## The mode word (R47) -/

def mGneg (m : BitVec 24) : Bool := m.getLsbD 23
def mGuard (m : BitVec 24) : Nat := bits m.toNat 22 20
def mType (m : BitVec 24) : Nat := bits m.toNat 19 16
def mRound (m : BitVec 24) : Nat := bits m.toNat 15 13
def mSat (m : BitVec 24) : Bool := m.getLsbD 12
def mScope (m : BitVec 24) : Nat := bits m.toNat 11 9
def mOrder (m : BitVec 24) : Nat := bits m.toNat 8 6
def mSpan (m : BitVec 24) : Nat := bits m.toNat 5 2

/-- The reset mode word (R47). -/
def resetMode : BitVec 24 := 0x040200

/-- Scope codes (R47). -/
def scGang : Nat := 0
def scGroup : Nat := 1
def scCore : Nat := 2
def scDie : Nat := 3
def scDevice : Nat := 4
def scDomain : Nat := 5
def scSystem : Nat := 6

/-- Whether an order acquires or releases (R210). -/
def ordAcq (o : Nat) : Bool := o == 1 || o == 3 || o == 4
def ordRel (o : Nat) : Bool := o == 2 || o == 3 || o == 4

/-! ## Slices and lanes -/

/-- Slice `k` of a gang. -/
def Gang.sl (g : Gang) (k : Nat) : Slice := nth g.slices k { pc := 0 }

/-- The gang with slice `k` changed. -/
def Gang.modSl (g : Gang) (k : Nat) (f : Slice → Slice) : Gang :=
  { g with slices := modAt g.slices k f }

/-- A slice that never issues again (R119). -/
def Slice.finished (x : Slice) : Bool := x.run == 0 && x.stack.isEmpty

/-- The slices a cohort mask names, in ascending order. -/
def maskSlices (m : BitVec 8) : List Nat := (List.range 8).filter fun k => m.getLsbD k

/-- The lanes of the slices a cohort mask names, in ascending order (R6). -/
def maskLanes (m : BitVec 8) : List Nat := (List.range 32).filter fun l => m.getLsbD (l / 4)

/-- Predicate `p` in lane `l`; P0 reads as true (R44). -/
def predAt (g : Gang) (p l : Nat) : Bool := p == 0 || (smGet g.preds p).getLsbD l

/-- The predicate map with `p` in lane `l` set to `v`; a write to P0 is discarded (R44). -/
def setPred (m : SMap 32) (p l : Nat) (v : Bool) : SMap 32 :=
  if p = 0 then m
  else
    let w := smGet m p
    let b : Word := 1#32 <<< l
    smSet m p (if v then w ||| b else w &&& ~~~b)

/-- The mode word of the slice that holds lane `l`. -/
def laneMode (g : Gang) (l : Nat) : BitVec 24 := (g.sl (l / 4)).mode

/-- Whether the guard, inverted under GNEG, is true in lane `l` (R50). -/
def guardTrue (g : Gang) (l : Nat) : Bool :=
  predAt g (mGuard (laneMode g l)) l != mGneg (laneMode g l)

/-- Whether lane `l` is running: neither exited nor waiting on the stack (R119). -/
def runOn (g : Gang) (l : Nat) : Bool := (g.sl (l / 4)).run.getLsbD (l % 4)

/-- Whether lane `l` is active (R50, R119). -/
def activeOn (g : Gang) (l : Nat) : Bool := runOn g l && guardTrue g l

/-- The four-bit mask of slice `k` of the lanes that satisfy `p`. -/
def sliceMask (k : Nat) (p : Nat → Bool) : BitVec 4 :=
  BitVec.ofNat 4 ((if p (4 * k) then 1 else 0) + (if p (4 * k + 1) then 2 else 0)
    + (if p (4 * k + 2) then 4 else 0) + (if p (4 * k + 3) then 8 else 0))

/-! ## Element types (R48) -/

/-- A 64-bit element type: I64, N64, F64. -/
def tyWide (t : Nat) : Bool := t == 2 || t == 3 || t == 5

/-- The width of one element and the number of elements of a register of type `t`. -/
def tyWidth (t : Nat) : Nat :=
  if t = 2 ∨ t = 3 ∨ t = 5 then 64
  else if t ≤ 4 then 32
  else if t ≤ 9 then 16 else 8
def tyCount (t : Nat) : Nat :=
  if t ≤ 5 then 1 else if t ≤ 9 then 2 else 4

/-- A signed integer type: I32, I64, I16x2, I8x4. -/
def tySigned (t : Nat) : Bool := t == 0 || t == 2 || t == 8 || t == 10

/-- An integer type. -/
def tyInt (t : Nat) : Bool := t ≤ 3 || (8 ≤ t && t ≤ 11)

/-- Element `i` of a value of type `t` (R28). -/
def elemOf (t v i : Nat) : Nat := v / 2 ^ (tyWidth t * i) % 2 ^ tyWidth t

/-- A value of type `t` from its elements, element 0 lowest (R28). -/
def packElems (w : Nat) : List Nat → Nat
  | [] => 0
  | x :: xs => x % 2 ^ w + 2 ^ w * packElems w xs

/-- `f` applied to each element of type `t`. -/
def mapElems (t : Nat) (f : Nat → Nat) : Nat :=
  packElems (tyWidth t) ((List.range (tyCount t)).map f)

/-! ## Per-lane registers -/

/-- The key of register `code` of lane `l` in a gang's register map. -/
def regKey (l code : Nat) : Nat := 256 * l + code

/-- A 32-bit source in lane `l` (R41). -/
def rd (g : Gang) (l : Nat) (c : Byte) : Nat :=
  if c.toNat < 248 then (smGet g.regs (regKey l c.toNat)).toNat
  else if c.toNat = 248 then (g.sl (l / 4)).im.toNat
  else if c.toNat = 250 then l else 0

/-- The pair whose even register is `c`. -/
def rdPair (g : Gang) (l : Nat) (c : Byte) : Nat :=
  (smGet g.regs (regKey l c.toNat)).toNat
    + 2 ^ 32 * (smGet g.regs (regKey l (c.toNat + 1))).toNat

/-- A 64-bit source in lane `l`; `sx` says that IM is read sign-extended (R43). -/
def rd64 (g : Gang) (l : Nat) (c : Byte) (sx : Bool) : Nat :=
  if c.toNat < 248 then rdPair g l c
  else if c.toNat = 248 then
    (if sx then wrap (signed (g.sl (l / 4)).im.toNat 32) 64 else (g.sl (l / 4)).im.toNat)
  else if c.toNat = 250 then l else 0

/-- A source of the element type `t` (R41, R43). -/
def rdT (g : Gang) (t l : Nat) (c : Byte) : Nat :=
  if tyWide t then rd64 g l c (t == 2) else rd g l c

/-- A list of register writes. -/
abbrev Writes := List (Nat × Word)

/-- The writes of a result `v` in lane `l`: LR, and `d` when it is not 0 (R42); a wide result writes
the pair and its low word to LR (R43). -/
def resWrites (wide : Bool) (d : Byte) (l v : Nat) : Writes :=
  (regKey l 0, BitVec.ofNat 32 v) ::
    (if wide then
      [(regKey l d.toNat, BitVec.ofNat 32 v), (regKey l (d.toNat + 1), BitVec.ofNat 32 (v / 2 ^ 32))]
     else if d.toNat = 0 then [] else [(regKey l d.toNat, BitVec.ofNat 32 v)])

/-- The map after a list of writes, in order. -/
def smPuts {n : Nat} (m : SMap n) : List (Nat × BitVec n) → SMap n
  | [] => m
  | w :: ws => smPuts (smSet m w.1 w.2) ws

/-! ## Declared registers and operand legality at issue (R43, R46) -/

/-- A register code at or below the declared ones; the codes that name no main register pass. -/
def declOk (n : Nat) (c : Byte) : Bool := c.toNat < 8 || c.toNat ≤ 7 + n || 248 ≤ c.toNat

/-- `k` registers from `c` upward are declared main registers. -/
def declRun (n : Nat) (c : Byte) (k : Nat) : Bool :=
  8 ≤ c.toNat && c.toNat + (k - 1) ≤ 7 + n

/-- A pair's even register, declared (R43, R46). -/
def pairOk (n : Nat) (c : Byte) : Bool := c.toNat % 2 == 0 && declRun n c 2

/-- A source of element type `t` (R41, R43). -/
def srcOk (n t : Nat) (c : Byte) : Bool :=
  if tyWide t then pairOk n c || c.toNat == 249 || c.toNat == 250 || (c.toNat == 248 && t != 5)
  else declOk n c

/-- A result-producing destination of element type `t` (R42, R43). -/
def dstOk (n t : Nat) (d : Byte) : Bool := if tyWide t then pairOk n d else declOk n d

/-- An operand that is 64 bits wide by the instruction's own definition (R43). -/
def wideOk (n : Nat) (c : Byte) : Bool := pairOk n c || (248 ≤ c.toNat && c.toNat ≤ 250)

/-- A block base or a pair that may be ZERO (R196). -/
def baseOk (n : Nat) (c : Byte) : Bool := pairOk n c || c.toNat == 249

/-- `k` consecutive registers or ZERO. -/
def runOrZero (n : Nat) (c : Byte) (k : Nat) : Bool := declRun n c k || c.toNat == 249

/-! ## Uniform registers (R44) -/

/-- A uniform source: S0 to S63, IM of slice `k`, or ZERO. -/
def rdS (g : Gang) (k : Nat) (c : Byte) : Nat :=
  if c.toNat < 64 then (smGet g.sregs c.toNat).toNat
  else if c.toNat = 248 then (g.sl k).im.toNat else 0

end Sys2Proof.Machine
end

