-- ==== Sys2Proof/Machine/Flags.lean ====
section
/-! DEFINITION. Flags.lean: the sticky conditions FPX_FLAGS (R33, R80) and the comparison codes that
write predicates (R150, R164). -/

namespace Sys2Proof.Machine

/-- The OR of a list of conditions (R80). -/
def orConds : List Conds → Conds
  | [] => 0
  | c :: cs => c ||| orConds cs

/-- The conditions slice `k` raises: those of its active lanes in `ls` (R80). -/
def sliceConds (k : Nat) (ls : List Nat) (c : Nat → Conds) : Conds :=
  orConds ((ls.filter fun l => l / 4 == k).map c)

/-- FPX_FLAGS after the conditions `c` (R80). -/
def fpxOr (f : Word) (c : Conds) : Word := f ||| c.zeroExtend 32

/-- FPX_FLAGS after a write of `v` to a register whose bits clear when written 1 (R80). -/
def fpxClear (f v : Word) : Word := f &&& ~~~v

/-- Comparison code `c` of ICMP and SCMP on integers: EQ, NE, LT, LE, GT, GE (R150). -/
def cmpInt (c : Nat) (x y : Int) : Bool :=
  match c with
  | 0 => decide (x = y)
  | 1 => decide (x ≠ y)
  | 2 => decide (x < y)
  | 3 => decide (x ≤ y)
  | 4 => decide (x > y)
  | _ => decide (x ≥ y)

end Sys2Proof.Machine
end

