-- ==== Sys2Proof/Machine/Ops.lean ====
section
/-! DEFINITION. Ops.lean: the issue of one instruction by a cohort (R49, R50, R54, R120), raising a
fault (R71, R73, R76), taking a trap and returning from one (R78, R79), the reconvergence stack (R127,
R128) and what every issue does when it ends (R81, R120, R135, R115). -/

namespace Sys2Proof.Machine

/-- The context of partition `p` with CTX_ID `c`. -/
def findCtx (cs : List Ctx) (p c : Nat) : Option Ctx := cs.find? fun x => x.part == p && x.cid == c

/-- The contexts with one changed. -/
def modCtx (cs : List Ctx) (p c : Nat) (f : Ctx → Ctx) : List Ctx :=
  modIf cs (fun x => x.part == p && x.cid == c) f

/-- Whether a context is halting for a fatal fault, or halted (R70). -/
def fatalHalt (c : Ctx) : Bool := (c.state == .halting && !c.debugHalt) || c.state == .halted

/-- The partition numbered `p`. -/
def findPart (ps : List Partition) (p : Nat) : Option Partition := ps.find? fun x => x.id == p

/-- Whether the standing policy of partition `p` opens facility bit `b` (R406, R408): 0 DEBUG,
1 PROFILE, 2 DIRVIEW, 3 DOMAIN. -/
def facilOpen (ps : List Partition) (p b : Nat) : Bool :=
  match findPart ps p with
  | some x =>
    match x.policy with
    | some y => y.facil.testBit b
    | none => false
  | none => false

def facDebug : Nat := 0
def facProfile : Nat := 1
def facDirview : Nat := 2
def facDomain : Nat := 3

/-- The die of a core, and its number on that die (R10). -/
def coreDie (c : Nat) : Nat := c / 24
def coreUnit (c : Nat) : Nat := c % 24

/-! ## The issue in progress -/

/-- The instruction issue in progress: the state before it, the gang, the cohort's mask, its group,
kernel and context. -/
structure Iss where
  s    : State
  gi   : Nat
  mask : BitVec 8
  g    : Gang
  grp  : Group
  kern : Kernel
  ctx  : Ctx

/-- The entries a slice keeps in hardware (R126). -/
def hardEntries : Nat := 16

/-- The areas of a partition's stack pool (R126). -/
def stackPool : Nat := 16384

/-- The bytes of a stack area and of a slice's part of it (R126). -/
def areaBytes : Nat := 8192
def sliceArea : Nat := 1024

/-- The code of an entry's kind (R125). -/
def kindCode : StackKind → Nat
  | .joinpt => 1
  | .call => 2
  | .trap => 3

/-- Bits [63:0] of an entry: PEND and PPC of a JOINPT entry, MODE and IMSAVE of a TRAP entry, zero in a CALL entry
(R125). -/
def entryLow (e : StackEntry) : Nat :=
  match e.kind with
  | .joinpt => 2 ^ 60 * e.pend.toNat + e.ppc.toNat
  | .call => 0
  | .trap => 2 ^ 32 * e.mode.toNat + e.im.toNat

/-- A stack entry as the 16 bytes of the stack area (R125). -/
def entryBytes (e : StackEntry) : List Byte :=
  natLe (entryLow e) 8 ++ natLe (2 ^ 60 * kindCode e.kind + 2 ^ 56 * e.lanes.toNat + e.pc.toNat) 8

/-- The entry that 16 bytes of the stack area hold (R125). -/
def entryOf (bs : List Byte) : Option StackEntry :=
  let lo := leNat (bs.take 8)
  let hi := leNat (bs.drop 8)
  let lanes := BitVec.ofNat 4 (bits hi 59 56)
  let pc := BitVec.ofNat 56 hi
  let code := bits hi 63 60
  if code = 1 then some ⟨.joinpt, lanes, pc, BitVec.ofNat 4 (bits lo 63 60), BitVec.ofNat 56 lo, 0, 0⟩
  else if code = 2 then some ⟨.call, lanes, pc, 0, 0, 0, 0⟩
  else if code = 3 then some ⟨.trap, lanes, pc, 0, 0, BitVec.ofNat 24 (bits lo 55 32), BitVec.ofNat 32 lo⟩
  else none

/-- The place in the stack pool of entry `j` of slice `k`, counted from the bottom, in area `n` (R126). -/
def entryAt (n k j : Nat) : Nat := areaBytes * n + sliceArea * k + 16 * j

/-- The stack pool with the lowest entries of every slice of a gang written to its area, all but the newest
`keep` (R126). -/
def spillTo (pool : SMap 8) (n : Nat) (g : Gang) (keep : Nat) : SMap 8 :=
  (List.range 8).foldl (fun p k =>
    let es := (g.sl k).stack.reverse
    (es.take (es.length - keep)).zipIdx.foldl (fun p x => smPut p (entryAt n k x.2) (entryBytes x.1)) p) pool

/-- A slice with spilled entries whose gang has no stack area yet is stalled (R126). -/
def spillStalls (g : Gang) (k : Nat) : Bool :=
  g.area.isNone && decide (hardEntries < (g.sl k).stack.length)

/-- The lowest slice of a mask. -/
def lowSlice (m : BitVec 8) : Nat := (maskSlices m).headD 8

/-- The cohort after the one that issued last, in the cyclic order by lowest slice (R121, R123). -/
def nextCohort (g : Gang) : Option (BitVec 8) :=
  match g.cohorts.find? fun c => match g.lastCoh with
    | some l => decide (l < lowSlice c)
    | none => true with
  | some c => some c
  | none => g.cohorts.head?

/-- In fixed gear, a cohort issues only in its gang's turn, as the gang's next cohort (R87, R123). -/
def turnOk (g : Gang) (k : Kernel) (m : BitVec 8) : Bool :=
  !k.fixed || (g.rotPos == k.turn && nextCohort g == some m)

/-- Whether a group's slices issue: it is RUNNING in a running context, or it parks in fixed gear and has
not reached its rotation boundary (R70, R84, R115). -/
def groupIssues (grp : Group) (k : Kernel) (ctx : Ctx) : Bool :=
  (grp.state == .running && ctx.state == .running) || (grp.state == .parking && k.fixed && !grp.atStop)

/-- Whether a cohort may issue: it is a cohort of its gang, no slice of it has stopped by a fault or at
REGANG (R73, R135) or waits for a stack area (R126), its group issues, and in fixed gear it is its turn. The
up to 64 cycles in which other slices go on after a fault are the steps before the fault reaches the hub
(R73, R74). -/
def mayIssue (g : Gang) (grp : Group) (k : Kernel) (ctx : Ctx) (m : BitVec 8) : Bool :=
  g.cohorts.contains m && m != 0
    && (maskSlices m).all (fun k => !(g.sl k).stopped && (g.sl k).regang == none && !spillStalls g k)
    && groupIssues grp k ctx && turnOk g k m

/-- The issue in progress, where the cohort named by the state may issue. -/
def issOf (s : State) : Option Iss :=
  match s.exe.cur with
  | none => none
  | some (gi, m) =>
    match s.exe.gangs[gi]? with
    | none => none
    | some g =>
      match s.exe.groups[g.grp]? with
      | none => none
      | some grp =>
        match s.ctl.kernels[grp.kern]? with
        | none => none
        | some k =>
          match findCtx s.ctl.ctxs k.part k.ctx with
          | none => none
          | some c => if mayIssue g grp k c m then some ⟨s, gi, m, g, grp, k, c⟩ else none

/-- The cohort's slices, its running lanes and its active lanes, in ascending order (R50, R119). -/
def Iss.sls (e : Iss) : List Nat := maskSlices e.mask
def Iss.running (e : Iss) : List Nat := (maskLanes e.mask).filter (runOn e.g)
def Iss.active (e : Iss) : List Nat := (maskLanes e.mask).filter (activeOn e.g)

/-- The address of the instruction: the program counter of the cohort. -/
def Iss.pc (e : Iss) : VAddr := (e.g.sl (e.sls.headD 0)).pc
/-- The number of main registers the kernel declares (R46). -/
def Iss.n (e : Iss) : Nat := e.kern.pkt.regs
/-- The mode word and element type of slice `k`. -/
def Iss.mode (e : Iss) (k : Nat) : BitVec 24 := (e.g.sl k).mode
def Iss.ty (e : Iss) (k : Nat) : Nat := mType (e.mode k)
/-- The mode word and element type of the slice that holds lane `l`. -/
def Iss.lmode (e : Iss) (l : Nat) : BitVec 24 := e.mode (l / 4)
def Iss.lty (e : Iss) (l : Nat) : Nat := e.ty (l / 4)
/-- The four-bit mask of active lanes of slice `k`. -/
def Iss.act (e : Iss) (k : Nat) : BitVec 4 := sliceMask k (activeOn e.g)
def Iss.core (e : Iss) : Nat := e.grp.core

/-- What an issue leaves: the state outside the gang, the gang, the conditions each slice raised, and
whether its active lanes are all running lanes, as SEL's are (R151). -/
structure Eff where
  st : State
  g  : Gang
  cs : Nat → Conds := fun _ => 0
  all : Bool := false

/-- The outcome of checking an issue. -/
inductive Judge where
  | go
  | stall
  | fault (slice : Nat) (code : FaultCode) (info : Dbl)
deriving DecidableEq, Repr

/-! ## Faults (R71, R73, R74, R76) -/

/-- Little-endian detail bytes at an offset, dropping the zero ones. -/
def detailAt (off : Nat) (x c : Nat) : List (Nat × Byte) :=
  ((natLe x c).zipIdx.map fun p => (off + p.2, p.1)).filter fun p => p.2 != 0

/-- The COUNTERS word of a stop record (R76). -/
def counterWord (x : Slice) : Word :=
  BitVec.ofNat 32 (x.cL % 64 + 2 ^ 8 * (x.cS % 64) + 2 ^ 16 * (x.cC % 64) + 2 ^ 24 * (x.cF % 64))

/-- The stop record of slice `k` of gang `g` (R76). -/
def sliceRec (s : State) (g : Gang) (grp : Group) (k : Kernel) (sl : Nat) (code : Option FaultCode)
    (info : Dbl) : FaultRec :=
  let x := g.sl sl
  { part := k.part, ctx := k.ctx, code := code, kind := 1, die := coreDie grp.core,
    unit := coreUnit grp.core, place := g.slot % 32 * 8 + sl, exact := true,
    pc := x.pc.zeroExtend 64, info := info, mode := x.mode.zeroExtend 32,
    counters := counterWord x, kord := k.ord, group := grp.lid, gang := g.idx,
    detail := detailAt 0x40 ((sliceMask sl (activeOn g)).toNat * 2 ^ (4 * sl)) 4
      ++ detailAt 0x44 x.stack.length 4 ++ detailAt 0x48 x.im.toNat 4,
    cycle := s.sys.cycle, ptp := s.sys.ptp }

/-- The state with a fault on its way to the hub (R73, R74). -/
def addFault (s : State) (r : FaultRec) : State :=
  { s with ctl := { s.ctl with faults := s.ctl.faults ++ [r] } }

/-- The state with gang `gi` replaced. -/
def setGang (s : State) (gi : Nat) (g : Gang) : State :=
  { s with exe := { s.exe with gangs := modAt s.exe.gangs gi fun _ => g } }

/-- The state with no cohort in issue. -/
def idle (s : State) : State := { s with exe := { s.exe with cur := none } }

/-- Slice `sl` of the issuing cohort raises a fault: the instruction has no effect, the slice retires
no later instruction, and its record goes to the hub (R73). -/
def raise (e : Iss) (sl : Nat) (code : FaultCode) (info : Dbl) : State :=
  idle (addFault (setGang e.s e.gi (e.g.modSl sl fun x => { x with stopped := true }))
    (sliceRec e.s e.g e.grp e.kern sl (some code) info))

/-! ## The reconvergence stack -/

/-- The greatest depth of a stack (R126). -/
def stackLimit : Nat := 64

/-- Whether a TRAP entry stands on the stack (R78). -/
def hasTrap (x : Slice) : Bool := x.stack.any fun e => e.kind == .trap

/-- Unwinding (R128), over the entries of the stack; the top is the head. -/
def unwind (x : Slice) : List StackEntry → Slice
  | [] => { x with run := 0, stack := [] }
  | e :: rest =>
    if e.kind == .joinpt && e.pend != 0 then
      { x with run := e.pend, pc := e.ppc, stack := { e with pend := 0 } :: rest }
    else
      let x := if e.kind == .trap then { x with mode := e.mode, im := e.im } else x
      let live := e.lanes &&& ~~~x.exited
      if live != 0 then
        { x with run := live, pc := if e.kind == .joinpt then e.pc + 4 else e.pc, stack := rest }
      else unwind x rest

/-- Division of the running lanes between `taken` at `t` and the others at `other` (R127); none where
it raises ILLEGAL_OP. -/
def divide (x : Slice) (taken : BitVec 4) (t other : VAddr) : Option Slice :=
  let rest := x.run &&& ~~~taken
  if taken = 0 then some { x with pc := other }
  else if rest = 0 then some { x with pc := t }
  else
    match x.stack with
    | [] => none
    | e :: r =>
      if e.kind == .joinpt && e.pend == 0 then
        some { x with run := taken, pc := t, stack := { e with pend := rest, ppc := other } :: r }
      else none

/-! ## Traps (R78, R79) -/

/-- Taking a trap: the one description of R78, for a stack below its limit. -/
def takeTrap (x : Slice) (base : Dbl) (cause code conds : Nat) (lanes : BitVec 4) (ret : VAddr)
    (at_ : VAddr) : Slice :=
  { x with
    stack := { kind := .trap, lanes := x.run, pc := ret, mode := x.mode, im := x.im } :: x.stack
    run := lanes
    trapCause := BitVec.ofNat 32 (cause + 2 ^ 8 * code + 2 ^ 16 * conds)
    trapInfo := at_.zeroExtend 64
    mode := resetMode
    pc := BitVec.ofNat 56 base.toNat }

/-- Returning from a trap (R79); none where the top entry is not a TRAP entry. Where no lane of the
entry is left, the slice unwinds (R128). -/
def returnTrap (x : Slice) : Option Slice :=
  match x.stack with
  | [] => none
  | e :: r =>
    if e.kind == .trap then
      let y := { x with stack := r, pc := e.pc, mode := e.mode, im := e.im,
                        run := e.lanes &&& ~~~x.exited }
      if y.run = 0 then some (unwind y r) else some y
    else none

def causeTrapInsn : Nat := 0x20
def causeBreakpoint : Nat := 0x21
def causeFp : Nat := 0x22
def causeStep : Nat := 0x23

/-- DBG_CTL as it acts: zero unless the policy opens debug (R80, R408). -/
def dbgCtl (s : State) (g : Gang) (part : Nat) : Word :=
  if facilOpen s.ctl.parts part facDebug then g.dbgCtl else 0

/-- The trap slice `k` takes when its instruction has retired, if any (R78): its cause, conditions and
trapping lanes. FP_EXCEPTION comes before SINGLE_STEP. A TRAP entry masks both where it stands on the stack before
or after the instruction: an RTT that pops the last one takes no SINGLE_STEP itself (DESIGN CHOICE, log 121). -/
def pendingTrap (e : Iss) (r : Eff) (k : Nat) : Option (Nat × Nat × BitVec 4) :=
  let x := r.g.sl k
  let lanes := (if r.all then (e.g.sl k).run else e.act k) &&& x.run
  let cs := (r.cs k).zeroExtend 32 &&& e.g.fpxEn
  if hasTrap (e.g.sl k) || hasTrap x || x.finished || lanes == 0 || x.regang != none then none
  else if cs != 0 then some (causeFp, cs.toNat, lanes)
  else if (dbgCtl e.s e.g e.kern.part).getLsbD 1 then some (causeStep, 0, lanes)
  else none

/-- Whether a pending trap finds its slice's stack full (R78). -/
def trapOverflows (e : Iss) (r : Eff) (k : Nat) : Bool :=
  (pendingTrap e r k).isSome && decide (stackLimit ≤ (r.g.sl k).stack.length)

/-- The gang after the pending traps of the slices `ks`. -/
def takePending (e : Iss) (r : Eff) (ks : List Nat) : Gang :=
  ks.foldl (fun g k =>
    match pendingTrap e r k with
    | some (cause, conds, lanes) =>
      g.modSl k fun x => takeTrap x g.trapBase cause 0 conds lanes x.pc e.pc
    | none => g) r.g

/-! ## Cohorts (R120) -/

/-- The masks into which slices are divided by their program counters, lowest slice first (R120). -/
def groupByPc (g : Gang) : (fuel : Nat) → List Nat → List (BitVec 8)
  | 0, _ => []
  | _, [] => []
  | f + 1, k :: ks =>
    let same := (k :: ks).filter fun j => (g.sl j).pc == (g.sl k).pc
    let rest := ks.filter fun j => (g.sl j).pc != (g.sl k).pc
    BitVec.ofNat 8 ((same.map fun j => 2 ^ j).sum) :: groupByPc g f rest

/-- The gang's cohorts after the cohort `m` has issued (R120). -/
def divideCohort (g : Gang) (m : BitVec 8) : List (BitVec 8) :=
  let parts := groupByPc g 8 ((maskSlices m).filter fun k => !(g.sl k).finished)
  parts.foldl (fun cs p => insertBy lowSlice p cs) (g.cohorts.filter fun c => c != m)

/-- The slices of a gang that have not finished. -/
def liveSlices (g : Gang) : List Nat := (List.range 8).filter fun k => !(g.sl k).finished

/-- Whether every slice that has not finished has stopped at REGANG (R135). -/
def allRegang (g : Gang) : Bool :=
  !(liveSlices g).isEmpty && (liveSlices g).all fun k => (g.sl k).regang != none

/-- Whether the stopped slices all stand at one address with one token (R135). -/
def regangAgrees (g : Gang) : Bool :=
  let k0 := (liveSlices g).headD 0
  (liveSlices g).all fun k => (g.sl k).pc == (g.sl k0).pc && (g.sl k).regang == (g.sl k0).regang

/-- The merged gang: one cohort at pc + 4 (R135). -/
def regangMerge (g : Gang) : Gang :=
  { g with
    slices := g.slices.map fun x =>
      if x.finished then x else { x with regang := none, pc := x.pc + 4 }
    cohorts := [BitVec.ofNat 8 (((liveSlices g).map fun k => 2 ^ k).sum)] }

/-! ## Performance counters (R80) -/

/-- PERF_SELn or PERF_CNTn of a context on a core. -/
def perfGet (c : Ctx) (core n : Nat) : Dbl :=
  match c.perf.find? fun p => p.1 == core && p.2.1 == n with
  | some p => p.2.2
  | none => 0

/-- The registers with one set; registers 0 to 3 are PERF_SEL, 4 to 7 PERF_CNT. -/
def perfSet (c : Ctx) (core n : Nat) (v : Dbl) : Ctx :=
  { c with perf := (core, n, v) :: c.perf.filter fun p => !(p.1 == core && p.2.1 == n) }

/-- The context after `k` events `ev` on a core: each counter that selects it counts (R80). -/
def perfCount (c : Ctx) (core ev k : Nat) : Ctx :=
  [0, 1, 2, 3].foldl (fun c n =>
    if (perfGet c core n).toNat = ev then
      perfSet c core (n + 4) (perfGet c core (n + 4) + BitVec.ofNat 64 k) else c) c

/-- Counts an event of a context on a core while PROFILE is open (R80, R408). -/
def perfBump (ctl : Ctl) (part cid core ev : Nat) : Ctl :=
  if facilOpen ctl.parts part facProfile then
    { ctl with ctxs := modCtx ctl.ctxs part cid fun c => perfCount c core ev 1 }
  else ctl

/-! ## The end of an issue -/

/-- Whether every slice of a gang has finished (R119). -/
def gangEnded (g : Gang) : Bool := g.slices.all Slice.finished

/-- The kernel of a group. -/
def kernOf (s : State) (g : Group) : Option Kernel := s.ctl.kernels[g.kern]?

/-- The space of a group's save record given up. -/
def dropSave (s : State) (gid part cid : Nat) : State :=
  { s with
    ctl := { s.ctl with ctxs := modCtx s.ctl.ctxs part cid fun c =>
      { c with saves := c.saves.filter fun r => r.1 != gid } }
    exe := { s.exe with groups := modAt s.exe.groups gid fun g => { g with saved := none } } }

/-- The park of a group lapses: the space its record was to have falls free (R84). -/
def lapse (s : State) (gid : Nat) (grp : Group) : State :=
  match grp.state, kernOf s grp with
  | .parking, some k => dropSave s gid k.part k.ctx
  | _, _ => s

/-- A group whose last gang has ended enters EXITING (R115, R136); a park that has not stopped its slices
lapses (R84). -/
def groupExit (s : State) (gid : Nat) : State :=
  match s.exe.groups[gid]? with
  | none => s
  | some grp =>
    if (grp.state == .running || (grp.state == .parking && !grp.atStop)) &&
        grp.gangs.all (fun gi => match s.exe.gangs[gi]? with
          | some g => gangEnded g
          | none => true) then
      let t := lapse s gid grp
      { t with exe := { t.exe with groups := modAt t.exe.groups gid fun x =>
          { x with state := .exiting } } }
    else s

/-- The gangs of a kernel's groups. -/
def kernGangs (s : State) (kern : Nat) : List Gang :=
  (s.exe.groups.filter fun g => g.kern == kern).flatMap fun g => g.gangs.filterMap fun i => s.exe.gangs[i]?

/-- The number of slots of a kernel's rotation (R86). -/
def rotSize (k : Kernel) : Nat := k.total * k.pkt.stages.sum

/-- Whether the gang of a rotation slot has ended; a slot whose group is parked or re-queued has not (R87,
R123). -/
def slotEnded (s : State) (kern p : Nat) : Bool :=
  (kernGangs s kern).any fun g => g.rotPos == p && gangEnded g

/-- The turn passes to the next slot whose gang has not ended (R87, R123). At a rotation boundary the parking
groups of the kernel stop issuing (R84). -/
def advanceTurn (s : State) (kern : Nat) : State :=
  match s.ctl.kernels[kern]? with
  | none => s
  | some k =>
    let n := rotSize k
    match ((List.range n).map fun j => k.turn + 1 + j).find? fun p => !slotEnded s kern (p % n) with
    | none => s
    | some p =>
      if !k.fixed then s
      else
        let gs := if n ≤ p then modIf s.exe.groups (fun g => g.kern == kern && g.state == .parking)
            (fun g => { g with atStop := true })
          else s.exe.groups
        { s with
          exe := { s.exe with groups := gs }
          ctl := { s.ctl with kernels := modAt s.ctl.kernels kern fun x => { x with turn := p % n } } }

/-- The scheduler of a gang: four per core, eight slots each (R14, R107; slot numbers: log 18). -/
def schedOf (grp : Group) (g : Gang) : Nat := grp.core * 4 + g.slot / 8

/-- Records that gang `gi` issued last on its scheduler (R121). -/
def noteIssue (s : State) (sched gi : Nat) : State :=
  { s with exe := { s.exe with lastGang := (sched, gi) :: s.exe.lastGang.filter fun p => p.1 != sched } }

/-- The slices that take SINGLE_STEP after a merging REGANG (R78): those with an active lane and no TRAP
entry. -/
def regangSteps (g : Gang) : List Nat :=
  (liveSlices g).filter fun k => !hasTrap (g.sl k) && sliceMask k (activeOn g) != 0

/-- The merged gang after its SINGLE_STEP traps, divided again by program counter (R78, R120). -/
def regangStep (g : Gang) (at_ : VAddr) : Gang :=
  let m := regangMerge g
  let t := (regangSteps m).foldl (fun (x : Gang) k =>
    x.modSl k fun y => takeTrap y g.trapBase causeStep 0 0 (sliceMask k (activeOn m)) y.pc at_) m
  { t with cohorts := divideCohort t (m.cohorts.headD 0) }

/-- REGANG settled after an issue of the gang (R135): a merge, or ILLEGAL_OP at the lowest stopped
slice. `step` says that DBG_CTL.STEP is set. -/
def settleRegang (s : State) (gi : Nat) (grp : Group) (k : Kernel) (step : Bool) (g : Gang) : State :=
  if allRegang g then
    let low := (liveSlices g).headD 0
    let stop := fun (sl : Nat) (code : FaultCode) =>
      addFault (setGang s gi (g.modSl sl fun x => { x with stopped := true }))
        (sliceRec s g grp k sl (some code) 0)
    if !regangAgrees g then stop low .illegalOp
    else if step then
      match (regangSteps g).find? fun j => decide (stackLimit ≤ (g.sl j).stack.length) with
      | some j => stop j .stackOverflow
      | none => setGang s gi (regangStep g (g.sl low).pc)
    else setGang s gi (regangMerge g)
  else setGang s gi g

/-- The lowest number at or above `n` that a list does not hold. -/
def freeNumber (l : List Nat) : (fuel n : Nat) → Nat
  | 0, n => n
  | f + 1, n => if l.contains n then freeNumber l f (n + 1) else n

/-- A gang takes a stack area of its partition (R126), where one is free. -/
def takeArea (ps : List Partition) (part : Nat) (g : Gang) : List Partition × Gang :=
  match findPart ps part with
  | some p =>
    match g.area with
    | some _ => (ps, g)
    | none =>
      if p.areas.length < stackPool then
        let n := freeNumber p.areas stackPool 0
        (modIf ps (fun x => x.id == part) fun x => { x with areas := n :: x.areas }, { g with area := some n })
      else (ps, g)
  | none => (ps, g)

/-- The entries a gang has beyond its hardware entries spilled to its stack area, which it takes at its first
spill, where one is free (R126). -/
def spill (ps : List Partition) (part : Nat) (g : Gang) : List Partition × Gang :=
  if g.slices.any fun x => decide (hardEntries < x.stack.length) then
    let r := takeArea ps part g
    match r.2.area with
    | some n => (modIf r.1 (fun x => x.id == part) fun x => { x with pool := spillTo x.pool n r.2 hardEntries }, r.2)
    | none => r
  else (ps, g)

/-- Everything an issue does once its own effect is formed: retired counts (R81), pending traps (R78),
division of the cohort (R120), REGANG (R135), the end of the gang and of the group (R119, R115). -/
def finish (e : Iss) (r : Eff) : State :=
  match e.sls.find? (trapOverflows e r) with
  | some k => raise e k .stackOverflow 0
  | none =>
    let g := takePending e r e.sls
    let g := { g with
      slices := g.slices.mapIdx fun k (x : Slice) =>
        if e.mask.getLsbD k then { x with retired := x.retired + 1 } else x
      issues := g.issues + 1
      starve := 0
      lastCoh := some (lowSlice e.mask) }
    let g := { g with cohorts := divideCohort g e.mask }
    let (ps, g) := spill r.st.ctl.parts e.kern.part g
    let st := { r.st with ctl := { r.st.ctl with parts := ps } }
    let s := settleRegang st e.gi e.grp e.kern ((dbgCtl e.s e.g e.kern.part).getLsbD 1) g
    let s := groupExit s g.grp
    let s := if e.kern.fixed then advanceTurn s e.grp.kern else s
    let s := noteIssue s (schedOf e.grp e.g) e.gi
    idle { s with ctl := perfBump s.ctl e.kern.part e.kern.ctx e.core 2 }

/-- The meaning of a lane instruction: judged for every slice of the cohort before any effect (R54),
then performed, then ended. -/
def issue (s : State) (judge : Iss → Judge) (body : Iss → Eff) : Host.Outcome State Fault Refusal :=
  match issOf s with
  | none => .next (idle s)
  | some e =>
    match judge e with
    | .stall => .next (idle s)
    | .fault k c i => .next (raise e k c i)
    | .go => .next (finish e (body e))

/-- ILLEGAL_OP at the first slice of the cohort for which the instruction is not legal (R54). -/
def legal (e : Iss) (ok : Nat → Bool) : Judge :=
  match e.sls.find? fun k => !ok k with
  | some k => .fault k .illegalOp 0
  | none => .go

/-- The first judgement that is not "go". -/
def Judge.and (a : Judge) (b : Judge) : Judge :=
  match a with
  | .go => b
  | x => x

/-! ## Bodies of one shape -/

/-- The gang with every slice of the cohort at pc + 4. -/
def Iss.adv (e : Iss) : Gang :=
  { e.g with
    yielded := false
    slices := e.g.slices.mapIdx fun k (x : Slice) =>
      if e.mask.getLsbD k then { x with pc := x.pc + 4 } else x }

/-- The writes of the results `v` of the lanes `ls`; `w` says which are wide. -/
def resultsOf (ls : List Nat) (d : Byte) (w : Nat → Bool) (v : Nat → Nat) : Writes :=
  ls.flatMap fun l => resWrites (w l) d l (v l)

/-- A result-producing body: `v` in every lane of `ls`, with the conditions `c` (R42, R80). -/
def resultBody (e : Iss) (ls : List Nat) (d : Byte) (w : Nat → Bool) (v : Nat → Nat)
    (c : Nat → Conds) : Eff :=
  let g := e.adv
  { st := e.s
    g := { g with
      regs := smPuts g.regs (resultsOf ls d w v)
      slices := g.slices.mapIdx fun k (x : Slice) => { x with fpx := fpxOr x.fpx (sliceConds k ls c) } }
    cs := fun k => sliceConds k ls c }

/-- A body that writes predicate `p` in the active lanes (R44). -/
def predBody (e : Iss) (p : Nat) (v : Nat → Bool) (c : Nat → Conds) : Eff :=
  let g := e.adv
  { st := e.s
    g := { g with
      preds := e.active.foldl (fun m l => setPred m p l (v l)) g.preds
      slices := g.slices.mapIdx fun k (x : Slice) =>
        { x with fpx := fpxOr x.fpx (sliceConds k e.active c) } }
    cs := fun k => sliceConds k e.active c }

/-- A body that writes one uniform register, where some lane of the cohort is active (R157). -/
def uniBody (e : Iss) (d : Byte) (v : Nat → Nat) : Eff :=
  let g := e.adv
  match e.active with
  | [] => { st := e.s, g := g }
  | l :: _ => { st := e.s, g := { g with sregs := smSet g.sregs d.toNat (BitVec.ofNat 32 (v (l / 4))) } }

/-- No conditions. -/
def noConds : Nat → Conds := fun _ => 0

/-- Whether a uniform load of the gang has not landed: instructions that use uniform registers wait
(R158). -/
def sldPending (e : Iss) : Bool :=
  e.s.mem.ops.any fun o => o.gang == e.gi && o.kind == .sload

/-- A body that changes each slice of the cohort by `f`, which sets its program counter. -/
def sliceBody (e : Iss) (f : Nat → Slice → Slice) : Eff :=
  { st := e.s
    g := { e.g with
      yielded := false
      slices := e.g.slices.mapIdx fun k (x : Slice) => if e.mask.getLsbD k then f k x else x } }

/-- The first fault that a slice of the cohort raises, by `f`. -/
def judgeSlices (e : Iss) (f : Nat → Option FaultCode) : Judge :=
  match e.sls.find? fun k => (f k).isSome with
  | some k => .fault k ((f k).getD .illegalOp) 0
  | none => .go

/-- A uniform instruction waits for an outstanding SLD of its gang (R158). -/
def uniReady (e : Iss) : Judge := if sldPending e then .stall else .go

end Sys2Proof.Machine
end

