-- ==== Sys2Proof/Machine/Address.lean ====
section
/-! DEFINITION. Address.lean: physical addresses (R305, R306, R180), the home's copy of memory (R211),
the page-table walk and the checks of a leaf (R304, R307 to R312) and the instruction fetch (R38, R194). -/

namespace Sys2Proof.Machine

/-! ## Physical addresses -/

/-- The device number of this module: 0 while it is in no domain (R332). -/
def ownDev (sys : Sys) : Nat := if sys.domId = 0x1FF then 0 else sys.domId

def paDev (pa : Nat) : Nat := pa / 2 ^ 43 % 2 ^ 9
def paOff (pa : Nat) : Nat := pa % 2 ^ 43
/-- The end of device memory and the bytes of one die (R305). -/
def devTop : Nat := 0x18000000000
def dieBytes : Nat := 0x3000000000
/-- The start of the host window (R305). -/
def hostBase : Nat := 0x40000000000

/-- Device memory of this module. -/
def paLocal (own pa : Nat) : Bool := paDev pa == own && decide (paOff pa < devTop)
/-- The host window of this module, and the host bus address (R305). -/
def paHost (own pa : Nat) : Bool := paDev pa == own && decide (hostBase ≤ paOff pa)
def hostAddr (pa : Nat) : Nat := paOff pa % 2 ^ 42

/-- The home die of a device offset (R306). -/
def homeDie (off : Nat) : Nat := off / dieBytes
/-- The frame, cell and in-frame cell index of an offset (R2). -/
def frameOf (off : Nat) : Nat := off / 512
def cellOf (off : Nat) : Nat := off / 32
def cellIn (off : Nat) : Nat := off / 32 % 16
/-- The frame number of R180, physical address bits [42:9], from a frame key that may hold a device number above
it. -/
def frameNo (f : Nat) : Nat := f % 2 ^ 34
/-- The slice number of a frame, its set in a slice and its set in an L1 (R180). -/
def sliceOf (f : Nat) : Nat :=
  let f := frameNo f
  Nat.xor (Nat.xor f (f / 2 ^ 8)) (Nat.xor (f / 2 ^ 16) (f / 2 ^ 24)) % 48
def setOf (f : Nat) : Nat := frameNo f / 48 % 768
def l1SetOf (f : Nat) : Nat := frameNo f % 160

/-- The local frame number of a device offset, its module channel and its frame there (R306). -/
def localFrame (off : Nat) : Nat := (off - homeDie off * dieBytes) / 512
def channelOf (off : Nat) : Nat := 12 * homeDie off + localFrame off % 12
def channelFrame (off : Nat) : Nat := localFrame off / 12
/-- The bytes of one LPDDR channel (R16). -/
def channelBytes : Nat := 0x400000000
/-- The place of a byte of device memory on the module's channels, one after another (R306, R16). -/
def lpddrKey (off : Nat) : Nat := channelOf off * channelBytes + channelFrame off * 512 + off % 512

/-- The number of a physical address's home slice: 48 per die for this module, apart from those for the host and
for each peer's frames, which have a home of their own (R211). -/
def homeKey (own pa : Nat) : Nat :=
  if paLocal own pa then 48 * homeDie (paOff pa) + sliceOf (frameOf (paOff pa))
  else if paHost own pa then 384
  else 1000 + 48 * paDev pa + sliceOf (frameOf (paOff pa))

/-! ## The grid of dies (R10, R11) -/

/-- Row and column of a compute die (R10). -/
def gridRow (d : Nat) : Nat := d / 4
def gridCol (d : Nat) : Nat := d % 4

/-- The ten die-to-die links, by the dies they join, and the dies with a hub bridge (R10). Link `j` of these is
number 24 + j of FLIT_CRC_FAIL, the bridges follow as 34 to 37. -/
def dieLinks : List (Nat × Nat) :=
  [(0, 1), (1, 2), (2, 3), (4, 5), (5, 6), (6, 7), (0, 4), (1, 5), (2, 6), (3, 7)]
def hubBridges : List Nat := [1, 2, 5, 6]

/-- The columns passed from column `a` to column `b`, both ends included. -/
def colPath (a b : Nat) : List Nat :=
  if a ≤ b then (List.range (b - a + 1)).map fun j => a + j else (List.range (a - b + 1)).map fun j => a - j

/-- The dies on the path from die `a` to die `b`: along the row to the column of `b`, then across (R11). -/
def diePath (a b : Nat) : List Nat :=
  (colPath (gridCol a) (gridCol b)).map (fun c => 4 * gridRow a + c)
    ++ if gridRow a = gridRow b then [] else [b]

/-- The length of a path in hops (R11). -/
def dieHops (a b : Nat) : Nat := (diePath a b).length - 1

/-- The die whose bridge carries the traffic between the hub and die `d` (R11). -/
def bridgeOf (d : Nat) : Nat := 4 * gridRow d + if gridCol d ≤ 1 then 1 else 2

/-- The number of the link between two adjacent dies, and of a die's hub bridge. -/
def dieLinkNo (a b : Nat) : Nat :=
  24 + dieLinks.findIdx fun p => p == (a, b) || p == (b, a)
def bridgeNo (d : Nat) : Nat := 34 + hubBridges.findIdx fun x => x == d

/-- The links on a path of dies. -/
def pathLinks : List Nat → List Nat
  | a :: b :: t => dieLinkNo a b :: pathLinks (b :: t)
  | _ => []

/-- The links between two dies, and between the hub die and a die, with the hub as die 8 (R11). -/
def linksBetween (a b : Nat) : List Nat :=
  if a = 8 ∧ b = 8 then []
  else if a = 8 then bridgeNo (bridgeOf b) :: pathLinks (diePath (bridgeOf b) b)
  else if b = 8 then bridgeNo (bridgeOf a) :: pathLinks (diePath (bridgeOf a) a)
  else pathLinks (diePath a b)

/-! ## Routes to peers (R334, R335) -/

/-- Links that carry traffic. -/
def Link.carries (l : Link) : Bool := l.state == .up || l.state == .degraded

/-- Whether link `j` carries traffic. -/
def linkUp (sys : Sys) (j : Nat) : Bool := sys.links[j]?.any Link.carries

/-- The links that carry traffic, UP or DEGRADED, whose plane reaches a device. -/
def openLinks (sys : Sys) (dev : Nat) : List Nat :=
  (List.range sys.links.length).filter fun j => !sys.cut.contains (j, dev) && linkUp sys j

/-- The link of a packet to a device and frame: a fixed hash among the open links (R335). -/
def routeOf (sys : Sys) (dev frame : Nat) : Option Nat :=
  let ls := openLinks sys dev
  if ls.isEmpty then none else ls[Config.linkHash dev frame % ls.length]?

/-- The frame that a request concerns: a partial's is its accumulator (log 112). -/
def reqFrame (r : PeerOp) : Nat :=
  match r with
  | .read off _ => frameOf off
  | .write off _ => frameOf off
  | .atomic _ _ off _ _ _ => frameOf off
  | .enq off _ _ _ => frameOf off
  | .scatter off _ => frameOf off
  | .partialSum _ _ h _ _ _ _ _ => h.toNat

/-- Whether a packet of a class may go out now to a frame of a peer: its link has not been told to stop that
class, and every packet to the frame that took another path is acknowledged (R335). -/
def canSend (sys : Sys) (dev frame cls : Nat) : Bool :=
  match routeOf sys dev frame with
  | none => false
  | some j =>
    (match sys.links[j]? with
      | some l => !l.stops.contains cls
      | none => false)
    && sys.flight.all fun m => m.dev != dev || (m.req.map reqFrame) != some frame || m.link == some j

/-! ## The home's copy (R211) -/

/-- What a byte of device memory reads as that nothing has written since its die was re-keyed (R321, log 39), and before
that (log 1). -/
def keyByte (m : Mem) (off : Nat) : Byte :=
  match m.keys.find? fun k => k.1 == homeDie off with
  | some k => Config.rekeyedByte k.2 off
  | none => 0

/-- A byte of the home's copy in the home slice or memory, apart from newer copies. -/
def memByte (m : Mem) (off : Nat) : Byte := smGet m.bytes off ^^^ keyByte m off

/-- The home's copy with a byte stored, and with a run of bytes. -/
def memSet (m : Mem) (off : Nat) (b : Byte) : Mem := { m with bytes := smSet m.bytes off (b ^^^ keyByte m off) }
def memPut (m : Mem) (off : Nat) : List Byte → Mem
  | [] => m
  | b :: bs => memPut (memSet m off b) (off + 1) bs

/-- The modified copy of byte `off` that a local slice holds, if any (R181). -/
def dirtyByte (l2 : List L2Block) (off : Nat) : Option Byte :=
  match l2.find? fun b => b.frame == frameOf off && b.expiry == none &&
      (match b.cells[cellIn off - b.start]? with
        | some c => decide (b.start ≤ cellIn off) && c.dirty
        | none => false) with
  | none => none
  | some b => (b.cells[cellIn off - b.start]?).map fun c => c.data.extractLsb' (8 * (off % 32)) 8

/-- A byte that an acknowledgement or an eviction notice on its way carries (R328, R329). -/
def flightByte (m : Mem) (off : Nat) : Option Byte :=
  match (m.txns.flatMap fun t => t.acks.flatMap fun a => a.2.2).find? fun p => p.1 == off with
  | some p => some p.2
  | none =>
    ((m.notices.flatMap fun n => n.data.getD []).find? fun p => p.1 == off).map Prod.snd

/-- Whether a write in progress has already put byte `off` into the home's copy (R328). -/
def homeWritten (m : Mem) (off : Nat) : Bool :=
  m.txns.any fun t => t.own == none && decide (t.wpa ≤ off) && decide (off < t.wpa + t.wlen)

/-- The byte that a read at the home returns: the home's copy, after the recall of a modified one
(R326, R328). -/
def coByte (m : Mem) (off : Nat) : Byte :=
  if homeWritten m off then memByte m off
  else
    match flightByte m off with
    | some b => b
    | none => (dirtyByte m.l2 off).getD (memByte m off)

/-- `n` bytes read at the home. -/
def coRead (m : Mem) (off n : Nat) : List Byte := (List.range n).map fun i => coByte m (off + i)

/-- A little-endian number read at the home. -/
def coNat (m : Mem) (off n : Nat) : Nat := leNat (coRead m off n)

/-- The 32 bytes of a cell as one value. -/
def coCell (m : Mem) (cell : Nat) : BitVec 256 := BitVec.ofNat 256 (coNat m (32 * cell) 32)

/-! ## Page tables (R307 to R312) -/

/-- The index into the table of a level, and the page shift of a leaf there (R307). -/
def walkIndex (lvl va : Nat) : Nat :=
  if lvl = 3 then bits va 55 43 else if lvl = 2 then bits va 42 30
  else if lvl = 1 then bits va 29 21 else bits va 20 16
def leafShift (lvl : Nat) : Nat := if lvl = 2 then 30 else if lvl = 1 then 21 else 16

/-- Leaf fields (R309). -/
def leafPeer (l : Nat) : Bool := l.testBit 12
def leafPinned (l : Nat) : Bool := l.testBit 11
def leafWayp (l : Nat) : Nat := bits l 10 9
def leafPolicy (l : Nat) : Nat := bits l 8 7
def leafGrain (l : Nat) : Nat := if bits l 6 5 = 0 then 32 else if bits l 6 5 = 1 then 128 else 512
def leafPA (l : Nat) : Nat := bits l 51 16 * 2 ^ 16

/-- The bytes of a table of a level (R307). -/
def tableSize (lvl : Nat) : Nat := if lvl = 0 then 256 else if lvl = 1 then 4096 else 65536

/-- A table of level `lvl` must lie whole in device memory of the own device, on a die of the partition (R307). -/
def tableOk (own : Nat) (dies : List Nat) (lvl t : Nat) : Bool :=
  paLocal own t && decide (paOff t + tableSize lvl ≤ devTop) && dies.contains (homeDie (paOff t))
    && homeDie (paOff t + tableSize lvl - 1) == homeDie (paOff t)

/-- The checks of R312 on the page a leaf names that raise XLATE_FAULT. -/
def leafXlateOk (domId own leaf : Nat) : Bool :=
  let pa := leafPA leaf
  let off := paOff pa
  !(decide (devTop ≤ off) && decide (off < hostBase)) &&
    (if leafPeer leaf then paDev pa != own && decide (off < devTop) && domId != 0x1FF
     else paDev pa == own)

/-- The address bits below the index of a level (R307). -/
def entryShift (lvl : Nat) : Nat := if lvl = 3 then 43 else leafShift lvl

/-- An entry of a die's upper-level cache (R317). -/
def upperFind (us : List UpperEntry) (die part cid lvl va : Nat) : Option UpperEntry :=
  us.find? fun u => u.die == die && u.part == part && u.ctx == cid && u.lvl == lvl
    && u.va / 2 ^ entryShift lvl == va / 2 ^ entryShift lvl

/-- The walk of R310 from `lvl` downward at table `t`; the leaf and its page shift. `fuel` is the
number of levels left; `up` gives the entries of levels 3 to 1 that are not read from memory (R317). -/
def walkFrom (m : Mem) (up : Nat → Option Dbl) (domId own : Nat) (dies : List Nat) (va : Nat) :
    (fuel : Nat) → (t : Nat) → Except FaultCode (Nat × Nat)
  | 0, _ => .error .xlateFault
  | fuel + 1, t =>
    if !tableOk own dies fuel t then .error .xlateFault
    else
      let e := match up fuel with
        | some d => d.toNat
        | none => coNat m (paOff t + 8 * walkIndex fuel va) 8
      if e % 2 = 0 ∨ e / 2 ^ 52 ≠ 0 then .error .xlateFault
      else if e.testBit 1 then
        if fuel = 3 ∨ bits e 15 13 ≠ 0 ∨ bits e 6 5 = 3 ∨ leafPA e % 2 ^ leafShift fuel ≠ 0
            ∨ leafXlateOk domId own e = false then .error .xlateFault
        else .ok (e, leafShift fuel)
      else
        let nxt := bits e 51 8 * 2 ^ 8
        if fuel = 0 ∨ bits e 7 2 ≠ 0 ∨ (fuel ≠ 1 ∧ nxt % 4096 ≠ 0) then .error .xlateFault
        else walkFrom m up domId own dies va fuel nxt

/-- A translation: the physical address and the leaf it came from. -/
structure Xl where
  pa   : Nat
  leaf : Nat
deriving DecidableEq, Repr

/-- Who asks for a translation: a die (8 for the hub), or a core of one, numbered from 16. -/
def coreAt (core : Nat) : Nat := 16 + core
def placeDie (at_ : Nat) : Nat := if at_ < 16 then at_ else (at_ - 16) / 24

/-- The slice of a die whose L2 TLB serves an address of a context (R317; the two values as one: log 113). -/
def tlbSlice (cid va : Nat) : Nat := mix64 (cid * 2 ^ 40 + bits va 55 16) % 48

/-- The numbers of TLBs: the L1 TLB of core c is 16 + c, the L2 TLB of slice k of die d is 1024 + 48 d + k. -/
def l2Tlb (die cid va : Nat) : Nat := 1024 + 48 * die + tlbSlice cid va

/-- The entry for an address of a context in one TLB (R317). -/
def tlbAt (tlb : List TlbEntry) (place part cid va : Nat) : Option TlbEntry :=
  tlb.find? fun t => t.place == place && t.part == part && t.ctx == cid && t.page == va / 2 ^ t.size

/-- The entry that serves an address of a context: the core's L1 TLB, else the slice's L2 TLB (R317). -/
def tlbFind (tlb : List TlbEntry) (at_ part cid va : Nat) : Option TlbEntry :=
  match (if at_ < 16 then none else tlbAt tlb at_ part cid va) with
  | some t => some t
  | none => tlbAt tlb (l2Tlb (placeDie at_) cid va) part cid va

/-- No entry of a table but from memory. -/
def noUpper : Nat → Option Dbl := fun _ => none

/-- The leaf and page shift for an address: by the TLBs, else by a walk (R317, R318). -/
def leafOf (s : State) (at_ part cid root : Nat) (dies : List Nat) (va : Nat) :
    Except FaultCode (Nat × Nat) :=
  if 2 ^ 56 ≤ va then .error .xlateFault
  else
    match tlbFind s.mem.tlb at_ part cid va with
    | some t => .ok (t.leaf.toNat, t.size)
    | none => walkFrom s.mem noUpper s.sys.domId (ownDev s.sys) dies va 4 root

/-- Access needs (R311): bit 2 R, bit 3 W, bit 4 X, as the leaf places them. -/
def needR : Nat := 4
def needW : Nat := 8
def needRW : Nat := 12
def needX : Nat := 16

/-- The permission checks on the address an access names (R311, R312). -/
def permOk (own : Nat) (p : Partition) (need leaf pa : Nat) : Bool :=
  Nat.land leaf need == need &&
    (leafPeer leaf || !paLocal own pa ||
      (p.dies.contains (homeDie (paOff pa)) &&
        !(p.reserved.any fun r => decide (r.1 ≤ paOff pa) && decide (paOff pa < r.1 + r.2))))

/-- The physical address a leaf gives `va`. -/
def leafAddr (leaf sh va : Nat) : Nat := leafPA leaf + va % 2 ^ sh

/-- The translation of `va` for partition `p` and a page-table root, with permission `need`. -/
def xlateAt (s : State) (at_ : Nat) (p : Partition) (cid root va need : Nat) : Except FaultCode Xl :=
  match leafOf s at_ p.id cid root p.dies va with
  | .error f => .error f
  | .ok (leaf, sh) =>
    let pa := leafAddr leaf sh va
    if permOk (ownDev s.sys) p need leaf pa then .ok ⟨pa, leaf⟩ else .error .permFault

/-- The translation of `va` in a context (R310). -/
def xlate (s : State) (at_ : Nat) (c : Ctx) (va need : Nat) : Except FaultCode Xl :=
  match findPart s.ctl.parts c.part with
  | none => .error .xlateFault
  | some p => xlateAt s at_ p c.cid c.desc.ptRoot va need

/-- The byte at a physical address as a read below every cache returns it: the home's for device memory,
host memory's for the host window, and for a peer's memory a free value (log 14); so is what a read of a lost
die's memory gives, which no channel serves (R330). -/
def spaceByte (s : State) (pa : Nat) : Byte :=
  if paHost (ownDev s.sys) pa then smGet s.mem.host (hostAddr pa)
  else if paLocal (ownDev s.sys) pa then
    if s.sys.lostDies.contains (homeDie (paOff pa)) then (Config.peerAnswer (s.exe.fresh + pa)).extractLsb' 0 8
    else coByte s.mem (paOff pa)
  else (Config.peerAnswer (s.exe.fresh + pa)).extractLsb' 0 8

/-- The bytes of a run of virtual addresses, read below every cache by an engine of a context. -/
def readVa (s : State) (at_ : Nat) (c : Ctx) (va n need : Nat) : Except FaultCode (List Byte) :=
  (List.range n).foldr (fun i acc =>
    match acc, xlate s at_ c (va + i) need with
    | .error f, .ok _ => .error f
    | _, .error f => .error f
    | .ok bs, .ok x =>
      .ok (spaceByte s x.pa :: bs)) (.ok [])

/-! ## Instruction fetch (R38, R194) -/

/-- The line of a core's instruction cache that holds an address. -/
def icLine (ic : List ICell) (core part cid : Nat) (va : VAddr) : Option ICell :=
  ic.find? fun x => x.core == core && x.part == part && x.ctx == cid && x.va.toNat / 128 == va.toNat / 128

/-- The word at an address as the core's instruction cache holds it; a word that crosses two lines is not
held. -/
def icFind (ic : List ICell) (core part cid : Nat) (va : VAddr) : Option Word :=
  if va.toNat % 128 ≤ 124 then
    (icLine ic core part cid va).map fun x => BitVec.ofNat 32 (leNat ((x.data.drop (va.toNat % 128)).take 4))
  else none

/-- The word at `va` for a core: the cached word, else the word read through the context's tables (R38, R55). -/
def fetchWord (s : State) (core : Nat) (c : Ctx) (va : VAddr) : Except FaultCode Word :=
  match icFind s.mem.icache core c.part c.cid va with
  | some w => .ok w
  | none =>
    match xlate s (coreAt core) c va.toNat needX with
    | .error f => .error f
    | .ok x =>
      .ok (BitVec.ofNat 32 (leNat ((List.range 4).map fun i => spaceByte s (x.pa + i))))

/-- The lines of a core's instruction cache (R14, R194): 64 KiB of 128-byte lines. -/
def icLines : Nat := 512

/-- The instruction cache with a line put in; the line held longest leaves when the cache is full (the order:
log 10). -/
def icPut (ic : List ICell) (l : ICell) : List ICell :=
  let mine := ic.filter fun x => x.core == l.core
  let ic := if mine.length < icLines then ic else
    match mine.getLast? with
    | some v => ic.filter fun x => x != v
    | none => ic
  l :: ic

/-- The instruction cache after a fetch: it holds the line of the fetched word (R194). -/
def icFill (s : State) (core : Nat) (c : Ctx) (va : VAddr) : Mem :=
  match icLine s.mem.icache core c.part c.cid va with
  | some _ => s.mem
  | none =>
    match xlate s (coreAt core) c (va.toNat / 128 * 128) needX with
    | .error _ => s.mem
    | .ok x =>
      { s.mem with icache := icPut s.mem.icache ⟨core, c.part, c.cid, BitVec.ofNat 56 (va.toNat / 128 * 128),
          (List.range 128).map fun i => spaceByte s (x.pa + i)⟩ }

end Sys2Proof.Machine
end

