-- ==== Sys2Proof/Machine/Caches.lean ====
section
/-! DEFINITION. Caches.lean: blocks (R186 to R191, R193), the spatial predictor (R188), L1, the sets of a slice
with their local and home blocks, the LLC (R181, R182), the directory (R324 to R329), the fabric's packets (R333,
R335) and writes at the home (R326). -/

namespace Sys2Proof.Machine

/-! ## Cells -/

/-- Bytes [o, o + n) of a cell. -/
def cellBytes (c : BitVec 256) (o n : Nat) : List Byte := natLe (c.toNat / 256 ^ o) n

/-- The cell with the bytes from `o` replaced. -/
def cellPut (c : BitVec 256) (o : Nat) (bs : List Byte) : BitVec 256 :=
  BitVec.ofNat 256 (c.toNat % 256 ^ o + leNat bs * 256 ^ o
    + c.toNat / 256 ^ (o + bs.length) * 256 ^ (o + bs.length))

/-- The maximal runs of cells 0 to 15 that satisfy `p`, as (start, length), lowest first (R189). -/
def cellRuns (p : Nat → Bool) : List (Nat × Nat) :=
  ((List.range 16).foldl (fun (acc : List (Nat × Nat)) i =>
    if p i then
      match acc with
      | (st, n) :: t => if st + n = i then (st, n + 1) :: t else (i, 1) :: (st, n) :: t
      | [] => [(i, 1)]
    else acc) []).reverse

/-- The wanted range around cell `c` under a span, widened to `lo` and `hi`, clipped (R187). `bf` and
`af` are the predictor's counts. -/
def wanted (span bf af c lo hi : Nat) : Nat × Nat :=
  let (a, b) :=
    if 1 ≤ span ∧ span ≤ 5 then
      let n := 2 ^ (span - 1)
      (c - c % n, c - c % n + n - 1)
    else (c - bf, c + af)
  let a := if lo < a then lo else a
  let b := if b < hi then hi else b
  (a, if 15 < b then 15 else b)

/-! ## The spatial predictor (R188). Entry i of core c has BEFORE at key 4096c + 2i, AFTER at + 1;
AFTER is kept less its reset value 3, modulo 256. -/

def predIndex (pc : VAddr) : Nat := Nat.xor (bits pc.toNat 11 2) (bits pc.toNat 21 12)
def predBefore (m : Mem) (core : Nat) (pc : VAddr) : Nat :=
  (smGet m.predict (4096 * core + 2 * predIndex pc)).toNat
def predAfter (m : Mem) (core : Nat) (pc : VAddr) : Nat :=
  (smGet m.predict (4096 * core + 2 * predIndex pc + 1) + 3).toNat

/-- The predictor after a block leaves L1 (R188). -/
def predLearn (m : Mem) (b : L1Block) : Mem :=
  match (List.range 16).filter fun i => b.touched.getLsbD i with
  | [] => m
  | lo :: t =>
    let hi := t.getLastD lo
    let k := 4096 * b.core + 2 * predIndex b.missPc
    let p := smSet m.predict k (BitVec.ofNat 8 (b.missCell - lo))
    { m with predict := smSet p (k + 1) (BitVec.ofNat 8 (hi - b.missCell) - 3) }

/-! ## L1 (R181, R186, R189) -/

/-- The cell an L1 holds, if it holds it. -/
def l1Cell (bs : List L1Block) (core frame i : Nat) : Option (BitVec 256) :=
  match bs.find? fun b => b.core == core && b.frame == frame && decide (b.start ≤ i)
      && decide (i < b.start + b.cells.length) with
  | some b => b.cells[i - b.start]?
  | none => none

/-- Whether an L1 block belongs to a core and frame. -/
def L1Block.isOf (b : L1Block) (core frame : Nat) : Bool := b.core == core && b.frame == frame

/-- The L1 blocks of a frame rebuilt from a cell function: one block per maximal run, keeping the miss
record and touched cells of the first block it merges (R189). -/
def l1Rebuild (old : List L1Block) (core frame : Nat) (pc : VAddr) (c policy : Nat)
    (f : Nat → Option (BitVec 256)) : List L1Block :=
  (cellRuns fun i => (f i).isSome).map fun r =>
    let inRun := old.filter fun b => decide (r.1 < b.start + b.cells.length) &&
      decide (b.start < r.1 + r.2)
    let base := (inRun.head?).getD ⟨core, frame, r.1, [], pc, c, 0, policy⟩
    { base with
      start := r.1
      cells := (List.range r.2).map fun j => (f (r.1 + j)).getD 0
      touched := inRun.foldl (fun t b => t ||| b.touched) 0 }

/-- The eviction rank of a cache policy: evict-first, then normal, then retain (R182). -/
def policyRank (p : Nat) : Nat := if p = 1 then 0 else if p = 2 then 2 else 1

/-- The last of the entries with the lowest rank. -/
def lowestRank {α : Type} (rank : α → Nat) (l : List α) : Option α :=
  l.foldl (fun best x => match best with
    | some v => if rank v < rank x then best else some x
    | none => some x) none

/-- The blocks of a set of a core's L1 (R180). -/
def l1Set (m : Mem) (core set : Nat) : List L1Block :=
  m.l1.filter fun b => b.core == core && l1SetOf b.frame == set

/-- Evicts L1 blocks of a set until it holds at most 64 cells in 16 tags: lowest rank first, then the one held
longest, never one of frame `keep` (R186, R189; the order among one rank: log 114). -/
def l1Trim (core set keep : Nat) : (fuel : Nat) → Mem → Mem
  | 0, m => m
  | f + 1, m =>
    let inSet := l1Set m core set
    if inSet.length ≤ 16 ∧ (inSet.map fun b => b.cells.length).sum ≤ 64 then m
    else
      match lowestRank (fun b => policyRank b.policy) (inSet.filter fun b => b.frame != keep) with
      | none => m
      | some v => l1Trim core set keep f (predLearn { m with l1 := m.l1.filter fun b => b != v } v)

/-- L1 with the given cells of a frame put in (R189). -/
def l1Put (m : Mem) (core frame : Nat) (pc : VAddr) (c policy : Nat)
    (new : List (Nat × BitVec 256)) : Mem :=
  let old := m.l1.filter fun b => b.isOf core frame
  let f := fun i => match new.find? fun p => p.1 == i with
    | some p => some p.2
    | none => l1Cell old core frame i
  l1Trim core (l1SetOf frame) frame 32
    { m with l1 := l1Rebuild old core frame pc c policy f
        ++ m.l1.filter fun b => !b.isOf core frame }

/-- L1 with the blocks that satisfy `p` removed; the predictor learns from each (R188). -/
def l1Drop (m : Mem) (p : L1Block → Bool) : Mem :=
  (m.l1.filter p).foldl predLearn { m with l1 := m.l1.filter fun b => !p b }

/-- L1 with some cells of a frame removed (R218: an atomic's cells; R189 keeps the rest in blocks). A block of
which no cell stays leaves L1 (R188). -/
def l1DropCells (m : Mem) (core frame : Nat) (cs : List Nat) : Mem :=
  if (cs.any fun i => (l1Cell m.l1 core frame i).isSome) then
    let old := m.l1.filter fun b => b.isOf core frame
    let f := fun i => if cs.contains i then none else l1Cell old core frame i
    let gone := old.filter fun b => (List.range b.cells.length).all fun j => (f (b.start + j)).isNone
    l1Trim core (l1SetOf frame) frame 32 (gone.foldl predLearn
      { m with l1 := l1Rebuild old core frame 0 0 0 f ++ m.l1.filter fun b => !b.isOf core frame })
  else m

/-- L1 with the bytes of a store written into a cell it holds (R191). -/
def l1Update (m : Mem) (core frame i off : Nat) (bs : List Byte) : Mem :=
  { m with l1 := m.l1.map fun b =>
      if b.isOf core frame && decide (b.start ≤ i) then
        { b with cells := modAt b.cells (i - b.start) fun c => cellPut c off bs }
      else b }

/-- L1 blocks with a cell marked as hit by a load (R188). -/
def l1Touch (m : Mem) (core frame i : Nat) : Mem :=
  { m with l1 := m.l1.map fun b =>
      if b.isOf core frame && decide (b.start ≤ i) && decide (i < b.start + b.cells.length) then
        { b with touched := b.touched ||| (1#16 <<< i) } else b }

/-! ## Local blocks of a slice (R181, R193) -/

/-- Whether a local block's lease has not run out (R337). -/
def L2Block.live (b : L2Block) (now : Nat) : Bool :=
  match b.expiry with
  | some t => decide (now < t)
  | none => true

/-- The cell a die's local slice holds of a frame, unless its lease has run out (R337). -/
def l2Cell (bs : List L2Block) (now die frame i : Nat) : Option L2Cell :=
  match bs.find? fun b => b.die == die && b.frame == frame && decide (b.start ≤ i)
      && decide (i < b.start + b.cells.length) && b.live now with
  | some b => b.cells[i - b.start]?
  | none => none

def L2Block.isOf (b : L2Block) (die frame : Nat) : Bool := b.die == die && b.frame == frame

/-- The end of the lease a held cell is under. -/
def l2Expiry (bs : List L2Block) (die frame i : Nat) : Option Nat :=
  match bs.find? fun b => b.isOf die frame && decide (b.start ≤ i) && decide (i < b.start + b.cells.length) with
  | some b => b.expiry
  | none => none

/-- What a block of a local slice carries besides its cells: partition and context of its last store, and the
policy of its page (R182, R330). -/
structure L2Tag where
  part   : Nat
  ctx    : Nat
  policy : Nat

/-- The local blocks of a frame rebuilt from a cell function, one per maximal run under one lease; `new` are the
cells put in, with the tag `g` of their request. A run takes the context of its store, or keeps the one of the
block with modified cells that it merges (R189, R330). -/
def l2Rebuild (old : List L2Block) (die frame : Nat) (g : L2Tag) (store : Bool) (new : List Nat)
    (f : Nat → Option (L2Cell × Option Nat)) : List L2Block :=
  (uniq ((List.range 16).filterMap fun i => (f i).map Prod.snd)).flatMap fun t =>
    (cellRuns fun i => (f i).map Prod.snd == some t).map fun r =>
      let inRun := old.filter fun b => decide (r.1 < b.start + b.cells.length) && decide (b.start < r.1 + r.2)
      let fresh := new.any fun i => decide (r.1 ≤ i) && decide (i < r.1 + r.2)
      let from_ := if fresh && store then none
        else if fresh then inRun.find? fun b => b.cells.any L2Cell.dirty
        else inRun.head?
      { die := die, frame := frame, start := r.1,
        cells := (List.range r.2).map fun j => ((f (r.1 + j)).map Prod.fst).getD ⟨0, false⟩
        part := (from_.map L2Block.part).getD g.part
        ctx := (from_.map L2Block.ctx).getD g.ctx
        policy := if fresh then g.policy else (from_.map L2Block.policy).getD g.policy
        expiry := t }

/-- The modified bytes of some cells of a frame that a local slice holds, as (offset, byte). -/
def l2Dirty (bs : List L2Block) (die frame : Nat) (cs : List Nat) : List (Nat × Byte) :=
  cs.flatMap fun i =>
    match l2Cell bs 0 die frame i with
    | some c => if c.dirty then
        (cellBytes c.data 0 32).zipIdx.map fun p => (512 * frame + 32 * i + p.2, p.1) else []
    | none => []

/-- What a local slice holds of cell `i` of a frame, with its lease. -/
def l2Held (bs : List L2Block) (die frame i : Nat) : Option (L2Cell × Option Nat) :=
  (l2Cell bs 0 die frame i).map fun c => (c, l2Expiry bs die frame i)

/-- A local slice with the given cells of a frame put in, under the lease `expiry`. -/
def l2Put (m : Mem) (die frame : Nat) (g : L2Tag) (store : Bool) (expiry : Option Nat)
    (new : List (Nat × L2Cell)) : Mem :=
  let old := m.l2.filter fun b => b.isOf die frame
  let f := fun i => match new.find? fun p => p.1 == i with
    | some p => some (p.2, expiry)
    | none => l2Held old die frame i
  { m with l2 := l2Rebuild old die frame g store (new.map Prod.fst) f
      ++ m.l2.filter fun b => !b.isOf die frame }

/-- A local slice with some cells of a frame removed; a block may be cut in two (R193). -/
def l2Remove (m : Mem) (die frame : Nat) (cs : List Nat) : Mem :=
  let mine := m.l2.filter fun b => b.isOf die frame
  if mine.isEmpty then m
  else
    let f := fun i => if cs.contains i then none else l2Held mine die frame i
    { m with l2 := l2Rebuild mine die frame ⟨0, 0, 0⟩ false [] f
        ++ m.l2.filter fun b => !b.isOf die frame }

/-- The cells of a grain within its frame. -/
def grainCells (grain size : Nat) : List Nat :=
  (List.range (size / 32)).map fun j => cellIn grain + j

/-- The base of the grain of `size` bytes that holds an offset. -/
def grainBase (off size : Nat) : Nat := off / size * size

/-! ## The directory (R324, R325, R327) -/

/-- Whether a HORIZON has been reached at owner time `t` (R325). -/
def horizonReached (h : Word) (t : Nat) : Bool :=
  h == 0 || decide (((t % 2 ^ 42) + 2 ^ 42 - 1024 * h.toNat % 2 ^ 42) % 2 ^ 42 < 2 ^ 41)

/-- HORIZON as stored for a lease that ends at T, and the later of two horizons (R325). -/
def leaseWord (t : Nat) : Word :=
  if (t + 1023) / 1024 % 2 ^ 32 = 0 then 1 else BitVec.ofNat 32 ((t + 1023) / 1024)
def laterHorizon (old new : Word) : Word :=
  if new = 0 then old else if old = 0 ∨ horizonReached old (1024 * new.toNat) = true then new else old

/-- The entry whose grain holds an offset. -/
def dirFind (d : List DirEntry) (off : Nat) : Option DirEntry :=
  d.find? fun e => decide (e.grain ≤ off) && decide (off < e.grain + e.size)

/-- The agents an entry names (R324): its pointers, or both agents of every set bit. -/
def namedSet (e : DirEntry) : List Nat :=
  if e.coarse then (List.range 11).filter fun a => e.vec.getLsbD (a / 2) else e.ptrs

/-- The agents an entry covers (R324); agent 9 while its HORIZON has not passed (R326). -/
def coveredSet (e : DirEntry) (now : Nat) : List Nat :=
  let base := namedSet e
  if !horizonReached e.horizon now && !base.contains 9 then base ++ [9] else base

/-- Agent `a` added to an entry (R327). -/
def dirAdd (e : DirEntry) (a : Nat) : DirEntry :=
  if e.coarse then { e with vec := e.vec ||| (1#8 <<< (a / 2)) }
  else if e.ptrs.contains a then e
  else if e.ptrs.length < 4 then { e with ptrs := e.ptrs ++ [a] }
  else
    { e with
      coarse := true
      owned := false
      ptrs := []
      vec := (e.ptrs ++ [a]).foldl (fun v b => v ||| (1#8 <<< (b / 2))) 0 }

/-- Agent `a` leaves an entry; in coarse mode its bit stays (R329). Later pointers move down. -/
def dirLeave (e : DirEntry) (a : Nat) : DirEntry :=
  if e.coarse then e
  else { e with ptrs := e.ptrs.filter fun b => b != a,
                owned := e.owned && e.ptrs.head? != some a }

/-- An entry that is freed: its covered set is empty and its HORIZON has passed (R324). -/
def dirEmpty (now : Nat) (e : DirEntry) : Bool := (namedSet e).isEmpty && horizonReached e.horizon now

/-- The directory with the entry of a grain replaced; a free entry is dropped. -/
def dirPut (now : Nat) (d : List DirEntry) (e : DirEntry) : List DirEntry :=
  let rest := d.filter fun x => x.grain + x.size ≤ e.grain || e.grain + e.size ≤ x.grain
  if dirEmpty now e then rest else e :: rest

/-- A grain is 32, 128 or 512 bytes (R313). -/
def grainSize (size : Nat) : Nat := if size = 512 then 512 else if size = 128 then 128 else 32

/-- The entry of the grain at an offset for a request that names `size`: an entry keeps the largest
grain any request has named, and takes in the entries it grows over, their agents and the latest of their
HORIZONs (R313, R325). -/
def dirGrow (d : List DirEntry) (off size : Nat) : DirEntry :=
  let size := grainSize size
  let grown : DirEntry :=
    let inside := d.filter fun x => grainBase off size ≤ x.grain && x.grain < grainBase off size + size
    (inside.flatMap namedSet).foldl dirAdd
      { grain := grainBase off size, size := size, horizon := inside.foldl (fun h x => laterHorizon h x.horizon) 0 }
  match dirFind d off with
  | some e => if size ≤ e.size then e else grown
  | none => grown

/-- The agent of a core's die is the die's number (R322). -/
def agentOf (core : Nat) : Nat := coreDie core

/-- The dies whose agents are not lost (R323). -/
def liveAgents (s : State) (as : List Nat) : List Nat := as.filter fun a => !s.sys.lostDies.contains a

/-- Whether the memory of an offset can be reached: its home die is not lost (R330). -/
def homeUp (s : State) (off : Nat) : Bool := !s.sys.lostDies.contains (homeDie off)

/-- The modified cells of a grain written back into the home's copy and marked clean, but for the bytes that a
write in progress has already put there (R326 recall, R328). -/
def recallGrain (m : Mem) (grain size : Nat) : Mem :=
  let f := frameOf grain
  let cs := grainCells grain size
  let owners := (m.l2.filter fun b => b.frame == f).map fun b => b.die
  { owners.foldl (fun x d =>
      (l2Dirty m.l2 d f cs).foldl (fun x p => if homeWritten m p.1 then x else memSet x p.1 p.2) x) m with
    l2 := m.l2.map fun b =>
      if b.frame == f then
        { b with cells := b.cells.mapIdx fun j c =>
            if cs.contains (b.start + j) then { c with dirty := false } else c }
      else b }

/-- The memory in which the entry of a grain may grow: the modified cells of a grain that an entry would take in
are written back first (R313). -/
def growRecall (m : Mem) (off size : Nat) : Mem :=
  let e := dirGrow m.dir off size
  if (m.dir.any fun x => x.owned && decide (x.size < e.size) && decide (e.grain ≤ x.grain)
      && decide (x.grain < e.grain + e.size)) then recallGrain m e.grain e.size else m

/-- Whether a transaction is in progress on the grain of an offset (R326). -/
def txnBusy (m : Mem) (off : Nat) : Bool :=
  m.txns.any fun t => decide (t.grain ≤ off) && decide (off < t.grain + t.size)

/-- The transactions in progress on the grains of a run of bytes. -/
def txnsOn (m : Mem) (off len : Nat) : List Txn :=
  m.txns.filter fun t => decide (t.grain < off + len) && decide (off < t.grain + t.size)

/-- Whether an eviction notice of agent `a` for the grain of an offset is on its way; what the agent sends to the home
after it arrives after it (R381). -/
def noticeAhead (m : Mem) (a off : Nat) : Bool :=
  m.notices.any fun n => n.agent == a && decide (n.grain ≤ off) && decide (off < n.grain + n.size)

/-! ## The LLC (R16, R181, R182) -/

/-- Cells of a frame written to LPDDR, at their place on its channel, as they are stored (R181, R306, R321). -/
def lpddrPut (m : Mem) (frame : Nat) (cs : List Nat) : Mem :=
  { m with lpddr := cs.foldl (fun l i =>
      smPut l (lpddrKey (512 * frame + 32 * i)) (smRun m.bytes (512 * frame + 32 * i) 32)) m.lpddr }

/-- The sets of a die's LLC: 1.5 GiB of 512-byte lines in 16 ways (R16). -/
def llcSets : Nat := 196608

/-- Whether two frames fall in one set of one die's LLC, by their local frame numbers (log 115). -/
def llcSameSet (a b : Nat) : Bool :=
  homeDie (512 * a) == homeDie (512 * b) && localFrame (512 * a) % llcSets == localFrame (512 * b) % llcSets

/-- The mask of some cells of a frame. -/
def cellMask (cs : List Nat) : BitVec 16 := cs.foldl (fun x i => x ||| (1#16 <<< i)) 0

/-- The cells of a mask. -/
def maskCells (x : BitVec 16) : List Nat := (List.range 16).filter fun i => x.getLsbD i

/-- The line of the four ways of partition `p` that leaves, where none of them is free: lowest rank first, then
the one held longest. -/
def llcVictim (m : Mem) (frame p : Nat) : Option LlcLine :=
  let ways := m.llc.filter fun l => llcSameSet l.frame frame && l.way / 4 == p
  if ways.length < 4 then none else lowestRank (fun l => policyRank l.policy) ways

/-- A way of partition `p` that no line of a frame's set stands in. -/
def llcFreeWay (m : Mem) (frame p : Nat) : Nat :=
  ([4 * p, 4 * p + 1, 4 * p + 2, 4 * p + 3].find? fun w =>
    !(m.llc.any fun l => llcSameSet l.frame frame && l.way == w)).getD (4 * p)

/-- The LLC with cells of a frame made valid, and dirty where `dirt` says so. A frame with no line takes one in
the four ways of its page's partition; the line that leaves has its dirty cells written to LPDDR (R181). -/
def llcPut (m : Mem) (frame wayp policy : Nat) (cells dirt : BitVec 16) : Mem :=
  if m.llc.any fun l => l.frame == frame then
    { m with llc := modIf m.llc (fun l => l.frame == frame) fun l =>
        { l with valid := l.valid ||| cells, dirty := l.dirty ||| dirt } }
  else
    let m := match llcVictim m frame wayp with
      | none => m
      | some v => { lpddrPut m v.frame (maskCells v.dirty) with llc := m.llc.filter fun l => l != v }
    { m with llc := ⟨frame, cells, dirt, llcFreeWay m frame wayp, policy⟩ :: m.llc }

/-! ## The sets of a slice (R180, R186, R189) -/

/-- The cells pinned by LOCKB (R205). -/
def pinnedCell (s : State) (c : Nat) : Bool := s.exe.groups.any fun g => g.pins.contains c

/-- The local blocks of the set of a frame in a die's slice, and the home blocks of the same set. -/
def l2Set (m : Mem) (die frame : Nat) : List L2Block :=
  m.l2.filter fun b => b.die == die && sliceOf b.frame == sliceOf frame && setOf b.frame == setOf frame
def homeSet (m : Mem) (die frame : Nat) : List HomeBlock :=
  m.homeBlocks.filter fun b => homeDie (512 * b.frame) == die && sliceOf b.frame == sliceOf frame
    && setOf b.frame == setOf frame

/-- The tags and the cells of storage that a set uses. -/
def setTags (m : Mem) (die frame : Nat) : Nat := (l2Set m die frame).length + (homeSet m die frame).length
def setCells (m : Mem) (die frame : Nat) : Nat :=
  ((l2Set m die frame).map fun b => b.cells.length).sum + ((homeSet m die frame).map fun b => b.dirty.length).sum

/-- A home block out of its slice: its dirty cells go to the LLC (R181, R189). -/
def evictHome (s : State) (v : HomeBlock) : State :=
  let dirt := (List.range v.dirty.length).filter fun j => nth v.dirty j false
  let m := { s.mem with homeBlocks := s.mem.homeBlocks.filter fun b => b != v }
  let cells := cellMask (dirt.map fun j => v.start + j)
  { s with mem := if dirt.isEmpty then m else llcPut m v.frame v.wayp v.policy cells cells }

/-- The grains of the cells of a local block, by the entries that hold them. -/
def blockGrains (m : Mem) (v : L2Block) : List (Nat × Nat) :=
  uniq ((List.range v.cells.length).filterMap fun j =>
    (dirFind m.dir (512 * v.frame + 32 * (v.start + j))).map fun e => (e.grain, e.size))

/-- A local block out of its slice, with an eviction notice to the home for each of its grains (R189, R329). -/
def evictLocal (s : State) (v : L2Block) : State :=
  let ns := (blockGrains s.mem v).zipIdx.map fun g =>
    let d := l2Dirty s.mem.l2 v.die v.frame ((grainCells g.1.1 g.1.2).filter fun i =>
      decide (v.start ≤ i) && decide (i < v.start + v.cells.length))
    (⟨s.exe.nextId + g.2, v.die, (smGet s.sys.agentInc v.die).toNat, g.1.1, g.1.2,
      if d.isEmpty then none else some d⟩ : Notice)
  { s with
    mem := { s.mem with l2 := s.mem.l2.filter fun b => b != v, notices := s.mem.notices ++ ns }
    exe := { s.exe with nextId := s.exe.nextId + ns.length } }

/-- Evicts blocks of a set of a die's slice until it fits: lowest rank first, local blocks before home blocks of
one rank, then the one held longest; never one of frame `keep`, nor a home block with a pinned cell (R189, R205;
the order among one rank: log 114). -/
def trimSet (die frame : Nat) : (fuel : Nat) → State → State
  | 0, s => s
  | f + 1, s =>
    if setTags s.mem die frame ≤ 16 ∧ setCells s.mem die frame ≤ 64 then s
    else
      let homes := (homeSet s.mem die frame).filter fun b => b.frame != frame &&
        !((List.range b.dirty.length).any fun j => pinnedCell s (16 * b.frame + b.start + j))
      let locals := (l2Set s.mem die frame).filter fun b => b.frame != frame
      match lowestRank (fun b => policyRank b.policy) homes, lowestRank (fun b => policyRank b.policy) locals with
      | none, none => s
      | some h, none => trimSet die frame f (evictHome s h)
      | none, some v => trimSet die frame f (evictLocal s v)
      | some h, some v =>
        if policyRank h.policy < policyRank v.policy then trimSet die frame f (evictHome s h)
        else trimSet die frame f (evictLocal s v)

/-- A set made to fit. -/
def trimL2 (s : State) (die frame : Nat) : State := trimSet die frame 64 s

/-- The part of a cut block above a removed grain leaves too, with its notices, where the cut finds no tag free
(R193). -/
def dropAbove (s : State) (die frame top : Nat) : State :=
  if setTags s.mem die frame ≤ 16 then s
  else
    match s.mem.l2.find? fun b => b.isOf die frame && b.start == top with
    | some v => evictLocal s v
    | none => s

/-- Whether a home block holds a cell of a frame, and whether it is dirty there. -/
def homeHolds (bs : List HomeBlock) (frame i : Nat) : Option Bool :=
  match bs.find? fun b => b.frame == frame && decide (b.start ≤ i)
      && decide (i < b.start + b.dirty.length) with
  | some b => b.dirty[i - b.start]?
  | none => none

/-- The home slice holding cells of a frame, marked dirty where they were written (R181, R187, R191). Cells it did
not hold come through the LLC, which takes them too, unless `whole` says that they were written in full (R182,
R191). A bypass page allocates nothing, and its writes go to LPDDR. -/
def homeAlloc (s : State) (frame : Nat) (cs : List Nat) (write whole : Bool) (policy wayp : Nat) : State :=
  if policy = 3 then (if write then { s with mem := lpddrPut s.mem frame cs } else s)
  else
    let m := s.mem
    let absent := cs.filter fun i => (homeHolds m.homeBlocks frame i).isNone
    let f := fun i => if cs.contains i then some (write || (homeHolds m.homeBlocks frame i).getD false)
      else homeHolds m.homeBlocks frame i
    let bs := (cellRuns fun i => (f i).isSome).map fun r =>
      (⟨frame, r.1, (List.range r.2).map fun j => (f (r.1 + j)).getD false, policy, wayp⟩ : HomeBlock)
    let m := if absent.isEmpty || (write && whole) then m else llcPut m frame wayp policy (cellMask absent) 0
    trimL2 { s with mem := { m with homeBlocks := bs ++ m.homeBlocks.filter fun b => b.frame != frame } }
      (homeDie (512 * frame)) frame

/-! ## Packets of the fabric (R323, R333, R335, R338) -/

/-- A request put on the fabric for a partition: it carries this device's number, the partition and this
device's incarnation, and is unacknowledged until its answer arrives (R333, R335). -/
def sendReq (s : State) (part dev tag cls note : Nat) (r : PeerOp) : State :=
  let m : FabricOut :=
    { dev := dev, tag := tag, inc := s.sys.ownInc, cls := cls, src := ownDev s.sys, part := part, req := some r,
      note := note, link := routeOf s.sys dev (reqFrame r) }
  { s with sys := { s.sys with out := s.sys.out ++ [m], flight := s.sys.flight ++ [m] } }

/-- Whether an unacknowledged packet is one of those that a tag names, by note or all. -/
def FabricOut.named (m : FabricOut) (tag : Nat) (note : Option Nat) : Bool :=
  m.tag == tag && (note.isNone || note == some m.note)

/-- Whether the packets a tag names have a link that carries traffic; else they are delivered only after it is trained
again, or on another (R334). -/
def answerable (sys : Sys) (tag : Nat) (note : Option Nat) : Bool :=
  sys.flight.all fun m => !m.named tag note || m.link.any (linkUp sys)

/-- The requests a tag names, by note or all, answered. -/
def ackReq (s : State) (tag : Nat) (note : Option Nat) : State :=
  { s with sys := { s.sys with flight := s.sys.flight.filter fun m => !m.named tag note } }

/-- An answer on its way to a peer: class 1 RSP, class 2 ACK; note 1 in class 2 is REFUSED, note T in class 1
the expiry of a lease, 0 for none. -/
def answerTo (s : State) (dev tag cls : Nat) (data : List Byte) (note : Nat) : State :=
  let m : FabricOut :=
    { dev := dev, tag := tag, inc := s.sys.ownInc, cls := cls, src := ownDev s.sys, data := data, note := note }
  { s with sys := { s.sys with out := s.sys.out ++ [m] } }

/-! ## Writes at the home (R326 WRITE) -/

/-- The bytes put into the home's copy. -/
def homePut (m : Mem) (off : Nat) (bs : List Byte) : Mem :=
  memPut m off bs

/-- An entry after a WRITE: empty but for HORIZON, whose agent 9 stays until it has passed (R326, R337). -/
def dirCleared (now : Nat) (e : DirEntry) : DirEntry :=
  { e with coarse := false, owned := false, vec := 0, ptrs := if horizonReached e.horizon now then [] else [9] }

/-- The bytes from `off` that acknowledgements and notices on their way carry, which are older than a write performed
now, forgotten (R328). -/
def forgetFlight (m : Mem) (off n : Nat) : Mem :=
  let keep := fun (d : List (Nat × Byte)) => d.filter fun p => decide (p.1 < off) || decide (off + n ≤ p.1)
  { m with
    txns := m.txns.map fun t => { t with acks := t.acks.map fun a => (a.1, a.2.1, keep a.2.2) }
    notices := m.notices.map fun x => { x with data := x.data.map keep } }

/-- A transaction on the grain of an entry, for the write of `w` (R326). -/
def newTxn (s : State) (e : DirEntry) (w : Writer) (own : Option Nat) (wpa wlen : Nat) (out : List Nat) : Txn :=
  ⟨s.exe.nextId, e.grain, e.size, w, own, [], wpa, wlen, out, [], []⟩

/-- A transaction opened. -/
def openTxn (s : State) (e : DirEntry) (w : Writer) (own : Option Nat) (wpa wlen : Nat) (out : List Nat) : State :=
  { s with
    exe := { s.exe with nextId := s.exe.nextId + 1 }
    mem := { s.mem with
      txns := s.mem.txns ++ [newTxn s e w own wpa wlen out]
      dir := dirPut s.sys.ptp s.mem.dir e } }

/-- A WRITE of bytes within one cell, performed in the home's copy at once; every covered agent is sent an
invalidation, and `w` is acknowledged when all of them have answered (R326). A write of an engine that meets a
transaction on its grain is performed within it (log 116). -/
def homeWriteCell (s : State) (w : Writer) (leaf off : Nat) (bs : List Byte) : State :=
  let grain := leafGrain leaf
  let m := growRecall s.mem off grain
  let e := dirGrow m.dir off grain
  if txnBusy m off then
    let m := homePut (forgetFlight (recallGrain m e.grain e.size) off bs.length) off bs
    let on := fun (t : Txn) => decide (t.grain ≤ off) && decide (off < t.grain + t.size)
    let m := { m with txns := modIf m.txns on fun t => { t with also := w :: t.also } }
    homeAlloc { s with mem := m } (frameOf off) [cellIn off] true (bs.length == 32) (leafPolicy leaf) (leafWayp leaf)
  else
    let others := liveAgents s (coveredSet e s.sys.ptp)
    let s := homeAlloc { s with mem := homePut m off bs } (frameOf off) [cellIn off] true (bs.length == 32)
      (leafPolicy leaf) (leafWayp leaf)
    if others.isEmpty then
      { s with mem := { s.mem with dir := dirPut s.sys.ptp s.mem.dir (dirCleared s.sys.ptp e) } }
    else openTxn s e w none off bs.length others

/-- The pieces of a run of bytes at cell boundaries, as (offset, bytes) (R192). -/
def cellPieces (off : Nat) (bs : List Byte) : (fuel : Nat) → List (Nat × List Byte)
  | 0 => []
  | f + 1 => if bs.isEmpty then []
    else (off, bs.take (32 - off % 32)) :: cellPieces (off + (32 - off % 32)) (bs.drop (32 - off % 32)) f

/-- A WRITE of a run of bytes at its home, cell by cell (R326). What is written to a lost die's memory reaches no
channel (R330). -/
def homeWrite (s : State) (w : Writer) (leaf off : Nat) (bs : List Byte) : State :=
  (cellPieces off bs (bs.length / 32 + 2)).foldl (fun s p =>
    if homeUp s p.1 then homeWriteCell s w leaf p.1 p.2 else s) s

/-- Whether a writer still waits for the acknowledgement of a transaction. -/
def writerWaits (m : Mem) (w : Writer) : Bool := m.txns.any fun t => t.writer == w || t.also.contains w

/-- Whether a lease on the grain of an offset still holds back the writer's acknowledgement (R337). -/
def leaseHolds (m : Mem) (now guard off : Nat) : Bool :=
  match dirFind m.dir off with
  | some e => e.horizon != 0 && !decide (((now % 2 ^ 42) + 2 ^ 42
      - (1024 * e.horizon.toNat + guard) % 2 ^ 42) % 2 ^ 42 < 2 ^ 41)
  | none => false

/-- A write of bytes at a physical address by an engine: device memory at its home, host memory as a
PCIe write (R331). -/
def engineWrite (s : State) (w : Writer) (leaf pa : Nat) (bs : List Byte) : State :=
  if paHost (ownDev s.sys) pa then
    { s with mem := { s.mem with host := smPut s.mem.host (hostAddr pa) bs } }
  else if paLocal (ownDev s.sys) pa then homeWrite s w leaf (paOff pa) bs
  else s

/-- A write of bytes at virtual addresses of a context by an engine, byte by byte as they translate. -/
def writeVa (s : State) (w : Writer) (at_ : Nat) (c : Ctx) (va need : Nat) : List Byte → Except FaultCode State
  | [] => .ok s
  | b :: bs =>
    match xlate s at_ c va need with
    | .error f => .error f
    | .ok x => writeVa (engineWrite s w x.leaf x.pa [b]) w at_ c (va + 1) need bs

/-- An add of `v` to the 64-bit number at a physical address, as EVADD makes it at the number's home (R101, R113,
R275): on a peer it travels as a packet to the peer's home (R223). -/
def homeAdd (s : State) (w : Writer) (part leaf pa v : Nat) : State :=
  let own := ownDev s.sys
  if paHost own pa || paLocal own pa then
    engineWrite s w leaf pa (natLe (leNat ((List.range 8).map fun i => spaceByte s (pa + i)) + v) 8)
  else
    let t := sendReq s part (paDev pa) s.exe.nextId 0 0 (.atomic .add false (paOff pa) 8 (BitVec.ofNat 64 v) 0)
    { t with exe := { t.exe with nextId := t.exe.nextId + 1 } }

/-- Adds a 64-bit number at a virtual address of a context: an event add (R101, R113, R275). -/
def eventAdd (s : State) (w : Writer) (at_ : Nat) (c : Ctx) (va v : Nat) : Except FaultCode State :=
  match xlate s at_ c va needRW with
  | .error f => .error f
  | .ok x => .ok (homeAdd s w c.part x.leaf x.pa v)

end Sys2Proof.Machine
end

