-- ==== Sys2Proof/Machine/MemOps.lean ====
section
/-! DEFINITION. MemOps.lean: memory operations in flight (R51, R207, R208): their parts, the checks
made before any lane leaves the core (R199), issue, and when a part may be performed (R212 to R218). -/

namespace Sys2Proof.Machine

/-! ## Parts -/

/-- The pieces of [va, va + n) at cell boundaries, as (va, offset, length) (R192). -/
def splitCells (va : Nat) : (fuel off n : Nat) → List (Nat × Nat × Nat)
  | 0, _, _ => []
  | _, _, 0 => []
  | f + 1, off, n =>
    let a := va + off
    let k := 32 - a % 32
    let k := if n < k then n else k
    (a, off, k) :: splitCells va f (off + k) (n - k)

/-- The parts of one lane's access of `n` bytes at `ea`; the fault of a part that does not translate. -/
def laneParts (s : State) (at_ : Nat) (c : Ctx) (l ea n need : Nat) (data : List Byte) :
    Except FaultCode (List (MemPart × Nat)) :=
  (splitCells ea 4 0 n).foldr (fun p acc =>
    match xlate s at_ c p.1 need with
    | .error f => .error f
    | .ok x =>
      match acc with
      | .error f => .error f
      | .ok ps =>
        .ok (({ lane := l, va := BitVec.ofNat 64 p.1, pa := x.pa, len := p.2.2, off := p.2.1,
                leaf := x.leaf, wdata := (data.drop p.2.1).take p.2.2 }, x.leaf) :: ps)) (.ok [])

/-- The queue whose bound header holds a physical address (R90). -/
def boundHeader (qs : List Queue) (pa n : Nat) : Bool :=
  qs.any fun q => q.state != .unbound && decide (q.pa < pa + n) && decide (pa < q.pa + 64)

/-- The fault of a store into a bound queue header (R90). -/
def headerFault (s : State) (ps : List (MemPart × Nat)) : Option FaultCode :=
  if ps.any fun p => boundHeader s.ctl.queues p.1.pa p.1.len then some .permFault else none

/-- The judgement of an access: the fault of the lowest failing active lane, with its address in INFO
(R199). -/
def judgeLanes (ls : List Nat) (ea : Nat → Nat) (f : Nat → Option FaultCode) : Judge :=
  match ls.find? fun l => (f l).isSome with
  | some l => .fault (l / 4) ((f l).getD .illegalOp) (BitVec.ofNat 64 (ea l))
  | none => .go

/-- The failure of an `Except`. -/
def excFault {α : Type} : Except FaultCode α → Option FaultCode
  | .error f => some f
  | .ok _ => none

/-- The value of an `Except`. -/
def excGet {α : Type} (d : α) : Except FaultCode α → α
  | .error _ => d
  | .ok x => x

/-- Counter limits (R51): the cohort stalls while a slice's counter stands at 63. -/
def clsCount (x : Slice) (cl : Cls) : Nat :=
  match cl with
  | .none => 0
  | .l => x.cL
  | .s => x.cS
  | .c => x.cC
  | .f => x.cF

def clsAdd (x : Slice) (cl : Cls) : Slice :=
  match cl with
  | .none => x
  | .l => { x with cL := x.cL + 1 }
  | .s => { x with cS := x.cS + 1 }
  | .c => { x with cC := x.cC + 1 }
  | .f => { x with cF := x.cF + 1 }

def clsSub (x : Slice) (cl : Cls) : Slice :=
  match cl with
  | .none => x
  | .l => { x with cL := x.cL - 1 }
  | .s => { x with cS := x.cS - 1 }
  | .c => { x with cC := x.cC - 1 }
  | .f => { x with cF := x.cF - 1 }

/-- The cohort stalls while a slice's counter of the class stands at 63 (R51). -/
def clsRoom (e : Iss) (c : Nat → Cls) : Judge :=
  if e.sls.all fun k => decide (clsCount (e.g.sl k) (c k) < 63) then .go else .stall

/-! ## Kinds of operation -/

/-- The operation reads memory before its result lands. -/
def isLoad (o : MemOp) : Bool := o.kind == .load || o.kind == .sload

/-- The operation is a store of the memory system. -/
def isStore (o : MemOp) : Bool := o.kind == .store

/-- The operation is performed at a home as a read-modify-write, or as a write of its own. -/
def isRmw (o : MemOp) : Bool :=
  match o.kind with
  | .rmw _ _ _ | .enq _ | .deq _ => true
  | _ => false

/-- The operation writes the memory system: a store, a read-modify-write or a PSTORE. -/
def isWrite (o : MemOp) : Bool := isStore o || isRmw o || o.kind == .pstore

/-- The operation reads or writes the memory system (R207). -/
def isAccess (o : MemOp) : Bool := isLoad o || isWrite o

/-- The operation acts on the group's window. -/
def isLocal (o : MemOp) : Bool :=
  match o.kind with
  | .ldl | .stl | .atl _ _ => true
  | _ => false

/-! ## What an issue tells the TLBs (R317, R319) -/

/-- The entries of an L1 and of an L2 TLB (R317). -/
def l1TlbSize : Nat := 512
def l2TlbSize : Nat := 1024
/-- The translations that PIN and LAUNCH hold in one L2 TLB (R317), and the pages that may wait on a die
(R319). -/
def heldLimit : Nat := 512
def walkLimit : Nat := 1024

/-- A TLB with an entry put in; one that is full drops the entry it has had longest that is not held. -/
def tlbPut (tlb : List TlbEntry) (size : Nat) (e : TlbEntry) : List TlbEntry :=
  let mine := tlb.filter fun t => t.place == e.place
  let tlb := if mine.length < size then tlb else
    match (mine.filter fun t => !t.held).getLast? with
    | some v => tlb.filter fun t => t != v
    | none => tlb
  e :: tlb

/-- A miss joins the walk that waits for its page, or waits itself where the die has a place (R319). -/
def joinWalk (ws : List Walk) (die part cid page core : Nat) : List Walk :=
  let same := fun (w : Walk) => w.die == die && w.part == part && w.ctx == cid && w.page == page
  if ws.any same then
    modIf ws same fun w => if w.cores.contains core then w else { w with cores := w.cores ++ [core] }
  else if (ws.filter fun w => w.die == die).length < walkLimit then ws ++ [⟨die, part, cid, page, [core]⟩]
  else ws

/-- A translation that a core has used: an L2 TLB's entry goes into the core's L1 TLB; one that neither TLB
holds waits for a walker (R317, R319). -/
def noteXlate (m : Mem) (core part cid va : Nat) : Mem :=
  match tlbAt m.tlb (coreAt core) part cid va with
  | some _ => m
  | none =>
    match tlbAt m.tlb (l2Tlb (coreDie core) cid va) part cid va with
    | some t => { m with tlb := tlbPut m.tlb l1TlbSize { t with place := coreAt core, held := false } }
    | none => { m with walks := joinWalk m.walks (coreDie core) part cid (va / 2 ^ 16) core }

/-- The translations of the parts of an operation noted. -/
def noteParts (m : Mem) (o : MemOp) : Mem :=
  if isAccess o then o.parts.foldl (fun m p => noteXlate m o.core o.part o.ctx p.va.toNat) m else m

/-! ## Issuing operations -/

/-- A new operation of slice `k` of the issuing cohort; `ps` are its parts. -/
def mkOp (e : Iss) (id issue k : Nat) (kind : OpKind) (cls : Cls) (dst nreg : Nat) (ps : List MemPart) : MemOp :=
  { id := id, issue := issue, gang := e.gi, slice := k, core := e.core, part := e.kern.part,
    ctx := e.kern.ctx, kern := e.grp.kern, kind := kind, cls := cls, order := mOrder (e.mode k),
    scope := mScope (e.mode k), dst := dst, nreg := nreg, pc := e.pc, span := mSpan (e.mode k), parts := ps }

/-- A body that issues one operation per slice of the cohort: each slice's counter rises by 1 (R51), ids
rise in slice order, and the memory is `mem`. -/
def opsBody (e : Iss) (cls : Nat → Cls) (mem : Mem) (mk : (id issue k : Nat) → MemOp) : Eff :=
  let base := e.s.exe.nextId
  let ops := e.sls.zipIdx.map fun p => mk (base + p.2) base p.1
  let g := e.adv
  { st := { e.s with
      mem := ops.foldl noteParts { mem with ops := mem.ops ++ ops }
      exe := { e.s.exe with nextId := base + 8 } }
    g := { g with slices := g.slices.mapIdx fun k (x : Slice) =>
      if e.mask.getLsbD k then clsAdd x (cls k) else x } }

/-- The parts of slice `k` among the parts of all lanes. -/
def partsOf (ps : List (MemPart × Nat)) (k : Nat) : List MemPart :=
  (ps.filter fun p => p.1.lane / 4 == k).map Prod.fst

/-- Whether a part of the operation is settled: its data captured, or its write performed. -/
def partSettled (o : MemOp) (p : MemPart) : Bool :=
  if isLoad o then p.got.isSome else p.performed

/-- Whether two parts name a common byte of one space. -/
def overlaps (a b : MemPart) : Bool :=
  decide (a.pa < b.pa + b.len) && decide (b.pa < a.pa + a.len)

/-- The operations of the same slice issued before `o`. -/
def earlier (ops : List MemOp) (o : MemOp) : List MemOp :=
  ops.filter fun q => q.gang == o.gang && q.slice == o.slice && decide (q.id < o.id)

/-- The acquire part of an operation is still outstanding: later operations of its slice wait
(R214, R215). -/
def acquirePending (q : MemOp) : Bool :=
  ordAcq q.order && (isLoad q || isRmw q || q.kind == .ldl
    || (match q.kind with | .atl _ _ => true | _ => false))

/-- The operations that one access of a cohort consists of (R158, R201, R340); else the operation alone. -/
def siblings (ops : List MemOp) (o : MemOp) : List MemOp :=
  if o.joint then ops.filter fun q => q.issue == o.issue else [o]

/-- Whether a part may take its data: in every slice that has the access in program order, every earlier acquire is
done, and every earlier overlapping access is settled; stores lie in the write-through buffer (R212, R214). -/
def captureOk (ops : List MemOp) (o : MemOp) (p : MemPart) : Bool :=
  (siblings ops o).all fun x => (earlier ops x).all fun q =>
    !acquirePending q &&
      q.parts.all fun r => !(overlaps r p) || partSettled q r || isStore q || !isAccess q

/-- Requests of a core reach one home slice in issue order: whether every earlier issue's accesses there are
settled (R87). -/
def homeTurn (own : Nat) (ops : List MemOp) (o : MemOp) (p : MemPart) : Bool :=
  ops.all fun q => !(q.core == o.core && decide (q.issue < o.issue) && isAccess q) ||
    q.parts.all fun r => homeKey own r.pa != homeKey own p.pa || partSettled q r

/-- What is left to do of a part of a write before a release of a scope, by R218: a read-modify-write is performed
at every scope (R215), a store at CORE and DIE; at DEVICE both are acknowledged, at DOMAIN peer stores too, at
SYSTEM writes to host memory are complete. -/
def writeLeft (own scope : Nat) (q : MemOp) (p : MemPart) : Bool :=
  if scope ≤ scGroup then isRmw q && !p.performed
  else if scope ≤ scDie then !p.performed
  else if paHost own p.pa then decide (scSystem ≤ scope) && !p.performed
  else if paLocal own p.pa then !p.acked
  else (isRmw q || decide (scDomain ≤ scope)) && !p.acked

/-- What a release waits for of an earlier operation of its own slice: window accesses are performed, loads have
their data, writes are as far as R218 asks (R214, R215). -/
def ownWaits (own scope : Nat) (q : MemOp) : Bool :=
  isLocal q || (isLoad q && q.parts.any fun p => p.got.isNone)
    || (isWrite q && q.parts.any fun p => writeLeft own scope q p)

/-- What a release waits for of an earlier write of another slice. Another gang of the core may have acquired it from
the core's write-through buffer, another core of the die from the local slice; what happens-before such an acquire
happens-before the release too (R214). -/
def othersWait (own scope core : Nat) (q : MemOp) : Bool :=
  isWrite q && decide (scGroup < scope) && q.parts.any fun p => writeLeft own scope q p &&
    (q.core == core || (decide (scDevice ≤ scope) && coreDie q.core == coreDie core && p.performed))

/-- Whether a release at a scope by a slice of a gang on a core has its conditions towards the operations numbered
below `bound` (R218). -/
def relReady (own : Nat) (ops : List MemOp) (scope core gang slice bound : Nat) : Bool :=
  (ops.filter fun q => decide (q.id < bound)).all fun q =>
    if q.gang == gang && q.slice == slice then !ownWaits own scope q else !othersWait own scope core q

/-- The conditions of an operation that is a release; others have none. -/
def relDone (own : Nat) (ops : List MemOp) (o : MemOp) : Bool :=
  !ordRel o.order || relReady own ops (if isLocal o then scGroup else o.scope) o.core o.gang o.slice o.issue

/-- Whether a write part may be performed: its home's turn has come (R87), earlier overlapping accesses of its
slice and of its own issue are settled, acquires are done, and a release has its conditions (R212 to R218). -/
def performOk (own : Nat) (ops : List MemOp) (o : MemOp) (p : MemPart) : Bool :=
  homeTurn own ops o p
  && ((ops.filter fun q => q.issue == o.issue && !o.joint && decide (q.id < o.id)).all fun q =>
    q.parts.all fun r => !(overlaps r p) || partSettled q r)
  && (siblings ops o).all fun x => relDone own ops x && (earlier ops x).all fun q =>
    !acquirePending q && (!isAccess q || q.parts.all fun r => !(overlaps r p) || partSettled q r)

/-- Within one operation, the parts before `p` that overlap it are performed first (R198). -/
def innerOk (o : MemOp) (i : Nat) (p : MemPart) : Bool :=
  (o.parts.take i).all fun r => !(overlaps r p) || r.performed

/-! ## The slice that owns an operation -/

/-- The state with the slice of an operation changed. -/
def modOpSlice (s : State) (o : MemOp) (f : Slice → Slice) : State :=
  { s with exe := { s.exe with
      gangs := modAt s.exe.gangs o.gang fun g => g.modSl o.slice f } }

/-- The operation numbered `id`. -/
def findOp (m : Mem) (id : Nat) : Option MemOp := m.ops.find? fun o => o.id == id

/-- The operation replaced, by its id. -/
def setOp (m : Mem) (o : MemOp) : Mem :=
  { m with ops := m.ops.map fun q => if q.id == o.id then o else q }

/-- The operation changed at part `i`. -/
def setPart (o : MemOp) (i : Nat) (f : MemPart → MemPart) : MemOp :=
  { o with parts := modAt o.parts i f }

/-- The operation gone, and its counter one lower (R51). -/
def retireOp (s : State) (o : MemOp) : State :=
  modOpSlice { s with mem := { s.mem with ops := s.mem.ops.filter fun q => q.id != o.id } } o
    fun x => clsSub x o.cls

/-- The context, gang and group of an operation. -/
def opGang (s : State) (o : MemOp) : Gang := nth s.exe.gangs o.gang { grp := 0, idx := 0, slices := [] }

/-- A fault of an operation after its issue: the slice's record names the operation's address, and its
PC is exact where the operation returns a value (R76, R333). -/
def opFault (s : State) (o : MemOp) (code : FaultCode) (info : Dbl) (exact : Bool) : State :=
  let g := opGang s o
  match s.exe.groups[g.grp]?, s.ctl.kernels[o.kern]? with
  | some grp, some k =>
    addFault { s with mem := { s.mem with ops := s.mem.ops.filter fun q => q.id != o.id } }
      { sliceRec s g grp k o.slice (some code) info with
        exact := exact, pc := o.pc.zeroExtend 64, part := o.part, ctx := o.ctx }
  | _, _ => s

/-! ## Acquire actions (R218) -/

/-- The self-invalidation of an acquire at CORE or wider. -/
def acquireL1 (m : Mem) (core scope : Nat) : Mem :=
  if scope ≤ scGroup then m else l1Drop m fun b => b.core == core

/-- Whether the host-memory reads before an acquire at SYSTEM scope have completed (R218). -/
def hostReadsDone (own : Nat) (ops : List MemOp) (o : MemOp) : Bool :=
  !(ordAcq o.order && decide (scSystem ≤ o.scope)) ||
    (earlier ops o).all fun q => !isLoad q || q.parts.all fun p => !paHost own p.pa || p.got.isSome

/-! ## Stamps (R216) -/

/-- The Lamport clock of a core (R216). -/
def clockOf (m : Mem) (core : Nat) : Nat := ((m.clocks.find? fun p => p.1 == core).map Prod.snd).getD 0

def setClock (m : Mem) (core t : Nat) : Mem :=
  { m with clocks := (core, t) :: m.clocks.filter fun p => p.1 != core }

/-- A reply from a home raises the core's clock to the largest stamp that home has performed (R216). -/
def raiseClock (m : Mem) (core home : Nat) : Mem :=
  if clockOf m core < (smGet m.homeStamp home).toNat then setClock m core (smGet m.homeStamp home).toNat else m

/-- Whether a home slice lies in an instance of a scope that holds a core. -/
def homeInScope (scope core home : Nat) : Bool :=
  decide (scDevice ≤ scope) || (decide (scDie ≤ scope) && home / 48 == coreDie core)

/-- Whether core `k` lies in the instance of a scope that holds a core (R209). -/
def coreInScope (scope core k : Nat) : Bool :=
  k == core || decide (scDevice ≤ scope) || (decide (scDie ≤ scope) && coreDie k == coreDie core)

/-- The stamp of an SC operation: one more than the core's clock, which every stamp taken before it in its scope
has raised (R216, log 117). -/
def nextStamp (m : Mem) (core scope : Nat) : Nat :=
  let cores := (m.clocks.filter fun p => coreInScope scope core p.1).map Prod.snd
  let homes := (m.homeStamp.filter fun p => homeInScope scope core p.1).map fun p => p.2.toNat
  1 + (cores ++ homes).foldl Nat.max (clockOf m core)

/-- An SC read-modify-write takes its stamp as its home performs it (R216, log 117). -/
def stampRmw (m : Mem) (core scope home : Nat) : Mem :=
  let t := nextStamp m core scope
  { setClock m core t with homeStamp := smSet m.homeStamp home (BitVec.ofNat 64 t) }

/-- An SC fence takes its stamp, which every home slice of its scope that holds an SC operation acknowledges
(R219). -/
def stampFence (m : Mem) (core scope : Nat) : Mem :=
  let t := nextStamp m core scope
  let ack := fun (p : Nat × BitVec 64) => if homeInScope scope core p.1 then (p.1, BitVec.ofNat 64 t) else p
  { setClock m core t with homeStamp := m.homeStamp.map ack }

/-! ## The window (R183, R184, R200) -/

/-- The storage offset of a window byte offset in the plain or skewed view (R184). -/
def lmStore (skew : Bool) (ofs : Nat) : Nat :=
  if skew then
    let t := ofs / 1024
    let el := ofs % 1024 / 4
    1024 * t + 64 * (el / 16) + 4 * ((el / 16 + el % 16) % 16) + ofs % 4
  else ofs

/-- The check of a window access of `size` bytes at a 32-bit offset (R183): every byte of it within
LMEM, the reserved bits zero and the alignment kept. -/
def lmOk (lmem off size : Nat) : Bool :=
  off / 2 ^ 31 == 0 && bits off 29 22 == 0 && off % size == 0 &&
    (List.range size).all fun i => decide (lmStore (off.testBit 30) (bits off 21 0 + i) < lmem)

/-- The storage offsets of a window access. -/
def lmBytes (off size : Nat) : List Nat :=
  (List.range size).map fun i => lmStore (off.testBit 30) (bits off 21 0 + i)

/-- The window bytes at storage offsets. -/
def lmGet (w : SMap 8) (xs : List Nat) : List Byte := xs.map fun x => smGet w x

/-- The window with bytes put at storage offsets. -/
def lmPut (w : SMap 8) : List Nat → List Byte → SMap 8
  | x :: xs, b :: bs => lmPut (smSet w x b) xs bs
  | _, _ => w

/-- The group with its window changed. -/
def modWindow (s : State) (gid : Nat) (f : SMap 8 → SMap 8) : State :=
  { s with exe := { s.exe with
      groups := modAt s.exe.groups gid fun x => { x with window := f x.window } } }

end Sys2Proof.Machine
end

