-- ==== Sys2Proof/Machine/Barrier.lean ====
section
/-! DEFINITION. Barrier.lean: transaction barriers (R238 to R247) and numbered barriers (R248, R249). -/

namespace Sys2Proof.Machine

/-! ## The 128 bits of a transaction barrier (R238) -/

def barCells (b : Nat) : Int := signed b 32
def barPend (b : Nat) : Nat := bits b 47 32
def barPhase (b : Nat) : Nat := bits b 51 48
def barReload (b : Nat) : Nat := bits b 79 64
/-- A nonzero reserved bit. -/
def barRsv (b : Nat) : Bool := bits b 63 52 != 0 || bits b 127 80 != 0

/-- The bits of a barrier from its fields. -/
def barPack (cells : Int) (pend phase reload : Nat) : Nat :=
  wrap cells 32 + 2 ^ 32 * pend + 2 ^ 48 * phase + 2 ^ 64 * reload

/-- The sixteen bytes of a window at a barrier's offset, and their writing. -/
def barRead (w : SMap 8) (ofs : Nat) : Nat := leNat (smRun w ofs 16)
def barWrite (w : SMap 8) (ofs b : Nat) : SMap 8 := smPut w ofs (natLe b 16)

/-- bar_update (R240); none where it raises BARRIER_MISUSE. -/
def barUpdate (b : Nat) (dcells : Int) (darr : Nat) : Option Nat :=
  let c := barCells b + dcells
  if barReload b = 0 ∨ barRsv b ∨ barPend b < darr ∨ c < -2 ^ 31 ∨ 2 ^ 31 ≤ c then none
  else
    let p := barPend b - darr
    if c = 0 ∧ p = 0 then some (barPack 0 (barReload b) ((barPhase b + 1) % 16) (barReload b))
    else some (barPack c p (barPhase b) (barReload b))

/-- What a wait for phase `p` finds at phase `ph` (R241): done, waiting, or misuse. -/
inductive PhaseTest where
  | done | wait | misuse
deriving DecidableEq, Repr

def phaseTest (p ph : Nat) : PhaseTest :=
  let q := (p + 16 - ph) % 16
  if q ≤ 1 then .wait else if q ≤ 7 then .misuse else .done

/-! ## Issue of a barrier instruction (R240, R243) -/

/-- The lane whose operands an instruction uses, if any lane is active (R240). -/
def barLane (e : Iss) : Option Nat := e.active.head?

/-- The judgement of an instruction that acts once per issue, in its lane. -/
def onLane (e : Iss) (f : (lane : Nat) → Option (FaultCode × Nat)) : Judge :=
  match barLane e with
  | none => .go
  | some l =>
    match f l with
    | none => .go
    | some (c, i) => .fault (l / 4) c (BitVec.ofNat 64 i)

/-- A barrier operand's offset passes R239: SKEW = 0, a multiple of 16, its bytes in the window. -/
def barOfsOk (lmem ofs : Nat) : Bool := !ofs.testBit 30 && lmOk lmem ofs 16

/-- Window operations of the cohort's slices that have not been performed: the barrier operation comes
after them in program order (R240). -/
def windowReady (e : Iss) : Judge :=
  if e.s.mem.ops.any fun o => o.gang == e.gi && e.mask.getLsbD o.slice && isLocal o then .stall else .go

/-- The implicit release at GROUP scope of an arrival, by every slice of the cohort (R242, R249). -/
def groupRelease (e : Iss) : Judge :=
  if e.sls.all fun k => relReady (ownDev e.s.sys) e.s.mem.ops scGroup e.core e.gi k e.s.exe.nextId
  then .go else .stall

/-- The operands' registers are declared (R46). -/
def twoSrc (e : Iss) (a b : Byte) : Judge := legal e fun _ => declOk e.n a && declOk e.n b

/-- The barrier at the offset in register `a` of lane `l`. -/
def barAt (e : Iss) (a : Byte) (l : Nat) : Nat := barRead e.grp.window (rd e.g l a)

/-- The fault of an update of the barrier in lane `l` (R239, R240). -/
def updateFault (e : Iss) (a : Byte) (dcells : Int) (darr : Nat) (l : Nat) : Option (FaultCode × Nat) :=
  let ofs := rd e.g l a
  if !barOfsOk e.kern.pkt.lmem ofs then some (.lmRange, ofs)
  else if (barUpdate (barAt e a l) dcells darr).isNone then some (.barrierMisuse, ofs) else none

/-- The state with the group's barrier at `ofs` holding `b`. -/
def barPut (e : Iss) (ofs b : Nat) : State := modWindow e.s e.g.grp fun w => barWrite w ofs b

/-- The state after the update of the barrier in the instruction's lane. -/
def updateAt (e : Iss) (a : Byte) (dcells : Int) (darr : Nat) (l : Nat) : State :=
  barPut e (rd e.g l a) ((barUpdate (barAt e a l) dcells darr).getD 0)

/-- BINIT (R244). -/
def execBinit (a b : BitVec 8) (s : State) : Host.Outcome State Fault Refusal :=
  issue s
    (fun e => (twoSrc e a b).and ((windowReady e).and (onLane e fun l =>
      let ofs := rd e.g l a
      let r := rd e.g l b
      if !barOfsOk e.kern.pkt.lmem ofs then some (.lmRange, ofs)
      else if r = 0 ∨ 65535 < r then some (.barrierMisuse, ofs) else none)))
    fun e =>
      match barLane e with
      | none => { st := e.s, g := e.adv }
      | some l => { st := barPut e (rd e.g l a) (barPack 0 (rd e.g l b) 0 (rd e.g l b)), g := e.adv }

/-- The weight of a BARR arrival (R245): LANE, SLICE, COHORT. -/
def barrWeight (e : Iss) (kind : Nat) : Nat :=
  if kind = 0 then e.active.length
  else if kind = 1 then (e.sls.filter fun k => e.act k != 0).length else 1

/-- BARR (R245). -/
def execBarr (d a : BitVec 8) (kind : BitVec 2) (s : State) : Host.Outcome State Fault Refusal :=
  issue s
    (fun e => (legal e fun _ => declOk e.n d && declOk e.n a && decide (kind.toNat ≤ 2)).and
      ((windowReady e).and ((groupRelease e).and
        (onLane e (updateFault e a 0 (barrWeight e kind.toNat))))))
    fun e =>
      match barLane e with
      | none => { st := e.s, g := e.adv }
      | some l =>
        { resultBody e e.active d (fun _ => false) (fun _ => barPhase (barAt e a l)) noConds with
          st := updateAt e a 0 (barrWeight e kind.toNat) l }

/-- BEXP (R246). -/
def execBexp (a b : BitVec 8) (s : State) : Host.Outcome State Fault Refusal :=
  issue s
    (fun e => (twoSrc e a b).and ((windowReady e).and
      (onLane e fun l => updateFault e a (signed (rd e.g l b) 32) 0 l)))
    fun e =>
      match barLane e with
      | none => { st := e.s, g := e.adv }
      | some l => { st := updateAt e a (signed (rd e.g l b) 32) 0 l, g := e.adv }

/-- What BWAIT and BTEST find in lane `l` (R247). -/
def waitTest (e : Iss) (a b : Byte) (l : Nat) : PhaseTest :=
  phaseTest (rd e.g l b % 16) (barPhase (barAt e a l))

/-- The fault of BWAIT and BTEST (R239, R241, R247). -/
def waitFault (e : Iss) (a b : Byte) (l : Nat) : Option (FaultCode × Nat) :=
  let ofs := rd e.g l a
  if !barOfsOk e.kern.pkt.lmem ofs then some (.lmRange, ofs)
  else if barReload (barAt e a l) = 0 ∨ barRsv (barAt e a l) ∨ waitTest e a b l = .misuse then
    some (.barrierMisuse, ofs)
  else none

/-- BWAIT (R247): the cohort stalls until the phase has completed. Its acquire at GROUP scope holds
because no later instruction of the cohort has issued. -/
def execBwait (a b : BitVec 8) (s : State) : Host.Outcome State Fault Refusal :=
  issue s
    (fun e => (twoSrc e a b).and ((windowReady e).and ((onLane e (waitFault e a b)).and
      (match barLane e with
       | none => .go
       | some l => if waitTest e a b l = .done then .go else .stall))))
    fun e => { st := e.s, g := e.adv }

/-- BTEST (R247). -/
def execBtest (d : BitVec 3) (a b : BitVec 8) (s : State) : Host.Outcome State Fault Refusal :=
  issue s
    (fun e => (twoSrc e a b).and ((windowReady e).and (onLane e (waitFault e a b))))
    fun e =>
      match barLane e with
      | none => { st := e.s, g := e.adv }
      | some l => predBody e d.toNat (fun _ => waitTest e a b l == .done) noConds

/-! ## Numbered barriers (R248, R249) -/

/-- Numbered barrier `k` of a group. -/
def nbOf (grp : Group) (k : Nat) : NumBar := nth grp.nbs k { reload := 1, pend := 1 }

/-- nb_arrive (R248): one arrival; at 0 the phase advances and PEND reloads. -/
def nbArrive (b : NumBar) (tile : Bool) : NumBar :=
  if b.pend ≤ 1 then { phase := (b.phase + 1) % 16, reload := b.reload, pend := b.reload }
  else { b with pend := b.pend - 1, arrived := true, byTile := b.byTile || tile }

/-- The state with numbered barrier `k` of a group changed. -/
def modNb (s : State) (gid k : Nat) (f : NumBar → NumBar) : State :=
  { s with exe := { s.exe with
      groups := modAt s.exe.groups gid fun x => { x with nbs := modAt x.nbs k f } } }

/-- The reload NBARR SET writes (R249). -/
def nbSet (b : NumBar) (r : Nat) : NumBar :=
  { b with reload := r, pend := if b.arrived then b.pend else r }

/-- NBARR (R249): kind 0 ARRIVE, 1 SET. -/
def execNbarr (d a : BitVec 8) (kind : BitVec 2) (n : BitVec 4) (s : State) :
    Host.Outcome State Fault Refusal :=
  issue s
    (fun e => (legal e fun _ => declOk e.n d && declOk e.n a && decide (kind.toNat ≤ 1)
        && (kind == 1 || a.toNat == 249)).and
      ((if kind = 0 then groupRelease e else .go).and (onLane e fun l =>
        if kind = 0 then (if (nbOf e.grp n.toNat).pend = 0 then some (.barrierMisuse, 0) else none)
        else if rd e.g l a = 0 ∨ 255 < rd e.g l a then some (.barrierMisuse, 0) else none)))
    fun e =>
      match barLane e with
      | none => { st := e.s, g := e.adv }
      | some l =>
        { resultBody e e.active d (fun _ => false) (fun _ => (nbOf e.grp n.toNat).phase) noConds with
          st := modNb e.s e.g.grp n.toNat fun b =>
            if kind = 0 then nbArrive b false else nbSet b (rd e.g l a) }

/-- NBWAIT (R249). -/
def execNbwait (a : BitVec 8) (n : BitVec 4) (s : State) : Host.Outcome State Fault Refusal :=
  let t := fun (e : Iss) (l : Nat) => phaseTest (rd e.g l a % 16) (nbOf e.grp n.toNat).phase
  issue s
    (fun e => (legal e fun _ => declOk e.n a).and
      ((onLane e fun l => if t e l = .misuse then some (.barrierMisuse, 0) else none).and
        (match barLane e with
         | none => .go
         | some l => if t e l = .done then .go else .stall)))
    fun e => { st := e.s, g := e.adv }

end Sys2Proof.Machine
end

