-- ==== Sys2Proof/Machine/MemIssue.lean ====
section
/-! DEFINITION. MemIssue.lean: the issue of loads, stores, atomics, FENCE and the block instructions
(R158, R196 to R206, R219 to R224, R339, R340). What an operation does later stands in Protocol.lean. -/

namespace Sys2Proof.Machine

/-! ## Addresses and data runs (R197, R198) -/

/-- The effective address of a block access in lane `l` (R198). -/
def blockEa (g : Gang) (l : Nat) (a b : Byte) : Nat :=
  wrap ((rd64 g l a false : Int) + signed (rd g l b) 32) 64

/-- The number of data registers under element type `t` (R197). -/
def runLen (k t : Nat) : Nat := if tyWide t then 2 * k else k

/-- A load's data run (R197). -/
def loadRunOk (n : Nat) (d : Byte) (m : Nat) : Bool :=
  if m = 1 then declOk n d else d.toNat % m == 0 && declRun n d m

/-- A store's data run (R197); `single` says that k is 1. -/
def storeRunOk (n t : Nat) (d : Byte) (m : Nat) (single : Bool) : Bool :=
  if m = 1 then declOk n d
  else d.toNat % m == 0 && declRun n d m || d.toNat == 249
    || (single && tyWide t && (d.toNat == 250 || (d.toNat == 248 && t != 5)))

/-- The bytes a store of `m` registers holds in lane `l` (R197). -/
def storeBytes (g : Gang) (t l : Nat) (d : Byte) (m : Nat) (single : Bool) : List Byte :=
  if single then natLe (rdT g t l d) (4 * m)
  else if d.toNat = 249 then natLe 0 (4 * m)
  else (List.range m).flatMap fun i => natLe (smGet g.regs (regKey l (d.toNat + i))).toNat 4

/-- Orders of plain loads and stores (R199, R210). -/
def loadOrder (m : BitVec 24) : Bool := mOrder m == 0 || mOrder m == 1
def storeOrder (m : BitVec 24) : Bool := mOrder m == 0 || mOrder m == 2

/-- The parts of every active lane's access, or of none where a check has failed. -/
def allParts (ls : List Nat) (f : Nat → Except FaultCode (List (MemPart × Nat))) :
    List (MemPart × Nat) :=
  ls.flatMap fun l => excGet [] (f l)

/-! ## Loads (R198, R187, R190) -/

/-- Whether a load may be served by L1: not an acquire at CORE or wider, not a bypass page or the stream
span, and not a bound queue header (R182, R217, R218, R90). -/
def l1Usable (s : State) (o : MemOp) (p : MemPart) : Bool :=
  !(ordAcq o.order && decide (scCore ≤ o.scope)) && leafPolicy p.leaf != 3 && o.span != 6
    && !paHost (ownDev s.sys) p.pa
    && !boundHeader s.ctl.queues p.pa p.len

/-- The frame key of a physical address within L1: device number and offset together (R186). -/
def paFrame (pa : Nat) : Nat := pa / 512

/-- The key of a peer's frame in a local slice, apart from every frame of this device. -/
def peerFrame (pa : Nat) : Nat := 2 ^ 43 + pa / 512

/-- A part served by L1 at issue, where it may be (R181, R212). -/
def captureL1 (s : State) (ops : List MemOp) (o : MemOp) (p : MemPart) : MemPart :=
  if l1Usable s o p && captureOk ops o p then
    match l1Cell s.mem.l1 o.core (paFrame p.pa) (p.pa / 32 % 16) with
    | some c => { p with got := some (cellBytes c (p.pa % 32) p.len) }
    | none => p
  else p

/-- PERF events 3, 4 and 5 of a request of one frame: full hit, partial hit, miss (R190). -/
def requestEvent (s : State) (core frame : Nat) (cs : List Nat) : Nat :=
  let held := cs.filter fun i => (l1Cell s.mem.l1 core frame i).isSome
  if held.length = cs.length then 3 else if held.isEmpty then 5 else 4

/-- The frames of a list of parts, each once. -/
def framesOf (ps : List MemPart) : List Nat :=
  ps.foldl (fun fs p => if fs.contains (paFrame p.pa) then fs else fs ++ [paFrame p.pa]) []

/-- The in-frame cells of a frame that parts need. -/
def cellsOf (ps : List MemPart) (frame : Nat) : List Nat :=
  (ps.filter fun p => paFrame p.pa == frame).map fun p => p.pa / 32 % 16

/-- The counters of the L1 requests of an issue (R190, R80). -/
def countRequests (e : Iss) (ps : List MemPart) (ctl : Ctl) : Ctl :=
  (framesOf ps).foldl (fun c f =>
    perfBump c e.kern.part e.kern.ctx e.core (requestEvent e.s e.core f (cellsOf ps f))) ctl

/-- L1 with the cells of hit parts marked touched (R188). -/
def touchParts (m : Mem) (core : Nat) (ps : List MemPart) : Mem :=
  ps.foldl (fun m p => if p.got.isSome then l1Touch m core (paFrame p.pa) (p.pa / 32 % 16) else m) m

/-- The body of a load: one operation per slice, its L1 hits captured at once. -/
def loadBody (e : Iss) (ps : List (MemPart × Nat)) (d : Byte) (m : Nat → Nat) : Eff :=
  let r := opsBody e (fun _ => .l) e.s.mem fun id issue k =>
    let o := mkOp e id issue k .load .l d.toNat (m k) (partsOf ps k)
    { o with parts := o.parts.map (captureL1 e.s e.s.mem.ops o) }
  let raw := ps.map Prod.fst
  let got := (r.st.mem.ops.filter fun o => decide (e.s.exe.nextId ≤ o.id)).flatMap fun o => o.parts
  { r with st := { r.st with
      mem := touchParts r.st.mem e.core got
      ctl := countRequests e raw r.st.ctl } }

/-- A load of `k` elements of the mode's type (R196 to R199). -/
def loadInstr (k : Nat) (d a b : Byte) (s : State) : Host.Outcome State Fault Refusal :=
  let f := fun (e : Iss) l =>
    laneParts e.s (coreAt e.core) e.ctx l (blockEa e.g l a b) (4 * runLen k (e.lty l)) needR []
  issue s
    (fun e => (legal e fun j => setAnyTy (e.ty j) && loadOrder (e.mode j) && baseOk e.n a && declOk e.n b
        && loadRunOk e.n d (runLen k (e.ty j))).and ((clsRoom e fun _ => .l).and
      (judgeLanes e.active (fun l => blockEa e.g l a b) fun l => excFault (f e l))))
    fun e => loadBody e (allParts e.active (f e)) d fun j => runLen k (e.ty j)
where
  /-- Set ANY (R196). -/
  setAnyTy (t : Nat) : Bool := t ≤ 13

def execLd (d a b : Byte) (s : State) : Host.Outcome State Fault Refusal := loadInstr 1 d a b s
def execLd2 (d a b : Byte) (s : State) : Host.Outcome State Fault Refusal := loadInstr 2 d a b s
def execLd4 (d a b : Byte) (s : State) : Host.Outcome State Fault Refusal := loadInstr 4 d a b s

/-! ## Stores (R198, R191, R90) -/

/-- A store's bytes written into the L1 where it holds the cell (R191). A leased grain that a store names is dropped
from L1 and the local slice instead (R337). -/
def storePartL1 (own core : Nat) (m : Mem) (p : MemPart) : Mem :=
  if paLocal own p.pa || paHost own p.pa then l1Update m core (paFrame p.pa) (p.pa / 32 % 16) (p.pa % 32) p.wdata
  else
    let cs := grainCells (grainBase (paOff p.pa) (leafGrain p.leaf)) (leafGrain p.leaf)
    l2Remove (l1DropCells m core (paFrame p.pa) cs) (coreDie core) (peerFrame p.pa) cs

/-- L1 with the bytes of every part written, in slice and lane order (R191, R198). -/
def storeL1 (s : State) (core : Nat) (ps : List MemPart) : Mem := ps.foldl (storePartL1 (ownDev s.sys) core) s.mem

/-- The fault of one lane's store: translation and permission, then a bound header (R199, R90). -/
def storeFault (s : State) (x : Except FaultCode (List (MemPart × Nat))) : Option FaultCode :=
  match x with
  | .error f => some f
  | .ok ps => headerFault s ps

/-- A store of `k` elements of the mode's type (R196 to R199). -/
def storeInstr (k : Nat) (d a b : Byte) (s : State) : Host.Outcome State Fault Refusal :=
  let f := fun (e : Iss) l =>
    laneParts e.s (coreAt e.core) e.ctx l (blockEa e.g l a b) (4 * runLen k (e.lty l)) needW
      (storeBytes e.g (e.lty l) l d (runLen k (e.lty l)) (k == 1))
  issue s
    (fun e => (legal e fun j => decide (e.ty j ≤ 13) && storeOrder (e.mode j) && baseOk e.n a
        && declOk e.n b && storeRunOk e.n (e.ty j) d (runLen k (e.ty j)) (k == 1)).and
      ((clsRoom e fun _ => .s).and
        (judgeLanes e.active (fun l => blockEa e.g l a b) fun l => storeFault e.s (f e l))))
    fun e =>
      let ps := allParts e.active (f e)
      opsBody e (fun _ => .s) (storeL1 e.s e.core (ps.map Prod.fst)) fun id issue j =>
        mkOp e id issue j .store .s 0 0 (partsOf ps j)

def execSt (d a b : Byte) (s : State) : Host.Outcome State Fault Refusal := storeInstr 1 d a b s
def execSt2 (d a b : Byte) (s : State) : Host.Outcome State Fault Refusal := storeInstr 2 d a b s
def execSt4 (d a b : Byte) (s : State) : Host.Outcome State Fault Refusal := storeInstr 4 d a b s

/-! ## SLD and SST (R158) -/

/-- The address of a uniform access (R158). -/
def uniEa (e : Iss) (a b : Byte) : Nat :=
  let hi := (smGet e.g.sregs (a.toNat + 1)).toNat
  wrap (((hi * 2 ^ 32 + (smGet e.g.sregs a.toNat).toNat : Nat) : Int)
    + signed (rd e.g (e.active.headD 0) b) 32) 64

/-- The one lane that a uniform access uses. -/
def uniLane (e : Iss) : List Nat := e.active.take 1

/-- The parts of a uniform access as every slice of the cohort has it in program order (R158, R208). -/
def uniParts (e : Iss) (f : Iss → Nat → Except FaultCode (List (MemPart × Nat))) : List MemPart :=
  (allParts (uniLane e) (f e)).map Prod.fst

/-- SLD (R158): one access of the gang, of no counter class. -/
def execSld (d a b : Byte) (s : State) : Host.Outcome State Fault Refusal :=
  let f := fun (e : Iss) l =>
    laneParts e.s (coreAt e.core) e.ctx l (uniEa e a b) 4 needR []
  issue s
    (fun e => (legal e fun j => loadOrder (e.mode j) && declOk e.n b).and ((uniReady e).and
      (judgeLanes (uniLane e) (fun _ => uniEa e a b) fun l => excFault (f e l))))
    fun e =>
      let ps := uniParts e f
      if ps.isEmpty then { st := e.s, g := e.adv }
      else
        let r := opsBody e (fun _ => .none) e.s.mem fun id issue j =>
          { mkOp e id issue j .sload .none d.toNat 1 ps with joint := true }
        let mine := fun (o : MemOp) => decide (e.s.exe.nextId ≤ o.id)
        let os := r.st.mem.ops
        let hit := (os.filter mine).all fun o => ps.all fun p => (captureL1 e.s os o p).got.isSome
        let ops := modIf os mine fun o => if hit then { o with parts := o.parts.map (captureL1 e.s os o) } else o
        let mem := { r.st.mem with ops := ops }
        { r with st := { r.st with
            mem := if hit then touchParts mem e.core (ps.map fun p => { p with got := some [] }) else mem
            ctl := countRequests e ps r.st.ctl } }

/-- The word SST stores: a uniform register, or IM or ZERO as the lowest active lane reads it (R44, R158). -/
def sstWord (e : Iss) (d : Byte) : Nat :=
  if d.toNat < 64 then (smGet e.g.sregs d.toNat).toNat else rd e.g (e.active.headD 0) d

/-- SST (R158): one store; every slice of the cohort waits for its acknowledgement. -/
def execSst (d a b : Byte) (s : State) : Host.Outcome State Fault Refusal :=
  let f := fun (e : Iss) l =>
    laneParts e.s (coreAt e.core) e.ctx l (uniEa e a b) 4 needW (natLe (sstWord e d) 4)
  issue s
    (fun e => (legal e fun j => storeOrder (e.mode j) && declOk e.n b).and ((uniReady e).and
      ((clsRoom e fun _ => .s).and
        (judgeLanes (uniLane e) (fun _ => uniEa e a b) fun l => storeFault e.s (f e l)))))
    fun e =>
      let ps := uniParts e f
      opsBody e (fun _ => .s) (storeL1 e.s e.core ps) fun id issue j =>
        { mkOp e id issue j .store .s 0 0 ps with joint := true }

/-! ## Local memory (R200, R224) -/

/-- The window offset of a local access in lane `l` (R200). -/
def lmOffset (g : Gang) (l : Nat) (a b : Byte) : Nat := (rd g l a + rd g l b) % 2 ^ 32

/-- The fault of a window access (R183). -/
def lmFault (lmem off size : Nat) : Option FaultCode := if lmOk lmem off size then none else some .lmRange

/-- A part of the group's window. -/
def lmPart (l off size : Nat) (data : List Byte) : MemPart :=
  { lane := l, va := BitVec.ofNat 64 off, pa := 0, len := size, aux := off, wdata := data }

/-- LDL and LDL4 (R200). -/
def ldlInstr (k : Nat) (d a b : Byte) (s : State) : Host.Outcome State Fault Refusal :=
  issue s
    (fun e => (legal e fun j => decide (e.ty j ≤ 13) && loadOrder (e.mode j) && (k == 1 || !tyWide (e.ty j))
        && declOk e.n a && declOk e.n b && loadRunOk e.n d (runLen k (e.ty j))).and
      ((clsRoom e fun _ => .l).and
        (judgeLanes e.active (fun l => lmOffset e.g l a b) fun l =>
          lmFault e.kern.pkt.lmem (lmOffset e.g l a b) (4 * runLen k (e.lty l)))))
    fun e => opsBody e (fun _ => .l) e.s.mem fun id issue j =>
      mkOp e id issue j .ldl .l d.toNat (runLen k (e.ty j))
        ((e.active.filter fun l => l / 4 == j).map fun l =>
          lmPart l (lmOffset e.g l a b) (4 * runLen k (e.ty j)) [])

/-- STL and STL4 (R200). -/
def stlInstr (k : Nat) (d a b : Byte) (s : State) : Host.Outcome State Fault Refusal :=
  issue s
    (fun e => (legal e fun j => decide (e.ty j ≤ 13) && storeOrder (e.mode j) && (k == 1 || !tyWide (e.ty j))
        && declOk e.n a && declOk e.n b && storeRunOk e.n (e.ty j) d (runLen k (e.ty j)) (k == 1)).and
      ((clsRoom e fun _ => .s).and
        (judgeLanes e.active (fun l => lmOffset e.g l a b) fun l =>
          lmFault e.kern.pkt.lmem (lmOffset e.g l a b) (4 * runLen k (e.lty l)))))
    fun e => opsBody e (fun _ => .s) e.s.mem fun id issue j =>
      mkOp e id issue j .stl .s 0 0
        ((e.active.filter fun l => l / 4 == j).map fun l =>
          lmPart l (lmOffset e.g l a b) (4 * runLen k (e.ty j))
            (storeBytes e.g (e.ty j) l d (runLen k (e.ty j)) (k == 1)))

def execLdl (d a b : Byte) (s : State) : Host.Outcome State Fault Refusal := ldlInstr 1 d a b s
def execLdl4 (d a b : Byte) (s : State) : Host.Outcome State Fault Refusal := ldlInstr 4 d a b s
def execStl (d a b : Byte) (s : State) : Host.Outcome State Fault Refusal := stlInstr 1 d a b s
def execStl4 (d a b : Byte) (s : State) : Host.Outcome State Fault Refusal := stlInstr 4 d a b s

/-- A local-memory atomic (R224). `a` is the window offset. -/
def atlInstr (ok : Nat → Bool) (cas : Bool) (d a b : Byte) (s : State) :
    Host.Outcome State Fault Refusal :=
  let cl := if d = 0 then Cls.s else Cls.l
  issue s
    (fun e => (legal e fun j => ok (e.ty j) && declOk e.n d && declOk e.n a && declOk e.n b).and
      ((clsRoom e fun _ => cl).and
        (judgeLanes e.active (fun l => rd e.g l a) fun l => lmFault e.kern.pkt.lmem (rd e.g l a) 4)))
    fun e => opsBody e (fun _ => cl) e.s.mem fun id issue j =>
      mkOp e id issue j (.atl cas (d != 0)) cl d.toNat 1
        ((e.active.filter fun l => l / 4 == j).map fun l =>
          { lmPart l (rd e.g l a) 4 (natLe (rd e.g l b) 4) with
            cmp := BitVec.ofNat 64 (rd e.g l d) })

/-- ATLADD (R224). -/
def execAtladd (d a b : Byte) (s : State) : Host.Outcome State Fault Refusal :=
  atlInstr (fun t => t ≤ 1) false d a b s

/-- ATLCAS (R224). -/
def execAtlcas (d a b : Byte) (s : State) : Host.Outcome State Fault Refusal :=
  atlInstr (fun t => t ≤ 1 || t == 4) true d a b s

/-! ## Atomics (R220 to R223) -/

/-- The parts of one lane's read-modify-write of `n` bytes at `ea`, as one part (R221). Any atomic but
ATADD, ATXCHG and ATCAS to host memory raises PERM_FAULT (R223). -/
def rmwPart (s : State) (at_ : Nat) (c : Ctx) (l ea n : Nat) (op : AtOp) (opd cmp : Nat) :
    Except FaultCode (List (MemPart × Nat)) :=
  if ea % n ≠ 0 then .error .cellCross
  else
    match xlate s at_ c ea needRW with
    | .error f => .error f
    | .ok x =>
      if paHost (ownDev s.sys) x.pa && !(op == .add || op == .xchg || op == .cas) then
        .error .permFault
      else
        .ok [({ lane := l, va := BitVec.ofNat 64 ea, pa := x.pa, len := n, leaf := x.leaf, wdata := natLe opd n,
                cmp := BitVec.ofNat 64 cmp }, x.leaf)]

/-- L1 without the cells that parts touch (R218). -/
def dropParts (m : Mem) (core : Nat) (ps : List MemPart) : Mem :=
  ps.foldl (fun m p => l1DropCells m core (paFrame p.pa) [p.pa / 32 % 16]) m

/-- The body of a read-modify-write: one operation per slice (R221). -/
def rmwBody (e : Iss) (cl : Cls) (ps : List (MemPart × Nat))
    (kind : Nat → OpKind) (order : Nat → Nat) (d : Byte) (m : Nat → Nat) : Eff :=
  opsBody e (fun _ => cl) (dropParts e.s.mem e.core (ps.map Prod.fst)) fun id issue k =>
    { mkOp e id issue k (kind k) cl d.toNat (m k) (partsOf ps k) with order := order k }

/-- ATADD to ATFMIN (R220, R221). -/
def atomic (op : AtOp) (ok : Nat → Bool) (d a b : Byte) (s : State) :
    Host.Outcome State Fault Refusal :=
  let cl := if d = 0 then Cls.s else Cls.l
  let size := fun (e : Iss) (l : Nat) => if tyWide (e.lty l) then 8 else 4
  let f := fun (e : Iss) l =>
    rmwPart e.s (coreAt e.core) e.ctx l (rdPair e.g l a) (size e l) op
      (rdT e.g (e.lty l) l b) (rdT e.g (e.lty l) l d)
  issue s
    (fun e => (legal e fun j => ok (e.ty j) && pairOk e.n a && srcOk e.n (e.ty j) b
        && (d == 0 || dstOk e.n (e.ty j) d)).and
      ((clsRoom e fun _ => cl).and
        (judgeLanes e.active (fun l => rdPair e.g l a) fun l => excFault (f e l))))
    fun e => rmwBody e cl (allParts e.active (f e))
      (fun k => .rmw op (tySigned (e.ty k)) (d != 0)) (fun k => mOrder (e.mode k)) d
      fun k => if tyWide (e.ty k) then 2 else 1

def tyI (t : Nat) : Bool := t ≤ 3
def tyIF (t : Nat) : Bool := t ≤ 5
def tyF (t : Nat) : Bool := t == 4 || t == 5

def execAtadd (d a b : Byte) (s : State) : Host.Outcome State Fault Refusal := atomic .add tyI d a b s
def execAtand (d a b : Byte) (s : State) : Host.Outcome State Fault Refusal := atomic .and tyI d a b s
def execAtor (d a b : Byte) (s : State) : Host.Outcome State Fault Refusal := atomic .or tyI d a b s
def execAtxor (d a b : Byte) (s : State) : Host.Outcome State Fault Refusal := atomic .xor tyI d a b s
def execAtmin (d a b : Byte) (s : State) : Host.Outcome State Fault Refusal := atomic .min tyI d a b s
def execAtmax (d a b : Byte) (s : State) : Host.Outcome State Fault Refusal := atomic .max tyI d a b s
def execAtxchg (d a b : Byte) (s : State) : Host.Outcome State Fault Refusal :=
  atomic .xchg tyIF d a b s
def execAtcas (d a b : Byte) (s : State) : Host.Outcome State Fault Refusal := atomic .cas tyIF d a b s
def execAtfmax (d a b : Byte) (s : State) : Host.Outcome State Fault Refusal := atomic .fmax tyF d a b s
def execAtfmin (d a b : Byte) (s : State) : Host.Outcome State Fault Refusal := atomic .fmin tyF d a b s

/-! ## EVWAIT and EVADD (R101) -/

/-- The value of the event at `ea` as a read at its home returns it. -/
def eventValue (s : State) (pa : Nat) : Nat := leNat ((List.range 8).map fun i => spaceByte s (pa + i))

/-- The fault of an event address in a lane (R101, R304). -/
def eventXl (s : State) (at_ : Nat) (c : Ctx) (ea need : Nat) : Except FaultCode Xl :=
  if ea % 8 ≠ 0 then .error .cellCross else xlate s at_ c ea need

/-- Whether lane `l` may read the event at `pa` at its home: the slice's earlier acquires are done, its earlier
accesses of the event are settled, and no store to it lies in the core's write-through buffer (R212, R214). -/
def evReady (e : Iss) (l pa : Nat) : Bool :=
  e.s.mem.ops.all fun q =>
    let mine := q.gang == e.gi && q.slice == l / 4
    (!mine || (!acquirePending q && (decide (mScope (e.lmode l) < scSystem) || !isLoad q ||
      q.parts.all fun r => !paHost (ownDev e.s.sys) r.pa || r.got.isSome))) &&
    (!(mine || (isStore q && q.core == e.core)) || !isAccess q ||
      q.parts.all fun r => !(decide (r.pa < pa + 8) && decide (pa < r.pa + r.len)) || partSettled q r)

/-- EVWAIT (R101): the cohort stalls until the event of every active lane has reached its value; the
satisfying read is an acquire at the mode's scope. A later load of the event is not served by an older L1 copy
(R212). -/
def execEvwait (a b : Byte) (s : State) : Host.Outcome State Fault Refusal :=
  let x := fun (e : Iss) l => eventXl e.s (coreAt e.core) e.ctx (rdPair e.g l a) needR
  let met := fun (e : Iss) l =>
    match x e l with
    | .ok t => evReady e l t.pa && decide (rd64 e.g l b false ≤ eventValue e.s t.pa)
    | .error _ => false
  issue s
    (fun e => (legal e fun _ => pairOk e.n a && wideOk e.n b).and
      ((judgeLanes e.active (fun l => rdPair e.g l a) fun l => excFault (x e l)).and
        (if e.active.all (met e) then .go else .stall)))
    fun e =>
      let m := e.active.foldl (fun m l => match x e l with
        | .ok t => l1DropCells m e.core (paFrame t.pa) [t.pa / 32 % 16]
        | .error _ => m) e.s.mem
      { st := { e.s with
          mem := e.sls.foldl (fun m k =>
            if e.act k == 0 then m else acquireL1 m e.core (mScope (e.mode k))) m }
        g := e.adv }

/-- EVADD (R101): a release at the mode's scope, whatever ORDER holds. -/
def execEvadd (a b : Byte) (s : State) : Host.Outcome State Fault Refusal :=
  let f := fun (e : Iss) l =>
    rmwPart e.s (coreAt e.core) e.ctx l (rdPair e.g l a) 8 .add (rd64 e.g l b false) 0
  issue s
    (fun e => (legal e fun _ => pairOk e.n a && wideOk e.n b).and
      ((clsRoom e fun _ => .s).and
        (judgeLanes e.active (fun l => rdPair e.g l a) fun l => excFault (f e l))))
    fun e => rmwBody e .s (allParts e.active (f e)) (fun _ => .rmw .add false false) (fun _ => 2) 0
      fun _ => 2

/-! ## FENCE (R219) -/

/-- Whether a FENCE of slice `k` may go on (R219): the release actions are complete, the homes of the slice's SC
operations have answered, and loads, of the L counter and SLD's, have returned. -/
def fenceReady (e : Iss) (k : Nat) : Bool :=
  let o := mOrder (e.mode k)
  let mine := e.s.mem.ops.filter fun q => q.gang == e.gi && q.slice == k
  (!ordRel o || relReady (ownDev e.s.sys) e.s.mem.ops (mScope (e.mode k)) e.core e.gi k e.s.exe.nextId)
    && (o != 4 || mine.all fun q => !(isRmw q && q.order == 4) || q.parts.all MemPart.acked)
    && (!ordAcq o || ((e.g.sl k).cL == 0 && mine.all fun q => q.kind != .sload))

/-- FENCE (R219). -/
def execFence (s : State) : Host.Outcome State Fault Refusal :=
  issue s
    (fun e => (legal e fun k => mOrder (e.mode k) != 0).and
      (if e.sls.all (fenceReady e) then .go else .stall))
    fun e =>
      { st := { e.s with
          mem := e.sls.foldl (fun m k =>
            let o := mOrder (e.mode k)
            let m := if o = 4 then stampFence m e.core (mScope (e.mode k)) else m
            if ordAcq o then acquireL1 m e.core (mScope (e.mode k)) else m) e.s.mem }
        g := e.adv }

/-! ## FLUSH, INVR, PREF, LOCKB, UNLOCKB (R201 to R206) -/

/-- The 64 KiB pages that [ea, ea + len) touches. -/
def pagesOf (ea len : Nat) : List Nat :=
  if len = 0 then []
  else (List.range ((ea + len - 1) / 2 ^ 16 + 1 - ea / 2 ^ 16)).map fun j => ea / 2 ^ 16 + j

/-- The fault of the first page of a range that cannot be read (R201). -/
def rangeFault (s : State) (at_ : Nat) (c : Ctx) (ea len need : Nat) : Option FaultCode :=
  ((pagesOf ea len).findSome? fun p =>
    excFault (xlate s at_ c (if p * 2 ^ 16 < ea then ea else p * 2 ^ 16) need))

/-- FLUSH (R201): one operation, with the operands of the lowest active lane. -/
def execFlush (a b : Byte) (s : State) : Host.Outcome State Fault Refusal :=
  issue s
    (fun e => (legal e fun _ => baseOk e.n a && declOk e.n b).and
      ((clsRoom e fun _ => .s).and
        (judgeLanes (uniLane e) (fun l => rd64 e.g l a false) fun l =>
          rangeFault e.s (coreAt e.core) e.ctx (rd64 e.g l a false) (rd e.g l b) needR)))
    fun e => opsBody e (fun _ => .s) e.s.mem fun id issue j =>
      { mkOp e id issue j .flush .s 0 0 ((uniLane e).map fun l =>
          { lane := l, va := BitVec.ofNat 64 (rd64 e.g l a false), pa := 0, len := rd e.g l b,
            aux := if l / 4 = j then 1 else 0 }) with joint := true }

/-- INVR (R203): L1 blocks with a cell in the range leave the core's L1; pages that do not translate are
skipped. -/
def execInvr (a b : Byte) (s : State) : Host.Outcome State Fault Refusal :=
  issue s
    (fun e => legal e fun _ => baseOk e.n a && declOk e.n b)
    fun e =>
      let m := (uniLane e).foldl (fun m l =>
        let ea := rd64 e.g l a false
        let len := rd e.g l b
        (pagesOf ea len).foldl (fun m p =>
          let lo := if p * 2 ^ 16 < ea then ea else p * 2 ^ 16
          let hi := if ea + len < (p + 1) * 2 ^ 16 then ea + len else (p + 1) * 2 ^ 16
          match xlate e.s (coreAt e.core) e.ctx lo 0 with
          | .error _ => m
          | .ok x => l1Drop m fun k => k.core == e.core &&
              decide (x.pa / 32 < k.frame * 16 + k.start + k.cells.length) &&
              decide (k.frame * 16 + k.start ≤ (x.pa + (hi - 1 - lo)) / 32)) m) e.s.mem
      { st := { e.s with mem := m }, g := e.adv }

/-- The fault of LOCKB or UNLOCKB in a lane: the operand limits of R205 and, for LOCKB, translation with
read and write permission (R311). -/
def lockFault (s : State) (at_ : Nat) (c : Ctx) (ea len need : Nat) : Option FaultCode :=
  if len = 0 ∨ 512 < len ∨ ea / 512 ≠ (ea + len - 1) / 512 then some .illegalOp
  else excFault (xlate s at_ c ea need)

/-- LOCKB (R205) and UNLOCKB (R206). -/
def lockInstr (kind : OpKind) (cl : Cls) (need : Nat) (d a b : Byte) (s : State) :
    Host.Outcome State Fault Refusal :=
  issue s
    (fun e => (legal e fun _ => declOk e.n d && baseOk e.n a && declOk e.n b).and
      ((clsRoom e fun _ => cl).and
        (judgeLanes e.active (fun l => rd64 e.g l a false) fun l =>
          lockFault e.s (coreAt e.core) e.ctx (rd64 e.g l a false) (rd e.g l b) need)))
    fun e => opsBody e (fun _ => cl) e.s.mem fun id issue j =>
      mkOp e id issue j kind cl d.toNat 1
        ((e.active.filter fun l => l / 4 == j).map fun l =>
          let x := excGet ⟨0, 0⟩ (xlate e.s (coreAt e.core) e.ctx (rd64 e.g l a false) need)
          { lane := l, va := BitVec.ofNat 64 (rd64 e.g l a false), pa := x.pa, len := rd e.g l b,
            leaf := x.leaf })

def execLockb (d a b : Byte) (s : State) : Host.Outcome State Fault Refusal :=
  lockInstr .lockb .l needRW d a b s
def execUnlockb (a b : Byte) (s : State) : Host.Outcome State Fault Refusal :=
  lockInstr .unlockb .s 0 0 a b s

/-! ## PSTORE (R339, R340) -/

/-- One lane's part of a PSTORE: the leaf's device number replaced by the destination (R340). -/
def pstorePart (s : State) (at_ : Nat) (c : Ctx) (l ea p size : Nat) (data : List Byte) :
    Except FaultCode (List (MemPart × Nat)) :=
  if 384 ≤ p ∨ p = ownDev s.sys then .error .illegalOp
  else if ea % size ≠ 0 then .error .cellCross
  else
    match xlate s at_ c ea needW with
    | .error f => .error f
    | .ok x =>
      if !leafPeer x.leaf then .error .xlateFault
      else .ok [({ lane := l, va := BitVec.ofNat 64 ea, pa := p * 2 ^ 43 + paOff x.pa, len := size,
                   leaf := x.leaf, wdata := data }, x.leaf)]

/-- PSTORE (R339, R340). The packets go out at STORE_ACK's conditions, one per destination and frame. -/
def execPstore (d a b : Byte) (s : State) : Host.Outcome State Fault Refusal :=
  let f := fun (e : Iss) l =>
    let n := if tyWide (e.lty l) then 8 else 4
    pstorePart e.s (coreAt e.core) e.ctx l (rdPair e.g l a) (rd e.g l b) n
      (natLe (rdT e.g (e.lty l) l d) n)
  issue s
    (fun e => (legal e fun j => decide (e.ty j ≤ 13) && storeOrder (e.mode j) && srcOk e.n (e.ty j) d
        && pairOk e.n a && declOk e.n b).and
      ((clsRoom e fun _ => .s).and
        (judgeLanes e.active (fun l => rdPair e.g l a) fun l => excFault (f e l))))
    fun e =>
      let ps := allParts e.active (f e)
      opsBody e (fun _ => .s) (storeL1 e.s e.core (ps.map Prod.fst)) fun id issue j =>
        mkOp e id issue j .pstore .s 0 0 (partsOf ps j)

/-! ## ENQ and DEQ (R94, R96) -/

/-- ESIZE as the header byte stands at issue; for a header on a peer, the byte of the peer's header is a
free value (log 14). -/
def headerEsize (s : State) (pa : Nat) : Nat := (spaceByte s (pa + 0x19)).toNat

/-- The window check and the image of an ENQ or DEQ in a lane (R94). -/
def queuePart (s : State) (e : Iss) (l : Nat) (a b : Byte) (enq : Bool) :
    Except FaultCode (List (MemPart × Nat)) :=
  let ea := rdPair e.g l a
  let off := rd e.g l b
  if ea % 64 ≠ 0 then .error .cellCross
  else
    match xlate s (coreAt e.core) e.ctx ea needRW with
    | .error f => .error f
    | .ok x =>
      let es := headerEsize s x.pa
      let n := 32 * 2 ^ es
      if es ≤ 3 ∧ (off % 32 ≠ 0 ∨ e.kern.pkt.lmem < off + n) then .error .lmRange
      else
        let img := if enq && decide (es ≤ 3) then (List.range n).map fun i => smGet e.grp.window (off + i)
          else []
        .ok [({ lane := l, va := BitVec.ofNat 64 ea, pa := x.pa, len := 64, leaf := x.leaf, aux := off,
                aux2 := es, wdata := img }, x.leaf)]

/-- Window operations of the slices of the cohort that have not been performed: an ENQ reads its image
after its slice's own earlier STL (R200). -/
def ownLocalPending (e : Iss) : Bool :=
  e.s.mem.ops.any fun o => o.gang == e.gi && e.mask.getLsbD o.slice && isLocal o

/-- ENQ and DEQ (R94): class L. -/
def queueInstr (enq : Bool) (d a b : Byte) (s : State) : Host.Outcome State Fault Refusal :=
  let f := fun (e : Iss) l => queuePart e.s e l a b enq
  issue s
    (fun e => (legal e fun _ => pairOk e.n d && pairOk e.n a && declOk e.n b).and
      ((clsRoom e fun _ => .l).and
        ((judgeLanes e.active (fun l => rdPair e.g l a) fun l => excFault (f e l)).and
          (if enq && ownLocalPending e then .stall else .go))))
    fun e =>
      let ps := allParts e.active (f e)
      rmwBody e .l ps (fun _ => if enq then .enq 0 else .deq 0) (fun k => mOrder (e.mode k)) d fun _ => 2

def execEnq (d a b : Byte) (s : State) : Host.Outcome State Fault Refusal := queueInstr true d a b s
def execDeq (d a b : Byte) (s : State) : Host.Outcome State Fault Refusal := queueInstr false d a b s

end Sys2Proof.Machine
end

