-- ==== Sys2Proof/Machine/Protocol.lean ====
section
/-! DEFINITION. Protocol.lean: the later steps of memory operations: fills, requests served at homes,
invalidations, read-modify-writes, completions, leases and page walks (R51, R189, R211 to R218, R221 to
R223, R325 to R329, R337, R310). An event that finds nothing to do leaves the state as it is. -/

namespace Sys2Proof.Machine

/-! ## Reading below L1 -/

/-- Whether a load of a part is served by the home itself: the core is on the home's die, the page is a
bypass page, or the bytes are a bound queue's header (R181, R182, R90). -/
def servedAtHome (s : State) (o : MemOp) (p : MemPart) : Bool :=
  homeDie (paOff p.pa) == coreDie o.core || leafPolicy p.leaf == 3 || boundHeader s.ctl.queues p.pa p.len

/-- The bytes of stores the core has issued and not performed, put over a cell: those of every slice, but
for `o`'s own slice only those before `o` (R212, R218: the write-through buffer). -/
def overlayStores (m : Mem) (o : MemOp) (all : Bool) (cellPa : Nat) (c : BitVec 256) : BitVec 256 :=
  (m.ops.filter fun q => q.core == o.core && isStore q &&
      (all || !(q.gang == o.gang && q.slice == o.slice && decide (o.id < q.id)))).foldl (fun c q =>
    q.parts.foldl (fun c r =>
      if !r.performed && r.pa / 32 == cellPa / 32 then cellPut c (r.pa % 32) r.wdata else c) c) c

/-- The cell at a physical address as the tier below L1 of the operation's core returns it; none while a
request for it must wait or has not been served. -/
def belowCell (s : State) (o : MemOp) (p : MemPart) (pa : Nat) : Option (BitVec 256) :=
  let own := ownDev s.sys
  if paHost own pa then
    some (BitVec.ofNat 256 (leNat (smRun s.mem.host (hostAddr pa / 32 * 32) 32)))
  else if paLocal own pa then
    if servedAtHome s o p then
      if txnBusy s.mem (paOff pa) || !homeUp s (paOff pa) then none else some (coCell s.mem (cellOf (paOff pa)))
    else (l2Cell s.mem.l2 s.sys.ptp (coreDie o.core) (frameOf (paOff pa)) (pa / 32 % 16)).map L2Cell.data
  else
    (l2Cell s.mem.l2 s.sys.ptp (coreDie o.core) (peerFrame pa) (pa / 32 % 16)).map L2Cell.data

/-- Whether a load of a part may allocate in L1 (R182, R313). -/
def l1Allocates (s : State) (o : MemOp) (p : MemPart) : Bool :=
  leafPolicy p.leaf != 3 && o.span != 6 && !paHost (ownDev s.sys) p.pa && !boundHeader s.ctl.queues p.pa 32

/-- The policy under which an operation allocates: the stream span's is evict-first (R182). -/
def allocPolicy (o : MemOp) (p : MemPart) : Nat := if o.span = 6 ∧ leafPolicy p.leaf ≠ 3 then 1 else leafPolicy p.leaf

/-! ## READ (R187, R193, R326) -/

/-- The loads of one issue. -/
def issueLoads (m : Mem) (issue : Nat) : List MemOp :=
  m.ops.filter fun o => o.issue == issue && isLoad o

/-- The parts of an issue's loads in a frame: one request (R187). -/
def requestParts (m : Mem) (o : MemOp) (frame : Nat) : List MemPart :=
  (issueLoads m o.issue).flatMap fun q => q.parts.filter fun p => paFrame p.pa == frame

/-- The wanted range of a request for some cells of a frame (R187). -/
def wantedOf (m : Mem) (o : MemOp) (cs : List Nat) : Nat × Nat :=
  let lo := cs.foldl (fun a b => if b < a then b else a) 15
  let hi := cs.foldl (fun a b => if a < b then b else a) 0
  wanted o.span (predBefore m o.core o.pc) (predAfter m o.core o.pc) lo lo hi

/-- A range of cells rounded outward to grains (R193). -/
def roundOut (w : Nat × Nat) (size : Nat) : Nat × Nat :=
  let n := size / 32
  (w.1 / n * n, w.2 / n * n + n - 1)

/-- The home's part in a READ of an offset's grain by agent `a`, none for a core of its own die: an owner is
recalled and keeps a shared copy (R326), and the entry is kept at the grain the request names (R313). -/
def homeRecall (s : State) (a : Option Nat) (off size : Nat) : State :=
  let m := growRecall s.mem off size
  let e := dirGrow m.dir off size
  if e.owned && e.ptrs.head? != a then
    let m := recallGrain m e.grain e.size
    { s with mem := { m with dir := dirPut s.sys.ptp m.dir { e with owned := false } } }
  else { s with mem := m }

/-- An agent other than a die's slice given a copy of the grain of an offset by a READ, with the entry's HORIZON
raised by `lease` (R326, R322, R337). -/
def homeShare (s : State) (a off size : Nat) (lease : Word) : State :=
  let s := homeRecall s (some a) off size
  let e := dirAdd (dirGrow s.mem.dir off size) a
  { s with mem := { s.mem with
      dir := dirPut s.sys.ptp s.mem.dir { e with horizon := laterHorizon e.horizon lease } } }

/-- The home answers a READ of one grain by agent `a`: an owner is recalled, the agent is added, and the
grain's cells go to its local slice (R326, R187, R193). -/
def readGrain (s : State) (a : Nat) (g : L2Tag) (wayp off size : Nat) : State :=
  let s := homeRecall s (some a) off size
  let e := dirGrow s.mem.dir off size
  let f := frameOf off
  let new := (grainCells e.grain e.size).filter fun i => (l2Cell s.mem.l2 0 a f i).isNone
  let s := homeAlloc s f new false false g.policy wayp
  let m := l2Put s.mem a f g false none (new.map fun i => (i, (⟨coCell s.mem (16 * f + i), false⟩ : L2Cell)))
  { s with mem := { m with dir := dirPut s.sys.ptp m.dir (dirAdd e a) } }

/-- The grains of a range of cells of a frame read into the local slice of a die, where it lacks them and nothing
stands before them at the home; then the set is made to fit (R189, R193). -/
def readRange (s : State) (a : Nat) (g : L2Tag) (wayp frame size : Nat) (w : Nat × Nat) : State :=
  let r := roundOut w size
  trimL2 (((List.range 16).filter fun i => decide (r.1 ≤ i) && decide (i ≤ r.2)).foldl (fun s i =>
    let c := 512 * frame + 32 * i
    if txnBusy s.mem c || noticeAhead s.mem a c || (l2Cell s.mem.l2 0 a frame i).isSome then s
    else readGrain s a g wayp c size) s) a frame

/-- HOME_READ: the home serves the READ that a request of a load makes through its local slice; the reply carries
the home's stamp (R187, R216, R326). -/
def execHomeRead (op part : Nat) (s : State) : Host.Outcome State Fault Refusal :=
  match findOp s.mem op with
  | none => .next s
  | some o =>
    match o.parts[part]? with
    | none => .next s
    | some p =>
      let off := paOff p.pa
      let a := coreDie o.core
      let f := frameOf off
      let own := ownDev s.sys
      if isLoad o && p.got.isNone && paLocal own p.pa && homeUp s off && !servedAtHome s o p
          && homeTurn own s.mem.ops o p && !txnBusy s.mem off && !noticeAhead s.mem a off
          && (l2Cell s.mem.l2 0 a f (cellIn off)).isNone then
        let w := wantedOf s.mem o (cellsOf (requestParts s.mem o (paFrame p.pa)) (paFrame p.pa))
        let t := readRange s a ⟨o.part, o.ctx, allocPolicy o p⟩ (leafWayp p.leaf) f (leafGrain p.leaf) w
        .next { t with mem := raiseClock t.mem o.core (homeKey own p.pa) }
      else .next s

/-! ## FILL_COMPLETE (R189, R190, R193) -/

/-- A part's data taken now, where it is the frame's and may be: from the L1 that holds its cell, else from below
by `below` (R189, R212). -/
def fillPart (s : State) (o : MemOp) (frame : Nat) (below : Nat → Option (BitVec 256)) (p : MemPart) : MemPart :=
  if paFrame p.pa == frame && p.got.isNone && captureOk s.mem.ops o p then
    match (if l1Usable s o p then l1Cell s.mem.l1 o.core frame (p.pa / 32 % 16) else none) with
    | some c => { p with got := some (cellBytes c (p.pa % 32) p.len) }
    | none =>
      if homeTurn (ownDev s.sys) s.mem.ops o p then
        match below p.pa with
        | some c => { p with got := some (cellBytes (overlayStores s.mem o false p.pa c) (p.pa % 32) p.len) }
        | none => p
      else p
  else p

/-- The cells of a request's frame that go into L1: the cells of the wanted range that L1 does not hold, where the
load may allocate; else the needed cells that L1 holds, made as new as the load's data (R187, R189, R212). -/
def fillCells (s : State) (o : MemOp) (p0 : MemPart) (cs : List Nat) (frame : Nat)
    (below : Nat → Option (BitVec 256)) : List (Nat × BitVec 256) :=
  let w := wantedOf s.mem o cs
  (List.range 16).filterMap fun i =>
    let held := (l1Cell s.mem.l1 o.core frame i).isSome
    if (l1Allocates s o p0 && !held && decide (w.1 ≤ i) && decide (i ≤ w.2))
        || (!l1Usable s o p0 && held && cs.contains i) then
      (below (512 * frame + 32 * i)).map fun c => (i, overlayStores s.mem o true (512 * frame + 32 * i) c)
    else none

/-- The cell `i` of a peer's answer, a free value by the draws from `base` (log 14). -/
def peerCell (base i : Nat) : BitVec 256 :=
  BitVec.ofNat 256 ((List.range 4).foldl (fun n j =>
    n + (Config.peerAnswer (base + 4 * i + j)).toNat * 2 ^ (64 * j)) 0)

/-- A physical address of a peer device, and of one that is lost (R336). -/
def paPeer (s : State) (pa : Nat) : Bool := !paLocal (ownDev s.sys) pa && !paHost (ownDev s.sys) pa
def peerGone (s : State) (pa : Nat) : Bool := paPeer s pa && s.sys.lostPeers.contains (paDev pa)

/-- The cells that a READ of a peer asks for: the wanted range rounded out to grains; for a bypass page the needed
cells alone (R187, R193, R313). -/
def peerRange (s : State) (o : MemOp) (p0 : MemPart) (cs : List Nat) : Nat × Nat :=
  if leafPolicy p0.leaf = 3 then
    (cs.foldl (fun a b => if b < a then b else a) 15, cs.foldl (fun a b => if a < b then b else a) 0)
  else roundOut (wantedOf s.mem o cs) (leafGrain p0.leaf)

/-- A READ sent to the peer that owns a frame (R337). -/
def peerRead (s : State) (o : MemOp) (p0 : MemPart) (r : Nat × Nat) : State :=
  let t := sendReq s o.part (paDev p0.pa) o.id 0 (paFrame p0.pa)
    (.read (paOff p0.pa / 512 * 512 + 32 * r.1) (32 * (r.2 + 1 - r.1)))
  { t with mem := { t.mem with ops := modIf t.mem.ops (fun q => q.issue == o.issue && isLoad q) fun q =>
      { q with parts := modIf q.parts (fun p => paFrame p.pa == paFrame p0.pa) fun p =>
          { p with performed := true } } } }

/-- A peer's answer to a READ, free values by the draws from `fresh`: held by the local slice under a lease that ends LEASE_NS after the reply, unless the
owner grants none or the page is a bypass page (R313, R337). -/
def peerFill (s : State) (o : MemOp) (p0 : MemPart) (r : Nat × Nat) : State :=
  let base := s.exe.fresh
  let f := peerFrame p0.pa
  let cs := (List.range 16).filter fun i => decide (r.1 ≤ i) && decide (i ≤ r.2)
  let t := { s with exe := { s.exe with fresh := base + 65 } }
  if leafPolicy p0.leaf = 3 ∨ Config.peerLeases (base + 64) = false then t
  else
    let m := l2Put (l2Remove t.mem (coreDie o.core) f cs) (coreDie o.core) f ⟨o.part, o.ctx, allocPolicy o p0⟩ false
      (some (s.sys.ptp + s.sys.leaseNs)) (cs.map fun i => (i, ⟨peerCell base i, false⟩))
    trimL2 { t with mem := m } (coreDie o.core) f

/-- The loads of an issue take what they can of a frame, L1 the cells that arrived and the home slice those it was
asked for (R187, R189, R190). -/
def fillFrame (s : State) (o : MemOp) (p0 : MemPart) (frame : Nat) (below : Nat → Option (BitVec 256)) : State :=
  let ops := s.mem.ops.map fun q =>
    if q.issue == o.issue && isLoad q then { q with parts := q.parts.map (fillPart s q frame below) } else q
  let took := ops.any fun q => q.issue == o.issue && isLoad q &&
    q.parts.any fun p => paFrame p.pa == frame && p.got.isSome
  let cs := cellsOf (requestParts s.mem o frame) frame
  let cells := if took then fillCells s o p0 cs frame below else []
  let t := { s with mem := { s.mem with ops := ops } }
  let t := if paLocal (ownDev s.sys) p0.pa && servedAtHome s o p0 && took then
      homeAlloc t (frameOf (paOff p0.pa)) (uniq (cs ++ cells.map Prod.fst)) false false (allocPolicy o p0)
        (leafWayp p0.leaf)
    else t
  let m := if cells.isEmpty then t.mem else
    cs.foldl (fun m i => l1Touch m o.core frame i)
      (l1Put t.mem o.core frame o.pc (cs.foldl (fun a b => if b < a then b else a) 15) (allocPolicy o p0) cells)
  { t with mem := raiseClock m o.core (homeKey (ownDev s.sys) p0.pa) }

/-- FILL_COMPLETE: the cells that operation `op` needs of a frame arrive; every load of the same issue takes its
data, and L1 takes the wanted range. For a peer's frame that the local slice does not hold, the first such event
sends the READ and the next brings its answer. -/
def execFillComplete (op frame : Nat) (s : State) : Host.Outcome State Fault Refusal :=
  match findOp s.mem op with
  | none => .next s
  | some o =>
    let need := o.parts.filter fun p => paFrame p.pa == frame && p.got.isNone
    match isLoad o, need with
    | true, p0 :: _ =>
      let cs := cellsOf (requestParts s.mem o frame) frame
      let own := ownDev s.sys
      if paPeer s p0.pa && (belowCell s o p0 p0.pa).isNone then
        if peerGone s p0.pa then .next (opFault s o .linkLoss p0.va true)
        else
          let r := peerRange s o p0 cs
          if !p0.performed then
            .next (if canSend s.sys (paDev p0.pa) (frameOf (paOff p0.pa)) 0 && homeTurn own s.mem.ops o p0 then
              peerRead s o p0 r else s)
          else if !answerable s.sys o.id (some frame) then .next s
          else
            let base := s.exe.fresh
            let below := fun (pa : Nat) => let i := pa / 32 % 16
              if r.1 ≤ i ∧ i ≤ r.2 then some (peerCell base i) else none
            .next (fillFrame (peerFill (ackReq s o.id (some frame)) o p0 r) o p0 frame below)
      else
        let s := if paLocal own p0.pa && servedAtHome s o p0 && !txnBusy s.mem (paOff p0.pa) then
            cs.foldl (fun s i => homeRecall s none (frameOf (paOff p0.pa) * 512 + 32 * i) 32) s else s
        .next (fillFrame s o p0 frame (belowCell s o p0))
    | _, _ => .next s

/-! ## HOME_OWN, HOME_WRITE (R326, R327) -/

/-- The parts of one issue at one address, acknowledged together. -/
def ackParts (m : Mem) (issue pa : Nat) : Mem :=
  { m with ops := m.ops.map fun q =>
      if q.issue == issue then
        { q with parts := q.parts.map fun r =>
            if r.pa == pa && r.performed then { r with acked := true } else r }
      else q }

/-- A store put into the local slice that owns its grain; a cell it does not hold is fetched first (R191). -/
def storeAtSlice (m : Mem) (die : Nat) (o : MemOp) (p : MemPart) : Mem :=
  let off := paOff p.pa
  let f := frameOf off
  let c := match l2Cell m.l2 0 die f (cellIn off) with
    | some c => c.data
    | none => coCell m (cellOf off)
  l2Put m die f ⟨o.part, o.ctx, allocPolicy o p⟩ true none
    [(cellIn off, ⟨cellPut c (off % 32) p.wdata, true⟩)]

/-- A part marked performed, and acknowledged where `ack`. The shadows of a joint access go with it. -/
def markPart (m : Mem) (op i : Nat) (ack : Bool) : Mem :=
  let lead := findOp m op
  let with_ := fun (q : MemOp) => q.id == op || (match lead with
    | some o => o.joint && q.issue == o.issue
    | none => false)
  { m with ops := modIf m.ops with_ fun q =>
      setPart q i fun r => { r with performed := true, acked := r.acked || ack } }

/-- An acknowledged part of a write, with the clock of its core raised by the reply (R216). -/
def ackWrite (s : State) (o : MemOp) (i pa : Nat) : State :=
  let m := ackParts (markPart s.mem o.id i true) o.issue pa
  { s with mem := raiseClock m o.core (homeKey (ownDev s.sys) pa) }

/-- A store that finds its bytes in the header of a queue bound since it was issued raises PERM_FAULT; its PC is
not exact (R90). -/
def lateHeader (s : State) (p : MemPart) : Bool := boundHeader s.ctl.queues p.pa p.len

/-- HOME_OWN: the home serves the OWN of a store by a local slice (R326); a slice that owns the grain
already performs the store itself. -/
def execHomeOwn (op part : Nat) (s : State) : Host.Outcome State Fault Refusal :=
  match findOp s.mem op with
  | none => .next s
  | some o =>
    match o.parts[part]? with
    | none => .next s
    | some p =>
      let off := paOff p.pa
      let a := coreDie o.core
      let own := ownDev s.sys
      if isStore o && !p.performed && paLocal own p.pa && homeUp s off
          && homeDie off != a && leafPolicy p.leaf != 3
          && !txnBusy s.mem off && !noticeAhead s.mem a off && performOk own s.mem.ops o p && innerOk o part p then
        if lateHeader s p then .next (opFault s o .permFault p.va false)
        else
          let m := growRecall s.mem off (leafGrain p.leaf)
          let e := dirGrow m.dir off (leafGrain p.leaf)
          let others := (liveAgents s (coveredSet e s.sys.ptp)).filter fun b => b != a
          if others.isEmpty then
            let e' := { e with coarse := false, vec := 0, ptrs := [a], owned := true }
            let m := storeAtSlice { m with dir := dirPut s.sys.ptp m.dir e' } a o p
            .next (trimL2 (ackWrite { s with mem := m } o part p.pa) a (frameOf off))
          else .next (openTxn { s with mem := m } e (.part op part) (some a) 0 0 others)
      else .next s

/-- HOME_WRITE: the home performs a store of a core of its die, or to a bypass page, at once, and
invalidates every covered agent (R326). -/
def execHomeWrite (op part : Nat) (s : State) : Host.Outcome State Fault Refusal :=
  match findOp s.mem op with
  | none => .next s
  | some o =>
    match o.parts[part]? with
    | none => .next s
    | some p =>
      let off := paOff p.pa
      let own := ownDev s.sys
      if isStore o && !p.performed && paLocal own p.pa && homeUp s off
          && (homeDie off == coreDie o.core || leafPolicy p.leaf == 3)
          && !txnBusy s.mem off && performOk own s.mem.ops o p && innerOk o part p then
        if lateHeader s p then .next (opFault s o .permFault p.va false)
        else
          let t := homeWriteCell { s with mem := markPart s.mem op part false } (.part op part) p.leaf off p.wdata
          .next (if writerWaits t.mem (.part op part) then t else ackWrite t o part p.pa)
      else .next s

/-! ## Invalidation and its acknowledgement (R328, R329) -/

/-- The transaction numbered `id`. -/
def findTxn (m : Mem) (id : Nat) : Option Txn := m.txns.find? fun t => t.id == id

/-- The incarnation of an agent (R323). -/
def incOf (s : State) (agent : Nat) : Nat := (smGet s.sys.agentInc agent).toNat

/-- INVALIDATE: an agent removes the grain and acknowledges with its modified cells (R328). A compute die removes
it from its local slice, the host port from the host read buffer, the hub from what it caches (R322). -/
def execInvalidate (txn agent : Nat) (s : State) : Host.Outcome State Fault Refusal :=
  match findTxn s.mem txn with
  | none => .next s
  | some t =>
    if t.outstanding.contains agent && agent != 9 && !(t.acks.any fun a => a.1 == agent) then
      let f := frameOf t.grain
      let cs := grainCells t.grain t.size
      let dirt := if agent < 8 then l2Dirty s.mem.l2 agent f cs else []
      let m := if agent < 8 then l2Remove s.mem agent f cs else s.mem
      let m := { m with
        hostBuf := if agent = 8 then m.hostBuf.filter fun g => g != t.grain else m.hostBuf
        hubBuf := if agent = 10 then m.hubBuf.filter fun g => g != t.grain else m.hubBuf
        txns := modIf m.txns (fun x => x.id == txn) fun x =>
          { x with acks := x.acks ++ [(agent, incOf s agent, dirt)] } }
      .next (dropAbove { s with mem := m } agent f (cellIn t.grain + t.size / 32))
    else .next s

/-- Modified bytes merged into the home's copy, but for those the transaction's own write covers
(R328). -/
def mergeBytes (m : Mem) (t : Option Txn) (bs : List (Nat × Byte)) : Mem :=
  bs.foldl (fun x p =>
    match t with
    | some t => if t.own == none && decide (t.wpa ≤ p.1) && decide (p.1 < t.wpa + t.wlen) then x
        else memSet x p.1 p.2
    | none => memSet x p.1 p.2) m

/-- The writer of a transaction that has ended is acknowledged, once no other transaction of its write is in
progress (R326): a core's part, or a peer by its answer. A copy and an engine look for themselves. -/
def ackWriter (s : State) (w : Writer) : State :=
  if writerWaits s.mem w then s
  else
    match w with
    | .part op i =>
      match findOp s.mem op with
      | none => s
      | some o => ackWrite s o i ((o.parts[i]?.map MemPart.pa).getD 0)
    | .peer dev tag cls data => answerTo s dev tag cls data 0
    | .nobody | .copy _ | .engine _ => s

/-- An OWN of a die's slice whose acknowledgements are counted: the entry names it owner, and its store is
performed there (R326). -/
def ownDone (s : State) (t : Txn) (a : Nat) : State :=
  let e := { dirGrow s.mem.dir t.grain t.size with coarse := false, vec := 0, ptrs := [a], owned := true }
  let m := { s.mem with dir := dirPut s.sys.ptp s.mem.dir e }
  match t.writer with
  | .part op i =>
    match findOp m op with
    | none => { s with mem := m }
    | some o =>
      match o.parts[i]? with
      | none => { s with mem := m }
      | some p => trimL2 (ackWrite { s with mem := storeAtSlice m a o p } o i p.pa) a (frameOf t.grain)
  | .nobody | .copy _ | .peer _ _ _ _ | .engine _ => { s with mem := m }

/-- A transaction with no acknowledgement outstanding ends (R326). -/
def txnDone (s : State) (t : Txn) : State :=
  let s := { s with mem := { s.mem with txns := s.mem.txns.filter fun x => x.id != t.id } }
  match t.own with
  | none =>
    let e := dirCleared s.sys.ptp (dirGrow s.mem.dir t.grain t.size)
    ackWriter { s with mem := { s.mem with dir := dirPut s.sys.ptp s.mem.dir e } } t.writer
  | some a => ownDone s t a

/-- A transaction with one agent's acknowledgement counted. -/
def countAck (s : State) (t : Txn) (agent : Nat) : State :=
  let dirt := ((t.acks.find? fun a => a.1 == agent).map fun a => a.2.2).getD []
  let m := mergeBytes s.mem (some t) dirt
  let t' := { t with outstanding := t.outstanding.filter fun a => a != agent,
                     acks := t.acks.filter fun a => a.1 != agent }
  let s := { s with mem := { m with txns := modIf m.txns (fun x => x.id == t.id) fun _ => t' } }
  if t'.outstanding.isEmpty then txnDone s t' else s

/-- INVALIDATE_ACK: the home merges what the acknowledgement carries and counts it (R328); a notice that its agent sent
before arrives before it (R381), and one with another incarnation than its sender's is dropped (R323). -/
def execInvalidateAck (txn agent : Nat) (s : State) : Host.Outcome State Fault Refusal :=
  match findTxn s.mem txn with
  | none => .next s
  | some t =>
    match t.acks.find? fun a => a.1 == agent with
    | none => .next s
    | some a =>
      if a.2.1 ≠ incOf s agent then
        let drop := fun (x : Txn) => { x with acks := x.acks.filter fun b => b.1 != agent }
        .next { s with mem := { s.mem with txns := modIf s.mem.txns (fun x => x.id == txn) drop } }
      else if noticeAhead s.mem agent t.grain then .next s
      else .next (countAck s t agent)

/-- HORIZON_REACHED: agent 9's acknowledgement is counted once the owner's time has reached HORIZON +
GUARD_NS (R325, R337). -/
def execHorizonReached (txn : Nat) (s : State) : Host.Outcome State Fault Refusal :=
  match findTxn s.mem txn with
  | none => .next s
  | some t =>
    if t.outstanding.contains 9 && !leaseHolds s.mem s.sys.ptp s.sys.guardNs t.grain then .next (countAck s t 9)
    else .next s

/-- An eviction notice reaches its home (R329); one with another incarnation than its sender's is dropped
(R323). -/
def noticeAtHome (wback : Bool) (notice : Nat) (s : State) : Host.Outcome State Fault Refusal :=
  match s.mem.notices.find? fun n => n.id == notice with
  | none => .next s
  | some n =>
    if n.data.isSome != wback then .next s
    else
      let on := s.mem.txns.find? fun t => decide (t.grain ≤ n.grain) && decide (n.grain < t.grain + t.size)
      let crossed := match on with
        | some t => t.outstanding.contains n.agent
        | none => false
      let m := { s.mem with notices := s.mem.notices.filter fun x => x.id != notice }
      if n.inc ≠ incOf s n.agent then .next { s with mem := m }
      else
        let m := mergeBytes m on (n.data.getD [])
        if crossed then .next { s with mem := m }
        else
          match dirFind m.dir n.grain with
          | none => .next { s with mem := m }
          | some e => .next { s with mem := { m with dir := dirPut s.sys.ptp m.dir (dirLeave e n.agent) } }

/-- HOME_EVICT: a clean notice (R329). -/
def execHomeEvict (notice : Nat) (s : State) : Host.Outcome State Fault Refusal :=
  noticeAtHome false notice s
/-- HOME_WBACK: a notice with modified cells, which are merged (R329). -/
def execHomeWback (notice : Nat) (s : State) : Host.Outcome State Fault Refusal :=
  noticeAtHome true notice s

/-! ## Read-modify-writes (R213, R221, R222, R223) -/

/-- The key of R222's order: −NaN lowest, +NaN highest, −0 equal to +0. -/
def totKey (f : Fmt) (c : Nat) : Int :=
  let neg := c / 2 ^ (f.eb + f.mb) % 2 == 1
  let mag : Nat := c % 2 ^ (f.eb + f.mb)
  let k : Int := if infCode f < mag then (infCode f + 1 : Nat) else (mag : Nat)
  if neg then -k else k

/-- The new value of an atomic on `size` bytes; none where nothing is written (R221, R222). -/
def rmwNew (op : AtOp) (sg : Bool) (size old opd cmp : Nat) : Option Nat :=
  let w := 8 * size
  let v := fun (x : Nat) => if sg then signed x w else (x : Int)
  match op with
  | .add => some ((old + opd) % 2 ^ w)
  | .and => some (Nat.land old opd)
  | .or => some (Nat.lor old opd)
  | .xor => some (Nat.xor old opd)
  | .min => some (if v opd < v old then opd else old)
  | .max => some (if v old < v opd then opd else old)
  | .xchg => some opd
  | .cas => if old = cmp % 2 ^ w then some opd else none
  | .fmax => winner (if size = 8 then F64 else F32) true
  | .fmin => winner (if size = 8 then F64 else F32) false
where
  /-- The operand stored by ATFMAX or ATFMIN where it wins, a NaN made canonical with its sign. -/
  winner (f : Fmt) (wantMax : Bool) : Option Nat :=
    let a := totKey f opd
    let b := totKey f old
    if (if wantMax then b < a else a < b) then
      some (if decodeF f opd = .nan then withSign f (opd / 2 ^ (f.eb + f.mb) % 2 == 1) (canonNan f)
        else opd)
    else none

/-- The parts of one issue's read-modify-writes at one address, in slice and lane order: (operation,
part number). -/
def rmwSame (m : Mem) (issue pa : Nat) : List (MemOp × Nat) :=
  (m.ops.filter fun o => o.issue == issue && isRmw o).flatMap fun o =>
    (o.parts.zipIdx.filter fun p => p.1.pa == pa && !p.1.performed).map fun p => (o, p.2)

/-- Whether an operation's part may be performed now, its own issue's parts at the same address apart. -/
def rmwReady (s : State) (o : MemOp) (p : MemPart) : Bool :=
  performOk (ownDev s.sys) (s.mem.ops.map fun q =>
    if q.issue == o.issue && q.id != o.id then
      { q with parts := q.parts.filter fun r => r.pa != p.pa } else q) o p
  && !(paLocal (ownDev s.sys) p.pa && (txnBusy s.mem (paOff p.pa) || !homeUp s (paOff p.pa)))

/-- A part marked performed with the old value it returns. -/
def gotPart (m : Mem) (op i : Nat) (bs : List Byte) (ack : Bool) : Mem :=
  { m with ops := modIf m.ops (fun q => q.id == op) fun q =>
      setPart q i fun r => { r with got := some bs, performed := true, acked := r.acked || ack } }

/-- What the parts of one issue at one address do to the bytes there, one after another: the old value of each,
the bytes left, and how many of them were written (R221). -/
structure RmwRun where
  cur  : List Byte
  olds : List (Nat × Nat × List Byte) := []
  wrote : Nat := 0

/-- One part more (R221, R222). -/
def rmwOne (r : RmwRun) (x : MemOp × Nat) : RmwRun :=
  match x.1.kind, x.1.parts[x.2]? with
  | .rmw op sg _, some p =>
    let old := r.cur.take p.len
    let r := { r with olds := r.olds ++ [(x.1.id, x.2, old)] }
    match rmwNew op sg p.len (leNat old) (leNat p.wdata) p.cmp.toNat with
    | some v => { r with cur := natLe v p.len ++ r.cur.drop p.len, wrote := Nat.max r.wrote p.len }
    | none => r
  | _, _ => r

/-- The parts of an issue at one address performed: each lane has its old value, the last value is written at the
home, and the cell leaves the core's L1 (R218, R221). -/
def rmwGroup (s : State) (o : MemOp) (i : Nat) (p : MemPart) (same : List (MemOp × Nat)) : State :=
  let run := same.foldl rmwOne { cur := (List.range 8).map fun j => spaceByte s (p.pa + j) }
  let m := run.olds.foldl (fun m x => gotPart m x.1 x.2.1 x.2.2 false) s.mem
  let m := l1DropCells m o.core (paFrame p.pa) [p.pa / 32 % 16]
  let home := homeKey (ownDev s.sys) p.pa
  let m := raiseClock (if o.order = 4 then stampRmw m o.core o.scope home else m) o.core home
  if run.wrote = 0 then { s with mem := m }
  else engineWrite { s with mem := m } (.part o.id i) p.leaf p.pa (run.cur.take run.wrote)

/-- A read-modify-write on a peer: one packet with its operation and operands; the answer comes later (R223,
R338). -/
def rmwPeer (s : State) (o : MemOp) (i : Nat) (p : MemPart) (op : AtOp) (sg : Bool) : State :=
  let t := sendReq s o.part (paDev p.pa) o.id 0 i
    (.atomic op sg (paOff p.pa) p.len (BitVec.ofNat 64 (leNat p.wdata)) p.cmp)
  { t with mem := markPart t.mem o.id i false }

/-- The kernel of an operation remembers that a peer was lost (R114, R336). -/
def noteLoss (s : State) (o : MemOp) : State :=
  { s with ctl := { s.ctl with kernels := modAt s.ctl.kernels o.kern fun k => { k with linkLoss := true } } }

/-- An operation on a lost peer (R336): a returning one raises LINK_LOSS, another is lost and its kernel
retires with LINK_LOSS (R96, R114). -/
def lostPart (s : State) (o : MemOp) (i : Nat) (va : Dbl) (returns : Bool) : State :=
  if returns then opFault s o .linkLoss va true
  else noteLoss { s with mem := markPart s.mem o.id i true } o

/-- RMW_AT_HOME: the home performs an atomic; the lanes of one issue that name one address are performed
one after another (R221). -/
def execRmwAtHome (op part : Nat) (s : State) : Host.Outcome State Fault Refusal :=
  match findOp s.mem op with
  | none => .next s
  | some o =>
    match o.kind, o.parts[part]? with
    | .rmw at_ sg ret, some p =>
      if p.performed || !rmwReady s o p then .next s
      else if peerGone s p.pa then .next (lostPart s o part p.va ret)
      else if paPeer s p.pa then
        .next (if canSend s.sys (paDev p.pa) (frameOf (paOff p.pa)) 0 then rmwPeer s o part p at_ sg else s)
      else if paHost (ownDev s.sys) p.pa && !Config.hostAtomicSupported s.exe.fresh then
        .next (opFault { s with exe := { s.exe with fresh := s.exe.fresh + 1 } } o .permFault p.va true)
      else
        let same := rmwSame s.mem o.issue p.pa
        let ready := same.all fun x => match x.1.parts[x.2]? with
          | some r => rmwReady s x.1 r
          | none => true
        if ready then
          let fr := if paHost (ownDev s.sys) p.pa then 1 else 0
          let t := rmwGroup { s with exe := { s.exe with fresh := s.exe.fresh + fr } } o part p same
          .next (if writerWaits t.mem (.part o.id part) then t else ackWrite t o part p.pa)
        else .next s
    | _, _ => .next s

/-! ## Completion (R51, R198, R200, R205, R206, R218) -/

/-- The 32-bit words of a lane's value, from the bytes its parts hold. -/
def laneBytes (o : MemOp) (l : Nat) : List Byte :=
  ((o.parts.filter fun p => p.lane == l).flatMap fun p => p.got.getD [])

/-- The register writes of a load's lane (R197). -/
def laneWrites (o : MemOp) (l : Nat) : Writes :=
  let v := leNat (laneBytes o l)
  (List.range o.nreg).map fun i => (regKey l (o.dst + i), BitVec.ofNat 32 (v / 2 ^ (32 * i)))

/-- The lanes of an operation, each once, in order. -/
def opLanes (o : MemOp) : List Nat :=
  o.parts.foldl (fun ls p => if ls.contains p.lane then ls else ls ++ [p.lane]) []

/-- The gang's registers after every lane's result (R51). -/
def writeLanes (s : State) (o : MemOp) : State :=
  { s with exe := { s.exe with gangs := modAt s.exe.gangs o.gang fun g =>
      { g with regs := smPuts g.regs ((opLanes o).flatMap (laneWrites o)) } } }

/-- The acquire of an operation whose access has returned (R218). -/
def finishAcquire (s : State) (o : MemOp) : State :=
  if ordAcq o.order && (isLoad o || isRmw o) then { s with mem := acquireL1 s.mem o.core o.scope } else s

/-- Whether what comes before a window operation is done: acquires of its slice, its release, and earlier window
operations of the slice that share a byte (R200, R214). -/
def localOk (s : State) (o : MemOp) : Bool :=
  relDone (ownDev s.sys) s.mem.ops o && (earlier s.mem.ops o).all fun q =>
    !acquirePending q &&
      (!isLocal q || !(q.parts.any fun r => o.parts.any fun p =>
        (lmBytes r.aux r.len).any fun x => (lmBytes p.aux p.len).contains x))

/-- The operations of one issue. -/
def issueOps (m : Mem) (issue : Nat) : List MemOp := m.ops.filter fun o => o.issue == issue

/-- A window store of a higher slice follows those of the lower slices of its issue (R198, R200). -/
def lowerSlicesDone (s : State) (o : MemOp) : Bool :=
  (issueOps s.mem o.issue).all fun q => decide (o.id ≤ q.id)

/-- The group of an operation. -/
def opGroup (s : State) (o : MemOp) : Nat := (opGang s o).grp

/-- The window of a group. -/
def windowOf (s : State) (gid : Nat) : SMap 8 := ((s.exe.groups[gid]?).map Group.window).getD []

/-- A window load performed (R200). -/
def ldlDo (s : State) (o : MemOp) : MemOp :=
  { o with parts := o.parts.map fun p =>
      { p with got := some (lmGet (windowOf s (opGroup s o)) (lmBytes p.aux p.len)), performed := true } }

/-- Window stores performed, lane by lane (R200, R198). -/
def stlDo (s : State) (o : MemOp) : State :=
  modWindow s (opGroup s o) fun w => o.parts.foldl (fun w p => lmPut w (lmBytes p.aux p.len) p.wdata) w

/-- One part of a window atomic: the window and the old values so far (R224). -/
def atlPart (cas : Bool) (acc : SMap 8 × List MemPart) (p : MemPart) : SMap 8 × List MemPart :=
  let xs := lmBytes p.aux 4
  let old := leNat (lmGet acc.1 xs)
  let nw := if cas then (if old = p.cmp.toNat % 2 ^ 32 then leNat p.wdata else old)
    else (old + leNat p.wdata) % 2 ^ 32
  (lmPut acc.1 xs (natLe nw 4), acc.2 ++ [{ p with got := some (natLe old 4), performed := true }])

/-- The window atomics of one issue performed, slices and lanes in ascending order, with no other access between
them (R221, R224). -/
def atlIssue (s : State) (o : MemOp) (cas : Bool) : State :=
  (issueOps s.mem o.issue).foldl (fun s q =>
    let r := q.parts.foldl (atlPart cas) (windowOf s (opGroup s q), [])
    let t := modWindow s (opGroup s q) fun _ => r.1
    { t with mem := setOp t.mem { q with parts := r.2 } }) s

/-- Whether every window atomic of an issue may be performed, or has been. -/
def atlReady (s : State) (o : MemOp) : Bool :=
  (issueOps s.mem o.issue).all fun q => (q.parts.all MemPart.performed && !q.parts.isEmpty) || localOk s q

/-- The context of an operation. -/
def opCtx (s : State) (o : MemOp) : Option Ctx := findCtx s.ctl.ctxs o.part o.ctx

/-- The cells of a LOCKB or UNLOCKB part; only own device memory has cells that a group may hold (R205, R206). -/
def lockCells (own : Nat) (p : MemPart) : List Nat :=
  if paLocal own p.pa then
    (List.range ((p.pa + p.len - 1) / 32 + 1 - p.pa / 32)).map fun j => paOff p.pa / 32 + j
  else []

/-- LOCKB in one lane (R205): the state and the status. -/
def lockOne (s : State) (o : MemOp) (p : MemPart) : State × Nat :=
  let gid := opGroup s o
  let cs := lockCells (ownDev s.sys) p
  let mine := ((s.exe.groups[gid]?).map Group.pins).getD []
  let new := cs.filter fun c => !mine.contains c
  let used := ((opCtx s o).map Ctx.lockUsed).getD 0
  let quota := ((opCtx s o).map fun c => c.desc.lockQuota).getD 0
  if leafPolicy p.leaf == 3 || !paLocal (ownDev s.sys) p.pa || !leafPinned p.leaf then (s, 3)
  else if quota < used + new.length then (s, 1)
  else
    let f := frameOf (paOff p.pa)
    let t := homeAlloc s f (cs.map fun c => c % 16) false false (leafPolicy p.leaf) (leafWayp p.leaf)
    let pin := fun c => pinnedCell s c || cs.contains c
    let set := homeSet t.mem (homeDie (paOff p.pa)) f
    let held := fun (b : HomeBlock) =>
      ((List.range b.dirty.length).filter fun j => pin (16 * b.frame + b.start + j)).length
    let tags := (set.filter fun b => decide (0 < held b)).length
    let cells := (set.map held).sum
    if 8 < tags ∨ 32 < cells then (s, 2)
    else
      let gs := modAt t.exe.groups gid fun g => { g with pins := g.pins ++ new }
      let cs := modCtx t.ctl.ctxs o.part o.ctx fun c => { c with lockUsed := used + new.length }
      ({ t with exe := { t.exe with groups := gs }, ctl := { t.ctl with ctxs := cs } }, 0)

/-- LOCKB in every lane of an operation, in order, with the statuses kept in its parts. -/
def lockDo (s : State) (o : MemOp) : State :=
  let r := o.parts.foldl (fun (acc : State × List MemPart) p =>
    let (s', st) := lockOne acc.1 o p
    (s', acc.2 ++ [{ p with got := some (natLe st 4), performed := true }])) (s, [])
  { r.1 with mem := setOp r.1.mem { o with parts := r.2 } }

/-- The LOCKBs of one issue performed, slices and lanes in ascending order (R205). -/
def lockIssue (s : State) (o : MemOp) : State := (issueOps s.mem o.issue).foldl lockDo s

/-- UNLOCKB (R206). -/
def unlockDo (s : State) (o : MemOp) : State :=
  let gid := opGroup s o
  o.parts.foldl (fun s p =>
    let cells := lockCells (ownDev s.sys) p
    let mine := ((s.exe.groups[gid]?).map Group.pins).getD []
    let gone := (mine.filter fun c => cells.contains c).length
    let gs := modAt s.exe.groups gid fun g => { g with pins := g.pins.filter fun c => !cells.contains c }
    let cs := modCtx s.ctl.ctxs o.part o.ctx fun c => { c with lockUsed := c.lockUsed - gone }
    { s with exe := { s.exe with groups := gs }, ctl := { s.ctl with ctxs := cs } }) s

/-- A cell clean towards LPDDR in its home slice and its LLC line (R201). -/
def cleanCell (m : Mem) (cell : Nat) : Mem :=
  { m with
    homeBlocks := m.homeBlocks.map fun b =>
      if b.frame == cell / 16 && decide (b.start ≤ cell % 16) then
        { b with dirty := modAt b.dirty (cell % 16 - b.start) fun _ => false } else b
    llc := modIf m.llc (fun l => l.frame == cell / 16) fun l =>
      { l with dirty := l.dirty &&& ~~~(1#16 <<< (cell % 16)) } }

/-- A cell written back from the slice that holds it modified, through its home slice and the LLC, to LPDDR
(R201). -/
def flushCell (s : State) (cell : Nat) : State :=
  let g := dirGrow s.mem.dir (32 * cell) 32
  let bs := coRead s.mem (32 * cell) 32
  let m := recallGrain s.mem g.grain g.size
  let stored := bs.mapIdx fun j b => b ^^^ keyByte m (32 * cell + j)
  { s with mem := cleanCell { m with lpddr := smPut m.lpddr (lpddrKey (32 * cell)) stored } cell }

/-- The write-back of a range (R201): LPDDR takes the home's value of every cell. -/
def flushDo (s : State) (o : MemOp) : State :=
  match opCtx s o with
  | none => s
  | some c =>
    o.parts.foldl (fun s p =>
      if p.aux = 0 ∨ p.len = 0 then s
      else
        let ea := p.va.toNat
        (List.range ((ea + p.len - 1) / 32 + 1 - ea / 32)).foldl (fun s j =>
          match xlate s (coreAt o.core) c ((ea / 32 + j) * 32) needR with
          | .error _ => s
          | .ok x =>
            if !paLocal (ownDev s.sys) x.pa || !homeUp s (paOff x.pa) then s
            else flushCell s (cellOf (paOff x.pa))) s) s

/-- FLUSH waits for the stores ordered before it, in every slice of its cohort: their own earlier ones, those that an
earlier acquire made visible, and the acquires themselves (R202). -/
def flushReady (s : State) (o : MemOp) : Bool :=
  let own := ownDev s.sys
  (siblings s.mem.ops o).all fun x =>
    relReady own s.mem.ops scCore x.core x.gang x.slice x.issue &&
      (earlier s.mem.ops x).all fun q => !acquirePending q

/-! ## PREF (R204) -/

/-- PREF in one lane: the wanted range around an address goes into the tier named, 0 L1 and the local slice, 1 the
local slice, 2 the home's LLC. It is dropped for a peer, host or bypass page, for an address that does not translate
and where a request at the home would wait. -/
def prefLane (e : Iss) (lvl ea : Nat) (s : State) (k : Nat) : State :=
  match xlate s (coreAt e.core) e.ctx ea 0 with
  | .error _ => s
  | .ok x =>
    let off := paOff x.pa
    let f := frameOf off
    let o := mkOp e 0 0 k .load .none 0 0 []
    let p : MemPart := { lane := 0, va := BitVec.ofNat 64 ea, pa := x.pa, len := 1, leaf := x.leaf }
    let w := wantedOf s.mem o [cellIn off]
    let cs := (List.range 16).filter fun i => decide (w.1 ≤ i) && decide (i ≤ w.2)
    if !paLocal (ownDev s.sys) x.pa || leafPolicy x.leaf == 3 || !homeUp s off
        || (cs.any fun i => txnBusy s.mem (512 * f + 32 * i)) || boundHeader s.ctl.queues (x.pa / 512 * 512) 512 then s
    else if lvl = 2 then { s with mem := llcPut s.mem f (leafWayp x.leaf) (leafPolicy x.leaf) (cellMask cs) 0 }
    else
      let s := if homeDie off == coreDie e.core then
          homeAlloc (cs.foldl (fun s i => homeRecall s none (512 * f + 32 * i) 32) s) f cs false false
            (allocPolicy o p) (leafWayp x.leaf)
        else readRange s (coreDie e.core) ⟨o.part, o.ctx, allocPolicy o p⟩ (leafWayp x.leaf) f (leafGrain x.leaf) w
      if lvl = 1 ∨ o.span = 6 then s
      else
        let cells := fillCells s o p [cellIn off] (paFrame x.pa) (belowCell s o p)
        if cells.isEmpty then s
        else { s with mem := l1Put s.mem e.core (paFrame x.pa) e.pc (cellIn off) (leafPolicy x.leaf) cells }

/-- PREF (R204): every active lane's wanted range is fetched; it returns nothing and never faults. -/
def execPref (l : BitVec 2) (a b : Byte) (s : State) : Host.Outcome State Fault Refusal :=
  issue s (fun e => legal e fun _ => decide (l.toNat ≤ 2) && baseOk e.n a && declOk e.n b)
    fun e => { st := e.active.foldl (fun s x => prefLane e l.toNat (blockEa e.g x a b) s (x / 4)) e.s, g := e.adv }

end Sys2Proof.Machine
end

