-- ==== Sys2Proof/Machine/Tree.lean ====
section
/-! DEFINITION. Tree.lean: node labels (R258 to R260), accumulators (R261 to R265), the instructions that
arm, feed, query and drop them (R266 to R270) and the path of a partial (R273 to R277). -/

namespace Sys2Proof.Machine

/-! ## Labels (R258, R259) -/

/-- L of T(n): 2^L is the smallest power of two not below n. -/
def treeTop (n : Nat) : Nat := ((List.range 28).find? fun l => decide (n ≤ 2 ^ l)).getD 27

/-- Whether (l, i) is a valid label of T(n). -/
def labelOk (n l i : Nat) : Bool :=
  decide (l ≤ treeTop n) && decide (i < 2 ^ (treeTop n - l)) && decide (i * 2 ^ l < n)

/-- normalise of R259. -/
def normLabel (n : Nat) : (fuel : Nat) → (l i : Nat) → Nat × Nat
  | 0, l, i => (l, i)
  | f + 1, l, i =>
    if l < treeTop n ∧ n ≤ Nat.xor i 1 * 2 ^ l then normLabel n f (l + 1) (i / 2) else (l, i)

def normalise (n l i : Nat) : Nat × Nat := normLabel n 28 l i

/-- The leaf range of a node, within [0, n). -/
def labelLo (l i : Nat) : Nat := i * 2 ^ l
def labelHi (n l i : Nat) : Nat := if n < (i + 1) * 2 ^ l then n else (i + 1) * 2 ^ l

/-- A label as a word, and its fields. -/
def labelWord (l i : Nat) : Nat := l * 2 ^ 27 + i
def labelLevel (w : Nat) : Nat := bits w 31 27
def labelIndex (w : Nat) : Nat := bits w 26 0

/-! ## The accumulator table (R264) -/

/-- A slot of a context's table; a slot never armed is FREE with GEN 0. -/
def accSlot (c : Ctx) (n : Nat) : AccSlot :=
  (c.accs.find? fun a => a.slot == n).getD { slot := n, gen := 0, state := .free }

/-- The context with a slot replaced. -/
def putSlot (c : Ctx) (a : AccSlot) : Ctx :=
  { c with accs := a :: c.accs.filter fun x => x.slot != a.slot }

def handleDev (h : Nat) : Nat := bits h 30 22
def handleGen (h : Nat) : Nat := bits h 21 12
def handleSlot (h : Nat) : Nat := bits h 11 0
/-- A word with bit 31 set is no handle. -/
def noHandle (h : Nat) : Bool := h.testBit 31

/-- The slot a handle names, where the handle is live. -/
def liveAcc (own : Nat) (c : Ctx) (h : Nat) : Option AccSlot :=
  let a := accSlot c (handleSlot h)
  if !noHandle h && handleDev h == own && a.state == .armed && a.gen == handleGen h then some a else none

/-- The size of an element, and the element type a CONTRIB must have (R261, R268). -/
def accSize (fmt : Nat) : Nat := if fmt = 0 then 4 else 8
def accTy (fmt : Nat) : Nat := if fmt = 0 then 4 else if fmt = 1 then 5 else 2

/-- The sum of two sibling values, in the accumulator's format (R274). -/
def accAdd (fmt a b : Nat) : Nat :=
  if fmt = 0 then (nodeAdd F32 a b).1 else if fmt = 1 then (nodeAdd F64 a b).1
  else (a + b) % 2 ^ 64

/-- The virtual address of an element. -/
def elemVa (a : AccSlot) (e : Nat) : Nat := a.base.toNat + e * accSize a.fmt

/-! ## Memory of an accumulator, reached by its home slices (R261 to R263) -/

/-- `n` bytes at a virtual address of a context as a number; 0 where a byte has lost its translation. -/
def vaNat (s : State) (c : Ctx) (va n : Nat) : Nat := leNat (excGet [] (readVa s 0 c va n 0))

/-- The state with a number written at a virtual address of a context, for the engine `w`. -/
def vaPutFor (s : State) (w : Writer) (c : Ctx) (va n v : Nat) : State :=
  excGet s (writeVa s w 0 c va 0 (natLe v n))
def vaPut (s : State) (c : Ctx) (va n v : Nat) : State := vaPutFor s .nobody c va n v

/-- The state with a number at a virtual address raised by `d`, modulo its width. -/
def vaBump (s : State) (c : Ctx) (va n : Nat) (d : Int) : State :=
  vaPut s c va n (wrap ((vaNat s c va n : Int) + d) (8 * n))

/-- The leaf-map bits of element `e` for the leaves [lo, hi), as a number (R262). -/
def leafBits (s : State) (c : Ctx) (a : AccSlot) (e lo hi : Nat) : Nat :=
  let first := e * a.nleaf + lo
  let last := e * a.nleaf + hi
  vaNat s c (a.leafmap.toNat + first / 8) ((last + 7) / 8 - first / 8) / 2 ^ (first % 8) % 2 ^ (hi - lo)

/-- The state with the leaf-map bits of element `e` for [lo, hi) set. -/
def setLeaves (s : State) (c : Ctx) (a : AccSlot) (e lo hi : Nat) : State :=
  let first := e * a.nleaf + lo
  let last := e * a.nleaf + hi
  let va := a.leafmap.toNat + first / 8
  let n := (last + 7) / 8 - first / 8
  vaPut s c va n (Nat.lor (vaNat s c va n) ((2 ^ (hi - lo) - 1) * 2 ^ (first % 8)))

/-! ## The spill table (R263). An entry is a 128-bit number: VALUE, ELEM1, LABEL from the lowest. -/

def spillEntry (s : State) (c : Ctx) (a : AccSlot) (i : Nat) : Nat :=
  vaNat s c (a.spill.toNat + 16 * i) 16
def spillPut (s : State) (c : Ctx) (a : AccSlot) (i x : Nat) : State :=
  vaPut s c (a.spill.toNat + 16 * i) 16 x
def spillElem1 (x : Nat) : Nat := bits x 95 64
def spillLabel (x : Nat) : Nat := bits x 127 96
def spillHome (a : AccSlot) (e label : Nat) : Nat := mix64 (e * 2 ^ 32 + label) % a.cap

/-- The entry of (e, label), from `i` upward over at most `fuel` entries. -/
def spillFind (s : State) (c : Ctx) (a : AccSlot) (e label : Nat) : (fuel i : Nat) → Option Nat
  | 0, _ => none
  | f + 1, i =>
    let x := spillEntry s c a i
    if spillElem1 x = 0 then none
    else if spillElem1 x = e + 1 ∧ spillLabel x = label then some i
    else spillFind s c a e label f ((i + 1) % a.cap)

/-- The first empty entry from `i` upward. -/
def spillFree (s : State) (c : Ctx) (a : AccSlot) : (fuel i : Nat) → Option Nat
  | 0, _ => none
  | f + 1, i =>
    if spillElem1 (spillEntry s c a i) = 0 then some i else spillFree s c a f ((i + 1) % a.cap)

/-- The gap at `i` closed by backward shifting, looking at entry `j`. -/
def spillClose (c : Ctx) (a : AccSlot) : (fuel : Nat) → State → (i j : Nat) → State
  | 0, s, _, _ => s
  | f + 1, s, i, j =>
    let x := spillEntry s c a j
    if spillElem1 x = 0 then s
    else
      let k := spillHome a (spillElem1 x - 1) (spillLabel x)
      if (j + a.cap - i) % a.cap ≤ (j + a.cap - k) % a.cap then
        spillClose c a f (spillPut (spillPut s c a i x) c a j 0) j ((j + 1) % a.cap)
      else spillClose c a f s i ((j + 1) % a.cap)

/-- remove of R263. -/
def spillRemove (s : State) (c : Ctx) (a : AccSlot) (i : Nat) : State :=
  spillClose c a a.cap (spillPut s c a i 0) i ((i + 1) % a.cap)

/-! ## ACCARM (R267) -/

/-- The fields of a descriptor's 64 bytes, as an armed slot would latch them. -/
def accParse (n gen : Nat) (bs : List Byte) : AccSlot :=
  let f := fun off c => leNat ((bs.drop off).take c)
  let d := fun off => BitVec.ofNat 64 (f off 8)
  { slot := n, gen := gen, state := .armed, base := d 0, ecount := f 8 4, nleaf := f 12 4,
    fmt := f 16 1, flags := f 17 1, cap := f 20 4, leafmap := d 24, spill := d 32, event := d 40 }

/-- The ranges an accumulator uses: elements, leaf map, spill table, event. -/
def accRanges (a : AccSlot) : List (Nat × Nat) :=
  [(a.base.toNat, a.ecount * accSize a.fmt), (a.leafmap.toNat, (a.ecount * a.nleaf + 7) / 8),
   (a.spill.toNat, 16 * a.cap)] ++ if a.event = 0 then [] else [(a.event.toNat, 8)]

/-- Whether no two of a list of ranges overlap. -/
def rangesApart : List (Nat × Nat) → Bool
  | [] => true
  | r :: rs => (rs.all fun q => decide (r.1 + r.2 ≤ q.1) || decide (q.1 + q.2 ≤ r.1)) && rangesApart rs

/-- A power of two from 2^lo to 2^hi. -/
def powBetween (x lo hi : Nat) : Bool := (List.range (hi + 1 - lo)).any fun i => x == 2 ^ (lo + i)

/-- The descriptor passes the checks whose failure is BAD_DESC (R261, R267). -/
def accDescOk (ea : Nat) (a : AccSlot) (bs : List Byte) : Bool :=
  let f := fun off c => leNat ((bs.drop off).take c)
  ea % 64 == 0 && f 18 2 == 0 && f 48 16 == 0 && a.base.toNat % accSize a.fmt == 0
    && decide (1 ≤ a.ecount) && decide (1 ≤ a.nleaf) && decide (a.nleaf ≤ 2 ^ 27) && decide (a.fmt ≤ 2)
    && decide (a.flags < 4) && powBetween a.cap 4 24 && a.leafmap.toNat % 8 == 0
    && a.spill.toNat % 16 == 0 && a.event.toNat % 8 == 0
    && decide (a.ecount * a.nleaf ≤ 2 ^ 40) && rangesApart (accRanges a)

/-- The 64 KiB pages that a range of virtual addresses touches (R2). -/
def vaPages (lo len : Nat) : List Nat :=
  if len = 0 then []
  else (List.range ((lo + len - 1) / 2 ^ 16 + 1 - lo / 2 ^ 16)).map fun j => lo / 2 ^ 16 + j

/-- Every page of a range is mapped, pinned, readable and writeable, in device memory and not bypass (R267,
R311). -/
def rangePinned (s : State) (c : Ctx) (r : Nat × Nat) : Bool :=
  (vaPages r.1 r.2).all fun p =>
    match xlate s 0 c (p * 2 ^ 16) needRW with
    | .ok x => leafPinned x.leaf && paLocal (ownDev s.sys) x.pa && leafPolicy x.leaf != 3
    | .error _ => false

/-- The lowest FREE slot of a context's table. -/
def lowestFree (c : Ctx) : (fuel n : Nat) → Option Nat
  | 0, _ => none
  | f + 1, n => if (accSlot c n).state == .free then some n else lowestFree c f (n + 1)

/-- ACCARM at the descriptor at `ea`: the state and the result word (R267). -/
def accArm (s : State) (c : Ctx) (ea : Nat) : State × Nat :=
  let bs := excGet [] (readVa s 0 c ea 64 0)
  let a0 := accParse 0 0 bs
  if bs.length ≠ 64 ∨ !accDescOk ea a0 bs then (s, 0x80000001)
  else
    match lowestFree c 4096 0 with
    | none => (s, 0x80000002)
    | some n =>
      if !((accRanges a0).all (rangePinned s c)) then (s, 0x80000003)
      else
        let gen := ((accSlot c n).gen + 1) % 1024
        let a := { accParse n gen bs with desc := BitVec.ofNat 64 ea }
        let cs := modCtx s.ctl.ctxs c.part c.cid fun x => putSlot x a
        ({ s with ctl := { s.ctl with ctxs := cs } }, ownDev s.sys * 2 ^ 22 + gen * 2 ^ 12 + n)

/-- A part of an operation that reaches no memory cell of its own. -/
def barePart (l aux aux2 : Nat) : MemPart :=
  { lane := l, va := 0, pa := 0, len := 0, aux := aux, aux2 := aux2 }

/-- The active lanes of slice `k`. -/
def Iss.lanesOf (e : Iss) (k : Nat) : List Nat := e.active.filter fun l => l / 4 == k

/-- ACCARM (R267): LOAD_COMPLETE arms, once the release of DEVICE scope is done. -/
def execAccarm (d a : BitVec 8) (s : State) : Host.Outcome State Fault Refusal :=
  issue s
    (fun e => (legal e fun _ => declOk e.n d && pairOk e.n a).and ((clsRoom e fun _ => .l).and
      (onLane e fun l =>
        (excFault (xlate e.s (coreAt e.core) e.ctx (rdPair e.g l a) needR)).map fun f =>
          (f, rdPair e.g l a))))
    fun e => opsBody e (fun _ => .l) e.s.mem fun id issue k =>
      mkOp e id issue k .accarm .l d.toNat 1
        ((e.lanesOf k).map fun l => barePart l (rdPair e.g (e.active.headD 0) a) 0)

/-! ## CONTRIB, CONTRIBN, ACCQ, ACCDROP (R268 to R270) -/

/-- The element and the third operand of a contribute in lane `l`. -/
def contribElem (e : Iss) (b : Byte) (l : Nat) : Nat := rdPair e.g l b % 2 ^ 32
def contribX (e : Iss) (b : Byte) (l : Nat) : Nat := rdPair e.g l b / 2 ^ 32

/-- The label word a contribute's third operand names; a leaf beyond every label's range gives the word of none
(R258, R268). -/
def contribLabel (named : Bool) (x : Nat) : Nat :=
  if named then x else if x < 2 ^ 27 then labelWord 0 x else 2 ^ 32 - 1

/-- The fault of one lane of a contribute (R268). -/
def contribFault (e : Iss) (named : Bool) (a b : Byte) (l : Nat) : Option FaultCode :=
  let h := rd e.g l a
  let x := contribX e b l
  if noHandle h then some .illegalOp
  else if handleDev h ≠ ownDev e.s.sys then none
  else
    match liveAcc (ownDev e.s.sys) e.ctx h with
    | none => some .illegalOp
    | some acc =>
      if e.lty l ≠ accTy acc.fmt ∨ acc.ecount ≤ contribElem e b l then some .illegalOp
      else if named then
        (if labelOk acc.nleaf (labelLevel x) (labelIndex x) then none else some .illegalOp)
      else if acc.nleaf ≤ x then some .illegalOp else none

/-- The partial that lane `l` sends towards this device's home. -/
def contribPartial (e : Iss) (named : Bool) (d a b : Byte) (id op i l : Nat) : Partial :=
  let h := rd e.g l a
  let x := contribLabel named (contribX e b l)
  let n := ((liveAcc (ownDev e.s.sys) e.ctx h).map AccSlot.nleaf).getD 1
  let lab := normalise n (labelLevel x) (labelIndex x)
  { id := id, part := e.kern.part, ctx := e.kern.ctx, kern := e.grp.kern, handle := BitVec.ofNat 32 h,
    elem := contribElem e b l, level := lab.1, index := lab.2,
    value := BitVec.ofNat 64 (rdT e.g (e.lty l) l d), replay := e.grp.replay, acks := [(op, i)],
    loc := .toCore e.core, since := e.s.sys.cycle, core := e.core }

/-- CONTRIB and CONTRIBN (R268). Partials to a peer go out at STORE_ACK. -/
def contribInstr (named : Bool) (d a b : Byte) (s : State) : Host.Outcome State Fault Refusal :=
  issue s
    (fun e => (legal e fun k => (e.ty k == 2 || e.ty k == 4 || e.ty k == 5) && srcOk e.n (e.ty k) d
        && declOk e.n a && pairOk e.n b).and ((clsRoom e fun _ => .s).and
      (judgeLanes e.active (fun _ => 0) (contribFault e named a b))))
    fun e =>
      let base := e.s.exe.nextId
      let r := opsBody e (fun _ => .s) e.s.mem fun id issue k =>
        mkOp e id issue k .contrib .s 0 (e.ty k) ((e.lanesOf k).map fun l =>
          { barePart l (rd e.g l a) (contribElem e b l) with
            wdata := natLe (rdT e.g (e.lty l) l d) 8
            cmp := BitVec.ofNat 64 (contribLabel named (contribX e b l)) })
      let ps := (e.sls.zipIdx.flatMap fun k =>
        ((e.lanesOf k.1).zipIdx.filter fun l => handleDev (rd e.g l.1 a) == ownDev e.s.sys).map fun l =>
          contribPartial e named d a b (base + 8 + l.1) (base + k.2) l.2 l.1)
      { r with st := { r.st with
          exe := { r.st.exe with nextId := base + 40 }
          ctl := { r.st.ctl with partials := r.st.ctl.partials ++ ps } } }

def execContrib (d a b : BitVec 8) (s : State) : Host.Outcome State Fault Refusal :=
  contribInstr false d a b s
def execContribn (d a b : BitVec 8) (s : State) : Host.Outcome State Fault Refusal :=
  contribInstr true d a b s

/-- ACCQ (R269): LOAD_COMPLETE reads the values. -/
def execAccq (d a b : BitVec 8) (s : State) : Host.Outcome State Fault Refusal :=
  issue s
    (fun e => (legal e fun _ => declOk e.n d && declOk e.n a && declOk e.n b).and
      ((clsRoom e fun _ => .l).and (judgeLanes e.active (fun _ => 0) fun l =>
        if 3 < rd e.g l b then some .illegalOp else none)))
    fun e => opsBody e (fun _ => .l) e.s.mem fun id issue k =>
      mkOp e id issue k .accq .l d.toNat 1
        ((e.lanesOf k).map fun l => barePart l (rd e.g l a) (rd e.g l b))

/-- The value ACCQ reads (R269). -/
def accqValue (s : State) (c : Ctx) (h sel : Nat) : Nat :=
  let a := accSlot c (handleSlot h)
  if noHandle h ∨ handleDev h ≠ ownDev s.sys ∨ a.gen ≠ handleGen h ∨ a.state = .free then 0
  else if sel = 0 then (if a.state = .armed then 1 else 2)
  else if sel = 1 then vaNat s c (a.desc.toNat + 0x38) 4
  else if sel = 2 then vaNat s c (a.desc.toNat + 0x30) 4
  else vaNat s c (a.desc.toNat + 0x3C) 4

/-- ACCDROP (R270): the slot becomes DROPPING; each home drops at ACCDROP_AT_HOME. -/
def execAccdrop (a : BitVec 8) (s : State) : Host.Outcome State Fault Refusal :=
  issue s
    (fun e => (legal e fun _ => declOk e.n a).and ((clsRoom e fun _ => .s).and
      (onLane e fun l => if (liveAcc (ownDev e.s.sys) e.ctx (rd e.g l a)).isNone
        then some (.illegalOp, 0) else none)))
    fun e =>
      let r := opsBody e (fun _ => .s) e.s.mem fun id issue k =>
        mkOp e id issue k .accdrop .s 0 0
          (e.active.take 1 |>.map fun l => barePart l (rd e.g l a) 0)
      match e.active with
      | [] => r
      | l :: _ =>
        let cs := modCtx r.st.ctl.ctxs e.kern.part e.kern.ctx fun c =>
          let x := accSlot c (handleSlot (rd e.g l a))
          putSlot c { x with state := .dropping, purged := [] }
        { r with st := { r.st with ctl := { r.st.ctl with ctxs := cs } } }

/-- Whether the drop an ACCDROP started is complete (R270). -/
def dropDone (c : Ctx) (h : Nat) : Bool :=
  let a := accSlot c (handleSlot h)
  !(a.state == .dropping && a.gen == handleGen h)

/-- The homes of the device: 48 slices on each of eight dies. -/
def homeCount : Nat := 384

/-- ACCDROP_AT_HOME: one home discards the accumulator's held partials; after the last, the slot is FREE
(R265, R270). -/
def execAccdropAtHome (part ctx slot home : Nat) (s : State) : Host.Outcome State Fault Refusal :=
  match findCtx s.ctl.ctxs part ctx with
  | none => .next s
  | some c =>
    let a := accSlot c slot
    let rooted := s.ctl.partials.any fun p => p.part == part && p.ctx == ctx && p.loc == .rooted home
      && handleSlot p.handle.toNat == slot
    if a.state == .dropping && decide (home < homeCount) && !a.purged.contains home && !rooted then
      let mine := fun (p : Partial) => p.part == part && p.ctx == ctx && p.loc == .heldHome home
        && handleSlot p.handle.toNat == slot && handleGen p.handle.toNat == a.gen
      let purged := home :: a.purged
      let all := (List.range homeCount).all fun h =>
        purged.contains h || s.sys.lostDies.contains (h / 48)
      let a' := { a with purged := if all then [] else purged,
                         state := if all then .free else .dropping }
      .next { s with ctl := { s.ctl with
        partials := s.ctl.partials.filter fun p => !mine p
        ctxs := modCtx s.ctl.ctxs part ctx fun x => putSlot x a' } }
    else .next s

/-! ## Buffers on the way (R273, R274) -/

/-- The states of a context in which its partials go on; in HALTING and HALTED nothing is formed
(R265, R73). -/
def formsNodes (c : Ctx) : Bool :=
  c.state == .runnable || c.state == .running || c.state == .parked || c.state == .debugStopped

/-- Whether `q` is the sibling of `p` (R273). -/
def isSibling (p q : Partial) : Bool :=
  q.part == p.part && q.ctx == p.ctx && q.handle == p.handle && q.elem == p.elem
    && q.level == p.level && q.index == Nat.xor p.index 1

/-- The parent that a partial forms with its sibling, normalised (R274). -/
def pairUp (fmt n : Nat) (p q : Partial) : Partial :=
  let v := if p.index % 2 = 0 then accAdd fmt p.value.toNat q.value.toNat
    else accAdd fmt q.value.toNat p.value.toNat
  let lab := normalise n (p.level + 1) (p.index / 2)
  { p with level := lab.1, index := lab.2, value := BitVec.ofNat 64 v, acks := p.acks ++ q.acks,
           replay := p.replay || q.replay, kerns := q.kern :: (p.kerns ++ q.kerns),
           tags := p.tags ++ q.tags }

/-- The partials with the oldest of those at `loc` forwarded on its own way, where `cap` are held there. -/
def makeRoom (ps : List Partial) (loc : PLoc) (fwd : Partial → PLoc) (cap : Nat) : List Partial :=
  if (ps.filter fun q => q.loc == loc).length < cap then ps
  else
    match ps.find? fun q => q.loc == loc with
    | none => ps
    | some o => modIf ps (fun q => q.id == o.id) fun q => { q with loc := fwd q }

/-- A partial arrives in a buffer: it pairs, is held, or is forwarded (R274); the partials held there stand
in order of arrival. The count is of pairings made. -/
def bufferArrive (a : AccSlot) (loc : PLoc) (fwd : Partial → PLoc) (cap now : Nat) :
    (fuel : Nat) → List Partial → Partial → Nat → List Partial × Nat
  | 0, ps, p, k => (ps ++ [{ p with loc := fwd p }], k)
  | f + 1, ps, p, k =>
    if p.level = treeTop a.nleaf then (ps ++ [{ p with loc := fwd p }], k)
    else
      match ps.find? fun q => q.loc == loc && !q.replay && isSibling p q with
      | some q =>
        bufferArrive a loc fwd cap now f (ps.filter fun x => x.id != q.id) (pairUp a.fmt a.nleaf p q)
          (k + 1)
      | none => (makeRoom ps loc fwd cap ++ [{ p with loc := loc, since := now }], k)

/-- How far along its path a partial stands. -/
def PLoc.rank : PLoc → Nat
  | .toCore _ => 0
  | .heldCore _ => 1
  | .toPort _ => 2
  | .heldPort _ => 3
  | .toHome => 4
  | .heldHome _ => 5
  | .rooted _ => 6

/-- Partials of one element and label keep the order in which they were sent (R268, R277): whether none sent
before `p` stands at or behind its place. -/
def inTurn (ps : List Partial) (p : Partial) : Bool :=
  ps.all fun q => !(decide (q.id < p.id) && q.part == p.part && q.ctx == p.ctx && q.handle == p.handle
    && q.elem == p.elem && q.level == p.level && q.index == p.index && decide (q.loc.rank ≤ p.loc.rank))

/-- The mesh switch port nearest an element's home: the port of the core stop there (log 12). -/
def portOf (s : State) (c : Ctx) (a : AccSlot) (e : Nat) : Nat :=
  match xlate s 0 c (elemVa a e) 0 with
  | .ok x => homeDie (paOff x.pa) * 24 + sliceOf (frameOf (paOff x.pa)) / 2
  | .error _ => 0

/-- PARTIAL_AT_BUFFER: a core's or a port's buffer takes an arriving partial (R274). -/
def execPartialAtBuffer (p : Nat) (s : State) : Host.Outcome State Fault Refusal :=
  match s.ctl.partials.find? fun x => x.id == p with
  | none => .next s
  | some x =>
    match findCtx s.ctl.ctxs x.part x.ctx with
    | none => .next s
    | some c =>
      let a := accSlot c (handleSlot x.handle.toNat)
      let live := a.gen == handleGen x.handle.toNat && a.state != .free
      let rest := s.ctl.partials.filter fun q => q.id != p
      let toPort := fun (q : Partial) => match findCtx s.ctl.ctxs q.part q.ctx with
        | some d => PLoc.toPort (portOf s d (accSlot d (handleSlot q.handle.toNat)) q.elem)
        | none => .toHome
      let go := fun (loc : PLoc) (fwd : Partial → PLoc) (cap : Nat) =>
        if x.replay || !live then (rest ++ [{ x with loc := fwd x }], 0)
        else bufferArrive a loc fwd cap s.sys.cycle 28 rest x 0
      if !formsNodes c || !inTurn s.ctl.partials x then .next s
      else
        match x.loc with
        | .toCore k =>
          let r := go (.heldCore k) toPort 128
          let ctl := (List.range r.2).foldl (fun t _ => perfBump t x.part x.ctx k 6)
            { s.ctl with partials := r.1 }
          .next { s with ctl := ctl }
        | .toPort k => .next { s with ctl := { s.ctl with partials := (go (.heldPort k) (fun _ => .toHome) 32).1 } }
        | _ => .next s

/-- PARTIAL_FORWARD_TIMEOUT: a partial held longer than 64 cycles in a core, or 32 mesh cycles in a port,
is forwarded (R274). -/
def execPartialForwardTimeout (held : Nat) (s : State) : Host.Outcome State Fault Refusal :=
  match s.ctl.partials.find? fun x => x.id == held with
  | none => .next s
  | some x =>
    match findCtx s.ctl.ctxs x.part x.ctx with
    | none => .next s
    | some c =>
      let a := accSlot c (handleSlot x.handle.toNat)
      let move := fun (l : PLoc) => { s with ctl := { s.ctl with
        partials := modIf s.ctl.partials (fun q => q.id == held) fun q => { q with loc := l } } }
      let may := formsNodes c && inTurn s.ctl.partials x
      match x.loc with
      | .heldCore _ =>
        if may && decide (64 < s.sys.cycle - x.since) then
          .next (move (.toPort (portOf s c a x.elem)))
        else .next s
      | .heldPort _ =>
        if may && decide (32 < 2 * (s.sys.cycle - x.since)) then .next (move .toHome)
        else .next s
      | _ => .next s

/-! ## The home sequence (R275, R276) -/

/-- The stop record of a home slice (R76, R277). -/
def homeRec (s : State) (p : Partial) (home : Nat) (code : FaultCode) : FaultRec :=
  { part := p.part, ctx := p.ctx, code := some code, kind := 5, die := home / 48, unit := home % 48,
    exact := false,
    kord := ((s.ctl.kernels[p.kern]?).map Kernel.ord).getD 0,
    detail := detailAt 0x40 p.handle.toNat 4 ++ detailAt 0x48 p.elem 4
      ++ detailAt 0x50 (labelWord p.level p.index) 4,
    cycle := s.sys.cycle, ptp := s.sys.ptp }

/-- The operations' parts that waited for a partial acknowledged (R268). -/
def ackPartial (m : Mem) (acks : List (Nat × Nat)) : Mem :=
  acks.foldl (fun m x =>
    let f := fun (o : MemOp) => setPart o x.2 fun r => { r with acked := true, performed := true }
    { m with ops := modIf m.ops (fun o => o.id == x.1) f }) m

/-- A partial past step 1 of R275 acknowledged: to the operations that wait for it, and to the peers in class
ACK (R268, R338). -/
def ackHome (s : State) (p : Partial) : State :=
  p.tags.foldl (fun s t => answerTo s t.1 t.2 2 [] 0) { s with mem := ackPartial s.mem p.acks }

/-- The engine that writes the root of a partial. -/
def rootWriter (p : Partial) : Writer := .engine (2 * p.id)

/-- The completion event of a root raised, where the accumulator has one; it is released after the root, so it waits
for the acknowledgement of the root's write (R275, R276). -/
def rootEvent (s : State) (c : Ctx) (a : AccSlot) (p : Partial) (home : Nat) : State :=
  if a.event = 0 then s
  else if writerWaits s.mem (rootWriter p) then
    { s with ctl := { s.ctl with partials := s.ctl.partials ++ [{ p with loc := .rooted home, acks := [], tags := [] }] } }
  else vaBump s c a.event.toNat 8 1

/-- The root written and counted (R275, R276). -/
def rootWrite (s : State) (c : Ctx) (a : AccSlot) (p : Partial) (home : Nat) : State :=
  let s := vaPutFor s (rootWriter p) c (elemVa a p.elem) (accSize a.fmt) p.value.toNat
  rootEvent (vaBump s c (a.desc.toNat + 0x38) 4 1) c a p home

/-- A spill of the partial being formed (R263, R275). -/
def spillIn (s : State) (c : Ctx) (a : AccSlot) (p : Partial) (home : Nat) : State :=
  let used := vaNat s c (a.desc.toNat + 0x3C) 4
  let lab := labelWord p.level p.index
  match if used = a.cap then none else spillFree s c a a.cap (spillHome a p.elem lab) with
  | none => addFault s (homeRec s p home .spillOverflow)
  | some i =>
    let v := if a.fmt = 0 then p.value.toNat % 2 ^ 32 else p.value.toNat
    let s := spillPut s c a i (v + 2 ^ 64 * (p.elem + 1) + 2 ^ 96 * lab)
    let s := vaBump s c (a.desc.toNat + 0x3C) 4 1
    { s with ctl := perfBump s.ctl p.part p.ctx p.core 7 }

/-- Whether a home buffer has no entry for a context's next partial (R275). -/
def homeFull (s : State) (c : Ctx) (home : Nat) : Bool :=
  let here := s.ctl.partials.filter fun q => q.loc == .heldHome home
  decide (256 ≤ here.length) ||
    decide (c.desc.pbufQuota ≤ (here.filter fun q => q.part == c.part && q.ctx == c.cid).length)

/-- The loop of R275 for the node `p`, whose leaves are marked. -/
def homeLoop (c : Ctx) (a : AccSlot) (home : Nat) : (fuel : Nat) → State → Partial → State
  | 0, s, _ => s
  | f + 1, s, p =>
    if p.level = treeTop a.nleaf then rootWrite s c a p home
    else
      match s.ctl.partials.find? fun q => q.loc == .heldHome home && isSibling p q with
      | some q =>
        let rest := s.ctl.partials.filter fun x => x.id != q.id
        homeLoop c a home f { s with ctl := { s.ctl with partials := rest } } (pairUp a.fmt a.nleaf p q)
      | none =>
        let sib := labelWord p.level (Nat.xor p.index 1)
        match spillFind s c a p.elem sib a.cap (spillHome a p.elem sib) with
        | some i =>
          let q := { p with index := Nat.xor p.index 1, acks := [],
                            value := BitVec.ofNat 64 (spillEntry s c a i) }
          let s := vaBump (spillRemove s c a i) c (a.desc.toNat + 0x3C) 4 (-1)
          homeLoop c a home f s (pairUp a.fmt a.nleaf p q)
        | none =>
          if homeFull s c home then spillIn s c a p home
          else
            let h := { p with loc := .heldHome home, acks := [], tags := [] }
            { s with ctl := { s.ctl with partials := s.ctl.partials ++ [h] } }

/-- The sequence of R275 for a partial taken out of the list. -/
def homeSequence (s : State) (c : Ctx) (p : Partial) (home : Nat) : State :=
  match liveAcc (ownDev s.sys) c p.handle.toNat with
  | none => ackHome s p
  | some a =>
    let lo := labelLo p.level p.index
    let hi := labelHi a.nleaf p.level p.index
    let old := leafBits s c a p.elem lo hi
    if old = 2 ^ (hi - lo) - 1 then
      let s := vaBump s c (a.desc.toNat + 0x30) 8 1
      if a.flags.testBit 0 then addFault s (homeRec s p home .dupMismatch)
      else ackHome s p
    else if old ≠ 0 then addFault s (homeRec s p home .dupMismatch)
    else
      let s := setLeaves s c a p.elem lo hi
      homeLoop c a home 28 (ackHome s p) { p with tags := [] }

/-- PARTIAL_AT_HOME: the home slice of the element performs R275. While a transaction stands on the element's grain
the partial waits (R326); a partial whose root is written raises its event. -/
def execPartialAtHome (p : Nat) (s : State) : Host.Outcome State Fault Refusal :=
  match s.ctl.partials.find? fun x => x.id == p with
  | none => .next s
  | some x =>
    match findCtx s.ctl.ctxs x.part x.ctx with
    | none => .next s
    | some c =>
      let a := accSlot c (handleSlot x.handle.toNat)
      let pa := match xlate s 0 c (elemVa a x.elem) 0 with
        | .ok t => paOff t.pa
        | .error _ => 0
      let home := homeDie pa * 48 + sliceOf (frameOf pa)
      let rest := { s with ctl := { s.ctl with partials := s.ctl.partials.filter fun q => q.id != p } }
      match x.loc with
      | .toHome =>
        .next (if formsNodes c && inTurn s.ctl.partials x && !txnBusy s.mem pa && homeUp s pa then
          homeSequence rest c x home else s)
      | .rooted h => .next (if writerWaits s.mem (rootWriter x) then s else rootEvent rest c a x h)
      | _ => .next s

end Sys2Proof.Machine
end

