-- ==== Sys2Proof/Machine/CopyUnit.lean ====
section
/-! DEFINITION. CopyUnit.lean: COPY, COPYG and COPYC and the later steps of their copies (R250 to R257,
R271, R272, R225). -/

namespace Sys2Proof.Machine

/-! ## Descriptors (R251, R256, R271) -/

/-- Word `i` of the descriptor in the O registers from `a` in lane `l`. -/
def descWord (e : Iss) (a : Byte) (l i : Nat) : Nat :=
  (smGet e.g.regs (regKey l (a.toNat + i))).toNat

/-- The words of a row of `len` bytes, by their byte offsets. -/
def rowWords (len : Nat) : List Nat := (List.range (len / 4)).map fun i => 4 * i

/-- The storage offset of byte `i` of the row at window offset `off` (R184). -/
def winByte (off i : Nat) : Nat := lmStore (off.testBit 30) (bits off 21 0 + i)

/-- A row's window range lies in the window and its offset has no reserved bit set (R183). -/
def winOk (lmem off len : Nat) : Bool :=
  decide (off < 2 ^ 31) && bits off 29 22 == 0 &&
    (rowWords len).all fun i => decide (winByte off i + 4 ≤ lmem) && decide (bits off 21 0 + i < 2 ^ 22)

/-- The storage cells a row of the window touches. -/
def winCells (off len : Nat) : List Nat := uniq ((rowWords len).map fun i => winByte off i / 32)

/-- A stop record of the copy unit (R76, R254): the four O words, and the cells landed at 0x50. -/
def copyRec (s : State) (c : Copy) (code : Option FaultCode) (info : Nat) (exact : Bool) : FaultRec :=
  { part := c.part, ctx := c.ctx, code := code, kind := 2, die := coreDie c.core, unit := coreUnit c.core,
    exact := exact, pc := c.pc.zeroExtend 64, info := BitVec.ofNat 64 info,
    kord := ((s.ctl.kernels[c.kern]?).map Kernel.ord).getD 0,
    group := ((s.exe.groups[c.grp]?).map Group.lid).getD 0,
    gang := ((s.exe.gangs[c.gang]?).map Gang.idx).getD 0,
    detail := detailAt 0x40 (c.owords.zipIdx.map fun w => w.1.toNat * 2 ^ (32 * w.2)).sum 16
      ++ detailAt 0x50 c.landed 4,
    cycle := s.sys.cycle, ptp := s.sys.ptp }

/-- The window offset of row `r` (R251). -/
def rowOfs (base len r : Nat) : Nat := base + r * len

/-! ## Probing (R254) -/

/-- The pages of a row, each with the physical address of its first byte and its leaf; the failing address of one
that does not translate (R254). -/
def probeRow (s : State) (at_ : Nat) (c : Ctx) (va len need : Nat) :
    Except (FaultCode × Nat) (List (Nat × Nat × Nat)) :=
  if 2 ^ 56 < va + len then .error (.xlateFault, if va < 2 ^ 56 then 2 ^ 56 else va)
  else
    (vaPages va len).foldr (fun p acc =>
      let lo := if p * 2 ^ 16 < va then va else p * 2 ^ 16
      let hi := if va + len < (p + 1) * 2 ^ 16 then va + len else (p + 1) * 2 ^ 16
      match xlate s at_ c lo need with
      | .error f => .error (f, lo)
      | .ok x =>
        if need == needW && boundHeader s.ctl.queues x.pa (hi - lo) then .error (.permFault, lo)
        else
          match acc with
          | .error f => .error f
          | .ok l => .ok ((p, x.pa - (lo - p * 2 ^ 16), x.leaf) :: l)) (.ok [])

/-- The pages of every row. -/
def probeRows (s : State) (at_ : Nat) (c : Ctx) (len need : Nat) :
    List (Option Nat) → Except (FaultCode × Nat) (List (Nat × Nat × Nat))
  | [] => .ok []
  | none :: t => probeRows s at_ c len need t
  | some va :: t =>
    match probeRow s at_ c va len need with
    | .error f => .error f
    | .ok l =>
      match probeRows s at_ c len need t with
      | .error f => .error f
      | .ok m => .ok (l ++ m)

/-- The barrier's check at probe: it lies in the window and no destination byte lies in it (R254). -/
def probeBar (lmem : Nat) (bar : Option Nat) (dst : List Nat) (len : Nat) :
    Option (FaultCode × Nat) :=
  match bar with
  | none => none
  | some b =>
    if !barOfsOk lmem b then some (.lmRange, b)
    else if dst.any fun off => (rowWords len).any fun i =>
        decide (b < winByte off i + 4) && decide (winByte off i < b + 16) then some (.lmRange, b)
    else none

/-- The first failing element of a list under a check. -/
def firstBad (l : List Nat) (ok : Nat → Bool) (code : FaultCode) : Option (FaultCode × Nat) :=
  (l.find? fun x => !ok x).map fun x => (code, x)

/-- A copy of COPY or COPYG with its descriptor read, before its pages are known. -/
def rawCopy (e : Iss) (kind : CopyKind) (a : Byte) (nobar : Bool) (l id : Nat) : Copy :=
  let w := descWord e a l
  let lo := w 0
  let hi := bits (w 1) 23 0
  { id := id, issue := e.s.exe.nextId, core := e.core, grp := e.g.grp, gang := e.gi, slice := l / 4,
    part := e.kern.part, ctx := e.kern.ctx, kern := e.grp.kern, pc := e.pc, kind := kind, queued := true,
    owords := (List.range 4).map fun i => BitVec.ofNat 32 (w i),
    gaddr := BitVec.ofNat 64 (lo + hi * 2 ^ 32), gofs := BitVec.ofNat 32 lo,
    lofs := BitVec.ofNat 32 (w 2), rows := w 1 / 2 ^ 24 + 1, len := w 3 % 2 ^ 14 + 1,
    bar := if nobar then none else some (16 * (w 3 / 2 ^ 14)), replay := e.grp.replay }

/-- The destination window offsets of the rows, for a copy that writes the window. -/
def dstRows (c : Copy) : List Nat :=
  let base := if c.kind = .l2l then c.gofs.toNat else c.lofs.toNat
  if c.kind = .l2g then [] else (List.range c.rows).map fun r => rowOfs base c.len r

/-- The source window offsets of the rows, for a copy that reads the window. -/
def srcRows (c : Copy) : List Nat :=
  if c.kind = .l2g ∨ c.kind = .l2l then (List.range c.rows).map fun r => rowOfs c.lofs.toNat c.len r
  else []

/-- The cells of a copy still to land, as (row, cell) (R253). -/
def copyCells (c : Copy) : List (Nat × Nat) :=
  (List.range c.rows).flatMap fun r =>
    if c.kind = .l2g then
      let va := ((nth c.rowVa r none).getD 0).toNat
      (List.range ((va + c.len - 1) / 32 + 1 - va / 32)).map fun j => (r, va / 32 + j)
    else (winCells (nth (dstRows c) r 0) c.len).map fun x => (r, x)

/-- The probe of a copy whose rows lie at `vas` with stride `stride` (R254). -/
def probeCopy (e : Iss) (c : Copy) (stride : Int) (vas : List (Option Nat)) :
    Except (FaultCode × Nat) Copy :=
  let lmem := e.kern.pkt.lmem
  if c.len % 4 ≠ 0 ∨ stride % 4 ≠ 0 then .error (.illegalOp, 0)
  else if c.gaddr.toNat % 4 ≠ 0 ∨ (c.kind = .l2l ∧ 2 ^ 32 ≤ c.gaddr.toNat) then
    .error (.illegalOp, c.gaddr.toNat)
  else if c.lofs.toNat % 4 ≠ 0 then .error (.illegalOp, c.lofs.toNat)
  else
    match firstBad (srcRows c ++ dstRows c) (fun off => winOk lmem off c.len) .lmRange with
    | some f => .error f
    | none =>
      match probeBar lmem c.bar (dstRows c) c.len with
      | some f => .error f
      | none =>
        match probeRows e.s (coreAt e.core) e.ctx c.len (if c.kind = .l2g then needW else needR) vas with
        | .error f => .error f
        | .ok pages =>
          let c := { c with pages := pages, rowVa := vas.map (Option.map (BitVec.ofNat 64)) }
          .ok { c with left := copyCells c }

/-- COPY's stride in lane `l`: register d, or the row length where d is ZERO (R251). -/
def copyStride (e : Iss) (d : Byte) (c : Copy) (l : Nat) : Int :=
  if d.toNat = 249 then (c.len : Int) else signed (rd e.g l d) 32

/-- The address of row `r` at stride `z` from GADDR, modulo 2^64. -/
def rowAddr (c : Copy) (z : Int) : Nat := wrap ((c.gaddr.toNat : Int) + z) 64

/-- COPY in lane `l`, probed (R251, R254). -/
def copyLane (e : Iss) (kind : CopyKind) (d a : Byte) (nobar : Bool) (l id : Nat) :
    Except (FaultCode × Nat) Copy :=
  let c := rawCopy e kind a nobar l id
  let z := copyStride e d c l
  probeCopy e c z (if kind = .l2l then []
    else (List.range c.rows).map fun (r : Nat) => some (rowAddr c ((r : Int) * z)))

/-- COPYG in lane `l`, probed (R256). -/
def gatherLane (e : Iss) (d a : Byte) (nobar : Bool) (l id : Nat) : Except (FaultCode × Nat) Copy :=
  let c := rawCopy e .gather a nobar l id
  let idx := rd e.g l d
  if idx.testBit 30 ∨ idx % 4 ≠ 0 then .error (.illegalOp, idx)
  else if !winOk e.kern.pkt.lmem idx (4 * (c.rows + 1)) then .error (.lmRange, idx)
  else
    let word := fun (j : Nat) => leNat (smRun e.grp.window (bits idx 21 0 + 4 * j) 4)
    let z := signed (word 0) 32
    probeCopy e c z ((List.range c.rows).map fun r =>
      if word (r + 1) = 0x80000000 then none else some (rowAddr c (signed (word (r + 1)) 32 * z)))

/-- Whether a format pair has a conversion (R271). -/
def contribPair (fmt acc : Nat) : Bool :=
  fmt == acc || (fmt == 0 && acc == 1) || (fmt == 1 && acc == 0)

/-- COPYC in lane `l`, probed (R271, R272). -/
def tileLane (e : Iss) (d a : Byte) (nobar : Bool) (fmt l id : Nat) : Except (FaultCode × Nat) Copy :=
  let w := descWord e a l
  let label := rdPair e.g l d % 2 ^ 32
  let h := rdPair e.g l d / 2 ^ 32
  let rows := bits (w 3) 13 7 + 1
  let cols := bits (w 3) 6 0 + 1
  let size := accSize fmt
  let c0 := rawCopy e .contrib a nobar l id
  let c := { c0 with lofs := BitVec.ofNat 32 (w 0), rows := rows, cols := cols, len := cols * size,
                     fmt := fmt, handle := BitVec.ofNat 32 h, label := BitVec.ofNat 32 label,
                     e0 := w 1, estride := w 2, gaddr := 0, gofs := 0,
                     left := (List.range rows).map fun r => (r, 0) }
  match liveAcc (ownDev e.s.sys) e.ctx h with
  | none => .error (.illegalOp, 0)
  | some acc =>
    if !contribPair fmt acc.fmt ∨ !labelOk acc.nleaf (labelLevel label) (labelIndex label)
        ∨ acc.ecount ≤ w 1 + (rows - 1) * w 2 + (cols - 1) then .error (.illegalOp, 0)
    else if w 0 % size ≠ 0 ∨ (fmt ≠ 0 ∧ (w 0).testBit 30) then .error (.illegalOp, w 0)
    else
      match firstBad ((List.range rows).map fun r => rowOfs (w 0) c.len r)
          (fun off => winOk e.kern.pkt.lmem off c.len) .lmRange with
      | some f => .error f
      | none =>
        match probeBar e.kern.pkt.lmem c.bar [] c.len with
        | some f => .error f
        | none => .ok c

/-! ## Issue (R250) -/

/-- The copies of a core. -/
def coreCopies (s : State) (core : Nat) : List Copy := s.exe.copies.filter fun c => c.core == core

/-- An issue waits for its entries (R250): `n` free entries for up to 16 copies, else an empty queue; and no
issue is accepted while a copy still waits for an entry. A slice whose C counter stands at 63 stalls (R51). -/
def copyRoom (e : Iss) : Judge :=
  let cs := coreCopies e.s e.core
  let n := e.active.length
  let held := (cs.filter Copy.queued).length
  (clsRoom e fun _ => .c).and
    (if cs.any (fun c => !c.queued) then .stall
     else if n ≤ 16 then (if held + n ≤ 16 then .go else .stall)
     else if held = 0 then .go else .stall)

/-- The implicit release at each slice's SCOPE before the copies read (R225): the copy unit reads below the core's
write-through buffer, so stores leave it at every scope. -/
def copyRelease (e : Iss) : Judge :=
  if e.sls.all fun k => relReady (ownDev e.s.sys) e.s.mem.ops (Nat.max scCore (mScope (e.mode k))) e.core e.gi k
      e.s.exe.nextId then .go else .stall

/-- The probed copies of an issue, in ascending lane order; the first failure with its copy. -/
def acceptLanes (f : (l id : Nat) → Except (FaultCode × Nat) Copy) :
    List (Nat × Nat) → Except (FaultCode × Nat × Nat × Nat) (List Copy)
  | [] => .ok []
  | (l, id) :: t =>
    match f l id with
    | .error (c, i) => .error (c, i, l, id)
    | .ok c =>
      match acceptLanes f t with
      | .error x => .error x
      | .ok cs => .ok (c :: cs)

/-- The body of a copy instruction: C rises, and the issue is accepted and probed whole (R250, R254); C falls when
the copy unit says so, at COPY_ENTRY_ASSIGN. A probe failure goes to the hub as the copy unit's record, and no copy
is made. -/
def copyBody (e : Iss) (raw : (l id : Nat) → Copy)
    (f : (l id : Nat) → Except (FaultCode × Nat) Copy) : Eff :=
  let r := opsBody e (fun _ => .c) e.s.mem fun id issue k => mkOp e id issue k .copyAck .c 0 0 []
  let base := r.st.exe.nextId
  let lanes := e.active.zipIdx.map fun p => (p.1, base + p.2)
  let s := { r.st with exe := { r.st.exe with nextId := base + 32 } }
  match acceptLanes f lanes with
  | .error (code, info, l, id) => { r with st := addFault s (copyRec s (raw l id) (some code) info true) }
  | .ok cs =>
    let cs := cs.zipIdx.map fun p => { p.1 with queued := decide (p.2 < 16) }
    { r with st := { s with exe := { s.exe with copies := s.exe.copies ++ cs } } }

/-- COPY (R252): DIR 0 G2L, 1 L2G, 2 L2L. -/
def execCopy (d a : BitVec 8) (n : BitVec 1) (dir : BitVec 2) (s : State) :
    Host.Outcome State Fault Refusal :=
  let kind := if dir = 0 then CopyKind.g2l else if dir = 1 then .l2g else .l2l
  issue s
    (fun e => (legal e fun _ => declOk e.n d && decide (1 ≤ a.toNat) && decide (a.toNat ≤ 4)
        && decide (dir.toNat ≤ 2) && (dir.toNat != 2 || d.toNat == 249)).and
      ((copyRoom e).and (copyRelease e)))
    fun e => copyBody e (rawCopy e kind a (n == 1)) (copyLane e kind d a (n == 1))

/-- COPYG (R256). -/
def execCopyg (d a : BitVec 8) (n : BitVec 1) (s : State) : Host.Outcome State Fault Refusal :=
  issue s
    (fun e => (legal e fun _ => declOk e.n d && decide (1 ≤ a.toNat) && decide (a.toNat ≤ 4)).and
      ((copyRoom e).and (copyRelease e)))
    fun e => copyBody e (rawCopy e .gather a (n == 1)) (gatherLane e d a (n == 1))

/-- COPYC (R271). -/
def execCopyc (d a : BitVec 8) (n : BitVec 1) (f : BitVec 2) (s : State) :
    Host.Outcome State Fault Refusal :=
  issue s
    (fun e => (legal e fun _ => pairOk e.n d && decide (1 ≤ a.toNat) && decide (a.toNat ≤ 4)
        && decide (f.toNat ≤ 2)).and ((copyRoom e).and (copyRelease e)))
    fun e => copyBody e (rawCopy e .contrib a (n == 1)) (tileLane e d a (n == 1) f.toNat)

/-! ## Acceptance (R250, R51) -/

/-- The oldest copy issue of a core whose acceptance has not been counted. -/
def copyIssue (m : Mem) (core : Nat) : Option MemOp := m.ops.find? fun o => o.core == core && o.kind == .copyAck

/-- The C counters of an issue fall (R51). -/
def copyAccepted (s : State) (o : MemOp) : State := (issueOps s.mem o.issue).foldl retireOp s

/-- COPY_ENTRY_ASSIGN: the copy unit has accepted and probed an issue, whose C counters fall; and a later copy of a
large issue takes a freed entry (R250). -/
def execCopyEntryAssign (core : Nat) (s : State) : Host.Outcome State Fault Refusal :=
  match copyIssue s.mem core with
  | some o => .next (copyAccepted s o)
  | none =>
    let cs := coreCopies s core
    match cs.find? fun c => !c.queued with
    | none => .next s
    | some c =>
      if (cs.filter Copy.queued).length < 16 then
        .next { s with exe := { s.exe with
          copies := modIf s.exe.copies (fun x => x.id == c.id) fun x => { x with queued := true } } }
      else .next s

/-! ## Landing (R253, R255) -/

/-- A copy as the one that reads or writes: its requests go the way of a load of its core that wants one cell
(R255). -/
def copyOp (c : Copy) : MemOp :=
  { id := c.id, issue := c.issue, gang := c.gang, slice := c.slice, core := c.core, part := c.part, ctx := c.ctx,
    kern := c.kern, kind := .load, cls := .none, order := 0, scope := 0, span := 1, parts := [] }

/-- The part of a copy's access at a virtual address, by the copy's probed pages. -/
def copyPart (c : Copy) (va : Nat) : MemPart :=
  let x := ((c.pages.find? fun p => p.1 == va / 2 ^ 16).map Prod.snd).getD (0, 0)
  { lane := 0, va := BitVec.ofNat 64 va, pa := x.1 + va % 2 ^ 16, len := 32, leaf := x.2 }

/-- Whether a copy goes on: it holds an entry and has not stopped; under a fatal halt it goes to the next boundary of
a 512-byte beat, sixteen cells (R73, R257), and under a debug stop to its end (R88). -/
def copyGoes (s : State) (c : Copy) : Bool :=
  c.queued && !c.stopped && (match findCtx s.ctl.ctxs c.part c.ctx with
    | some x => !fatalHalt x || (x.state == .halting && c.kind != .contrib && c.landed % 16 != 0)
    | none => false)

/-- The copy with one cell landed; a copy with nothing left gives its entry up. -/
def copyLanded (s : State) (c : Copy) (i : Nat) : State :=
  let at_ := nth c.left i (0, 0)
  let c' := { c with left := c.left.eraseIdx i, sent := c.sent.filter fun x => x != at_, landed := c.landed + 1 }
  { s with exe := { s.exe with
      copies := if c'.left.isEmpty then s.exe.copies.filter fun x => x.id != c.id
        else modIf s.exe.copies (fun x => x.id == c.id) fun _ => c' } }

/-- A cell of a copy whose request is on its way. -/
def copySent (s : State) (c : Copy) (at_ : Nat × Nat) : State :=
  { s with exe := { s.exe with
      copies := modIf s.exe.copies (fun x => x.id == c.id) fun x => { x with sent := at_ :: x.sent } } }

/-- A fault of a copy after its probe: its record goes to the hub and it stops (R239). -/
def copyFault (s : State) (c : Copy) (code : FaultCode) (info : Nat) : State :=
  addFault { s with exe := { s.exe with
      copies := modIf s.exe.copies (fun x => x.id == c.id) fun x => { x with stopped := true } } }
    (copyRec s c (some code) info false)

/-- The count of a landed cell or a read row into the copy's barrier (R253, R272). -/
def copyCount (s : State) (c : Copy) (i : Nat) : State :=
  match c.bar with
  | none => copyLanded s c i
  | some b =>
    match barUpdate (barRead (((s.exe.groups[c.grp]?).map Group.window).getD []) b) (-1) 0 with
    | none => copyFault s c .barrierMisuse b
    | some x => copyLanded (modWindow s c.grp fun w => barWrite w b x) c i

/-- The words of row `r` that lie in the cell `x` of a copy's destination. -/
def cellWords (c : Copy) (r x : Nat) : List Nat :=
  (rowWords c.len).filter fun i =>
    if c.kind = .l2g then (((nth c.rowVa r none).getD 0).toNat + i) / 32 == x
    else winByte (nth (dstRows c) r 0) i / 32 == x

/-- The global cells, by their virtual addresses, that a cell of the window takes its bytes from. -/
def copySources (c : Copy) (r x : Nat) : List Nat :=
  match nth c.rowVa r none with
  | none => []
  | some va => uniq ((cellWords c r x).map fun i => (va.toNat + i) / 32 * 32)

/-- A global cell as the tiers below L1 give it to a copy; none while a request for it must wait (R255). -/
def copyCell (s : State) (c : Copy) (va : Nat) : Option (BitVec 256) :=
  belowCell s (copyOp c) (copyPart c va) (copyPart c va).pa

/-- The cell `x` of row `r` of a copy into the window lands; `cell` gives the global cells it reads. -/
def landWindow (s : State) (c : Copy) (r x : Nat) (cell : Nat → BitVec 256) : State :=
  let off := nth (dstRows c) r 0
  let src := nth (srcRows c) r 0
  modWindow s c.grp fun w =>
    (cellWords c r x).foldl (fun w i =>
      let bs := if c.kind = .l2l then smRun w (winByte src i) 4
        else match nth c.rowVa r none with
          | none => natLe 0 4
          | some va => cellBytes (cell ((va.toNat + i) / 32 * 32)) ((va.toNat + i) % 32) 4
      smPut w (winByte off i) bs) w

/-- A cell that a copy reads at its home: a modified copy is recalled and the home slice takes the cell (R182,
R326). -/
def copyAtHome (s : State) (c : Copy) (va : Nat) : State :=
  let p := copyPart c va
  let off := paOff p.pa
  if paLocal (ownDev s.sys) p.pa && servedAtHome s (copyOp c) p then
    homeAlloc (homeRecall s none off 32) (frameOf off) [cellIn off] false false (leafPolicy p.leaf) (leafWayp p.leaf)
  else s

/-- A request for a missing cell of this device's memory: its grain is read into the local slice (R187, R193). -/
def copyRead (s : State) (c : Copy) (va : Nat) : State :=
  let p := copyPart c va
  let off := paOff p.pa
  if servedAtHome s (copyOp c) p || !homeUp s off then s
  else readRange s (coreDie c.core) ⟨c.part, c.ctx, leafPolicy p.leaf⟩ (leafWayp p.leaf) (frameOf off) (leafGrain p.leaf)
    (cellIn off, cellIn off)

/-- The READs of a copy for the peers' cells that a cell of the window needs, all sent at once. -/
def copyAsk (s : State) (c : Copy) (at_ : Nat × Nat) (vas : List Nat) : State :=
  let ok := vas.all fun v => let pa := (copyPart c v).pa; canSend s.sys (paDev pa) (frameOf (paOff pa)) 0
  if !ok then s
  else copySent (vas.foldl (fun s v => let pa := (copyPart c v).pa
    sendReq s c.part (paDev pa) c.id 0 (v / 32) (.read (paOff pa) 32)) s) c at_

/-- A peer's answer to one READ of a copy, beside the cells answered before (log 14, R337). -/
def copyAnswer (c : Copy) (acc : State × List (Nat × BitVec 256)) (va : Nat) : State × List (Nat × BitVec 256) :=
  let p := copyPart c va
  let k := cellIn (paOff p.pa)
  let s := ackReq acc.1 c.id (some (va / 32))
  (peerFill s (copyOp c) p (k, k), acc.2 ++ [(va, peerCell s.exe.fresh k)])

/-- A cell of a copy into the window: it lands where every source cell can be had; else what is missing is asked
for. -/
def copyIn (s : State) (c : Copy) (i : Nat) (at_ : Nat × Nat) : State :=
  let vas := copySources c at_.1 at_.2
  let missing := vas.filter fun v => (copyCell s c v).isNone
  match missing, missing.filter fun v => !paPeer s (copyPart c v).pa with
  | [], _ =>
    let t := vas.foldl (fun s v => copyAtHome s c v) s
    copyCount (landWindow t c at_.1 at_.2 fun v => (copyCell s c v).getD 0) c i
  | _, v :: _ => copyRead s c v
  | vs, [] =>
    match vs.find? fun v => peerGone s (copyPart c v).pa with
    | some v => copyFault s c .linkLoss v
    | none =>
      if c.sent.contains at_ then
        if !vs.all fun v => answerable s.sys c.id (some (v / 32)) then s else
        let r := vs.foldl (copyAnswer c) (s, [])
        let cell := fun (v : Nat) => match r.2.find? fun x => x.1 == v with
          | some x => x.2
          | none => (copyCell s c v).getD 0
        copyCount (landWindow r.1 c at_.1 at_.2 cell) c i
      else copyAsk s c at_ vs

/-- The L1 blocks of the issuing core that hold a written cell dropped, and a peer's leased grain (R255, R337). -/
def copyDrops (s : State) (c : Copy) (p : MemPart) : State :=
  let m := if paPeer s p.pa then storePartL1 (ownDev s.sys) c.core s.mem p else s.mem
  { s with mem := l1Drop m fun b => b.core == c.core && b.frame == paFrame p.pa
      && decide (b.start ≤ p.pa / 32 % 16) && decide (p.pa / 32 % 16 < b.start + b.cells.length) }

/-- A cell of a copy out of the window: written at its home, and counted when the home has acknowledged the write
(R253, R255). A write to a lost peer is lost (R336). -/
def copyOut (s : State) (c : Copy) (i : Nat) (at_ : Nat × Nat) : State :=
  let va := ((nth c.rowVa at_.1 none).getD 0).toNat
  let is := cellWords c at_.1 at_.2
  let p := copyPart c (va + is.headD 0)
  let off := paOff p.pa
  let bs := is.flatMap fun j => smRun (((s.exe.groups[c.grp]?).map Group.window).getD [])
    (winByte (nth (srcRows c) at_.1 0) j) 4
  let note := 256 * at_.2 + at_.1
  if c.sent.contains at_ then
    if paPeer s p.pa then if !answerable s.sys c.id (some note) then s else copyCount (ackReq s c.id (some note)) c i
    else if writerWaits s.mem (.copy c.id) then s else copyCount s c i
  else if paPeer s p.pa then
    if peerGone s p.pa then copyCount (noteLoss s (copyOp c)) c i
    else if canSend s.sys (paDev p.pa) (frameOf off) 0 then
      copySent (sendReq (copyDrops s c p) c.part (paDev p.pa) c.id 0 note (.write off bs)) c at_
    else s
  else if paLocal (ownDev s.sys) p.pa && (txnBusy s.mem off || !homeUp s off) then s
  else
    let t := copyDrops (engineWrite s (.copy c.id) p.leaf p.pa bs) c p
    if writerWaits t.mem (.copy c.id) then copySent t c at_ else copyCount t c i

/-- COPY_CELL_LAND: one of the cells still to land does, and counts into the copy's barrier (R253). -/
def execCopyCellLand (copy cell : Nat) (s : State) : Host.Outcome State Fault Refusal :=
  match s.exe.copies.find? fun c => c.id == copy with
  | none => .next s
  | some c =>
    match c.left[cell]? with
    | none => .next s
    | some at_ =>
      if c.kind == .contrib || !copyGoes s c then .next s
      else .next (if c.kind = .l2g then copyOut s c cell at_ else copyIn s c cell at_)

/-! ## COPYC rows (R271, R272) -/

/-- The conversion of a source value to the accumulator's format (R271). -/
def contribCvt (fmt acc v : Nat) : Nat :=
  if fmt = acc then v
  else if fmt = 0 then (cvtFF F64 0 false (decodeF F32 v)).1
  else (cvtFF F32 0 false (decodeF F64 v)).1

/-- The partials of row `r` of a COPYC. -/
def rowPartials (s : State) (c : Copy) (acc : AccSlot) (r : Nat) : List Partial :=
  let w := ((s.exe.groups[c.grp]?).map Group.window).getD []
  let off := rowOfs c.lofs.toNat c.len r
  let lab := normalise acc.nleaf (labelLevel c.label.toNat) (labelIndex c.label.toNat)
  let size := accSize c.fmt
  (List.range c.cols).map fun j =>
    let lo := leNat (smRun w (winByte off (size * j)) 4)
    let hi := if size = 8 then leNat (smRun w (winByte off (size * j + 4)) 4) else 0
    { id := s.exe.nextId + j, part := c.part, ctx := c.ctx, kern := c.kern, handle := c.handle,
      elem := c.e0 + r * c.estride + j, level := lab.1, index := lab.2,
      value := BitVec.ofNat 64 (contribCvt c.fmt acc.fmt (lo + 2 ^ 32 * hi)), replay := c.replay,
      acks := [], loc := .toCore c.core, since := s.sys.cycle, core := c.core }

/-- COPYC_ROW_READ: the next row is read from the window, sent as partials and counted (R272). -/
def execCopycRowRead (copy : Nat) (s : State) : Host.Outcome State Fault Refusal :=
  match s.exe.copies.find? fun c => c.id == copy with
  | none => .next s
  | some c =>
    match c.left, findCtx s.ctl.ctxs c.part c.ctx with
    | (r, _) :: _, some cx =>
      if c.kind != .contrib || !copyGoes s c then .next s
      else
        let ps := rowPartials s c (accSlot cx (handleSlot c.handle.toNat)) r
        .next (copyCount { s with
          exe := { s.exe with nextId := s.exe.nextId + 128 }
          ctl := { s.ctl with partials := s.ctl.partials ++ ps } } c 0)
    | _, _ => .next s

end Sys2Proof.Machine
end

