-- ==== Sys2Proof/Machine/Queue.lean ====
section
/-! DEFINITION. Queue.lean: queue headers and their states (R89 to R93), ENQ and DEQ at a queue's home (R94,
R95) and the host enqueue windows (R100). -/

namespace Sys2Proof.Machine

/-! ## Bytes at a physical address -/

def paBytes (s : State) (pa n : Nat) : List Byte := (List.range n).map fun i => spaceByte s (pa + i)
def paNat (s : State) (pa n : Nat) : Nat := leNat (paBytes s pa n)

/-- A write of bytes by this device at a physical address for a partition: a peer's memory takes it as a packet
(R333), and a lost peer's not at all (R336). -/
def deviceWrite (s : State) (w : Writer) (part leaf pa : Nat) (bs : List Byte) : State :=
  if !paPeer s pa then engineWrite s w leaf pa bs
  else if peerGone s pa then s
  else
    let t := sendReq s part (paDev pa) s.exe.nextId 0 0 (.write (paOff pa) bs)
    { t with exe := { t.exe with nextId := t.exe.nextId + 1 } }

/-- Agent 10 holds what the dispatcher and the host windows have read of a header, a packet or an event (R322). -/
def hubHold (s : State) (leaf pa : Nat) : State :=
  let off := paOff pa
  if paLocal (ownDev s.sys) pa && !txnBusy s.mem off && homeUp s off then
    let s := homeShare s 10 off (leafGrain leaf) 0
    let g := (dirGrow s.mem.dir off (leafGrain leaf)).grain
    { s with mem := { s.mem with hubBuf := g :: s.mem.hubBuf.filter fun x => x != g } }
  else s

/-! ## Headers (R89, R90) -/

/-- The bound queue whose header stands at a physical address. -/
def queueAt (qs : List Queue) (pa : Nat) : Option Queue :=
  qs.find? fun q => q.state != .unbound && q.pa == pa

def queueById (qs : List Queue) (id : Nat) : Option Queue := qs.find? fun q => q.id == id

def qHead (s : State) (q : Queue) : Nat := paNat s q.pa 8
def qTail (s : State) (q : Queue) : Nat := paNat s (q.pa + 8) 8
def qEsize (q : Queue) : Nat := 32 * 2 ^ q.esize
/-- The address of an entry slot (R89). -/
def qSlot (q : Queue) (i : Nat) : Nat := q.base.toNat + i % 2 ^ q.cap * qEsize q

/-- The code of a queue state (R89). -/
def qCode (x : QState) : Nat :=
  match x with
  | .unbound => 0
  | .bound => 1
  | .active => 2
  | .stalled => 3
  | .draining => 4
  | .error => 5

/-- The context that owns a queue. -/
def qOwner (s : State) (q : Queue) : Option Ctx := findCtx s.ctl.ctxs q.part q.ctx

/-- The state with a queue's record changed. -/
def modQueue (s : State) (id : Nat) (f : Queue → Queue) : State :=
  { s with ctl := { s.ctl with queues := modIf s.ctl.queues (fun q => q.id == id) f } }

/-- A number of `n` bytes written in a queue's header at its home, at the offset `o` (R89). -/
def hdrPut (s : State) (w : Writer) (q : Queue) (o n v : Nat) : State :=
  deviceWrite s w q.part q.leaf (q.pa + o) (natLe v n)

/-- A queue enters a state: STATE and ERR written in its header (R89, R91). An UNBOUND queue's header is
ordinary memory again (R90). -/
def setQState (s : State) (q : Queue) (x : QState) (err : Nat) : State :=
  let s := hdrPut s .nobody q 0x1B 1 (qCode x)
  let s := hdrPut s .nobody q 0x1F 1 err
  if x = .unbound then
    { s with ctl := { s.ctl with queues := s.ctl.queues.filter fun y => y.id != q.id } }
  else modQueue s q.id fun y => { y with state := x }

/-- An owner is eligible (R92). -/
def eligible (c : Ctx) : Bool :=
  c.state == .runnable || c.state == .running || (c.state == .parked && !c.parkCmd)

/-- A kernel short of RETIRED or FAILED (R91, R112). -/
def kernLive (k : Kernel) : Bool := k.state != .retired && k.state != .failed

/-- The state a queue moves to by the conditions of R91 and R92, if it moves. -/
def qNext (s : State) (q : Queue) : Option QState :=
  let empty := qHead s q == qTail s q
  let elig := match qOwner s q with
    | some c => eligible c
    | none => false
  match q.state with
  | .draining =>
    if empty && q.taken.isNone && !(s.ctl.kernels.any fun k => k.queue == q.id && kernLive k) then
      some .unbound else none
  | .bound => if q.launch && elig && !empty then some .active else none
  | .active => if !elig || (empty && q.taken.isNone) then some .bound else none
  | .stalled => if !elig then some .bound else none
  | _ => none

/-- Every queue moved by its conditions. -/
def settleQueues (s : State) : State :=
  s.ctl.queues.foldl (fun s q0 =>
    match queueById s.ctl.queues q0.id with
    | none => s
    | some q =>
      match qNext s q with
      | some x => setQState s q x 0
      | none => s) s

/-! ## ENQ and DEQ at the home (R94) -/

/-- The answer of a queue operation: status, index, entry. -/
structure QAns where
  st  : Nat
  idx : Nat
  ent : List Byte
deriving DecidableEq, Repr

def qClosed : QAns := ⟨2, 0, []⟩

/-- A bound queue whose slot fails enters ERROR with ERR 5 (R94). A packet that the dispatcher has taken is not given
back (R92). -/
def qSlotFail (s : State) (q : Queue) : State × QAns := (setQState s q .error 5, qClosed)

/-- ENQ of `img` on a queue, for `w`. The order in which appends have reached the hub die (R99) is the order in which
their homes perform them: the stamp the append takes here (DESIGN CHOICE, log 119). -/
def qEnq (s : State) (w : Writer) (q : Queue) (img : List Byte) : State × QAns :=
  let head := qHead s q
  let tail := qTail s q
  if q.state = .draining then (s, qClosed)
  else if tail - head = 2 ^ q.cap then (hdrPut s w q 0x20 8 (paNat s (q.pa + 0x20) 8 + 1), ⟨1, tail, []⟩)
  else
    match qOwner s q with
    | none => (s, qClosed)
    | some c =>
      match xlate s 8 c (qSlot q tail) needW with
      | .error _ => qSlotFail s q
      | .ok x =>
        let s := deviceWrite s w q.part x.leaf x.pa (img.take (qEsize q))
        let s := hdrPut s w q 8 8 (tail + 1)
        let s := { s with ctl := { s.ctl with stampNo := s.ctl.stampNo + 1 } }
        (settleQueues (modQueue s q.id fun y => { y with stamps := y.stamps ++ [s.ctl.stampNo] }),
         ⟨0, tail, []⟩)

/-- DEQ of a queue, for `w`. -/
def qDeq (s : State) (w : Writer) (q : Queue) : State × QAns :=
  let head := qHead s q
  if q.launch then (s, ⟨4, 0, []⟩)
  else if qTail s q = head then (s, ⟨3, head, []⟩)
  else
    match qOwner s q with
    | none => (s, qClosed)
    | some c =>
      match xlate s 8 c (qSlot q head) needR with
      | .error _ => qSlotFail s q
      | .ok x =>
        let ent := paBytes s x.pa (qEsize q)
        (settleQueues (modQueue (hdrPut s w q 0 8 (head + 1)) q.id fun y => { y with stamps := y.stamps.drop 1 }),
         ⟨0, head, ent⟩)

/-- The home performs an operation of `w` on the header at `pa` (R94). `es` is the size the lane carries, none for
a window; `peer` says that it came from a peer device. -/
def qPerform (s : State) (w : Writer) (pa : Nat) (enq : Bool) (es : Option Nat) (img : List Byte) (peer : Bool) :
    State × QAns :=
  match queueAt s.ctl.queues pa with
  | none => (s, qClosed)
  | some q =>
    let esBad := match es with
      | some e => decide (3 < e) || e != q.esize
      | none => false
    if q.state = .error || esBad || (enq && q.state == .draining) || (peer && !q.qflags.testBit 0) then
      (s, qClosed)
    else if enq then qEnq s w q img
    else qDeq s w q

/-! ## QUEUE_OP_AT_HOME (R95) -/

/-- The bytes of an answer: status and index (R94). -/
def ansBytes (st idx : Nat) : List Byte := natLe st 4 ++ natLe idx 4

/-- A lane's answer kept in its part: status and index as its data, the entry beside them. -/
def qAnswer (m : Mem) (op i : Nat) (a : QAns) (ack : Bool) : Mem :=
  { m with ops := modIf m.ops (fun q => q.id == op) fun q =>
      setPart q i fun r => { r with
        got := some (ansBytes a.st a.idx), wdata := a.ent, performed := true, acked := ack } }

/-- One lane's ENQ or DEQ at its home. An ENQ on a peer goes out with its image and order, and its answer comes later;
a DEQ of a peer queue answers CLOSED (R96). -/
def qLane (s : State) (o : MemOp) (i : Nat) (enq : Bool) : State :=
  match o.parts[i]? with
  | none => s
  | some p =>
    if paPeer s p.pa then
      if enq then
        let t := sendReq s o.part (paDev p.pa) o.id 0 i (.enq (paOff p.pa) p.aux2 o.order p.wdata)
        { t with mem := markPart t.mem o.id i false }
      else { s with mem := qAnswer s.mem o.id i qClosed true }
    else
      let (s, a) := qPerform s (.part o.id i) p.pa enq (some p.aux2) p.wdata false
      let home := homeKey (ownDev s.sys) p.pa
      let m := qAnswer s.mem o.id i a (!writerWaits s.mem (.part o.id i))
      { s with mem := raiseClock (if o.order = 4 then stampRmw m o.core o.scope home else m) o.core home }

/-- Whether an operation is an ENQ, or a DEQ. -/
def qKind (o : MemOp) : Option Bool :=
  match o.kind with
  | .enq _ => some true
  | .deq _ => some false
  | _ => none

/-- QUEUE_OP_AT_HOME: the home performs the lanes of one issue that name one header, in slice and lane
order, as one read-modify-write (R95). -/
def execQueueOpAtHome (op part : Nat) (s : State) : Host.Outcome State Fault Refusal :=
  match findOp s.mem op with
  | none => .next s
  | some o =>
    match qKind o, o.parts[part]? with
    | some enq, some p =>
      let same := rmwSame s.mem o.issue p.pa
      let ready := same.all fun x => match x.1.parts[x.2]? with
        | some r => rmwReady s x.1 r
        | none => true
      if p.performed || !ready then .next s
      else if peerGone s p.pa then .next (lostPart s o part p.va true)
      else if paPeer s p.pa && enq && !canSend s.sys (paDev p.pa) (frameOf (paOff p.pa)) 0 then .next s
      else .next (same.foldl (fun s x => qLane s x.1 x.2 enq) s)
    | _, _ => .next s

/-! ## The host enqueue window (R93, R100) -/

/-- The header's own checks at BIND (R93); `h` is its 64 bytes. -/
def bindOk (h : List Byte) (cid : Nat) : Bool :=
  let f := fun (o n : Nat) => leNat ((h.drop o).take n)
  f 0x10 8 % 4096 == 0 && decide (1 ≤ f 0x18 1) && decide (f 0x18 1 ≤ 24) && decide (f 0x19 1 ≤ 3)
    && decide (f 0x1A 1 ≤ 1) && f 0x1B 1 == 0 && decide (f 0x1C 1 < 8) && f 0x1D 1 == cid
    && decide (f 0x1E 1 < 2) && ((h.drop 0x28).all fun b => b == 0) && decide (f 0 8 ≤ f 8 8)
    && decide (f 8 8 ≤ f 0 8 + 2 ^ f 0x18 1) && (f 0x1A 1 == 1 || f 0x19 1 == 2)

/-- The queue a valid header makes. A packet at its HEAD that the dispatcher took before a RESET is taken still
(R92). -/
def bindQueue (s : State) (c : Ctx) (va pa leaf : Nat) (h : List Byte) : Queue :=
  let f := fun (o n : Nat) => leNat ((h.drop o).take n)
  { id := s.exe.nextId, part := c.part, ctx := c.cid, va := BitVec.ofNat 64 va, pa := pa, leaf := leaf,
    launch := f 0x1A 1 == 0, esize := f 0x19 1, cap := f 0x18 1, base := BitVec.ofNat 64 (f 0x10 8),
    prio := f 0x1C 1, qflags := f 0x1E 1, state := .bound,
    stamps := List.replicate (f 8 8 - f 0 8) (s.ctl.stampNo + 1),
    taken := (s.ctl.kernels.find? fun k => k.qpa == pa && k.qidx == f 0 8 && kernLive k && !k.advanced).map Kernel.id }

/-- A context that is neither FREE nor RETIRED. -/
def ctxUp (c : Ctx) : Bool := c.state != .free && c.state != .retired

/-- The states in which a context may own a queue that is bound (R93). -/
def bindUp (c : Ctx) : Bool :=
  c.state == .built || c.state == .runnable || c.state == .running || c.state == .parked

/-- BIND (R91, R93): the state and the result. -/
def qBind (s : State) (c : Option Ctx) (cid va : Nat) : State × Nat :=
  match c with
  | none => (s, 10)
  | some c =>
    if va % 64 ≠ 0 ∨ bindUp c = false then (s, 10)
    else
      match xlate s 8 c va needW with
      | .error _ => (s, 10)
      | .ok x =>
        if (queueAt s.ctl.queues x.pa).isSome then (s, 8)
        else
          let h := paBytes s x.pa 64
          if !bindOk h cid then (s, 10)
          else
            let q := bindQueue s c va x.pa x.leaf h
            if q.launch && decide (256 ≤ (s.ctl.queues.filter fun y =>
                y.launch && y.part == c.part).length) then (s, 11)
            else
              let s := { s with
                exe := { s.exe with nextId := s.exe.nextId + 1 }
                ctl := { s.ctl with
                  queues := s.ctl.queues ++ [q]
                  stampNo := s.ctl.stampNo + 1 } }
              (settleQueues (hdrPut (hubHold s x.leaf x.pa) .nobody q 0x1B 1 (qCode .bound)), 0)

/-- The partition's window `w`. -/
def hewOf (p : Partition) (w : Nat) : Hew := nth p.hews w {}

/-- The state with a partition's window changed. -/
def modHew (s : State) (part w : Nat) (f : Hew → Hew) : State :=
  { s with ctl := { s.ctl with parts := modIf s.ctl.parts (fun p => p.id == part) fun p =>
      { p with hews := modAt p.hews w f } } }

/-- A window command answered, and BUSY cleared. HEW_INDEX is 0 where the command has no index of R94 (DESIGN CHOICE,
log 120). -/
def hewDone (s : State) (part w st idx : Nat) : State :=
  modHew s part w fun h => { h with cmd := none, status := BitVec.ofNat 32 st, index := BitVec.ofNat 64 idx }

/-- Whether a window takes a command now: its partition's interface is in RUN (R404), and BUSY does not stand for
another command (R100). -/
def hewTakes (p : Partition) (w cmd ctx : Nat) : Bool :=
  p.state == .run && decide (w < 8) && ((hewOf p w).cmd == none || (hewOf p w).cmd == some (cmd, ctx))

/-- A window command number `cmd` performed. `f` is the command at a header address that passed its checks, with the
translation of the address. -/
def hewCmd (s : State) (part w cmd ctx : Nat) (f : State → Partition → Xl → State) :
    Host.Outcome State Fault Refusal :=
  match findPart s.ctl.parts part with
  | none => .next s
  | some p =>
    if !hewTakes p w cmd ctx then .next s
    else
      match findCtx s.ctl.ctxs part ctx with
      | none => .next (hewDone s part w 8 0)
      | some c =>
        let va := (hewOf p w).queue.toNat
        if !ctxUp c then .next (hewDone s part w 8 0)
        else if va % 64 ≠ 0 then .next (hewDone s part w 12 0)
        else
          match xlate s 8 c va needRW with
          | .error _ => .next (hewDone s part w 12 0)
          | .ok x => .next (f (hubHold s x.leaf x.pa) p x)

/-- HEW_ENQ (R100). -/
def execHewEnq (part win ctx : Nat) (s : State) : Host.Outcome State Fault Refusal :=
  hewCmd s part win 1 ctx fun s p x =>
    let (t, a) := qPerform s .nobody x.pa true none (smRun (hewOf p win).entry 0 256) false
    hewDone t part win a.st a.idx

/-- HEW_DEQ (R100): the entry is returned in HEW_ENTRY. -/
def execHewDeq (part win ctx : Nat) (s : State) : Host.Outcome State Fault Refusal :=
  hewCmd s part win 2 ctx fun s _ x =>
    let (t, a) := qPerform s .nobody x.pa false none [] false
    hewDone (modHew t part win fun h => { h with entry := smPut h.entry 0 a.ent }) part win a.st a.idx

/-- HEW_BIND (R93). -/
def execHewBind (part win ctx : Nat) (s : State) : Host.Outcome State Fault Refusal :=
  match findPart s.ctl.parts part with
  | none => .next s
  | some p =>
    if !hewTakes p win 3 ctx then .next s
    else
      let (t, r) := qBind s (findCtx s.ctl.ctxs part ctx) ctx (hewOf p win).queue.toNat
      .next (hewDone t part win r 0)

/-- HEW_DRAIN (R91). -/
def execHewDrain (part win ctx : Nat) (s : State) : Host.Outcome State Fault Refusal :=
  hewCmd s part win 4 ctx fun s _ x =>
    match queueAt s.ctl.queues x.pa with
    | none => hewDone s part win 8 0
    | some q =>
      if q.state = .bound ∨ q.state = .active ∨ q.state = .stalled then
        hewDone (settleQueues (setQState s q .draining 0)) part win 0 0
      else hewDone s part win 8 0

/-- HEW_RESET (R91): only from ERROR, while the owner is not HALTING. -/
def execHewReset (part win ctx : Nat) (s : State) : Host.Outcome State Fault Refusal :=
  hewCmd s part win 5 ctx fun s _ x =>
    match queueAt s.ctl.queues x.pa with
    | none => hewDone s part win 8 0
    | some q =>
      let halting := match qOwner s q with
        | some c => c.state == .halting
        | none => false
      if q.state = .error && !halting then hewDone (setQState s q .unbound 0) part win 0 0
      else hewDone s part win 8 0

/-! ## Command words (R68, R100) -/

/-- The fields of a command word: CMD and CTX; none where a reserved bit is set or CMD is not from 1 to `top`. -/
def cmdWord (top v : Nat) : Option (Nat × Nat) :=
  if bits v 31 22 = 0 ∧ bits v 15 4 = 0 ∧ 1 ≤ v % 16 ∧ v % 16 ≤ top then some (v % 16, bits v 21 16) else none

/-- A write to HEW_CMD (R100): BUSY stands until the command's event; a word that names no command answers
BAD_CMD, and one written while BUSY is set is discarded. -/
def hewWord (s : State) (part w v : Nat) : State :=
  match findPart s.ctl.parts part with
  | none => s
  | some p =>
    if p.state ≠ .run ∨ 8 ≤ w ∨ (hewOf p w).cmd ≠ none then s
    else
      match cmdWord 5 v with
      | none => hewDone s part w 9 0
      | some c => modHew s part w fun h => { h with cmd := some c, status := 0x80000000 }

end Sys2Proof.Machine
end

