-- ==== Sys2Proof/Machine/Region.lean ====
section
/-! DEFINITION. Region.lean: the region descriptor (R343 to R345), its states (R346), sampling (R349), the
surrogate (R350), the error (R351), training (R352), eager fallback (R353) and the four region
instructions (R354 to R359). -/

namespace Sys2Proof.Machine

/-! ## The descriptor (R343). `d` is its 256 bytes -/

/-- A little-endian field of `n` bytes. -/
def rdFld (d : List Byte) (off n : Nat) : Nat := leNat ((d.drop off).take n)

def rgState (d : List Byte) : Nat := rdFld d 0x00 1
def rgNin (d : List Byte) : Nat := rdFld d 0x01 1
def rgNout (d : List Byte) : Nat := rdFld d 0x02 1
def rgH1 (d : List Byte) : Nat := rdFld d 0x03 1
def rgH2 (d : List Byte) : Nat := rdFld d 0x04 1
def rgAct (d : List Byte) : Nat := rdFld d 0x05 1
def rgLrk (d : List Byte) : Nat := rdFld d 0x06 1
def rgMetric (d : List Byte) : Nat := rdFld d 0x07 1
def rgBatch (d : List Byte) : Nat := rdFld d 0x08 2
def rgSteps (d : List Byte) : Nat := rdFld d 0x0A 2
def rgTau (d : List Byte) : Nat := rdFld d 0x0C 4
def rgHard (d : List Byte) : Nat := rdFld d 0x10 4
def rgShift (d : List Byte) : Nat := rdFld d 0x14 1
def rgFlags (d : List Byte) : Nat := rdFld d 0x15 1
def rgMinsamp (d : List Byte) : Nat := rdFld d 0x16 2
def rgHash (d : List Byte) : Nat := rdFld d 0x18 8
def rgWeights (d : List Byte) : Nat := rdFld d 0x20 8
def rgSamples (d : List Byte) : Nat := rdFld d 0x28 8
def rgCap (d : List Byte) : Nat := rdFld d 0x30 4
def rgCfgSum (d : List Byte) : Nat := rdFld d 0x38 4
def rgFbRun (d : List Byte) : Nat := rdFld d 0x3D 1
def rgEflags (d : List Byte) : Nat := rdFld d 0x3E 1
def rgCount (d : List Byte) : Nat := rdFld d 0x40 4
def rgChecked (d : List Byte) : Nat := rdFld d 0x44 4
def rgMaxerr (d : List Byte) : Nat := rdFld d 0x48 4

/-- The codes of STATE (R343). -/
def stOff : Nat := 0
def stObserve : Nat := 1
def stTrain : Nat := 2
def stArmed : Nat := 3
def stFallback : Nat := 4
def stInvalid : Nat := 5

/-- The mode a STATE code names; a code that is none of the others is INVALID. -/
def modeOf (c : Nat) : RState :=
  if c = 0 then .off else if c = 1 then .observe else if c = 2 then .train
  else if c = 3 then .armed else if c = 4 then .fallback else .invalid

/-- The code of a mode. -/
def modeCode (m : RState) : Nat :=
  match m with
  | .off => 0
  | .observe => 1
  | .train => 2
  | .armed => 3
  | .fallback => 4
  | .invalid => 5

/-- One bit step, and one byte step, of CRC-32C (Castagnoli, reflected). -/
def crcBit (c : Nat) : Nat := if c % 2 = 1 then Nat.xor (c / 2) 0x82F63B78 else c / 2
def crcByte (c : Nat) (b : Byte) : Nat :=
  let x := Nat.xor c b.toNat
  crcBit (crcBit (crcBit (crcBit (crcBit (crcBit (crcBit (crcBit x)))))))
/-- CRC-32C of bytes. -/
def crc32c (bs : List Byte) : Nat := Nat.xor (bs.foldl crcByte 0xFFFFFFFF) 0xFFFFFFFF

/-- The sum CFG_SUM takes: bytes 0x01 to 0x37. -/
def cfgSum (d : List Byte) : Nat := crc32c ((d.drop 1).take 0x37)

/-- The width of the last hidden layer, and the parameter count (R344). -/
def rgLast (d : List Byte) : Nat := if rgH2 d = 0 then rgH1 d else rgH2 d
def rgParams (d : List Byte) : Nat :=
  rgH1 d * (rgNin d + 1) + rgH2 d * (rgH1 d + 1) + rgNout d * (rgLast d + 1)
/-- The offset of the inference copy from WEIGHTS (R344). -/
def copyOfs (d : List Byte) : Nat := 64 * ((4 * rgParams d + 63) / 64)

/-- The three areas: the descriptor, the weight area and the sample buffer. -/
def rgAreas (va : Nat) (d : List Byte) : List (Nat × Nat) :=
  [(va, 256), (rgWeights d, copyOfs d + 2 * rgParams d), (rgSamples d, 128 * rgCap d)]

/-- A finite F32 value, not negative. -/
def f32NonNeg (c : Nat) : Bool :=
  match decodeF F32 c with
  | .fin n m _ => !n || m == 0
  | _ => false

/-- The software fields lie in their ranges and the reserved ones are zero (R343). -/
def rgFieldsOk (d : List Byte) : Bool :=
  let inR := fun (x lo hi : Nat) => decide (lo ≤ x) && decide (x ≤ hi)
  inR (rgNin d) 1 16 && inR (rgNout d) 1 8 && inR (rgH1 d) 1 64 && inR (rgH2 d) 0 64
    && inR (rgAct d) 0 1 && inR (rgLrk d) 1 31 && inR (rgMetric d) 0 1 && inR (rgBatch d) 1 1024
    && inR (rgSteps d) 1 65535 && f32NonNeg (rgTau d) && inR (rgShift d) 0 31 && inR (rgFlags d) 0 1
    && (rgFlags d == 0 || (f32NonNeg (rgHard d)
        && decide (0 ≤ cmpF (decodeF F32 (rgHard d)) (decodeF F32 (rgTau d)))))
    && inR (rgCap d) 16 65536 && rgCap d == 2 ^ Nat.log2 (rgCap d) && inR (rgMinsamp d) 1 (rgCap d)
    && rgWeights d % 64 == 0 && rgSamples d % 128 == 0 && rdFld d 0x34 4 == 0
    && (d.drop 0x58).all fun b => b == 0

/-- The areas of a descriptor are pinned and writeable (R343). -/
def rgPinned (s : State) (c : Ctx) (va : Nat) (d : List Byte) : Bool :=
  (rgAreas va d).all (rangePinned s c)

/-- No two areas overlap. -/
def areasApart : List (Nat × Nat) → Bool
  | [] => true
  | r :: rs => (rs.all fun q => decide (r.1 + r.2 ≤ q.1) || decide (q.1 + q.2 ≤ r.1)) && areasApart rs

/-- The descriptor is valid (R343). -/
def rgValid (s : State) (c : Ctx) (va : Nat) (d : List Byte) : Bool :=
  rgFieldsOk d && rgPinned s c va d && areasApart (rgAreas va d)

/-- The descriptor can be read and written: aligned, with a translation that permits both (R346). -/
def rgReach (s : State) (c : Ctx) (va : Nat) : Bool :=
  va % 256 == 0 && (match xlate s 0 c va needRW with
    | .ok _ => true
    | .error _ => false)

/-- The descriptor's bytes at its home. -/
def rgRead (s : State) (c : Ctx) (va : Nat) : List Byte := excGet [] (readVa s 0 c va 256 0)

/-- The state with H4 fields of a descriptor written: (offset, size, value). -/
def rgPut (s : State) (c : Ctx) (va : Nat) (fs : List (Nat × Nat × Nat)) : State :=
  fs.foldl (fun s f => vaPut s c (va + f.1) f.2.1 f.2.2) s

/-- The fields that make a region INVALID for a cause. -/
def toInvalid (cause : Nat) : List (Nat × Nat × Nat) := [(0x00, 1, stInvalid), (0x3C, 1, cause)]

/-! ## The surrogate (R350, R352) -/

/-- A rounded product and a rounded sum, RNE, on F32 codes. -/
def fmul32 (a b : Nat) : Nat := (finishF F32 0 false (mulF (decodeF F32 a) (decodeF F32 b))).1
def fsub32 (a b : Nat) : Nat :=
  (finishF F32 0 false (addF 0 (decodeF F32 a) (negF (decodeF F32 b)))).1
/-- An F32 code rounded to BF16, and a BF16 code as F32. -/
def toBf (a : Nat) : Nat := (cvtFF BF16 0 false (decodeF F32 a)).1
def ofBf (a : Nat) : Nat := (cvtFF F32 0 false (decodeF BF16 a)).1

/-- A layer: its inputs, its outputs and its parameters as F32 codes of BF16 values. -/
structure RLayer where
  nin  : Nat
  nout : Nat
  w    : List Nat
deriving DecidableEq, Repr

/-- Weight into unit `j` from input `i`, and bias `j` (R344). -/
def RLayer.wt (l : RLayer) (j i : Nat) : Nat := nth l.w (j * l.nin + i) 0
def RLayer.bias (l : RLayer) (j : Nat) : Nat := nth l.w (l.nout * l.nin + j) 0

/-- The sizes of the layers in order. -/
def layerSizes (d : List Byte) : List (Nat × Nat) :=
  [(rgNin d, rgH1 d)] ++ (if rgH2 d = 0 then [] else [(rgH1 d, rgH2 d)]) ++ [(rgLast d, rgNout d)]

/-- The layers of a parameter list. -/
def layersOf : List (Nat × Nat) → List Nat → List RLayer
  | [], _ => []
  | (n, m) :: t, w => ⟨n, m, w.take (m * (n + 1))⟩ :: layersOf t (w.drop (m * (n + 1)))

/-- z of a layer for inputs `a`. -/
def layerZ (l : RLayer) (a : List Nat) : List Nat :=
  (List.range l.nout).map fun j =>
    treeSum F32 (((List.range l.nin).map fun i => fmul32 (nth a i 0) (l.wt j i)) ++ [l.bias j])

/-- Whether an F32 value is above zero. -/
def posF32 (z : Nat) : Bool :=
  match decodeF F32 z with
  | .fin n m _ => !n && m != 0
  | .inf n => !n
  | .nan => false

/-- The activation: 0 ReLU, 1 identity. -/
def activate (act z : Nat) : Nat :=
  if act = 1 then z
  else match decodeF F32 z with
    | .nan => canonNan F32
    | _ => if posF32 z then z else 0

/-- The forward pass: the input and z of every layer, the output layer last. -/
def forward (act : Nat) : List RLayer → List Nat → List (List Nat × List Nat)
  | [], _ => []
  | [l], a => [(a, layerZ l a)]
  | l :: t, a =>
    let z := layerZ l a
    (a, z) :: forward act t (z.map fun v => ofBf (toBf (activate act v)))

/-- ŷ for inputs `x` from the parameters `w` (R350). -/
def surrogate (d : List Byte) (w x : List Nat) : List Nat :=
  match (forward (rgAct d) (layersOf (layerSizes d) w) (x.map fun v => ofBf (toBf v))).getLast? with
  | some p => p.2
  | none => []

/-- Every parameter of the inference copy, as F32 codes. -/
def inference (s : State) (c : Ctx) (d : List Byte) : List Nat :=
  let bs := excGet [] (readVa s 0 c (rgWeights d + copyOfs d) (2 * rgParams d) 0)
  (List.range (rgParams d)).map fun i => ofBf (rdFld bs (2 * i) 2)

/-- The master parameters, F32. -/
def masters (s : State) (c : Ctx) (d : List Byte) : List Nat :=
  let bs := excGet [] (readVa s 0 c (rgWeights d) (4 * rgParams d) 0)
  (List.range (rgParams d)).map fun i => rdFld bs (4 * i) 4

/-- The state with the inference copy written from master values (R344). -/
def putCopy (s : State) (c : Ctx) (d : List Byte) (m : List Nat) : State :=
  excGet s (writeVa s .nobody 0 c (rgWeights d + copyOfs d) 0 (m.flatMap fun v => natLe (toBf v) 2))

/-- The error of outputs `yh` against `y` (R351). -/
def sampleError (metric : Nat) (yh y : List Nat) : Nat :=
  let e := fun (a b : Nat) =>
    match addF 0 (decodeF F32 a) (negF (decodeF F32 b)), decodeF F32 a, decodeF F32 b with
    | .fin _ n dd, .fin _ _ _, .fin _ m x =>
      if metric = 0 then (roundTo F32 0 false false n dd).1
      else
        let (p, q) := pow2Frac x
        let num := m * p
        let (bn, bd) := if num * 2 ^ 24 < q then (1, 2 ^ 24) else (num, q)
        (roundTo F32 0 false false (n * bd) (dd * bn)).1
    | _, _, _ => infCode F32
  ((yh.zip y).map fun p => e p.1 p.2).foldl (fun a b =>
    if cmpF (decodeF F32 a) (decodeF F32 b) < 0 then b else a) 0

/-! ## Training (R352) -/

/-- The gradients of the layers below a δ, from the output layer down: layers and their (a, z), reversed. -/
def backward (act : Nat) : List (RLayer × List Nat × List Nat) → List Nat → List (List Nat)
  | [], _ => []
  | (l, a, _) :: t, dl =>
    let g := ((List.range l.nout).flatMap fun j =>
        (List.range l.nin).map fun i => fmul32 (nth dl j 0) (nth a i 0))
      ++ (List.range l.nout).map fun j => nth dl j 0
    let zBelow := match t with
      | (_, _, z) :: _ => z
      | [] => []
    let below := (List.range l.nin).map fun i =>
      let f := if act = 1 ∨ posF32 (nth zBelow i 0) then 0x3F800000 else 0
      fmul32 (treeSum F32 ((List.range l.nout).map fun j => fmul32 (l.wt j i) (nth dl j 0))) f
    g :: backward act t below

/-- The gradient of every parameter for one sample. -/
def sampleGrad (d : List Byte) (wbf : List Nat) (x y : List Nat) : List Nat :=
  let ls := layersOf (layerSizes d) wbf
  let fw := forward (rgAct d) ls (x.map fun v => ofBf (toBf v))
  let yh := ((fw.getLast?).map Prod.snd).getD []
  let dl := (yh.zip y).map fun p => fsub32 p.1 p.2
  (backward (rgAct d) ((ls.zip fw).map fun p => (p.1, p.2.1, p.2.2)).reverse dl).reverse.flatten

/-- The update of one master parameter: the exact difference rounded once. -/
def updateParam (lrk m g : Nat) : Nat :=
  let sg := match decodeF F32 g with
    | .fin n k e => .fin n k (e - lrk)
    | v => v
  (finishF F32 0 false (addF 0 (decodeF F32 m) (negF sg))).1

/-- One training step: the batch starts at sample number `at_`. -/
def trainStep (d : List Byte) (samples : List (List Nat × List Nat)) (m : List Nat) (at_ : Nat) :
    List Nat :=
  let wbf := m.map fun v => ofBf (toBf v)
  let grads := (List.range (rgBatch d)).map fun j =>
    let q := nth samples ((at_ + j) % samples.length) ([], [])
    sampleGrad d wbf q.1 q.2
  m.zipIdx.map fun p => updateParam (rgLrk d) p.1 (treeSum F32 (grads.map fun g => nth g p.2 0))

/-- STEPS steps of training. -/
def train (d : List Byte) (samples : List (List Nat × List Nat)) (m : List Nat) : List Nat :=
  (List.range (rgSteps d)).foldl (fun m t => trainStep d samples m (t * rgBatch d)) m

/-- Entry `i` of the sample buffer, 128 bytes (R345). -/
def sampleEntry (s : State) (c : Ctx) (d : List Byte) (i : Nat) : List Byte :=
  excGet [] (readVa s 0 c (rgSamples d + 128 * i) 128 0)

/-- The inputs and outputs of an entry. -/
def entryPair (d e : List Byte) : List Nat × List Nat :=
  ((List.range (rgNin d)).map fun i => rdFld e (0x10 + 4 * i) 4,
   (List.range (rgNout d)).map fun i => rdFld e (0x50 + 4 * i) 4)

/-! ## Launch (R346) -/

/-- The mode a launch latches and the state it leaves, for region `id` of a context whose table entry names
descriptor `va` and hash `hash`. In kickstand service the mode is FALLBACK and nothing is written (R412). -/
def regionLaunch (s : State) (c : Ctx) (id va hash : Nat) : State × RState :=
  if s.sys.kickstand then (s, .fallback)
  else if !rgReach s c va then (s, .invalid)
  else
    let d := rgRead s c va
    let st := rgState d
    let inval := fun (cause : Nat) => (rgPut s c va (toInvalid cause), RState.invalid)
    let known := (c.regionAt.find? fun p => p.1 == id).map fun p => p.2.toNat
    if st = stOff then
      if !rgValid s c va d then inval 1
      else if rgHash d ≠ hash then inval 2
      else
        let s := rgPut s c va
          ([(0x00, 1, stObserve), (0x38, 4, cfgSum d)] ++ (List.range 28).map fun i => (0x3C + i, 1, 0))
        let s := putCopy s c d (masters s c d)
        let cs := modCtx s.ctl.ctxs c.part c.cid fun x =>
          { x with
            regionAt := (id, BitVec.ofNat 64 va) :: x.regionAt.filter fun p => p.1 != id
            eagerSeen := x.eagerSeen.filter fun p => p.2 != id }
        ({ s with ctl := { s.ctl with ctxs := cs } }, .observe)
    else if stInvalid < st then inval 1
    else if st = stInvalid then (s, .invalid)
    else if rgHash d ≠ hash then inval 2
    else if st = stTrain then inval 6
    else if rgCfgSum d ≠ cfgSum d ∨ known ≠ some va then inval 3
    else if !rgPinned s c va d then inval 1
    else (s, modeOf st)

/-! ## Fit points (R346, R348) -/

/-- What a fit point does with one region: the state, and whether training has started. In kickstand service
it changes nothing (R412). -/
def fitRegion (s : State) (c : Ctx) (id va : Nat) : State × Bool :=
  if s.sys.kickstand || !rgReach s c va then (s, false)
  else
    let d := rgRead s c va
    let st := rgState d
    let put := fun (fs : List (Nat × Nat × Nat)) => rgPut s c va fs
    let known := (c.regionAt.find? fun p => p.1 == id).map fun p => p.2.toNat
    let live := st = stObserve ∨ st = stArmed ∨ st = stFallback
    if st = stOff ∨ stInvalid ≤ st then (s, false)
    else if live ∧ (rgCfgSum d ≠ cfgSum d ∨ known ≠ some va) then (put (toInvalid 3), false)
    else if live ∧ !rgPinned s c va d then (put (toInvalid 1), false)
    else if (rgEflags d).testBit 0 then (put (toInvalid 4), false)
    else if st = stObserve then
      if rgMinsamp d ≤ rgCount d then (put [(0x00, 1, stTrain)], true) else (s, false)
    else if st = stFallback then (put [(0x00, 1, stObserve)], false)
    else if st = stArmed then
      let isOver : Bool := match decodeF F32 (rgMaxerr d) with
        | .nan => true
        | v => decide (0 < cmpF v (decodeF F32 (rgTau d)))
      if isOver ∨ (rgEflags d).testBit 1 then
        let z := [(0x40, 4, 0), (0x44, 4, 0), (0x48, 4, 0), (0x3E, 1, 0)]
        if rgFbRun d < 7 then (put ([(0x00, 1, stFallback), (0x3D, 1, rgFbRun d + 1)] ++ z), false)
        else (put (toInvalid 5 ++ [(0x3D, 1, 8)]), false)
      else
        let run := if 0 < rgChecked d then [(0x3D, 1, 0)] else []
        if rgMinsamp d ≤ rgCount d then (put ((0x00, 1, stTrain) :: run), true)
        else (put ([(0x44, 4, 0), (0x48, 4, 0)] ++ run), false)
    else (s, false)

/-- The eager hits that a context's cores have seen, less those of a region. -/
def forgetEager (s : State) (c : Ctx) (id : Nat) : State :=
  { s with ctl := { s.ctl with ctxs := modCtx s.ctl.ctxs c.part c.cid fun x =>
      { x with eagerSeen := x.eagerSeen.filter fun p => p.2 != id } } }

/-- Training done: new masters and copy, ARMED, and an empty buffer (R346, R352). -/
def trainRegion (s : State) (c : Ctx) (va : Nat) : State :=
  let d := rgRead s c va
  let samples := (List.range (rgCount d)).map fun i => entryPair d (sampleEntry s c d i)
  let m := if samples.isEmpty then masters s c d else train d samples (masters s c d)
  let s := excGet s (writeVa s .nobody 0 c (rgWeights d) 0 (m.flatMap fun v => natLe v 4))
  let s := putCopy s c d m
  rgPut s c va [(0x00, 1, stArmed), (0x40, 4, 0), (0x44, 4, 0), (0x48, 4, 0)]

/-! ## Sampling (R349) -/

/-- Bytes [15:12] of an invocation's logical index. -/
def invWord (gang lane count : Nat) : Nat := gang * 2 ^ 27 + lane * 2 ^ 22 + count

/-- Whether an invocation is sampled (R349). -/
def isSampled (kord gid gang lane count shift : Nat) : Bool :=
  let z := mix64 ((kord * 0x9E3779B97F4A7C15 + gid) % 2 ^ 64)
  let z := mix64 (Nat.xor z (invWord gang lane count * 2 ^ 32 + 0x52454749))
  decide (bits z 63 32 < 2 ^ (32 - shift))

/-! ## AXB and AXE (R354 to R356) -/

/-- The region an issue names, as its kernel latched it. -/
def axRegion (e : Iss) (id : Nat) : Option RLatch := e.kern.regions.find? fun r => r.id == id

/-- A register of V8 to V247. -/
def mainReg (c : Byte) : Bool := decide (8 ≤ c.toNat) && decide (c.toNat ≤ 247)

/-- The descriptor of a latched region, where it can be read. -/
def axDesc (e : Iss) (r : RLatch) : Option (List Byte) :=
  if rgReach e.s e.ctx r.desc.toNat then some (rgRead e.s e.ctx r.desc.toNat) else none

/-- Whether the issuing core has seen the region's eager hit (R353). -/
def eagerSeen (e : Iss) (id : Nat) : Bool := e.ctx.eagerSeen.contains (e.core, id)

def axKey (id lane : Nat) : Nat := id * 32 + lane
def axCountOf (g : Gang) (id lane : Nat) : Nat := (smGet g.axCount (axKey id lane)).toNat

/-- The running lanes of slice `k`. -/
def Iss.runOf (e : Iss) (k : Nat) : List Nat := e.running.filter fun l => l / 4 == k

/-- Whether lane `l` has a region open, or this one open. -/
def laneOpen (g : Gang) (l : Nat) : Option OpenRegion := g.opens.find? fun o => o.lane == l

/-- The REGION_FAULT of AXB and AXE: an unused entry, or a run past the last declared register. -/
def axRunFault (e : Iss) (id : Nat) (runs : List Byte → List (Byte × Nat)) : Bool :=
  match axRegion e id with
  | none => true
  | some r =>
    match axDesc e r with
    | none => false
    | some d => (runs d).any fun p => !declRun e.n p.1 p.2

/-- Whether the top entry of a slice is a JOINPT entry with nothing pending (R355). -/
def joinReady (x : Slice) : Bool :=
  match x.stack with
  | [] => false
  | t :: _ => t.kind == .joinpt && t.pend == 0

/-- The lane's share of an AXB: sampled, and served (R355). -/
def axLane (e : Iss) (id : Nat) (r : RLatch) (d : List Byte) (l : Nat) : Bool × Bool :=
  let samp := (r.mode == .observe || r.mode == .armed) &&
    isSampled (e.kern.ord) e.grp.lid e.g.idx l (axCountOf e.g id l) (rgShift d)
  (samp, r.mode == .armed && !samp && !eagerSeen e id)

/-- The inputs of a lane. -/
def axInputs (e : Iss) (a : Byte) (d : List Byte) (l : Nat) : List Nat :=
  (List.range (rgNin d)).map fun i => rd e.g l (a + BitVec.ofNat 8 i)

/-- The judgement of AXB in slice `k`. -/
def axbFault (e : Iss) (id : Nat) (k : Nat) : Option FaultCode :=
  if !joinReady (e.g.sl k) then some .illegalOp
  else if (e.runOf k).any fun l =>
      (laneOpen e.g l).isSome || decide (2 ^ 22 ≤ axCountOf e.g id l) then some .regionFault
  else none

/-- AXB (R355). FIT_ANSWER brings ŷ to the served lanes. -/
def execAxb (d a : BitVec 8) (i : BitVec 6) (s : State) : Host.Outcome State Fault Refusal :=
  let id := i.toNat
  issue s
    (fun e => (legal e fun _ => mainReg d && mainReg a && declOk e.n d && declOk e.n a).and
      ((if axRunFault e id (fun ds => [(a, rgNin ds), (d, rgNout ds)])
        then Judge.fault (lowSlice e.mask) .regionFault 0 else .go).and
        ((judgeSlices e (axbFault e id)).and (clsRoom e fun _ => .f))))
    fun e =>
      let r := (axRegion e id).getD ⟨id, 0, 0, .invalid, false⟩
      let ds := (axDesc e r).getD []
      let lane := axLane e id r ds
      let w := if r.mode == .armed then inference e.s e.ctx ds else []
      let yh := fun (l : Nat) => if r.mode == .armed then surrogate ds w (axInputs e a ds l) else []
      let uses := fun (k : Nat) => (e.runOf k).any fun l => (lane l).1 || (lane l).2
      let cls := fun (k : Nat) => if uses k then Cls.f else Cls.none
      let res := opsBody e cls e.s.mem fun oid issue k =>
        mkOp e oid issue k (.axb id) (cls k) d.toNat (rgNout ds)
          (((e.runOf k).filter fun l => (lane l).2).map fun l =>
            { barePart l 0 0 with got := some ((yh l).flatMap fun v => natLe v 4) })
      let st := { res.st with mem := { res.st.mem with
        ops := res.st.mem.ops.filter fun o => !(o.kind == .axb id && o.cls == .none) } }
      let opened := (e.running.filter fun l => !(lane l).2).map fun l =>
        ({ lane := l, id := id, sampled := (lane l).1, count := axCountOf e.g id l,
           x := (axInputs e a ds l).map fun v => BitVec.ofNat 32 v,
           yhat := if (lane l).1 then (yh l).map fun v => BitVec.ofNat 32 v else [] } : OpenRegion)
      { st := st
        g := { res.g with
          opens := res.g.opens ++ opened
          axCount := e.running.foldl (fun m l =>
            smSet m (axKey id l) (BitVec.ofNat 32 (axCountOf e.g id l + 1))) res.g.axCount
          slices := res.g.slices.mapIdx fun k (x : Slice) =>
            if e.mask.getLsbD k then
              (divide { x with pc := e.pc } (sliceMask k fun l => runOn e.g l && !(lane l).2)
                (e.pc + 4) ((e.g.sl k).stack.headD ⟨.joinpt, 0, 0, 0, 0, 0, 0⟩).pc).getD x
            else x } }

/-- The judgement of AXE in slice `k`. -/
def axeFault (e : Iss) (id k : Nat) : Option FaultCode :=
  if (e.runOf k).all fun l => (e.g.opens.any fun o => o.lane == l && o.id == id) then none
  else some .regionFault

/-- The sample of a lane that closes its region (R356). -/
def axSample (e : Iss) (r : RLatch) (ds : List Byte) (a : Byte) (o : OpenRegion) (sid op : Nat) : Sample :=
  let y := (List.range (rgNout ds)).map fun i => rd e.g o.lane (a + BitVec.ofNat 8 i)
  { id := sid, part := e.kern.part, ctx := e.kern.ctx, region := r.id, kern := e.grp.kern,
    kord := e.kern.ord, gid := e.grp.lid,
    word3 := BitVec.ofNat 32 (invWord e.g.idx o.lane o.count), x := o.x,
    y := y.map fun v => BitVec.ofNat 32 v,
    err := if r.mode == .armed then
      some (BitVec.ofNat 32 (sampleError (rgMetric ds) (o.yhat.map BitVec.toNat) y)) else none
    op := op }

/-- AXE (R356). FIT_ANSWER ends it once the home has accepted its samples. -/
def execAxe (a : BitVec 8) (i : BitVec 6) (s : State) : Host.Outcome State Fault Refusal :=
  let id := i.toNat
  issue s
    (fun e => (legal e fun _ => mainReg a && declOk e.n a).and
      ((if axRunFault e id (fun ds => [(a, rgNout ds)])
        then Judge.fault (lowSlice e.mask) .regionFault 0 else .go).and
        ((judgeSlices e (axeFault e id)).and (clsRoom e fun _ => .f))))
    fun e =>
      let r := (axRegion e id).getD ⟨id, 0, 0, .invalid, false⟩
      let ds := (axDesc e r).getD []
      let base := e.s.exe.nextId
      let mine := fun (k : Nat) => e.g.opens.filter fun o =>
        e.running.contains o.lane && o.lane / 4 == k && o.id == id && o.sampled
      let cls := fun (k : Nat) => if (mine k).isEmpty then Cls.none else Cls.f
      let res := opsBody e cls e.s.mem fun oid issue k => mkOp e oid issue k (.axe id) (cls k) 0 0 []
      let sent := e.sls.zipIdx.flatMap fun k => (mine k.1).map fun o =>
        axSample e r ds a o (base + 8 + o.lane) (base + k.2)
      { st := { res.st with
          exe := { res.st.exe with nextId := base + 40 }
          mem := { res.st.mem with
            ops := res.st.mem.ops.filter fun o => !(o.kind == .axe id && o.cls == .none) }
          ctl := { res.st.ctl with samples := res.st.ctl.samples ++ sent } }
        g := { res.g with opens := res.g.opens.filter fun o => !e.running.contains o.lane } }

/-! ## AXINV and AXQ (R357, R358) -/

/-- AXINV (R357): STORE_ACK sets INV_PENDING at the home. -/
def execAxinv (i : BitVec 6) (s : State) : Host.Outcome State Fault Refusal :=
  issue s
    (fun e => (if (axRegion e i.toNat).isNone then Judge.fault (lowSlice e.mask) .regionFault 0 else .go).and
      (clsRoom e fun _ => .s))
    fun e => opsBody e (fun _ => .s) e.s.mem fun id issue k =>
      mkOp e id issue k (.axinv i.toNat) .s 0 0
        ((e.active.take 1).filter (fun l => l / 4 == k) |>.map fun l => barePart l 0 0)

/-- AXQ (R358): LOAD_COMPLETE writes the value; MODE is the one latched at the launch. -/
def execAxq (d : BitVec 8) (sel : BitVec 4) (i : BitVec 6) (s : State) :
    Host.Outcome State Fault Refusal :=
  issue s
    (fun e => (legal e fun _ => decide (sel.toNat ≤ 3) && decide (1 ≤ d.toNat) && decide (d.toNat ≤ 247)
        && declOk e.n d).and
      ((if (axRegion e i.toNat).isNone then Judge.fault (lowSlice e.mask) .regionFault 0 else .go).and
        (clsRoom e fun _ => .l)))
    fun e =>
      let m := match axRegion e i.toNat with
        | some r => modeCode r.mode + (if eagerSeen e i.toNat then 8 else 0)
        | none => 0
      opsBody e (fun _ => .l) e.s.mem fun id issue k =>
        mkOp e id issue k (.axq i.toNat sel.toNat) .l d.toNat 1
          ((e.lanesOf k).map fun l => barePart l m 0)

/-- The descriptor address a kernel's region has. -/
def regionVa (s : State) (kern id : Nat) : Option Nat :=
  match s.ctl.kernels[kern]? with
  | some k => (k.regions.find? fun r => r.id == id).map fun r => r.desc.toNat
  | none => none

/-- The value AXQ reads at the home for selectors 1 to 3 (R358); 0 where the descriptor cannot be read. -/
def axqValue (s : State) (c : Ctx) (va sel : Nat) : Nat :=
  if !rgReach s c va then 0
  else
    let d := rgRead s c va
    if sel = 1 then rgFbRun d else if sel = 2 then rgCount d else rgMaxerr d

/-- INV_PENDING set at the home (R357). -/
def setInvPending (s : State) (c : Ctx) (va : Nat) : State :=
  if rgReach s c va then
    vaPut s c (va + 0x3E) 1 (Nat.lor (rgEflags (rgRead s c va)) 1)
  else s

/-! ## SAMPLE_AT_HOME and EAGER_HIT_NOTIFY (R345, R353, R356) -/

/-- A logical index as one number, ordered as R349 orders it. -/
def indexOf (kord gid w : Nat) : Nat := kord * 2 ^ 64 + gid * 2 ^ 32 + w

/-- The logical index of an entry. -/
def entryIndex (e : List Byte) : Nat := indexOf (rdFld e 0 8) (rdFld e 8 4) (rdFld e 12 4)

/-- The 128 bytes of a sample (R345). -/
def sampleBytes (x : Sample) : List Byte :=
  let pad := fun (n : Nat) (l : List Byte) => (l ++ List.replicate n 0).take n
  natLe x.kord 8 ++ natLe x.gid 4 ++ natLe x.word3.toNat 4
    ++ pad 64 (x.x.flatMap fun v => natLe v.toNat 4)
    ++ pad 32 (x.y.flatMap fun v => natLe v.toNat 4)
    ++ natLe ((x.err.getD 0).toNat) 4 ++ List.replicate 12 0

/-- The state with the entries from `i` upward written. -/
def putEntries (s : State) (c : Ctx) (d : List Byte) (i : Nat) (es : List (List Byte)) : State :=
  es.zipIdx.foldl (fun s p => excGet s (writeVa s .nobody 0 c (rgSamples d + 128 * (i + p.2)) 0 p.1)) s

/-- The insertion of a sample into a buffer that holds `n` (R356). -/
def insertSample (s : State) (c : Ctx) (va : Nat) (d : List Byte) (x : Sample) : State :=
  let n := rgCount d
  let ix := indexOf x.kord x.gid x.word3.toNat
  let es := (List.range n).map fun i => sampleEntry s c d i
  if es.any fun e => entryIndex e == ix then
    vaBump s c (va + 0x50) 8 1
  else
    let at_ := (es.filter fun e => decide (entryIndex e < ix)).length
    let tail := es.drop at_
    if n < rgCap d then
      vaPut (putEntries s c d at_ (sampleBytes x :: tail)) c (va + 0x40) 4 (n + 1)
    else if at_ < n then putEntries s c d at_ (sampleBytes x :: tail.dropLast)
    else s

/-- The check of a sample in ARMED (R353, R356). -/
def checkSample (s : State) (c : Ctx) (va : Nat) (d : List Byte) (err : Nat) : State :=
  let s := vaBump s c (va + 0x44) 4 1
  let s := if cmpF (decodeF F32 (rgMaxerr d)) (decodeF F32 err) < 0 then vaPut s c (va + 0x48) 4 err else s
  if (rgFlags d).testBit 0 && decide (0 < cmpF (decodeF F32 err) (decodeF F32 (rgHard d))) then
    vaPut s c (va + 0x3E) 1 (Nat.lor (rgEflags d) 2)
  else s

/-- SAMPLE_AT_HOME: the descriptor's home acts on one sample (R356). A halt discards it. -/
def execSampleAtHome (sample : Nat) (s : State) : Host.Outcome State Fault Refusal :=
  match s.ctl.samples.find? fun x => x.id == sample with
  | none => .next s
  | some x =>
    let s := { s with ctl := { s.ctl with samples := s.ctl.samples.filter fun y => y.id != sample } }
    match findCtx s.ctl.ctxs x.part x.ctx, regionVa s x.kern x.region with
    | some c, some va =>
      if !rgReach s c va || !formsNodes c then .next s
      else
        let d := rgRead s c va
        let s := insertSample s c va d x
        .next (match x.err with
          | some e => checkSample s c va d e.toNat
          | none => s)
    | _, _ => .next s

/-- EAGER_HIT_NOTIFY: a core learns of a region's eager hit (R353). -/
def execEagerHitNotify (core part ctx region : Nat) (s : State) : Host.Outcome State Fault Refusal :=
  match findCtx s.ctl.ctxs part ctx with
  | none => .next s
  | some c =>
    match (c.regionAt.find? fun p => p.1 == region).map fun p => p.2.toNat with
    | none => .next s
    | some va =>
      if rgReach s c va && (rgEflags (rgRead s c va)).testBit 1
          && !c.eagerSeen.contains (core, region) then
        .next { s with ctl := { s.ctl with ctxs := modCtx s.ctl.ctxs part ctx fun x =>
          { x with eagerSeen := (core, region) :: x.eagerSeen } } }
      else .next s

end Sys2Proof.Machine
end

