-- ==== Sys2Proof/Machine/Completion.lean ====
section
/-! DEFINITION. Completion.lean: the events that end a memory operation (R51, R52, R94, R198, R200, R205,
R206, R218), the fitting engine's answers (R355, R356), leases that end (R337), the directory sweep (R325)
and page walks (R310, R317). -/

namespace Sys2Proof.Machine

/-! ## LOAD_COMPLETE (R51) -/

/-- The same answer in every lane of every operation of an issue. -/
def answerIssue (m : Mem) (issue v : Nat) : Mem :=
  { m with ops := modIf m.ops (fun o => o.issue == issue) fun o =>
      { o with parts := o.parts.map fun p =>
          { p with got := some (natLe v 4), performed := true, acked := true } } }

/-- The end of a value-returning operation: results, acquire actions and counter (R51, R218). -/
def landLoad (s : State) (o : MemOp) : State := retireOp (finishAcquire (writeLanes s o) o) o

/-- The end of an operation that acquires nothing. -/
def landValue (s : State) (o : MemOp) : State := retireOp (writeLanes s o) o

/-- SLD writes its uniform register (R158). -/
def landUniform (s : State) (o : MemOp) : State :=
  let v := BitVec.ofNat 32 (leNat (laneBytes o ((opLanes o).headD 0)))
  let s := { s with exe := { s.exe with gangs := modAt s.exe.gangs o.gang fun g =>
    { g with sregs := smSet g.sregs o.dst v } } }
  retireOp (finishAcquire s o) o

/-- The answer of a peer to part `i` of a read-modify-write or an append that was sent: a free value (R96, R223,
log 14); the index of a CLOSED answer is 0 (R94). -/
def drawAnswer (s : State) (o : MemOp) (i : Nat) : State :=
  match o.parts[i]? with
  | none => s
  | some p =>
    if !paPeer s p.pa || !p.performed || p.got.isSome || !answerable s.sys o.id (some i) then s
    else
      let v := (Config.peerAnswer s.exe.fresh).toNat
      let bs := match o.kind with
        | .enq _ => ansBytes (v % 3) (if v % 3 = 2 then 0 else v / 2 ^ 32)
        | _ => natLe v p.len
      let t := ackReq { s with exe := { s.exe with fresh := s.exe.fresh + 1 } } o.id (some i)
      { t with mem := gotPart t.mem o.id i bs true }

/-- The answers of every part of an operation that was sent to a peer. -/
def drawAnswers (s : State) (o : MemOp) : State :=
  (List.range o.parts.length).foldl (fun t i => drawAnswer t o i) s

/-- The entries that a DEQ's lanes took, written into the window in lane order (R94). -/
def deqWindow (s : State) (o : MemOp) : State :=
  modWindow s (opGroup s o) fun w => o.parts.foldl (fun w p =>
    if leNat ((p.got.getD []).take 4) = 0 then smPut w p.aux p.wdata else w) w

/-- Whether what comes before the release of DEVICE scope of an ACCARM is done (R267, R218). -/
def armReady (s : State) (o : MemOp) : Bool :=
  (issueOps s.mem o.issue).all fun q => relReady (ownDev s.sys) s.mem.ops scDevice q.core q.gang q.slice q.issue

/-- ACCARM performed once for its issue, when its release is done (R267). -/
def armDo (s : State) (o : MemOp) : State :=
  match o.parts, opCtx s o with
  | p :: _, some c =>
    if p.got.isSome || !armReady s o then s
    else
      let (s, v) := accArm s c p.aux
      { s with mem := answerIssue s.mem o.issue v }
  | _, _ => s

/-- The value AXQ reads in lane part `p` (R358). -/
def axqPart (s : State) (o : MemOp) (region sel : Nat) (p : MemPart) : MemPart :=
  let v := if sel = 0 then p.aux
    else match opCtx s o, regionVa s o.kern region with
      | some c, some va => axqValue s c va sel
      | _, _ => 0
  { p with got := some (natLe v 4) }

/-- The value ACCQ reads in lane part `p` (R269). -/
def accqPart (s : State) (o : MemOp) (p : MemPart) : MemPart :=
  { p with got := some (natLe (match opCtx s o with
    | some c => accqValue s c p.aux p.aux2
    | none => 0) 4) }

/-- Every part has its data. -/
def allGot (o : MemOp) : Bool := o.parts.all fun p => p.got.isSome

/-- Every part is acknowledged. -/
def allAcked (o : MemOp) : Bool := o.parts.all fun p => p.acked

/-- Whether a value-returning operation has everything it waits for: its data, its writes' acknowledgements, and for an
acquire at SYSTEM the earlier reads of host memory (R218). -/
def mayLand (s : State) (o : MemOp) : Bool :=
  allGot o && (isLoad o || allAcked o) && hostReadsDone (ownDev s.sys) s.mem.ops o

/-- A state with an operation's later step `f`, where the operation still stands. -/
def onOp (s : State) (op : Nat) (f : State → MemOp → State) : State :=
  match findOp s.mem op with
  | none => s
  | some o => f s o

/-- LOAD_COMPLETE: a value-returning operation's results land and the L counter falls. -/
def execLoadComplete (op : Nat) (s : State) : Host.Outcome State Fault Refusal :=
  match findOp s.mem op with
  | none => .next s
  | some o =>
    if o.cls != .l && o.kind != .sload then .next s
    else if o.killed then .next (retireOp s o)
    else
      match o.kind with
      | .load => .next (if mayLand s o then landLoad s o else s)
      | .sload => .next (if mayLand s o then landUniform s o else s)
      | .rmw _ _ _ | .enq _ =>
        .next (onOp (drawAnswers s o) op fun t q => if mayLand t q then landLoad t q else t)
      | .deq _ => .next (if mayLand s o then landLoad (deqWindow s o) o else s)
      | .ldl => .next (if localOk s o then landLoad s (ldlDo s o) else s)
      | .atl cas _ =>
        if atlReady s o then
          let t := if o.parts.all MemPart.performed && !o.parts.isEmpty then s else atlIssue s o cas
          .next (onOp t op landLoad)
        else .next s
      | .lockb => .next (onOp (if allGot o && !o.parts.isEmpty then s else lockIssue s o) op landValue)
      | .accarm => .next (onOp (armDo s o) op fun t q => if allGot q then landValue t q else t)
      | .accq => .next (landValue s { o with parts := o.parts.map (accqPart s o) })
      | .axq r sel => .next (landValue s { o with parts := o.parts.map (axqPart s o r sel) })
      | .store | .stl | .flush | .unlockb | .contrib | .accdrop | .pstore | .axinv _ | .axb _ | .axe _ | .copyAck =>
        .next s

/-! ## STORE_ACK (R51, R191, R201, R340) -/

/-- The parts of an operation whose packets are acknowledged: those sent to a peer before this event. -/
def ackSent (s : State) (o : MemOp) (peer : MemPart → Bool) : State :=
  o.parts.zipIdx.foldl (fun s x =>
    if x.1.performed && !x.1.acked && peer x.1 && answerable s.sys o.id (some x.2) then
      { ackReq s o.id (some x.2) with mem := ackParts (markPart s.mem o.id x.2 true) o.issue x.1.pa }
    else s) s

/-- A store's part to host memory performed, or to a peer sent, where it may be (R191, R331, R333). -/
def storeOutPart (s : State) (op i : Nat) : State :=
  match findOp s.mem op with
  | none => s
  | some o =>
    match o.parts[i]? with
    | none => s
    | some p =>
      let own := ownDev s.sys
      if p.performed || paLocal own p.pa || !performOk own s.mem.ops o p || !innerOk o i p then s
      else if paHost own p.pa then ackWrite (engineWrite s .nobody p.leaf p.pa p.wdata) o i p.pa
      else if peerGone s p.pa then ackWrite (noteLoss s o) o i p.pa
      else if canSend s.sys (paDev p.pa) (frameOf (paOff p.pa)) 0 then
        let t := sendReq s o.part (paDev p.pa) o.id 0 i (.write (paOff p.pa) p.wdata)
        { t with mem := markPart t.mem o.id i false }
      else s

/-- The destinations of a PSTORE's packets, each once, in ascending order of device and frame (R340). -/
def pstoreFrames (ps : List MemPart) : List Nat :=
  (framesOf ps).foldl (fun fs f => insertBy id f fs) []

/-- The bytes of a PSTORE's packet to a frame, by their offsets there: the highest lane's where lanes name one byte
(R340). -/
def pstoreBytes (ps : List MemPart) (f : Nat) : List (Nat × Byte) :=
  (ps.filter fun p => paFrame p.pa == f).foldl (fun (m : List (Nat × Byte)) p =>
    p.wdata.zipIdx.foldl (fun m b =>
      let k := p.pa % 512 + b.2
      insertBy Prod.fst (k, b.1) (m.filter fun x => x.1 != k)) m) []

/-- The packets of a PSTORE sent, once its release is done in every slice of the issue (R340, R341). A packet to a lost
peer is lost (R336). -/
def pstoreSend (s : State) (o : MemOp) : State :=
  let ops := issueOps s.mem o.issue
  let ps := ops.flatMap fun q => q.parts
  let own := ownDev s.sys
  let ready := ops.all fun q => q.parts.all fun p => performOk own (s.mem.ops.filter fun r => r.issue != o.issue) q p
  let sendable := ps.all fun p => peerGone s p.pa || canSend s.sys (paDev p.pa) (frameOf (paOff p.pa)) 0
  if (ps.any fun p => p.performed) || !ready || !sendable then s
  else
    let t := (pstoreFrames ps).foldl (fun s f =>
      if peerGone s (512 * f) then noteLoss s o
      else sendReq s o.part (paDev (512 * f)) o.issue 0 f (.scatter (paOff (512 * f)) (pstoreBytes ps f))) s
    let sent := fun (q : MemOp) =>
      { q with parts := q.parts.map fun p => { p with performed := true, acked := peerGone s p.pa } }
    { t with mem := { t.mem with ops := modIf t.mem.ops (fun q => q.issue == o.issue) sent } }

/-- Every packet of a PSTORE acknowledged, where they have been sent (R340). -/
def pstoreAck (s : State) (o : MemOp) : State :=
  if !answerable s.sys o.issue none then s
  else if o.parts.all fun p => p.performed then
    let acked := fun (q : MemOp) => { q with parts := q.parts.map fun p => { p with acked := true } }
    let t := ackReq s o.issue none
    { t with mem := { t.mem with ops := modIf t.mem.ops (fun q => q.issue == o.issue) acked } }
  else pstoreSend s o

/-- The partials of a contribute that name another device leave in class PART (R268, R338); one to a lost peer is lost
(R336). -/
def contribSend (s : State) (op : Nat) : State :=
  onOp s op fun s o =>
    let replay := ((s.exe.groups[opGroup s o]?).map Group.replay).getD false
    o.parts.zipIdx.foldl (fun s x =>
      let p := x.1
      let dev := handleDev p.aux
      if p.performed || dev == ownDev s.sys then s
      else if s.sys.lostPeers.contains dev then noteLoss { s with mem := markPart s.mem op x.2 true } o
      else if canSend s.sys dev p.aux 3 then
        let t := sendReq s o.part dev op 3 x.2 (.partialSum o.part o.ctx (BitVec.ofNat 32 p.aux) p.aux2
          (BitVec.ofNat 32 p.cmp.toNat) (BitVec.ofNat 64 (leNat p.wdata)) o.nreg replay)
        { t with mem := markPart t.mem op x.2 false }
      else s) s

/-- Another operation of the same issue still has the action to do. -/
def leadLeft (s : State) (o : MemOp) (lead : MemPart → Bool) : Bool :=
  (issueOps s.mem o.issue).any fun q => q.id != o.id && q.parts.any lead

/-- An operation of class S retired where every part of it is acknowledged. -/
def endStore (s : State) (op : Nat) : State := onOp s op fun t q => if allAcked q then retireOp (finishAcquire t q) q else t

/-- STORE_ACK: every home of a store-class operation acknowledges and the S counter falls. Parts to host
memory, to a peer, to the window and to a device engine are performed here; those sent to a peer are acknowledged by a
later event, as are the packets that no operation waits for. -/
def execStoreAck (op : Nat) (s : State) : Host.Outcome State Fault Refusal :=
  match findOp s.mem op with
  | none => .next (if (s.exe.copies.any fun c => c.id == op) || !answerable s.sys op none then s else ackReq s op none)
  | some o =>
    if o.cls != .s then .next s
    else
      let peer := fun (p : MemPart) => paPeer s p.pa
      match o.kind with
      | .store =>
        .next (endStore ((List.range o.parts.length).foldl (fun t i => storeOutPart t op i) (ackSent s o peer)) op)
      | .pstore => .next (endStore (pstoreAck s o) op)
      | .rmw _ _ _ => .next (endStore (ackSent s o peer) op)
      | .contrib =>
        .next (endStore (contribSend (ackSent s o fun p => handleDev p.aux != ownDev s.sys) op) op)
      | .stl => .next (if localOk s o && lowerSlicesDone s o then retireOp (stlDo s o) o else s)
      | .atl cas _ =>
        if atlReady s o then
          let t := if o.parts.all MemPart.performed && !o.parts.isEmpty then s else atlIssue s o cas
          .next (onOp t op retireOp)
        else .next s
      | .flush =>
        let lead := fun (p : MemPart) => p.aux == 1
        if o.parts.any lead then .next (if flushReady s o then retireOp (flushDo s o) o else s)
        else .next (if leadLeft s o lead then s else retireOp s o)
      | .unlockb => .next (retireOp (unlockDo s o) o)
      | .accdrop =>
        let done := o.parts.all fun p => match opCtx s o with
          | some c => dropDone c p.aux
          | none => true
        .next (if done then retireOp s o else s)
      | .axinv r =>
        if o.parts.isEmpty then .next (if leadLeft s o (fun _ => true) then s else retireOp s o)
        else
          match opCtx s o, regionVa s o.kern r with
          | some c, some va => .next (retireOp (setInvPending s c va) o)
          | _, _ => .next (retireOp s o)
      | .load | .sload | .ldl | .lockb | .accarm | .accq | .axq _ _ | .axb _ | .axe _ | .enq _ | .deq _ | .copyAck =>
        .next s

/-! ## FIT_ANSWER (R51, R355, R356, R359) -/

/-- Whether a sample of an issue has not been accepted by its home (R356). -/
def samplesLeft (s : State) (o : MemOp) : Bool :=
  s.ctl.samples.any fun x => decide (o.issue ≤ x.op) && decide (x.op < o.issue + 8)

/-- FIT_ANSWER: the fitting engine answers an AXB or AXE and the F counter falls. -/
def execFitAnswer (op : Nat) (s : State) : Host.Outcome State Fault Refusal :=
  match findOp s.mem op with
  | none => .next s
  | some o =>
    match o.kind with
    | .axb _ => .next (if o.killed then retireOp s o else landValue s o)
    | .axe _ => .next (if samplesLeft s o then s else retireOp s o)
    | _ => .next s

/-! ## Leases, the directory and translations -/

/-- The cells of a die's leased frame whose time has come (R337). -/
def expiredCells (s : State) (die frame : Nat) : List Nat :=
  (s.mem.l2.filter fun b => b.isOf die frame && !b.live s.sys.ptp).flatMap fun b =>
    (List.range b.cells.length).map fun j => b.start + j

/-- A leased frame dropped from a die's local slice and from the L1 of its cores, where its lease has ended
(R337). -/
def expireFrame (s : State) (die frame : Nat) : State :=
  let cs := expiredCells s die frame
  if cs.isEmpty then s
  else
    let m := l2Remove s.mem die frame cs
    { s with mem := l1Drop m fun b => coreDie b.core == die && b.frame + 2 ^ 43 == frame
        && cs.any fun i => decide (b.start ≤ i) && decide (i < b.start + b.cells.length) }

/-- LEASE_EXPIRY: a reader drops a leased copy at its expiry. -/
def execLeaseExpiry (die frame : Nat) (s : State) : Host.Outcome State Fault Refusal :=
  .next (expireFrame s die frame)

/-- Every lease whose time has come (R337). -/
def expireLeases (s : State) : State :=
  (s.mem.l2.filter fun b => b.expiry.isSome).foldl (fun s b => expireFrame s b.die b.frame) s

/-- DIRECTORY_SWEEP: a home slice writes 0 to every HORIZON that has been reached and frees the entries left
empty (R325). -/
def execDirectorySweep (die slice : Nat) (s : State) : Host.Outcome State Fault Refusal :=
  let swept := fun (e : DirEntry) =>
    if homeDie e.grain == die && sliceOf (frameOf e.grain) == slice && horizonReached e.horizon s.sys.ptp
        && !txnBusy s.mem e.grain then
      { e with horizon := 0, ptrs := e.ptrs.filter fun a => a != 9 }
    else e
  .next { s with mem := { s.mem with dir := (s.mem.dir.map swept).filter fun e => !dirEmpty s.sys.ptp e } }

/-! ## Page walks (R310, R317, R319) -/

/-- The walkers of a die (R319), and the entries of its upper-level cache (R317). -/
def walkers : Nat := 16
def upperSize : Nat := 256

/-- The entries of levels 3 to 1 that a walk passes through, as (level, entry). -/
def walkTrace (m : Mem) (up : Nat → Option Dbl) (va : Nat) : (fuel : Nat) → (t : Nat) → List (Nat × Dbl)
  | 0, _ => []
  | fuel + 1, t =>
    let e := match up fuel with
      | some d => d.toNat
      | none => coNat m (paOff t + 8 * walkIndex fuel va) 8
    if fuel = 0 ∨ e % 2 = 0 ∨ e.testBit 1 = true then []
    else (fuel, BitVec.ofNat 64 e) :: walkTrace m up va fuel (bits e 51 8 * 2 ^ 8)

/-- A die's upper-level cache with an entry put in; a full one drops the entry it has had longest. -/
def upperPut (us : List UpperEntry) (u : UpperEntry) : List UpperEntry :=
  if (upperFind us u.die u.part u.ctx u.lvl u.va).isSome then us
  else
    let mine := us.filter fun x => x.die == u.die
    let us := if mine.length < upperSize then us else
      match mine.getLast? with
      | some v => us.filter fun x => x != v
      | none => us
    u :: us

/-- Whether a die's walkers have taken up a waiting page: they start the oldest first (R319). -/
def walkOn (ws : List Walk) (w : Walk) : Bool := ((ws.filter fun x => x.die == w.die).take walkers).contains w

/-- A leaf that a walk brings: into the L2 TLB of its slice and the L1 TLBs of the cores that missed (R317). -/
def walkLoads (tlb : List TlbEntry) (w : Walk) (va leaf sh : Nat) : List TlbEntry :=
  let e : TlbEntry := ⟨l2Tlb w.die w.ctx va, w.part, w.ctx, va / 2 ^ sh, sh, BitVec.ofNat 64 leaf, false⟩
  w.cores.foldl (fun t k => tlbPut t l1TlbSize { e with place := coreAt k }) (tlbPut tlb l2TlbSize e)

/-- PAGE_WALK: one of a die's walkers reads the entries of an address that waits, at their homes or in the die's
upper-level cache, and every miss that has joined receives the leaf (R310, R317, R319). A walk that faults leaves
nothing; the access that needs it raises the fault. -/
def execPageWalk (part ctx die : Nat) (va : Dbl) (s : State) : Host.Outcome State Fault Refusal :=
  match s.mem.walks.find? fun w => w.die == die && w.part == part && w.ctx == ctx && w.page == va.toNat / 2 ^ 16 with
  | none => .next s
  | some w =>
    match findCtx s.ctl.ctxs part ctx, findPart s.ctl.parts part with
    | some c, some p =>
      if !walkOn s.mem.walks w || c.state == .halting || c.state == .halted then .next s
      else
        let up := fun (l : Nat) => (upperFind s.mem.upper die part ctx l va.toNat).map UpperEntry.entry
        let m := { s.mem with walks := s.mem.walks.filter fun x => x != w }
        match walkFrom s.mem up s.sys.domId (ownDev s.sys) p.dies va.toNat 4 c.desc.ptRoot with
        | .error _ => .next { s with mem := m }
        | .ok (leaf, sh) =>
          let us := (walkTrace s.mem up va.toNat 4 c.desc.ptRoot).foldl (fun us x =>
            upperPut us ⟨die, part, ctx, x.1, va.toNat, x.2⟩) m.upper
          .next { s with mem := { m with upper := us, tlb := walkLoads m.tlb w va.toNat leaf sh } }
    | _, _ => .next s

end Sys2Proof.Machine
end

