-- ==== Sys2Proof/WellFormed.lean ====
section
/-! DEFINITION. WellFormed.lean: the legality of an instruction word that its encoding alone decides
(R54, R56): register codes of R41, R43 and R44 and sub-fields of each instruction's description.
What depends on the mode word in force, on the declared registers (R46) or on the accumulator count
(R279) is judged at issue. -/

namespace Sys2Proof.WellFormed

/-- A 32-bit per-lane source code (R41). -/
def src (c : Byte) : Bool := c.toNat ≤ 250
/-- A per-lane destination code (R41). -/
def dst (c : Byte) : Bool := c.toNat ≤ 247
/-- A destination of counter class L: an O or V register (R42). -/
def loadDst (c : Byte) : Bool := 1 ≤ c.toNat && c.toNat ≤ 247
/-- A main register V8 to V247 (R41). -/
def mainReg (c : Byte) : Bool := 8 ≤ c.toNat && c.toNat ≤ 247
/-- An even main register V8 to V246 naming a pair (R43). -/
def pair (c : Byte) : Bool := mainReg c && c.toNat % 2 == 0
/-- A 64-bit operand that may also be IM, ZERO or LANE (R43). -/
def pairSrc (c : Byte) : Bool := pair c || (248 ≤ c.toNat && c.toNat ≤ 250)
/-- The base of a load or store of "Block": an even pair or ZERO (R196). -/
def basePair (c : Byte) : Bool := pair c || c.toNat == 249
/-- A uniform source (R44). -/
def uniSrc (c : Byte) : Bool := c.toNat ≤ 63 || c.toNat == 248 || c.toNat == 249
/-- A uniform destination (R44). -/
def uniDst (c : Byte) : Bool := c.toNat ≤ 63
/-- The even uniform register of SLD and SST (R142). -/
def uniPair (c : Byte) : Bool := c.toNat ≤ 62 && c.toNat % 2 == 0
/-- The first O register of a copy descriptor (R252). -/
def copyReg (c : Byte) : Bool := 1 ≤ c.toNat && c.toNat ≤ 4

/-- The control registers of R80, and whether each is 64 bits wide. -/
def csrWide (n : Nat) : Option Bool :=
  if n = 0x000 ∨ n = 0x001 ∨ n = 0x002 ∨ n = 0x011 ∨ n = 0x020 ∨ n = 0x021 ∨ n = 0x040 ∨ n = 0x041
    ∨ n = 0x042 ∨ n = 0x050 ∨ (0x060 ≤ n ∧ n ≤ 0x063) then some false
  else if n = 0x010 ∨ n = 0x012 ∨ n = 0x030 ∨ (0x068 ≤ n ∧ n ≤ 0x06B) then some true
  else none

/-- The register field of CSRR for register number `n` (R80). -/
def csrDst (d : Byte) (n : Nat) : Bool :=
  match csrWide n with
  | some true => pair d
  | some false => dst d
  | none => false

/-- The register field of CSRW for register number `n` (R80, R43). -/
def csrSrc (d : Byte) (n : Nat) : Bool :=
  match csrWide n with
  | some true => pairSrc d
  | some false => src d
  | none => false

end Sys2Proof.WellFormed

namespace Sys2Proof
open WellFormed

/-- The reserved values MODE refuses (R58). -/
def modeFieldsOk (t : BitVec 4) (r : BitVec 3) (c o : BitVec 3) (p : BitVec 4) : Bool :=
  t.toNat < 14 && r.toNat < 6 && c.toNat < 7 && o.toNat < 5 && p.toNat < 7

/-- The encoding of the instruction is one its description defines (R54, R56). Event rows have no
encoding and hold no field to judge. -/
def Instr.wf : Instr → Bool
  | .mode _ _ t r _ c o p => modeFieldsOk t r c o p
  | .brx a _ => pair a
  | .vote d _ s => if s.toNat = 3 then dst d else d.toNat < 8
  | .getc d s => dst d && s.toNat ≤ 14
  | .evwait a b | .evadd a b => pair a && pairSrc b
  | .ctr d s => pair d && s.toNat ≤ 2
  | .csrr d n => csrDst d n.toNat
  | .csrw d n => csrSrc d n.toNat
  | .iadd d a b | .isub d a b | .imul d a b | .imulh d a b | .imad d a b | .imin d a b
  | .imax d a b | .and d a b | .or d a b | .xor d a b | .andn d a b | .shl d a b | .shr d a b
  | .sar d a b | .rot d a b | .bfe d a b | .bfi d a b | .sel d a b | .idot4 d a b
  | .fadd d a b | .fsub d a b | .fmul d a b | .ffma d a b | .fmin d a b | .fmax d a b
  | .fscale d a b | .fdiv d a b | .dqmx d a b | .packl d a b | .fdot2 d a b =>
      dst d && src a && src b
  | .iabs d a | .popc d a | .clz d a | .brev d a | .mov d a | .fabs d a | .fneg d a | .fclass d a
  | .frint d a | .frcp d a | .frsq d a | .fsqrt d a | .fexp2 d a | .flog2 d a | .fsin d a
  | .fcos d a | .ftanh d a | .gamax d a | .rng d a _ | .cmp24 d a _ => dst d && src a
  | .icmp c _ a b => c.toNat ≤ 5 && src a && src b
  | .fcmp _ _ a b => src a && src b
  | .movi d _ | .movh d _ => dst d
  | .lea d a b => pair d && pairSrc a && src b
  | .shfli d a _ | .shflx d a _ | .shflu d a _ | .shfld d a _ => dst d && src a
  | .p2v d a s => dst d && (s.toNat = 0 || a.toNat = 0)
  | .v2p d a s => src a && (s.toNat = 0 || d.toNat = 0)
  | .sadd d a b | .ssub d a b | .smul d a b | .sand d a b | .sor d a b | .sxor d a b
  | .sshl d a b | .sshr d a b => uniDst d && uniSrc a && uniSrc b
  | .smov d a => uniDst d && uniSrc a
  | .smovi d _ => uniDst d
  | .scmp c _ a b => c.toNat ≤ 5 && uniSrc a && uniSrc b
  | .s2v d a => dst d && uniSrc a
  | .v2s d a => uniDst d && src a
  | .sld d a b => uniDst d && uniPair a && src b
  | .sst d a b => uniSrc d && uniPair a && src b
  | .cvt d a _ t => dst d && src a && t.toNat ≤ 13
  | .cvtsr d a f p _ => dst d && src a &&
      (f.toNat = 0 && p.toNat = 0 || (f.toNat = 1 || f.toNat = 2) && p.toNat ≤ 1
        || f.toNat = 3 || f.toNat = 4)
  | .qmx d a f => dst d && src a && 2 ≤ f.toNat
  | .unpackl d a f => dst d && src a && f.toNat ≤ 8
  | .gred d a s => dst d && src a && s.toNat ≤ 2
  | .ld d a b => loadDst d && basePair a && src b
  | .ld2 d a b | .ld4 d a b => mainReg d && basePair a && src b
  | .st d a b => src d && basePair a && src b
  | .st2 d a b | .st4 d a b => (mainReg d || d.toNat == 249) && basePair a && src b
  | .ldl d a b => loadDst d && src a && src b
  | .ldl4 d a b => mainReg d && src a && src b
  | .stl d a b => src d && src a && src b
  | .stl4 d a b => (mainReg d || d.toNat == 249) && src a && src b
  | .atadd d a b | .atand d a b | .ator d a b | .atxor d a b | .atmin d a b | .atmax d a b
  | .atxchg d a b | .atfmax d a b | .atfmin d a b => dst d && pair a && src b
  | .atcas d a b => loadDst d && pair a && src b
  | .atladd d a b => dst d && src a && src b
  | .atlcas d a b => loadDst d && src a && src b
  | .flush a b | .invr a b | .unlockb a b => basePair a && src b
  | .pref l a b => l.toNat ≤ 2 && basePair a && src b
  | .lockb d a b => loadDst d && basePair a && src b
  | .enq d a b | .deq d a b => pair d && pair a && src b
  | .pstore d a b => src d && pair a && src b
  | .binit a b | .bexp a b | .bwait a b => src a && src b
  | .barr d a k => dst d && src a && k.toNat ≤ 2
  | .btest _ a b => src a && src b
  | .nbarr d a g _ => dst d && (g.toNat = 0 && a.toNat = 249 || g.toNat = 1 && src a)
  | .nbwait a _ => src a
  | .copy d a _ r => src d && copyReg a && (r.toNat < 2 || r.toNat = 2 && d.toNat = 249)
  | .copyg d a _ => src d && copyReg a
  | .copyc d a _ f => pair d && copyReg a && f.toNat ≤ 2
  | .accarm d a => loadDst d && pair a
  | .contrib d a b | .contribn d a b => src d && src a && pair b
  | .accq d a b => loadDst d && src a && src b
  | .accdrop a => src a
  | .axb d a _ => mainReg d && mainReg a
  | .axe a _ => mainReg a
  | .axq d s _ => loadDst d && s.toNat ≤ 3
  | .tset _ p _ => p.toNat ≤ 2
  | .tsta _ _ _ o _ => o.toNat ≤ 5
  | .tloopImm _ c => c.toNat ≠ 0
  | _ => true

end Sys2Proof
end

