-- ==== Sys2Proof/Decode.lean ====
section
/-! DEFINITION. Decode.lean: the two opcode maps (R39, R53, R55, R289). A word is read as a natural
number below 2^32; a decoder answers none for every word that is not an instruction (R54, R56). -/

namespace Sys2Proof

/-- The field of width `k` at bit `lo` of the word `w`. -/
def fld (w lo k : Nat) : BitVec k := BitVec.ofNat k (w / 2 ^ lo)

/-- Lane opcodes 0x00 to 0x0F (R53). -/
def decodePage0 (w : Nat) : Option Instr :=
  match w / 2 ^ 24 % 16 with
  | 1 => if w / 2 ^ 0 % 2 ^ 24 == 0 then some (.nop) else none
  | 2 => if w / 2 ^ 0 % 2 ^ 2 == 0 then some (.mode (fld w 23 1) (fld w 20 3) (fld w 16 4) (fld w 13 3) (fld w 12 1) (fld w 9 3) (fld w 6 3) (fld w 2 4)) else none
  | 3 => some (.imm (fld w 0 24))
  | 4 => if w / 2 ^ 8 % 2 ^ 16 == 0 then some (.immh (fld w 0 8)) else none
  | 5 => some (.wait (fld w 18 6) (fld w 12 6) (fld w 6 6) (fld w 0 6))
  | 6 => some (.bra (fld w 0 24))
  | 7 => some (.call (fld w 0 24))
  | 8 => if w / 2 ^ 0 % 2 ^ 24 == 0 then some (.ret) else none
  | 9 => if w / 2 ^ 1 % 2 ^ 7 == 0 && w / 2 ^ 16 % 2 ^ 8 == 0 then some (.brx (fld w 8 8) (fld w 0 1)) else none
  | 10 => some (.rpush (fld w 0 24))
  | 11 => if w / 2 ^ 0 % 2 ^ 24 == 0 then some (.join) else none
  | 12 => some (.regang (fld w 0 24))
  | 13 => if w / 2 ^ 0 % 2 ^ 24 == 0 then some (.exit) else none
  | 14 => if w / 2 ^ 0 % 2 ^ 24 == 0 then some (.yield) else none
  | 15 => if w / 2 ^ 1 % 2 ^ 15 == 31872 && w / 2 ^ 19 % 2 ^ 5 == 0 then some (.elect (fld w 16 3) (fld w 0 1)) else none
  | _ => none

/-- Lane opcodes 0x10 to 0x1F (R53). -/
def decodePage1 (w : Nat) : Option Instr :=
  match w / 2 ^ 24 % 16 with
  | 0 => if w / 2 ^ 2 % 2 ^ 6 == 0 && w / 2 ^ 11 % 2 ^ 5 == 0 then some (.vote (fld w 16 8) (fld w 8 3) (fld w 0 2)) else none
  | 1 => if w / 2 ^ 4 % 2 ^ 12 == 3984 then some (.getc (fld w 16 8) (fld w 0 4)) else none
  | 2 => if w / 2 ^ 16 % 2 ^ 8 == 0 then some (.evwait (fld w 8 8) (fld w 0 8)) else none
  | 3 => if w / 2 ^ 16 % 2 ^ 8 == 0 then some (.evadd (fld w 8 8) (fld w 0 8)) else none
  | 4 => if w / 2 ^ 8 % 2 ^ 16 == 0 then some (.trap (fld w 0 8)) else none
  | 5 => if w / 2 ^ 0 % 2 ^ 24 == 0 then some (.rtt) else none
  | 6 => if w / 2 ^ 8 % 2 ^ 16 == 0 then some (.brk (fld w 0 8)) else none
  | 7 => if w / 2 ^ 8 % 2 ^ 16 == 0 then some (.halt (fld w 0 8)) else none
  | 8 => if w / 2 ^ 2 % 2 ^ 14 == 15936 then some (.ctr (fld w 16 8) (fld w 0 2)) else none
  | 9 => if w / 2 ^ 12 % 2 ^ 4 == 0 then some (.csrr (fld w 16 8) (fld w 0 12)) else none
  | 10 => if w / 2 ^ 12 % 2 ^ 4 == 0 then some (.csrw (fld w 16 8) (fld w 0 12)) else none
  | _ => none

/-- Lane opcodes 0x20 to 0x2F (R53). -/
def decodePage2 (w : Nat) : Option Instr :=
  match w / 2 ^ 24 % 16 with
  | 0 => some (.iadd (fld w 16 8) (fld w 8 8) (fld w 0 8))
  | 1 => some (.isub (fld w 16 8) (fld w 8 8) (fld w 0 8))
  | 2 => some (.imul (fld w 16 8) (fld w 8 8) (fld w 0 8))
  | 3 => some (.imulh (fld w 16 8) (fld w 8 8) (fld w 0 8))
  | 4 => some (.imad (fld w 16 8) (fld w 8 8) (fld w 0 8))
  | 5 => some (.imin (fld w 16 8) (fld w 8 8) (fld w 0 8))
  | 6 => some (.imax (fld w 16 8) (fld w 8 8) (fld w 0 8))
  | 7 => if w / 2 ^ 0 % 2 ^ 8 == 0 then some (.iabs (fld w 16 8) (fld w 8 8)) else none
  | 8 => some (.and (fld w 16 8) (fld w 8 8) (fld w 0 8))
  | 9 => some (.or (fld w 16 8) (fld w 8 8) (fld w 0 8))
  | 10 => some (.xor (fld w 16 8) (fld w 8 8) (fld w 0 8))
  | 11 => some (.andn (fld w 16 8) (fld w 8 8) (fld w 0 8))
  | 12 => some (.shl (fld w 16 8) (fld w 8 8) (fld w 0 8))
  | 13 => some (.shr (fld w 16 8) (fld w 8 8) (fld w 0 8))
  | 14 => some (.sar (fld w 16 8) (fld w 8 8) (fld w 0 8))
  | 15 => some (.rot (fld w 16 8) (fld w 8 8) (fld w 0 8))
  | _ => none

/-- Lane opcodes 0x30 to 0x3F (R53). -/
def decodePage3 (w : Nat) : Option Instr :=
  match w / 2 ^ 24 % 16 with
  | 0 => if w / 2 ^ 0 % 2 ^ 8 == 0 then some (.popc (fld w 16 8) (fld w 8 8)) else none
  | 1 => if w / 2 ^ 0 % 2 ^ 8 == 0 then some (.clz (fld w 16 8) (fld w 8 8)) else none
  | 2 => if w / 2 ^ 0 % 2 ^ 8 == 0 then some (.brev (fld w 16 8) (fld w 8 8)) else none
  | 3 => some (.bfe (fld w 16 8) (fld w 8 8) (fld w 0 8))
  | 4 => some (.bfi (fld w 16 8) (fld w 8 8) (fld w 0 8))
  | 5 => if w / 2 ^ 19 % 2 ^ 2 == 0 then some (.icmp (fld w 21 3) (fld w 16 3) (fld w 8 8) (fld w 0 8)) else none
  | 6 => some (.sel (fld w 16 8) (fld w 8 8) (fld w 0 8))
  | 7 => if w / 2 ^ 0 % 2 ^ 8 == 0 then some (.mov (fld w 16 8) (fld w 8 8)) else none
  | 8 => some (.movi (fld w 16 8) (fld w 0 16))
  | 9 => some (.movh (fld w 16 8) (fld w 0 16))
  | 10 => some (.lea (fld w 16 8) (fld w 8 8) (fld w 0 8))
  | 11 => if w / 2 ^ 5 % 2 ^ 3 == 0 then some (.shfli (fld w 16 8) (fld w 8 8) (fld w 0 5)) else none
  | 12 => if w / 2 ^ 5 % 2 ^ 3 == 0 then some (.shflx (fld w 16 8) (fld w 8 8) (fld w 0 5)) else none
  | 13 => if w / 2 ^ 5 % 2 ^ 3 == 0 then some (.shflu (fld w 16 8) (fld w 8 8) (fld w 0 5)) else none
  | 14 => if w / 2 ^ 5 % 2 ^ 3 == 0 then some (.shfld (fld w 16 8) (fld w 8 8) (fld w 0 5)) else none
  | 15 => some (.idot4 (fld w 16 8) (fld w 8 8) (fld w 0 8))
  | _ => none

/-- Lane opcodes 0x40 to 0x4F (R53). -/
def decodePage4 (w : Nat) : Option Instr :=
  match w / 2 ^ 24 % 16 with
  | 0 => if w / 2 ^ 3 % 2 ^ 5 == 0 && w / 2 ^ 11 % 2 ^ 5 == 0 && w / 2 ^ 19 % 2 ^ 5 == 0 then some (.pand (fld w 16 3) (fld w 8 3) (fld w 0 3)) else none
  | 1 => if w / 2 ^ 3 % 2 ^ 5 == 0 && w / 2 ^ 11 % 2 ^ 5 == 0 && w / 2 ^ 19 % 2 ^ 5 == 0 then some (.por (fld w 16 3) (fld w 8 3) (fld w 0 3)) else none
  | 2 => if w / 2 ^ 3 % 2 ^ 5 == 0 && w / 2 ^ 11 % 2 ^ 5 == 0 && w / 2 ^ 19 % 2 ^ 5 == 0 then some (.pxor (fld w 16 3) (fld w 8 3) (fld w 0 3)) else none
  | 3 => if w / 2 ^ 0 % 2 ^ 8 == 0 && w / 2 ^ 11 % 2 ^ 5 == 0 && w / 2 ^ 19 % 2 ^ 5 == 0 then some (.pnot (fld w 16 3) (fld w 8 3)) else none
  | 4 => if w / 2 ^ 1 % 2 ^ 7 == 0 && w / 2 ^ 11 % 2 ^ 5 == 0 then some (.p2v (fld w 16 8) (fld w 8 3) (fld w 0 1)) else none
  | 5 => if w / 2 ^ 1 % 2 ^ 7 == 0 && w / 2 ^ 19 % 2 ^ 5 == 0 then some (.v2p (fld w 16 3) (fld w 8 8) (fld w 0 1)) else none
  | 6 => if w / 2 ^ 0 % 2 ^ 8 == 0 && w / 2 ^ 11 % 2 ^ 5 == 0 && w / 2 ^ 19 % 2 ^ 5 == 0 then some (.pmov (fld w 16 3) (fld w 8 3)) else none
  | 8 => some (.sadd (fld w 16 8) (fld w 8 8) (fld w 0 8))
  | 9 => some (.ssub (fld w 16 8) (fld w 8 8) (fld w 0 8))
  | 10 => some (.smul (fld w 16 8) (fld w 8 8) (fld w 0 8))
  | 11 => some (.sand (fld w 16 8) (fld w 8 8) (fld w 0 8))
  | 12 => some (.sor (fld w 16 8) (fld w 8 8) (fld w 0 8))
  | 13 => some (.sxor (fld w 16 8) (fld w 8 8) (fld w 0 8))
  | 14 => some (.sshl (fld w 16 8) (fld w 8 8) (fld w 0 8))
  | 15 => some (.sshr (fld w 16 8) (fld w 8 8) (fld w 0 8))
  | _ => none

/-- Lane opcodes 0x50 to 0x5F (R53). -/
def decodePage5 (w : Nat) : Option Instr :=
  match w / 2 ^ 24 % 16 with
  | 0 => if w / 2 ^ 0 % 2 ^ 8 == 0 then some (.smov (fld w 16 8) (fld w 8 8)) else none
  | 1 => some (.smovi (fld w 16 8) (fld w 0 16))
  | 2 => if w / 2 ^ 19 % 2 ^ 2 == 0 then some (.scmp (fld w 21 3) (fld w 16 3) (fld w 8 8) (fld w 0 8)) else none
  | 3 => if w / 2 ^ 0 % 2 ^ 8 == 0 then some (.s2v (fld w 16 8) (fld w 8 8)) else none
  | 4 => if w / 2 ^ 0 % 2 ^ 8 == 0 then some (.v2s (fld w 16 8) (fld w 8 8)) else none
  | 5 => some (.sld (fld w 16 8) (fld w 8 8) (fld w 0 8))
  | 6 => some (.sst (fld w 16 8) (fld w 8 8) (fld w 0 8))
  | 8 => some (.fadd (fld w 16 8) (fld w 8 8) (fld w 0 8))
  | 9 => some (.fsub (fld w 16 8) (fld w 8 8) (fld w 0 8))
  | 10 => some (.fmul (fld w 16 8) (fld w 8 8) (fld w 0 8))
  | 11 => some (.ffma (fld w 16 8) (fld w 8 8) (fld w 0 8))
  | 12 => some (.fmin (fld w 16 8) (fld w 8 8) (fld w 0 8))
  | 13 => some (.fmax (fld w 16 8) (fld w 8 8) (fld w 0 8))
  | 14 => if w / 2 ^ 0 % 2 ^ 8 == 0 then some (.fabs (fld w 16 8) (fld w 8 8)) else none
  | 15 => if w / 2 ^ 0 % 2 ^ 8 == 0 then some (.fneg (fld w 16 8) (fld w 8 8)) else none
  | _ => none

/-- Lane opcodes 0x60 to 0x6F (R53). -/
def decodePage6 (w : Nat) : Option Instr :=
  match w / 2 ^ 24 % 16 with
  | 0 => if w / 2 ^ 19 % 2 ^ 2 == 0 then some (.fcmp (fld w 21 3) (fld w 16 3) (fld w 8 8) (fld w 0 8)) else none
  | 1 => if w / 2 ^ 0 % 2 ^ 8 == 0 then some (.fclass (fld w 16 8) (fld w 8 8)) else none
  | 2 => some (.fscale (fld w 16 8) (fld w 8 8) (fld w 0 8))
  | 3 => if w / 2 ^ 0 % 2 ^ 8 == 0 then some (.frint (fld w 16 8) (fld w 8 8)) else none
  | 4 => if w / 2 ^ 0 % 2 ^ 8 == 0 then some (.frcp (fld w 16 8) (fld w 8 8)) else none
  | 5 => if w / 2 ^ 0 % 2 ^ 8 == 0 then some (.frsq (fld w 16 8) (fld w 8 8)) else none
  | 6 => if w / 2 ^ 0 % 2 ^ 8 == 0 then some (.fsqrt (fld w 16 8) (fld w 8 8)) else none
  | 7 => if w / 2 ^ 0 % 2 ^ 8 == 0 then some (.fexp2 (fld w 16 8) (fld w 8 8)) else none
  | 8 => if w / 2 ^ 0 % 2 ^ 8 == 0 then some (.flog2 (fld w 16 8) (fld w 8 8)) else none
  | 9 => if w / 2 ^ 0 % 2 ^ 8 == 0 then some (.fsin (fld w 16 8) (fld w 8 8)) else none
  | 10 => if w / 2 ^ 0 % 2 ^ 8 == 0 then some (.fcos (fld w 16 8) (fld w 8 8)) else none
  | 11 => if w / 2 ^ 0 % 2 ^ 8 == 0 then some (.ftanh (fld w 16 8) (fld w 8 8)) else none
  | 12 => some (.fdiv (fld w 16 8) (fld w 8 8) (fld w 0 8))
  | 13 => if w / 2 ^ 6 % 2 ^ 2 == 0 then some (.cvt (fld w 16 8) (fld w 8 8) (fld w 4 2) (fld w 0 4)) else none
  | 14 => some (.cvtsr (fld w 16 8) (fld w 8 8) (fld w 5 3) (fld w 3 2) (fld w 0 3))
  | 15 => some (.rng (fld w 16 8) (fld w 8 8) (fld w 0 8))
  | _ => none

/-- Lane opcodes 0x70 to 0x7F (R53). -/
def decodePage7 (w : Nat) : Option Instr :=
  match w / 2 ^ 24 % 16 with
  | 0 => if w / 2 ^ 3 % 2 ^ 5 == 0 then some (.qmx (fld w 16 8) (fld w 8 8) (fld w 0 3)) else none
  | 1 => some (.dqmx (fld w 16 8) (fld w 8 8) (fld w 0 8))
  | 2 => some (.packl (fld w 16 8) (fld w 8 8) (fld w 0 8))
  | 3 => if w / 2 ^ 4 % 2 ^ 4 == 0 then some (.unpackl (fld w 16 8) (fld w 8 8) (fld w 0 4)) else none
  | 4 => if w / 2 ^ 0 % 2 ^ 8 == 0 then some (.gamax (fld w 16 8) (fld w 8 8)) else none
  | 5 => if w / 2 ^ 2 % 2 ^ 6 == 0 then some (.gred (fld w 16 8) (fld w 8 8) (fld w 0 2)) else none
  | 6 => some (.fdot2 (fld w 16 8) (fld w 8 8) (fld w 0 8))
  | 7 => if w / 2 ^ 1 % 2 ^ 7 == 0 then some (.cmp24 (fld w 16 8) (fld w 8 8) (fld w 0 1)) else none
  | _ => none

/-- Lane opcodes 0x80 to 0x8F (R53). -/
def decodePage8 (w : Nat) : Option Instr :=
  match w / 2 ^ 24 % 16 with
  | 0 => some (.ld (fld w 16 8) (fld w 8 8) (fld w 0 8))
  | 1 => some (.ld2 (fld w 16 8) (fld w 8 8) (fld w 0 8))
  | 2 => some (.ld4 (fld w 16 8) (fld w 8 8) (fld w 0 8))
  | 3 => some (.st (fld w 16 8) (fld w 8 8) (fld w 0 8))
  | 4 => some (.st2 (fld w 16 8) (fld w 8 8) (fld w 0 8))
  | 5 => some (.st4 (fld w 16 8) (fld w 8 8) (fld w 0 8))
  | 6 => some (.ldl (fld w 16 8) (fld w 8 8) (fld w 0 8))
  | 7 => some (.ldl4 (fld w 16 8) (fld w 8 8) (fld w 0 8))
  | 8 => some (.stl (fld w 16 8) (fld w 8 8) (fld w 0 8))
  | 9 => some (.stl4 (fld w 16 8) (fld w 8 8) (fld w 0 8))
  | 10 => some (.atadd (fld w 16 8) (fld w 8 8) (fld w 0 8))
  | 11 => some (.atand (fld w 16 8) (fld w 8 8) (fld w 0 8))
  | 12 => some (.ator (fld w 16 8) (fld w 8 8) (fld w 0 8))
  | 13 => some (.atxor (fld w 16 8) (fld w 8 8) (fld w 0 8))
  | 14 => some (.atmin (fld w 16 8) (fld w 8 8) (fld w 0 8))
  | 15 => some (.atmax (fld w 16 8) (fld w 8 8) (fld w 0 8))
  | _ => none

/-- Lane opcodes 0x90 to 0x9F (R53). -/
def decodePage9 (w : Nat) : Option Instr :=
  match w / 2 ^ 24 % 16 with
  | 0 => some (.atxchg (fld w 16 8) (fld w 8 8) (fld w 0 8))
  | 1 => some (.atcas (fld w 16 8) (fld w 8 8) (fld w 0 8))
  | 2 => some (.atfmax (fld w 16 8) (fld w 8 8) (fld w 0 8))
  | 3 => some (.atfmin (fld w 16 8) (fld w 8 8) (fld w 0 8))
  | 4 => some (.atladd (fld w 16 8) (fld w 8 8) (fld w 0 8))
  | 5 => some (.atlcas (fld w 16 8) (fld w 8 8) (fld w 0 8))
  | 6 => if w / 2 ^ 0 % 2 ^ 24 == 0 then some (.fence) else none
  | 7 => if w / 2 ^ 16 % 2 ^ 8 == 0 then some (.flush (fld w 8 8) (fld w 0 8)) else none
  | 8 => if w / 2 ^ 16 % 2 ^ 8 == 0 then some (.invr (fld w 8 8) (fld w 0 8)) else none
  | 9 => if w / 2 ^ 18 % 2 ^ 6 == 0 then some (.pref (fld w 16 2) (fld w 8 8) (fld w 0 8)) else none
  | 10 => some (.lockb (fld w 16 8) (fld w 8 8) (fld w 0 8))
  | 11 => if w / 2 ^ 16 % 2 ^ 8 == 0 then some (.unlockb (fld w 8 8) (fld w 0 8)) else none
  | 12 => some (.enq (fld w 16 8) (fld w 8 8) (fld w 0 8))
  | 13 => some (.deq (fld w 16 8) (fld w 8 8) (fld w 0 8))
  | 14 => some (.pstore (fld w 16 8) (fld w 8 8) (fld w 0 8))
  | _ => none

/-- Lane opcodes 0xA0 to 0xAF (R53). -/
def decodePageA (w : Nat) : Option Instr :=
  match w / 2 ^ 24 % 16 with
  | 0 => if w / 2 ^ 16 % 2 ^ 8 == 0 then some (.binit (fld w 8 8) (fld w 0 8)) else none
  | 1 => if w / 2 ^ 2 % 2 ^ 6 == 0 then some (.barr (fld w 16 8) (fld w 8 8) (fld w 0 2)) else none
  | 2 => if w / 2 ^ 16 % 2 ^ 8 == 0 then some (.bexp (fld w 8 8) (fld w 0 8)) else none
  | 3 => if w / 2 ^ 16 % 2 ^ 8 == 0 then some (.bwait (fld w 8 8) (fld w 0 8)) else none
  | 4 => if w / 2 ^ 19 % 2 ^ 5 == 0 then some (.btest (fld w 16 3) (fld w 8 8) (fld w 0 8)) else none
  | 5 => if w / 2 ^ 6 % 2 ^ 2 == 0 then some (.nbarr (fld w 16 8) (fld w 8 8) (fld w 4 2) (fld w 0 4)) else none
  | 6 => if w / 2 ^ 4 % 2 ^ 4 == 0 && w / 2 ^ 16 % 2 ^ 8 == 0 then some (.nbwait (fld w 8 8) (fld w 0 4)) else none
  | 7 => if w / 2 ^ 3 % 2 ^ 5 == 0 then some (.copy (fld w 16 8) (fld w 8 8) (fld w 2 1) (fld w 0 2)) else none
  | 8 => if w / 2 ^ 0 % 2 ^ 2 == 0 && w / 2 ^ 3 % 2 ^ 5 == 0 then some (.copyg (fld w 16 8) (fld w 8 8) (fld w 2 1)) else none
  | 9 => if w / 2 ^ 3 % 2 ^ 5 == 0 then some (.copyc (fld w 16 8) (fld w 8 8) (fld w 2 1) (fld w 0 2)) else none
  | _ => none

/-- Lane opcodes 0xB0 to 0xBF (R53). -/
def decodePageB (w : Nat) : Option Instr :=
  match w / 2 ^ 24 % 16 with
  | 0 => if w / 2 ^ 0 % 2 ^ 8 == 249 then some (.accarm (fld w 16 8) (fld w 8 8)) else none
  | 1 => some (.contrib (fld w 16 8) (fld w 8 8) (fld w 0 8))
  | 2 => some (.contribn (fld w 16 8) (fld w 8 8) (fld w 0 8))
  | 3 => some (.accq (fld w 16 8) (fld w 8 8) (fld w 0 8))
  | 4 => if w / 2 ^ 0 % 2 ^ 8 == 0 && w / 2 ^ 16 % 2 ^ 8 == 0 then some (.accdrop (fld w 8 8)) else none
  | 8 => if w / 2 ^ 6 % 2 ^ 2 == 0 then some (.axb (fld w 16 8) (fld w 8 8) (fld w 0 6)) else none
  | 9 => if w / 2 ^ 6 % 2 ^ 2 == 0 && w / 2 ^ 16 % 2 ^ 8 == 0 then some (.axe (fld w 8 8) (fld w 0 6)) else none
  | 10 => if w / 2 ^ 6 % 2 ^ 18 == 0 then some (.axinv (fld w 0 6)) else none
  | 11 => if w / 2 ^ 6 % 2 ^ 6 == 0 then some (.axq (fld w 16 8) (fld w 12 4) (fld w 0 6)) else none
  | _ => none

/-- The lane opcode map (R53): the opcode is bits [31:24]; fixed zero bits and fixed codes are
checked here, register codes by `Instr.wf`. -/
def decodeLaneRaw (w : Nat) : Option Instr :=
  match w / 2 ^ 28 with
  | 0 => decodePage0 w
  | 1 => decodePage1 w
  | 2 => decodePage2 w
  | 3 => decodePage3 w
  | 4 => decodePage4 w
  | 5 => decodePage5 w
  | 6 => decodePage6 w
  | 7 => decodePage7 w
  | 8 => decodePage8 w
  | 9 => decodePage9 w
  | 10 => decodePageA w
  | 11 => decodePageB w
  | _ => none

/-- The tile opcode map (R55, R289): the opcode is bits [31:26]. -/
def decodeTileRaw (w : Nat) : Option Instr :=
  match w / 2 ^ 26 with
  | 1 => if w / 2 ^ 0 % 2 ^ 26 == 0 then some (.tnop) else none
  | 2 => if w / 2 ^ 0 % 2 ^ 20 == 0 then some (.tfmt (fld w 24 2) (fld w 20 4)) else none
  | 3 => if w / 2 ^ 16 % 2 ^ 4 == 0 then some (.tset (fld w 22 4) (fld w 20 2) (fld w 0 16)) else none
  | 4 => if w / 2 ^ 16 % 2 ^ 2 == 0 then some (.taddImm (fld w 22 4) (fld w 18 4) (fld w 0 16))
    else if w / 2 ^ 0 % 2 ^ 12 == 0 && w / 2 ^ 16 % 2 ^ 2 == 2 then some (.taddReg (fld w 22 4) (fld w 18 4) (fld w 12 4))
    else none
  | 5 => if w / 2 ^ 0 % 2 ^ 12 == 0 then some (.tldb (fld w 22 4) (fld w 18 4) (fld w 14 4) (fld w 12 2)) else none
  | 6 => if w / 2 ^ 0 % 2 ^ 14 == 0 then some (.tldc (fld w 24 2) (fld w 20 4) (fld w 16 4) (fld w 14 2)) else none
  | 7 => if w / 2 ^ 0 % 2 ^ 24 == 0 then some (.tzero (fld w 24 2)) else none
  | 8 => if w / 2 ^ 0 % 2 ^ 6 == 0 then some (.mm (fld w 24 2) (fld w 22 2) (fld w 18 4) (fld w 14 4) (fld w 10 4) (fld w 6 4)) else none
  | 9 => if w / 2 ^ 0 % 2 ^ 6 == 0 then some (.mmdual (fld w 24 2) (fld w 22 2) (fld w 18 4) (fld w 14 4) (fld w 10 4) (fld w 6 4)) else none
  | 10 => if w / 2 ^ 0 % 2 ^ 6 == 0 then some (.mmt (fld w 24 2) (fld w 22 2) (fld w 18 4) (fld w 14 4) (fld w 10 4) (fld w 6 4)) else none
  | 11 => if w / 2 ^ 0 % 2 ^ 6 == 0 then some (.mms (fld w 24 2) (fld w 22 2) (fld w 18 4) (fld w 14 4) (fld w 10 4) (fld w 6 4)) else none
  | 12 => if w / 2 ^ 0 % 2 ^ 14 == 0 then some (.tlds (fld w 22 4) (fld w 18 4) (fld w 14 4)) else none
  | 13 => if w / 2 ^ 0 % 2 ^ 14 == 0 then some (.tsta (fld w 24 2) (fld w 22 2) (fld w 18 4) (fld w 15 3) (fld w 14 1)) else none
  | 14 => if w / 2 ^ 0 % 2 ^ 20 == 0 then some (.temit (fld w 24 2) (fld w 20 4)) else none
  | 15 => if w / 2 ^ 19 % 2 ^ 1 == 0 then some (.tloopImm (fld w 20 6) (fld w 0 19))
    else if w / 2 ^ 0 % 2 ^ 15 == 0 && w / 2 ^ 19 % 2 ^ 1 == 1 then some (.tloopReg (fld w 20 6) (fld w 15 4))
    else none
  | 16 => if w / 2 ^ 0 % 2 ^ 24 == 0 then some (.tincOff (fld w 24 2))
    else if w / 2 ^ 16 % 2 ^ 2 == 0 && w / 2 ^ 22 % 2 ^ 2 == 1 then some (.tincT (fld w 24 2) (fld w 18 4) (fld w 0 16))
    else if w / 2 ^ 16 % 2 ^ 8 == 128 then some (.tincAcc (fld w 24 2) (fld w 0 16))
    else none
  | 17 => if w / 2 ^ 0 % 2 ^ 18 == 0 then some (.twait (fld w 22 4) (fld w 18 4)) else none
  | 18 => if w / 2 ^ 0 % 2 ^ 18 == 0 then some (.tarr (fld w 22 4) (fld w 18 4)) else none
  | 19 => if w / 2 ^ 0 % 2 ^ 26 == 0 then some (.tstop) else none
  | _ => none

/-- The lane decoder: the instruction a lane word stands for, or none where the word raises
ILLEGAL_OP by its encoding alone (R54). -/
def decodeLane (w : Nat) : Option Instr := (decodeLaneRaw w).filter Instr.wf

/-- The tile decoder (R56). -/
def decodeTile (w : Nat) : Option Instr := (decodeTileRaw w).filter Instr.wf

/-- The word of `nbits` bits as the table numbers it: both streams use words of 32 bits, and bits
above `nbits` are zero. The table does not say which stream a word is for, and the two opcode maps
overlap: the lane map is tried first (log 4). -/
def decodeTableWord (nbits w : Nat) : Option Instr :=
  let v := w % 2 ^ min nbits 32
  match decodeLane v with
  | some i => some i
  | none => decodeTile v

/-- A word from its fixed bits and its fields, each placed at its lowest bit. -/
def pk (base : Nat) : List (Nat × Nat) → Nat
  | [] => base
  | (v, lo) :: fs => pk (base + v * 2 ^ lo) fs

/-- The word of a lane instruction, from its encoding (R53). -/
def encodeLane : Instr → Option Nat
  | .nop => some (pk 0x01000000 [])
  | .mode n g t r s c o p => some (pk 0x02000000 [(n.toNat, 23), (g.toNat, 20), (t.toNat, 16), (r.toNat, 13), (s.toNat, 12), (c.toNat, 9), (o.toNat, 6), (p.toNat, 2)])
  | .imm i => some (pk 0x03000000 [(i.toNat, 0)])
  | .immh i => some (pk 0x04000000 [(i.toNat, 0)])
  | .wait l s c f => some (pk 0x05000000 [(l.toNat, 18), (s.toNat, 12), (c.toNat, 6), (f.toNat, 0)])
  | .bra o => some (pk 0x06000000 [(o.toNat, 0)])
  | .call o => some (pk 0x07000000 [(o.toNat, 0)])
  | .ret => some (pk 0x08000000 [])
  | .brx a s => some (pk 0x09000000 [(a.toNat, 8), (s.toNat, 0)])
  | .rpush o => some (pk 0x0a000000 [(o.toNat, 0)])
  | .join => some (pk 0x0b000000 [])
  | .regang t => some (pk 0x0c000000 [(t.toNat, 0)])
  | .exit => some (pk 0x0d000000 [])
  | .yield => some (pk 0x0e000000 [])
  | .elect d s => some (pk 0x0f00f900 [(d.toNat, 16), (s.toNat, 0)])
  | .vote d a s => some (pk 0x10000000 [(d.toNat, 16), (a.toNat, 8), (s.toNat, 0)])
  | .getc d s => some (pk 0x1100f900 [(d.toNat, 16), (s.toNat, 0)])
  | .evwait a b => some (pk 0x12000000 [(a.toNat, 8), (b.toNat, 0)])
  | .evadd a b => some (pk 0x13000000 [(a.toNat, 8), (b.toNat, 0)])
  | .trap c => some (pk 0x14000000 [(c.toNat, 0)])
  | .rtt => some (pk 0x15000000 [])
  | .brk c => some (pk 0x16000000 [(c.toNat, 0)])
  | .halt c => some (pk 0x17000000 [(c.toNat, 0)])
  | .ctr d s => some (pk 0x1800f900 [(d.toNat, 16), (s.toNat, 0)])
  | .csrr d n => some (pk 0x19000000 [(d.toNat, 16), (n.toNat, 0)])
  | .csrw d n => some (pk 0x1a000000 [(d.toNat, 16), (n.toNat, 0)])
  | .iadd d a b => some (pk 0x20000000 [(d.toNat, 16), (a.toNat, 8), (b.toNat, 0)])
  | .isub d a b => some (pk 0x21000000 [(d.toNat, 16), (a.toNat, 8), (b.toNat, 0)])
  | .imul d a b => some (pk 0x22000000 [(d.toNat, 16), (a.toNat, 8), (b.toNat, 0)])
  | .imulh d a b => some (pk 0x23000000 [(d.toNat, 16), (a.toNat, 8), (b.toNat, 0)])
  | .imad d a b => some (pk 0x24000000 [(d.toNat, 16), (a.toNat, 8), (b.toNat, 0)])
  | .imin d a b => some (pk 0x25000000 [(d.toNat, 16), (a.toNat, 8), (b.toNat, 0)])
  | .imax d a b => some (pk 0x26000000 [(d.toNat, 16), (a.toNat, 8), (b.toNat, 0)])
  | .iabs d a => some (pk 0x27000000 [(d.toNat, 16), (a.toNat, 8)])
  | .and d a b => some (pk 0x28000000 [(d.toNat, 16), (a.toNat, 8), (b.toNat, 0)])
  | .or d a b => some (pk 0x29000000 [(d.toNat, 16), (a.toNat, 8), (b.toNat, 0)])
  | .xor d a b => some (pk 0x2a000000 [(d.toNat, 16), (a.toNat, 8), (b.toNat, 0)])
  | .andn d a b => some (pk 0x2b000000 [(d.toNat, 16), (a.toNat, 8), (b.toNat, 0)])
  | .shl d a b => some (pk 0x2c000000 [(d.toNat, 16), (a.toNat, 8), (b.toNat, 0)])
  | .shr d a b => some (pk 0x2d000000 [(d.toNat, 16), (a.toNat, 8), (b.toNat, 0)])
  | .sar d a b => some (pk 0x2e000000 [(d.toNat, 16), (a.toNat, 8), (b.toNat, 0)])
  | .rot d a b => some (pk 0x2f000000 [(d.toNat, 16), (a.toNat, 8), (b.toNat, 0)])
  | .popc d a => some (pk 0x30000000 [(d.toNat, 16), (a.toNat, 8)])
  | .clz d a => some (pk 0x31000000 [(d.toNat, 16), (a.toNat, 8)])
  | .brev d a => some (pk 0x32000000 [(d.toNat, 16), (a.toNat, 8)])
  | .bfe d a b => some (pk 0x33000000 [(d.toNat, 16), (a.toNat, 8), (b.toNat, 0)])
  | .bfi d a b => some (pk 0x34000000 [(d.toNat, 16), (a.toNat, 8), (b.toNat, 0)])
  | .icmp c d a b => some (pk 0x35000000 [(c.toNat, 21), (d.toNat, 16), (a.toNat, 8), (b.toNat, 0)])
  | .sel d a b => some (pk 0x36000000 [(d.toNat, 16), (a.toNat, 8), (b.toNat, 0)])
  | .mov d a => some (pk 0x37000000 [(d.toNat, 16), (a.toNat, 8)])
  | .movi d i => some (pk 0x38000000 [(d.toNat, 16), (i.toNat, 0)])
  | .movh d i => some (pk 0x39000000 [(d.toNat, 16), (i.toNat, 0)])
  | .lea d a b => some (pk 0x3a000000 [(d.toNat, 16), (a.toNat, 8), (b.toNat, 0)])
  | .shfli d a n => some (pk 0x3b000000 [(d.toNat, 16), (a.toNat, 8), (n.toNat, 0)])
  | .shflx d a n => some (pk 0x3c000000 [(d.toNat, 16), (a.toNat, 8), (n.toNat, 0)])
  | .shflu d a n => some (pk 0x3d000000 [(d.toNat, 16), (a.toNat, 8), (n.toNat, 0)])
  | .shfld d a n => some (pk 0x3e000000 [(d.toNat, 16), (a.toNat, 8), (n.toNat, 0)])
  | .idot4 d a b => some (pk 0x3f000000 [(d.toNat, 16), (a.toNat, 8), (b.toNat, 0)])
  | .pand d a b => some (pk 0x40000000 [(d.toNat, 16), (a.toNat, 8), (b.toNat, 0)])
  | .por d a b => some (pk 0x41000000 [(d.toNat, 16), (a.toNat, 8), (b.toNat, 0)])
  | .pxor d a b => some (pk 0x42000000 [(d.toNat, 16), (a.toNat, 8), (b.toNat, 0)])
  | .pnot d a => some (pk 0x43000000 [(d.toNat, 16), (a.toNat, 8)])
  | .p2v d a s => some (pk 0x44000000 [(d.toNat, 16), (a.toNat, 8), (s.toNat, 0)])
  | .v2p d a s => some (pk 0x45000000 [(d.toNat, 16), (a.toNat, 8), (s.toNat, 0)])
  | .pmov d a => some (pk 0x46000000 [(d.toNat, 16), (a.toNat, 8)])
  | .sadd d a b => some (pk 0x48000000 [(d.toNat, 16), (a.toNat, 8), (b.toNat, 0)])
  | .ssub d a b => some (pk 0x49000000 [(d.toNat, 16), (a.toNat, 8), (b.toNat, 0)])
  | .smul d a b => some (pk 0x4a000000 [(d.toNat, 16), (a.toNat, 8), (b.toNat, 0)])
  | .sand d a b => some (pk 0x4b000000 [(d.toNat, 16), (a.toNat, 8), (b.toNat, 0)])
  | .sor d a b => some (pk 0x4c000000 [(d.toNat, 16), (a.toNat, 8), (b.toNat, 0)])
  | .sxor d a b => some (pk 0x4d000000 [(d.toNat, 16), (a.toNat, 8), (b.toNat, 0)])
  | .sshl d a b => some (pk 0x4e000000 [(d.toNat, 16), (a.toNat, 8), (b.toNat, 0)])
  | .sshr d a b => some (pk 0x4f000000 [(d.toNat, 16), (a.toNat, 8), (b.toNat, 0)])
  | .smov d a => some (pk 0x50000000 [(d.toNat, 16), (a.toNat, 8)])
  | .smovi d i => some (pk 0x51000000 [(d.toNat, 16), (i.toNat, 0)])
  | .scmp c d a b => some (pk 0x52000000 [(c.toNat, 21), (d.toNat, 16), (a.toNat, 8), (b.toNat, 0)])
  | .s2v d a => some (pk 0x53000000 [(d.toNat, 16), (a.toNat, 8)])
  | .v2s d a => some (pk 0x54000000 [(d.toNat, 16), (a.toNat, 8)])
  | .sld d a b => some (pk 0x55000000 [(d.toNat, 16), (a.toNat, 8), (b.toNat, 0)])
  | .sst d a b => some (pk 0x56000000 [(d.toNat, 16), (a.toNat, 8), (b.toNat, 0)])
  | .fadd d a b => some (pk 0x58000000 [(d.toNat, 16), (a.toNat, 8), (b.toNat, 0)])
  | .fsub d a b => some (pk 0x59000000 [(d.toNat, 16), (a.toNat, 8), (b.toNat, 0)])
  | .fmul d a b => some (pk 0x5a000000 [(d.toNat, 16), (a.toNat, 8), (b.toNat, 0)])
  | .ffma d a b => some (pk 0x5b000000 [(d.toNat, 16), (a.toNat, 8), (b.toNat, 0)])
  | .fmin d a b => some (pk 0x5c000000 [(d.toNat, 16), (a.toNat, 8), (b.toNat, 0)])
  | .fmax d a b => some (pk 0x5d000000 [(d.toNat, 16), (a.toNat, 8), (b.toNat, 0)])
  | .fabs d a => some (pk 0x5e000000 [(d.toNat, 16), (a.toNat, 8)])
  | .fneg d a => some (pk 0x5f000000 [(d.toNat, 16), (a.toNat, 8)])
  | .fcmp c d a b => some (pk 0x60000000 [(c.toNat, 21), (d.toNat, 16), (a.toNat, 8), (b.toNat, 0)])
  | .fclass d a => some (pk 0x61000000 [(d.toNat, 16), (a.toNat, 8)])
  | .fscale d a b => some (pk 0x62000000 [(d.toNat, 16), (a.toNat, 8), (b.toNat, 0)])
  | .frint d a => some (pk 0x63000000 [(d.toNat, 16), (a.toNat, 8)])
  | .frcp d a => some (pk 0x64000000 [(d.toNat, 16), (a.toNat, 8)])
  | .frsq d a => some (pk 0x65000000 [(d.toNat, 16), (a.toNat, 8)])
  | .fsqrt d a => some (pk 0x66000000 [(d.toNat, 16), (a.toNat, 8)])
  | .fexp2 d a => some (pk 0x67000000 [(d.toNat, 16), (a.toNat, 8)])
  | .flog2 d a => some (pk 0x68000000 [(d.toNat, 16), (a.toNat, 8)])
  | .fsin d a => some (pk 0x69000000 [(d.toNat, 16), (a.toNat, 8)])
  | .fcos d a => some (pk 0x6a000000 [(d.toNat, 16), (a.toNat, 8)])
  | .ftanh d a => some (pk 0x6b000000 [(d.toNat, 16), (a.toNat, 8)])
  | .fdiv d a b => some (pk 0x6c000000 [(d.toNat, 16), (a.toNat, 8), (b.toNat, 0)])
  | .cvt d a p t => some (pk 0x6d000000 [(d.toNat, 16), (a.toNat, 8), (p.toNat, 4), (t.toNat, 0)])
  | .cvtsr d a f p r => some (pk 0x6e000000 [(d.toNat, 16), (a.toNat, 8), (f.toNat, 5), (p.toNat, 3), (r.toNat, 0)])
  | .rng d a s => some (pk 0x6f000000 [(d.toNat, 16), (a.toNat, 8), (s.toNat, 0)])
  | .qmx d a f => some (pk 0x70000000 [(d.toNat, 16), (a.toNat, 8), (f.toNat, 0)])
  | .dqmx d a b => some (pk 0x71000000 [(d.toNat, 16), (a.toNat, 8), (b.toNat, 0)])
  | .packl d a b => some (pk 0x72000000 [(d.toNat, 16), (a.toNat, 8), (b.toNat, 0)])
  | .unpackl d a f => some (pk 0x73000000 [(d.toNat, 16), (a.toNat, 8), (f.toNat, 0)])
  | .gamax d a => some (pk 0x74000000 [(d.toNat, 16), (a.toNat, 8)])
  | .gred d a s => some (pk 0x75000000 [(d.toNat, 16), (a.toNat, 8), (s.toNat, 0)])
  | .fdot2 d a b => some (pk 0x76000000 [(d.toNat, 16), (a.toNat, 8), (b.toNat, 0)])
  | .cmp24 d a s => some (pk 0x77000000 [(d.toNat, 16), (a.toNat, 8), (s.toNat, 0)])
  | .ld d a b => some (pk 0x80000000 [(d.toNat, 16), (a.toNat, 8), (b.toNat, 0)])
  | .ld2 d a b => some (pk 0x81000000 [(d.toNat, 16), (a.toNat, 8), (b.toNat, 0)])
  | .ld4 d a b => some (pk 0x82000000 [(d.toNat, 16), (a.toNat, 8), (b.toNat, 0)])
  | .st d a b => some (pk 0x83000000 [(d.toNat, 16), (a.toNat, 8), (b.toNat, 0)])
  | .st2 d a b => some (pk 0x84000000 [(d.toNat, 16), (a.toNat, 8), (b.toNat, 0)])
  | .st4 d a b => some (pk 0x85000000 [(d.toNat, 16), (a.toNat, 8), (b.toNat, 0)])
  | .ldl d a b => some (pk 0x86000000 [(d.toNat, 16), (a.toNat, 8), (b.toNat, 0)])
  | .ldl4 d a b => some (pk 0x87000000 [(d.toNat, 16), (a.toNat, 8), (b.toNat, 0)])
  | .stl d a b => some (pk 0x88000000 [(d.toNat, 16), (a.toNat, 8), (b.toNat, 0)])
  | .stl4 d a b => some (pk 0x89000000 [(d.toNat, 16), (a.toNat, 8), (b.toNat, 0)])
  | .atadd d a b => some (pk 0x8a000000 [(d.toNat, 16), (a.toNat, 8), (b.toNat, 0)])
  | .atand d a b => some (pk 0x8b000000 [(d.toNat, 16), (a.toNat, 8), (b.toNat, 0)])
  | .ator d a b => some (pk 0x8c000000 [(d.toNat, 16), (a.toNat, 8), (b.toNat, 0)])
  | .atxor d a b => some (pk 0x8d000000 [(d.toNat, 16), (a.toNat, 8), (b.toNat, 0)])
  | .atmin d a b => some (pk 0x8e000000 [(d.toNat, 16), (a.toNat, 8), (b.toNat, 0)])
  | .atmax d a b => some (pk 0x8f000000 [(d.toNat, 16), (a.toNat, 8), (b.toNat, 0)])
  | .atxchg d a b => some (pk 0x90000000 [(d.toNat, 16), (a.toNat, 8), (b.toNat, 0)])
  | .atcas d a b => some (pk 0x91000000 [(d.toNat, 16), (a.toNat, 8), (b.toNat, 0)])
  | .atfmax d a b => some (pk 0x92000000 [(d.toNat, 16), (a.toNat, 8), (b.toNat, 0)])
  | .atfmin d a b => some (pk 0x93000000 [(d.toNat, 16), (a.toNat, 8), (b.toNat, 0)])
  | .atladd d a b => some (pk 0x94000000 [(d.toNat, 16), (a.toNat, 8), (b.toNat, 0)])
  | .atlcas d a b => some (pk 0x95000000 [(d.toNat, 16), (a.toNat, 8), (b.toNat, 0)])
  | .fence => some (pk 0x96000000 [])
  | .flush a b => some (pk 0x97000000 [(a.toNat, 8), (b.toNat, 0)])
  | .invr a b => some (pk 0x98000000 [(a.toNat, 8), (b.toNat, 0)])
  | .pref l a b => some (pk 0x99000000 [(l.toNat, 16), (a.toNat, 8), (b.toNat, 0)])
  | .lockb d a b => some (pk 0x9a000000 [(d.toNat, 16), (a.toNat, 8), (b.toNat, 0)])
  | .unlockb a b => some (pk 0x9b000000 [(a.toNat, 8), (b.toNat, 0)])
  | .enq d a b => some (pk 0x9c000000 [(d.toNat, 16), (a.toNat, 8), (b.toNat, 0)])
  | .deq d a b => some (pk 0x9d000000 [(d.toNat, 16), (a.toNat, 8), (b.toNat, 0)])
  | .pstore d a b => some (pk 0x9e000000 [(d.toNat, 16), (a.toNat, 8), (b.toNat, 0)])
  | .binit a b => some (pk 0xa0000000 [(a.toNat, 8), (b.toNat, 0)])
  | .barr d a k => some (pk 0xa1000000 [(d.toNat, 16), (a.toNat, 8), (k.toNat, 0)])
  | .bexp a b => some (pk 0xa2000000 [(a.toNat, 8), (b.toNat, 0)])
  | .bwait a b => some (pk 0xa3000000 [(a.toNat, 8), (b.toNat, 0)])
  | .btest d a b => some (pk 0xa4000000 [(d.toNat, 16), (a.toNat, 8), (b.toNat, 0)])
  | .nbarr d a g n => some (pk 0xa5000000 [(d.toNat, 16), (a.toNat, 8), (g.toNat, 4), (n.toNat, 0)])
  | .nbwait a n => some (pk 0xa6000000 [(a.toNat, 8), (n.toNat, 0)])
  | .copy d a n r => some (pk 0xa7000000 [(d.toNat, 16), (a.toNat, 8), (n.toNat, 2), (r.toNat, 0)])
  | .copyg d a n => some (pk 0xa8000000 [(d.toNat, 16), (a.toNat, 8), (n.toNat, 2)])
  | .copyc d a n f => some (pk 0xa9000000 [(d.toNat, 16), (a.toNat, 8), (n.toNat, 2), (f.toNat, 0)])
  | .accarm d a => some (pk 0xb00000f9 [(d.toNat, 16), (a.toNat, 8)])
  | .contrib d a b => some (pk 0xb1000000 [(d.toNat, 16), (a.toNat, 8), (b.toNat, 0)])
  | .contribn d a b => some (pk 0xb2000000 [(d.toNat, 16), (a.toNat, 8), (b.toNat, 0)])
  | .accq d a b => some (pk 0xb3000000 [(d.toNat, 16), (a.toNat, 8), (b.toNat, 0)])
  | .accdrop a => some (pk 0xb4000000 [(a.toNat, 8)])
  | .axb d a i => some (pk 0xb8000000 [(d.toNat, 16), (a.toNat, 8), (i.toNat, 0)])
  | .axe a i => some (pk 0xb9000000 [(a.toNat, 8), (i.toNat, 0)])
  | .axinv i => some (pk 0xba000000 [(i.toNat, 0)])
  | .axq d s i => some (pk 0xbb000000 [(d.toNat, 16), (s.toNat, 12), (i.toNat, 0)])
  | _ => none

/-- The word of a tile instruction, from its encoding (R289). -/
def encodeTile : Instr → Option Nat
  | .tnop => some (pk 0x04000000 [])
  | .tfmt d a => some (pk 0x08000000 [(d.toNat, 24), (a.toNat, 20)])
  | .tset d p i => some (pk 0x0c000000 [(d.toNat, 22), (p.toNat, 20), (i.toNat, 0)])
  | .taddImm d a i => some (pk 0x10000000 [(d.toNat, 22), (a.toNat, 18), (i.toNat, 0)])
  | .taddReg d a b => some (pk 0x10020000 [(d.toNat, 22), (a.toNat, 18), (b.toNat, 12)])
  | .tldb a b s f => some (pk 0x14000000 [(a.toNat, 22), (b.toNat, 18), (s.toNat, 14), (f.toNat, 12)])
  | .tldc k a s f => some (pk 0x18000000 [(k.toNat, 24), (a.toNat, 20), (s.toNat, 16), (f.toNat, 14)])
  | .tzero k => some (pk 0x1c000000 [(k.toNat, 24)])
  | .mm k f a b l s => some (pk 0x20000000 [(k.toNat, 24), (f.toNat, 22), (a.toNat, 18), (b.toNat, 14), (l.toNat, 10), (s.toNat, 6)])
  | .mmdual k f a b o s => some (pk 0x24000000 [(k.toNat, 24), (f.toNat, 22), (a.toNat, 18), (b.toNat, 14), (o.toNat, 10), (s.toNat, 6)])
  | .mmt k f a b l s => some (pk 0x28000000 [(k.toNat, 24), (f.toNat, 22), (a.toNat, 18), (b.toNat, 14), (l.toNat, 10), (s.toNat, 6)])
  | .mms k f a b l s => some (pk 0x2c000000 [(k.toNat, 24), (f.toNat, 22), (a.toNat, 18), (b.toNat, 14), (l.toNat, 10), (s.toNat, 6)])
  | .tlds a b s => some (pk 0x30000000 [(a.toNat, 22), (b.toNat, 18), (s.toNat, 14)])
  | .tsta k f d o t => some (pk 0x34000000 [(k.toNat, 24), (f.toNat, 22), (d.toNat, 18), (o.toNat, 15), (t.toNat, 14)])
  | .temit k d => some (pk 0x38000000 [(k.toNat, 24), (d.toNat, 20)])
  | .tloopImm l c => some (pk 0x3c000000 [(l.toNat, 20), (c.toNat, 0)])
  | .tloopReg l a => some (pk 0x3c080000 [(l.toNat, 20), (a.toNat, 15)])
  | .tincOff s => some (pk 0x40000000 [(s.toNat, 24)])
  | .tincT s x i => some (pk 0x40400000 [(s.toNat, 24), (x.toNat, 18), (i.toNat, 0)])
  | .tincAcc s i => some (pk 0x40800000 [(s.toNat, 24), (i.toNat, 0)])
  | .twait k a => some (pk 0x44000000 [(k.toNat, 22), (a.toNat, 18)])
  | .tarr k d => some (pk 0x48000000 [(k.toNat, 22), (d.toNat, 18)])
  | .tstop => some (pk 0x4c000000 [])
  | _ => none

/-- The word of an encoded instruction of either stream; none for an event. -/
def encode (i : Instr) : Option Nat :=
  match encodeLane i with
  | some w => some w
  | none => encodeTile i

end Sys2Proof
end

