-- ==== Sys2Proof/Machine/System.lean ====
section
/-! DEFINITION. System.lean: TRAP, RTT, BRK, HALT, CTR, CSRR, CSRW (R78 to R81) and GETC (R106). -/

namespace Sys2Proof.Machine

/-! ## Traps and HALT (R79) -/

/-- A slice of TRAP or BRK with an active lane and a full stack overflows (R78). -/
def trapFull (e : Iss) (k : Nat) : Option FaultCode :=
  if e.act k != 0 && decide (stackLimit ≤ (e.g.sl k).stack.length) then some .stackOverflow else none

/-- The slices of TRAP or BRK with an active lane enter the handler; the others go on (R79). -/
def trapBody (e : Iss) (cause code : Nat) : Eff :=
  sliceBody e fun k x =>
    if e.act k = 0 then { x with pc := x.pc + 4 }
    else takeTrap x e.g.trapBase cause code 0 (e.act k) (x.pc + 4) x.pc

/-- TRAP (R79). -/
def execTrap (c : BitVec 8) (s : State) : Host.Outcome State Fault Refusal :=
  issue s (fun e => judgeSlices e (trapFull e)) fun e => trapBody e causeTrapInsn c.toNat

/-- Whether BRK raises a debug stop: BRK_STOP is set and the policy opens debug (R79, R80, R408). -/
def brkStops (e : Iss) : Bool := (dbgCtl e.s e.g e.kern.part).getLsbD 0

/-- The state with the debug stop of slice `k` on its way to the hub (R79, R88). -/
def debugStopAt (e : Iss) (k : Nat) : State :=
  addFault e.s (sliceRec e.s e.g e.grp e.kern k (some .debugStop) 0)

/-- BRK (R79). Under BRK_STOP the instruction retires and the lowest slice with an active lane raises the
debug stop. -/
def execBrk (c : BitVec 8) (s : State) : Host.Outcome State Fault Refusal :=
  issue s (fun e => if brkStops e then .go else judgeSlices e (trapFull e)) fun e =>
    if brkStops e then
      match e.sls.find? fun k => e.act k != 0 with
      | some k => { st := debugStopAt e k, g := e.adv }
      | none => { st := e.s, g := e.adv }
    else trapBody e causeBreakpoint c.toNat

/-- RTT (R79). -/
def execRtt (s : State) : Host.Outcome State Fault Refusal :=
  issue s (fun e => legal e fun k => (returnTrap (e.g.sl k)).isSome) fun e =>
    sliceBody e fun _ x => (returnTrap x).getD x

/-- HALT (R79): HALT_REQUEST with the code in INFO where a lane is active. -/
def execHalt (c : BitVec 8) (s : State) : Host.Outcome State Fault Refusal :=
  issue s
    (fun e => match e.sls.find? fun k => e.act k != 0 with
      | some k => .fault k .haltRequest (c.zeroExtend 64)
      | none => .go)
    fun e => { st := e.s, g := e.adv }

/-! ## CTR (R81) -/

/-- The counter that CTR reads in slice `k`, before this CTR counts (R81). -/
def ctrValue (e : Iss) (sub k : Nat) : Nat :=
  if sub = 0 then (if e.g.gear.getLsbD 0 then e.g.issues else e.s.sys.cycle)
  else if sub = 1 then (e.g.sl k).retired
  else e.s.sys.ptp

/-- CTR (R81). -/
def execCtr (d : BitVec 8) (sub : BitVec 2) (s : State) : Host.Outcome State Fault Refusal :=
  issue s (fun e => legal e fun _ => pairOk e.n d && decide (sub.toNat ≤ 2)) fun e =>
    resultBody e e.active d (fun _ => true) (fun l => ctrValue e sub.toNat (l / 4)) noConds

/-! ## CSRR and CSRW (R80) -/

/-- The value of control register `n` in slice `k` (R80); policy registers read zero while shut. -/
def csrValue (e : Iss) (n k : Nat) : Nat :=
  let x := e.g.sl k
  let perf := fun (i : Nat) =>
    if facilOpen e.s.ctl.parts e.kern.part facProfile then (perfGet e.ctx e.core i).toNat else 0
  match n with
  | 0x000 => e.ctx.cid
  | 0x001 => e.ctx.part
  | 0x002 => e.g.gear.toNat
  | 0x010 => e.g.trapBase.toNat
  | 0x011 => x.trapCause.toNat
  | 0x012 => x.trapInfo.toNat
  | 0x020 => e.g.fpxEn.toNat
  | 0x021 => x.fpx.toNat
  | 0x030 => e.ctx.desc.seed.toNat
  | 0x040 => e.ctx.desc.pbufQuota
  | 0x041 => e.ctx.desc.lockQuota
  | 0x042 => e.ctx.lockUsed
  | 0x050 => (dbgCtl e.s e.g e.kern.part).toNat
  | 0x060 => perf 0
  | 0x061 => perf 1
  | 0x062 => perf 2
  | 0x063 => perf 3
  | 0x068 => perf 4
  | 0x069 => perf 5
  | 0x06A => perf 6
  | 0x06B => perf 7
  | _ => 0

/-- Whether a control register is 64 bits wide (R80). -/
def csrIsWide (n : Nat) : Bool := WellFormed.csrWide n == some true

/-- CSRR (R80). -/
def execCsrr (d : BitVec 8) (n : BitVec 12) (s : State) : Host.Outcome State Fault Refusal :=
  issue s
    (fun e => legal e fun _ => (WellFormed.csrWide n.toNat).isSome &&
      (if csrIsWide n.toNat then pairOk e.n d else declOk e.n d))
    fun e => resultBody e e.active d (fun _ => csrIsWide n.toNat)
      (fun l => csrValue e n.toNat (l / 4)) noConds

/-- The source value of CSRW in slice `k`: that of its lowest active lane (R80). -/
def csrwSource (e : Iss) (d : Byte) (n k : Nat) : Option Nat :=
  ((e.active.filter fun l => l / 4 == k).head?).map fun l =>
    if csrIsWide n then rd64 e.g l d false else rd e.g l d

/-- The value check of CSRW in slice `k` (R80): RSV bits and event numbers. -/
def csrwValueOk (e : Iss) (n v : Nat) : Bool :=
  if n = 0x020 ∨ n = 0x021 then decide (v < 32)
  else if n = 0x050 then !facilOpen e.s.ctl.parts e.kern.part facDebug || decide (v < 4)
  else if 0x060 ≤ n ∧ n ≤ 0x063 then
    !facilOpen e.s.ctl.parts e.kern.part facProfile || decide (v ≤ 7)
  else true

/-- The gang after slice `k` writes `v` to control register `n` (R80). -/
def csrwGang (e : Iss) (n v k : Nat) (g : Gang) : Gang :=
  if n = 0x010 then { g with trapBase := BitVec.ofNat 64 (v % 2 ^ 56 / 256 * 256) }
  else if n = 0x020 then { g with fpxEn := BitVec.ofNat 32 v }
  else if n = 0x021 then g.modSl k fun x => { x with fpx := fpxClear x.fpx (BitVec.ofNat 32 v) }
  else if n = 0x050 then
    (if facilOpen e.s.ctl.parts e.kern.part facDebug then { g with dbgCtl := BitVec.ofNat 32 v } else g)
  else g

/-- The number of a PERF register in a context's list, if `n` names one (R80). -/
def perfNumber (n : Nat) : Option Nat :=
  if 0x060 ≤ n ∧ n ≤ 0x063 then some (n - 0x060)
  else if 0x068 ≤ n ∧ n ≤ 0x06B then some (n - 0x068 + 4)
  else none

/-- The state after a write of `v` to a PERF register while profiling is open (R80). -/
def csrwState (e : Iss) (n v : Nat) (s : State) : State :=
  match perfNumber n with
  | some i =>
    if facilOpen s.ctl.parts e.kern.part facProfile then
      let cs := modCtx s.ctl.ctxs e.kern.part e.kern.ctx fun c => perfSet c e.core i (BitVec.ofNat 64 v)
      { s with ctl := { s.ctl with ctxs := cs } }
    else s
  | none => s

/-- CSRW (R80): the slices of the cohort write in ascending order. -/
def execCsrw (d : BitVec 8) (n : BitVec 12) (s : State) : Host.Outcome State Fault Refusal :=
  issue s
    (fun e => legal e fun k => (WellFormed.csrWide n.toNat).isSome &&
      (if csrIsWide n.toNat then wideOk e.n d else declOk e.n d) &&
      (match csrwSource e d n.toNat k with
       | some v => csrwValueOk e n.toNat v
       | none => true))
    fun e =>
      e.sls.foldl (fun r k =>
        match csrwSource e d n.toNat k with
        | some v => { r with st := csrwState e n.toNat v r.st, g := csrwGang e n.toNat v k r.g }
        | none => r) { st := e.s, g := e.adv }

/-! ## GETC (R106) -/

/-- The number of gangs in the stages below `st`, and in stage `st` (R104). -/
def stageBase (p : Packet) (st : Nat) : Nat := (p.stages.take st).sum
def stageSize (p : Packet) (st : Nat) : Nat := nth p.stages st 0
/-- The gangs of a group (R104). -/
def gangCount (p : Packet) : Nat := p.stages.sum
/-- The stage of gang `i` (R104). -/
def stageOf (p : Packet) (i : Nat) : Nat :=
  ((List.range 4).find? fun st => decide (i < stageBase p (st + 1))).getD 3

/-- The value GETC selects (R106). -/
def getcValue (e : Iss) (sub : Nat) : Nat :=
  let p := e.kern.pkt
  let lid := e.grp.lid
  let i := e.g.idx
  match sub with
  | 0 => lid % p.gx
  | 1 => lid / p.gx % p.gy
  | 2 => lid / p.gx / p.gy
  | 3 => lid
  | 4 => i
  | 5 => stageOf p i
  | 6 => gangCount p
  | 7 => p.gx
  | 8 => p.gy
  | 9 => p.gz
  | 10 => e.kern.ord % 2 ^ 32
  | 11 => e.kern.ord / 2 ^ 32
  | 12 => coreDie e.core * 32 + coreUnit e.core
  | 13 => stageSize p (stageOf p i)
  | _ => i - stageBase p (stageOf p i)

/-- GETC (R106). -/
def execGetc (d : BitVec 8) (sub : BitVec 4) (s : State) : Host.Outcome State Fault Refusal :=
  issue s (fun e => legal e fun _ => decide (sub.toNat ≤ 14) && declOk e.n d) fun e =>
    resultBody e e.active d (fun _ => false) (fun _ => getcValue e sub.toNat) noConds

end Sys2Proof.Machine
end

