-- ==== Sys2Proof/Machine/Tile.lean ====
section
/-! DEFINITION. Tile.lean: the matrix sequencer: the issue of one tile word (R279, R280), format
descriptors (R281 to R284), the nodes of the array (R285 to R288), the nineteen tile instructions (R290 to
R300) and the restore of the slab quarter (R303). -/

namespace Sys2Proof.Machine

/-! ## The word in progress -/

/-- The tile word in progress: the state before it, the group, its kernel and context, and its stream. -/
structure TIss where
  s    : State
  gid  : Nat
  grp  : Group
  kern : Kernel
  ctx  : Ctx
  t    : TileStream

/-- Under a debug stop the stream of a group that parks for it, or is EXITING, goes on to its next TWAIT (R88,
R280). -/
def tDebug (grp : Group) (ctx : Ctx) : Bool :=
  ctx.debugHalt && ctx.state == .halting && (grp.state == .exiting || (grp.debugSave && grp.state == .parking))

/-- Whether a context lets the streams of its EXITING groups run: it is not halting, halted or stopped. -/
def streamsRun (ctx : Ctx) : Bool :=
  ctx.state != .halting && ctx.state != .halted && ctx.state != .debugStopped

/-- Whether a group's stream may execute its next word: it has not ended or stopped, and its group is
EXITING, or RUNNING in a running context, or a debug stop lets it go on (R280, R117). -/
def mayTile (grp : Group) (ctx : Ctx) (t : TileStream) : Bool :=
  !t.ended && !t.stopped &&
    ((grp.state == .exiting && streamsRun ctx) || (grp.state == .running && ctx.state == .running) || tDebug grp ctx)

/-- The word in progress, where the named group's stream may execute one. -/
def tissOf (s : State) : Option TIss :=
  match s.exe.curTile with
  | none => none
  | some gid =>
    match s.exe.groups[gid]? with
    | none => none
    | some grp =>
      match grp.tile, s.ctl.kernels[grp.kern]? with
      | some t, some k =>
        match findCtx s.ctl.ctxs k.part k.ctx with
        | none => none
        | some c => if mayTile grp c t then some ⟨s, gid, grp, k, c, t⟩ else none
      | _, _ => none

/-- The judgement of a tile word; a fault names the word's address. -/
inductive TJudge where
  | go
  | stall
  | fault (code : FaultCode) (info : Nat) (at_ : VAddr)
deriving DecidableEq, Repr

/-- The first judgement that is not "go". -/
def TJudge.and (a b : TJudge) : TJudge :=
  match a with
  | .go => b
  | x => x

/-- The state with no tile word in progress. -/
def tIdle (s : State) : State := { s with exe := { s.exe with curTile := none } }

/-- The state with a group replaced. -/
def setGroup (s : State) (gid : Nat) (g : Group) : State :=
  { s with exe := { s.exe with groups := modAt s.exe.groups gid fun _ => g } }

/-- The value of T register `i` (R279). -/
def TileStream.reg (t : TileStream) (i : Nat) : Nat := (smGet t.regs i).toNat
/-- The stream with T register `i` written. -/
def TileStream.setReg (t : TileStream) (i v : Nat) : TileStream :=
  { t with regs := smSet t.regs i (BitVec.ofNat 32 v) }

/-- The stop record of the matrix sequencer (R76): T0 to T15 in DETAIL. -/
def tileRec (s : State) (grp : Group) (k : Kernel) (t : TileStream) (code : FaultCode) (info : Nat)
    (at_ : VAddr) (exact : Bool) : FaultRec :=
  { part := k.part, ctx := k.ctx, code := some code, kind := 3, die := coreDie grp.core,
    unit := coreUnit grp.core, exact := exact, pc := at_.zeroExtend 64, info := BitVec.ofNat 64 info,
    kord := k.ord, group := grp.lid,
    detail := (List.range 16).flatMap fun i => detailAt (0x40 + 4 * i) (t.reg i) 4,
    cycle := s.sys.cycle, ptp := s.sys.ptp }

/-- The sequencer raises a fault: the word has no effect and the stream stops (R73, R280). -/
def tRaise (x : TIss) (code : FaultCode) (info : Nat) (at_ : VAddr) : State :=
  tIdle (addFault (setGroup x.s x.gid { x.grp with tile := some { x.t with stopped := true } })
    (tileRec x.s x.grp x.kern x.t code info at_ true))

/-- The meaning of a tile word: judged before any effect, then performed (R280). -/
def tIssue (s : State) (judge : TIss → TJudge) (body : TIss → Group) :
    Host.Outcome State Fault Refusal :=
  match tissOf s with
  | none => .next (tIdle s)
  | some x =>
    match judge x with
    | .stall => .next (tIdle s)
    | .fault c i a => .next (tRaise x c i a)
    | .go =>
      let g := body x
      .next (tIdle (setGroup x.s x.gid { g with tile := g.tile.map fun t => { t with lastPc := x.t.pc } }))

/-! ## The cassette (R299) -/

/-- One TINC rule applied after a pass, to the registers and the accumulator offset. -/
def applyRule (r : TincRule) (p : SMap 32 × Nat) : SMap 32 × Nat :=
  match r with
  | .off => p
  | .treg x step =>
    (smSet p.1 x (BitVec.ofNat 32 (wrap (((smGet p.1 x).toNat : Int) + signed step.toNat 16) 32)), p.2)
  | .acc step => (p.1, wrap ((p.2 : Int) + signed step.toNat 16) 2)

/-- All four rules, in slot order. -/
def applyRules (rs : List TincRule) (p : SMap 32 × Nat) : SMap 32 × Nat :=
  rs.foldl (fun q r => applyRule r q) p

def noRules : List TincRule := [.off, .off, .off, .off]

/-- The stream past the word it has executed: `pc` is always the address of its next word. -/
def tAdvance (t : TileStream) : TileStream :=
  match t.cassette with
  | none => { t with pc := t.pc + 4 }
  | some c =>
    if c.at_ + 1 < c.words.length then
      { t with pc := t.pc + 4, cassette := some { c with at_ := c.at_ + 1 } }
    else
      let (regs, off) := applyRules t.rules (t.regs, c.off)
      if c.pass + 1 < c.count then
        { t with
          regs := regs
          pc := t.pc - BitVec.ofNat 56 (4 * c.at_)
          cassette := some { c with at_ := 0, pass := c.pass + 1, off := off } }
      else { t with regs := regs, rules := noRules, pc := c.back, cassette := none }

/-- The group with its stream past its word. -/
def TIss.done (x : TIss) (t : TileStream) : Group := { x.grp with tile := some (tAdvance t) }

def TIss.ill (x : TIss) : TJudge := .fault .illegalOp 0 x.t.pc
def TIss.range (x : TIss) (off : Nat) : TJudge := .fault .lmRange off x.t.pc
def TIss.need (x : TIss) (ok : Bool) : TJudge := if ok then .go else x.ill

/-- The accumulator an ACC field names (R279, R299). -/
def TIss.accNo (x : TIss) (k : Nat) : Nat :=
  match x.t.cassette with
  | none => k
  | some c => (k + c.off) % 4

def TIss.acc (x : TIss) (k : Nat) : AccTile := nth x.t.accs (x.accNo k) {}

/-- The accumulator is one of the group's (R279). -/
def TIss.accOk (x : TIss) (k : Nat) : TJudge := x.need (decide (x.accNo k < x.kern.pkt.acc))

/-- The stream with an accumulator replaced. -/
def TIss.setAcc (x : TIss) (k : Nat) (a : AccTile) : TileStream :=
  { x.t with accs := modAt x.t.accs (x.accNo k) fun _ => a }

/-- The descriptor an F register holds; empty where none is loaded. -/
def TIss.fd (x : TIss) (f : Nat) : List Byte := ((nth x.t.fdesc f none)).getD []
/-! ## The window and the slab -/

/-- The values of a sparse map at rising keys. -/
def smDense {n : Nat} (m : SMap n) : List Nat → List (BitVec n)
  | [] => []
  | k :: ks =>
    let m' := m.dropWhile fun p => p.1 < k
    smGet m' k :: smDense m' ks

/-- `n` values from key `k` upward. -/
def smSpan {n : Nat} (m : SMap n) (k c : Nat) : List (BitVec n) :=
  smDense m ((List.range c).map fun i => k + i)

/-- A window range in the plain view lies in the window, with no reserved bit set (R183). -/
def plainOk (lmem off n : Nat) : Bool :=
  off / 2 ^ 31 == 0 && bits off 29 22 == 0 && decide (bits off 21 0 + n ≤ lmem)

/-- A plain-view offset aligned to `m` (R284). -/
def plainView (off m : Nat) : Bool := !off.testBit 30 && off % m == 0

/-- Bytes of a window range in the plain view. -/
def winSpan (w : SMap 8) (off n : Nat) : List Byte := smSpan w (bits off 21 0) n
/-- The window with bytes written in the plain view. -/
def winPut (w : SMap 8) (off : Nat) (bs : List Byte) : SMap 8 := smPut w (bits off 21 0) bs

/-- The judgement of plain window ranges: LM_RANGE at the first outside the window. -/
def TIss.ranges (x : TIss) (rs : List (Nat × Nat)) : TJudge :=
  match rs.find? fun r => !plainOk x.kern.pkt.lmem r.1 r.2 with
  | some r => x.range r.1
  | none => .go

/-- Bytes of each column of the slab quarter (R279). -/
def slabBytes : Nat := 8192
/-- The key of a slab byte. -/
def slabKey (col off : Nat) : Nat := slabBytes * col + off
/-- The judgement of slab ranges (R284). -/
def TIss.slabs (x : TIss) (rs : List (Nat × Nat)) : TJudge :=
  match rs.find? fun r => decide (slabBytes < r.1 + r.2) with
  | some r => x.range r.1
  | none => .go

/-- The `w`-bit codes of a little-endian run (R29). -/
def codesOf (bs : List Byte) (w n : Nat) : List Nat :=
  let v := leNat bs
  (List.range n).map fun i => v / 2 ^ (w * i) % 2 ^ w

/-- Codes of `w` bits packed into bytes (R29). -/
def packCodes (w : Nat) (cs : List Nat) : List Byte :=
  natLe ((cs.zipIdx.map fun p => p.1 % 2 ^ w * 2 ^ (w * p.2)).sum) ((cs.length * w + 7) / 8)

/-! ## Format descriptors (R281 to R283) -/

def fdWord (d : List Byte) (i : Nat) : Nat := leNat ((d.drop (4 * i)).take 4)
def fdA (d : List Byte) : Nat := fdWord d 0
def fdB (d : List Byte) : Nat := fdWord d 1
def fdAscale (d : List Byte) : Nat := fdWord d 2
def fdBscale (d : List Byte) : Nat := fdWord d 3
def fdAmeta (d : List Byte) : Nat := fdWord d 4

def owFmt (w : Nat) : Nat := w % 16
def owSkind (w : Nat) : Nat := bits w 5 4
def owTrans (w : Nat) : Bool := w.testBit 6
def owSparse (w : Nat) : Bool := w.testBit 7
def skNone : Nat := 0
def skMx : Nat := 1
def skTensor : Nat := 2
def skGroup : Nat := 3

/-- An operand word's own checks (R282). -/
def opWordOk (w : Nat) : Bool := w / 2 ^ 16 == 0 && bits w 15 8 == 32 && decide (owFmt w ≤ 8)

/-- In kickstand service only BF16 is accepted (R412). -/
def kickOk (s : State) (d : List Byte) : Bool :=
  !s.sys.kickstand || (owFmt (fdA d) == 0 && owFmt (fdB d) == 0)

/-- An F register that no TFMT has loaded is not read (R280). -/
def TIss.fdOk (x : TIss) (f : Nat) : TJudge :=
  x.need ((nth x.t.fdesc f none).isSome && kickOk x.s (x.fd f))

/-- The checks of TFMT on a descriptor (R281, R282). -/
def fdescOk (d : List Byte) : Bool :=
  opWordOk (fdA d) && opWordOk (fdB d) && !owSparse (fdB d)
    && (fdAscale d == 0 || owSkind (fdA d) != skNone)
    && (fdBscale d == 0 || owSkind (fdB d) == skMx || owSkind (fdB d) == skTensor)
    && (fdAmeta d == 0 || owSparse (fdA d))
    && (d.drop 0x14).all fun b => b == 0

/-- The instructions that pair operands. -/
inductive PairOp where
  | tldb | mm | mms | mmt | dual
deriving DecidableEq, Repr

/-- The multiple that K and the leaf base must keep for a pairing; none where R283 rejects it. -/
def pairing (op : PairOp) (d : List Byte) : Option Nat :=
  let a := fdA d
  let b := fdB d
  let fa := owFmt a
  let fb := owFmt b
  let sa := owSkind a
  let sb := owSkind b
  let sparseOk := op == .tldb || owSparse a == (op == .mms)
  if owTrans a && owSparse a then none
  else if !sparseOk then none
  else if op == .mmt || (op == .tldb && fa == 7 && fb == 8) then
    if fa = 7 ∧ fb = 8 ∧ sa = skNone ∧ sb = skNone then some 32 else none
  else if fa ≤ 6 ∧ fb ≤ 6 then
    if (sa = skMx ∧ fa < 2) ∨ (sb = skMx ∧ fb < 2) ∨ ¬(sa = skGroup ↔ sb = skGroup) then none
    else if sa = skGroup then some 128
    else if fa < 2 ∧ fb < 2 then some 16 else some 32
  else if fa = 7 ∧ fb = 7 ∧ sa ≠ skGroup ∧ sb ≠ skGroup then some 32
  else none

/-- A shape register (R289). -/
def shK (t : Nat) : Nat := bits t 31 16
def shN (t : Nat) : Nat := bits t 15 8
def shM (t : Nat) : Nat := bits t 7 0
def sideOk (v : Nat) : Bool := decide (16 ≤ v) && decide (v ≤ 128) && v % 16 == 0
def shapeOk (t : Nat) : Bool := sideOk (shM t) && sideOk (shN t) && shK t != 0

/-! ## Operands (R284, R285) -/

/-- The value of an operand element: MX32 reads code 7 as MXINT8, otherwise I8 and TERN are integers
(R27, R283, R292). The ternary code 0b10, which TLDS or a TLDB under another format may have put into the slab, is
a free value (log 118). -/
def operandVal (fmt : Nat) (mx : Bool) (c : Nat) : FVal :=
  if fmt = 8 then
    (if c = 1 then .fin false 1 0 else if c = 3 then .fin true 1 0 else if c = 0 then .fin false 0 0
     else .fin (decide (Config.invalidTernary < 0)) Config.invalidTernary.natAbs 0)
  else if fmt = 7 ∧ mx = false then
    let z := signed c 8
    .fin (decide (z < 0)) z.natAbs 0
  else elemValue fmt c

/-- A value multiplied by the scale of E8M0 code `c`, exactly (R25, R285). -/
def mxScaled (v : FVal) (c : Nat) : FVal :=
  if c = 255 then .nan
  else match v with
    | .fin n m e => .fin n m (e + (c : Int) - 127)
    | y => y

/-- Offsets modulo 2^32. -/
def ofs32 (x : Nat) : Nat := x % 2 ^ 32

/-- The skewed word offsets of row `m` of A under TRANS = 1, `kw` bits long (R284). -/
def skewWords (a kw m : Nat) : List Nat :=
  (List.range (kw / 32)).map fun j =>
    ofs32 (a + 1024 * (m / 16 * (kw / 512) + j / 16) + 4 * (16 * (m % 16) + j % 16))

/-- The plain window ranges of A, its metadata and its scales: (offset, bytes). -/
def aRanges (d : List Byte) (a k m : Nat) : List (Nat × Nat) :=
  let w := elemWidth (owFmt (fdA d))
  (if owSparse (fdA d) then [(a, k / 2 * (m * w / 8)), (ofs32 (a + fdAmeta d), m * k / 8)]
   else if owTrans (fdA d) then [] else [(a, k * (m * w / 8))])
  ++ (if owSkind (fdA d) = skMx then [(ofs32 (a + fdAscale d), k / 32 * m)] else [])

/-- The view and alignment checks on A (R284). -/
def aViewOk (d : List Byte) (a k m : Nat) : Bool :=
  let w := elemWidth (owFmt (fdA d))
  a % 4 == 0 && (a.testBit 30 == owTrans (fdA d))
    && (!owTrans (fdA d) || k * w % 512 == 0)
    && (aRanges d a k m).all fun r => !r.1.testBit 30

/-- The range check of A. -/
def TIss.aRange (x : TIss) (d : List Byte) (a k m : Nat) : TJudge :=
  let w := elemWidth (owFmt (fdA d))
  let ws := if owTrans (fdA d) then (List.range m).flatMap fun i => skewWords a (k * w) i else []
  match ws.find? fun o => !lmOk x.kern.pkt.lmem o 4 with
  | some o => x.range o
  | none => x.ranges (aRanges d a k m)

/-- The 2:4 metadata of (row m, group g) (R178, R284). -/
def metaOf (w : SMap 8) (d : List Byte) (a rows g m : Nat) : Nat :=
  let o := bits (ofs32 (a + fdAmeta d)) 21 0
  (smGet w (o + (g * rows + m) / 2)).toNat / 16 ^ ((g * rows + m) % 2) % 16

/-- A metadata field with i0 ≥ i1 is not legal (R293). -/
def metaOk (w : SMap 8) (d : List Byte) (a k rows : Nat) : Bool :=
  !owSparse (fdA d) || (List.range (k / 4)).all fun g => (List.range rows).all fun m =>
    let x := metaOf w d a rows g m
    decide (x % 4 < x / 4)

/-- Row `m` of A: one value for each k, none where a leaf is absent (R284, R293). -/
def aRow (w : SMap 8) (d : List Byte) (a k rows m : Nat) : List (Option FVal) :=
  let fmt := owFmt (fdA d)
  let wd := elemWidth fmt
  let mx := owSkind (fdA d) == skMx
  let scale := fun (kk : Nat) =>
    if mx then (smGet w (bits (ofs32 (a + fdAscale d)) 21 0 + kk / 32 * rows + m)).toNat else 127
  let run := fun (r : Nat) =>
    nth (codesOf (winSpan w (a + r * (rows * wd / 8)) (rows * wd / 8)) wd rows) m 0
  let val := fun (kk c : Nat) => mxScaled (operandVal fmt mx c) (scale kk)
  if owSparse (fdA d) then
    (List.range k).map fun kk =>
      let x := metaOf w d a rows (kk / 4) m
      if x % 4 = kk % 4 then some (val kk (run (2 * (kk / 4))))
      else if x / 4 = kk % 4 then some (val kk (run (2 * (kk / 4) + 1)))
      else none
  else if owTrans (fdA d) then
    let bs := (skewWords a (k * wd) m).flatMap fun o => lmGet w (lmBytes o 4)
    (codesOf bs wd k).zipIdx.map fun p => some (val p.2 p.1)
  else (List.range k).map fun kk => some (val kk (run kk))

/-- Column `n` of B in the slab (R284). -/
def bCol (slab : SMap 8) (d : List Byte) (b k n : Nat) : List FVal :=
  let fmt := owFmt (fdB d)
  let wd := elemWidth fmt
  let mx := owSkind (fdB d) == skMx
  let scale := fun (kk : Nat) =>
    if mx then (smGet slab (slabKey n (b + fdBscale d + kk / 32))).toNat else 127
  (codesOf (smSpan slab (slabKey n b) (k * wd / 8)) wd k).zipIdx.map fun p =>
    mxScaled (operandVal fmt mx p.1) (scale p.2)

/-- The slab ranges of B and its scales. -/
def bRanges (d : List Byte) (b k : Nat) : List (Nat × Nat) :=
  (b, k * elemWidth (owFmt (fdB d)) / 8)
    :: (if owSkind (fdB d) = skMx then [(b + fdBscale d, k / 32)] else [])

/-! ## Fused nodes (R285) -/

/-- The place of the unit of an exact sum. -/
def exactUnit : Int := 700

/-- One more product in an exact sum. -/
def addProduct (e : ExactSum) (p : Option FVal) : ExactSum :=
  match p with
  | none => { e with nan := true }
  | some .nan => { e with nan := true }
  | some (.inf n) => if n then { e with ninf := true } else { e with pinf := true }
  | some (.fin n m x) =>
    let z : Int := ((m * 2 ^ (x + exactUnit).toNat : Nat) : Int)
    { e with sum := if n then e.sum - z else e.sum + z, negOnly := e.negOnly && n }

/-- The exact sum of the present products of two runs. -/
def dotExact (start : ExactSum) : List (Option FVal) → List FVal → ExactSum
  | some a :: as, b :: bs => dotExact (addProduct start (mulV a b)) as bs
  | none :: as, _ :: bs => dotExact start as bs
  | _, _ => start

/-- The F32 value of a fused node: rounded once by RNE, saturate off (R285). -/
def fusedF32 (e : ExactSum) : Nat :=
  (finishF F32 0 false
    (if e.nan || (e.pinf && e.ninf) then .nan false
     else if e.pinf then .inf false false
     else if e.ninf then .inf true false
     else if e.sum = 0 then .fin e.negOnly 0 1
     else finExact (decide (e.sum < 0)) e.sum.natAbs (-exactUnit))).1

/-- The value of a fused node in an INT tile: the sum modulo 2^32 (R294). -/
def fusedI32 (e : ExactSum) : Nat := wrap (e.sum / 2 ^ exactUnit.toNat) 32

def fusedVal (int : Bool) (e : ExactSum) : Nat := if int then fusedI32 e else fusedF32 e

/-- The elements of an M × N tile: the keys 128 × row + column, rising. -/
def tileKeys (m n : Nat) : List Nat :=
  (List.range m).flatMap fun i => (List.range n).map fun j => 128 * i + j

/-- A canonical map from rising keys and values. -/
def mapOf (l : List (Nat × Nat)) : SMap 32 :=
  (l.map fun p => (p.1, BitVec.ofNat 32 p.2)).filter fun p => p.2 != 0

/-- The values of a node at the elements of a tile. -/
def valsOf (v : SMap 32) (keys : List Nat) : List Nat := (smDense v keys).map BitVec.toNat

/-- The sum of two nodes of a tile (R37, R294). -/
def nodeSum (int : Bool) (a b : Nat) : Nat := if int then (a + b) % 2 ^ 32 else (nodeAdd F32 a b).1

def mergeVals (int : Bool) (keys : List Nat) (u v : SMap 32) : SMap 32 :=
  mapOf (keys.zip (((valsOf u keys).zip (valsOf v keys)).map fun p => nodeSum int p.1 p.2))

/-! ## The carry stack (R286, R287) -/

/-- A completed node enters the carry slots; `slots` stand from the highest level down. A node at level 15
is final. -/
def carryPush (int : Bool) (keys : List Nat) : (fuel : Nat) → List AccNode → AccNode → List AccNode
  | 0, slots, nd => slots ++ [nd]
  | f + 1, slots, nd =>
    match slots.getLast? with
    | some u =>
      if u.level = nd.level ∧ u.index = Nat.xor nd.index 1 ∧ nd.level < 15 then
        carryPush int keys f slots.dropLast
          ⟨nd.level + 1, nd.index / 2, mergeVals int keys u.vals nd.vals⟩
      else slots ++ [nd]
    | none => [nd]

/-- The operand rows and columns of a multiplication. -/
structure Operand2 where
  rows : List (List (Option FVal))
  cols : List (List FVal)

/-- The exact sums of every element over the k-steps [lo, hi). -/
def sumsOver (o : Operand2) (start : ExactSum) (lo hi : Nat) : List (Nat × ExactSum) :=
  o.rows.zipIdx.flatMap fun r =>
    let a := (r.1.drop lo).take (hi - lo)
    o.cols.zipIdx.map fun c => (128 * r.2 + c.2, dotExact start a ((c.1.drop lo).take (hi - lo)))

/-- The fused node (5, i) over the k-steps from `lo`. -/
def fusedNode (int : Bool) (o : Operand2) (start : ExactSum) (leaf lo : Nat) : AccNode :=
  ⟨5, (leaf + lo) / 32,
   mapOf ((sumsOver o start lo (lo + 32)).map fun p => (p.1, fusedVal int p.2))⟩

/-- A zero fused node is +0 under MMS, and where the products are integers (R292, R293). -/
def plusZero (op : PairOp) (d : List Byte) : Bool :=
  op == .mms || (owFmt (fdA d) == 7 && owSkind (fdA d) != skMx && owSkind (fdB d) != skMx)

def startSum (plus : Bool) : ExactSum := { negOnly := !plus }

/-- An accumulator extended by `k` leaves from `leaf` (R287). -/
def accExtend (a : AccTile) (int : Bool) (o : Operand2) (start : ExactSum) (leaf k m n : Nat) : AccTile :=
  let keys := tileKeys m n
  let fresh := a.kind == .empty
  let slots := (List.range (k / 32)).foldl
    (fun sl i => carryPush int keys 12 sl (fusedNode int o start leaf (32 * i)))
    (if fresh then [] else a.slots)
  let tail := k % 32
  { kind := if int then .int else .float
    k0 := if fresh then leaf else a.k0
    next := leaf + k
    shape := some (m, n)
    openN := tail
    opens := if tail = 0 then [] else sumsOver o start (k - tail) k
    slots := slots
    vals := [] }

/-- align of R287. -/
def alignOf (k0 : Nat) : Nat :=
  if k0 = 0 then 2 ^ 27
  else 2 ^ (((List.range 32).find? fun i => k0 % 2 ^ (i + 1) != 0).getD 32)

/-- The decomposition of a tile (R288), ascending. -/
def decomposition (a : AccTile) : List AccNode :=
  a.slots ++
    (if a.openN = 0 then []
     else [⟨4, (a.next - 16) / 16,
       mapOf (a.opens.map fun p => (p.1, fusedVal (a.kind == .int) p.2))⟩])

/-- The root of a tile (R288): the nodes taken from the last towards the first. -/
def resolve (a : AccTile) : SMap 32 :=
  let int := a.kind == .int
  let (m, n) := a.shape.getD (0, 0)
  let keys := tileKeys m n
  match (decomposition a).reverse with
  | [] => []
  | l :: rest => rest.foldl (fun v u => mergeVals int keys u.vals v) l.vals

/-! ## Plain words (R290) -/

/-- TNOP. -/
def execTnop (s : State) : Host.Outcome State Fault Refusal :=
  tIssue s (fun _ => .go) fun x => x.done x.t

/-- TFMT (R281, R290). -/
def execTfmt (d : BitVec 2) (a : BitVec 4) (s : State) : Host.Outcome State Fault Refusal :=
  tIssue s
    (fun x =>
      let o := x.t.reg a.toNat
      ((x.need (plainView o 32)).and (x.ranges [(o, 32)])).and
        (x.need (fdescOk (winSpan x.grp.window o 32) && kickOk x.s (winSpan x.grp.window o 32))))
    fun x => x.done { x.t with
      fdesc := modAt x.t.fdesc d.toNat fun _ => some (winSpan x.grp.window (x.t.reg a.toNat) 32) }

/-- The value TSET loads (R290): PART LO, HI, SX. -/
def tsetValue (old part imm : Nat) : Nat :=
  if part = 0 then imm else if part = 1 then old % 2 ^ 16 + 2 ^ 16 * imm else wrap (signed imm 16) 32

/-- TSET. -/
def execTset (d : BitVec 4) (p : BitVec 2) (i : BitVec 16) (s : State) :
    Host.Outcome State Fault Refusal :=
  tIssue s (fun x => x.need (decide (p.toNat ≤ 2))) fun x =>
    x.done (x.t.setReg d.toNat (tsetValue (x.t.reg d.toNat) p.toNat i.toNat))

/-- TADD, immediate. -/
def execTaddImm (d a : BitVec 4) (i : BitVec 16) (s : State) : Host.Outcome State Fault Refusal :=
  tIssue s (fun _ => .go) fun x =>
    x.done (x.t.setReg d.toNat (wrap ((x.t.reg a.toNat : Int) + signed i.toNat 16) 32))

/-- TADD, register. -/
def execTaddReg (d a b : BitVec 4) (s : State) : Host.Outcome State Fault Refusal :=
  tIssue s (fun _ => .go) fun x =>
    x.done (x.t.setReg d.toNat (x.t.reg a.toNat + x.t.reg b.toNat))

/-- TSTOP (R290, R117). -/
def execTstop (s : State) : Host.Outcome State Fault Refusal :=
  tIssue s (fun _ => .go) fun x => x.done { x.t with ended := true }

/-! ## Loads (R291) -/

/-- A load of the slab quarter as logged or executed: the window, the slab and the registers. -/
structure SlabArgs where
  isScale : Bool
  win  : Nat
  slab : Nat
  ts   : Nat
  d    : List Byte

/-- The window range of a slab load. -/
def slabSource (l : SlabArgs) : Nat × Nat :=
  (l.win, if l.isScale then shK l.ts / 32 * shN l.ts
          else shK l.ts * shN l.ts * elemWidth (owFmt (fdB l.d)) / 8)

/-- The bytes a slab load puts in each column. -/
def slabRun (l : SlabArgs) : Nat :=
  if l.isScale then shK l.ts / 32 else shK l.ts * elemWidth (owFmt (fdB l.d)) / 8

/-- The codes of B as the window holds them. -/
def slabCodes (w : SMap 8) (l : SlabArgs) : List Nat :=
  codesOf (winSpan w (slabSource l).1 (slabSource l).2) (elemWidth (owFmt (fdB l.d)))
    (shK l.ts * shN l.ts)

/-- The fault of a slab load and its INFO, if any (R27, R283, R284, R291). -/
def slabFault (lmem : Nat) (w : SMap 8) (l : SlabArgs) : Option (FaultCode × Nat) :=
  let mult := if l.isScale then some 32 else pairing .tldb l.d
  match mult with
  | none => some (.illegalOp, 0)
  | some c =>
    if !shapeOk l.ts || shK l.ts % c != 0 || !plainView l.win 4 || l.slab % 4 != 0 then
      some (.illegalOp, 0)
    else if !plainOk lmem (slabSource l).1 (slabSource l).2 then some (.lmRange, l.win)
    else if slabBytes < l.slab + slabRun l then some (.lmRange, l.slab)
    else if !l.isScale && owFmt (fdB l.d) == 8 && (slabCodes w l).contains 2 then some (.illegalOp, 0)
    else none

/-- The slab after a load (R291). -/
def slabLoaded (w : SMap 8) (l : SlabArgs) (slab : SMap 8) : SMap 8 :=
  let k := shK l.ts
  let n := shN l.ts
  let cols : List (List Byte) :=
    if l.isScale then
      (List.range n).map fun c => (List.range (k / 32)).map fun j =>
        smGet w (bits l.win 21 0 + j * n + c)
    else
      let cs := slabCodes w l
      (List.range n).map fun c => packCodes (elemWidth (owFmt (fdB l.d)))
        ((List.range k).map fun kk => nth cs (if owTrans (fdB l.d) then c * k + kk else kk * n + c) 0)
  cols.zipIdx.foldl (fun sl p => smPut sl (slabKey p.2 l.slab) p.1) slab

/-- The last sixteen slab loads (R303). -/
def logLoad (log : List SlabLoad) (e : SlabLoad) : List SlabLoad :=
  let l := log ++ [e]
  l.drop (l.length - 16)

def slabJudge (x : TIss) (l : SlabArgs) : TJudge :=
  match slabFault x.kern.pkt.lmem x.grp.window l with
  | some (c, i) => .fault c i x.t.pc
  | none => .go

def slabBody (x : TIss) (l : SlabArgs) : Group :=
  x.done { x.t with
    slab := slabLoaded x.grp.window l x.t.slab
    log := logLoad x.t.log
      ⟨l.isScale, x.t.pc, BitVec.ofNat 32 l.win, BitVec.ofNat 32 l.slab, BitVec.ofNat 32 l.ts, l.d⟩ }

/-- TLDB (R291). -/
def execTldb (a b ts : BitVec 4) (f : BitVec 2) (s : State) : Host.Outcome State Fault Refusal :=
  let args := fun (x : TIss) =>
    SlabArgs.mk false (x.t.reg a.toNat) (x.t.reg b.toNat) (x.t.reg ts.toNat) (x.fd f.toNat)
  tIssue s (fun x => (x.fdOk f.toNat).and (slabJudge x (args x))) fun x => slabBody x (args x)

/-- TLDS (R291). -/
def execTlds (a b ts : BitVec 4) (s : State) : Host.Outcome State Fault Refusal :=
  let args := fun (x : TIss) =>
    SlabArgs.mk true (x.t.reg a.toNat) (x.t.reg b.toNat) (x.t.reg ts.toNat) []
  tIssue s (fun x => slabJudge x (args x)) fun x => slabBody x (args x)

/-- The re-execution of logged loads, oldest first (R303): the slab, or the load that fails. -/
def slabReplay (lmem : Nat) (w : SMap 8) :
    List SlabLoad → SMap 8 → SMap 8 × Option (VAddr × FaultCode × Nat)
  | [], slab => (slab, none)
  | e :: es, slab =>
    let l := SlabArgs.mk e.isScale e.win.toNat e.slab.toNat e.shape.toNat e.desc
    match slabFault lmem w l with
    | some (c, i) => (slab, some (e.pc, c, i))
    | none => slabReplay lmem w es (slabLoaded w l slab)

/-- The F32 code of an element of any operand format: the conversion is exact (R291). -/
def elemF32 (fmt c : Nat) : Nat := (cvtFF F32 0 false (operandVal fmt false c)).1

/-- The codes TLDC reads. -/
def tldcCodes (x : TIss) (off ts : Nat) (d : List Byte) : List Nat :=
  let w := elemWidth (owFmt (fdA d))
  codesOf (winSpan x.grp.window off (shM ts * shN ts * w / 8)) w (shM ts * shN ts)

/-- TLDC (R291). -/
def execTldc (k : BitVec 2) (a ts : BitVec 4) (f : BitVec 2) (s : State) :
    Host.Outcome State Fault Refusal :=
  tIssue s
    (fun x =>
      let d := x.fd f.toNat
      let sh := x.t.reg ts.toNat
      let off := x.t.reg a.toNat
      let fmt := owFmt (fdA d)
      ((x.accOk k.toNat).and (x.fdOk f.toNat)).and
        ((x.need (shapeOk sh && owSkind (fdA d) == skNone && plainView off 4)).and
          ((x.ranges [(off, shM sh * shN sh * elemWidth fmt / 8)]).and
            (x.need (fmt != 8 || !(tldcCodes x off sh d).contains 2)))))
    fun x =>
      let d := x.fd f.toNat
      let sh := x.t.reg ts.toNat
      let m := shM sh
      let n := shN sh
      let cs := tldcCodes x (x.t.reg a.toNat) sh d
      let v := fun (i j : Nat) => elemF32 (owFmt (fdA d)) (nth cs (if owTrans (fdA d) then j * m + i else i * n + j) 0)
      x.done (x.setAcc k.toNat
        { kind := .resident, shape := some (m, n),
          vals := mapOf ((tileKeys m n).map fun q => (q, v (q / 128) (q % 128))) })

/-- TZERO (R286). -/
def execTzero (k : BitVec 2) (s : State) : Host.Outcome State Fault Refusal :=
  tIssue s (fun x => x.accOk k.toNat) fun x => x.done (x.setAcc k.toNat {})

/-! ## Multiplying (R292 to R296) -/

/-- The operands of an MM-class word: the accumulator, the descriptor, and the values of its registers;
`tl` is the leaf base, or the output offset of MMDUAL. -/
structure MmArgs where
  op : PairOp
  k  : Nat
  f  : Nat
  a  : Nat
  b  : Nat
  tl : Nat
  ts : Nat

def mmArgs (op : PairOp) (x : TIss) (k f : BitVec 2) (a b l ts : BitVec 4) : MmArgs :=
  ⟨op, k.toNat, f.toNat, x.t.reg a.toNat, x.t.reg b.toNat, x.t.reg l.toNat, x.t.reg ts.toNat⟩

/-- The checks common to the MM class: accumulator, descriptor, pairing, shape, operand ranges and
metadata (R283, R284, R289, R293). -/
def mmCommon (x : TIss) (q : MmArgs) : TJudge :=
  let d := x.fd q.f
  let k := shK q.ts
  let m := shM q.ts
  ((x.accOk q.k).and (x.fdOk q.f)).and
    ((match pairing q.op d with
      | none => x.ill
      | some c => x.need (shapeOk q.ts && k % c == 0 && (q.op == PairOp.dual || q.tl % c == 0)
          && aViewOk d q.a k m && q.b % 4 == 0)).and
      ((x.aRange d q.a k m).and ((x.slabs (bRanges d q.b k)).and
        (x.need (metaOk x.grp.window d q.a k m)))))

/-- The rows and columns of an MM-class word. -/
def mmOperands (x : TIss) (q : MmArgs) : Operand2 :=
  let d := x.fd q.f
  let k := shK q.ts
  { rows := (List.range (shM q.ts)).map fun i => aRow x.grp.window d q.a k (shM q.ts) i
    cols := (List.range (shN q.ts)).map fun j => bCol x.t.slab d q.b k j }

def isGroup128 (d : List Byte) : Bool := owSkind (fdA d) == skGroup

/-- The output of GROUP128: its offset and size (R295). -/
def groupOut (d : List Byte) (ts : Nat) : Nat × Nat :=
  (fdAscale d, shK ts / 128 * (shM ts * shN ts * 4))

/-- The checks of R286 and R287 on the accumulator of MM, MMS and MMT. -/
def mmAccJudge (x : TIss) (q : MmArgs) : TJudge :=
  let a := x.acc q.k
  let d := x.fd q.f
  let fresh := a.kind == .empty
  let k0 := if fresh then q.tl else a.k0
  let nxt := if fresh then q.tl else a.next
  if isGroup128 d then
    (x.need (fresh && plainView (fdAscale d) 4)).and (x.ranges [groupOut d q.ts])
  else
    (x.need ((fresh || (a.kind == (if q.op == PairOp.mmt then .int else .float)
        && a.shape == some (shM q.ts, shN q.ts)))
      && q.tl == nxt && (fresh || a.openN == 0) && k0 % 32 == 0)).and
    (if 32768 < nxt + shK q.ts - k0 ∨ alignOf k0 < nxt + shK q.ts - k0 then
      .fault .carryOverflow 0 x.t.pc else .go)

/-- The values GROUP128 writes: the nodes (7, i), ascending, F32 row-major (R295). -/
def groupBytes (o : Operand2) (start : ExactSum) (k m n : Nat) : List Byte :=
  (List.range (k / 128)).flatMap fun i =>
    let v := fun (j : Nat) => valsOf (fusedNode false o start 0 (128 * i + 32 * j)).vals (tileKeys m n)
    (((v 0).zip (v 1)).zip ((v 2).zip (v 3))).flatMap fun p =>
      natLe (nodeSum false (nodeSum false p.1.1 p.1.2) (nodeSum false p.2.1 p.2.2)) 4

/-- The effect of MM, MMS and MMT. -/
def mmBody (x : TIss) (q : MmArgs) : Group :=
  let d := x.fd q.f
  let o := mmOperands x q
  let start := startSum (plusZero q.op d)
  let a := x.acc q.k
  if isGroup128 d then
    { x.done x.t with
      window := winPut x.grp.window (fdAscale d)
        (groupBytes o start (shK q.ts) (shM q.ts) (shN q.ts)) }
  else x.done (x.setAcc q.k
    (accExtend a (q.op == PairOp.mmt) o start q.tl (shK q.ts) (shM q.ts) (shN q.ts)))

/-- MM, MMS and MMT. -/
def mmIssue (args : TIss → MmArgs) (s : State) : Host.Outcome State Fault Refusal :=
  tIssue s (fun x => (mmCommon x (args x)).and (mmAccJudge x (args x))) fun x => mmBody x (args x)

/-- MM (R292). -/
def execMm (k f : BitVec 2) (a b l ts : BitVec 4) (s : State) : Host.Outcome State Fault Refusal :=
  mmIssue (fun x => mmArgs .mm x k f a b l ts) s
/-- MMT (R294). -/
def execMmt (k f : BitVec 2) (a b l ts : BitVec 4) (s : State) : Host.Outcome State Fault Refusal :=
  mmIssue (fun x => mmArgs .mmt x k f a b l ts) s
/-- MMS (R293). -/
def execMms (k f : BitVec 2) (a b l ts : BitVec 4) (s : State) : Host.Outcome State Fault Refusal :=
  mmIssue (fun x => mmArgs .mms x k f a b l ts) s

/-- Whether two ranges share a byte. -/
def rangesMeet (a n b m : Nat) : Bool := decide (a < b + m) && decide (b < a + n)

/-- The storage bytes of X meet the output range (R296). -/
def xMeets (d : List Byte) (q : MmArgs) (n : Nat) : Bool :=
  let k := shK q.ts
  let m := shM q.ts
  (aRanges d q.a k m).any (fun r => rangesMeet (bits r.1 21 0) r.2 (bits q.tl 21 0) n)
    || (owTrans (fdA d) && (List.range m).any fun i =>
      (skewWords q.a (k * elemWidth (owFmt (fdA d))) i).any fun o =>
        (lmBytes o 4).any fun y => decide (bits q.tl 21 0 ≤ y) && decide (y < bits q.tl 21 0 + n))

/-- The root of a tree whose fused nodes of 32 leaves are rounded once (R285, R37, R296). -/
def fusedRoot (xs : List (Option FVal)) (ys : List FVal) : Nat :=
  treeSum F32 ((List.range ((xs.length + 31) / 32)).map fun i =>
    fusedF32 (dotExact (startSum false) ((xs.drop (32 * i)).take 32) ((ys.drop (32 * i)).take 32)))

/-- The bytes MMDUAL writes: dX then dW (R296). -/
def dualBytes (x : TIss) (q : MmArgs) : List Byte :=
  let k := shK q.ts
  let m := shM q.ts
  let n := shN q.ts
  let o := mmOperands x q
  let dy := fun (i j : Nat) => decodeF F32 (smGet (x.acc q.k).vals (128 * i + j)).toNat
  let w := fun (kk j : Nat) => nth (nth o.cols j []) kk FVal.nan
  let xv := fun (i kk : Nat) => (nth (nth o.rows i []) kk none).getD FVal.nan
  ((List.range k).flatMap fun kk => (List.range m).flatMap fun i =>
    natLe (fusedRoot ((List.range n).map fun j => some (dy i j)) ((List.range n).map fun j => w kk j)) 4)
  ++ (List.range k).flatMap fun kk => (List.range n).flatMap fun j =>
    natLe (fusedRoot ((List.range m).map fun i => some (xv i kk)) ((List.range m).map fun i => dy i j)) 4

/-- The size of MMDUAL's output. -/
def dualSize (ts : Nat) : Nat := 4 * shK ts * (shM ts + shN ts)

/-- MMDUAL (R296). -/
def execMmdual (k f : BitVec 2) (a b o ts : BitVec 4) (s : State) : Host.Outcome State Fault Refusal :=
  tIssue s
    (fun x =>
      let q := mmArgs PairOp.dual x k f a b o ts
      let d := x.fd q.f
      (mmCommon x q).and
        ((x.need (!isGroup128 d && plainView q.tl 4
          && (x.acc q.k).kind == .resident && (x.acc q.k).shape == some (shM q.ts, shN q.ts))).and
          ((x.ranges [(q.tl, dualSize q.ts)]).and (x.need (!xMeets d q (dualSize q.ts))))))
    fun x =>
      let q := mmArgs PairOp.dual x k f a b o ts
      { x.done x.t with window := winPut x.grp.window q.tl (dualBytes x q) }

/-! ## Storing and emitting (R297, R298) -/

/-- The output formats of TSTA (R289): F32, BF16, F16, E4M3, E5M2; none for I32. -/
def outFmt (o : Nat) : Option Fmt :=
  if o = 0 then some F32 else if o = 1 then some BF16 else if o = 2 then some F16
  else if o = 3 then some E4M3 else if o = 4 then some E5M2 else none
def outSize (o : Nat) : Nat := if o = 0 ∨ o = 5 then 4 else if o ≤ 2 then 2 else 1

/-- An F32 value scaled by the TENSOR scales of a descriptor, exactly (R297). -/
def tensorScaled (d : List Byte) (v : FVal) : FVal :=
  let f := fun (v : FVal) (w s : Nat) =>
    if owSkind w = skTensor then (mulV v (decodeF F32 s)).getD .nan else v
  f (f v (fdA d) (fdAscale d)) (fdB d) (fdBscale d)

/-- The code TSTA writes for an element (R297). -/
def tstaCode (o : Nat) (sat : Bool) (d : List Byte) (v : Nat) : Nat :=
  match outFmt o with
  | some f => (cvtFF f 0 sat (tensorScaled d (decodeF F32 v))).1
  | none => v

/-- The values of a tile that TSTA stores, row-major. -/
def tstaVals (a : AccTile) : List Nat :=
  let (m, n) := a.shape.getD (0, 0)
  valsOf (if a.kind = .resident then a.vals else resolve a) (tileKeys m n)

/-- The bytes TSTA writes. -/
def tstaBytes (a : AccTile) (o : Nat) (sat : Bool) (d : List Byte) : List Byte :=
  let (m, n) := a.shape.getD (0, 0)
  if a.kind = .empty then List.replicate (m * n * outSize o) 0
  else (tstaVals a).flatMap fun v => natLe (tstaCode o sat d v) (outSize o)

/-- TSTA (R297). -/
def execTsta (k f : BitVec 2) (d : BitVec 4) (o : BitVec 3) (sat : BitVec 1) (s : State) :
    Host.Outcome State Fault Refusal :=
  tIssue s
    (fun x =>
      let a := x.acc k.toNat
      let fd := x.fd f.toNat
      let td := x.t.reg d.toNat
      let (m, n) := a.shape.getD (0, 0)
      let tensor := owSkind (fdA fd) == skTensor || owSkind (fdB fd) == skTensor
      ((x.accOk k.toNat).and (x.fdOk f.toNat)).and
        ((x.need (decide (o.toNat ≤ 5) && a.shape.isSome && plainView td 4
          && (a.kind == .empty || ((a.kind == .int) == (o.toNat == 5)))
          && !(a.kind == .int && tensor) && !(a.kind == .float && a.k0 != 0))).and
          (x.ranges [(td, m * n * outSize o.toNat)])))
    fun x =>
      { x.done x.t with
        window := winPut x.grp.window (x.t.reg d.toNat)
          (tstaBytes (x.acc k.toNat) o.toNat (sat == 1) (x.fd f.toNat)) }

/-- The nodes TEMIT writes. -/
def emitNodes (a : AccTile) : List AccNode := if a.kind = .empty then [] else decomposition a

/-- The bytes TEMIT writes (R298). -/
def emitBytes (a : AccTile) : List Byte :=
  let (m, n) := a.shape.getD (0, 0)
  let nds := emitNodes a
  natLe nds.length 4 ++ (nds.flatMap fun u => natLe (labelWordOf u) 4)
    ++ List.replicate (60 - 4 * nds.length) 0
    ++ nds.flatMap fun u => (valsOf u.vals (tileKeys m n)).flatMap fun v =>
      if a.kind = .int then natLe (wrap (signed v 32) 64) 8 else natLe v 4
where
  /-- The label of a node as a word (R258). -/
  labelWordOf (u : AccNode) : Nat := u.level * 2 ^ 27 + u.index

/-- The size of TEMIT's output. -/
def emitSize (a : AccTile) : Nat :=
  let (m, n) := a.shape.getD (0, 0)
  64 + (emitNodes a).length * (m * n * (if a.kind = .int then 8 else 4))

/-- TEMIT (R298). -/
def execTemit (k : BitVec 2) (d : BitVec 4) (s : State) : Host.Outcome State Fault Refusal :=
  tIssue s
    (fun x =>
      let a := x.acc k.toNat
      let td := x.t.reg d.toNat
      (x.accOk k.toNat).and
        ((x.need (a.kind != .resident && plainView td 64)).and (x.ranges [(td, emitSize a)])))
    fun x =>
      let a := x.acc k.toNat
      { x.done (x.setAcc k.toNat { shape := a.shape }) with
        window := winPut x.grp.window (x.t.reg d.toNat) (emitBytes a) }

/-! ## The cassette's words (R299) -/

/-- TLOOP, TINC and TSTOP may not stand among the captured words. -/
def loopWord (w : Nat) : Bool := w / 2 ^ 26 == 0x0F || w / 2 ^ 26 == 0x10 || w / 2 ^ 26 == 0x13

/-- The address of captured word `i`. -/
def capAddr (x : TIss) (i : Nat) : VAddr := x.t.pc + BitVec.ofNat 56 (4 * (i + 1))

/-- The judgement of one captured word, fetched with execute permission through the instruction cache (R55, R194,
R311). -/
def capJudge (x : TIss) (i : Nat) : TJudge :=
  match fetchWord x.s x.grp.core x.ctx (capAddr x i) with
  | .error f => .fault f (capAddr x i).toNat (capAddr x i)
  | .ok w =>
    if (decodeTile w.toNat).isNone || loopWord w.toNat then .fault .illegalOp 0 (capAddr x i) else .go

/-- The judgement of the words that a TLOOP of `len` words captures. -/
def loopJudge (x : TIss) (len : Nat) : TJudge :=
  (List.range len).foldl (fun j i => j.and (capJudge x i)) .go

/-- TLOOP of `len` words, `count` times. -/
def loopBody (x : TIss) (len count : Nat) : Group :=
  let back := capAddr x len
  if count = 0 then { x.grp with tile := some { x.t with pc := back, rules := noRules } }
  else { x.grp with tile := some { x.t with
    pc := x.t.pc + 4
    cassette := some
      { words := (List.range len).map fun i => excGet 0 (fetchWord x.s x.grp.core x.ctx (capAddr x i)),
        count := count, pass := 0, at_ := 0, off := 0, back := back } } }

/-- TLOOP with an immediate count, which is not 0 (R289). -/
def execTloopImm (l : BitVec 6) (c : BitVec 19) (s : State) : Host.Outcome State Fault Refusal :=
  tIssue s (fun x => (x.need (c != 0)).and (loopJudge x (l.toNat + 1))) fun x =>
    loopBody x (l.toNat + 1) c.toNat

/-- TLOOP with the count in a register. -/
def execTloopReg (l : BitVec 6) (a : BitVec 4) (s : State) : Host.Outcome State Fault Refusal :=
  tIssue s (fun x => loopJudge x (l.toNat + 1)) fun x =>
    loopBody x (l.toNat + 1) (x.t.reg a.toNat)

/-- TINC sets the rule of a slot (R299). -/
def setRule (x : TIss) (i : Nat) (r : TincRule) : Group :=
  x.done { x.t with rules := modAt x.t.rules i fun _ => r }

def execTincOff (i : BitVec 2) (s : State) : Host.Outcome State Fault Refusal :=
  tIssue s (fun _ => .go) fun x => setRule x i.toNat .off
def execTincT (i : BitVec 2) (t : BitVec 4) (step : BitVec 16) (s : State) :
    Host.Outcome State Fault Refusal :=
  tIssue s (fun _ => .go) fun x => setRule x i.toNat (.treg t.toNat step)
def execTincAcc (i : BitVec 2) (step : BitVec 16) (s : State) : Host.Outcome State Fault Refusal :=
  tIssue s (fun _ => .go) fun x => setRule x i.toNat (.acc step)

/-! ## Barriers (R300) -/

/-- TARR: one arrival; Td takes the phase it arrived in. -/
def execTarr (k d : BitVec 4) (s : State) : Host.Outcome State Fault Refusal :=
  tIssue s
    (fun x => if (nbOf x.grp k.toNat).pend = 0 then .fault .barrierMisuse 0 x.t.pc else .go)
    fun x =>
      { x.done (x.t.setReg d.toNat (nbOf x.grp k.toNat).phase) with
        nbs := modAt x.grp.nbs k.toNat fun b => nbArrive b true }

/-- TWAIT (R241, R300): under a debug stop a stream does not execute it (R88); while the group is EXITING an
unsatisfied one raises BARRIER_MISUSE (R117). -/
def execTwait (k a : BitVec 4) (s : State) : Host.Outcome State Fault Refusal :=
  tIssue s
    (fun x =>
      if tDebug x.grp x.ctx then .stall
      else match phaseTest (x.t.reg a.toNat % 16) (nbOf x.grp k.toNat).phase with
      | .misuse => .fault .barrierMisuse 0 x.t.pc
      | .wait => if x.grp.state == .exiting then .fault .barrierMisuse 0 x.t.pc else .stall
      | .done => .go)
    fun x => x.done x.t

end Sys2Proof.Machine
end

