-- ==== Sys2Proof/Machine/Record.lean ====
section
/-! DEFINITION. Record.lean: the save record of a parked group (R85, R125, R248, R349): its parts, the bytes of each
and what a restore takes from them (R88). Within a part the fields stand in the order R85 names them, packed from the
part's start (DESIGN CHOICE, log 58); bytes of a part that no field takes are free values. -/

namespace Sys2Proof.Machine

/-! ## Places (R85) -/

/-- The bytes a gang's regions take for each lane. -/
def regionRow (k : Kernel) : Nat := if k.regions.isEmpty then 0 else 4 * k.regions.length + 72

/-- The size of a group's save record. -/
def saveSize (k : Kernel) : Nat :=
  let p := k.pkt
  256 + gangCount p * (512 + 256 + 256 + 1024 + p.regs * 128 + 32 * regionRow k) + p.lmem + 4096 + p.acc * 704 * 1024

/-- The places in a record of gang `i`'s parts: its slices, its cohorts and traps, its S registers, LR and O
registers, main registers and regions. The parts stand one after another, each for every gang. -/
def gangHOff (_k : Kernel) (i : Nat) : Nat := 256 + 512 * i
def gangCOff (k : Kernel) (i : Nat) : Nat := 256 + gangCount k.pkt * 512 + 256 * i
def gangSOff (k : Kernel) (i : Nat) : Nat := 256 + gangCount k.pkt * 768 + 256 * i
def gangLOff (k : Kernel) (i : Nat) : Nat := 256 + gangCount k.pkt * 1024 + 1024 * i
def gangVOff (k : Kernel) (i : Nat) : Nat := 256 + gangCount k.pkt * 2048 + k.pkt.regs * 128 * i
def gangROff (k : Kernel) (i : Nat) : Nat :=
  256 + gangCount k.pkt * (2048 + k.pkt.regs * 128) + 32 * regionRow k * i
/-- The place of the window, and of the block after it. -/
def windowOff (k : Kernel) : Nat := saveSize k - k.pkt.acc * 704 * 1024 - 4096 - k.pkt.lmem
def blockOff (k : Kernel) : Nat := windowOff k + k.pkt.lmem

/-! ## Writing the parts -/

/-- Numbers of `n` bytes each, one after another. -/
def nums (n : Nat) (xs : List Nat) : List Byte := xs.flatMap fun x => natLe x n

/-- The header: kernel ordinal, linear id, core, gang count, rotation slots and the rotation's position. -/
def headBytes (k : Kernel) (grp : Group) (gs : List Gang) : List Byte :=
  natLe k.ord 8 ++ natLe grp.lid 4 ++ natLe grp.core 4 ++ natLe (gangCount k.pkt) 4 ++ natLe k.turn 4
    ++ nums 1 (gs.map Gang.rotPos)

/-- Slice PCs, mode words, IM, counters, retired counts, stack depths, run masks, exited masks, P1 to P7. -/
def sliceBytes (g : Gang) : List Byte :=
  nums 8 (g.slices.map fun x => x.pc.toNat) ++ nums 4 (g.slices.map fun x => x.mode.toNat)
    ++ nums 4 (g.slices.map fun x => x.im.toNat) ++ nums 4 (g.slices.map fun x => (counterWord x).toNat)
    ++ nums 8 (g.slices.map fun x => x.retired) ++ nums 1 (g.slices.map fun x => x.stack.length)
    ++ nums 1 (g.slices.map fun x => x.run.toNat) ++ nums 1 (g.slices.map fun x => x.exited.toNat)
    ++ nums 4 ((List.range 7).map fun p => (smGet g.preds (p + 1)).toNat)

/-- The lowest slice of the cohort that holds slice `k`, 255 where none does. -/
def cohortMark (g : Gang) (k : Nat) : Nat := ((g.cohorts.find? fun m => m.getLsbD k).map lowSlice).getD 255

/-- Cohort membership, the cyclic position, TRAP_BASE, FPX_EN, DBG_CTL and the trap state of the slices. -/
def cohortBytes (g : Gang) : List Byte :=
  nums 1 ((List.range 8).map (cohortMark g)) ++ natLe (g.lastCoh.getD 255) 8 ++ natLe g.trapBase.toNat 8
    ++ natLe g.fpxEn.toNat 4 ++ natLe g.dbgCtl.toNat 4 ++ nums 4 (g.slices.map fun x => x.trapCause.toNat)
    ++ nums 8 (g.slices.map fun x => x.trapInfo.toNat) ++ nums 4 (g.slices.map fun x => x.fpx.toNat)

/-- The 32 lanes of a register as the record holds them. -/
def laneRow (g : Gang) (code : Nat) : List Byte := nums 4 ((List.range 32).map fun l => (smGet g.regs (regKey l code)).toNat)

/-- A lane's counts of the kernel's regions, and its open region: id with a mark in bit 31, sampled flag, inputs. -/
def regionBytes (k : Kernel) (g : Gang) (l : Nat) : List Byte :=
  nums 4 (k.regions.map fun r => axCountOf g r.id l) ++ (match laneOpen g l with
    | none => natLe 0 72
    | some o => natLe (2 ^ 31 + o.id) 4 ++ natLe (if o.sampled then 1 else 0) 4
        ++ nums 4 ((List.range 16).map fun j => (nth o.x j 0).toNat))

/-- A numbered barrier as a word (R248). -/
def nbWord (b : NumBar) : Nat := 2 ^ 16 * b.phase + 2 ^ 8 * b.reload + b.pend

/-- A TINC rule in four bytes. -/
def ruleBytes (r : TincRule) : List Byte :=
  match r with
  | .off => natLe 0 4
  | .treg x step => natLe 1 1 ++ natLe x 1 ++ natLe step.toNat 2
  | .acc step => natLe 2 1 ++ natLe 0 1 ++ natLe step.toNat 2

/-- A logged load (R303). -/
def loadBytes (l : SlabLoad) : List Byte :=
  natLe (if l.isScale then 1 else 0) 4 ++ natLe l.win.toNat 4 ++ natLe l.slab.toNat 4 ++ natLe l.shape.toNat 4
    ++ natLe l.pc.toNat 8 ++ nums 1 ((List.range 32).map fun j => (nth l.desc j 0).toNat)

/-- The marks of a stream: F registers loaded, replaying, ended. -/
def streamFlags (t : TileStream) : Nat :=
  ((List.range 4).map fun i => if (nth t.fdesc i none).isSome then 2 ^ i else 0).sum
    + (if t.cassette.isSome then 16 else 0) + (if t.ended then 32 else 0)

/-- A stream's T and F registers, PC, cassette, rules and log. -/
def streamBytes (t : TileStream) : List Byte :=
  nums 4 ((List.range 16).map t.reg)
    ++ ((List.range 4).flatMap fun i => nums 1 ((List.range 32).map fun j => (nth ((nth t.fdesc i none).getD []) j 0).toNat))
    ++ natLe t.pc.toNat 8 ++ natLe (streamFlags t) 4 ++ natLe t.log.length 4
    ++ (t.rules.flatMap ruleBytes)
    ++ (match t.cassette with
      | none => natLe 0 284
      | some c => natLe c.words.length 4 ++ natLe c.count 4 ++ natLe c.pass 4 ++ natLe c.at_ 4 ++ natLe c.off 4
          ++ natLe c.back.toNat 8 ++ nums 4 ((List.range 64).map fun j => (nth c.words j 0).toNat))
    ++ t.log.flatMap loadBytes

/-- The block of the numbered barriers and the tile stream. -/
def blockBytes (grp : Group) : List Byte :=
  nums 4 ((List.range 16).map fun j => nbWord (nbOf grp j)) ++ (match grp.tile with
    | some t => streamBytes t
    | none => [])

/-- The state with bytes written at a virtual address of a context, as far as its pages translate. -/
def vaBytes (s : State) (c : Ctx) (va : Nat) (bs : List Byte) : State := excGet s (writeVa s .nobody 8 c va 0 bs)

/-- `n` bytes whose content R85 leaves open. -/
def openBytes (draw n : Nat) : List Byte := (List.range n).map fun i => Config.savedByte (draw + i)

/-- The parts of gang `i`'s state, with their places. -/
def gangParts (k : Kernel) (i : Nat) (g : Gang) : List (Nat × List Byte) :=
  [(gangHOff k i, sliceBytes g), (gangCOff k i, cohortBytes g),
   (gangSOff k i, nums 4 ((List.range 64).map fun j => (smGet g.sregs j).toNat)),
   (gangLOff k i, (List.range 8).flatMap (laneRow g)),
   (gangVOff k i, (List.range k.pkt.regs).flatMap fun j => laneRow g (8 + j)),
   (gangROff k i, if k.regions.isEmpty then [] else (List.range 32).flatMap (regionBytes k g))]

/-- A group's record written at `va`. The form of the accumulator tiles in it is not architected (R286). -/
def saveRecord (s : State) (c : Ctx) (k : Kernel) (grp : Group) (va : Nat) : State :=
  let gs := grp.gangs.filterMap fun gi => s.exe.gangs[gi]?
  let parts := (0, headBytes k grp gs) :: (gs.zipIdx.flatMap fun x => gangParts k x.2 x.1)
    ++ [(windowOff k, smRun grp.window 0 k.pkt.lmem), (blockOff k, blockBytes grp)]
  let s0 := { s with exe := { s.exe with fresh := s.exe.fresh + saveSize k } }
  parts.foldl (fun t x => vaBytes t c (va + x.1) x.2) (vaBytes s0 c va (openBytes s.exe.fresh (saveSize k)))

/-! ## Reading the parts back (R84, R88) -/

/-- The bytes of a part of a record, where they can be read. -/
def readPart (s : State) (c : Ctx) (va n : Nat) : Option (List Byte) :=
  match readVa s 8 c va n 0 with
  | .ok bs => if bs.length = n then some bs else none
  | .error _ => none

/-- The number in `n` bytes of a part at `o`. -/
def fieldAt (bs : List Byte) (o n : Nat) : Nat := leNat ((bs.drop o).take n)

/-- A slice as its record has it. Its counters are those of what is still outstanding, since S goes on falling while
the group is parked (R84); a slice whose PC the record changes is at no REGANG. -/
def loadSlice (bs : List Byte) (k : Nat) (x : Slice) : Slice :=
  let pc := BitVec.ofNat 56 (fieldAt bs (8 * k) 8)
  { x with
    pc := pc
    mode := BitVec.ofNat 24 (fieldAt bs (64 + 4 * k) 4)
    im := BitVec.ofNat 32 (fieldAt bs (96 + 4 * k) 4)
    retired := fieldAt bs (160 + 8 * k) 8
    run := BitVec.ofNat 4 (fieldAt bs (232 + k) 1)
    exited := BitVec.ofNat 4 (fieldAt bs (240 + k) 1)
    regang := if pc = x.pc then x.regang else none }

/-- The entries of slice `k` from its gang's stack area, newest first (R126). -/
def loadStack (pool : SMap 8) (n k depth : Nat) : List StackEntry :=
  ((List.range depth).filterMap fun j => entryOf (smRun pool (entryAt n k j) 16)).reverse

/-- The slices and predicates of a gang from their part, and the stacks from the gang's area. -/
def loadSlices (pool : SMap 8) (bs : List Byte) (g : Gang) : Gang :=
  { g with
    slices := g.slices.mapIdx fun k (x : Slice) =>
      { loadSlice bs k x with stack := match g.area with
        | some n => loadStack pool n k (fieldAt bs (224 + k) 1)
        | none => x.stack }
    preds := smPuts g.preds ((List.range 7).map fun p => (p + 1, BitVec.ofNat 32 (fieldAt bs (248 + 4 * p) 4))) }

/-- The cohorts that the membership of a record names, by lowest slice. -/
def loadCohorts (bs : List Byte) : List (BitVec 8) :=
  (List.range 8).filterMap fun k =>
    if fieldAt bs k 1 = k then
      some (BitVec.ofNat 8 (((List.range 8).filter fun j => fieldAt bs j 1 == k).map fun j => 2 ^ j).sum)
    else none

/-- The cohorts and the trap state of a gang from their part. -/
def loadTraps (bs : List Byte) (g : Gang) : Gang :=
  { g with
    cohorts := loadCohorts bs
    lastCoh := if fieldAt bs 8 8 < 8 then some (fieldAt bs 8 8) else none
    trapBase := BitVec.ofNat 64 (fieldAt bs 16 8)
    fpxEn := BitVec.ofNat 32 (fieldAt bs 24 4)
    dbgCtl := BitVec.ofNat 32 (fieldAt bs 28 4)
    slices := g.slices.mapIdx fun k (x : Slice) =>
      { x with
        trapCause := BitVec.ofNat 32 (fieldAt bs (32 + 4 * k) 4)
        trapInfo := BitVec.ofNat 64 (fieldAt bs (64 + 8 * k) 8)
        fpx := BitVec.ofNat 32 (fieldAt bs (128 + 4 * k) 4) } }

/-- The registers of `rows` rows of 32 lanes, from code `c0` upward. -/
def rowRegs (c0 : Nat) (bs : List Byte) (rows : Nat) : Writes :=
  (List.range rows).flatMap fun r => (List.range 32).map fun l =>
    (regKey l (c0 + r), BitVec.ofNat 32 (fieldAt bs (128 * r + 4 * l) 4))

/-- A lane's open region from its row. What the record has no place for stays as the engine holds it. -/
def loadOpen (k : Kernel) (bs : List Byte) (l : Nat) (o : OpenRegion) : OpenRegion :=
  let b := regionRow k * l + 4 * k.regions.length
  { o with
    id := fieldAt bs b 4 % 2 ^ 31
    sampled := fieldAt bs (b + 4) 4 == 1
    x := o.x.mapIdx fun j _ => BitVec.ofNat 32 (fieldAt bs (b + 8 + 4 * j) 4) }

/-- The regions of a gang from their part. -/
def loadRegions (k : Kernel) (bs : List Byte) (g : Gang) : Gang :=
  { g with
    axCount := smPuts g.axCount (k.regions.zipIdx.flatMap fun r => (List.range 32).map fun l =>
      (axKey r.1.id l, BitVec.ofNat 32 (fieldAt bs (regionRow k * l + 4 * r.2) 4)))
    opens := (g.opens.filter fun o => fieldAt bs (regionRow k * o.lane + 4 * k.regions.length + 3) 1 ≥ 128).map fun o =>
      loadOpen k bs o.lane o }

/-- A part read and taken, where it can be read. -/
def takePart {α : Type} (s : State) (c : Ctx) (va n : Nat) (f : List Byte → α → α) (x : α) : α :=
  match readPart s c va n with
  | some bs => f bs x
  | none => x

/-- A gang as its record and its stack area hold it. -/
def loadGang (s : State) (c : Ctx) (k : Kernel) (pool : SMap 8) (va i : Nat) (g : Gang) : Gang :=
  let g := takePart s c (va + gangHOff k i) 512 (loadSlices pool) g
  let g := takePart s c (va + gangCOff k i) 256 loadTraps g
  let g := takePart s c (va + gangSOff k i) 256 (fun bs g => { g with
    sregs := smPuts g.sregs ((List.range 64).map fun j => (j, BitVec.ofNat 32 (fieldAt bs (4 * j) 4))) }) g
  let g := takePart s c (va + gangLOff k i) 1024 (fun bs g => { g with regs := smPuts g.regs (rowRegs 0 bs 8) }) g
  let g := takePart s c (va + gangVOff k i) (k.pkt.regs * 128)
    (fun bs g => { g with regs := smPuts g.regs (rowRegs 8 bs k.pkt.regs) }) g
  if k.regions.isEmpty then g else takePart s c (va + gangROff k i) (32 * regionRow k) (loadRegions k) g

/-- A numbered barrier from its word (R248). -/
def nbLoad (bs : List Byte) (j : Nat) (b : NumBar) : NumBar :=
  let w := fieldAt bs (4 * j) 4
  { b with phase := bits w 19 16, reload := bits w 15 8, pend := bits w 7 0 }

/-- A TINC rule from its four bytes. -/
def ruleOf (bs : List Byte) (o : Nat) : TincRule :=
  let step := BitVec.ofNat 16 (fieldAt bs (o + 2) 2)
  if fieldAt bs o 1 = 1 then .treg (fieldAt bs (o + 1) 1) step else if fieldAt bs o 1 = 2 then .acc step else .off

/-- A logged load from its bytes. -/
def loadOf (bs : List Byte) (o : Nat) : SlabLoad :=
  ⟨fieldAt bs o 4 == 1, BitVec.ofNat 56 (fieldAt bs (o + 16) 8), BitVec.ofNat 32 (fieldAt bs (o + 4) 4),
   BitVec.ofNat 32 (fieldAt bs (o + 8) 4), BitVec.ofNat 32 (fieldAt bs (o + 12) 4), (bs.drop (o + 24)).take 32⟩

/-- A stream from the block that holds it, after the numbered barriers. -/
def loadStream (bs : List Byte) (t : TileStream) : TileStream :=
  let flags := fieldAt bs 264 4
  { t with
    regs := smPuts t.regs ((List.range 16).map fun j => (j, BitVec.ofNat 32 (fieldAt bs (64 + 4 * j) 4)))
    fdesc := (List.range 4).map fun i => if flags.testBit i then some ((bs.drop (128 + 32 * i)).take 32) else none
    pc := BitVec.ofNat 56 (fieldAt bs 256 8)
    rules := (List.range 4).map fun i => ruleOf bs (272 + 4 * i)
    cassette := if flags.testBit 4 then
        some ⟨(List.range (fieldAt bs 288 4)).map fun j => BitVec.ofNat 32 (fieldAt bs (316 + 4 * j) 4),
          fieldAt bs 292 4, fieldAt bs 296 4, fieldAt bs 300 4, fieldAt bs 304 4, BitVec.ofNat 56 (fieldAt bs 308 8)⟩
      else none
    log := (List.range (fieldAt bs 268 4)).map fun j => loadOf bs (572 + 56 * j)
    ended := flags.testBit 5 }

/-- A group with the window, the numbered barriers and the stream of its record. -/
def loadGroup (s : State) (c : Ctx) (k : Kernel) (va : Nat) (grp : Group) : Group :=
  let g := takePart s c (va + windowOff k) k.pkt.lmem (fun bs g => { g with window := smPut [] 0 bs }) grp
  takePart s c (va + blockOff k) 4096 (fun bs g => { g with
    nbs := g.nbs.mapIdx fun j b => nbLoad bs j b
    tile := g.tile.map (loadStream bs) }) g

end Sys2Proof.Machine
end

