-- ==== Sys2Proof/Machine/Groups.lean ====
section
/-! DEFINITION. Groups.lean: the room test (R107, R108), victims (R82, R83), the start, park, restore and end
of groups (R84, R85, R115 to R118), the starved gang (R122) and the passing of a turn (R87). -/

namespace Sys2Proof.Machine

/-! ## Room (R107, R108) -/

/-- A group in this state holds its core's resources (R115, R118). -/
def resident (x : GState) : Bool := x == .placed || x == .running || x == .parking || x == .exiting

/-- A group in this state holds them for good: a parking group is leaving (R82). -/
def staying (x : GState) : Bool := x == .placed || x == .running || x == .exiting

/-- How many of `n` gangs are bound to scheduler `q` (R107). -/
def schedGangs (n q : Nat) : Nat := (n + 3 - q) / 4

/-- The granules of a window (R107). -/
def granules (p : Packet) : Nat := (p.lmem + 65535) / 65536

/-- Whether a core whose groups have the packets `held` has room for `n` more groups of `p` (R107). -/
def roomFor (held : List Packet) (p : Packet) (n : Nat) : Bool :=
  let all := held ++ List.replicate n p
  ([0, 1, 2, 3].all fun q =>
    decide ((all.map fun x => schedGangs (gangCount x) q).sum ≤ 8) &&
    decide ((all.map fun x => schedGangs (gangCount x) q * x.regs * 128).sum ≤ 131072))
  && decide ((all.map granules).sum ≤ 48)
  && decide ((all.map fun x => x.acc).sum ≤ 4)
  && decide ((all.map fun x => if x.tile = 0 then 0 else 1).sum ≤ 4)

/-- A group fits: an empty core has room for it (R108). -/
def fits (p : Packet) : Bool := roomFor [] p 1

/-- The groups on a core in states that `f` names. -/
def coreGroups (s : State) (core : Nat) (f : GState → Bool) : List Group :=
  s.exe.groups.filter fun g => g.core == core && f g.state

/-- The groups of cooperative kernels for which victims are leaving a core: their room is spoken for (R110). -/
def plannedOn (s : State) (core : Nat) : List Packet :=
  s.ctl.kernels.flatMap fun k => (k.plan.filter fun c => c == core).map fun _ => k.pkt

/-- Whether a core has room for `n` groups of `p` beside its groups in states that `f` names. -/
def coreRoom (s : State) (core : Nat) (f : GState → Bool) (p : Packet) (n : Nat) : Bool :=
  roomFor (((coreGroups s core f).filterMap fun g => (kernOf s g).map Kernel.pkt) ++ plannedOn s core) p n

/-- The cores of a partition in die-then-core order; a lost die, or one whose scrub is not done, has none
(R67, R330, R405). -/
def partCores (s : State) (p : Partition) : List Nat :=
  (((List.range 8).filter fun d => p.dies.contains d && !s.sys.lostDies.contains d
      && !s.sys.scrubbing.contains d).flatMap fun d =>
    (List.range 24).map fun c => 24 * d + c)

/-! ## Leaving a core (R83, R84, R118) -/

/-- The context of a kernel. -/
def kernCtx (s : State) (k : Kernel) : Option Ctx := findCtx s.ctl.ctxs k.part k.ctx

/-- Whether the group belongs to context `cid` of partition `part`. -/
def ofCtx (s : State) (part cid : Nat) (g : Group) : Bool :=
  match kernOf s g with
  | some k => k.part == part && k.ctx == cid
  | none => false

/-- A context whose last resident group has ended or parked becomes RUNNABLE or PARKED (R70). -/
def afterDepart (s : State) (part cid : Nat) : State :=
  match findCtx s.ctl.ctxs part cid with
  | none => s
  | some c =>
    let mine := s.exe.groups.filter (ofCtx s part cid)
    if c.state == .running && !(mine.any fun g => resident g.state) then
      let x : CState := if mine.any fun g => g.state == .parked then .parked else .runnable
      { s with ctl := { s.ctl with ctxs := modCtx s.ctl.ctxs part cid fun c => { c with state := x } } }
    else s

/-- Gangs of a partition that wait for a stack area take one, while there are any, but for those in `skip` (R126; by
gang number: log 124). -/
def grantAreas (s : State) (part : Nat) (skip : List Nat) : State :=
  (List.range s.exe.gangs.length).foldl (fun s gi =>
    match s.exe.gangs[gi]? with
    | none => s
    | some g =>
      let mine := match s.exe.groups[g.grp]? with
        | some grp => grp.gangs.contains gi && ((kernOf s grp).any fun k => k.part == part)
        | none => false
      if mine && g.area.isNone && !skip.contains gi then
        let r := spill s.ctl.parts part g
        { setGang s gi r.2 with ctl := { s.ctl with parts := r.1 } }
      else s) s

/-- The stack areas of a group's gangs given back (R126). -/
def releaseAreas (s : State) (grp : Group) (part : Nat) : State :=
  let mine := grp.gangs.filterMap fun gi => (s.exe.gangs[gi]?).bind Gang.area
  grantAreas { s with
    ctl := { s.ctl with parts := modIf s.ctl.parts (fun p => p.id == part) fun p =>
      { p with areas := p.areas.filter fun a => !mine.contains a } }
    exe := { s.exe with gangs := grp.gangs.foldl (fun gs gi =>
      modAt gs gi fun g => { g with area := none }) s.exe.gangs } } part grp.gangs

/-- The cells a group has pinned released (R118). -/
def releasePins (s : State) (gid : Nat) (part cid : Nat) : State :=
  let n := ((s.exe.groups[gid]?).map fun g => g.pins.length).getD 0
  { s with
    exe := { s.exe with groups := modAt s.exe.groups gid fun g => { g with pins := [] } }
    ctl := { s.ctl with ctxs := modCtx s.ctl.ctxs part cid fun c => { c with lockUsed := c.lockUsed - n } } }

/-- Operations that end with their group when it is KILLED: those of its window and its locks, and its loads
(R118). -/
def diesWithGroup (o : MemOp) : Bool :=
  isLocal o || o.kind == .lockb || o.kind == .unlockb || o.kind == .sload || o.kind == .load

/-- The resources of a group freed as for KILLED: its copies cancelled, its loads' results discarded, its
stores left to go on (R118). Under a halt its copies, and the window they use, stand until they have reached the end of
a beat (R73). -/
def dropGroup (s : State) (gid : Nat) (halt : Bool) : State :=
  match s.exe.groups[gid]? with
  | none => s
  | some grp =>
    match kernOf s grp with
    | none => s
    | some k =>
      let mine := fun (o : MemOp) => grp.gangs.contains o.gang
      let s := releasePins (releaseAreas s grp k.part) gid k.part k.ctx
      let ops := (s.mem.ops.filter fun o => !(mine o && diesWithGroup o)).map fun o =>
        if mine o then { o with killed := true } else o
      { s with
        mem := { s.mem with ops := ops }
        exe := { s.exe with
          copies := s.exe.copies.filter fun c => c.grp != gid || halt
          groups := modAt s.exe.groups gid fun g =>
            { g with state := .killed, gangs := [], window := if halt then g.window else [], nbs := [], tile := none,
                     tctx := none, slots := [], debugSave := false, atStop := false } } }

/-- The lowest 64 KiB-aligned offset of the save area at which a record of `size` bytes is free (R85). -/
def saveRoom (c : Ctx) (size : Nat) : Option Nat :=
  let ends := 0 :: c.saves.map fun r => alignUp (r.2.1 + r.2.2) 65536
  (ends.foldl (fun l x => insertBy id x l) []).find? fun o =>
    decide (o + size ≤ c.desc.saveSize) &&
      c.saves.all fun r => decide (o + size ≤ r.2.1) || decide (r.2.1 + r.2.2 ≤ o)

/-- Space for a group's record taken, where there is some. -/
def takeSave (s : State) (gid : Nat) (k : Kernel) : State :=
  match kernCtx s k, s.exe.groups[gid]? with
  | some c, some g =>
    if g.saved.isSome then s
    else
      match saveRoom c (saveSize k) with
      | none => s
      | some o =>
        { s with
          ctl := { s.ctl with ctxs := modCtx s.ctl.ctxs k.part k.ctx fun c =>
            { c with saves := c.saves ++ [(gid, o, saveSize k)] } }
          exe := { s.exe with groups := modAt s.exe.groups gid fun g => { g with saved := some o } } }
  | _, _ => s

/-- Every gang of a group given a stack area, where the pool has enough for all of them (R126). -/
def parkAreas (s : State) (grp : Group) (part : Nat) : State :=
  let r := grp.gangs.foldl (fun (acc : List Partition × List Gang) gi =>
    match acc.2[gi]? with
    | none => acc
    | some g =>
      let t := takeArea acc.1 part g
      (t.1, modAt acc.2 gi fun _ => t.2)) (s.ctl.parts, s.exe.gangs)
  if grp.gangs.all fun gi => ((r.2[gi]?).bind Gang.area).isSome then
    { s with ctl := { s.ctl with parts := r.1 }, exe := { s.exe with gangs := r.2 } }
  else s

/-- Whether a group that parks has its stack areas and the space of its record (R82, R126). -/
def parkRoom (s : State) (gid : Nat) : Bool :=
  match s.exe.groups[gid]? with
  | some g => g.saved.isSome && g.gangs.all fun gi => ((s.exe.gangs[gi]?).bind Gang.area).isSome
  | none => false

/-- A RUNNING group starts to park (R84, R88): its slices stop at their next instruction boundary, in fixed
gear at a rotation boundary. -/
def parkStart (s : State) (gid : Nat) (debug : Bool) : State :=
  match s.exe.groups[gid]? with
  | none => s
  | some grp =>
    match kernOf s grp with
    | none => s
    | some k =>
      if grp.state != .running then s
      else
        takeSave (parkAreas { s with exe := { s.exe with groups := modAt s.exe.groups gid fun g =>
          { g with state := .parking, debugSave := debug, atStop := !k.fixed || k.turn == 0 } } } grp k.part) gid k

/-! ## Victims (R82, R83) -/

/-- A list sorted by an order given as "comes before". -/
def sortWith {α : Type} (before : α → α → Bool) : List α → List α
  | [] => []
  | x :: xs => ins x (sortWith before xs)
where
  /-- `x` put into a sorted list. -/
  ins (x : α) : List α → List α
    | [] => [x]
    | y :: t => if before y x then y :: ins x t else x :: y :: t

/-- The launch flags of R97. -/
def isCoop (k : Kernel) : Bool := k.pkt.flags.testBit 1
def isReplayable (k : Kernel) : Bool := k.pkt.flags.testBit 2

/-- The candidates of a core for a group of priority `prio`, in the order of R82, as (group, kernel). -/
def victims (s : State) (core prio : Nat) : List Nat :=
  let cs := s.exe.groups.zipIdx.filterMap fun x =>
    match kernOf s x.1 with
    | some k => if x.1.core == core && x.1.state == .running && decide (k.prio < prio) && !isCoop k then
        some (k.prio, x.1.placeNo, x.1.lid, x.2) else none
    | none => none
  (sortWith (fun (a b : Nat × Nat × Nat × Nat) =>
    if a.1 ≠ b.1 then decide (a.1 < b.1)
    else if a.2.1 ≠ b.2.1 then decide (b.2.1 < a.2.1)
    else decide (b.2.2.1 ≤ a.2.2.1)) cs).map fun x => x.2.2.2

/-- A victim evicted: discarded where its kernel is replayable, else parked where its record and its gangs' stacks
have room; none where it is skipped (R82, R83, R126). -/
def evictOne (s : State) (gid : Nat) : Option State :=
  match s.exe.groups[gid]? with
  | none => none
  | some grp =>
    match kernOf s grp with
    | none => none
    | some k =>
      if isReplayable k then some (afterDepart (dropGroup s gid false) k.part k.ctx)
      else
        let t := parkStart s gid false
        if parkRoom t gid then some t else none

/-- Victims evicted in order until a core has room, parking groups counted as gone. -/
def evictUntil (core : Nat) (p : Packet) (n : Nat) : List Nat → State → Option State
  | vs, s =>
    if coreRoom s core staying p n then some s
    else
      match vs with
      | [] => none
      | v :: vs => evictUntil core p n vs ((evictOne s v).getD s)

/-- What looking for a core finds: a core with room, victims leaving (or made to leave), or nothing. -/
inductive Found where
  | at_ (core : Nat) (s : State)
  | leaving (s : State)
  | nowhere
deriving DecidableEq, Repr

/-- The core for `n` groups of `p` at priority `prio`, among `cores` in order (R82, R109): the first with
room; else one where parking groups make room; else the first where victims do. -/
def findCore (s : State) (cores : List Nat) (p : Packet) (n prio : Nat) : Found :=
  match cores.find? fun c => coreRoom s c resident p n with
  | some c => .at_ c s
  | none =>
    if cores.any fun c => coreRoom s c staying p n then .leaving s
    else
      match cores.findSome? fun c => (evictUntil c p n (victims s c prio) s).map fun t => (c, t) with
      | none => .nowhere
      | some (c, t) => if coreRoom t c resident p n then .at_ c t else .leaving t

/-! ## Start (R86, R105, R115, R116) -/

/-- The gang slots for `n` gangs on a core whose slots `used` are taken: gang g takes the lowest free place
of scheduler g mod 4 (R107; slot numbers: log 18). -/
def takeSlots (used : List Nat) (n : Nat) : List Nat :=
  (List.range n).foldl (fun got g =>
    got ++ [freeNumber (used ++ got) 8 (8 * (g % 4))]) []

/-- The slots taken on a core. -/
def usedSlots (s : State) (core : Nat) : List Nat := (coreGroups s core resident).flatMap fun g => g.slots

/-- GEAR_STATE of a gang (R86). -/
def gearWord (k : Kernel) (rot : Nat) : Word :=
  if k.fixed then BitVec.ofNat 32 (1 + rot * 2 ^ 8 + (rotSize k - 1) * 2 ^ 16) else 0

/-- A gang as it starts (R45, R105, R119). Of CODE the low 56 bits are the address; no check refuses others (DESIGN
CHOICE, log 122). -/
def newGang (k : Kernel) (c : Ctx) (gid lid g slot rot : Nat) : Gang :=
  let u := fun (x : Nat) => BitVec.ofNat 32 x
  { grp := gid, idx := g, slices := List.replicate 8 { pc := BitVec.ofNat 56 k.pkt.code.toNat },
    sregs := smPuts [] [(0, u k.pkt.args.toNat), (1, u (k.pkt.args.toNat / 2 ^ 32)), (2, u lid), (3, u g)],
    trapBase := BitVec.ofNat 64 (c.desc.trapBase.toNat % 2 ^ 56), slot := slot, rotPos := rot,
    gear := gearWord k rot }

/-- A lowest tile-stream context of a core that is free (R15, R107). -/
def freeTctx (s : State) (core : Nat) : Nat :=
  freeNumber ((coreGroups s core resident).filterMap fun g => g.tctx) 4 0

/-- A group's tile stream as it starts at TILE (R279, R280). Of TILE the low 56 bits are the address, at any alignment;
no check refuses others (DESIGN CHOICE, log 123). -/
def newTile (p : Packet) : Option TileStream :=
  if p.tile = 0 then none
  else some { pc := BitVec.ofNat 56 p.tile.toNat, accs := List.replicate p.acc {} }

/-- A context with a group on a core is RUNNING (R70). -/
def ctxRunning (s : State) (part cid : Nat) : State :=
  { s with ctl := { s.ctl with ctxs := modCtx s.ctl.ctxs part cid fun c =>
      if c.state == .runnable || c.state == .parked then { c with state := .running } else c } }

/-- The next placement number of a partition (R116). -/
def nextPlace (s : State) (part : Nat) : State × Nat :=
  let n := ((findPart s.ctl.parts part).map Partition.placeNo).getD 0
  ({ s with ctl := { s.ctl with parts := modIf s.ctl.parts (fun p => p.id == part) fun p =>
      { p with placeNo := n + 1 } } }, n)

/-- The PENDING group of a kernel with a linear id, if it was re-queued (R83). -/
def pendingGroup (s : State) (kern lid : Nat) : Option Nat :=
  (s.exe.groups.zipIdx.find? fun x => x.1.kern == kern && x.1.lid == lid && x.1.state == .pending).map
    Prod.snd

/-- The instruction-cache lines of a context dropped at a core on which one of its groups starts with a kernel
ordinal other than that of its last group there (R194). -/
def dropOldCode (m : Mem) (core part cid ord : Nat) : Mem :=
  let here := fun (x : Nat × Nat × Nat × Nat) => x.1 == core && x.2.1 == part && x.2.2.1 == cid
  let keep := match m.lastKord.find? here with
    | some x => x.2.2.2 == ord
    | none => true
  { m with
    icache := if keep then m.icache
      else m.icache.filter fun i => !(i.core == core && i.part == part && i.ctx == cid)
    lastKord := (core, part, cid, ord) :: m.lastKord.filter fun x => !here x }

/-- Group `lid` of a kernel placed on a core and started in one step, so that PLACED is passed through (R109, R115):
a new record, or that of a re-queued group. Its core's L1 is invalidated as by an acquire at SYSTEM scope (R230). -/
def placeOne (s : State) (kern lid core : Nat) : State :=
  match s.ctl.kernels[kern]? with
  | none => s
  | some k =>
    match kernCtx s k with
    | none => s
    | some c =>
      let n := gangCount k.pkt
      let old := pendingGroup s kern lid
      let gid := old.getD s.exe.groups.length
      let rots := ((s.exe.groups[gid]?).map Group.rots).getD []
      let slots := takeSlots (usedSlots s core) n
      let (s, no) := nextPlace s k.part
      let base := s.exe.gangs.length
      let gangs := (List.range n).map fun g => newGang k c gid lid g (nth slots g 0) (nth rots g 0)
      let load := n + if k.pkt.tile = 0 then 0 else 1
      let grp : Group :=
        { kern := kern, lid := lid, state := .running, core := core, placeNo := no,
          gangs := (List.range n).map fun g => base + g,
          nbs := List.replicate 16 { reload := load, pend := load },
          tile := newTile k.pkt, tctx := if k.pkt.tile = 0 then none else some (freeTctx s core),
          replay := old.isSome, slots := slots, rots := rots }
      ctxRunning { s with
        exe := { s.exe with
          gangs := s.exe.gangs ++ gangs
          groups := if old.isSome then modAt s.exe.groups gid fun _ => grp else s.exe.groups ++ [grp] }
        mem := dropOldCode (acquireL1 s.mem core scSystem) core k.part k.ctx k.ord
        ctl := { s.ctl with kernels := modAt s.ctl.kernels kern fun x =>
          { x with state := .running, started := true,
                   nextLid := if x.nextLid ≤ lid then lid + 1 else x.nextLid } } } k.part k.ctx

/-- The rotation positions of a fixed-gear kernel, by ascending gang slot, fixed when its groups are first
placed (R86). -/
def assignRots (s : State) (kern : Nat) : State :=
  match s.ctl.kernels[kern]? with
  | none => s
  | some k =>
    if !k.fixed then s
    else
      let slots := sortWith (fun a b => decide (a ≤ b)) ((kernGangs s kern).map Gang.slot)
      let rank := fun (x : Nat) => slots.findIdx fun y => y == x
      { s with exe := { s.exe with
          gangs := s.exe.gangs.map fun g =>
            if ((s.exe.groups[g.grp]?).map Group.kern) == some kern then
              { g with rotPos := rank g.slot, gear := gearWord k (rank g.slot) } else g
          groups := modIf s.exe.groups (fun g => g.kern == kern) fun g =>
            { g with rots := g.slots.map rank } } }

/-! ## Parking (R84, R88) -/

/-- Whether a stream has reached the place where a debug stop leaves it (R88). -/
def tileAtStop (s : State) (grp : Group) (c : Ctx) (t : TileStream) : Bool :=
  t.ended || t.stopped || (match fetchWord s grp.core c t.pc with
    | .ok w => (match decodeTile w.toNat with
      | some (.twait _ _) => true
      | _ => false)
    | .error _ => false)

/-- Whether the steps of R84 that precede the save are complete. -/
def parkReady (s : State) (gid : Nat) (grp : Group) (c : Ctx) : Bool :=
  let gs := grp.gangs.filterMap fun gi => s.exe.gangs[gi]?
  grp.state == .parking && grp.atStop
    && (gs.all fun g => g.slices.all fun x => x.cL == 0 && x.cF == 0 && x.cC == 0)
    && !(s.exe.copies.any fun x => x.grp == gid)
    && !(s.mem.ops.any fun o => grp.gangs.contains o.gang && diesWithGroup o)
    && (!grp.debugSave || (match grp.tile with
      | some t => tileAtStop s grp c t
      | none => true))

/-- The hardware stack entries of a parking group's gangs written to their areas (R84, R126). -/
def spillAll (s : State) (grp : Group) (part : Nat) : State :=
  let gs := grp.gangs.filterMap fun gi => s.exe.gangs[gi]?
  { s with ctl := { s.ctl with parts := modIf s.ctl.parts (fun x => x.id == part) fun x =>
      { x with pool := gs.foldl (fun p g => match g.area with
        | some n => spillTo p n g 0
        | none => p) x.pool } } }

/-- GROUP_PARKED: the steps of R84 are complete and the record is in the save area; the group's resources
are freed as R118 gives. -/
def execGroupParked (group : Nat) (s : State) : Host.Outcome State Fault Refusal :=
  match s.exe.groups[group]? with
  | none => .next s
  | some grp =>
    match kernOf s grp with
    | none => .next s
    | some k =>
      match kernCtx s k with
      | none => .next s
      | some c =>
        if !parkReady s group grp c then .next s
        else
          let t := takeSave (parkAreas s grp k.part) group k
          if !parkRoom t group then .next s
          else
            let o := (((t.exe.groups[group]?).bind Group.saved).getD 0)
            let t := saveRecord (spillAll t grp k.part) c k grp (c.desc.saveArea.toNat + o)
            let t := { t with exe := { t.exe with groups := modAt t.exe.groups group fun g =>
              { g with state := .parked, slots := [], tctx := none } } }
            .next (settleQueues (afterDepart t k.part k.ctx))

/-! ## Restore (R84, R85, R303) -/

/-- Whether a PARKED group may be restored (R70, R84). -/
def restorable (c : Ctx) (grp : Group) : Bool :=
  grp.state == .parked &&
    (c.state == .runnable || c.state == .running || (c.state == .parked && !c.parkCmd))

/-- The cores on which a kernel's groups may stand (R111). -/
def allowedCores (s : State) (k : Kernel) : List Nat :=
  match k.fixed, k.core with
  | true, some c => [c]
  | _, _ => ((findPart s.ctl.parts k.part).map (partCores s)).getD []

/-- The stop record of a load of the slab log that faults on restore (R303). -/
def slabRec (s : State) (grp : Group) (k : Kernel) (t : TileStream) (f : VAddr × FaultCode × Nat) :
    FaultRec :=
  tileRec s grp k t f.2.1 f.2.2 f.1 false

/-- A group loaded from its record and its stack areas onto a core (R84, R85, R126, R303); it runs at once. Its
outstanding stores go on from the new core. -/
def restoreOn (s : State) (gid : Nat) (grp : Group) (k : Kernel) (c : Ctx) (core : Nat) : State :=
  let va := c.desc.saveArea.toNat + grp.saved.getD 0
  let slots := takeSlots (usedSlots s core) (gangCount k.pkt)
  let pool := ((findPart s.ctl.parts k.part).map Partition.pool).getD []
  let gangs := grp.gangs.zipIdx.foldl (fun gs x =>
    modAt gs x.1 fun g => { loadGang s c k pool va x.2 g with slot := nth slots x.2 0, yielded := false })
    s.exe.gangs
  let grp := loadGroup s c k va grp
  let slab := match grp.tile with
    | some t => slabReplay k.pkt.lmem grp.window t.log []
    | none => ([], none)
  let tile := grp.tile.map fun t => { t with slab := slab.1, stopped := t.stopped || slab.2.isSome }
  let grp' := { grp with
    state := .running, core := core, slots := slots, tile := tile, saved := none
    debugSave := false, atStop := false
    tctx := if k.pkt.tile = 0 then none else some (freeTctx s core) }
  let s := dropSave { s with
    exe := { s.exe with gangs := gangs, groups := modAt s.exe.groups gid fun _ => grp' }
    mem := { dropOldCode (acquireL1 s.mem core scSystem) core k.part k.ctx k.ord with
      ops := modIf s.mem.ops (fun o => grp.gangs.contains o.gang) fun o => { o with core := core } } }
    gid k.part k.ctx
  let s := match slab.2, grp.tile with
    | some f, some t => addFault s (slabRec s grp' k t f)
    | _, _ => s
  ctxRunning s k.part k.ctx

/-! ## The end of a group (R117, R118) -/

/-- The conditions of R117. -/
def groupEnds (s : State) (gid : Nat) (grp : Group) : Bool :=
  let gs := grp.gangs.filterMap fun gi => s.exe.gangs[gi]?
  grp.state == .exiting && gs.all gangEnded
    && (gs.all fun g => g.slices.all fun x => x.cL == 0 && x.cF == 0)
    && !(s.exe.copies.any fun x => x.grp == gid)
    && !(s.mem.ops.any fun o => grp.gangs.contains o.gang && (o.cls == .l || o.cls == .f || o.kind == .sload))
    && (match grp.tile with
      | some t => t.ended
      | none => true)

/-- The operations on a group's window and locks end with it; stores go on to their homes (R117, R118). -/
def dropLocals (m : Mem) (grp : Group) : Mem :=
  { m with ops := m.ops.filter fun o => !(grp.gangs.contains o.gang && (isLocal o || o.kind == .unlockb)) }

/-- A kernel with every group DONE is DRAINING (R112). -/
def afterDone (s : State) (kern : Nat) : State :=
  match s.ctl.kernels[kern]? with
  | none => s
  | some k =>
    if k.state == .running && k.nextLid == k.total
        && (s.exe.groups.filter fun g => g.kern == kern).all (fun g => g.state == .done) then
      { s with ctl := { s.ctl with kernels := modAt s.ctl.kernels kern fun x => { x with state := .draining } } }
    else s

/-- GROUP_DONE: an EXITING group meets R117 and its resources are freed. -/
def execGroupDone (group : Nat) (s : State) : Host.Outcome State Fault Refusal :=
  match s.exe.groups[group]? with
  | none => .next s
  | some grp =>
    match kernOf s grp with
    | none => .next s
    | some k =>
      if !groupEnds s group grp then .next s
      else
        let s := releasePins (releaseAreas s grp k.part) group k.part k.ctx
        let s := { s with
          mem := dropLocals s.mem grp
          exe := { s.exe with groups := modAt s.exe.groups group fun g =>
            { g with state := .done, window := [], nbs := [], tile := none, tctx := none, slots := [] } } }
        .next (settleQueues (afterDepart (afterDone s grp.kern) k.part k.ctx))

/-- GROUP_REQUEUE: a group KILLED by replay becomes PENDING with its linear id and nothing else (R83, R115);
in fixed gear its gangs keep their rotation positions (R86). One KILLED by a halt stays so. -/
def execGroupRequeue (group : Nat) (s : State) : Host.Outcome State Fault Refusal :=
  match s.exe.groups[group]? with
  | none => .next s
  | some grp =>
    match kernOf s grp with
    | none => .next s
    | some k =>
      let halted := match kernCtx s k with
        | some c => fatalHalt c
        | none => true
      if grp.state == .killed && isReplayable k && kernLive k && !halted then
        .next { s with exe := { s.exe with groups := modAt s.exe.groups group fun g =>
          { g with state := .pending } } }
      else .next s

/-! ## Choosing what issues (R87, R121 to R123) -/

/-- The cycles after which a ready gang is starved (R121). -/
def starveLimit : Nat := 4096

/-- GANG_STARVED: a gang that has not issued for 4,096 ready cycles goes before the others of its scheduler (R121,
R122). Its issue is put at the head of the agenda, where it is made if the gang is ready and is the oldest of those
that have starved. -/
def execGangStarved (gang : Nat) (s : State) : Host.Outcome State Fault Refusal :=
  match s.exe.gangs[gang]? with
  | none => .next s
  | some g =>
    .next (if starveLimit ≤ g.starve then { s with exe := { s.exe with agenda := .starved gang :: s.exe.agenda } }
      else s)

/-- The gang whose turn it is in a fixed-gear kernel (R87). -/
def turnGang (s : State) (kern : Nat) (k : Kernel) : Option (Nat × Gang) :=
  (s.exe.gangs.zipIdx.find? fun x =>
    x.1.rotPos == k.turn && (match s.exe.groups[x.1.grp]? with
      | some grp => grp.kern == kern && grp.gangs.contains x.2
      | none => false)).map fun x => (x.2, x.1)

/-- Whether a cohort's instruction, run by its meaning `f`, neither issues nor faults now. -/
def stallsOn (s : State) (gi : Nat) (m : BitVec 8) (f : State → Host.Outcome State Fault Refusal) : Bool :=
  let n := fun (t : State) => ((t.exe.gangs[gi]?).map Gang.issues).getD 0
  match f { s with exe := { s.exe with cur := some (gi, m) } } with
  | .next t => n t == n s && t.ctl.faults.length == s.ctl.faults.length
  | _ => false

/-- Whether an event that an active lane of a cohort awaits is still owed a write, issued by a gang of the
rotation and not yet performed: what it awaits then needs no further issue (R87, log 89). -/
def eventOwed (s : State) (g : Gang) (grp : Group) (c : Ctx) (m : BitVec 8) (a : Byte) : Bool :=
  ((maskLanes m).filter (activeOn g)).any fun l =>
    match eventXl s (coreDie grp.core) c (rdPair g l a) needR with
    | .error _ => false
    | .ok x => s.mem.ops.any fun o => o.kern == grp.kern && !isLocal o && o.parts.any fun p =>
        !p.performed && decide (p.pa < x.pa + 8) && decide (x.pa < p.pa + p.len)

/-- Whether what the next instruction of a cohort awaits needs another gang's issue or an outside agent
(R87): a barrier that owes gang arrivals, a REGANG partner, an EVWAIT, or a stack area that another gang is to give up
(R126). -/
def passes (s : State) (gi : Nat) (g : Gang) (grp : Group) (k : Kernel) (c : Ctx) (m : BitVec 8) : Bool :=
  (maskSlices m).any (fun j => (g.sl j).regang.isSome || spillStalls g j) ||
  (match fetchWord s grp.core c (g.sl (lowSlice m)).pc with
   | .error _ => false
   | .ok w =>
     match decodeLane w.toNat with
     | some (.evwait a b) => stallsOn s gi m (execEvwait a b) && !eventOwed s g grp c m a
     | some (.bwait a b) => stallsOn s gi m (execBwait a b) &&
       (((maskLanes m).filter (activeOn g)).take 1).any fun l =>
         let bar := barRead grp.window (rd g l a)
         decide (0 < barPend bar) && phaseTest (rd g l b % 16) (barPhase bar) == .wait
     | some (.nbwait a n) =>
       let b := nbOf grp n.toNat
       let tile := if k.pkt.tile ≠ 0 ∧ !b.byTile then 1 else 0
       stallsOn s gi m (execNbwait a n) && decide (tile < b.pend)
     | _ => false)

/-- The turn passed on: it counts as the turn of the cohort (R87, R123). -/
def passTurn (s : State) (kern gi : Nat) (m : BitVec 8) : State :=
  advanceTurn { s with exe := { s.exe with
    gangs := modAt s.exe.gangs gi fun g => { g with lastCoh := some (lowSlice m) } } } kern

/-- TURN_PASS: in fixed gear the turn moves to the next slot without an issue (R87), where the instruction
cannot issue. -/
def execTurnPass (k : Nat) (s : State) : Host.Outcome State Fault Refusal :=
  match s.ctl.kernels[k]? with
  | none => .next s
  | some kn =>
    match turnGang s k kn with
    | none => .next s
    | some (gi, g) =>
      match s.exe.groups[g.grp]?, kernCtx s kn, nextCohort g with
      | some grp, some c, some m =>
        if kn.fixed && (grp.state == .running || (grp.state == .parking && !grp.atStop))
            && passes s gi g grp kn c m then .next (passTurn s k gi m)
        else .next s
      | _, _, _ => .next s

end Sys2Proof.Machine
end

