-- ==== Sys2Proof/Machine/Kernels.lean ====
section
/-! DEFINITION. Kernels.lean: launch packets and the dispatcher (R97 to R99, R102, R103), pins (R314, R315,
R318), captures (R413), policies (R406, R407), the distributor (R109 to R111), fit points (R347, R348) and
the end of a kernel (R112 to R114), with the watchdog (R72). -/

namespace Sys2Proof.Machine

/-! ## Packets (R97) -/

/-- The fields of a packet's 128 bytes. -/
def parsePacket (bs : List Byte) : Packet :=
  let f := fun (o n : Nat) => leNat ((bs.drop o).take n)
  let d := fun (o : Nat) => BitVec.ofNat 64 (f o 8)
  { kind := f 0 1, prio := f 1 1, flags := f 2 2, stages := [f 4 1, f 5 1, f 6 1, f 7 1],
    code := d 8, tile := d 0x10, gx := f 0x18 4, gy := f 0x1C 2, gz := f 0x1E 2, regs := f 0x20 1,
    acc := f 0x21 1, lmem := f 0x24 4, args := d 0x28, wset := d 0x30, dep0 := d 0x38,
    dep0v := f 0x40 8, dep1 := d 0x48, dep1v := f 0x50 8, done := d 0x58, donev := f 0x60 8,
    regions := d 0x68, recdest := d 0x70, raw := bs }

/-- The kinds of packet. -/
def pkNop : Nat := 0
def pkLaunch : Nat := 1
def pkPin : Nat := 2
def pkUnpin : Nat := 3
def pkSignal : Nat := 4
def pkRecord : Nat := 5
def pkFitsync : Nat := 6
def pkPolicy : Nat := 7

/-- The groups of a grid (R102). -/
def gridTotal (p : Packet) : Nat := p.gx * p.gy * p.gz

/-- The largest window (R97). -/
def lmemMax : Nat := 3145728

/-- The fields that only a LAUNCH uses are in range (R97, R98, R102). -/
def launchOk (p : Packet) : Bool :=
  decide (p.flags < 16) && decide (1 ≤ gangCount p) && decide (gangCount p ≤ 32)
    && p.code.toNat % 4 == 0 && decide (1 ≤ p.gx) && decide (1 ≤ p.gy) && decide (1 ≤ p.gz)
    && decide (gridTotal p < 2 ^ 32) && decide (1 ≤ p.regs) && decide (p.regs ≤ 240)
    && decide (p.acc ≤ 4) && decide (p.lmem ≤ lmemMax) && (!p.flags.testBit 3 || p.recdest != 0)

/-- The reserved fields and the fields that every kind uses (R97, R98). -/
def commonOk (p : Packet) : Bool :=
  let f := fun (o n : Nat) => leNat ((p.raw.drop o).take n)
  decide (p.prio < 8) && f 0x22 2 == 0 && f 0x78 8 == 0 && p.dep0.toNat % 8 == 0
    && p.dep1.toNat % 8 == 0 && p.done.toNat % 8 == 0

/-- Bytes that an owner may read, where every one can be read with `need`. -/
def ownerBytes (s : State) (c : Ctx) (va n : Nat) : Option (List Byte) :=
  match readVa s 8 c va n needR with
  | .ok bs => if bs.length = n then some bs else none
  | .error _ => none

/-- The used entries of a region table in ascending id, as (id, descriptor, hash) (R342); none where the
table is misaligned or unreadable. -/
def regionTable (s : State) (c : Ctx) (va : Nat) : Option (List (Nat × Nat × Nat)) :=
  if va = 0 then some []
  else if va % 64 ≠ 0 then none
  else
    (ownerBytes s c va 1024).map fun bs => (List.range 64).filterMap fun i =>
      let d := leNat ((bs.drop (16 * i)).take 8)
      if d = 0 then none else some (i, d, leNat ((bs.drop (16 * i + 8)).take 8))

/-- Whether a range of an owner's addresses is device memory of this module (R314). -/
def inDevice (s : State) (c : Ctx) (va n : Nat) : Bool :=
  (vaPages va n).all fun p => match xlate s 8 c (p * 2 ^ 16) 0 with
    | .ok x => paLocal (ownDev s.sys) x.pa
    | .error _ => false

/-- The ranges of a working-set list (R314); none where it is refused. -/
def wsetRanges (s : State) (c : Ctx) (va : Nat) : Option (List (Nat × Nat)) :=
  if va = 0 then some []
  else
    match ownerBytes s c va 16 with
    | none => none
    | some h =>
      let n := leNat (h.take 4)
      if n = 0 ∨ 4096 < n ∨ leNat (h.drop 4) ≠ 0 ∨ inDevice s c va (16 + 16 * n) = false then none
      else
        match ownerBytes s c (va + 16) (16 * n) with
        | none => none
        | some bs =>
          let rs := (List.range n).map fun i =>
            (leNat ((bs.drop (16 * i)).take 8), leNat ((bs.drop (16 * i + 8)).take 8))
          if rs.all fun r => r.1 % 65536 == 0 && r.2 % 65536 == 0 && r.2 != 0 then some rs else none

/-- Whether an address is 0 or translates with a permission. -/
def addrOk (s : State) (c : Ctx) (va need : Nat) : Bool :=
  va == 0 || (match xlate s 8 c va need with
    | .ok _ => true
    | .error _ => false)

/-- The kinds that use a field (R97). -/
def usesRegions (p : Packet) : Bool := p.kind == pkLaunch || p.kind == pkFitsync
def usesWset (p : Packet) : Bool := p.kind == pkLaunch || p.kind == pkPin || p.kind == pkUnpin

/-- PACKET_CHECK of R98: the error code, 0 where the packet passes. -/
def packetCheck (s : State) (c : Ctx) (p : Packet) : Nat :=
  if 8 ≤ p.kind then 1
  else if !commonOk p || (p.kind == pkLaunch && !launchOk p)
      || (usesRegions p && (regionTable s c p.regions.toNat).isNone) then 2
  else if usesWset p && (wsetRanges s c p.wset.toNat).isNone then 3
  else if !addrOk s c p.dep0.toNat needR || !addrOk s c p.dep1.toNat needR
      || !addrOk s c p.done.toNat needW then 5
  else 0

/-! ## The dispatcher (R97 to R99) -/

/-- The priority of a packet in a queue (R97). -/
def packetPrio (q : Queue) (prio : Nat) : Nat := if prio % 8 < q.prio then prio % 8 else q.prio

/-- The packet at HEAD of a queue, where its slot can be read. -/
def headPacket (s : State) (q : Queue) (c : Ctx) : Option Packet :=
  (ownerBytes s c (qSlot q (qHead s q)) 128).map parsePacket

/-- The launch queues whose head packet may be taken. -/
def takeable (s : State) : List (Queue × Ctx) :=
  s.ctl.queues.filterMap fun q =>
    match qOwner s q with
    | none => none
    | some c =>
      if q.launch && (q.state == .active || q.state == .draining) && q.taken.isNone && eligible c
          && qHead s q != qTail s q then some (q, c) else none

/-- The next of them: highest priority, then earliest append (R99). A head packet whose slot cannot be read ranks with
PPRIO 0 (DESIGN CHOICE, log 126). -/
def choosePacket (s : State) : Option (Queue × Ctx) :=
  let key := fun (x : Queue × Ctx) =>
    let p := ((headPacket s x.1 x.2).map Packet.prio).getD 0
    (packetPrio x.1 p, x.1.stamps.headD 0)
  (sortWith (fun a b =>
    let i := key a
    let j := key b
    if i.1 ≠ j.1 then decide (j.1 < i.1) else decide (i.2 ≤ j.2)) (takeable s)).head?

/-- The hub die holds what it reads at addresses of a context: the grains are recorded for agent 10 (R322). -/
def hubReads (s : State) (c : Ctx) (vas : List Nat) : State :=
  vas.foldl (fun s va => match xlate s 8 c va needR with
    | .ok x => hubHold s x.leaf x.pa
    | .error _ => s) s

/-- The grains that a look at the head packet of a queue reads: its header and its slot. -/
def hubHead (s : State) (q : Queue) (c : Ctx) : State :=
  hubReads (hubHold s q.leaf q.pa) c [qSlot q (qHead s q)]

/-- The events a packet waits for. -/
def depVas (p : Packet) : List Nat := ([p.dep0, p.dep1].filter fun a => a != 0).map BitVec.toNat

/-- Whether a packet names a region that a kernel of its context holds (R347). -/
def namesHeld (s : State) (c : Ctx) (p : Packet) : Bool :=
  usesRegions p && (((regionTable s c p.regions.toNat).getD []).any fun r =>
    c.held.any fun h => h.1 == r.1)

/-- Both dependencies of a packet hold (R97). -/
def depsHold (s : State) (c : Ctx) (p : Packet) : Bool :=
  let ok := fun (a : Dbl) (v : Nat) => a == 0 || (match xlate s 8 c a.toNat needR with
    | .ok x => decide (v ≤ eventValue s x.pa)
    | .error _ => false)
  ok p.dep0 p.dep0v && ok p.dep1 p.dep1v

/-- The regions a packet names, latched at its launch in ascending id (R346, R347). -/
def latchRegions (s : State) (c : Ctx) (kern : Nat) (p : Packet) : State × List RLatch :=
  let rs := if usesRegions p then (regionTable s c p.regions.toNat).getD [] else []
  let r := rs.foldl (fun (acc : State × List RLatch) x =>
    match findCtx acc.1.ctl.ctxs c.part c.cid with
    | none => acc
    | some c =>
      let (t, m) := regionLaunch acc.1 c x.1 x.2.1 x.2.2
      (t, acc.2 ++ [⟨x.1, BitVec.ofNat 64 x.2.1, BitVec.ofNat 64 x.2.2, m, false⟩])) (s, [])
  ({ r.1 with ctl := { r.1.ctl with ctxs := modCtx r.1.ctl.ctxs c.part c.cid fun x =>
      { x with held := x.held ++ rs.map fun y => (y.1, kern) } } }, r.2)

/-- A packet taken from the head of its queue (R98, R99, R103): its record is WAITING. -/
def takePacket (s : State) (q : Queue) (c : Ctx) (p : Packet) : State :=
  let kern := s.ctl.kernels.length
  let launch := p.kind == pkLaunch
  let (s, rs) := latchRegions s c kern p
  let k : Kernel :=
    { id := kern, part := c.part, ctx := c.cid, queue := q.id, qidx := qHead s q, qpa := q.pa, qleaf := q.leaf,
      ord := if launch then c.kord else 0, pkt := p, state := .waiting, prio := packetPrio q p.prio,
      fixed := launch && (c.desc.fixedGear || p.flags.testBit 0),
      total := if launch then gridTotal p else 0, regions := rs }
  let s := { s with ctl := { s.ctl with
    kernels := s.ctl.kernels ++ [k]
    ctxs := modCtx s.ctl.ctxs c.part c.cid fun x =>
      if launch then { x with kord := (x.kord + 1) % 2 ^ 64 } else x } }
  let s := modQueue s q.id fun y => { y with taken := some kern }
  if depsHold s c p || q.state == .draining then s else setQState s q .stalled 0

/-- DISPATCHER_TAKE: the dispatcher checks the head packet it chooses and takes it. A malformed packet at the head of a
DRAINING queue puts it in ERROR too: R91 lists that event for ACTIVE, R98 for any queue (DESIGN CHOICE, log 125). -/
def execDispatcherTake (s : State) : Host.Outcome State Fault Refusal :=
  match choosePacket s with
  | none => .next s
  | some (q, c) =>
    match headPacket s q c with
    | none => .next (setQState s q .error 5)
    | some p =>
      let e := packetCheck s c p
      let s := hubReads (hubHead s q c) c (depVas p)
      if e ≠ 0 then .next (setQState s q .error e)
      else if namesHeld s c p then
        .next (if q.state = .draining then s else setQState s q .stalled 0)
      else .next (takePacket s q c p)

/-- The kernel that a queue's taken packet made. -/
def takenKern (s : State) (q : Queue) : Option Kernel := q.taken.bind fun k => s.ctl.kernels[k]?

/-- DEPENDENCY_POLL: a taken packet's dependencies, or the hold on a region that a head packet names, are
looked at again (R91, R99, R347). -/
def execDependencyPoll (queue : Nat) (s : State) : Host.Outcome State Fault Refusal :=
  match queueById s.ctl.queues queue with
  | none => .next s
  | some q =>
    match qOwner s q with
    | none => .next s
    | some c =>
      let s := match takenKern s q with
        | some k => hubReads s c (depVas k.pkt)
        | none => hubHead s q c
      let ready := match takenKern s q with
        | some k => k.state != .waiting || depsHold s c k.pkt
        | none => (match headPacket s q c with
          | some p => !namesHeld s c p
          | none => true)
      if q.state = .stalled && ready then .next (setQState s q .active 0)
      else if q.state = .active && !ready && q.taken.isSome then .next (setQState s q .stalled 0)
      else .next s

/-! ## Pins (R314, R315, R318) -/

/-- The page that a 64 KiB step of a range stands in, as (page number, shift), where it may be pinned. -/
def pinPage (s : State) (c : Ctx) (p : Partition) (va : Nat) : Option (Nat × Nat) :=
  match leafOf s 8 c.part c.cid c.desc.ptRoot p.dies va with
  | .error _ => none
  | .ok (leaf, sh) =>
    if leafPinned leaf && permOk (ownDev s.sys) p 0 leaf (leafAddr leaf sh va) then
      some (va / 2 ^ sh, sh) else none

/-- The pages of a range, each once, in ascending order; none where one cannot be pinned. -/
def rangePages (s : State) (c : Ctx) (p : Partition) (r : Nat × Nat) : Option (List (Nat × Nat)) :=
  (vaPages r.1 r.2).foldl (fun acc pg =>
    match acc, pinPage s c p (pg * 2 ^ 16) with
    | some ps, some x => some (if ps.contains x then ps else ps ++ [x])
    | _, _ => none) (some [])

/-- The pin count of a page. -/
def pinCount (c : Ctx) (x : Nat × Nat) : Nat :=
  ((c.pinned.find? fun y => y.1 == x.1 && y.2.1 == x.2).map fun y => y.2.2).getD 0

/-- The context with a page's pin count set. -/
def setPin (c : Ctx) (x : Nat × Nat) (n : Nat) : Ctx :=
  let rest := c.pinned.filter fun y => !(y.1 == x.1 && y.2.1 == x.2)
  { c with pinned := if n = 0 then rest else (x.1, x.2, n) :: rest }

/-- The context with one page pinned once more; none past 65,535. -/
def pinOne (c : Ctx) (x : Nat × Nat) : Option Ctx :=
  if 65535 ≤ pinCount c x then none else some (setPin c x (pinCount c x + 1))

/-- The context with one pin of a page released. -/
def unpinOne (c : Ctx) (x : Nat × Nat) : Ctx := setPin c x (pinCount c x - 1)

/-- Ranges pinned (R315): the context and the pages; none where the action fails. -/
def pinRanges (s : State) (c : Ctx) (p : Partition) (rs : List (Nat × Nat)) :
    Option (Ctx × List (Nat × Nat)) :=
  rs.foldl (fun acc r =>
    match acc, rangePages s c p r with
    | some (c, got), some ps =>
      ps.foldl (fun acc x =>
        match acc with
        | some (c, got) => (pinOne c x).map fun c => (c, got ++ [x])
        | none => none) (some (c, got))
    | _, _ => none) (some (c, []))

/-- The state with a context replaced. -/
def setCtx (s : State) (c : Ctx) : State :=
  { s with ctl := { s.ctl with ctxs := modCtx s.ctl.ctxs c.part c.cid fun _ => c } }

/-- A leaf taken by PIN or LAUNCH for a page, in the L2 TLB of a die, where it is held; not where its slice holds as
many as it may (R317). -/
def holdLeaf (tlb : List TlbEntry) (e : TlbEntry) : List TlbEntry :=
  if (tlb.filter fun t => t.place == e.place && t.held).length < heldLimit then tlbPut tlb l2TlbSize e else tlb

/-- The translations of pinned pages as the walks of the pinning found them, loaded into the TLBs of the partition's
dies in place of any other (R317, R320). -/
def loadPinned (s : State) (c : Ctx) (p : Partition) (ps : List (Nat × Nat)) : State :=
  { s with mem := { s.mem with tlb := ps.foldl (fun tlb x =>
      let va := x.1 * 2 ^ x.2
      match leafOf s 8 c.part c.cid c.desc.ptRoot p.dies va with
      | .error _ => tlb
      | .ok (leaf, _) =>
        let old := fun (t : TlbEntry) => t.part == c.part && t.ctx == c.cid && t.page == x.1 && t.size == x.2
        p.dies.foldl (fun tlb d =>
          holdLeaf tlb ⟨l2Tlb d c.cid va, c.part, c.cid, x.1, x.2, BitVec.ofNat 64 leaf, true⟩)
          (tlb.filter fun t => !old t)) s.mem.tlb } }

/-- Whether a page meets a range. -/
def pageMeets (r : Nat × Nat) (pg sh : Nat) : Bool :=
  decide (r.1 < (pg + 1) * 2 ^ sh) && decide (pg * 2 ^ sh < r.1 + r.2)

/-- The ranges of an UNPIN: counts fall by 1, never below 0, and the context's translations of every page
leave every TLB and upper-level cache (R315, R318). -/
def unpinRanges (s : State) (c : Ctx) (rs : List (Nat × Nat)) : State :=
  let c' := rs.foldl (fun (c : Ctx) r =>
    (c.pinned.filter fun y => pageMeets r y.1 y.2.1).foldl (fun c y => unpinOne c (y.1, y.2.1)) c) c
  let s := setCtx s c'
  let mine := fun (part cid : Nat) => part == c.part && cid == c.cid
  { s with mem := { s.mem with
      tlb := s.mem.tlb.filter fun t => !(mine t.part t.ctx && rs.any fun r => pageMeets r t.page t.size)
      upper := s.mem.upper.filter fun u => !(mine u.part u.ctx && rs.any fun r =>
        pageMeets r (u.va / 2 ^ entryShift u.lvl) (entryShift u.lvl)) } }

/-! ## Completion (R97, R113) -/

/-- The state with a kernel's record changed. -/
def modKern (s : State) (kern : Nat) (f : Kernel → Kernel) : State :=
  { s with ctl := { s.ctl with kernels := modAt s.ctl.kernels kern f } }

/-- The status word (R113). -/
def statusWord (k : Kernel) (status fault : Nat) : Nat :=
  status + 2 ^ 8 * fault + 2 ^ 16 * (k.ord % 2 ^ 48)

/-- The writer of a packet's status word, whose add waits for it (R113). -/
def doneWriter (kern : Nat) : Writer := .engine (2 * kern + 1)

/-- DONE_VAL added to DONE_ADDR as EVADD does, where the address still has its translation and permission (R97). -/
def doneAdd (s : State) (c : Ctx) (k : Kernel) : State :=
  match xlate s 8 c k.pkt.done.toNat needW with
  | .error _ => s
  | .ok x => homeAdd s .nobody k.part x.leaf x.pa k.pkt.donev

/-- The status word written after DONE_ADDR (R113). -/
def doneWord (s : State) (c : Ctx) (kern : Nat) (k : Kernel) (word : Nat) : State :=
  match xlate s 8 c k.pkt.done.toNat needW, xlate s 8 c (k.pkt.done.toNat + 8) needW with
  | .ok _, .ok y => deviceWrite s (doneWriter kern) k.part y.leaf y.pa (natLe word 8)
  | _, _ => s

/-- The completion of a packet: a status word where there is one, and then the add, which follows when the word has been
acknowledged: the two are one release at SYSTEM scope (R97, R113). -/
def complete (s : State) (c : Ctx) (kern : Nat) (k : Kernel) (word : Option Nat) : State :=
  if k.pkt.done = 0 then s
  else
    match word with
    | none => doneAdd s c k
    | some w =>
      let t := doneWord s c kern k w
      if writerWaits t.mem (doneWriter kern) then modKern t kern fun x => { x with due := .add } else doneAdd t c k

/-- HEAD of the queue a packet was taken from advances past it, when its action has begun (R99): in the header's memory,
where it still stands at the packet, whatever has become of the queue. -/
def advanceHead (s : State) (kern : Nat) : State :=
  match s.ctl.kernels[kern]? with
  | none => s
  | some k =>
    if k.advanced then s
    else
      let s := modKern s kern fun x => { x with advanced := true }
      if paNat s k.qpa 8 ≠ k.qidx then s
      else
        let s := deviceWrite s .nobody k.part k.qleaf k.qpa (natLe (k.qidx + 1) 8)
        match s.ctl.queues.find? fun q => q.pa == k.qpa && q.taken == some kern with
        | none => s
        | some q =>
          let s := modQueue s q.id fun y => { y with taken := none, stamps := y.stamps.drop 1 }
          settleQueues (if q.state = .stalled then setQState s q .active 0 else s)

/-- The regions a kernel holds released (R347). -/
def releaseHeld (s : State) (c : Ctx) (kern : Nat) : State :=
  { s with ctl := { s.ctl with ctxs := modCtx s.ctl.ctxs c.part c.cid fun x =>
      { x with held := x.held.filter fun h => h.2 != kern } } }

/-- The pins a kernel took released. -/
def releaseKernPins (s : State) (k : Kernel) : State :=
  let cs := modCtx s.ctl.ctxs k.part k.ctx fun c => k.pins.foldl unpinOne c
  { s with ctl := { s.ctl with ctxs := cs } }

/-- A kernel ends in a state with a status: its pins, its regions and the room spoken for are released (R112,
R347). -/
def closeKernel (s : State) (kern : Nat) (k : Kernel) (st : KState) (status fault : Nat) : State :=
  let s := modKern (releaseKernPins s k) kern fun x =>
    { x with state := st, status := status, faultCode := fault, pins := [], plan := [] }
  match kernCtx s k with
  | none => s
  | some c => releaseHeld s c kern

/-- The completion of a kernel that has ended. A PIN or an UNPIN writes the word with KORD 0; packets of the kinds
without WSET write none (R113, R315). -/
def completeKernel (s : State) (kern : Nat) : State :=
  match s.ctl.kernels[kern]? with
  | none => s
  | some k =>
    let s := modKern s kern fun x => { x with due := .none }
    match kernCtx s k with
    | none => s
    | some c => complete s c kern k (if usesWset k.pkt then some (statusWord k k.status k.faultCode) else none)

/-- A kernel ends and its completion is made (R112, R113). -/
def endKernel (s : State) (kern : Nat) (st : KState) (status fault : Nat) : State :=
  match s.ctl.kernels[kern]? with
  | none => s
  | some k =>
    if !kernLive k then s
    else settleQueues (completeKernel (closeKernel (advanceHead s kern) kern k st status fault) kern)

/-- A kernel ends for a fatal halt, HEAD where it stands; `due` is what is made of its completion at HALTED (R112,
R113). -/
def stopKernel (s : State) (kern : Nat) (st : KState) (status fault : Nat) (due : Completion) : State :=
  match s.ctl.kernels[kern]? with
  | none => s
  | some k => closeKernel (modKern s kern fun x => { x with advanced := true, due := due }) kern k st status fault

/-- The statuses of R113. -/
def stOk : Nat := 0
def stLinkLoss : Nat := 1
def stNoRoom : Nat := 2
def stNoFit : Nat := 3
def stPinFault : Nat := 4
def stHalted : Nat := 5
def stGearSize : Nat := 6

/-- A kernel that FAILS with a status. -/
def failKernel (s : State) (kern status : Nat) : State := endKernel s kern .failed status 0

/-! ## The actions of packets (R97) -/

/-- A context in which a taken packet goes on (R92): not one that halts for good (R73). -/
def packetsGo (c : Ctx) : Bool := !fatalHalt c && ctxUp c

/-- A packet's event: the action `f` of a WAITING packet of kind `kind` whose dependencies hold. -/
def packetAct (kind k : Nat) (s : State) (f : Kernel → Ctx → State) : Host.Outcome State Fault Refusal :=
  match s.ctl.kernels[k]? with
  | none => .next s
  | some kn =>
    match kernCtx s kn with
    | none => .next s
    | some c =>
      if kn.pkt.kind == kind && kn.state == .waiting && packetsGo c && depsHold s c kn.pkt then
        .next (f kn c)
      else .next s

/-- NOP_PACKET: no action. -/
def execNopPacket (k : Nat) (s : State) : Host.Outcome State Fault Refusal :=
  packetAct pkNop k s fun _ _ => endKernel s k .retired stOk 0

/-- SIGNAL_PACKET: no action; its completion add is its purpose. -/
def execSignalPacket (k : Nat) (s : State) : Host.Outcome State Fault Refusal :=
  packetAct pkSignal k s fun _ _ => endKernel s k .retired stOk 0

/-- PIN_PACKET (R315): the status word has KORD 0 and STATUS 0 or 4. -/
def execPinPacket (k : Nat) (s : State) : Host.Outcome State Fault Refusal :=
  packetAct pkPin k s fun kn c =>
    let r := match findPart s.ctl.parts c.part with
      | some p => (pinRanges s c p ((wsetRanges s c kn.pkt.wset.toNat).getD [])).map fun x => (p, x)
      | none => none
    let t := match r with
      | some (p, c', ps) => loadPinned (setCtx s c') c' p ps
      | none => s
    endKernel t k .retired (if r.isSome then stOk else stPinFault) 0

/-- UNPIN_PACKET (R315, R318): the shootdown comes before the completion add. -/
def execUnpinPacket (k : Nat) (s : State) : Host.Outcome State Fault Refusal :=
  packetAct pkUnpin k s fun kn c =>
    endKernel (unpinRanges s c ((wsetRanges s c kn.pkt.wset.toNat).getD [])) k .retired stOk 0

/-- A range is readable and pinned (R413). -/
def capturable (s : State) (c : Ctx) (r : Nat × Nat) : Bool :=
  (vaPages r.1 r.2).all fun p => match xlate s 8 c (p * 2 ^ 16) needR with
    | .ok x => leafPinned x.leaf
    | .error _ => false

/-- The captured ranges' bytes, up to the first that cannot be captured, and whether all could (R413). -/
def captureRanges (s : State) (c : Ctx) : List (Nat × Nat) → List Byte × Bool
  | [] => ([], true)
  | r :: rs =>
    match capturable s c r, ownerBytes s c r.1 r.2 with
    | true, some bs =>
      let (t, ok) := captureRanges s c rs
      (natLe r.1 8 ++ natLe r.2 8 ++ bs ++ t, ok)
    | _, _ => ([], false)

/-- A capture of a packet's 128 bytes (R413); `ord` is the kernel ordinal it names. -/
def captureBytes (s : State) (c : Ctx) (raw : List Byte) (ord : Nat) : List Byte :=
  let rs := wsetRanges s c (parsePacket raw).wset.toNat
  let (body, ok) := captureRanges s c (rs.getD [])
  let total := if ok && rs.isSome then 0xC0 + body.length else 0
  natLe 1 4 ++ natLe (rs.getD []).length 4 ++ natLe total 8 ++ natLe c.desc.seed.toNat 8 ++ natLe ord 8
    ++ natLe 0 32 ++ raw ++ body

/-- Bytes written to host memory at a host bus address (R331). -/
def hostPut (s : State) (addr : Nat) (bs : List Byte) : State :=
  { s with mem := { s.mem with host := smPut s.mem.host (addr % 2 ^ 42) bs } }

/-- RECORD_PACKET (R413): the packet at ARGS and its ranges captured to CODE. -/
def execRecordPacket (k : Nat) (s : State) : Host.Outcome State Fault Refusal :=
  packetAct pkRecord k s fun kn c =>
    let raw := ownerBytes s c kn.pkt.args.toNat 128
    let img := match raw with
      | some bs => captureBytes s c bs (2 ^ 64 - 1)
      | none => natLe 1 4 ++ natLe 0 12 ++ natLe c.desc.seed.toNat 8 ++ natLe (2 ^ 64 - 1) 8 ++ natLe 0 160
    endKernel (hostPut s kn.pkt.code.toNat img) k .retired stOk 0

/-- The fields of a policy blob, for a list of bytes that hold it (R406). -/
def policyFields (bs : List Byte) : Option Policy :=
  let f := fun (o n : Nat) => leNat ((bs.drop o).take n)
  let n := f 0x10 2
  let es := (List.range n).map fun i => f (0x20 + 4 * i) 4
  if f 0 2 = 1 ∧ f 3 1 = 0 ∧ f 4 4 < 16 ∧ n ≤ 512 ∧ (n = 0 ∨ (f 4 4).testBit 3) ∧ f 0x13 13 = 0
      ∧ es.all (fun e => decide (e < 2 ^ 13)) then
    some { facil := f 4 4, counter := f 8 8,
           doms := es.map fun e => (bits e 8 0, bits e 11 9, e.testBit 12), blob := bs }
  else none

/-- The blob of a policy with RESULT read as zero, without its signature. -/
def policySigned (bs : List Byte) : List Byte := bs.take 0x12 ++ [0] ++ bs.drop 0x13

/-- The bytes of the blob at `va`: its head tells how many. -/
def policyBlob (s : State) (c : Ctx) (va : Nat) : Option (List Byte) :=
  match ownerBytes s c va 0x20 with
  | none => none
  | some h =>
    let n := leNat ((h.drop 0x10).take 2)
    if 512 < n then some h else ownerBytes s c va (0x20 + 4 * n + 96)

/-- RESULT of R407 and the policy; the causes in the order format, partition, key, signature, counter
(log 31). -/
def judgePolicy (s : State) (c : Ctx) (p : Partition) (va : Nat) : Nat × Option Policy :=
  match policyBlob s c va with
  | none => (1, none)
  | some bs =>
    match policyFields bs with
    | none => (1, none)
    | some y =>
      if leNat ((bs.drop 2).take 1) ≠ p.id then (5, none)
      else
        match p.polKey with
        | none => (4, none)
        | some key =>
          if !Config.policySignatureOk key (policySigned bs) then (2, none)
          else if y.counter ≤ p.lastCounter then (3, none)
          else (0, some y)

/-- A facility that closes zeroes its registers: PERF of the partition's contexts and DBG_CTL of its gangs
(R409). -/
def closeFacilities (s : State) (part facil : Nat) : State :=
  let s := if facil.testBit facProfile then s
    else { s with ctl := { s.ctl with ctxs := modIf s.ctl.ctxs (fun c => c.part == part) fun c =>
      { c with perf := [] } } }
  if facil.testBit facDebug then s
  else { s with exe := { s.exe with gangs := s.exe.gangs.map fun g =>
    match (s.exe.groups[g.grp]?).bind (kernOf s) with
    | some k => if k.part = part then { g with dbgCtl := 0 } else g
    | none => g } }

/-- POLICY_PACKET (R407): RESULT is written before the completion add. -/
def execPolicyPacket (k : Nat) (s : State) : Host.Outcome State Fault Refusal :=
  packetAct pkPolicy k s fun kn c =>
    match findPart s.ctl.parts c.part with
    | none => s
    | some p =>
      let va := kn.pkt.args.toNat
      let (r, y) := judgePolicy s c p va
      let s := vaBytes s c (va + 0x12) (natLe r 1)
      let s := match y with
        | none => s
        | some y =>
          let ps := modIf s.ctl.parts (fun x => x.id == p.id) fun x =>
            { x with policy := some y, lastCounter := y.counter }
          let t := { s with ctl := { s.ctl with parts := ps } }
          closeFacilities t p.id y.facil
      endKernel s k .retired stOk 0

/-! ## Fit points (R347, R348) -/

/-- Whether a region of a kernel is in training: its STATE reads TRAIN at a fit point. -/
def inTraining (s : State) (c : Ctx) (r : RLatch) : Bool :=
  r.treated && rgReach s c r.desc.toNat && rgState (rgRead s c r.desc.toNat) == stTrain && !s.sys.kickstand

/-- The state with one region of a kernel marked treated. -/
def treat (s : State) (kern id : Nat) : State :=
  modKern s kern fun k => { k with regions := modIf k.regions (fun r => r.id == id) fun r =>
    { r with treated := true } }

/-- A fit point goes on through a kernel's regions in ascending id, and waits at one in training: the state
and whether it has finished. -/
def fitProgress (c : Ctx) (kern : Nat) : List RLatch → State → State × Bool
  | [], s => (s, true)
  | r :: rs, s =>
    if inTraining s c r then (s, false)
    else if r.treated then fitProgress c kern rs s
    else
      let c' := (findCtx s.ctl.ctxs c.part c.cid).getD c
      let (t, training) := fitRegion (forgetEager s c' r.id) c' r.id r.desc.toNat
      let t := treat t kern r.id
      if training then (t, false) else fitProgress c kern rs t

/-- The fit point of a kernel or a FITSYNC; when every region has finished, the packet ends. -/
def fitPoint (s : State) (kern : Nat) : State :=
  match s.ctl.kernels[kern]? with
  | none => s
  | some k =>
    match kernCtx s k with
    | none => s
    | some c =>
      let (t, done) := fitProgress c kern k.regions (modKern s kern fun x => { x with state := .fitting })
      if done then endKernel t kern .retired (if k.linkLoss then stLinkLoss else stOk) 0 else t

/-- FITSYNC_PACKET (R97, R348). -/
def execFitsyncPacket (k : Nat) (s : State) : Host.Outcome State Fault Refusal :=
  packetAct pkFitsync k s fun _ _ => fitPoint (advanceHead s k) k

/-- FIT_TRAINING_DONE: the training of a region at a fit point has finished (R352). -/
def execFitTrainingDone (part ctx region : Nat) (s : State) : Host.Outcome State Fault Refusal :=
  match findCtx s.ctl.ctxs part ctx with
  | none => .next s
  | some c =>
    if !packetsGo c then .next s
    else
      match s.ctl.kernels.zipIdx.find? fun x => x.1.part == part && x.1.ctx == ctx &&
          x.1.state == .fitting && x.1.regions.any fun r => r.id == region && inTraining s c r with
      | none => .next s
      | some (k, i) =>
        match k.regions.find? fun r => r.id == region with
        | none => .next s
        | some r => .next (fitPoint (trainRegion s c r.desc.toNat) i)

/-! ## LAUNCH (R109 to R112) -/

/-- LAUNCH_PACKET: pins WSET, writes its capture where PFLAGS.RECORD is set, and reaches DISPATCHING; or
FAILS with PIN_FAULT (R112, R315, R413). -/
def execLaunchPacket (k : Nat) (s : State) : Host.Outcome State Fault Refusal :=
  packetAct pkLaunch k s fun kn c =>
    let s := modKern s k fun x => { x with state := .pinning }
    match findPart s.ctl.parts c.part with
    | none => s
    | some p =>
      match pinRanges s c p ((wsetRanges s c kn.pkt.wset.toNat).getD []) with
      | none => failKernel s k stPinFault
      | some (c', ps) =>
        let s := loadPinned (setCtx s c') c' p ps
        let s := if kn.pkt.flags.testBit 3 then
          hostPut s kn.pkt.recdest.toNat (captureBytes s c' kn.pkt.raw kn.ord) else s
        modKern s k fun x => { x with state := .dispatching, pins := ps }

/-- The grids a partition's distributor holds (R109). -/
def heldGrids (s : State) (part : Nat) : Nat :=
  (s.ctl.kernels.filter fun k => k.part == part && k.acceptNo.isSome &&
    (k.state == .dispatching || k.state == .running)).length

/-- The tests before any group is placed (R108, R111): the failing status. -/
def placeTest (k : Kernel) : Option Nat :=
  if !fits k.pkt then some stNoFit
  else if k.fixed ∧ 32 < k.total * gangCount k.pkt then some stGearSize
  else if k.fixed ∧ !roomFor [] k.pkt k.total then some stNoFit
  else none

/-- GRID_ACCEPT: the distributor takes a grid when it has a place; HEAD advances (R99, R109). -/
def execGridAccept (k : Nat) (s : State) : Host.Outcome State Fault Refusal :=
  match s.ctl.kernels[k]? with
  | none => .next s
  | some kn =>
    let goes := match kernCtx s kn with
      | some c => packetsGo c
      | none => false
    if goes && kn.state == .dispatching && kn.acceptNo.isNone && decide (heldGrids s kn.part < 64) then
      let s := { s with ctl := { s.ctl with acceptNo := s.ctl.acceptNo + 1 } }
      let s := advanceHead (modKern s k fun x => { x with acceptNo := some s.ctl.acceptNo }) k
      match placeTest kn with
      | some st => .next (failKernel s k st)
      | none => .next s
    else .next s

/-! ## Placement (R109 to R111) -/

/-- The linear id of the next group of a grid to place: a re-queued one first, in ascending id. -/
def nextGroup (s : State) (kern : Nat) (k : Kernel) : Option Nat :=
  match (s.exe.groups.filter fun g => g.kern == kern && g.state == .pending).map Group.lid with
  | [] => if k.nextLid < k.total then some k.nextLid else none
  | l :: ls => some (ls.foldl (fun a b => if b < a then b else a) l)

/-- New groups of a context may be placed (R70, R92). -/
def placeable (c : Ctx) : Bool := eligible c

/-- The grids with a group to place, highest priority first, then oldest accepted (R109). -/
def waitingGrids (s : State) (part : Nat) : List Nat :=
  let ks := s.ctl.kernels.zipIdx.filter fun x =>
    x.1.part == part && x.1.acceptNo.isSome && (x.1.state == .dispatching || x.1.state == .running)
      && (nextGroup s x.2 x.1).isSome && (match kernCtx s x.1 with
        | some c => placeable c
        | none => false)
  (sortWith (fun (a b : Kernel × Nat) =>
    if a.1.prio ≠ b.1.prio then decide (b.1.prio < a.1.prio)
    else decide (a.1.acceptNo.getD 0 ≤ b.1.acceptNo.getD 0)) ks).map Prod.snd

/-- A parked group of at least this priority could be restored: it goes ahead of new groups (R84). -/
def restoreAhead (s : State) (part prio : Nat) : Bool :=
  s.exe.groups.any fun g =>
    match kernOf s g with
    | none => false
    | some k => k.part == part && decide (prio ≤ k.prio) && (match kernCtx s k with
      | some c => restorable c g
      | none => false) && (match findCore s (allowedCores s k) k.pkt 1 k.prio with
        | .nowhere => false
        | _ => true)

/-- A waiting new group of higher priority than `prio` could be placed, or room is being made for it: it goes ahead of
restores (R84, R109). -/
def newAhead (s : State) (part prio : Nat) : Bool :=
  (waitingGrids s part).any fun i => match s.ctl.kernels[i]? with
    | none => false
    | some k => decide (prio < k.prio) && (!k.plan.isEmpty ||
      (match findCore s (allowedCores s k) k.pkt (if k.fixed && k.core.isNone then k.total else 1) k.prio with
        | .nowhere => false
        | _ => true))

/-- GROUP_RESTORE: the distributor restores a parked group where a core has room, or makes room by R82. -/
def execGroupRestore (group : Nat) (s : State) : Host.Outcome State Fault Refusal :=
  match s.exe.groups[group]? with
  | none => .next s
  | some grp =>
    match kernOf s grp with
    | none => .next s
    | some k =>
      match kernCtx s k with
      | none => .next s
      | some c =>
        if !restorable c grp || newAhead s k.part k.prio then .next s
        else
          match findCore s (allowedCores s k) k.pkt 1 k.prio with
          | .at_ core t => .next (settleQueues (restoreOn t group grp k c core))
          | .leaving t => .next t
          | .nowhere => .next s

/-- Every group of a kernel placed on one core, in ascending id, with its rotation (R86, R111). -/
def placeAllOn (s : State) (kern core total : Nat) : State :=
  assignRots ((List.range total).foldl (fun s lid => placeOne s kern lid core)
    (modKern s kern fun k => { k with core := some core })) kern

/-- The most groups that a partition's cores can hold at once. -/
def mostGroups : Nat := 6144

/-- A cooperative placement against free room alone (R110). -/
def coopFree (cores : List Nat) (kern total : Nat) (k : Kernel) (s : State) : Option State :=
  (List.range total).foldl (fun acc lid =>
    match acc with
    | none => none
    | some s => (cores.find? fun c => coreRoom s c resident k.pkt 1).map fun c => placeOne s kern lid c)
    (some s)

/-- A cooperative placement with the room that victims make: the cores of the groups, in ascending id, and the state
with only the victims evicted (R110). -/
def coopEvict (cores : List Nat) (kern total : Nat) (k : Kernel) (s : State) : Option (List Nat × State) :=
  let r := (List.range total).foldl (fun (acc : Option (State × List Nat × State)) lid =>
    match acc with
    | none => none
    | some (plan, cs, real) =>
      match cores.find? fun c => coreRoom plan c staying k.pkt 1 with
      | some c => some (placeOne plan kern lid c, cs ++ [c], real)
      | none =>
        (cores.findSome? fun c => (evictUntil c k.pkt 1 (victims plan c k.prio) plan).map fun t =>
            (c, t)).map fun x =>
          let gone := (x.2.exe.groups.zipIdx.filter fun y =>
            (plan.exe.groups[y.2]?).any fun o => o.state == .running && y.1.state != .running).map Prod.snd
          (placeOne x.2 kern lid x.1, cs ++ [x.1], gone.foldl (fun s v => (evictOne s v).getD s) real))
    (some (s, [], s))
  r.map Prod.snd

/-- The groups of a cooperative kernel placed on the cores of its plan, where all of them have room (R110). -/
def placePlan (s : State) (kern : Nat) (k : Kernel) : Option State :=
  k.plan.zipIdx.foldl (fun acc x =>
    match acc with
    | none => none
    | some s => if coreRoom s x.1 resident k.pkt 1 then some (placeOne s kern x.2 x.1) else none)
    (some (modKern s kern fun x => { x with plan := [] }))

/-- A cooperative kernel placed whole, or its victims told to leave and their room kept for it, or FAILED with
NO_ROOM (R110). A plan that names a core the partition has lost is made anew. -/
def placeCoop (s : State) (kern : Nat) (k : Kernel) (cores : List Nat) : State :=
  if mostGroups < k.total then failKernel s kern stNoRoom
  else if !k.plan.isEmpty then
    if k.plan.all cores.contains then (placePlan s kern k).getD s
    else modKern s kern fun x => { x with plan := [] }
  else
    match coopFree cores kern k.total k s with
    | some t => t
    | none =>
      match coopEvict cores kern k.total k s with
      | some (cs, t) => (placePlan t kern { k with plan := cs }).getD (modKern t kern fun x => { x with plan := cs })
      | none => failKernel s kern stNoRoom

/-- The next group of a grid placed, where that can be done or begun (R109 to R111). -/
def placeGrid (s : State) (part kern : Nat) : Option State :=
  match s.ctl.kernels[kern]? with
  | none => none
  | some k =>
    match nextGroup s kern k with
    | none => none
    | some lid =>
      if restoreAhead s part k.prio then none
      else if k.fixed && k.core.isNone then
        match findCore s (allowedCores s k) k.pkt k.total k.prio with
        | .at_ c t => some (placeAllOn t kern c k.total)
        | .leaving t => if t = s then none else some t
        | .nowhere => if isCoop k then some (failKernel s kern stNoRoom) else none
      else if isCoop k && !k.started then
        let t := placeCoop s kern k (allowedCores s k)
        if t = s then none else some t
      else
        match findCore s (allowedCores s k) k.pkt 1 k.prio with
        | .at_ c t => some (placeOne t kern lid c)
        | .leaving t => if t = s then none else some t
        | .nowhere => none

/-- GROUP_PLACE: the distributor of a partition places the next group of the first grid, in its order, that
has room (R109). -/
def execGroupPlace (part : Nat) (s : State) : Host.Outcome State Fault Refusal :=
  match (waitingGrids s part).findSome? (placeGrid s part) with
  | some t => .next (settleQueues t)
  | none => .next s

/-! ## Retirement (R114) and the watchdog (R72) -/

/-- Whether what a kernel sent has reached its homes (R114). -/
def kernSettled (s : State) (kern : Nat) : Bool :=
  !(s.mem.ops.any fun o => o.kern == kern)
    && !(s.exe.copies.any fun c => c.kern == kern)
    && !(s.ctl.partials.any fun p => (p.kern == kern || p.kerns.contains kern) && (match p.loc with
      | .heldHome _ => false
      | _ => true))
    && !(s.ctl.samples.any fun x => x.kern == kern)

/-- KERNEL_RETIRE: a DRAINING kernel meets R114; its fit points run and it retires. Where its completion add was left
to follow the status word, it follows when the word has been acknowledged (R113). -/
def execKernelRetire (k : Nat) (s : State) : Host.Outcome State Fault Refusal :=
  match s.ctl.kernels[k]? with
  | none => .next s
  | some kn =>
    match kernCtx s kn with
    | none => .next s
    | some c =>
      if kn.due = .add ∧ writerWaits s.mem (doneWriter k) = false then
        .next (settleQueues (doneAdd (modKern s k fun x => { x with due := .none }) c kn))
      else if kn.state == .draining && kernSettled s k && packetsGo c then .next (fitPoint s k) else .next s

/-- The record of the dispatcher (R72, R75, R76). -/
def dispatcherRec (s : State) (part cid : Nat) (code : FaultCode) (info ord : Nat) : FaultRec :=
  { part := part, ctx := cid, code := some code, kind := 8, die := 8, unit := 0, exact := false,
    info := BitVec.ofNat 64 info, kord := ord, cycle := s.sys.cycle, ptp := s.sys.ptp }

/-- WATCHDOG: a kernel has run longer than its context's WDOG_MS (R72). -/
def execWatchdog (k : Nat) (s : State) : Host.Outcome State Fault Refusal :=
  match s.ctl.kernels[k]? with
  | none => .next s
  | some kn =>
    match kernCtx s kn with
    | none => .next s
    | some c =>
      if c.desc.wdogMs != 0 && (kn.state == .running || kn.state == .draining)
          && (c.state == .runnable || c.state == .running)
          && decide (c.desc.wdogMs * 1000000 < kn.countNs)
          && !(s.ctl.faults.any fun f => f.part == kn.part && f.ctx == kn.ctx
            && f.code == some .watchdog) then
        .next (addFault s (dispatcherRec s kn.part kn.ctx .watchdog kn.ord kn.ord))
      else .next s

end Sys2Proof.Machine
end

