-- ==== Sys2Proof/Machine/Context.lean ====
section
/-! DEFINITION. Context.lean: the context control window (R68 to R70, R75, R88), the halt line and the stop
area (R73, R74, R76). -/

namespace Sys2Proof.Machine

/-! ## The stop area (R71, R76) -/

/-- The codes of R71; 0 for an engine that stopped without faulting. -/
def faultNum : Option FaultCode → Nat
  | none => 0
  | some .illegalOp => 0x01
  | some .xlateFault => 0x02
  | some .permFault => 0x03
  | some .cellCross => 0x04
  | some .lmRange => 0x05
  | some .stackOverflow => 0x06
  | some .dupMismatch => 0x07
  | some .spillOverflow => 0x08
  | some .dataLoss => 0x09
  | some .homeLost => 0x0A
  | some .linkLoss => 0x0B
  | some .regionFault => 0x0C
  | some .carryOverflow => 0x0D
  | some .barrierMisuse => 0x0E
  | some .watchdog => 0x0F
  | some .haltRequest => 0x10
  | some .debugStop => 0x11

/-- A bit of a flags byte. -/
def flagBit (b : Bool) (i : Nat) : Nat := if b then 2 ^ i else 0

/-- The 256 bytes of a stop record (R76). -/
def recBytes (r : FaultRec) : List Byte :=
  let head := natLe (faultNum r.code) 1 ++ natLe r.kind 1 ++ natLe r.die 1 ++ natLe r.unit 1
    ++ natLe r.place 1 ++ natLe (flagBit r.prim 0 + flagBit r.exact 1 + flagBit r.dbg 2) 1 ++ natLe 0 2
    ++ natLe r.pc.toNat 8 ++ natLe r.info.toNat 8 ++ natLe r.mode.toNat 4 ++ natLe r.counters.toNat 4
    ++ natLe r.kord 8 ++ natLe r.group 4 ++ natLe r.gang 4
  smRun (smPuts (smPut [] 0 head) r.detail) 0 256

/-- How many records a stop area holds. -/
def recSlots (c : Ctx) : Nat := (c.desc.stopSize / 2 - 0x100) / 256

/-- The header and the records written to the stop area (R76). -/
def writeStop (s : State) (c : Ctx) : State :=
  let n := if c.recs.length < recSlots c then c.recs.length else recSlots c
  let code := faultNum (c.primary.bind FaultRec.code)
  let head := natLe n 4 ++ natLe (c.recs.length - n) 4 ++ natLe c.orphans 4 ++ natLe c.orphanLost 4
    ++ natLe code 1 ++ natLe 0 7 ++ natLe c.t0ptp 8 ++ natLe 0 224
  vaBytes s c c.desc.stopArea.toNat (head ++ (c.recs.take n).flatMap recBytes)

/-- The record of an engine that worked for a context and stopped without faulting (R76). -/
def engineRec (s : State) (c : Ctx) (kind die unit : Nat) (d : List (Nat × Byte)) : FaultRec :=
  { part := c.part, ctx := c.cid, code := none, kind := kind, die := die, unit := unit, exact := false,
    detail := d, cycle := s.sys.cycle, ptp := s.sys.ptp }

/-- Whether a piece of work is the context's. -/
def Ctx.has (c : Ctx) (part cid : Nat) : Bool := part == c.part && cid == c.cid

/-- The records of copy units (R76). -/
def copyUnitRecs (s : State) (c : Ctx) : List FaultRec :=
  let copies := s.exe.copies.filter fun x => c.has x.part x.ctx
  (uniq (copies.map Copy.core)).filterMap fun u =>
    (copies.find? fun x => x.core == u).map fun x => copyRec s x none 0 false

/-- The records of matrix sequencers, at the last word each has issued. -/
def sequencerRecs (s : State) (c : Ctx) : List FaultRec :=
  s.exe.groups.filterMap fun g =>
    match g.tile, kernOf s g with
    | some t, some k => if c.has k.part k.ctx && resident g.state && !t.ended then
        some { tileRec s g k t .illegalOp 0 t.lastPc false with code := none } else none
    | _, _ => none

/-- The records of fitting engines: those that answer an AXB or AXE, and those that train a region at a fit point, on the
descriptor's home die (R352; their number: log 130). -/
def fittingRecs (s : State) (c : Ctx) : List FaultRec :=
  let asked := (s.mem.ops.filter fun o => c.has o.part o.ctx).filterMap fun o => match o.kind with
    | .axb r => some (coreDie o.core, coreUnit o.core, r)
    | .axe r => some (coreDie o.core, coreUnit o.core, r)
    | _ => none
  let training := s.ctl.kernels.flatMap fun k =>
    if c.has k.part k.ctx && k.state == .fitting then
      k.regions.filterMap fun r => if inTraining s c r then
        match xlate s 8 c r.desc.toNat needR with
        | .ok x => some (homeDie (paOff x.pa), 0, r.id)
        | .error _ => none
        else none
    else []
  let all := asked ++ training
  (uniq (all.map fun x => (x.1, x.2.1))).map fun u =>
    engineRec s c 4 u.1 u.2 (detailAt 0x40 (((all.find? fun x => (x.1, x.2.1) == u).map fun x => x.2.2).getD 0) 4)

/-- The records of home slices: those that hold a partial of the context, and those at which an operation of it is not
yet performed and acknowledged. -/
def homeRecs (s : State) (c : Ctx) : List FaultRec :=
  let parts := s.ctl.partials.filter fun p => c.has p.part p.ctx
  let held := (uniq (parts.filterMap fun p => match p.loc with
    | .heldHome h => some h
    | .rooted h => some h
    | _ => none)).filterMap fun h => (parts.find? fun p => p.loc == .heldHome h || p.loc == .rooted h).map fun p =>
      { homeRec s p h .dataLoss with code := none }
  let own := ownDev s.sys
  let asked := uniq ((s.mem.ops.filter fun o => c.has o.part o.ctx && !isLocal o).flatMap fun o =>
    o.parts.filterMap fun p => if p.len != 0 && paLocal own p.pa && !p.acked && p.got.isNone then
      some (homeKey own p.pa) else none)
  held ++ (asked.filter fun h => !(held.any fun r => r.die == h / 48 && r.unit == h % 48)).map fun h =>
    engineRec s c 5 (h / 48) (h % 48) []

/-- The records of mesh switch ports that hold a partial, and of fabric ports with a request on its way. -/
def portRecs (s : State) (c : Ctx) : List FaultRec :=
  let ports := uniq ((s.ctl.partials.filter fun p => c.has p.part p.ctx).filterMap fun p => match p.loc with
    | .heldPort x => some x
    | _ => none)
  let own := ownDev s.sys
  let peers := uniq ((s.mem.ops.filter fun o => c.has o.part o.ctx && !isLocal o).flatMap fun o =>
    o.parts.filterMap fun p =>
      if p.len != 0 && !paLocal own p.pa && !paHost own p.pa && !p.acked && p.got.isNone then some (paDev p.pa) else none)
  (ports.map fun x => engineRec s c 6 (x / 24) (x % 24) []) ++ peers.map fun d =>
    engineRec s c 7 8 ((routeOf s.sys d 0).getD (Config.linkHash d 0 % 24))
      (detailAt 0x40 d 2 ++ detailAt 0x42 (smGet s.sys.peerInc d).toNat 1)

/-- The records written when the halt line rises, by engines that worked for a context and stopped without faulting
(R76). -/
def engineRecs (s : State) (c : Ctx) : List FaultRec :=
  sequencerRecs s c ++ fittingRecs s c ++ homeRecs s c ++ portRecs s c

/-! ## Entering HALTING (R70, R73) -/

/-- A context whose engines another record of the stop already names is not recorded twice. -/
def newEngines (rs es : List FaultRec) : List FaultRec :=
  es.filter fun e => !(rs.any fun r => r.kind == e.kind && r.die == e.die && r.unit == e.unit)

/-- The groups of a context, by number. -/
def ctxGroups (s : State) (c : Ctx) : List Nat :=
  (s.exe.groups.zipIdx.filter fun x => ofCtx s c.part c.cid x.1).map Prod.snd

/-- The context's groups KILLED for good (R115, R118). -/
def killGroups (s : State) (c : Ctx) : State :=
  (ctxGroups s c).foldl (fun s g =>
    match (s.exe.groups[g]?).map Group.state with
    | some .done => s
    | some .pending => { s with exe := { s.exe with groups := modAt s.exe.groups g fun x =>
        { x with state := .killed } } }
    | some _ => dropSave (dropGroup s g true) g c.part c.cid
    | none => s) s

/-- The kernels of a context short of their end FAIL when it enters HALTING for a fatal fault; their completions are made
when it reaches HALTED (R112, R113). A FITSYNC whose training the halt stops has begun, and completes then (R92); other
packets end without completion. -/
def failAll (s : State) (c : Ctx) (code : Nat) : State :=
  (List.range s.ctl.kernels.length).foldl (fun s i =>
    match s.ctl.kernels[i]? with
    | none => s
    | some k =>
      if !(c.has k.part k.ctx && kernLive k) then s
      else if k.pkt.kind = pkLaunch then stopKernel s i .failed stHalted code .atHalt
      else if k.state = .fitting then stopKernel s i .retired stOk 0 .atHalt
      else stopKernel s i .failed stOk 0 .none) s

/-- What a fatal halt ends at once: groups, kernels, walks and samples on their way (R70, R73, R112, R115, R319). -/
def haltWork (s : State) (c : Ctx) (code : Nat) : State :=
  let t := failAll (killGroups s c) c code
  { t with
    mem := { t.mem with walks := t.mem.walks.filter fun w => !c.has w.part w.ctx }
    ctl := { t.ctl with samples := t.ctl.samples.filter fun x => !c.has x.part x.ctx } }

/-- The halt line rises (R73): `prim` is the primary fault and `rest` the others that arrived with it. A
debug stop parks the context's groups (R88); a fatal one kills them. Which of the two a DEBUG_STOP and a fatal fault of
one mesh cycle make is decided by the first in rank (DESIGN CHOICE, log 128). -/
def raiseHalt (s : State) (c : Ctx) (prim : FaultRec) (rest : List FaultRec) : State :=
  let debug := prim.code == some .debugStop
  let mark := fun (r : FaultRec) => { r with dbg := debug }
  let old := if c.state = .debugStopped then c.recs else []
  let first := mark { prim with prim := true }
  let named := old ++ first :: rest.map mark
  let es := if debug then copyUnitRecs s c ++ engineRecs s c else engineRecs s c
  let recs := named ++ (newEngines named es).map mark
  let s := setCtx s { c with state := .halting, parkCmd := false, debugHalt := debug, primary := some first,
                             recs := recs, t0ptp := prim.ptp }
  settleQueues (if debug then (ctxGroups s c).foldl (fun s g => parkStart s g true) s
    else haltWork s c (faultNum prim.code))

/-- The rank of a fault that reaches the hub (R74): die, kind, unit, place; the hub's own first, with a HALT
command before a WATCHDOG. -/
def faultRank (r : FaultRec) : Nat :=
  let die := if r.die = 8 then 0 else r.die + 1
  let code := if r.die = 8 ∧ r.code ≠ some .haltRequest then 1 else 0
  (((die * 2 + code) * 16 + r.kind) * 256 + r.unit) * 256 + r.place

/-- FAULT_AT_HUB: the faults of a context that are on their way reach the hub die in one mesh cycle; the
first in rank is primary (R74). A fault of a context that is BUILT, RETIRED or FREE is discarded; one that
finds it HALTING or HALTED is only recorded (R70). -/
def execFaultAtHub (part ctx : Nat) (s : State) : Host.Outcome State Fault Refusal :=
  let fs := sortWith (fun a b => decide (faultRank a ≤ faultRank b))
    (s.ctl.faults.filter fun f => f.part == part && f.ctx == ctx)
  let s := { s with ctl := { s.ctl with faults := s.ctl.faults.filter fun f =>
    !(f.part == part && f.ctx == ctx) } }
  match fs, findCtx s.ctl.ctxs part ctx with
  | f :: rest, some c =>
    match c.state with
    | .free | .built | .retired => .next s
    | .runnable | .running | .parked => .next (raiseHalt s c f rest)
    | .debugStopped =>
      match fs.filter fun r => r.code != some .debugStop with
      | [] => .next s
      | g :: others => .next (raiseHalt s c g others)
    | .halting =>
      .next (setCtx s { c with recs := c.recs ++ fs.map fun r => { r with dbg := c.debugHalt } })
    | .halted =>
      let c' := { c with recs := c.recs ++ fs }
      .next (writeStop (setCtx s c') c')
  | _, _ => .next s

/-! ## CONTEXT_STOPPED (R70, R88, R91, R112) -/

/-- The completions that waited for the context to reach HALTED (R113). -/
def completeHalted (s : State) (c : Ctx) : State :=
  (List.range s.ctl.kernels.length).foldl (fun s i =>
    match s.ctl.kernels[i]? with
    | none => s
    | some k => if c.has k.part k.ctx && k.due == .atHalt then completeKernel s i else s) s

/-- The queues of a context moved to a state (R91). -/
def ctxQueues (s : State) (c : Ctx) (x : QState) (err : Nat) : State :=
  (s.ctl.queues.filter fun q => q.part == c.part && q.ctx == c.cid && q.state != .unbound).foldl
    (fun s q => setQState (modQueue s q.id fun y => { y with taken := none }) q x err) s

/-- The operations, the copies and the windows of a context given up (R73, R118). -/
def dropWork (s : State) (c : Ctx) : State :=
  { s with
    mem := { s.mem with ops := s.mem.ops.filter fun o => !c.has o.part o.ctx }
    exe := { s.exe with
      copies := s.exe.copies.filter fun x => !c.has x.part x.ctx
      groups := modIf s.exe.groups (fun g => g.state == .killed && ofCtx s c.part c.cid g) fun g =>
        { g with window := [] } } }

/-- Whether a group of a context that is stopped for debugging has stopped: it is no longer resident, or it is EXITING
with its stream at a TWAIT (R88). -/
def debugDone (s : State) (c : Ctx) (g : Group) : Bool :=
  !(ofCtx s c.part c.cid g && resident g.state) || (g.state == .exiting && (match g.tile with
    | some t => !t.ended && tileAtStop s g c t
    | none => false))

/-- CONTEXT_STOPPED: every engine has stopped and written its record. A fatal halt ends in HALTED once the copy units
stand at the end of a beat, with the queues in ERROR; a debug stop in DEBUG_STOPPED once every group has parked or
stopped and the copies are complete. -/
def execContextStopped (part ctx : Nat) (s : State) : Host.Outcome State Fault Refusal :=
  match findCtx s.ctl.ctxs part ctx with
  | none => .next s
  | some c =>
    let going := s.exe.copies.any fun x => c.has x.part x.ctx && copyGoes s x
    if c.state ≠ .halting ∨ going = true then .next s
    else if c.debugHalt then
      if s.exe.groups.all (debugDone s c) then
        .next (settleQueues (writeStop (setCtx s { c with state := .debugStopped }) c))
      else .next s
    else
      let c := { c with recs := c.recs ++ newEngines c.recs (copyUnitRecs s c) }
      let s := writeStop s c
      let s := dropWork (setCtx s { c with state := .halted }) c
      .next (ctxQueues (completeHalted s c) c .error 4)

/-! ## The control window (R68 to R70, R75, R88) -/

/-- The results of R68. -/
def cwOk : Nat := 0
def cwBadDesc : Nat := 1
def cwBadState : Nat := 2
def cwBadCmd : Nat := 3
def cwDenied : Nat := 4

/-- CTXW_STATUS with a command's result, BUSY cleared. -/
def cwDone (s : State) (part r : Nat) : State :=
  { s with ctl := { s.ctl with parts := modIf s.ctl.parts (fun p => p.id == part) fun p =>
      { p with ctxwCmd := none, ctxwStatus := BitVec.ofNat 32 r } } }

/-- A write to CTXW_CMD (R68): BUSY stands until the command's event; a word that names no command answers BAD_CMD, and
one written while BUSY is set is discarded. -/
def ctxwWord (s : State) (part v : Nat) : State :=
  match findPart s.ctl.parts part with
  | none => s
  | some p =>
    if p.state ≠ .run ∨ p.ctxwCmd ≠ none then s
    else
      match cmdWord 8 v with
      | none => cwDone s part cwBadCmd
      | some c => { s with ctl := { s.ctl with parts := modIf s.ctl.parts (fun p => p.id == part) fun p =>
          { p with ctxwCmd := some c, ctxwStatus := 0x80000000 } } }

/-- Whether the window takes a command now: its partition's interface is in RUN, and BUSY does not stand for another
command (R68, R404). -/
def ctxwTakes (p : Partition) (cmd cid : Nat) : Bool :=
  p.state == .run && decide (cid < 64) && (p.ctxwCmd == none || p.ctxwCmd == some (cmd, cid))

/-- Command number `cmd` to a context: `f` gives the state after it, or the result that refuses it. A partition whose
interface is not in RUN presents no window (R68, R404). -/
def ctxCmd (cmd part cid : Nat) (s : State) (f : Partition → Option Ctx → Except Nat State) :
    Host.Outcome State Fault Refusal :=
  match findPart s.ctl.parts part with
  | none => .next s
  | some p =>
    if !ctxwTakes p cmd cid then .next s
    else
      match f p (findCtx s.ctl.ctxs part cid) with
      | .error r => .next (cwDone s part r)
      | .ok t => .next (cwDone t part cwOk)

/-- The fields of a descriptor's 128 bytes (R69). -/
def parseDesc (bs : List Byte) : CtxDesc :=
  let f := fun (o n : Nat) => leNat ((bs.drop o).take n)
  { ptRoot := f 0 8, fixedGear := (f 0x0A 2).testBit 0, pbufQuota := if f 0x0C 2 = 0 then 64 else f 0x0C 2,
    lockQuota := f 0x0E 2, seed := BitVec.ofNat 64 (f 0x10 8), trapBase := BitVec.ofNat 64 (f 0x18 8),
    stopArea := BitVec.ofNat 64 (f 0x20 8), stopSize := f 0x28 4, wdogMs := f 0x2C 4,
    saveArea := BitVec.ofNat 64 (f 0x30 8), saveSize := f 0x38 8 }

/-- The ranges and alignments of a descriptor (R69). -/
def descOk (bs : List Byte) (part cid : Nat) : Bool :=
  let f := fun (o n : Nat) => leNat ((bs.drop o).take n)
  f 0 8 % 4096 == 0 && f 8 1 == cid && f 9 1 == part && decide (f 0x0A 2 < 2) && decide (f 0x0C 2 ≤ 256)
    && f 0x18 8 % 256 == 0 && f 0x20 8 % 65536 == 0 && powBetween (f 0x28 4) 16 30
    && f 0x30 8 % 65536 == 0 && f 0x38 8 % 65536 == 0 && f 0x40 64 == 0

/-- An area of a descriptor is mapped, pinned and writeable, in device memory of the partition (R69). -/
def areaOk (s : State) (p : Partition) (cid root va n : Nat) : Bool :=
  (vaPages va n).all fun pg =>
    match xlateAt s 8 p cid root (pg * 2 ^ 16) needW with
    | .ok x => leafPinned x.leaf && paLocal (ownDev s.sys) x.pa
    | .error _ => false

/-- CTX_BUILD (R69): FREE to BUILT, with the descriptor at CTXW_DESC latched. -/
def execCtxBuild (part ctx : Nat) (s : State) : Host.Outcome State Fault Refusal :=
  ctxCmd 1 part ctx s fun p c =>
    let pa := p.ctxwDesc.toNat
    let bs := paBytes s pa 128
    let d := parseDesc bs
    if c.isSome ∨ pa % 128 ≠ 0 ∨ paLocal (ownDev s.sys) pa = false
        ∨ p.dies.contains (homeDie (paOff pa)) = false ∨ descOk bs part ctx = false
        ∨ areaOk s p ctx d.ptRoot d.stopArea.toNat d.stopSize = false
        ∨ areaOk s p ctx d.ptRoot d.saveArea.toNat d.saveSize = false then .error cwBadDesc
    else
      let c : Ctx := { part := part, cid := ctx, state := .built, desc := d }
      .ok { s with ctl := { s.ctl with ctxs := s.ctl.ctxs ++ [c] } }

/-- CTX_ENABLE (R70): BUILT to RUNNABLE; its queues become eligible. -/
def execCtxEnable (part ctx : Nat) (s : State) : Host.Outcome State Fault Refusal :=
  ctxCmd 2 part ctx s fun _ c =>
    match c with
    | some c => if c.state = .built then .ok (settleQueues (setCtx s { c with state := .runnable }))
        else .error cwBadState
    | none => .error cwBadState

/-- CTX_PARK (R70, R84): every resident group parks by save; placements are held until RESUME. -/
def execCtxPark (part ctx : Nat) (s : State) : Host.Outcome State Fault Refusal :=
  ctxCmd 3 part ctx s fun _ c =>
    match c with
    | some c =>
      if c.state = .running ∨ c.state = .parked then
        let s := (ctxGroups s c).foldl (fun s g => parkStart s g false) s
        match findCtx s.ctl.ctxs part ctx with
        | some c => .ok (settleQueues (setCtx s { c with state := .parked, parkCmd := true }))
        | none => .error cwBadState
      else .error cwBadState
    | none => .error cwBadState

/-- CTX_RESUME (R70): PARKED or DEBUG_STOPPED to RUNNING; the distributor restores the parked groups. The records of
the debug stop and its primary code are forgotten; the stop area keeps what was written (DESIGN CHOICE, log 127). -/
def execCtxResume (part ctx : Nat) (s : State) : Host.Outcome State Fault Refusal :=
  ctxCmd 4 part ctx s fun _ c =>
    match c with
    | some c =>
      if c.state = .parked then
        .ok (settleQueues (setCtx s { c with state := .running, parkCmd := false }))
      else if c.state = .debugStopped then
        .ok (settleQueues (setCtx s
          { c with state := .running, parkCmd := false, debugHalt := false, primary := none, recs := [] }))
      else .error cwBadState
    | none => .error cwBadState

/-- A state in which DSTOP and a fault raise the halt line (R70). -/
def haltable (c : Ctx) : Bool := c.state == .runnable || c.state == .running || c.state == .parked

/-- CTX_DSTOP (R68, R88): judged against the policy first. -/
def execCtxDstop (part ctx : Nat) (s : State) : Host.Outcome State Fault Refusal :=
  ctxCmd 5 part ctx s fun p c =>
    if !facilOpen s.ctl.parts p.id facDebug then .error cwDenied
    else
      match c with
      | some c => if haltable c then .ok (raiseHalt s c (dispatcherRec s part ctx .debugStop 0 0) [])
          else .error cwBadState
      | none => .error cwBadState

/-- CTX_HALT (R75): HALT_REQUEST raised in the dispatcher, always primary. -/
def execCtxHalt (part ctx : Nat) (s : State) : Host.Outcome State Fault Refusal :=
  ctxCmd 6 part ctx s fun _ c =>
    match c with
    | some c => if haltable c || c.state == .debugStopped then
        .ok (raiseHalt s c (dispatcherRec s part ctx .haltRequest 0x100 0) []) else .error cwBadState
    | none => .error cwBadState

/-- Whether a kernel of the context is short of RETIRED or FAILED (R112), or its completion add is still to come. -/
def kernelInFlight (s : State) (c : Ctx) : Bool :=
  s.ctl.kernels.any fun k => c.has k.part k.ctx && (kernLive k || k.due == .add)

/-- What RETIRE drops (R70, R194, R317): locks, partials, the accumulator table, translations and fetched
code of the context; its queues become UNBOUND (R91). -/
def retireCtx (s : State) (c : Ctx) : State :=
  let s := ctxQueues s c .unbound 0
  { s with
    exe := { s.exe with groups := modIf s.exe.groups (ofCtx s c.part c.cid) fun g => { g with pins := [] } }
    mem := { s.mem with
      tlb := s.mem.tlb.filter fun t => !c.has t.part t.ctx
      upper := s.mem.upper.filter fun u => !c.has u.part u.ctx
      walks := s.mem.walks.filter fun w => !c.has w.part w.ctx
      icache := s.mem.icache.filter fun i => !c.has i.part i.ctx }
    ctl := { s.ctl with
      partials := s.ctl.partials.filter fun p => !c.has p.part p.ctx
      ctxs := modCtx s.ctl.ctxs c.part c.cid fun x =>
        { x with state := .retired, accs := [], saves := [], lockUsed := 0, held := [] } } }

/-- CTX_RETIRE (R70). -/
def execCtxRetire (part ctx : Nat) (s : State) : Host.Outcome State Fault Refusal :=
  ctxCmd 7 part ctx s fun _ c =>
    match c with
    | some c =>
      if c.state = .built ∨ c.state = .halted ∨ (c.state = .runnable ∧ kernelInFlight s c = false) then
        .ok (retireCtx s c)
      else .error cwBadState
    | none => .error cwBadState

/-- CTX_RELEASE (R70): RETIRED to FREE; the CTX_ID names no context. -/
def execCtxRelease (part ctx : Nat) (s : State) : Host.Outcome State Fault Refusal :=
  ctxCmd 8 part ctx s fun _ c =>
    match c with
    | some c => if c.state = .retired then
        .ok { s with ctl := { s.ctl with ctxs := s.ctl.ctxs.filter fun x => !(x.part == part && x.cid == ctx) } }
        else .error cwBadState
    | none => .error cwBadState

end Sys2Proof.Machine
end

