-- ==== Sys2Proof/Machine/Control.lean ====
section
/-! DEFINITION. Control.lean: the eleven control instructions (R129 to R139). -/

namespace Sys2Proof.Machine

/-- The target of a J-format word at `pc`; none where it lies outside the address space (R40). -/
def jTarget (pc : VAddr) (o : BitVec 24) : Option VAddr :=
  let t : Int := (pc.toNat : Int) + 4 * signed o.toNat 24
  if 0 ≤ t ∧ t < 2 ^ 56 then some (BitVec.ofNat 56 t.toNat) else none

/-- The running lanes of slice `k` whose guard is true (R129, R130). -/
def takenLanes (e : Iss) (k : Nat) : BitVec 4 := sliceMask k (activeOn e.g)

/-- BRA in one slice (R129); none where it raises ILLEGAL_OP. -/
def braSlice (e : Iss) (o : BitVec 24) (k : Nat) : Option Slice :=
  match jTarget e.pc o with
  | none => none
  | some t => divide (e.g.sl k) (takenLanes e k) t (e.pc + 4)

/-- BRA (R129). -/
def execBra (o : BitVec 24) (s : State) : Host.Outcome State Fault Refusal :=
  issue s (fun e => legal e fun k => (braSlice e o k).isSome) fun e =>
    sliceBody e fun k x => (braSlice e o k).getD x

/-- CALL in one slice (R130), for a stack that has room. -/
def callSlice (e : Iss) (o : BitVec 24) (k : Nat) : Option Slice :=
  match jTarget e.pc o with
  | none => none
  | some t =>
    let taken := takenLanes e k
    match divide (e.g.sl k) taken t (e.pc + 4) with
    | none => none
    | some x =>
      if taken = 0 then some x
      else some { x with stack := { kind := .call, lanes := taken, pc := e.pc + 4 } :: x.stack }

/-- The fault of CALL in one slice (R40, R130). -/
def callFault (e : Iss) (o : BitVec 24) (k : Nat) : Option FaultCode :=
  if (jTarget e.pc o).isNone then some .illegalOp
  else if takenLanes e k != 0 && decide (stackLimit ≤ (e.g.sl k).stack.length) then
    some .stackOverflow
  else if (callSlice e o k).isNone then some .illegalOp else none

/-- CALL (R130). -/
def execCall (o : BitVec 24) (s : State) : Host.Outcome State Fault Refusal :=
  issue s (fun e => judgeSlices e (callFault e o)) fun e =>
    sliceBody e fun k x => (callSlice e o k).getD x

/-- RET in one slice (R131). -/
def retSlice (x : Slice) : Option Slice :=
  match x.stack with
  | [] => none
  | e :: r =>
    if e.kind == .call then some { x with run := e.lanes &&& ~~~x.exited, pc := e.pc, stack := r }
    else none

/-- RET (R131). -/
def execRet (s : State) : Host.Outcome State Fault Refusal :=
  issue s (fun e => legal e fun k => (retSlice (e.g.sl k)).isSome) fun e =>
    sliceBody e fun _ x => (retSlice x).getD x

/-- The target of BRX in lane `l`, as 64 bits (R132). -/
def brxTarget (e : Iss) (a : Byte) (l : Nat) : Nat :=
  if guardTrue e.g l then rdPair e.g l a else (e.pc + 4).toNat

/-- The lane whose side goes first, its target and its side (R132). -/
def brxSide (e : Iss) (a : Byte) (k : Nat) : Nat × BitVec 4 :=
  let l0 := ((List.range 4).filter fun j => runOn e.g (4 * k + j)).headD 0
  let t := brxTarget e a (4 * k + l0)
  (t, sliceMask k fun l => runOn e.g l && brxTarget e a l == t)

/-- The division BRX makes in one slice (R132). -/
def brxSlice (e : Iss) (a : Byte) (lnk : Bool) (k : Nat) : Option Slice :=
  let (t, taken) := brxSide e a k
  match divide (e.g.sl k) taken (BitVec.ofNat 56 t) e.pc with
  | none => none
  | some x =>
    if lnk && decide (t ≠ (e.pc + 4).toNat) then
      some { x with stack := { kind := .call, lanes := taken, pc := e.pc + 4 } :: x.stack }
    else some x

/-- The fault of BRX in one slice (R132). -/
def brxFault (e : Iss) (a : Byte) (lnk : Bool) (k : Nat) : Option FaultCode :=
  let lanes := (List.range 4).map fun j => 4 * k + j
  if !pairOk e.n a then some .illegalOp
  else if lanes.any fun l => activeOn e.g l &&
      (rdPair e.g l a % 4 != 0 || decide (2 ^ 56 ≤ rdPair e.g l a)) then some .illegalOp
  else
    let taken := (brxSide e a k).2
    if lnk && (lanes.any fun l => taken.getLsbD (l % 4) && guardTrue e.g l) &&
        decide (stackLimit ≤ (e.g.sl k).stack.length) then some .stackOverflow
    else if (brxSlice e a lnk k).isNone then some .illegalOp else none

/-- BRX (R132). -/
def execBrx (a : Byte) (sub : BitVec 1) (s : State) : Host.Outcome State Fault Refusal :=
  issue s (fun e => judgeSlices e (brxFault e a (sub == 1))) fun e =>
    sliceBody e fun k x => (brxSlice e a (sub == 1) k).getD x

/-- The fault of RPUSH in one slice (R40, R133). -/
def rpushFault (e : Iss) (o : BitVec 24) (k : Nat) : Option FaultCode :=
  if (jTarget e.pc o).isNone then some .illegalOp
  else if stackLimit ≤ (e.g.sl k).stack.length then some .stackOverflow else none

/-- RPUSH (R133). -/
def execRpush (o : BitVec 24) (s : State) : Host.Outcome State Fault Refusal :=
  issue s (fun e => judgeSlices e (rpushFault e o)) fun e =>
    sliceBody e fun _ x =>
      { x with
        stack := { kind := .joinpt, lanes := x.run, pc := (jTarget e.pc o).getD 0 } :: x.stack
        pc := x.pc + 4 }

/-- JOIN in one slice (R134). -/
def joinSlice (x : Slice) : Option Slice :=
  match x.stack with
  | [] => none
  | e :: r =>
    if e.kind == .joinpt && e.pc == x.pc then
      if e.pend != 0 then
        some { x with run := e.pend, pc := e.ppc, stack := { e with pend := 0 } :: r }
      else some { x with run := e.lanes &&& ~~~x.exited, pc := x.pc + 4, stack := r }
    else none

/-- JOIN (R134). -/
def execJoin (s : State) : Host.Outcome State Fault Refusal :=
  issue s (fun e => legal e fun k => (joinSlice (e.g.sl k)).isSome) fun e =>
    sliceBody e fun _ x => (joinSlice x).getD x

/-- REGANG (R135): the cohort stops; `settleRegang` merges the gang or raises the mismatch. -/
def execRegang (t : BitVec 24) (s : State) : Host.Outcome State Fault Refusal :=
  issue s (fun _ => .go) fun e => sliceBody e fun _ x => { x with regang := some t }

/-- EXIT in one slice (R136). -/
def exitSlice (act : BitVec 4) (x : Slice) : Slice :=
  let y := { x with exited := x.exited ||| act, run := x.run &&& ~~~act }
  if y.run = 0 then unwind y y.stack else { y with pc := y.pc + 4 }

/-- EXIT (R136). A lane that exits with its region open discards the invocation (R356). -/
def execExit (s : State) : Host.Outcome State Fault Refusal :=
  issue s (fun _ => .go) fun e =>
    let r := sliceBody e fun k x => exitSlice (e.act k) x
    { r with g := { r.g with opens := r.g.opens.filter fun o => !activeOn e.g o.lane
                                                  || !e.mask.getLsbD (o.lane / 4) } }

/-- YIELD (R137): in freewheel mode the gang's greedy claim ends; in fixed gear it is an issue like any other
(R123). -/
def execYield (s : State) : Host.Outcome State Fault Refusal :=
  issue s (fun _ => .go) fun e => { st := e.s, g := { e.adv with yielded := !e.kern.fixed } }

/-- ELECT (R138): sub 0 COHORT, 1 SLICE. -/
def execElect (d : BitVec 3) (sub : BitVec 1) (s : State) : Host.Outcome State Fault Refusal :=
  issue s (fun _ => .go) fun e =>
    predBody e d.toNat (fun l =>
      if sub = 0 then e.active.head? == some l
      else (e.active.filter fun j => j / 4 == l / 4).head? == some l) noConds

/-- The ballot word (R139). -/
def ballot (e : Iss) (p : Nat) : Nat :=
  ((e.active.filter fun l => predAt e.g p l).map fun l => 2 ^ l).sum

/-- VOTE (R139): sub 0 ALL, 1 ANY, 2 EQ, 3 BALLOT. -/
def execVote (d : BitVec 8) (a : BitVec 3) (sub : BitVec 2) (s : State) :
    Host.Outcome State Fault Refusal :=
  issue s (fun e => legal e fun _ => sub != 3 || declOk e.n d) fun e =>
    let all := e.active.all fun l => predAt e.g a.toNat l
    let any := e.active.any fun l => predAt e.g a.toNat l
    if sub = 3 then resultBody e e.active d (fun _ => false) (fun _ => ballot e a.toNat) noConds
    else predBody e d.toNat
      (fun _ => if sub = 0 then all else if sub = 1 then any else all || !any) noConds

end Sys2Proof.Machine
end

