-- ==== Sys2Proof/Machine/IssueState.lean ====
section
/-! DEFINITION. IssueState.lean: NOP, MODE, IMM, IMMH and WAIT (R57 to R61). They act on the slices of
the cohort and ignore the guard. -/

namespace Sys2Proof.Machine

/-- NOP (R57). -/
def execNop (s : State) : Host.Outcome State Fault Refusal :=
  issue s (fun _ => .go) fun e => { st := e.s, g := e.adv }

/-- The mode word with the given fields (R47). -/
def modeWord (n : BitVec 1) (g : BitVec 3) (t : BitVec 4) (r : BitVec 3) (s : BitVec 1)
    (c o : BitVec 3) (p : BitVec 4) : BitVec 24 :=
  n ++ g ++ t ++ r ++ s ++ c ++ o ++ p ++ (0#2)

/-- MODE (R58): every field of the mode word replaced at once. -/
def execMode (n : BitVec 1) (g : BitVec 3) (t : BitVec 4) (r : BitVec 3) (sa : BitVec 1)
    (c o : BitVec 3) (p : BitVec 4) (s : State) : Host.Outcome State Fault Refusal :=
  issue s (fun _ => .go) fun e =>
    sliceBody e fun _ x => { x with mode := modeWord n g t r sa c o p, pc := x.pc + 4 }

/-- IMM (R59). -/
def execImm (i : BitVec 24) (s : State) : Host.Outcome State Fault Refusal :=
  issue s (fun _ => .go) fun e =>
    sliceBody e fun _ x => { x with im := i.signExtend 32, pc := x.pc + 4 }

/-- IMMH (R60). -/
def execImmh (i : BitVec 8) (s : State) : Host.Outcome State Fault Refusal :=
  issue s (fun _ => .go) fun e =>
    sliceBody e fun _ x => { x with im := i ++ x.im.extractLsb' 0 24, pc := x.pc + 4 }

/-- Whether every counter of a slice stands at or below its WAIT limit (R61). -/
def waitDone (x : Slice) (l w c f : Nat) : Bool :=
  decide (x.cL ≤ l) && decide (x.cS ≤ w) && decide (x.cC ≤ c) && decide (x.cF ≤ f)

/-- WAIT (R61): the cohort stalls until the four limits hold in every slice. -/
def execWait (l w c f : BitVec 6) (s : State) : Host.Outcome State Fault Refusal :=
  issue s
    (fun e => if e.sls.all fun k => waitDone (e.g.sl k) l.toNat w.toNat c.toNat f.toNat
      then .go else .stall)
    fun e => { st := e.s, g := e.adv }

end Sys2Proof.Machine
end

