-- ==== Sys2Proof/Machine/LaneInt.lean ====
section
/-! DEFINITION. LaneInt.lean: per-lane integer and bit arithmetic, moves, addresses and shuffles (R140 to
R154). -/

namespace Sys2Proof.Machine

/-! ## Type sets (R140) -/

def setInt (t : Nat) : Bool := t ≤ 3 || (8 ≤ t && t ≤ 11)
def setWide (t : Nat) : Bool := t ≤ 3
def setSigned (t : Nat) : Bool := t == 0 || t == 2 || t == 8 || t == 10
def setByte (t : Nat) : Bool := t == 10 || t == 11
def setAny (t : Nat) : Bool := t ≤ 13

/-! ## Exact results, wrapped or saturated (R141) -/

/-- Element value as an integer: signed under an I type, natural under an N type (R140). -/
def intVal (t x : Nat) : Int := if tySigned t then signed x (tyWidth t) else (x : Int)

/-- The range of an integer element type. -/
def intLo (t : Nat) : Int := if tySigned t then -(2 ^ (tyWidth t - 1) : Int) else 0
def intHi (t : Nat) : Int :=
  if tySigned t then (2 ^ (tyWidth t - 1) : Int) - 1 else (2 ^ tyWidth t : Int) - 1

/-- The exact result clamped under SAT, else modulo 2^w (R141). -/
def satWrap (t : Nat) (sat : Bool) (z : Int) : Nat :=
  wrap (if sat then clampInt z (intLo t) (intHi t) else z) (tyWidth t)

/-- `f` on the elements of `a`, `b` and `c` as integers, saturated or wrapped. -/
def intMap (t : Nat) (sat : Bool) (f : Int → Int → Int → Int) (a b c : Nat) : Nat :=
  mapElems t fun i =>
    satWrap t sat (f (intVal t (elemOf t a i)) (intVal t (elemOf t b i)) (intVal t (elemOf t c i)))

/-! ## Shapes -/

/-- A three-register instruction whose operands all have the element type. -/
def arith3 (s : State) (ty : Nat → Bool) (d a b : Byte) (f : (t : Nat) → (m : BitVec 24) → Nat → Nat → Nat → Nat) :
    Host.Outcome State Fault Refusal :=
  issue s
    (fun e => legal e fun k =>
      ty (e.ty k) && dstOk e.n (e.ty k) d && srcOk e.n (e.ty k) a && srcOk e.n (e.ty k) b)
    fun e => resultBody e e.active d (fun l => tyWide (e.lty l))
      (fun l => f (e.lty l) (e.lmode l) (rdT e.g (e.lty l) l a) (rdT e.g (e.lty l) l b)
        (rdT e.g (e.lty l) l d)) noConds

/-- A two-register instruction whose operands have the element type. -/
def arith2 (s : State) (ty : Nat → Bool) (d a : Byte) (f : (t : Nat) → (m : BitVec 24) → Nat → Nat) :
    Host.Outcome State Fault Refusal :=
  issue s
    (fun e => legal e fun k => ty (e.ty k) && dstOk e.n (e.ty k) d && srcOk e.n (e.ty k) a)
    fun e => resultBody e e.active d (fun l => tyWide (e.lty l))
      (fun l => f (e.lty l) (e.lmode l) (rdT e.g (e.lty l) l a)) noConds

/-- An instruction whose `b` is one 32-bit register under every type: shifts and bit fields (R141). -/
def arithB (s : State) (ty : Nat → Bool) (d a b : Byte) (f : (t : Nat) → Nat → Nat → Nat → Nat) :
    Host.Outcome State Fault Refusal :=
  issue s
    (fun e => legal e fun k =>
      ty (e.ty k) && dstOk e.n (e.ty k) d && srcOk e.n (e.ty k) a && declOk e.n b)
    fun e => resultBody e e.active d (fun l => tyWide (e.lty l))
      (fun l => f (e.lty l) (rdT e.g (e.lty l) l a) (rd e.g l b) (rdT e.g (e.lty l) l d)) noConds

/-! ## Integer arithmetic (R143 to R145) -/

def execIadd (d a b : Byte) (s : State) : Host.Outcome State Fault Refusal :=
  arith3 s setInt d a b fun t m x y c => intMap t (mSat m) (fun x y _ => x + y) x y c

def execIsub (d a b : Byte) (s : State) : Host.Outcome State Fault Refusal :=
  arith3 s setInt d a b fun t m x y c => intMap t (mSat m) (fun x y _ => x - y) x y c

def execImul (d a b : Byte) (s : State) : Host.Outcome State Fault Refusal :=
  arith3 s setInt d a b fun t m x y c => intMap t (mSat m) (fun x y _ => x * y) x y c

def execImad (d a b : Byte) (s : State) : Host.Outcome State Fault Refusal :=
  arith3 s setInt d a b fun t m x y c => intMap t (mSat m) (fun x y c => x * y + c) x y c

def execImin (d a b : Byte) (s : State) : Host.Outcome State Fault Refusal :=
  arith3 s setInt d a b fun t _ x y c => intMap t false (fun x y _ => if x ≤ y then x else y) x y c

def execImax (d a b : Byte) (s : State) : Host.Outcome State Fault Refusal :=
  arith3 s setInt d a b fun t _ x y c => intMap t false (fun x y _ => if x ≤ y then y else x) x y c

/-- IMULH (R144): the high half of the exact product, floored. -/
def execImulh (d a b : Byte) (s : State) : Host.Outcome State Fault Refusal :=
  arith3 s setInt d a b fun t _ x y c =>
    intMap t false (fun x y _ => Int.fdiv (x * y) (2 ^ tyWidth t)) x y c

/-- IABS (R143). -/
def execIabs (d a : Byte) (s : State) : Host.Outcome State Fault Refusal :=
  arith2 s setSigned d a fun t m x =>
    intMap t (mSat m) (fun x _ _ => if x < 0 then -x else x) x 0 0

/-- The value IDOT4 writes (R145). -/
def idot4Val (t : Nat) (sat : Bool) (a b c : Nat) : Nat :=
  let w := if t = 10 then 0 else 1
  let z : Int := intVal w c
    + (((List.range 4).map fun i => intVal t (elemOf t a i) * intVal t (elemOf t b i)).sum)
  satWrap w sat z

/-- IDOT4 (R145). -/
def execIdot4 (d a b : Byte) (s : State) : Host.Outcome State Fault Refusal :=
  arith3 s setByte d a b fun t m x y c => idot4Val t (mSat m) x y c

/-! ## Logic, shifts, bit fields (R146 to R149) -/

/-- The width of an operand as a bit string: 64 under a 64-bit type, else 32. -/
def fullWidth (t : Nat) : Nat := if tyWide t then 64 else 32

/-- The complement of a bit string of `w` bits. -/
def notW (w x : Nat) : Nat := 2 ^ w - 1 - x % 2 ^ w

def execAnd (d a b : Byte) (s : State) : Host.Outcome State Fault Refusal :=
  arith3 s setAny d a b fun _ _ x y _ => Nat.land x y

def execOr (d a b : Byte) (s : State) : Host.Outcome State Fault Refusal :=
  arith3 s setAny d a b fun _ _ x y _ => Nat.lor x y

def execXor (d a b : Byte) (s : State) : Host.Outcome State Fault Refusal :=
  arith3 s setAny d a b fun _ _ x y _ => Nat.xor x y

def execAndn (d a b : Byte) (s : State) : Host.Outcome State Fault Refusal :=
  arith3 s setAny d a b fun t _ x y _ => Nat.land x (notW (fullWidth t) y)

/-- The shift count of element `i` (R147). -/
def shiftCount (t b i : Nat) : Nat := if tyCount t = 1 then b else elemOf t b i

/-- A shift per element (R147). -/
def shiftMap (t a b : Nat) (f : (w x k : Nat) → Nat) : Nat :=
  mapElems t fun i => f (tyWidth t) (elemOf t a i) (shiftCount t b i)

def shlElem (w x k : Nat) : Nat := if w ≤ k then 0 else x * 2 ^ k % 2 ^ w
def shrElem (w x k : Nat) : Nat := if w ≤ k then 0 else x / 2 ^ k
def sarElem (w x k : Nat) : Nat :=
  wrap (Int.fdiv (signed x w) (2 ^ (if w ≤ k then w else k))) w
def rotElem (w x k : Nat) : Nat :=
  let r := k % w
  (x * 2 ^ r + x / 2 ^ (w - r)) % 2 ^ w

def execShl (d a b : Byte) (s : State) : Host.Outcome State Fault Refusal :=
  arithB s setInt d a b fun t x y _ => shiftMap t x y shlElem

def execShr (d a b : Byte) (s : State) : Host.Outcome State Fault Refusal :=
  arithB s setInt d a b fun t x y _ => shiftMap t x y shrElem

def execSar (d a b : Byte) (s : State) : Host.Outcome State Fault Refusal :=
  arithB s setInt d a b fun t x y _ => shiftMap t x y sarElem

def execRot (d a b : Byte) (s : State) : Host.Outcome State Fault Refusal :=
  arithB s setInt d a b fun t x y _ => shiftMap t x y rotElem

/-- The number of 1 bits among the low `w` bits. -/
def popcount (x : Nat) : (w : Nat) → Nat
  | 0 => 0
  | w + 1 => x % 2 + popcount (x / 2) w

/-- The number of 0 bits above the highest 1 bit of a `w`-bit value. -/
def clzCount (w x : Nat) : Nat := if x = 0 then w else w - 1 - Nat.log2 x

/-- Bit j moved to bit w − 1 − j. -/
def bitRev (x : Nat) : (w : Nat) → Nat
  | 0 => 0
  | w + 1 => x % 2 * 2 ^ w + bitRev (x / 2) w

/-- A 32-bit result from one operand of a WIDE type (R148). -/
def countShape (d a : Byte) (s : State) (f : (w x : Nat) → Nat) : Host.Outcome State Fault Refusal :=
  issue s
    (fun e => legal e fun k => setWide (e.ty k) && declOk e.n d && srcOk e.n (e.ty k) a)
    fun e => resultBody e e.active d (fun _ => false)
      (fun l => f (tyWidth (e.lty l)) (rdT e.g (e.lty l) l a)) noConds

/-- POPC (R148). -/
def execPopc (d a : Byte) (s : State) : Host.Outcome State Fault Refusal :=
  countShape d a s fun w x => popcount x w

/-- CLZ (R148). -/
def execClz (d a : Byte) (s : State) : Host.Outcome State Fault Refusal :=
  countShape d a s clzCount

/-- BREV (R148). -/
def execBrev (d a : Byte) (s : State) : Host.Outcome State Fault Refusal :=
  arith2 s setWide d a fun t _ x => bitRev x (tyWidth t)

/-- The value BFE writes (R149). -/
def bfeVal (t a ctl : Nat) : Nat :=
  let pos := bits ctl 7 0
  let len := bits ctl 15 8
  let f := (Int.fdiv (intVal t a) (2 ^ pos) % (2 ^ len : Int)).toNat
  if tySigned t && len != 0 then wrap (signed f len) (tyWidth t) else f % 2 ^ tyWidth t

/-- The value BFI writes (R149). -/
def bfiVal (t a ctl base : Nat) : Nat :=
  let w := tyWidth t
  let pos := bits ctl 7 0
  let len := bits ctl 15 8
  let m := (2 ^ len - 1) * 2 ^ pos % 2 ^ w
  Nat.lor (Nat.land base (notW w m)) (Nat.land (a % 2 ^ len * 2 ^ pos % 2 ^ w) m)

/-- BFE (R149). -/
def execBfe (d a b : Byte) (s : State) : Host.Outcome State Fault Refusal :=
  arithB s setWide d a b fun t x y _ => bfeVal t x y

/-- BFI (R149). -/
def execBfi (d a b : Byte) (s : State) : Host.Outcome State Fault Refusal :=
  arithB s setWide d a b bfiVal

/-! ## Compare, select, move, addresses (R150 to R153) -/

/-- ICMP (R150). -/
def execIcmp (c d : BitVec 3) (a b : Byte) (s : State) : Host.Outcome State Fault Refusal :=
  issue s
    (fun e => legal e fun k =>
      setWide (e.ty k) && srcOk e.n (e.ty k) a && srcOk e.n (e.ty k) b)
    fun e => predBody e d.toNat (fun l =>
      cmpInt c.toNat (intVal (e.lty l) (rdT e.g (e.lty l) l a))
        (intVal (e.lty l) (rdT e.g (e.lty l) l b))) noConds

/-- SEL (R151): every running lane is active, and the guard selects. -/
def execSel (d a b : Byte) (s : State) : Host.Outcome State Fault Refusal :=
  issue s
    (fun e => legal e fun k =>
      setAny (e.ty k) && dstOk e.n (e.ty k) d && srcOk e.n (e.ty k) a && srcOk e.n (e.ty k) b)
    fun e => { resultBody e e.running d (fun l => tyWide (e.lty l))
      (fun l => rdT e.g (e.lty l) l (if guardTrue e.g l then a else b)) noConds with all := true }

/-- MOV (R152). -/
def execMov (d a : Byte) (s : State) : Host.Outcome State Fault Refusal :=
  arith2 s setAny d a fun _ _ x => x

/-- MOVI (R152). -/
def execMovi (d : Byte) (i : BitVec 16) (s : State) : Host.Outcome State Fault Refusal :=
  issue s (fun e => legal e fun _ => declOk e.n d)
    fun e => resultBody e e.active d (fun _ => false) (fun _ => (i.signExtend 32).toNat) noConds

/-- MOVH (R152). -/
def execMovh (d : Byte) (i : BitVec 16) (s : State) : Host.Outcome State Fault Refusal :=
  issue s (fun e => legal e fun _ => declOk e.n d)
    fun e => resultBody e e.active d (fun _ => false)
      (fun l => i.toNat * 2 ^ 16 + rd e.g l d % 2 ^ 16) noConds

/-- The scale LEA applies to its index (R153). -/
def leaScale (t : Nat) : Nat := tyWidth t / 8

/-- LEA (R153). -/
def execLea (d a b : Byte) (s : State) : Host.Outcome State Fault Refusal :=
  issue s
    (fun e => legal e fun k => setAny (e.ty k) && pairOk e.n d && wideOk e.n a && declOk e.n b)
    fun e => resultBody e e.active d (fun _ => true)
      (fun l => wrap ((rd64 e.g l a false : Int) + signed (rd e.g l b) 32 * leaScale (e.lty l)) 64)
      noConds

/-! ## Shuffles (R154) -/

/-- A shuffle: lane `l` takes `a` of lane `src l` where that lane is active, else its own. -/
def shuffle (d a : Byte) (s : State) (src : Nat → Option Nat) : Host.Outcome State Fault Refusal :=
  issue s
    (fun e => legal e fun k => setAny (e.ty k) && dstOk e.n (e.ty k) d && srcOk e.n (e.ty k) a)
    fun e => resultBody e e.active d (fun l => tyWide (e.lty l))
      (fun l => rdT e.g (e.lty l)
        (match src l with
          | some j => if e.active.contains j then j else l
          | none => l) a) noConds

def execShfli (d a : Byte) (n : BitVec 5) (s : State) : Host.Outcome State Fault Refusal :=
  shuffle d a s fun _ => some n.toNat

def execShflx (d a : Byte) (n : BitVec 5) (s : State) : Host.Outcome State Fault Refusal :=
  shuffle d a s fun l => some (Nat.xor l n.toNat)

def execShflu (d a : Byte) (n : BitVec 5) (s : State) : Host.Outcome State Fault Refusal :=
  shuffle d a s fun l => if l < n.toNat then none else some (l - n.toNat)

def execShfld (d a : Byte) (n : BitVec 5) (s : State) : Host.Outcome State Fault Refusal :=
  shuffle d a s fun l => if l + n.toNat > 31 then none else some (l + n.toNat)

end Sys2Proof.Machine
end

