-- ==== Sys2Proof/Machine/Special.lean ====
section
/-! DEFINITION. Special.lean: the special functions of R167 and R168, correctly rounded. A function is
evaluated in fixed point with `W` fraction bits, every step truncated, so that the result lies within
2^20 units of the computed value; it is rounded where both ends of that interval round alike, with 224 and
then 704 bits (log 11). Square roots are exact with a sticky bit. -/

namespace Sys2Proof.Machine

/-! ## Fixed-point series. Values are scaled by 2^W. -/

/-- Σ y^j / j! from term `j` with value `t`. -/
def expSeries (W y : Nat) : (fuel j t : Nat) → Nat
  | 0, _, _ => 0
  | f + 1, j, t => if t = 0 then 0 else t + expSeries W y f (j + 1) (t * y / 2 ^ W / (j + 1))

/-- e^y for 0 ≤ y < 1. -/
def expFix (W y : Nat) : Nat := expSeries W y 400 0 (2 ^ W)

/-- Σ z^(2j+1) / (2j+1), given z², from power `p` and odd divisor `d`. -/
def atanhSeries (W z2 : Nat) : (fuel d p : Nat) → Nat
  | 0, _, _ => 0
  | f + 1, d, p => if p = 0 then 0 else p / d + atanhSeries W z2 f (d + 2) (p * z2 / 2 ^ W)

/-- atanh z for 0 ≤ z ≤ 1/3. -/
def atanhFix (W z : Nat) : Nat := atanhSeries W (z * z / 2 ^ W) 700 1 z

/-- ln 2 = 2 atanh(1/3). -/
def ln2Fix (W : Nat) : Nat := 2 * atanhFix W (2 ^ W / 3)

/-- Σ ±p / d for the arctangent of 1/k, as the sums of the positive and the negative terms. -/
def atanInvSeries (k2 : Nat) : (fuel d p : Nat) → (pos : Bool) → Nat × Nat
  | 0, _, _, _ => (0, 0)
  | f + 1, d, p, pos =>
    if p = 0 then (0, 0)
    else
      let (a, b) := atanInvSeries k2 f (d + 2) (p / k2) (!pos)
      if pos then (a + p / d, b) else (a, b + p / d)

/-- arctan(1/k). -/
def atanInv (W k : Nat) : Nat :=
  let (a, b) := atanInvSeries (k * k) 700 1 (2 ^ W / k) true
  a - b

/-- π/2 = 8 arctan(1/5) − 2 arctan(1/239) (Machin). -/
def piHalfFix (W : Nat) : Nat := 8 * atanInv W 5 - 2 * atanInv W 239

/-- Σ of the positive and of the negative terms of the sine or cosine series in r, given r². -/
def trigSeries (W r2 : Nat) : (fuel j t : Nat) → (pos : Bool) → Nat × Nat
  | 0, _, _, _ => (0, 0)
  | f + 1, j, t, pos =>
    if t = 0 then (0, 0)
    else
      let (a, b) := trigSeries W r2 f (j + 2) (t * r2 / 2 ^ W / ((j + 1) * (j + 2))) (!pos)
      if pos then (a + t, b) else (a, b + t)

/-- sin r for 0 ≤ r < 2. -/
def sinFix (W r : Nat) : Int :=
  let (a, b) := trigSeries W (r * r / 2 ^ W) 300 1 r true
  (a : Int) - b

/-- cos r for 0 ≤ r < 2. -/
def cosFix (W r : Nat) : Int :=
  let (a, b) := trigSeries W (r * r / 2 ^ W) 300 0 (2 ^ W) true
  (a : Int) - b

/-! ## The functions at ±m × 2^e, as integers scaled by 2^W -/

/-- |x| scaled by 2^k, truncated. -/
def absFix (k : Nat) (m : Nat) (e : Int) : Nat :=
  let (p, q) := pow2Frac (e + k)
  m * p / q

/-- 2^x for |x| below 4,096, with an integer power of two taken out: (fixed value in [1, 2], power). -/
def exp2Fix (W : Nat) (neg : Bool) (m : Nat) (e : Int) : Nat × Int :=
  let a : Int := absFix W m e
  let x : Int := if neg then -a else a
  let n := Int.fdiv x (2 ^ W)
  let f := (x - n * 2 ^ W).toNat
  (expFix W (f * ln2Fix W / 2 ^ W), n)

/-- log2 of m × 2^e. -/
def log2Fix (W m : Nat) (e : Int) : Int :=
  let l := Nat.log2 m
  let u := m * 2 ^ W / 2 ^ l
  let z := (u - 2 ^ W) * 2 ^ W / (u + 2 ^ W)
  ((l : Int) + e) * 2 ^ W + ((2 * atanhFix W z * 2 ^ W / ln2Fix W : Nat) : Int)

/-- The quadrant and the remainder of |x| by π/2. -/
def trigReduce (W m : Nat) (e : Int) : Nat × Nat :=
  let x := (Nat.log2 m : Int) + e
  let g := (if x < 0 then 0 else x).toNat + 8
  let V := W + g
  let h := piHalfFix V
  let a := absFix V m e
  let q := a / h
  (q % 4, (a - q * h) / 2 ^ g)

/-- sin |x|. -/
def sinAbs (W m : Nat) (e : Int) : Int :=
  let (q, r) := trigReduce W m e
  match q with
  | 0 => sinFix W r
  | 1 => cosFix W r
  | 2 => -(sinFix W r)
  | _ => -(cosFix W r)

/-- cos |x|. -/
def cosAbs (W m : Nat) (e : Int) : Int :=
  let (q, r) := trigReduce W m e
  match q with
  | 0 => cosFix W r
  | 1 => -(sinFix W r)
  | 2 => -(cosFix W r)
  | _ => sinFix W r

/-- tanh |x|, for |x| below W. -/
def tanhAbs (W m : Nat) (e : Int) : Nat :=
  let y := absFix W m (e + 1)
  let l := ln2Fix W
  let n := y / l
  let t := expFix W (y - n * l) * 2 ^ n
  (t - 2 ^ W) * 2 ^ W / (t + 2 ^ W)

/-! ## Rounding an interval -/

/-- The common rounding of every real within 2^20 units of `v`, scaled by 2^(W − sh); none where the
ends differ. -/
def roundNear (f : Fmt) (rm : Nat) (sat : Bool) (W : Nat) (v sh : Int) : Option (Nat × Conds) :=
  let neg := decide (v < 0)
  let a := v.natAbs
  if a ≤ 2 ^ 21 then none
  else
    let (p, q) := pow2Frac sh
    let lo := roundTo f rm sat neg ((2 * (a - 2 ^ 20) + 1) * p) (2 ^ (W + 1) * q)
    let hi := roundTo f rm sat neg ((2 * (a + 2 ^ 20) - 1) * p) (2 ^ (W + 1) * q)
    if lo = hi then some lo else none

/-- The rounding of `v`, scaled by 2^(W − sh), itself. -/
def roundAt (f : Fmt) (rm : Nat) (sat : Bool) (W : Nat) (v sh : Int) : Nat × Conds :=
  let (p, q) := pow2Frac sh
  roundTo f rm sat (decide (v < 0)) (v.natAbs * p) (2 ^ W * q)

/-- The rounding with 224 bits, else with 704 bits, which tell a value of these functions at an operand of a format of
FPS from every number at which the rounding changes (DEDUCED, log 11). -/
def refine (f : Fmt) (rm : Nat) (sat : Bool) (g : (W : Nat) → Int × Int) : Nat × Conds :=
  match roundNear f rm sat 224 (g 224).1 (g 224).2 with
  | some r => r
  | none => roundAt f rm sat 704 (g 704).1 (g 704).2

/-! ## Square roots -/

/-- Newton's iteration for the floor of a square root, from above. -/
def isqrtStep (n : Nat) : (fuel x : Nat) → Nat
  | 0, x => x
  | f + 1, x =>
    let y := (x + n / x) / 2
    if y < x then isqrtStep n f y else x

/-- floor(√n). -/
def isqrt (n : Nat) : Nat := if n = 0 then 0 else isqrtStep n 64 (2 ^ (Nat.log2 n / 2 + 1))

/-- √(m × 2^e), m ≠ 0, as a fraction that rounds as the root does: 2s + sticky over 2^81. -/
def sqrtFrac (m : Nat) (e : Int) : Nat × Nat :=
  let (m, e) := if e % 2 = 0 then (m, e) else (2 * m, e - 1)
  let n := m * 2 ^ 160
  let s := isqrt n
  let (p, q) := pow2Frac (e / 2)
  ((2 * s + (if s * s = n then 0 else 1)) * p, 2 ^ 81 * q)

/-- 1/√(m × 2^e), m ≠ 0, in the same form. -/
def rsqFrac (m : Nat) (e : Int) : Nat × Nat :=
  let (m, e) := if e % 2 = 0 then (m, e) else (2 * m, e - 1)
  let s := isqrt (2 ^ 320 / m)
  let (p, q) := pow2Frac (-(e / 2))
  ((2 * s + (if s * s * m = 2 ^ 320 then 0 else 1)) * p, 2 ^ 161 * q)

/-! ## The instructions' functions on one code (R167, R168) -/

/-- 1.0 in a format. -/
def oneCode (f : Fmt) : Nat := f.bias * 2 ^ f.mb

/-- FRCP. -/
def frcpF (f : Fmt) (rm : Nat) (sat : Bool) (c : Nat) : Nat × Conds :=
  finishF f rm sat (divF (.fin false 1 0) (decodeF f c))

/-- FSQRT. -/
def fsqrtF (f : Fmt) (rm : Nat) (sat : Bool) (c : Nat) : Nat × Conds :=
  match decodeF f c with
  | .nan => (canonNan f, 0)
  | .inf n => if n then (canonNan f, condNV) else (c, 0)
  | .fin n m e =>
    if m = 0 then (c, 0)
    else if n then (canonNan f, condNV)
    else
      let (a, b) := sqrtFrac m e
      roundTo f rm sat false a b

/-- FRSQ. -/
def frsqF (f : Fmt) (rm : Nat) (sat : Bool) (c : Nat) : Nat × Conds :=
  match decodeF f c with
  | .nan => (canonNan f, 0)
  | .inf n => if n then (canonNan f, condNV) else (0, 0)
  | .fin n m e =>
    if m = 0 then (withSign f n (infCode f), condDZ)
    else if n then (canonNan f, condNV)
    else
      let (a, b) := rsqFrac m e
      roundTo f rm sat false a b

/-- FEXP2. -/
def fexp2F (f : Fmt) (rm : Nat) (sat : Bool) (c : Nat) : Nat × Conds :=
  match decodeF f c with
  | .nan => (canonNan f, 0)
  | .inf n => if n then (0, 0) else (infCode f, 0)
  | .fin n m e =>
    if m = 0 then (oneCode f, 0)
    else if (12 : Int) ≤ (Nat.log2 m : Int) + e then
      -- |x| ≥ 4,096: beyond every format of FPS, rounded as 2^±4,096 is (R31, R162)
      let (a, b) := pow2Frac (if n then -4096 else 4096)
      roundTo f rm sat false a b
    else
      let (p, q) := pow2Frac e
      if m * p % q = 0 then
        let k : Int := (m * p / q : Nat)
        let (a, b) := pow2Frac (if n then -k else k)
        roundTo f rm sat false a b
      else
        refine f rm sat fun W => let (v, k) := exp2Fix W n m e; ((v : Int), k)

/-- FLOG2. -/
def flog2F (f : Fmt) (rm : Nat) (sat : Bool) (c : Nat) : Nat × Conds :=
  match decodeF f c with
  | .nan => (canonNan f, 0)
  | .inf n => if n then (canonNan f, condNV) else (c, 0)
  | .fin n m e =>
    if m = 0 then (withSign f true (infCode f), condDZ)
    else if n then (canonNan f, condNV)
    else if m = 2 ^ Nat.log2 m then
      let k : Int := (Nat.log2 m : Int) + e
      roundTo f rm sat (decide (k < 0)) k.natAbs 1
    else refine f rm sat fun W => (log2Fix W m e, 0)

/-- FSIN. -/
def fsinF (f : Fmt) (rm : Nat) (sat : Bool) (c : Nat) : Nat × Conds :=
  match decodeF f c with
  | .nan => (canonNan f, 0)
  | .inf _ => (canonNan f, condNV)
  | .fin n m e =>
    if m = 0 then (c, 0)
    else refine f rm sat fun W => let v := sinAbs W m e; (if n then -v else v, 0)

/-- FCOS. -/
def fcosF (f : Fmt) (rm : Nat) (sat : Bool) (c : Nat) : Nat × Conds :=
  match decodeF f c with
  | .nan => (canonNan f, 0)
  | .inf _ => (canonNan f, condNV)
  | .fin _ m e =>
    if m = 0 then (oneCode f, 0)
    else refine f rm sat fun W => (cosAbs W m e, 0)

/-- FTANH. -/
def ftanhF (f : Fmt) (rm : Nat) (sat : Bool) (c : Nat) : Nat × Conds :=
  match decodeF f c with
  | .nan => (canonNan f, 0)
  | .inf n => (withSign f n (oneCode f), 0)
  | .fin n m e =>
    if m = 0 then (c, 0)
    else if (7 : Int) ≤ (Nat.log2 m : Int) + e then
      -- |x| ≥ 128: strictly between 1 − 2^−256 and 1
      roundTo f rm sat n (2 ^ 256 - 1) (2 ^ 256)
    else refine f rm sat fun W =>
      let v : Int := tanhAbs W m e
      (if n then -v else v, 0)

end Sys2Proof.Machine
end

