-- ==== Sys2Proof/Machine/LaneFloat.lean ====
section
/-! DEFINITION. LaneFloat.lean: per-lane floating point, conversions, RNG, the microscaling helpers, the
gang reductions, FDOT2 and CMP24 (R159 to R178). -/

namespace Sys2Proof.Machine

/-! ## Type sets (R159) and element formats -/

def setFp (t : Nat) : Bool := t == 4 || t == 5 || t == 6 || t == 7
def setFps (t : Nat) : Bool := t == 4 || t == 6 || t == 7
def setScal (t : Nat) : Bool := t == 4 || t == 5
def setF32 (t : Nat) : Bool := t == 4
def setHalf (t : Nat) : Bool := t == 6 || t == 7
def setC24 (t : Nat) : Bool := t == 6 || t == 7 || t == 10 || t == 12 || t == 13

/-- The floating-point format of an element type (R48). -/
def tyFmt (t : Nat) : Fmt :=
  if t = 5 then F64 else if t = 6 then F16 else if t = 7 then BF16
  else if t = 12 then E4M3 else if t = 13 then E5M2 else F32

/-- A floating-point element type. -/
def tyFloat (t : Nat) : Bool := (4 ≤ t && t ≤ 7) || t == 12 || t == 13

/-- The rounding mode is one of R30's, not RST (R160). -/
def notRst (m : BitVec 24) : Bool := mRound m != 5

/-! ## Shapes -/

/-- The values and conditions of the elements of a result. -/
def packRes (t : Nat) (rs : List (Nat × Conds)) : Nat × Conds :=
  (packElems (tyWidth t) (rs.map Prod.fst), orConds (rs.map Prod.snd))

/-- A result-producing body whose values carry conditions. -/
def floatBody (e : Iss) (d : Byte) (w : Nat → Bool) (f : Nat → Nat × Conds) : Eff :=
  resultBody e e.active d w (fun l => (f l).1) (fun l => (f l).2)

/-- An elementwise instruction of three registers: `f` takes the format, rounding, SAT and the codes of
a, b and the old d. -/
def float3 (s : State) (ty : Nat → Bool) (rounds : Bool) (d a b : Byte)
    (f : Fmt → Nat → Bool → Nat → Nat → Nat → Nat × Conds) : Host.Outcome State Fault Refusal :=
  issue s
    (fun e => legal e fun k =>
      ty (e.ty k) && (!rounds || notRst (e.mode k)) && dstOk e.n (e.ty k) d
        && srcOk e.n (e.ty k) a && srcOk e.n (e.ty k) b)
    fun e => floatBody e d (fun l => tyWide (e.lty l)) fun l =>
      let t := e.lty l
      let m := e.lmode l
      packRes t ((List.range (tyCount t)).map fun i =>
        f (tyFmt t) (mRound m) (mSat m) (elemOf t (rdT e.g t l a) i) (elemOf t (rdT e.g t l b) i)
          (elemOf t (rdT e.g t l d) i))

/-- An elementwise instruction of one source. -/
def float2 (s : State) (ty : Nat → Bool) (rounds : Bool) (d a : Byte)
    (f : Fmt → Nat → Bool → Nat → Nat × Conds) : Host.Outcome State Fault Refusal :=
  issue s
    (fun e => legal e fun k =>
      ty (e.ty k) && (!rounds || notRst (e.mode k)) && dstOk e.n (e.ty k) d
        && srcOk e.n (e.ty k) a)
    fun e => floatBody e d (fun l => tyWide (e.lty l)) fun l =>
      let t := e.lty l
      let m := e.lmode l
      packRes t ((List.range (tyCount t)).map fun i =>
        f (tyFmt t) (mRound m) (mSat m) (elemOf t (rdT e.g t l a) i))

/-! ## Arithmetic (R162, R163, R166) -/

def execFadd (d a b : Byte) (s : State) : Host.Outcome State Fault Refusal :=
  float3 s setFp true d a b fun f rm sat x y _ =>
    finishF f rm sat (addF rm (decodeF f x) (decodeF f y))

def execFsub (d a b : Byte) (s : State) : Host.Outcome State Fault Refusal :=
  float3 s setFp true d a b fun f rm sat x y _ =>
    finishF f rm sat (addF rm (decodeF f x) (negF (decodeF f y)))

def execFmul (d a b : Byte) (s : State) : Host.Outcome State Fault Refusal :=
  float3 s setFp true d a b fun f rm sat x y _ =>
    finishF f rm sat (mulF (decodeF f x) (decodeF f y))

def execFfma (d a b : Byte) (s : State) : Host.Outcome State Fault Refusal :=
  float3 s setFp true d a b fun f rm sat x y c =>
    finishF f rm sat (fmaF rm (decodeF f x) (decodeF f y) (decodeF f c))

def execFdiv (d a b : Byte) (s : State) : Host.Outcome State Fault Refusal :=
  float3 s setFp true d a b fun f rm sat x y _ =>
    finishF f rm sat (divF (decodeF f x) (decodeF f y))

/-- FSCALE (R162): n is b as I32, or its element as I16 under a packed type. -/
def execFscale (d a b : Byte) (s : State) : Host.Outcome State Fault Refusal :=
  issue s
    (fun e => legal e fun k =>
      setFp (e.ty k) && notRst (e.mode k) && dstOk e.n (e.ty k) d && srcOk e.n (e.ty k) a
        && declOk e.n b)
    fun e => floatBody e d (fun l => tyWide (e.lty l)) fun l =>
      let t := e.lty l
      let m := e.lmode l
      packRes t ((List.range (tyCount t)).map fun i =>
        let n := if tyCount t = 1 then signed (rd e.g l b) 32
          else signed (elemOf t (rd e.g l b) i) 16
        finishF (tyFmt t) (mRound m) (mSat m)
          (scaleF (decodeF (tyFmt t) (elemOf t (rdT e.g t l a) i)) n))

def execFmin (d a b : Byte) (s : State) : Host.Outcome State Fault Refusal :=
  float3 s setFp false d a b fun f _ _ x y _ => (minmaxF f false x y, 0)

def execFmax (d a b : Byte) (s : State) : Host.Outcome State Fault Refusal :=
  float3 s setFp false d a b fun f _ _ x y _ => (minmaxF f true x y, 0)

/-- The magnitude bits of a code. -/
def magF (f : Fmt) (x : Nat) : Nat := x % 2 ^ (f.eb + f.mb)

def execFabs (d a : Byte) (s : State) : Host.Outcome State Fault Refusal :=
  float2 s setFp false d a fun f _ _ x => (magF f x, 0)

def execFneg (d a : Byte) (s : State) : Host.Outcome State Fault Refusal :=
  float2 s setFp false d a fun f _ _ x => ((x + 2 ^ (f.eb + f.mb)) % 2 ^ fmtWidth f, 0)

def execFrint (d a : Byte) (s : State) : Host.Outcome State Fault Refusal :=
  float2 s setFp true d a fun f rm _ x => (frintF f rm x, 0)

/-! ## Special functions (R167, R168) -/

def execFrcp (d a : Byte) (s : State) : Host.Outcome State Fault Refusal :=
  float2 s setFp true d a frcpF
def execFrsq (d a : Byte) (s : State) : Host.Outcome State Fault Refusal :=
  float2 s setFps true d a frsqF
def execFsqrt (d a : Byte) (s : State) : Host.Outcome State Fault Refusal :=
  float2 s setFp true d a fsqrtF
def execFexp2 (d a : Byte) (s : State) : Host.Outcome State Fault Refusal :=
  float2 s setFps true d a fexp2F
def execFlog2 (d a : Byte) (s : State) : Host.Outcome State Fault Refusal :=
  float2 s setFps true d a flog2F
def execFsin (d a : Byte) (s : State) : Host.Outcome State Fault Refusal :=
  float2 s setFps true d a fsinF
def execFcos (d a : Byte) (s : State) : Host.Outcome State Fault Refusal :=
  float2 s setFps true d a fcosF
def execFtanh (d a : Byte) (s : State) : Host.Outcome State Fault Refusal :=
  float2 s setFps true d a ftanhF

/-! ## Compare and classify (R164, R165) -/

/-- FCMP's condition on two codes (R164). -/
def fcmpF (f : Fmt) (c x y : Nat) : Bool :=
  match decodeF f x, decodeF f y with
  | .nan, _ => c == 1 || c == 6
  | _, .nan => c == 1 || c == 6
  | u, v =>
    let z := cmpF u v
    match c with
    | 0 => decide (z = 0)
    | 1 => decide (z ≠ 0)
    | 2 => decide (z < 0)
    | 3 => decide (z ≤ 0)
    | 4 => decide (0 < z)
    | 5 => decide (0 ≤ z)
    | 6 => false
    | _ => true

/-- FCMP (R164). -/
def execFcmp (c d : BitVec 3) (a b : Byte) (s : State) : Host.Outcome State Fault Refusal :=
  issue s
    (fun e => legal e fun k =>
      setScal (e.ty k) && srcOk e.n (e.ty k) a && srcOk e.n (e.ty k) b)
    fun e => predBody e d.toNat (fun l =>
      fcmpF (tyFmt (e.lty l)) c.toNat (rdT e.g (e.lty l) l a) (rdT e.g (e.lty l) l b)) noConds

/-- The class bit of a code (R165). -/
def classF (f : Fmt) (x : Nat) : Nat :=
  let neg := x / 2 ^ (f.eb + f.mb) % 2 == 1
  match decodeF f x with
  | .nan => 2 ^ 8
  | .inf n => if n then 1 else 2 ^ 7
  | .fin _ m _ =>
    if m = 0 then (if neg then 2 ^ 3 else 2 ^ 4)
    else if magF f x < 2 ^ f.mb then (if neg then 2 ^ 2 else 2 ^ 5)
    else (if neg then 2 ^ 1 else 2 ^ 6)

/-- FCLASS (R165): a 32-bit mask. -/
def execFclass (d a : Byte) (s : State) : Host.Outcome State Fault Refusal :=
  issue s
    (fun e => legal e fun k => setFp (e.ty k) && declOk e.n d && srcOk e.n (e.ty k) a)
    fun e => resultBody e e.active d (fun _ => false)
      (fun l =>
        let t := e.lty l
        ((List.range (tyCount t)).map fun i =>
          2 ^ (16 * i) * classF (tyFmt t) (elemOf t (rdT e.g t l a) i)).sum) noConds

/-! ## Conversion (R169, R170) -/

/-- The conversion of one element from type `st` to type `tt` (R169). Between equal floating formats the
value keeps its bits but for a canonical NaN and, with SAT, an infinity (R31). -/
def convElem (st tt rm : Nat) (sat : Bool) (x : Nat) : Nat × Conds :=
  if tyFloat st then
    if tyFloat tt then cvtFF (tyFmt tt) rm sat (decodeF (tyFmt st) x)
    else cvtFI (tyWidth tt) (intLo tt) (intHi tt) rm (decodeF (tyFmt st) x)
  else if tyFloat tt then cvtIF (tyFmt tt) rm sat (intVal st x)
  else (satWrap tt sat (intVal st x), 0)

/-- The value with element `i` of type `t` replaced. -/
def putElem (t v i x : Nat) : Nat :=
  let w := tyWidth t
  v - elemOf t v i * 2 ^ (w * i) + x % 2 ^ w * 2 ^ (w * i)

/-- CVT's result from source value `a` and the old d (R169). -/
def cvtVal (st tt p rm : Nat) (sat : Bool) (a old : Nat) : Nat × Conds :=
  let ns := tyCount st
  let nt := tyCount tt
  if nt ≤ ns then
    packRes tt ((List.range nt).map fun j => convElem st tt rm sat (elemOf st a (p * nt + j)))
  else
    (List.range ns).foldl (fun r j =>
      let (v, c) := convElem st tt rm sat (elemOf st a j)
      (putElem tt r.1 (p * ns + j) v, r.2 ||| c)) (old, 0)

/-- CVT's checks that depend on the mode word (R169). -/
def cvtOk (n : Nat) (m : BitVec 24) (d a : Byte) (p tt : Nat) : Bool :=
  let st := mType m
  let ns := tyCount st
  let nt := tyCount tt
  setAny st && srcOk n st a && dstOk n tt d
    && (if nt ≤ ns then decide (p < ns / nt) else decide (p < nt / ns))
    && (!(tyFloat st || tyFloat tt) || notRst m)

/-- CVT (R169). -/
def execCvt (d a : Byte) (p : BitVec 2) (t : BitVec 4) (s : State) :
    Host.Outcome State Fault Refusal :=
  issue s (fun e => legal e fun k => cvtOk e.n (e.mode k) d a p.toNat t.toNat)
    fun e => floatBody e d (fun _ => tyWide t.toNat) fun l =>
      cvtVal (e.lty l) t.toNat p.toNat (mRound (e.lmode l)) (mSat (e.lmode l))
        (rdT e.g (e.lty l) l a) (rd e.g l d)

/-- The target type of CVTSR's FMT code (R170). -/
def cvtsrTy (f : Nat) : Nat :=
  if f = 0 then 4 else if f = 1 then 6 else if f = 2 then 7 else if f = 3 then 12 else 13

/-- The stochastic conversion of one value (R34). -/
def convStoch (dst : Fmt) (sat : Bool) (x : FVal) (rnd : Nat) : Nat × Conds :=
  match x with
  | .fin n m e => let (p, q) := pow2Frac e; roundStoch dst sat n (m * p) q rnd
  | y => cvtFF dst 0 sat y

/-- CVTSR (R170). -/
def execCvtsr (d a : Byte) (f : BitVec 3) (p : BitVec 2) (r : BitVec 3) (s : State) :
    Host.Outcome State Fault Refusal :=
  issue s
    (fun e => legal e fun k =>
      setScal (e.ty k) && srcOk e.n (e.ty k) a && declOk e.n d && (f != 0 || e.ty k == 5))
    fun e => floatBody e d (fun _ => false) fun l =>
      let t := e.lty l
      let tt := cvtsrTy f.toNat
      let (q, c) := convStoch (tyFmt tt) (mSat (e.lmode l)) (decodeF (tyFmt t) (rdT e.g t l a))
        (rd e.g l (r.zeroExtend 8))
      (if f = 0 then q else putElem tt (rd e.g l d) p.toNat q, c)

/-! ## RNG (R171) -/

/-- The random word of R171. -/
def rngWord (seed kord stream i : Nat) : Nat :=
  let gamma := 0x9E3779B97F4A7C15
  let z := (seed + (kord + 1) * gamma) % 2 ^ 64
  let z := mix64 (Nat.xor z (stream * 2 ^ 32 + i))
  mix64 ((z + gamma) % 2 ^ 64) / 2 ^ 32

/-- RNG (R171). -/
def execRng (d a str : Byte) (s : State) : Host.Outcome State Fault Refusal :=
  issue s (fun e => legal e fun _ => declOk e.n d && declOk e.n a)
    fun e => resultBody e e.active d (fun _ => false)
      (fun l => rngWord e.ctx.desc.seed.toNat e.kern.ord str.toNat (rd e.g l a)) noConds

/-! ## Microscaling helpers (R172 to R174) -/

/-- The QMX word of lane `l` (R172). -/
def qmxWord (e : Iss) (a : Byte) (f : Nat) (l : Nat) : Nat × Conds :=
  match mxScale f (e.active.map fun j => decodeF F32 (rd e.g j a)) with
  | none => (f * 2 ^ 16 + 0xFF * 2 ^ 8, condNV)
  | some x =>
    let (c, k) := mxElem f (mRound (e.lmode l)) x (decodeF F32 (rd e.g l a))
    (f * 2 ^ 16 + (x + 127).toNat * 2 ^ 8 + c, k)

/-- QMX (R172). -/
def execQmx (d a : Byte) (f : BitVec 3) (s : State) : Host.Outcome State Fault Refusal :=
  issue s
    (fun e => legal e fun k =>
      setF32 (e.ty k) && notRst (e.mode k) && declOk e.n d && declOk e.n a)
    fun e => floatBody e d (fun _ => false) (qmxWord e a f.toNat)

/-- The F32 value DQMX writes (R173). -/
def dqmxVal (rm : Nat) (sat : Bool) (a b : Nat) : Nat × Conds :=
  let f := bits a 19 16
  let sc := bits b 15 8
  if f < 2 ∨ 7 < f then (canonNan F32, condNV)
  else if sc = 0xFF then (canonNan F32, 0)
  else
    match elemValue f (a % 2 ^ elemWidth f) with
    | .fin n m e => let (p, q) := pow2Frac (e + (sc : Int) - 127); roundTo F32 rm sat n (m * p) q
    | v => cvtFF F32 rm sat v

/-- DQMX (R173). -/
def execDqmx (d a b : Byte) (s : State) : Host.Outcome State Fault Refusal :=
  issue s
    (fun e => legal e fun k =>
      setF32 (e.ty k) && notRst (e.mode k) && declOk e.n d && declOk e.n a && declOk e.n b)
    fun e => floatBody e d (fun _ => false) fun l =>
      dqmxVal (mRound (e.lmode l)) (mSat (e.lmode l)) (rd e.g l a) (rd e.g l b)

/-- The bit string of PACKL (R174). -/
def packString (e : Iss) (a : Byte) (w : Nat) : Nat :=
  packElems w ((List.range 32).map fun l => if e.active.contains l then rd e.g l a else 0)

/-- PACKL's format: bits [3:0] of b in the lowest active lane (R174). -/
def packFmt (e : Iss) (b : Byte) : Nat := bits (rd e.g (e.active.headD 0) b) 3 0

/-- PACKL (R174). A format above 8 raises ILLEGAL_OP at the slice of the lowest active lane. -/
def execPackl (d a b : Byte) (s : State) : Host.Outcome State Fault Refusal :=
  issue s
    (fun e => (legal e fun _ => declOk e.n d && declOk e.n a && declOk e.n b).and
      (if !e.active.isEmpty && decide (8 < packFmt e b) then
        .fault (e.active.headD 0 / 4) .illegalOp 0 else .go))
    fun e =>
      let w := elemWidth (packFmt e b)
      resultBody e e.active d (fun _ => false)
        (fun l => if l < w then packString e a w / 2 ^ (32 * l) % 2 ^ 32 else 0) noConds

/-- UNPACKL (R174). -/
def execUnpackl (d a : Byte) (f : BitVec 4) (s : State) : Host.Outcome State Fault Refusal :=
  issue s (fun e => legal e fun _ => declOk e.n d && declOk e.n a)
    fun e =>
      let w := elemWidth f.toNat
      let str := packElems 32 ((List.range w).map fun j =>
        if e.active.contains j then rd e.g j a else 0)
      resultBody e e.active d (fun _ => false)
        (fun l => f.toNat * 2 ^ 16 + str / 2 ^ (w * l) % 2 ^ w) noConds

/-! ## Gang reductions (R175, R176) -/

/-- The greatest magnitude of element `i` over the active lanes, read at type `t` (R175). -/
def gamaxElem (e : Iss) (a : Byte) (t i : Nat) : Nat :=
  let f := tyFmt t
  e.active.foldl (fun m l => minmaxF f true m (magF f (elemOf t (rdT e.g t l a) i))) 0

/-- GAMAX (R175). -/
def execGamax (d a : Byte) (s : State) : Host.Outcome State Fault Refusal :=
  issue s
    (fun e => legal e fun k => setFps (e.ty k) && dstOk e.n (e.ty k) d && srcOk e.n (e.ty k) a)
    fun e => resultBody e e.active d (fun _ => false)
      (fun l => mapElems (e.lty l) (gamaxElem e a (e.lty l))) noConds

/-- One element of GRED over the active lanes, read at type `t` (R176): sub 0 SUM, 1 MAX, 2 MIN. -/
def gredElem (e : Iss) (a : Byte) (sub t i : Nat) : Nat × Conds :=
  let f := tyFmt t
  let canon := fun (x : Nat) => if decodeF f x = .nan then canonNan f else x
  let v := fun l => elemOf t (rdT e.g t l a) i
  if sub = 0 then
    let (r, c) := treeRoot f 5 ((List.range 32).map fun l =>
      if e.active.contains l then some (v l) else none)
    (canon (r.getD 0), c)
  else
    match e.active with
    | [] => (0, 0)
    | l :: ls => (canon <| ls.foldl (fun m j => minmaxF f (sub == 1) m (v j)) (v l), 0)

/-- GRED (R176). -/
def execGred (d a : Byte) (sub : BitVec 2) (s : State) : Host.Outcome State Fault Refusal :=
  issue s
    (fun e => legal e fun k =>
      setFp (e.ty k) && notRst (e.mode k) && dstOk e.n (e.ty k) d && srcOk e.n (e.ty k) a)
    fun e => floatBody e d (fun l => tyWide (e.lty l)) fun l =>
      packRes (e.lty l) ((List.range (tyCount (e.lty l))).map (gredElem e a sub.toNat (e.lty l)))

/-! ## FDOT2 and CMP24 (R177, R178) -/

/-- A finite term ±m × 2^x. -/
structure Term where
  neg  : Bool
  mant : Nat
  exp  : Int
deriving DecidableEq, Repr

/-- The exact sum of finite terms, rounded sign of zero included (R160). -/
def sumTerms (rm : Nat) (ts : List Term) : Exact :=
  let e := ts.foldl (fun m t => if t.exp < m then t.exp else m) ((ts.head?.map Term.exp).getD 0)
  let z : Int := (ts.map fun t =>
    (if t.neg then -1 else 1) * ((t.mant * 2 ^ (t.exp - e).toNat : Nat) : Int)).sum
  if z = 0 then
    .fin (if ts.all Term.neg then true else if ts.any Term.neg then rm == 3 else false) 0 1
  else finExact (decide (z < 0)) z.natAbs e

/-- The finite terms of a list of values. -/
def finTerms (vs : List FVal) : List Term :=
  vs.filterMap fun v => match v with
    | .fin n m e => some ⟨n, m, e⟩
    | _ => none

/-- The exact sum of values, none of them a product 0 × ∞ (R177). -/
def sumF (rm : Nat) (vs : List FVal) : Exact :=
  if vs.contains .nan then .nan false
  else if vs.contains (.inf false) && vs.contains (.inf true) then .nan true
  else if vs.contains (.inf false) then .inf false false
  else if vs.contains (.inf true) then .inf true false
  else sumTerms rm (finTerms vs)

/-- FDOT2 on codes (R177). -/
def fdot2F (f : Fmt) (rm : Nat) (sat : Bool) (a b c : Nat) : Nat × Conds :=
  let w := fmtWidth f
  let x := [decodeF f (a % 2 ^ w), decodeF f (a / 2 ^ w % 2 ^ w)]
  let y := [decodeF f (b % 2 ^ w), decodeF f (b / 2 ^ w % 2 ^ w)]
  let z := decodeF F32 c
  let ps := List.zipWith mulV x y
  let z' := if (z :: (x ++ y)).contains .nan then .nan false
    else if ps.contains none then .nan true
    else sumF rm (z :: ps.filterMap id)
  finishF F32 rm sat z'

/-- FDOT2 (R177). -/
def execFdot2 (d a b : Byte) (s : State) : Host.Outcome State Fault Refusal :=
  issue s
    (fun e => legal e fun k =>
      setHalf (e.ty k) && notRst (e.mode k) && declOk e.n d && declOk e.n a && declOk e.n b)
    fun e => floatBody e d (fun _ => false) fun l =>
      fdot2F (tyFmt (e.lty l)) (mRound (e.lmode l)) (mSat (e.lmode l)) (rd e.g l a) (rd e.g l b)
        (rd e.g l d)

/-- The rank of a code's magnitude for CMP24 (R178): a NaN above everything. -/
def cmp24Key (t x : Nat) : Nat :=
  if t = 10 then (signed x 8).natAbs
  else
    match decodeF (tyFmt t) x with
    | .nan => 2 ^ 32
    | _ => magF (tyFmt t) x

/-- The index of the largest key not excluded, lowest index first. -/
def bestIndex (ks : List Nat) (skip : Option Nat) : Nat :=
  ((List.range 4).filter fun i => some i != skip).foldl (fun b i =>
    if some b == skip || nth ks b 0 < nth ks i 0 then i else b) (if skip == some 0 then 1 else 0)

/-- The two kept indices, in ascending order (R178). -/
def cmp24Pick (ks : List Nat) : Nat × Nat :=
  let i := bestIndex ks none
  let j := bestIndex ks (some i)
  if i < j then (i, j) else (j, i)

/-- CMP24 on the four elements (R178): sub 0 VAL, 1 META. -/
def cmp24Val (t sub : Nat) (v : Nat) : Nat :=
  let w := tyWidth t
  let es := (List.range 4).map fun i => v / 2 ^ (w * i) % 2 ^ w
  let (i, j) := cmp24Pick (es.map (cmp24Key t))
  if sub = 0 then nth es i 0 + 2 ^ w * nth es j 0 else i + 4 * j

/-- CMP24 (R178). Under a half type a names a pair. -/
def execCmp24 (d a : Byte) (sub : BitVec 1) (s : State) : Host.Outcome State Fault Refusal :=
  issue s
    (fun e => legal e fun k =>
      setC24 (e.ty k) && declOk e.n d && (if setHalf (e.ty k) then pairOk e.n a else declOk e.n a))
    fun e => resultBody e e.active d (fun _ => false)
      (fun l => cmp24Val (e.lty l) sub.toNat
        (if setHalf (e.lty l) then rdPair e.g l a else rd e.g l a)) noConds

end Sys2Proof.Machine
end

