-- ==== Sys2Proof/Machine/Link.lean ====
section
/-! DEFINITION. Link.lean: requests of peer devices and their answers (R323, R333, R337, R338), loss of a die
or of a peer (R77, R330, R336) and the Hyloth links (R334, R335). -/

namespace Sys2Proof.Machine

/-! ## Requests of peer devices (R333, R337, R338) -/

/-- The partition that holds a die. -/
def partOfDie (s : State) (die : Nat) : Option Partition := s.ctl.parts.find? fun p => p.dies.contains die

/-- The physical address of a device offset of this module. -/
def ownPa (s : State) (off : Nat) : Nat := ownDev s.sys * 2 ^ 43 + off

/-- The answer to a peer's request, and the refusal of one (R333). -/
def answerPeer (s : State) (r : PeerReq) (cls : Nat) (data : List Byte) (note : Nat) : State :=
  answerTo s r.dev r.tag cls data note
def refusePeer (s : State) (r : PeerReq) : State := answerPeer s r 2 [] 1

/-- Whether the domain access table of partition `p` lists a requester, for a write or a read (R333,
R407). -/
def peerListed (s : State) (r : PeerReq) (p : Partition) (write : Bool) : Bool :=
  facilOpen s.ctl.parts p.id facDomain && (match p.policy with
    | some y => y.doms.any fun d => d.1 == r.dev && d.2.1 == r.part && (!write || d.2.2)
    | none => false)

/-- Whether `len` bytes at an offset pass the checks of R333. -/
def peerMay (s : State) (r : PeerReq) (off len : Nat) (write : Bool) : Bool :=
  decide (off + len ≤ devTop) && (match partOfDie s (homeDie off) with
    | none => false
    | some p => peerListed s r p write &&
        !(p.reserved.any fun x => decide (x.1 < off + len) && decide (off < x.1 + x.2)))

/-- Whether a request of `len` bytes at an offset is the next its grains serve: no transaction stands there (R326), and
the memory can be reached (R330). -/
def homeFree (s : State) (off len : Nat) : Bool := (txnsOn s.mem off len).isEmpty && homeUp s off

/-- The grain a READ of `len` bytes names (R193, R313). -/
def readGrainSize (off len : Nat) : Nat :=
  if off / 32 = (off + len - 1) / 32 then 32 else if off / 128 = (off + len - 1) / 128 then 128 else 512

/-- The frames that a run of bytes touches, by their offsets. -/
def frameBases (off len : Nat) : List Nat :=
  (List.range ((off + len - 1) / 512 + 1 - off / 512)).map fun j => 512 * (off / 512 + j)

/-- A peer READ granted a lease that ends at T: in each frame the owner is recalled, agent 9 recorded and HORIZON raised
(R326, R337). -/
def leaseRead (s : State) (r : PeerReq) (off len : Nat) : State :=
  let t := s.sys.ptp + s.sys.leaseNs
  let s := (frameBases off len).foldl (fun s b =>
    homeShare s 9 (Nat.max b off) (readGrainSize off len) (leaseWord t)) s
  let live := s.mem.leases.filter fun l => decide (s.sys.ptp < l.2.2)
  answerPeer { s with mem := { s.mem with leases := (r.dev, off, t) :: live } } r 1 (coRead s.mem off len) t

/-- A peer's READ: with a lease, or with data alone while a write of the grain waits on a horizon (R337). -/
def peerReadAt (s : State) (r : PeerReq) (off len : Nat) : State :=
  let ts := txnsOn s.mem off len
  if !homeUp s off then s
  else if ts.isEmpty then leaseRead s r off len
  else if ts.all fun t => t.outstanding == [9] then answerPeer s r 1 (coRead s.mem off len) 0
  else s

/-- The answer of class `cls` to a write that a peer's request makes: at once, or when the acknowledgements of the
invalidations are counted (R326). -/
def peerDone (s : State) (r : PeerReq) (cls : Nat) (data : List Byte) : State :=
  if writerWaits s.mem (.peer r.dev r.tag cls data) then s else answerPeer s r cls data 0

/-- A peer's store to device memory (R326, R333). -/
def peerWriteAt (s : State) (r : PeerReq) (off : Nat) (data : List Byte) : State :=
  peerDone (homeWrite s (.peer r.dev r.tag 2 []) 0 off data) r 2 []

/-- A peer's read-modify-write at its home (R223, R338). -/
def peerAtomicAt (s : State) (r : PeerReq) (op : AtOp) (sg : Bool) (off size : Nat) (opd cmp : Dbl) : State :=
  let old := coNat s.mem off size
  let w := natLe old size
  let t := match rmwNew op sg size old (opd.toNat % 2 ^ (8 * size)) (cmp.toNat % 2 ^ (8 * size)) with
    | some v => homeWrite s (.peer r.dev r.tag 1 w) 0 off (natLe v size)
    | none => s
  peerDone t r 1 w

/-- A transaction's writer renamed. -/
def renameWriter (m : Mem) (a b : Writer) : Mem :=
  { m with txns := m.txns.map fun t =>
      { t with writer := if t.writer == a then b else t.writer
               also := t.also.map fun x => if x == a then b else x } }

/-- A peer's fused append at the header's home (R96, R338). What the order asks before the append the peer has seen to
before it sent it, and what it asks after it follows the answer, so the home heeds none. -/
def peerEnqAt (s : State) (r : PeerReq) (off esize : Nat) (image : List Byte) : State :=
  let w := Writer.peer r.dev r.tag 1 []
  let (t, a) := qPerform s w (ownPa s off) true (some esize) image true
  let bs := ansBytes a.st a.idx
  peerDone { t with mem := renameWriter t.mem w (.peer r.dev r.tag 1 bs) } r 1 bs

/-- Bytes by their offsets as runs of adjacent bytes, in the order given. -/
def byteRuns (bs : List (Nat × Byte)) : List (Nat × List Byte) :=
  bs.foldr (fun b rs => match rs with
    | (o, l) :: rest => if o = b.1 + 1 then (b.1, b.2 :: l) :: rest else (b.1, [b.2]) :: rs
    | [] => [(b.1, [b.2])]) []

/-- A packet of a peer's PSTORE, whose bytes lie in one frame (R340). -/
def peerScatterAt (s : State) (r : PeerReq) (off : Nat) (bs : List (Nat × Byte)) : State :=
  peerDone ((byteRuns bs).foldl (fun s x => homeWrite s (.peer r.dev r.tag 2 []) 0 (off + x.1) x.2) s) r 2 []

/-- A peer's partial that the target refuses: its handle is not live, PEER_OK is clear or a field is out of
range (R268). -/
def peerPartialOk (s : State) (c : Ctx) (h : Word) (elem : Nat) (label : Word) (type : Nat) : Option AccSlot :=
  match liveAcc (ownDev s.sys) c h.toNat with
  | none => none
  | some a =>
    if a.flags.testBit 1 && type == accTy a.fmt && decide (elem < a.ecount)
        && labelOk a.nleaf (labelLevel label.toNat) (labelIndex label.toNat) then some a else none

/-- A peer's partial on its way to its element's home, by the target's switch ports (R338); one marked replay keeps its
mark (R273). -/
def peerPartial (s : State) (r : PeerReq) (c : Ctx) (a : AccSlot) (h : Word) (elem : Nat) (label : Word) (value : Dbl)
    (replay : Bool) : State :=
  let lab := normalise a.nleaf (labelLevel label.toNat) (labelIndex label.toNat)
  let x : Partial :=
    { id := s.exe.nextId, part := c.part, ctx := c.cid, kern := s.ctl.kernels.length, handle := h,
      elem := elem, level := lab.1, index := lab.2, value := value, replay := replay, acks := [],
      loc := .toPort (portOf s c a elem), since := s.sys.cycle, core := 0, tags := [(r.dev, r.tag)] }
  { s with
    exe := { s.exe with nextId := s.exe.nextId + 1 }
    ctl := { s.ctl with partials := s.ctl.partials ++ [x] } }

/-- What a checked peer request does. One that must wait behind a transaction on its grain, and one for memory that no
channel reaches, leaves the state as it is: it is served at a later event (R326, R330). -/
def peerPerform (s : State) (r : PeerReq) : State :=
  match r.op with
  | .read off len =>
    if peerMay s r off len false then peerReadAt s r off len else refusePeer s r
  | .write off data =>
    if !peerMay s r off data.length true || boundHeader s.ctl.queues (ownPa s off) data.length then refusePeer s r
    else if homeFree s off data.length then peerWriteAt s r off data else s
  | .atomic op sg off size opd cmp =>
    if !peerMay s r off size true then refusePeer s r
    else if homeFree s off size then peerAtomicAt s r op sg off size opd cmp else s
  | .enq off esize _ image =>
    if !peerMay s r off 64 true then refusePeer s r
    else if homeFree s off 64 then peerEnqAt s r off esize image else s
  | .scatter off bs =>
    if !peerMay s r off 512 true
        || (bs.any fun b => boundHeader s.ctl.queues (ownPa s (off + b.1)) 1) then refusePeer s r
    else if homeFree s off 512 then peerScatterAt s r off bs else s
  | .partialSum part cid h elem label value type replay =>
    match findPart s.ctl.parts part, findCtx s.ctl.ctxs part cid with
    | some p, some c =>
      match peerPartialOk s c h elem label type with
      | none => refusePeer s r
      | some a => if peerListed s r p true then peerPartial s r c a h elem label value replay else refusePeer s r
    | _, _ => refusePeer s r

/-- PEER_REQUEST (R333): a request with another incarnation than the one held for its sender, or from a device
that has been removed, is dropped (R323, R336). -/
def execPeerRequest (r : PeerReq) (s : State) : Host.Outcome State Fault Refusal :=
  if s.sys.domId = 0x1FF ∨ r.dev = ownDev s.sys ∨ 384 ≤ r.dev ∨ s.sys.lostPeers.contains r.dev = true
      ∨ r.inc ≠ (smGet s.sys.peerInc r.dev).toNat then .next s
  else .next (peerPerform s r)

/-- Whether a part of an operation goes to a peer device. -/
def peerPart (s : State) (o : MemOp) (p : MemPart) : Bool :=
  if o.kind == .contrib then handleDev p.aux != ownDev s.sys
  else p.len != 0 && !isLocal o && paPeer s p.pa

/-- Whether a part has been sent to a peer that has not answered. -/
def awaitsPeer (s : State) (o : MemOp) (p : MemPart) : Bool :=
  peerPart s o p && p.performed && !p.acked && p.got.isNone

/-- The virtual address that a packet of a copy names. -/
def copyNoteVa (c : Copy) (m : FabricOut) : Nat :=
  if c.kind = .l2g then ((nth c.rowVa (m.note % 256) none).getD 0).toNat else 32 * m.note

/-- REFUSED: the answer to a packet of an operation or of a copy halts the requesting context (R268, R333). -/
def execRefused (op : Nat) (s : State) : Host.Outcome State Fault Refusal :=
  match findOp s.mem op with
  | some o =>
    match o.parts.find? (awaitsPeer s o) with
    | none => .next s
    | some p =>
      let t := ackReq s op none
      if o.kind == .contrib then .next (opFault t o .illegalOp (BitVec.ofNat 64 p.aux) false)
      else .next (opFault t o .permFault p.va (!(isStore o || o.kind == .pstore)))
  | none =>
    match s.exe.copies.find? (fun c => c.id == op), s.sys.flight.find? fun m => m.tag == op with
    | some c, some m => .next (copyFault (ackReq s op none) c .permFault (copyNoteVa c m))
    | _, _ => .next s

/-! ## Loss of a die (R77, R323, R330) -/

/-- The offsets at which a byte of device memory stands that is not zero, or on its way home. -/
def listedOffsets (m : Mem) : List Nat :=
  m.bytes.map Prod.fst
    ++ (m.l2.filter fun b => b.expiry == none).flatMap (fun b =>
        (b.cells.zipIdx.filter fun c => c.1.dirty).flatMap fun c =>
          (List.range 32).map fun j => 512 * b.frame + 32 * (b.start + c.2) + j)
    ++ ((m.txns.flatMap fun t => t.acks.flatMap fun a => a.2.2) ++
        (m.notices.flatMap fun n => n.data.getD [])).map Prod.fst

/-- Whether a page or a table of the tree under table `t` is homed on `die`; `fuel` levels are left. -/
def homedOn (m : Mem) (own : Nat) (dies : List Nat) (die : Nat) (listed : List Nat) : (fuel t : Nat) → Bool
  | 0, _ => false
  | fuel + 1, t =>
    let off := paOff t
    if !tableOk own dies fuel t then false
    else if homeDie off == die then true
    else
      let slots := if m.keys.any fun k => k.1 == homeDie off then List.range (tableSize fuel / 8) else
        uniq ((listed.filter fun x => decide (off ≤ x) && decide (x < off + tableSize fuel)).map
        fun x => (x - off) / 8)
      slots.any fun i =>
        let e := coNat m (off + 8 * i) 8
        e % 2 == 1 && (if e.testBit 1 then
            paLocal own (leafPA e) && homeDie (paOff (leafPA e)) == die
          else homedOn m own dies die listed fuel (bits e 51 8 * 2 ^ 8))

/-- Whether a context has a page homed on a die, or a group resident there (R330). -/
def usesDie (s : State) (listed : List Nat) (die : Nat) (c : Ctx) : Bool :=
  (match findPart s.ctl.parts c.part with
    | some p => homedOn s.mem (ownDev s.sys) p.dies die listed 4 c.desc.ptRoot
    | none => false) ||
  s.exe.groups.any fun g => ofCtx s c.part c.cid g && resident g.state && coreDie g.core == die

/-- A modified grain that an agent holds: the agent, the context recorded with its block, base and size. -/
structure Orphan where
  agent : Nat
  part  : Nat
  ctx   : Nat
  grain : Nat
  size  : Nat
deriving DecidableEq, Repr

/-- The modified grains of a lost die's lines that the survivors hold, each once (R330). -/
def orphansOf (s : State) (die : Nat) : List Orphan :=
  let all := (s.mem.l2.filter fun b => b.die != die && b.expiry == none
      && homeDie (512 * b.frame) == die).flatMap fun b =>
    (b.cells.zipIdx.filter fun c => c.1.dirty).map fun c =>
      let e := dirGrow s.mem.dir (512 * b.frame + 32 * (b.start + c.2)) 32
      (⟨b.die, b.part, b.ctx, e.grain, e.size⟩ : Orphan)
  all.foldl (fun acc x => if acc.contains x then acc else acc ++ [x]) []

/-- A cell of an orphan as its agent holds it; of a cell it does not hold, whose home is lost, a free value (log
14). -/
def orphanCell (s : State) (agent cell : Nat) : List Byte :=
  match l2Cell s.mem.l2 0 agent (cell / 16) (cell % 16) with
  | some c => cellBytes c.data 0 32
  | none => cellBytes (peerCell s.exe.fresh (cell % 16)) 0 32

/-- The bytes of an orphan entry (R77). -/
def orphanBytes (s : State) (x : Orphan) : List Byte :=
  natLe (ownPa s x.grain) 8 ++ natLe x.size 2 ++ natLe x.agent 1 ++
    natLe (smGet s.sys.agentInc x.agent).toNat 1 ++ natLe 0 4 ++
    (List.range (x.size / 32)).flatMap fun j => orphanCell s x.agent (x.grain / 32 + j)

/-- A grain appended to the orphan log of its context; an entry that does not fit is dropped whole
(R77). -/
def logOrphan (s : State) (x : Orphan) : State :=
  match findCtx s.ctl.ctxs x.part x.ctx with
  | none => s
  | some c =>
    let half := c.desc.stopSize / 2
    if half < c.orphanNext + 16 + x.size then setCtx s { c with orphanLost := c.orphanLost + 1 }
    else
      vaBytes (setCtx s { c with orphans := c.orphans + 1, orphanNext := c.orphanNext + 16 + x.size }) c
        (c.desc.stopArea.toNat + half + c.orphanNext) (orphanBytes s x)

/-- An agent removed from every home (R323): its pointers, its owed acknowledgements, its queued
requests. -/
def removeAgent (s : State) (a : Nat) : State :=
  let m := { s.mem with
    dir := (s.mem.dir.map fun e => dirLeave e a).filter fun e => !dirEmpty s.sys.ptp e
    notices := s.mem.notices.filter fun n => n.agent != a
    txns := s.mem.txns.map fun (t : Txn) =>
      if t.own == some a then { t with own := none, writer := .nobody, wlen := 0 } else t }
  let ids := (m.txns.filter fun t => t.outstanding.contains a).map Txn.id
  ids.foldl (fun s i => match findTxn s.mem i with
    | some t => countAck s t a
    | none => s) { s with mem := m }

/-- The die that a TLB stands on (R317). -/
def tlbDie (place : Nat) : Nat := if place < 1024 then placeDie place else (place - 1024) / 48

/-- The groups' parts that stand on a lost die stopped: its slices and streams retire nothing more, and its copies are
gone (R330). -/
def stopDie (s : State) (die : Nat) : Exe :=
  let onDie := fun (gi : Nat) => match s.exe.groups[gi]? with
    | some g => resident g.state && coreDie g.core == die
    | none => false
  { s.exe with
    gangs := s.exe.gangs.map fun g => if onDie g.grp then
      { g with slices := g.slices.map fun x => { x with stopped := true } } else g
    groups := s.exe.groups.mapIdx fun i (g : Group) => if onDie i then
      { g with tile := g.tile.map fun t => { t with stopped := true } } else g
    copies := s.exe.copies.filter fun c => coreDie c.core != die }

/-- What a lost die held, and what the survivors hold of its lines, discarded (R330). -/
def dropLines (s : State) (die : Nat) : Mem :=
  let homed := fun (off : Nat) => homeDie off == die
  { s.mem with
    ops := s.mem.ops.filter fun o => coreDie o.core != die
    l1 := s.mem.l1.filter fun b => coreDie b.core != die
      && !(paLocal (ownDev s.sys) (512 * b.frame) && homed (paOff (512 * b.frame)))
    l2 := s.mem.l2.filter fun b => b.die != die && !(b.expiry == none && homed (512 * b.frame))
    homeBlocks := s.mem.homeBlocks.filter fun b => !homed (512 * b.frame)
    llc := s.mem.llc.filter fun l => !homed (512 * l.frame)
    dir := s.mem.dir.filter fun e => !homed e.grain
    txns := s.mem.txns.filter fun t => !homed t.grain
    notices := s.mem.notices.filter fun n => !homed n.grain
    hostBuf := s.mem.hostBuf.filter fun g => !homed g
    hubBuf := s.mem.hubBuf.filter fun g => !homed g
    leases := s.mem.leases.filter fun l => !homed l.2.1
    tlb := s.mem.tlb.filter fun t => tlbDie t.place != die
    upper := s.mem.upper.filter fun u => u.die != die
    walks := s.mem.walks.filter fun w => w.die != die
    icache := s.mem.icache.filter fun i => coreDie i.core != die }

/-- The die a partial stands on, if it stands on one. -/
def PLoc.die : PLoc → Option Nat
  | .toCore k => some (coreDie k)
  | .heldCore k => some (coreDie k)
  | .toPort k => some (k / 24)
  | .heldPort k => some (k / 24)
  | .heldHome h => some (h / 48)
  | .rooted h => some (h / 48)
  | .toHome => none

/-- What stood on a lost die is gone (R330). -/
def dropDie (s : State) (die : Nat) : State :=
  { s with
    exe := stopDie s die
    mem := dropLines s die
    ctl := { s.ctl with partials := s.ctl.partials.filter fun p => p.loc.die != some die } }

/-- The steps of R330. The lost die writes no record, so the hub names HOME_LOST. -/
def loseDie (s : State) (die : Nat) : State :=
  if s.sys.lostDies.contains die || decide (8 ≤ die) then s
  else
    let listed := listedOffsets s.mem
    let hit := s.ctl.ctxs.filter (usesDie s listed die)
    let orphans := orphansOf s die
    let s := hit.foldl (fun s c => addFault s (dispatcherRec s c.part c.cid .homeLost 0 0)) s
    let s := orphans.foldl logOrphan s
    let s := removeAgent (dropDie s die) die
    { s with sys := { s.sys with lostDies := die :: s.sys.lostDies } }

/-- DIE_LOST: an uncorrectable fault of a die's own logic, or no path to it for 20 µs (R330). -/
def execDieLost (die : Nat) (s : State) : Host.Outcome State Fault Refusal := .next (loseDie s die)

/-! ## Loss and re-admission of a peer (R323, R336) -/

/-- The device of a leased block's frame (R337). -/
def leasedDev (frame : Nat) : Nat := (frame - 2 ^ 43) / 2 ^ 34

/-- What becomes of an operation to a lost peer: a returning one raises LINK_LOSS, the parts of another are
lost and its kernel retires with LINK_LOSS (R96, R114, R336). -/
def loseOp (dev : Nat) (s : State) (o : MemOp) : State :=
  let gone := fun (p : MemPart) => peerPart s o p &&
    (if o.kind == .contrib then handleDev p.aux else paDev p.pa) == dev && !p.acked && p.got.isNone
  match o.parts.find? gone with
  | none => s
  | some p =>
    if o.cls == .l || o.kind == .sload then opFault s o .linkLoss p.va true
    else
      let t := noteLoss s o
      { t with mem := { t.mem with ops := modIf t.mem.ops (fun q => q.id == o.id) fun q =>
        { q with parts := modIf q.parts gone fun r => { r with performed := true, acked := true } } } }

/-- What becomes of a copy that names a lost peer: reads from it raise LINK_LOSS, and of writes to it what is left is
lost as it lands, while its kernel retires with LINK_LOSS. -/
def loseCopy (dev : Nat) (s : State) (c : Copy) : State :=
  match c.pages.find? fun p => paPeer s p.2.1 && paDev p.2.1 == dev with
  | none => s
  | some p =>
    if c.kind == .l2g then
      let t := noteLoss s (copyOp c)
      { t with exe := { t.exe with copies := modIf t.exe.copies (fun x => x.id == c.id) fun x => { x with sent := [] } } }
    else copyFault s c .linkLoss (p.1 * 2 ^ 16)

/-- The entries that leases of a lost peer stand behind keep the HORIZON of the other peers' leases alone; where there
are none they hold no lease (R336). -/
def expirePeer (s : State) (dev : Nat) : Mem :=
  let rest := s.mem.leases.filter fun l => l.1 != dev
  let on := fun (e : DirEntry) (l : Nat × Nat × Nat) => decide (e.grain ≤ l.2.1) && decide (l.2.1 < e.grain + e.size)
  let entry := fun (e : DirEntry) =>
    if s.mem.leases.any fun l => l.1 == dev && on e l then
      let h := (rest.filter (on e)).foldl (fun h l => laterHorizon h (leaseWord l.2.2)) 0
      { e with horizon := h, ptrs := if h = 0 then e.ptrs.filter fun a => a != 9 else e.ptrs }
    else e
  { s.mem with
    leases := rest
    dir := (s.mem.dir.map entry).filter fun e => !dirEmpty s.sys.ptp e || txnBusy s.mem e.grain }

/-- PEER_LOST (R336). -/
def execPeerLost (dev : Nat) (s : State) : Host.Outcome State Fault Refusal :=
  if s.sys.lostPeers.contains dev || dev == ownDev s.sys || decide (384 ≤ dev) then .next s
  else
    let t := s.mem.ops.foldl (loseOp dev) s
    let t := s.exe.copies.foldl (loseCopy dev) t
    let m := expirePeer t dev
    .next { t with
      mem := { m with
        l2 := m.l2.filter fun b => !(b.expiry.isSome && leasedDev b.frame == dev)
        l1 := m.l1.filter fun b => b.frame / 2 ^ 34 != dev }
      sys := { t.sys with
        lostPeers := dev :: t.sys.lostPeers
        flight := t.sys.flight.filter fun x => x.dev != dev } }

/-- PEER_READMISSION: a lost peer returns with its incarnation one higher, modulo 256; when it is this device that the
domain has re-admitted, its own incarnation rises (R323, R336). -/
def execPeerReadmission (dev : Nat) (s : State) : Host.Outcome State Fault Refusal :=
  if s.sys.domId ≠ 0x1FF ∧ dev = ownDev s.sys then
    .next { s with sys := { s.sys with ownInc := (s.sys.ownInc + 1) % 256 } }
  else if s.sys.lostPeers.contains dev then
    .next { s with sys := { s.sys with
      lostPeers := s.sys.lostPeers.filter fun d => d != dev
      peerInc := smSet s.sys.peerInc dev (smGet s.sys.peerInc dev + 1) } }
  else .next s

/-! ## Hyloth links (R334, R335) -/

/-- The state with link `j` changed where `f` gives a new one. -/
def onLink (s : State) (j : Nat) (f : Link → Option Link) : State :=
  match s.sys.links[j]? with
  | none => s
  | some l =>
    match f l with
    | none => s
    | some x => { s with sys := { s.sys with links := modAt s.sys.links j fun _ => x } }

/-- A link in a state that carries no traffic: no lane in use, no STOP held. -/
def Link.still (l : Link) (st : LState) : Link := { l with state := st, lanes := 0, stops := [], replays := 0 }

/-- Whether what is unacknowledged on a link stays with it: the link carries traffic or trains again. -/
def Link.keeps (l : Link) : Bool := l.carries || l.state == .training

/-- The unacknowledged packets whose link has gone down, or is in quarantine, take another (R334, R335). -/
def reroute (s : State) : State :=
  let keeps := fun (m : FabricOut) => m.link.any fun j => s.sys.links[j]?.any Link.keeps
  let again := fun (m : FabricOut) =>
    if keeps m then m else { m with link := m.req.bind fun r => routeOf s.sys m.dev (reqFrame r) }
  { s with sys := { s.sys with flight := s.sys.flight.map again } }

/-- The state with link `j` changed where `f` gives a new one, and what was in flight on it on a link that carries it. -/
def shiftLink (s : State) (j : Nat) (f : Link → Option Link) : State :=
  if (s.sys.links[j]?.bind f).isSome then reroute (onLink s j f) else s

/-- LINK_ENABLE: DOWN to TRAINING. In kickstand service and after a failed boot links stay DOWN (R402,
R412). -/
def execLinkEnable (link : Nat) (s : State) : Host.Outcome State Fault Refusal :=
  if s.sys.kickstand || s.sys.bootFailed.isSome then .next s
  else .next (onLink s link fun l =>
    if l.state == .down then some { l.still .training with attempts := 0 } else none)

/-- A link after its training with `lanes` working lanes, its keys the draw `no`. -/
def Link.trained (l : Link) (lanes farInc no : Nat) : Option Link :=
  if l.state == .training && decide (4 ≤ lanes) && decide (lanes ≤ 8) then
    some { l with state := if lanes = 8 then .up else .degraded, lanes := lanes, peerInc := farInc % 256,
                  attempts := 0, replays := 0, keyNo := no }
  else none

/-- LINK_TRAINED: TRAINING to UP with 8 lanes, to DEGRADED with 4 to 7; new link keys (R405). Packets that no link
carried take one that does. -/
def execLinkTrained (link lanes farInc : Nat) (s : State) : Host.Outcome State Fault Refusal :=
  match s.sys.links[link]?.bind fun l => l.trained lanes farInc s.sys.draws with
  | none => .next s
  | some x =>
    let t := shiftLink s link fun _ => some x
    .next { t with sys := { t.sys with draws := s.sys.draws + 1 } }

/-- LINK_TRAINING_FAIL: the third failed attempt leads to DOWN. -/
def execLinkTrainingFail (link : Nat) (s : State) : Host.Outcome State Fault Refusal :=
  .next (shiftLink s link fun l =>
    if l.state != .training then none
    else if l.attempts < 2 then some { l with attempts := l.attempts + 1 }
    else some { l.still .down with attempts := 0 })

/-- LANE_FAIL: a link that is UP retrains to its working lanes and is DEGRADED; a DEGRADED one that is left with fewer
than 4 is DOWN. -/
def execLaneFail (link working : Nat) (s : State) : Host.Outcome State Fault Refusal :=
  .next (shiftLink s link fun l =>
    if !l.carries || decide (8 < working) then none
    else if l.state = .degraded ∧ working < 4 then some (l.still .down)
    else some { l with state := .degraded, lanes := working })

/-- LINK_RETRAIN: sixteen replays of one flit, or loss of signal. -/
def execLinkRetrain (link : Nat) (s : State) : Host.Outcome State Fault Refusal :=
  .next (onLink s link fun l => if l.carries then some (l.still .training) else none)

/-- How often a flit has been replayed when it fails its CRC, after `n` replays of the flit `last`. -/
def replaysOf (last n flit : Nat) : Nat := if last = flit then n + 1 else 1

/-- The far die of a link between dies, as the hub sees it: of a bridge its compute die; of a die-to-die link the die
whose own path to the hub crosses the link, else the higher-numbered (DESIGN CHOICE, log 131). -/
def farDie (link : Nat) : Nat :=
  if 34 ≤ link then nth hubBridges (link - 34) 8
  else
    let p := nth dieLinks (link - 24) (8, 8)
    if (linksBetween 8 p.1).contains link then p.1 else p.2

/-- A replay on a link between dies counted; after sixteen of one flit the far die counts as unreachable (R410,
R330). -/
def dieReplay (s : State) (link flit : Nat) : State :=
  let n := match s.sys.dieReplays.find? fun x => x.1 == link with
    | some x => replaysOf x.2.1 x.2.2 flit
    | none => 1
  let rest := s.sys.dieReplays.filter fun x => x.1 != link
  if n < 16 then { s with sys := { s.sys with dieReplays := (link, flit, n) :: rest } }
  else loseDie { s with sys := { s.sys with dieReplays := rest } } (farDie link)

/-- A replay on a Hyloth link counted, RETRIES saturating at 4,095; the sixteenth of one flit sends the link to
TRAINING. -/
def Link.replay (l : Link) (flit : Nat) : Link :=
  let n := replaysOf l.flit l.replays flit
  let l := { l with retries := if l.retries < 4095 then l.retries + 1 else 4095, flit := flit }
  if n < 16 then { l with replays := n } else l.still .training

/-- FLIT_CRC_FAIL: the flit is replayed and counted. Links 0 to 23 are the Hyloth links, 24 to 33 the
die-to-die links and 34 to 37 the hub bridges (R10). -/
def execFlitCrcFail (flit : LinkFlit) (s : State) : Host.Outcome State Fault Refusal :=
  if 38 ≤ flit.link then .next s
  else if 24 ≤ flit.link then .next (dieReplay s flit.link flit.flit)
  else .next (onLink s flit.link fun l => if l.carries then some (l.replay flit.flit) else none)

/-- LINK_DISABLE: the link is drained, then DOWN: the event takes effect when no packet on it is unacknowledged. -/
def execLinkDisable (link : Nat) (s : State) : Host.Outcome State Fault Refusal :=
  if s.sys.flight.any fun m => m.link == some link then .next s
  else .next (onLink s link fun l => if l.carries then some (l.still .down) else none)

/-- Any state but DOWN leads to QUARANTINED, and what was in flight on the link takes another. -/
def quarantine (s : State) (link : Nat) : State :=
  shiftLink s link fun l => if l.state == .down then none else some (l.still .quarantined)

/-- LINK_QUARANTINE by management. -/
def execLinkQuarantine (link : Nat) (s : State) : Host.Outcome State Fault Refusal := .next (quarantine s link)

/-- GCM_TAG_FAIL: a failed tag or a changed far end (R334, R405). -/
def execGcmTagFail (link : Nat) (s : State) : Host.Outcome State Fault Refusal := .next (quarantine s link)

/-- LINK_RELEASE: QUARANTINED to DOWN. -/
def execLinkRelease (link : Nat) (s : State) : Host.Outcome State Fault Refusal :=
  .next (onLink s link fun l => if l.state == .quarantined then some (l.still .down) else none)

/-- STOP_GO_SIGNAL: a class is stopped or goes on. RSP and ACK are always sunk, so no receiver stops them
(R335). -/
def execStopGoSignal (link cls : Nat) (stop : Bool) (s : State) : Host.Outcome State Fault Refusal :=
  .next (onLink s link fun l =>
    if !l.carries || (cls != 0 && cls != 3) then none
    else
      let rest := l.stops.filter fun c => c != cls
      some { l with stops := if stop then cls :: rest else rest })

end Sys2Proof.Machine
end

