-- ==== Sys2Proof/Machine/Pages.lean ====
section
/-! DEFINITION. Pages.lean: the host port and its BARs (R331), the control page and the management page as words (R4,
R68, R100, R332, R411), the debug window (R408) and writes of registers. -/

namespace Sys2Proof.Machine

/-! ## The control page and the management page (R4) -/

/-- A register of a page: its offset, its bytes and the number it reads as. -/
structure PageReg where
  at_  : Nat
  len  : Nat
  val  : Nat
deriving DecidableEq, Repr

/-- A byte of a page; where no register stands, and in a write-only or reserved field, it reads 0 (R4). -/
def pageByte (rs : List PageReg) (o : Nat) : Byte :=
  match rs.find? fun r => decide (r.at_ ≤ o) && decide (o < r.at_ + r.len) with
  | some r => BitVec.ofNat 8 (r.val / 2 ^ (8 * (o - r.at_)))
  | none => 0

/-- `len` bytes of a page. -/
def pageRead (rs : List PageReg) (o len : Nat) : List Byte := (List.range len).map fun i => pageByte rs (o + i)

/-- A host enqueue window's registers; HEW_CMD is write-only (R100). -/
def hewRegs (w : Nat) (h : Hew) : List PageReg :=
  let b := 0x400 + 0x200 * w
  [⟨b, 8, h.queue.toNat⟩, ⟨b + 0x0C, 4, h.status.toNat⟩, ⟨b + 0x10, 8, h.index.toNat⟩,
    ⟨b + 0x100, 256, leNat (smRun h.entry 0 256)⟩]

/-- The control page of a partition: the context control window, whose CTXW_CMD is write-only, and the host enqueue
windows (R68, R100, R331). -/
def controlRegs (p : Partition) : List PageReg :=
  [⟨0, 8, p.ctxwDesc.toNat⟩, ⟨0x0C, 4, p.ctxwStatus.toNat⟩] ++ p.hews.zipIdx.flatMap fun h => hewRegs h.2 h.1

/-- LNK_STS (R332). -/
def linkCode (x : LState) : Nat :=
  match x with
  | .down => 0
  | .training => 1
  | .up => 2
  | .degraded => 3
  | .quarantined => 4
def linkSts (l : Link) : Nat :=
  l.peerInc % 256 * 2 ^ 24 + l.retries % 4096 * 2 ^ 12 + l.lanes % 16 * 2 ^ 8 + linkCode l.state

/-- SVC_STS, and ERR_CNT of a die, 8 for the hub die (R411). -/
def svcSts (sys : Sys) : Nat :=
  sys.temp % 256 * 2 ^ 16 + sys.kdie % 8 * 2 ^ 8 + sys.step % 4 * 2 ^ 2 + (if sys.kickstand then 2 else 0)
    + (if sys.tripped then 1 else 0)
def errCnt (sys : Sys) (d : Nat) : Nat := (smGet sys.errUncorr d).toNat * 2 ^ 16 + (smGet sys.errCorr d).toNat

/-- The management page: the domain and link registers, and the service registers (R332, R411). -/
def managementRegs (sys : Sys) : List PageReg :=
  [⟨0x1000, 4, sys.domId⟩, ⟨0x1004, 4, sys.leaseNs⟩, ⟨0x1008, 4, sys.guardNs⟩, ⟨0x100C, 4, sys.syncNs⟩]
    ++ (sys.links.zipIdx.map fun l => ⟨0x1040 + 0x10 * l.2, 4, linkSts l.1⟩)
    ++ ⟨0x3000, 4, svcSts sys⟩ :: (List.range 9).map fun d => ⟨0x3010 + 0x10 * d, 4, errCnt sys d⟩

/-! ## The host port (R331) -/

/-- The partition whose running interface a virtual function is (R331, R404). -/
def vfPart (s : State) (vf : Nat) : Option Partition :=
  s.ctl.parts.find? fun p => p.vf == vf && p.state == .run

/-- The partition that a transaction on a virtual function's BAR reaches: its IDE stream must be one of the function's
(R331). -/
def vfStream (s : State) (fn : HostFn) : Option Partition :=
  match vfPart s fn.vf with
  | some p => if p.ideKeys.any fun k => k.1 == fn.stream then some p else none
  | none => none

/-- Whether every byte of an access lies on the partition's dies, in service. -/
def barReach (s : State) (p : Partition) (off len : Nat) : Bool :=
  decide (off + len ≤ devTop) && [homeDie off, homeDie (off + len - 1)].all fun d =>
    p.dies.contains d && !s.sys.lostDies.contains d && !s.sys.scrubbing.contains d

/-- A completion handed to the host for a function, 16 for the physical one; an empty one is Unsupported Request. -/
def hostAnswer (s : State) (fn : Nat) (bs : List Byte) : State :=
  { s with sys := { s.sys with hostOut := s.sys.hostOut ++ [(fn, bs)] } }

/-- HOST_WRITE: a WRITE of agent 8 at the home, posted (R326, R331). It waits behind a transaction on its grain; a write
to a bound queue's header is ignored (R90). -/
def execHostWrite (fn : HostFn) (offset : Nat) (data : List Byte) (s : State) : Host.Outcome State Fault Refusal :=
  match vfStream s fn with
  | none => .next s
  | some p =>
    if data.isEmpty || !barReach s p offset data.length
        || boundHeader s.ctl.queues (ownPa s offset) data.length
        || !(txnsOn s.mem offset data.length).isEmpty then .next s
    else .next (homeWrite s .nobody 0 offset data)

/-- The bytes of the host read buffer, as grains of at most a frame (R322). -/
def hostGrains : Nat := 512

/-- The grain of an offset recorded as held by agent 8 in the host read buffer; a full buffer drops the grain it has
held longest (R322, R331). -/
def hostHold (s : State) (off : Nat) : State :=
  let s := homeShare s 8 off 32 0
  let g := (dirGrow s.mem.dir off 32).grain
  { s with mem := { s.mem with hostBuf := (g :: s.mem.hostBuf.filter fun x => x != g).take hostGrains } }

/-- A read of device memory through BAR2: served by the home and held in the host read buffer. -/
def memoryRead (s : State) (p : Partition) (vf offset len : Nat) : State :=
  if len = 0 ∨ barReach s p offset len = false then hostAnswer s vf []
  else if !(txnsOn s.mem offset len).isEmpty then s
  else
    let cells := (List.range ((offset + len - 1) / 32 + 1 - offset / 32)).map fun j => 32 * (offset / 32 + j)
    cells.foldl hostHold (hostAnswer s vf (coRead s.mem offset len))

/-- HOST_READ: of device memory, of a control page, or of the management page (R4, R331). A function without a running
interface, and a stream that is not the function's, complete with Unsupported Request. -/
def execHostRead (bar : HostBar) (offset len : Nat) (s : State) : Host.Outcome State Fault Refusal :=
  match bar with
  | .memory fn =>
    match vfStream s fn with
    | none => .next (hostAnswer s fn.vf [])
    | some p => .next (memoryRead s p fn.vf offset len)
  | .control fn =>
    match vfStream s fn with
    | none => .next (hostAnswer s fn.vf [])
    | some p => .next (hostAnswer s fn.vf (pageRead (controlRegs p) offset len))
  | .management => .next (hostAnswer s 16 (pageRead (managementRegs s.sys) offset len))

/-! ## The debug window (R408) -/

/-- A directory entry as R324 lays it out. -/
def dirWord (e : DirEntry) : Nat :=
  e.horizon.toNat * 2 ^ 32 + (if e.coarse then 2 ^ 31 else 0) + (if e.owned then 2 ^ 30 else 0)
    + (if e.coarse then e.vec.toNat
       else e.ptrs.length * 2 ^ 16 + (e.ptrs.zipIdx.map fun p => p.1 * 2 ^ (4 * p.2)).sum)

/-- Whether a range lies in the save or the stop area of a context. -/
def inAreas (c : Ctx) (va len : Nat) : Bool :=
  (decide (c.desc.saveArea.toNat ≤ va) && decide (va + len ≤ c.desc.saveArea.toNat + c.desc.saveSize)) ||
  (decide (c.desc.stopArea.toNat ≤ va) && decide (va + len ≤ c.desc.stopArea.toNat + c.desc.stopSize))

/-- What a read through the debug window returns; where it may not look, zeros. Bit 63 of the address selects
the directory entry of the grain at a device offset (log 17). -/
def debugRead (s : State) (p : Partition) (cid : Nat) (addr : Dbl) (len : Nat) : List Byte :=
  let zeros := List.replicate len (0 : Byte)
  if !facilOpen s.ctl.parts p.id facDebug then zeros
  else if addr.getLsbD 63 then
    let off := addr.toNat % 2 ^ 63
    if facilOpen s.ctl.parts p.id facDirview && p.dies.contains (homeDie off) then
      natLe (((dirFind s.mem.dir off).map dirWord).getD 0) 8
    else zeros
  else
    match findCtx s.ctl.ctxs p.id cid with
    | some c => if c.state == .debugStopped && inAreas c addr.toNat len then
        excGet zeros (readVa s 8 c addr.toNat len 0) else zeros
    | none => zeros

/-- DEBUG_WINDOW_ACCESS: `data` is what a write stores, none for a read. -/
def execDebugWindowAccess (part ctx : Nat) (addr : Dbl) (len : Nat) (data : Option (List Byte)) (s : State) :
    Host.Outcome State Fault Refusal :=
  match findPart s.ctl.parts part with
  | none => .next s
  | some p =>
    if p.state ≠ .run then .next s
    else
      match data with
      | none => .next (hostAnswer s p.vf (debugRead s p ctx addr len))
      | some bs =>
        match findCtx s.ctl.ctxs part ctx with
        | some c =>
          if facilOpen s.ctl.parts part facDebug && c.state == .debugStopped
              && inAreas c addr.toNat bs.length then .next (vaBytes s c addr.toNat bs)
          else .next s
        | none => .next s

/-! ## Writes of registers (R4, R68, R100, R332) -/

/-- GUARD_NS stores the largest of the value, 200 and SYNC_NS (R332). -/
def execGuardNsWrite (value : Word) (s : State) : Host.Outcome State Fault Refusal :=
  let floor := if 200 < s.sys.syncNs then s.sys.syncNs else 200
  .next { s with sys := { s.sys with guardNs := if value.toNat < floor then floor else value.toNat } }

/-- DOM_ID takes bits [8:0] only while every interface is CONFIG_UNLOCKED (R332); in kickstand service it reads
0x1FF (R412). -/
def execDomIdWrite (value : Word) (s : State) : Host.Outcome State Fault Refusal :=
  if s.sys.kickstand || s.ctl.parts.any (fun p => p.state != .configUnlocked) then .next s
  else .next { s with sys := { s.sys with domId := value.toNat % 512 } }

/-- A partition of a running interface changed (R404). -/
def modRunPart (s : State) (part : Nat) (f : Partition → Partition) : State :=
  { s with ctl := { s.ctl with parts := modIf s.ctl.parts (fun p => p.id == part && p.state == .run) f } }

/-- LEASE_NS takes a value of its range, 2,000 to 64,000 ns; another leaves it as it is (R332; DESIGN CHOICE, log
132). -/
def leaseWrite (s : State) (v : Nat) : State :=
  if 2000 ≤ v ∧ v ≤ 64000 then { s with sys := { s.sys with leaseNs := v } } else s

/-- REGISTER_WRITE: the field takes the value, and a command register is given its word; a write to a read-only field is
ignored (R4). -/
def execRegisterWrite (reg : PlainReg) (value : Dbl) (s : State) : Host.Outcome State Fault Refusal :=
  match reg with
  | .ctxwDesc part => .next (modRunPart s part fun p => { p with ctxwDesc := value })
  | .hewQueue part win => .next (modRunPart s part fun p =>
      { p with hews := modAt p.hews win fun h => { h with queue := value } })
  | .hewEntry part win off => .next (modRunPart s part fun p =>
      { p with hews := modAt p.hews win fun h =>
        if off + 8 ≤ 256 then { h with entry := smPut h.entry off (natLe value.toNat 8) } else h })
  | .ctxwCmd part => .next (ctxwWord s part (value.toNat % 2 ^ 32))
  | .hewCmd part win => .next (hewWord s part win (value.toNat % 2 ^ 32))
  | .leaseNs => .next (leaseWrite s (value.toNat % 2 ^ 32))
  | .readOnly => .next s

end Sys2Proof.Machine
end

