-- ==== Sys2Proof/Machine/PredUniform.lean ====
section
/-! DEFINITION. PredUniform.lean: predicate logic (R155, R156) and the uniform instructions but for SLD
and SST (R157). -/

namespace Sys2Proof.Machine

/-! ## Predicates (R155, R156) -/

/-- A predicate from two predicates, in every active lane (R155). -/
def predOp (d a b : BitVec 3) (s : State) (f : Bool → Bool → Bool) :
    Host.Outcome State Fault Refusal :=
  issue s (fun _ => .go) fun e =>
    predBody e d.toNat (fun l => f (predAt e.g a.toNat l) (predAt e.g b.toNat l)) noConds

def execPand (d a b : BitVec 3) (s : State) : Host.Outcome State Fault Refusal :=
  predOp d a b s fun x y => x && y

def execPor (d a b : BitVec 3) (s : State) : Host.Outcome State Fault Refusal :=
  predOp d a b s fun x y => x || y

def execPxor (d a b : BitVec 3) (s : State) : Host.Outcome State Fault Refusal :=
  predOp d a b s fun x y => x != y

def execPnot (d a : BitVec 3) (s : State) : Host.Outcome State Fault Refusal :=
  predOp d a a s fun x _ => !x

def execPmov (d a : BitVec 3) (s : State) : Host.Outcome State Fault Refusal :=
  predOp d a a s fun x _ => x

/-- The predicate file of lane `l` as a word (R156). -/
def predFile (g : Gang) (l : Nat) : Nat :=
  ((List.range 8).map fun p => if predAt g p l then 2 ^ p else 0).sum

/-- P2V (R156): sub 0 BIT, 1 FILE. -/
def execP2v (d : Byte) (a : BitVec 3) (sub : BitVec 1) (s : State) :
    Host.Outcome State Fault Refusal :=
  issue s (fun e => legal e fun _ => declOk e.n d)
    fun e => resultBody e e.active d (fun _ => false)
      (fun l => if sub = 0 then (if predAt e.g a.toNat l then 1 else 0) else predFile e.g l) noConds

/-- The predicates of lane `l` set from bits 1 to 7 of `v` (R156). -/
def setPredFile (m : SMap 32) (l v : Nat) : SMap 32 :=
  (List.range 8).foldl (fun m p => setPred m p l (v.testBit p)) m

/-- V2P (R156): sub 0 NZ, 1 FILE. -/
def execV2p (d : BitVec 3) (a : Byte) (sub : BitVec 1) (s : State) :
    Host.Outcome State Fault Refusal :=
  issue s (fun e => legal e fun _ => declOk e.n a)
    fun e =>
      if sub = 0 then predBody e d.toNat (fun l => rd e.g l a != 0) noConds
      else
        let g := e.adv
        { st := e.s
          g := { g with preds := e.active.foldl (fun m l => setPredFile m l (rd e.g l a)) g.preds } }

/-! ## Uniform instructions (R157) -/

/-- A uniform instruction with two uniform sources; `f` sees the element type of the slice that holds
the lowest active lane. -/
def uniOp (d a b : Byte) (s : State) (ok : Nat → Bool) (f : (t x y : Nat) → Nat) :
    Host.Outcome State Fault Refusal :=
  issue s (fun e => (legal e fun k => ok (e.ty k)).and (uniReady e))
    fun e => uniBody e d fun k => f (e.ty k) (rdS e.g k a) (rdS e.g k b)

def execSadd (d a b : Byte) (s : State) : Host.Outcome State Fault Refusal :=
  uniOp d a b s (fun _ => true) fun _ x y => x + y

def execSsub (d a b : Byte) (s : State) : Host.Outcome State Fault Refusal :=
  uniOp d a b s (fun _ => true) fun _ x y => wrap ((x : Int) - y) 32

def execSmul (d a b : Byte) (s : State) : Host.Outcome State Fault Refusal :=
  uniOp d a b s (fun _ => true) fun _ x y => x * y

def execSand (d a b : Byte) (s : State) : Host.Outcome State Fault Refusal :=
  uniOp d a b s (fun _ => true) fun _ x y => Nat.land x y

def execSor (d a b : Byte) (s : State) : Host.Outcome State Fault Refusal :=
  uniOp d a b s (fun _ => true) fun _ x y => Nat.lor x y

def execSxor (d a b : Byte) (s : State) : Host.Outcome State Fault Refusal :=
  uniOp d a b s (fun _ => true) fun _ x y => Nat.xor x y

def execSshl (d a b : Byte) (s : State) : Host.Outcome State Fault Refusal :=
  uniOp d a b s (fun _ => true) fun _ x y => shlElem 32 x y

/-- SSHR (R157): arithmetic under I32, logical under N32. -/
def execSshr (d a b : Byte) (s : State) : Host.Outcome State Fault Refusal :=
  uniOp d a b s (fun t => t ≤ 1) fun t x y => if t = 0 then sarElem 32 x y else shrElem 32 x y

def execSmov (d a : Byte) (s : State) : Host.Outcome State Fault Refusal :=
  uniOp d a a s (fun _ => true) fun _ x _ => x

/-- SMOVI (R157). -/
def execSmovi (d : Byte) (i : BitVec 16) (s : State) : Host.Outcome State Fault Refusal :=
  issue s uniReady fun e => uniBody e d fun _ => (i.signExtend 32).toNat

/-- SCMP (R157): one comparison, written in every active lane. -/
def execScmp (c d : BitVec 3) (a b : Byte) (s : State) : Host.Outcome State Fault Refusal :=
  issue s (fun e => (legal e fun k => decide (e.ty k ≤ 1)).and (uniReady e))
    fun e =>
      let k := e.active.headD 0 / 4
      predBody e d.toNat (fun _ =>
        cmpInt c.toNat (intVal (e.ty k) (rdS e.g k a)) (intVal (e.ty k) (rdS e.g k b))) noConds

/-- S2V (R157). -/
def execS2v (d a : Byte) (s : State) : Host.Outcome State Fault Refusal :=
  issue s (fun e => (legal e fun _ => declOk e.n d).and (uniReady e))
    fun e => resultBody e e.active d (fun _ => false)
      (fun _ => rdS e.g (e.active.headD 0 / 4) a) noConds

/-- V2S (R157). -/
def execV2s (d a : Byte) (s : State) : Host.Outcome State Fault Refusal :=
  issue s (fun e => (legal e fun _ => declOk e.n a).and (uniReady e))
    fun e => uniBody e d fun _ => rd e.g (e.active.headD 0) a

end Sys2Proof.Machine
end

