-- ==== Sys2Proof/Machine/Trust.lean ====
section
/-! DEFINITION. Trust.lean: measured boot (R402, R412, R414), attestation (R403), the interface of a partition
(R404), keys and the partition reset (R405, R321). -/

namespace Sys2Proof.Machine

/-! ## Discarding a partition's contexts (R404) -/

/-- Every context of a partition passes to FREE without HALTED, with all its work; nothing is written
(R404). -/
def discardContexts (s : State) (part : Nat) : State :=
  let ofPart := fun (g : Group) => match kernOf s g with
    | some k => k.part == part
    | none => false
  let gids := (s.exe.groups.zipIdx.filter fun g => ofPart g.1).map Prod.snd
  let t := gids.foldl (fun s g => dropGroup s g false) s
  { t with
    exe := { t.exe with copies := t.exe.copies.filter fun c => c.part != part }
    mem := { t.mem with
      ops := t.mem.ops.filter fun o => o.part != part
      l2 := t.mem.l2.filter fun b => b.part != part
      tlb := t.mem.tlb.filter fun e => e.part != part
      upper := t.mem.upper.filter fun u => u.part != part
      walks := t.mem.walks.filter fun w => w.part != part
      icache := t.mem.icache.filter fun i => i.part != part }
    ctl := { t.ctl with
      ctxs := t.ctl.ctxs.filter fun c => c.part != part
      queues := t.ctl.queues.filter fun q => q.part != part
      kernels := modIf t.ctl.kernels (fun k => k.part == part && kernLive k) fun k =>
        { k with state := .failed, advanced := true }
      faults := t.ctl.faults.filter fun f => f.part != part
      partials := t.ctl.partials.filter fun p => p.part != part
      samples := t.ctl.samples.filter fun x => x.part != part } }

/-! ## The partition reset (R321, R405) -/

/-- Memory of some dies under the key of a draw: every byte of it reads as an unpredictable value (R321). -/
def rekeyMem (draw : Nat) (dies : List Nat) (m : Mem) : Mem :=
  { m with
    bytes := m.bytes.filter fun p => !dies.contains (homeDie p.1)
    lpddr := m.lpddr.filter fun p => !dies.contains (p.1 / channelBytes / 12)
    keys := (dies.map fun d => (d, draw)) ++ m.keys.filter fun k => !dies.contains k.1 }

/-- Every memory of some dies scrubbed to zero (R405). -/
def scrubDies (m : Mem) (own : Nat) (dies : List Nat) : Mem :=
  let at_ := fun (off : Nat) => dies.contains (homeDie off)
  { m with
    l1 := m.l1.filter fun b => !dies.contains (coreDie b.core)
      && !(paLocal own (512 * b.frame) && at_ (paOff (512 * b.frame)))
    l2 := m.l2.filter fun b => !dies.contains b.die && !(b.expiry == none && at_ (512 * b.frame))
    homeBlocks := m.homeBlocks.filter fun b => !at_ (512 * b.frame)
    llc := m.llc.filter fun l => !at_ (512 * l.frame)
    dir := m.dir.filter fun e => !at_ e.grain
    txns := m.txns.filter fun t => !at_ t.grain
    notices := m.notices.filter fun n => !at_ n.grain
    hostBuf := m.hostBuf.filter fun g => !at_ g
    hubBuf := m.hubBuf.filter fun g => !at_ g
    leases := m.leases.filter fun l => !at_ l.2.1
    tlb := m.tlb.filter fun t => !dies.contains (tlbDie t.place)
    upper := m.upper.filter fun u => !dies.contains u.die
    walks := m.walks.filter fun w => !dies.contains w.die
    icache := m.icache.filter fun i => !dies.contains (coreDie i.core) }

/-- The partition reset: a new key, the key generation advanced, every memory of the dies scrubbed, the stack
pool empty and the control page at its reset values. A lost die is re-admitted with its incarnation one
higher (R330). The dies come back to service at SCRUB_COMPLETE. -/
def partitionReset (s : State) (p : Partition) : State :=
  let lost := s.sys.lostDies.filter fun d => p.dies.contains d
  { s with
    mem := rekeyMem s.sys.draws p.dies (scrubDies s.mem (ownDev s.sys) p.dies)
    ctl := { s.ctl with parts := modIf s.ctl.parts (fun x => x.id == p.id) fun x =>
      { x with key := Config.drawnKey s.sys.draws, keyGen := x.keyGen + 1, areas := [], pool := [], ctxwDesc := 0,
               ctxwCmd := none, ctxwStatus := 0, hews := List.replicate 8 {} } }
    sys := { s.sys with
      draws := s.sys.draws + 1
      lostDies := s.sys.lostDies.filter fun d => !p.dies.contains d
      agentInc := lost.foldl (fun m d => smSet m d (smGet m d + 1)) s.sys.agentInc
      scrubbing := p.dies ++ s.sys.scrubbing.filter fun d => !p.dies.contains d } }

/-- SCRUB_COMPLETE: the die returns to service (R405). -/
def execScrubComplete (die : Nat) (s : State) : Host.Outcome State Fault Refusal :=
  .next { s with sys := { s.sys with scrubbing := s.sys.scrubbing.filter fun d => d != die } }

/-! ## The interface (R404) -/

/-- The partition of a virtual function. Virtual functions are 1 to 16; a boot that stopped leaves them
disabled (R402). -/
def fnPart (s : State) (fn : Nat) : Option Partition :=
  if s.sys.bootFailed.isSome then none else s.ctl.parts.find? fun p => p.vf == fn

/-- The state with a partition changed. -/
def modPart (s : State) (id : Nat) (f : Partition → Partition) : State :=
  { s with ctl := { s.ctl with parts := modIf s.ctl.parts (fun p => p.id == id) f } }

/-- Locked or running. -/
def Partition.engaged (p : Partition) : Bool := p.state == .configLocked || p.state == .run

/-- The interface in ERROR, every context of the partition discarded (R404). -/
def enterError (s : State) (p : Partition) : State :=
  modPart (discardContexts s p.id) p.id fun x => { x with state := .error }

/-- The SPDM state of a function. -/
def spdmOf (s : State) (fn : Nat) : Spdm := (s.sys.spdm.find? fun x => x.fn == fn).getD { fn := fn }
def setSpdm (s : State) (x : Spdm) : State :=
  { s with sys := { s.sys with spdm := x :: s.sys.spdm.filter fun y => y.fn != x.fn } }

/-- LOCK_INTERFACE_REQUEST, over the tenant's SPDM session: the partition reset. -/
def execLockInterfaceRequest (fn : Nat) (s : State) : Host.Outcome State Fault Refusal :=
  match fnPart s fn with
  | none => .next s
  | some p =>
    if p.state = .configUnlocked ∧ (spdmOf s fn).session = true then
      .next (modPart (partitionReset s p) p.id fun x => { x with state := .configLocked })
    else .next s

/-- BIND_POLICY_KEY: once per lock; the policy counter is set to 0. -/
def execBindPolicyKey (fn key : Nat) (s : State) : Host.Outcome State Fault Refusal :=
  match fnPart s fn with
  | none => .next s
  | some p =>
    if p.state = .configLocked ∧ p.polKey = none ∧ (spdmOf s fn).session = true then
      .next (modPart s p.id fun x => { x with polKey := some key, lastCounter := 0 })
    else .next s

/-- START_INTERFACE_REQUEST: CONFIG_LOCKED to RUN; the BARs are enabled. -/
def execStartInterfaceRequest (fn : Nat) (s : State) : Host.Outcome State Fault Refusal :=
  match fnPart s fn with
  | none => .next s
  | some p =>
    if p.state = .configLocked then .next (modPart s p.id fun x => { x with state := .run }) else .next s

/-- STOP_INTERFACE_REQUEST: to ERROR; from ERROR the partition reset and CONFIG_UNLOCKED, policy and key
cleared. -/
def execStopInterfaceRequest (fn : Nat) (s : State) : Host.Outcome State Fault Refusal :=
  match fnPart s fn with
  | none => .next s
  | some p =>
    if p.engaged then .next (enterError s p)
    else if p.state = .error then
      .next (modPart (partitionReset s p) p.id fun x =>
        { x with state := .configUnlocked, polKey := none, policy := none, lastCounter := 0, ideKeys := [] })
    else .next s

/-- IDE_INTEGRITY_FAILURE (R404, R410). -/
def execIdeIntegrityFailure (fn : Nat) (s : State) : Host.Outcome State Fault Refusal :=
  match fnPart s fn with
  | none => .next s
  | some p => if p.engaged then .next (enterError s p) else .next s

/-- Whether a set of dies may be a partition's beside the others (R67, R412). -/
def diesOk (s : State) (part fn : Nat) (dies : List Nat) : Bool :=
  decide (part < 8) && decide (1 ≤ fn) && decide (fn ≤ 16) && !dies.isEmpty && decide dies.Nodup
    && dies.all (fun d => decide (d < 8) && (!s.sys.kickstand || d == s.sys.kdie))
    && s.ctl.parts.all fun p => p.id == part || (p.vf != fn && dies.all fun d => !p.dies.contains d)

/-- CHANGE_PARTITION from the physical function: created or changed in CONFIG_UNLOCKED; an attempt on a locked
or running interface leads to ERROR. -/
def execChangePartition (fn part : Nat) (dies : List Nat) (reserved : List (Nat × Nat)) (s : State) :
    Host.Outcome State Fault Refusal :=
  if s.sys.bootFailed.isSome then .next s
  else
    match findPart s.ctl.parts part with
    | some p =>
      if p.engaged then .next (enterError s p)
      else if p.state = .configUnlocked ∧ diesOk s part fn dies = true then
        .next (modPart s part fun x => { x with vf := fn, dies := dies, reserved := reserved })
      else .next s
    | none =>
      if diesOk s part fn dies then
        .next { s with ctl := { s.ctl with
          parts := s.ctl.parts ++ [{ id := part, vf := fn, dies := dies, reserved := reserved }] } }
      else .next s

/-- IDE_KEY_MANAGEMENT over the tenant's session sets the keys of a stream (R405). -/
def execIdeKeyManagement (fn stream key : Nat) (s : State) : Host.Outcome State Fault Refusal :=
  match fnPart s fn with
  | none => .next s
  | some p =>
    if (spdmOf s fn).session then
      .next (modPart s p.id fun x => { x with ideKeys := (stream, key) :: x.ideKeys.filter fun k => k.1 != stream })
    else .next s

/-! ## Attestation (R403) -/

/-- A responder's answer; status 0 is success, 1 an error response. -/
def spdmDo (s : State) (fn : Nat) (f : Spdm → Option Spdm) : Host.Outcome State Fault Refusal :=
  if decide (16 < fn) || (s.sys.bootFailed.isSome && fn != 0) then .next s
  else
    match f (spdmOf s fn) with
    | some x => .next (setSpdm s x)
    | none => .next (setSpdm s { spdmOf s fn with answer := [], status := 1 })

/-- The measurement that the identity key is derived from: index 1 (R403). -/
def identity (s : State) : BitVec 512 := nth s.sys.measures 0 0
def chainOf (s : State) : List Byte := Config.certificateChain (identity s)

/-- The codes of the interface states. -/
def tCode (x : TState) : Nat :=
  match x with
  | .configUnlocked => 0
  | .configLocked => 1
  | .run => 2
  | .error => 3

/-- What block 12 is a digest of: the state, the dies, the key generation and the policy's digest (R403). -/
def interfaceBytes (s : State) (fn : Nat) : List Byte :=
  match fnPart s fn with
  | none => []
  | some p =>
    natLe (tCode p.state) 1 ++ natLe ((p.dies.map fun d => 2 ^ d).sum) 1 ++ natLe p.keyGen.toNat 4 ++
      match p.policy with
      | some y => natLe (Config.sha512 y.blob).toNat 64
      | none => natLe 0 64

/-- A measurement block; none where the index names none. -/
def measurement (s : State) (fn index : Nat) : Option (BitVec 512) :=
  if 1 ≤ index ∧ index ≤ 11 then some (nth s.sys.measures (index - 1) 0)
  else if index = 12 then some (Config.sha512 (interfaceBytes s fn))
  else none

/-- The algorithms on offer: SHA-512, ECDSA P-384, secp384r1 and AES-256-GCM, as bits 0 to 3. -/
def spdmAlgorithms : Nat := 15

/-- GET_VERSION: SPDM 1.3; negotiation begins again (log 19). -/
def execGetVersion (fn : Nat) (s : State) : Host.Outcome State Fault Refusal :=
  spdmDo s fn fun x => some { x with version := true, caps := false, algs := false, answer := natLe 0x13 1, status := 0 }

/-- GET_CAPABILITIES. -/
def execGetCapabilities (fn : Nat) (s : State) : Host.Outcome State Fault Refusal :=
  spdmDo s fn fun x =>
    if x.version then some { x with caps := true, answer := natLe Config.capabilities 4, status := 0 } else none

/-- NEGOTIATE_ALGORITHMS: the ones offered by both. -/
def execNegotiateAlgorithms (fn offered : Nat) (s : State) : Host.Outcome State Fault Refusal :=
  spdmDo s fn fun x =>
    let both := Nat.land offered spdmAlgorithms
    if x.caps then some { x with algs := both == spdmAlgorithms, answer := natLe both 1, status := 0 } else none

/-- GET_DIGESTS: the digest of the certificate chain. -/
def execGetDigests (fn : Nat) (s : State) : Host.Outcome State Fault Refusal :=
  spdmDo s fn fun x =>
    if x.algs then some { x with answer := natLe (Config.sha512 (chainOf s)).toNat 64, status := 0 } else none

/-- GET_CERTIFICATE: a part of the chain that ends at the maker's root. -/
def execGetCertificate (fn offset len : Nat) (s : State) : Host.Outcome State Fault Refusal :=
  spdmDo s fn fun x =>
    if x.algs then some { x with answer := ((chainOf s).drop offset).take len, status := 0 } else none

/-- CHALLENGE: the identity key signs the nonce and the measurements. -/
def execChallenge (fn nonce : Nat) (s : State) : Host.Outcome State Fault Refusal :=
  spdmDo s fn fun x =>
    let msg := natLe nonce 32 ++ s.sys.measures.flatMap fun d => natLe d.toNat 64
    if x.algs then some { x with answer := natLe (Config.identitySign (identity s) msg).toNat 96, status := 0 }
    else none

/-- GET_MEASUREMENTS: block 1 to 12. After a failed boot the failed index reads all zeros (R402). -/
def execGetMeasurements (fn index : Nat) (s : State) : Host.Outcome State Fault Refusal :=
  spdmDo s fn fun x =>
    match measurement s fn index with
    | some d => some { x with answer := natLe d.toNat 64, status := 0 }
    | none => none

/-- KEY_EXCHANGE: the shared secret of a session. -/
def execKeyExchange (fn share : Nat) (s : State) : Host.Outcome State Fault Refusal :=
  let t := { s with sys := { s.sys with draws := s.sys.draws + 1 } }
  spdmDo t fn fun x =>
    if x.algs then
      some { x with secret := some (Config.sessionSecret s.sys.draws share), session := false,
                    answer := natLe (Config.exchangeShare s.sys.draws) 96, status := 0 }
    else none

/-- FINISH: the session stands where the check value is right. -/
def execFinish (fn verifyData : Nat) (s : State) : Host.Outcome State Fault Refusal :=
  spdmDo s fn fun x =>
    match x.secret with
    | some k => if verifyData = Config.finishValue k then
        some { x with session := true, keyNo := s.sys.draws, answer := [], status := 0 } else none
    | none => none

/-- KEY_UPDATE: new keys for a session, or for a link that carries traffic (R403, R405). -/
def execKeyUpdate (target : KeyTarget) (s : State) : Host.Outcome State Fault Refusal :=
  let t := { s with sys := { s.sys with draws := s.sys.draws + 1 } }
  match target with
  | .session fn => spdmDo t fn fun x =>
      if x.session then some { x with keyNo := s.sys.draws, answer := [], status := 0 } else none
  | .link l => .next (onLink t l fun x => if x.carries then some { x with keyNo := s.sys.draws } else none)

/-- END_SESSION. -/
def execEndSession (fn : Nat) (s : State) : Host.Outcome State Fault Refusal :=
  spdmDo s fn fun x =>
    if x.session then some { x with session := false, secret := none, answer := [], status := 0 } else none

/-! ## Measured boot (R402) -/

/-- The stages from number `i` upward: the digests of those that verify, a digest of zeros for the one that does
not, and the index at which boot stopped. -/
def bootStages (flash : List (List Byte)) : (fuel i : Nat) → List (BitVec 512) × Option Nat
  | 0, _ => ([], none)
  | f + 1, i =>
    let img := nth flash (i - 1) []
    if Config.stageSignatureOk i img then
      let r := bootStages flash f (i + 1)
      (Config.sha512 img :: r.1, r.2)
    else ([0], some i)

/-- MODULE_RESET: each stage is hashed and verified in order (R402). Partitions, contexts and all their work are
gone, links are DOWN; LPDDR and host memory keep their bytes, flash and PTP time go on. The configuration
record selects the service (R412), and TRIPPED tells whether a trip came before (R411, R414). -/
def execModuleReset (s : State) : Host.Outcome State Fault Refusal :=
  let b := bootStages s.sys.flash 11 1
  let record := nth s.sys.flash 1 []
  let kick := Config.recordKickstand record && !s.sys.nextFull
  .next {
    exe := { agenda := s.exe.agenda, fresh := s.exe.fresh, nextId := s.exe.nextId }
    mem := { bytes := s.mem.bytes, lpddr := s.mem.lpddr, keys := s.mem.keys, host := s.mem.host }
    sys := {
      ptp := s.sys.ptp, syncNs := s.sys.syncNs, flash := s.sys.flash, draws := s.sys.draws, cut := s.sys.cut
      measures := b.1, bootFailed := b.2
      kickstand := kick, kdie := if kick then Config.recordKdie record else 0
      nextFull := s.sys.nextFull, tripped := s.sys.clocksStopped } }

/-- FULL_MODULE_TRAINING_COMPLETE: firmware writes full service into the configuration record; it begins at the
next module reset (R412). -/
def execFullModuleTrainingComplete (s : State) : Host.Outcome State Fault Refusal :=
  if s.sys.kickstand then .next { s with sys := { s.sys with nextFull := true } } else .next s

end Sys2Proof.Machine
end

