-- ==== Sys2Proof/Machine/Service.lean ====
section
/-! DEFINITION. Service.lean: corrected and uncorrectable errors (R195, R410, R411), throttling and trips
(R414). -/

namespace Sys2Proof.Machine

/-! ## Error counters (R411) -/

/-- A counter raised by `n`, saturating at 65,535. -/
def countErr (m : SMap 16) (die n : Nat) : SMap 16 :=
  let x := (smGet m die).toNat + n
  smSet m die (BitVec.ofNat 16 (if x < 65535 then x else 65535))

/-- UNCORR of a die raised; die 8 is the hub die. -/
def countUncorr (s : State) (die n : Nat) : State :=
  { s with sys := { s.sys with errUncorr := countErr s.sys.errUncorr die n } }

/-- CORRECTED_ERROR: written back corrected, counted, nothing else (R411). -/
def execCorrectedError (die : Nat) (s : State) : Host.Outcome State Fault Refusal :=
  if die ≤ 8 then .next { s with sys := { s.sys with errCorr := countErr s.sys.errCorr die 1 } } else .next s

/-- PATROL_SCRUB of a die's LPDDR and LLC: it only counts (R411). -/
def execPatrolScrub (die corrected uncorrected : Nat) (s : State) : Host.Outcome State Fault Refusal :=
  if die < 8 then
    .next { s with sys := { s.sys with
      errCorr := countErr s.sys.errCorr die corrected
      errUncorr := countErr s.sys.errUncorr die uncorrected } }
  else .next s

/-! ## Uncorrectable errors (R126, R195, R257, R277, R310, R411) -/

/-- A value for the bytes of a cell that the tier below holds in an older version, which the model does not keep: a free
value (log 14). -/
def staleCell (s : State) (cell : Nat) : List Byte := cellBytes (peerCell s.exe.fresh (cell % 16)) 0 32

/-- The home's copy of a cell as the tiers below the failed one have it: LPDDR's, where no LLC line holds a version
(R195). -/
def fromBelow (s : State) (llc : Bool) (m : Mem) (cell : Nat) : Mem :=
  if llc && m.llc.any fun l => l.frame == cell / 16 && l.valid.getLsbD (cell % 16) then
    memPut m (32 * cell) (staleCell s cell)
  else { m with bytes := smPut m.bytes (32 * cell) (smRun m.lpddr (lpddrKey (32 * cell)) 32) }

/-- The block that holds a cell in one tier dropped, its data having failed; a later access has it from the tier below
(R195). `core` is the core whose L1 it is, `pa` the address of the cell. -/
def dropBlock (s : State) (tier : MemTier) (core pa : Nat) : Mem :=
  let m := s.mem
  let f := frameOf (paOff pa)
  let i := cellIn (paOff pa)
  match tier with
  | .l1 => l1Drop m fun b => b.isOf core (paFrame pa) && decide (b.start ≤ i) && decide (i < b.start + b.cells.length)
  | .localSlice =>
    let frame := if paPeer s pa then peerFrame pa else f
    { m with l2 := m.l2.filter fun b =>
        !(b.isOf (coreDie core) frame && decide (b.start ≤ i) && decide (i < b.start + b.cells.length)) }
  | .homeSlice =>
    match m.homeBlocks.find? fun b => b.frame == f && decide (b.start ≤ i) && decide (i < b.start + b.dirty.length) with
    | none => m
    | some b =>
      let lost := (List.range b.dirty.length).filter fun j => nth b.dirty j false
      (lost.map fun j => 16 * f + b.start + j).foldl (fromBelow s true)
        { m with homeBlocks := m.homeBlocks.filter fun x => x != b }
  | .llc =>
    match m.llc.find? fun l => l.frame == f with
    | none => m
    | some l =>
      let lost := (maskCells l.dirty).filter fun j => (homeHolds m.homeBlocks f j).isNone
      (lost.map fun j => 16 * f + j).foldl (fromBelow s false) { m with llc := m.llc.filter fun x => x != l }
  | .lpddr | .window => m

/-- DATA_LOSS in the context that needs the data of a part of an operation: a load's or an atomic's, or the cell that a
store or a FLUSH fetches; INFO is the part's address (R195). -/
def loseData (s : State) (o : MemOp) (p : MemPart) (tier : MemTier) : State :=
  let t := countUncorr s (coreDie o.core) 1
  opFault { t with mem := dropBlock t tier o.core p.pa } o .dataLoss p.va (isLoad o || isRmw o || isLocal o)

/-- DATA_LOSS named by a slice of a die (R195, R277, R310). -/
def homeLoss (s : State) (part cid die slice : Nat) (addr : Dbl) : State :=
  addFault (countUncorr s die 1)
    { part := part, ctx := cid, code := some .dataLoss, kind := 5, die := die, unit := slice, info := addr,
      exact := false, cycle := s.sys.cycle, ptp := s.sys.ptp }

/-- DATA_LOSS of the context whose block a local slice writes back: the block is dropped (R195). -/
def lostBlock (s : State) (b : L2Block) (cell : Nat) : State :=
  homeLoss { s with mem := { s.mem with l2 := s.mem.l2.filter fun x => x != b } } b.part b.ctx b.die (sliceOf b.frame)
    (BitVec.ofNat 64 (ownPa s (512 * b.frame + 32 * cell)))

/-- DATA_LOSS of a slice that needs data of its own gang or core: a spilled stack entry, a register (R126, R410). -/
def sliceLoss (s : State) (gi k : Nat) (addr : Dbl) (ok : Gang → Bool) : State :=
  match s.exe.gangs[gi]? with
  | none => s
  | some g =>
    match s.exe.groups[g.grp]? with
    | none => s
    | some grp =>
      match kernOf s grp with
      | none => s
      | some kn =>
        if k < 8 ∧ ok g = true then
          addFault (setGang (countUncorr s (coreDie grp.core) 1) gi
            (g.modSl k fun x => { x with stopped := true })) (sliceRec s g grp kn k (some .dataLoss) addr)
        else s

/-- DATA_LOSS of a slice whose spilled stack entry failed (R126). -/
def stackLoss (s : State) (gi k : Nat) : State :=
  sliceLoss s gi k 0 fun g => decide (hardEntries < (g.sl k).stack.length)

/-- DATA_LOSS of a group's tile stream, that needs data of the window, the slab or an accumulator (R195, R410). -/
def streamLoss (s : State) (gid : Nat) (addr : Dbl) : State :=
  match s.exe.groups[gid]? with
  | none => s
  | some grp =>
    match grp.tile, kernOf s grp with
    | some t, some k =>
      addFault (setGroup (countUncorr s (coreDie grp.core) 1) gid { grp with tile := some { t with stopped := true } })
        (tileRec s grp k t .dataLoss addr.toNat t.pc true)
    | _, _ => s

/-- The address that a copy reads for one of the cells it has still to land: in global memory, or in the window. -/
def copyAddr (c : Copy) (cell : Nat) : Nat :=
  match c.left[cell]? with
  | none => c.gaddr.toNat
  | some x =>
    match copySources c x.1 x.2 with
    | v :: _ => if c.kind = .l2g then nth (srcRows c) x.1 0 else v
    | [] => nth (srcRows c) x.1 c.lofs.toNat

/-- DATA_LOSS of a copy: it stops (R257). -/
def copyLoss (s : State) (c : Copy) (cell : Nat) : State :=
  if c.stopped then s else copyFault (countUncorr s (coreDie c.core) 1) c .dataLoss (copyAddr c cell)

/-- DATA_LOSS for a partial that a buffer held; INFO is its element's address (R277). -/
def partialLoss (s : State) (p : Partial) : State :=
  let die := (p.loc.die).getD (coreDie p.core)
  let home := match p.loc with
    | .heldHome h => h
    | _ => 48 * die
  let t := countUncorr s die 1
  addFault { t with ctl := { t.ctl with partials := t.ctl.partials.filter fun q => q.id != p.id } }
    { homeRec s p home .dataLoss with
      info := match findCtx s.ctl.ctxs p.part p.ctx with
        | some c => BitVec.ofNat 64 (elemVa (accSlot c (handleSlot p.handle.toNat)) p.elem)
        | none => 0 }

/-- UNCORRECTABLE_ERROR, by where it is found. -/
def execUncorrectableError (site : ErrSite) (s : State) : Host.Outcome State Fault Refusal :=
  match site with
  | .loadData op part tier =>
    .next (onOp s op fun s o => match o.parts[part]? with
      | some p => loseData s o p tier
      | none => s)
  | .writeBack die frame cell =>
    match s.mem.l2.find? fun b => b.isOf die frame && decide (b.start ≤ cell)
        && decide (cell < b.start + b.cells.length) with
    | some b => .next (lostBlock s b cell)
    | none => .next s
  | .copyData copy cell =>
    match s.exe.copies.find? fun c => c.id == copy with
    | some c => .next (copyLoss s c cell)
    | none => .next s
  | .walkEntry part ctx va die slice =>
    match findCtx s.ctl.ctxs part ctx with
    | some _ => .next (homeLoss s part ctx die slice va)
    | none => .next s
  | .stackEntry gang slice => .next (stackLoss s gang slice)
  | .sliceData gang slice addr => .next (sliceLoss s gang slice addr fun _ => true)
  | .streamData group addr => .next (streamLoss s group addr)
  | .heldPartial held =>
    match s.ctl.partials.find? fun p => p.id == held with
    | some p => .next (partialLoss s p)
    | none => .next s
  | .accMemory part ctx addr die slice =>
    match findCtx s.ctl.ctxs part ctx with
    | some _ => .next (homeLoss s part ctx die slice addr)
    | none => .next s
  | .noContent die => .next (if die ≤ 8 then countUncorr s die 1 else s)
  | .control die => .next (if die < 8 then loseDie (countUncorr s die 1) die else s)

/-! ## Power and cooling (R414) -/

/-- The threshold of a step, °C. -/
def stepTemp (k : Nat) : Nat := if k = 3 then 105 else if k = 2 then 100 else 95

/-- The throttle step at a temperature: entered at its threshold, left 3 °C below it. -/
def throttleStep (now temp : Nat) : Nat :=
  let on := fun (k : Nat) => decide (stepTemp k ≤ temp) || (decide (k ≤ now) && decide (stepTemp k < temp + 3))
  if on 3 then 3 else if on 2 then 2 else if on 1 then 1 else 0

/-- A trip: every context discarded as at an interface ERROR, and the clocks stop. -/
def trip (s : State) : State :=
  let t := (s.ctl.parts.map Partition.id).foldl discardContexts s
  { t with sys := { t.sys with clocksStopped := true } }

/-- THROTTLE: the hottest die's temperature is measured; throttling changes only time. -/
def execThrottle (temp : Nat) (s : State) : Host.Outcome State Fault Refusal :=
  let t := { s with sys := { s.sys with temp := temp % 256, step := throttleStep s.sys.step temp } }
  .next (if 110 ≤ temp then trip t else t)

/-- THERMAL_TRIP at 110 °C. -/
def execThermalTrip (temp : Nat) (s : State) : Host.Outcome State Fault Refusal :=
  if 110 ≤ temp then
    .next (trip { s with sys := { s.sys with temp := temp % 256, step := throttleStep s.sys.step temp } })
  else .next s

/-- UNDERVOLTAGE_TRIP: an input below 48 V. -/
def execUndervoltageTrip (millivolts : Nat) (s : State) : Host.Outcome State Fault Refusal :=
  if millivolts < 48000 then .next (trip s) else .next s

end Sys2Proof.Machine
end

