-- ==== Sys2Proof/Machine/Dispatch.lean ====
section
/-! DEFINITION. Dispatch.lean: one arm per constructor of Instr, each a direct call of its meaning. -/

namespace Sys2Proof.Machine

def exec (i : Instr) (s : State) : Host.Outcome State Fault Refusal :=
  match i with
  | .nop => Sys2Proof.Machine.execNop s
  | .mode n g t r s_ c o p => Sys2Proof.Machine.execMode n g t r s_ c o p s
  | .imm i_ => Sys2Proof.Machine.execImm i_ s
  | .immh i_ => Sys2Proof.Machine.execImmh i_ s
  | .wait l s_ c f => Sys2Proof.Machine.execWait l s_ c f s
  | .bra o => Sys2Proof.Machine.execBra o s
  | .call o => Sys2Proof.Machine.execCall o s
  | .ret => Sys2Proof.Machine.execRet s
  | .brx a s_ => Sys2Proof.Machine.execBrx a s_ s
  | .rpush o => Sys2Proof.Machine.execRpush o s
  | .join => Sys2Proof.Machine.execJoin s
  | .regang t => Sys2Proof.Machine.execRegang t s
  | .exit => Sys2Proof.Machine.execExit s
  | .yield => Sys2Proof.Machine.execYield s
  | .elect d s_ => Sys2Proof.Machine.execElect d s_ s
  | .vote d a s_ => Sys2Proof.Machine.execVote d a s_ s
  | .getc d s_ => Sys2Proof.Machine.execGetc d s_ s
  | .evwait a b => Sys2Proof.Machine.execEvwait a b s
  | .evadd a b => Sys2Proof.Machine.execEvadd a b s
  | .trap c => Sys2Proof.Machine.execTrap c s
  | .rtt => Sys2Proof.Machine.execRtt s
  | .brk c => Sys2Proof.Machine.execBrk c s
  | .halt c => Sys2Proof.Machine.execHalt c s
  | .ctr d s_ => Sys2Proof.Machine.execCtr d s_ s
  | .csrr d n => Sys2Proof.Machine.execCsrr d n s
  | .csrw d n => Sys2Proof.Machine.execCsrw d n s
  | .iadd d a b => Sys2Proof.Machine.execIadd d a b s
  | .isub d a b => Sys2Proof.Machine.execIsub d a b s
  | .imul d a b => Sys2Proof.Machine.execImul d a b s
  | .imulh d a b => Sys2Proof.Machine.execImulh d a b s
  | .imad d a b => Sys2Proof.Machine.execImad d a b s
  | .imin d a b => Sys2Proof.Machine.execImin d a b s
  | .imax d a b => Sys2Proof.Machine.execImax d a b s
  | .iabs d a => Sys2Proof.Machine.execIabs d a s
  | .and d a b => Sys2Proof.Machine.execAnd d a b s
  | .or d a b => Sys2Proof.Machine.execOr d a b s
  | .xor d a b => Sys2Proof.Machine.execXor d a b s
  | .andn d a b => Sys2Proof.Machine.execAndn d a b s
  | .shl d a b => Sys2Proof.Machine.execShl d a b s
  | .shr d a b => Sys2Proof.Machine.execShr d a b s
  | .sar d a b => Sys2Proof.Machine.execSar d a b s
  | .rot d a b => Sys2Proof.Machine.execRot d a b s
  | .popc d a => Sys2Proof.Machine.execPopc d a s
  | .clz d a => Sys2Proof.Machine.execClz d a s
  | .brev d a => Sys2Proof.Machine.execBrev d a s
  | .bfe d a b => Sys2Proof.Machine.execBfe d a b s
  | .bfi d a b => Sys2Proof.Machine.execBfi d a b s
  | .icmp c d a b => Sys2Proof.Machine.execIcmp c d a b s
  | .sel d a b => Sys2Proof.Machine.execSel d a b s
  | .mov d a => Sys2Proof.Machine.execMov d a s
  | .movi d i_ => Sys2Proof.Machine.execMovi d i_ s
  | .movh d i_ => Sys2Proof.Machine.execMovh d i_ s
  | .lea d a b => Sys2Proof.Machine.execLea d a b s
  | .shfli d a n => Sys2Proof.Machine.execShfli d a n s
  | .shflx d a n => Sys2Proof.Machine.execShflx d a n s
  | .shflu d a n => Sys2Proof.Machine.execShflu d a n s
  | .shfld d a n => Sys2Proof.Machine.execShfld d a n s
  | .idot4 d a b => Sys2Proof.Machine.execIdot4 d a b s
  | .pand d a b => Sys2Proof.Machine.execPand d a b s
  | .por d a b => Sys2Proof.Machine.execPor d a b s
  | .pxor d a b => Sys2Proof.Machine.execPxor d a b s
  | .pnot d a => Sys2Proof.Machine.execPnot d a s
  | .p2v d a s_ => Sys2Proof.Machine.execP2v d a s_ s
  | .v2p d a s_ => Sys2Proof.Machine.execV2p d a s_ s
  | .pmov d a => Sys2Proof.Machine.execPmov d a s
  | .sadd d a b => Sys2Proof.Machine.execSadd d a b s
  | .ssub d a b => Sys2Proof.Machine.execSsub d a b s
  | .smul d a b => Sys2Proof.Machine.execSmul d a b s
  | .sand d a b => Sys2Proof.Machine.execSand d a b s
  | .sor d a b => Sys2Proof.Machine.execSor d a b s
  | .sxor d a b => Sys2Proof.Machine.execSxor d a b s
  | .sshl d a b => Sys2Proof.Machine.execSshl d a b s
  | .sshr d a b => Sys2Proof.Machine.execSshr d a b s
  | .smov d a => Sys2Proof.Machine.execSmov d a s
  | .smovi d i_ => Sys2Proof.Machine.execSmovi d i_ s
  | .scmp c d a b => Sys2Proof.Machine.execScmp c d a b s
  | .s2v d a => Sys2Proof.Machine.execS2v d a s
  | .v2s d a => Sys2Proof.Machine.execV2s d a s
  | .sld d a b => Sys2Proof.Machine.execSld d a b s
  | .sst d a b => Sys2Proof.Machine.execSst d a b s
  | .fadd d a b => Sys2Proof.Machine.execFadd d a b s
  | .fsub d a b => Sys2Proof.Machine.execFsub d a b s
  | .fmul d a b => Sys2Proof.Machine.execFmul d a b s
  | .ffma d a b => Sys2Proof.Machine.execFfma d a b s
  | .fmin d a b => Sys2Proof.Machine.execFmin d a b s
  | .fmax d a b => Sys2Proof.Machine.execFmax d a b s
  | .fabs d a => Sys2Proof.Machine.execFabs d a s
  | .fneg d a => Sys2Proof.Machine.execFneg d a s
  | .fcmp c d a b => Sys2Proof.Machine.execFcmp c d a b s
  | .fclass d a => Sys2Proof.Machine.execFclass d a s
  | .fscale d a b => Sys2Proof.Machine.execFscale d a b s
  | .frint d a => Sys2Proof.Machine.execFrint d a s
  | .frcp d a => Sys2Proof.Machine.execFrcp d a s
  | .frsq d a => Sys2Proof.Machine.execFrsq d a s
  | .fsqrt d a => Sys2Proof.Machine.execFsqrt d a s
  | .fexp2 d a => Sys2Proof.Machine.execFexp2 d a s
  | .flog2 d a => Sys2Proof.Machine.execFlog2 d a s
  | .fsin d a => Sys2Proof.Machine.execFsin d a s
  | .fcos d a => Sys2Proof.Machine.execFcos d a s
  | .ftanh d a => Sys2Proof.Machine.execFtanh d a s
  | .fdiv d a b => Sys2Proof.Machine.execFdiv d a b s
  | .cvt d a p t => Sys2Proof.Machine.execCvt d a p t s
  | .cvtsr d a f p r => Sys2Proof.Machine.execCvtsr d a f p r s
  | .rng d a s_ => Sys2Proof.Machine.execRng d a s_ s
  | .qmx d a f => Sys2Proof.Machine.execQmx d a f s
  | .dqmx d a b => Sys2Proof.Machine.execDqmx d a b s
  | .packl d a b => Sys2Proof.Machine.execPackl d a b s
  | .unpackl d a f => Sys2Proof.Machine.execUnpackl d a f s
  | .gamax d a => Sys2Proof.Machine.execGamax d a s
  | .gred d a s_ => Sys2Proof.Machine.execGred d a s_ s
  | .fdot2 d a b => Sys2Proof.Machine.execFdot2 d a b s
  | .cmp24 d a s_ => Sys2Proof.Machine.execCmp24 d a s_ s
  | .ld d a b => Sys2Proof.Machine.execLd d a b s
  | .ld2 d a b => Sys2Proof.Machine.execLd2 d a b s
  | .ld4 d a b => Sys2Proof.Machine.execLd4 d a b s
  | .st d a b => Sys2Proof.Machine.execSt d a b s
  | .st2 d a b => Sys2Proof.Machine.execSt2 d a b s
  | .st4 d a b => Sys2Proof.Machine.execSt4 d a b s
  | .ldl d a b => Sys2Proof.Machine.execLdl d a b s
  | .ldl4 d a b => Sys2Proof.Machine.execLdl4 d a b s
  | .stl d a b => Sys2Proof.Machine.execStl d a b s
  | .stl4 d a b => Sys2Proof.Machine.execStl4 d a b s
  | .atadd d a b => Sys2Proof.Machine.execAtadd d a b s
  | .atand d a b => Sys2Proof.Machine.execAtand d a b s
  | .ator d a b => Sys2Proof.Machine.execAtor d a b s
  | .atxor d a b => Sys2Proof.Machine.execAtxor d a b s
  | .atmin d a b => Sys2Proof.Machine.execAtmin d a b s
  | .atmax d a b => Sys2Proof.Machine.execAtmax d a b s
  | .atxchg d a b => Sys2Proof.Machine.execAtxchg d a b s
  | .atcas d a b => Sys2Proof.Machine.execAtcas d a b s
  | .atfmax d a b => Sys2Proof.Machine.execAtfmax d a b s
  | .atfmin d a b => Sys2Proof.Machine.execAtfmin d a b s
  | .atladd d a b => Sys2Proof.Machine.execAtladd d a b s
  | .atlcas d a b => Sys2Proof.Machine.execAtlcas d a b s
  | .fence => Sys2Proof.Machine.execFence s
  | .flush a b => Sys2Proof.Machine.execFlush a b s
  | .invr a b => Sys2Proof.Machine.execInvr a b s
  | .pref l a b => Sys2Proof.Machine.execPref l a b s
  | .lockb d a b => Sys2Proof.Machine.execLockb d a b s
  | .unlockb a b => Sys2Proof.Machine.execUnlockb a b s
  | .enq d a b => Sys2Proof.Machine.execEnq d a b s
  | .deq d a b => Sys2Proof.Machine.execDeq d a b s
  | .pstore d a b => Sys2Proof.Machine.execPstore d a b s
  | .binit a b => Sys2Proof.Machine.execBinit a b s
  | .barr d a k => Sys2Proof.Machine.execBarr d a k s
  | .bexp a b => Sys2Proof.Machine.execBexp a b s
  | .bwait a b => Sys2Proof.Machine.execBwait a b s
  | .btest d a b => Sys2Proof.Machine.execBtest d a b s
  | .nbarr d a g n => Sys2Proof.Machine.execNbarr d a g n s
  | .nbwait a n => Sys2Proof.Machine.execNbwait a n s
  | .copy d a n r => Sys2Proof.Machine.execCopy d a n r s
  | .copyg d a n => Sys2Proof.Machine.execCopyg d a n s
  | .copyc d a n f => Sys2Proof.Machine.execCopyc d a n f s
  | .accarm d a => Sys2Proof.Machine.execAccarm d a s
  | .contrib d a b => Sys2Proof.Machine.execContrib d a b s
  | .contribn d a b => Sys2Proof.Machine.execContribn d a b s
  | .accq d a b => Sys2Proof.Machine.execAccq d a b s
  | .accdrop a => Sys2Proof.Machine.execAccdrop a s
  | .axb d a i_ => Sys2Proof.Machine.execAxb d a i_ s
  | .axe a i_ => Sys2Proof.Machine.execAxe a i_ s
  | .axinv i_ => Sys2Proof.Machine.execAxinv i_ s
  | .axq d s_ i_ => Sys2Proof.Machine.execAxq d s_ i_ s
  | .tnop => Sys2Proof.Machine.execTnop s
  | .tfmt d a => Sys2Proof.Machine.execTfmt d a s
  | .tset d p i_ => Sys2Proof.Machine.execTset d p i_ s
  | .taddImm d a i_ => Sys2Proof.Machine.execTaddImm d a i_ s
  | .taddReg d a b => Sys2Proof.Machine.execTaddReg d a b s
  | .tldb a b s_ f => Sys2Proof.Machine.execTldb a b s_ f s
  | .tldc k a s_ f => Sys2Proof.Machine.execTldc k a s_ f s
  | .tzero k => Sys2Proof.Machine.execTzero k s
  | .mm k f a b l s_ => Sys2Proof.Machine.execMm k f a b l s_ s
  | .mmdual k f a b o s_ => Sys2Proof.Machine.execMmdual k f a b o s_ s
  | .mmt k f a b l s_ => Sys2Proof.Machine.execMmt k f a b l s_ s
  | .mms k f a b l s_ => Sys2Proof.Machine.execMms k f a b l s_ s
  | .tlds a b s_ => Sys2Proof.Machine.execTlds a b s_ s
  | .tsta k f d o t => Sys2Proof.Machine.execTsta k f d o t s
  | .temit k d => Sys2Proof.Machine.execTemit k d s
  | .tloopImm l c => Sys2Proof.Machine.execTloopImm l c s
  | .tloopReg l a => Sys2Proof.Machine.execTloopReg l a s
  | .tincOff s_ => Sys2Proof.Machine.execTincOff s_ s
  | .tincT s_ x i_ => Sys2Proof.Machine.execTincT s_ x i_ s
  | .tincAcc s_ i_ => Sys2Proof.Machine.execTincAcc s_ i_ s
  | .twait k a => Sys2Proof.Machine.execTwait k a s
  | .tarr k d => Sys2Proof.Machine.execTarr k d s
  | .tstop => Sys2Proof.Machine.execTstop s
  | .ctxBuild part ctx => Sys2Proof.Machine.execCtxBuild part ctx s
  | .ctxEnable part ctx => Sys2Proof.Machine.execCtxEnable part ctx s
  | .ctxPark part ctx => Sys2Proof.Machine.execCtxPark part ctx s
  | .ctxResume part ctx => Sys2Proof.Machine.execCtxResume part ctx s
  | .ctxDstop part ctx => Sys2Proof.Machine.execCtxDstop part ctx s
  | .ctxHalt part ctx => Sys2Proof.Machine.execCtxHalt part ctx s
  | .ctxRetire part ctx => Sys2Proof.Machine.execCtxRetire part ctx s
  | .ctxRelease part ctx => Sys2Proof.Machine.execCtxRelease part ctx s
  | .hewEnq part win ctx => Sys2Proof.Machine.execHewEnq part win ctx s
  | .hewDeq part win ctx => Sys2Proof.Machine.execHewDeq part win ctx s
  | .hewBind part win ctx => Sys2Proof.Machine.execHewBind part win ctx s
  | .hewDrain part win ctx => Sys2Proof.Machine.execHewDrain part win ctx s
  | .hewReset part win ctx => Sys2Proof.Machine.execHewReset part win ctx s
  | .dispatcherTake => Sys2Proof.Machine.execDispatcherTake s
  | .dependencyPoll queue => Sys2Proof.Machine.execDependencyPoll queue s
  | .nopPacket k => Sys2Proof.Machine.execNopPacket k s
  | .launchPacket k => Sys2Proof.Machine.execLaunchPacket k s
  | .pinPacket k => Sys2Proof.Machine.execPinPacket k s
  | .unpinPacket k => Sys2Proof.Machine.execUnpinPacket k s
  | .signalPacket k => Sys2Proof.Machine.execSignalPacket k s
  | .recordPacket k => Sys2Proof.Machine.execRecordPacket k s
  | .fitsyncPacket k => Sys2Proof.Machine.execFitsyncPacket k s
  | .policyPacket k => Sys2Proof.Machine.execPolicyPacket k s
  | .gridAccept k => Sys2Proof.Machine.execGridAccept k s
  | .groupPlace part => Sys2Proof.Machine.execGroupPlace part s
  | .groupRestore group => Sys2Proof.Machine.execGroupRestore group s
  | .groupParked group => Sys2Proof.Machine.execGroupParked group s
  | .groupDone group => Sys2Proof.Machine.execGroupDone group s
  | .groupRequeue group => Sys2Proof.Machine.execGroupRequeue group s
  | .kernelRetire k => Sys2Proof.Machine.execKernelRetire k s
  | .faultAtHub part ctx => Sys2Proof.Machine.execFaultAtHub part ctx s
  | .contextStopped part ctx => Sys2Proof.Machine.execContextStopped part ctx s
  | .watchdog k => Sys2Proof.Machine.execWatchdog k s
  | .pageWalk part ctx die va => Sys2Proof.Machine.execPageWalk part ctx die va s
  | .fitTrainingDone part ctx region => Sys2Proof.Machine.execFitTrainingDone part ctx region s
  | .scrubComplete die => Sys2Proof.Machine.execScrubComplete die s
  | .turnPass k => Sys2Proof.Machine.execTurnPass k s
  | .sampleAtHome sample => Sys2Proof.Machine.execSampleAtHome sample s
  | .loadComplete op => Sys2Proof.Machine.execLoadComplete op s
  | .storeAck op => Sys2Proof.Machine.execStoreAck op s
  | .fitAnswer op => Sys2Proof.Machine.execFitAnswer op s
  | .fillComplete op frame => Sys2Proof.Machine.execFillComplete op frame s
  | .homeRead op part => Sys2Proof.Machine.execHomeRead op part s
  | .homeOwn op part => Sys2Proof.Machine.execHomeOwn op part s
  | .homeWrite op part => Sys2Proof.Machine.execHomeWrite op part s
  | .homeEvict notice => Sys2Proof.Machine.execHomeEvict notice s
  | .homeWback notice => Sys2Proof.Machine.execHomeWback notice s
  | .invalidate txn agent => Sys2Proof.Machine.execInvalidate txn agent s
  | .invalidateAck txn agent => Sys2Proof.Machine.execInvalidateAck txn agent s
  | .rmwAtHome op part => Sys2Proof.Machine.execRmwAtHome op part s
  | .queueOpAtHome op part => Sys2Proof.Machine.execQueueOpAtHome op part s
  | .horizonReached txn => Sys2Proof.Machine.execHorizonReached txn s
  | .copyEntryAssign core => Sys2Proof.Machine.execCopyEntryAssign core s
  | .copyCellLand copy cell => Sys2Proof.Machine.execCopyCellLand copy cell s
  | .copycRowRead copy => Sys2Proof.Machine.execCopycRowRead copy s
  | .partialAtBuffer p => Sys2Proof.Machine.execPartialAtBuffer p s
  | .partialForwardTimeout held => Sys2Proof.Machine.execPartialForwardTimeout held s
  | .partialAtHome p => Sys2Proof.Machine.execPartialAtHome p s
  | .accdropAtHome part ctx slot home => Sys2Proof.Machine.execAccdropAtHome part ctx slot home s
  | .leaseExpiry die frame => Sys2Proof.Machine.execLeaseExpiry die frame s
  | .directorySweep die slice => Sys2Proof.Machine.execDirectorySweep die slice s
  | .gangStarved gang => Sys2Proof.Machine.execGangStarved gang s
  | .eagerHitNotify core part ctx region => Sys2Proof.Machine.execEagerHitNotify core part ctx region s
  | .peerRequest r => Sys2Proof.Machine.execPeerRequest r s
  | .refused op => Sys2Proof.Machine.execRefused op s
  | .dieLost die => Sys2Proof.Machine.execDieLost die s
  | .peerLost dev => Sys2Proof.Machine.execPeerLost dev s
  | .hostWrite fn offset data => Sys2Proof.Machine.execHostWrite fn offset data s
  | .hostRead bar offset len => Sys2Proof.Machine.execHostRead bar offset len s
  | .debugWindowAccess part ctx addr len data => Sys2Proof.Machine.execDebugWindowAccess part ctx addr len data s
  | .guardNsWrite value => Sys2Proof.Machine.execGuardNsWrite value s
  | .domIdWrite value => Sys2Proof.Machine.execDomIdWrite value s
  | .registerWrite reg value => Sys2Proof.Machine.execRegisterWrite reg value s
  | .linkEnable link => Sys2Proof.Machine.execLinkEnable link s
  | .linkDisable link => Sys2Proof.Machine.execLinkDisable link s
  | .linkQuarantine link => Sys2Proof.Machine.execLinkQuarantine link s
  | .linkRelease link => Sys2Proof.Machine.execLinkRelease link s
  | .linkTrained link lanes farInc => Sys2Proof.Machine.execLinkTrained link lanes farInc s
  | .linkTrainingFail link => Sys2Proof.Machine.execLinkTrainingFail link s
  | .laneFail link working => Sys2Proof.Machine.execLaneFail link working s
  | .flitCrcFail flit => Sys2Proof.Machine.execFlitCrcFail flit s
  | .linkRetrain link => Sys2Proof.Machine.execLinkRetrain link s
  | .gcmTagFail link => Sys2Proof.Machine.execGcmTagFail link s
  | .moduleReset => Sys2Proof.Machine.execModuleReset s
  | .getVersion fn => Sys2Proof.Machine.execGetVersion fn s
  | .getCapabilities fn => Sys2Proof.Machine.execGetCapabilities fn s
  | .negotiateAlgorithms fn offered => Sys2Proof.Machine.execNegotiateAlgorithms fn offered s
  | .getDigests fn => Sys2Proof.Machine.execGetDigests fn s
  | .getCertificate fn offset len => Sys2Proof.Machine.execGetCertificate fn offset len s
  | .challenge fn nonce => Sys2Proof.Machine.execChallenge fn nonce s
  | .getMeasurements fn index => Sys2Proof.Machine.execGetMeasurements fn index s
  | .keyExchange fn share => Sys2Proof.Machine.execKeyExchange fn share s
  | .finish fn verifyData => Sys2Proof.Machine.execFinish fn verifyData s
  | .keyUpdate target => Sys2Proof.Machine.execKeyUpdate target s
  | .endSession fn => Sys2Proof.Machine.execEndSession fn s
  | .lockInterfaceRequest fn => Sys2Proof.Machine.execLockInterfaceRequest fn s
  | .bindPolicyKey fn key => Sys2Proof.Machine.execBindPolicyKey fn key s
  | .startInterfaceRequest fn => Sys2Proof.Machine.execStartInterfaceRequest fn s
  | .stopInterfaceRequest fn => Sys2Proof.Machine.execStopInterfaceRequest fn s
  | .ideIntegrityFailure fn => Sys2Proof.Machine.execIdeIntegrityFailure fn s
  | .correctedError die => Sys2Proof.Machine.execCorrectedError die s
  | .uncorrectableError site => Sys2Proof.Machine.execUncorrectableError site s
  | .patrolScrub die corrected uncorrected => Sys2Proof.Machine.execPatrolScrub die corrected uncorrected s
  | .throttle temp => Sys2Proof.Machine.execThrottle temp s
  | .thermalTrip temp => Sys2Proof.Machine.execThermalTrip temp s
  | .undervoltageTrip millivolts => Sys2Proof.Machine.execUndervoltageTrip millivolts s
  | .stopGoSignal link cls stop => Sys2Proof.Machine.execStopGoSignal link cls stop s
  | .peerReadmission dev => Sys2Proof.Machine.execPeerReadmission dev s
  | .changePartition fn part dies reserved => Sys2Proof.Machine.execChangePartition fn part dies reserved s
  | .ideKeyManagement fn stream key => Sys2Proof.Machine.execIdeKeyManagement fn stream key s
  | .fullModuleTrainingComplete => Sys2Proof.Machine.execFullModuleTrainingComplete s

end Sys2Proof.Machine
end

