-- ==== Sys2Proof/Machine/Run.lean ====
section
/-! DEFINITION. Run.lean: one move of an agent (a cohort's fetch and issue, a tile word, an event, the passing of
time), the order in which agents move (R87, R121 to R123; log 2) and the machine that runs one given
word (log 5). -/

namespace Sys2Proof.Machine

/-! ## A cohort's turn (R38, R54, R311) -/

/-- The fetched word of an issue and the state that holds it in the instruction cache. -/
def laneFetch (e : Iss) : Except FaultCode Word := fetchWord e.s e.core e.ctx e.pc

/-- The state after the fetch (R194). -/
def laneFetched (e : Iss) : State :=
  { e.s with mem := icFill e.s e.core e.ctx e.pc }

/-- The cohort named fetches its instruction and issues it. A fetch that faults has the address as INFO; a word
that is no instruction raises ILLEGAL_OP (R54). -/
def laneStep (gi : Nat) (m : BitVec 8) (s : State) : Host.Outcome State Fault Refusal :=
  let s := { s with exe := { s.exe with cur := some (gi, m) } }
  match issOf s with
  | none => .next (idle s)
  | some e =>
    match laneFetch e with
    | .error f => .next (raise e (e.sls.headD 0) f (e.pc.zeroExtend 64))
    | .ok w =>
      match decodeLane w.toNat with
      | none => .next (raise { e with s := laneFetched e } (e.sls.headD 0) .illegalOp 0)
      | some i => exec i (laneFetched e)

/-! ## A tile word (R55, R56, R299) -/

/-- The next word of a stream: from the cassette, or from memory. -/
def tileWord (x : TIss) : Except FaultCode Word :=
  match x.t.cassette with
  | some c => .ok (nth c.words c.at_ 0)
  | none => fetchWord x.s x.grp.core x.ctx x.t.pc

/-- The addresses that a tile word at `pc` fetches: its own, unless it comes from the cassette, and those of the words it
captures. -/
def tileFetches (x : TIss) (i : Instr) : List VAddr :=
  let captured := match i with
    | .tloopImm l _ => l.toNat + 1
    | .tloopReg l _ => l.toNat + 1
    | _ => 0
  if x.t.cassette.isSome then [] else x.t.pc :: (List.range captured).map (capAddr x)

/-- The state after the fetches of a tile word (R194). -/
def tileFetched (x : TIss) (i : Instr) : State :=
  (tileFetches x i).foldl (fun s va => { s with mem := icFill s x.grp.core x.ctx va }) x.s

/-- The stream of a group executes its next word. -/
def tileStep (gid : Nat) (s : State) : Host.Outcome State Fault Refusal :=
  let s := { s with exe := { s.exe with curTile := some gid } }
  match tissOf s with
  | none => .next (tIdle s)
  | some x =>
    match tileWord x with
    | .error f => .next (tRaise x f x.t.pc.toNat x.t.pc)
    | .ok w =>
      match decodeTile w.toNat with
      | none => .next (tRaise x .illegalOp 0 x.t.pc)
      | some i => exec i (tileFetched x i)

/-! ## Time (R3, R72, R81, R337, R414; log 3) -/

/-- Whether a kernel's PTP time is counted against WDOG_MS (R72). -/
def counts (s : State) (k : Kernel) : Bool :=
  (k.state == .running || k.state == .draining) && (match kernCtx s k with
    | some c => c.state == .runnable || c.state == .running
    | none => false)

/-- The cores on which a context has a resident group. -/
def ctxCores (s : State) (c : Ctx) : List Nat :=
  uniq ((s.exe.groups.filter fun g => ofCtx s c.part c.cid g && resident g.state).map Group.core)

/-- A context with `n` cycles counted on its cores while PROFILE is open (R80, R408): the cycles of event 1 are those in
which it has a resident group on the core (DESIGN CHOICE, log 129). -/
def countCycles (s : State) (n : Nat) (c : Ctx) : Ctx :=
  if facilOpen s.ctl.parts c.part facProfile then
    (ctxCores s c).foldl (fun x core => perfCount x core 1 n) c
  else c

/-- Time passes: cycles and PTP nanoseconds are counted, and leases run out. -/
def tick (cycles ns : Nat) (s : State) : State :=
  expireLeases { s with
    ctl := { s.ctl with
      kernels := s.ctl.kernels.map fun k => if counts s k then { k with countNs := k.countNs + ns } else k
      ctxs := s.ctl.ctxs.map (countCycles s cycles) }
    sys := { s.sys with
      cycle := s.sys.cycle + cycles
      ptp := s.sys.ptp + ns } }

/-- The core clock in MHz (R412, R414). -/
def clockMhz (s : State) : Nat :=
  if s.sys.kickstand ∨ s.sys.step = 3 then 470
  else if s.sys.step = 2 then 705 else if s.sys.step = 1 then 846 else 940

/-- The nanoseconds of the next cycle, so that they add up to the clock's rate. -/
def cycleNs (s : State) : Nat :=
  (s.sys.cycle + 1) * 1000 / clockMhz s - s.sys.cycle * 1000 / clockMhz s

/-! ## Who moves next (R87, R121 to R123) -/

/-- Whether a cohort's next instruction can issue now (R121). -/
def cohortReady (s : State) (gi : Nat) (m : BitVec 8) : Bool :=
  let n := fun (t : State) => ((t.exe.gangs[gi]?).map Gang.issues).getD 0
  match laneStep gi m s with
  | .next t => n t != n s || t.ctl.faults.length != s.ctl.faults.length
  | _ => false

/-- A gang's cohorts in cyclic order after the one that issued last (R121). -/
def cohortOrder (g : Gang) : List (BitVec 8) :=
  let after := fun (c : BitVec 8) => match g.lastCoh with
    | some l => decide (l < lowSlice c)
    | none => true
  g.cohorts.filter after ++ g.cohorts.filter fun c => !after c

/-- A gang that may be chosen: its number, its ready cohort, its scheduler, its age and itself. -/
structure Ready where
  gang  : Nat
  mask  : BitVec 8
  sched : Nat
  age   : Nat
  g     : Gang

/-- The age of a gang: placement number, stage, gang index (R121). -/
def gangAge (grp : Group) (k : Kernel) (g : Gang) : Nat := (grp.placeNo * 4 + stageOf k.pkt g.idx) * 32 + g.idx

/-- The ready gangs of the machine. -/
def readyGangs (s : State) : List Ready :=
  s.exe.gangs.zipIdx.filterMap fun x =>
    match s.exe.groups[x.1.grp]? with
    | none => none
    | some grp =>
      match kernOf s grp with
      | none => none
      | some k =>
        if !grp.gangs.contains x.2 then none
        else ((cohortOrder x.1).find? fun m => cohortReady s x.2 m).map fun m =>
          ⟨x.2, m, schedOf grp x.1, gangAge grp k x.1, x.1⟩

/-- The oldest of some ready gangs. -/
def oldest (rs : List Ready) : Option Ready :=
  rs.foldl (fun b r => match b with
    | some x => if r.age < x.age then some r else b
    | none => some r) none

/-- The gang of one scheduler that issues because it has starved: the oldest of the ready ones (R121, R122). -/
def starvedFirst (rs : List Ready) : Option Ready := oldest (rs.filter fun r => decide (starveLimit ≤ r.g.starve))

/-- The choice of one scheduler among its ready gangs (R121, R137). -/
def choose (s : State) (sched : Nat) (rs : List Ready) : Option Ready :=
  let last := (s.exe.lastGang.find? fun p => p.1 == sched).map Prod.snd
  match starvedFirst rs, rs.find? fun r => some r.gang == last && !r.g.yielded with
  | some r, _ => some r
  | none, some r => some r
  | none, none =>
    match oldest (rs.filter fun r => !r.g.yielded) with
    | some r => some r
    | none => oldest rs

/-- The choices of every scheduler that has a ready gang. -/
def chosen (s : State) (rs : List Ready) : List Ready :=
  (uniq (rs.map Ready.sched)).filterMap fun q => choose s q (rs.filter fun r => r.sched == q)

/-- The starvation counts of the ready gangs that are not chosen rise by one cycle (R122); the gangs that have given way
have done so, and their greedy claims are over (R137). -/
def countStarved (s : State) (rs cs : List Ready) : State :=
  let gone := fun (gi : Nat) => ((s.exe.gangs[gi]?).map Gang.yielded).getD false
  { s with exe := { s.exe with
      lastGang := s.exe.lastGang.filter fun p => !gone p.2
      gangs := s.exe.gangs.mapIdx fun i (g : Gang) =>
        let g := { g with yielded := false }
        if (rs.any fun r => r.gang == i) && !(cs.any fun r => r.gang == i) then
          { g with starve := g.starve + 1 } else g } }

/-! ## One move -/

/-- The issue of a gang that has starved, where it is the one its scheduler takes (R121, R122). -/
def starvedStep (gi : Nat) (s : State) : Host.Outcome State Fault Refusal :=
  let rs := readyGangs s
  match rs.find? fun r => r.gang == gi with
  | none => .next s
  | some r =>
    match starvedFirst (rs.filter fun x => x.sched == r.sched) with
    | some x => if x.gang = gi then laneStep gi r.mask s else .next s
    | none => .next s

/-- An agent's move. -/
def perform (m : Move) (s : State) : Host.Outcome State Fault Refusal :=
  match m with
  | .lane gi k => laneStep gi k s
  | .tile g => tileStep g s
  | .event i => exec i s
  | .starved gi => starvedStep gi s
  | .tick c n => .next (tick c n s)

/-! ## What engines have in hand (log 2) -/

/-- The steps an operation may be due. -/
def opEvents (o : MemOp) : List Instr :=
  let each := fun (f : Nat → Instr) => (List.range o.parts.length).map f
  match o.kind with
  | .load | .sload => each (.homeRead o.id) ++ (framesOf o.parts).map (.fillComplete o.id) ++ [.loadComplete o.id]
  | .store => each (.homeOwn o.id) ++ each (.homeWrite o.id) ++ [.storeAck o.id]
  | .rmw _ _ _ => each (.rmwAtHome o.id) ++ [.loadComplete o.id, .storeAck o.id]
  | .enq _ | .deq _ => each (.queueOpAtHome o.id) ++ [.loadComplete o.id]
  | .axb _ | .axe _ => [.fitAnswer o.id]
  | _ => [.loadComplete o.id, .storeAck o.id]

def txnEvents (t : Txn) : List Instr :=
  (t.outstanding.filter fun a => a != 9).flatMap (fun a => [.invalidate t.id a, .invalidateAck t.id a])
    ++ if t.outstanding.contains 9 then [.horizonReached t.id] else []

/-- Up to 16 cells of a copy land in a cycle, one 512-byte beat (R73). -/
def copyEvents (c : Copy) : List Instr :=
  if c.kind == .contrib then [.copycRowRead c.id]
  else List.replicate (min 16 c.left.length) (.copyCellLand c.id 0)

def partialEvents (p : Partial) : List Instr :=
  match p.loc with
  | .toCore _ | .toPort _ => [.partialAtBuffer p.id]
  | .heldCore _ | .heldPort _ => [.partialForwardTimeout p.id]
  | .toHome | .rooted _ => [.partialAtHome p.id]
  | .heldHome _ => []

def dropEvents (c : Ctx) : List Instr :=
  (c.accs.filter fun a => a.state == .dropping).flatMap fun a =>
    ((List.range homeCount).filter fun h => !a.purged.contains h).map fun h => .accdropAtHome c.part c.cid a.slot h

/-- The action of a packet that waits. -/
def packetEvent (kind k : Nat) : Instr :=
  if kind = pkNop then .nopPacket k else if kind = pkLaunch then .launchPacket k
  else if kind = pkPin then .pinPacket k else if kind = pkUnpin then .unpinPacket k
  else if kind = pkSignal then .signalPacket k else if kind = pkRecord then .recordPacket k
  else if kind = pkFitsync then .fitsyncPacket k else .policyPacket k

def kernelEvents (k : Kernel) (i : Nat) : List Instr :=
  if k.due = .add then [.kernelRetire i] else
  match k.state with
  | .waiting => [packetEvent k.pkt.kind i]
  | .dispatching => [.gridAccept i]
  | .running => [.watchdog i] ++ if k.fixed then [.turnPass i] else []
  | .draining => [.kernelRetire i, .watchdog i]
  | .fitting => k.regions.map fun r => .fitTrainingDone k.part k.ctx r.id
  | .pinning | .retired | .failed => []

def groupEvents (g : Group) (i : Nat) : List Instr :=
  match g.state with
  | .parking => [.groupParked i]
  | .parked => [.groupRestore i]
  | .exiting => [.groupDone i]
  | .killed => [.groupRequeue i]
  | .pending | .placed | .running | .done => []

def ctxEvents (s : State) (c : Ctx) : List Instr :=
  (if s.ctl.faults.any fun f => f.part == c.part && f.ctx == c.cid then [.faultAtHub c.part c.cid] else [])
    ++ (if c.state == .halting then [.contextStopped c.part c.cid] else []) ++ dropEvents c

/-- The packets on the fabric that no operation and no copy of this device waits for. -/
def unwaited (s : State) : List Nat :=
  uniq ((s.sys.flight.map FabricOut.tag).filter fun t =>
    !(s.mem.ops.any fun o => o.id == t) && !(s.exe.copies.any fun c => c.id == t))

/-- The cores whose copy units have copies to take in, or to acknowledge. -/
def entryCores (s : State) : List Nat :=
  uniq ((s.exe.copies.filter fun c => !c.queued).map Copy.core
    ++ (s.mem.ops.filter fun o => o.kind == .copyAck).map MemOp.core)

/-- The engines' steps in hand; one that is not due leaves the state as it is. -/
def pending (s : State) : List Instr :=
  s.ctl.ctxs.flatMap (ctxEvents s) ++ s.mem.ops.flatMap opEvents ++ s.mem.txns.flatMap txnEvents
    ++ (s.mem.notices.map fun n => if n.data.isSome then Instr.homeWback n.id else .homeEvict n.id)
    ++ (s.mem.walks.map fun w => .pageWalk w.part w.ctx w.die (BitVec.ofNat 64 (w.page * 2 ^ 16)))
    ++ (unwaited s).map .storeAck ++ (entryCores s).map .copyEntryAssign
    ++ s.exe.copies.flatMap copyEvents ++ s.ctl.partials.flatMap partialEvents
    ++ (s.ctl.samples.map fun x => .sampleAtHome x.id) ++ s.sys.scrubbing.map .scrubComplete
    ++ (s.ctl.kernels.zipIdx.flatMap fun k => kernelEvents k.1 k.2)
    ++ (s.ctl.queues.filter fun q => q.taken.isSome || q.state == .stalled).map (fun q => .dependencyPoll q.id) ++ [.dispatcherTake]
    ++ (s.exe.groups.zipIdx.flatMap fun g => groupEvents g.1 g.2)
    ++ s.ctl.parts.map fun p => .groupPlace p.id

/-- The tile streams with a word to execute. -/
def streams (s : State) : List Nat :=
  (s.exe.groups.zipIdx.filter fun g => match g.1.tile with
    | some t => !t.ended && !t.stopped && resident g.1.state
    | none => false).map Prod.snd

/-- One core cycle's moves, where no agenda is left: every scheduler's issue, every stream's word, every
engine's step, and the cycle itself. -/
def plan (s : State) : State :=
  let rs := readyGangs s
  let cs := chosen s rs
  let ms := (cs.map fun r => Move.lane r.gang r.mask) ++ (streams s).map Move.tile
    ++ (pending s).map Move.event ++ [.tick 1 (cycleNs s)]
  let t := countStarved s rs cs
  { t with exe := { t.exe with agenda := ms } }

/-! ## A machine that runs one word (log 5) -/

/-- Bytes of device memory: page tables that map 1 GiB one to one with every permission, and a word at 1 MiB and
at 2 MiB. -/
def bootBytes (w : Nat) : SMap 8 :=
  smPut (smPut (smPut (smPut [] 0x10000 (natLe 0x20001 8)) 0x20000 (natLe 0x81F 8)) 0x100000 (natLe w 4))
    0x200000 (natLe w 4)

/-- A launch of one group of one gang with 240 registers, the largest window and a tile stream. -/
def bootPacket : Packet :=
  { kind := 1, prio := 0, flags := 0, stages := [1, 0, 0, 0], code := 0x100000, tile := 0x200000, gx := 1, gy := 1,
    gz := 1, regs := 240, acc := 4, lmem := 0x10000, args := 0, wset := 0, dep0 := 0, dep0v := 0, dep1 := 0,
    dep1v := 0, done := 0, donev := 0, regions := 0, recdest := 0, raw := [] }

def bootKernel : Kernel :=
  { id := 0, part := 0, ctx := 0, queue := 0, qidx := 0, qpa := 0, qleaf := 0, ord := 0, pkt := bootPacket, state := .running, prio := 0,
    fixed := false, core := none, acceptNo := some 0, nextLid := 1, total := 1, started := true }

def bootCtx : Ctx :=
  { part := 0, cid := 0, state := .running,
    desc := { ptRoot := 0x10000, stopArea := 0x1000000, saveArea := 0x2000000, saveSize := 0x1000000 } }

def bootPart : Partition := { id := 0, vf := 1, dies := [0], state := .run, placeNo := 1 }

def bootGroup : Group :=
  { kern := 0, lid := 0, state := .running, gangs := [0], nbs := List.replicate 16 { reload := 2, pend := 2 },
    tile := newTile bootPacket, tctx := some 0, slots := [0], rots := [0] }

/-- The machine with a running group whose lane and tile program counters stand at word `w`. -/
def bootState (s : State) (w : Nat) (next : Move) : State :=
  { exe := { agenda := [next], gangs := [newGang bootKernel bootCtx 0 0 0 0 0], groups := [bootGroup] }
    mem := { bytes := bootBytes w }
    ctl := { ctxs := [bootCtx], parts := [bootPart], kernels := [bootKernel] }
    sys := s.sys }

/-- The move that runs a word: the lane stream's, or the tile stream's where only that decodes it (log 4). -/
def bootMove (w : Nat) : Move := if (decodeLane w).isNone && (decodeTile w).isSome then .tile 0 else .lane 0 0xFF

end Sys2Proof.Machine
end

