-- ==== Sys2Proof/Machine/Step.lean ====
section
/-! DEFINITION. Step.lean: the step of the machine and where the host places a word. -/

namespace Sys2Proof.Machine

/-- One step: the move at the head of the agenda is performed; with none left, the next cycle is planned. While
the clocks are stopped, only MODULE_RESET goes on (R414). -/
def step (s : State) : Host.Outcome State Fault Refusal :=
  match s.exe.agenda with
  | [] => if s.sys.clocksStopped then .fault .clocksStopped else .next (plan s)
  | m :: rest =>
    if s.sys.clocksStopped && m != .event .moduleReset then .fault .clocksStopped
    else perform m { s with exe := { s.exe with agenda := rest } }

/-- The machine whose next step fetches and runs the word `w` (log 5). -/
def State.withFetchWord (s : State) (nbits w : Nat) : State :=
  bootState s (w % 2 ^ min nbits 32) (bootMove (w % 2 ^ min nbits 32))

end Sys2Proof.Machine
end

