-- ==== Sys2Proof/Safety.lean ====
section
/-! DEFINITION. Safety.lean: the words that the statements use: what counts as a safe state, what an
instruction leaves alone, and when an issue ends without a trap. -/

namespace Sys2Proof.Machine

/-! ## Safe states -/

/-- Every directory entry stands for a whole grain of 32, 128 or 512 bytes (R313, R324). -/
def GrainsOk (d : List DirEntry) : Prop := ∀ e ∈ d, (e.size = 32 ∨ e.size = 128 ∨ e.size = 512) ∧ e.grain % e.size = 0

/-- Every map of bytes stands in canonical form, and the directory holds whole grains. -/
def Mem.ok (m : Mem) : Prop :=
  Memory.wf m.bytes = true ∧ Memory.wf m.lpddr = true ∧ Memory.wf m.host = true ∧ GrainsOk m.dir

/-- The fields of the fabric page keep the widths that R332 and R334 give them: DOM_ID nine bits, 24 links. -/
def Sys.ok (x : Sys) : Prop := x.domId < 512 ∧ x.links.length = 24

/-- Every gang has its eight slices (R41). -/
def Exe.ok (x : Exe) : Prop := ∀ g ∈ x.gangs, g.slices.length = 8

/-- The invariant of the machine that every step keeps. -/
def Good (s : State) : Prop := s.mem.ok ∧ s.sys.ok ∧ s.exe.ok

/-- A safe run reaches no state whose clocks have stopped, and no context of it has begun to halt (R70, R414). -/
def Safe (s : State) : Prop :=
  s.sys.clocksStopped = false ∧ ∀ c ∈ s.ctl.ctxs, c.state ≠ .halting ∧ c.state ≠ .halted

/-- The byte of memory at a device offset, as an access at its home finds it. -/
def homeByte (s : State) (off : Nat) : Byte := coByte s.mem off

/-! ## What the end of an issue may change -/

/-- A group but for its state (R115), the mark that its slices have stopped and the save record of a park that lapses
(R84). -/
def groupBody (g : Group) : Group := { g with state := .done, atStop := false, saved := none }

/-- A context but for its performance counters (R80) and the save records held (R84). -/
def ctxBody (c : Ctx) : Ctx := { c with perf := [], saves := [] }

/-- A kernel but for the turn of its rotation (R87). -/
def kernBody (k : Kernel) : Kernel := { k with turn := 0 }

/-- A partition but for the stack areas in use and what they hold (R126). -/
def partBody (p : Partition) : Partition := { p with areas := [], pool := [] }

/-- Between `s` and `t` nothing differs but gang `gi`, the bookkeeping of an issue (group states, turns, save records of
parks that lapse, stack areas, performance counters, the scheduler's last gang) and faults added. -/
structure OnlyGang (s t : State) (gi : Nat) : Prop where
  mem : t.mem = s.mem
  sys : t.sys = s.sys
  gangs : ∀ j, j ≠ gi → t.exe.gangs[j]? = s.exe.gangs[j]?
  groups : t.exe.groups.map groupBody = s.exe.groups.map groupBody
  copies : t.exe.copies = s.exe.copies
  queues : t.ctl.queues = s.ctl.queues
  partials : t.ctl.partials = s.ctl.partials
  samples : t.ctl.samples = s.ctl.samples
  ctxs : t.ctl.ctxs.map ctxBody = s.ctl.ctxs.map ctxBody
  kernels : t.ctl.kernels.map kernBody = s.ctl.kernels.map kernBody
  parts : t.ctl.parts.map partBody = s.ctl.parts.map partBody

/-- The register file of a gang and what belongs to it, unchanged: registers, predicates, uniform registers,
control registers and open regions. -/
structure SameFile (g g' : Gang) : Prop where
  regs : g'.regs = g.regs
  preds : g'.preds = g.preds
  sregs : g'.sregs = g.sregs
  trapBase : g'.trapBase = g.trapBase
  fpxEn : g'.fpxEn = g.fpxEn
  dbgCtl : g'.dbgCtl = g.dbgCtl
  gear : g'.gear = g.gear
  axCount : g'.axCount = g.axCount
  opens : g'.opens = g.opens
  grp : g'.grp = g.grp

/-- The gang's control registers and open regions, unchanged (R80, R356). -/
structure SameControl (g g' : Gang) : Prop where
  trapBase : g'.trapBase = g.trapBase
  fpxEn : g'.fpxEn = g.fpxEn
  dbgCtl : g'.dbgCtl = g.dbgCtl
  gear : g'.gear = g.gear
  axCount : g'.axCount = g.axCount
  opens : g'.opens = g.opens
  grp : g'.grp = g.grp

/-- What a trap does not touch of a slice: its counters, its ended lanes and its sticky conditions. -/
def tally (x : Slice) : Nat × Nat × Nat × Nat × BitVec 4 × Word := (x.cL, x.cS, x.cC, x.cF, x.exited, x.fpx)

/-- No slice of the cohort has a full stack, so that a trap due after the instruction finds room (R78). -/
def RoomForTraps (e : Iss) : Prop := ∀ k ∈ e.sls, (e.g.sl k).stack.length < stackLimit

/-- No trap is due after an instruction of the cohort whatever it does: no condition traps and STEP is clear
(R78, R80). -/
def Quiet (e : Iss) : Prop :=
  e.g.fpxEn = 0 ∧ (dbgCtl e.s e.g e.kern.part).getLsbD 1 = false

/-- The cohort's instruction has retired in `t`, with `g` the gang as it stands then: every slice of the cohort
has retired one more, and the gang has issued once more. -/
structure Retired (t : State) (e : Iss) (g : Gang) : Prop where
  gang : t.exe.gangs[e.gi]? = some g
  issues : g.issues = e.g.issues + 1
  retired : ∀ k ∈ e.sls, (e.g.slices[k]?).isSome = true → (g.sl k).retired = (e.g.sl k).retired + 1
  idle : t.exe.cur = none

/-! ## Results of an instruction -/

/-- Some slice of the cohort runs: not all its lanes wait on the stack or have exited. -/
def someRuns (e : Iss) : Prop := ∃ k ∈ e.sls, ∃ x, e.g.slices[k]? = some x ∧ x.run ≠ 0

/-- Where no trap follows the instruction, the slices of the cohort stand at pc + 4 in `g`, and no slice's lanes,
stack, mode word or IM have changed (R49, R59, R119). -/
def Advanced (e : Iss) (g : Gang) : Prop :=
  Quiet e → someRuns e → ∀ k x, e.g.slices[k]? = some x → ∃ y, g.slices[k]? = some y ∧ y.run = x.run
    ∧ y.exited = x.exited ∧ y.stack = x.stack ∧ y.mode = x.mode ∧ y.im = x.im
    ∧ y.pc = if e.mask.getLsbD k then x.pc + 4 else x.pc

/-- The lanes `ls` have written the results `v`: LR and register `d` hold the result's low word, and a wide
result's high word stands in register d + 1 (R42, R43). Every other register keeps its value. -/
def Wrote (r r' : SMap 32) (ls : List Nat) (d : Byte) (wide : Nat → Bool) (v : Nat → Nat) : Prop :=
  ∀ l c, l < 32 → c < 256 → smGet r' (regKey l c) =
    if l ∈ ls ∧ (c = 0 ∨ c = d.toNat) then BitVec.ofNat 32 (v l)
    else if l ∈ ls ∧ wide l = true ∧ c = d.toNat + 1 then BitVec.ofNat 32 (v l / 2 ^ 32)
    else smGet r (regKey l c)

/-- Predicate `p` holds `v` in the lanes `ls`; P0 is never written, and every other predicate and lane keeps its
value (R44). -/
def WrotePred (g g' : Gang) (ls : List Nat) (p : Nat) (v : Nat → Bool) : Prop :=
  ∀ q l, l < 32 → predAt g' q l = if q ≠ 0 ∧ q = p ∧ l ∈ ls then v l else predAt g q l

/-- The counters of every slice and its sticky conditions after the conditions `c` of the lanes `ls` (R51, R80):
the counters stay, and each condition raised stays set. -/
def Raised (g g' : Gang) (ls : List Nat) (c : Nat → Conds) : Prop :=
  ∀ k, (g.slices[k]?).isSome = true →
    tally (g'.sl k) = tally { g.sl k with fpx := fpxOr (g.sl k).fpx (sliceConds k ls c) }

/-- The cohort `e` has retired an instruction whose only effect is a result `v` in the lanes `ls`, with the
conditions `c`. -/
def Result (s t : State) (e : Iss) (ls : List Nat) (d : Byte) (wide : Nat → Bool) (v : Nat → Nat)
    (c : Nat → Conds) : Prop :=
  ∃ g, Retired t e g ∧ OnlyGang s t e.gi ∧ Wrote e.g.regs g.regs ls d wide v ∧ g.preds = e.g.preds
    ∧ g.sregs = e.g.sregs ∧ SameControl e.g g ∧ Raised e.g g ls c ∧ Advanced e g

/-- The cohort `e` has retired an instruction whose only effect is predicate `p` in its active lanes. -/
def PredResult (s t : State) (e : Iss) (p : Nat) (v : Nat → Bool) (c : Nat → Conds) : Prop :=
  ∃ g, Retired t e g ∧ OnlyGang s t e.gi ∧ WrotePred e.g g e.active p v ∧ g.regs = e.g.regs
    ∧ g.sregs = e.g.sregs ∧ SameControl e.g g ∧ Raised e.g g e.active c ∧ Advanced e g

/-- The cohort `e` has retired a uniform instruction: uniform register `d` holds `v`, computed for the slice of
the lowest active lane, and nothing is written where no lane is active (R157). -/
def UniResult (s t : State) (e : Iss) (d : Byte) (v : Nat → Nat) : Prop :=
  ∃ g, Retired t e g ∧ OnlyGang s t e.gi
    ∧ (∀ c, smGet g.sregs c = match e.active.head? with
        | some l => if c = d.toNat then BitVec.ofNat 32 (v (l / 4)) else smGet e.g.sregs c
        | none => smGet e.g.sregs c)
    ∧ g.regs = e.g.regs ∧ g.preds = e.g.preds ∧ SameControl e.g g ∧ (∀ k, tally (g.sl k) = tally (e.g.sl k))
    ∧ Advanced e g

/-- The cohort `e` has retired an instruction whose only effect is `f` on each of its slices; the other slices
keep everything. -/
def SliceResult (s t : State) (e : Iss) (f : Nat → Slice → Slice) : Prop :=
  ∃ g, Retired t e g ∧ OnlyGang s t e.gi ∧ SameFile e.g g ∧ ∀ k x, e.g.slices[k]? = some x →
    g.slices[k]? = some (if e.mask.getLsbD k then { f k x with retired := (f k x).retired + 1 } else x)

/-! ## Operands -/

/-- The slices of a cohort hold an element type of the set `ty`; the destinations `ds` and the sources `ss` are
legal at that type, and `ps` are declared 32-bit registers (R41 to R43, R46, R48, R54). -/
def Fits (e : Iss) (ty : Nat → Bool) (ds ss ps : List Byte) : Prop :=
  ∀ k ∈ e.sls, ty (e.ty k) = true ∧ (∀ d ∈ ds, dstOk e.n (e.ty k) d = true)
    ∧ (∀ a ∈ ss, srcOk e.n (e.ty k) a = true) ∧ ∀ c ∈ ps, declOk e.n c = true

/-- The source `c` in lane `l`, at the element type of the lane's slice (R49). -/
def Iss.val (e : Iss) (c : Byte) (l : Nat) : Nat := rdT e.g (e.lty l) l c

/-- Element `i` of the source `c` in lane `l`, as an integer (R140). -/
def Iss.int (e : Iss) (c : Byte) (l i : Nat) : Int := intVal (e.lty l) (elemOf (e.lty l) (e.val c l) i)

/-- `r` is the element that holds the exact result `z`: clamped to the type's range under SAT, and equal to `z`
modulo 2^w otherwise (R141). -/
def Exactly (t : Nat) (sat : Bool) (z : Int) (r : Nat) : Prop :=
  r < 2 ^ tyWidth t ∧
    if sat then intVal t r = clampInt z (intLo t) (intHi t) else (2 ^ tyWidth t : Int) ∣ intVal t r - z

/-- The results of an instruction are wide in the lanes whose element type is (R43). -/
def Iss.wide (e : Iss) (l : Nat) : Bool := tyWide (e.lty l)

/-! ## Words of the statements -/

/-- The J-format target (R40): pc + 4 × sign_extend(offset, 24), an address of 56 bits. -/
def targetOf (pc : VAddr) (o : BitVec 24) (t : VAddr) : Prop :=
  (t.toNat : Int) = (pc.toNat : Int) + 4 * o.toInt

/-- Where the running lanes whose guard is true go to `t` and the others to `other` (R127). -/
def divided (x : Slice) (taken : BitVec 4) (t other : VAddr) : Option Slice :=
  if taken = 0 then some { x with pc := other }
  else if x.run &&& ~~~taken = 0 then some { x with pc := t }
  else match x.stack with
    | e :: r => if e.kind = .joinpt ∧ e.pend = 0 then
        some { x with run := taken, pc := t,
                      stack := { e with pend := x.run &&& ~~~taken, ppc := other } :: r } else none
    | [] => none

/-- The state whose group `gid` is the one whose tile stream moves. -/
def streamNamed (s : State) (rest : List Move) (gid : Nat) : State :=
  { s with exe := { s.exe with agenda := rest, curTile := some gid } }

/-- The state whose cohort `m` of gang `gi` is the one that issues, the rest of the agenda left. -/
def cohortNamed (s : State) (rest : List Move) (gi : Nat) (m : BitVec 8) : State :=
  { s with exe := { s.exe with agenda := rest, cur := some (gi, m) } }

/-- The count of a shift: the whole of b, or its element under a packed type (R147). -/
def shiftBy (e : Iss) (b : Byte) (l i : Nat) : Nat :=
  if tyCount (e.lty l) = 1 then rd e.g l b else elemOf (e.lty l) (rd e.g l b) i

/-- The six conditions of ICMP and SCMP, by code (R150). -/
def holdsCond (c : BitVec 3) (x y : Int) : Prop :=
  (c = 0 ∧ x = y) ∨ (c = 1 ∧ x ≠ y) ∨ (c = 2 ∧ x < y) ∨ (c = 3 ∧ x ≤ y) ∨ (c = 4 ∧ y < x) ∨ (c = 5 ∧ y ≤ x)

/-- The results `v` and the conditions `c` of a lane are formed per element by `f`, and the conditions of the
elements are raised together (R160). -/
def perElement (e : Iss) (v : Nat → Nat) (c : Nat → Conds) (f : Nat → Nat → Nat × Conds) : Prop :=
  ∀ l ∈ e.active, c l = orConds ((List.range (tyCount (e.lty l))).map fun i => (f l i).2) ∧
    ∀ i < tyCount (e.lty l), elemOf (e.lty l) (v l) i = (f l i).1 % 2 ^ tyWidth (e.lty l)

/-- Element `i` of source `c` as a code of the element format. -/
def codeOf (e : Iss) (c : Byte) (l i : Nat) : Nat := elemOf (e.lty l) (e.val c l) i

/-- The value of that element (R22). -/
def numOf (e : Iss) (c : Byte) (l i : Nat) : FVal := decodeF (tyFmt (e.lty l)) (codeOf e c l i)

/-- No slice of the cohort holds the rounding mode RST (R160). -/
def noRst (e : Iss) : Prop := ∀ k ∈ e.sls, mRound (e.mode k) ≠ 5

/-- The class of a code, as the bit of R165's table. -/
def classOf (f : Fmt) (x : Nat) : Nat :=
  let neg := x.testBit (f.eb + f.mb)
  let mag := x % 2 ^ (f.eb + f.mb)
  if infCode f < mag then 8
  else if mag = infCode f then (if neg then 0 else 7)
  else if mag = 0 then (if neg then 3 else 4)
  else if mag < 2 ^ f.mb then (if neg then 2 else 5)
  else (if neg then 1 else 6)

/-- The magnitude of one of CMP24's elements, a NaN above every other (R178). -/
def keyOf (e : Iss) (a : Byte) (l i : Nat) : Nat :=
  let t := e.lty l
  let v := if tyWidth t = 16 then rdPair e.g l a else rd e.g l a
  let x := v / 2 ^ (tyWidth t * i) % 2 ^ tyWidth t
  if t = 10 then (signed x 8).natAbs
  else if decodeF (tyFmt t) x = .nan then 2 ^ 32 else x % 2 ^ (tyWidth t - 1)

/-- Slice `k` of the cohort is the lowest for which `bad` holds. -/
def lowestSuch (e : Iss) (k : Nat) (bad : Nat → Prop) : Prop :=
  k ∈ e.sls ∧ bad k ∧ ∀ j ∈ e.sls, j < k → ¬ bad j

/-- Where lane `l` goes by BRX: its own target, or pc + 4 where its guard is false (R132). -/
def brxGoes (e : Iss) (a : Byte) (l : Nat) : Nat :=
  if guardTrue e.g l then rdPair e.g l a else (e.pc + 4).toNat

/-- The lowest running lane of a slice. -/
def leadLane (e : Iss) (k : Nat) : Nat := (((List.range 4).map (4 * k + ·)).find? (runOn e.g)).getD (4 * k)

/-- The running lanes of a slice that go with its lowest one (R132). -/
def brxSideOf (e : Iss) (a : Byte) (k : Nat) : BitVec 4 :=
  sliceMask k fun l => runOn e.g l && decide (brxGoes e a l = brxGoes e a (leadLane e k))

/-- The lanes of a slice that end by EXIT (R136): where none is left running, the slice unwinds. -/
def afterExit (act : BitVec 4) (y : Slice) : Slice :=
  if y.run &&& ~~~act = 0 then unwind { y with exited := y.exited ||| act, run := y.run &&& ~~~act } y.stack
  else { y with exited := y.exited ||| act, run := y.run &&& ~~~act, pc := y.pc + 4 }

/-- A slice counted once more as retired, where the cohort holds it. -/
def countRetired (e : Iss) (k : Nat) (f : Slice → Slice) (x : Slice) : Slice :=
  if e.mask.getLsbD k then { f x with retired := (f x).retired + 1 } else x

/-- A slice that has taken a trap (R78): the TRAP entry holds the return address, every running lane, the mode word
and IM; the trapping lanes run on at TRAP_BASE under the reset mode word. -/
def trapped (g : Gang) (cause : Nat) (lanes : BitVec 4) (ret at_ : VAddr) (x : Slice) : Slice :=
  { x with
    stack := { kind := .trap, lanes := x.run, pc := ret, mode := x.mode, im := x.im } :: x.stack
    run := lanes
    trapCause := BitVec.ofNat 32 cause
    trapInfo := at_.zeroExtend 64
    mode := 0x040200
    pc := g.trapBase.setWidth 56 }

/-- A fault: nothing changes but that its slice has stopped and its record is on its way to the hub, with the
context, the code, the address, the kernel ordinal, the group and the gang (R73, R76). -/
def Faulted (s t : State) (e : Iss) (k : Nat) (code : FaultCode) (info : Dbl) : Prop :=
  OnlyGang s t e.gi ∧ t.exe.cur = none ∧
    (t.exe.gangs[e.gi]? = some { e.g with slices := modAt e.g.slices k fun x => { x with stopped := true } }) ∧
    ∃ r, t.ctl.faults = s.ctl.faults ++ [r] ∧ r.part = e.kern.part ∧ r.ctx = e.kern.ctx ∧ r.code = some code ∧
      r.kind = 1 ∧ r.info = info ∧ r.pc = (e.g.sl k).pc.zeroExtend 64 ∧ r.mode = (e.g.sl k).mode.zeroExtend 32 ∧
      r.kord = e.kern.ord ∧ r.group = e.grp.lid ∧ r.gang = e.g.idx

/-- Whether a trap follows the instruction in slice `k`: its active lanes still run, and no TRAP entry stands on its
stack (R78). -/
def mayTrap (e : Iss) (k : Nat) : Prop :=
  (∀ x ∈ (e.g.sl k).stack, x.kind ≠ .trap) ∧ e.act k ≠ 0 ∧ e.act k &&& (e.g.sl k).run = e.act k

/-- The value that CSRW's highest slice with an active lane writes to register `n`, if any lane is active (R80). -/
def lastSource (e : Iss) (d : Byte) (n : Nat) : Option Nat := (e.sls.filterMap (csrwSource e d n)).getLast?

/-- Memory at its homes, unchanged: device memory, LPDDR, the host's bytes, the home slices, the directory and what
is on its way. -/
structure SameHome (m m' : Mem) : Prop where
  bytes : m'.bytes = m.bytes
  lpddr : m'.lpddr = m.lpddr
  keys : m'.keys = m.keys
  host : m'.host = m.host
  homeBlocks : m'.homeBlocks = m.homeBlocks
  llc : m'.llc = m.llc
  dir : m'.dir = m.dir
  txns : m'.txns = m.txns
  notices : m'.notices = m.notices

/-- The cohort has retired an instruction that leaves the operations `ops` in flight, one for each of its slices in
ascending order: each slice's counter of its class is one higher, nothing else of the gang has changed, and no byte
of memory has (R51). -/
def Issued (s t : State) (e : Iss) (cl : Nat → Cls) (ops : List MemOp) : Prop :=
  ∃ g, Retired t e g ∧ SameFile e.g g ∧ OnlyGang { s with mem := t.mem } t e.gi ∧ Advanced e g ∧
    (∀ k x, e.g.slices[k]? = some x →
      tally (g.sl k) = tally (if e.mask.getLsbD k then clsAdd x (cl k) else x)) ∧
    t.mem.ops = s.mem.ops ++ ops ∧ SameHome s.mem t.mem ∧ ∀ a < devTop, homeByte t a = homeByte s a

/-- One operation for each slice of the cohort, with the kind and class given, the order and scope of the slice's
mode word, ids rising in slice order, and the place it comes from (R51, R210). -/
def OpsOf (s : State) (e : Iss) (kind : Nat → OpKind) (cl : Nat → Cls) (ops : List MemOp) : Prop :=
  ops.map MemOp.slice = e.sls ∧ ∀ i (h : i < ops.length),
    let o := ops[i]
    o.id = s.exe.nextId + i ∧ o.gang = e.gi ∧ o.core = e.core ∧ o.part = e.kern.part ∧ o.ctx = e.kern.ctx ∧
      o.pc = e.pc ∧ o.kind = kind o.slice ∧ o.cls = cl o.slice ∧ o.scope = mScope (e.mode o.slice) ∧
      o.killed = false

/-- The parts of an operation as they were issued: what L1 has answered at once is left out. -/
def plainParts (o : MemOp) : List MemPart := o.parts.map fun p => { p with got := none }

/-- The parts of the accesses `f` of the active lanes that belong to slice `k`. -/
def sliceParts (e : Iss) (f : Nat → Except FaultCode (List (MemPart × Nat))) (k : Nat) : List MemPart :=
  (e.active.filter fun l => l / 4 == k).flatMap fun l => (excGet [] (f l)).map Prod.fst

/-- Every active lane's access translates. -/
def Reaches (e : Iss) (f : Nat → Except FaultCode (List (MemPart × Nat))) : Prop :=
  ∀ l ∈ e.active, ∃ ps, f l = .ok ps

/-- Lane `l` is the lowest active lane whose access fails, with the fault `c` (R199). -/
def firstFailing (e : Iss) (f : Nat → Option FaultCode) (l : Nat) (c : FaultCode) : Prop :=
  l ∈ e.active ∧ f l = some c ∧ ∀ j ∈ e.active, j < l → f j = none

/-- The highest scope level at which an acquire leaves L1 alone is GROUP: the cohort's acquires at a wider scope empty
the core's L1 (R218). -/
def acquires (e : Iss) (order : Nat → Nat) : Prop :=
  ∃ k ∈ e.sls, ordAcq (order k) = true ∧ scGroup < mScope (e.mode k)

/-- The cohort has retired an instruction that changes nothing of its gang, in the state `s`. -/
def Passed (s t : State) (e : Iss) : Prop :=
  ∃ g, Retired t e g ∧ OnlyGang s t e.gi ∧ SameFile e.g g ∧ (∀ k, tally (g.sl k) = tally (e.g.sl k)) ∧ Advanced e g

/-- The state with the window of the cohort's group holding `w`. -/
def windowed (s : State) (e : Iss) (w : SMap 8) : State := modWindow s e.g.grp fun _ => w

/-- A window's sixteen bytes at an offset as the fields of a transaction barrier, its reserved bits zero (R238). -/
def BarrierIn (w : SMap 8) (ofs : Nat) (cells : Int) (pend phase reload : Nat) : Prop :=
  let b := leNat (smRun w ofs 16)
  signed b 32 = cells ∧ bits b 47 32 = pend ∧ bits b 51 48 = phase ∧ bits b 79 64 = reload ∧ bits b 63 52 = 0 ∧
    bits b 127 80 = 0

/-- The window `w'` is `w` but for the barrier at an offset. -/
def BarrierSet (w w' : SMap 8) (ofs : Nat) (cells : Int) (pend phase reload : Nat) : Prop :=
  BarrierIn w' ofs cells pend phase reload ∧ ∀ o, o < ofs ∨ ofs + 16 ≤ o → smGet w' o = smGet w o

/-- An update that leaves `cells` cells and `pend` arrivals owed: where both are 0 the phase advances modulo 16 and the
arrivals reload (R240). -/
def BarrierUpdated (w w' : SMap 8) (ofs : Nat) (cells : Int) (pend phase reload : Nat) : Prop :=
  if cells = 0 ∧ pend = 0 then BarrierSet w w' ofs 0 reload ((phase + 1) % 16) reload
  else BarrierSet w w' ofs cells pend phase reload

/-- A barrier's offset is a multiple of 16, unskewed, and its bytes lie in the window (R239). -/
def barrierFits (e : Iss) (ofs : Nat) : Prop := ofs % 16 = 0 ∧ ofs + 16 ≤ e.kern.pkt.lmem ∧ ofs < 2 ^ 22

/-- No window operation of the cohort's slices is still to be performed. -/
def windowDone (e : Iss) : Prop :=
  ∀ o ∈ e.s.mem.ops, o.gang = e.gi → o.slice ∈ e.sls → isLocal o = false

/-- The earlier accesses of the cohort's slices that an arrival waits for are done (R242, R249). -/
def releaseDone (e : Iss) : Prop :=
  ∀ o ∈ e.s.mem.ops, o.gang = e.gi → o.slice ∈ e.sls → ownWaits (ownDev e.s.sys) scGroup o = false

/-- The weight of an arrival (R245). -/
def arrivals (e : Iss) (kind : BitVec 2) (w : Nat) : Prop :=
  (kind = 0 ∧ w = e.active.length) ∨ (kind = 1 ∧ w = (e.sls.filter fun k => e.act k != 0).length) ∨ (kind = 2 ∧ w = 1)

/-- The state with numbered barrier `k` of the cohort's group holding `x`. -/
def numbered (s : State) (e : Iss) (k : Nat) (x : NumBar) : State := modNb s e.g.grp k fun _ => x

/-- What a copy holds whose descriptor lane `l` gives in the O registers from `a` (R250, R251, R271): where it comes
from, its four descriptor words, its barrier, and nothing landed. -/
structure CopyOf (e : Iss) (a : Byte) (nobar : Bool) (l i : Nat) (kind : CopyKind) (c : Copy) : Prop where
  id : c.id = e.s.exe.nextId + 8 + i
  kind : c.kind = kind
  core : c.core = e.core
  owner : c.grp = e.g.grp ∧ c.gang = e.gi ∧ c.slice = l / 4 ∧ c.part = e.kern.part ∧ c.ctx = e.kern.ctx ∧ c.pc = e.pc
  words : c.owords = (List.range 4).map fun j => smGet e.g.regs (regKey l (a.toNat + j))
  bar : c.bar = if nobar then none else some (16 * (descWord e a l 3 / 2 ^ 14))
  fresh : c.landed = 0 ∧ c.stopped = false ∧ c.sent = []
  queued : c.queued = decide (i < 16)

/-- The window offsets and lengths of a COPY's or COPYG's rows, from its descriptor (R251). -/
def copyShape (e : Iss) (a : Byte) (l : Nat) (c : Copy) : Prop :=
  c.rows = descWord e a l 1 / 2 ^ 24 + 1 ∧ c.len = descWord e a l 3 % 2 ^ 14 + 1 ∧ c.len % 4 = 0 ∧
    c.lofs.toNat = descWord e a l 2 ∧ c.lofs.toNat % 4 = 0 ∧
    c.gaddr.toNat = descWord e a l 0 + descWord e a l 1 % 2 ^ 24 * 2 ^ 32

/-- The copies of the issue wait for no entry and for no earlier access (R225, R250). -/
def copiesFree (e : Iss) : Prop :=
  (∀ c ∈ coreCopies e.s e.core, c.queued = true) ∧
    (if e.active.length ≤ 16 then (coreCopies e.s e.core).length + e.active.length ≤ 16
     else coreCopies e.s e.core = []) ∧
    (∀ k ∈ e.sls, (e.g.sl k).cC < 63) ∧
    ∀ k ∈ e.sls, relReady (ownDev e.s.sys) e.s.mem.ops (Nat.max scCore (mScope (e.mode k))) e.core e.gi k
      e.s.exe.nextId = true

/-- The copies that an issue adds, one for each active lane in ascending order; in every slice of the cohort C has risen until
the copy unit accepts the issue (R51, R250). -/
def Accepted (s t : State) (e : Iss) (f : Nat → Nat → Except (FaultCode × Nat) Copy) (ops : List MemOp) (cs : List Copy) : Prop :=
  Issued { s with exe := { s.exe with copies := s.exe.copies ++ cs } } t e (fun _ => .c) ops ∧
    OpsOf s e (fun _ => .copyAck) (fun _ => .c) ops ∧ cs.length = e.active.length ∧
    ∀ i l, e.active[i]? = some l → ∃ c, f l (s.exe.nextId + 8 + i) = .ok c ∧ cs[i]? = some { c with queued := decide (i < 16) }

/-- The byte `j` of the word at offset `i` of row `r` that a copy into the window brings: from the window, from the global cell
that holds the word, or zero in a skipped row. -/
def copyByte (s : State) (c : Copy) (w : SMap 8) (r i j : Nat) : Byte :=
  if c.kind = .l2l then smGet w (winByte (nth (srcRows c) r 0) i + j)
  else match nth c.rowVa r none with
    | none => 0
    | some va => ((copyCell s c ((va.toNat + i) / 32 * 32)).getD 0).extractLsb' (8 * ((va.toNat + i) % 32 + j)) 8

/-- The words of row `r` that lie in storage cell `x` of the window. -/
def rowWordIn (c : Copy) (r x i : Nat) : Prop :=
  i % 4 = 0 ∧ i + 4 ≤ c.len ∧ winByte (nth (dstRows c) r 0) i / 32 = x

/-- The copy that the entry `i` of `c` has left, with one cell more landed; it gives its entry up when none is left
(R250, R253). -/
def copyAfter (s : State) (c : Copy) (i : Nat) (cs : List Copy) : Prop :=
  (c.left.eraseIdx i = [] → cs = s.exe.copies.filter fun x => x.id != c.id) ∧
  (c.left.eraseIdx i ≠ [] → cs = s.exe.copies.map fun x =>
    if x.id = c.id then { c with left := c.left.eraseIdx i, sent := c.sent.filter fun y => y != nth c.left i (0, 0), landed := c.landed + 1 } else x)

/-- The group of a copy has the window `w`, and every other group keeps its own. -/
def windowNow (s t : State) (c : Copy) (w : SMap 8) : Prop :=
  t.exe.groups = modAt s.exe.groups c.grp fun y => { y with window := w }

/-- The words of row `r` of a copy out of the window that lie in the global cell `x`, their first byte's place and the bytes they
bring from the window. -/
def outWords (c : Copy) (x : Nat) (va : Dbl) : List Nat := (rowWords c.len).filter fun i => (va.toNat + i) / 32 == x
def outBytes (c : Copy) (w : SMap 8) (r x : Nat) (va : Dbl) : List Byte :=
  (outWords c x va).flatMap fun i => smRun w (winByte (nth (srcRows c) r 0) i) 4
def outPart (c : Copy) (x : Nat) (va : Dbl) : MemPart := copyPart c (va.toNat + (outWords c x va).headD 0)

/-- The window `w'` after a cell has been counted into the copy's barrier, from the window `w` (R240, R253). -/
def counted (c : Copy) (w w' : SMap 8) : Prop :=
  match c.bar with
  | none => w' = w
  | some b => ∀ cells pend phase reload, BarrierIn w b cells pend phase reload → 0 < reload → -2 ^ 31 < cells →
      BarrierUpdated w w' b (cells - 1) pend phase reload

/-- The barrier of a copy takes a count. -/
def countable (c : Copy) (w : SMap 8) : Prop :=
  ∀ b, c.bar = some b → ∃ cells pend phase reload, BarrierIn w b cells pend phase reload ∧ 0 < reload ∧ -2 ^ 31 < cells

/-- Lane `l` of a contribute passes the checks of R268: its handle is one; a handle of this device names an armed
accumulator of the lane's type with the element and the label in range. -/
def ContribOk (e : Iss) (named : Bool) (a b : Byte) (l : Nat) : Prop :=
  let h := rd e.g l a
  let x := rdPair e.g l b / 2 ^ 32
  h < 2 ^ 31 ∧ (h / 2 ^ 22 % 2 ^ 9 = ownDev e.s.sys → ∃ acc, liveAcc (ownDev e.s.sys) e.ctx h = some acc ∧
    e.lty l = accTy acc.fmt ∧ rdPair e.g l b % 2 ^ 32 < acc.ecount ∧
    if named then labelOk acc.nleaf (x / 2 ^ 27) (x % 2 ^ 27) = true else x < acc.nleaf)

/-- The lanes of a contribute whose partial goes to this device's own homes, in the order they are sent. -/
def ownLanes (e : Iss) (a : Byte) : List Nat :=
  (e.sls.flatMap fun k => e.active.filter fun l => l / 4 == k).filter fun l => rd e.g l a / 2 ^ 22 % 2 ^ 9 == ownDev e.s.sys

/-- The partial `p` of lane `l` of a contribute: its element, its label normalised, and its value, on its way from the
core (R259, R268). -/
def PartialOf (e : Iss) (named : Bool) (d a b : Byte) (l : Nat) (p : Partial) : Prop :=
  let x := rdPair e.g l b / 2 ^ 32
  p.handle = BitVec.ofNat 32 (rd e.g l a) ∧ p.elem = rdPair e.g l b % 2 ^ 32 ∧ p.value = BitVec.ofNat 64 (e.val d l) ∧
    p.part = e.kern.part ∧ p.ctx = e.kern.ctx ∧ p.loc = .toCore e.core ∧ p.replay = e.grp.replay ∧
    ∀ acc, liveAcc (ownDev e.s.sys) e.ctx (rd e.g l a) = some acc → acc.nleaf ≤ 2 ^ 27 →
      (p.level, p.index) = normalise acc.nleaf (if named then x / 2 ^ 27 else 0) (x % 2 ^ 27)

/-- The state with the accumulator slot `n` of the cohort's context DROPPING, no home having purged it yet. -/
def slotDropping (s : State) (e : Iss) (n : Nat) : State :=
  let drop := fun c => putSlot c { accSlot c n with state := .dropping, purged := [] }
  { s with ctl := { s.ctl with ctxs := modCtx s.ctl.ctxs e.kern.part e.kern.ctx drop } }

/-- Where a core's buffer forwards a partial to: the switch port nearest its element's home (R274). -/
def portward (s : State) (q : Partial) : PLoc :=
  match findCtx s.ctl.ctxs q.part q.ctx with
  | some d => .toPort (portOf s d (accSlot d (handleSlot q.handle.toNat)) q.elem)
  | none => .toHome

/-- The buffer that a partial on its way arrives in: where it is held, where each partial goes on to from there, and how many it
holds (R274). -/
def bufferOf (s : State) (x : Partial) (held : PLoc) (fwd : Partial → PLoc) (cap : Nat) : Prop :=
  (∃ k, x.loc = .toCore k ∧ held = .heldCore k ∧ fwd = portward s ∧ cap = 128) ∨
    (∃ k, x.loc = .toPort k ∧ held = .heldPort k ∧ fwd = (fun _ => .toHome) ∧ cap = 32)

/-- The parent that a partial forms with its sibling: the sum of the left and the right child, at the normalised label of
their parent (R259, R274). -/
def parentOf (a : AccSlot) (x q y : Partial) : Prop :=
  (y.level, y.index) = normalise a.nleaf (x.level + 1) (x.index / 2) ∧ y.elem = x.elem ∧ y.handle = x.handle ∧
    y.value = BitVec.ofNat 64 (if x.index % 2 = 0 then accAdd a.fmt x.value.toNat q.value.toNat
      else accAdd a.fmt q.value.toNat x.value.toNat) ∧ y.acks = x.acks ++ q.acks ∧ y.tags = x.tags ++ q.tags ∧
    y.kerns = q.kern :: (x.kerns ++ q.kerns) ∧ y.part = x.part ∧ y.ctx = x.ctx ∧ y.id = x.id

/-- Where a partial arrives at its element's home slice: none sent before it with its label is behind it, the home is not lost, and
no transaction stands on the element's grain (R268, R277, R326, R330). -/
def homeServes (s : State) (c : Ctx) (a : AccSlot) (x : Partial) (pa home : Nat) : Prop :=
  x.loc = .toHome ∧ inTurn s.ctl.partials x = true ∧ (pa = match xlate s 0 c (elemVa a x.elem) 0 with
    | .ok t => paOff t.pa
    | .error _ => 0) ∧ txnBusy s.mem pa = false ∧ homeUp s pa = true ∧
    home = homeDie pa * 48 + sliceOf (frameOf pa)

/-- The state with a partial of the tree taken out of the way. -/
def withoutPartial (s : State) (p : Nat) : State :=
  { s with ctl := { s.ctl with partials := s.ctl.partials.filter fun y => y.id != p } }

/-- Lane `l`'s invocation of the region is sampled (R349, R355). -/
def sampledIn (e : Iss) (id : Nat) (r : RLatch) (ds : List Byte) (l : Nat) : Prop :=
  (r.mode = .observe ∨ r.mode = .armed) ∧
    isSampled e.kern.ord e.grp.lid e.g.idx l (axCountOf e.g id l) (rgShift ds) = true

/-- Lane `l` is served by the surrogate: the region is ARMED, the invocation is not sampled, and the core has seen no
eager hit (R355). -/
def servedIn (e : Iss) (id : Nat) (r : RLatch) (ds : List Byte) (l : Nat) : Prop :=
  r.mode = .armed ∧ ¬ sampledIn e id r ds l ∧ eagerSeen e id = false

/-- The running lanes of slice `k`. -/
def lanesRunning (e : Iss) (k : Nat) : List Nat := e.running.filter fun l => l / 4 == k

/-- The gang keeps its registers, predicates, uniform registers and control registers. -/
def SameRegs (g g' : Gang) : Prop :=
  g'.regs = g.regs ∧ g'.preds = g.preds ∧ g'.sregs = g.sregs ∧ g'.trapBase = g.trapBase ∧ g'.fpxEn = g.fpxEn ∧
    g'.dbgCtl = g.dbgCtl ∧ g'.gear = g.gear ∧ g'.grp = g.grp

/-- Slice `x` after an AXB: the lanes that are not served go on, the others wait at the JOINPT entry's address (R127,
R355); F has risen where a lane is served or sampled. -/
def afterAxb (e : Iss) (taken : BitVec 4) (uses : Prop) (x : Slice) (z : Slice) : Prop :=
  ∃ t r f, x.stack = t :: r ∧ (uses → f = x.cF + 1) ∧ (¬ uses → f = x.cF) ∧
    divided { x with pc := e.pc, cF := f } taken (e.pc + 4) t.pc = some z

/-- The state in which a tile word is done, the group of its stream standing as `g`; nothing else changes. -/
def wordDone (s : State) (x : TIss) (g : Group) : State :=
  { s with exe := { s.exe with curTile := none, groups := modAt s.exe.groups x.gid fun _ => g } }

/-- What a rule of TINC adds to T register `i`, and to the accumulator offset (R299). -/
def stepT (i : Nat) : TincRule → Int
  | .treg x step => if x = i then step.toInt else 0
  | _ => 0
def stepAcc : TincRule → Int
  | .acc step => step.toInt
  | _ => 0

/-- The T registers and the accumulator offset after the rules of a pass (R299). -/
def Stepped (rs : List TincRule) (r r' : SMap 32) (off off' : Nat) : Prop :=
  (∀ i, smGet r' i = BitVec.ofInt 32 ((smGet r i).toNat + (rs.map (stepT i)).sum)) ∧
    (off' : Int) = (off + (rs.map stepAcc).sum) % 4

/-- `u` is the stream `t` past the word it has executed: at the next address, or within the cassette at the next of the
captured words; after the last of them the rules step the registers, and the next pass begins, or the stream leaves
the cassette (R280, R299). -/
def Past (t u : TileStream) : Prop :=
  (t.cassette = none → u = { t with pc := t.pc + 4 }) ∧
  ∀ c, t.cassette = some c →
    (c.at_ + 1 < c.words.length → u = { t with pc := t.pc + 4, cassette := some { c with at_ := c.at_ + 1 } }) ∧
    (c.words.length ≤ c.at_ + 1 → c.off < 4 → ∃ regs off, Stepped t.rules t.regs regs c.off off ∧
      (c.pass + 1 < c.count → u = { t with regs := regs, pc := t.pc - BitVec.ofNat 56 (4 * c.at_), cassette := some { c with at_ := 0, pass := c.pass + 1, off := off } }) ∧
      (c.count ≤ c.pass + 1 → u = { t with regs := regs, rules := [.off, .off, .off, .off], pc := c.back, cassette := none }))

/-- The word `i` executes: its effect leaves the group as `g` but for the stream, and the stream as `t` but for its place and
the address of the word last issued. -/
def Streams (s : State) (i : Instr) (x : TIss) (g : Group) (t : TileStream) : Prop :=
  ∃ u, Past t u ∧ exec i s = .next (wordDone s x { g with tile := some { u with lastPc := x.t.pc } })

/-- The word `i` faults: the stream stops, a record of kind 3 is on its way to the hub, and nothing else changes (R73,
R76, R280). -/
def TileFaults (s : State) (i : Instr) (x : TIss) (code : FaultCode) (info : Nat) (at_ : VAddr) : Prop :=
  ∃ t r, exec i s = .next t ∧ r.part = x.kern.part ∧ r.ctx = x.kern.ctx ∧ r.code = some code ∧ r.kind = 3 ∧
    r.info = BitVec.ofNat 64 info ∧ r.pc = at_.zeroExtend 64 ∧ r.kord = x.kern.ord ∧ r.group = x.grp.lid ∧
    t = { wordDone s x { x.grp with tile := some { x.t with stopped := true } } with ctl := { s.ctl with faults := s.ctl.faults ++ [r] } }

/-- The stream with T register `d` written. -/
def withT (t : TileStream) (d : BitVec 4) (v : Word) : TileStream := { t with regs := smSet t.regs d.toNat v }

/-- The word at `a` is one that TLOOP may capture (R299). -/
def bodyWordOk (x : TIss) (a : VAddr) (w : Word) : Prop :=
  fetchWord x.s x.grp.core x.ctx a = .ok w ∧ (decodeTile w.toNat).isSome = true ∧
    w.toNat / 2 ^ 26 ≠ 0x0F ∧ w.toNat / 2 ^ 26 ≠ 0x10 ∧ w.toNat / 2 ^ 26 ≠ 0x13

/-- The window or slab `w'` holds the bytes `bs` from `o`, and what `w` holds elsewhere. -/
def Filled (w w' : SMap 8) (o : Nat) (bs : List Byte) : Prop :=
  ∀ a, smGet w' a = if o ≤ a ∧ a < o + bs.length then bs.getD (a - o) 0 else smGet w a

/-- The load is logged for the restore of the slab quarter, which keeps the last sixteen (R303). -/
def logged (x : TIss) (l : SlabArgs) : List SlabLoad :=
  let q := x.t.log ++ [⟨l.isScale, x.t.pc, BitVec.ofNat 32 l.win, BitVec.ofNat 32 l.slab, BitVec.ofNat 32 l.ts, l.d⟩]
  q.drop (q.length - 16)

/-- Column `c` of a slab load: the codes of B packed, read by row or by column (TRANS), or the scale bytes (R291). -/
def slabColumn (w : SMap 8) (l : SlabArgs) (c : Nat) : List Byte :=
  if l.isScale then (List.range (shK l.ts / 32)).map fun j => smGet w (l.win % 2 ^ 22 + j * shN l.ts + c)
  else packCodes (elemWidth (owFmt (fdB l.d))) ((List.range (shK l.ts)).map fun k =>
    nth (slabCodes w l) (if owTrans (fdB l.d) then c * shK l.ts + k else k * shN l.ts + c) 0)

/-- A completed node enters the carry slots: where the last slot holds its left sibling the two are summed and their
parent enters; otherwise it takes a slot of its own. A node of level 15 is final (R287). -/
inductive Carried (int : Bool) (keys : List Nat) : List AccNode → AccNode → List AccNode → Prop
  | rest (slots : List AccNode) (n : AccNode) :
      (∀ u, slots.getLast? = some u → u.level ≠ n.level ∨ u.index ≠ Nat.xor n.index 1 ∨ 15 ≤ n.level) →
      Carried int keys slots n (slots ++ [n])
  | up (slots : List AccNode) (u n : AccNode) (r : List AccNode) :
      slots.getLast? = some u → u.level = n.level → u.index = Nat.xor n.index 1 → n.level < 15 →
      Carried int keys slots.dropLast ⟨n.level + 1, n.index / 2, mergeVals int keys u.vals n.vals⟩ r →
      Carried int keys slots n r

/-- The nodes `ns` enter one after another. -/
def CarriedAll (int : Bool) (keys : List Nat) : List AccNode → List AccNode → List AccNode → Prop
  | slots, [], r => r = slots
  | slots, n :: ns, r => ∃ m, Carried int keys slots n m ∧ CarriedAll int keys m ns r

/-- The words MM, MMT and MMS of one set of operands. -/
def mmWords (k f : BitVec 2) (a b l ts : BitVec 4) : List (PairOp × Instr) :=
  [(.mm, .mm k f a b l ts), (.mmt, .mmt k f a b l ts), (.mms, .mms k f a b l ts)]

/-- The request `i` of function `fn` is answered: its responder stands as `x`, and nothing else changes. -/
def Answers (s : State) (i : Instr) (fn : Nat) (x : Spdm) : Prop :=
  exec i s = .next { s with sys := { s.sys with spdm := x :: s.sys.spdm.filter fun y => y.fn != fn } }

/-- An error response: no answer, and nothing of the responder's state lost. -/
def refusedAnswer (x : Spdm) : Spdm := { x with answer := [], status := 1 }

/-- The state with partition `id` standing as `q`, everything else unchanged. -/
def partSet (s : State) (id : Nat) (q : Partition) : State := modPart s id fun _ => q

/-- The partition's work is gone: none of its contexts, queues, operations, copies, partials, samples and faults is
left, and those of the other partitions stay; memory and the fabric page keep what they hold (R404). -/
structure Discarded (s t : State) (part : Nat) : Prop where
  ctxs : ∀ c, c ∈ t.ctl.ctxs → c.part ≠ part
  queues : t.ctl.queues = s.ctl.queues.filter fun q => q.part != part
  faults : t.ctl.faults = s.ctl.faults.filter fun f => f.part != part
  partials : t.ctl.partials = s.ctl.partials.filter fun p => p.part != part
  samples : t.ctl.samples = s.ctl.samples.filter fun x => x.part != part
  ops : ∀ o ∈ t.mem.ops, o.part ≠ part
  copies : ∀ c ∈ t.exe.copies, c.part ≠ part
  walks : (∀ u ∈ t.mem.upper, u.part ≠ part) ∧ (∀ w ∈ t.mem.walks, w.part ≠ part) ∧ ∀ e ∈ t.mem.tlb, e.part ≠ part
  bytes : t.mem.bytes = s.mem.bytes ∧ t.mem.lpddr = s.mem.lpddr ∧ t.mem.host = s.mem.host ∧ t.mem.keys = s.mem.keys
  sys : t.sys = s.sys

/-- The partition reset: a new key, the key generation advanced, the stack pool empty; what the partition's dies hold
reads as a value that the new key gives, and every byte of another die stays; a lost die of it comes back at an incarnation
one higher; its dies wait for their scrub (R321, R330, R405). -/
structure PartReset (s t : State) (p : Partition) (q : Partition) : Prop where
  key : q.key = Config.drawnKey s.sys.draws ∧ q.keyGen = p.keyGen + 1 ∧ q.areas = [] ∧ q.pool = []
  same : q.id = p.id ∧ q.vf = p.vf ∧ q.dies = p.dies ∧ q.reserved = p.reserved
  draws : t.sys.draws = s.sys.draws + 1
  others : ∀ off, homeDie off ∉ p.dies → memByte t.mem off = memByte s.mem off
  channels : ∀ k, k / channelBytes / 12 ∉ p.dies → smGet t.mem.lpddr k = smGet s.mem.lpddr k
  rekeyed : ∀ off, homeDie off ∈ p.dies → memByte t.mem off = Config.rekeyedByte s.sys.draws off
  caches : (∀ b ∈ t.mem.l1, coreDie b.core ∉ p.dies) ∧ (∀ b ∈ t.mem.llc, homeDie (512 * b.frame) ∉ p.dies) ∧
    (∀ b ∈ t.mem.l2, b.die ∉ p.dies) ∧ ∀ e ∈ t.mem.dir, homeDie e.grain ∉ p.dies
  lost : (∀ d ∈ t.sys.lostDies, d ∈ s.sys.lostDies ∧ d ∉ p.dies) ∧ ∀ d ∈ p.dies, d ∈ t.sys.scrubbing
  exe : t.exe = s.exe

/-- A counter of die `die` raised by `n`, saturating at 65,535; the others stay (R411). -/
def ErrCounted (m m' : SMap 16) (die n : Nat) : Prop :=
  ∀ d, smGet m' d = if d = die then BitVec.ofNat 16 (min 65535 ((smGet m d).toNat + n)) else smGet m d

/-- DATA_LOSS is on its way to the hub for a context, with the kind of its unit and the address `info`, and the die's count of
uncorrectable errors is one higher (R73, R76, R411). -/
def DataLoss (s t : State) (part cid kind die : Nat) (info : Dbl) : Prop :=
  ErrCounted s.sys.errUncorr t.sys.errUncorr die 1 ∧ ∃ r, t.ctl.faults = s.ctl.faults ++ [r] ∧ r.part = part ∧ r.ctx = cid ∧
    r.code = some .dataLoss ∧ r.kind = kind ∧ r.info = info

/-- A trip: no context of any partition is left, and the clocks have stopped (R414). -/
def Tripped (s t : State) : Prop :=
  t.sys.clocksStopped = true ∧ (∀ c ∈ t.ctl.ctxs, ∀ p ∈ s.ctl.parts, c.part ≠ p.id) ∧ ∀ o ∈ t.mem.ops, ∀ p ∈ s.ctl.parts, o.part ≠ p.id

/-- Step `k` of throttling holds at a temperature: it is entered at 95, 100 and 105 °C, and left 3 °C below (R414). -/
def stepHolds (now temp k : Nat) : Prop := 90 + 5 * k ≤ temp ∨ (k ≤ now ∧ 90 + 5 * k < temp + 3)

/-- Link `j` stands as `l`, and nothing else changes. -/
def LinkMoves (s : State) (i : Instr) (j : Nat) (l : Link) : Prop :=
  exec i s = .next { s with sys := { s.sys with links := modAt s.sys.links j fun _ => l } }

/-- Whether a link in this state keeps what is unacknowledged on it (R334). -/
def keepsPackets (x : LState) : Prop := x = .up ∨ x = .degraded ∨ x = .training

/-- An unacknowledged packet with the links as `x` has them: it stays with a link that keeps it, and otherwise takes the link of
its frame, if there is one (R334, R335). -/
def Rerouted (x : Sys) (m m' : FabricOut) : Prop :=
  ((∃ j l, m.link = some j ∧ x.links[j]? = some l ∧ keepsPackets l.state) → m' = m) ∧
  ((∀ j l, m.link = some j → x.links[j]? = some l → ¬ keepsPackets l.state) →
    m' = { m with link := m.req.bind fun r => routeOf x m.dev (reqFrame r) })

/-- Link `j` stands as `l`, and nothing else changes but the links that unacknowledged packets take. -/
def LinkShifted (s t : State) (j : Nat) (l : Link) : Prop :=
  t = { s with sys := { s.sys with links := modAt s.sys.links j fun _ => l, flight := t.sys.flight } } ∧
    t.sys.flight.length = s.sys.flight.length ∧
    ∀ (k : Nat) (m m' : FabricOut), s.sys.flight[k]? = some m → t.sys.flight[k]? = some m' → Rerouted t.sys m m'

/-- Instruction `i` moves a link so. -/
def LinkShifts (s : State) (i : Instr) (j : Nat) (l : Link) : Prop := ∃ t, exec i s = .next t ∧ LinkShifted s t j l

/-- How often the flit has been replayed with its failure now, where `last` was the flit that failed before, `n` times. -/
def replayNo (last n flit : Nat) : Nat := if last = flit then n + 1 else 1

/-- The link in a state in which it carries no traffic. -/
def stillLink (l : Link) (st : LState) : Link := { l with state := st, lanes := 0, stops := [], replays := 0 }

/-- Partition `id` of a running interface changed by `f`. -/
def runPart (s : State) (id : Nat) (f : Partition → Partition) : State :=
  { s with ctl := { s.ctl with parts := s.ctl.parts.map fun p => if p.id = id ∧ p.state = .run then f p else p } }

/-- The value written to a command register names one of the commands 1 to `top`: its reserved bits are 0 (R68, R100). -/
def Commands (top v : Nat) : Prop := v / 2 ^ 22 % 2 ^ 10 = 0 ∧ v / 2 ^ 4 % 2 ^ 12 = 0 ∧ 1 ≤ v % 16 ∧ v % 16 ≤ top

/-- A request of a peer that is heard: this module has a number of its own, the sender is another module of the domain that
has not been removed, and its incarnation is the one held for it (R323, R333, R336). -/
def Heard (s : State) (r : PeerReq) : Prop :=
  s.sys.domId ≠ 0x1FF ∧ r.dev ≠ ownDev s.sys ∧ r.dev < 384 ∧ r.dev ∉ s.sys.lostPeers ∧ r.inc = (smGet s.sys.peerInc r.dev).toNat

/-- A partition's domain access table lists the requester, with write permission where `write`, and its policy opens the
domain (R333, R407). -/
def Listed (s : State) (r : PeerReq) (p : Partition) (write : Bool) : Prop :=
  facilOpen s.ctl.parts p.id facDomain = true ∧ ∃ y, p.policy = some y ∧ ∃ d ∈ y.doms, d.1 = r.dev ∧ d.2.1 = r.part ∧ (write = true → d.2.2 = true)

/-- The checks of R333 on `len` bytes at a device offset: inside device memory, on a die of a partition whose table lists
the requester, outside its reserved frames. -/
def MayReach (s : State) (r : PeerReq) (off len : Nat) (write : Bool) : Prop :=
  off + len ≤ devTop ∧ ∃ p, partOfDie s (homeDie off) = some p ∧ Listed s r p write ∧ ∀ x ∈ p.reserved, off + len ≤ x.1 ∨ x.1 + x.2 ≤ off

/-- An answer of this device: it carries its number and its incarnation (R323, R333). -/
def answerOf (x : Sys) (dev tag cls note : Nat) (data : List Byte) : FabricOut :=
  { dev := dev, tag := tag, inc := x.ownInc, cls := cls, src := ownDev x, data := data, note := note }

/-- A packet goes back to the requester, class 1 RSP or class 2 ACK (R333). -/
def answered (s t : State) (r : PeerReq) (cls note : Nat) (data : List Byte) : Prop :=
  t.sys = { s.sys with out := s.sys.out ++ [answerOf s.sys r.dev r.tag cls note data] }

/-- REFUSED goes back, and nothing else changes. -/
def refusedOnly (s t : State) (r : PeerReq) : Prop := answered s t r 2 1 [] ∧ t.exe = s.exe ∧ t.mem = s.mem ∧ t.ctl = s.ctl

/-- A fault of an operation is on its way to the hub, and the operation is gone (R73). -/
def OpFaults (s t : State) (o : MemOp) (code : FaultCode) (info : Dbl) : Prop :=
  t.mem.ops = s.mem.ops.filter (fun q => q.id != o.id) ∧ ∃ r, t.ctl.faults = s.ctl.faults ++ [r] ∧ r.part = o.part ∧ r.ctx = o.ctx ∧
    r.code = some code ∧ r.info = info ∧ r.pc = o.pc.zeroExtend 64

/-- Part `i` of operation `op` stands in a memory as `P` says. -/
def PartNow (m : Mem) (op i : Nat) (P : MemPart → Prop) : Prop := ∃ o p, findOp m op = some o ∧ o.parts[i]? = some p ∧ P p

/-- Only memory changes, and its operations and the home's bytes stay. -/
def OnlyCopies (s t : State) : Prop := t.ctl = s.ctl ∧ t.sys = s.sys ∧ t.exe.gangs = s.exe.gangs ∧ t.mem.ops = s.mem.ops

/-- A part that its home may perform now: none of its grain's cells has a transaction in progress or a notice of the agent on
its way, and the operations ordered before it are done (R212, R326, R381). -/
def MayPerform (s : State) (o : MemOp) (i : Nat) (p : MemPart) : Prop :=
  p.performed = false ∧ paLocal (ownDev s.sys) p.pa = true ∧ homeUp s (paOff p.pa) = true ∧ txnBusy s.mem (paOff p.pa) = false ∧
    performOk (ownDev s.sys) s.mem.ops o p = true ∧ innerOk o i p = true

/-- A transaction of a store is in progress: it waits for the acknowledgements of `others` (R326). -/
def TxnFor (s t : State) (e : DirEntry) (op i : Nat) (own : Option Nat) (wpa wlen : Nat) (others : List Nat) : Prop :=
  ∃ x, t.mem.txns = s.mem.txns ++ [x] ∧ x.grain = e.grain ∧ x.size = e.size ∧ x.writer = .part op i ∧ x.own = own ∧ x.wpa = wpa ∧ x.wlen = wlen ∧
    x.outstanding = others ∧ x.acks = []

/-- No other transaction serves the writer of transaction `x`. -/
def Alone (s : State) (x : Txn) : Prop := ∀ y ∈ s.mem.txns, y.id ≠ x.id → y.writer ≠ x.writer ∧ x.writer ∉ y.also

/-- An agent's acknowledgement is counted: the transaction goes on with the others, or ends and its writer, where no other
transaction serves it too, is acknowledged: a core's part, or a peer's request with its answer (R326, R328). -/
def Counted (s t : State) (x : Txn) (agent : Nat) : Prop :=
  let others := x.outstanding.filter fun a => a != agent
  t.ctl = s.ctl ∧ t.exe.gangs = s.exe.gangs ∧
  (others ≠ [] → t.sys = s.sys ∧ t.mem.ops = s.mem.ops ∧ ∃ y, findTxn t.mem x.id = some y ∧ y.outstanding = others) ∧
  (others = [] → findTxn t.mem x.id = none ∧
    (Alone s x → ∀ op i o p, x.writer = .part op i → findOp s.mem op = some o → o.parts[i]? = some p →
      PartNow t.mem op i fun q => q.performed = true ∧ q.acked = true) ∧
    (Alone s x → x.own = none → ∀ dev tag cls data, x.writer = .peer dev tag cls data →
      t.sys = { s.sys with out := s.sys.out ++ [answerOf s.sys dev tag cls 0 data] }) ∧
    ((∀ dev tag cls data, x.writer ≠ .peer dev tag cls data) → t.sys = s.sys))

/-- The number that stands in `n` bytes of memory at a physical address. -/
def numAt (s : State) (pa n : Nat) : Nat := leNat ((List.range n).map fun j => spaceByte s (pa + j))

/-- The number that atomics of one issue leave, one after another, each on what the one before has left (R221). -/
def rmwAfter (op : AtOp) (size : Nat) (old : Nat) : List (MemOp × Nat) → Nat
  | [] => old
  | x :: rest =>
    rmwAfter op size (match x.1.parts[x.2]? with
      | some r => (rmwNew op (match x.1.kind with
          | .rmw _ sg _ => sg
          | _ => false) size old (leNat r.wdata) r.cmp.toNat).getD old % 2 ^ (8 * size)
      | none => old) rest

/-- The answer of an ENQ or DEQ whose header stands at `pa`: a header that no queue is bound to, a queue in ERROR or, for
ENQ, in DRAINING, and another entry size answer CLOSED; a full queue 1; an empty one 3; DEQ of a launch queue 4; otherwise
0 with the index, and the entry for DEQ (R94). -/
def queueAnswer (s : State) (pa es : Nat) (enq : Bool) : QAns :=
  match queueAt s.ctl.queues pa with
  | none => ⟨2, 0, []⟩
  | some q =>
    let head := numAt s q.pa 8
    let tail := numAt s (q.pa + 8) 8
    if q.state = .error ∨ 3 < es ∨ es ≠ q.esize ∨ (enq = true ∧ q.state = .draining) then ⟨2, 0, []⟩
    else if enq = true then (if tail - head = 2 ^ q.cap then ⟨1, tail, []⟩ else ⟨0, tail, []⟩)
    else if q.launch = true then ⟨4, 0, []⟩
    else if tail = head then ⟨3, head, []⟩
    else
      match (findCtx s.ctl.ctxs q.part q.ctx).map fun c => xlate s 8 c (qSlot q head) needR with
      | some (.ok x) => ⟨0, head, (List.range (qEsize q)).map fun j => spaceByte s (x.pa + j)⟩
      | _ => ⟨2, 0, []⟩

/-- Operation `o` ends: it is gone, and in its slice the counter of its class is one lower; the gang `g'` takes the place of
`g`, and no other gang changes (R51). -/
def Ends (s t : State) (o : MemOp) (g g' : Gang) : Prop :=
  (∀ q ∈ t.mem.ops, q.id ≠ o.id) ∧ t.exe.gangs = modAt s.exe.gangs o.gang (fun _ => g') ∧
    (∀ k, g'.sl k = if k = o.slice ∧ k < g.slices.length then clsSub (g.sl k) o.cls else g.sl k) ∧ g'.preds = g.preds

/-- The registers hold the values that an operation returns: for each lane the bytes of its parts, in the registers from `dst`
(R197); no register of another lane changes. -/
def Returned (o : MemOp) (g g' : Gang) : Prop :=
  ∀ l c, c < 256 → l < 32 → smGet g'.regs (regKey l c) =
    if l ∈ opLanes o ∧ o.dst ≤ c ∧ c < o.dst + o.nreg then BitVec.ofNat 32 (leNat (laneBytes o l) / 2 ^ (32 * (c - o.dst))) else smGet g.regs (regKey l c)

/-- A peer's write is answered, or waits for the acknowledgements of the invalidations (R326). -/
def AnsweredOrWaits (s t : State) (r : PeerReq) (cls : Nat) (data : List Byte) : Prop :=
  answered s t r cls 0 data ∨ (t.sys = s.sys ∧ writerWaits t.mem (.peer r.dev r.tag cls data) = true)

/-- No copy but the home's holds the byte at `off` modified: no slice does, and none is on its way (R320, R329). -/
def HomeAlone (m : Mem) (off : Nat) : Prop :=
  flightByte m off = none ∧ ∀ b ∈ m.l2, b.frame = frameOf off → ∀ j c, b.cells[j]? = some c → b.start + j = cellIn off → c.dirty = false

/-- No other copy holds a byte of `n` from `off` modified, and none of their dies is lost. -/
def AtHome (s : State) (off n : Nat) : Prop := ∀ i < n, HomeAlone s.mem (off + i) ∧ homeUp s (off + i) = true

/-- The home's copy keeps every byte that no other copy holds modified. -/
def HomeKeeps (s t : State) : Prop := GrainsOk s.mem.dir → ∀ off, HomeAlone s.mem off → memByte t.mem off = memByte s.mem off

/-- The bytes of the cell of a part, and its bytes. -/
def CellAtHome (s : State) (p : MemPart) : Prop := ∀ j < 32, HomeAlone s.mem (paOff p.pa / 32 * 32 + j)

/-- No transaction stands on the cell of a part, and no notice of agent `a` for it is on its way (R326, R381). -/
def CellFree (s : State) (a : Nat) (p : MemPart) : Prop :=
  ∀ j < 32, txnBusy s.mem (paOff p.pa / 32 * 32 + j) = false ∧ noticeAhead s.mem a (paOff p.pa / 32 * 32 + j) = false

/-- The packet `m` goes out to the device of a part, in class REQ, for the operation's partition, and waits to be answered. -/
def Sent (s t : State) (o : MemOp) (p : MemPart) (m : FabricOut) (req : PeerOp) : Prop :=
  t.sys = { s.sys with out := s.sys.out ++ [m], flight := s.sys.flight ++ [m] } ∧ m.dev = paDev p.pa ∧ m.tag = o.id ∧ m.cls = 0 ∧
    m.part = o.part ∧ m.src = ownDev s.sys ∧ m.inc = s.sys.ownInc ∧ m.req = some req

/-- The `n` bytes from `off` read as `bs`. -/
def BytesRead (t : State) (off : Nat) (bs : List Byte) : Prop := ∀ i < bs.length, homeByte t (off + i) = bs.getD i 0

/-- Memory keeps every byte that no other copy holds modified, but for STATE and ERR in the headers of bound queues (R89). -/
def HeadersOnly (s t : State) : Prop :=
  GrainsOk s.mem.dir → ∀ off, HomeAlone s.mem off → (∀ q ∈ s.ctl.queues, off ≠ paOff (q.pa + 0x1B) ∧ off ≠ paOff (q.pa + 0x1F)) → homeByte t off = homeByte s off

/-- CTXW_STATUS of partition `part` reads `r`. -/
def CwAnswer (t : State) (part r : Nat) : Prop :=
  ∃ p, findPart t.ctl.parts part = some p ∧ p.ctxwStatus = BitVec.ofNat 32 r

/-- A context has the property `P`. -/
def CtxNow (t : State) (part cid : Nat) (P : Ctx → Prop) : Prop := ∃ c, findCtx t.ctl.ctxs part cid = some c ∧ P c

/-- Of the engines nothing changes but the numbers given to operations and transactions. -/
def OnlyIds (s t : State) : Prop := t.exe = { s.exe with nextId := t.exe.nextId }

/-- An accepted command: OK is answered, and of memory, the gangs' slices and registers and every other context nothing
changes. -/
structure Commanded (s t : State) (part cid : Nat) : Prop where
  answer : CwAnswer t part 0
  memory : HeadersOnly s t
  slices : t.exe.gangs.map (fun g => (g.slices, g.regs, g.preds, g.sregs)) = s.exe.gangs.map fun g => (g.slices, g.regs, g.preds, g.sregs)
  others : ∀ p k, p ≠ part ∨ k ≠ cid → findCtx t.ctl.ctxs p k = findCtx s.ctl.ctxs p k

/-- The control window takes command number `n` to context `cid`: BUSY does not stand for another (R68). -/
def WindowTakes (p : Partition) (n cid : Nat) : Prop := p.ctxwCmd = none ∨ p.ctxwCmd = some (n, cid)

/-- No kernel of the context is short of its end, and no completion of one is still to be made (R70). -/
def NoneInFlight (s : State) (part cid : Nat) : Prop :=
  ∀ k ∈ s.ctl.kernels, k.part = part → k.ctx = cid → (k.state = .retired ∨ k.state = .failed) ∧ k.due ≠ .add

/-- A kernel that a fatal halt ends, with the code of the primary fault: a LAUNCH FAILS with HALTED, a FITSYNC in training
completes, another packet ends without completion (R92, R112, R113). -/
def stoppedKernel (code : Nat) (k : Kernel) : Kernel :=
  { k with
    state := if k.pkt.kind ≠ 1 ∧ k.state = .fitting then .retired else .failed
    status := if k.pkt.kind = 1 then 5 else 0
    faultCode := if k.pkt.kind = 1 then code else 0
    due := if k.pkt.kind = 1 ∨ k.state = .fitting then .atHalt else .none
    advanced := true, pins := [], plan := [] }

/-- The context's kernels that have not ended end for a fatal halt; every other stands as it was. -/
def KernelsStopped (s t : State) (part cid code : Nat) : Prop :=
  t.ctl.kernels.length = s.ctl.kernels.length ∧ ∀ (i : Nat) (k : Kernel), s.ctl.kernels[i]? = some k →
    (k.part = part → k.ctx = cid → k.state ≠ .retired → k.state ≠ .failed → t.ctl.kernels[i]? = some (stoppedKernel code k)) ∧
    (¬ (k.part = part ∧ k.ctx = cid) ∨ k.state = .retired ∨ k.state = .failed → t.ctl.kernels[i]? = some k)

/-- A refused command: the result alone is written. -/
def cwRefused (s : State) (part r : Nat) : State :=
  { s with ctl := { s.ctl with parts := modIf s.ctl.parts (fun p => p.id == part) fun p =>
      { p with ctxwCmd := none, ctxwStatus := BitVec.ofNat 32 r } } }

/-- Every page of an area is mapped, pinned and writeable under the root, in device memory of the module (R69). -/
def AreaGood (s : State) (p : Partition) (cid root va n : Nat) : Prop :=
  ∀ pg ∈ vaPages va n, ∃ x, xlateAt s 8 p cid root (pg * 2 ^ 16) needW = .ok x ∧ leafPinned x.leaf = true ∧
    paLocal (ownDev s.sys) x.pa = true

/-- The descriptor at `pa` is one that BUILD accepts (R69). -/
def DescGood (s : State) (p : Partition) (cid pa : Nat) : Prop :=
  pa % 128 = 0 ∧ paLocal (ownDev s.sys) pa = true ∧ homeDie (paOff pa) ∈ p.dies ∧
    numAt s pa 8 % 4096 = 0 ∧ numAt s (pa + 8) 1 = cid ∧ numAt s (pa + 9) 1 = p.id ∧ numAt s (pa + 0x0A) 2 < 2 ∧
    numAt s (pa + 0x0C) 2 ≤ 256 ∧ numAt s (pa + 0x18) 8 % 256 = 0 ∧ numAt s (pa + 0x20) 8 % 65536 = 0 ∧
    (∃ k, 16 ≤ k ∧ k ≤ 30 ∧ numAt s (pa + 0x28) 4 = 2 ^ k) ∧ numAt s (pa + 0x30) 8 % 65536 = 0 ∧
    numAt s (pa + 0x38) 8 % 65536 = 0 ∧ numAt s (pa + 0x40) 64 = 0 ∧
    AreaGood s p cid (numAt s pa 8) (numAt s (pa + 0x20) 8) (numAt s (pa + 0x28) 4) ∧
    AreaGood s p cid (numAt s pa 8) (numAt s (pa + 0x30) 8) (numAt s (pa + 0x38) 8)

/-- The fields that BUILD latches (R69). -/
def DescRead (s : State) (pa : Nat) (d : CtxDesc) : Prop :=
  d.ptRoot = numAt s pa 8 ∧ d.fixedGear = (numAt s (pa + 0x0A) 2).testBit 0 ∧
    d.pbufQuota = (if numAt s (pa + 0x0C) 2 = 0 then 64 else numAt s (pa + 0x0C) 2) ∧ d.lockQuota = numAt s (pa + 0x0E) 2 ∧
    d.seed.toNat = numAt s (pa + 0x10) 8 ∧ d.trapBase.toNat = numAt s (pa + 0x18) 8 ∧ d.stopArea.toNat = numAt s (pa + 0x20) 8 ∧
    d.stopSize = numAt s (pa + 0x28) 4 ∧ d.wdogMs = numAt s (pa + 0x2C) 4 ∧ d.saveArea.toNat = numAt s (pa + 0x30) 8 ∧
    d.saveSize = numAt s (pa + 0x38) 8

/-- The groups of the context move to the states that `f` gives them; every other group keeps its own. -/
def GroupsMove (s t : State) (part cid : Nat) (f : GState → GState) : Prop :=
  t.exe.groups.length = s.exe.groups.length ∧ ∀ (i : Nat) (g : Group), s.exe.groups[i]? = some g →
    ∃ g' : Group, t.exe.groups[i]? = some g' ∧ g'.kern = g.kern ∧ g'.lid = g.lid ∧
      g'.state = if ofCtx s part cid g then f g.state else g.state

/-- A RUNNING group starts to park (R84). -/
def parkingOf (x : GState) : GState := if x = .running then .parking else x

/-- A group that has not ended is KILLED (R118). -/
def killedOf (x : GState) : GState := if x = .done then .done else .killed

/-- Window `w` of partition `part` reads the status `st` and the index `idx`. -/
def HewAnswer (t : State) (part w st idx : Nat) : Prop :=
  ∃ p, findPart t.ctl.parts part = some p ∧ (nth p.hews w {}).status = BitVec.ofNat 32 st ∧ (nth p.hews w {}).index = BitVec.ofNat 64 idx

/-- Window `w` takes command number `n` for context `cid`: BUSY does not stand for another (R100). -/
def HewTakes (p : Partition) (w n cid : Nat) : Prop := (nth p.hews w {}).cmd = none ∨ (nth p.hews w {}).cmd = some (n, cid)

/-- A context whose queues may be bound (R93). -/
def MayBind (c : Ctx) : Prop := c.state = .built ∨ c.state = .runnable ∨ c.state = .running ∨ c.state = .parked

/-- A window command that answers and does nothing else. -/
def hewRefused (s : State) (part w st idx : Nat) : State :=
  { s with ctl := { s.ctl with parts := modIf s.ctl.parts (fun p => p.id == part) fun p =>
      { p with hews := modAt p.hews w fun h => { h with cmd := none, status := BitVec.ofNat 32 st, index := BitVec.ofNat 64 idx } } } }

/-- The answer of a window's ENQ or DEQ at a header: that of R94, with ESIZE as the home holds it. -/
def windowAnswer (s : State) (pa : Nat) (enq : Bool) : QAns :=
  queueAnswer s pa (((queueAt s.ctl.queues pa).map Queue.esize).getD 0) enq

/-- The headers of the bound queues are aligned and lie outside `n` bytes of memory from `pa`. -/
def OffHeaders (s : State) (pa n : Nat) : Prop :=
  ∀ q ∈ s.ctl.queues, q.pa % 64 = 0 ∧ (paOff q.pa + 64 ≤ paOff pa ∨ paOff pa + n ≤ paOff q.pa)

/-- A window command leaves every context, kernel, gang and group as it was. -/
structure Windowed (s t : State) : Prop where
  exe : t.exe.gangs = s.exe.gangs ∧ t.exe.groups = s.exe.groups
  ctxs : t.ctl.ctxs = s.ctl.ctxs
  kernels : t.ctl.kernels = s.ctl.kernels
  ops : t.mem.ops = s.mem.ops

/-- A header that BIND accepts for a context (R93). -/
def HeaderGood (s : State) (c : Ctx) (pa : Nat) : Prop :=
  numAt s (pa + 0x10) 8 % 4096 = 0 ∧ 1 ≤ numAt s (pa + 0x18) 1 ∧ numAt s (pa + 0x18) 1 ≤ 24 ∧ numAt s (pa + 0x19) 1 ≤ 3 ∧
    numAt s (pa + 0x1A) 1 ≤ 1 ∧ numAt s (pa + 0x1B) 1 = 0 ∧ numAt s (pa + 0x1C) 1 < 8 ∧ numAt s (pa + 0x1D) 1 = c.cid ∧
    numAt s (pa + 0x1E) 1 < 2 ∧ numAt s (pa + 0x28) 24 = 0 ∧ numAt s pa 8 ≤ numAt s (pa + 8) 8 ∧
    numAt s (pa + 8) 8 ≤ numAt s pa 8 + 2 ^ numAt s (pa + 0x18) 1 ∧ (numAt s (pa + 0x1A) 1 = 1 ∨ numAt s (pa + 0x19) 1 = 2)

/-- The configuration that BIND latches (R90). -/
def Latched (s : State) (c : Ctx) (va pa : Nat) (q : Queue) : Prop :=
  q.part = c.part ∧ q.ctx = c.cid ∧ q.va = BitVec.ofNat 64 va ∧ q.pa = pa ∧ (q.launch = true ↔ numAt s (pa + 0x1A) 1 = 0) ∧
    q.esize = numAt s (pa + 0x19) 1 ∧ q.cap = numAt s (pa + 0x18) 1 ∧ q.base.toNat = numAt s (pa + 0x10) 8 ∧
    q.prio = numAt s (pa + 0x1C) 1 ∧ q.qflags = numAt s (pa + 0x1E) 1

/-- Fault `f` ranks ahead of fault `g` (R74): the hub die's own first, a HALT command before a WATCHDOG; then the lower die, the
lower KIND, the lower UNIT and the lower WHERE. -/
def Ahead (f g : FaultRec) : Prop :=
  let hub := fun (r : FaultRec) => if r.die = 8 then 0 else 1
  let cmd := fun (r : FaultRec) => if r.die = 8 ∧ r.code ≠ some .haltRequest then 1 else 0
  hub f < hub g ∨ (hub f = hub g ∧ (f.die < g.die ∨ (f.die = g.die ∧ (cmd f < cmd g ∨ (cmd f = cmd g ∧ (f.kind < g.kind ∨
    (f.kind = g.kind ∧ (f.unit < g.unit ∨ (f.unit = g.unit ∧ f.place < g.place)))))))))

/-- The faults on their way for a context, and the others. -/
def arrived (s : State) (part cid : Nat) : List FaultRec := s.ctl.faults.filter fun f => f.part == part && f.ctx == cid
def faultsLeft (s : State) (part cid : Nat) : List FaultRec := s.ctl.faults.filter fun f => !(f.part == part && f.ctx == cid)

/-- Fault `f` is the first in rank of a list (R74). -/
def FirstOf (fs : List FaultRec) (f : FaultRec) : Prop := f ∈ fs ∧ ∀ g ∈ fs, g = f ∨ Ahead f g

/-- The halt line has risen for a context: `f` is the primary fault, every fault of `fs` is recorded, and a fatal halt has ended
the context's groups and kernels (R73, R74, R76, R88, R112). -/
structure HaltEntered (s t : State) (part cid : Nat) (f : FaultRec) (fs : List FaultRec) : Prop where
  faults : t.ctl.faults = faultsLeft s part cid
  memory : HeadersOnly s t
  others : ∀ p k, p ≠ part ∨ k ≠ cid → findCtx t.ctl.ctxs p k = findCtx s.ctl.ctxs p k
  groups : GroupsMove s t part cid (if f.code = some .debugStop then parkingOf else killedOf)
  kernels : if f.code = some .debugStop then t.ctl.kernels = s.ctl.kernels else KernelsStopped s t part cid (faultNum f.code)
  owner : CtxNow t part cid fun x => x.state = .halting ∧ x.debugHalt = (f.code == some .debugStop) ∧ x.parkCmd = false ∧
    x.t0ptp = f.ptp ∧ x.primary = some { f with prim := true, dbg := f.code == some .debugStop } ∧
    ∀ g ∈ fs, g ≠ f → { g with dbg := f.code == some .debugStop } ∈ x.recs

/-- A group of the context that a debug stop still waits for: resident, unless it is EXITING with its stream at a TWAIT
(R88). -/
def StillRuns (s : State) (c : Ctx) (g : Group) : Prop :=
  ofCtx s c.part c.cid g = true ∧ (g.state = .placed ∨ g.state = .running ∨ g.state = .parking ∨
    (g.state = .exiting ∧ ∀ x, g.tile = some x → x.ended = true ∨ tileAtStop s g c x = false))

/-- The fields of a stop record, in its 256 bytes (R76). -/
def RecordBytes (r : FaultRec) (bs : List Byte) : Prop :=
  let f := fun (o n : Nat) => leNat ((bs.drop o).take n)
  bs.length = 256 ∧ f 0 1 = faultNum r.code ∧ f 1 1 = r.kind ∧ f 2 1 = r.die ∧ f 3 1 = r.unit ∧ f 4 1 = r.place ∧
    ((f 5 1).testBit 0 = r.prim ∧ (f 5 1).testBit 1 = r.exact ∧ (f 5 1).testBit 2 = r.dbg ∧ f 5 1 < 8) ∧ f 6 2 = 0 ∧
    f 8 8 = r.pc.toNat ∧ f 0x10 8 = r.info.toNat ∧ f 0x18 4 = r.mode.toNat ∧ f 0x1C 4 = r.counters.toNat ∧ f 0x20 8 = r.kord ∧
    f 0x28 4 = r.group ∧ f 0x2C 4 = r.gang ∧ f 0x30 16 = 0

/-- A launch queue whose head packet may be taken: ACTIVE or DRAINING, its owner eligible, a packet in the ring and none taken
before whose action has not begun (R91, R92, R99). -/
def Served (s : State) (q : Queue) (c : Ctx) : Prop :=
  q ∈ s.ctl.queues ∧ qOwner s q = some c ∧ q.launch = true ∧ (q.state = .active ∨ q.state = .draining) ∧ q.taken = none ∧
    eligible c = true ∧ qHead s q ≠ qTail s q

/-- The priority of the packet at HEAD: the lesser of PPRIO and the queue's (R97). -/
def headPrio (s : State) (q : Queue) (c : Ctx) : Nat :=
  min ((match headPacket s q c with | some p => p.prio % 8 | none => 0)) q.prio

/-- The queue that the dispatcher serves next: its head packet has the highest priority, and of equals was appended first (R99). -/
def Chosen (s : State) (q : Queue) (c : Ctx) : Prop :=
  Served s q c ∧ ∀ q' c', Served s q' c' → (q', c') ≠ (q, c) →
    headPrio s q' c' < headPrio s q c ∨ (headPrio s q' c' = headPrio s q c ∧ q.stamps.headD 0 < q'.stamps.headD 0)

/-- No reserved bit of the packet is set, its LAUNCH fields are in range and its region table can be read (R97, R98, R342). -/
def PacketFields (s : State) (c : Ctx) (p : Packet) : Prop :=
  p.prio < 8 ∧ leNat ((p.raw.drop 0x22).take 2) = 0 ∧ leNat ((p.raw.drop 0x78).take 8) = 0 ∧
    p.dep0.toNat % 8 = 0 ∧ p.dep1.toNat % 8 = 0 ∧ p.done.toNat % 8 = 0 ∧
    (p.kind = 1 → p.flags < 16 ∧ 1 ≤ p.stages.sum ∧ p.stages.sum ≤ 32 ∧ p.code.toNat % 4 = 0 ∧ 1 ≤ p.gx ∧ 1 ≤ p.gy ∧ 1 ≤ p.gz ∧
      p.gx * p.gy * p.gz < 2 ^ 32 ∧ 1 ≤ p.regs ∧ p.regs ≤ 240 ∧ p.acc ≤ 4 ∧ p.lmem ≤ 3145728 ∧
      (p.flags.testBit 3 = true → p.recdest ≠ 0)) ∧
    (p.kind = 1 ∨ p.kind = 6 → regionTable s c p.regions.toNat ≠ none)

/-- The working-set list of a packet that names one is well formed (R98, R314). -/
def PacketPins (s : State) (c : Ctx) (p : Packet) : Prop := p.kind = 1 ∨ p.kind = 2 ∨ p.kind = 3 → wsetRanges s c p.wset.toNat ≠ none

/-- Every nonzero event address translates, the dependencies for reading and DONE_ADDR for writing (R98). -/
def PacketAddrs (s : State) (c : Ctx) (p : Packet) : Prop :=
  ∀ a ∈ [(p.dep0, needR), (p.dep1, needR), (p.done, needW)], a.1 ≠ 0 → ∃ x, xlate s 8 c a.1.toNat a.2 = .ok x

/-- ERR of a packet that fails the check: the first cause that holds (R98). -/
def PacketError (s : State) (c : Ctx) (p : Packet) (e : Nat) : Prop :=
  (8 ≤ p.kind ∧ e = 1) ∨ (p.kind < 8 ∧ ¬ PacketFields s c p ∧ e = 2) ∨
    (p.kind < 8 ∧ PacketFields s c p ∧ ¬ PacketPins s c p ∧ e = 3) ∨
    (p.kind < 8 ∧ PacketFields s c p ∧ PacketPins s c p ∧ ¬ PacketAddrs s c p ∧ e = 5)

/-- The packet passes the check (R98). -/
def PacketPasses (s : State) (c : Ctx) (p : Packet) : Prop := p.kind < 8 ∧ PacketFields s c p ∧ PacketPins s c p ∧ PacketAddrs s c p

/-- The used entries of the table of the regions that a packet names (R342). -/
def regionsOf (s : State) (c : Ctx) (p : Packet) : List (Nat × Nat × Nat) :=
  if p.kind = 1 ∨ p.kind = 6 then (regionTable s c p.regions.toNat).getD [] else []

/-- A packet names a region that a kernel of its context holds (R347). -/
def NamesHeld (s : State) (c : Ctx) (p : Packet) : Prop := ∃ r ∈ regionsOf s c p, ∃ h ∈ c.held, h.1 = r.1

/-- Both dependencies of a packet hold (R97). -/
def DepsHold (s : State) (c : Ctx) (p : Packet) : Prop :=
  ∀ a ∈ [(p.dep0, p.dep0v), (p.dep1, p.dep1v)], a.1 = 0 ∨ ∃ x, xlate s 8 c a.1.toNat needR = .ok x ∧ a.2 ≤ numAt s x.pa 8

/-- The hub die has read: nothing changes but who holds the grains, and memory keeps every byte that no other copy holds modified
(R322, R326). -/
def HubRead (s u : State) : Prop := u = { s with mem := u.mem } ∧ u.mem.ops = s.mem.ops ∧ HomeKeeps s u

/-- Of memory, at most the headers of bound queues change and the bytes that `P` leaves out: every other byte that no other copy
holds modified is kept. -/
def KeepsBytes (s u : State) (P : Nat → Prop) : Prop :=
  GrainsOk s.mem.dir → GrainsOk u.mem.dir ∧
    ∀ off, P off → (∀ q ∈ s.ctl.queues, q.pa % 64 = 0 ∧ (off < paOff q.pa ∨ paOff q.pa + 64 ≤ off)) → HomeAlone s.mem off →
      HomeAlone u.mem off ∧ homeByte u off = homeByte s off

/-- Of memory, at most the headers of bound queues change. -/
def OutsideHeaders (s u : State) : Prop := KeepsBytes s u fun _ => True

/-- Of memory, at most the headers of bound queues change, and HEAD of the queue that a packet was taken from, bound or not. -/
def OutsideHead (s u : State) (k : Kernel) : Prop := KeepsBytes s u fun off => off < paOff k.qpa ∨ paOff k.qpa + 8 ≤ off

/-- HEAD of the queue that the packet of kernel `i` was taken from has advanced past it, where it still stood there (R99). -/
def HeadAdvanced (s u : State) (i : Nat) (k : Kernel) : Prop :=
  k.advanced = false → numAt s k.qpa 8 = k.qidx → GrainsOk s.mem.dir → paLocal (ownDev s.sys) k.qpa = true → k.qpa % 64 = 0 →
    AtHome s (paOff k.qpa) 64 → (∀ y ∈ s.ctl.queues, y.pa % 64 = 0) →
    numAt u k.qpa 8 = (k.qidx + 1) % 2 ^ 64 ∧
      ∀ q, (s.ctl.queues.find? fun q => q.pa == k.qpa && q.taken == some i) = some q → ∀ y ∈ u.ctl.queues, y.id = q.id → y.taken = none

/-- DONE_VAL added to DONE_ADDR, where the address translates and may be written (R97). -/
def DoneAdded (u t : State) (c : Ctx) (p : Packet) : Prop :=
  ((∃ f, xlate u 8 c p.done.toNat needW = .error f) → OutsideHeaders u t) ∧
  ∀ x, xlate u 8 c p.done.toNat needW = .ok x → GrainsOk u.mem.dir → paLocal (ownDev u.sys) x.pa = true → x.pa % 8 = 0 →
    OffHeaders u x.pa 8 → AtHome u (paOff x.pa) 8 → numAt t x.pa 8 = (numAt u x.pa 8 + p.donev) % 2 ^ 64

/-- The status word `w` written after DONE_ADDR, where both addresses translate; nothing else of memory changes (R113). -/
def WordWritten (u v : State) (c : Ctx) (p : Packet) (w : Nat) : Prop :=
  v.ctl.queues = u.ctl.queues ∧ v.ctl.ctxs = u.ctl.ctxs ∧
  ((∃ f, xlate u 8 c p.done.toNat needW = .error f) ∨ (∃ f, xlate u 8 c (p.done.toNat + 8) needW = .error f) → v = u) ∧
  ∀ x y, xlate u 8 c p.done.toNat needW = .ok x → xlate u 8 c (p.done.toNat + 8) needW = .ok y → GrainsOk u.mem.dir →
    paLocal (ownDev u.sys) y.pa = true → y.pa % 8 = 0 → GrainsOk v.mem.dir ∧
    (AtHome u (paOff y.pa) 8 → numAt v y.pa 8 = w % 2 ^ 64) ∧
    ∀ off, off < paOff y.pa ∨ paOff y.pa + 8 ≤ off → HomeAlone u.mem off → HomeAlone v.mem off ∧ homeByte v off = homeByte u off

/-- The completion of the packet of kernel `i`: the status word, where there is one, and then the add, which waits where the word
has not been acknowledged; neither where DONE_ADDR is 0 (R97, R113). -/
def Completes (u t : State) (i : Nat) (c : Ctx) (p : Packet) (word : Option Nat) : Prop :=
  (p.done = 0 → OutsideHeaders u t) ∧
  (p.done ≠ 0 → match word with
    | none => DoneAdded u t c p
    | some w => ∃ v k', WordWritten u v c p w ∧ t.ctl.kernels[i]? = some k' ∧
        (k'.due = .none → DoneAdded v t c p) ∧ (k'.due = .add → OutsideHeaders v t) ∧ (k'.due = .none ∨ k'.due = .add))

/-- Kernel `i` ends with a state and a status: HEAD advances past its packet, its pins and holds are released, and its completion
is made; a LAUNCH, a PIN and an UNPIN write the status word (R99, R112, R113, R315, R347). -/
structure PacketEnds (s t : State) (i : Nat) (k : Kernel) (c : Ctx) (st : KState) (status : Nat) : Prop where
  record : ∃ d, t.ctl.kernels = modAt s.ctl.kernels i fun _ =>
    { k with state := st, status := status, faultCode := 0, pins := [], plan := [], advanced := true, due := d }
  engine : OnlyIds s t ∧ t.mem.ops = s.mem.ops ∧ t.ctl.parts = s.ctl.parts ∧ t.ctl.faults = s.ctl.faults
  owner : CtxNow t k.part k.ctx fun x => x = { c with pinned := x.pinned, held := c.held.filter fun h => h.2 != i } ∧
    ∀ y, pinCount x y = pinCount c y - k.pins.count y
  others : ∀ p x, p ≠ k.part ∨ x ≠ k.ctx → findCtx t.ctl.ctxs p x = findCtx s.ctl.ctxs p x
  done : ∃ u, OutsideHead s u k ∧ HeadAdvanced s u i k ∧ u.sys = { s.sys with out := u.sys.out, flight := u.sys.flight } ∧
    Completes u t i c k.pkt (if k.pkt.kind = 1 ∨ k.pkt.kind = 2 ∨ k.pkt.kind = 3 then some (status + 2 ^ 16 * (k.ord % 2 ^ 48)) else none)

/-- A context in which the dispatcher goes on: up, and not halting for good (R92, R112). -/
def ContextGoes (c : Ctx) : Prop :=
  ¬ (c.state = .halting ∧ c.debugHalt = false) ∧ c.state ≠ .halted ∧ c.state ≠ .free ∧ c.state ≠ .retired

/-- The action of the packet of kernel `i`, of kind `kind`, may be taken now: WAITING, its dependencies hold, and its context goes
on (R92, R97, R112). -/
def Acts (s : State) (i kind : Nat) (k : Kernel) (c : Ctx) : Prop :=
  s.ctl.kernels[i]? = some k ∧ findCtx s.ctl.ctxs k.part k.ctx = some c ∧ k.pkt.kind = kind ∧ k.state = .waiting ∧
    ContextGoes c ∧ DepsHold s c k.pkt

/-- How many ranges of a list touch page `x`, as the walk of their 64 KiB steps finds it (R315). -/
def touching (s : State) (c : Ctx) (p : Partition) (rs : List (Nat × Nat)) (x : Nat × Nat) : Nat :=
  (rs.filter fun r => (vaPages r.1 r.2).any fun pg => pinPage s c p (pg * 2 ^ 16) == some x).length

/-- Every 64 KiB step of every range stands in a page that may be pinned, and no count would pass 65,535 (R315). -/
def Pinnable (s : State) (c : Ctx) (p : Partition) (rs : List (Nat × Nat)) : Prop :=
  (∀ r ∈ rs, ∀ pg ∈ vaPages r.1 r.2, pinPage s c p (pg * 2 ^ 16) ≠ none) ∧ ∀ x, pinCount c x + touching s c p rs x ≤ 65535

/-- The ranges pinned: each page's count has risen by the ranges that touch it, every translation of it that a TLB holds is the one
found, and each die of the partition holds it where its TLBs have room; nothing else changes (R315, R317). -/
def Pinned (s b : State) (c cb : Ctx) (p : Partition) (rs : List (Nat × Nat)) : Prop :=
  b = { s with mem := { s.mem with tlb := b.mem.tlb }, ctl := { s.ctl with ctxs := b.ctl.ctxs } } ∧
    findCtx b.ctl.ctxs c.part c.cid = some cb ∧ cb = { c with pinned := cb.pinned } ∧
    (∀ q k, q ≠ c.part ∨ k ≠ c.cid → findCtx b.ctl.ctxs q k = findCtx s.ctl.ctxs q k) ∧
    (∀ x, pinCount cb x = pinCount c x + touching s c p rs x) ∧
    ∀ x l, 0 < touching s c p rs x → leafOf s 8 c.part c.cid c.desc.ptRoot p.dies (x.1 * 2 ^ x.2) = .ok l →
      (∀ e ∈ b.mem.tlb, e.part = c.part → e.ctx = c.cid → (e.page, e.size) = x → e.leaf = BitVec.ofNat 64 l.1 ∧ e.held = true) ∧
      ((∀ n, (s.mem.tlb.filter fun e => e.place == n && e.held).length + (rs.flatMap fun r => vaPages r.1 r.2).length * p.dies.length ≤ heldLimit) →
        ∀ d ∈ p.dies, d < 8 → tlbFind b.mem.tlb d c.part c.cid (x.1 * 2 ^ x.2) ≠ none)

/-- Page `x` meets range `r`. -/
def meetsRange (r x : Nat × Nat) : Prop := r.1 < (x.1 + 1) * 2 ^ x.2 ∧ x.1 * 2 ^ x.2 < r.1 + r.2

/-- The bytes of a capture of the packet `raw` of a context (R413). -/
def Capture (s : State) (c : Ctx) (raw : List Byte) (ord : Nat) (img : List Byte) : Prop :=
  let list := wsetRanges s c (leNat ((raw.drop 0x30).take 8))
  let rs := list.getD []
  ∃ total body, img = natLe 1 4 ++ natLe rs.length 4 ++ natLe total 8 ++ natLe c.desc.seed.toNat 8 ++ natLe ord 8 ++ natLe 0 32 ++ raw ++ body ∧
    (list = none ∨ (∃ r ∈ rs, capturable s c r = false ∨ ownerBytes s c r.1 r.2 = none) → total = 0) ∧
    (list ≠ none → (∀ r ∈ rs, capturable s c r = true ∧ ownerBytes s c r.1 r.2 ≠ none) → total = 0xC0 + body.length ∧
      body = rs.flatMap fun r => natLe r.1 8 ++ natLe r.2 8 ++ (ownerBytes s c r.1 r.2).getD [])

/-- Host memory with `img` written at a host bus address (R331). -/
def hostWritten (s : State) (addr : Nat) (img : List Byte) : State :=
  { s with mem := { s.mem with host := smPut s.mem.host (addr % 2 ^ 42) img } }

/-- RESULT of a policy blob, and the policy that is accepted (R406, R407; the order of the causes is log 31). -/
def PolicyResult (s : State) (c : Ctx) (p : Partition) (va r : Nat) (y : Policy) : Prop :=
  (r = 1 ∧ (policyBlob s c va).bind policyFields = none) ∨
  ∃ bs, policyBlob s c va = some bs ∧ policyFields bs = some y ∧
    ((r = 5 ∧ leNat ((bs.drop 2).take 1) ≠ p.id) ∨
    (leNat ((bs.drop 2).take 1) = p.id ∧ ((r = 4 ∧ p.polKey = none) ∨ ∃ key, p.polKey = some key ∧
      ((r = 2 ∧ Config.policySignatureOk key (policySigned bs) = false) ∨
       (Config.policySignatureOk key (policySigned bs) = true ∧ ((r = 3 ∧ y.counter ≤ p.lastCounter) ∨ (r = 0 ∧ p.lastCounter < y.counter)))))))

/-- Nothing that kernel `i` sent is still on its way: no operation, no copy, no partial short of its home slice, no sample (R114). -/
def KernDrained (s : State) (i : Nat) : Prop :=
  (∀ o ∈ s.mem.ops, o.kern ≠ i) ∧ (∀ c ∈ s.exe.copies, c.kern ≠ i) ∧
    (∀ p ∈ s.ctl.partials, p.kern = i ∨ i ∈ p.kerns → ∃ n, p.loc = .heldHome n) ∧ ∀ x ∈ s.ctl.samples, x.kern ≠ i

/-- The fit point of every region that a kernel holds has finished (R348). -/
def FitDone (s : State) (c : Ctx) (k : Kernel) : Prop := ∀ r ∈ k.regions, r.treated = true ∧ inTraining s c r = false

/-- A kernel is at a fit point, or has retired. -/
def Fitted (t : State) (i : Nat) : Prop := ∃ k, t.ctl.kernels[i]? = some k ∧ (k.state = .fitting ∨ k.state = .retired)

/-- The test before any group is placed that fails, with its status: a group that does not fit an empty core, a fixed-gear size above
32 gangs, groups that cannot fit together (R108, R111). -/
def PlaceFails (k : Kernel) (st : Nat) : Prop :=
  (roomFor [] k.pkt 1 = false ∧ st = 3) ∨
  (roomFor [] k.pkt 1 = true ∧ k.fixed = true ∧ 32 < k.total * k.pkt.stages.sum ∧ st = 6) ∨
  (roomFor [] k.pkt 1 = true ∧ k.fixed = true ∧ k.total * k.pkt.stages.sum ≤ 32 ∧ roomFor [] k.pkt k.total = false ∧ st = 3)

/-- Every test before placement passes (R108, R111). -/
def PlaceMay (k : Kernel) : Prop :=
  roomFor [] k.pkt 1 = true ∧ (k.fixed = true → k.total * k.pkt.stages.sum ≤ 32 ∧ roomFor [] k.pkt k.total = true)

/-- Grid `i` of a partition waits for its next group to be placed (R92, R109). -/
def GridWaits (s : State) (part i : Nat) (k : Kernel) (c : Ctx) : Prop :=
  s.ctl.kernels[i]? = some k ∧ k.part = part ∧ k.acceptNo ≠ none ∧ (k.state = .dispatching ∨ k.state = .running) ∧
    nextGroup s i k ≠ none ∧ findCtx s.ctl.ctxs k.part k.ctx = some c ∧ eligible c = true

/-- Of the waiting grids it has the highest priority, and of equals it was accepted first (R109). -/
def FirstGrid (s : State) (part i : Nat) (k : Kernel) (c : Ctx) : Prop :=
  GridWaits s part i k c ∧ ∀ j k' c', GridWaits s part j k' c' → j ≠ i →
    k'.prio < k.prio ∨ (k'.prio = k.prio ∧ k.acceptNo.getD 0 < k'.acceptNo.getD 0)

/-- A new group `lid` of kernel `i` has started on a core: its gangs at CODE under the reset mode word with zero registers but S0 to
S3, its barriers at one arrival for each gang and the tile stream, its tile stream at TILE (R45, R105, R115, R119, R248, R279). -/
def Started (s t : State) (i : Nat) (k : Kernel) (core lid : Nat) : Prop :=
  ∃ (g : Group) (gangs : List Gang), t.exe.groups = s.exe.groups ++ [g] ∧ t.exe.gangs = s.exe.gangs ++ gangs ∧
    g.kern = i ∧ g.lid = lid ∧ g.state = .running ∧ g.core = core ∧ g.window = [] ∧ g.pins = [] ∧
    g.gangs = (List.range k.pkt.stages.sum).map (s.exe.gangs.length + ·) ∧
    g.nbs = List.replicate 16 { reload := k.pkt.stages.sum + (if k.pkt.tile = 0 then 0 else 1), pend := k.pkt.stages.sum + (if k.pkt.tile = 0 then 0 else 1) } ∧
    (k.pkt.tile = 0 → g.tile = none) ∧
    (k.pkt.tile ≠ 0 → ∃ x, g.tile = some x ∧ x.pc = k.pkt.tile.setWidth 56 ∧ x.accs.length = k.pkt.acc ∧ x.ended = false) ∧
    gangs.length = k.pkt.stages.sum ∧
    ∀ (j : Nat) (x : Gang), gangs[j]? = some x → x.grp = s.exe.groups.length ∧ x.idx = j ∧
      x.slices = List.replicate 8 { pc := k.pkt.code.setWidth 56 } ∧ x.regs = [] ∧ x.preds = [] ∧
      smGet x.sregs 0 = k.pkt.args.setWidth 32 ∧ smGet x.sregs 1 = (k.pkt.args >>> 32).setWidth 32 ∧
      smGet x.sregs 2 = BitVec.ofNat 32 lid ∧ smGet x.sregs 3 = BitVec.ofNat 32 j ∧ ∀ n, 4 ≤ n → smGet x.sregs n = 0

/-- The gangs of a group. -/
def gangsOf (s : State) (g : Group) (x : Gang) : Prop := ∃ gi ∈ g.gangs, s.exe.gangs[gi]? = some x

/-- Nothing of the group is still under way: its L and F counters stand at 0, no copy of it is left and no operation that ends with
it (R84, R117). -/
def GroupQuiet (s : State) (i : Nat) (g : Group) : Prop :=
  (∀ x, gangsOf s g x → ∀ y ∈ x.slices, y.cL = 0 ∧ y.cF = 0) ∧ (∀ c ∈ s.exe.copies, c.grp ≠ i) ∧
    ∀ o ∈ s.mem.ops, o.gang ∈ g.gangs → diesWithGroup o = false

/-- An EXITING group has ended: every slice of every gang has finished, its L and F counters stand at 0, no copy and no operation
that counts in L or F is left, and its tile stream has executed TSTOP (R117). -/
def GroupEnded (s : State) (i : Nat) (g : Group) : Prop :=
  g.state = .exiting ∧ (∀ x, gangsOf s g x → gangEnded x = true) ∧ (∀ x, gangsOf s g x → ∀ y ∈ x.slices, y.cL = 0 ∧ y.cF = 0) ∧
    (∀ c ∈ s.exe.copies, c.grp ≠ i) ∧ (∀ o ∈ s.mem.ops, o.gang ∈ g.gangs → o.cls ≠ .l ∧ o.cls ≠ .f ∧ o.kind ≠ .sload) ∧
    ∀ x, g.tile = some x → x.ended = true

/-- A context that halts for good, or has halted (R70). -/
def HaltsForGood (c : Ctx) : Prop := (c.state = .halting ∧ c.debugHalt = false) ∨ c.state = .halted

/-- A stack entry with the fields of its kind alone (R125). -/
def PlainEntry (e : StackEntry) : Prop :=
  match e.kind with
  | .joinpt => e.mode = 0 ∧ e.im = 0
  | .call => e.pend = 0 ∧ e.ppc = 0 ∧ e.mode = 0 ∧ e.im = 0
  | .trap => e.pend = 0 ∧ e.ppc = 0

/-- A PARKING group has stopped at its boundary and nothing is under way; at a debug stop its tile stream stands where R88 leaves
it. -/
def ParkDone (s : State) (i : Nat) (g : Group) (c : Ctx) : Prop :=
  g.state = .parking ∧ g.atStop = true ∧ GroupQuiet s i g ∧ (∀ x, gangsOf s g x → ∀ y ∈ x.slices, y.cC = 0) ∧
    ∀ x, g.debugSave = true → g.tile = some x → tileAtStop s g c x = true

/-- The context's state after a group has left its core: RUNNING while another of its groups is resident, else PARKED where one is
parked and RUNNABLE where none is (R70). -/
def afterLeaving (s : State) (part cid i : Nat) (parked : Bool) (x : CState) : CState :=
  if x = .running ∧ (s.exe.groups.zipIdx.any fun y => y.2 != i && ofCtx s part cid y.1 && resident y.1.state) = false then
    (if parked || s.exe.groups.zipIdx.any (fun y => y.2 != i && ofCtx s part cid y.1 && y.1.state == .parked) then .parked else .runnable)
  else x

/-- The turn of a fixed-gear kernel after slot `k.turn`: the next slot of the rotation whose gang has not ended, if there is one
(R87). -/
def TurnMoved (s t : State) (i : Nat) (k : Kernel) : Prop :=
  ∃ k', t.ctl.kernels[i]? = some k' ∧ k' = { k with turn := k'.turn } ∧
    ((∀ j < rotSize k, slotEnded s i ((k.turn + 1 + j) % rotSize k) = true) → k'.turn = k.turn) ∧
    ∀ j < rotSize k, slotEnded s i ((k.turn + 1 + j) % rotSize k) = false → (∀ x < j, slotEnded s i ((k.turn + 1 + x) % rotSize k) = true) →
      k'.turn = (k.turn + 1 + j) % rotSize k

end Sys2Proof.Machine
end

