-- ==== Sys2Proof/Certificates/Slice0/Obligations.lean ====
section
/-! DEFINITION. Obligations.lean: the statements for the provers. -/

open Sys2Proof Sys2Proof.Machine

/-! ## Encoding (R39, R53, R55, R289) -/

/-- Every well-formed lane instruction decodes from its word to itself, with every operand (R53). Every well-formed tile
instruction decodes from its word to itself (R55, R289). -/
def Obligations.WordsRoundTrip : Prop :=
  (∀ (i : Instr) (w : Nat), i.wf = true → encodeLane i = some w → w < 2 ^ 32 ∧ decodeLane w = some i) ∧
  (∀ (i : Instr) (w : Nat), i.wf = true → encodeTile i = some w → w < 2 ^ 32 ∧ decodeTile w = some i)

/-- A 32-bit word that decodes is the word of the instruction it decodes to, in either stream: each word has one meaning and no
bit of it is ignored (R54, R56). -/
def Obligations.DecodedWordsAreEncodings : Prop :=
  ∀ (w : Nat) (i : Instr), w < 2 ^ 32 →
    (decodeLane w = some i → i.wf = true ∧ encodeLane i = some w) ∧
    (decodeTile w = some i → i.wf = true ∧ encodeTile i = some w)

/-! ## A step runs the decoded instruction (R38, R55) -/

/-- When the word at the program counter of the cohort whose move it is decodes to an instruction, the step is `exec` of that
instruction, at the state that names the cohort and holds the fetched line in its instruction cache; there the same cohort may
issue. When the next word of the stream whose move it is decodes to a tile instruction, the step is `exec` of it, at the state
that names the stream and holds the lines it fetches; there the same stream may execute. An event whose turn it is takes effect as `exec` gives it; while the clocks are stopped every move but MODULE_RESET stops the machine by name
(R414). The order of the agenda is the model's choice (log 2). -/
def Obligations.StepRunsDecoded : Prop :=
  (∀ (s : State) (gi : Nat) (m : BitVec 8) (rest : List Move) (e : Iss) (w : Word) (i : Instr),
    s.exe.agenda = .lane gi m :: rest → s.sys.clocksStopped = false →
    issOf (cohortNamed s rest gi m) = some e → laneFetch e = .ok w → decodeLane w.toNat = some i →
    step s = exec i (laneFetched e) ∧ issOf (laneFetched e) = some { e with s := laneFetched e }) ∧
  (∀ (s : State) (gid : Nat) (rest : List Move) (x : TIss) (w : Word) (i : Instr),
    s.exe.agenda = .tile gid :: rest → s.sys.clocksStopped = false →
    tissOf (streamNamed s rest gid) = some x → tileWord x = .ok w → decodeTile w.toNat = some i →
    step s = exec i (tileFetched x i) ∧ tissOf (tileFetched x i) = some { x with s := tileFetched x i }) ∧
  (∀ (s : State) (i : Instr) (rest : List Move), s.exe.agenda = .event i :: rest →
    (s.sys.clocksStopped = false ∨ i = .moduleReset →
      step s = exec i { s with exe := { s.exe with agenda := rest } }) ∧
    (s.sys.clocksStopped = true → i ≠ .moduleReset → step s = .fault .clocksStopped))

/-! ## Issue-state instructions (R57 to R61, R137) -/

/-- NOP, MODE, IMM, IMMH and YIELD go on at pc + 4 and change nothing else but the mode word or IM, whatever the guard. -/
def Obligations.IssueStateInstructions : Prop :=
  ∀ (s : State) (e : Iss), issOf s = some e → Quiet e → someRuns e →
    (∃ t, exec .nop s = .next t ∧ SliceResult s t e fun _ x => { x with pc := x.pc + 4 }) ∧
    (∀ n g t r sa c o p, ∃ u, exec (.mode n g t r sa c o p) s = .next u ∧ SliceResult s u e fun _ x =>
      { x with mode := n ++ g ++ t ++ r ++ sa ++ c ++ o ++ p ++ (0#2), pc := x.pc + 4 }) ∧
    (∀ i, ∃ t, exec (.imm i) s = .next t ∧ SliceResult s t e fun _ x =>
      { x with im := i.signExtend 32, pc := x.pc + 4 }) ∧
    (∀ i, ∃ t, exec (.immh i) s = .next t ∧ SliceResult s t e fun _ x =>
      { x with im := i ++ x.im.extractLsb' 0 24, pc := x.pc + 4 }) ∧
    (∃ t, exec .yield s = .next t ∧ (SliceResult s t e fun _ x => { x with pc := x.pc + 4 }) ∧
      ∃ g, t.exe.gangs[e.gi]? = some g ∧ g.yielded = true)

/-- WAIT goes on at pc + 4 when every slice's four counters stand at or below its limits, and otherwise the cohort stays where it
is and nothing changes but that no cohort is named. -/
def Obligations.WaitHoldsUntilCountersFall : Prop :=
  ∀ (s : State) (e : Iss) (l c n f : BitVec 6), issOf s = some e → Quiet e → someRuns e →
    ((∀ k ∈ e.sls, (e.g.sl k).cL ≤ l.toNat ∧ (e.g.sl k).cS ≤ c.toNat ∧ (e.g.sl k).cC ≤ n.toNat
        ∧ (e.g.sl k).cF ≤ f.toNat) →
      ∃ t, exec (.wait l c n f) s = .next t ∧ SliceResult s t e fun _ x => { x with pc := x.pc + 4 }) ∧
    ((∃ k ∈ e.sls, l.toNat < (e.g.sl k).cL ∨ c.toNat < (e.g.sl k).cS ∨ n.toNat < (e.g.sl k).cC
        ∨ f.toNat < (e.g.sl k).cF) → exec (.wait l c n f) s = .next (idle s))

/-! ## Control flow (R127 to R136) -/

/-- BRA and CALL divide each slice of the cohort by R127 between the target and pc + 4; CALL then pushes its return entry for the
lanes that went. -/
def Obligations.BranchAndCall : Prop :=
  ∀ (s : State) (e : Iss) (o : BitVec 24) (t : VAddr), issOf s = some e → Quiet e → someRuns e →
    targetOf e.pc o t →
    ((∀ k ∈ e.sls, (divided (e.g.sl k) (sliceMask k (activeOn e.g)) t (e.pc + 4)).isSome = true) →
      ∃ u, exec (.bra o) s = .next u ∧ SliceResult s u e fun k x =>
        (divided x (sliceMask k (activeOn e.g)) t (e.pc + 4)).getD x) ∧
    ((∀ k ∈ e.sls, (divided (e.g.sl k) (sliceMask k (activeOn e.g)) t (e.pc + 4)).isSome = true ∧
        (sliceMask k (activeOn e.g) ≠ 0 → (e.g.sl k).stack.length < 64)) →
      ∃ u, exec (.call o) s = .next u ∧ SliceResult s u e fun k x =>
        match divided x (sliceMask k (activeOn e.g)) t (e.pc + 4) with
        | some y => if sliceMask k (activeOn e.g) = 0 then y else
            { y with stack := { kind := .call, lanes := sliceMask k (activeOn e.g), pc := e.pc + 4 }
                :: y.stack }
        | none => x)

/-! ## Per-lane integer and bit arithmetic (R140 to R154) -/

/-- IADD, ISUB, IMUL, IMAD, IMIN, IMAX, IMULH and IABS write, in every active lane and element, the exact result of R143 and R144,
wrapped or under SAT clamped; IMIN, IMAX and IMULH ignore SAT. Nothing else changes. IDOT4 adds four exact byte products to the
old d, and wraps or saturates the sum once (R145). -/
def Obligations.IntegerArithmetic : Prop :=
  (∀ (s : State) (e : Iss) (d a b : Byte), issOf s = some e → RoomForTraps e →
    ∀ p ∈ ([(.iadd d a b, setInt, [a, b], true, fun _ x y _ => x + y),
        (.isub d a b, setInt, [a, b], true, fun _ x y _ => x - y),
        (.imul d a b, setInt, [a, b], true, fun _ x y _ => x * y),
        (.imad d a b, setInt, [a, b], true, fun _ x y c => x * y + c),
        (.imin d a b, setInt, [a, b], false, fun _ x y _ => min x y),
        (.imax d a b, setInt, [a, b], false, fun _ x y _ => max x y),
        (.imulh d a b, setInt, [a, b], false, fun w x y _ => x * y / 2 ^ w),
        (.iabs d a, setSigned, [a], true, fun _ x _ _ => |x|)] :
        List (Instr × (Nat → Bool) × List Byte × Bool × (Nat → Int → Int → Int → Int))),
      Fits e p.2.1 [d] p.2.2.1 [] →
      ∃ t v, exec p.1 s = .next t ∧ Result s t e e.active d e.wide v noConds ∧
        ∀ l ∈ e.active, ∀ i < tyCount (e.lty l),
          Exactly (e.lty l) (p.2.2.2.1 && mSat (e.lmode l))
            (p.2.2.2.2 (tyWidth (e.lty l)) (e.int a l i) (e.int b l i) (e.int d l i)) (elemOf (e.lty l) (v l) i)) ∧
  (∀ (s : State) (e : Iss) (d a b : Byte), issOf s = some e → RoomForTraps e → Fits e setByte [d] [a, b] [] →
    ∃ t v, exec (.idot4 d a b) s = .next t ∧ Result s t e e.active d e.wide v noConds ∧
      ∀ l ∈ e.active, ∀ w, w = (if e.lty l = 10 then 0 else 1) →
        Exactly w (mSat (e.lmode l)) (intVal w (e.val d l) + e.int a l 0 * e.int b l 0 + e.int a l 1 * e.int b l 1
          + e.int a l 2 * e.int b l 2 + e.int a l 3 * e.int b l 3) (v l))

/-- AND, OR, XOR and ANDN act on every bit of the full operand, under every element type (R146). SHL, SHR, SAR and ROT shift each
element by its count: zeros enter for SHL and SHR, copies of the sign bit for SAR, and ROT moves bit j to bit (j + k) mod w
(R147). POPC counts the 1 bits of a and CLZ the 0 bits above the highest, as 32-bit results; BREV reverses the bits (R148). BFE
extracts the field named by its control word, and BFI replaces it in the old d (R149). -/
def Obligations.BitInstructions : Prop :=
  (∀ (s : State) (e : Iss) (d a b : Byte), issOf s = some e → RoomForTraps e → Fits e setAny [d] [a, b] [] →
    ∀ p ∈ ([(.and d a b, fun x y => x && y), (.or d a b, fun x y => x || y), (.xor d a b, fun x y => x != y),
        (.andn d a b, fun x y => x && !y)] : List (Instr × (Bool → Bool → Bool))),
      ∃ t v, exec p.1 s = .next t ∧ Result s t e e.active d e.wide v noConds ∧
        ∀ l ∈ e.active, ∀ w, w = (if e.wide l then 64 else 32) → v l < 2 ^ w ∧
          ∀ j < w, (v l).testBit j = p.2 ((e.val a l).testBit j) ((e.val b l).testBit j)) ∧
  (∀ (s : State) (e : Iss) (d a b : Byte), issOf s = some e → RoomForTraps e → Fits e setInt [d] [a] [b] →
    ∀ p ∈ ([(.shl d a b, fun w x k r => r = if w ≤ k then 0 else x <<< k % 2 ^ w),
        (.shr d a b, fun w x k r => r = if w ≤ k then 0 else x >>> k),
        (.sar d a b, fun w x k r => signed r w = signed x w / 2 ^ k),
        (.rot d a b, fun w x k r => ∀ j < w, r.testBit ((j + k) % w) = x.testBit j)] :
        List (Instr × (Nat → Nat → Nat → Nat → Prop))),
      ∃ t v, exec p.1 s = .next t ∧ Result s t e e.active d e.wide v noConds ∧
        ∀ l ∈ e.active, ∀ i < tyCount (e.lty l),
          p.2 (tyWidth (e.lty l)) (elemOf (e.lty l) (e.val a l) i) (shiftBy e b l i) (elemOf (e.lty l) (v l) i)) ∧
  (∀ (s : State) (e : Iss) (d a b : Byte), issOf s = some e → RoomForTraps e →
    (Fits e setWide [] [a] [d] →
      (∃ t v, exec (.popc d a) s = .next t ∧ Result s t e e.active d (fun _ => false) v noConds ∧
        ∀ l ∈ e.active, v l = ((List.range (tyWidth (e.lty l))).filter fun j => (e.val a l).testBit j).length) ∧
      (∃ t v, exec (.clz d a) s = .next t ∧ Result s t e e.active d (fun _ => false) v noConds ∧
        ∀ l ∈ e.active, v l ≤ tyWidth (e.lty l) ∧ e.val a l < 2 ^ (tyWidth (e.lty l) - v l) ∧
          (v l < tyWidth (e.lty l) → 2 ^ (tyWidth (e.lty l) - v l - 1) ≤ e.val a l))) ∧
    (Fits e setWide [d] [a] [] → ∃ t v, exec (.brev d a) s = .next t ∧
      Result s t e e.active d e.wide v noConds ∧ ∀ l ∈ e.active, v l < 2 ^ tyWidth (e.lty l) ∧
        ∀ j < tyWidth (e.lty l), (v l).testBit (tyWidth (e.lty l) - 1 - j) = (e.val a l).testBit j) ∧
    (Fits e setWide [d] [a] [b] →
      (∃ t v, exec (.bfe d a b) s = .next t ∧ Result s t e e.active d e.wide v noConds ∧
        ∀ l ∈ e.active, ∀ pos len f, pos = rd e.g l b % 2 ^ 8 → len = rd e.g l b / 2 ^ 8 % 2 ^ 8 →
          f = (intVal (e.lty l) (e.val a l) / 2 ^ pos % 2 ^ len).toNat →
          Exactly (e.lty l) false (if tySigned (e.lty l) ∧ len ≠ 0 then signed f len else f) (v l)) ∧
      (∃ t v, exec (.bfi d a b) s = .next t ∧ Result s t e e.active d e.wide v noConds ∧
        ∀ l ∈ e.active, ∀ pos len, pos = rd e.g l b % 2 ^ 8 → len = rd e.g l b / 2 ^ 8 % 2 ^ 8 →
          v l < 2 ^ tyWidth (e.lty l) ∧ ∀ j < tyWidth (e.lty l), (v l).testBit j =
            if pos ≤ j ∧ j < pos + len then (e.val a l).testBit (j - pos) else (e.val d l).testBit j)))

/-- MOV, MOVI, MOVH and SEL (R151, R152): SEL writes every running lane, a where the guard is true and b elsewhere. LEA adds the
sign-extended index, scaled by the element's size, to the 64-bit base (R153). A shuffle gives each active lane the source of its
source lane, and its own where that lane does not exist or is not active; every source is read before any result is written
(R154). -/
def Obligations.MovesAndShuffles : Prop :=
  (∀ (s : State) (e : Iss) (d a b : Byte) (i : BitVec 16), issOf s = some e → RoomForTraps e →
    (Fits e setAny [d] [a] [] → ∃ t, exec (.mov d a) s = .next t ∧
      Result s t e e.active d e.wide (e.val a) noConds) ∧
    (Fits e setAny [] [] [d] →
      (∃ t, exec (.movi d i) s = .next t ∧
        Result s t e e.active d (fun _ => false) (fun _ => (i.signExtend 32).toNat) noConds) ∧
      (∃ t, exec (.movh d i) s = .next t ∧ Result s t e e.active d (fun _ => false)
        (fun l => i.toNat * 2 ^ 16 + rd e.g l d % 2 ^ 16) noConds)) ∧
    (Fits e setAny [d] [a, b] [] → ∃ t, exec (.sel d a b) s = .next t ∧
      Result s t e e.running d e.wide (fun l => e.val (if guardTrue e.g l then a else b) l) noConds)) ∧
  (∀ (s : State) (e : Iss) (d a b : Byte), issOf s = some e → RoomForTraps e →
    (∀ k ∈ e.sls, setAny (e.ty k) = true) → pairOk e.n d = true → wideOk e.n a = true → declOk e.n b = true →
    ∃ t v, exec (.lea d a b) s = .next t ∧ Result s t e e.active d (fun _ => true) v noConds ∧
      ∀ l ∈ e.active, v l < 2 ^ 64 ∧ ∃ z : Int, (v l : Int) =
        rd64 e.g l a false + signed (rd e.g l b) 32 * (tyWidth (e.lty l) / 8 : Nat) + z * 2 ^ 64) ∧
  (∀ (s : State) (e : Iss) (d a : Byte) (n : BitVec 5), issOf s = some e → RoomForTraps e →
    Fits e setAny [d] [a] [] →
    ∀ p ∈ ([(.shfli d a n, fun _ j => j = n.toNat), (.shflx d a n, fun l j => j = l ^^^ n.toNat),
        (.shflu d a n, fun l j => j + n.toNat = l), (.shfld d a n, fun l j => j = l + n.toNat)] :
        List (Instr × (Nat → Nat → Prop))),
      ∃ t v, exec p.1 s = .next t ∧ Result s t e e.active d e.wide v noConds ∧
        ∀ l ∈ e.active, (∀ j ∈ e.active, p.2 l j → v l = rdT e.g (e.lty l) j a) ∧
          ((∀ j ∈ e.active, ¬ p.2 l j) → v l = e.val a l))

/-! ## Predicates and uniform registers (R138, R139, R150, R155 to R157) -/

/-- PAND, POR, PXOR, PNOT and PMOV write one predicate from predicates, in every active lane (R155). ICMP and SCMP write a
predicate by one of the six conditions (R150, R157). P2V and V2P move between predicates and registers (R156); V2P FILE writes the
predicates 1 to 7 of every active lane. -/
def Obligations.Predicates : Prop :=
  (∀ (s : State) (e : Iss) (d a b : BitVec 3), issOf s = some e → RoomForTraps e →
    ∀ p ∈ ([(.pand d a b, fun x y => x && y), (.por d a b, fun x y => x || y), (.pxor d a b, fun x y => x != y),
        (.pnot d a, fun x _ => !x), (.pmov d a, fun x _ => x)] : List (Instr × (Bool → Bool → Bool))),
      ∃ t, exec p.1 s = .next t ∧ PredResult s t e d.toNat
        (fun l => p.2 (predAt e.g a.toNat l) (predAt e.g b.toNat l)) noConds) ∧
  (∀ (s : State) (e : Iss) (c d : BitVec 3) (a b : Byte), issOf s = some e → RoomForTraps e → c.toNat < 6 →
    (Fits e setWide [] [a, b] [] → ∃ t v, exec (.icmp c d a b) s = .next t ∧ PredResult s t e d.toNat v noConds ∧
      ∀ l ∈ e.active, v l = true ↔ holdsCond c (intVal (e.lty l) (e.val a l)) (intVal (e.lty l) (e.val b l))) ∧
    ((∀ k ∈ e.sls, e.ty k ≤ 1) → sldPending e = false →
      ∃ t v, exec (.scmp c d a b) s = .next t ∧ PredResult s t e d.toNat v noConds ∧
        ∀ l ∈ e.active, ∀ k, e.active.head?.map (· / 4) = some k →
          (v l = true ↔ holdsCond c (intVal (e.ty k) (rdS e.g k a)) (intVal (e.ty k) (rdS e.g k b))))) ∧
  (∀ (s : State) (e : Iss) (d : Byte) (p : BitVec 3), issOf s = some e → RoomForTraps e → declOk e.n d = true →
    (∃ t, exec (.p2v d p 0) s = .next t ∧ Result s t e e.active d (fun _ => false)
      (fun l => if predAt e.g p.toNat l then 1 else 0) noConds) ∧
    (∃ t v, exec (.p2v d p 1) s = .next t ∧ Result s t e e.active d (fun _ => false) v noConds ∧
      ∀ l ∈ e.active, v l < 2 ^ 8 ∧ ∀ j < 8, (v l).testBit j = predAt e.g j l) ∧
    (∃ t, exec (.v2p p d 0) s = .next t ∧ PredResult s t e p.toNat (fun l => rd e.g l d != 0) noConds) ∧
    (∃ t g, exec (.v2p p d 1) s = .next t ∧ Retired t e g ∧ OnlyGang s t e.gi ∧ g.regs = e.g.regs ∧
      g.sregs = e.g.sregs ∧ SameControl e.g g ∧ ∀ q l, q < 8 → l < 32 →
        predAt g q l = if q ≠ 0 ∧ l ∈ e.active then (rd e.g l d).testBit q else predAt e.g q l))

/-- ELECT sets Pd in the lowest active lane, of the cohort or of each slice, and clears it in the other active lanes (R138). VOTE
gives every active lane one value from predicate a in the active lanes of the cohort (R139). -/
def Obligations.ElectionsAndVotes : Prop :=
  (∀ (s : State) (e : Iss) (d : BitVec 3), issOf s = some e → RoomForTraps e →
    (∃ t v, exec (.elect d 0) s = .next t ∧ PredResult s t e d.toNat v noConds ∧
      ∀ l ∈ e.active, v l = true ↔ ∀ j ∈ e.active, l ≤ j) ∧
    (∃ t v, exec (.elect d 1) s = .next t ∧ PredResult s t e d.toNat v noConds ∧
      ∀ l ∈ e.active, v l = true ↔ ∀ j ∈ e.active, j / 4 = l / 4 → l ≤ j)) ∧
  (∀ (s : State) (e : Iss) (d : Byte) (a : BitVec 3), issOf s = some e → RoomForTraps e →
    (∃ t v, exec (.vote d a 0) s = .next t ∧ PredResult s t e d.toNat v noConds ∧
      ∀ l ∈ e.active, v l = true ↔ ∀ j ∈ e.active, predAt e.g a.toNat j = true) ∧
    (∃ t v, exec (.vote d a 1) s = .next t ∧ PredResult s t e d.toNat v noConds ∧
      ∀ l ∈ e.active, v l = true ↔ ∃ j ∈ e.active, predAt e.g a.toNat j = true) ∧
    (∃ t v, exec (.vote d a 2) s = .next t ∧ PredResult s t e d.toNat v noConds ∧
      ∀ l ∈ e.active, v l = true ↔
        ∀ i ∈ e.active, ∀ j ∈ e.active, predAt e.g a.toNat i = predAt e.g a.toNat j) ∧
    (declOk e.n d = true → ∃ t v, exec (.vote d a 3) s = .next t ∧
      Result s t e e.active d (fun _ => false) v noConds ∧ ∀ l ∈ e.active, v l < 2 ^ 32 ∧
        ∀ j < 32, (v l).testBit j = decide (j ∈ e.active ∧ predAt e.g a.toNat j = true)))

/-- The uniform instructions write Sd modulo 2^32 once for the cohort, by the slice of its lowest active lane, and wait for an
outstanding SLD (R157, R158). S2V is result-producing. -/
def Obligations.UniformInstructions : Prop :=
  ∀ (s : State) (e : Iss) (d a b : Byte) (i : BitVec 16), issOf s = some e → RoomForTraps e →
    (sldPending e = false →
      (∀ p ∈ ([(.sadd d a b, fun x y => x + y), (.ssub d a b, fun x y => x - y), (.smul d a b, fun x y => x * y),
          (.sand d a b, fun x y => x &&& y), (.sor d a b, fun x y => x ||| y), (.sxor d a b, fun x y => x ^^^ y),
          (.sshl d a b, fun x y => x <<< y.toNat), (.smov d a, fun x _ => x),
          (.smovi d i, fun _ _ => i.signExtend 32)] : List (Instr × (Word → Word → Word))),
        ∃ t, exec p.1 s = .next t ∧ UniResult s t e d fun k =>
          (p.2 (BitVec.ofNat 32 (rdS e.g k a)) (BitVec.ofNat 32 (rdS e.g k b))).toNat) ∧
      ((∀ k ∈ e.sls, e.ty k ≤ 1) → ∃ t, exec (.sshr d a b) s = .next t ∧ UniResult s t e d fun k =>
        (if e.ty k = 0 then (BitVec.ofNat 32 (rdS e.g k a)).sshiftRight (rdS e.g k b)
          else BitVec.ofNat 32 (rdS e.g k a) >>> rdS e.g k b).toNat) ∧
      (declOk e.n d = true → ∃ t v, exec (.s2v d a) s = .next t ∧
        Result s t e e.active d (fun _ => false) v noConds ∧
        ∀ l ∈ e.active, ∀ k, e.active.head?.map (· / 4) = some k → v l = rdS e.g k a) ∧
      (declOk e.n a = true → ∃ t v, exec (.v2s d a) s = .next t ∧ UniResult s t e d v ∧
        ∀ l, e.active.head? = some l → v (l / 4) = rd e.g l a)) ∧
    (sldPending e = true → exec (.sadd d a b) s = .next (idle s))

/-! ## Per-lane floating point (R159 to R178) -/

/-- FADD, FSUB, FMUL, FFMA and FDIV form the exact result of R162 from their elements and round it once; FSCALE scales by a power
of two read from b. -/
def Obligations.FloatArithmetic : Prop :=
  ∀ (s : State) (e : Iss) (d a b : Byte), issOf s = some e → RoomForTraps e → noRst e →
    (Fits e setFp [d] [a, b] [] →
      ∀ p ∈ ([(.fadd d a b, fun rm x y _ => addF rm x y), (.fsub d a b, fun rm x y _ => addF rm x (negF y)),
          (.fmul d a b, fun _ x y _ => mulF x y), (.ffma d a b, fun rm x y c => fmaF rm x y c),
          (.fdiv d a b, fun _ x y _ => divF x y)] : List (Instr × (Nat → FVal → FVal → FVal → Exact))),
        ∃ t v c, exec p.1 s = .next t ∧ Result s t e e.active d e.wide v c ∧
          perElement e v c fun l i => finishF (tyFmt (e.lty l)) (mRound (e.lmode l)) (mSat (e.lmode l))
            (p.2 (mRound (e.lmode l)) (numOf e a l i) (numOf e b l i) (numOf e d l i))) ∧
    (Fits e setFp [d] [a] [b] → ∃ t v c, exec (.fscale d a b) s = .next t ∧
      Result s t e e.active d e.wide v c ∧
        perElement e v c fun l i => finishF (tyFmt (e.lty l)) (mRound (e.lmode l)) (mSat (e.lmode l))
          (scaleF (numOf e a l i) (if tyCount (e.lty l) = 1 then signed (rd e.g l b) 32
            else signed (elemOf (e.lty l) (rd e.g l b) i) 16)))

/-- FRINT, FRCP, FSQRT and, but for F64, FRSQ, FEXP2, FLOG2, FSIN, FCOS and FTANH act on each element in its own format (R166 to
R168). The special operands of R168: an operand that is no finite number, or a zero, gives the result and the conditions of the
table, under every rounding mode and whatever SAT holds. -/
def Obligations.FloatFunctions : Prop :=
  (∀ (s : State) (e : Iss) (d a : Byte), issOf s = some e → RoomForTraps e → noRst e →
    ∀ p ∈ ([(.frint d a, setFp, fun f rm _ x => (frintF f rm x, 0)), (.frcp d a, setFp, frcpF),
        (.fsqrt d a, setFp, fsqrtF), (.frsq d a, setFps, frsqF), (.fexp2 d a, setFps, fexp2F),
        (.flog2 d a, setFps, flog2F), (.fsin d a, setFps, fsinF), (.fcos d a, setFps, fcosF),
        (.ftanh d a, setFps, ftanhF)] :
        List (Instr × (Nat → Bool) × (Fmt → Nat → Bool → Nat → Nat × Conds))),
      Fits e p.2.1 [d] [a] [] → ∃ t v c, exec p.1 s = .next t ∧ Result s t e e.active d e.wide v c ∧
        perElement e v c fun l i => p.2.2 (tyFmt (e.lty l)) (mRound (e.lmode l)) (mSat (e.lmode l)) (codeOf e a l i)) ∧
  (∀ (f : Fmt) (rm : Nat) (sat : Bool) (x : Nat), f ∈ [F32, F16, BF16] → x < 2 ^ fmtWidth f →
    let inf := infCode f
    let neg := 2 ^ (f.eb + f.mb)
    let one := f.bias * 2 ^ f.mb
    (decodeF f x = .nan → ∀ g ∈ [frcpF, frsqF, fsqrtF, fexp2F, flog2F, fsinF, fcosF, ftanhF],
      g f rm sat x = (canonNan f, 0)) ∧
    (x = 0 → frcpF f rm sat x = (inf, condDZ) ∧ frsqF f rm sat x = (inf, condDZ) ∧ fsqrtF f rm sat x = (0, 0) ∧
      fexp2F f rm sat x = (one, 0) ∧ flog2F f rm sat x = (neg + inf, condDZ) ∧ fsinF f rm sat x = (0, 0) ∧
      fcosF f rm sat x = (one, 0) ∧ ftanhF f rm sat x = (0, 0)) ∧
    (x = neg → frcpF f rm sat x = (neg + inf, condDZ) ∧ frsqF f rm sat x = (neg + inf, condDZ) ∧
      fsqrtF f rm sat x = (neg, 0) ∧ fexp2F f rm sat x = (one, 0) ∧ flog2F f rm sat x = (neg + inf, condDZ) ∧
      fsinF f rm sat x = (neg, 0) ∧ fcosF f rm sat x = (one, 0) ∧ ftanhF f rm sat x = (neg, 0)) ∧
    (x = inf → frcpF f rm sat x = (0, 0) ∧ frsqF f rm sat x = (0, 0) ∧ fsqrtF f rm sat x = (inf, 0) ∧
      fexp2F f rm sat x = (inf, 0) ∧ flog2F f rm sat x = (inf, 0) ∧ ftanhF f rm sat x = (one, 0) ∧
      ∀ g ∈ [fsinF, fcosF], g f rm sat x = (canonNan f, condNV)) ∧
    (x = neg + inf → frcpF f rm sat x = (neg, 0) ∧ fexp2F f rm sat x = (0, 0) ∧
      ftanhF f rm sat x = (neg + one, 0) ∧
      ∀ g ∈ [frsqF, fsqrtF, flog2F, fsinF, fcosF], g f rm sat x = (canonNan f, condNV)) ∧
    (neg < x → x < neg + inf → ∀ g ∈ [frsqF, fsqrtF, flog2F], g f rm sat x = (canonNan f, condNV)))

/-- FMIN and FMAX order −0 below +0 and answer the canonical NaN for a NaN; FABS clears the sign bit of each element and FNEG
inverts it, on any pattern. None raises a condition (R163). FCMP writes Pd by the table of R164, where a NaN operand makes only NE
and UN true; FCLASS sets exactly the bit of its operand's class in each element's mask (R165). Neither raises a condition. -/
def Obligations.FloatOrderAndCompares : Prop :=
  (∀ (s : State) (e : Iss) (d a b : Byte), issOf s = some e → RoomForTraps e →
    (Fits e setFp [d] [a, b] [] → ∀ p ∈ ([(.fmin d a b, false), (.fmax d a b, true)] : List (Instr × Bool)),
      ∃ t v, exec p.1 s = .next t ∧ Result s t e e.active d e.wide v noConds ∧
        ∀ l ∈ e.active, ∀ i < tyCount (e.lty l), ∀ x y r, x = codeOf e a l i → y = codeOf e b l i →
          r = elemOf (e.lty l) (v l) i →
          if numOf e a l i = .nan ∨ numOf e b l i = .nan then r = canonNan (tyFmt (e.lty l))
          else
            let z := cmpF (numOf e a l i) (numOf e b l i)
            let below := z < 0 ∨ (z = 0 ∧ x.testBit (tyWidth (e.lty l) - 1) = true)
            r = if below then (if p.2 then y else x) else (if p.2 then x else y)) ∧
    (Fits e setFp [d] [a] [] → ∀ p ∈ ([(.fabs d a, fun _ => false), (.fneg d a, fun x => !x)] :
        List (Instr × (Bool → Bool))),
      ∃ t v, exec p.1 s = .next t ∧ Result s t e e.active d e.wide v noConds ∧
        ∀ l ∈ e.active, ∀ i < tyCount (e.lty l), ∀ j < tyWidth (e.lty l),
          (elemOf (e.lty l) (v l) i).testBit j =
            if j = tyWidth (e.lty l) - 1 then p.2 ((codeOf e a l i).testBit j) else (codeOf e a l i).testBit j)) ∧
  (∀ (s : State) (e : Iss) (c p : BitVec 3) (d a b : Byte), issOf s = some e → RoomForTraps e →
    (Fits e setScal [] [a, b] [] → ∃ t v, exec (.fcmp c p a b) s = .next t ∧ PredResult s t e p.toNat v noConds ∧
      ∀ l ∈ e.active, ∀ x y z, x = numOf e a l 0 → y = numOf e b l 0 → z = cmpF x y →
        (v l = true ↔ if x = .nan ∨ y = .nan then c = 1 ∨ c = 6
          else (c = 0 ∧ z = 0) ∨ (c = 1 ∧ z ≠ 0) ∨ (c = 2 ∧ z < 0) ∨ (c = 3 ∧ z ≤ 0) ∨ (c = 4 ∧ 0 < z)
            ∨ (c = 5 ∧ 0 ≤ z) ∨ c = 7)) ∧
    (Fits e setFp [] [a] [d] → ∃ t v, exec (.fclass d a) s = .next t ∧
      Result s t e e.active d (fun _ => false) v noConds ∧ ∀ l ∈ e.active, v l < 2 ^ 32 ∧ ∀ j < 32,
        (v l).testBit j = decide (j / 16 < tyCount (e.lty l) ∧
          j % 16 = classOf (tyFmt (e.lty l)) (codeOf e a l (j / 16)))))

/-- CVT converts each element from the mode's type to the target type at position p: where the target has no more elements than
the source, source element p · nt + j gives element j; else source element j gives element p · ns + j and the other elements of
the old d stay (R169). CVTSR rounds one element stochastically by a random word (R170, R34). -/
def Obligations.Conversions : Prop :=
  ∀ (s : State) (e : Iss) (d a : Byte) (p : BitVec 2) (ty : BitVec 4) (f r : BitVec 3), issOf s = some e →
    RoomForTraps e →
    ((∀ k ∈ e.sls, cvtOk e.n (e.mode k) d a p.toNat ty.toNat = true) →
      ∃ t v c, exec (.cvt d a p ty) s = .next t ∧ Result s t e e.active d (fun _ => tyWide ty.toNat) v c ∧
        ∀ l ∈ e.active, ∀ st tt conv, st = e.lty l → tt = ty.toNat →
          conv = (fun i => convElem st tt (mRound (e.lmode l)) (mSat (e.lmode l)) (codeOf e a l i)) →
          if tyCount tt ≤ tyCount st then
            (∀ j < tyCount tt, elemOf tt (v l) j = (conv (p.toNat * tyCount tt + j)).1 % 2 ^ tyWidth tt) ∧
            c l = orConds ((List.range (tyCount tt)).map fun j => (conv (p.toNat * tyCount tt + j)).2)
          else
            (∀ j < tyCount tt, elemOf tt (v l) j =
              if p.toNat * tyCount st ≤ j ∧ j < (p.toNat + 1) * tyCount st then
                (conv (j - p.toNat * tyCount st)).1 % 2 ^ tyWidth tt
              else elemOf tt (rd e.g l d) j) ∧
            c l = orConds ((List.range (tyCount st)).map fun j => (conv j).2)) ∧
    (Fits e setScal [] [a] [d] → f.toNat ≤ 4 → (f = 0 → p = 0 ∧ ∀ k ∈ e.sls, e.ty k = 5) →
      (f = 1 ∨ f = 2 → p.toNat ≤ 1) →
      ∃ t v c, exec (.cvtsr d a f p r) s = .next t ∧ Result s t e e.active d (fun _ => false) v c ∧
        ∀ l ∈ e.active, ∀ q tt, tt = cvtsrTy f.toNat →
          q = convStoch (tyFmt tt) (mSat (e.lmode l)) (numOf e a l 0) (rd e.g l (r.zeroExtend 8)) →
          c l = q.2 ∧ ∀ j < tyCount tt, elemOf tt (v l) j =
            if j = p.toNat then q.1 % 2 ^ tyWidth tt else elemOf tt (rd e.g l d) j)

/-- RNG writes the pure function of R171 of the context's SEED, the kernel ordinal, the stream and a; DQMX reads a QMX word back
by its scale (R173); FDOT2 rounds c + x0 × y0 + x1 × y1 once to F32 (R177). QMX gives every active lane the block's shared scale
and its own element code, or the NaN scale where the block holds a NaN or an infinity (R172); GAMAX the greatest magnitude of each
element over the active lanes (R175); GRED the canonical tree T(32) over them, or their FMAX or FMIN (R176). -/
def Obligations.ScaleDotAndCrossLane : Prop :=
  (∀ (s : State) (e : Iss) (d a b str : Byte), issOf s = some e → RoomForTraps e →
    (Fits e (fun _ => true) [] [] [d, a] → ∃ t, exec (.rng d a str) s = .next t ∧
      Result s t e e.active d (fun _ => false)
        (fun l => rngWord e.ctx.desc.seed.toNat e.kern.ord str.toNat (rd e.g l a)) noConds) ∧
    (Fits e setF32 [] [] [d, a, b] → noRst e → ∃ t v c, exec (.dqmx d a b) s = .next t ∧
      Result s t e e.active d (fun _ => false) v c ∧ ∀ l ∈ e.active, ∀ f sc code,
        f = rd e.g l a / 2 ^ 16 % 16 → sc = rd e.g l b / 2 ^ 8 % 256 → code = rd e.g l a % 2 ^ elemWidth f →
        if f < 2 ∨ 7 < f then (v l, c l) = (canonNan F32, condNV)
        else if sc = 255 then (v l, c l) = (canonNan F32, 0)
        else match elemValue f code with
          | .fin n m x => (v l, c l) = finishF F32 (mRound (e.lmode l)) (mSat (e.lmode l))
              (finExact n m (x + (sc : Int) - 127))
          | y => (v l, c l) = cvtFF F32 (mRound (e.lmode l)) (mSat (e.lmode l)) y) ∧
    (Fits e setHalf [] [] [d, a, b] → noRst e → ∃ t v c, exec (.fdot2 d a b) s = .next t ∧
      Result s t e e.active d (fun _ => false) v c ∧ ∀ l ∈ e.active,
        (v l, c l) = fdot2F (tyFmt (e.lty l)) (mRound (e.lmode l)) (mSat (e.lmode l)) (rd e.g l a) (rd e.g l b)
          (rd e.g l d))) ∧
  (∀ (s : State) (e : Iss) (d a : Byte) (f : BitVec 3) (sub : BitVec 2), issOf s = some e → RoomForTraps e →
    (Fits e setF32 [] [] [d, a] → noRst e → 2 ≤ f.toNat → ∃ t v c, exec (.qmx d a f) s = .next t ∧
      Result s t e e.active d (fun _ => false) v c ∧ ∀ l ∈ e.active,
        match mxScale f.toNat (e.active.map fun j => decodeF F32 (rd e.g j a)) with
        | none => v l = f.toNat * 2 ^ 16 + 255 * 2 ^ 8 ∧ c l = condNV
        | some x => v l = f.toNat * 2 ^ 16 + (x + 127).toNat * 2 ^ 8
              + (mxElem f.toNat (mRound (e.lmode l)) x (decodeF F32 (rd e.g l a))).1
            ∧ c l = (mxElem f.toNat (mRound (e.lmode l)) x (decodeF F32 (rd e.g l a))).2) ∧
    (Fits e setFps [d] [a] [] → ∃ t v, exec (.gamax d a) s = .next t ∧
      Result s t e e.active d (fun _ => false) v noConds ∧ ∀ l ∈ e.active, ∀ i < tyCount (e.lty l),
        elemOf (e.lty l) (v l) i = gamaxElem e a (e.lty l) i % 2 ^ tyWidth (e.lty l)) ∧
    (Fits e setFp [d] [a] [] → noRst e → sub.toNat ≤ 2 → ∃ t v c, exec (.gred d a sub) s = .next t ∧
      Result s t e e.active d e.wide v c ∧ perElement e v c fun l i => gredElem e a sub.toNat (e.lty l) i))

/-- PACKL packs the low bits of every active lane's code into one string and gives lane j its word j; UNPACKL is its inverse
(R174). The string is read bit by bit. CMP24 keeps the two elements of greatest magnitude of its four, the lower index first among
equals, and writes their bits or their indices (R178). -/
def Obligations.PackAndTwoOfFour : Prop :=
  (∀ (s : State) (e : Iss) (d a b : Byte) (f : BitVec 4), issOf s = some e → RoomForTraps e →
    (Fits e (fun _ => true) [] [] [d, a, b] → (∀ l, e.active.head? = some l → rd e.g l b % 16 ≤ 8) →
      ∃ t v, exec (.packl d a b) s = .next t ∧ Result s t e e.active d (fun _ => false) v noConds ∧
        ∀ h, e.active.head? = some h → ∀ w, w = elemWidth (rd e.g h b % 16) → ∀ l ∈ e.active, v l < 2 ^ 32 ∧
          ∀ j < 32, (v l).testBit j = decide (l < w ∧ (32 * l + j) / w ∈ e.active ∧
            (rd e.g ((32 * l + j) / w) a).testBit ((32 * l + j) % w) = true)) ∧
    (Fits e (fun _ => true) [] [] [d, a] → f.toNat ≤ 8 →
      ∃ t v, exec (.unpackl d a f) s = .next t ∧ Result s t e e.active d (fun _ => false) v noConds ∧
        ∀ l ∈ e.active, ∀ w, w = elemWidth f.toNat → v l / 2 ^ 16 = f.toNat ∧
          ∀ j < 16, (v l).testBit j = decide (j < w ∧ (w * l + j) / 32 ∈ e.active ∧
            (rd e.g ((w * l + j) / 32) a).testBit ((w * l + j) % 32) = true))) ∧
  (∀ (s : State) (e : Iss) (d a : Byte) (sub : BitVec 1), issOf s = some e → RoomForTraps e →
    Fits e setC24 [] [] [d] →
    (∀ k ∈ e.sls, if setHalf (e.ty k) then pairOk e.n a = true else declOk e.n a = true) →
    ∃ t v, exec (.cmp24 d a sub) s = .next t ∧ Result s t e e.active d (fun _ => false) v noConds ∧
      ∀ l ∈ e.active, ∃ i j, i < j ∧ j < 4 ∧
        (∀ n < 4, n ≠ i → n ≠ j → ∀ m, m = i ∨ m = j →
          keyOf e a l n < keyOf e a l m ∨ (keyOf e a l n = keyOf e a l m ∧ m < n)) ∧
        ∀ w x, w = tyWidth (e.lty l) → x = (if w = 16 then rdPair e.g l a else rd e.g l a) →
          v l = if sub = 0 then x / 2 ^ (w * i) % 2 ^ w + 2 ^ w * (x / 2 ^ (w * j) % 2 ^ w) else i + 4 * j)

/-! ## Control flow (R127 to R136) -/

/-- RET pops a CALL entry and RPUSH pushes a JOINPT entry; JOIN releases the waiting side of its entry or pops it; BRX sends the
side of the lowest running lane to its target and keeps the others at the BRX, and LNK pushes a CALL entry unless that side falls
through (R131 to R134). Each raises its fault at the first slice that fails. The unwinding of a slice whose run mask is 0 (R128):
an empty stack leaves it finished; a JOINPT entry with waiting lanes releases them and stays; every other entry is popped, a TRAP
entry giving back its mode word and IM, and the slice resumes with the entry's lanes that have not exited, or unwinds further. -/
def Obligations.StackAndUnwinding : Prop :=
  (∀ (s : State) (e : Iss), issOf s = some e → Quiet e →
    ((∀ k ∈ e.sls, ∃ x r, (e.g.sl k).stack = x :: r ∧ x.kind = .call) →
      (∃ k ∈ e.sls, ∃ y x r, e.g.slices[k]? = some y ∧ y.stack = x :: r ∧ x.lanes &&& ~~~y.exited ≠ 0) →
      ∃ t, exec .ret s = .next t ∧ SliceResult s t e fun _ y => match y.stack with
        | x :: r => { y with run := x.lanes &&& ~~~y.exited, pc := x.pc, stack := r }
        | [] => y) ∧
    (∀ k, lowestSuch e k (fun k => ¬ ∃ x r, (e.g.sl k).stack = x :: r ∧ x.kind = .call) →
      exec .ret s = .next (raise e k .illegalOp 0)) ∧
    (∀ o t, targetOf e.pc o t → someRuns e → (∀ k ∈ e.sls, (e.g.sl k).stack.length < 64) →
      ∃ u, exec (.rpush o) s = .next u ∧ SliceResult s u e fun _ y => { y with
        stack := { kind := .joinpt, lanes := y.run, pc := t, pend := 0, ppc := 0 } :: y.stack, pc := y.pc + 4 }) ∧
    (∀ o t k, targetOf e.pc o t → lowestSuch e k (fun k => 64 ≤ (e.g.sl k).stack.length) →
      exec (.rpush o) s = .next (raise e k .stackOverflow 0)) ∧
    ((∀ k ∈ e.sls, ∃ x r, (e.g.sl k).stack = x :: r ∧ x.kind = .joinpt ∧ x.pc = (e.g.sl k).pc) →
      (∃ k ∈ e.sls, ∃ y x r, e.g.slices[k]? = some y ∧ y.stack = x :: r ∧
        (x.pend ≠ 0 ∨ x.lanes &&& ~~~y.exited ≠ 0)) →
      ∃ t, exec .join s = .next t ∧ SliceResult s t e fun _ y => match y.stack with
        | x :: r =>
          if x.pend = 0 then { y with run := x.lanes &&& ~~~y.exited, pc := y.pc + 4, stack := r }
          else { y with run := x.pend, pc := x.ppc, stack := { x with pend := 0 } :: r }
        | [] => y) ∧
    (∀ k, lowestSuch e k (fun k => ¬ ∃ x r, (e.g.sl k).stack = x :: r ∧ x.kind = .joinpt ∧ x.pc = (e.g.sl k).pc) →
      exec .join s = .next (raise e k .illegalOp 0)) ∧
    (∀ (a : Byte) (lnk : BitVec 1), pairOk e.n a = true → someRuns e →
      (∀ k ∈ e.sls, (e.g.sl k).run ≠ 0 ∧ (∀ j < 4, activeOn e.g (4 * k + j) = true →
        rdPair e.g (4 * k + j) a % 4 = 0 ∧ rdPair e.g (4 * k + j) a < 2 ^ 56) ∧
        (divided (e.g.sl k) (brxSideOf e a k) (BitVec.ofNat 56 (brxGoes e a (leadLane e k))) e.pc).isSome = true ∧
        (lnk = 1 → (e.g.sl k).stack.length < 64)) →
      ∃ u, exec (.brx a lnk) s = .next u ∧ SliceResult s u e fun k y =>
        match divided y (brxSideOf e a k) (BitVec.ofNat 56 (brxGoes e a (leadLane e k))) e.pc with
        | some z => if lnk = 1 ∧ brxGoes e a (leadLane e k) ≠ (e.pc + 4).toNat then { z with
            stack := { kind := .call, lanes := brxSideOf e a k, pc := e.pc + 4 } :: z.stack } else z
        | none => y)) ∧
  (∀ (x : Slice) (a : StackEntry) (r : List StackEntry),
    unwind x [] = { x with run := 0, stack := [] } ∧
    (a.kind = .joinpt → a.pend ≠ 0 →
      unwind x (a :: r) = { x with run := a.pend, pc := a.ppc, stack := { a with pend := 0 } :: r }) ∧
    (a.kind ≠ .joinpt ∨ a.pend = 0 → ∀ y, y = (if a.kind = .trap then { x with mode := a.mode, im := a.im } else x) →
      (a.lanes &&& ~~~x.exited ≠ 0 → unwind x (a :: r) =
        { y with run := a.lanes &&& ~~~x.exited, stack := r,
                 pc := if a.kind = .joinpt then a.pc + 4 else a.pc }) ∧
      (a.lanes &&& ~~~x.exited = 0 → unwind x (a :: r) = unwind y r)))

/-- EXIT ends the active lanes for good and closes their regions; a slice left with no running lane unwinds by its stack, and is
finished when nothing is left on it (R128, R136). When the last slice of the last gang finishes, the group is EXITING (R115). -/
def Obligations.ExitEndsLanes : Prop :=
  ∀ (s : State) (e : Iss), issOf s = some e → Quiet e → (∀ k < 8, (e.g.sl k).regang = none) →
    ∃ t g, exec .exit s = .next t ∧ t.exe.gangs[e.gi]? = some g ∧ OnlyGang s t e.gi ∧ t.exe.cur = none ∧
      (∀ k x, e.g.slices[k]? = some x → g.slices[k]? = some (countRetired e k (afterExit (e.act k)) x)) ∧
      g.regs = e.g.regs ∧ g.preds = e.g.preds ∧ g.sregs = e.g.sregs ∧ g.issues = e.g.issues + 1 ∧
      g.opens = e.g.opens.filter (fun o => !activeOn e.g o.lane || !e.mask.getLsbD (o.lane / 4)) ∧
      ((∀ i ∈ e.grp.gangs, ∀ h, t.exe.gangs[i]? = some h → ∀ x ∈ h.slices, x.run = 0 ∧ x.stack = []) →
        e.kern.fixed = false → e.grp.state = .running →
        (t.exe.groups[e.g.grp]?).map Group.state = some .exiting)

/-- REGANG stops its cohort. While another slice that has not finished has not stopped, nothing else happens; when all have
stopped at one address with one token they go on as one cohort at pc + 4; otherwise the lowest-numbered stopped slice raises
ILLEGAL_OP (R135). -/
def Obligations.RegangMerges : Prop :=
  ∀ (s : State) (e : Iss) (tok : BitVec 24), issOf s = some e → Quiet e → someRuns e → e.g.slices.length = 8 →
    ((∃ k < 8, k ∉ e.sls ∧ (e.g.sl k).finished = false ∧ (e.g.sl k).regang = none) →
      ∃ t, exec (.regang tok) s = .next t ∧ SliceResult s t e fun _ x => { x with regang := some tok }) ∧
    ((∀ k < 8, k ∉ e.sls → (e.g.sl k).finished = true ∨ ((e.g.sl k).regang = some tok ∧ (e.g.sl k).pc = e.pc)) →
      (∀ k ∈ e.sls, (e.g.sl k).pc = e.pc ∧ (e.g.sl k).finished = false) →
      ∃ t g, exec (.regang tok) s = .next t ∧ t.exe.gangs[e.gi]? = some g ∧ OnlyGang s t e.gi ∧ SameFile e.g g ∧
        g.issues = e.g.issues + 1 ∧
        g.cohorts = [BitVec.ofNat 8 ((((List.range 8).filter fun k => !(e.g.sl k).finished).map (2 ^ ·)).sum)] ∧
        ∀ k x, e.g.slices[k]? = some x → g.slices[k]? = some (
          if x.finished then countRetired e k (fun x => { x with regang := some tok }) x
          else { countRetired e k id x with regang := none, pc := x.pc + 4 })) ∧
    ((∀ k < 8, k ∉ e.sls → (e.g.sl k).finished = true ∨ (e.g.sl k).regang ≠ none) →
      (∀ k ∈ e.sls, (e.g.sl k).finished = false) →
      (∃ k < 8, k ∉ e.sls ∧ (e.g.sl k).finished = false ∧
        ((e.g.sl k).regang ≠ some tok ∨ (e.g.sl k).pc ≠ e.pc)) →
      ∃ t low, exec (.regang tok) s = .next t ∧ (∀ k < 8, (e.g.sl k).finished = false → low ≤ k) ∧
        (e.g.sl low).finished = false ∧ ∃ r, t.ctl.faults = s.ctl.faults ++ [r] ∧ r.code = some .illegalOp ∧
          r.part = e.kern.part ∧ r.ctx = e.kern.ctx ∧ r.pc = (e.g.sl low).pc.zeroExtend 64)

/-! ## Traps, halts and faults (R71, R73, R78, R79) -/

/-- TRAP and BRK take the trap of R78 in each slice with an active lane, with return address pc + 4, and the other slices go on; a
full stack raises STACK_OVERFLOW; RTT returns from the trap, restoring the mode word, IM and the entry's lanes less those that
exited, and raises ILLEGAL_OP where no TRAP entry is on top (R78, R79). -/
def Obligations.TrapsAndReturns : Prop :=
  ∀ (s : State) (e : Iss) (c : Byte), issOf s = some e → Quiet e → someRuns e →
    (∀ p ∈ [(Instr.trap c, 0x20, True), (.brk c, 0x21, (dbgCtl s e.g e.kern.part).getLsbD 0 = false)], p.2.2 →
      (∀ k ∈ e.sls, e.act k ≠ 0 → (e.g.sl k).stack.length < 64) →
      ∃ t, exec p.1 s = .next t ∧ SliceResult s t e fun k x =>
        if e.act k = 0 then { x with pc := x.pc + 4 }
        else trapped e.g (p.2.1 + 2 ^ 8 * c.toNat) (e.act k) (x.pc + 4) x.pc x) ∧
    (∀ k, lowestSuch e k (fun k => e.act k ≠ 0 ∧ 64 ≤ (e.g.sl k).stack.length) →
      exec (.trap c) s = .next (raise e k .stackOverflow 0)) ∧
    ((∀ k ∈ e.sls, ∃ x r, (e.g.sl k).stack = x :: r ∧ x.kind = .trap) →
      (∃ k ∈ e.sls, ∃ y x r, e.g.slices[k]? = some y ∧ y.stack = x :: r ∧ x.lanes &&& ~~~y.exited ≠ 0) →
      ∃ t, exec .rtt s = .next t ∧ SliceResult s t e fun _ y => match y.stack with
        | x :: r =>
          let z := { y with run := x.lanes &&& ~~~y.exited, pc := x.pc, mode := x.mode, im := x.im, stack := r }
          if x.lanes &&& ~~~y.exited = 0 then unwind z r else z
        | [] => y) ∧
    (∀ k, lowestSuch e k (fun k => ¬ ∃ x r, (e.g.sl k).stack = x :: r ∧ x.kind = .trap) →
      exec .rtt s = .next (raise e k .illegalOp 0))

/-- HALT with an active lane raises HALT_REQUEST with its code in INFO, and goes on at pc + 4 with none; BRK under BRK_STOP
retires and raises a debug stop (R79, R88). A slice whose element type an instruction does not accept raises ILLEGAL_OP before any
effect (R54, R73); shown for IADD. FADD whose conditions FPX_EN enables takes FP_EXCEPTION after its results are written, and NOP
under DBG_CTL.STEP takes SINGLE_STEP, in each slice with an active lane and no TRAP entry on its stack (R78, R80). -/
def Obligations.FaultsAndTraps : Prop :=
  (∀ (s : State) (e : Iss) (c d a b : Byte), issOf s = some e →
    (∀ k code info, k ∈ e.sls → Faulted s (raise e k code info) e k code info) ∧
    (∀ k, lowestSuch e k (fun k => e.act k ≠ 0) → exec (.halt c) s = .next (raise e k .haltRequest (c.zeroExtend 64))) ∧
    (Quiet e → someRuns e → (∀ k ∈ e.sls, e.act k = 0) →
      ∃ t, exec (.halt c) s = .next t ∧ SliceResult s t e fun _ x => { x with pc := x.pc + 4 }) ∧
    (∀ k, (∀ j ∈ e.sls, setInt (e.ty j) = true → (dstOk e.n (e.ty j) d && srcOk e.n (e.ty j) a &&
        srcOk e.n (e.ty j) b) = true) → lowestSuch e k (fun k => setInt (e.ty k) = false) →
      exec (.iadd d a b) s = .next (raise e k .illegalOp 0)) ∧
    (∀ k x, (dbgCtl s e.g e.kern.part).getLsbD 0 = true → Quiet e → e.g.slices[k]? = some x → x.run ≠ 0 →
      lowestSuch e k (fun k => e.act k ≠ 0) →
      ∃ t g r, exec (.brk c) s = .next t ∧ Retired t e g ∧ t.ctl.faults = s.ctl.faults ++ [r] ∧
        r.code = some .debugStop ∧ r.part = e.kern.part ∧ r.ctx = e.kern.ctx ∧ t.mem = s.mem)) ∧
  (∀ (s : State) (e : Iss) (d a b : Byte) (k : Nat) (x : Slice), issOf s = some e → RoomForTraps e → k ∈ e.sls →
    e.g.slices[k]? = some x → x.stack.length < 64 → mayTrap e k →
    (e.g.fpxEn = 0 → (dbgCtl s e.g e.kern.part).getLsbD 1 = true →
      ∃ t g, exec .nop s = .next t ∧ Retired t e g ∧ OnlyGang s t e.gi ∧ SameFile e.g g ∧ g.slices[k]? = some
        (countRetired e k (fun x => trapped e.g 0x23 (e.act k) (x.pc + 4) e.pc x) x)) ∧
    (Fits e setFp [d] [a, b] [] → noRst e →
      ∃ t v c g, exec (.fadd d a b) s = .next t ∧ Result s t e e.active d e.wide v c ∧
        (perElement e v c fun l i => finishF (tyFmt (e.lty l)) (mRound (e.lmode l)) (mSat (e.lmode l))
          (addF (mRound (e.lmode l)) (numOf e a l i) (numOf e b l i))) ∧
        t.exe.gangs[e.gi]? = some g ∧ ∀ cs : Conds, cs = sliceConds k e.active c →
          cs.zeroExtend 32 &&& e.g.fpxEn ≠ 0 → g.slices[k]? = some (countRetired e k (fun x =>
            trapped e.g (0x22 + 2 ^ 16 * (cs.zeroExtend 32 &&& e.g.fpxEn).toNat) (e.act k) (x.pc + 4) e.pc
              { x with fpx := fpxOr x.fpx cs }) x)))

/-! ## Counters, coordinates and control registers (R80, R81, R106) -/

/-- CTR writes a counter to a pair (R81), GETC a coordinate of the gang (R106) and CSRR a control register (R80) in every active
lane; the policy registers read as zero while they are shut. CSRW writes a control register from register d of a slice's lowest
active lane, the slices in ascending order, so that the highest slice's value stands: TRAP_BASE without its bits [63:56] and
[7:0], FPX_EN, DBG_CTL while debug is open, PERF_SEL and PERF_CNT while profiling is open; FPX_FLAGS loses the bits written as 1.
A write to a register that is read-only, or shut by policy, changes nothing (R80). A value with a reserved bit raises ILLEGAL_OP;
shown for FPX_EN. -/
def Obligations.ControlRegisters : Prop :=
  (∀ (s : State) (e : Iss) (d : Byte), issOf s = some e → RoomForTraps e →
    (pairOk e.n d = true → ∀ p ∈ ([(0, fun _ => if e.g.gear.getLsbD 0 then e.g.issues else s.sys.cycle),
        (1, fun k => (e.g.sl k).retired), (2, fun _ => s.sys.ptp)] : List (BitVec 2 × (Nat → Nat))),
      ∃ t, exec (.ctr d p.1) s = .next t ∧
        Result s t e e.active d (fun _ => true) (fun l => p.2 (l / 4)) noConds) ∧
    (declOk e.n d = true → ∀ p ∈ ([(0, e.grp.lid % e.kern.pkt.gx), (1, e.grp.lid / e.kern.pkt.gx % e.kern.pkt.gy),
        (2, e.grp.lid / e.kern.pkt.gx / e.kern.pkt.gy), (3, e.grp.lid), (4, e.g.idx), (6, e.kern.pkt.stages.sum),
        (7, e.kern.pkt.gx), (8, e.kern.pkt.gy), (9, e.kern.pkt.gz), (10, e.kern.ord % 2 ^ 32),
        (11, e.kern.ord / 2 ^ 32), (12, e.grp.core / 24 * 32 + e.grp.core % 24)] : List (BitVec 4 × Nat)),
      ∃ t, exec (.getc d p.1) s = .next t ∧
        Result s t e e.active d (fun _ => false) (fun _ => p.2) noConds) ∧
    (declOk e.n d = true → ∀ st, st < 4 → e.kern.pkt.stages.length = 4 →
      (e.kern.pkt.stages.take st).sum ≤ e.g.idx → e.g.idx < (e.kern.pkt.stages.take (st + 1)).sum →
      ∀ p ∈ ([(5, st), (13, (e.kern.pkt.stages[st]?).getD 0), (14, e.g.idx - (e.kern.pkt.stages.take st).sum)] :
        List (BitVec 4 × Nat)), ∃ t, exec (.getc d p.1) s = .next t ∧
          Result s t e e.active d (fun _ => false) (fun _ => p.2) noConds) ∧
    (declOk e.n d = true → ∀ p ∈ ([(0x000, fun _ => e.ctx.cid), (0x001, fun _ => e.ctx.part),
        (0x002, fun _ => e.g.gear.toNat), (0x011, fun k => (e.g.sl k).trapCause.toNat),
        (0x020, fun _ => e.g.fpxEn.toNat), (0x021, fun k => (e.g.sl k).fpx.toNat),
        (0x040, fun _ => e.ctx.desc.pbufQuota), (0x041, fun _ => e.ctx.desc.lockQuota),
        (0x042, fun _ => e.ctx.lockUsed),
        (0x050, fun _ => if facilOpen s.ctl.parts e.kern.part 0 then e.g.dbgCtl.toNat else 0)] :
        List (BitVec 12 × (Nat → Nat))),
      ∃ t, exec (.csrr d p.1) s = .next t ∧
        Result s t e e.active d (fun _ => false) (fun l => p.2 (l / 4)) noConds) ∧
    (pairOk e.n d = true → ∀ p ∈ ([(0x010, fun _ => e.g.trapBase.toNat),
        (0x012, fun k => (e.g.sl k).trapInfo.toNat), (0x030, fun _ => e.ctx.desc.seed.toNat)] :
        List (BitVec 12 × (Nat → Nat))),
      ∃ t, exec (.csrr d p.1) s = .next t ∧
        Result s t e e.active d (fun _ => true) (fun l => p.2 (l / 4)) noConds) ∧
    (∀ i < 4, ∀ sel cnt : BitVec 12, sel.toNat = 0x060 + i → cnt.toNat = 0x068 + i →
      ∀ v : Nat → Nat, (v = fun n => if facilOpen s.ctl.parts e.kern.part 1 then (perfGet e.ctx e.core n).toNat
          else 0) →
      (declOk e.n d = true → ∃ t, exec (.csrr d sel) s = .next t ∧
        Result s t e e.active d (fun _ => false) (fun _ => v i) noConds) ∧
      (pairOk e.n d = true → ∃ t, exec (.csrr d cnt) s = .next t ∧
        Result s t e e.active d (fun _ => true) (fun _ => v (i + 4)) noConds))) ∧
  (∀ (s : State) (e : Iss) (d : Byte), issOf s = some e →
    (∀ n : BitVec 12, RoomForTraps e → (WellFormed.csrWide n.toNat).isSome = true →
      (if WellFormed.csrWide n.toNat = some true then wideOk e.n d else declOk e.n d) = true →
      (∀ k ∈ e.sls, ∀ v, csrwSource e d n.toNat k = some v → csrwValueOk e n.toNat v = true) →
      ∃ t g, exec (.csrw d n) s = .next t ∧ Retired t e g ∧ OnlyGang s t e.gi ∧ Advanced e g ∧
        g.regs = e.g.regs ∧ g.preds = e.g.preds ∧ g.sregs = e.g.sregs ∧ g.gear = e.g.gear ∧
        g.axCount = e.g.axCount ∧ g.opens = e.g.opens ∧
        g.trapBase = (match lastSource e d 0x010 with
          | some v => if n = 0x010 then BitVec.ofNat 64 (v % 2 ^ 56 / 256 * 256) else e.g.trapBase
          | none => e.g.trapBase) ∧
        g.fpxEn = (match lastSource e d 0x020 with
          | some v => if n = 0x020 then BitVec.ofNat 32 v else e.g.fpxEn
          | none => e.g.fpxEn) ∧
        g.dbgCtl = (match lastSource e d 0x050 with
          | some v => if n = 0x050 ∧ facilOpen s.ctl.parts e.kern.part 0 = true then BitVec.ofNat 32 v else e.g.dbgCtl
          | none => e.g.dbgCtl) ∧
        (∀ k x, e.g.slices[k]? = some x → (g.sl k).fpx = match csrwSource e d 0x021 k with
          | some v => if n = 0x021 ∧ k ∈ e.sls then x.fpx &&& ~~~(BitVec.ofNat 32 v) else x.fpx
          | none => x.fpx) ∧
        (∀ i v, lastSource e d n.toNat = some v → (n.toNat = 0x060 + i ∧ i < 4 ∨ n.toNat = 0x064 + i ∧ 4 ≤ i ∧ i < 8) →
          facilOpen s.ctl.parts e.kern.part 1 = true →
          ∃ c, findCtx t.ctl.ctxs e.kern.part e.kern.ctx = some c ∧ perfGet c e.core i = BitVec.ofNat 64 v +
            (if 4 ≤ i ∧ (perfGet e.ctx e.core (i - 4)).toNat = 2 then 1 else 0))) ∧
    (declOk e.n d = true → ∀ k, lowestSuch e k (fun k => ∃ v, csrwSource e d 0x020 k = some v ∧ 32 ≤ v) →
      exec (.csrw d 0x020) s = .next (raise e k .illegalOp 0)))

/-! ## Memory operations at issue (R51, R158, R197 to R206, R218 to R224) -/

/-- An access of `n` bytes at `ea` is cut at cell boundaries: its parts follow one another from `ea`, each within one 32-byte cell
and translated on its own, and a store's bytes go with them in order (R192, R198). -/
def Obligations.AccessesAreCutAtCells : Prop :=
  ∀ (s : State) (at_ : Nat) (c : Ctx) (l ea n need : Nat) (data : List Byte) (ps : List (MemPart × Nat)),
    n ≤ 32 → laneParts s at_ c l ea n need data = .ok ps →
    (∀ p ∈ ps, p.1.lane = l ∧ 0 < p.1.len ∧ p.1.va = BitVec.ofNat 64 (ea + p.1.off) ∧
      (ea + p.1.off) % 32 + p.1.len ≤ 32 ∧ p.1.wdata = (data.drop p.1.off).take p.1.len ∧ p.1.got = none ∧
      ∃ x, xlate s at_ c (ea + p.1.off) need = .ok x ∧ p.1.pa = x.pa ∧ p.1.leaf = x.leaf) ∧
    (∀ i < n, ∃ p ∈ ps, p.1.off ≤ i ∧ i < p.1.off + p.1.len) ∧ (ps.map fun p => p.1.len).sum = n

/-- LD, LD2 and LD4 issue a load for each slice, of k elements of its type from each active lane's effective address, and ST, ST2
and ST4 a store; the class's counter rises. While a counter stands at 63 the cohort stalls, and where an access fails the lowest
failing lane's fault is raised with its address, before any effect (R51, R196 to R199). -/
def Obligations.LoadsAndStoresIssue : Prop :=
  ∀ (s : State) (e : Iss) (d a b : Byte), issOf s = some e →
    (∀ p ∈ [(1, Instr.ld d a b), (2, .ld2 d a b), (4, .ld4 d a b)],
      (∀ j ∈ e.sls, (decide (e.ty j ≤ 13) && loadOrder (e.mode j) && baseOk e.n a && declOk e.n b
        && loadRunOk e.n d (runLen p.1 (e.ty j))) = true) →
      ∀ f, (f = fun l => laneParts s (coreAt e.core) e.ctx l (blockEa e.g l a b) (4 * runLen p.1 (e.lty l)) needR []) →
        (RoomForTraps e → (∀ j ∈ e.sls, (e.g.sl j).cL < 63) → Reaches e f →
          ∃ t ops, exec p.2 s = .next t ∧ Issued s t e (fun _ => .l) ops ∧
            OpsOf s e (fun _ => .load) (fun _ => .l) ops ∧ ∀ o ∈ ops, o.order = mOrder (e.mode o.slice) ∧
              o.dst = d.toNat ∧ o.nreg = runLen p.1 (e.ty o.slice) ∧ plainParts o = sliceParts e f o.slice) ∧
        ((∃ j ∈ e.sls, 63 ≤ (e.g.sl j).cL) → exec p.2 s = .next (idle s)) ∧
        (∀ l c, (∀ j ∈ e.sls, (e.g.sl j).cL < 63) → firstFailing e (fun l => excFault (f l)) l c →
          exec p.2 s = .next (raise e (l / 4) c (BitVec.ofNat 64 (blockEa e.g l a b))))) ∧
    (∀ p ∈ [(1, Instr.st d a b), (2, .st2 d a b), (4, .st4 d a b)],
      (∀ j ∈ e.sls, (decide (e.ty j ≤ 13) && storeOrder (e.mode j) && baseOk e.n a && declOk e.n b
        && storeRunOk e.n (e.ty j) d (runLen p.1 (e.ty j)) (p.1 == 1)) = true) →
      ∀ f, (f = fun l => laneParts s (coreAt e.core) e.ctx l (blockEa e.g l a b) (4 * runLen p.1 (e.lty l)) needW
          (storeBytes e.g (e.lty l) l d (runLen p.1 (e.lty l)) (p.1 == 1))) →
        (RoomForTraps e → (∀ j ∈ e.sls, (e.g.sl j).cS < 63) → Reaches e f →
          (∀ l ∈ e.active, headerFault s (excGet [] (f l)) = none) →
          ∃ t ops, exec p.2 s = .next t ∧ Issued s t e (fun _ => .s) ops ∧
            OpsOf s e (fun _ => .store) (fun _ => .s) ops ∧ ∀ o ∈ ops, o.order = mOrder (e.mode o.slice) ∧
              o.parts = sliceParts e f o.slice) ∧
        ((∃ j ∈ e.sls, 63 ≤ (e.g.sl j).cS) → exec p.2 s = .next (idle s)) ∧
        (∀ l c, (∀ j ∈ e.sls, (e.g.sl j).cS < 63) → firstFailing e (fun l => storeFault s (f l)) l c →
          exec p.2 s = .next (raise e (l / 4) c (BitVec.ofNat 64 (blockEa e.g l a b)))))

/-- LDL, LDL4, STL and STL4 issue accesses of the group's window at each active lane's offset, and ATLADD and ATLCAS atomics on
it, of class L where they return a value and S where their destination is R0 (R200, R224). An offset outside the window or
misaligned raises LM_RANGE at the lowest lane that has one (R183). The ten atomics issue a read-modify-write for each slice, of
one 32-bit or 64-bit operand at each active lane's address, of class L where they return the old value and S where the destination
is R0 (R220, R221); EVADD issues an add of 64 bits as a release (R101), and ENQ and DEQ a queue operation of class L (R94). PSTORE
issues a store that carries the destination device (R340). -/
def Obligations.WindowAndAtomicIssue : Prop :=
  (∀ (s : State) (e : Iss) (d a b : Byte), issOf s = some e → RoomForTraps e →
    (∀ p ∈ [(1, Instr.ldl d a b), (4, .ldl4 d a b)],
      (∀ j ∈ e.sls, (decide (e.ty j ≤ 13) && loadOrder (e.mode j) && (p.1 == 1 || !tyWide (e.ty j))
        && declOk e.n a && declOk e.n b && loadRunOk e.n d (runLen p.1 (e.ty j))) = true) →
      (∀ j ∈ e.sls, (e.g.sl j).cL < 63) →
      ((∀ l ∈ e.active, lmOk e.kern.pkt.lmem (lmOffset e.g l a b) (4 * runLen p.1 (e.lty l)) = true) →
        ∃ t ops, exec p.2 s = .next t ∧ Issued s t e (fun _ => .l) ops ∧
          OpsOf s e (fun _ => .ldl) (fun _ => .l) ops ∧ ∀ o ∈ ops, o.order = mOrder (e.mode o.slice) ∧
            o.dst = d.toNat ∧ o.nreg = runLen p.1 (e.ty o.slice) ∧
            o.parts = (e.active.filter fun l => l / 4 == o.slice).map fun l =>
              lmPart l (lmOffset e.g l a b) (4 * runLen p.1 (e.ty o.slice)) []) ∧
      (∀ l c, firstFailing e (fun l => lmFault e.kern.pkt.lmem (lmOffset e.g l a b) (4 * runLen p.1 (e.lty l))) l c →
        c = .lmRange ∧ exec p.2 s = .next (raise e (l / 4) .lmRange (BitVec.ofNat 64 (lmOffset e.g l a b))))) ∧
    (∀ p ∈ [(1, Instr.stl d a b), (4, .stl4 d a b)],
      (∀ j ∈ e.sls, (decide (e.ty j ≤ 13) && storeOrder (e.mode j) && (p.1 == 1 || !tyWide (e.ty j))
        && declOk e.n a && declOk e.n b && storeRunOk e.n (e.ty j) d (runLen p.1 (e.ty j)) (p.1 == 1)) = true) →
      (∀ j ∈ e.sls, (e.g.sl j).cS < 63) →
      ((∀ l ∈ e.active, lmOk e.kern.pkt.lmem (lmOffset e.g l a b) (4 * runLen p.1 (e.lty l)) = true) →
        ∃ t ops, exec p.2 s = .next t ∧ Issued s t e (fun _ => .s) ops ∧
          OpsOf s e (fun _ => .stl) (fun _ => .s) ops ∧ ∀ o ∈ ops, o.order = mOrder (e.mode o.slice) ∧
            o.parts = (e.active.filter fun l => l / 4 == o.slice).map fun l =>
              lmPart l (lmOffset e.g l a b) (4 * runLen p.1 (e.ty o.slice))
                (storeBytes e.g (e.ty o.slice) l d (runLen p.1 (e.ty o.slice)) (p.1 == 1))) ∧
      (∀ l c, firstFailing e (fun l => lmFault e.kern.pkt.lmem (lmOffset e.g l a b) (4 * runLen p.1 (e.lty l))) l c →
        c = .lmRange ∧ exec p.2 s = .next (raise e (l / 4) .lmRange (BitVec.ofNat 64 (lmOffset e.g l a b))))) ∧
    (∀ p ∈ ([(.atladd d a b, false, fun t => decide (t ≤ 1)), (.atlcas d a b, true, fun t => decide (t ≤ 1) || t == 4)] :
        List (Instr × Bool × (Nat → Bool))),
      ∀ cl, (cl = if d = 0 then Cls.s else .l) →
      (∀ j ∈ e.sls, (p.2.2 (e.ty j) && declOk e.n d && declOk e.n a && declOk e.n b) = true) →
      (∀ j ∈ e.sls, clsCount (e.g.sl j) cl < 63) →
      (∀ l ∈ e.active, lmOk e.kern.pkt.lmem (rd e.g l a) 4 = true) →
      ∃ t ops, exec p.1 s = .next t ∧ Issued s t e (fun _ => cl) ops ∧
        OpsOf s e (fun _ => .atl p.2.1 (d != 0)) (fun _ => cl) ops ∧ ∀ o ∈ ops, o.order = mOrder (e.mode o.slice) ∧
          o.dst = d.toNat ∧ o.nreg = 1 ∧ o.parts = (e.active.filter fun l => l / 4 == o.slice).map fun l =>
            { lmPart l (rd e.g l a) 4 (natLe (rd e.g l b) 4) with cmp := BitVec.ofNat 64 (rd e.g l d) })) ∧
  (∀ (s : State) (e : Iss) (d a b : Byte), issOf s = some e → RoomForTraps e →
    (∀ p ∈ [(Instr.atadd d a b, AtOp.add, tyI), (.atand d a b, .and, tyI), (.ator d a b, .or, tyI),
        (.atxor d a b, .xor, tyI), (.atmin d a b, .min, tyI), (.atmax d a b, .max, tyI),
        (.atxchg d a b, .xchg, tyIF), (.atcas d a b, .cas, tyIF), (.atfmax d a b, .fmax, tyF),
        (.atfmin d a b, .fmin, tyF)],
      ∀ cl f, (cl = if d = 0 then Cls.s else .l) →
      (f = fun l => rmwPart s (coreAt e.core) e.ctx l (rdPair e.g l a) (if tyWide (e.lty l) then 8 else 4) p.2.1
        (e.val b l) (e.val d l)) →
      (∀ j ∈ e.sls, (p.2.2 (e.ty j) && pairOk e.n a && srcOk e.n (e.ty j) b && (d == 0 || dstOk e.n (e.ty j) d)) = true) →
      (∀ j ∈ e.sls, clsCount (e.g.sl j) cl < 63) →
      (Reaches e f → ∃ t ops, exec p.1 s = .next t ∧ Issued s t e (fun _ => cl) ops ∧
        OpsOf s e (fun k => .rmw p.2.1 (tySigned (e.ty k)) (d != 0)) (fun _ => cl) ops ∧
        ∀ o ∈ ops, o.order = mOrder (e.mode o.slice) ∧ o.dst = d.toNat ∧
          o.nreg = (if tyWide (e.ty o.slice) then 2 else 1) ∧ o.parts = sliceParts e f o.slice) ∧
      (∀ l c, firstFailing e (fun l => excFault (f l)) l c →
        exec p.1 s = .next (raise e (l / 4) c (BitVec.ofNat 64 (rdPair e.g l a))))) ∧
    (∀ f, (f = fun l => rmwPart s (coreAt e.core) e.ctx l (rdPair e.g l a) 8 .add (rd64 e.g l b false) 0) →
      pairOk e.n a = true → wideOk e.n b = true → (∀ j ∈ e.sls, (e.g.sl j).cS < 63) → Reaches e f →
      ∃ t ops, exec (.evadd a b) s = .next t ∧ Issued s t e (fun _ => .s) ops ∧
        OpsOf s e (fun _ => .rmw .add false false) (fun _ => .s) ops ∧
        ∀ o ∈ ops, o.order = 2 ∧ o.parts = sliceParts e f o.slice) ∧
    (∀ p ∈ [(Instr.enq d a b, true, OpKind.enq 0), (.deq d a b, false, .deq 0)],
      ∀ f, (f = fun l => queuePart s e l a b p.2.1) → pairOk e.n d = true → pairOk e.n a = true → declOk e.n b = true →
      (∀ j ∈ e.sls, (e.g.sl j).cL < 63) → (p.2.1 = true → ownLocalPending e = false) → Reaches e f →
      ∃ t ops, exec p.1 s = .next t ∧ Issued s t e (fun _ => .l) ops ∧ OpsOf s e (fun _ => p.2.2) (fun _ => .l) ops ∧
        ∀ o ∈ ops, o.order = mOrder (e.mode o.slice) ∧ o.dst = d.toNat ∧ o.nreg = 2 ∧
          o.parts = sliceParts e f o.slice) ∧
    (∀ f, (f = fun l => pstorePart s (coreAt e.core) e.ctx l (rdPair e.g l a) (rd e.g l b)
        (if tyWide (e.lty l) then 8 else 4) (natLe (e.val d l) (if tyWide (e.lty l) then 8 else 4))) →
      (∀ j ∈ e.sls, (decide (e.ty j ≤ 13) && storeOrder (e.mode j) && srcOk e.n (e.ty j) d && pairOk e.n a
        && declOk e.n b) = true) → (∀ j ∈ e.sls, (e.g.sl j).cS < 63) →
      (Reaches e f → ∃ t ops, exec (.pstore d a b) s = .next t ∧ Issued s t e (fun _ => .s) ops ∧
        OpsOf s e (fun _ => .pstore) (fun _ => .s) ops ∧
        ∀ o ∈ ops, o.order = mOrder (e.mode o.slice) ∧ o.parts = sliceParts e f o.slice) ∧
      (∀ l c, firstFailing e (fun l => excFault (f l)) l c →
        exec (.pstore d a b) s = .next (raise e (l / 4) c (BitVec.ofNat 64 (rdPair e.g l a))))))

/-- FENCE goes on once what its order and scope wait for is done, and stalls until then; EVWAIT stalls until the event of every
active lane has reached its value and may be read, and then acquires. An acquire at CORE or wider leaves no block in the core's L1.
PREF changes no register and no byte of memory that no other copy holds modified, and nothing at all of the memory system where
every lane's page is a bypass page, a peer's or one that does not translate; INVR drops the core's L1 blocks that touch its range and
no other core's (R101, R203, R204, R218, R219). FLUSH, LOCKB, UNLOCKB, SLD and SST issue one operation for each slice, SLD's counted
in no counter: FLUSH, SLD and SST are one access of the cohort, with the operands of its lowest active lane, which every slice has
in its program order; LOCKB and UNLOCKB act in each active lane (R158, R201, R205, R206, R208). -/
def Obligations.FencesBlocksAndUniform : Prop :=
  (∀ (s : State) (e : Iss) (a b : Byte), issOf s = some e → RoomForTraps e →
    ((∀ k ∈ e.sls, mOrder (e.mode k) ≠ 0) →
      (e.sls.all (fenceReady e) = true → ∃ t, exec .fence s = .next t ∧ Issued s t e (fun _ => .none) [] ∧
        (acquires e (fun k => mOrder (e.mode k)) → ∀ x ∈ t.mem.l1, x.core ≠ e.core)) ∧
      (e.sls.all (fenceReady e) = false → exec .fence s = .next (idle s))) ∧
    (∀ k, lowestSuch e k (fun k => mOrder (e.mode k) = 0) → exec .fence s = .next (raise e k .illegalOp 0)) ∧
    (∀ x : Nat → Xl, pairOk e.n a = true → wideOk e.n b = true →
      (∀ l ∈ e.active, rdPair e.g l a % 8 = 0 ∧ xlate s (coreAt e.core) e.ctx (rdPair e.g l a) needR = .ok (x l)) →
      ((∀ l ∈ e.active, evReady e l (x l).pa = true ∧ rd64 e.g l b false ≤ eventValue s (x l).pa) →
        ∃ t, exec (.evwait a b) s = .next t ∧ Issued s t e (fun _ => .none) [] ∧
          ((∃ k ∈ e.sls, e.act k ≠ 0 ∧ scGroup < mScope (e.mode k)) → ∀ x ∈ t.mem.l1, x.core ≠ e.core)) ∧
      ((∃ l ∈ e.active, evReady e l (x l).pa = false ∨ eventValue s (x l).pa < rd64 e.g l b false) → exec (.evwait a b) s = .next (idle s))) ∧
    (∀ l : BitVec 2, l.toNat ≤ 2 → baseOk e.n a = true → declOk e.n b = true →
      ∃ t, exec (.pref l a b) s = .next t ∧ Passed { s with mem := t.mem } t e ∧ t.mem.ops = s.mem.ops ∧
        (∀ off < devTop, HomeAlone s.mem off → homeByte t off = homeByte s off) ∧
        ((∀ j ∈ e.active, ∀ x, xlate s (coreAt e.core) e.ctx (blockEa e.g j a b) 0 = .ok x →
          leafPolicy x.leaf = 3 ∨ paLocal (ownDev s.sys) x.pa = false) → t.mem = s.mem)) ∧
    (baseOk e.n a = true → declOk e.n b = true →
      ∃ t, exec (.invr a b) s = .next t ∧ Issued s t e (fun _ => .none) [] ∧
        (∀ x ∈ t.mem.l1, x ∈ s.mem.l1) ∧ (∀ x ∈ s.mem.l1, x.core ≠ e.core → x ∈ t.mem.l1) ∧
        ∀ l, e.active.head? = some l → ∀ q, rd64 e.g l a false / 2 ^ 16 = q →
          (rd64 e.g l a false + rd e.g l b - 1) / 2 ^ 16 = q → 0 < rd e.g l b →
          ∀ y, xlate s (coreAt e.core) e.ctx (rd64 e.g l a false) 0 = .ok y → ∀ x ∈ t.mem.l1,
            ¬ (x.core = e.core ∧ y.pa / 32 < x.frame * 16 + x.start + x.cells.length ∧
              x.frame * 16 + x.start ≤ (y.pa + rd e.g l b - 1) / 32))) ∧
  (∀ (s : State) (e : Iss) (d a b : Byte), issOf s = some e → RoomForTraps e →
    (baseOk e.n a = true → declOk e.n b = true → (∀ j ∈ e.sls, (e.g.sl j).cS < 63) →
      (∀ l, e.active.head? = some l →
        rangeFault s (coreAt e.core) e.ctx (rd64 e.g l a false) (rd e.g l b) needR = none) →
      ∃ t ops, exec (.flush a b) s = .next t ∧ Issued s t e (fun _ => .s) ops ∧
        OpsOf s e (fun _ => .flush) (fun _ => .s) ops ∧ ∀ o ∈ ops, o.parts = (e.active.take 1).map fun l =>
          { lane := l, va := BitVec.ofNat 64 (rd64 e.g l a false), pa := 0, len := rd e.g l b,
            aux := if l / 4 = o.slice then 1 else 0 }) ∧
    (∀ p ∈ ([(.lockb d a b, OpKind.lockb, Cls.l, needRW, d), (.unlockb a b, .unlockb, .s, 0, 0)] :
        List (Instr × OpKind × Cls × Nat × Byte)),
      declOk e.n p.2.2.2.2 = true → baseOk e.n a = true → declOk e.n b = true →
      (∀ j ∈ e.sls, clsCount (e.g.sl j) p.2.2.1 < 63) →
      (∀ l ∈ e.active, rd e.g l b ≠ 0 ∧ rd e.g l b ≤ 512 ∧
        rd64 e.g l a false / 512 = (rd64 e.g l a false + rd e.g l b - 1) / 512 ∧
        ∃ x, xlate s (coreAt e.core) e.ctx (rd64 e.g l a false) p.2.2.2.1 = .ok x) →
      ∃ t ops, exec p.1 s = .next t ∧ Issued s t e (fun _ => p.2.2.1) ops ∧
        OpsOf s e (fun _ => p.2.1) (fun _ => p.2.2.1) ops ∧ ∀ o ∈ ops, o.dst = p.2.2.2.2.toNat ∧ o.nreg = 1 ∧
          o.parts = (e.active.filter fun l => l / 4 == o.slice).map fun l =>
            let x := excGet ⟨0, 0⟩ (xlate s (coreAt e.core) e.ctx (rd64 e.g l a false) p.2.2.2.1)
            { lane := l, va := BitVec.ofNat 64 (rd64 e.g l a false), pa := x.pa, len := rd e.g l b, leaf := x.leaf }) ∧
    (∀ l ps, e.active.head? = some l → declOk e.n b = true → sldPending e = false →
      ((∀ j ∈ e.sls, loadOrder (e.mode j) = true) →
        laneParts s (coreAt e.core) e.ctx l (uniEa e a b) 4 needR [] = .ok ps →
        ∃ t ops, exec (.sld d a b) s = .next t ∧ Issued s t e (fun _ => .none) ops ∧
          OpsOf s e (fun _ => .sload) (fun _ => .none) ops ∧ ∀ o ∈ ops, o.joint = true ∧ o.dst = d.toNat ∧
            o.order = mOrder (e.mode o.slice) ∧ plainParts o = ps.map Prod.fst) ∧
      ((∀ j ∈ e.sls, storeOrder (e.mode j) = true ∧ (e.g.sl j).cS < 63) →
        laneParts s (coreAt e.core) e.ctx l (uniEa e a b) 4 needW (natLe (if d.toNat < 64 then (smGet e.g.sregs d.toNat).toNat
          else rd e.g l d) 4) = .ok ps →
        headerFault s ps = none →
        ∃ t ops, exec (.sst d a b) s = .next t ∧ Issued s t e (fun _ => .s) ops ∧
          OpsOf s e (fun _ => .store) (fun _ => .s) ops ∧ ∀ o ∈ ops, o.joint = true ∧
            o.order = mOrder (e.mode o.slice) ∧ o.parts = ps.map Prod.fst)) ∧
    (sldPending e = true → declOk e.n b = true → (∀ j ∈ e.sls, loadOrder (e.mode j) = true) →
      exec (.sld d a b) s = .next (idle s)))

/-! ## Barriers (R238 to R249) -/

/-- The transaction barrier in the window of the cohort's group, at the offset in register a of its lowest active lane: BINIT
writes it; BARR arrives and returns the phase it arrived in; BEXP adds to the cells owed; BWAIT stalls until the phase named by b
has completed, and BTEST tests it (R239 to R241, R244 to R247). An offset that does not fit raises LM_RANGE, and what R239 names
raises BARRIER_MISUSE with the offset. Numbered barrier k of the cohort's group holds x: NBARR ARRIVE makes one arrival, the last
of a phase advances it modulo 16 and reloads; NBARR SET writes the reload, and the arrivals owed where none has been made in the
phase; both return the phase. NBWAIT stalls until the phase named by a has completed (R241, R248, R249). -/
def Obligations.Barriers : Prop :=
  (∀ (s : State) (e : Iss) (d a b : Byte) (kind : BitVec 2) (p : BitVec 3) (l ofs : Nat), issOf s = some e → RoomForTraps e →
    windowDone e → declOk e.n a = true → declOk e.n b = true → e.active.head? = some l → ofs = rd e.g l a →
    (barrierFits e ofs →
      (∀ r, r = rd e.g l b → 0 < r → r ≤ 65535 → ∃ t w, exec (.binit a b) s = .next t ∧ Passed (windowed s e w) t e ∧
        BarrierSet e.grp.window w ofs 0 r 0 r) ∧
      ((rd e.g l b = 0 ∨ 65535 < rd e.g l b) →
        exec (.binit a b) s = .next (raise e (l / 4) .barrierMisuse (BitVec.ofNat 64 ofs))) ∧
      ∀ cells pend phase reload, BarrierIn e.grp.window ofs cells pend phase reload → 0 < reload →
        (∀ n, arrivals e kind n → declOk e.n d = true → releaseDone e →
          (n ≤ pend → ∃ t w, exec (.barr d a kind) s = .next t ∧
            Result (windowed s e w) t e e.active d (fun _ => false) (fun _ => phase) noConds ∧
            BarrierUpdated e.grp.window w ofs cells (pend - n) phase reload) ∧
          (pend < n → exec (.barr d a kind) s = .next (raise e (l / 4) .barrierMisuse (BitVec.ofNat 64 ofs)))) ∧
        (∀ z : Int, z = cells + signed (rd e.g l b) 32 →
          (-2 ^ 31 ≤ z ∧ z < 2 ^ 31 → ∃ t w, exec (.bexp a b) s = .next t ∧ Passed (windowed s e w) t e ∧
            BarrierUpdated e.grp.window w ofs z pend phase reload) ∧
          (z < -2 ^ 31 ∨ 2 ^ 31 ≤ z →
            exec (.bexp a b) s = .next (raise e (l / 4) .barrierMisuse (BitVec.ofNat 64 ofs)))) ∧
        (∀ q, q = (rd e.g l b % 16 + 16 - phase) % 16 →
          (8 ≤ q → (∃ t, exec (.bwait a b) s = .next t ∧ Passed s t e) ∧
            ∃ t, exec (.btest p a b) s = .next t ∧ PredResult s t e p.toNat (fun _ => true) noConds) ∧
          (q ≤ 1 → exec (.bwait a b) s = .next (idle s) ∧
            ∃ t, exec (.btest p a b) s = .next t ∧ PredResult s t e p.toNat (fun _ => false) noConds) ∧
          (2 ≤ q → q ≤ 7 → ∀ i ∈ [Instr.bwait a b, .btest p a b],
            exec i s = .next (raise e (l / 4) .barrierMisuse (BitVec.ofNat 64 ofs))))) ∧
    (¬ barrierFits e ofs → declOk e.n d = true → kind.toNat ≤ 2 → releaseDone e →
      ∀ i ∈ [Instr.binit a b, .barr d a kind, .bexp a b, .bwait a b, .btest p a b],
        exec i s = .next (raise e (l / 4) .lmRange (BitVec.ofNat 64 ofs)))) ∧
  (∀ (s : State) (e : Iss) (d a : Byte) (k : BitVec 4) (x : NumBar) (l : Nat), issOf s = some e → RoomForTraps e →
    declOk e.n a = true → e.active.head? = some l → e.grp.nbs[k.toNat]? = some x →
    (declOk e.n d = true → releaseDone e → 0 < x.pend →
      ∃ t y, exec (.nbarr d 249 0 k) s = .next t ∧
        Result (numbered s e k.toNat y) t e e.active d (fun _ => false) (fun _ => x.phase) noConds ∧ y.reload = x.reload ∧
        (if x.pend = 1 then y.phase = (x.phase + 1) % 16 ∧ y.pend = x.reload ∧ y.arrived = false
         else y.phase = x.phase ∧ y.pend = x.pend - 1 ∧ y.arrived = true)) ∧
    (declOk e.n d = true → ∀ r, r = rd e.g l a →
      (0 < r → r ≤ 255 → ∃ t y, exec (.nbarr d a 1 k) s = .next t ∧
        Result (numbered s e k.toNat y) t e e.active d (fun _ => false) (fun _ => x.phase) noConds ∧ y.reload = r ∧
        y.phase = x.phase ∧ y.arrived = x.arrived ∧ y.pend = if x.arrived then x.pend else r) ∧
      (r = 0 ∨ 255 < r → exec (.nbarr d a 1 k) s = .next (raise e (l / 4) .barrierMisuse 0))) ∧
    (∀ q, q = (rd e.g l a % 16 + 16 - x.phase) % 16 →
      (8 ≤ q → ∃ t, exec (.nbwait a k) s = .next t ∧ Passed s t e) ∧
      (q ≤ 1 → exec (.nbwait a k) s = .next (idle s)) ∧
      (2 ≤ q → q ≤ 7 → exec (.nbwait a k) s = .next (raise e (l / 4) .barrierMisuse 0))))

/-! ## Copies (R225, R250 to R257, R271, R272) -/

/-- COPY, COPYG and COPYC issue one copy for each active lane, which its descriptor gives, and pass on, C one higher in every slice
of the cohort: row r of a COPY starts at GADDR + r × stride, and of a COPYG at GADDR plus its index × stride, a skipped row being
none (R51, R250, R251, R256, R271). Where a lane's probe fails, no copy is made and the lowest such lane's failure goes to the hub
(R254). A cell of a copy into the window lands where every global cell that it needs can be had: its words are written from their
source, and no byte of memory changes that no other copy holds modified; then it counts into the copy's barrier, and the copy has one
cell fewer (R253, R255). A cell of a copy out of the window is written at its home at once, or sent to the peer that owns it, and no
block of the core's L1 keeps it; it counts when the write is acknowledged (R253, R255, R326). The next row of a COPYC goes out as one
partial for each column, from the window, and counts once (R272). COPY_ENTRY_ASSIGN accepts an issue, whose C counters fall, and then
gives a freed entry to the issue's next copy (R51, R250). -/
def Obligations.Copies : Prop :=
  (∀ (s : State) (e : Iss) (d a : Byte) (n : BitVec 1) (m : BitVec 2), issOf s = some e → RoomForTraps e →
    copiesFree e → 1 ≤ a.toNat → a.toNat ≤ 4 →
    (∀ p ∈ ([(.copy d a n 0, .g2l, copyLane e .g2l d a (n == 1), declOk e.n d),
        (.copy d a n 1, .l2g, copyLane e .l2g d a (n == 1), declOk e.n d),
        (.copy d a n 2, .l2l, copyLane e .l2l d a (n == 1), d == 249),
        (.copyg d a n, .gather, gatherLane e d a (n == 1), declOk e.n d),
        (.copyc d a n m, .contrib, tileLane e d a (n == 1) m.toNat, pairOk e.n d && decide (m.toNat ≤ 2))] :
          List (Instr × CopyKind × (Nat → Nat → Except (FaultCode × Nat) Copy) × Bool)), p.2.2.2 = true →
      ((∀ i l, e.active[i]? = some l → ∃ c, p.2.2.1 l (s.exe.nextId + 8 + i) = .ok c) →
        ∃ t ops cs, exec p.1 s = .next t ∧ Accepted s t e p.2.2.1 ops cs ∧
          ∀ (i l : Nat) (c : Copy), e.active[i]? = some l → cs[i]? = some c → CopyOf e a (n == 1) l i p.2.1 c) ∧
      (∀ i l c x, e.active[i]? = some l → p.2.2.1 l (s.exe.nextId + 8 + i) = .error (c, x) →
        (∀ j k, j < i → e.active[j]? = some k → ∃ y, p.2.2.1 k (s.exe.nextId + 8 + j) = .ok y) →
        ∃ t r ops fs, exec p.1 s = .next t ∧ Issued s t e (fun _ => .c) ops ∧ OpsOf s e (fun _ => .copyAck) (fun _ => .c) ops ∧
          t.ctl.faults = s.ctl.faults ++ r :: fs ∧ r.code = some c ∧ r.info = BitVec.ofNat 64 x ∧
          r.exact = true ∧ r.pc = e.pc.zeroExtend 64 ∧ r.part = e.kern.part ∧ r.ctx = e.kern.ctx ∧ r.kind = 2)) ∧
    (∀ kind l id c, copyLane e kind d a (n == 1) l id = .ok c → copyShape e a l c ∧
      (kind ≠ .l2l → ∀ r < c.rows, c.rowVa[r]? = some (some (BitVec.ofInt 64 ((c.gaddr.toNat : Int) + r *
        (if d = 249 then (c.len : Int) else signed (rd e.g l d) 32)))))) ∧
    (∀ l id c, gatherLane e d a (n == 1) l id = .ok c → copyShape e a l c ∧ ∀ r < c.rows,
      let word := fun (j : Nat) => leNat (smRun e.grp.window (rd e.g l d % 2 ^ 22 + 4 * j) 4)
      c.rowVa[r]? = some (if word (r + 1) = 0x80000000 then none
        else some (BitVec.ofInt 64 ((c.gaddr.toNat : Int) + signed (word (r + 1)) 32 * signed (word 0) 32)))) ∧
    (∀ l id c, tileLane e d a (n == 1) m.toNat l id = .ok c → c.lofs.toNat = descWord e a l 0 ∧
      c.e0 = descWord e a l 1 ∧ c.estride = descWord e a l 2 ∧ c.rows = descWord e a l 3 / 2 ^ 7 % 2 ^ 7 + 1 ∧
      c.cols = descWord e a l 3 % 2 ^ 7 + 1 ∧ c.fmt = m.toNat ∧ c.label.toNat = rdPair e.g l d % 2 ^ 32 ∧
      c.handle.toNat = rdPair e.g l d / 2 ^ 32)) ∧
  (∀ (s : State) (c : Copy) (cell r x : Nat) (g : Group), s.exe.copies.find? (fun y => y.id == c.id) = some c →
    s.exe.groups[c.grp]? = some g → copyGoes s c = true →
    (c.left[cell]? = some (r, x) → (c.kind = .g2l ∨ c.kind = .l2l ∨ c.kind = .gather) → nth (dstRows c) r 0 % 4 = 0 →
      (∀ v ∈ copySources c r x, (copyCell s c v).isSome = true) →
      ∃ w, (∀ i j, rowWordIn c r x i → j < 4 →
          (c.kind = .l2l → ∀ k, rowWordIn c r x k → winByte (nth (srcRows c) r 0) i + 4 ≤ winByte (nth (dstRows c) r 0) k ∨
            winByte (nth (dstRows c) r 0) k + 4 ≤ winByte (nth (srcRows c) r 0) i) →
          smGet w (winByte (nth (dstRows c) r 0) i + j) = copyByte s c g.window r i j) ∧
        (∀ o, (∀ i, rowWordIn c r x i → o < winByte (nth (dstRows c) r 0) i ∨ winByte (nth (dstRows c) r 0) i + 4 ≤ o) →
          smGet w o = smGet g.window o) ∧
        (countable c w → ∃ t w', exec (.copyCellLand c.id cell) s = .next t ∧ counted c w w' ∧ windowNow s t c w' ∧
          copyAfter s c cell t.exe.copies ∧ t.ctl = s.ctl ∧ t.sys = s.sys ∧ t.exe.gangs = s.exe.gangs ∧
          t.mem.ops = s.mem.ops ∧ t.mem.host = s.mem.host ∧
          ∀ off < devTop, HomeAlone s.mem off → homeByte t off = homeByte s off)) ∧
    (c.left[cell]? = some (r, x) → c.kind = .l2g → ∀ (va : Dbl) (p : MemPart) (bs : List Byte), nth c.rowVa r none = some va →
      p = outPart c x va → bs = outBytes c g.window r x va →
      ((r, x) ∉ c.sent → paLocal (ownDev s.sys) p.pa = true → homeUp s (paOff p.pa) = true → txnBusy s.mem (paOff p.pa) = false →
        paOff p.pa % 32 + bs.length ≤ 32 →
        ∃ t, exec (.copyCellLand c.id cell) s = .next t ∧ t.exe.gangs = s.exe.gangs ∧ t.mem.ops = s.mem.ops ∧
          (∀ k < bs.length, HomeAlone s.mem (paOff p.pa + k) → homeByte t (paOff p.pa + k) = bs.getD k 0) ∧
          (∀ off < devTop, off < paOff p.pa ∨ paOff p.pa + bs.length ≤ off → HomeAlone s.mem off → homeByte t off = homeByte s off) ∧
          (∀ b ∈ t.mem.l1, b.core = c.core → b.frame = p.pa / 512 → ¬ (b.start ≤ p.pa / 32 % 16 ∧ p.pa / 32 % 16 < b.start + b.cells.length)) ∧
          (writerWaits t.mem (.copy c.id) = true → t.exe.groups = s.exe.groups ∧
            t.exe.copies = s.exe.copies.map fun y => if y.id = c.id then { y with sent := (r, x) :: y.sent } else y) ∧
          (writerWaits t.mem (.copy c.id) = false → countable c g.window → t.ctl = s.ctl ∧ ∃ w', counted c g.window w' ∧ windowNow s t c w' ∧
            copyAfter s c cell t.exe.copies)) ∧
      ((r, x) ∈ c.sent → paPeer s p.pa = false → (writerWaits s.mem (.copy c.id) = true → exec (.copyCellLand c.id cell) s = .next s) ∧
        (writerWaits s.mem (.copy c.id) = false → countable c g.window → ∃ t w', exec (.copyCellLand c.id cell) s = .next t ∧
          counted c g.window w' ∧ windowNow s t c w' ∧ copyAfter s c cell t.exe.copies ∧ t.mem = s.mem ∧ t.ctl = s.ctl ∧ t.sys = s.sys)) ∧
      (paPeer s p.pa = true → ((r, x) ∉ c.sent → peerGone s p.pa = false → canSend s.sys (paDev p.pa) (frameOf (paOff p.pa)) 0 = true →
          ∃ t q, exec (.copyCellLand c.id cell) s = .next t ∧ t.sys = { s.sys with out := s.sys.out ++ [q], flight := s.sys.flight ++ [q] } ∧
            q.dev = paDev p.pa ∧ q.tag = c.id ∧ q.cls = 0 ∧ q.inc = s.sys.ownInc ∧ q.src = ownDev s.sys ∧ q.part = c.part ∧
            q.req = some (.write (paOff p.pa) bs) ∧ t.exe.groups = s.exe.groups ∧ (∀ off < devTop, homeByte t off = homeByte s off) ∧
            t.exe.copies = s.exe.copies.map fun y => if y.id = c.id then { y with sent := (r, x) :: y.sent } else y) ∧
        ((r, x) ∈ c.sent → answerable s.sys c.id (some (256 * x + r)) = true → countable c g.window →
          ∃ t w', exec (.copyCellLand c.id cell) s = .next t ∧ counted c g.window w' ∧ windowNow s t c w' ∧
            copyAfter s c cell t.exe.copies ∧ t.mem = s.mem ∧ t.sys.flight = s.sys.flight.filter fun q => !q.named c.id (some (256 * x + r))))) ∧
    (∀ cx rest acc, c.left = (r, x) :: rest → c.kind = .contrib → findCtx s.ctl.ctxs c.part c.ctx = some cx →
      acc = accSlot cx (handleSlot c.handle.toNat) → countable c g.window →
      ∃ t w' ps, exec (.copycRowRead c.id) s = .next t ∧ counted c g.window w' ∧ windowNow s t c w' ∧
        copyAfter s c 0 t.exe.copies ∧ t.mem = s.mem ∧ t.ctl.partials = s.ctl.partials ++ ps ∧ ps.length = c.cols ∧
        ∀ j p, ps[j]? = some p → p.elem = c.e0 + r * c.estride + j ∧ p.handle = c.handle ∧ p.loc = .toCore c.core ∧
          p.part = c.part ∧ p.ctx = c.ctx ∧ p.replay = c.replay ∧
          (c.fmt = 0 → acc.fmt = 0 → p.value.toNat = leNat (smRun g.window (winByte (c.lofs.toNat + r * c.len) (4 * j)) 4)))) ∧
  (∀ (s : State) (core : Nat),
    (∀ o, copyIssue s.mem core = some o → ((issueOps s.mem o.issue).map fun q => (q.gang, q.slice)).Nodup →
      (∀ q ∈ issueOps s.mem o.issue, q.cls = .c) →
      ∃ t, exec (.copyEntryAssign core) s = .next t ∧ (∀ q ∈ t.mem.ops, q ∈ s.mem.ops ∧ q.issue ≠ o.issue) ∧
        t.exe.copies = s.exe.copies ∧ t.ctl = s.ctl ∧ t.sys = s.sys ∧ SameHome s.mem t.mem ∧
        ∀ (gi : Nat) (g : Gang), s.exe.gangs[gi]? = some g → ∃ g', t.exe.gangs[gi]? = some g' ∧ SameFile g g' ∧
          ∀ k < g.slices.length, g'.sl k = if ∃ q ∈ issueOps s.mem o.issue, q.gang = gi ∧ q.slice = k then clsSub (g.sl k) .c else g.sl k) ∧
    (∀ y, copyIssue s.mem core = none → (coreCopies s core).find? (fun z => !z.queued) = some y →
      ((coreCopies s core).filter Copy.queued).length < 16 →
      ∃ t, exec (.copyEntryAssign core) s = .next t ∧ t.mem = s.mem ∧ t.ctl = s.ctl ∧ t.exe.copies =
        s.exe.copies.map fun z => if z.id = y.id then { z with queued := true } else z))

/-! ## The tree (R258 to R277) -/

/-- ACCARM, ACCQ and ACCDROP issue an operation for each slice, and CONTRIB and CONTRIBN also one partial for each active lane
whose handle names this device. A lane that fails R268's checks, an ACCQ selector above 3 and an ACCDROP of a handle that is not
live raise ILLEGAL_OP; ACCDROP leaves its slot DROPPING (R265 to R270). -/
def Obligations.TreeInstructions : Prop :=
  ∀ (s : State) (e : Iss) (d a b : Byte), issOf s = some e → RoomForTraps e →
    (∀ l, declOk e.n d = true → pairOk e.n a = true → (∀ j ∈ e.sls, (e.g.sl j).cL < 63) → e.active.head? = some l →
      (∀ x, xlate s (coreAt e.core) e.ctx (rdPair e.g l a) needR = .ok x →
        ∃ t ops, exec (.accarm d a) s = .next t ∧ Issued s t e (fun _ => .l) ops ∧ OpsOf s e (fun _ => .accarm) (fun _ => .l) ops ∧
          ∀ o ∈ ops, o.dst = d.toNat ∧ o.parts = (e.lanesOf o.slice).map fun j => barePart j (rdPair e.g l a) 0) ∧
      (∀ c, xlate s (coreAt e.core) e.ctx (rdPair e.g l a) needR = .error c →
        exec (.accarm d a) s = .next (raise e (l / 4) c (BitVec.ofNat 64 (rdPair e.g l a))))) ∧
    (∀ p ∈ [(false, Instr.contrib d a b), (true, .contribn d a b)],
      (∀ k ∈ e.sls, (e.ty k = 2 ∨ e.ty k = 4 ∨ e.ty k = 5) ∧ srcOk e.n (e.ty k) d = true) → declOk e.n a = true →
      pairOk e.n b = true → (∀ j ∈ e.sls, (e.g.sl j).cS < 63) →
      ((∀ l ∈ e.active, ContribOk e p.1 a b l) → ∃ t ops ps, exec p.2 s = .next t ∧
        Issued { s with ctl := { s.ctl with partials := s.ctl.partials ++ ps } } t e (fun _ => .s) ops ∧
        OpsOf s e (fun _ => .contrib) (fun _ => .s) ops ∧ List.Forall₂ (PartialOf e p.1 d a b) (ownLanes e a) ps ∧
        ∀ o ∈ ops, o.parts.map MemPart.lane = e.lanesOf o.slice) ∧
      (∀ l ∈ e.active, ¬ ContribOk e p.1 a b l → (∀ j ∈ e.active, j < l → ContribOk e p.1 a b j) →
        exec p.2 s = .next (raise e (l / 4) .illegalOp 0))) ∧
    (declOk e.n d = true → declOk e.n a = true → declOk e.n b = true → (∀ j ∈ e.sls, (e.g.sl j).cL < 63) →
      ((∀ l ∈ e.active, rd e.g l b ≤ 3) →
        ∃ t ops, exec (.accq d a b) s = .next t ∧ Issued s t e (fun _ => .l) ops ∧ OpsOf s e (fun _ => .accq) (fun _ => .l) ops ∧
          ∀ o ∈ ops, o.dst = d.toNat ∧ o.parts = (e.lanesOf o.slice).map fun l => barePart l (rd e.g l a) (rd e.g l b)) ∧
      (∀ l ∈ e.active, 3 < rd e.g l b → (∀ j ∈ e.active, j < l → rd e.g j b ≤ 3) →
        exec (.accq d a b) s = .next (raise e (l / 4) .illegalOp 0))) ∧
    (∀ l, declOk e.n a = true → (∀ j ∈ e.sls, (e.g.sl j).cS < 63) → e.active.head? = some l →
      (∀ acc, liveAcc (ownDev s.sys) e.ctx (rd e.g l a) = some acc → ∃ t ops, exec (.accdrop a) s = .next t ∧
        Issued (slotDropping s e (rd e.g l a % 2 ^ 12)) t e (fun _ => .s) ops ∧
        OpsOf s e (fun _ => .accdrop) (fun _ => .s) ops) ∧
      (liveAcc (ownDev s.sys) e.ctx (rd e.g l a) = none → exec (.accdrop a) s = .next (raise e (l / 4) .illegalOp 0)))

/-- A partial that arrives in a core's or a switch port's buffer in its turn pairs with its sibling, is held, or is forwarded; a
replay and a root are forwarded at once, and the oldest one held makes room, each on its own way (R273, R274, R277). One held for longer than 64 cycles in a core, or 32
mesh cycles in a port, is forwarded. A home drops what it holds of a DROPPING accumulator, which is FREE once every home has
(R265, R270). At its home a partial is discarded where its handle is not live. A partial whose leaves are all marked counts as a
duplicate and is dropped, or raises DUP_MISMATCH; one whose leaves are marked in part raises DUP_MISMATCH. Otherwise its leaves
are marked: a root is written, a sibling held there pairs with it, and a partial without one is held, or spilled where the buffer
is full (R275, R276). A root that is written raises its event once its write is acknowledged (R276). -/
def Obligations.TreePath : Prop :=
  (∀ (s : State) (x : Partial) (c : Ctx) (a : AccSlot) (rest : List Partial), s.ctl.partials.find? (fun y => y.id == x.id) = some x →
    findCtx s.ctl.ctxs x.part x.ctx = some c → formsNodes c = true → a = accSlot c (handleSlot x.handle.toNat) →
    rest = (s.ctl.partials.filter fun y => y.id != x.id) →
    (∀ held fwd cap, bufferOf s x held fwd cap → inTurn s.ctl.partials x = true → ∃ t, exec (.partialAtBuffer x.id) s = .next t ∧ t.mem = s.mem ∧
      t.exe = s.exe ∧ t.sys = s.sys ∧ (x.replay = true → t.ctl.partials = rest ++ [{ x with loc := fwd x }]) ∧
      (x.replay = false → a.gen = handleGen x.handle.toNat → a.state ≠ .free →
        let sib := fun (p : Partial) => rest.find? fun q => q.loc == held && !q.replay && isSibling p q
        let room := fun (ps : List Partial) => (ps.filter fun q => q.loc == held).length < cap
        (x.level = treeTop a.nleaf → t.ctl.partials = rest ++ [{ x with loc := fwd x }]) ∧
        (x.level ≠ treeTop a.nleaf → sib x = none →
          (room rest → t.ctl.partials = rest ++ [{ x with loc := held, since := s.sys.cycle }]) ∧
          (∀ o, ¬ room rest → rest.find? (fun q => q.loc == held) = some o → t.ctl.partials =
            (rest.map fun q => if q.id = o.id then { q with loc := fwd q } else q) ++ [{ x with loc := held, since := s.sys.cycle }])) ∧
        (∀ q, x.level ≠ treeTop a.nleaf → sib x = some q → ∃ y, parentOf a x q y ∧
          (y.level = treeTop a.nleaf → t.ctl.partials = (rest.filter fun z => z.id != q.id) ++ [{ y with loc := fwd y }]) ∧
          (y.level ≠ treeTop a.nleaf → (rest.filter fun z => z.id != q.id).find? (fun z => z.loc == held && !z.replay && isSibling y z) = none →
            room (rest.filter fun z => z.id != q.id) →
            t.ctl.partials = (rest.filter fun z => z.id != q.id) ++ [{ y with loc := held, since := s.sys.cycle }])))) ∧
    (∀ fwd, inTurn s.ctl.partials x = true → (∃ k, x.loc = .heldCore k ∧ fwd = .toPort (portOf s c a x.elem) ∧ 64 < s.sys.cycle - x.since) ∨
        (∃ k, x.loc = .heldPort k ∧ fwd = .toHome ∧ 32 < 2 * (s.sys.cycle - x.since)) →
      ∃ t, exec (.partialForwardTimeout x.id) s = .next t ∧ t.mem = s.mem ∧ t.exe = s.exe ∧ t.sys = s.sys ∧
        t.ctl.partials = s.ctl.partials.map fun q => if q.id = x.id then { q with loc := fwd } else q) ∧
    (∀ slot home, (accSlot c slot).state = .dropping → home < 384 → home ∉ (accSlot c slot).purged →
      (∀ p ∈ s.ctl.partials, p.part = x.part → p.ctx = x.ctx → p.loc = .rooted home → handleSlot p.handle.toNat ≠ slot) →
      ∃ t c', exec (.accdropAtHome x.part x.ctx slot home) s = .next t ∧ t.mem = s.mem ∧ t.exe = s.exe ∧ t.sys = s.sys ∧
        (∀ p, p ∈ t.ctl.partials ↔ p ∈ s.ctl.partials ∧ ¬ (p.part = x.part ∧ p.ctx = x.ctx ∧ p.loc = .heldHome home ∧
          handleSlot p.handle.toNat = slot ∧ handleGen p.handle.toNat = (accSlot c slot).gen)) ∧
        findCtx t.ctl.ctxs x.part x.ctx = some c' ∧ (∀ n, n ≠ slot → accSlot c' n = accSlot c n) ∧
        ((∀ h < 384, h = home ∨ h ∈ (accSlot c slot).purged ∨ h / 48 ∈ s.sys.lostDies) → (accSlot c' slot).state = .free) ∧
        ((∃ h < 384, ¬ (h = home ∨ h ∈ (accSlot c slot).purged ∨ h / 48 ∈ s.sys.lostDies)) →
          (accSlot c' slot).state = .dropping ∧ (accSlot c' slot).purged = home :: (accSlot c slot).purged))) ∧
  (∀ (s : State) (x : Partial) (c : Ctx) (a : AccSlot) (pa home : Nat) (u : State), s.ctl.partials.find? (fun y => y.id == x.id) = some x →
    findCtx s.ctl.ctxs x.part x.ctx = some c → formsNodes c = true → a = accSlot c (handleSlot x.handle.toNat) →
    homeServes s c a x pa home → u = withoutPartial s x.id →
    ∃ t, exec (.partialAtHome x.id) s = .next t ∧ t.exe = { s.exe with nextId := t.exe.nextId } ∧
      (liveAcc (ownDev s.sys) c x.handle.toNat = none → t = ackHome u x) ∧
      (liveAcc (ownDev s.sys) c x.handle.toNat = some a → ∀ lo hi old, lo = x.index * 2 ^ x.level →
        hi = min ((x.index + 1) * 2 ^ x.level) a.nleaf → old = leafBits u c a x.elem lo hi →
        (old = 2 ^ (hi - lo) - 1 → ∀ v, v = vaBump u c (a.desc.toNat + 0x30) 8 1 →
          (a.flags % 2 = 0 → t = ackHome v x) ∧ (a.flags % 2 = 1 → ∃ r, t = addFault v r ∧ r.code = some .dupMismatch ∧ r.kind = 5)) ∧
        (old ≠ 2 ^ (hi - lo) - 1 → old ≠ 0 → ∃ r, t = addFault u r ∧ r.code = some .dupMismatch ∧ r.kind = 5 ∧ r.exact = false) ∧
        (old ≠ 2 ^ (hi - lo) - 1 → old = 0 → ∀ v, v = ackHome (setLeaves u c a x.elem lo hi) x →
          let sib := u.ctl.partials.find? fun q => q.loc == .heldHome home && isSibling x q
          let word := labelWord x.level (Nat.xor x.index 1)
          let spilled := spillFind v c a x.elem word a.cap (spillHome a x.elem word)
          (x.level = treeTop a.nleaf → t = rootWrite v c a { x with tags := [] } home) ∧
          (∀ q, x.level ≠ treeTop a.nleaf → sib = some q → ∃ y, parentOf a { x with tags := [] } q y ∧
            (y.level = treeTop a.nleaf → t = rootWrite (withoutPartial v q.id) c a y home)) ∧
          (x.level ≠ treeTop a.nleaf → sib = none → spilled = none →
            (homeFull v c home = false → t = { v with ctl := { v.ctl with partials := u.ctl.partials ++
              [{ x with loc := .heldHome home, acks := [], tags := [] }] } }) ∧
            (homeFull v c home = true → vaNat v c (a.desc.toNat + 0x3C) 4 = a.cap →
              ∃ r, t = addFault v r ∧ r.code = some .spillOverflow) ∧
            (∀ i, homeFull v c home = true → vaNat v c (a.desc.toNat + 0x3C) 4 ≠ a.cap →
              spillFree v c a a.cap (spillHome a x.elem (labelWord x.level x.index)) = some i →
              t.mem = (vaBump (spillPut v c a i ((if a.fmt = 0 then x.value.toNat % 2 ^ 32 else x.value.toNat) +
                2 ^ 64 * (x.elem + 1) + 2 ^ 96 * labelWord x.level x.index)) c (a.desc.toNat + 0x3C) 4 1).mem ∧
              t.ctl.partials = u.ctl.partials)) ∧
          (∀ i, x.level ≠ treeTop a.nleaf → sib = none → spilled = some i → ∃ q y, q.value = BitVec.ofNat 64 (spillEntry v c a i) ∧
            parentOf a { x with tags := [] } q y ∧ (y.level = treeTop a.nleaf →
              t = rootWrite (vaBump (spillRemove v c a i) c (a.desc.toNat + 0x3C) 4 (-1)) c a y home))))) ∧
  (∀ (s : State) (x : Partial) (c : Ctx) (home : Nat), s.ctl.partials.find? (fun y => y.id == x.id) = some x →
    findCtx s.ctl.ctxs x.part x.ctx = some c → x.loc = .rooted home →
    (writerWaits s.mem (rootWriter x) = true → exec (.partialAtHome x.id) s = .next s) ∧
    (writerWaits s.mem (rootWriter x) = false → ∀ a, a = accSlot c (handleSlot x.handle.toNat) → a.event ≠ 0 →
      exec (.partialAtHome x.id) s = .next (vaBump (withoutPartial s x.id) c a.event.toNat 8 1)))

/-! ## Regions (R345 to R358) -/

/-- AXB opens the region in the running lanes that are not served, counts the invocation, divides each slice, and leaves an
operation in flight that brings ŷ to the served lanes. AXE closes the region in the running lanes, and sends the samples of those
that are sampled; AXINV and AXQ issue an operation for each slice (R349, R355 to R358). A region the kernel has not latched raises
REGION_FAULT, as does an AXE in a lane that has no region open. The home of a region's descriptor acts on a sample: one whose
logical index the buffer holds counts as a duplicate and is dropped; with room it is inserted in index order; a full buffer keeps
the smallest indices; and in ARMED it is checked (R353, R356). A core learns of an eager hit (R353). -/
def Obligations.Regions : Prop :=
  (∀ (s : State) (e : Iss) (d a : Byte) (i : BitVec 6) (sel : BitVec 4), issOf s = some e → RoomForTraps e →
    (∀ r ds, axRegion e i.toNat = some r → axDesc e r = some ds →
      (8 ≤ d.toNat ∧ d.toNat ≤ 247 ∧ 8 ≤ a.toNat ∧ a.toNat ≤ 247 ∧ declOk e.n d = true ∧ declOk e.n a = true ∧
        declRun e.n a (rgNin ds) = true ∧ declRun e.n d (rgNout ds) = true) →
      (∀ k ∈ e.sls, (e.g.sl k).cF < 63 ∧ ∃ t u, (e.g.sl k).stack = t :: u ∧ t.kind = .joinpt ∧ t.pend = 0) →
      (∀ l ∈ e.running, (∀ o ∈ e.g.opens, o.lane ≠ l) ∧ axCountOf e.g i.toNat l < 2 ^ 22) →
      Quiet e → someRuns e → (∀ o ∈ s.mem.ops, o.kind = .axb i.toNat → o.cls ≠ .none) →
      ∃ t g ops new, exec (.axb d a i) s = .next t ∧ Retired t e g ∧ OnlyGang { s with mem := t.mem } t e.gi ∧
        SameRegs e.g g ∧ SameHome s.mem t.mem ∧ t.mem.ops = s.mem.ops ++ ops ∧
        (∀ id l, l < 32 → axCountOf g id l = if id = i.toNat ∧ l ∈ e.running then axCountOf e.g id l + 1 else axCountOf e.g id l) ∧
        g.opens = e.g.opens ++ new ∧
        (∀ l, l ∈ e.running ∧ ¬ servedIn e i.toNat r ds l ↔ ∃ o ∈ new, o.lane = l) ∧
        (∀ o ∈ new, o.id = i.toNat ∧ o.count = axCountOf e.g i.toNat o.lane ∧ (o.sampled = true ↔ sampledIn e i.toNat r ds o.lane) ∧
          o.x = (axInputs e a ds o.lane).map (BitVec.ofNat 32)) ∧
        (∀ o ∈ ops, o.kind = .axb i.toNat ∧ o.cls = .f ∧ o.dst = d.toNat ∧ o.gang = e.gi ∧ ∀ l v,
          { barePart l 0 0 with got := some v } ∈ o.parts → l ∈ lanesRunning e o.slice ∧ servedIn e i.toNat r ds l ∧
            v = (surrogate ds (inference s e.ctx ds) (axInputs e a ds l)).flatMap fun y => natLe y 4) ∧
        (∀ k ∈ e.sls, (∃ l ∈ lanesRunning e k, sampledIn e i.toNat r ds l ∨ servedIn e i.toNat r ds l) ↔ ∃ o ∈ ops, o.slice = k) ∧
        (∀ k x, k ∈ e.sls → e.g.slices[k]? = some x → ∃ taken z, afterAxb e taken
            (∃ l ∈ lanesRunning e k, sampledIn e i.toNat r ds l ∨ servedIn e i.toNat r ds l) x z ∧
          g.slices[k]? = some { z with retired := z.retired + 1 } ∧
          ∀ j < 4, taken.getLsbD j = true ↔ 4 * k + j ∈ e.running ∧ ¬ servedIn e i.toNat r ds (4 * k + j))) ∧
    (∀ r ds, axRegion e i.toNat = some r → axDesc e r = some ds → 8 ≤ a.toNat → a.toNat ≤ 247 → declOk e.n a = true →
      declRun e.n a (rgNout ds) = true → (∀ k ∈ e.sls, (e.g.sl k).cF < 63) →
      (∀ o ∈ s.mem.ops, o.kind = .axe i.toNat → o.cls ≠ .none) →
      ((∀ l ∈ e.running, ∃ o ∈ e.g.opens, o.lane = l ∧ o.id = i.toNat) → ∃ t g ops sent, exec (.axe a i) s = .next t ∧
        Retired t e g ∧ OnlyGang { s with mem := t.mem, ctl := { s.ctl with samples := s.ctl.samples ++ sent } } t e.gi ∧
        SameRegs e.g g ∧ g.axCount = e.g.axCount ∧ SameHome s.mem t.mem ∧ t.mem.ops = s.mem.ops ++ ops ∧
        (∀ o, o ∈ g.opens ↔ o ∈ e.g.opens ∧ o.lane ∉ e.running) ∧
        (∀ o ∈ ops, o.kind = .axe i.toNat ∧ o.cls = .f) ∧
        (∀ o ∈ e.g.opens, o.lane ∈ e.running → o.lane / 4 ∈ e.sls → o.id = i.toNat → o.sampled = true →
          ∃ x ∈ sent, x.region = r.id ∧ x.kord = e.kern.ord ∧ x.gid = e.grp.lid ∧ x.x = o.x ∧
            x.word3 = BitVec.ofNat 32 (e.g.idx * 2 ^ 27 + o.lane * 2 ^ 22 + o.count) ∧
            x.y = (List.range (rgNout ds)).map (fun j => BitVec.ofNat 32 (rd e.g o.lane (a + BitVec.ofNat 8 j))) ∧
            (x.err.isSome = true ↔ r.mode = .armed))) ∧
      (∀ k, lowestSuch e k (fun k => ∃ l ∈ lanesRunning e k, ∀ o ∈ e.g.opens, o.lane = l → o.id ≠ i.toNat) →
        exec (.axe a i) s = .next (raise e k .regionFault 0))) ∧
    ((∀ k ∈ e.sls, (e.g.sl k).cS < 63) → (axRegion e i.toNat).isSome = true → ∃ t ops, exec (.axinv i) s = .next t ∧
      Issued s t e (fun _ => .s) ops ∧ OpsOf s e (fun _ => .axinv i.toNat) (fun _ => .s) ops) ∧
    (sel.toNat ≤ 3 → 1 ≤ d.toNat → d.toNat ≤ 247 → declOk e.n d = true → (∀ k ∈ e.sls, (e.g.sl k).cL < 63) →
      ∀ r, axRegion e i.toNat = some r → ∃ t ops, exec (.axq d sel i) s = .next t ∧ Issued s t e (fun _ => .l) ops ∧
        OpsOf s e (fun _ => .axq i.toNat sel.toNat) (fun _ => .l) ops ∧ ∀ o ∈ ops, o.dst = d.toNat ∧
          o.parts = (e.lanesOf o.slice).map fun l => barePart l (modeCode r.mode + if eagerSeen e i.toNat then 8 else 0) 0) ∧
    (axRegion e i.toNat = none → 8 ≤ d.toNat → d.toNat ≤ 247 → 8 ≤ a.toNat → a.toNat ≤ 247 → declOk e.n d = true →
      declOk e.n a = true → sel.toNat ≤ 3 → ∀ x ∈ [Instr.axb d a i, .axe a i, .axinv i, .axq d sel i],
        exec x s = .next (raise e (lowSlice e.mask) .regionFault 0))) ∧
  (∀ (s u : State) (x : Sample) (c : Ctx) (va : Nat) (d : List Byte), s.ctl.samples.find? (fun y => y.id == x.id) = some x →
    u = { s with ctl := { s.ctl with samples := s.ctl.samples.filter fun y => y.id != x.id } } →
    findCtx s.ctl.ctxs x.part x.ctx = some c → regionVa s x.kern x.region = some va → rgReach u c va = true →
    formsNodes c = true → d = rgRead u c va →
    (∀ ix es, ix = indexOf x.kord x.gid x.word3.toNat → es = ((List.range (rgCount d)).map fun i => sampleEntry u c d i) →
      ∃ t, exec (.sampleAtHome x.id) s = .next t ∧ t.exe = { s.exe with nextId := t.exe.nextId } ∧ t.ctl = u.ctl ∧ t.sys = s.sys ∧
        (x.err = none →
          ((∃ b ∈ es, entryIndex b = ix) → t = vaBump u c (va + 0x50) 8 1) ∧
          ((∀ b ∈ es, entryIndex b ≠ ix) → ∀ n, n = (es.filter fun b => decide (entryIndex b < ix)).length →
            (rgCount d < rgCap d → t = vaPut (putEntries u c d n (sampleBytes x :: es.drop n)) c (va + 0x40) 4 (rgCount d + 1)) ∧
            (rgCap d ≤ rgCount d → n < rgCount d → t = putEntries u c d n (sampleBytes x :: (es.drop n).dropLast)) ∧
            (rgCap d ≤ rgCount d → rgCount d ≤ n → t = u))) ∧
        (∀ v, x.err = some v → t = checkSample (insertSample u c va d x) c va d v.toNat)) ∧
    (∀ core id, (c.regionAt.find? fun p => p.1 == id) = some (id, BitVec.ofNat 64 va) → va < 2 ^ 64 → rgReach s c va = true →
      rgRead s c va = d → (rgEflags d).testBit 1 = true →
      c.eagerSeen.contains (core, id) = false → ∃ t c', exec (.eagerHitNotify core x.part x.ctx id) s = .next t ∧
        t.mem = s.mem ∧ t.exe = s.exe ∧ t.sys = s.sys ∧ findCtx t.ctl.ctxs x.part x.ctx = some c' ∧
        c'.eagerSeen = (core, id) :: c.eagerSeen))

/-! ## The matrix sequencer (R279 to R300) -/

/-- The words of the tile stream that move its registers, its cassette and its barriers (R279 to R281, R290, R299, R300), for a
stream that may execute. A stream that a debug stop lets go on does not execute its next TWAIT (R88). -/
def Obligations.TileStreamWords : Prop :=
  ∀ (s : State) (x : TIss) (d a b k : BitVec 4) (m : BitVec 2) (i : BitVec 16) (len : BitVec 6) (c : BitVec 19),
    tissOf s = some x →
    Streams s .tnop x x.grp x.t ∧
    Streams s .tstop x x.grp { x.t with ended := true } ∧
    Streams s (.taddImm d a i) x x.grp (withT x.t d (smGet x.t.regs a.toNat + i.signExtend 32)) ∧
    Streams s (.taddReg d a b) x x.grp (withT x.t d (smGet x.t.regs a.toNat + smGet x.t.regs b.toNat)) ∧
    Streams s (.tset d 0 i) x x.grp (withT x.t d (i.zeroExtend 32)) ∧
    Streams s (.tset d 1 i) x x.grp (withT x.t d (i ++ (smGet x.t.regs d.toNat).setWidth 16)) ∧
    Streams s (.tset d 2 i) x x.grp (withT x.t d (i.signExtend 32)) ∧
    TileFaults s (.tset d 3 i) x .illegalOp 0 x.t.pc ∧
    (x.accNo m.toNat < x.kern.pkt.acc → Streams s (.tzero m) x x.grp (x.setAcc m.toNat {})) ∧
    (x.kern.pkt.acc ≤ x.accNo m.toNat → TileFaults s (.tzero m) x .illegalOp 0 x.t.pc) ∧
    Streams s (.tincOff m) x x.grp { x.t with rules := modAt x.t.rules m.toNat fun _ => .off } ∧
    Streams s (.tincT m a i) x x.grp { x.t with rules := modAt x.t.rules m.toNat fun _ => .treg a.toNat i } ∧
    Streams s (.tincAcc m i) x x.grp { x.t with rules := modAt x.t.rules m.toNat fun _ => .acc i } ∧
    (∀ ws : List Word, ws.length = len.toNat + 1 →
      (∀ j w, ws[j]? = some w → bodyWordOk x (x.t.pc + BitVec.ofNat 56 (4 * (j + 1))) w) →
      ∀ q n, (q = Instr.tloopImm len c ∧ n = c.toNat ∧ c ≠ 0) ∨ (q = .tloopReg len a ∧ n = (smGet x.t.regs a.toNat).toNat) →
        ∀ back, back = x.t.pc + BitVec.ofNat 56 (4 * (len.toNat + 2)) →
        (0 < n → exec q s = .next (wordDone s x { x.grp with tile := some { x.t with pc := x.t.pc + 4, lastPc := x.t.pc, cassette := some { words := ws, count := n, pass := 0, at_ := 0, off := 0, back := back } } })) ∧
        (n = 0 → exec q s = .next (wordDone s x { x.grp with tile := some { x.t with pc := back, lastPc := x.t.pc, rules := [.off, .off, .off, .off] } }))) ∧
    TileFaults s (.tloopImm len 0) x .illegalOp 0 x.t.pc ∧
    (∀ n, x.grp.nbs[k.toNat]? = some n → 0 < n.pend → ∃ y,
      Streams s (.tarr k d) x { x.grp with nbs := modAt x.grp.nbs k.toNat fun _ => y } (withT x.t d (BitVec.ofNat 32 n.phase)) ∧
      y.reload = n.reload ∧
      (if n.pend = 1 then y.phase = (n.phase + 1) % 16 ∧ y.pend = n.reload ∧ y.arrived = false
       else y.phase = n.phase ∧ y.pend = n.pend - 1 ∧ y.arrived = true)) ∧
    (∀ n q, x.grp.nbs[k.toNat]? = some n → q = ((smGet x.t.regs a.toNat).toNat % 16 + 16 - n.phase) % 16 →
      (tDebug x.grp x.ctx = true → exec (.twait k a) s = .next (tIdle s)) ∧
      (tDebug x.grp x.ctx = false →
      (8 ≤ q → Streams s (.twait k a) x x.grp x.t) ∧
      (q ≤ 1 → x.grp.state ≠ .exiting → exec (.twait k a) s = .next (tIdle s)) ∧
      (q ≤ 1 → x.grp.state = .exiting → TileFaults s (.twait k a) x .barrierMisuse 0 x.t.pc) ∧
      (2 ≤ q → q ≤ 7 → TileFaults s (.twait k a) x .barrierMisuse 0 x.t.pc))) ∧
    (∀ o bs, o = (smGet x.t.regs a.toNat).toNat → bs = winSpan x.grp.window o 32 →
      (o % 32 = 0 → o + 32 ≤ x.kern.pkt.lmem → o < 2 ^ 22 → fdescOk bs = true → kickOk s bs = true →
        Streams s (.tfmt m a) x x.grp { x.t with fdesc := modAt x.t.fdesc m.toNat fun _ => some bs }) ∧
      ((o % 32 ≠ 0 ∨ o.testBit 30 = true) → TileFaults s (.tfmt m a) x .illegalOp 0 x.t.pc))

/-- TLDB and TLDS fill the slab quarter of columns 0 to N − 1 from the window, and TLDC an accumulator tile, which becomes
RESIDENT; what a load does not name stays (R291). TSTA writes the values of a tile to the window in the output format, and keeps
the tile; TEMIT writes its nodes with their labels and empties it, keeping its shape (R288, R297, R298). -/
def Obligations.TileLoadsAndStores : Prop :=
  (∀ (s : State) (x : TIss) (k : BitVec 2) (a b ts : BitVec 4) (f : BitVec 2), tissOf s = some x →
    (∀ q l, (q = Instr.tldb a b ts f ∧ l = ⟨false, x.t.reg a.toNat, x.t.reg b.toNat, x.t.reg ts.toNat, x.fd f.toNat⟩ ∧
          (nth x.t.fdesc f.toNat none).isSome = true ∧ kickOk s (x.fd f.toNat) = true) ∨
        (q = .tlds a b ts ∧ l = ⟨true, x.t.reg a.toNat, x.t.reg b.toNat, x.t.reg ts.toNat, []⟩) →
      (slabFault x.kern.pkt.lmem x.grp.window l = none → ∃ slab,
        Streams s q x x.grp { x.t with slab := slab, log := logged x l } ∧
        ∀ c o, o < 8192 → smGet slab (8192 * c + o) =
          if c < shN l.ts ∧ l.slab ≤ o ∧ o < l.slab + slabRun l then (slabColumn x.grp.window l c).getD (o - l.slab) 0
          else smGet x.t.slab (8192 * c + o)) ∧
      (∀ code info, slabFault x.kern.pkt.lmem x.grp.window l = some (code, info) → TileFaults s q x code info x.t.pc)) ∧
    ((nth x.t.fdesc f.toNat none) = none → TileFaults s (.tldb a b ts f) x .illegalOp 0 x.t.pc) ∧
    (∀ d w o m n, d = x.fd f.toNat → w = elemWidth (owFmt (fdA d)) → o = x.t.reg a.toNat → m = shM (x.t.reg ts.toNat) →
      n = shN (x.t.reg ts.toNat) →
      (x.accNo k.toNat < x.kern.pkt.acc → (nth x.t.fdesc f.toNat none).isSome = true → kickOk s d = true →
        shapeOk (x.t.reg ts.toNat) = true → owSkind (fdA d) = 0 → o % 4 = 0 → o + m * n * w / 8 ≤ x.kern.pkt.lmem → o < 2 ^ 22 →
        (owFmt (fdA d) = 8 → ∀ c ∈ codesOf (winSpan x.grp.window o (m * n * w / 8)) w (m * n), c ≠ 2) →
        ∃ vals, Streams s (.tldc k a ts f) x x.grp (x.setAcc k.toNat { kind := .resident, shape := some (m, n), vals := vals }) ∧
          ∀ i j, i < m → j < n → smGet vals (128 * i + j) = BitVec.ofNat 32 (elemF32 (owFmt (fdA d))
            (nth (codesOf (winSpan x.grp.window o (m * n * w / 8)) w (m * n)) (if owTrans (fdA d) then j * m + i else i * n + j) 0))) ∧
      ((x.kern.pkt.acc ≤ x.accNo k.toNat ∨ nth x.t.fdesc f.toNat none = none ∨ shapeOk (x.t.reg ts.toNat) = false ∨ owSkind (fdA d) ≠ 0) →
        TileFaults s (.tldc k a ts f) x .illegalOp 0 x.t.pc))) ∧
  (∀ (s : State) (x : TIss) (k f : BitVec 2) (d : BitVec 4) (ofmt : BitVec 3) (sat : BitVec 1) (acc : AccTile) (td m n : Nat),
    tissOf s = some x → acc = x.acc k.toNat → td = x.t.reg d.toNat →
    (x.accNo k.toNat < x.kern.pkt.acc →
      (nth x.t.fdesc f.toNat none).isSome = true → kickOk s (x.fd f.toNat) = true → td % 4 = 0 → td < 2 ^ 22 → acc.shape = some (m, n) →
      (ofmt.toNat ≤ 5 ∧ (acc.kind = .empty ∨ (acc.kind = .int ↔ ofmt.toNat = 5)) ∧ (acc.kind = .float → acc.k0 = 0) ∧
          (acc.kind = .int → owSkind (fdA (x.fd f.toNat)) ≠ 2 ∧ owSkind (fdB (x.fd f.toNat)) ≠ 2) →
        (td + m * n * outSize ofmt.toNat ≤ x.kern.pkt.lmem → ∃ w, Streams s (.tsta k f d ofmt sat) x { x.grp with window := w } x.t ∧
          Filled x.grp.window w td (if acc.kind = .empty then List.replicate (m * n * outSize ofmt.toNat) 0
            else (valsOf (if acc.kind = .resident then acc.vals else resolve acc) (tileKeys m n)).flatMap fun v =>
              natLe (tstaCode ofmt.toNat (sat == 1) (x.fd f.toNat) v) (outSize ofmt.toNat))) ∧
        (x.kern.pkt.lmem < td + m * n * outSize ofmt.toNat → TileFaults s (.tsta k f d ofmt sat) x .lmRange td x.t.pc)) ∧
      ((5 < ofmt.toNat ∨ (acc.kind ≠ .empty ∧ ¬ (acc.kind = .int ↔ ofmt.toNat = 5)) ∨ (acc.kind = .float ∧ acc.k0 ≠ 0) ∨
          (acc.kind = .int ∧ (owSkind (fdA (x.fd f.toNat)) = 2 ∨ owSkind (fdB (x.fd f.toNat)) = 2))) →
        TileFaults s (.tsta k f d ofmt sat) x .illegalOp 0 x.t.pc)) ∧
    (∀ nds b, nds = (if acc.kind = .empty then [] else decomposition acc) → b = (if acc.kind = .int then 8 else 4) →
      x.accNo k.toNat < x.kern.pkt.acc → acc.kind ≠ .resident → acc.shape.getD (0, 0) = (m, n) → td % 64 = 0 → td < 2 ^ 22 →
      td + (64 + nds.length * (m * n * b)) ≤ x.kern.pkt.lmem →
      ∃ w, Streams s (.temit k d) x { x.grp with window := w } (x.setAcc k.toNat { shape := acc.shape }) ∧
        Filled x.grp.window w td (natLe nds.length 4 ++ (nds.flatMap fun u => natLe (u.level * 2 ^ 27 + u.index) 4) ++
          List.replicate (60 - 4 * nds.length) 0 ++ nds.flatMap fun u => (valsOf u.vals (tileKeys m n)).flatMap fun v =>
            natLe (if acc.kind = .int then wrap (signed v 32) 64 else v) b)) ∧
    (x.kern.pkt.acc ≤ x.accNo k.toNat ∨ acc.kind = .resident → TileFaults s (.temit k d) x .illegalOp 0 x.t.pc) ∧
    (x.kern.pkt.acc ≤ x.accNo k.toNat ∨ nth x.t.fdesc f.toNat none = none ∨ acc.shape = none →
      TileFaults s (.tsta k f d ofmt sat) x .illegalOp 0 x.t.pc))

/-- MM, MMT and MMS extend an accumulator by K leaves from the leaf base: each fused node of 32 leaves is the exact sum of its
products rounded once, and enters the carry slots; the leaves left over stay open (R285 to R287, R292 to R294). Under GROUP128 the
nodes of 128 leaves are written to the window (R295). MMDUAL writes dX and dW to the window (R296). A register or pairing that
does not fit raises ILLEGAL_OP, and a range too long CARRY_OVERFLOW. -/
def Obligations.TileMultiplies : Prop :=
  ∀ (s : State) (x : TIss) (k f : BitVec 2) (a b l ts : BitVec 4), tissOf s = some x →
    (∀ op i q d acc o st kk m n leaf, (op, i) ∈ mmWords k f a b l ts → q = mmArgs op x k f a b l ts → d = x.fd f.toNat →
      acc = x.acc k.toNat → o = mmOperands x q → st = startSum (plusZero op d) → kk = shK q.ts → m = shM q.ts → n = shN q.ts →
      leaf = x.t.reg l.toNat → mmCommon x q = .go →
      (owSkind (fdA d) ≠ 3 → ∀ k0, k0 = (if acc.kind = .empty then leaf else acc.k0) →
        (acc.kind = .empty ∨ (acc.kind = (if op = .mmt then .int else .float) ∧ acc.shape = some (m, n) ∧ leaf = acc.next ∧ acc.openN = 0)) →
        k0 % 32 = 0 →
        (leaf + kk - k0 ≤ 32768 → leaf + kk - k0 ≤ alignOf k0 → ∃ slots,
          Streams s i x x.grp (x.setAcc k.toNat { kind := if op = .mmt then .int else .float, k0 := k0, next := leaf + kk, shape := some (m, n), openN := kk % 32, opens := if kk % 32 = 0 then [] else sumsOver o st (kk - kk % 32) kk, slots := slots, vals := [] }) ∧
          CarriedAll (op == .mmt) (tileKeys m n) (if acc.kind = .empty then [] else acc.slots)
            ((List.range (kk / 32)).map fun j => fusedNode (op == .mmt) o st leaf (32 * j)) slots) ∧
        ((32768 < leaf + kk - k0 ∨ alignOf k0 < leaf + kk - k0) → TileFaults s i x .carryOverflow 0 x.t.pc)) ∧
      (owSkind (fdA d) ≠ 3 → acc.kind ≠ .empty →
        (acc.kind ≠ (if op = .mmt then .int else .float) ∨ acc.shape ≠ some (m, n) ∨ leaf ≠ acc.next ∨ acc.openN ≠ 0) →
        TileFaults s i x .illegalOp 0 x.t.pc) ∧
      (owSkind (fdA d) = 3 → acc.kind = .empty → fdAscale d % 4 = 0 → fdAscale d < 2 ^ 22 →
        fdAscale d + kk / 128 * (m * n * 4) ≤ x.kern.pkt.lmem → ∃ w, Streams s i x { x.grp with window := w } x.t ∧
          Filled x.grp.window w (fdAscale d) (groupBytes o st kk m n)) ∧
      (owSkind (fdA d) = 3 → acc.kind ≠ .empty → TileFaults s i x .illegalOp 0 x.t.pc) ∧
      ∀ r c lo, r < m → c < n → m ≤ 128 → n ≤ 128 →
        smGet (fusedNode (op == .mmt) o st leaf lo).vals (128 * r + c) = BitVec.ofNat 32 (fusedVal (op == .mmt)
          (dotExact st (((aRow x.grp.window d q.a kk m r).drop lo).take 32) (((bCol x.t.slab d q.b kk c).drop lo).take 32)))) ∧
    (∀ q d kk m n o dy, q = mmArgs .dual x k f a b l ts → d = x.fd f.toNat → kk = shK q.ts → m = shM q.ts → n = shN q.ts →
      o = mmOperands x q → dy = (fun (i j : Nat) => decodeF F32 (smGet (x.acc k.toNat).vals (128 * i + j)).toNat) →
      mmCommon x q = .go → owSkind (fdA d) ≠ 3 → (x.acc k.toNat).kind = .resident → (x.acc k.toNat).shape = some (m, n) →
      q.tl % 4 = 0 → q.tl < 2 ^ 22 → q.tl + 4 * kk * (m + n) ≤ x.kern.pkt.lmem → xMeets d q (4 * kk * (m + n)) = false →
      ∃ w, Streams s (.mmdual k f a b l ts) x { x.grp with window := w } x.t ∧ Filled x.grp.window w q.tl
        (((List.range kk).flatMap fun z => (List.range m).flatMap fun i => natLe (fusedRoot ((List.range n).map fun j => some (dy i j))
            ((List.range n).map fun j => nth (nth o.cols j []) z FVal.nan)) 4) ++
          (List.range kk).flatMap fun z => (List.range n).flatMap fun j => natLe (fusedRoot
            ((List.range m).map fun i => some ((nth (nth o.rows i []) z none).getD FVal.nan)) ((List.range m).map fun i => dy i j)) 4)) ∧
    ∀ op i, (op, i) ∈ mmWords k f a b l ts ++ [(.dual, .mmdual k f a b l ts)] →
      (x.kern.pkt.acc ≤ x.accNo k.toNat ∨ nth x.t.fdesc f.toNat none = none ∨ pairing op (x.fd f.toNat) = none ∨
        shapeOk (x.t.reg ts.toNat) = false) → TileFaults s i x .illegalOp 0 x.t.pc

/-! ## Attestation and the interface (R402 to R405) -/

/-- Each function presents an SPDM 1.3 responder with the requests of R403; the measurement blocks 1 to 11 are the digests of the
boot, and block 12 a digest of the interface's state. Where boot stopped, the virtual functions answer nothing (R402). The order
in which the requests are accepted is the model's (log 19). The interface of a partition moves through its states as R404's table
gives them; a request that the table does not give in a state changes nothing. SCRUB_COMPLETE returns a die to service (R405). -/
def Obligations.InterfaceAndAttestation : Prop :=
  (∀ (s : State) (fn a b : Nat) (x : Spdm), fn ≤ 16 → x = spdmOf s fn →
    (s.sys.bootFailed = none ∨ fn = 0 →
      Answers s (.getVersion fn) fn { x with version := true, caps := false, algs := false, answer := [0x13], status := 0 } ∧
      Answers s (.getCapabilities fn) fn (if x.version then { x with caps := true, answer := natLe Config.capabilities 4, status := 0 } else refusedAnswer x) ∧
      Answers s (.negotiateAlgorithms fn a) fn (if x.caps then { x with algs := decide (a % 16 = 15), answer := natLe (a % 16) 1, status := 0 } else refusedAnswer x) ∧
      Answers s (.getDigests fn) fn (if x.algs then { x with answer := natLe (Config.sha512 (Config.certificateChain (identity s))).toNat 64, status := 0 } else refusedAnswer x) ∧
      Answers s (.getCertificate fn a b) fn (if x.algs then { x with answer := ((Config.certificateChain (identity s)).drop a).take b, status := 0 } else refusedAnswer x) ∧
      Answers s (.challenge fn a) fn (if x.algs then { x with answer := natLe (Config.identitySign (identity s) (natLe a 32 ++ s.sys.measures.flatMap fun d => natLe d.toNat 64)).toNat 96, status := 0 } else refusedAnswer x) ∧
      (1 ≤ a → a ≤ 11 → Answers s (.getMeasurements fn a) fn { x with answer := natLe (nth s.sys.measures (a - 1) 0).toNat 64, status := 0 }) ∧
      Answers s (.getMeasurements fn 12) fn { x with answer := natLe (Config.sha512 (interfaceBytes s fn)).toNat 64, status := 0 } ∧
      (a = 0 ∨ 12 < a → Answers s (.getMeasurements fn a) fn (refusedAnswer x)) ∧
      (∀ t, t = ({ s with sys := { s.sys with draws := s.sys.draws + 1 } } : State) →
        exec (.keyExchange fn a) s = .next (setSpdm t (if x.algs then { x with secret := some (Config.sessionSecret s.sys.draws a), session := false, answer := natLe (Config.exchangeShare s.sys.draws) 96, status := 0 } else refusedAnswer x)) ∧
        exec (.keyUpdate (.session fn)) s = .next (setSpdm t (if x.session then { x with keyNo := s.sys.draws, answer := [], status := 0 } else refusedAnswer x))) ∧
      Answers s (.finish fn a) fn (if x.secret.map Config.finishValue = some a then { x with session := true, keyNo := s.sys.draws, answer := [], status := 0 } else refusedAnswer x) ∧
      Answers s (.endSession fn) fn (if x.session then { x with session := false, secret := none, answer := [], status := 0 } else refusedAnswer x)) ∧
    (s.sys.bootFailed.isSome = true → fn ≠ 0 → ∀ i ∈ [Instr.getVersion fn, .getCapabilities fn, .negotiateAlgorithms fn a, .getDigests fn,
      .getCertificate fn a b, .challenge fn a, .getMeasurements fn a, .finish fn a, .endSession fn], exec i s = .next s) ∧
    ∀ l k, s.sys.links[l]? = some k → (k.state = .up ∨ k.state = .degraded) → exec (.keyUpdate (.link l)) s =
      .next { s with sys := { s.sys with draws := s.sys.draws + 1, links := modAt s.sys.links l fun _ => { k with keyNo := s.sys.draws } } }) ∧
  (∀ (s : State) (fn key stream die : Nat) (dies : List Nat) (reserved : List (Nat × Nat)) (p : Partition), s.sys.bootFailed = none →
    (s.ctl.parts.find? fun p => p.vf == fn) = some p → (∀ q ∈ s.ctl.parts, q.id = p.id → q = p) →
    ((spdmOf s fn).session = true → p.state = .configUnlocked → ∃ t q, exec (.lockInterfaceRequest fn) s = .next t ∧
      findPart t.ctl.parts p.id = some q ∧ q.state = .configLocked ∧ PartReset s t p q) ∧
    ((spdmOf s fn).session = true → p.state = .configLocked → p.polKey = none →
      exec (.bindPolicyKey fn key) s = .next (partSet s p.id { p with polKey := some key, lastCounter := 0 })) ∧
    (p.state = .configLocked → exec (.startInterfaceRequest fn) s = .next (partSet s p.id { p with state := .run })) ∧
    (p.state = .configLocked ∨ p.state = .run →
      ∀ i ∈ [Instr.stopInterfaceRequest fn, .ideIntegrityFailure fn, .changePartition fn p.id dies reserved],
        ∃ t q, exec i s = .next t ∧ findPart t.ctl.parts p.id = some q ∧ q.state = .error ∧ q.key = p.key ∧ Discarded s t p.id) ∧
    (p.state = .error → ∃ t q, exec (.stopInterfaceRequest fn) s = .next t ∧ findPart t.ctl.parts p.id = some q ∧
      q.state = .configUnlocked ∧ q.polKey = none ∧ q.policy = none ∧ PartReset s t p q) ∧
    (p.state = .configUnlocked → diesOk s p.id fn dies = true → exec (.changePartition fn p.id dies reserved) s =
      .next (partSet s p.id { p with vf := fn, dies := dies, reserved := reserved })) ∧
    ((spdmOf s fn).session = true → exec (.ideKeyManagement fn stream key) s =
      .next (partSet s p.id { p with ideKeys := (stream, key) :: p.ideKeys.filter fun k => k.1 != stream })) ∧
    (p.state ≠ .configUnlocked → exec (.lockInterfaceRequest fn) s = .next s) ∧
    (p.state ≠ .configLocked ∨ p.polKey ≠ none → exec (.bindPolicyKey fn key) s = .next s) ∧
    (p.state ≠ .configLocked → exec (.startInterfaceRequest fn) s = .next s) ∧
    (p.state = .configUnlocked → exec (.stopInterfaceRequest fn) s = .next s) ∧
    (p.state = .configUnlocked ∨ p.state = .error → exec (.ideIntegrityFailure fn) s = .next s) ∧
    ∃ t, exec (.scrubComplete die) s = .next t ∧ t = { s with sys := { s.sys with scrubbing := t.sys.scrubbing } } ∧
      ∀ d, d ∈ t.sys.scrubbing ↔ d ∈ s.sys.scrubbing ∧ d ≠ die)

/-! ## Errors, throttling, trips and the module reset (R402, R411, R412, R414) -/

/-- Corrected errors are only counted; an uncorrectable one is counted and halts the context that needs the data with DATA_LOSS at
the address that failed; the block that held the data leaves its cache. Throttling follows the temperature, and a trip at 110 °C or
below 48 V discards every context and stops the clocks. The module reset measures the stages of the boot in order, and stops at the
first that does not verify (R195, R330, R402, R411, R412, R414). -/
def Obligations.ServiceEvents : Prop :=
  ∀ (s : State) (die slice a b : Nat),
    (die ≤ 8 → ∃ m, exec (.correctedError die) s = .next { s with sys := { s.sys with errCorr := m } } ∧ ErrCounted s.sys.errCorr m die 1) ∧
    (die < 8 → ∃ m u, exec (.patrolScrub die a b) s = .next { s with sys := { s.sys with errCorr := m, errUncorr := u } } ∧
      ErrCounted s.sys.errCorr m die a ∧ ErrCounted s.sys.errUncorr u die b) ∧
    (die ≤ 8 → ∃ u, exec (.uncorrectableError (.noContent die)) s = .next { s with sys := { s.sys with errUncorr := u } } ∧
      ErrCounted s.sys.errUncorr u die 1) ∧
    (die < 8 → ∃ t, exec (.uncorrectableError (.control die)) s = .next t ∧ ErrCounted s.sys.errUncorr t.sys.errUncorr die 1 ∧ die ∈ t.sys.lostDies) ∧
    (∀ o p tier grp k, findOp s.mem a = some o → o.parts[b]? = some p → s.exe.groups[(opGang s o).grp]? = some grp →
      s.ctl.kernels[o.kern]? = some k → ∃ t, exec (.uncorrectableError (.loadData a b tier)) s = .next t ∧
        DataLoss s t o.part o.ctx 1 (coreDie o.core) p.va ∧ (t.mem.ops = s.mem.ops.filter fun q => q.id != o.id) ∧
        (tier = .l1 → ∀ y ∈ t.mem.l1, y.core = o.core → y.frame = paFrame p.pa →
          cellIn (paOff p.pa) < y.start ∨ y.start + y.cells.length ≤ cellIn (paOff p.pa))) ∧
    (∀ y, (s.mem.l2.find? fun y => y.isOf die a && decide (y.start ≤ b) && decide (b < y.start + y.cells.length)) = some y →
      ∃ t, exec (.uncorrectableError (.writeBack die a b)) s = .next t ∧
        DataLoss s t y.part y.ctx 5 y.die (BitVec.ofNat 64 (ownPa s (512 * y.frame + 32 * b))) ∧
        t.mem = { s.mem with l2 := s.mem.l2.filter fun x => x != y }) ∧
    (∀ c, (s.exe.copies.find? fun c => c.id == a) = some c → c.stopped = false → ∃ t,
      exec (.uncorrectableError (.copyData a b)) s = .next t ∧ DataLoss s t c.part c.ctx 2 (coreDie c.core) (BitVec.ofNat 64 (copyAddr c b)) ∧
        t.mem = s.mem ∧ ∀ x ∈ t.exe.copies, x.id = a → x.stopped = true) ∧
    (∀ c (va : Dbl), findCtx s.ctl.ctxs a b = some c → ∀ site ∈ [ErrSite.walkEntry a b va die slice, .accMemory a b va die slice],
      ∃ t, exec (.uncorrectableError site) s = .next t ∧ DataLoss s t a b 5 die va ∧ t.mem = s.mem ∧ t.exe = s.exe) ∧
    (∀ g grp k (va : Dbl), s.exe.gangs[a]? = some g → s.exe.groups[g.grp]? = some grp → s.ctl.kernels[grp.kern]? = some k → b < 8 →
      (hardEntries < (g.sl b).stack.length → ∃ t, exec (.uncorrectableError (.stackEntry a b)) s = .next t ∧
        DataLoss s t k.part k.ctx 1 (coreDie grp.core) 0 ∧ t.mem = s.mem) ∧
      ∃ t, exec (.uncorrectableError (.sliceData a b va)) s = .next t ∧ DataLoss s t k.part k.ctx 1 (coreDie grp.core) va ∧ t.mem = s.mem) ∧
    (∀ grp u k (va : Dbl), s.exe.groups[a]? = some grp → grp.tile = some u → s.ctl.kernels[grp.kern]? = some k →
      ∃ t, exec (.uncorrectableError (.streamData a va)) s = .next t ∧ DataLoss s t k.part k.ctx 3 (coreDie grp.core) va ∧
        t.exe.groups[a]? = some { grp with tile := some { u with stopped := true } } ∧ t.mem = s.mem) ∧
    (∀ p c, (s.ctl.partials.find? fun p => p.id == a) = some p → findCtx s.ctl.ctxs p.part p.ctx = some c →
      ∃ t d, exec (.uncorrectableError (.heldPartial a)) s = .next t ∧
        DataLoss s t p.part p.ctx 5 d (BitVec.ofNat 64 (elemVa (accSlot c (handleSlot p.handle.toNat)) p.elem)) ∧
        t.ctl.partials = s.ctl.partials.filter fun q => q.id != a) ∧
    (a < 110 → ∃ k, k ≤ 3 ∧ exec (.throttle a) s = .next { s with sys := { s.sys with temp := a % 256, step := k } } ∧
      (k = 0 ∨ stepHolds s.sys.step a k) ∧ ∀ j, k < j → j ≤ 3 → ¬ stepHolds s.sys.step a j) ∧
    (110 ≤ a → ∀ i ∈ [Instr.throttle a, .thermalTrip a], ∃ t, exec i s = .next t ∧ Tripped s t) ∧
    (a < 48000 → ∃ t, exec (.undervoltageTrip a) s = .next t ∧ Tripped s t) ∧
    (s.sys.kickstand = true → exec .fullModuleTrainingComplete s = .next { s with sys := { s.sys with nextFull := true } }) ∧
    ∃ t, exec .moduleReset s = .next t ∧ t.mem.bytes = s.mem.bytes ∧ t.mem.lpddr = s.mem.lpddr ∧ t.mem.host = s.mem.host ∧
      t.mem.keys = s.mem.keys ∧ t.mem.ops = [] ∧ t.mem.l2 = [] ∧ t.ctl = State.reset.ctl ∧ t.exe.gangs = [] ∧ t.exe.groups = [] ∧
      t.sys.links = List.replicate 24 {} ∧
      t.sys.tripped = s.sys.clocksStopped ∧ t.sys.clocksStopped = false ∧ t.sys.ptp = s.sys.ptp ∧ t.sys.domId = 0x1FF ∧
      t.sys.kickstand = (Config.recordKickstand (nth s.sys.flash 1 []) && !s.sys.nextFull) ∧
      ∀ n, n ≤ 11 → (∀ j < n, Config.stageSignatureOk (j + 1) (nth s.sys.flash j []) = true) →
        (n = 11 → t.sys.measures = (List.range 11).map (fun j => Config.sha512 (nth s.sys.flash j [])) ∧ t.sys.bootFailed = none) ∧
        (n < 11 → Config.stageSignatureOk (n + 1) (nth s.sys.flash n []) = false → t.sys.bootFailed = some (n + 1) ∧
          t.sys.measures = (List.range n).map (fun j => Config.sha512 (nth s.sys.flash j [])) ++ [0])

/-! ## The links (R334, R335, R410) -/

/-- A link moves through its states as R334's table gives them: UP with eight lanes, DEGRADED with four to seven; a lane that fails
leaves an UP link DEGRADED, and a DEGRADED one with fewer than four lanes DOWN. RETRIES counts replays up to 4,095, and the
sixteenth replay of one flit retrains the link; between dies it is the far die that is lost (R410). What is unacknowledged on a
link that goes down or into quarantine takes another; a link that is disabled is drained first. A STOP holds back requests and
partials and no answers (R335). An event that the table does not give in a state changes nothing. -/
def Obligations.LinkEvents : Prop :=
  (∀ (s : State) (j n inc cls flit : Nat) (stop : Bool) (l : Link), j < 24 → s.sys.links[j]? = some l →
    (l.state = .down → s.sys.kickstand = false → s.sys.bootFailed = none → LinkMoves s (.linkEnable j) j { stillLink l .training with attempts := 0 }) ∧
    (l.state = .training → 4 ≤ n → n ≤ 8 → ∃ t, exec (.linkTrained j n inc) s = .next { t with sys := { t.sys with draws := s.sys.draws + 1 } } ∧
      LinkShifted s t j { l with state := if n = 8 then .up else .degraded, lanes := n, peerInc := inc % 256, attempts := 0, replays := 0, keyNo := s.sys.draws }) ∧
    (l.state = .training → (l.attempts < 2 → LinkShifts s (.linkTrainingFail j) j { l with attempts := l.attempts + 1 }) ∧
      (2 ≤ l.attempts → LinkShifts s (.linkTrainingFail j) j { stillLink l .down with attempts := 0 })) ∧
    (l.state = .up ∨ l.state = .degraded →
      (l.state = .up ∨ 4 ≤ n → n ≤ 8 → LinkShifts s (.laneFail j n) j { l with state := .degraded, lanes := n }) ∧
      (l.state = .degraded → n < 4 → LinkShifts s (.laneFail j n) j (stillLink l .down)) ∧
      (8 < n → exec (.laneFail j n) s = .next s) ∧
      LinkMoves s (.linkRetrain j) j (stillLink l .training) ∧
      ((∀ m ∈ s.sys.flight, m.link ≠ some j) → LinkMoves s (.linkDisable j) j (stillLink l .down)) ∧
      ((∃ m ∈ s.sys.flight, m.link = some j) → exec (.linkDisable j) s = .next s) ∧
      (replayNo l.flit l.replays flit < 16 →
        LinkMoves s (.flitCrcFail ⟨j, flit⟩) j { l with retries := min 4095 (l.retries + 1), flit := flit, replays := replayNo l.flit l.replays flit }) ∧
      (16 ≤ replayNo l.flit l.replays flit →
        LinkMoves s (.flitCrcFail ⟨j, flit⟩) j (stillLink { l with retries := min 4095 (l.retries + 1), flit := flit } .training)) ∧
      (cls = 0 ∨ cls = 3 → LinkMoves s (.stopGoSignal j cls true) j { l with stops := cls :: l.stops.filter fun c => c != cls } ∧
        LinkMoves s (.stopGoSignal j cls false) j { l with stops := l.stops.filter fun c => c != cls }) ∧
      (cls ≠ 0 → cls ≠ 3 → exec (.stopGoSignal j cls stop) s = .next s)) ∧
    (l.state ≠ .down → ∀ i ∈ [Instr.linkQuarantine j, .gcmTagFail j], LinkShifts s i j (stillLink l .quarantined)) ∧
    (l.state = .quarantined → LinkMoves s (.linkRelease j) j (stillLink l .down)) ∧
    (l.state ≠ .down ∨ s.sys.kickstand = true ∨ s.sys.bootFailed.isSome = true → exec (.linkEnable j) s = .next s) ∧
    (l.state ≠ .training → exec (.linkTrainingFail j) s = .next s) ∧
    (l.state ≠ .training ∨ n < 4 ∨ 8 < n → exec (.linkTrained j n inc) s = .next s) ∧
    (l.state ≠ .up → l.state ≠ .degraded → ∀ i ∈ [Instr.laneFail j n, .linkRetrain j, .linkDisable j, .flitCrcFail ⟨j, flit⟩, .stopGoSignal j cls stop],
      exec i s = .next s) ∧
    (l.state = .down → ∀ i ∈ [Instr.linkQuarantine j, .gcmTagFail j], exec i s = .next s) ∧
    (l.state ≠ .quarantined → exec (.linkRelease j) s = .next s)) ∧
  ∀ (s : State) (j flit n : Nat), 24 ≤ j → j < 38 →
    n = ((s.sys.dieReplays.find? fun x => x.1 == j).elim 1 fun x => replayNo x.2.1 x.2.2 flit) →
    (n < 16 → exec (.flitCrcFail ⟨j, flit⟩) s =
      .next { s with sys := { s.sys with dieReplays := (j, flit, n) :: s.sys.dieReplays.filter fun x => x.1 != j } }) ∧
    (16 ≤ n → ∃ t, exec (.flitCrcFail ⟨j, flit⟩) s = .next t ∧ farDie j ∈ t.sys.lostDies)

/-! ## The host port and the pages (R4, R331, R332, R404, R408) -/

/-- The host reads and writes memory of its partition's dies while its interface runs, by a stream of its function; any other read
completes as Unsupported Request, and no other write has an effect. A read of the control page and of the management page answers
their registers, and 0 where the page has none to read. The registers take what is written to them: GUARD_NS at least 200 and
SYNC_NS, LEASE_NS a value of its range, DOM_ID nine bits and only while no interface is locked; a command register starts its command, answers
BAD_CMD, or is discarded while BUSY stands (R4, R68, R100, R331, R332). The debug window answers what the policy opens (R408). -/
def Obligations.PortEvents : Prop :=
  (∀ (s : State) (vf stream off len : Nat) (data : List Byte) (p : Partition),
    (s.ctl.parts.find? fun p => p.vf == vf && p.state == .run) = some p →
    ((∃ k ∈ p.ideKeys, k.1 = stream) →
      (barReach s p off len = true → 0 < len → txnsOn s.mem off len = [] → ∃ t, exec (.hostRead (.memory ⟨vf, stream⟩) off len) s = .next t ∧
        t.exe = s.exe ∧ t.ctl = s.ctl ∧
        t.sys = { s.sys with hostOut := s.sys.hostOut ++ [(vf, (List.range len).map fun i => homeByte s (off + i))] }) ∧
      (barReach s p off len = false ∨ len = 0 → exec (.hostRead (.memory ⟨vf, stream⟩) off len) s = .next (hostAnswer s vf [])) ∧
      exec (.hostRead (.control ⟨vf, stream⟩) off len) s = .next (hostAnswer s vf (pageRead (controlRegs p) off len)) ∧
      (barReach s p off data.length = true → data ≠ [] → boundHeader s.ctl.queues (ownPa s off) data.length = false →
        txnsOn s.mem off data.length = [] → ∃ t, exec (.hostWrite ⟨vf, stream⟩ off data) s = .next t ∧ t.exe.gangs = s.exe.gangs ∧
          t.exe.groups = s.exe.groups ∧ t.ctl = s.ctl ∧ t.sys = s.sys ∧ (AtHome s off data.length → BytesRead t off data))) ∧
    ((∀ k ∈ p.ideKeys, k.1 ≠ stream) → exec (.hostRead (.memory ⟨vf, stream⟩) off len) s = .next (hostAnswer s vf []) ∧
      exec (.hostRead (.control ⟨vf, stream⟩) off len) s = .next (hostAnswer s vf []) ∧
      exec (.hostWrite ⟨vf, stream⟩ off data) s = .next s)) ∧
  (∀ (s : State) (vf stream off len : Nat) (data : List Byte), (∀ p ∈ s.ctl.parts, p.vf ≠ vf ∨ p.state ≠ .run) →
    exec (.hostRead (.memory ⟨vf, stream⟩) off len) s = .next (hostAnswer s vf []) ∧
    exec (.hostRead (.control ⟨vf, stream⟩) off len) s = .next (hostAnswer s vf []) ∧
    exec (.hostWrite ⟨vf, stream⟩ off data) s = .next s) ∧
  (∀ (s : State) (off len j d : Nat),
    exec (.hostRead .management off len) s = .next (hostAnswer s 16 (pageRead (managementRegs s.sys) off len)) ∧
    pageRead (managementRegs s.sys) 0x1000 4 = natLe s.sys.domId 4 ∧ pageRead (managementRegs s.sys) 0x1004 4 = natLe s.sys.leaseNs 4 ∧
    pageRead (managementRegs s.sys) 0x1008 4 = natLe s.sys.guardNs 4 ∧ pageRead (managementRegs s.sys) 0x100C 4 = natLe s.sys.syncNs 4 ∧
    (∀ l, s.sys.links.length = 24 → s.sys.links[j]? = some l → pageRead (managementRegs s.sys) (0x1040 + 0x10 * j) 4 = natLe (linkSts l) 4) ∧
    (d ≤ 8 → s.sys.links.length = 24 → pageRead (managementRegs s.sys) (0x3010 + 0x10 * d) 4 =
      natLe ((smGet s.sys.errUncorr d).toNat * 2 ^ 16 + (smGet s.sys.errCorr d).toNat) 4)) ∧
  (∀ (p : Partition) (w : Nat) (h : Hew), pageRead (controlRegs p) 0 8 = natLe p.ctxwDesc.toNat 8 ∧ pageRead (controlRegs p) 8 4 = List.replicate 4 0 ∧
    pageRead (controlRegs p) 0x0C 4 = natLe p.ctxwStatus.toNat 4 ∧
    (p.hews.length = 8 → p.hews[w]? = some h → pageRead (controlRegs p) (0x400 + 0x200 * w) 8 = natLe h.queue.toNat 8 ∧
      pageRead (controlRegs p) (0x408 + 0x200 * w) 4 = List.replicate 4 0 ∧ pageRead (controlRegs p) (0x40C + 0x200 * w) 4 = natLe h.status.toNat 4 ∧
      pageRead (controlRegs p) (0x410 + 0x200 * w) 8 = natLe h.index.toNat 8 ∧
      pageRead (controlRegs p) (0x500 + 0x200 * w) 256 = smRun h.entry 0 256)) ∧
  ∀ (s : State) (part cid len off win : Nat) (data : List Byte) (v : Word) (x : Dbl) (p : Partition),
    (findPart s.ctl.parts part = some p → p.state = .run →
      exec (.debugWindowAccess part cid x len none) s = .next (hostAnswer s p.vf (debugRead s p cid x len)) ∧
      (facilOpen s.ctl.parts p.id 0 = false → debugRead s p cid x len = List.replicate len 0) ∧
      ∀ c, findCtx s.ctl.ctxs part cid = some c →
        (facilOpen s.ctl.parts part 0 = true → c.state = .debugStopped → inAreas c x.toNat data.length = true → ∃ t,
          exec (.debugWindowAccess part cid x len (some data)) s = .next t ∧ t = vaBytes s c x.toNat data ∧ t.ctl = s.ctl ∧ t.sys = s.sys ∧
            t.exe.gangs = s.exe.gangs ∧ t.exe.groups = s.exe.groups) ∧
        (facilOpen s.ctl.parts part 0 = false ∨ c.state ≠ .debugStopped → exec (.debugWindowAccess part cid x len (some data)) s = .next s)) ∧
    exec (.guardNsWrite v) s = .next { s with sys := { s.sys with guardNs := max (max v.toNat 200) s.sys.syncNs } } ∧
    (s.sys.kickstand = false → (∀ p ∈ s.ctl.parts, p.state = .configUnlocked) →
      exec (.domIdWrite v) s = .next { s with sys := { s.sys with domId := v.toNat % 512 } }) ∧
    (s.sys.kickstand = true ∨ (∃ p ∈ s.ctl.parts, p.state ≠ .configUnlocked) → exec (.domIdWrite v) s = .next s) ∧
    (2000 ≤ x.toNat % 2 ^ 32 → x.toNat % 2 ^ 32 ≤ 64000 →
      exec (.registerWrite .leaseNs x) s = .next { s with sys := { s.sys with leaseNs := x.toNat % 2 ^ 32 } }) ∧
    exec (.registerWrite .readOnly x) s = .next s ∧
    exec (.registerWrite (.ctxwDesc part) x) s = .next (runPart s part fun p => { p with ctxwDesc := x }) ∧
    exec (.registerWrite (.hewQueue part win) x) s = .next (runPart s part fun p => { p with hews := modAt p.hews win fun h => { h with queue := x } }) ∧
    (findPart s.ctl.parts part = some p → p.state = .run →
      (p.ctxwCmd ≠ none → exec (.registerWrite (.ctxwCmd part) x) s = .next s) ∧
      (p.ctxwCmd = none → ∃ t q, exec (.registerWrite (.ctxwCmd part) x) s = .next t ∧ findPart t.ctl.parts part = some q ∧
        (Commands 8 x.toNat → q = { p with ctxwCmd := some (x.toNat % 16, x.toNat / 2 ^ 16 % 64), ctxwStatus := 0x80000000 }) ∧
        (¬ Commands 8 x.toNat → q = { p with ctxwStatus := 3 })) ∧
      ∀ h, p.hews[win]? = some h → win < 8 →
        (h.cmd ≠ none → exec (.registerWrite (.hewCmd part win) x) s = .next s) ∧
        (h.cmd = none → ∃ t q, exec (.registerWrite (.hewCmd part win) x) s = .next t ∧ findPart t.ctl.parts part = some q ∧
          (Commands 5 x.toNat → q = { p with hews := modAt p.hews win fun h => { h with cmd := some (x.toNat % 16, x.toNat / 2 ^ 16 % 64), status := 0x80000000 } }) ∧
          (¬ Commands 5 x.toNat → q = { p with hews := modAt p.hews win fun h => { h with status := 9, index := 0 } }))) ∧
    ∃ f : Hew → Hew, exec (.registerWrite (.hewEntry part win off) x) s = .next (runPart s part fun p => { p with hews := modAt p.hews win f }) ∧
      ∀ h, (f h).queue = h.queue ∧ ∀ a, smGet (f h).entry a = if off + 8 ≤ 256 ∧ off ≤ a ∧ a < off + 8 then (natLe x.toNat 8).getD (a - off) 0 else smGet h.entry a

/-! ## Requests of peers, and the loss of a die or a peer (R323, R330, R333, R336, R337) -/

/-- What a request of a peer does. One that is not heard does nothing. One that fails its checks is refused. One that must wait behind
a transaction, or whose memory no channel reaches, is not served yet (R326, R330). A READ answers the bytes and the end of its lease,
and its grain's entry then holds a HORIZON; while a write of the grain waits on a horizon it answers the bytes without a lease (R337).
A WRITE and a PSTORE's packet store their bytes, an atomic answers the old value and stores the new one, an ENQ answers what its
queue answers, each when the invalidations it sends are acknowledged (R326); a partial goes on from the element's fabric port, with
its mark of a replay (R268, R273, R338). REFUSED halts the requester: PERM_FAULT at the address, ILLEGAL_OP with the handle for a
partial. A lost die is named in HOME_LOST to every context that uses it, and none of its operations is left. A lost peer is removed:
its leases, its leased and cached lines and what is on its way to it are dropped, this module's own bytes stay, and every load that
waits for it raises LINK_LOSS; it comes back with its incarnation one higher (R268, R323, R330, R333, R336). -/
def Obligations.PeersAndRemovals : Prop :=
  (∀ (s : State) (r : PeerReq), s.sys.domId < 512 →
    (¬ Heard s r → exec (.peerRequest r) s = .next s) ∧
    (Heard s r → ∃ t, exec (.peerRequest r) s = .next t ∧ match r.op with
      | .read off len =>
        (¬ MayReach s r off len false → refusedOnly s t r) ∧
        (MayReach s r off len false → homeUp s off = true → 0 < len →
          (txnsOn s.mem off len = [] → t.exe = s.exe ∧ t.ctl = s.ctl ∧
            answered s t r 1 (s.sys.ptp + s.sys.leaseNs) ((List.range len).map fun i => homeByte s (off + i)) ∧
            (GrainsOk s.mem.dir → ∃ e ∈ t.mem.dir, e.grain ≤ off ∧ off < e.grain + e.size ∧ e.horizon ≠ 0 ∧ 9 ∈ namedSet e)) ∧
          (txnsOn s.mem off len ≠ [] → (∀ x ∈ txnsOn s.mem off len, x.outstanding = [9]) → t.exe = s.exe ∧ t.ctl = s.ctl ∧ t.mem = s.mem ∧
            answered s t r 1 0 ((List.range len).map fun i => homeByte s (off + i))) ∧
          (txnsOn s.mem off len ≠ [] → (∃ x ∈ txnsOn s.mem off len, x.outstanding ≠ [9]) → t = s))
      | .write off data =>
        (¬ MayReach s r off data.length true ∨ boundHeader s.ctl.queues (ownPa s off) data.length = true → refusedOnly s t r) ∧
        (MayReach s r off data.length true → boundHeader s.ctl.queues (ownPa s off) data.length = false →
          (homeFree s off data.length = true → t.exe.gangs = s.exe.gangs ∧ t.ctl = s.ctl ∧ AnsweredOrWaits s t r 2 [] ∧
            (AtHome s off data.length → BytesRead t off data)) ∧
          (homeFree s off data.length = false → t = s))
      | .atomic op sg off size opd cmp =>
        (¬ MayReach s r off size true → refusedOnly s t r) ∧
        (MayReach s r off size true → homeFree s off size = true → t.exe.gangs = s.exe.gangs ∧ t.ctl = s.ctl ∧
          AnsweredOrWaits s t r 1 (natLe (coNat s.mem off size) size) ∧
          match rmwNew op sg size (coNat s.mem off size) (opd.toNat % 2 ^ (8 * size)) (cmp.toNat % 2 ^ (8 * size)) with
          | some v => AtHome s off size → BytesRead t off (natLe v size)
          | none => t.mem = s.mem)
      | .enq off esize _ image =>
        (¬ MayReach s r off 64 true → refusedOnly s t r) ∧
        (MayReach s r off 64 true → homeFree s off 64 = true → ∃ q a, qPerform s (.peer r.dev r.tag 1 []) (ownPa s off) true (some esize) image true = (q, a) ∧
          AnsweredOrWaits q t r 1 (natLe a.st 4 ++ natLe a.idx 4) ∧ t.exe = q.exe ∧ t.mem.bytes = q.mem.bytes ∧ t.ctl = q.ctl)
      | .scatter off bs =>
        (¬ MayReach s r off 512 true ∨ (∃ b ∈ bs, boundHeader s.ctl.queues (ownPa s (off + b.1)) 1 = true) → refusedOnly s t r) ∧
        (MayReach s r off 512 true → (∀ b ∈ bs, boundHeader s.ctl.queues (ownPa s (off + b.1)) 1 = false) → homeFree s off 512 = true →
          t.exe.gangs = s.exe.gangs ∧ t.ctl = s.ctl ∧ AnsweredOrWaits s t r 2 [] ∧
            (AtHome s off 512 → (bs.map Prod.fst).Nodup → (∀ b ∈ bs, b.1 < 512) → ∀ b ∈ bs, homeByte t (off + b.1) = b.2))
      | .partialSum part cid h elem label value type replay =>
        (findPart s.ctl.parts part = none ∨ findCtx s.ctl.ctxs part cid = none → refusedOnly s t r) ∧
        ∀ p c, findPart s.ctl.parts part = some p → findCtx s.ctl.ctxs part cid = some c →
          (∀ a, liveAcc (ownDev s.sys) c h.toNat = some a → a.flags.testBit 1 = true → type = accTy a.fmt → elem < a.ecount →
            labelOk a.nleaf (labelLevel label.toNat) (labelIndex label.toNat) = true → Listed s r p true →
            t.mem = s.mem ∧ t.sys = s.sys ∧ ∃ x, t.ctl = { s.ctl with partials := s.ctl.partials ++ [x] } ∧ x.part = part ∧ x.ctx = cid ∧
              x.handle = h ∧ x.elem = elem ∧ x.value = value ∧ x.replay = replay ∧ x.loc = .toPort (portOf s c a elem) ∧ x.tags = [(r.dev, r.tag)]) ∧
          (liveAcc (ownDev s.sys) c h.toNat = none ∨ ¬ Listed s r p true → refusedOnly s t r))) ∧
  (∀ (s : State) (op die dev : Nat),
    (∀ o p grp k, findOp s.mem op = some o → o.parts.find? (awaitsPeer s o) = some p → s.exe.groups[(opGang s o).grp]? = some grp →
      s.ctl.kernels[o.kern]? = some k → ∃ t, exec (.refused op) s = .next t ∧ t.exe = s.exe ∧
        t.sys = { s.sys with flight := s.sys.flight.filter fun m => m.tag != op } ∧
        (o.kind = .contrib → OpFaults s t o .illegalOp (BitVec.ofNat 64 p.aux)) ∧ (o.kind ≠ .contrib → OpFaults s t o .permFault p.va)) ∧
    (∀ o, findOp s.mem op = some o → o.parts.find? (awaitsPeer s o) = none → exec (.refused op) s = .next s) ∧
    (∀ c m, findOp s.mem op = none → (s.exe.copies.find? fun c => c.id == op) = some c → (s.sys.flight.find? fun m => m.tag == op) = some m →
      ∃ t r, exec (.refused op) s = .next t ∧ t.mem = s.mem ∧ t.ctl = { s.ctl with faults := s.ctl.faults ++ [r] } ∧ r.part = c.part ∧ r.ctx = c.ctx ∧
        r.code = some .permFault ∧ r.kind = 2 ∧ r.info = BitVec.ofNat 64 (copyNoteVa c m) ∧ ∀ x ∈ t.exe.copies, x.id = op → x.stopped = true) ∧
    (die ∉ s.sys.lostDies → die < 8 → ∃ t, exec (.dieLost die) s = .next t ∧ die ∈ t.sys.lostDies ∧ (∀ o ∈ t.mem.ops, coreDie o.core ≠ die) ∧
      ∃ rs, t.ctl.faults = s.ctl.faults ++ rs ∧ rs.map (fun r => (r.part, r.ctx, r.code)) =
        (s.ctl.ctxs.filter (usesDie s (listedOffsets s.mem) die)).map fun c => (c.part, c.cid, some .homeLost)) ∧
    (die ∈ s.sys.lostDies ∨ 8 ≤ die → exec (.dieLost die) s = .next s) ∧
    (dev ∉ s.sys.lostPeers → dev ≠ ownDev s.sys → dev < 384 → ∃ t, exec (.peerLost dev) s = .next t ∧
      t.sys = { s.sys with lostPeers := dev :: s.sys.lostPeers, flight := s.sys.flight.filter fun m => m.dev != dev } ∧ t.mem.bytes = s.mem.bytes ∧
      (∀ b ∈ t.mem.l2, b.expiry.isSome = true → leasedDev b.frame ≠ dev) ∧ (∀ b ∈ t.mem.l1, b.frame / 2 ^ 34 ≠ dev) ∧ (∀ l ∈ t.mem.leases, l.1 ≠ dev) ∧
      ∀ o ∈ s.mem.ops, o.cls = .l → o.kind ≠ .contrib → (∃ p ∈ o.parts, peerPart s o p = true ∧ paDev p.pa = dev ∧ p.acked = false ∧ p.got = none) →
        (s.exe.groups[(opGang s o).grp]?).isSome = true → o.kern < s.ctl.kernels.length →
        ∃ r ∈ t.ctl.faults, r.part = o.part ∧ r.ctx = o.ctx ∧ r.code = some .linkLoss ∧ r.pc = o.pc.zeroExtend 64) ∧
    (dev ∈ s.sys.lostPeers ∨ dev = ownDev s.sys ∨ 384 ≤ dev → exec (.peerLost dev) s = .next s) ∧
    (s.sys.domId ≠ 0x1FF → dev = ownDev s.sys →
      exec (.peerReadmission dev) s = .next { s with sys := { s.sys with ownInc := (s.sys.ownInc + 1) % 256 } }) ∧
    (s.sys.domId = 0x1FF ∨ dev ≠ ownDev s.sys →
      (dev ∈ s.sys.lostPeers → ∃ m, exec (.peerReadmission dev) s = .next { s with sys := { s.sys with lostPeers := s.sys.lostPeers.filter (fun d => d != dev), peerInc := m } } ∧
        ∀ d, smGet m d = if d = dev then smGet s.sys.peerInc dev + 1 else smGet s.sys.peerInc d) ∧
      (dev ∉ s.sys.lostPeers → exec (.peerReadmission dev) s = .next s)))

/-! ## Requests at the homes (R189, R191, R193, R326, R327) -/

/-- What a home does for loads and stores. FILL_COMPLETE gives each part that may take its data the bytes of its cell in L1, or of the
tier below with the core's own earlier stores over them; to a peer it sends a READ first and brings its answer at the next such event,
and a lost peer raises LINK_LOSS. HOME_READ puts the cell into the requester's slice. HOME_OWN performs the store in the slice that
then owns the grain, at once or as a transaction that waits for every other agent covered; HOME_WRITE performs it in the home's copy,
with the same wait before it is acknowledged. A store that finds its bytes in a queue's header raises PERM_FAULT (R90, R189, R191, R193,
R326, R336, R337). -/
def Obligations.HomeReadsAndWrites : Prop :=
  ∀ (s : State) (op i frame : Nat) (o : MemOp), s.mem.ok → findOp s.mem op = some o →
    (∀ p0 rest, isLoad o = true → (o.parts.filter fun p => paFrame p.pa == frame && p.got.isNone) = p0 :: rest →
      (paPeer s p0.pa = false ∨ (belowCell s o p0 p0.pa).isSome = true →
        ∃ t, exec (.fillComplete op frame) s = .next t ∧ t.exe.gangs = s.exe.gangs ∧ t.ctl = s.ctl ∧ t.sys = s.sys ∧ HomeKeeps s t ∧
          ∀ k p c, o.parts[k]? = some p → paFrame p.pa = frame → p.got = none → captureOk s.mem.ops o p = true →
            (∀ d, l1Usable s o p = true → l1Cell s.mem.l1 o.core frame (p.pa / 32 % 16) = some d →
              PartNow t.mem op k fun q => q.got = some (cellBytes d (p.pa % 32) p.len)) ∧
            (l1Usable s o p = false ∨ l1Cell s.mem.l1 o.core frame (p.pa / 32 % 16) = none → homeTurn (ownDev s.sys) s.mem.ops o p = true →
              (paLocal (ownDev s.sys) p0.pa = true → CellAtHome s p) → belowCell s o p0 p.pa = some c →
              PartNow t.mem op k fun q => q.got = some (cellBytes (overlayStores s.mem o false p.pa c) (p.pa % 32) p.len))) ∧
      (paPeer s p0.pa = true → belowCell s o p0 p0.pa = none →
        (peerGone s p0.pa = true → ∀ grp k, s.exe.groups[(opGang s o).grp]? = some grp → s.ctl.kernels[o.kern]? = some k →
          ∃ t, exec (.fillComplete op frame) s = .next t ∧ OpFaults s t o .linkLoss p0.va) ∧
        (peerGone s p0.pa = false → p0.performed = false → canSend s.sys (paDev p0.pa) (frameOf (paOff p0.pa)) 0 = true →
          homeTurn (ownDev s.sys) s.mem.ops o p0 = true → ∃ t m r, exec (.fillComplete op frame) s = .next t ∧ t.ctl = s.ctl ∧ t.exe = s.exe ∧
            t.mem.bytes = s.mem.bytes ∧ Sent s t o p0 m (.read (paOff p0.pa / 512 * 512 + 32 * r.1) (32 * (r.2 + 1 - r.1))) ∧
            r = peerRange s o p0 (cellsOf (requestParts s.mem o frame) frame) ∧
            ∀ k p, o.parts[k]? = some p → paFrame p.pa = frame → PartNow t.mem op k fun q => q.performed = true) ∧
        (peerGone s p0.pa = false → p0.performed = true → answerable s.sys o.id (some frame) = true →
          ∃ t, exec (.fillComplete op frame) s = .next t ∧ t.ctl = s.ctl ∧ t.exe.gangs = s.exe.gangs ∧ t.mem.bytes = s.mem.bytes ∧
            t.sys = { s.sys with flight := s.sys.flight.filter fun m => !m.named o.id (some frame) } ∧
            ∀ k p, o.parts[k]? = some p → paFrame p.pa = frame → p.got = none → captureOk s.mem.ops o p = true →
              homeTurn (ownDev s.sys) s.mem.ops o p = true → PartNow t.mem op k fun q => q.got.isSome = true))) ∧
    (∀ p, o.parts[i]? = some p → isLoad o = true → p.got = none → paLocal (ownDev s.sys) p.pa = true → homeUp s (paOff p.pa) = true →
      servedAtHome s o p = false → homeTurn (ownDev s.sys) s.mem.ops o p = true → CellFree s (coreDie o.core) p →
      l2Cell s.mem.l2 0 (coreDie o.core) (frameOf (paOff p.pa)) (cellIn (paOff p.pa)) = none →
      ∃ t, exec (.homeRead op i) s = .next t ∧ OnlyCopies s t ∧ HomeKeeps s t ∧
        (l2Cell t.mem.l2 0 (coreDie o.core) (frameOf (paOff p.pa)) (cellIn (paOff p.pa))).isSome = true ∧
        (CellAtHome s p → (l2Cell t.mem.l2 0 (coreDie o.core) (frameOf (paOff p.pa)) (cellIn (paOff p.pa))).map L2Cell.data =
          some (coCell s.mem (cellOf (paOff p.pa))))) ∧
    (∀ p, o.parts[i]? = some p → isStore o = true → MayPerform s o i p →
      let e := dirGrow s.mem.dir (paOff p.pa) (leafGrain p.leaf)
      let agents := liveAgents s (coveredSet e s.sys.ptp)
      let a := coreDie o.core
      (homeDie (paOff p.pa) ≠ a → leafPolicy p.leaf ≠ 3 → noticeAhead s.mem a (paOff p.pa) = false →
        (lateHeader s p = true → ∀ grp k, s.exe.groups[(opGang s o).grp]? = some grp → s.ctl.kernels[o.kern]? = some k →
          ∃ t, exec (.homeOwn op i) s = .next t ∧ OpFaults s t o .permFault p.va) ∧
        (lateHeader s p = false → agents.filter (fun b => b != a) = [] →
          ∃ t, exec (.homeOwn op i) s = .next t ∧ t.ctl = s.ctl ∧ t.sys = s.sys ∧ t.exe.gangs = s.exe.gangs ∧ HomeKeeps s t ∧
            PartNow t.mem op i (fun q => q.performed = true ∧ q.acked = true) ∧
            ∀ c, l2Cell s.mem.l2 0 a (frameOf (paOff p.pa)) (cellIn (paOff p.pa)) = c → c.isSome = true ∨ CellAtHome s p →
              l2Cell t.mem.l2 0 a (frameOf (paOff p.pa)) (cellIn (paOff p.pa)) =
                some ⟨cellPut ((c.map L2Cell.data).getD (coCell s.mem (cellOf (paOff p.pa)))) (paOff p.pa % 32) p.wdata, true⟩) ∧
        (lateHeader s p = false → agents.filter (fun b => b != a) ≠ [] →
          ∃ t, exec (.homeOwn op i) s = .next t ∧ OnlyCopies s t ∧ HomeKeeps s t ∧ TxnFor s t e op i (some a) 0 0 (agents.filter fun b => b != a))) ∧
      (homeDie (paOff p.pa) = a ∨ leafPolicy p.leaf = 3 →
        (lateHeader s p = true → ∀ grp k, s.exe.groups[(opGang s o).grp]? = some grp → s.ctl.kernels[o.kern]? = some k →
          ∃ t, exec (.homeWrite op i) s = .next t ∧ OpFaults s t o .permFault p.va) ∧
        (lateHeader s p = false → writerWaits s.mem (.part op i) = false →
          ∃ t, exec (.homeWrite op i) s = .next t ∧ t.ctl = s.ctl ∧ t.sys = s.sys ∧ t.exe.gangs = s.exe.gangs ∧
            (∀ j < p.wdata.length, memByte t.mem (paOff p.pa + j) = p.wdata.getD j 0) ∧ PartNow t.mem op i (fun q => q.performed = true) ∧
            (agents = [] → PartNow t.mem op i fun q => q.acked = true) ∧
            (agents ≠ [] → TxnFor s t e op i none (paOff p.pa) p.wdata.length agents))))

/-! ## Invalidations, acknowledgements, notices, leases and walks (R310, R317, R319, R325, R328, R329, R337, R381) -/

/-- An INVALIDATE takes the grain out of its agent, which acknowledges with its modified bytes; an acknowledgement that no notice
of its agent precedes is counted, and one of an earlier incarnation dropped; agent 9's stands for HORIZON and waits for the time; an
eviction notice takes its agent out of the entry and merges what it carries (R323, R325, R328, R329, R337, R381). A lease that ends
leaves its slice, the sweep of a home slice frees what has been reached, and a walker brings the leaf it finds to the L2 TLB and to
the cores that wait for it (R310, R317, R319, R325, R337). -/
def Obligations.InvalidationsAndLeases : Prop :=
  (∀ (s : State) (txn agent : Nat) (x : Txn), findTxn s.mem txn = some x →
    (agent ∈ x.outstanding → agent ≠ 9 → (∀ a ∈ x.acks, a.1 ≠ agent) → ∃ t, exec (.invalidate txn agent) s = .next t ∧ t.exe.gangs = s.exe.gangs ∧
      t.ctl = s.ctl ∧ t.sys = s.sys ∧ t.mem.bytes = s.mem.bytes ∧ t.mem.ops = s.mem.ops ∧
      (findTxn t.mem txn).map Txn.acks = some (x.acks ++ [(agent, (smGet s.sys.agentInc agent).toNat,
        if agent < 8 then l2Dirty s.mem.l2 agent (frameOf x.grain) (grainCells x.grain x.size) else [])]) ∧
      (agent < 8 → ∀ k ∈ grainCells x.grain x.size, l2Cell t.mem.l2 0 agent (frameOf x.grain) k = none) ∧
      (agent = 8 → x.grain ∉ t.mem.hostBuf) ∧ (agent = 10 → x.grain ∉ t.mem.hubBuf)) ∧
    (agent ∉ x.outstanding ∨ agent = 9 ∨ (∃ a ∈ x.acks, a.1 = agent) → exec (.invalidate txn agent) s = .next s) ∧
    (∀ a, (x.acks.find? fun a => a.1 == agent) = some a →
      (a.2.1 = (smGet s.sys.agentInc agent).toNat → noticeAhead s.mem agent x.grain = false →
        ∃ t, exec (.invalidateAck txn agent) s = .next t ∧ Counted s t x agent) ∧
      (a.2.1 = (smGet s.sys.agentInc agent).toNat → noticeAhead s.mem agent x.grain = true → exec (.invalidateAck txn agent) s = .next s) ∧
      (a.2.1 ≠ (smGet s.sys.agentInc agent).toNat → ∃ t, exec (.invalidateAck txn agent) s = .next t ∧
        t = { s with mem := { s.mem with txns := t.mem.txns } } ∧
        findTxn t.mem txn = some { x with acks := x.acks.filter fun b => b.1 != agent })) ∧
    ((∀ a ∈ x.acks, a.1 ≠ agent) → exec (.invalidateAck txn agent) s = .next s) ∧
    (9 ∈ x.outstanding → leaseHolds s.mem s.sys.ptp s.sys.guardNs x.grain = false → ∃ t, exec (.horizonReached txn) s = .next t ∧ Counted s t x 9) ∧
    (9 ∉ x.outstanding ∨ leaseHolds s.mem s.sys.ptp s.sys.guardNs x.grain = true → exec (.horizonReached txn) s = .next s)) ∧
  (∀ (s : State) (notice : Nat) (wback : Bool) (n : Notice), (s.mem.notices.find? fun n => n.id == notice) = some n →
    ∀ ev, ev = (if wback then Instr.homeWback notice else Instr.homeEvict notice) →
      (n.data.isSome ≠ wback → exec ev s = .next s) ∧
      (n.data.isSome = wback → n.inc ≠ (smGet s.sys.agentInc n.agent).toNat →
        exec ev s = .next { s with mem := { s.mem with notices := s.mem.notices.filter fun y => y.id != notice } }) ∧
      (n.data.isSome = wback → n.inc = (smGet s.sys.agentInc n.agent).toNat →
        ∃ t, exec ev s = .next t ∧ t.exe = s.exe ∧ t.ctl = s.ctl ∧ t.sys = s.sys ∧ t.mem.ops = s.mem.ops ∧ t.mem.l2 = s.mem.l2 ∧
          t.mem.notices = s.mem.notices.filter (fun y => y.id != notice) ∧
          ((∀ y ∈ s.mem.txns, n.grain < y.grain ∨ y.grain + y.size ≤ n.grain) →
            (∀ d, n.data = some d → (d.map Prod.fst).Nodup → ∀ b ∈ d, memByte t.mem b.1 = b.2) ∧
            ∀ e, dirFind s.mem.dir n.grain = some e → t.mem.dir = dirPut s.sys.ptp s.mem.dir (dirLeave e n.agent)))) ∧
  (∀ (s : State) (die frame slice : Nat),
    (∃ t, exec (.leaseExpiry die frame) s = .next t ∧ t.exe = s.exe ∧ t.ctl = s.ctl ∧ t.sys = s.sys ∧ t.mem.bytes = s.mem.bytes ∧ t.mem.ops = s.mem.ops ∧
      ∀ i ∈ expiredCells s die frame, l2Cell t.mem.l2 0 die frame i = none) ∧
    (∃ t, exec (.directorySweep die slice) s = .next t ∧ t.exe = s.exe ∧ t.ctl = s.ctl ∧ t.sys = s.sys ∧ t.mem = { s.mem with dir := t.mem.dir } ∧
      (∀ e ∈ t.mem.dir, dirEmpty s.sys.ptp e = false) ∧
      (∀ e ∈ t.mem.dir, homeDie e.grain = die → sliceOf (frameOf e.grain) = slice → txnBusy s.mem e.grain = false → horizonReached e.horizon s.sys.ptp = true → e.horizon = 0) ∧
      ∀ e ∈ s.mem.dir, dirEmpty s.sys.ptp e = false → homeDie e.grain ≠ die ∨ sliceOf (frameOf e.grain) ≠ slice ∨ txnBusy s.mem e.grain = true ∨ horizonReached e.horizon s.sys.ptp = false → e ∈ t.mem.dir)) ∧
  ∀ (s : State) (die part cid : Nat) (va : Dbl),
    ((∀ w ∈ s.mem.walks, w.die = die → w.part = part → w.ctx = cid → w.page ≠ va.toNat / 2 ^ 16) → exec (.pageWalk part cid die va) s = .next s) ∧
    ∀ w c p, (s.mem.walks.find? fun w => w.die == die && w.part == part && w.ctx == cid && w.page == va.toNat / 2 ^ 16) = some w →
      findCtx s.ctl.ctxs part cid = some c → findPart s.ctl.parts part = some p →
      (walkOn s.mem.walks w = false ∨ c.state = .halting ∨ c.state = .halted → exec (.pageWalk part cid die va) s = .next s) ∧
      (walkOn s.mem.walks w = true → c.state ≠ .halting → c.state ≠ .halted →
        ∀ r, walkFrom s.mem (fun l => (upperFind s.mem.upper die part cid l va.toNat).map UpperEntry.entry) s.sys.domId (ownDev s.sys) p.dies va.toNat 4 c.desc.ptRoot = r →
          (∀ f, r = .error f → exec (.pageWalk part cid die va) s = .next { s with mem := { s.mem with walks := s.mem.walks.filter fun x => x != w } }) ∧
          ∀ leaf sh, r = .ok (leaf, sh) → ∃ t, exec (.pageWalk part cid die va) s = .next t ∧
            t = { s with mem := { s.mem with walks := s.mem.walks.filter (fun x => x != w), upper := t.mem.upper, tlb := t.mem.tlb } } ∧
            ∀ at_, at_ = l2Tlb die cid va.toNat ∨ (∃ k ∈ w.cores, at_ = coreAt k) → tlbAt t.mem.tlb at_ part cid va.toNat =
              some { place := at_, part := part, ctx := cid, page := va.toNat / 2 ^ sh, size := sh, leaf := BitVec.ofNat 64 leaf })

/-! ## Atomics and queue operations at their homes (R94 to R96, R221 to R223, R336 to R338) -/

/-- RMW_AT_HOME. The lanes of one issue that name one address are performed one after another, and memory holds what the last
leaves; an operation alone returns the value it found, and is acknowledged when no agent's acknowledgement is awaited. Host memory
without atomics raises PERM_FAULT; to a peer the packet goes out with its operation and operands, and a lost peer raises LINK_LOSS
where the operation returns a value. Until its order allows it, an operation waits (R221, R223, R326, R331, R336, R338).
QUEUE_OP_AT_HOME in one lane: the answer of R94 comes back, and a CLOSED answer to a queue that is not there changes nothing else; an
ENQ of another device's queue goes out with its order and image, and a DEQ of another device answers CLOSED (R94 to R96). -/
def Obligations.HomeAtomicsAndQueues : Prop :=
  (∀ (s : State) (op i : Nat) (o : MemOp) (p : MemPart) (at_ : AtOp) (sg ret : Bool), s.mem.ok → s.sys.domId < 512 →
    findOp s.mem op = some o → o.kind = .rmw at_ sg ret → o.parts[i]? = some p →
    let own := ownDev s.sys
    let same := rmwSame s.mem o.issue p.pa
    (p.performed = true ∨ rmwReady s o p = false → exec (.rmwAtHome op i) s = .next s) ∧
    (p.performed = false → rmwReady s o p = true →
      (paLocal own p.pa = true ∨ paHost own p.pa = true → p.len = 4 ∨ p.len = 8 → p.pa % p.len = 0 →
        (paLocal own p.pa = true → AtHome s (paOff p.pa) p.len) → (paHost own p.pa = true → Config.hostAtomicSupported s.exe.fresh = true) →
        (∀ x ∈ same, ∃ r, x.1.parts[x.2]? = some r ∧ r.pa = p.pa ∧ r.len = p.len ∧ rmwReady s x.1 r = true ∧ ∃ g b, x.1.kind = .rmw at_ g b) →
        ∃ t, exec (.rmwAtHome op i) s = .next t ∧ t.ctl = s.ctl ∧ t.sys = s.sys ∧ t.exe.gangs = s.exe.gangs ∧
          numAt t p.pa p.len = rmwAfter at_ p.len (numAt s p.pa p.len) same ∧
          (same = [(o, i)] → PartNow t.mem op i fun q => q.performed = true ∧ q.got = some (natLe (numAt s p.pa p.len) p.len) ∧
            (writerWaits t.mem (.part op i) = false → q.acked = true))) ∧
      (paHost own p.pa = true → Config.hostAtomicSupported s.exe.fresh = false →
        ∀ grp k, s.exe.groups[(opGang s o).grp]? = some grp → s.ctl.kernels[o.kern]? = some k →
          ∃ t, exec (.rmwAtHome op i) s = .next t ∧ OpFaults s t o .permFault p.va) ∧
      (paLocal own p.pa = false → paHost own p.pa = false →
        (paDev p.pa ∉ s.sys.lostPeers → canSend s.sys (paDev p.pa) (frameOf (paOff p.pa)) 0 = true → ∃ t m, exec (.rmwAtHome op i) s = .next t ∧
          t.ctl = s.ctl ∧ t.exe = s.exe ∧ t.mem.bytes = s.mem.bytes ∧
          Sent s t o p m (.atomic at_ sg (paOff p.pa) p.len (BitVec.ofNat 64 (leNat p.wdata)) p.cmp) ∧ m.note = i ∧
          PartNow t.mem op i fun q => q.performed = true ∧ q.got = p.got) ∧
        (paDev p.pa ∉ s.sys.lostPeers → canSend s.sys (paDev p.pa) (frameOf (paOff p.pa)) 0 = false → exec (.rmwAtHome op i) s = .next s) ∧
        (paDev p.pa ∈ s.sys.lostPeers → (ret = true → ∀ grp k, s.exe.groups[(opGang s o).grp]? = some grp → s.ctl.kernels[o.kern]? = some k →
            ∃ t, exec (.rmwAtHome op i) s = .next t ∧ OpFaults s t o .linkLoss p.va) ∧
          (ret = false → ∃ t, exec (.rmwAtHome op i) s = .next t ∧ (PartNow t.mem op i fun q => q.performed = true ∧ q.acked = true) ∧
            t.ctl = { s.ctl with kernels := modAt s.ctl.kernels o.kern fun k => { k with linkLoss := true } }))))) ∧
  (∀ (s : State) (op i : Nat) (o : MemOp) (p : MemPart) (enq : Bool), findOp s.mem op = some o → o.parts[i]? = some p →
    (∃ b, o.kind = if enq then .enq b else .deq b) → p.performed = false → rmwSame s.mem o.issue p.pa = [(o, i)] → rmwReady s o p = true →
    (paLocal (ownDev s.sys) p.pa = true ∨ paHost (ownDev s.sys) p.pa = true →
      (∀ q, queueAt s.ctl.queues p.pa = some q → ∃ c, findCtx s.ctl.ctxs q.part q.ctx = some c ∧
        ∀ k, ∃ x, xlate s 8 c (qSlot q k) (if enq then needW else needR) = .ok x) →
      ∃ t, exec (.queueOpAtHome op i) s = .next t ∧ t.exe.gangs = s.exe.gangs ∧
        (PartNow t.mem op i fun q => q.performed = true ∧ (writerWaits t.mem (.part op i) = false → q.acked = true) ∧
          q.got = some (natLe (queueAnswer s p.pa p.aux2 enq).st 4 ++ natLe (queueAnswer s p.pa p.aux2 enq).idx 4) ∧ q.wdata = (queueAnswer s p.pa p.aux2 enq).ent) ∧
        (queueAt s.ctl.queues p.pa = none → t.ctl = s.ctl ∧ t.sys = s.sys ∧ t.mem.bytes = s.mem.bytes)) ∧
    (paLocal (ownDev s.sys) p.pa = false → paHost (ownDev s.sys) p.pa = false → paDev p.pa ∉ s.sys.lostPeers →
      (enq = true → canSend s.sys (paDev p.pa) (frameOf (paOff p.pa)) 0 = true → ∃ t m, exec (.queueOpAtHome op i) s = .next t ∧ t.ctl = s.ctl ∧ t.exe = s.exe ∧
        Sent s t o p m (.enq (paOff p.pa) p.aux2 o.order p.wdata) ∧ m.note = i ∧ PartNow t.mem op i fun q => q.performed = true ∧ q.got = p.got) ∧
      (enq = true → canSend s.sys (paDev p.pa) (frameOf (paOff p.pa)) 0 = false → exec (.queueOpAtHome op i) s = .next s) ∧
      (enq = false → ∃ t, exec (.queueOpAtHome op i) s = .next t ∧ t.ctl = s.ctl ∧ t.exe = s.exe ∧ t.sys = s.sys ∧
        PartNow t.mem op i fun q => q.performed = true ∧ q.acked = true ∧ q.got = some (natLe 2 4 ++ natLe 0 4))))

/-! ## The ends of operations (R51, R52, R355, R356) -/

/-- LOAD_COMPLETE, STORE_ACK and FIT_ANSWER end an operation when everything it asked for has come back, and leave it otherwise:
its results stand in its registers, and the counter of its class falls. What was sent to a peer is answered by the event itself,
where its link carries traffic. The results of an operation of a killed group are dropped (R51, R52, R118, R158, R197, R198, R223,
R338, R355, R356). -/
def Obligations.OperationsEnd : Prop :=
  ∀ (s : State) (op : Nat) (o : MemOp) (g : Gang), findOp s.mem op = some o → s.exe.gangs[o.gang]? = some g → o.dst + o.nreg ≤ 256 →
    (∀ p ∈ o.parts, p.lane < 32) → (∀ q ∈ s.mem.ops, q.id = op → q = o) →
    (o.cls = .l → o.killed = true → ∃ t, exec (.loadComplete op) s = .next t ∧ Ends s t o g (g.modSl o.slice fun x => clsSub x .l)) ∧
    (o.cls = .l → o.killed = false →
      (∀ a b c, o.kind = .load ∨ o.kind = .enq a ∨ o.kind = .deq a ∨ o.kind = .rmw b c true → mayLand s o = true →
        ∃ t g', exec (.loadComplete op) s = .next t ∧ Ends s t o g g' ∧ Returned o g g') ∧
      (∀ a b c, o.kind = .enq a ∨ o.kind = .rmw b c true →
        (∀ p ∈ o.parts, (p.got.isSome = true ∧ p.acked = true) ∨ (p.got = none ∧ paPeer s p.pa = true ∧ p.performed = true)) →
        answerable s.sys op none = true → hostReadsDone (ownDev s.sys) s.mem.ops o = true →
        ∃ t g', exec (.loadComplete op) s = .next t ∧ Ends s t o g g') ∧
      (∀ b, o.kind = .load ∨ o.kind = .deq b → mayLand s o = false → exec (.loadComplete op) s = .next s) ∧
      (o.kind = .ldl → localOk s o = true → ∃ t g', exec (.loadComplete op) s = .next t ∧ Ends s t o g g') ∧
      (∀ b c, o.kind = .atl b c → atlReady s o = true → ∃ t g', exec (.loadComplete op) s = .next t ∧ Ends s t o g g') ∧
      (o.kind = .accarm → (∃ p r, o.parts = p :: r ∧ p.got = none) → (findCtx s.ctl.ctxs o.part o.ctx).isSome = true → armReady s o = true →
        ∃ t g', exec (.loadComplete op) s = .next t ∧ Ends s t o g g') ∧
      (∀ r n, o.kind = .accq ∨ o.kind = .axq r n ∨ o.kind = .lockb → ∃ t g', exec (.loadComplete op) s = .next t ∧ Ends s t o g g')) ∧
    (o.kind = .sload → o.killed = false → mayLand s o = true → ∃ t g', exec (.loadComplete op) s = .next t ∧ Ends s t o g g' ∧
      ∀ r, smGet g'.sregs r = if r = o.dst then BitVec.ofNat 32 (leNat (laneBytes o ((opLanes o).headD 0))) else smGet g.sregs r) ∧
    (o.cls ≠ .l → o.kind ≠ .sload → exec (.loadComplete op) s = .next s) ∧
    (o.cls ≠ .s → exec (.storeAck op) s = .next s) ∧
    (o.cls = .s →
      (∀ a b c, o.kind = .store ∨ o.kind = .contrib ∨ o.kind = .rmw a b c → (∀ p ∈ o.parts, p.performed = true ∧ p.acked = true) →
        ∃ t g', exec (.storeAck op) s = .next t ∧ Ends s t o g g' ∧ g'.regs = g.regs) ∧
      (∀ a b c, o.kind = .store ∨ o.kind = .rmw a b c → (∀ p ∈ o.parts, p.performed = true ∧ (p.acked = true ∨ paPeer s p.pa = true)) →
        answerable s.sys op none = true → ∃ t g', exec (.storeAck op) s = .next t ∧ Ends s t o g g' ∧ g'.regs = g.regs) ∧
      (o.kind = .pstore → (∀ p ∈ o.parts, p.performed = true) → answerable s.sys o.issue none = true →
        ∃ t g', exec (.storeAck op) s = .next t ∧ Ends s t o g g' ∧ g'.regs = g.regs) ∧
      (o.kind = .stl → localOk s o = true → lowerSlicesDone s o = true → ∃ t g', exec (.storeAck op) s = .next t ∧ Ends s t o g g' ∧ g'.regs = g.regs) ∧
      (∀ b c, o.kind = .atl b c → atlReady s o = true → ∃ t g', exec (.storeAck op) s = .next t ∧ Ends s t o g g' ∧ g'.regs = g.regs) ∧
      (o.kind = .unlockb → ∃ t g', exec (.storeAck op) s = .next t ∧ Ends s t o g g' ∧ g'.regs = g.regs) ∧
      (o.kind = .flush → (∃ p ∈ o.parts, p.aux = 1) → flushReady s o = true → ∃ t g', exec (.storeAck op) s = .next t ∧ Ends s t o g g' ∧ g'.regs = g.regs) ∧
      (∀ r, o.kind = .axinv r → o.parts ≠ [] → ∃ t g', exec (.storeAck op) s = .next t ∧ Ends s t o g g' ∧ g'.regs = g.regs) ∧
      (o.kind = .accdrop → (∀ p ∈ o.parts, ∀ c, findCtx s.ctl.ctxs o.part o.ctx = some c → dropDone c p.aux = true) →
        ∃ t g', exec (.storeAck op) s = .next t ∧ Ends s t o g g' ∧ g'.regs = g.regs)) ∧
    (∀ r, o.kind = .axb r → o.killed = false → ∃ t g', exec (.fitAnswer op) s = .next t ∧ Ends s t o g g' ∧ Returned o g g') ∧
    (∀ r, o.kind = .axe r → samplesLeft s o = false → ∃ t g', exec (.fitAnswer op) s = .next t ∧ Ends s t o g g' ∧ g'.regs = g.regs) ∧
    (∀ r, o.kind = .axe r → samplesLeft s o = true → exec (.fitAnswer op) s = .next s)

/-! ## The control window and the halt line (R68 to R75, R88) -/

/-- The eight commands of the control window. BUILD latches a valid descriptor of a FREE context; ENABLE, PARK and RESUME move it
as R70 gives; DSTOP, where the policy opens debug, and HALT raise the halt line; RETIRE drops its locks, partials, accumulator
table, translations and fetched words and unbinds its queues; RELEASE frees the number. A command refused answers BAD_DESC,
BAD_STATE or DENIED and does nothing else; a partition that is not in RUN has no window (R68 to R70, R75, R88, R404). -/
def Obligations.ContextCommands : Prop :=
  ∀ (s : State) (part cid : Nat),
    ((∀ p, findPart s.ctl.parts part = some p → p.state ≠ .run ∨ 64 ≤ cid) →
      ∀ i ∈ [Instr.ctxBuild part cid, .ctxEnable part cid, .ctxPark part cid, .ctxResume part cid, .ctxDstop part cid,
        .ctxHalt part cid, .ctxRetire part cid, .ctxRelease part cid], exec i s = .next s) ∧
    ∀ p, findPart s.ctl.parts part = some p → p.state = .run → cid < 64 →
      (∀ x ∈ [(1, Instr.ctxBuild part cid), (2, .ctxEnable part cid), (3, .ctxPark part cid), (4, .ctxResume part cid),
          (5, .ctxDstop part cid), (6, .ctxHalt part cid), (7, .ctxRetire part cid), (8, .ctxRelease part cid)],
        (¬ WindowTakes p x.1 cid → exec x.2 s = .next s) ∧
        (WindowTakes p x.1 cid → 2 ≤ x.1 → x.1 ≠ 5 → findCtx s.ctl.ctxs part cid = none → exec x.2 s = .next (cwRefused s part 2))) ∧
      (WindowTakes p 1 cid → findCtx s.ctl.ctxs part cid = none →
        (DescGood s p cid p.ctxwDesc.toNat → ∃ t d, exec (.ctxBuild part cid) s = .next t ∧ Commanded s t part cid ∧ t.ctl.kernels = s.ctl.kernels ∧
          DescRead s p.ctxwDesc.toNat d ∧ findCtx t.ctl.ctxs part cid = some { part := part, cid := cid, state := .built, desc := d }) ∧
        (¬ DescGood s p cid p.ctxwDesc.toNat → exec (.ctxBuild part cid) s = .next (cwRefused s part 1))) ∧
      (WindowTakes p 5 cid → facilOpen s.ctl.parts part 0 = false → exec (.ctxDstop part cid) s = .next (cwRefused s part 4)) ∧
      ∀ c, findCtx s.ctl.ctxs part cid = some c →
        (WindowTakes p 1 cid → exec (.ctxBuild part cid) s = .next (cwRefused s part 1)) ∧
        (WindowTakes p 2 cid →
          (c.state = .built → ∃ t, exec (.ctxEnable part cid) s = .next t ∧ Commanded s t part cid ∧ t.ctl.kernels = s.ctl.kernels ∧
            CtxNow t part cid fun x => x = { c with state := .runnable }) ∧
          (c.state ≠ .built → exec (.ctxEnable part cid) s = .next (cwRefused s part 2))) ∧
        (WindowTakes p 3 cid →
          (c.state = .running ∨ c.state = .parked → ∃ t, exec (.ctxPark part cid) s = .next t ∧ Commanded s t part cid ∧
            t.ctl.kernels = s.ctl.kernels ∧ (CtxNow t part cid fun x => x.state = .parked ∧ x.parkCmd = true) ∧
            GroupsMove s t part cid parkingOf) ∧
          (c.state ≠ .running → c.state ≠ .parked → exec (.ctxPark part cid) s = .next (cwRefused s part 2))) ∧
        (WindowTakes p 4 cid →
          (c.state = .parked → ∃ t, exec (.ctxResume part cid) s = .next t ∧ Commanded s t part cid ∧ OnlyIds s t ∧
            t.ctl.kernels = s.ctl.kernels ∧ CtxNow t part cid fun x => x = { c with state := .running, parkCmd := false }) ∧
          (c.state = .debugStopped → ∃ t, exec (.ctxResume part cid) s = .next t ∧ Commanded s t part cid ∧ OnlyIds s t ∧
            t.ctl.kernels = s.ctl.kernels ∧
            CtxNow t part cid fun x => x = { c with state := .running, parkCmd := false, debugHalt := false, primary := none, recs := [] }) ∧
          (c.state ≠ .parked → c.state ≠ .debugStopped → exec (.ctxResume part cid) s = .next (cwRefused s part 2))) ∧
        (WindowTakes p 5 cid → facilOpen s.ctl.parts part 0 = true →
          (c.state = .runnable ∨ c.state = .running ∨ c.state = .parked → ∃ t, exec (.ctxDstop part cid) s = .next t ∧
            Commanded s t part cid ∧ t.ctl.kernels = s.ctl.kernels ∧ GroupsMove s t part cid parkingOf ∧
            CtxNow t part cid fun x => x.state = .halting ∧ x.debugHalt = true ∧ x.parkCmd = false ∧
              x.primary.bind FaultRec.code = some .debugStop) ∧
          (c.state ≠ .runnable → c.state ≠ .running → c.state ≠ .parked → exec (.ctxDstop part cid) s = .next (cwRefused s part 2))) ∧
        (WindowTakes p 6 cid →
          (c.state = .runnable ∨ c.state = .running ∨ c.state = .parked ∨ c.state = .debugStopped →
            ∃ t, exec (.ctxHalt part cid) s = .next t ∧ Commanded s t part cid ∧ GroupsMove s t part cid killedOf ∧
              KernelsStopped s t part cid 0x10 ∧
              CtxNow t part cid fun x => x.state = .halting ∧ x.debugHalt = false ∧ x.parkCmd = false ∧
                ∃ r, x.primary = some r ∧ r ∈ x.recs ∧ r.code = some .haltRequest ∧ r.kind = 8 ∧ r.die = 8 ∧ r.unit = 0 ∧
                  r.prim = true ∧ r.exact = false ∧ r.info = 0x100) ∧
          (c.state ≠ .runnable → c.state ≠ .running → c.state ≠ .parked → c.state ≠ .debugStopped →
            exec (.ctxHalt part cid) s = .next (cwRefused s part 2))) ∧
        (WindowTakes p 7 cid →
          (c.state = .built ∨ c.state = .halted ∨ (c.state = .runnable ∧ NoneInFlight s part cid) →
            ∃ t, exec (.ctxRetire part cid) s = .next t ∧ Commanded s t part cid ∧ t.ctl.kernels = s.ctl.kernels ∧
              (CtxNow t part cid fun x => x.state = .retired ∧ x.accs = [] ∧ x.lockUsed = 0 ∧ x.saves = [] ∧ x.held = []) ∧
              (∀ q ∈ t.ctl.queues, q.part = part → q.ctx = cid → q.state = .unbound) ∧
              (∀ x ∈ t.ctl.partials, ¬ (x.part = part ∧ x.ctx = cid)) ∧ (∀ x ∈ t.mem.tlb, ¬ (x.part = part ∧ x.ctx = cid)) ∧
              (∀ x ∈ t.mem.upper, ¬ (x.part = part ∧ x.ctx = cid)) ∧ (∀ x ∈ t.mem.walks, ¬ (x.part = part ∧ x.ctx = cid)) ∧
              (∀ x ∈ t.mem.icache, ¬ (x.part = part ∧ x.ctx = cid)) ∧ ∀ g ∈ t.exe.groups, ofCtx t part cid g = true → g.pins = []) ∧
          (c.state ≠ .built → c.state ≠ .halted → (c.state ≠ .runnable ∨ ¬ NoneInFlight s part cid) →
            exec (.ctxRetire part cid) s = .next (cwRefused s part 2))) ∧
        (WindowTakes p 8 cid →
          (c.state = .retired → ∃ t, exec (.ctxRelease part cid) s = .next t ∧ Commanded s t part cid ∧ t.ctl.kernels = s.ctl.kernels ∧
            t.exe = s.exe ∧ t.mem = s.mem ∧ findCtx t.ctl.ctxs part cid = none) ∧
          (c.state ≠ .retired → exec (.ctxRelease part cid) s = .next (cwRefused s part 2)))

/-! ## The host enqueue windows (R91, R93, R94, R100) -/

/-- The five commands of an enqueue window. ENQ and DEQ perform R94: ENQ writes the entry image into the slot at TAIL and adds one
to TAIL, a full queue counts in FULL_COUNT, DEQ returns the entry in HEW_ENTRY and adds one to HEAD, and a slot that cannot be
reached puts the queue in ERROR. BIND latches a valid header; DRAIN and RESET move the queue as R91 gives. A context that is FREE
or RETIRED answers 8, a header address that is misaligned or does not translate 12, and a command for which BUSY stands for another
is not taken. The hub die holds the header it reads, agent 10 of its grain (R90, R91, R93, R94, R100, R322). -/
def Obligations.EnqueueWindows : Prop :=
  ∀ (s : State) (part w cid : Nat),
    ((∀ p, findPart s.ctl.parts part = some p → p.state ≠ .run ∨ 8 ≤ w) →
      ∀ i ∈ [Instr.hewEnq part w cid, .hewDeq part w cid, .hewBind part w cid, .hewDrain part w cid, .hewReset part w cid], exec i s = .next s) ∧
    ∀ p, findPart s.ctl.parts part = some p → p.state = .run → w < 8 → p.hews.length = 8 →
      let va := (nth p.hews w {}).queue.toNat
      let takes := fun n => HewTakes p w n cid
      (∀ x ∈ [(1, Instr.hewEnq part w cid), (2, .hewDeq part w cid), (3, .hewBind part w cid), (4, .hewDrain part w cid), (5, .hewReset part w cid)],
        (¬ takes x.1 → exec x.2 s = .next s) ∧
        (takes x.1 → x.1 ≠ 3 → (∀ c, findCtx s.ctl.ctxs part cid = some c → c.state = .free ∨ c.state = .retired) →
          exec x.2 s = .next (hewRefused s part w 8 0)) ∧
        (takes x.1 → x.1 ≠ 3 → ∀ c, findCtx s.ctl.ctxs part cid = some c → c.state ≠ .free → c.state ≠ .retired →
          va % 64 ≠ 0 ∨ (∃ f, xlate s 8 c va needRW = .error f) → exec x.2 s = .next (hewRefused s part w 12 0))) ∧
      (takes 3 → findCtx s.ctl.ctxs part cid = none → exec (.hewBind part w cid) s = .next (hewRefused s part w 10 0)) ∧
      ∀ c, findCtx s.ctl.ctxs part cid = some c →
        (takes 3 →
          (va % 64 ≠ 0 ∨ ¬ MayBind c ∨ (∃ f, xlate s 8 c va needW = .error f) → exec (.hewBind part w cid) s = .next (hewRefused s part w 10 0)) ∧
          ∀ x, va % 64 = 0 → MayBind c → xlate s 8 c va needW = .ok x →
            ((queueAt s.ctl.queues x.pa).isSome = true → exec (.hewBind part w cid) s = .next (hewRefused s part w 8 0)) ∧
            (queueAt s.ctl.queues x.pa = none →
              (¬ HeaderGood s c x.pa → exec (.hewBind part w cid) s = .next (hewRefused s part w 10 0)) ∧
              (HeaderGood s c x.pa → numAt s (x.pa + 0x1A) 1 = 0 → 256 ≤ (s.ctl.queues.filter fun y => y.launch && y.part == part).length →
                exec (.hewBind part w cid) s = .next (hewRefused s part w 11 0)) ∧
              (HeaderGood s c x.pa → (numAt s (x.pa + 0x1A) 1 = 0 → (s.ctl.queues.filter fun y => y.launch && y.part == part).length < 256) →
                (∀ q ∈ s.ctl.queues, q.id ≠ s.exe.nextId) →
                ∃ t q, exec (.hewBind part w cid) s = .next t ∧ HewAnswer t part w 0 0 ∧ Windowed s t ∧ q ∈ t.ctl.queues ∧ Latched s c va x.pa q ∧
                  (q.state = .bound ∨ q.state = .active)))) ∧
        (c.state ≠ .free → c.state ≠ .retired → ∀ x, va % 64 = 0 → xlate s 8 c va needRW = .ok x →
          let u := hubHold s x.leaf x.pa
          (u = { s with mem := u.mem } ∧ u.mem.ops = s.mem.ops ∧ HomeKeeps s u) ∧
          (queueAt s.ctl.queues x.pa = none →
            (takes 4 → exec (.hewDrain part w cid) s = .next (hewRefused u part w 8 0)) ∧
            (takes 5 → exec (.hewReset part w cid) s = .next (hewRefused u part w 8 0)) ∧
            (takes 1 → exec (.hewEnq part w cid) s = .next (hewRefused u part w 2 0))) ∧
          ∀ q, queueAt s.ctl.queues x.pa = some q →
            (takes 4 →
              (q.state = .bound ∨ q.state = .active ∨ q.state = .stalled → ∃ t, exec (.hewDrain part w cid) s = .next t ∧ HewAnswer t part w 0 0 ∧
                Windowed s t ∧ ∀ y ∈ t.ctl.queues, y.id = q.id → y.state = .draining) ∧
              (q.state ≠ .bound → q.state ≠ .active → q.state ≠ .stalled → exec (.hewDrain part w cid) s = .next (hewRefused u part w 8 0))) ∧
            (takes 5 →
              (q.state = .error → (∀ o, findCtx s.ctl.ctxs q.part q.ctx = some o → o.state ≠ .halting) → ∃ t, exec (.hewReset part w cid) s = .next t ∧
                HewAnswer t part w 0 0 ∧ Windowed s t ∧ ∀ y ∈ t.ctl.queues, y.id ≠ q.id) ∧
              (q.state ≠ .error ∨ (∃ o, findCtx s.ctl.ctxs q.part q.ctx = some o ∧ o.state = .halting) →
                exec (.hewReset part w cid) s = .next (hewRefused u part w 8 0))) ∧
            (takes 1 → q.esize ≤ 3 → ∀ o, findCtx s.ctl.ctxs q.part q.ctx = some o →
              let ans := windowAnswer u x.pa true
              ((∃ f, xlate u 8 o (qSlot q (numAt u (q.pa + 8) 8)) needW = .error f) → ans.st = 0 → ∃ t, exec (.hewEnq part w cid) s = .next t ∧
                HewAnswer t part w 2 0 ∧ Windowed s t ∧ ∀ y ∈ t.ctl.queues, y.id = q.id → y.state = .error) ∧
              (ans.st = 2 → exec (.hewEnq part w cid) s = .next (hewRefused u part w 2 0)) ∧
              (ans.st = 1 → GrainsOk u.mem.dir → paLocal (ownDev s.sys) q.pa = true → q.pa % 64 = 0 → AtHome u (paOff q.pa) 64 →
                ∃ t, exec (.hewEnq part w cid) s = .next t ∧ HewAnswer t part w 1 ans.idx ∧ Windowed s t ∧ t.ctl.queues = s.ctl.queues ∧
                  numAt t (q.pa + 0x20) 8 = (numAt u (q.pa + 0x20) 8 + 1) % 2 ^ 64) ∧
              (∀ y, xlate u 8 o (qSlot q (numAt u (q.pa + 8) 8)) needW = .ok y → ans.st = 0 → GrainsOk u.mem.dir →
                paLocal (ownDev s.sys) q.pa = true → paLocal (ownDev s.sys) y.pa = true → OffHeaders s y.pa (qEsize q) →
                AtHome u (paOff q.pa) 64 → AtHome u (paOff y.pa) (qEsize q) →
                ∃ t, exec (.hewEnq part w cid) s = .next t ∧ HewAnswer t part w 0 ans.idx ∧ Windowed s t ∧
                  numAt t (q.pa + 8) 8 = (numAt u (q.pa + 8) 8 + 1) % 2 ^ 64 ∧
                  ∀ j < qEsize q, homeByte t (paOff y.pa + j) = smGet (nth p.hews w {}).entry j)) ∧
            (takes 2 → q.esize ≤ 3 → ∀ o, findCtx s.ctl.ctxs q.part q.ctx = some o →
              let ans := windowAnswer u x.pa false
              ((∃ f, xlate u 8 o (qSlot q (numAt u q.pa 8)) needR = .error f) → q.state ≠ .error → q.launch = false →
                numAt u (q.pa + 8) 8 ≠ numAt u q.pa 8 → ∃ t, exec (.hewDeq part w cid) s = .next t ∧ HewAnswer t part w 2 0 ∧ Windowed s t ∧
                  ∀ y ∈ t.ctl.queues, y.id = q.id → y.state = .error) ∧
              (ans.st = 3 ∨ ans.st = 4 ∨ q.state = .error → ∃ t, exec (.hewDeq part w cid) s = .next t ∧ HewAnswer t part w ans.st ans.idx ∧
                Windowed s t ∧ t.mem = u.mem ∧ t.ctl.queues = s.ctl.queues) ∧
              (∀ y, xlate u 8 o (qSlot q (numAt u q.pa 8)) needR = .ok y → ans.st = 0 → GrainsOk u.mem.dir → paLocal (ownDev s.sys) q.pa = true →
                (∀ k ∈ s.ctl.queues, k.pa % 64 = 0) → AtHome u (paOff q.pa) 64 →
                ∃ t, exec (.hewDeq part w cid) s = .next t ∧ HewAnswer t part w 0 ans.idx ∧ Windowed s t ∧
                  numAt t q.pa 8 = (numAt u q.pa 8 + 1) % 2 ^ 64 ∧ ∃ p', findPart t.ctl.parts part = some p' ∧ ∀ j < qEsize q,
                    smGet (nth p'.hews w {}).entry j = spaceByte u (y.pa + j))))

/-! ## Faults at the hub, the end of a halt, the watchdog (R70, R72 to R76, R112) -/

/-- FAULT_AT_HUB, CONTEXT_STOPPED and WATCHDOG. The faults that arrive together halt a RUNNABLE, RUNNING or PARKED context, the
first in rank as primary; a fatal one ends the context's groups and kernels there and then, the kernels with status HALTED and the
primary fault's code, and so it does in DEBUG_STOPPED, where a DEBUG_STOP changes nothing. Faults are only recorded while the context
is HALTING or HALTED, and discarded while it is FREE, BUILT or RETIRED. When every engine has stopped and no copy stands inside a beat, a
fatal halt ends in HALTED, where the completions are made and the context's queues enter ERROR; a debug stop ends in DEBUG_STOPPED
once its groups have parked. A kernel that has run longer than WDOG_MS raises WATCHDOG. Last, the layout of a stop record (R70,
R72 to R74, R76, R88, R91, R112, R113). Which kind of halt a DEBUG_STOP and a fatal fault of one cycle make is the model's choice
(log 128). -/
def Obligations.HaltsAndStops : Prop :=
  (∀ (s : State) (part cid : Nat),
    ((findCtx s.ctl.ctxs part cid = none ∨ (∃ c, findCtx s.ctl.ctxs part cid = some c ∧ (c.state = .free ∨ c.state = .built ∨ c.state = .retired))) →
      exec (.faultAtHub part cid) s = .next { s with ctl := { s.ctl with faults := faultsLeft s part cid } }) ∧
    ∀ c f, findCtx s.ctl.ctxs part cid = some c → (∀ g ∈ arrived s part cid, g.kind < 16 ∧ g.unit < 256 ∧ g.place < 256 ∧ g.die ≤ 8) →
      (c.state = .runnable ∨ c.state = .running ∨ c.state = .parked → FirstOf (arrived s part cid) f →
        ∃ t, exec (.faultAtHub part cid) s = .next t ∧ HaltEntered s t part cid f (arrived s part cid)) ∧
      (c.state = .debugStopped → FirstOf ((arrived s part cid).filter fun g => g.code != some .debugStop) f →
        ∃ t, exec (.faultAtHub part cid) s = .next t ∧ HaltEntered s t part cid f ((arrived s part cid).filter fun g => g.code != some .debugStop)) ∧
      (c.state = .debugStopped → (∀ g ∈ arrived s part cid, g.code = some .debugStop) →
        exec (.faultAtHub part cid) s = .next { s with ctl := { s.ctl with faults := faultsLeft s part cid } }) ∧
      (c.state = .halting → ∃ t rs, exec (.faultAtHub part cid) s = .next t ∧ t.exe = s.exe ∧ t.mem = s.mem ∧ t.sys = s.sys ∧
        t.ctl.faults = faultsLeft s part cid ∧ t.ctl.queues = s.ctl.queues ∧ t.ctl.kernels = s.ctl.kernels ∧
        (CtxNow t part cid fun x => x = { c with recs := c.recs ++ rs }) ∧ ∀ g ∈ arrived s part cid, { g with dbg := c.debugHalt } ∈ rs) ∧
      (c.state = .halted → ∃ t rs, exec (.faultAtHub part cid) s = .next t ∧ OnlyIds s t ∧ t.sys = s.sys ∧
        t.ctl.faults = faultsLeft s part cid ∧ t.ctl.queues = s.ctl.queues ∧ t.ctl.kernels = s.ctl.kernels ∧
        (CtxNow t part cid fun x => x = { c with recs := c.recs ++ rs }) ∧ ∀ g ∈ arrived s part cid, g ∈ rs)) ∧
  (∀ (s : State) (part cid : Nat) (c : Ctx),
    (findCtx s.ctl.ctxs part cid = none → exec (.contextStopped part cid) s = .next s) ∧
    (findCtx s.ctl.ctxs part cid = some c → c.state ≠ .halting → exec (.contextStopped part cid) s = .next s) ∧
    (findCtx s.ctl.ctxs part cid = some c → c.state = .halting →
      ((∃ x ∈ s.exe.copies, x.part = c.part ∧ x.ctx = c.cid ∧ copyGoes s x = true) → exec (.contextStopped part cid) s = .next s) ∧
      ((∀ x ∈ s.exe.copies, x.part = c.part → x.ctx = c.cid → copyGoes s x = false) →
        (c.debugHalt = true →
          ((∃ g ∈ s.exe.groups, StillRuns s c g) → exec (.contextStopped part cid) s = .next s) ∧
          ((∀ g ∈ s.exe.groups, ¬ StillRuns s c g) → ∃ t, exec (.contextStopped part cid) s = .next t ∧ OnlyIds s t ∧
            t.ctl.kernels = s.ctl.kernels ∧ CtxNow t part cid fun x => x = { c with state := .debugStopped })) ∧
        (c.debugHalt = false →
          ∃ t, exec (.contextStopped part cid) s = .next t ∧ (CtxNow t part cid fun x => x.state = .halted) ∧
            (∀ p k, p ≠ part ∨ k ≠ cid → findCtx t.ctl.ctxs p k = findCtx s.ctl.ctxs p k) ∧ t.exe.gangs = s.exe.gangs ∧
            t.exe.groups = (s.exe.groups.map fun g => if g.state = .killed ∧ ofCtx s part cid g = true then { g with window := [] } else g) ∧
            (∀ o ∈ t.mem.ops, ¬ (o.part = part ∧ o.ctx = cid)) ∧ (∀ x ∈ t.exe.copies, ¬ (x.part = part ∧ x.ctx = cid)) ∧
            (∀ q ∈ t.ctl.queues, q.part = part → q.ctx = cid → q.state = .unbound ∨ (q.state = .error ∧ q.taken = none)) ∧
            ∀ (i : Nat) (k : Kernel), s.ctl.kernels[i]? = some k → ∃ k', t.ctl.kernels[i]? = some k' ∧ k' = { k with due := k'.due } ∧
              (k.part = part → k.ctx = cid → k'.due ≠ .atHalt) ∧ (¬ (k.part = part ∧ k.ctx = cid ∧ k.due = .atHalt) → k' = k))))) ∧
  (∀ (s : State) (i : Nat) (k : Kernel) (c : Ctx), s.ctl.kernels[i]? = some k → findCtx s.ctl.ctxs k.part k.ctx = some c →
    (c.desc.wdogMs ≠ 0 → k.state = .running ∨ k.state = .draining → c.state = .runnable ∨ c.state = .running →
      c.desc.wdogMs * 1000000 < k.countNs → (∀ f ∈ s.ctl.faults, f.part = k.part → f.ctx = k.ctx → f.code ≠ some .watchdog) →
      ∃ r, exec (.watchdog i) s = .next { s with ctl := { s.ctl with faults := s.ctl.faults ++ [r] } } ∧ r.part = k.part ∧ r.ctx = k.ctx ∧
        r.code = some .watchdog ∧ r.kind = 8 ∧ r.die = 8 ∧ r.unit = 0 ∧ r.info = BitVec.ofNat 64 k.ord) ∧
    (c.desc.wdogMs = 0 ∨ (k.state ≠ .running ∧ k.state ≠ .draining) ∨ (c.state ≠ .runnable ∧ c.state ≠ .running) ∨
      k.countNs ≤ c.desc.wdogMs * 1000000 → exec (.watchdog i) s = .next s)) ∧
  ∀ r : FaultRec, r.kind < 256 → r.die < 256 → r.unit < 256 → r.place < 256 → r.kord < 2 ^ 64 → r.group < 2 ^ 32 → r.gang < 2 ^ 32 →
    (∀ p ∈ r.detail, 0x40 ≤ p.1) → RecordBytes r (recBytes r)

/-! ## Packets (R97 to R99, R109, R112 to R115, R315, R347, R407, R413) -/

/-- The dispatcher takes the head packet of highest priority, of equals the one appended first. A packet that fails the check puts
its queue in ERROR with the code of the first cause; one that names a held region waits, its queue STALLED; any other is taken:
its record is WAITING, a LAUNCH takes the context's next KORD, and the queue is STALLED while a dependency does not hold. A poll
makes a STALLED queue ACTIVE when what it waits for holds, and an ACTIVE one STALLED again where it no longer does. What the hub
die reads it holds, agent 10 of the grains (R91, R97 to R99, R322, R347). -/
def Obligations.PacketsTaken : Prop :=
  (∀ s : State, (¬ ∃ q c, Served s q c) → exec .dispatcherTake s = .next s) ∧
  (∀ (s : State) (q : Queue) (c : Ctx), Chosen s q c →
    (headPacket s q c = none → exec .dispatcherTake s = .next (setQState s q .error 5)) ∧
    ∀ p, headPacket s q c = some p →
      let u := hubReads (hubHead s q c) c (depVas p)
      HubRead s u ∧
      (∀ e, PacketError s c p e → exec .dispatcherTake s = .next (setQState u q .error e)) ∧
      (PacketPasses s c p → NamesHeld u c p →
        exec .dispatcherTake s = .next (if q.state = .draining then u else setQState u q .stalled 0)) ∧
      (PacketPasses s c p → ¬ NamesHeld u c p → ∃ t k, exec .dispatcherTake s = .next t ∧ OnlyIds s t ∧
        t.ctl.kernels = s.ctl.kernels ++ [k] ∧ k.part = c.part ∧ k.ctx = c.cid ∧ k.queue = q.id ∧ k.qpa = q.pa ∧ k.pkt = p ∧
        k.state = .waiting ∧ k.prio = min (p.prio % 8) q.prio ∧ k.advanced = false ∧ k.acceptNo = none ∧ k.pins = [] ∧ k.due = .none ∧
        (p.kind = 1 → k.ord = c.kord ∧ k.total = p.gx * p.gy * p.gz ∧ (k.fixed = true ↔ c.desc.fixedGear = true ∨ p.flags.testBit 0 = true)) ∧
        k.regions.map (fun r => (r.id, r.desc, r.hash)) =
          (regionsOf u c p).map (fun x => (x.1, BitVec.ofNat 64 x.2.1, BitVec.ofNat 64 x.2.2)) ∧
        (CtxNow t c.part c.cid fun x => x.state = c.state ∧ x.kord = (if p.kind = 1 then (c.kord + 1) % 2 ^ 64 else c.kord) ∧
          x.held = c.held ++ (regionsOf u c p).map fun r => (r.1, s.ctl.kernels.length)) ∧
        (∀ part cid, part ≠ c.part ∨ cid ≠ c.cid → findCtx t.ctl.ctxs part cid = findCtx s.ctl.ctxs part cid) ∧
        (∀ y ∈ t.ctl.queues, y.id = q.id → y.taken = some s.ctl.kernels.length) ∧
        (regionsOf u c p = [] → k.qidx = qHead u q ∧ HeadersOnly u t ∧
          (DepsHold u c p ∨ q.state = .draining → t.mem = u.mem) ∧
          (¬ DepsHold u c p → q.state = .active → ∀ y ∈ t.ctl.queues, y.id = q.id → y.state = .stalled)))) ∧
  (∀ (s : State) (n : Nat),
    ((∀ q c, queueById s.ctl.queues n = some q → qOwner s q ≠ some c) → exec (.dependencyPoll n) s = .next s) ∧
    ∀ q c, queueById s.ctl.queues n = some q → qOwner s q = some c →
      (∀ i k, q.taken = some i → s.ctl.kernels[i]? = some k →
        let u := hubReads s c (depVas k.pkt)
        HubRead s u ∧
        (q.state ≠ .stalled → q.state ≠ .active → exec (.dependencyPoll n) s = .next u) ∧
        (k.state ≠ .waiting ∨ DepsHold u c k.pkt → (q.state = .stalled → exec (.dependencyPoll n) s = .next (setQState u q .active 0)) ∧
          (q.state = .active → exec (.dependencyPoll n) s = .next u)) ∧
        (k.state = .waiting → ¬ DepsHold u c k.pkt → (q.state = .stalled → exec (.dependencyPoll n) s = .next u) ∧
          (q.state = .active → exec (.dependencyPoll n) s = .next (setQState u q .stalled 0)))) ∧
      (q.taken = none →
        let u := hubHead s q c
        HubRead s u ∧
        (q.state ≠ .stalled → exec (.dependencyPoll n) s = .next u) ∧
        (q.state = .stalled → (∃ p, headPacket u q c = some p ∧ NamesHeld u c p) → exec (.dependencyPoll n) s = .next u) ∧
        (q.state = .stalled → (∀ p, headPacket u q c = some p → ¬ NamesHeld u c p) →
          exec (.dependencyPoll n) s = .next (setQState u q .active 0)))) ∧
  ∀ (s : State) (q : Queue) (x : QState) (err : Nat), x ≠ .unbound → err < 256 →
    OnlyIds s (setQState s q x err) ∧ (setQState s q x err).ctl = { s.ctl with queues := (setQState s q x err).ctl.queues } ∧
    (∀ y ∈ (setQState s q x err).ctl.queues, y.id = q.id → y.state = x) ∧
    (GrainsOk s.mem.dir → paLocal (ownDev s.sys) q.pa = true → q.pa % 64 = 0 → AtHome s (paOff q.pa) 64 →
      numAt (setQState s q x err) (q.pa + 0x1B) 1 = qCode x ∧ numAt (setQState s q x err) (q.pa + 0x1F) 1 = err)

/-! ## The actions of packets (R97, R112, R113, R315, R318, R407, R409, R413) -/

/-- A WAITING packet whose dependencies hold takes its action, and one whose conditions fail does nothing. NOP and SIGNAL complete
at once. PIN raises the pin counts of the pages its ranges touch, with STATUS 0, or pins nothing, with STATUS 4. UNPIN lowers
them, never below 0, and drops the context's translations of its pages before the completion. RECORD writes a capture to host
memory. POLICY writes RESULT; an accepted policy replaces the standing one, and a facility that closes zeroes its registers. A
LAUNCH pins its working set, writes its capture where PFLAGS.RECORD is set and is DISPATCHING, or FAILS with PIN_FAULT (R97, R112,
R113, R315, R318, R407, R409, R413). -/
def Obligations.PacketActions : Prop :=
  (∀ (s : State) (i : Nat), ∀ x ∈ [(0, Instr.nopPacket i), (1, .launchPacket i), (2, .pinPacket i), (3, .unpinPacket i), (4, .signalPacket i),
      (5, .recordPacket i), (6, .fitsyncPacket i), (7, .policyPacket i)],
    (∀ k c, ¬ Acts s i x.1 k c) → exec x.2 s = .next s) ∧
  ∀ (s : State) (i : Nat) (k : Kernel) (c : Ctx),
    (Acts s i 0 k c → ∃ t, exec (.nopPacket i) s = .next t ∧ PacketEnds s t i k c .retired 0) ∧
    (Acts s i 4 k c → ∃ t, exec (.signalPacket i) s = .next t ∧ PacketEnds s t i k c .retired 0) ∧
    (Acts s i 2 k c → ∀ p, findPart s.ctl.parts c.part = some p →
      let rs := (wsetRanges s c k.pkt.wset.toNat).getD []
      (Pinnable s c p rs → ∃ t b cb, exec (.pinPacket i) s = .next t ∧ Pinned s b c cb p rs ∧ PacketEnds b t i k cb .retired 0) ∧
      ((∃ r ∈ rs, ∃ pg ∈ vaPages r.1 r.2, pinPage s c p (pg * 2 ^ 16) = none) → ∃ t, exec (.pinPacket i) s = .next t ∧
        PacketEnds s t i k c .retired 4)) ∧
    (Acts s i 3 k c →
      let rs := (wsetRanges s c k.pkt.wset.toNat).getD []
      ∃ t b cb, exec (.unpinPacket i) s = .next t ∧ PacketEnds b t i k cb .retired 0 ∧
        b = { s with mem := { s.mem with tlb := b.mem.tlb, upper := b.mem.upper }, ctl := { s.ctl with ctxs := b.ctl.ctxs } } ∧
        cb = { c with pinned := cb.pinned } ∧ (∀ q x, q ≠ c.part ∨ x ≠ c.cid → findCtx b.ctl.ctxs q x = findCtx s.ctl.ctxs q x) ∧
        ((c.pinned.map fun y => (y.1, y.2.1)).Nodup → ∀ x n, n = (rs.filter fun r => decide (r.1 < (x.1 + 1) * 2 ^ x.2) && decide (x.1 * 2 ^ x.2 < r.1 + r.2)).length →
          pinCount cb x = pinCount c x - n) ∧
        (∀ e, e ∈ b.mem.tlb ↔ e ∈ s.mem.tlb ∧ ¬ (e.part = c.part ∧ e.ctx = c.cid ∧ ∃ r ∈ rs, meetsRange r (e.page, e.size))) ∧
        ∀ e, e ∈ b.mem.upper ↔ e ∈ s.mem.upper ∧ ¬ (e.part = c.part ∧ e.ctx = c.cid ∧ ∃ r ∈ rs,
          meetsRange r (e.va / 2 ^ entryShift e.lvl, entryShift e.lvl))) ∧
    (Acts s i 5 k c → ∀ raw, ownerBytes s c k.pkt.args.toNat 128 = some raw →
      ∃ t img, exec (.recordPacket i) s = .next t ∧ Capture s c raw (2 ^ 64 - 1) img ∧
        PacketEnds (hostWritten s k.pkt.code.toNat img) t i k c .retired 0) ∧
    (Acts s i 7 k c → ∀ p r y, findPart s.ctl.parts c.part = some p → PolicyResult s c p k.pkt.args.toNat r y →
      ∃ t b cb, exec (.policyPacket i) s = .next t ∧ PacketEnds b t i k cb .retired 0 ∧
        (∀ x, xlate s 8 c (k.pkt.args.toNat + 0x12) 0 = .ok x → GrainsOk s.mem.dir → paLocal (ownDev s.sys) x.pa = true →
          AtHome s (paOff x.pa) 1 → homeByte b (paOff x.pa) = BitVec.ofNat 8 r) ∧
        (r ≠ 0 → cb = c ∧ OnlyIds s b ∧ b.ctl = s.ctl ∧ b.sys = s.sys) ∧
        (r = 0 → findPart b.ctl.parts c.part = some { p with policy := some y, lastCounter := y.counter } ∧
          cb = { c with perf := if y.facil.testBit 1 then c.perf else [] } ∧
          (∀ x ∈ b.ctl.ctxs, x.part = p.id → y.facil.testBit 1 = false → x.perf = []) ∧
          ∀ (gi : Nat) (g : Gang), b.exe.gangs[gi]? = some g → ∃ g0 : Gang, s.exe.gangs[gi]? = some g0 ∧ g = { g0 with dbgCtl := g.dbgCtl } ∧
            (∀ (grp : Group) (x : Kernel), s.exe.groups[g0.grp]? = some grp → s.ctl.kernels[grp.kern]? = some x →
              g.dbgCtl = if x.part = p.id ∧ y.facil.testBit 0 = false then 0 else g0.dbgCtl))) ∧
    (Acts s i 1 k c → ∀ p, findPart s.ctl.parts c.part = some p →
      let rs := (wsetRanges s c k.pkt.wset.toNat).getD []
      (Pinnable s c p rs → ∃ t b cb img pins, exec (.launchPacket i) s = .next t ∧ Pinned s b c cb p rs ∧ Capture b cb k.pkt.raw k.ord img ∧
        (∀ x, pins.count x = touching s c p rs x) ∧
        t = { (if k.pkt.flags.testBit 3 = true then hostWritten b k.pkt.recdest.toNat img else b) with
          ctl := { b.ctl with kernels := modAt s.ctl.kernels i fun _ => { k with state := .dispatching, pins := pins } } }) ∧
      ((∃ r ∈ rs, ∃ pg ∈ vaPages r.1 r.2, pinPage s c p (pg * 2 ^ 16) = none) → ∃ t, exec (.launchPacket i) s = .next t ∧
        PacketEnds s t i k c .failed 4))

/-! ## Grids and the end of kernels (R108 to R115, R347, R348) -/

/-- The distributor accepts a DISPATCHING grid while it holds fewer than 64: HEAD advances, and a grid that fails a test before
placement FAILS with NO_FIT or GEAR_SIZE. It places the next group of the first waiting grid on the first core with room, where
the group starts. A DRAINING kernel of which nothing is on its way opens its fit points, and retires, with OK or LINK_LOSS, when
none is left; so ends a FITSYNC, and so a kernel whose last training has finished. A completion add that waited for its status word
is made when the word has been acknowledged (R99, R105, R108 to R115, R347, R348). -/
def Obligations.GridsAndRetirement : Prop :=
  (∀ (s : State) (i : Nat),
    ((∀ k c, s.ctl.kernels[i]? = some k → findCtx s.ctl.ctxs k.part k.ctx = some c →
        k.state ≠ .dispatching ∨ k.acceptNo ≠ none ∨ 64 ≤ heldGrids s k.part ∨ ¬ ContextGoes c) → exec (.gridAccept i) s = .next s) ∧
    ∀ k c, s.ctl.kernels[i]? = some k → findCtx s.ctl.ctxs k.part k.ctx = some c → ContextGoes c → k.state = .dispatching → k.acceptNo = none →
      heldGrids s k.part < 64 →
      (∀ st, PlaceFails k st → ∃ t, exec (.gridAccept i) s = .next t ∧
        PacketEnds { s with ctl := { s.ctl with acceptNo := s.ctl.acceptNo + 1 } } t i { k with acceptNo := some (s.ctl.acceptNo + 1) } c .failed st) ∧
      (PlaceMay k → ∃ t, exec (.gridAccept i) s = .next t ∧ OnlyIds s t ∧ t.ctl.ctxs = s.ctl.ctxs ∧ t.ctl.acceptNo = s.ctl.acceptNo + 1 ∧
        t.ctl.kernels = modAt s.ctl.kernels i (fun _ => { k with acceptNo := some (s.ctl.acceptNo + 1), advanced := true }) ∧
        OutsideHead s t k ∧ HeadAdvanced s t i k)) ∧
  (∀ (s : State) (part : Nat),
    ((¬ ∃ i k c, GridWaits s part i k c) → exec (.groupPlace part) s = .next s) ∧
    ∀ i k c core pre post, FirstGrid s part i k c → k.fixed = false → k.pkt.flags.testBit 1 = false →
      (∀ g ∈ s.exe.groups, g.kern = i → g.state ≠ .pending) → restoreAhead s part k.prio = false →
      allowedCores s k = pre ++ core :: post → (∀ x ∈ pre, coreRoom s x resident k.pkt 1 = false) → coreRoom s core resident k.pkt 1 = true →
      ∃ t, exec (.groupPlace part) s = .next t ∧ Started s t i k core k.nextLid ∧ HeadersOnly s t ∧ t.mem.ops = s.mem.ops ∧
        t.ctl.kernels = modAt s.ctl.kernels i (fun _ => { k with state := .running, started := true, nextLid := k.nextLid + 1 }) ∧
        (CtxNow t k.part k.ctx fun x => x = { c with state := .running }) ∧
        ∀ p x, p ≠ k.part ∨ x ≠ k.ctx → findCtx t.ctl.ctxs p x = findCtx s.ctl.ctxs p x) ∧
  (∀ (s : State) (i : Nat),
    ((∀ k c, s.ctl.kernels[i]? = some k → findCtx s.ctl.ctxs k.part k.ctx = some c →
        (k.due ≠ .add ∨ writerWaits s.mem (doneWriter i) = true) ∧ (k.state ≠ .draining ∨ ¬ KernDrained s i ∨ ¬ ContextGoes c)) →
      exec (.kernelRetire i) s = .next s) ∧
    (∀ k c, s.ctl.kernels[i]? = some k → findCtx s.ctl.ctxs k.part k.ctx = some c → k.due = .add → writerWaits s.mem (doneWriter i) = false →
      ∃ t, exec (.kernelRetire i) s = .next t ∧ OnlyIds s t ∧ t.ctl.kernels = modAt s.ctl.kernels i (fun _ => { k with due := .none }) ∧
        t.ctl.ctxs = s.ctl.ctxs ∧ DoneAdded s t c k.pkt) ∧
    ∀ k c, s.ctl.kernels[i]? = some k → findCtx s.ctl.ctxs k.part k.ctx = some c → k.due ≠ .add → k.state = .draining → KernDrained s i →
      ContextGoes c →
      (∃ t, exec (.kernelRetire i) s = .next t ∧ Fitted t i) ∧
      (FitDone s c k → ∃ t, exec (.kernelRetire i) s = .next t ∧ PacketEnds s t i k c .retired (if k.linkLoss then 1 else 0))) ∧
  (∀ (s : State) (i : Nat) (k : Kernel) (c : Ctx), Acts s i 6 k c →
    (∃ t, exec (.fitsyncPacket i) s = .next t ∧ Fitted t i) ∧
    (k.regions = [] → ∃ t, exec (.fitsyncPacket i) s = .next t ∧ PacketEnds s t i k c .retired (if k.linkLoss then 1 else 0))) ∧
  ∀ (s : State) (part ctx region : Nat),
    ((∀ c, findCtx s.ctl.ctxs part ctx = some c → ¬ ContextGoes c ∨ ∀ k ∈ s.ctl.kernels, k.part = part → k.ctx = ctx → k.state = .fitting →
        ∀ r ∈ k.regions, r.id = region → inTraining s c r = false) → exec (.fitTrainingDone part ctx region) s = .next s) ∧
    ∀ i k c r, findCtx s.ctl.ctxs part ctx = some c → ContextGoes c → s.ctl.kernels[i]? = some k → k.part = part → k.ctx = ctx →
      k.state = .fitting → k.regions = [r] → r.id = region → r.treated = true → inTraining s c r = true →
      (∀ (j : Nat) (x : Kernel), s.ctl.kernels[j]? = some x → j ≠ i → x.part ≠ part ∨ x.ctx ≠ ctx ∨ x.state ≠ .fitting) →
      let u := trainRegion s c r.desc.toNat
      (inTraining u c r = false → ∃ t, exec (.fitTrainingDone part ctx region) s = .next t ∧
        PacketEnds u t i k c .retired (if k.linkLoss then 1 else 0)) ∧
      (inTraining u c r = true → ∃ t, exec (.fitTrainingDone part ctx region) s = .next t ∧ Fitted t i)

/-! ## Groups (R83 to R88, R115, R117, R118, R121, R122) -/

/-- An EXITING group that has ended is DONE: its window, barriers, tile stream, slots, stack areas and locks are freed, its stores go
on to their homes, and its kernel is DRAINING when it was the last. A PARKING group whose stop is complete is PARKED, its record in the
save area; a PARKED group is restored from its record on the first core with room and runs on, unless a new group of higher priority
can be placed. A group KILLED by replay is PENDING again, one killed by a fatal halt is not. A gang that was ready for 4,096 cycles
without an issue goes to the head of the agenda; in fixed gear a turn that cannot issue for want of another agent passes on. Last,
what the record has of a slice, and the stack area of an entry, reads back as it was (R83 to R88, R115, R117, R118, R121, R122, R125,
R126; the order of the fields within the record's parts is the model's choice, log 58). -/
def Obligations.GroupEvents : Prop :=
  (∀ (s : State) (i : Nat),
    ((∀ g k c, s.exe.groups[i]? = some g → s.ctl.kernels[g.kern]? = some k → findCtx s.ctl.ctxs k.part k.ctx = some c →
        g.state ≠ .killed ∨ k.pkt.flags.testBit 2 = false ∨ k.state = .retired ∨ k.state = .failed ∨ HaltsForGood c) →
      exec (.groupRequeue i) s = .next s) ∧
    (∀ g k c, s.exe.groups[i]? = some g → s.ctl.kernels[g.kern]? = some k → findCtx s.ctl.ctxs k.part k.ctx = some c → g.state = .killed →
      k.pkt.flags.testBit 2 = true → k.state ≠ .retired → k.state ≠ .failed → ¬ HaltsForGood c →
      exec (.groupRequeue i) s = .next { s with exe := { s.exe with groups := modAt s.exe.groups i fun _ => { g with state := .pending } } }) ∧
    ((∀ g, s.exe.groups[i]? = some g → ¬ GroupEnded s i g) → exec (.groupDone i) s = .next s) ∧
    (∀ g k c, s.exe.groups[i]? = some g → s.ctl.kernels[g.kern]? = some k → findCtx s.ctl.ctxs k.part k.ctx = some c → GroupEnded s i g →
      ∃ t, exec (.groupDone i) s = .next t ∧ t.exe.copies = s.exe.copies ∧
        t.mem.ops = (s.mem.ops.filter fun o => !(g.gangs.contains o.gang && (isLocal o || o.kind == .unlockb))) ∧
        t.exe.groups = modAt s.exe.groups i (fun _ => { g with state := .done, window := [], nbs := [], tile := none, tctx := none, slots := [], pins := [] }) ∧
        (∀ (gi : Nat) (x : Gang), t.exe.gangs[gi]? = some x → ∃ x0 : Gang, s.exe.gangs[gi]? = some x0 ∧ x = { x0 with area := x.area } ∧
          (gi ∈ g.gangs → x.area = none) ∧ (gi ∉ g.gangs → x0.area ≠ none → x.area = x0.area)) ∧
        (CtxNow t k.part k.ctx fun x => x.lockUsed = c.lockUsed - g.pins.length ∧ x.state = afterLeaving s k.part k.ctx i false c.state) ∧
        (k.state = .running → k.nextLid = k.total → (∀ (j : Nat) (y : Group), s.exe.groups[j]? = some y → y.kern = g.kern → j ≠ i → y.state = .done) →
          t.ctl.kernels = modAt s.ctl.kernels g.kern fun _ => { k with state := .draining }) ∧
        (k.state ≠ .running ∨ k.nextLid ≠ k.total ∨ (∃ (j : Nat) (y : Group), s.exe.groups[j]? = some y ∧ y.kern = g.kern ∧ j ≠ i ∧ y.state ≠ .done) →
          t.ctl.kernels = s.ctl.kernels))) ∧
  (∀ (s : State) (i : Nat),
    ((∀ g k c, s.exe.groups[i]? = some g → s.ctl.kernels[g.kern]? = some k → findCtx s.ctl.ctxs k.part k.ctx = some c → ¬ ParkDone s i g c) →
      exec (.groupParked i) s = .next s) ∧
    (∀ g k c o, s.exe.groups[i]? = some g → s.ctl.kernels[g.kern]? = some k → findCtx s.ctl.ctxs k.part k.ctx = some c → ParkDone s i g c →
      g.saved = some o → findPart s.ctl.parts k.part ≠ none → (∀ gi ∈ g.gangs, ∃ x : Gang, s.exe.gangs[gi]? = some x ∧ x.area ≠ none) →
      ∃ t, exec (.groupParked i) s = .next t ∧ t.mem.ops = s.mem.ops ∧ t.exe.gangs = s.exe.gangs ∧ t.ctl.kernels = s.ctl.kernels ∧
        t.exe.groups = modAt s.exe.groups i (fun _ => { g with state := .parked, slots := [], tctx := none }) ∧
        (CtxNow t k.part k.ctx fun x => x = { c with state := afterLeaving s k.part k.ctx i true c.state })) ∧
    ((∀ g k c, s.exe.groups[i]? = some g → s.ctl.kernels[g.kern]? = some k → findCtx s.ctl.ctxs k.part k.ctx = some c →
        restorable c g = false ∨ newAhead s k.part k.prio = true) → exec (.groupRestore i) s = .next s) ∧
    ∀ g k c core pre post, s.exe.groups[i]? = some g → s.ctl.kernels[g.kern]? = some k → findCtx s.ctl.ctxs k.part k.ctx = some c →
      restorable c g = true → newAhead s k.part k.prio = false → g.gangs.Nodup →
      allowedCores s k = pre ++ core :: post → (∀ x ∈ pre, coreRoom s x resident k.pkt 1 = false) → coreRoom s core resident k.pkt 1 = true →
      let pool := ((findPart s.ctl.parts k.part).map Partition.pool).getD []
      ∃ t g', exec (.groupRestore i) s = .next t ∧ t.exe.groups[i]? = some g' ∧ g'.state = .running ∧ g'.core = core ∧ g'.saved = none ∧
        g'.kern = g.kern ∧ g'.lid = g.lid ∧ g'.gangs = g.gangs ∧ g'.nbs.length = g.nbs.length ∧ g'.pins = g.pins ∧
        (∀ (j : Nat), j ≠ i → t.exe.groups[j]? = s.exe.groups[j]?) ∧
        (∀ (gi : Nat) (x : Gang), s.exe.gangs[gi]? = some x →
          (gi ∉ g.gangs → t.exe.gangs[gi]? = some x) ∧
          ∀ j, g.gangs[j]? = some gi → ∃ y, t.exe.gangs[gi]? = some y ∧
            y = { loadGang s c k pool (c.desc.saveArea.toNat + g.saved.getD 0) j x with slot := y.slot, yielded := false }) ∧
        CtxNow t k.part k.ctx fun x => x.state = .running ∧ x.saves = c.saves.filter fun r => r.1 != i) ∧
  (∀ (s : State) (i : Nat),
    ((∀ g, s.exe.gangs[i]? = some g → g.starve < 4096) → exec (.gangStarved i) s = .next s) ∧
    ∀ g, s.exe.gangs[i]? = some g → 4096 ≤ g.starve →
      exec (.gangStarved i) s = .next { s with exe := { s.exe with agenda := .starved i :: s.exe.agenda } }) ∧
  (∀ (s : State) (i : Nat),
    ((∀ k, s.ctl.kernels[i]? = some k → k.fixed = false ∨ turnGang s i k = none) → exec (.turnPass i) s = .next s) ∧
    ∀ k gi g grp c m, s.ctl.kernels[i]? = some k → k.fixed = true → turnGang s i k = some (gi, g) → s.exe.groups[g.grp]? = some grp →
      findCtx s.ctl.ctxs k.part k.ctx = some c → nextCohort g = some m → grp.state = .running ∨ (grp.state = .parking ∧ grp.atStop = false) →
      (passes s gi g grp k c m = false → exec (.turnPass i) s = .next s) ∧
      ((∃ j, m.getLsbD j = true ∧ j < 8 ∧ ((g.sl j).regang ≠ none ∨ (g.area = none ∧ 16 < (g.sl j).stack.length))) ∨ passes s gi g grp k c m = true →
        ∃ t, exec (.turnPass i) s = .next t ∧ t.mem = s.mem ∧ t.ctl.ctxs = s.ctl.ctxs ∧
          t.exe.gangs = modAt s.exe.gangs gi (fun x => { x with lastCoh := some (lowSlice m) }) ∧ TurnMoved s t i k)) ∧
  (∀ (g : Gang) (k : Nat), g.slices.length = 8 → k < 8 → (∀ x ∈ g.slices, x.retired < 2 ^ 64) → loadSlice (sliceBytes g) k (g.sl k) = g.sl k) ∧
  ∀ e : StackEntry, PlainEntry e → (entryBytes e).length = 16 ∧ entryOf (entryBytes e) = some e

/-! ## Known words, reset, the invariant, memory -/

/-- Words that the spec writes out decode to the instructions it writes beside them (R39, R53, R55). -/
def Obligations.KnownWords : Prop :=
  (∀ p ∈ ([(0x01000000, .nop), (0x0503FFFF, .wait 0 63 63 63), (0x02040200, .mode 0 0 4 0 0 1 0 0), (0x03000040, .imm 0x40),
      (0x04000001, .immh 1), (0x2008FAF8, .iadd 8 0xFA 0xF8), (0x0D000000, .exit), (0x14000007, .trap 7), (0x19080011, .csrr 8 0x11),
      (0x1A080020, .csrw 8 0x20), (0x180AF901, .ctr 10 1), (0x1108F903, .getc 8 3), (0x29100500, .or 16 5 0), (0x88160203, .stl 22 2 3),
      (0x910A080C, .atcas 10 8 12), (0x96000000, .fence), (0x9C0A0802, .enq 10 8 2), (0x9D0C0803, .deq 12 8 3), (0x9E0C0802, .pstore 12 8 2),
      (0xA0000506, .binit 5 6), (0xA4020500, .btest 2 5 0), (0xA7140100, .copy 20 1 0 0), (0xA7F90406, .copy 0xF9 4 1 2),
      (0xA80A0100, .copyg 10 1 0), (0xB8090805, .axb 9 8 5)] : List (Nat × Instr)), decodeLane p.1 = some p.2) ∧
  ∀ p ∈ ([(0x04000000, .tnop), (0x09200000, .tfmt 1 2), (0x0D001000, .tset 4 0 0x1000), (0x11100040, .taddImm 4 4 64),
      (0x148D5000, .tldb 2 3 5 1), (0x2048D140, .mm 0 1 2 3 4 5), (0x3C300008, .tloopImm 3 8), (0x40480040, .tincT 0 2 64),
      (0x44A40000, .twait 2 9), (0x4C000000, .tstop)] : List (Nat × Instr)), decodeTile p.1 = some p.2

/-- The machine after module reset: no partition is built, no context, queue, kernel, group or operation exists, DOM_ID reads
0x1FF, the 24 links are DOWN, LEASE_NS is 8,000 and GUARD_NS 200, every die is there and nothing is throttled or tripped. What the
bytes of memory read, and the clocks at zero, are the model's choices (logs 1 and 6). -/
def Obligations.ResetState : Prop :=
  State.reset.sys.domId = 0x1FF ∧ State.reset.sys.leaseNs = 8000 ∧ State.reset.sys.guardNs = 200 ∧
    State.reset.sys.links.length = 24 ∧ (∀ l ∈ State.reset.sys.links, l.state = .down) ∧
    State.reset.ctl.parts = [] ∧ State.reset.ctl.ctxs = [] ∧ State.reset.ctl.queues = [] ∧ State.reset.ctl.kernels = [] ∧
    State.reset.exe.gangs = [] ∧ State.reset.exe.groups = [] ∧ State.reset.mem.ops = [] ∧ State.reset.mem.dir = [] ∧
    (∀ off, homeByte State.reset off = 0) ∧ State.reset.sys.lostDies = [] ∧ State.reset.sys.step = 0 ∧ State.reset.sys.tripped = false ∧
    Good State.reset

/-- Every step of the machine keeps the invariant: the maps of bytes stay in canonical form, the directory holds whole grains,
DOM_ID keeps nine bits, there are 24 links, and every gang has its eight slices (R41, R313, R324, R332, R334). -/
def Obligations.GoodKept : Prop := ∀ s t : State, Good s → step s = .next t → Good t

/-- A write within one cell at its home is what a later access there reads, whatever stood in caches and on its way; every other byte
that no other copy holds modified reads as before; the writer waits just when a transaction is in progress or another agent may hold
the grain; and the canonical form is kept (R326, R328, R329). -/
def Obligations.HomeWriteReadsBack : Prop :=
  ∀ (s : State) (w : Writer) (leaf off : Nat) (bs : List Byte), GrainsOk s.mem.dir → Memory.wf s.mem.bytes = true → off % 32 + bs.length ≤ 32 →
    let t := homeWriteCell s w leaf off bs
    let e := dirGrow s.mem.dir off (leafGrain leaf)
    t.ctl = s.ctl ∧ t.sys = s.sys ∧ t.mem.ops = s.mem.ops ∧ OnlyIds s t ∧
    (∀ i < bs.length, memByte t.mem (off + i) = bs.getD i 0) ∧
    (∀ i < bs.length, HomeAlone s.mem (off + i) → homeByte t (off + i) = bs.getD i 0) ∧
    (txnBusy s.mem off = true ∨ liveAgents s (coveredSet e s.sys.ptp) ≠ [] → ∀ i < bs.length, homeByte t (off + i) = bs.getD i 0) ∧
    (∀ a, a < off ∨ off + bs.length ≤ a → HomeAlone s.mem a → HomeAlone t.mem a ∧ homeByte t a = homeByte s a) ∧
    (writerWaits s.mem w = false → (writerWaits t.mem w = true ↔ txnBusy s.mem off = true ∨ liveAgents s (coveredSet e s.sys.ptp) ≠ [])) ∧
    GrainsOk t.mem.dir ∧ Memory.wf t.mem.bytes = true

/-! ## Completion, instruction by instruction (R51, R94, R101, R200, R220 to R224, R326 to R329, R340) -/

/-- LDL, LDL4, STL, STL4, ATLADD and ATLCAS run, whatever the offsets in their lanes, where those lie in the window and are aligned,
the types are legal and the counter of their class has room: the cohort goes on, with one operation for each of its slices (R51,
R200, R224). -/
def Obligations.WindowFormsComplete : Prop :=
  ∀ (s : State) (e : Iss) (d a b : Byte), issOf s = some e → RoomForTraps e →
    let room := fun (x : Cls) => ∀ j ∈ e.sls, clsCount (e.g.sl j) x < 63
    let inWindow := fun (k : Nat) => ∀ l ∈ e.active, lmOk e.kern.pkt.lmem (lmOffset e.g l a b) (4 * runLen k (e.lty l)) = true
    let loads := fun (k : Nat) => ∀ j ∈ e.sls, e.ty j ≤ 13 ∧ loadOrder (e.mode j) = true ∧ (k = 1 ∨ tyWide (e.ty j) = false) ∧
      declOk e.n a = true ∧ declOk e.n b = true ∧ loadRunOk e.n d (runLen k (e.ty j)) = true
    let stores := fun (k : Nat) => ∀ j ∈ e.sls, e.ty j ≤ 13 ∧ storeOrder (e.mode j) = true ∧ (k = 1 ∨ tyWide (e.ty j) = false) ∧
      declOk e.n a = true ∧ declOk e.n b = true ∧ storeRunOk e.n (e.ty j) d (runLen k (e.ty j)) (k == 1) = true
    let named := ∀ j ∈ e.sls, declOk e.n d = true ∧ declOk e.n a = true ∧ declOk e.n b = true
    let at32 := ∀ l ∈ e.active, lmOk e.kern.pkt.lmem (rd e.g l a) 4 = true
    let cl := if d = 0 then Cls.s else .l
    (loads 1 → room .l → inWindow 1 → ∃ t ops, exec (.ldl d a b) s = .next t ∧ Issued s t e (fun _ => .l) ops ∧ ∀ o ∈ ops, o.kind = .ldl) ∧
    (loads 4 → room .l → inWindow 4 → ∃ t ops, exec (.ldl4 d a b) s = .next t ∧ Issued s t e (fun _ => .l) ops ∧ ∀ o ∈ ops, o.kind = .ldl) ∧
    (stores 1 → room .s → inWindow 1 → ∃ t ops, exec (.stl d a b) s = .next t ∧ Issued s t e (fun _ => .s) ops ∧ ∀ o ∈ ops, o.kind = .stl) ∧
    (stores 4 → room .s → inWindow 4 → ∃ t ops, exec (.stl4 d a b) s = .next t ∧ Issued s t e (fun _ => .s) ops ∧ ∀ o ∈ ops, o.kind = .stl) ∧
    (named → (∀ j ∈ e.sls, e.ty j ≤ 1) → room cl → at32 →
      ∃ t ops, exec (.atladd d a b) s = .next t ∧ Issued s t e (fun _ => cl) ops ∧ ∀ o ∈ ops, o.kind = .atl false (d != 0)) ∧
    (named → (∀ j ∈ e.sls, e.ty j ≤ 1 ∨ e.ty j = 4) → room cl → at32 →
      ∃ t ops, exec (.atlcas d a b) s = .next t ∧ Issued s t e (fun _ => cl) ops ∧ ∀ o ∈ ops, o.kind = .atl true (d != 0))

/-- The ten atomics, EVADD, ENQ, DEQ and PSTORE run, where the addresses in their lanes translate and are aligned, the types are legal
and the counter of their class has room: the cohort goes on, with one operation for each of its slices (R51, R94, R101, R220 to R222,
R340). -/
def Obligations.AtomicAndQueueFormsComplete : Prop :=
  ∀ (s : State) (e : Iss) (d a b : Byte), issOf s = some e → RoomForTraps e →
    let cl := if d = 0 then Cls.s else .l
    let room := fun (x : Cls) => ∀ j ∈ e.sls, clsCount (e.g.sl j) x < 63
    let size := fun (l : Nat) => if tyWide (e.lty l) then 8 else 4
    let mapped := fun (l n : Nat) (host : Bool) => rdPair e.g l a % n = 0 ∧ ∃ x, xlate s (coreAt e.core) e.ctx (rdPair e.g l a) needRW = .ok x ∧
      (host = true ∨ paHost (ownDev s.sys) x.pa = false)
    let typed := fun (ok : Nat → Bool) (host : Bool) => (∀ j ∈ e.sls, ok (e.ty j) = true ∧ pairOk e.n a = true ∧
        srcOk e.n (e.ty j) b = true ∧ (d = 0 ∨ dstOk e.n (e.ty j) d = true)) ∧ room cl ∧ ∀ l ∈ e.active, mapped l (size l) host
    (typed tyI true → ∃ t ops, exec (.atadd d a b) s = .next t ∧ Issued s t e (fun _ => cl) ops ∧
      ∀ o ∈ ops, o.kind = .rmw .add (tySigned (e.ty o.slice)) (d != 0)) ∧
    (typed tyI false → ∃ t ops, exec (.atand d a b) s = .next t ∧ Issued s t e (fun _ => cl) ops ∧
      ∀ o ∈ ops, o.kind = .rmw .and (tySigned (e.ty o.slice)) (d != 0)) ∧
    (typed tyI false → ∃ t ops, exec (.ator d a b) s = .next t ∧ Issued s t e (fun _ => cl) ops ∧
      ∀ o ∈ ops, o.kind = .rmw .or (tySigned (e.ty o.slice)) (d != 0)) ∧
    (typed tyI false → ∃ t ops, exec (.atxor d a b) s = .next t ∧ Issued s t e (fun _ => cl) ops ∧
      ∀ o ∈ ops, o.kind = .rmw .xor (tySigned (e.ty o.slice)) (d != 0)) ∧
    (typed tyI false → ∃ t ops, exec (.atmin d a b) s = .next t ∧ Issued s t e (fun _ => cl) ops ∧
      ∀ o ∈ ops, o.kind = .rmw .min (tySigned (e.ty o.slice)) (d != 0)) ∧
    (typed tyI false → ∃ t ops, exec (.atmax d a b) s = .next t ∧ Issued s t e (fun _ => cl) ops ∧
      ∀ o ∈ ops, o.kind = .rmw .max (tySigned (e.ty o.slice)) (d != 0)) ∧
    (typed tyIF true → ∃ t ops, exec (.atxchg d a b) s = .next t ∧ Issued s t e (fun _ => cl) ops ∧
      ∀ o ∈ ops, o.kind = .rmw .xchg (tySigned (e.ty o.slice)) (d != 0)) ∧
    (typed tyIF true → ∃ t ops, exec (.atcas d a b) s = .next t ∧ Issued s t e (fun _ => cl) ops ∧
      ∀ o ∈ ops, o.kind = .rmw .cas (tySigned (e.ty o.slice)) (d != 0)) ∧
    (typed tyF false → ∃ t ops, exec (.atfmax d a b) s = .next t ∧ Issued s t e (fun _ => cl) ops ∧
      ∀ o ∈ ops, o.kind = .rmw .fmax (tySigned (e.ty o.slice)) (d != 0)) ∧
    (typed tyF false → ∃ t ops, exec (.atfmin d a b) s = .next t ∧ Issued s t e (fun _ => cl) ops ∧
      ∀ o ∈ ops, o.kind = .rmw .fmin (tySigned (e.ty o.slice)) (d != 0)) ∧
    (pairOk e.n a = true → wideOk e.n b = true → room .s → (∀ l ∈ e.active, mapped l 8 true) →
      ∃ t ops, exec (.evadd a b) s = .next t ∧ Issued s t e (fun _ => .s) ops ∧ ∀ o ∈ ops, o.kind = .rmw .add false false ∧ o.order = 2) ∧
    (pairOk e.n d = true → pairOk e.n a = true → declOk e.n b = true → room .l → ownLocalPending e = false →
      (∀ l ∈ e.active, ∃ ps, queuePart s e l a b true = .ok ps) →
      ∃ t ops, exec (.enq d a b) s = .next t ∧ Issued s t e (fun _ => .l) ops ∧ ∀ o ∈ ops, o.kind = .enq 0) ∧
    (pairOk e.n d = true → pairOk e.n a = true → declOk e.n b = true → room .l →
      (∀ l ∈ e.active, ∃ ps, queuePart s e l a b false = .ok ps) →
      ∃ t ops, exec (.deq d a b) s = .next t ∧ Issued s t e (fun _ => .l) ops ∧ ∀ o ∈ ops, o.kind = .deq 0) ∧
    ((∀ j ∈ e.sls, e.ty j ≤ 13 ∧ storeOrder (e.mode j) = true ∧ srcOk e.n (e.ty j) d = true) → pairOk e.n a = true → declOk e.n b = true →
      room .s → (∀ l ∈ e.active, rdPair e.g l a % size l = 0 ∧ rd e.g l b < 384 ∧ rd e.g l b ≠ ownDev s.sys ∧
        ∃ x, xlate s (coreAt e.core) e.ctx (rdPair e.g l a) needW = .ok x ∧ leafPeer x.leaf = true) →
      ∃ t ops, exec (.pstore d a b) s = .next t ∧ Issued s t e (fun _ => .s) ops ∧ ∀ o ∈ ops, o.kind = .pstore)

/-- The events of the memory system run when they are due: a READ reaches its home and the reader's slice has the cell; a fill gives the
load its data; an OWN or a WRITE that no other agent holds up is performed and acknowledged; an agent gives its acknowledgement, which is
counted, as agent 9's is when its time has come; a notice is taken; a lease that has ended leaves the slice, a sweep frees what is empty
and a walk ends (R187, R189, R310, R319, R325 to R329, R337). -/
def Obligations.MemoryEventsComplete : Prop :=
  (∀ (s : State) (op i : Nat) (o : MemOp) (p : MemPart), s.mem.ok → findOp s.mem op = some o → o.parts[i]? = some p →
    paLocal (ownDev s.sys) p.pa = true → homeUp s (paOff p.pa) = true → CellFree s (coreDie o.core) p →
    let die := coreDie o.core
    let away := homeDie (paOff p.pa) ≠ die ∧ leafPolicy p.leaf ≠ 3
    let alone := ∀ a ∈ liveAgents s (coveredSet (dirGrow s.mem.dir (paOff p.pa) (leafGrain p.leaf)) s.sys.ptp), a = die
    (isLoad o = true → p.got = none → away → boundHeader s.ctl.queues p.pa p.len = false → homeTurn (ownDev s.sys) s.mem.ops o p = true →
      l2Cell s.mem.l2 0 die (frameOf (paOff p.pa)) (cellIn (paOff p.pa)) = none →
      ∃ t, exec (.homeRead op i) s = .next t ∧ (l2Cell t.mem.l2 0 die (frameOf (paOff p.pa)) (cellIn (paOff p.pa))).isSome = true) ∧
    (isLoad o = true → p.got = none → captureOk s.mem.ops o p = true → homeTurn (ownDev s.sys) s.mem.ops o p = true →
      (belowCell s o p p.pa).isSome = true → o.parts = [p] →
      ∃ t, exec (.fillComplete op (paFrame p.pa)) s = .next t ∧ PartNow t.mem op i fun q => q.got.isSome = true) ∧
    (isStore o = true → MayPerform s o i p → lateHeader s p = false → away → alone →
      ∃ t, exec (.homeOwn op i) s = .next t ∧ PartNow t.mem op i fun q => q.performed = true ∧ q.acked = true) ∧
    (isStore o = true → MayPerform s o i p → lateHeader s p = false → homeDie (paOff p.pa) = die →
      ∃ t, exec (.homeWrite op i) s = .next t ∧ (PartNow t.mem op i fun q => q.performed = true) ∧
        ∀ j < p.wdata.length, memByte t.mem (paOff p.pa + j) = p.wdata.getD j 0)) ∧
  (∀ (s : State) (txn agent : Nat) (x : Txn), findTxn s.mem txn = some x → agent ∈ x.outstanding →
    (agent ≠ 9 → (∀ a ∈ x.acks, a.1 ≠ agent) → ∃ t y, exec (.invalidate txn agent) s = .next t ∧ findTxn t.mem txn = some y ∧
      ∃ a ∈ y.acks, a.1 = agent) ∧
    (∀ d, x.acks.find? (fun a => a.1 == agent) = some (agent, (smGet s.sys.agentInc agent).toNat, d) → noticeAhead s.mem agent x.grain = false →
      ∃ t, exec (.invalidateAck txn agent) s = .next t ∧ ∀ y, findTxn t.mem txn = some y → agent ∉ y.outstanding) ∧
    (agent = 9 → leaseHolds s.mem s.sys.ptp s.sys.guardNs x.grain = false →
      ∃ t, exec (.horizonReached txn) s = .next t ∧ ∀ y, findTxn t.mem txn = some y → 9 ∉ y.outstanding)) ∧
  (∀ (s : State) (id : Nat) (n : Notice), (s.mem.notices.find? fun n => n.id == id) = some n →
    (n.data = none → ∃ t, exec (.homeEvict id) s = .next t ∧ ∀ y ∈ t.mem.notices, y.id ≠ id) ∧
    (n.data ≠ none → ∃ t, exec (.homeWback id) s = .next t ∧ ∀ y ∈ t.mem.notices, y.id ≠ id)) ∧
  (∀ (s : State) (die frame slice : Nat),
    (∃ t, exec (.leaseExpiry die frame) s = .next t ∧ ∀ i ∈ expiredCells s die frame, l2Cell t.mem.l2 0 die frame i = none) ∧
    ∃ t, exec (.directorySweep die slice) s = .next t ∧ ∀ e ∈ t.mem.dir, dirEmpty s.sys.ptp e = false) ∧
  ∀ (s : State) (part cid die : Nat) (va : Dbl) (w : Walk) (c : Ctx) (p : Partition),
    (s.mem.walks.find? fun w => w.die == die && w.part == part && w.ctx == cid && w.page == va.toNat / 2 ^ 16) = some w →
    findCtx s.ctl.ctxs part cid = some c → findPart s.ctl.parts part = some p → walkOn s.mem.walks w = true →
    c.state ≠ .halting → c.state ≠ .halted → ∃ t, exec (.pageWalk part cid die va) s = .next t ∧ w ∉ t.mem.walks

/-- The events that perform and end an operation run when they are due: an atomic on device memory and a queue operation are performed
at their home, and LOAD_COMPLETE, STORE_ACK and FIT_ANSWER end an operation of which everything has come back (R51, R52, R95, R221,
R355, R356). -/
def Obligations.OperationEventsComplete : Prop :=
  (∀ (s : State) (op i : Nat) (o : MemOp) (p : MemPart), findOp s.mem op = some o → o.parts[i]? = some p → p.performed = false →
    rmwSame s.mem o.issue p.pa = [(o, i)] → rmwReady s o p = true →
    (∀ at_ sg ret, o.kind = .rmw at_ sg ret → paLocal (ownDev s.sys) p.pa = true → paHost (ownDev s.sys) p.pa = false → p.len = 4 ∨ p.len = 8 →
      ∃ t, exec (.rmwAtHome op i) s = .next t ∧ PartNow t.mem op i fun q => q.performed = true ∧ q.got = some (natLe (numAt s p.pa p.len) p.len)) ∧
    (∀ b, o.kind = .enq b ∨ o.kind = .deq b → paLocal (ownDev s.sys) p.pa = true → queueAt s.ctl.queues p.pa = none →
      ∃ t, exec (.queueOpAtHome op i) s = .next t ∧ PartNow t.mem op i fun q => q.performed = true ∧ q.got = some (natLe 2 4 ++ natLe 0 4))) ∧
  ∀ (s : State) (op : Nat) (o : MemOp) (g : Gang), findOp s.mem op = some o → s.exe.gangs[o.gang]? = some g →
    (∀ q ∈ s.mem.ops, q.id = op → q = o) → (∀ p ∈ o.parts, p.got.isSome = true ∧ p.performed = true ∧ p.acked = true) → o.killed = false →
    (o.cls = .l → o.kind = .load → hostReadsDone (ownDev s.sys) s.mem.ops o = true →
      ∃ t, exec (.loadComplete op) s = .next t ∧ ∀ q ∈ t.mem.ops, q.id ≠ op) ∧
    (o.cls = .s → o.kind = .store → ∃ t, exec (.storeAck op) s = .next t ∧ ∀ q ∈ t.mem.ops, q.id ≠ op) ∧
    (∀ r, o.kind = .axb r → ∃ t, exec (.fitAnswer op) s = .next t ∧ ∀ q ∈ t.mem.ops, q.id ≠ op) ∧
    (∀ r, o.kind = .axe r → samplesLeft s o = false → ∃ t, exec (.fitAnswer op) s = .next t ∧ ∀ q ∈ t.mem.ops, q.id ≠ op)
end

