-- ==== Sys2Proof/Laws/Exec.lean ====
section
/-! SUPPORT. Laws/Exec.lean: each constructor's arm of `exec`, as an equation. -/

namespace Sys2Proof.Machine

theorem exec_nop (s : State) : exec .nop s = execNop s := rfl
theorem exec_mode (n : BitVec 1) (g : BitVec 3) (t : BitVec 4) (r : BitVec 3) (s_ : BitVec 1) (c : BitVec 3) (o : BitVec 3) (p : BitVec 4) (s : State) : exec (.mode n g t r s_ c o p) s = execMode n g t r s_ c o p s := rfl
theorem exec_imm (i : BitVec 24) (s : State) : exec (.imm i) s = execImm i s := rfl
theorem exec_immh (i : BitVec 8) (s : State) : exec (.immh i) s = execImmh i s := rfl
theorem exec_wait (l : BitVec 6) (s_ : BitVec 6) (c : BitVec 6) (f : BitVec 6) (s : State) : exec (.wait l s_ c f) s = execWait l s_ c f s := rfl
theorem exec_bra (o : BitVec 24) (s : State) : exec (.bra o) s = execBra o s := rfl
theorem exec_call (o : BitVec 24) (s : State) : exec (.call o) s = execCall o s := rfl
theorem exec_ret (s : State) : exec .ret s = execRet s := rfl
theorem exec_brx (a : BitVec 8) (s_ : BitVec 1) (s : State) : exec (.brx a s_) s = execBrx a s_ s := rfl
theorem exec_rpush (o : BitVec 24) (s : State) : exec (.rpush o) s = execRpush o s := rfl
theorem exec_join (s : State) : exec .join s = execJoin s := rfl
theorem exec_regang (t : BitVec 24) (s : State) : exec (.regang t) s = execRegang t s := rfl
theorem exec_exit (s : State) : exec .exit s = execExit s := rfl
theorem exec_yield (s : State) : exec .yield s = execYield s := rfl
theorem exec_elect (d : BitVec 3) (s_ : BitVec 1) (s : State) : exec (.elect d s_) s = execElect d s_ s := rfl
theorem exec_vote (d : BitVec 8) (a : BitVec 3) (s_ : BitVec 2) (s : State) : exec (.vote d a s_) s = execVote d a s_ s := rfl
theorem exec_getc (d : BitVec 8) (s_ : BitVec 4) (s : State) : exec (.getc d s_) s = execGetc d s_ s := rfl
theorem exec_evwait (a : BitVec 8) (b : BitVec 8) (s : State) : exec (.evwait a b) s = execEvwait a b s := rfl
theorem exec_evadd (a : BitVec 8) (b : BitVec 8) (s : State) : exec (.evadd a b) s = execEvadd a b s := rfl
theorem exec_trap (c : BitVec 8) (s : State) : exec (.trap c) s = execTrap c s := rfl
theorem exec_rtt (s : State) : exec .rtt s = execRtt s := rfl
theorem exec_brk (c : BitVec 8) (s : State) : exec (.brk c) s = execBrk c s := rfl
theorem exec_halt (c : BitVec 8) (s : State) : exec (.halt c) s = execHalt c s := rfl
theorem exec_ctr (d : BitVec 8) (s_ : BitVec 2) (s : State) : exec (.ctr d s_) s = execCtr d s_ s := rfl
theorem exec_csrr (d : BitVec 8) (n : BitVec 12) (s : State) : exec (.csrr d n) s = execCsrr d n s := rfl
theorem exec_csrw (d : BitVec 8) (n : BitVec 12) (s : State) : exec (.csrw d n) s = execCsrw d n s := rfl
theorem exec_iadd (d : BitVec 8) (a : BitVec 8) (b : BitVec 8) (s : State) : exec (.iadd d a b) s = execIadd d a b s := rfl
theorem exec_isub (d : BitVec 8) (a : BitVec 8) (b : BitVec 8) (s : State) : exec (.isub d a b) s = execIsub d a b s := rfl
theorem exec_imul (d : BitVec 8) (a : BitVec 8) (b : BitVec 8) (s : State) : exec (.imul d a b) s = execImul d a b s := rfl
theorem exec_imulh (d : BitVec 8) (a : BitVec 8) (b : BitVec 8) (s : State) : exec (.imulh d a b) s = execImulh d a b s := rfl
theorem exec_imad (d : BitVec 8) (a : BitVec 8) (b : BitVec 8) (s : State) : exec (.imad d a b) s = execImad d a b s := rfl
theorem exec_imin (d : BitVec 8) (a : BitVec 8) (b : BitVec 8) (s : State) : exec (.imin d a b) s = execImin d a b s := rfl
theorem exec_imax (d : BitVec 8) (a : BitVec 8) (b : BitVec 8) (s : State) : exec (.imax d a b) s = execImax d a b s := rfl
theorem exec_iabs (d : BitVec 8) (a : BitVec 8) (s : State) : exec (.iabs d a) s = execIabs d a s := rfl
theorem exec_and (d : BitVec 8) (a : BitVec 8) (b : BitVec 8) (s : State) : exec (.and d a b) s = execAnd d a b s := rfl
theorem exec_or (d : BitVec 8) (a : BitVec 8) (b : BitVec 8) (s : State) : exec (.or d a b) s = execOr d a b s := rfl
theorem exec_xor (d : BitVec 8) (a : BitVec 8) (b : BitVec 8) (s : State) : exec (.xor d a b) s = execXor d a b s := rfl
theorem exec_andn (d : BitVec 8) (a : BitVec 8) (b : BitVec 8) (s : State) : exec (.andn d a b) s = execAndn d a b s := rfl
theorem exec_shl (d : BitVec 8) (a : BitVec 8) (b : BitVec 8) (s : State) : exec (.shl d a b) s = execShl d a b s := rfl
theorem exec_shr (d : BitVec 8) (a : BitVec 8) (b : BitVec 8) (s : State) : exec (.shr d a b) s = execShr d a b s := rfl
theorem exec_sar (d : BitVec 8) (a : BitVec 8) (b : BitVec 8) (s : State) : exec (.sar d a b) s = execSar d a b s := rfl
theorem exec_rot (d : BitVec 8) (a : BitVec 8) (b : BitVec 8) (s : State) : exec (.rot d a b) s = execRot d a b s := rfl
theorem exec_popc (d : BitVec 8) (a : BitVec 8) (s : State) : exec (.popc d a) s = execPopc d a s := rfl
theorem exec_clz (d : BitVec 8) (a : BitVec 8) (s : State) : exec (.clz d a) s = execClz d a s := rfl
theorem exec_brev (d : BitVec 8) (a : BitVec 8) (s : State) : exec (.brev d a) s = execBrev d a s := rfl
theorem exec_bfe (d : BitVec 8) (a : BitVec 8) (b : BitVec 8) (s : State) : exec (.bfe d a b) s = execBfe d a b s := rfl
theorem exec_bfi (d : BitVec 8) (a : BitVec 8) (b : BitVec 8) (s : State) : exec (.bfi d a b) s = execBfi d a b s := rfl
theorem exec_icmp (c : BitVec 3) (d : BitVec 3) (a : BitVec 8) (b : BitVec 8) (s : State) : exec (.icmp c d a b) s = execIcmp c d a b s := rfl
theorem exec_sel (d : BitVec 8) (a : BitVec 8) (b : BitVec 8) (s : State) : exec (.sel d a b) s = execSel d a b s := rfl
theorem exec_mov (d : BitVec 8) (a : BitVec 8) (s : State) : exec (.mov d a) s = execMov d a s := rfl
theorem exec_movi (d : BitVec 8) (i : BitVec 16) (s : State) : exec (.movi d i) s = execMovi d i s := rfl
theorem exec_movh (d : BitVec 8) (i : BitVec 16) (s : State) : exec (.movh d i) s = execMovh d i s := rfl
theorem exec_lea (d : BitVec 8) (a : BitVec 8) (b : BitVec 8) (s : State) : exec (.lea d a b) s = execLea d a b s := rfl
theorem exec_shfli (d : BitVec 8) (a : BitVec 8) (n : BitVec 5) (s : State) : exec (.shfli d a n) s = execShfli d a n s := rfl
theorem exec_shflx (d : BitVec 8) (a : BitVec 8) (n : BitVec 5) (s : State) : exec (.shflx d a n) s = execShflx d a n s := rfl
theorem exec_shflu (d : BitVec 8) (a : BitVec 8) (n : BitVec 5) (s : State) : exec (.shflu d a n) s = execShflu d a n s := rfl
theorem exec_shfld (d : BitVec 8) (a : BitVec 8) (n : BitVec 5) (s : State) : exec (.shfld d a n) s = execShfld d a n s := rfl
theorem exec_idot4 (d : BitVec 8) (a : BitVec 8) (b : BitVec 8) (s : State) : exec (.idot4 d a b) s = execIdot4 d a b s := rfl
theorem exec_pand (d : BitVec 3) (a : BitVec 3) (b : BitVec 3) (s : State) : exec (.pand d a b) s = execPand d a b s := rfl
theorem exec_por (d : BitVec 3) (a : BitVec 3) (b : BitVec 3) (s : State) : exec (.por d a b) s = execPor d a b s := rfl
theorem exec_pxor (d : BitVec 3) (a : BitVec 3) (b : BitVec 3) (s : State) : exec (.pxor d a b) s = execPxor d a b s := rfl
theorem exec_pnot (d : BitVec 3) (a : BitVec 3) (s : State) : exec (.pnot d a) s = execPnot d a s := rfl
theorem exec_p2v (d : BitVec 8) (a : BitVec 3) (s_ : BitVec 1) (s : State) : exec (.p2v d a s_) s = execP2v d a s_ s := rfl
theorem exec_v2p (d : BitVec 3) (a : BitVec 8) (s_ : BitVec 1) (s : State) : exec (.v2p d a s_) s = execV2p d a s_ s := rfl
theorem exec_pmov (d : BitVec 3) (a : BitVec 3) (s : State) : exec (.pmov d a) s = execPmov d a s := rfl
theorem exec_sadd (d : BitVec 8) (a : BitVec 8) (b : BitVec 8) (s : State) : exec (.sadd d a b) s = execSadd d a b s := rfl
theorem exec_ssub (d : BitVec 8) (a : BitVec 8) (b : BitVec 8) (s : State) : exec (.ssub d a b) s = execSsub d a b s := rfl
theorem exec_smul (d : BitVec 8) (a : BitVec 8) (b : BitVec 8) (s : State) : exec (.smul d a b) s = execSmul d a b s := rfl
theorem exec_sand (d : BitVec 8) (a : BitVec 8) (b : BitVec 8) (s : State) : exec (.sand d a b) s = execSand d a b s := rfl
theorem exec_sor (d : BitVec 8) (a : BitVec 8) (b : BitVec 8) (s : State) : exec (.sor d a b) s = execSor d a b s := rfl
theorem exec_sxor (d : BitVec 8) (a : BitVec 8) (b : BitVec 8) (s : State) : exec (.sxor d a b) s = execSxor d a b s := rfl
theorem exec_sshl (d : BitVec 8) (a : BitVec 8) (b : BitVec 8) (s : State) : exec (.sshl d a b) s = execSshl d a b s := rfl
theorem exec_sshr (d : BitVec 8) (a : BitVec 8) (b : BitVec 8) (s : State) : exec (.sshr d a b) s = execSshr d a b s := rfl
theorem exec_smov (d : BitVec 8) (a : BitVec 8) (s : State) : exec (.smov d a) s = execSmov d a s := rfl
theorem exec_smovi (d : BitVec 8) (i : BitVec 16) (s : State) : exec (.smovi d i) s = execSmovi d i s := rfl
theorem exec_scmp (c : BitVec 3) (d : BitVec 3) (a : BitVec 8) (b : BitVec 8) (s : State) : exec (.scmp c d a b) s = execScmp c d a b s := rfl
theorem exec_s2v (d : BitVec 8) (a : BitVec 8) (s : State) : exec (.s2v d a) s = execS2v d a s := rfl
theorem exec_v2s (d : BitVec 8) (a : BitVec 8) (s : State) : exec (.v2s d a) s = execV2s d a s := rfl
theorem exec_sld (d : BitVec 8) (a : BitVec 8) (b : BitVec 8) (s : State) : exec (.sld d a b) s = execSld d a b s := rfl
theorem exec_sst (d : BitVec 8) (a : BitVec 8) (b : BitVec 8) (s : State) : exec (.sst d a b) s = execSst d a b s := rfl
theorem exec_fadd (d : BitVec 8) (a : BitVec 8) (b : BitVec 8) (s : State) : exec (.fadd d a b) s = execFadd d a b s := rfl
theorem exec_fsub (d : BitVec 8) (a : BitVec 8) (b : BitVec 8) (s : State) : exec (.fsub d a b) s = execFsub d a b s := rfl
theorem exec_fmul (d : BitVec 8) (a : BitVec 8) (b : BitVec 8) (s : State) : exec (.fmul d a b) s = execFmul d a b s := rfl
theorem exec_ffma (d : BitVec 8) (a : BitVec 8) (b : BitVec 8) (s : State) : exec (.ffma d a b) s = execFfma d a b s := rfl
theorem exec_fmin (d : BitVec 8) (a : BitVec 8) (b : BitVec 8) (s : State) : exec (.fmin d a b) s = execFmin d a b s := rfl
theorem exec_fmax (d : BitVec 8) (a : BitVec 8) (b : BitVec 8) (s : State) : exec (.fmax d a b) s = execFmax d a b s := rfl
theorem exec_fabs (d : BitVec 8) (a : BitVec 8) (s : State) : exec (.fabs d a) s = execFabs d a s := rfl
theorem exec_fneg (d : BitVec 8) (a : BitVec 8) (s : State) : exec (.fneg d a) s = execFneg d a s := rfl
theorem exec_fcmp (c : BitVec 3) (d : BitVec 3) (a : BitVec 8) (b : BitVec 8) (s : State) : exec (.fcmp c d a b) s = execFcmp c d a b s := rfl
theorem exec_fclass (d : BitVec 8) (a : BitVec 8) (s : State) : exec (.fclass d a) s = execFclass d a s := rfl
theorem exec_fscale (d : BitVec 8) (a : BitVec 8) (b : BitVec 8) (s : State) : exec (.fscale d a b) s = execFscale d a b s := rfl
theorem exec_frint (d : BitVec 8) (a : BitVec 8) (s : State) : exec (.frint d a) s = execFrint d a s := rfl
theorem exec_frcp (d : BitVec 8) (a : BitVec 8) (s : State) : exec (.frcp d a) s = execFrcp d a s := rfl
theorem exec_frsq (d : BitVec 8) (a : BitVec 8) (s : State) : exec (.frsq d a) s = execFrsq d a s := rfl
theorem exec_fsqrt (d : BitVec 8) (a : BitVec 8) (s : State) : exec (.fsqrt d a) s = execFsqrt d a s := rfl
theorem exec_fexp2 (d : BitVec 8) (a : BitVec 8) (s : State) : exec (.fexp2 d a) s = execFexp2 d a s := rfl
theorem exec_flog2 (d : BitVec 8) (a : BitVec 8) (s : State) : exec (.flog2 d a) s = execFlog2 d a s := rfl
theorem exec_fsin (d : BitVec 8) (a : BitVec 8) (s : State) : exec (.fsin d a) s = execFsin d a s := rfl
theorem exec_fcos (d : BitVec 8) (a : BitVec 8) (s : State) : exec (.fcos d a) s = execFcos d a s := rfl
theorem exec_ftanh (d : BitVec 8) (a : BitVec 8) (s : State) : exec (.ftanh d a) s = execFtanh d a s := rfl
theorem exec_fdiv (d : BitVec 8) (a : BitVec 8) (b : BitVec 8) (s : State) : exec (.fdiv d a b) s = execFdiv d a b s := rfl
theorem exec_cvt (d : BitVec 8) (a : BitVec 8) (p : BitVec 2) (t : BitVec 4) (s : State) : exec (.cvt d a p t) s = execCvt d a p t s := rfl
theorem exec_cvtsr (d : BitVec 8) (a : BitVec 8) (f : BitVec 3) (p : BitVec 2) (r : BitVec 3) (s : State) : exec (.cvtsr d a f p r) s = execCvtsr d a f p r s := rfl
theorem exec_rng (d : BitVec 8) (a : BitVec 8) (s_ : BitVec 8) (s : State) : exec (.rng d a s_) s = execRng d a s_ s := rfl
theorem exec_qmx (d : BitVec 8) (a : BitVec 8) (f : BitVec 3) (s : State) : exec (.qmx d a f) s = execQmx d a f s := rfl
theorem exec_dqmx (d : BitVec 8) (a : BitVec 8) (b : BitVec 8) (s : State) : exec (.dqmx d a b) s = execDqmx d a b s := rfl
theorem exec_packl (d : BitVec 8) (a : BitVec 8) (b : BitVec 8) (s : State) : exec (.packl d a b) s = execPackl d a b s := rfl
theorem exec_unpackl (d : BitVec 8) (a : BitVec 8) (f : BitVec 4) (s : State) : exec (.unpackl d a f) s = execUnpackl d a f s := rfl
theorem exec_gamax (d : BitVec 8) (a : BitVec 8) (s : State) : exec (.gamax d a) s = execGamax d a s := rfl
theorem exec_gred (d : BitVec 8) (a : BitVec 8) (s_ : BitVec 2) (s : State) : exec (.gred d a s_) s = execGred d a s_ s := rfl
theorem exec_fdot2 (d : BitVec 8) (a : BitVec 8) (b : BitVec 8) (s : State) : exec (.fdot2 d a b) s = execFdot2 d a b s := rfl
theorem exec_cmp24 (d : BitVec 8) (a : BitVec 8) (s_ : BitVec 1) (s : State) : exec (.cmp24 d a s_) s = execCmp24 d a s_ s := rfl
theorem exec_ld (d : BitVec 8) (a : BitVec 8) (b : BitVec 8) (s : State) : exec (.ld d a b) s = execLd d a b s := rfl
theorem exec_ld2 (d : BitVec 8) (a : BitVec 8) (b : BitVec 8) (s : State) : exec (.ld2 d a b) s = execLd2 d a b s := rfl
theorem exec_ld4 (d : BitVec 8) (a : BitVec 8) (b : BitVec 8) (s : State) : exec (.ld4 d a b) s = execLd4 d a b s := rfl
theorem exec_st (d : BitVec 8) (a : BitVec 8) (b : BitVec 8) (s : State) : exec (.st d a b) s = execSt d a b s := rfl
theorem exec_st2 (d : BitVec 8) (a : BitVec 8) (b : BitVec 8) (s : State) : exec (.st2 d a b) s = execSt2 d a b s := rfl
theorem exec_st4 (d : BitVec 8) (a : BitVec 8) (b : BitVec 8) (s : State) : exec (.st4 d a b) s = execSt4 d a b s := rfl
theorem exec_ldl (d : BitVec 8) (a : BitVec 8) (b : BitVec 8) (s : State) : exec (.ldl d a b) s = execLdl d a b s := rfl
theorem exec_ldl4 (d : BitVec 8) (a : BitVec 8) (b : BitVec 8) (s : State) : exec (.ldl4 d a b) s = execLdl4 d a b s := rfl
theorem exec_stl (d : BitVec 8) (a : BitVec 8) (b : BitVec 8) (s : State) : exec (.stl d a b) s = execStl d a b s := rfl
theorem exec_stl4 (d : BitVec 8) (a : BitVec 8) (b : BitVec 8) (s : State) : exec (.stl4 d a b) s = execStl4 d a b s := rfl
theorem exec_atadd (d : BitVec 8) (a : BitVec 8) (b : BitVec 8) (s : State) : exec (.atadd d a b) s = execAtadd d a b s := rfl
theorem exec_atand (d : BitVec 8) (a : BitVec 8) (b : BitVec 8) (s : State) : exec (.atand d a b) s = execAtand d a b s := rfl
theorem exec_ator (d : BitVec 8) (a : BitVec 8) (b : BitVec 8) (s : State) : exec (.ator d a b) s = execAtor d a b s := rfl
theorem exec_atxor (d : BitVec 8) (a : BitVec 8) (b : BitVec 8) (s : State) : exec (.atxor d a b) s = execAtxor d a b s := rfl
theorem exec_atmin (d : BitVec 8) (a : BitVec 8) (b : BitVec 8) (s : State) : exec (.atmin d a b) s = execAtmin d a b s := rfl
theorem exec_atmax (d : BitVec 8) (a : BitVec 8) (b : BitVec 8) (s : State) : exec (.atmax d a b) s = execAtmax d a b s := rfl
theorem exec_atxchg (d : BitVec 8) (a : BitVec 8) (b : BitVec 8) (s : State) : exec (.atxchg d a b) s = execAtxchg d a b s := rfl
theorem exec_atcas (d : BitVec 8) (a : BitVec 8) (b : BitVec 8) (s : State) : exec (.atcas d a b) s = execAtcas d a b s := rfl
theorem exec_atfmax (d : BitVec 8) (a : BitVec 8) (b : BitVec 8) (s : State) : exec (.atfmax d a b) s = execAtfmax d a b s := rfl
theorem exec_atfmin (d : BitVec 8) (a : BitVec 8) (b : BitVec 8) (s : State) : exec (.atfmin d a b) s = execAtfmin d a b s := rfl
theorem exec_atladd (d : BitVec 8) (a : BitVec 8) (b : BitVec 8) (s : State) : exec (.atladd d a b) s = execAtladd d a b s := rfl
theorem exec_atlcas (d : BitVec 8) (a : BitVec 8) (b : BitVec 8) (s : State) : exec (.atlcas d a b) s = execAtlcas d a b s := rfl
theorem exec_fence (s : State) : exec .fence s = execFence s := rfl
theorem exec_flush (a : BitVec 8) (b : BitVec 8) (s : State) : exec (.flush a b) s = execFlush a b s := rfl
theorem exec_invr (a : BitVec 8) (b : BitVec 8) (s : State) : exec (.invr a b) s = execInvr a b s := rfl
theorem exec_pref (l : BitVec 2) (a : BitVec 8) (b : BitVec 8) (s : State) : exec (.pref l a b) s = execPref l a b s := rfl
theorem exec_lockb (d : BitVec 8) (a : BitVec 8) (b : BitVec 8) (s : State) : exec (.lockb d a b) s = execLockb d a b s := rfl
theorem exec_unlockb (a : BitVec 8) (b : BitVec 8) (s : State) : exec (.unlockb a b) s = execUnlockb a b s := rfl
theorem exec_enq (d : BitVec 8) (a : BitVec 8) (b : BitVec 8) (s : State) : exec (.enq d a b) s = execEnq d a b s := rfl
theorem exec_deq (d : BitVec 8) (a : BitVec 8) (b : BitVec 8) (s : State) : exec (.deq d a b) s = execDeq d a b s := rfl
theorem exec_pstore (d : BitVec 8) (a : BitVec 8) (b : BitVec 8) (s : State) : exec (.pstore d a b) s = execPstore d a b s := rfl
theorem exec_binit (a : BitVec 8) (b : BitVec 8) (s : State) : exec (.binit a b) s = execBinit a b s := rfl
theorem exec_barr (d : BitVec 8) (a : BitVec 8) (k : BitVec 2) (s : State) : exec (.barr d a k) s = execBarr d a k s := rfl
theorem exec_bexp (a : BitVec 8) (b : BitVec 8) (s : State) : exec (.bexp a b) s = execBexp a b s := rfl
theorem exec_bwait (a : BitVec 8) (b : BitVec 8) (s : State) : exec (.bwait a b) s = execBwait a b s := rfl
theorem exec_btest (d : BitVec 3) (a : BitVec 8) (b : BitVec 8) (s : State) : exec (.btest d a b) s = execBtest d a b s := rfl
theorem exec_nbarr (d : BitVec 8) (a : BitVec 8) (g : BitVec 2) (n : BitVec 4) (s : State) : exec (.nbarr d a g n) s = execNbarr d a g n s := rfl
theorem exec_nbwait (a : BitVec 8) (n : BitVec 4) (s : State) : exec (.nbwait a n) s = execNbwait a n s := rfl
theorem exec_copy (d : BitVec 8) (a : BitVec 8) (n : BitVec 1) (r : BitVec 2) (s : State) : exec (.copy d a n r) s = execCopy d a n r s := rfl
theorem exec_copyg (d : BitVec 8) (a : BitVec 8) (n : BitVec 1) (s : State) : exec (.copyg d a n) s = execCopyg d a n s := rfl
theorem exec_copyc (d : BitVec 8) (a : BitVec 8) (n : BitVec 1) (f : BitVec 2) (s : State) : exec (.copyc d a n f) s = execCopyc d a n f s := rfl
theorem exec_accarm (d : BitVec 8) (a : BitVec 8) (s : State) : exec (.accarm d a) s = execAccarm d a s := rfl
theorem exec_contrib (d : BitVec 8) (a : BitVec 8) (b : BitVec 8) (s : State) : exec (.contrib d a b) s = execContrib d a b s := rfl
theorem exec_contribn (d : BitVec 8) (a : BitVec 8) (b : BitVec 8) (s : State) : exec (.contribn d a b) s = execContribn d a b s := rfl
theorem exec_accq (d : BitVec 8) (a : BitVec 8) (b : BitVec 8) (s : State) : exec (.accq d a b) s = execAccq d a b s := rfl
theorem exec_accdrop (a : BitVec 8) (s : State) : exec (.accdrop a) s = execAccdrop a s := rfl
theorem exec_axb (d : BitVec 8) (a : BitVec 8) (i : BitVec 6) (s : State) : exec (.axb d a i) s = execAxb d a i s := rfl
theorem exec_axe (a : BitVec 8) (i : BitVec 6) (s : State) : exec (.axe a i) s = execAxe a i s := rfl
theorem exec_axinv (i : BitVec 6) (s : State) : exec (.axinv i) s = execAxinv i s := rfl
theorem exec_axq (d : BitVec 8) (s_ : BitVec 4) (i : BitVec 6) (s : State) : exec (.axq d s_ i) s = execAxq d s_ i s := rfl
theorem exec_tnop (s : State) : exec .tnop s = execTnop s := rfl
theorem exec_tfmt (d : BitVec 2) (a : BitVec 4) (s : State) : exec (.tfmt d a) s = execTfmt d a s := rfl
theorem exec_tset (d : BitVec 4) (p : BitVec 2) (i : BitVec 16) (s : State) : exec (.tset d p i) s = execTset d p i s := rfl
theorem exec_taddImm (d : BitVec 4) (a : BitVec 4) (i : BitVec 16) (s : State) : exec (.taddImm d a i) s = execTaddImm d a i s := rfl
theorem exec_taddReg (d : BitVec 4) (a : BitVec 4) (b : BitVec 4) (s : State) : exec (.taddReg d a b) s = execTaddReg d a b s := rfl
theorem exec_tldb (a : BitVec 4) (b : BitVec 4) (s_ : BitVec 4) (f : BitVec 2) (s : State) : exec (.tldb a b s_ f) s = execTldb a b s_ f s := rfl
theorem exec_tldc (k : BitVec 2) (a : BitVec 4) (s_ : BitVec 4) (f : BitVec 2) (s : State) : exec (.tldc k a s_ f) s = execTldc k a s_ f s := rfl
theorem exec_tzero (k : BitVec 2) (s : State) : exec (.tzero k) s = execTzero k s := rfl
theorem exec_mm (k : BitVec 2) (f : BitVec 2) (a : BitVec 4) (b : BitVec 4) (l : BitVec 4) (s_ : BitVec 4) (s : State) : exec (.mm k f a b l s_) s = execMm k f a b l s_ s := rfl
theorem exec_mmdual (k : BitVec 2) (f : BitVec 2) (a : BitVec 4) (b : BitVec 4) (o : BitVec 4) (s_ : BitVec 4) (s : State) : exec (.mmdual k f a b o s_) s = execMmdual k f a b o s_ s := rfl
theorem exec_mmt (k : BitVec 2) (f : BitVec 2) (a : BitVec 4) (b : BitVec 4) (l : BitVec 4) (s_ : BitVec 4) (s : State) : exec (.mmt k f a b l s_) s = execMmt k f a b l s_ s := rfl
theorem exec_mms (k : BitVec 2) (f : BitVec 2) (a : BitVec 4) (b : BitVec 4) (l : BitVec 4) (s_ : BitVec 4) (s : State) : exec (.mms k f a b l s_) s = execMms k f a b l s_ s := rfl
theorem exec_tlds (a : BitVec 4) (b : BitVec 4) (s_ : BitVec 4) (s : State) : exec (.tlds a b s_) s = execTlds a b s_ s := rfl
theorem exec_tsta (k : BitVec 2) (f : BitVec 2) (d : BitVec 4) (o : BitVec 3) (t : BitVec 1) (s : State) : exec (.tsta k f d o t) s = execTsta k f d o t s := rfl
theorem exec_temit (k : BitVec 2) (d : BitVec 4) (s : State) : exec (.temit k d) s = execTemit k d s := rfl
theorem exec_tloopImm (l : BitVec 6) (c : BitVec 19) (s : State) : exec (.tloopImm l c) s = execTloopImm l c s := rfl
theorem exec_tloopReg (l : BitVec 6) (a : BitVec 4) (s : State) : exec (.tloopReg l a) s = execTloopReg l a s := rfl
theorem exec_tincOff (s_ : BitVec 2) (s : State) : exec (.tincOff s_) s = execTincOff s_ s := rfl
theorem exec_tincT (s_ : BitVec 2) (x : BitVec 4) (i : BitVec 16) (s : State) : exec (.tincT s_ x i) s = execTincT s_ x i s := rfl
theorem exec_tincAcc (s_ : BitVec 2) (i : BitVec 16) (s : State) : exec (.tincAcc s_ i) s = execTincAcc s_ i s := rfl
theorem exec_twait (k : BitVec 4) (a : BitVec 4) (s : State) : exec (.twait k a) s = execTwait k a s := rfl
theorem exec_tarr (k : BitVec 4) (d : BitVec 4) (s : State) : exec (.tarr k d) s = execTarr k d s := rfl
theorem exec_tstop (s : State) : exec .tstop s = execTstop s := rfl
theorem exec_ctxBuild (part ctx : Nat) (s : State) : exec (.ctxBuild part ctx) s = execCtxBuild part ctx s := rfl
theorem exec_ctxEnable (part ctx : Nat) (s : State) : exec (.ctxEnable part ctx) s = execCtxEnable part ctx s := rfl
theorem exec_ctxPark (part ctx : Nat) (s : State) : exec (.ctxPark part ctx) s = execCtxPark part ctx s := rfl
theorem exec_ctxResume (part ctx : Nat) (s : State) : exec (.ctxResume part ctx) s = execCtxResume part ctx s := rfl
theorem exec_ctxDstop (part ctx : Nat) (s : State) : exec (.ctxDstop part ctx) s = execCtxDstop part ctx s := rfl
theorem exec_ctxHalt (part ctx : Nat) (s : State) : exec (.ctxHalt part ctx) s = execCtxHalt part ctx s := rfl
theorem exec_ctxRetire (part ctx : Nat) (s : State) : exec (.ctxRetire part ctx) s = execCtxRetire part ctx s := rfl
theorem exec_ctxRelease (part ctx : Nat) (s : State) : exec (.ctxRelease part ctx) s = execCtxRelease part ctx s := rfl
theorem exec_hewEnq (part win ctx : Nat) (s : State) : exec (.hewEnq part win ctx) s = execHewEnq part win ctx s := rfl
theorem exec_hewDeq (part win ctx : Nat) (s : State) : exec (.hewDeq part win ctx) s = execHewDeq part win ctx s := rfl
theorem exec_hewBind (part win ctx : Nat) (s : State) : exec (.hewBind part win ctx) s = execHewBind part win ctx s := rfl
theorem exec_hewDrain (part win ctx : Nat) (s : State) : exec (.hewDrain part win ctx) s = execHewDrain part win ctx s := rfl
theorem exec_hewReset (part win ctx : Nat) (s : State) : exec (.hewReset part win ctx) s = execHewReset part win ctx s := rfl
theorem exec_dispatcherTake (s : State) : exec .dispatcherTake s = execDispatcherTake s := rfl
theorem exec_dependencyPoll (queue : Nat) (s : State) : exec (.dependencyPoll queue) s = execDependencyPoll queue s := rfl
theorem exec_nopPacket (k : Nat) (s : State) : exec (.nopPacket k) s = execNopPacket k s := rfl
theorem exec_launchPacket (k : Nat) (s : State) : exec (.launchPacket k) s = execLaunchPacket k s := rfl
theorem exec_pinPacket (k : Nat) (s : State) : exec (.pinPacket k) s = execPinPacket k s := rfl
theorem exec_unpinPacket (k : Nat) (s : State) : exec (.unpinPacket k) s = execUnpinPacket k s := rfl
theorem exec_signalPacket (k : Nat) (s : State) : exec (.signalPacket k) s = execSignalPacket k s := rfl
theorem exec_recordPacket (k : Nat) (s : State) : exec (.recordPacket k) s = execRecordPacket k s := rfl
theorem exec_fitsyncPacket (k : Nat) (s : State) : exec (.fitsyncPacket k) s = execFitsyncPacket k s := rfl
theorem exec_policyPacket (k : Nat) (s : State) : exec (.policyPacket k) s = execPolicyPacket k s := rfl
theorem exec_gridAccept (k : Nat) (s : State) : exec (.gridAccept k) s = execGridAccept k s := rfl
theorem exec_groupPlace (part : Nat) (s : State) : exec (.groupPlace part) s = execGroupPlace part s := rfl
theorem exec_groupRestore (group : Nat) (s : State) : exec (.groupRestore group) s = execGroupRestore group s := rfl
theorem exec_groupParked (group : Nat) (s : State) : exec (.groupParked group) s = execGroupParked group s := rfl
theorem exec_groupDone (group : Nat) (s : State) : exec (.groupDone group) s = execGroupDone group s := rfl
theorem exec_groupRequeue (group : Nat) (s : State) : exec (.groupRequeue group) s = execGroupRequeue group s := rfl
theorem exec_kernelRetire (k : Nat) (s : State) : exec (.kernelRetire k) s = execKernelRetire k s := rfl
theorem exec_faultAtHub (part ctx : Nat) (s : State) : exec (.faultAtHub part ctx) s = execFaultAtHub part ctx s := rfl
theorem exec_contextStopped (part ctx : Nat) (s : State) : exec (.contextStopped part ctx) s = execContextStopped part ctx s := rfl
theorem exec_watchdog (k : Nat) (s : State) : exec (.watchdog k) s = execWatchdog k s := rfl
theorem exec_gangStarved (gang : Nat) (s : State) : exec (.gangStarved gang) s = execGangStarved gang s := rfl
theorem exec_fitTrainingDone (part ctx region : Nat) (s : State) : exec (.fitTrainingDone part ctx region) s = execFitTrainingDone part ctx region s := rfl
theorem exec_scrubComplete (die : Nat) (s : State) : exec (.scrubComplete die) s = execScrubComplete die s := rfl
theorem exec_turnPass (k : Nat) (s : State) : exec (.turnPass k) s = execTurnPass k s := rfl
theorem exec_sampleAtHome (sample : Nat) (s : State) : exec (.sampleAtHome sample) s = execSampleAtHome sample s := rfl
theorem exec_loadComplete (op : Nat) (s : State) : exec (.loadComplete op) s = execLoadComplete op s := rfl
theorem exec_storeAck (op : Nat) (s : State) : exec (.storeAck op) s = execStoreAck op s := rfl
theorem exec_fitAnswer (op : Nat) (s : State) : exec (.fitAnswer op) s = execFitAnswer op s := rfl
theorem exec_fillComplete (op frame : Nat) (s : State) : exec (.fillComplete op frame) s = execFillComplete op frame s := rfl
theorem exec_homeRead (op part : Nat) (s : State) : exec (.homeRead op part) s = execHomeRead op part s := rfl
theorem exec_homeOwn (op part : Nat) (s : State) : exec (.homeOwn op part) s = execHomeOwn op part s := rfl
theorem exec_homeWrite (op part : Nat) (s : State) : exec (.homeWrite op part) s = execHomeWrite op part s := rfl
theorem exec_homeEvict (notice : Nat) (s : State) : exec (.homeEvict notice) s = execHomeEvict notice s := rfl
theorem exec_homeWback (notice : Nat) (s : State) : exec (.homeWback notice) s = execHomeWback notice s := rfl
theorem exec_invalidate (txn agent : Nat) (s : State) : exec (.invalidate txn agent) s = execInvalidate txn agent s := rfl
theorem exec_invalidateAck (txn agent : Nat) (s : State) : exec (.invalidateAck txn agent) s = execInvalidateAck txn agent s := rfl
theorem exec_rmwAtHome (op part : Nat) (s : State) : exec (.rmwAtHome op part) s = execRmwAtHome op part s := rfl
theorem exec_queueOpAtHome (op part : Nat) (s : State) : exec (.queueOpAtHome op part) s = execQueueOpAtHome op part s := rfl
theorem exec_horizonReached (txn : Nat) (s : State) : exec (.horizonReached txn) s = execHorizonReached txn s := rfl
theorem exec_copyEntryAssign (core : Nat) (s : State) : exec (.copyEntryAssign core) s = execCopyEntryAssign core s := rfl
theorem exec_copyCellLand (copy cell : Nat) (s : State) : exec (.copyCellLand copy cell) s = execCopyCellLand copy cell s := rfl
theorem exec_copycRowRead (copy : Nat) (s : State) : exec (.copycRowRead copy) s = execCopycRowRead copy s := rfl
theorem exec_partialAtBuffer (p : Nat) (s : State) : exec (.partialAtBuffer p) s = execPartialAtBuffer p s := rfl
theorem exec_partialForwardTimeout (held : Nat) (s : State) : exec (.partialForwardTimeout held) s = execPartialForwardTimeout held s := rfl
theorem exec_partialAtHome (p : Nat) (s : State) : exec (.partialAtHome p) s = execPartialAtHome p s := rfl
theorem exec_accdropAtHome (part ctx slot home : Nat) (s : State) : exec (.accdropAtHome part ctx slot home) s = execAccdropAtHome part ctx slot home s := rfl
theorem exec_leaseExpiry (die frame : Nat) (s : State) : exec (.leaseExpiry die frame) s = execLeaseExpiry die frame s := rfl
theorem exec_directorySweep (die slice : Nat) (s : State) : exec (.directorySweep die slice) s = execDirectorySweep die slice s := rfl
theorem exec_pageWalk (part ctx die : Nat) (va : Dbl) (s : State) : exec (.pageWalk part ctx die va) s = execPageWalk part ctx die va s := rfl
theorem exec_eagerHitNotify (core part ctx region : Nat) (s : State) : exec (.eagerHitNotify core part ctx region) s = execEagerHitNotify core part ctx region s := rfl
theorem exec_peerRequest (r : PeerReq) (s : State) : exec (.peerRequest r) s = execPeerRequest r s := rfl
theorem exec_refused (op : Nat) (s : State) : exec (.refused op) s = execRefused op s := rfl
theorem exec_dieLost (die : Nat) (s : State) : exec (.dieLost die) s = execDieLost die s := rfl
theorem exec_peerLost (dev : Nat) (s : State) : exec (.peerLost dev) s = execPeerLost dev s := rfl
theorem exec_hostWrite (fn : HostFn) (offset : Nat) (data : List Byte) (s : State) : exec (.hostWrite fn offset data) s = execHostWrite fn offset data s := rfl
theorem exec_hostRead (bar : HostBar) (offset len : Nat) (s : State) : exec (.hostRead bar offset len) s = execHostRead bar offset len s := rfl
theorem exec_debugWindowAccess (part ctx : Nat) (addr : Dbl) (len : Nat) (data : Option (List Byte)) (s : State) : exec (.debugWindowAccess part ctx addr len data) s = execDebugWindowAccess part ctx addr len data s := rfl
theorem exec_guardNsWrite (value : Word) (s : State) : exec (.guardNsWrite value) s = execGuardNsWrite value s := rfl
theorem exec_domIdWrite (value : Word) (s : State) : exec (.domIdWrite value) s = execDomIdWrite value s := rfl
theorem exec_registerWrite (reg : PlainReg) (value : Dbl) (s : State) : exec (.registerWrite reg value) s = execRegisterWrite reg value s := rfl
theorem exec_linkEnable (link : Nat) (s : State) : exec (.linkEnable link) s = execLinkEnable link s := rfl
theorem exec_linkDisable (link : Nat) (s : State) : exec (.linkDisable link) s = execLinkDisable link s := rfl
theorem exec_linkQuarantine (link : Nat) (s : State) : exec (.linkQuarantine link) s = execLinkQuarantine link s := rfl
theorem exec_linkRelease (link : Nat) (s : State) : exec (.linkRelease link) s = execLinkRelease link s := rfl
theorem exec_linkTrained (link lanes farInc : Nat) (s : State) : exec (.linkTrained link lanes farInc) s = execLinkTrained link lanes farInc s := rfl
theorem exec_linkTrainingFail (link : Nat) (s : State) : exec (.linkTrainingFail link) s = execLinkTrainingFail link s := rfl
theorem exec_laneFail (link working : Nat) (s : State) : exec (.laneFail link working) s = execLaneFail link working s := rfl
theorem exec_flitCrcFail (flit : LinkFlit) (s : State) : exec (.flitCrcFail flit) s = execFlitCrcFail flit s := rfl
theorem exec_linkRetrain (link : Nat) (s : State) : exec (.linkRetrain link) s = execLinkRetrain link s := rfl
theorem exec_gcmTagFail (link : Nat) (s : State) : exec (.gcmTagFail link) s = execGcmTagFail link s := rfl
theorem exec_moduleReset (s : State) : exec .moduleReset s = execModuleReset s := rfl
theorem exec_getVersion (fn : Nat) (s : State) : exec (.getVersion fn) s = execGetVersion fn s := rfl
theorem exec_getCapabilities (fn : Nat) (s : State) : exec (.getCapabilities fn) s = execGetCapabilities fn s := rfl
theorem exec_negotiateAlgorithms (fn offered : Nat) (s : State) : exec (.negotiateAlgorithms fn offered) s = execNegotiateAlgorithms fn offered s := rfl
theorem exec_getDigests (fn : Nat) (s : State) : exec (.getDigests fn) s = execGetDigests fn s := rfl
theorem exec_getCertificate (fn offset len : Nat) (s : State) : exec (.getCertificate fn offset len) s = execGetCertificate fn offset len s := rfl
theorem exec_challenge (fn nonce : Nat) (s : State) : exec (.challenge fn nonce) s = execChallenge fn nonce s := rfl
theorem exec_getMeasurements (fn index : Nat) (s : State) : exec (.getMeasurements fn index) s = execGetMeasurements fn index s := rfl
theorem exec_keyExchange (fn share : Nat) (s : State) : exec (.keyExchange fn share) s = execKeyExchange fn share s := rfl
theorem exec_finish (fn verifyData : Nat) (s : State) : exec (.finish fn verifyData) s = execFinish fn verifyData s := rfl
theorem exec_keyUpdate (target : KeyTarget) (s : State) : exec (.keyUpdate target) s = execKeyUpdate target s := rfl
theorem exec_endSession (fn : Nat) (s : State) : exec (.endSession fn) s = execEndSession fn s := rfl
theorem exec_lockInterfaceRequest (fn : Nat) (s : State) : exec (.lockInterfaceRequest fn) s = execLockInterfaceRequest fn s := rfl
theorem exec_bindPolicyKey (fn key : Nat) (s : State) : exec (.bindPolicyKey fn key) s = execBindPolicyKey fn key s := rfl
theorem exec_startInterfaceRequest (fn : Nat) (s : State) : exec (.startInterfaceRequest fn) s = execStartInterfaceRequest fn s := rfl
theorem exec_stopInterfaceRequest (fn : Nat) (s : State) : exec (.stopInterfaceRequest fn) s = execStopInterfaceRequest fn s := rfl
theorem exec_ideIntegrityFailure (fn : Nat) (s : State) : exec (.ideIntegrityFailure fn) s = execIdeIntegrityFailure fn s := rfl
theorem exec_correctedError (die : Nat) (s : State) : exec (.correctedError die) s = execCorrectedError die s := rfl
theorem exec_uncorrectableError (site : ErrSite) (s : State) : exec (.uncorrectableError site) s = execUncorrectableError site s := rfl
theorem exec_patrolScrub (die corrected uncorrected : Nat) (s : State) : exec (.patrolScrub die corrected uncorrected) s = execPatrolScrub die corrected uncorrected s := rfl
theorem exec_throttle (temp : Nat) (s : State) : exec (.throttle temp) s = execThrottle temp s := rfl
theorem exec_thermalTrip (temp : Nat) (s : State) : exec (.thermalTrip temp) s = execThermalTrip temp s := rfl
theorem exec_undervoltageTrip (millivolts : Nat) (s : State) : exec (.undervoltageTrip millivolts) s = execUndervoltageTrip millivolts s := rfl
theorem exec_stopGoSignal (link cls : Nat) (stop : Bool) (s : State) : exec (.stopGoSignal link cls stop) s = execStopGoSignal link cls stop s := rfl
theorem exec_peerReadmission (dev : Nat) (s : State) : exec (.peerReadmission dev) s = execPeerReadmission dev s := rfl
theorem exec_changePartition (fn part : Nat) (dies : List Nat) (reserved : List (Nat × Nat)) (s : State) : exec (.changePartition fn part dies reserved) s = execChangePartition fn part dies reserved s := rfl
theorem exec_ideKeyManagement (fn stream key : Nat) (s : State) : exec (.ideKeyManagement fn stream key) s = execIdeKeyManagement fn stream key s := rfl
theorem exec_fullModuleTrainingComplete (s : State) : exec .fullModuleTrainingComplete s = execFullModuleTrainingComplete s := rfl

end Sys2Proof.Machine
end

