-- ==== Sys2Proof/Laws/Sparse.lean ====
section
/-! SUPPORT. Laws/Sparse.lean: reading after writing a sparse map, and its canonical form. -/

namespace Sys2Proof.Machine

@[simp] theorem smGet_nil {n : Nat} (k : Nat) : smGet ([] : SMap n) k = 0 := rfl

theorem smGet_cons {n : Nat} (a : Nat) (v : BitVec n) (t : SMap n) (k : Nat) :
    smGet ((a, v) :: t) k = if a = k then v else smGet t k := rfl

/-- Every key of the map is above `b`. -/
def smAbove {n : Nat} (b : Nat) (m : SMap n) : Prop := ∀ p ∈ m, b < p.1

theorem smWf_cons {n : Nat} (a : Nat) (v : BitVec n) (t : SMap n) :
    smWf ((a, v) :: t) = true ↔ v ≠ 0 ∧ smAbove a t ∧ smWf t = true := by
  induction t generalizing a v with
  | nil => simp [smWf, smAbove]
  | cons p t ih =>
    obtain ⟨b, w⟩ := p
    simp only [smWf, Bool.and_eq_true, decide_eq_true_eq, bne_iff_ne, ne_eq, smAbove, List.forall_mem_cons]
    constructor
    · rintro ⟨⟨h1, h2⟩, h3⟩
      have h4 := (ih b w).1 h3
      exact ⟨h2, ⟨h1, fun q hq => Nat.lt_trans h1 (h4.2.1 q hq)⟩, h3⟩
    · rintro ⟨h1, ⟨h2, _⟩, h3⟩
      exact ⟨⟨h2, h1⟩, h3⟩

theorem smGet_above {n : Nat} (m : SMap n) (k : Nat) (h : smAbove k m) : smGet m k = 0 := by
  induction m with
  | nil => rfl
  | cons p t ih =>
    obtain ⟨a, v⟩ := p
    have ha := h (a, v) (by simp)
    rw [smGet_cons, if_neg (by simp at ha; omega)]
    exact ih fun q hq => h q (by simp [hq])

theorem smAbove_filter {n : Nat} (m : SMap n) (b : Nat) (p : Nat × BitVec n → Bool) (h : smAbove b m) :
    smAbove b (m.filter p) := fun q hq => h q (List.mem_filter.1 hq).1

theorem smWf_filter {n : Nat} (m : SMap n) (p : Nat × BitVec n → Bool) (h : smWf m = true) :
    smWf (m.filter p) = true := by
  induction m with
  | nil => exact h
  | cons q t ih =>
    obtain ⟨a, v⟩ := q
    obtain ⟨h1, h2, h3⟩ := (smWf_cons a v t).1 h
    rw [List.filter_cons]
    split
    · exact (smWf_cons _ _ _).2 ⟨h1, smAbove_filter t a p h2, ih h3⟩
    · exact ih h3

theorem smAbove_smIns {n : Nat} (m : SMap n) (b k : Nat) (v : BitVec n) (hk : b < k) (h : smAbove b m) :
    smAbove b (smIns m k v) := by
  induction m with
  | nil => simpa [smIns, smAbove] using hk
  | cons p t ih =>
    obtain ⟨a, w⟩ := p
    have h1 : b < a := h (a, w) (by simp)
    have h2 : smAbove b t := fun q hq => h q (by simp [hq])
    unfold smIns
    split
    · intro q hq
      rcases List.mem_cons.1 hq with rfl | hq
      · exact h1
      · exact ih h2 q hq
    · split
      · intro q hq
        rcases List.mem_cons.1 hq with rfl | hq
        · exact hk
        · exact h2 q hq
      · intro q hq
        rcases List.mem_cons.1 hq with rfl | hq
        · exact hk
        · exact h q hq

theorem smWf_smIns {n : Nat} (m : SMap n) (k : Nat) (v : BitVec n) (hv : v ≠ 0) (h : smWf m = true) :
    smWf (smIns m k v) = true := by
  induction m with
  | nil => simpa [smIns, smWf] using hv
  | cons p t ih =>
    obtain ⟨a, w⟩ := p
    obtain ⟨h1, h2, h3⟩ := (smWf_cons a w t).1 h
    unfold smIns
    split
    · rename_i hlt
      exact (smWf_cons _ _ _).2 ⟨h1, smAbove_smIns t a k v hlt h2, ih h3⟩
    · split
      · rename_i _ heq
        subst heq
        exact (smWf_cons _ _ _).2 ⟨hv, h2, h3⟩
      · refine (smWf_cons _ _ _).2 ⟨hv, ?_, h⟩
        intro q hq
        rcases List.mem_cons.1 hq with rfl | hq
        · simp; omega
        · exact Nat.lt_trans (by omega) (h2 q hq)

/-- A write keeps the canonical form. -/
theorem smWf_smSet {n : Nat} (m : SMap n) (k : Nat) (v : BitVec n) (h : smWf m = true) :
    smWf (smSet m k v) = true := by
  unfold smSet
  split
  · exact smWf_filter m _ h
  · exact smWf_smIns m k v ‹_› h

theorem smGet_smIns {n : Nat} (m : SMap n) (k j : Nat) (v : BitVec n) :
    smGet (smIns m k v) j = if j = k then v else smGet m j := by
  induction m with
  | nil =>
    unfold smIns
    rw [smGet_cons]
    by_cases hj : j = k
    · simp [hj]
    · simp [hj, Ne.symm hj]
  | cons p t ih =>
    obtain ⟨a, w⟩ := p
    unfold smIns
    split
    · rw [smGet_cons, ih, smGet_cons]
      by_cases hj : j = k
      · subst hj
        rw [if_neg (by omega)]
        simp
      · simp [hj]
    · split
      · rename_i heq
        subst heq
        rw [smGet_cons, smGet_cons]
        by_cases hj : j = a
        · simp [hj]
        · simp [hj, Ne.symm hj]
      · rw [smGet_cons]
        by_cases hj : j = k
        · simp [hj]
        · simp [hj, Ne.symm hj]

theorem smGet_remove {n : Nat} (m : SMap n) (k j : Nat) :
    smGet (m.filter fun p => p.1 != k) j = if j = k then 0 else smGet m j := by
  induction m with
  | nil => simp
  | cons p t ih =>
    obtain ⟨a, w⟩ := p
    rw [List.filter_cons]
    split
    · rename_i ha
      rw [smGet_cons, ih, smGet_cons]
      by_cases hj : j = k
      · subst hj
        rw [if_neg (by simpa using ha)]
        simp
      · simp [hj]
    · rename_i ha
      have ha : a = k := by simpa using ha
      subst ha
      rw [ih, smGet_cons]
      by_cases hj : j = a
      · simp [hj]
      · simp [hj, Ne.symm hj]

/-- A read after a write. -/
theorem smGet_smSet {n : Nat} (m : SMap n) (k j : Nat) (v : BitVec n) :
    smGet (smSet m k v) j = if j = k then v else smGet m j := by
  unfold smSet
  split
  · rename_i h
    subst h
    exact smGet_remove m k j
  · exact smGet_smIns m k j v

/-- A run of writes keeps the canonical form. -/
theorem smWf_smPut {n : Nat} (vs : List (BitVec n)) (m : SMap n) (k : Nat) (h : smWf m = true) :
    smWf (smPut m k vs) = true := by
  induction vs generalizing m k with
  | nil => exact h
  | cons v vs ih => exact ih _ _ (smWf_smSet m k v h)

/-- A read after a run of writes. -/
theorem smGet_smPut {n : Nat} (vs : List (BitVec n)) (m : SMap n) (k j : Nat) :
    smGet (smPut m k vs) j = if k ≤ j ∧ j < k + vs.length then (vs[j - k]?).getD 0 else smGet m j := by
  induction vs generalizing m k with
  | nil => rw [if_neg (by simp)]; rfl
  | cons v vs ih =>
    rw [smPut, ih, smGet_smSet m k j v]
    by_cases h1 : j = k
    · subst h1
      rw [if_neg (by omega), if_pos rfl, if_pos (by simp)]
      simp
    · by_cases h2 : k + 1 ≤ j ∧ j < k + 1 + vs.length
      · rw [if_pos h2, if_pos (by simp; omega)]
        obtain ⟨d, rfl⟩ : ∃ d, j = k + 1 + d := ⟨j - (k + 1), by omega⟩
        rw [show k + 1 + d - (k + 1) = d by omega, show k + 1 + d - k = d + 1 by omega]
        simp
      · rw [if_neg h2, if_neg h1, if_neg (by simp; omega)]

/-- A list of writes keeps the canonical form. -/
theorem smWf_smPuts {n : Nat} (ws : List (Nat × BitVec n)) (m : SMap n) (h : smWf m = true) :
    smWf (smPuts m ws) = true := by
  induction ws generalizing m with
  | nil => exact h
  | cons w ws ih => exact ih _ (smWf_smSet m _ _ h)

/-- A key that no write of a list names keeps its value. -/
theorem smGet_smPuts_other {n : Nat} (ws : List (Nat × BitVec n)) (m : SMap n) (j : Nat)
    (hj : ∀ w ∈ ws, w.1 ≠ j) : smGet (smPuts m ws) j = smGet m j := by
  induction ws generalizing m with
  | nil => rfl
  | cons w ws ih =>
    rw [smPuts, ih _ fun x hx => hj x (by simp [hx]), smGet_smSet m _ _ _,
      if_neg (Ne.symm (hj w (by simp)))]

/-- A map of which some keys are taken out. -/
theorem smGet_filter {n : Nat} (m : SMap n) (q : Nat → Bool) (k : Nat) :
    smGet (m.filter fun p => q p.1) k = if q k then smGet m k else 0 := by
  induction m with
  | nil => split <;> rfl
  | cons p m ih =>
    obtain ⟨a, v⟩ := p
    rw [List.filter_cons, smGet_cons]
    by_cases hk : a = k
    · subst hk
      cases h : q a with
      | true => rw [if_pos rfl, smGet_cons, if_pos rfl, if_pos rfl, if_pos rfl]
      | false => rw [h] at ih; rw [if_neg Bool.false_ne_true, ih]; rfl
    · rw [if_neg hk, ← ih]
      split
      · rw [smGet_cons, if_neg hk]
      · rfl

/-- The entries outside a range keep the canonical form. -/
theorem smWf_smDrop {n : Nat} (m : SMap n) (lo hi : Nat) (h : smWf m = true) :
    smWf (smDrop m lo hi) = true := smWf_filter m _ h

/-! ## Lists changed at a place -/

@[simp] theorem modAt_length {α : Type} (l : List α) (i : Nat) (f : α → α) :
    (modAt l i f).length = l.length := by
  induction l generalizing i with
  | nil => rfl
  | cons x t ih => cases i <;> simp [modAt, ih]

theorem modAt_get {α : Type} (l : List α) (i j : Nat) (f : α → α) :
    (modAt l i f)[j]? = if j = i then (l[j]?).map f else l[j]? := by
  induction l generalizing i j with
  | nil => simp [modAt]
  | cons x t ih =>
    cases i with
    | zero => cases j <;> simp [modAt]
    | succ i =>
      cases j with
      | zero => simp [modAt]
      | succ j => simp [modAt, ih]

theorem modAt_other {α : Type} (l : List α) (i j : Nat) (f : α → α) (h : j ≠ i) :
    (modAt l i f)[j]? = l[j]? := by
  rw [modAt_get, if_neg h]

@[simp] theorem modIf_length {α : Type} (l : List α) (p : α → Bool) (f : α → α) :
    (modIf l p f).length = l.length := by
  simp [modIf]

end Sys2Proof.Machine
end

