-- ==== Sys2Proof/Laws/Issue.lean ====
section
/-! SUPPORT. Laws/Issue.lean: what the issue of an instruction can do, said once: how it is judged, and what
its end leaves of the machine. -/

namespace Sys2Proof.Machine

/-! ## Updates of the state (one lemma per field) -/

@[simp] theorem setGang_mem (s : State) (gi : Nat) (g : Gang) : (setGang s gi g).mem = s.mem := rfl
@[simp] theorem setGang_sys (s : State) (gi : Nat) (g : Gang) : (setGang s gi g).sys = s.sys := rfl
@[simp] theorem setGang_ctl (s : State) (gi : Nat) (g : Gang) : (setGang s gi g).ctl = s.ctl := rfl
@[simp] theorem setGang_groups (s : State) (gi : Nat) (g : Gang) :
    (setGang s gi g).exe.groups = s.exe.groups := rfl
@[simp] theorem setGang_copies (s : State) (gi : Nat) (g : Gang) :
    (setGang s gi g).exe.copies = s.exe.copies := rfl
@[simp] theorem setGang_gangs (s : State) (gi : Nat) (g : Gang) :
    (setGang s gi g).exe.gangs = modAt s.exe.gangs gi fun _ => g := rfl

@[simp] theorem addFault_mem (s : State) (r : FaultRec) : (addFault s r).mem = s.mem := rfl
@[simp] theorem addFault_sys (s : State) (r : FaultRec) : (addFault s r).sys = s.sys := rfl
@[simp] theorem addFault_exe (s : State) (r : FaultRec) : (addFault s r).exe = s.exe := rfl
@[simp] theorem addFault_queues (s : State) (r : FaultRec) : (addFault s r).ctl.queues = s.ctl.queues := rfl
@[simp] theorem addFault_kernels (s : State) (r : FaultRec) :
    (addFault s r).ctl.kernels = s.ctl.kernels := rfl
@[simp] theorem addFault_partials (s : State) (r : FaultRec) :
    (addFault s r).ctl.partials = s.ctl.partials := rfl
@[simp] theorem addFault_faults (s : State) (r : FaultRec) :
    (addFault s r).ctl.faults = s.ctl.faults ++ [r] := rfl

@[simp] theorem idle_mem (s : State) : (idle s).mem = s.mem := rfl
@[simp] theorem idle_sys (s : State) : (idle s).sys = s.sys := rfl
@[simp] theorem idle_ctl (s : State) : (idle s).ctl = s.ctl := rfl
@[simp] theorem idle_gangs (s : State) : (idle s).exe.gangs = s.exe.gangs := rfl
@[simp] theorem idle_groups (s : State) : (idle s).exe.groups = s.exe.groups := rfl
@[simp] theorem idle_copies (s : State) : (idle s).exe.copies = s.exe.copies := rfl
@[simp] theorem idle_cur (s : State) : (idle s).exe.cur = none := rfl

@[simp] theorem noteIssue_mem (s : State) (k gi : Nat) : (noteIssue s k gi).mem = s.mem := rfl
@[simp] theorem noteIssue_sys (s : State) (k gi : Nat) : (noteIssue s k gi).sys = s.sys := rfl
@[simp] theorem noteIssue_ctl (s : State) (k gi : Nat) : (noteIssue s k gi).ctl = s.ctl := rfl
@[simp] theorem noteIssue_gangs (s : State) (k gi : Nat) : (noteIssue s k gi).exe.gangs = s.exe.gangs := rfl
@[simp] theorem noteIssue_groups (s : State) (k gi : Nat) :
    (noteIssue s k gi).exe.groups = s.exe.groups := rfl
@[simp] theorem noteIssue_copies (s : State) (k gi : Nat) :
    (noteIssue s k gi).exe.copies = s.exe.copies := rfl

/-! ## Judgement -/

theorem issue_go {s : State} {e : Iss} {j : Iss → Judge} {b : Iss → Eff} (h : issOf s = some e)
    (hj : j e = .go) : issue s j b = .next (finish e (b e)) := by
  simp [issue, h, hj]

theorem issue_stall {s : State} {e : Iss} {j : Iss → Judge} {b : Iss → Eff} (h : issOf s = some e)
    (hj : j e = .stall) : issue s j b = .next (idle s) := by
  simp [issue, h, hj]

theorem issue_fault {s : State} {e : Iss} {j : Iss → Judge} {b : Iss → Eff} {k : Nat} {c : FaultCode}
    {i : Dbl} (h : issOf s = some e) (hj : j e = .fault k c i) : issue s j b = .next (raise e k c i) := by
  simp [issue, h, hj]

theorem issue_none {s : State} {j : Iss → Judge} {b : Iss → Eff} (h : issOf s = none) :
    issue s j b = .next (idle s) := by
  simp [issue, h]

/-- Everything an issue can do. -/
theorem issue_cases {s t : State} {j : Iss → Judge} {b : Iss → Eff} (h : issue s j b = .next t) :
    t = idle s ∨ ∃ e, issOf s = some e ∧
      ((j e = .go ∧ t = finish e (b e)) ∨ ∃ k c i, j e = .fault k c i ∧ t = raise e k c i) := by
  unfold issue at h
  split at h
  · cases h; exact .inl rfl
  · rename_i e he
    split at h
    · cases h; exact .inl rfl
    · rename_i k c i hj
      cases h; exact .inr ⟨e, he, .inr ⟨k, c, i, hj, rfl⟩⟩
    · rename_i hj
      cases h; exact .inr ⟨e, he, .inl ⟨hj, rfl⟩⟩

theorem Judge.and_go {a b : Judge} : a.and b = .go ↔ a = .go ∧ b = .go := by
  cases a <;> simp [Judge.and]

theorem legal_go {e : Iss} {ok : Nat → Bool} : legal e ok = .go ↔ ∀ k ∈ e.sls, ok k = true := by
  unfold legal
  split
  · rename_i k hk
    have := List.find?_some hk
    have hm := List.mem_of_find?_eq_some hk
    simp only [reduceCtorEq, false_iff, not_forall]
    exact ⟨k, hm, by simpa using this⟩
  · rename_i hk
    simpa using List.find?_eq_none.1 hk

theorem judgeSlices_go {e : Iss} {f : Nat → Option FaultCode} :
    judgeSlices e f = .go ↔ ∀ k ∈ e.sls, f k = none := by
  unfold judgeSlices
  split
  · rename_i k hk
    have := List.find?_some hk
    have hm := List.mem_of_find?_eq_some hk
    simp only [reduceCtorEq, false_iff, not_forall]
    exact ⟨k, hm, by intro h0; simp [h0] at this⟩
  · rename_i hk
    simpa using List.find?_eq_none.1 hk

theorem uniReady_go {e : Iss} : uniReady e = .go ↔ sldPending e = false := by
  unfold uniReady; split <;> simp_all

/-- What the cohort named by a state is. -/
theorem issOf_some {s : State} {e : Iss} (h : issOf s = some e) :
    e.s = s ∧ s.exe.cur = some (e.gi, e.mask) ∧ s.exe.gangs[e.gi]? = some e.g
      ∧ s.exe.groups[e.g.grp]? = some e.grp ∧ s.ctl.kernels[e.grp.kern]? = some e.kern
      ∧ findCtx s.ctl.ctxs e.kern.part e.kern.ctx = some e.ctx
      ∧ mayIssue e.g e.grp e.kern e.ctx e.mask = true := by
  unfold issOf at h
  repeat' split at h
  all_goals first | contradiction | skip
  cases h
  exact ⟨rfl, ‹_›, ‹_›, ‹_›, ‹_›, ‹_›, ‹_›⟩

theorem issOf_gi_lt {s : State} {e : Iss} (h : issOf s = some e) : e.gi < s.exe.gangs.length := by
  obtain ⟨_, _, h, _⟩ := issOf_some h
  exact (List.getElem?_eq_some_iff.1 h).1

/-! ## The end of an issue -/

theorem SameFile.refl (g : Gang) : SameFile g g := ⟨rfl, rfl, rfl, rfl, rfl, rfl, rfl, rfl, rfl, rfl⟩

theorem SameFile.trans {a b c : Gang} (h : SameFile a b) (k : SameFile b c) : SameFile a c :=
  ⟨k.1.trans h.1, k.2.trans h.2, k.3.trans h.3, k.4.trans h.4, k.5.trans h.5, k.6.trans h.6, k.7.trans h.7,
    k.8.trans h.8, k.9.trans h.9, k.10.trans h.10⟩

theorem SameFile.modSl (g : Gang) (k : Nat) (f : Slice → Slice) : SameFile g (g.modSl k f) :=
  ⟨rfl, rfl, rfl, rfl, rfl, rfl, rfl, rfl, rfl, rfl⟩

theorem takePending_file (e : Iss) (r : Eff) (ks : List Nat) : SameFile r.g (takePending e r ks) := by
  unfold takePending
  suffices h : ∀ g, SameFile r.g g → SameFile r.g (ks.foldl (fun g k =>
      match pendingTrap e r k with
      | some (cause, conds, lanes) =>
        g.modSl k fun x => takeTrap x g.trapBase cause 0 conds lanes x.pc e.pc
      | none => g) g) from h r.g (.refl _)
  induction ks with
  | nil => exact fun g h => h
  | cons k ks ih =>
    intro g h
    rw [List.foldl_cons]
    apply ih
    split
    · exact h.trans (.modSl _ _ _)
    · exact h

theorem takeArea_file (ps : List Partition) (p : Nat) (g : Gang) : SameFile g (takeArea ps p g).2 := by
  unfold takeArea
  repeat' split
  all_goals exact ⟨rfl, rfl, rfl, rfl, rfl, rfl, rfl, rfl, rfl, rfl⟩

theorem spill_file (ps : List Partition) (p : Nat) (g : Gang) : SameFile g (spill ps p g).2 := by
  unfold spill
  split
  · dsimp only
    split <;> exact takeArea_file _ _ _
  · exact .refl _

theorem regangMerge_file (g : Gang) : SameFile g (regangMerge g) :=
  ⟨rfl, rfl, rfl, rfl, rfl, rfl, rfl, rfl, rfl, rfl⟩

theorem regangStep_file (g : Gang) (a : VAddr) : SameFile g (regangStep g a) := by
  unfold regangStep
  suffices h : ∀ (ks : List Nat) (x : Gang), SameFile g x → SameFile g (ks.foldl (fun (x : Gang) k =>
      x.modSl k fun y => takeTrap y g.trapBase causeStep 0 0 (sliceMask k (activeOn (regangMerge g))) y.pc a)
      x) by
    exact (h (regangSteps (regangMerge g)) _ (regangMerge_file g)).trans
      ⟨rfl, rfl, rfl, rfl, rfl, rfl, rfl, rfl, rfl, rfl⟩
  intro ks
  induction ks with
  | nil => exact fun x h => h
  | cons k ks ih => exact fun x h => ih _ (h.trans (.modSl _ _ _))

/-- What `settleRegang` does: it replaces the gang by one with the same file, and may raise one fault. -/
theorem settleRegang_cases (s : State) (gi : Nat) (grp : Group) (k : Kernel) (step : Bool) (g : Gang) :
    ∃ g', SameFile g g' ∧ g'.issues = g.issues ∧ (settleRegang s gi grp k step g = setGang s gi g' ∨
      ∃ r, settleRegang s gi grp k step g = addFault (setGang s gi g') r) := by
  unfold settleRegang
  split
  · dsimp only
    split
    · exact ⟨_, .modSl _ _ _, rfl, .inr ⟨_, rfl⟩⟩
    · split
      · split
        · exact ⟨_, .modSl _ _ _, rfl, .inr ⟨_, rfl⟩⟩
        · refine ⟨_, regangStep_file _ _, ?_, .inl rfl⟩
          unfold regangStep
          suffices h : ∀ (ks : List Nat) (x : Gang), x.issues = g.issues → (ks.foldl (fun (x : Gang) k =>
              x.modSl k fun y => takeTrap y g.trapBase causeStep 0 0
                (sliceMask k (activeOn (regangMerge g))) y.pc (g.sl ((liveSlices g).headD 0)).pc)
              x).issues = g.issues from h _ _ rfl
          intro ks
          induction ks with
          | nil => exact fun x h => h
          | cons k ks ih => exact fun x h => ih _ h
      · exact ⟨_, regangMerge_file _, rfl, .inl rfl⟩
  · exact ⟨g, .refl _, rfl, .inl rfl⟩

@[simp] theorem dropSave_mem (s : State) (gid p c : Nat) : (dropSave s gid p c).mem = s.mem := rfl
@[simp] theorem dropSave_sys (s : State) (gid p c : Nat) : (dropSave s gid p c).sys = s.sys := rfl
@[simp] theorem dropSave_gangs (s : State) (gid p c : Nat) :
    (dropSave s gid p c).exe.gangs = s.exe.gangs := rfl
@[simp] theorem dropSave_copies (s : State) (gid p c : Nat) :
    (dropSave s gid p c).exe.copies = s.exe.copies := rfl
@[simp] theorem dropSave_groups (s : State) (gid p c : Nat) :
    (dropSave s gid p c).exe.groups = modAt s.exe.groups gid fun g => { g with saved := none } := rfl
@[simp] theorem dropSave_ctxs (s : State) (gid p c : Nat) :
    (dropSave s gid p c).ctl.ctxs = modCtx s.ctl.ctxs p c fun x =>
      { x with saves := x.saves.filter fun r => r.1 != gid } := rfl
@[simp] theorem dropSave_parts (s : State) (gid p c : Nat) :
    (dropSave s gid p c).ctl.parts = s.ctl.parts := rfl
@[simp] theorem dropSave_kernels (s : State) (gid p c : Nat) :
    (dropSave s gid p c).ctl.kernels = s.ctl.kernels := rfl
@[simp] theorem dropSave_queues (s : State) (gid p c : Nat) :
    (dropSave s gid p c).ctl.queues = s.ctl.queues := rfl
@[simp] theorem dropSave_faults (s : State) (gid p c : Nat) :
    (dropSave s gid p c).ctl.faults = s.ctl.faults := rfl
@[simp] theorem dropSave_partials (s : State) (gid p c : Nat) :
    (dropSave s gid p c).ctl.partials = s.ctl.partials := rfl

/-- Everything the lapse of a park does: nothing, or the record's space given up. -/
theorem lapse_cases (s : State) (gid : Nat) (grp : Group) :
    lapse s gid grp = s ∨ ∃ k, kernOf s grp = some k ∧ lapse s gid grp = dropSave s gid k.part k.ctx := by
  unfold lapse
  split
  · exact .inr ⟨_, ‹_›, rfl⟩
  · exact .inl rfl

/-- Everything a group's exit does: nothing, or its park lapses and it is EXITING. -/
theorem groupExit_cases (s : State) (gid : Nat) :
    groupExit s gid = s ∨ ∃ grp, s.exe.groups[gid]? = some grp ∧
      groupExit s gid = { lapse s gid grp with exe := { (lapse s gid grp).exe with
        groups := modAt (lapse s gid grp).exe.groups gid fun x => { x with state := .exiting } } } := by
  unfold groupExit
  split
  · exact .inl rfl
  · split
    · exact .inr ⟨_, ‹_›, rfl⟩
    · exact .inl rfl

@[simp] theorem lapse_mem (s : State) (gid : Nat) (grp : Group) :
    (lapse s gid grp).mem = s.mem := by
  obtain h | ⟨_, _, h⟩ := lapse_cases s gid grp <;> simp [h]
@[simp] theorem lapse_sys (s : State) (gid : Nat) (grp : Group) :
    (lapse s gid grp).sys = s.sys := by
  obtain h | ⟨_, _, h⟩ := lapse_cases s gid grp <;> simp [h]
@[simp] theorem lapse_gangs (s : State) (gid : Nat) (grp : Group) :
    (lapse s gid grp).exe.gangs = s.exe.gangs := by
  obtain h | ⟨_, _, h⟩ := lapse_cases s gid grp <;> simp [h]
@[simp] theorem lapse_copies (s : State) (gid : Nat) (grp : Group) :
    (lapse s gid grp).exe.copies = s.exe.copies := by
  obtain h | ⟨_, _, h⟩ := lapse_cases s gid grp <;> simp [h]
@[simp] theorem lapse_parts (s : State) (gid : Nat) (grp : Group) :
    (lapse s gid grp).ctl.parts = s.ctl.parts := by
  obtain h | ⟨_, _, h⟩ := lapse_cases s gid grp <;> simp [h]
@[simp] theorem lapse_kernels (s : State) (gid : Nat) (grp : Group) :
    (lapse s gid grp).ctl.kernels = s.ctl.kernels := by
  obtain h | ⟨_, _, h⟩ := lapse_cases s gid grp <;> simp [h]
@[simp] theorem lapse_queues (s : State) (gid : Nat) (grp : Group) :
    (lapse s gid grp).ctl.queues = s.ctl.queues := by
  obtain h | ⟨_, _, h⟩ := lapse_cases s gid grp <;> simp [h]
@[simp] theorem lapse_faults (s : State) (gid : Nat) (grp : Group) :
    (lapse s gid grp).ctl.faults = s.ctl.faults := by
  obtain h | ⟨_, _, h⟩ := lapse_cases s gid grp <;> simp [h]
@[simp] theorem lapse_partials (s : State) (gid : Nat) (grp : Group) :
    (lapse s gid grp).ctl.partials = s.ctl.partials := by
  obtain h | ⟨_, _, h⟩ := lapse_cases s gid grp <;> simp [h]
@[simp] theorem groupExit_mem (s : State) (gid : Nat) : (groupExit s gid).mem = s.mem := by
  obtain h | ⟨_, _, h⟩ := groupExit_cases s gid <;> simp [h]
@[simp] theorem groupExit_sys (s : State) (gid : Nat) : (groupExit s gid).sys = s.sys := by
  obtain h | ⟨_, _, h⟩ := groupExit_cases s gid <;> simp [h]
@[simp] theorem groupExit_gangs (s : State) (gid : Nat) : (groupExit s gid).exe.gangs = s.exe.gangs := by
  obtain h | ⟨_, _, h⟩ := groupExit_cases s gid <;> simp [h]
@[simp] theorem groupExit_copies (s : State) (gid : Nat) : (groupExit s gid).exe.copies = s.exe.copies := by
  obtain h | ⟨_, _, h⟩ := groupExit_cases s gid <;> simp [h]
@[simp] theorem groupExit_parts (s : State) (gid : Nat) : (groupExit s gid).ctl.parts = s.ctl.parts := by
  obtain h | ⟨_, _, h⟩ := groupExit_cases s gid <;> simp [h]
@[simp] theorem groupExit_kernels (s : State) (gid : Nat) : (groupExit s gid).ctl.kernels = s.ctl.kernels := by
  obtain h | ⟨_, _, h⟩ := groupExit_cases s gid <;> simp [h]
@[simp] theorem groupExit_queues (s : State) (gid : Nat) : (groupExit s gid).ctl.queues = s.ctl.queues := by
  obtain h | ⟨_, _, h⟩ := groupExit_cases s gid <;> simp [h]
@[simp] theorem groupExit_faults (s : State) (gid : Nat) : (groupExit s gid).ctl.faults = s.ctl.faults := by
  obtain h | ⟨_, _, h⟩ := groupExit_cases s gid <;> simp [h]
@[simp] theorem groupExit_partials (s : State) (gid : Nat) : (groupExit s gid).ctl.partials = s.ctl.partials := by
  obtain h | ⟨_, _, h⟩ := groupExit_cases s gid <;> simp [h]

/-- A group's exit changes no window. -/
theorem groupExit_window (s : State) (gid j : Nat) :
    ((groupExit s gid).exe.groups[j]?).map Group.window = (s.exe.groups[j]?).map Group.window := by
  obtain h | ⟨grp, _, h⟩ := groupExit_cases s gid
  · rw [h]
  · obtain hl | ⟨k, _, hl⟩ := lapse_cases s gid grp <;>
      simp only [h, hl, dropSave_groups, modAt_get] <;> split <;> cases s.exe.groups[j]? <;> rfl

@[simp] theorem advanceTurn_mem (s : State) (k : Nat) : (advanceTurn s k).mem = s.mem := by
  unfold advanceTurn; repeat' split
  all_goals first | rfl | (dsimp only; split <;> rfl)
@[simp] theorem advanceTurn_sys (s : State) (k : Nat) : (advanceTurn s k).sys = s.sys := by
  unfold advanceTurn; repeat' split
  all_goals first | rfl | (dsimp only; split <;> rfl)
@[simp] theorem advanceTurn_gangs (s : State) (k : Nat) : (advanceTurn s k).exe.gangs = s.exe.gangs := by
  unfold advanceTurn; repeat' split
  all_goals first | rfl | (dsimp only; split <;> rfl)
@[simp] theorem advanceTurn_copies (s : State) (k : Nat) : (advanceTurn s k).exe.copies = s.exe.copies := by
  unfold advanceTurn; repeat' split
  all_goals first | rfl | (dsimp only; split <;> rfl)
@[simp] theorem advanceTurn_queues (s : State) (k : Nat) : (advanceTurn s k).ctl.queues = s.ctl.queues := by
  unfold advanceTurn; repeat' split
  all_goals first | rfl | (dsimp only; split <;> rfl)
@[simp] theorem advanceTurn_faults (s : State) (k : Nat) : (advanceTurn s k).ctl.faults = s.ctl.faults := by
  unfold advanceTurn; repeat' split
  all_goals first | rfl | (dsimp only; split <;> rfl)
@[simp] theorem advanceTurn_partials (s : State) (k : Nat) :
    (advanceTurn s k).ctl.partials = s.ctl.partials := by
  unfold advanceTurn; repeat' split
  all_goals first | rfl | (dsimp only; split <;> rfl)

@[simp] theorem perfBump_queues (c : Ctl) (p q r v : Nat) : (perfBump c p q r v).queues = c.queues := by
  unfold perfBump; split <;> rfl
@[simp] theorem perfBump_faults (c : Ctl) (p q r v : Nat) : (perfBump c p q r v).faults = c.faults := by
  unfold perfBump; split <;> rfl
@[simp] theorem perfBump_partials (c : Ctl) (p q r v : Nat) : (perfBump c p q r v).partials = c.partials := by
  unfold perfBump; split <;> rfl
@[simp] theorem perfBump_kernels (c : Ctl) (p q r v : Nat) : (perfBump c p q r v).kernels = c.kernels := by
  unfold perfBump; split <;> rfl

/-- No slice of the cohort finds its stack full by a trap that is due (R78). -/
def noOverflow (e : Iss) (r : Eff) : Prop := ∀ k ∈ e.sls, trapOverflows e r k = false

end Sys2Proof.Machine
end

