-- ==== Sys2Proof/Laws/Finish.lean ====
section
/-! SUPPORT. Laws/Finish.lean: what the end of an issue leaves: the gang with its effect, retired once more,
and nothing else but the bookkeeping. -/

namespace Sys2Proof.Machine

theorem map_modAt_same {α β : Type} (l : List α) (i : Nat) (f : α → α) (p : α → β) (h : ∀ x, p (f x) = p x) :
    (modAt l i f).map p = l.map p := by
  induction l generalizing i with
  | nil => rfl
  | cons x t ih => cases i <;> simp [modAt, h, ih]

theorem map_modIf_same {α β : Type} (l : List α) (q : α → Bool) (f : α → α) (p : α → β)
    (h : ∀ x, p (f x) = p x) : (modIf l q f).map p = l.map p := by
  induction l with
  | nil => rfl
  | cons x t ih =>
    have hx : p (if q x then f x else x) = p x := by split <;> simp [h]
    simp only [modIf, List.map_cons, List.map_map] at *
    rw [hx, ih]

/-! ## `OnlyGang` composes -/

theorem OnlyGang.refl (s : State) (gi : Nat) : OnlyGang s s gi :=
  ⟨rfl, rfl, fun _ _ => rfl, rfl, rfl, rfl, rfl, rfl, rfl, rfl, rfl⟩

theorem OnlyGang.trans {a b c : State} {gi : Nat} (h : OnlyGang a b gi) (k : OnlyGang b c gi) :
    OnlyGang a c gi :=
  ⟨k.mem.trans h.mem, k.sys.trans h.sys, fun j hj => (k.gangs j hj).trans (h.gangs j hj),
    k.groups.trans h.groups, k.copies.trans h.copies, k.queues.trans h.queues, k.partials.trans h.partials,
    k.samples.trans h.samples, k.ctxs.trans h.ctxs, k.kernels.trans h.kernels, k.parts.trans h.parts⟩

theorem setGang_only (s : State) (gi : Nat) (g : Gang) : OnlyGang s (setGang s gi g) gi :=
  ⟨rfl, rfl, fun j hj => by simp [modAt_other _ _ _ _ hj], rfl, rfl, rfl, rfl, rfl, rfl, rfl, rfl⟩

theorem addFault_only (s : State) (gi : Nat) (r : FaultRec) : OnlyGang s (addFault s r) gi :=
  ⟨rfl, rfl, fun _ _ => rfl, rfl, rfl, rfl, rfl, rfl, rfl, rfl, rfl⟩

theorem idle_only (s : State) (gi : Nat) : OnlyGang s (idle s) gi :=
  ⟨rfl, rfl, fun _ _ => rfl, rfl, rfl, rfl, rfl, rfl, rfl, rfl, rfl⟩

theorem noteIssue_only (s : State) (k gi : Nat) : OnlyGang s (noteIssue s k gi) gi :=
  ⟨rfl, rfl, fun _ _ => rfl, rfl, rfl, rfl, rfl, rfl, rfl, rfl, rfl⟩

theorem dropSave_only (s : State) (gid p c gi : Nat) : OnlyGang s (dropSave s gid p c) gi :=
  ⟨rfl, rfl, fun _ _ => rfl, map_modAt_same _ _ _ _ fun _ => rfl, rfl, rfl, rfl, rfl,
    map_modIf_same _ _ _ _ fun _ => rfl, rfl, rfl⟩

theorem lapse_only (s : State) (gid : Nat) (grp : Group) (gi : Nat) : OnlyGang s (lapse s gid grp) gi := by
  obtain h | ⟨k, _, h⟩ := lapse_cases s gid grp <;> rw [h]
  · exact .refl s gi
  · exact dropSave_only _ _ _ _ _

theorem groupExit_only (s : State) (gid gi : Nat) : OnlyGang s (groupExit s gid) gi := by
  obtain h | ⟨grp, _, h⟩ := groupExit_cases s gid <;> rw [h]
  · exact .refl s gi
  · exact (lapse_only s gid grp gi).trans
      ⟨rfl, rfl, fun _ _ => rfl, map_modAt_same _ _ _ _ fun _ => rfl, rfl, rfl, rfl, rfl, rfl, rfl, rfl⟩

theorem advanceTurn_only (s : State) (k gi : Nat) : OnlyGang s (advanceTurn s k) gi := by
  unfold advanceTurn
  split
  · exact .refl s gi
  · dsimp only
    split
    · exact .refl s gi
    · split
      · exact .refl s gi
      · refine ⟨rfl, rfl, fun _ _ => rfl, ?_, rfl, rfl, rfl, rfl, rfl, map_modAt_same _ _ _ _ fun _ => rfl, rfl⟩
        dsimp only
        split
        · exact map_modIf_same _ _ _ _ fun _ => rfl
        · rfl

theorem settleRegang_only (s : State) (gi : Nat) (grp : Group) (k : Kernel) (step : Bool) (g : Gang) :
    OnlyGang s (settleRegang s gi grp k step g) gi := by
  obtain ⟨g', _, _, h | ⟨r, h⟩⟩ := settleRegang_cases s gi grp k step g
  · rw [h]; exact setGang_only s gi g'
  · rw [h]; exact (setGang_only s gi g').trans (addFault_only _ gi r)

theorem perfCount_body (c : Ctx) (core ev k : Nat) : ctxBody (perfCount c core ev k) = ctxBody c := by
  unfold perfCount
  suffices h : ∀ (l : List Nat) (x : Ctx), ctxBody (l.foldl (fun c n =>
      if (perfGet c core n).toNat = ev then
        perfSet c core (n + 4) (perfGet c core (n + 4) + BitVec.ofNat 64 k) else c) x) = ctxBody x from h _ c
  intro l
  induction l with
  | nil => exact fun _ => rfl
  | cons n l ih =>
    intro x
    rw [List.foldl_cons, ih]
    split <;> rfl

theorem perfBump_only (s : State) (gi p c k v : Nat) :
    OnlyGang s { s with ctl := perfBump s.ctl p c k v } gi := by
  unfold perfBump
  split
  · exact ⟨rfl, rfl, fun _ _ => rfl, rfl, rfl, rfl, rfl, rfl,
      map_modIf_same _ _ _ _ fun x => perfCount_body x k v 1, rfl, rfl⟩
  · exact .refl s gi

theorem takeArea_parts (ps : List Partition) (p : Nat) (g : Gang) :
    (takeArea ps p g).1.map partBody = ps.map partBody := by
  unfold takeArea
  repeat' split
  all_goals first | rfl | exact map_modIf_same _ _ _ _ fun _ => rfl

theorem spill_parts (ps : List Partition) (p : Nat) (g : Gang) :
    (spill ps p g).1.map partBody = ps.map partBody := by
  unfold spill
  split
  · dsimp only
    split
    · refine Eq.trans ?_ (takeArea_parts ps p g)
      exact map_modIf_same _ _ _ _ fun _ => rfl
    · exact takeArea_parts ps p g
  · rfl

/-! ## The gang after an issue -/

/-- `g` is `g0` with every slice of the mask retired once more and perhaps traps taken. -/
structure AfterIssue (g0 : Gang) (m : BitVec 8) (g : Gang) : Prop where
  file : SameFile g0 g
  issues : g.issues = g0.issues + 1
  yielded : g.yielded = g0.yielded
  tally : ∀ k, tally (g.sl k) = tally (g0.sl k)
  retired : ∀ k, (g0.slices[k]?).isSome = true →
    (g.sl k).retired = (g0.sl k).retired + if m.getLsbD k then 1 else 0

theorem sl_modSl (g : Gang) (k j : Nat) (f : Slice → Slice) :
    (g.modSl k f).sl j = if j = k ∧ (g.slices[j]?).isSome = true then f (g.sl j) else g.sl j := by
  show ((modAt g.slices k f)[j]?).getD { pc := 0 } = _
  rw [modAt_get]
  by_cases hj : j = k
  · subst hj
    cases h : g.slices[j]? <;> simp [Gang.sl, nth, h]
  · simp [hj, Gang.sl, nth]

@[simp] theorem modSl_slices_length (g : Gang) (k : Nat) (f : Slice → Slice) :
    (g.modSl k f).slices.length = g.slices.length := by simp [Gang.modSl]

theorem isSome_slices {g g' : Gang} (h : g'.slices.length = g.slices.length) (k : Nat) :
    (g'.slices[k]?).isSome = (g.slices[k]?).isSome := by
  by_cases hk : k < g.slices.length
  · rw [List.getElem?_eq_getElem hk, List.getElem?_eq_getElem (h ▸ hk)]; rfl
  · rw [List.getElem?_eq_none (Nat.not_lt.1 hk), List.getElem?_eq_none (h ▸ Nat.not_lt.1 hk)]

theorem tally_takeTrap (x : Slice) (b : Dbl) (c d f : Nat) (l : BitVec 4) (r a : VAddr) :
    tally (takeTrap x b c d f l r a) = tally x := rfl

theorem sl_mapIdx (g : Gang) (f : Nat → Slice → Slice) (k : Nat) :
    ({ g with slices := g.slices.mapIdx f }).sl k =
      if (g.slices[k]?).isSome = true then f k (g.sl k) else g.sl k := by
  unfold Gang.sl nth
  simp only [List.getElem?_mapIdx]
  cases h : g.slices[k]? <;> simp

/-- The parts of a slice that REGANG's end and a trap leave alone. -/
def SameTally (g g' : Gang) : Prop :=
  g'.slices.length = g.slices.length ∧ (g'.issues = g.issues ∧ g'.yielded = g.yielded) ∧
    ∀ k, tally (g'.sl k) = tally (g.sl k) ∧ (g'.sl k).retired = (g.sl k).retired

theorem SameTally.refl (g : Gang) : SameTally g g := ⟨rfl, ⟨rfl, rfl⟩, fun _ => ⟨rfl, rfl⟩⟩

theorem SameTally.trans {a b c : Gang} (h : SameTally a b) (k : SameTally b c) : SameTally a c :=
  ⟨k.1.trans h.1, ⟨k.2.1.1.trans h.2.1.1, k.2.1.2.trans h.2.1.2⟩, fun j =>
    ⟨(k.2.2 j).1.trans (h.2.2 j).1, (k.2.2 j).2.trans (h.2.2 j).2⟩⟩

theorem SameTally.modSl (g : Gang) (k : Nat) (f : Slice → Slice)
    (h : ∀ x, tally (f x) = tally x ∧ (f x).retired = x.retired) : SameTally g (g.modSl k f) := by
  refine ⟨by simp, ⟨rfl, rfl⟩, fun j => ?_⟩
  rw [sl_modSl]
  split
  · exact h _
  · exact ⟨rfl, rfl⟩

theorem regangMerge_tally (g : Gang) : SameTally g (regangMerge g) := by
  refine ⟨by simp [regangMerge], ⟨rfl, rfl⟩, fun k => ?_⟩
  have h : (regangMerge g).sl k = ((g.slices.map fun (x : Slice) =>
      if x.finished then x else { x with regang := none, pc := x.pc + 4 })[k]?).getD { pc := 0 } := rfl
  rw [h, List.getElem?_map]
  show _ = tally ((g.slices[k]?).getD { pc := 0 }) ∧ _ = ((g.slices[k]?).getD { pc := 0 }).retired
  cases g.slices[k]? with
  | none => exact ⟨rfl, rfl⟩
  | some x =>
    dsimp only [Option.map_some, Option.getD_some]
    split <;> exact ⟨rfl, rfl⟩

theorem foldl_modSl_tally (f : Nat → Slice → Slice)
    (h : ∀ k x, tally (f k x) = tally x ∧ (f k x).retired = x.retired) (ks : List Nat) (g : Gang) :
    SameTally g (ks.foldl (fun (x : Gang) k => x.modSl k (f k)) g) := by
  induction ks generalizing g with
  | nil => exact .refl g
  | cons k ks ih => exact (SameTally.modSl g k (f k) (h k)).trans (ih _)

theorem takePending_tally (e : Iss) (r : Eff) (ks : List Nat) : SameTally r.g (takePending e r ks) := by
  unfold takePending
  generalize r.g = g0
  induction ks generalizing g0 with
  | nil => exact .refl g0
  | cons k ks ih =>
    rw [List.foldl_cons]
    refine SameTally.trans ?_ (ih _)
    split
    · exact SameTally.modSl _ _ _ fun _ => ⟨rfl, rfl⟩
    · exact .refl g0

theorem regangStep_tally (g : Gang) (a : VAddr) : SameTally g (regangStep g a) := by
  have h := foldl_modSl_tally (fun k y => takeTrap y g.trapBase causeStep 0 0
    (sliceMask k (activeOn (regangMerge g))) y.pc a) (fun _ _ => ⟨rfl, rfl⟩)
    (regangSteps (regangMerge g)) (regangMerge g)
  exact (regangMerge_tally g).trans (h.trans ⟨rfl, ⟨rfl, rfl⟩, fun _ => ⟨rfl, rfl⟩⟩)

theorem settleRegang_tally (s : State) (gi : Nat) (grp : Group) (k : Kernel) (step : Bool) (g : Gang) :
    ∃ g', SameFile g g' ∧ SameTally g g' ∧ (settleRegang s gi grp k step g = setGang s gi g' ∨
      ∃ r, settleRegang s gi grp k step g = addFault (setGang s gi g') r) := by
  have hs : ∀ n, SameTally g (g.modSl n fun x => { x with stopped := true }) :=
    fun n => SameTally.modSl _ _ _ fun _ => ⟨rfl, rfl⟩
  unfold settleRegang
  split
  · dsimp only
    split
    · exact ⟨_, .modSl _ _ _, hs _, .inr ⟨_, rfl⟩⟩
    · split
      · split
        · exact ⟨_, .modSl _ _ _, hs _, .inr ⟨_, rfl⟩⟩
        · exact ⟨_, regangStep_file _ _, regangStep_tally _ _, .inl rfl⟩
      · exact ⟨_, regangMerge_file _, regangMerge_tally _, .inl rfl⟩
  · exact ⟨g, .refl _, .refl _, .inl rfl⟩

theorem takeArea_tally (ps : List Partition) (p : Nat) (g : Gang) : SameTally g (takeArea ps p g).2 := by
  unfold takeArea
  repeat' split
  all_goals exact ⟨rfl, ⟨rfl, rfl⟩, fun _ => ⟨rfl, rfl⟩⟩

theorem spill_tally (ps : List Partition) (p : Nat) (g : Gang) : SameTally g (spill ps p g).2 := by
  unfold spill
  split
  · dsimp only
    split <;> exact takeArea_tally _ _ _
  · exact .refl _

/-- The gang once its slices have retired and it is divided into cohorts again. -/
def retireGang (e : Iss) (g : Gang) : Gang :=
  { g with
    slices := g.slices.mapIdx fun k (x : Slice) =>
      if e.mask.getLsbD k then { x with retired := x.retired + 1 } else x
    issues := g.issues + 1
    starve := 0
    lastCoh := some (lowSlice e.mask) }

theorem retireGang_file (e : Iss) (g : Gang) : SameFile g (retireGang e g) :=
  ⟨rfl, rfl, rfl, rfl, rfl, rfl, rfl, rfl, rfl, rfl⟩

theorem retireGang_sl (e : Iss) (g : Gang) (k : Nat) :
    tally ((retireGang e g).sl k) = tally (g.sl k) ∧ ((g.slices[k]?).isSome = true →
      ((retireGang e g).sl k).retired = (g.sl k).retired + if e.mask.getLsbD k then 1 else 0) := by
  have h : (retireGang e g).sl k = ((g.slices.mapIdx fun k (x : Slice) =>
      if e.mask.getLsbD k then { x with retired := x.retired + 1 } else x)[k]?).getD { pc := 0 } := rfl
  rw [h, List.getElem?_mapIdx]
  show _ = tally ((g.slices[k]?).getD { pc := 0 }) ∧ (_ → _ = ((g.slices[k]?).getD { pc := 0 }).retired + _)
  cases g.slices[k]? with
  | none => exact ⟨rfl, fun h => by cases h⟩
  | some x =>
    dsimp only [Option.map_some, Option.getD_some]
    split <;> exact ⟨rfl, fun _ => rfl⟩

/-- `finish` as a chain of its parts, where no trap due finds a full stack. -/
theorem finish_eq (e : Iss) (r : Eff) (hn : noOverflow e r) :
    finish e r =
      (let g := { retireGang e (takePending e r e.sls) with
        cohorts := divideCohort (retireGang e (takePending e r e.sls)) e.mask }
       let pg := spill r.st.ctl.parts e.kern.part g
       let s := settleRegang { r.st with ctl := { r.st.ctl with parts := pg.1 } } e.gi e.grp e.kern
         ((dbgCtl e.s e.g e.kern.part).getLsbD 1) pg.2
       let s := groupExit s pg.2.grp
       let s := if e.kern.fixed then advanceTurn s e.grp.kern else s
       let s := noteIssue s (schedOf e.grp e.g) e.gi
       idle { s with ctl := perfBump s.ctl e.kern.part e.kern.ctx e.core 2 }) := by
  unfold finish
  have h : e.sls.find? (trapOverflows e r) = none := by
    rw [List.find?_eq_none]
    intro k hk
    rw [hn k hk]
    exact Bool.false_ne_true
  rw [h]
  rfl

/-- What an issue that goes through leaves: the gang after its effect, and nothing else but the bookkeeping. -/
theorem finish_spec (e : Iss) (r : Eff) (hn : noOverflow e r) (hg : e.gi < r.st.exe.gangs.length) :
    ∃ g, (finish e r).exe.gangs[e.gi]? = some g ∧ AfterIssue r.g e.mask g ∧
      OnlyGang r.st (finish e r) e.gi ∧ (finish e r).exe.cur = none := by
  rw [finish_eq e r hn]
  obtain ⟨hl, ⟨hi, hy⟩, ht⟩ := takePending_tally e r e.sls
  have hf := takePending_file e r e.sls
  generalize takePending e r e.sls = g1 at hl hi hy ht hf
  dsimp only
  generalize hg2 : ({ retireGang e g1 with cohorts := divideCohort (retireGang e g1) e.mask } : Gang) = g2
  have hf2 : SameFile r.g g2 := hf.trans ((retireGang_file e g1).trans
    (by subst hg2; exact ⟨rfl, rfl, rfl, rfl, rfl, rfl, rfl, rfl, rfl, rfl⟩))
  have hi2 : g2.issues = r.g.issues + 1 := by subst hg2; exact congrArg (· + 1) hi
  have hy2 : g2.yielded = r.g.yielded := by subst hg2; exact hy
  have hsl : ∀ k, g2.sl k = (retireGang e g1).sl k := by subst hg2; exact fun _ => rfl
  have hp := spill_parts r.st.ctl.parts e.kern.part g2
  have hf3 := spill_file r.st.ctl.parts e.kern.part g2
  have ht3 := spill_tally r.st.ctl.parts e.kern.part g2
  generalize spill r.st.ctl.parts e.kern.part g2 = pg at hp hf3 ht3
  generalize hs0 : ({ r.st with ctl := { r.st.ctl with parts := pg.1 } } : State) = s0
  have ho0 : OnlyGang r.st s0 e.gi := by
    subst hs0
    exact ⟨rfl, rfl, fun _ _ => rfl, rfl, rfl, rfl, rfl, rfl, rfl, rfl, hp⟩
  have hlen : s0.exe.gangs.length = r.st.exe.gangs.length := by subst hs0; rfl
  have ho1 := settleRegang_only s0 e.gi e.grp e.kern ((dbgCtl e.s e.g e.kern.part).getLsbD 1) pg.2
  obtain ⟨g4, hf4, ht4, hs⟩ :=
    settleRegang_tally s0 e.gi e.grp e.kern ((dbgCtl e.s e.g e.kern.part).getLsbD 1) pg.2
  generalize settleRegang s0 e.gi e.grp e.kern ((dbgCtl e.s e.g e.kern.part).getLsbD 1) pg.2 = s1 at ho1 hs
  have hgang : s1.exe.gangs[e.gi]? = some g4 := by
    have : (setGang s0 e.gi g4).exe.gangs[e.gi]? = some g4 := by
      rw [setGang_gangs, modAt_get, if_pos rfl, List.getElem?_eq_getElem (by omega)]
      rfl
    rcases hs with h | ⟨r, h⟩ <;> rw [h] <;> exact this
  have ho2 := groupExit_only s1 pg.2.grp e.gi
  have hg2' : (groupExit s1 pg.2.grp).exe.gangs = s1.exe.gangs := groupExit_gangs _ _
  generalize groupExit s1 pg.2.grp = s2 at ho2 hg2'
  have ho3 : OnlyGang s2 (if e.kern.fixed then advanceTurn s2 e.grp.kern else s2) e.gi := by
    split
    · exact advanceTurn_only _ _ _
    · exact .refl _ _
  have hg3 : (if e.kern.fixed then advanceTurn s2 e.grp.kern else s2).exe.gangs = s2.exe.gangs := by
    split
    · exact advanceTurn_gangs _ _
    · rfl
  generalize (if e.kern.fixed then advanceTurn s2 e.grp.kern else s2) = s3 at ho3 hg3
  refine ⟨g4, ?_, ⟨?_, ?_, ?_, ?_, ?_⟩, ?_, rfl⟩
  · rw [idle_gangs]
    show s3.exe.gangs[e.gi]? = _
    rw [hg3, hg2', hgang]
  · exact hf2.trans (hf3.trans hf4)
  · rw [ht4.2.1.1, ht3.2.1.1, hi2]
  · rw [ht4.2.1.2, ht3.2.1.2, hy2]
  · intro k
    rw [(ht4.2.2 k).1, (ht3.2.2 k).1, hsl, (retireGang_sl e g1 k).1, (ht k).1]
  · intro k hk
    rw [(ht4.2.2 k).2, (ht3.2.2 k).2, hsl, (retireGang_sl e g1 k).2 (by rw [isSome_slices hl]; exact hk),
      (ht k).2]
  · exact (((ho0.trans ho1).trans ho2).trans ho3).trans
      ((noteIssue_only _ _ _).trans ((perfBump_only _ _ _ _ _ _).trans (idle_only _ _)))

end Sys2Proof.Machine
end

