-- ==== Sys2Proof/Laws/Shapes.lean ====
section
/-! SUPPORT. Laws/Shapes.lean: instructions of one shape, each said once: a result in every active lane, a
predicate, a uniform register, or a change of each slice. -/

namespace Sys2Proof.Machine

theorem smPuts_append {n : Nat} (a b : List (Nat × BitVec n)) (m : SMap n) :
    smPuts m (a ++ b) = smPuts (smPuts m a) b := by
  induction a generalizing m with
  | nil => rfl
  | cons w a ih => exact ih _

theorem regKey_inj {l c l' c' : Nat} (hc : c < 256) (hc' : c' < 256) :
    regKey l c = regKey l' c' ↔ l = l' ∧ c = c' := by
  unfold regKey; omega

/-- The writes of one lane, read back. -/
theorem smGet_resWrites (m : SMap 32) (w : Bool) (d : Byte) (l v l' c : Nat) (hc : c < 256)
    (hd : w = true → d.toNat + 1 < 256) : smGet (smPuts m (resWrites w d l v)) (regKey l' c) =
      if l' = l ∧ (c = 0 ∨ c = d.toNat) then BitVec.ofNat 32 v
      else if l' = l ∧ w = true ∧ c = d.toNat + 1 then BitVec.ofNat 32 (v / 2 ^ 32)
      else smGet m (regKey l' c) := by
  have hd0 : d.toNat < 256 := d.isLt
  unfold resWrites
  cases w with
  | true =>
    have h1 := hd rfl
    simp only [if_true, smPuts, smGet_smSet, regKey_inj hc h1, regKey_inj hc hd0,
      regKey_inj hc (by omega : 0 < 256), true_and]
    by_cases hl : l' = l <;> by_cases h0 : c = 0 <;> by_cases h2 : c = d.toNat <;>
      by_cases h3 : c = d.toNat + 1 <;> simp [hl, h0, h2, h3]
  | false =>
    simp only [Bool.false_eq_true, if_false, false_and, and_false]
    split
    · rename_i hz
      simp only [smPuts, smGet_smSet, regKey_inj hc (by omega : 0 < 256), hz, or_self]
    · simp only [smPuts, smGet_smSet, regKey_inj hc hd0, regKey_inj hc (by omega : 0 < 256)]
      by_cases hl : l' = l <;> by_cases h0 : c = 0 <;> by_cases h2 : c = d.toNat <;> simp [hl, h0, h2]

/-- The writes of a list of lanes, read back. -/
theorem wrote_resultsOf (m : SMap 32) (ls : List Nat) (d : Byte) (w : Nat → Bool) (v : Nat → Nat)
    (hd : ∀ l ∈ ls, w l = true → d.toNat + 1 < 256) :
    Wrote m (smPuts m (resultsOf ls d w v)) ls d w v := by
  induction ls generalizing m with
  | nil => intro l c _ _; simp [resultsOf, smPuts]
  | cons x ls ih =>
    intro l c hl hc
    have hx := smGet_resWrites m (w x) d x (v x) l c hc (hd x (by simp))
    have h := ih (smPuts m (resWrites (w x) d x (v x))) (fun l hl => hd l (by simp [hl])) l c hl hc
    rw [show resultsOf (x :: ls) d w v = resWrites (w x) d x (v x) ++ resultsOf ls d w v from rfl,
      smPuts_append, h, hx]
    by_cases hlx : l = x
    · subst hlx
      by_cases hm : l ∈ ls <;> by_cases h0 : c = 0 ∨ c = d.toNat <;>
        by_cases h1 : w l = true ∧ c = d.toNat + 1 <;> simp [hm, h0, h1]
    · simp [hlx]

theorem adv_sl_tally (e : Iss) (k : Nat) : tally (e.adv.sl k) = tally (e.g.sl k) ∧
    (e.adv.sl k).retired = (e.g.sl k).retired ∧ (e.adv.sl k).stack = (e.g.sl k).stack := by
  have h : e.adv.sl k = ((e.g.slices.mapIdx fun k (x : Slice) =>
      if e.mask.getLsbD k then { x with pc := x.pc + 4 } else x)[k]?).getD { pc := 0 } := rfl
  rw [h, List.getElem?_mapIdx]
  show _ = tally ((e.g.slices[k]?).getD { pc := 0 }) ∧ _ = ((e.g.slices[k]?).getD { pc := 0 }).retired
    ∧ _ = ((e.g.slices[k]?).getD { pc := 0 }).stack
  cases e.g.slices[k]? with
  | none => exact ⟨rfl, rfl, rfl⟩
  | some x =>
    dsimp only [Option.map_some, Option.getD_some]
    split <;> exact ⟨rfl, rfl, rfl⟩

@[simp] theorem adv_slices_length (e : Iss) : e.adv.slices.length = e.g.slices.length := by simp [Iss.adv]

theorem getLsbD_of_mem_sls {e : Iss} {k : Nat} (h : k ∈ e.sls) : e.mask.getLsbD k = true := by
  unfold Iss.sls maskSlices at h
  exact (List.mem_filter.1 h).2

theorem active_lt {e : Iss} {l : Nat} (h : l ∈ e.active) : l < 32 := by
  unfold Iss.active maskLanes at h
  exact List.mem_range.1 (List.mem_filter.1 (List.mem_filter.1 h).1).1

theorem running_lt {e : Iss} {l : Nat} (h : l ∈ e.running) : l < 32 := by
  unfold Iss.running maskLanes at h
  exact List.mem_range.1 (List.mem_filter.1 (List.mem_filter.1 h).1).1

/-- The slice of an active lane is in the cohort. -/
theorem active_slice {e : Iss} {l : Nat} (h : l ∈ e.active) : l / 4 ∈ e.sls := by
  have h32 := active_lt h
  unfold Iss.active maskLanes at h
  have h1 := (List.mem_filter.1 (List.mem_filter.1 h).1).2
  unfold Iss.sls maskSlices
  exact List.mem_filter.2 ⟨List.mem_range.2 (by omega), h1⟩

theorem running_slice {e : Iss} {l : Nat} (h : l ∈ e.running) : l / 4 ∈ e.sls := by
  have h32 := running_lt h
  unfold Iss.running maskLanes at h
  have h1 := (List.mem_filter.1 (List.mem_filter.1 h).1).2
  unfold Iss.sls maskSlices
  exact List.mem_filter.2 ⟨List.mem_range.2 (by omega), h1⟩

/-- Where the stacks are those before the instruction and have room, no trap overflows. -/
theorem noOverflow_of_room {e : Iss} {r : Eff} (h : RoomForTraps e)
    (hs : ∀ k, (r.g.sl k).stack = (e.g.sl k).stack) : noOverflow e r := by
  intro k hk
  unfold trapOverflows
  rw [hs k]
  have := h k hk
  simp only [Bool.and_eq_false_iff, decide_eq_false_iff_not, Nat.not_le]
  exact .inr this

/-- No trap is pending after a quiet instruction. -/
theorem pendingTrap_quiet {e : Iss} (h : Quiet e) (r : Eff) (k : Nat) : pendingTrap e r k = none := by
  unfold pendingTrap
  dsimp only
  rw [h.1, h.2]
  simp

theorem takePending_quiet {e : Iss} (h : Quiet e) (r : Eff) (ks : List Nat) : takePending e r ks = r.g := by
  unfold takePending
  generalize r.g = g0
  induction ks generalizing g0 with
  | nil => rfl
  | cons k ks ih => rw [List.foldl_cons, pendingTrap_quiet h]; exact ih _

theorem noOverflow_quiet {e : Iss} (h : Quiet e) (r : Eff) : noOverflow e r := by
  intro k _
  unfold trapOverflows
  rw [pendingTrap_quiet h]
  rfl

/-- A gang with a slice that runs on and has not stopped at REGANG settles nothing (R135). -/
theorem allRegang_false {g : Gang} {k : Nat} (hk : k < 8) (hf : (g.sl k).finished = false)
    (hr : (g.sl k).regang = none) : allRegang g = false := by
  unfold allRegang
  rw [Bool.and_eq_false_iff]
  refine .inr ?_
  rw [List.all_eq_false]
  exact ⟨k, by unfold liveSlices; simp [hk, hf], by simp [hr]⟩

theorem takeArea_slices (ps : List Partition) (p : Nat) (g : Gang) :
    (takeArea ps p g).2.slices = g.slices := by
  unfold takeArea
  repeat' split
  all_goals rfl

theorem spill_slices (ps : List Partition) (p : Nat) (g : Gang) : (spill ps p g).2.slices = g.slices := by
  unfold spill
  split
  · dsimp only
    split <;> exact takeArea_slices ps p g
  · rfl

/-- The slices after a quiet issue that leaves a slice running. -/
theorem finish_quiet {e : Iss} {r : Eff} (hq : Quiet e) (hg : e.gi < r.st.exe.gangs.length) {k : Nat}
    (hk : k < 8) (hf : (r.g.sl k).finished = false) (hr : (r.g.sl k).regang = none) :
    ∃ g, (finish e r).exe.gangs[e.gi]? = some g ∧ AfterIssue r.g e.mask g ∧
      OnlyGang r.st (finish e r) e.gi ∧ (finish e r).exe.cur = none ∧
      g.slices = (retireGang e r.g).slices := by
  obtain ⟨g, h1, h2, h3, h4⟩ := finish_spec e r (noOverflow_quiet hq r) hg
  refine ⟨g, h1, h2, h3, h4, ?_⟩
  rw [finish_eq e r (noOverflow_quiet hq r), takePending_quiet hq] at h1
  dsimp only at h1
  generalize hg2 : ({ retireGang e r.g with cohorts := divideCohort (retireGang e r.g) e.mask } : Gang) = g2
    at h1
  have hsl : g2.slices = (retireGang e r.g).slices := by subst hg2; rfl
  have h5 := spill_slices r.st.ctl.parts e.kern.part g2
  generalize spill r.st.ctl.parts e.kern.part g2 = pg at h1 h5
  have hslk : pg.2.sl k = (retireGang e r.g).sl k := by unfold Gang.sl; rw [h5, hsl]
  have hret : ((retireGang e r.g).sl k).finished = (r.g.sl k).finished
      ∧ ((retireGang e r.g).sl k).regang = (r.g.sl k).regang := by
    have h : (retireGang e r.g).sl k = ((r.g.slices.mapIdx fun k (x : Slice) =>
      if e.mask.getLsbD k then { x with retired := x.retired + 1 } else x)[k]?).getD { pc := 0 } := rfl
    rw [h, List.getElem?_mapIdx]
    show _ = ((r.g.slices[k]?).getD { pc := 0 }).finished ∧ _ = ((r.g.slices[k]?).getD { pc := 0 }).regang
    cases r.g.slices[k]? with
    | none => exact ⟨rfl, rfl⟩
    | some x => dsimp only [Option.map_some, Option.getD_some]; split <;> exact ⟨rfl, rfl⟩
  have hall : allRegang pg.2 = false := by
    refine allRegang_false hk ?_ ?_
    · rw [hslk, hret.1]; exact hf
    · rw [hslk, hret.2]; exact hr
  unfold settleRegang at h1
  rw [hall] at h1
  simp only [Bool.false_eq_true, if_false] at h1
  have h6 : ∀ s : State, (if e.kern.fixed = true then advanceTurn s e.grp.kern else s).exe.gangs = s.exe.gangs := by
    intro s; split
    · exact advanceTurn_gangs _ _
    · rfl
  rw [idle_gangs] at h1
  change (if e.kern.fixed = true then advanceTurn _ e.grp.kern else _).exe.gangs[e.gi]? = some g at h1
  rw [h6, groupExit_gangs, setGang_gangs, modAt_get, if_pos rfl, List.getElem?_eq_getElem hg] at h1
  simp only [Option.map_some, Option.some.injEq] at h1
  rw [← h1, h5, hsl]

/-- Every issue that goes through, with a body that keeps the stacks, retires. -/
theorem issue_retires {s : State} {e : Iss} {j : Iss → Judge} {b : Iss → Eff} (h : issOf s = some e)
    (hj : j e = .go) (hroom : RoomForTraps e) (hst : (b e).st.exe.gangs = s.exe.gangs)
    (hs : ∀ k, ((b e).g.sl k).stack = (e.g.sl k).stack)
    (hl : (b e).g.slices.length = e.g.slices.length)
    (hr : ∀ k, ((b e).g.sl k).retired = (e.g.sl k).retired) (hi : (b e).g.issues = e.g.issues) :
    ∃ t g, issue s j b = .next t ∧ Retired t e g ∧ OnlyGang (b e).st t e.gi ∧ SameFile (b e).g g ∧
      (∀ k, tally (g.sl k) = tally ((b e).g.sl k)) ∧ (Quiet e → ∀ k, k < 8 →
        ((b e).g.sl k).finished = false → ((b e).g.sl k).regang = none →
        g.slices = (retireGang e (b e).g).slices) := by
  have hgi : e.gi < (b e).st.exe.gangs.length := by rw [hst]; exact issOf_gi_lt h
  obtain ⟨g, hg, ha, ho, hc⟩ := finish_spec e (b e) (noOverflow_of_room hroom hs) hgi
  refine ⟨_, g, issue_go h hj, ⟨hg, by rw [ha.issues, hi], ?_, hc⟩, ho, ha.file, ha.tally, ?_⟩
  · intro k hk hks
    rw [ha.retired k (by rw [isSome_slices hl]; exact hks), hr, if_pos (getLsbD_of_mem_sls hk)]
  · intro hq k hk hf hrg
    obtain ⟨g', hg', -, -, -, hsl⟩ := finish_quiet (r := b e) hq hgi hk hf hrg
    rw [hg'] at hg
    cases hg
    exact hsl

/-- A slice of a cohort that may issue does not stand at REGANG. -/
theorem iss_regang {s : State} {e : Iss} (h : issOf s = some e) {k : Nat} (hk : k ∈ e.sls) :
    (e.g.sl k).regang = none := by
  have hm := (issOf_some h).2.2.2.2.2.2
  unfold mayIssue at hm
  simp only [Bool.and_eq_true, List.all_eq_true] at hm
  have := (hm.1.1.2 k hk).1.2
  simpa using this

/-- A gang whose slices are those of `e` changed by `F`, which only steps the program counter, has advanced. -/
theorem advanced_of {s : State} {e : Iss} {g r : Gang} {F : Nat → Slice → Slice} (h : issOf s = some e)
    (hq : Quiet e → ∀ k, k < 8 → (r.sl k).finished = false → (r.sl k).regang = none →
      g.slices = (retireGang e r).slices)
    (hr : ∀ k, r.slices[k]? = (e.g.slices[k]?).map (F k))
    (hF : ∀ k x, (F k x).run = x.run ∧ (F k x).exited = x.exited ∧ (F k x).stack = x.stack
      ∧ (F k x).mode = x.mode ∧ (F k x).im = x.im ∧ (F k x).regang = x.regang
      ∧ (F k x).pc = if e.mask.getLsbD k then x.pc + 4 else x.pc) : Advanced e g := by
  intro hqt ⟨k, hk, x, hx, hrun⟩
  have hsl : r.sl k = F k x := by
    show (r.slices[k]?).getD _ = _
    rw [hr, hx]; rfl
  have hxs : e.g.sl k = x := by
    show (e.g.slices[k]?).getD _ = _
    rw [hx]; rfl
  have hk8 : k < 8 := by
    unfold Iss.sls maskSlices at hk
    exact List.mem_range.1 (List.mem_filter.1 hk).1
  have hg := hq hqt k hk8 (by
      rw [hsl]
      unfold Slice.finished
      rw [(hF k x).1, Bool.and_eq_false_iff]
      exact .inl (beq_eq_false_iff_ne.2 hrun)) (by rw [hsl, (hF k x).2.2.2.2.2.1, ← hxs]; exact iss_regang h hk)
  intro i y hy
  have hri : r.slices[i]? = some (F i y) := by rw [hr, hy]; rfl
  obtain ⟨f1, f2, f3, f4, f5, -, f7⟩ := hF i y
  have hgi : g.slices[i]? = some (if e.mask.getLsbD i then { F i y with retired := (F i y).retired + 1 }
      else F i y) := by
    rw [hg]
    show (r.slices.mapIdx fun k (x : Slice) =>
      if e.mask.getLsbD k then { x with retired := x.retired + 1 } else x)[i]? = _
    rw [List.getElem?_mapIdx, hri]
    rfl
  refine ⟨_, hgi, ?_⟩
  split
  · rename_i hm
    rw [if_pos hm] at f7
    exact ⟨f1, f2, f3, f4, f5, f7⟩
  · rename_i hm
    rw [if_neg hm] at f7
    exact ⟨f1, f2, f3, f4, f5, f7⟩

/-- An instruction of the result shape. -/
theorem result_spec {s : State} {e : Iss} {j : Iss → Judge} {b : Iss → Eff} {ls : List Nat} {d : Byte}
    {w : Nat → Bool} {v : Nat → Nat} {c : Nat → Conds} (h : issOf s = some e) (hj : j e = .go)
    (hroom : RoomForTraps e) (hb : ∃ a, b e = { resultBody e ls d w v c with all := a })
    (hd : ∀ l ∈ ls, w l = true → d.toNat + 1 < 256) :
    ∃ t, issue s j b = .next t ∧ Result s t e ls d w v c := by
  obtain ⟨a, hb⟩ := hb
  have hes := (issOf_some h).1
  have hsl : ∀ k, (b e).g.sl k = (({ e.adv with slices := e.adv.slices.mapIdx fun k (x : Slice) =>
      { x with fpx := fpxOr x.fpx (sliceConds k ls c) } } : Gang)).sl k := by rw [hb]; exact fun _ => rfl
  have hk : ∀ k, (b e).g.sl k = if (e.adv.slices[k]?).isSome = true then
      { e.adv.sl k with fpx := fpxOr (e.adv.sl k).fpx (sliceConds k ls c) } else e.adv.sl k := by
    intro k; rw [hsl, sl_mapIdx]
  obtain ⟨t, g, ht, hr, ho, hf, hta, hadv⟩ := issue_retires (b := b) h hj hroom (by rw [hb]; exact congrArg _ (congrArg _ hes))
    (fun k => by rw [hk]; split <;> exact (adv_sl_tally e k).2.2)
    (by rw [hb]; simp [resultBody])
    (fun k => by rw [hk]; split <;> exact (adv_sl_tally e k).2.1) (by rw [hb]; rfl)
  refine ⟨t, ht, g, hr, ?_, ?_, ?_, ?_, ?_, ?_, ?_⟩
  · rw [hb] at ho; rw [← hes]; exact ho
  · rw [hf.regs, hb]; exact wrote_resultsOf _ _ _ _ _ hd
  · rw [hf.preds, hb]; rfl
  · rw [hf.sregs, hb]; rfl
  · rw [hb] at hf; exact ⟨hf.trapBase, hf.fpxEn, hf.dbgCtl, hf.gear, hf.axCount, hf.opens, hf.grp⟩
  · intro k hks
    have h1 := (adv_sl_tally e k).1
    simp only [tally, Prod.mk.injEq] at h1
    rw [hta, hk, if_pos (by rw [isSome_slices (adv_slices_length e)]; exact hks)]
    simp only [tally, h1]
  · refine advanced_of (F := fun k x => { (if e.mask.getLsbD k then { x with pc := x.pc + 4 } else x) with
        fpx := fpxOr x.fpx (sliceConds k ls c) }) h hadv (fun k => ?_) fun k x => ?_
    · rw [hb]
      show ((e.g.slices.mapIdx fun k (x : Slice) => if e.mask.getLsbD k then { x with pc := x.pc + 4 } else x).mapIdx
        fun k (x : Slice) => { x with fpx := fpxOr x.fpx (sliceConds k ls c) })[k]? = _
      rw [List.getElem?_mapIdx, List.getElem?_mapIdx, Option.map_map]
      cases e.g.slices[k]? with
      | none => rfl
      | some x => simp only [Option.map_some, Function.comp]; split <;> rfl
    · dsimp only
      split <;> exact ⟨rfl, rfl, rfl, rfl, rfl, rfl, rfl⟩

/-! ## Predicates -/

theorem getLsbD_one_shl (l j : Nat) (hj : j < 32) : (1#32 <<< l).getLsbD j = decide (j = l) := by
  rw [BitVec.getLsbD_shiftLeft]
  by_cases h : j < l
  · simp [h]; omega
  · by_cases h2 : j = l
    · subst h2; simp [hj]
    · simp [hj, h, h2]; omega

theorem smGet_setPred (m : SMap 32) (p q l : Nat) (v : Bool) (j : Nat) (hj : j < 32) :
    (q == 0 || (smGet (setPred m p l v) q).getLsbD j) =
      if q ≠ 0 ∧ q = p ∧ j = l then v else (q == 0 || (smGet m q).getLsbD j) := by
  unfold setPred
  by_cases hq : q = 0
  · simp [hq]
  · by_cases hp : p = 0
    · simp [hp, hq]
    · rw [if_neg hp]
      dsimp only
      rw [smGet_smSet]
      by_cases hqp : q = p
      · subst hqp
        simp only [hq, if_true, beq_eq_false_iff_ne.2 hq, Bool.false_or, ne_eq, not_false_eq_true, true_and]
        cases v
        · rw [if_neg Bool.false_ne_true, BitVec.getLsbD_and, BitVec.getLsbD_not, getLsbD_one_shl l j hj]
          by_cases hjl : j = l <;> simp [hjl, hj]
        · rw [if_pos rfl, BitVec.getLsbD_or, getLsbD_one_shl l j hj]
          by_cases hjl : j = l <;> simp [hjl]
      · simp [hqp]

theorem wrotePred_fold (g : Gang) (p : Nat) (v : Nat → Bool) (ls : List Nat) (h : ∀ l ∈ ls, l < 32)
    (g' : Gang) (hg : g'.preds = ls.foldl (fun m l => setPred m p l (v l)) g.preds) :
    WrotePred g g' ls p v := by
  intro q j hj
  unfold predAt
  rw [hg]
  clear hg g'
  generalize hm : g.preds = m
  clear hm g
  induction ls generalizing m with
  | nil => simp
  | cons x ls ih =>
    rw [List.foldl_cons, ih (fun l hl => h l (by simp [hl])) (setPred m p x (v x)),
      smGet_setPred m p q x (v x) j hj]
    by_cases hq : q ≠ 0 ∧ q = p
    · by_cases hjx : j = x
      · subst hjx
        by_cases hm : j ∈ ls <;> simp [hq.2, hm, hq.2 ▸ hq.1]
      · by_cases hm : j ∈ ls <;> simp [hq.2, hm, hjx, hq.2 ▸ hq.1]
    · by_cases h0 : q = 0
      · simp [h0]
      · have : q ≠ p := fun e => hq ⟨h0, e⟩
        simp [h0, this]

/-- An instruction of the predicate shape. -/
theorem pred_spec {s : State} {e : Iss} {j : Iss → Judge} {b : Iss → Eff} {p : Nat} {v : Nat → Bool}
    {c : Nat → Conds} (h : issOf s = some e) (hj : j e = .go) (hroom : RoomForTraps e)
    (hb : b e = predBody e p v c) : ∃ t, issue s j b = .next t ∧ PredResult s t e p v c := by
  have hes := (issOf_some h).1
  have hsl : ∀ k, (b e).g.sl k = (({ e.adv with slices := e.adv.slices.mapIdx fun k (x : Slice) =>
      { x with fpx := fpxOr x.fpx (sliceConds k e.active c) } } : Gang)).sl k := by rw [hb]; exact fun _ => rfl
  have hk : ∀ k, (b e).g.sl k = if (e.adv.slices[k]?).isSome = true then
      { e.adv.sl k with fpx := fpxOr (e.adv.sl k).fpx (sliceConds k e.active c) } else e.adv.sl k := by
    intro k; rw [hsl, sl_mapIdx]
  obtain ⟨t, g, ht, hr, ho, hf, hta, hadv⟩ := issue_retires (b := b) h hj hroom
    (by rw [hb]; exact congrArg _ (congrArg _ hes))
    (fun k => by rw [hk]; split <;> exact (adv_sl_tally e k).2.2)
    (by rw [hb]; simp [predBody])
    (fun k => by rw [hk]; split <;> exact (adv_sl_tally e k).2.1) (by rw [hb]; rfl)
  refine ⟨t, ht, g, hr, ?_, ?_, ?_, ?_, ?_, ?_, ?_⟩
  · rw [hb] at ho; rw [← hes]; exact ho
  · exact wrotePred_fold e.g p v e.active (fun l => active_lt) g (by rw [hf.preds, hb]; rfl)
  · rw [hf.regs, hb]; rfl
  · rw [hf.sregs, hb]; rfl
  · rw [hb] at hf; exact ⟨hf.trapBase, hf.fpxEn, hf.dbgCtl, hf.gear, hf.axCount, hf.opens, hf.grp⟩
  · intro k hks
    have h1 := (adv_sl_tally e k).1
    simp only [tally, Prod.mk.injEq] at h1
    rw [hta, hk, if_pos (by rw [isSome_slices (adv_slices_length e)]; exact hks)]
    simp only [tally, h1]
  · refine advanced_of (F := fun k x => { (if e.mask.getLsbD k then { x with pc := x.pc + 4 } else x) with
        fpx := fpxOr x.fpx (sliceConds k e.active c) }) h hadv (fun k => ?_) fun k x => ?_
    · rw [hb]
      show ((e.g.slices.mapIdx fun k (x : Slice) => if e.mask.getLsbD k then { x with pc := x.pc + 4 } else x).mapIdx
        fun k (x : Slice) => { x with fpx := fpxOr x.fpx (sliceConds k e.active c) })[k]? = _
      rw [List.getElem?_mapIdx, List.getElem?_mapIdx, Option.map_map]
      cases e.g.slices[k]? with
      | none => rfl
      | some x => simp only [Option.map_some, Function.comp]; split <;> rfl
    · dsimp only
      split <;> exact ⟨rfl, rfl, rfl, rfl, rfl, rfl, rfl⟩

/-! ## Uniform registers -/

/-- An instruction of the uniform shape. -/
theorem uni_spec {s : State} {e : Iss} {j : Iss → Judge} {b : Iss → Eff} {d : Byte} {v : Nat → Nat}
    (h : issOf s = some e) (hj : j e = .go) (hroom : RoomForTraps e) (hb : b e = uniBody e d v) :
    ∃ t, issue s j b = .next t ∧ UniResult s t e d v := by
  have hes := (issOf_some h).1
  have hsl : ∀ k, (b e).g.sl k = e.adv.sl k := by
    rw [hb]; unfold uniBody; intro k; dsimp only; split <;> rfl
  have hst : (b e).st = e.s := by rw [hb]; unfold uniBody; dsimp only; split <;> rfl
  obtain ⟨t, g, ht, hr, ho, hf, hta, hadv⟩ := issue_retires (b := b) h hj hroom
    (by rw [hst, hes]) (fun k => by rw [hsl]; exact (adv_sl_tally e k).2.2)
    (by rw [hb]; unfold uniBody; dsimp only; split <;> exact adv_slices_length e)
    (fun k => by rw [hsl]; exact (adv_sl_tally e k).2.1)
    (by rw [hb]; unfold uniBody; dsimp only; split <;> rfl)
  have hfile : SameFile e.adv (b e).g ∨ ∃ l r, e.active = l :: r ∧
      (b e).g = { e.adv with sregs := smSet e.adv.sregs d.toNat (BitVec.ofNat 32 (v (l / 4))) } := by
    rw [hb]; unfold uniBody; dsimp only
    split
    · exact .inl (.refl _)
    · rename_i l r hl
      exact .inr ⟨l, r, hl, rfl⟩
  refine ⟨t, ht, g, hr, ?_, ?_, ?_, ?_, ?_, ?_, ?_⟩
  · rw [hst, hes] at ho; exact ho
  · intro c
    rw [hf.sregs, hb]
    unfold uniBody
    dsimp only
    cases hl : e.active with
    | nil => rfl
    | cons l r =>
      show smGet (smSet e.adv.sregs _ _) c = _
      rw [smGet_smSet]
      rfl
  · rcases hfile with h1 | ⟨l, r, hl, h1⟩
    · rw [hf.regs, h1.regs]; rfl
    · rw [hf.regs, h1]; rfl
  · rcases hfile with h1 | ⟨l, r, hl, h1⟩
    · rw [hf.preds, h1.preds]; rfl
    · rw [hf.preds, h1]; rfl
  · rcases hfile with h1 | ⟨l, r, hl, h1⟩
    · have h2 : SameFile e.adv g := h1.trans hf
      exact ⟨h2.trapBase, h2.fpxEn, h2.dbgCtl, h2.gear, h2.axCount, h2.opens, h2.grp⟩
    · rw [h1] at hf; exact ⟨hf.trapBase, hf.fpxEn, hf.dbgCtl, hf.gear, hf.axCount, hf.opens, hf.grp⟩
  · intro k
    rw [hta, hsl]
    exact (adv_sl_tally e k).1
  · refine advanced_of (F := fun k x => if e.mask.getLsbD k then { x with pc := x.pc + 4 } else x) h hadv
      (fun k => ?_) fun k x => ?_
    · have : (b e).g.slices = e.adv.slices := by
        rw [hb]; unfold uniBody; dsimp only; split <;> rfl
      rw [this]
      show (e.g.slices.mapIdx fun k (x : Slice) =>
        if e.mask.getLsbD k then { x with pc := x.pc + 4 } else x)[k]? = _
      rw [List.getElem?_mapIdx]
    · split <;> exact ⟨rfl, rfl, rfl, rfl, rfl, rfl, rfl⟩

/-! ## A change of each slice -/

/-- An instruction that changes its slices by `f`, quiet and leaving a slice running. -/
theorem slice_spec {s : State} {e : Iss} {j : Iss → Judge} {b : Iss → Eff} {f : Nat → Slice → Slice}
    (h : issOf s = some e) (hj : j e = .go) (hq : Quiet e) (hst : (b e).st = s)
    (hsl : (b e).g.slices = e.g.slices.mapIdx fun k (x : Slice) => if e.mask.getLsbD k then f k x else x)
    (hfile : SameFile e.g (b e).g) (hi : (b e).g.issues = e.g.issues)
    {k : Nat} {x : Slice} (hk : k < 8) (hx : e.g.slices[k]? = some x)
    (hf : (if e.mask.getLsbD k then f k x else x).finished = false)
    (hr : (if e.mask.getLsbD k then f k x else x).regang = none)
    (hret : ∀ k ∈ e.sls, ∀ x, e.g.slices[k]? = some x → (f k x).retired = x.retired) :
    ∃ t, issue s j b = .next t ∧ SliceResult s t e f := by
  have hslk : (b e).g.sl k = if e.mask.getLsbD k then f k x else x := by
    unfold Gang.sl nth
    rw [hsl, List.getElem?_mapIdx, hx]
    rfl
  have hlen : (b e).g.slices.length = e.g.slices.length := by rw [hsl]; simp
  obtain ⟨g, h1, h2, h3, h4, h5⟩ := finish_quiet (r := b e) hq (by rw [hst]; exact issOf_gi_lt h) hk
    (by rw [hslk]; exact hf) (by rw [hslk]; exact hr)
  refine ⟨_, issue_go h hj, g, ⟨h1, by rw [h2.issues, hi], ?_, h4⟩, by rw [hst] at h3; exact h3,
    hfile.trans h2.file, ?_⟩
  · intro i hi2 his
    rw [h2.retired i (by rw [isSome_slices hlen]; exact his), if_pos (getLsbD_of_mem_sls hi2)]
    congr 1
    unfold Gang.sl nth
    rw [hsl, List.getElem?_mapIdx]
    cases hy : e.g.slices[i]? with
    | none => rfl
    | some y =>
      simp only [Option.map_some, Option.getD_some, getLsbD_of_mem_sls hi2, if_true]
      exact hret i hi2 y hy
  · intro i y hy
    rw [h5]
    show ((b e).g.slices.mapIdx fun k (x : Slice) =>
      if e.mask.getLsbD k then { x with retired := x.retired + 1 } else x)[i]? = _
    rw [List.getElem?_mapIdx, hsl, List.getElem?_mapIdx, hy]
    simp only [Option.map_some, Option.some.injEq]
    cases e.mask.getLsbD i <;> rfl

end Sys2Proof.Machine
end

