-- ==== Sys2Proof/Laws/Elems.lean ====
section
/-! SUPPORT. Laws/Elems.lean: the elements of a value, bit by bit and as integers, and the shapes of per-lane
instructions. -/

namespace Sys2Proof.Machine

/-! ## Elements -/

theorem packElems_lt (w : Nat) (l : List Nat) : packElems w l < 2 ^ (w * l.length) := by
  induction l with
  | nil => simp [packElems]
  | cons x xs ih =>
    simp only [packElems, List.length_cons, Nat.mul_succ]
    have h1 : x % 2 ^ w < 2 ^ w := Nat.mod_lt _ (by positivity)
    have h2 : 2 ^ w * (packElems w xs + 1) ≤ 2 ^ w * 2 ^ (w * xs.length) := Nat.mul_le_mul_left _ ih
    rw [Nat.mul_add] at h2
    rw [Nat.pow_add, Nat.mul_comm (2 ^ (w * xs.length))]
    omega

theorem packElems_get (w : Nat) (l : List Nat) (i : Nat) (h : i < l.length) :
    packElems w l / 2 ^ (w * i) % 2 ^ w = l[i] % 2 ^ w := by
  induction l generalizing i with
  | nil => simp at h
  | cons x xs ih =>
    have hp : 0 < 2 ^ w := by positivity
    cases i with
    | zero => simp [packElems, Nat.add_mul_mod_self_left]
    | succ i =>
      have h1 : x % 2 ^ w < 2 ^ w := Nat.mod_lt _ hp
      simp only [packElems, Nat.mul_succ, List.getElem_cons_succ]
      rw [Nat.add_comm (w * i) w, Nat.pow_add, ← Nat.div_div_eq_div_mul,
        Nat.add_mul_div_left _ _ hp, Nat.div_eq_of_lt h1, Nat.zero_add]
      exact ih i (by simpa using h)

theorem tyCount_width (t : Nat) : tyWidth t * tyCount t = fullWidth t := by
  unfold tyWidth tyCount fullWidth tyWide
  by_cases h2 : t = 2 <;> by_cases h3 : t = 3 <;> by_cases h5 : t = 5 <;> simp_all
  split
  · split
    · rfl
    · omega
  · split
    · split
      · omega
      · rfl
    · split
      · omega
      · rfl

theorem mapElems_lt (t : Nat) (f : Nat → Nat) : mapElems t f < 2 ^ fullWidth t := by
  have := packElems_lt (tyWidth t) ((List.range (tyCount t)).map f)
  rwa [List.length_map, List.length_range, tyCount_width] at this

theorem elemOf_mapElems (t : Nat) (f : Nat → Nat) (i : Nat) (h : i < tyCount t) :
    elemOf t (mapElems t f) i = f i % 2 ^ tyWidth t := by
  unfold elemOf mapElems
  rw [packElems_get _ _ _ (by simpa using h)]
  simp

theorem elemOf_lt (t v i : Nat) : elemOf t v i < 2 ^ tyWidth t := Nat.mod_lt _ (by positivity)

/-! ## Two's complement -/

theorem wrap_lt (z : Int) (n : Nat) : wrap z n < 2 ^ n := by
  unfold wrap
  have h : (0 : Int) < 2 ^ n := by positivity
  have := Int.emod_lt_of_pos z h
  have := Int.emod_nonneg z (ne_of_gt h)
  zify
  omega

theorem wrap_cast (z : Int) (n : Nat) : (wrap z n : Int) = z % 2 ^ n := by
  unfold wrap
  exact Int.toNat_of_nonneg (Int.emod_nonneg z (by positivity))

theorem wrap_of_lt (x n : Nat) (h : x < 2 ^ n) : wrap (x : Int) n = x := by
  zify
  rw [wrap_cast]
  exact Int.emod_eq_of_lt (by omega) (by exact_mod_cast h)

theorem signed_dvd (x n : Nat) : (2 ^ n : Int) ∣ signed x n - x := by
  unfold signed
  dsimp only
  have h1 : (2 ^ n : Int) ∣ ((x % 2 ^ n : Nat) : Int) - x := by
    push_cast
    exact Int.dvd_sub_self_of_emod_eq rfl
  split
  · exact h1
  · have := Int.dvd_sub h1 (dvd_refl (2 ^ n : Int))
    rwa [show ((x % 2 ^ n : Nat) : Int) - x - 2 ^ n = ((x % 2 ^ n : Nat) : Int) - 2 ^ n - x by ring] at this

theorem signed_range (x n : Nat) : -(2 ^ n : Int) ≤ 2 * signed x n ∧ 2 * signed x n < 2 ^ n := by
  unfold signed
  dsimp only
  have hp : (0 : Int) < 2 ^ n := by positivity
  have h1 : ((x % 2 ^ n : Nat) : Int) < 2 ^ n := by
    exact_mod_cast Nat.mod_lt x (by positivity)
  have h0 : (0 : Int) ≤ ((x % 2 ^ n : Nat) : Int) := by positivity
  split
  · rename_i h
    have : (2 : Int) * ((x % 2 ^ n : Nat) : Int) < 2 ^ n := by exact_mod_cast h
    omega
  · rename_i h
    have : ¬ (2 : Int) * ((x % 2 ^ n : Nat) : Int) < 2 ^ n := by exact_mod_cast h
    omega

theorem signed_unique {x n : Nat} {z : Int} (hd : (2 ^ n : Int) ∣ z - x) (h1 : -(2 ^ n : Int) ≤ 2 * z)
    (h2 : 2 * z < 2 ^ n) : signed x n = z := by
  have hs := signed_dvd x n
  obtain ⟨h3, h4⟩ := signed_range x n
  obtain ⟨k, hk⟩ := Int.dvd_sub hd hs
  have hp : (0 : Int) < 2 ^ n := by positivity
  have hk' : z - signed x n = 2 ^ n * k := by rw [← hk]; ring
  have hk0 : k = 0 := by
    by_contra hne
    rcases Int.lt_or_gt_of_ne hne with hlt | hgt
    · have : 2 ^ n * k ≤ 2 ^ n * (-1) := Int.mul_le_mul_of_nonneg_left (by omega) (le_of_lt hp)
      omega
    · have : 2 ^ n * 1 ≤ 2 ^ n * k := Int.mul_le_mul_of_nonneg_left (by omega) (le_of_lt hp)
      omega
  subst hk0
  omega

theorem tyWidth_pos (t : Nat) : 0 < tyWidth t := by
  unfold tyWidth
  repeat' split
  all_goals omega

theorem intVal_dvd (t x : Nat) : (2 ^ tyWidth t : Int) ∣ intVal t x - x := by
  unfold intVal
  split
  · exact signed_dvd _ _
  · simp

theorem two_pow_half (t : Nat) : (2 : Int) * 2 ^ (tyWidth t - 1) = 2 ^ tyWidth t := by
  have h := tyWidth_pos t
  rw [← pow_succ', Nat.sub_add_cancel h]

theorem intVal_wrap {t : Nat} {z : Int} (h1 : intLo t ≤ z) (h2 : z ≤ intHi t) :
    intVal t (wrap z (tyWidth t)) = z := by
  have hh := two_pow_half t
  unfold intLo at h1
  unfold intHi at h2
  unfold intVal
  split
  · rename_i hs
    rw [if_pos hs] at h1 h2
    apply signed_unique
    · rw [wrap_cast]; exact Int.dvd_self_sub_of_emod_eq rfl
    · omega
    · omega
  · rename_i hs
    rw [if_neg hs] at h1 h2
    rw [wrap_cast]
    exact Int.emod_eq_of_lt h1 (by omega)

theorem intLo_le_hi (t : Nat) : intLo t ≤ intHi t := by
  unfold intLo intHi
  have h1 : (1 : Int) ≤ 2 ^ tyWidth t := by
    have : (0 : Int) < 2 ^ tyWidth t := by positivity
    omega
  have h2 : (0 : Int) < 2 ^ (tyWidth t - 1) := by positivity
  split <;> omega

theorem exactly_satWrap (t : Nat) (sat : Bool) (z : Int) : Exactly t sat z (satWrap t sat z) := by
  refine ⟨wrap_lt _ _, ?_⟩
  have hr := intLo_le_hi t
  unfold satWrap
  split
  · apply intVal_wrap
    · unfold clampInt; repeat' split
      all_goals omega
    · unfold clampInt; repeat' split
      all_goals omega
  · have h1 := intVal_dvd t (wrap z (tyWidth t))
    have h2 : (2 ^ tyWidth t : Int) ∣ (wrap z (tyWidth t) : Int) - z := by
      rw [wrap_cast]; exact Int.dvd_sub_self_of_emod_eq rfl
    have := Int.dvd_add h1 h2
    rwa [sub_add_sub_cancel] at this

/-- An element of the integer shape, exactly. -/
theorem exactly_intMap (t : Nat) (sat : Bool) (f : Int → Int → Int → Int) (a b c i : Nat) (h : i < tyCount t) :
    Exactly t sat (f (intVal t (elemOf t a i)) (intVal t (elemOf t b i)) (intVal t (elemOf t c i)))
      (elemOf t (intMap t sat f a b c) i) := by
  unfold intMap
  rw [elemOf_mapElems _ _ _ h, Nat.mod_eq_of_lt (exactly_satWrap _ _ _).1]
  exact exactly_satWrap _ _ _

/-! ## Operands -/

theorem wide_room {n t : Nat} {d : Byte} (h : dstOk n t d = true) (hw : tyWide t = true) : d.toNat + 1 < 256 := by
  unfold dstOk at h
  rw [hw, if_pos rfl] at h
  unfold pairOk at h
  simp only [Bool.and_eq_true, beq_iff_eq] at h
  have := d.isLt
  omega

theorem pair_room {n : Nat} {d : Byte} (h : pairOk n d = true) : d.toNat + 1 < 256 := by
  unfold pairOk at h
  simp only [Bool.and_eq_true, beq_iff_eq] at h
  have := d.isLt
  omega

theorem Fits.room {e : Iss} {ty : Nat → Bool} {d : Byte} {ds ss ps : List Byte} (h : Fits e ty ds ss ps)
    (hd : d ∈ ds) {l : Nat} (hl : l ∈ e.active) (hw : e.wide l = true) : d.toNat + 1 < 256 :=
  wide_room ((h _ (active_slice hl)).2.1 d hd) hw

theorem Fits.room' {e : Iss} {ty : Nat → Bool} {d : Byte} {ds ss ps : List Byte} (h : Fits e ty ds ss ps)
    (hd : d ∈ ds) {l : Nat} (hl : l ∈ e.running) (hw : e.wide l = true) : d.toNat + 1 < 256 :=
  wide_room ((h _ (running_slice hl)).2.1 d hd) hw

theorem smGet_lt (g : Gang) (k : Nat) : (smGet g.regs k).toNat < 2 ^ 32 := (smGet g.regs k).isLt

theorem rd_lt (g : Gang) (l : Nat) (c : Byte) (h : l < 32) : rd g l c < 2 ^ 32 := by
  unfold rd
  repeat' split
  · exact (smGet g.regs _).isLt
  · exact (g.sl (l / 4)).im.isLt
  · omega
  · omega

theorem rd64_lt (g : Gang) (l : Nat) (c : Byte) (sx : Bool) (h : l < 32) : rd64 g l c sx < 2 ^ 64 := by
  unfold rd64
  split
  · unfold rdPair
    have h1 := (smGet g.regs (regKey l c.toNat)).isLt
    have h2 := (smGet g.regs (regKey l (c.toNat + 1))).isLt
    omega
  · split
    · split
      · exact wrap_lt _ _
      · have := (g.sl (l / 4)).im.isLt
        omega
    · split <;> omega

theorem rdT_lt (g : Gang) (t l : Nat) (c : Byte) (h : l < 32) : rdT g t l c < 2 ^ fullWidth t := by
  unfold rdT fullWidth
  split
  · exact rd64_lt _ _ _ _ h
  · exact rd_lt _ _ _ h

/-! ## Shapes -/

theorem arith3_spec {s : State} {e : Iss} {ty : Nat → Bool} {d a b : Byte}
    {f : (t : Nat) → (m : BitVec 24) → Nat → Nat → Nat → Nat} (h : issOf s = some e) (hroom : RoomForTraps e)
    (hf : Fits e ty [d] [a, b] []) : ∃ t, arith3 s ty d a b f = .next t ∧
      Result s t e e.active d e.wide (fun l => f (e.lty l) (e.lmode l) (e.val a l) (e.val b l) (e.val d l))
        noConds := by
  refine result_spec (w := e.wide) h ?_ hroom ⟨_, rfl⟩ fun l hl hw => hf.room (d := d) (by simp) hl hw
  rw [legal_go]
  intro k hk
  obtain ⟨h1, h2, h3, -⟩ := hf k hk
  simp [h1, h2 d (by simp), h3 a (by simp), h3 b (by simp)]

theorem arith2_spec {s : State} {e : Iss} {ty : Nat → Bool} {d a : Byte}
    {f : (t : Nat) → (m : BitVec 24) → Nat → Nat} (h : issOf s = some e) (hroom : RoomForTraps e)
    (hf : Fits e ty [d] [a] []) : ∃ t, arith2 s ty d a f = .next t ∧
      Result s t e e.active d e.wide (fun l => f (e.lty l) (e.lmode l) (e.val a l)) noConds := by
  refine result_spec (w := e.wide) h ?_ hroom ⟨_, rfl⟩ fun l hl hw => hf.room (d := d) (by simp) hl hw
  rw [legal_go]
  intro k hk
  obtain ⟨h1, h2, h3, -⟩ := hf k hk
  simp [h1, h2 d (by simp), h3 a (by simp)]

theorem arithB_spec {s : State} {e : Iss} {ty : Nat → Bool} {d a b : Byte}
    {f : (t : Nat) → Nat → Nat → Nat → Nat} (h : issOf s = some e) (hroom : RoomForTraps e)
    (hf : Fits e ty [d] [a] [b]) : ∃ t, arithB s ty d a b f = .next t ∧
      Result s t e e.active d e.wide (fun l => f (e.lty l) (e.val a l) (rd e.g l b) (e.val d l)) noConds := by
  refine result_spec (w := e.wide) h ?_ hroom ⟨_, rfl⟩ fun l hl hw => hf.room (d := d) (by simp) hl hw
  rw [legal_go]
  intro k hk
  obtain ⟨h1, h2, h3, h4⟩ := hf k hk
  simp [h1, h2 d (by simp), h3 a (by simp), h4 b (by simp)]

theorem countShape_spec {s : State} {e : Iss} {d a : Byte} {f : Nat → Nat → Nat} (h : issOf s = some e)
    (hroom : RoomForTraps e) (hf : Fits e setWide [] [a] [d]) : ∃ t, countShape d a s f = .next t ∧
      Result s t e e.active d (fun _ => false) (fun l => f (tyWidth (e.lty l)) (e.val a l)) noConds := by
  refine result_spec h ?_ hroom ⟨_, rfl⟩ fun l hl hw => by simp at hw
  rw [legal_go]
  intro k hk
  obtain ⟨h1, h2, h3, h4⟩ := hf k hk
  simp [h1, h3 a (by simp), h4 d (by simp)]

end Sys2Proof.Machine
end

