-- ==== Sys2Proof/Laws/Control.lean ====
section
/-! SUPPORT. Laws/Control.lean: instructions that change the slices of their cohort, and where they fault. -/

namespace Sys2Proof.Machine

theorem sls_lt {e : Iss} {k : Nat} (h : k ∈ e.sls) : k < 8 := by
  unfold Iss.sls maskSlices at h
  exact List.mem_range.1 (List.mem_filter.1 h).1

theorem sls_sorted (e : Iss) : e.sls.Pairwise (· < ·) := by
  unfold Iss.sls maskSlices
  exact List.pairwise_lt_range.filter _

theorem find_first {e : Iss} {p : Nat → Bool} {k : Nat} (h : lowestSuch e k (fun k => p k = true)) :
    e.sls.find? p = some k := by
  obtain ⟨h1, h2, h3⟩ := h
  have hs := sls_sorted e
  generalize e.sls = l at *
  induction l with
  | nil => simp at h1
  | cons x l ih =>
    rw [List.find?_cons]
    rw [List.pairwise_cons] at hs
    by_cases hx : p x = true
    · rw [hx]
      rcases List.mem_cons.1 h1 with rfl | hk
      · rfl
      · exact absurd hx (h3 x (by simp) (hs.1 k hk))
    · rw [Bool.eq_false_iff.2 hx]
      dsimp only
      rcases List.mem_cons.1 h1 with rfl | hk
      · exact absurd h2 hx
      · exact ih hk (fun j hj => h3 j (by simp [hj])) hs.2

theorem lowestSuch_congr {e : Iss} {k : Nat} {p q : Nat → Prop} (h : lowestSuch e k p) (hpq : ∀ k ∈ e.sls, p k ↔ q k) :
    lowestSuch e k q :=
  ⟨h.1, (hpq k h.1).1 h.2.1, fun j hj hjk hq => h.2.2 j hj hjk ((hpq j hj).2 hq)⟩

theorem legal_fault {s : State} {e : Iss} {ok : Nat → Bool} {j : Iss → Judge} {b : Iss → Eff} {k : Nat} (h : issOf s = some e)
    (hj : j e = legal e ok) (hb : lowestSuch e k (fun k => ok k = false)) : issue s j b = .next (raise e k .illegalOp 0) := by
  apply issue_fault h
  rw [hj]
  unfold legal
  rw [find_first (p := fun k => !ok k) (lowestSuch_congr hb fun k _ => by simp)]

theorem judge_fault {s : State} {e : Iss} {f : Nat → Option FaultCode} {j : Iss → Judge} {b : Iss → Eff} {k : Nat} {c : FaultCode} (h : issOf s = some e)
    (hj : j e = judgeSlices e f) (hb : lowestSuch e k (fun k => (f k).isSome = true)) (hc : f k = some c) : issue s j b = .next (raise e k c 0) := by
  apply issue_fault h
  rw [hj]
  unfold judgeSlices
  rw [find_first (p := fun k => (f k).isSome) hb]
  dsimp only
  rw [hc]
  rfl

theorem sl_of {g : Gang} {k : Nat} {x : Slice} (h : g.slices[k]? = some x) : g.sl k = x := by
  unfold Gang.sl nth; rw [h]; rfl

theorem mem_mask {e : Iss} {k : Nat} : k ∈ e.sls ↔ k < 8 ∧ e.mask.getLsbD k = true := by
  unfold Iss.sls maskSlices; simp

theorem fin_run {x : Slice} (h : x.run ≠ 0) : x.finished = false := by
  unfold Slice.finished
  rw [Bool.and_eq_false_iff]
  exact .inl (beq_eq_false_iff_ne.2 h)

/-- An instruction that changes its slices by `f`, where `f` is `F` on the slices of the cohort and some slice is
left running. -/
theorem slice_result {s : State} {e : Iss} {j : Iss → Judge} {f F : Nat → Slice → Slice} {b : Iss → Eff}
    (h : issOf s = some e) (hj : j e = .go) (hq : Quiet e) (hb : b e = sliceBody e f)
    (hF : ∀ k x, k ∈ e.sls → e.g.slices[k]? = some x → f k x = F k x)
    (hlive : ∃ k ∈ e.sls, ∃ x, e.g.slices[k]? = some x ∧ (F k x).finished = false)
    (hr : ∀ k ∈ e.sls, ∀ x, e.g.slices[k]? = some x → (f k x).retired = x.retired ∧ (f k x).regang = x.regang) :
    ∃ t, issue s j b = .next t ∧ SliceResult s t e F := by
  obtain ⟨k, hk, x, hx, hfin⟩ := hlive
  have hes := (issOf_some h).1
  have hm := (mem_mask.1 hk).2
  obtain ⟨t, ht, g, h1, h2, h3, h4⟩ := slice_spec (b := b) (f := f) (k := k) (x := x) h hj hq
    (by rw [hb]; exact hes) (by rw [hb]; rfl)
    (by rw [hb]; exact ⟨rfl, rfl, rfl, rfl, rfl, rfl, rfl, rfl, rfl, rfl⟩) (by rw [hb]; rfl) (sls_lt hk) hx
    (by rw [if_pos hm, hF k x hk hx]; exact hfin)
    (by rw [if_pos hm, (hr k hk x hx).2, ← sl_of hx]; exact iss_regang h hk) fun k hk x hx => (hr k hk x hx).1
  refine ⟨t, ht, g, h1, h2, h3, fun i y hy => ?_⟩
  rw [h4 i y hy]
  by_cases hmi : e.mask.getLsbD i = true
  · have h8 : i < 8 := by
      by_contra hc
      rw [BitVec.getLsbD_of_ge _ _ (by omega)] at hmi
      cases hmi
    rw [if_pos hmi, if_pos hmi, hF i y (mem_mask.2 ⟨h8, hmi⟩) hy]
  · rw [if_neg hmi, if_neg hmi]

theorem target_jTarget {pc : VAddr} {o : BitVec 24} {t : VAddr} (h : targetOf pc o t) : jTarget pc o = some t := by
  unfold targetOf at h
  unfold jTarget
  have hs : signed o.toNat 24 = o.toInt := by
    rw [BitVec.toInt_eq_toNat_cond]
    unfold signed
    dsimp only
    rw [Nat.mod_eq_of_lt o.isLt]
    rfl
  rw [hs, ← h]
  have := t.isLt
  dsimp only
  rw [if_pos ⟨by omega, by exact_mod_cast this⟩]
  simp

theorem divided_eq (x : Slice) (tk : BitVec 4) (t o : VAddr) : divided x tk t o = divide x tk t o := by
  unfold divided divide
  dsimp only
  split
  · rfl
  · split
    · rfl
    · cases x.stack with
      | nil => rfl
      | cons a r =>
        dsimp only
        by_cases h : a.kind = .joinpt ∧ a.pend = 0
        · rw [if_pos h, if_pos (by simp [h.1, h.2])]
        · rw [if_neg h, if_neg (by simpa using h)]

theorem divide_frame {x y : Slice} {tk : BitVec 4} {t o : VAddr} (h : divide x tk t o = some y) :
    y.regang = x.regang ∧ y.retired = x.retired ∧ (x.run ≠ 0 → y.run ≠ 0) ∧ y.stack.length = x.stack.length := by
  unfold divide at h
  dsimp only at h
  split at h
  · cases h; exact ⟨rfl, rfl, id, rfl⟩
  · split at h
    · cases h; exact ⟨rfl, rfl, id, rfl⟩
    · split at h
      · cases h
      · split at h
        · rename_i _ _ a r hs _
          cases h; exact ⟨rfl, rfl, fun _ => by assumption, by simp [hs]⟩
        · cases h

/-- What follows the settling of REGANG at the end of an issue. -/
def afterSettle (e : Iss) (gid : Nat) (s : State) : State :=
  let s := groupExit s gid
  let s := if e.kern.fixed then advanceTurn s e.grp.kern else s
  let s := noteIssue s (schedOf e.grp e.g) e.gi
  idle { s with ctl := perfBump s.ctl e.kern.part e.kern.ctx e.core 2 }

@[simp] theorem afterSettle_gangs (e : Iss) (gid : Nat) (s : State) :
    (afterSettle e gid s).exe.gangs = s.exe.gangs := by
  unfold afterSettle
  show (if e.kern.fixed = true then advanceTurn (groupExit s gid) e.grp.kern
    else groupExit s gid).exe.gangs = s.exe.gangs
  split
  · rw [advanceTurn_gangs, groupExit_gangs]
  · rw [groupExit_gangs]

@[simp] theorem afterSettle_cur (e : Iss) (gid : Nat) (s : State) : (afterSettle e gid s).exe.cur = none := rfl

theorem afterSettle_only (e : Iss) (gid : Nat) (s : State) : OnlyGang s (afterSettle e gid s) e.gi := by
  unfold afterSettle
  refine (groupExit_only s gid e.gi).trans (OnlyGang.trans ?_ ((noteIssue_only _ _ _).trans
    ((perfBump_only _ _ _ _ _ _).trans (idle_only _ _))))
  split
  · exact advanceTurn_only _ _ _
  · exact .refl _ _

@[simp] theorem afterSettle_faults (e : Iss) (gid : Nat) (s : State) :
    (afterSettle e gid s).ctl.faults = s.ctl.faults := by
  unfold afterSettle
  show (perfBump (noteIssue (if e.kern.fixed = true then advanceTurn (groupExit s gid) e.grp.kern
    else groupExit s gid) _ _).ctl _ _ _ _).faults = _
  rw [perfBump_faults, noteIssue_ctl]
  split
  · rw [advanceTurn_faults, groupExit_faults]
  · rw [groupExit_faults]

/-- The end of a quiet issue: the gang retired once more, settled, and the bookkeeping. -/
theorem finish_chain {e : Iss} {r : Eff} (hq : Quiet e) : ∃ ps g, g.slices = (retireGang e r.g).slices
    ∧ SameFile r.g g ∧ g.issues = r.g.issues + 1 ∧ ps.map partBody = r.st.ctl.parts.map partBody
    ∧ finish e r = afterSettle e g.grp
      (settleRegang { r.st with ctl := { r.st.ctl with parts := ps } } e.gi e.grp e.kern false g) := by
  rw [finish_eq e r (noOverflow_quiet hq r), takePending_quiet hq]
  dsimp only
  generalize hg : ({ retireGang e r.g with cohorts := divideCohort (retireGang e r.g) e.mask } : Gang) = g
  have h1 : g.slices = (retireGang e r.g).slices := by subst hg; rfl
  have h2 : SameFile r.g g := (retireGang_file e r.g).trans
    (by subst hg; exact ⟨rfl, rfl, rfl, rfl, rfl, rfl, rfl, rfl, rfl, rfl⟩)
  have h3 : g.issues = r.g.issues + 1 := by subst hg; rfl
  refine ⟨(spill r.st.ctl.parts e.kern.part g).1, (spill r.st.ctl.parts e.kern.part g).2,
    by rw [spill_slices, h1], h2.trans (spill_file _ _ _), ?_, spill_parts _ _ _, ?_⟩
  · rw [(spill_tally _ _ _).2.1.1, h3]
  · rw [hq.2]; rfl

theorem liveSlices_congr {g h : Gang} (hs : ∀ k, (g.sl k).finished = (h.sl k).finished) :
    liveSlices g = liveSlices h := by
  unfold liveSlices
  exact List.filter_congr fun k _ => by rw [hs]

theorem allRegang_none {g : Gang} (h : ∀ k < 8, (g.sl k).regang = none) : allRegang g = false := by
  unfold allRegang
  cases hl : liveSlices g with
  | nil => rfl
  | cons k l =>
    have hk : k < 8 := by
      have : k ∈ liveSlices g := by rw [hl]; simp
      unfold liveSlices at this
      exact List.mem_range.1 (List.mem_filter.1 this).1
    simp [h k hk]

theorem unwind_regang (st : List StackEntry) (x : Slice) : (unwind x st).regang = x.regang := by
  induction st generalizing x with
  | nil => rfl
  | cons a r ih =>
    rw [unwind]
    dsimp only
    repeat' split
    all_goals first | rfl | exact ih _

theorem retireGang_slice (e : Iss) (g : Gang) (k : Nat) : (retireGang e g).slices[k]? =
    (g.slices[k]?).map fun x => if e.mask.getLsbD k then { x with retired := x.retired + 1 } else x := by
  show (g.slices.mapIdx fun k (x : Slice) =>
    if e.mask.getLsbD k then { x with retired := x.retired + 1 } else x)[k]? = _
  rw [List.getElem?_mapIdx]

end Sys2Proof.Machine
end

