-- ==== Sys2Proof/Laws/State.lean ====
section
/-! SUPPORT. Laws/State.lean: the state's updates, one lemma per field: contexts and their performance counters,
queues, kernels and operations, and what the end of an issue leaves of the contexts. -/

namespace Sys2Proof.Machine

theorem foldl_last {α β γ : Type} (src : Nat → Option α) (step : β → Nat → α → β) (p : β → γ) (u : α → γ)
    (hs : ∀ r k v, p (step r k v) = u v) (ks : List Nat) (r : β) :
    p (ks.foldl (fun r k => (src k).elim r (step r k)) r) = match (ks.filterMap src).getLast? with
      | some v => u v
      | none => p r := by
  induction ks generalizing r with
  | nil => rfl
  | cons k ks ih =>
    rw [List.foldl_cons, ih]
    cases hk : src k with
    | none => simp [hk]
    | some v =>
      rw [List.filterMap_cons_some hk, List.getLast?_cons]
      cases (ks.filterMap src).getLast? with
      | none => simp [hs]
      | some w => rfl

theorem foldl_same {α β γ : Type} (src : Nat → Option α) (step : β → Nat → α → β) (p : β → γ)
    (hs : ∀ r k v, p (step r k v) = p r) (ks : List Nat) (r : β) :
    p (ks.foldl (fun r k => (src k).elim r (step r k)) r) = p r := by
  induction ks generalizing r with
  | nil => rfl
  | cons k ks ih =>
    rw [List.foldl_cons, ih]
    cases src k with
    | none => rfl
    | some v => exact hs _ _ _

theorem facilOpen_congr {ps qs : List Partition} (h : ps.map partBody = qs.map partBody) (p f : Nat) :
    facilOpen ps p f = facilOpen qs p f := by
  have hf : ∀ l : List Partition, (findPart l p).map partBody = (l.map partBody).find? fun x => x.id == p := by
    intro l
    unfold findPart
    rw [List.find?_map]
    rfl
  have h2 : (findPart ps p).map partBody = (findPart qs p).map partBody := by rw [hf, hf, h]
  unfold facilOpen
  cases ha : findPart ps p <;> cases hb : findPart qs p <;> rw [ha, hb] at h2 <;> first | rfl | cases h2 | skip
  rename_i a b
  simp only [Option.map_some, Option.some.injEq] at h2
  have : a.policy = b.policy := by
    have := congrArg Partition.policy h2
    exact this
  dsimp only
  rw [this]

theorem perfBump_ctxs (ctl : Ctl) (part cid core ev : Nat) : (perfBump ctl part cid core ev).ctxs =
    if facilOpen ctl.parts part facProfile then modCtx ctl.ctxs part cid fun c => perfCount c core ev 1 else ctl.ctxs := by
  unfold perfBump; split <;> rfl

theorem settleRegang_ctl (s : State) (gi : Nat) (grp : Group) (k : Kernel) (st : Bool) (g : Gang) :
    (settleRegang s gi grp k st g).ctl.ctxs = s.ctl.ctxs ∧ (settleRegang s gi grp k st g).ctl.parts = s.ctl.parts := by
  obtain ⟨_, _, _, h | ⟨_, h⟩⟩ := settleRegang_cases s gi grp k st g <;> rw [h] <;> exact ⟨rfl, rfl⟩

theorem advanceTurn_ctxs (s : State) (k : Nat) : (advanceTurn s k).ctl.ctxs = s.ctl.ctxs ∧ (advanceTurn s k).ctl.parts = s.ctl.parts := by
  unfold advanceTurn; repeat' split
  all_goals first | exact ⟨rfl, rfl⟩ | (dsimp only; split <;> exact ⟨rfl, rfl⟩)

/-- A context but for the save records held, which a park that lapses gives up (R84). -/
def noSaves (c : Ctx) : Ctx := { c with saves := [] }

theorem perfCount_noSaves (c : Ctx) (core ev k : Nat) : noSaves (perfCount c core ev k) = perfCount (noSaves c) core ev k := by
  unfold perfCount
  generalize [0, 1, 2, 3] = ns
  induction ns generalizing c with
  | nil => rfl
  | cons n ns ih =>
    rw [List.foldl_cons, List.foldl_cons, ih]
    congr 1
    show noSaves (ite _ _ _) = ite ((perfGet c core n).toNat = ev) _ _
    split <;> rfl

theorem map_modIf {α : Type} (l : List α) (q : α → Bool) (f p : α → α) (hq : ∀ x, q (p x) = q x) (hf : ∀ x, p (f x) = f (p x)) :
    (modIf l q f).map p = modIf (l.map p) q f := by
  unfold modIf
  rw [List.map_map, List.map_map]
  refine List.map_congr_left fun x _ => ?_
  simp only [Function.comp_apply, hq]
  split
  · exact hf x
  · rfl

theorem lapse_noSaves (s : State) (gid : Nat) (grp : Group) : (lapse s gid grp).ctl.ctxs.map noSaves = s.ctl.ctxs.map noSaves := by
  obtain h | ⟨k, _, h⟩ := lapse_cases s gid grp <;> rw [h]
  exact map_modIf_same _ _ _ _ fun _ => rfl

theorem groupExit_noSaves (s : State) (gid : Nat) : (groupExit s gid).ctl.ctxs.map noSaves = s.ctl.ctxs.map noSaves := by
  obtain h | ⟨grp, _, h⟩ := groupExit_cases s gid <;> rw [h]
  exact lapse_noSaves s gid grp

/-- The contexts after an issue: its own events counted, and save records given up at most (R80, R84). -/
theorem finish_ctxs {e : Iss} {r : Eff} (hn : noOverflow e r) : (finish e r).ctl.ctxs.map noSaves =
    (perfBump r.st.ctl e.kern.part e.kern.ctx e.core 2).ctxs.map noSaves := by
  rw [finish_eq e r hn]
  dsimp only
  generalize ({ retireGang e (takePending e r e.sls) with cohorts := divideCohort (retireGang e (takePending e r e.sls)) e.mask } : Gang) = g
  have hp := spill_parts r.st.ctl.parts e.kern.part g
  generalize spill r.st.ctl.parts e.kern.part g = pg at hp
  rw [idle_ctl, perfBump_ctxs, perfBump_ctxs, noteIssue_ctl]
  generalize hs : settleRegang { r.st with ctl := { r.st.ctl with parts := pg.1 } } e.gi e.grp e.kern
         ((dbgCtl e.s e.g e.kern.part).getLsbD 1) pg.2 = s1
  have h1 := settleRegang_ctl { r.st with ctl := { r.st.ctl with parts := pg.1 } } e.gi e.grp e.kern
         ((dbgCtl e.s e.g e.kern.part).getLsbD 1) pg.2
  rw [hs] at h1
  have h2 : ∀ s, (if e.kern.fixed = true then advanceTurn s e.grp.kern else s).ctl.ctxs = s.ctl.ctxs ∧
      (if e.kern.fixed = true then advanceTurn s e.grp.kern else s).ctl.parts = s.ctl.parts := by
    intro s; split
    · exact advanceTurn_ctxs _ _
    · exact ⟨rfl, rfl⟩
  rw [(h2 _).1, (h2 _).2, groupExit_parts, h1.2, facilOpen_congr hp]
  have h3 := groupExit_noSaves s1 pg.2.grp
  rw [h1.1] at h3
  have h4 : ∀ cs : List Ctx, (modCtx cs e.kern.part e.kern.ctx fun c => perfCount c e.core 2 1).map noSaves =
      modCtx (cs.map noSaves) e.kern.part e.kern.ctx fun c => perfCount c e.core 2 1 := fun cs =>
    map_modIf cs _ _ _ (fun _ => rfl) fun c => perfCount_noSaves c _ _ _
  split
  · rw [h4, h4, h3]
  · exact h3

theorem find_map_same {α : Type} (l : List α) (q : α → Bool) (f : α → α) (h : ∀ x, q (f x) = q x) :
    (l.map f).find? q = (l.find? q).map f := by
  rw [List.find?_map]
  congr 1
  congr 1
  funext x
  exact h x

theorem findCtx_noSaves {cs ds : List Ctx} (h : cs.map noSaves = ds.map noSaves) (p c : Nat) :
    (findCtx cs p c).map noSaves = (findCtx ds p c).map noSaves := by
  unfold findCtx
  rw [← find_map_same cs _ noSaves fun _ => rfl, ← find_map_same ds _ noSaves fun _ => rfl, h]

theorem findCtx_modCtx {cs : List Ctx} {p c : Nat} {x : Ctx} {f : Ctx → Ctx} (h : findCtx cs p c = some x)
    (hf : ∀ y, (f y).part = y.part ∧ (f y).cid = y.cid) : findCtx (modCtx cs p c f) p c = some (f x) := by
  have hx := List.find?_some h
  unfold findCtx modCtx modIf at *
  rw [find_map_same, h]
  · simp only [Option.map_some]
    rw [if_pos hx]
  · intro y
    split
    · rw [(hf y).1, (hf y).2]
    · rfl

theorem perf_get_set (c : Ctx) (core n m : Nat) (v : Dbl) :
    perfGet (perfSet c core n v) core m = if m = n then v else perfGet c core m := by
  unfold perfGet perfSet
  dsimp only
  rw [List.find?_cons]
  by_cases h : m = n
  · subst h; simp
  · have : ((core == core) && (n == m)) = false := by simp [Ne.symm h]
    rw [this]
    simp only [h, if_false]
    rw [List.find?_filter]
    congr 2
    funext a
    rcases a with ⟨a1, a2, a3⟩
    by_cases h1 : a1 = core <;> by_cases h2 : a2 = m <;> simp [h1, h2, h]

theorem perfSet_id (c : Ctx) (core n : Nat) (v : Dbl) : (perfSet c core n v).part = c.part ∧ (perfSet c core n v).cid = c.cid := ⟨rfl, rfl⟩

theorem perfCount_id (c : Ctx) (core ev k : Nat) : (perfCount c core ev k).part = c.part ∧ (perfCount c core ev k).cid = c.cid := by
  unfold perfCount
  generalize [0, 1, 2, 3] = ks
  generalize BitVec.ofNat 64 k = one
  induction ks generalizing c with
  | nil => exact ⟨rfl, rfl⟩
  | cons n ks ih =>
    rw [List.foldl_cons]
    split
    · exact ih (perfSet c core (n + 4) (perfGet c core (n + 4) + one))
    · exact ih c

theorem perf_fold_get (core ev : Nat) (one : Dbl) (ks : List Nat) (c : Ctx) (hk : ∀ k ∈ ks, k < 4) (hn : ks.Nodup) (i : Nat) (hi : i < 8) :
    perfGet (ks.foldl (fun c n => if (perfGet c core n).toNat = ev then perfSet c core (n + 4) (perfGet c core (n + 4) + one) else c) c) core i =
      if 4 ≤ i ∧ i - 4 ∈ ks ∧ (perfGet c core (i - 4)).toNat = ev then perfGet c core i + one else perfGet c core i := by
  induction ks generalizing c with
  | nil => simp
  | cons k ks ih =>
    have hk4 : k < 4 := hk k List.mem_cons_self
    have hkn : k ∉ ks := (List.nodup_cons.1 hn).1
    rw [List.foldl_cons, ih _ (fun j hj => hk j (List.mem_cons_of_mem _ hj)) (List.nodup_cons.1 hn).2]
    by_cases he : (perfGet c core k).toNat = ev
    · rw [if_pos he, perf_get_set, perf_get_set, if_neg (by omega : ¬ i - 4 = k + 4)]
      by_cases hik : i = k + 4
      · have h4 : i - 4 = k := by omega
        rw [if_pos hik, h4, if_neg (fun h => hkn h.2.1), if_pos ⟨by omega, List.mem_cons_self, he⟩, hik]
      · rw [if_neg hik]
        by_cases h4 : 4 ≤ i
        · have : i - 4 ≠ k := by omega
          simp only [List.mem_cons, this, false_or]
        · rw [if_neg (fun h => h4 h.1), if_neg (fun h => h4 h.1)]
    · rw [if_neg he]
      by_cases h4 : i - 4 = k
      · rw [if_neg (fun h => hkn (h4 ▸ h.2.1)), if_neg (fun h => he (h4 ▸ h.2.2))]
      · simp only [List.mem_cons, h4, false_or]

theorem perfCount_get (c : Ctx) (core ev i : Nat) (hi : i < 8) : perfGet (perfCount c core ev 1) core i =
    perfGet c core i + (if 4 ≤ i ∧ (perfGet c core (i - 4)).toNat = ev then 1 else 0) := by
  refine (perf_fold_get core ev (BitVec.ofNat 64 1) [0,1,2,3] c (by decide) (by decide) i hi).trans ?_
  by_cases h4 : 4 ≤ i
  · have : i - 4 ∈ [0, 1, 2, 3] := by
      have : i - 4 = 0 ∨ i - 4 = 1 ∨ i - 4 = 2 ∨ i - 4 = 3 := by omega
      simpa using this
    by_cases h5 : (perfGet c core (i - 4)).toNat = ev
    · rw [if_pos ⟨h4, this, h5⟩, if_pos ⟨h4, h5⟩]; rfl
    · rw [if_neg (fun h => h5 h.2.2), if_neg (fun h => h5 h.2)]; simp
  · rw [if_neg (fun h => h4 h.1), if_neg (fun h => h4 h.1)]; simp

end Sys2Proof.Machine
end

