-- ==== Sys2Proof/Laws/MemIssue.lean ====
section
/-! SUPPORT. Laws/MemIssue.lean: the issue of memory operations, said once: accesses cut at cells, one operation for
each slice, and the judgements of counters and lanes. -/

namespace Sys2Proof.Machine

theorem splitCells_zero (va f off : Nat) : splitCells va f off 0 = [] := by cases f <;> rfl

theorem splitCells_succ (va f off n : Nat) (h : n ≠ 0) : splitCells va (f + 1) off n =
    (let k := 32 - (va + off) % 32
     let k := if n < k then n else k
     (va + off, off, k) :: splitCells va f (off + k) (n - k)) := by
  cases n with
  | zero => exact absurd rfl h
  | succ n => rfl

theorem splitCells_spec (va : Nat) (f off n : Nat) (hf : n = 0 ∨ n + (va + off) % 32 ≤ 32 * f) :
    (∀ p ∈ splitCells va f off n, off ≤ p.2.1 ∧ p.2.1 + p.2.2 ≤ off + n ∧ 0 < p.2.2 ∧ p.1 = va + p.2.1 ∧ (va + p.2.1) % 32 + p.2.2 ≤ 32) ∧
    (∀ i, off ≤ i → i < off + n → ∃ p ∈ splitCells va f off n, p.2.1 ≤ i ∧ i < p.2.1 + p.2.2) ∧
    ((splitCells va f off n).map fun p => p.2.2).sum = n := by
  induction f generalizing off n with
  | zero =>
    have : n = 0 := by omega
    subst this
    rw [splitCells_zero]
    exact ⟨by simp, fun i h1 h2 => by omega, rfl⟩
  | succ f ih =>
    by_cases hn : n = 0
    · subst hn; rw [splitCells_zero]; exact ⟨by simp, fun i h1 h2 => by omega, rfl⟩
    · rw [splitCells_succ _ _ _ _ hn]
      dsimp only
      generalize hk : (if n < 32 - (va + off) % 32 then n else 32 - (va + off) % 32) = k
      have hk1 : 0 < k ∧ k ≤ n ∧ (va + off) % 32 + k ≤ 32 ∧ (n - k = 0 ∨ (va + (off + k)) % 32 = 0) := by
        split at hk <;> omega
      obtain ⟨i1, i2, i3⟩ := ih (off + k) (n - k) (by omega)
      refine ⟨?_, ?_, ?_⟩
      · intro p hp
        rcases List.mem_cons.1 hp with rfl | hp
        · exact ⟨Nat.le_refl _, by dsimp only; omega, hk1.1, rfl, hk1.2.2.1⟩
        · obtain ⟨h1, h2, h3, h4, h5⟩ := i1 p hp
          exact ⟨by omega, by omega, h3, h4, h5⟩
      · intro i h1 h2
        by_cases hi : i < off + k
        · exact ⟨_, List.mem_cons_self, h1, hi⟩
        · obtain ⟨p, hp, h3⟩ := i2 i (by omega) (by omega)
          exact ⟨p, List.mem_cons_of_mem _ hp, h3⟩
      · simp only [List.map_cons, List.sum_cons, i3]; omega

/-- The parts of a lane, from the pieces of its access. -/
theorem laneParts_fold {s : State} {die : Nat} {c : Ctx} {l need : Nat} {data : List Byte} {L : List (Nat × Nat × Nat)} {ps : List (MemPart × Nat)}
    (h : (L.foldr (fun p acc => match xlate s die c p.1 need with
    | .error f => .error f
    | .ok x =>
      match acc with
      | .error f => .error f
      | .ok ps =>
        .ok (({ lane := l, va := BitVec.ofNat 64 p.1, pa := x.pa, len := p.2.2, off := p.2.1, leaf := x.leaf, wdata := (data.drop p.2.1).take p.2.2 }, x.leaf) :: ps)) (.ok []) : Except FaultCode (List (MemPart × Nat))) = .ok ps) :
    List.Forall₂ (fun p q => ∃ x, xlate s die c p.1 need = .ok x ∧ q = (({ lane := l, va := BitVec.ofNat 64 p.1, pa := x.pa, len := p.2.2, off := p.2.1, leaf := x.leaf, wdata := (data.drop p.2.1).take p.2.2 } : MemPart), x.leaf)) L ps := by
  induction L generalizing ps with
  | nil => cases h; exact .nil
  | cons p L ih =>
    rw [List.foldr_cons] at h
    split at h
    · cases h
    · rename_i x hx
      split at h
      · cases h
      · rename_i qs hq
        cases h
        exact .cons ⟨x, hx, rfl⟩ (ih hq)

theorem clsAdd_frame (x : Slice) (q : Cls) : (clsAdd x q).run = x.run ∧ (clsAdd x q).exited = x.exited ∧ (clsAdd x q).stack = x.stack ∧
    (clsAdd x q).mode = x.mode ∧ (clsAdd x q).im = x.im ∧ (clsAdd x q).regang = x.regang ∧ (clsAdd x q).pc = x.pc ∧ (clsAdd x q).retired = x.retired := by
  cases q <;> exact ⟨rfl, rfl, rfl, rfl, rfl, rfl, rfl, rfl⟩

/-- The slice after its program counter and its counter have moved. -/
def stepCls (e : Iss) (cl : Nat → Cls) (k : Nat) (x : Slice) : Slice :=
  if e.mask.getLsbD k then clsAdd { x with pc := x.pc + 4 } (cl k) else x

theorem opsBody_slices (e : Iss) (cl : Nat → Cls) (mem : Mem) (mk : Nat → Nat → Nat → MemOp) (k : Nat) :
    (opsBody e cl mem mk).g.slices[k]? = (e.g.slices[k]?).map (stepCls e cl k) := by
  show ((e.g.slices.mapIdx fun k (x : Slice) => if e.mask.getLsbD k then { x with pc := x.pc + 4 } else x).mapIdx fun k (x : Slice) =>
      if e.mask.getLsbD k then clsAdd x (cl k) else x)[k]? = _
  rw [List.getElem?_mapIdx, List.getElem?_mapIdx, Option.map_map]
  congr 1
  funext x
  unfold stepCls
  simp only [Function.comp]
  split <;> rfl

theorem stepCls_tally (e : Iss) (cl : Nat → Cls) (k : Nat) (x : Slice) : tally (stepCls e cl k x) = tally (if e.mask.getLsbD k then clsAdd x (cl k) else x) := by
  unfold stepCls
  split
  · cases cl k <;> rfl
  · rfl

/-- An instruction whose gang is that of an issue of operations, and that changes only memory. -/
theorem ops_spec {s : State} {e : Iss} {j : Iss → Judge} {b : Iss → Eff} (h : issOf s = some e) (hj : j e = .go) (hroom : RoomForTraps e)
    {cl : Nat → Cls} {mem : Mem} {mk : Nat → Nat → Nat → MemOp} (hg : (b e).g = (opsBody e cl mem mk).g)
    (hst : OnlyGang { s with mem := (b e).st.mem } (b e).st e.gi) (hgs : (b e).st.exe.gangs = s.exe.gangs) :
    ∃ t g, issue s j b = .next t ∧ Retired t e g ∧ SameFile e.g g ∧ OnlyGang { s with mem := t.mem } t e.gi ∧ Advanced e g ∧
      (∀ k x, e.g.slices[k]? = some x → tally (g.sl k) = tally (if e.mask.getLsbD k then clsAdd x (cl k) else x)) ∧ t.mem = (b e).st.mem := by
  have hsl : ∀ k, (b e).g.slices[k]? = (e.g.slices[k]?).map (stepCls e cl k) := by rw [hg]; exact opsBody_slices e cl mem mk
  have hfr : ∀ k, ((b e).g.sl k).stack = (e.g.sl k).stack ∧ ((b e).g.sl k).retired = (e.g.sl k).retired := by
    intro k
    have : (b e).g.sl k = ((e.g.slices[k]?).map (stepCls e cl k)).getD { pc := 0 } := by rw [← hsl]; rfl
    rw [this]
    show _ = ((e.g.slices[k]?).getD { pc := 0 }).stack ∧ _ = ((e.g.slices[k]?).getD { pc := 0 }).retired
    cases e.g.slices[k]? with
    | none => exact ⟨rfl, rfl⟩
    | some x =>
      dsimp only [Option.map_some, Option.getD_some]
      unfold stepCls
      split
      · exact ⟨(clsAdd_frame _ _).2.2.1, (clsAdd_frame _ _).2.2.2.2.2.2.2⟩
      · exact ⟨rfl, rfl⟩
  obtain ⟨t, g, h1, h2, h3, h4, h5, h6⟩ := issue_retires (j := j) (b := b) h hj hroom hgs (fun k => (hfr k).1) (by rw [hg]; simp [opsBody, Iss.adv])
    (fun k => (hfr k).2) (by rw [hg]; rfl)
  have hm : t.mem = (b e).st.mem := h3.mem
  refine ⟨t, g, h1, h2, ?_, ?_, ?_, ?_, hm⟩
  · have : SameFile e.g (b e).g := by rw [hg]; exact ⟨rfl, rfl, rfl, rfl, rfl, rfl, rfl, rfl, rfl, rfl⟩
    exact this.trans h4
  · rw [hm]; exact hst.trans h3
  · exact advanced_of (F := stepCls e cl) h h6 hsl fun k x => by
      unfold stepCls
      split
      · obtain ⟨a1, a2, a3, a4, a5, a6, a7, a8⟩ := clsAdd_frame { x with pc := x.pc + 4 } (cl k)
        exact ⟨a1, a2, a3, a4, a5, a6, a7⟩
      · exact ⟨rfl, rfl, rfl, rfl, rfl, rfl, rfl⟩
  · intro k x hx
    rw [h5, ← stepCls_tally]
    have := hsl k
    rw [hx] at this
    rw [sl_of this]

theorem clsRoom_go {e : Iss} {c : Nat → Cls} : clsRoom e c = .go ↔ ∀ k ∈ e.sls, clsCount (e.g.sl k) (c k) < 63 := by
  unfold clsRoom
  split
  · rename_i h
    simp only [true_iff]
    simpa using h
  · rename_i h
    simp only [reduceCtorEq, false_iff]
    simpa using h

theorem clsRoom_stall {e : Iss} {c : Nat → Cls} (h : ∃ k ∈ e.sls, 63 ≤ clsCount (e.g.sl k) (c k)) : clsRoom e c = .stall := by
  unfold clsRoom
  rw [if_neg]
  obtain ⟨k, hk, h2⟩ := h
  intro hc
  have := List.all_eq_true.1 hc k hk
  simp at this
  omega

theorem judgeLanes_go {ls : List Nat} {ea : Nat → Nat} {f : Nat → Option FaultCode} :
    judgeLanes ls ea f = .go ↔ ∀ l ∈ ls, f l = none := by
  unfold judgeLanes
  split
  · rename_i l hl
    have := List.find?_some hl
    have hm := List.mem_of_find?_eq_some hl
    simp only [reduceCtorEq, false_iff, not_forall]
    exact ⟨l, hm, by intro h0; simp [h0] at this⟩
  · rename_i hl
    simpa using List.find?_eq_none.1 hl

theorem sorted_find {ls : List Nat} {p : Nat → Bool} {l : Nat} (hs : ls.Pairwise (· < ·)) (hl : l ∈ ls) (hp : p l = true)
    (hn : ∀ j ∈ ls, j < l → p j = false) : ls.find? p = some l := by
  induction ls with
  | nil => cases hl
  | cons a t ih =>
    rw [List.find?_cons]
    rcases List.mem_cons.1 hl with rfl | h
    · rw [hp]
    · have hal : a < l := (List.pairwise_cons.1 hs).1 l h
      rw [hn a (by simp) hal]
      exact ih (List.pairwise_cons.1 hs).2 h fun j hj => hn j (by simp [hj])

theorem active_sorted (e : Iss) : e.active.Pairwise (· < ·) := by
  unfold Iss.active maskLanes
  exact (List.pairwise_lt_range.filter _).filter _

theorem judgeLanes_first {e : Iss} {ea : Nat → Nat} {f : Nat → Option FaultCode} {l : Nat} {c : FaultCode} (h : firstFailing e f l c) :
    judgeLanes e.active ea f = .fault (l / 4) c (BitVec.ofNat 64 (ea l)) := by
  unfold judgeLanes
  rw [sorted_find (active_sorted e) h.1 (by rw [h.2.1]; rfl) fun j hj hjl => by rw [h.2.2 j hj hjl]; rfl]
  dsimp only
  rw [h.2.1]
  rfl

theorem excFault_none {α : Type} {x : Except FaultCode α} : excFault x = none ↔ ∃ y, x = .ok y := by
  cases x <;> simp [excFault]

theorem laneParts_plain {s : State} {die : Nat} {c : Ctx} {l ea n need : Nat} {data : List Byte} {ps : List (MemPart × Nat)}
    (h : laneParts s die c l ea n need data = .ok ps) : ∀ p ∈ ps, p.1.lane = l ∧ p.1.got = none :=
  ((List.forall₂_and_left (R := fun _ _ => True) _ _).1 ((laneParts_fold h).flip.imp fun _ _ ⟨_, _, e⟩ => ⟨by rw [e]; exact ⟨rfl, rfl⟩, trivial⟩)).1

theorem partsOf_all {ls : List Nat} {f : Nat → Except FaultCode (List (MemPart × Nat))}
    (h : ∀ l ∈ ls, ∀ p ∈ excGet [] (f l), p.1.lane = l) (k : Nat) :
    partsOf (allParts ls f) k = (ls.filter fun l => l / 4 == k).flatMap fun l => (excGet [] (f l)).map Prod.fst := by
  unfold partsOf allParts
  induction ls with
  | nil => rfl
  | cons a t ih =>
    rw [List.flatMap_cons, List.filter_append, List.map_append, ih fun l hl => h l (by simp [hl])]
    have : (excGet [] (f a)).filter (fun p => p.1.lane / 4 == k) = if a / 4 == k then excGet [] (f a) else [] := by
      have ha := h a (by simp)
      split
      · rename_i hk
        rw [List.filter_eq_self]
        intro p hp; rw [ha p hp]; exact hk
      · rename_i hk
        rw [List.filter_eq_nil_iff]
        intro p hp; rw [ha p hp]; exact hk
    rw [this]
    by_cases hk : (a / 4 == k) = true
    · rw [if_pos hk, List.filter_cons_of_pos (p := fun l => l / 4 == k) hk, List.flatMap_cons]
    · rw [if_neg hk, List.filter_cons_of_neg (p := fun l => l / 4 == k) hk]; rfl

/-- The operations of an issue, one for each slice in order. -/
theorem opsOf_zip {s : State} {e : Iss} {kind : Nat → OpKind} {cl : Nat → Cls} {base : Nat} {mk : Nat → Nat → Nat → MemOp} (hb : base = s.exe.nextId)
    (h : ∀ id iss k, (mk id iss k).slice = k ∧ (mk id iss k).id = id ∧ (mk id iss k).gang = e.gi ∧ (mk id iss k).core = e.core ∧
      (mk id iss k).part = e.kern.part ∧ (mk id iss k).ctx = e.kern.ctx ∧ (mk id iss k).pc = e.pc ∧ (mk id iss k).kind = kind k ∧
      (mk id iss k).cls = cl k ∧ (mk id iss k).scope = mScope (e.mode k) ∧ (mk id iss k).killed = false) :
    OpsOf s e kind cl (e.sls.zipIdx.map fun p => mk (base + p.2) base p.1) := by
  refine ⟨?_, fun i hi => ?_⟩
  · rw [List.map_map]
    have : (MemOp.slice ∘ fun p => mk (base + p.2) base p.1) = Prod.fst := by
      funext p; exact (h _ _ _).1
    rw [this, List.zipIdx_map_fst]
  · simp only [List.getElem_map, List.getElem_zipIdx]
    obtain ⟨h1, h2, h3, h4, h5, h6, h7, h8, h9, h10, h11⟩ := h (base + (0 + i)) base (e.sls[i]'(by simpa using hi))
    subst hb
    exact ⟨by rw [h2]; omega, h3, h4, h5, h6, h7, by rw [h8, h1], by rw [h9, h1], by rw [h10, h1], h11⟩

theorem mem_zipOps {e : Iss} {base : Nat} {mk : Nat → Nat → Nat → MemOp} {o : MemOp} (h : o ∈ e.sls.zipIdx.map fun p => mk (base + p.2) base p.1) :
    ∃ id k, k ∈ e.sls ∧ o = mk id base k := by
  obtain ⟨p, hp, rfl⟩ := List.mem_map.1 h
  exact ⟨_, _, (List.mem_zipIdx' hp).2 ▸ List.getElem_mem _, rfl⟩

/-! ## What an issue may change of memory beside its operations -/

/-- Memory at its homes stands as it was, so that every byte reads as before: only what a core, a TLB or a walker holds may
differ, and copies of a peer's frames. -/
structure AtCore (m m' : Mem) : Prop where
  ops : m'.ops = m.ops
  home : SameHome m m'
  dirty : ∀ off < 2 ^ 52, dirtyByte m'.l2 off = dirtyByte m.l2 off

theorem SameHome.refl (m : Mem) : SameHome m m := ⟨rfl, rfl, rfl, rfl, rfl, rfl, rfl, rfl, rfl⟩

theorem SameHome.trans {a b c : Mem} (h : SameHome a b) (k : SameHome b c) : SameHome a c :=
  ⟨k.1.trans h.1, k.2.trans h.2, k.3.trans h.3, k.4.trans h.4, k.5.trans h.5, k.6.trans h.6, k.7.trans h.7, k.8.trans h.8,
    k.9.trans h.9⟩

theorem AtCore.refl (m : Mem) : AtCore m m := ⟨rfl, .refl m, fun _ _ => rfl⟩

theorem AtCore.trans {a b c : Mem} (h : AtCore a b) (k : AtCore b c) : AtCore a c :=
  ⟨k.ops.trans h.ops, h.home.trans k.home, fun off ho => (k.dirty off ho).trans (h.dirty off ho)⟩

theorem AtCore.foldl {α : Type} {f : Mem → α → Mem} (hf : ∀ m x, AtCore m (f m x)) (L : List α) (m : Mem) : AtCore m (L.foldl f m) :=
  List.foldlRecOn L f (.refl m) fun n h x _ => h.trans (hf n x)

/-- Every byte reads as before. -/
theorem AtCore.byte {m m' : Mem} (h : AtCore m m') {a : Nat} (ha : a < devTop) : coByte m' a = coByte m a := by
  have hk : ∀ off, memByte m' off = memByte m off := fun off => by unfold memByte keyByte; rw [h.home.bytes, h.home.keys]
  unfold coByte homeWritten flightByte
  rw [h.home.txns, h.home.notices, h.dirty a (by unfold devTop at ha; omega), hk]

theorem predLearn_frame (m : Mem) (b : L1Block) : ∃ p, predLearn m b = { m with predict := p } := by
  unfold predLearn
  split
  · exact ⟨m.predict, rfl⟩
  · exact ⟨_, rfl⟩

/-- A memory whose L1s and predictor have changed. -/
theorem AtCore.l1 (m : Mem) (l1 : List L1Block) (q : SMap 8) : AtCore m { m with l1 := l1, predict := q } :=
  ⟨rfl, ⟨rfl, rfl, rfl, rfl, rfl, rfl, rfl, rfl, rfl⟩, fun _ _ => rfl⟩

theorem predLearn_core (m : Mem) (b : L1Block) : AtCore m (predLearn m b) := by
  obtain ⟨q, h⟩ := predLearn_frame m b
  rw [h]
  exact .l1 m m.l1 q

theorem l1Trim_core (core set keep f : Nat) (m : Mem) : AtCore m (l1Trim core set keep f m) := by
  induction f generalizing m with
  | zero => exact .refl m
  | succ f ih =>
    unfold l1Trim
    dsimp only
    split
    · exact .refl m
    · split
      · exact .refl m
      · exact ((AtCore.l1 m _ m.predict).trans (predLearn_core _ _)).trans (ih _)

theorem l1DropCells_core (m : Mem) (core frame : Nat) (cs : List Nat) : AtCore m (l1DropCells m core frame cs) := by
  unfold l1DropCells
  split
  · exact ((AtCore.l1 m _ m.predict).trans (.foldl predLearn_core _ _)).trans (l1Trim_core _ _ _ _ _)
  · exact .refl m

theorem l1Touch_core (m : Mem) (core frame i : Nat) : AtCore m (l1Touch m core frame i) := .l1 m _ m.predict

theorem l1Update_core (m : Mem) (core frame i off : Nat) (bs : List Byte) : AtCore m (l1Update m core frame i off bs) :=
  .l1 m _ m.predict

theorem touchParts_core (m : Mem) (core : Nat) (ps : List MemPart) : AtCore m (touchParts m core ps) :=
  .foldl (fun m p => by split; exacts [l1Touch_core _ _ _ _, .refl m]) ps m

theorem dropParts_core (m : Mem) (core : Nat) (ps : List MemPart) : AtCore m (dropParts m core ps) :=
  .foldl (fun _ _ => l1DropCells_core _ _ _ _) ps m

/-- The blocks of one frame of a local slice replaced: no other frame's modified bytes change. -/
theorem dirtyByte_drop {l2 new : List L2Block} {die frame off : Nat} (hn : ∀ b ∈ new, b.frame = frame) (h : frameOf off ≠ frame) :
    dirtyByte (new ++ l2.filter fun b => !b.isOf die frame) off = dirtyByte l2 off := by
  unfold dirtyByte
  have : ∀ (p : L2Block → Bool), (∀ b, p b = true → b.frame = frameOf off) →
      (new ++ l2.filter fun b => !b.isOf die frame).find? p = l2.find? p := by
    intro p hp
    rw [List.find?_append, List.find?_eq_none.2 fun b hb hpb => h ((hp b hpb).symm.trans (hn b hb)), Option.none_or, List.find?_filter]
    congr 1
    funext b
    cases hpb : p b with
    | false => simp
    | true =>
      have h2 := hp b hpb
      unfold L2Block.isOf
      have : (b.frame == frame) = false := by rw [h2]; simpa using h
      rw [this]; simp
  rw [this]
  intro b hb
  simp only [Bool.and_eq_true, beq_iff_eq] at hb
  exact hb.1.1

theorem l2Rebuild_frame {old : List L2Block} {die frame : Nat} {g : L2Tag} {st : Bool} {new : List Nat}
    {f : Nat → Option (L2Cell × Option Nat)} : ∀ b ∈ l2Rebuild old die frame g st new f, b.frame = frame := by
  intro b hb
  unfold l2Rebuild at hb
  obtain ⟨t, -, hb⟩ := List.mem_flatMap.1 hb
  obtain ⟨r, -, rfl⟩ := List.mem_map.1 hb
  rfl

theorem l2Remove_frame (m : Mem) (die frame : Nat) (cs : List Nat) : ∃ l2, l2Remove m die frame cs = { m with l2 := l2 } ∧
    ∀ off, frameOf off ≠ frame → dirtyByte l2 off = dirtyByte m.l2 off := by
  unfold l2Remove
  dsimp only
  split
  · exact ⟨m.l2, rfl, fun _ _ => rfl⟩
  · exact ⟨_, rfl, fun off h => dirtyByte_drop l2Rebuild_frame h⟩

theorem l2Remove_peer (m : Mem) (die pa : Nat) (cs : List Nat) : AtCore m (l2Remove m die (peerFrame pa) cs) := by
  obtain ⟨l2, h1, h2⟩ := l2Remove_frame m die (peerFrame pa) cs
  rw [h1]
  exact ⟨rfl, ⟨rfl, rfl, rfl, rfl, rfl, rfl, rfl, rfl, rfl⟩, fun off ho => h2 off (by unfold frameOf peerFrame; omega)⟩

theorem storePartL1_core (own core : Nat) (m : Mem) (p : MemPart) : AtCore m (storePartL1 own core m p) := by
  unfold storePartL1
  split
  · exact l1Update_core _ _ _ _ _ _
  · exact (l1DropCells_core _ _ _ _).trans (l2Remove_peer _ _ _ _)

theorem storeL1_core (s : State) (core : Nat) (ps : List MemPart) : AtCore s.mem (storeL1 s core ps) :=
  .foldl (storePartL1_core _ _) ps _

theorem noteXlate_core (m : Mem) (core part cid va : Nat) : AtCore m (noteXlate m core part cid va) := by
  unfold noteXlate
  repeat' split
  all_goals exact ⟨rfl, ⟨rfl, rfl, rfl, rfl, rfl, rfl, rfl, rfl, rfl⟩, fun _ _ => rfl⟩

theorem noteParts_core (m : Mem) (o : MemOp) : AtCore m (noteParts m o) := by
  unfold noteParts
  split
  · exact .foldl (fun _ _ => noteXlate_core _ _ _ _ _) _ _
  · exact .refl m

/-- Operations added behind a memory that only a core's side has changed. -/
theorem AtCore.addOps {m m' : Mem} (h : AtCore m m') (ops : List MemOp) : AtCore { m with ops := m.ops ++ ops } { m' with ops := m'.ops ++ ops } :=
  ⟨by rw [h.ops], ⟨h.home.1, h.home.2, h.home.3, h.home.4, h.home.5, h.home.6, h.home.7, h.home.8, h.home.9⟩, h.dirty⟩

theorem countRequests_only (e : Iss) (ps : List MemPart) (s : State) (gi : Nat) :
    OnlyGang s { s with ctl := countRequests e ps s.ctl } gi := by
  unfold countRequests
  exact List.foldlRecOn (motive := fun c => OnlyGang s { s with ctl := c } gi) _ _ (.refl s gi) fun c h _ _ =>
    h.trans (perfBump_only { s with ctl := c } gi _ _ _ _)

theorem captureL1_plain (s : State) (ops : List MemOp) (o : MemOp) (p : MemPart) : { captureL1 s ops o p with got := none } = { p with got := none } := by
  unfold captureL1
  repeat' split
  all_goals rfl

theorem opsBody_mem (e : Iss) (cl : Nat → Cls) (mem : Mem) (mk : Nat → Nat → Nat → MemOp) :
    AtCore { mem with ops := mem.ops ++ e.sls.zipIdx.map fun p => mk (e.s.exe.nextId + p.2) e.s.exe.nextId p.1 } (opsBody e cl mem mk).st.mem :=
  .foldl noteParts_core _ _

/-- The next state of an issue of operations, from what `ops_spec` gives. -/
theorem issued_of {s t : State} {e : Iss} {g : Gang} {cl : Nat → Cls} {ops : List MemOp} (h2 : Retired t e g) (h3 : SameFile e.g g)
    (h4 : OnlyGang { s with mem := t.mem } t e.gi) (h5 : Advanced e g)
    (h6 : ∀ k x, e.g.slices[k]? = some x → tally (g.sl k) = tally (if e.mask.getLsbD k then clsAdd x (cl k) else x))
    (hm : AtCore { s.mem with ops := s.mem.ops ++ ops } t.mem) : Issued s t e cl ops :=
  ⟨g, h2, h3, h4, h5, h6, hm.ops, ⟨hm.home.1, hm.home.2, hm.home.3, hm.home.4, hm.home.5, hm.home.6, hm.home.7, hm.home.8, hm.home.9⟩,
    fun _ ha => hm.byte ha⟩

/-- An instruction that issues one operation for each slice, judged already. -/
theorem ops_ex {s : State} {e : Iss} {j : Iss → Judge} {b : Iss → Eff} {cl : Nat → Cls}
    {mem : Mem} {mk : Nat → Nat → Nat → MemOp} {kind : Nat → OpKind} {Q : MemOp → Prop} (h : issOf s = some e) (hroom : RoomForTraps e)
    (hb : b e = opsBody e cl mem mk) (hj : j e = .go) (hm : AtCore s.mem mem)
    (hk : ∀ id iss k, (mk id iss k).slice = k ∧ (mk id iss k).id = id ∧ (mk id iss k).gang = e.gi ∧ (mk id iss k).core = e.core ∧
      (mk id iss k).part = e.kern.part ∧ (mk id iss k).ctx = e.kern.ctx ∧ (mk id iss k).pc = e.pc ∧ (mk id iss k).kind = kind k ∧
      (mk id iss k).cls = cl k ∧ (mk id iss k).scope = mScope (e.mode k) ∧ (mk id iss k).killed = false)
    (hQ : ∀ id k, k ∈ e.sls → Q (mk id s.exe.nextId k)) :
    ∃ t ops, issue s j b = .next t ∧ Issued s t e cl ops ∧ OpsOf s e kind cl ops ∧ ∀ o ∈ ops, Q o := by
  have hes := (issOf_some h).1
  obtain ⟨t, g, h1, h2, h3, h4, h5, h6, h7⟩ := ops_spec (j := j) (b := b) (cl := cl) (mem := mem) (mk := mk) h hj hroom (by rw [hb])
    (by rw [hb, ← hes]; exact ⟨rfl, rfl, fun _ _ => rfl, rfl, rfl, rfl, rfl, rfl, rfl, rfl, rfl⟩) (by rw [hb, ← hes]; rfl)
  refine ⟨t, e.sls.zipIdx.map fun p => mk (s.exe.nextId + p.2) s.exe.nextId p.1, h1, issued_of h2 h3 h4 h5 h6 ?_, opsOf_zip rfl hk, fun o ho => ?_⟩
  · rw [h7, hb]
    have := opsBody_mem e cl mem mk
    rw [hes] at this
    exact (hm.addOps _).trans this
  · obtain ⟨id, q, hq, rfl⟩ := mem_zipOps ho
    exact hQ id q hq

/-- An instruction that issues one operation for each slice and is judged lane by lane. -/
theorem laneOps_ex {s : State} {e : Iss} {j : Iss → Judge} {b : Iss → Eff} {ok : Nat → Bool} {cl : Nat → Cls} {ea : Nat → Nat} {f : Nat → Option FaultCode}
    {mem : Mem} {mk : Nat → Nat → Nat → MemOp} {kind : Nat → OpKind} {Q : MemOp → Prop} (h : issOf s = some e) (hroom : RoomForTraps e)
    (hj : j e = (legal e ok).and ((clsRoom e cl).and (judgeLanes e.active ea f)))
    (hb : b e = opsBody e cl mem mk)
    (hok : ∀ k ∈ e.sls, ok k = true) (hc : ∀ k ∈ e.sls, clsCount (e.g.sl k) (cl k) < 63) (hf : ∀ l ∈ e.active, f l = none)
    (hm : AtCore s.mem mem)
    (hk : ∀ id iss k, (mk id iss k).slice = k ∧ (mk id iss k).id = id ∧ (mk id iss k).gang = e.gi ∧ (mk id iss k).core = e.core ∧
      (mk id iss k).part = e.kern.part ∧ (mk id iss k).ctx = e.kern.ctx ∧ (mk id iss k).pc = e.pc ∧ (mk id iss k).kind = kind k ∧
      (mk id iss k).cls = cl k ∧ (mk id iss k).scope = mScope (e.mode k) ∧ (mk id iss k).killed = false)
    (hQ : ∀ id k, k ∈ e.sls → Q (mk id s.exe.nextId k)) :
    ∃ t ops, issue s j b = .next t ∧ Issued s t e cl ops ∧ OpsOf s e kind cl ops ∧ ∀ o ∈ ops, Q o :=
  ops_ex h hroom hb (by rw [hj, Judge.and_go, Judge.and_go, legal_go]; exact ⟨hok, clsRoom_go.2 hc, judgeLanes_go.2 hf⟩) hm hk hQ

theorem laneOps_fault {s : State} {e : Iss} {j : Iss → Judge} {b : Iss → Eff} {ok : Nat → Bool} {cl : Nat → Cls} {ea : Nat → Nat} {f : Nat → Option FaultCode}
    {l : Nat} {c : FaultCode} (h : issOf s = some e) 
    (hj : j e = (legal e ok).and ((clsRoom e cl).and (judgeLanes e.active ea f)))
    (hok : ∀ k ∈ e.sls, ok k = true) (hc : ∀ k ∈ e.sls, clsCount (e.g.sl k) (cl k) < 63) (hf : firstFailing e f l c) :
    issue s j b = .next (raise e (l / 4) c (BitVec.ofNat 64 (ea l))) := by
  apply issue_fault h
  rw [hj, legal_go.2 hok]
  show Judge.and _ _ = _
  rw [clsRoom_go.2 hc]
  exact judgeLanes_first hf

theorem lmFault_none {n o k : Nat} : lmFault n o k = none ↔ lmOk n o k = true := by
  unfold lmFault; split <;> simp_all

theorem lmFault_some {n o k : Nat} {c : FaultCode} (h : lmFault n o k = some c) : c = .lmRange := by
  unfold lmFault at h; split at h <;> cases h; rfl

theorem Judge.and_go_right (x : Judge) : x.and .go = x := by cases x <;> rfl

theorem rmwPart_lane {s : State} {die : Nat} {c : Ctx} {l ea n : Nat} {op : AtOp} {opd cmp : Nat} : ∀ p ∈ excGet [] (rmwPart s die c l ea n op opd cmp), p.1.lane = l := by
  intro p hp
  unfold rmwPart at hp
  repeat' split at hp
  all_goals first | (cases hp; done) | skip
  simp only [excGet, List.mem_singleton] at hp
  rw [hp]

theorem rmwPart_ok {s : State} {die : Nat} {c : Ctx} {l ea n : Nat} {op : AtOp} {opd cmp : Nat} {x : Xl} (h : ea % n = 0) (hx : xlate s die c ea needRW = .ok x)
    (hh : (op = .add ∨ op = .xchg ∨ op = .cas) ∨ paHost (ownDev s.sys) x.pa = false) : excFault (rmwPart s die c l ea n op opd cmp) = none := by
  unfold rmwPart
  rw [if_neg (by simpa using h), hx]
  dsimp only
  rw [if_neg]
  · rfl
  · rcases hh with (rfl | rfl | rfl) | hh
    · simp
    · simp
    · simp
    · simp [hh]

/-- The fields of a read-modify-write's operation, whose order is its own. -/
theorem mkOp_fields {e : Iss} {id iss k : Nat} {kind : OpKind} {cl : Cls} {d m : Nat} {ps : List MemPart} {q : Nat} :
    let o : MemOp := { mkOp e id iss k kind cl d m ps with order := q }
    o.slice = k ∧ o.id = id ∧ o.gang = e.gi ∧ o.core = e.core ∧ o.part = e.kern.part ∧ o.ctx = e.kern.ctx ∧ o.pc = e.pc ∧ o.kind = kind ∧
      o.cls = cl ∧ o.scope = mScope (e.mode k) ∧ o.killed = false := ⟨rfl, rfl, rfl, rfl, rfl, rfl, rfl, rfl, rfl, rfl, rfl⟩

theorem queuePart_lane {s : State} {e : Iss} {l : Nat} {a b : Byte} {q : Bool} : ∀ p ∈ excGet [] (queuePart s e l a b q), p.1.lane = l := by
  intro p hp
  unfold queuePart at hp
  dsimp only at hp
  repeat' split at hp
  all_goals first | (cases hp; done) | skip
  all_goals (simp only [excGet, List.mem_singleton] at hp; rw [hp])

theorem pstorePart_lane {s : State} {die : Nat} {c : Ctx} {l ea q n : Nat} {data : List Byte} : ∀ p ∈ excGet [] (pstorePart s die c l ea q n data), p.1.lane = l := by
  intro p hp
  unfold pstorePart at hp
  repeat' split at hp
  all_goals first | (cases hp; done) | skip
  simp only [excGet, List.mem_singleton] at hp
  rw [hp]

theorem noneBody_g (e : Iss) (m : Mem) (mk : Nat → Nat → Nat → MemOp) : e.adv = (opsBody e (fun _ => .none) m mk).g := by
  show e.adv = { e.adv with slices := e.adv.slices.mapIdx fun k (x : Slice) => if e.mask.getLsbD k then clsAdd x .none else x }
  have : (e.adv.slices.mapIdx fun k (x : Slice) => if e.mask.getLsbD k then clsAdd x .none else x) = e.adv.slices := by
    apply List.ext_getElem?
    intro k
    rw [List.getElem?_mapIdx]
    cases e.adv.slices[k]? with
    | none => rfl
    | some x => show some (if _ then x else x) = _; rw [ite_self]
  rw [this]

/-- An instruction that passes with nothing in flight, and changes memory to `m`. -/
theorem pass_ex {s : State} {e : Iss} {j : Iss → Judge} {b : Iss → Eff} {m : Mem} (h : issOf s = some e) (hroom : RoomForTraps e)
    (hj : j e = .go) (hb : b e = { st := { e.s with mem := m }, g := e.adv }) (hm : AtCore s.mem m) :
    ∃ t, issue s j b = .next t ∧ Issued s t e (fun _ => .none) [] ∧ t.mem = m := by
  have hes := (issOf_some h).1
  obtain ⟨t, g, h1, h2, h3, h4, h5, h6, h7⟩ := ops_spec (j := j) (b := b) (cl := fun _ => .none) (mem := m) (mk := fun _ _ _ => mkOp e 0 0 0 .load .none 0 0 []) h hj hroom
    (by rw [hb]; exact noneBody_g e _ _) (by rw [hb, hes]; exact ⟨rfl, rfl, fun _ _ => rfl, rfl, rfl, rfl, rfl, rfl, rfl, rfl, rfl⟩) (by rw [hb, hes])
  have ht : t.mem = m := by rw [h7, hb]
  refine ⟨t, h1, issued_of h2 h3 h4 h5 h6 ?_, ht⟩
  rw [ht, List.append_nil]
  exact hm

theorem l1Drop_frame (m : Mem) (p : L1Block → Bool) : ∃ q, l1Drop m p = { m with l1 := m.l1.filter fun b => !p b, predict := q } :=
  List.foldlRecOn (motive := fun n : Mem => ∃ q, n = { m with l1 := m.l1.filter fun b => !p b, predict := q }) _ _ ⟨m.predict, rfl⟩
    fun n ⟨q, hn⟩ b _ => by
      obtain ⟨q', h⟩ := predLearn_frame n b
      exact ⟨q', by rw [h, hn]⟩

/-- Memory with only one core's side of it changed, and what the homes know of SC stamps: L1 keeps only blocks it held. -/
def CoreOnly (core : Nat) (m m' : Mem) : Prop :=
  AtCore m m' ∧ (∀ x ∈ m'.l1, x ∈ m.l1) ∧ ∀ x ∈ m.l1, x.core ≠ core → x ∈ m'.l1

theorem CoreOnly.refl (core : Nat) (m : Mem) : CoreOnly core m m := ⟨.refl m, fun _ h => h, fun _ h _ => h⟩

theorem CoreOnly.trans {core : Nat} {a b c : Mem} (h1 : CoreOnly core a b) (h2 : CoreOnly core b c) : CoreOnly core a c :=
  ⟨h1.1.trans h2.1, fun x hx => h1.2.1 x (h2.2.1 x hx), fun x hx hc => h2.2.2 x (h1.2.2 x hx hc) hc⟩

theorem l1Drop_core {m : Mem} {core : Nat} {p : L1Block → Bool} (hp : ∀ b, p b = true → b.core = core) : CoreOnly core m (l1Drop m p) := by
  obtain ⟨q, h⟩ := l1Drop_frame m p
  rw [h]
  refine ⟨.l1 m _ q, fun x hx => List.mem_of_mem_filter hx, fun x hx hc => ?_⟩
  refine List.mem_filter.2 ⟨hx, ?_⟩
  cases hpx : p x with
  | false => rfl
  | true => exact absurd (hp x hpx) hc

theorem acquireL1_core (m : Mem) (core sc : Nat) : CoreOnly core m (acquireL1 m core sc) := by
  unfold acquireL1
  split
  · exact .refl _ _
  · exact l1Drop_core fun b hb => by simpa using hb

theorem acquireL1_empty {m : Mem} {core sc : Nat} (h : scGroup < sc) : ∀ x ∈ (acquireL1 m core sc).l1, x.core ≠ core := by
  unfold acquireL1
  rw [if_neg (by omega)]
  obtain ⟨q, h2⟩ := l1Drop_frame m fun b => b.core == core
  rw [h2]
  intro x hx
  simpa using (List.mem_filter.1 hx).2

theorem stampFence_core (m : Mem) (core sc : Nat) : CoreOnly core m (stampFence m core sc) :=
  ⟨⟨rfl, ⟨rfl, rfl, rfl, rfl, rfl, rfl, rfl, rfl, rfl⟩, fun _ _ => rfl⟩, fun _ h => h, fun _ h _ => h⟩

theorem CoreOnly.foldl {core : Nat} {f : Mem → Nat → Mem} (hf : ∀ m k, CoreOnly core m (f m k)) (L : List Nat) (m : Mem) :
    CoreOnly core m (L.foldl f m) :=
  List.foldlRecOn L f (.refl core m) fun n h x _ => h.trans (hf n x)

theorem coreFold_empty {core : Nat} {f : Mem → Nat → Mem} (hf : ∀ m k, CoreOnly core m (f m k)) {L : List Nat} {m : Mem} {k : Nat} (hk : k ∈ L)
    (he : ∀ m, ∀ x ∈ (f m k).l1, x.core ≠ core) : ∀ x ∈ (L.foldl f m).l1, x.core ≠ core := by
  obtain ⟨a, b, rfl⟩ := List.append_of_mem hk
  rw [List.foldl_append, List.foldl_cons]
  exact fun x hx => he _ x ((CoreOnly.foldl hf b _).2.1 x hx)

end Sys2Proof.Machine
end

