-- ==== Sys2Proof/Laws/Barrier.lean ====
section
/-! SUPPORT. Laws/Barrier.lean: barriers at issue, and instructions that pass or give a result over a state of their own. -/

namespace Sys2Proof.Machine

/-- An instruction that changes nothing of its gang, over a state of its own. -/
theorem passed_spec {s : State} {e : Iss} {j : Iss → Judge} {b : Iss → Eff} (h : issOf s = some e) (hj : j e = .go)
    (hroom : RoomForTraps e) (hg : (b e).g = e.adv) (hst : (b e).st.exe.gangs = s.exe.gangs) :
    ∃ t, issue s j b = .next t ∧ Passed (b e).st t e := by
  obtain ⟨t, g, ht, hr, ho, hf, hta, hadv⟩ := issue_retires (b := b) h hj hroom hst
    (fun k => by rw [hg]; exact (adv_sl_tally e k).2.2) (by rw [hg]; exact adv_slices_length e)
    (fun k => by rw [hg]; exact (adv_sl_tally e k).2.1) (by rw [hg]; rfl)
  refine ⟨t, ht, g, hr, ho, ?_, fun k => ?_, ?_⟩
  · rw [hg] at hf
    exact (show SameFile e.g e.adv from ⟨rfl, rfl, rfl, rfl, rfl, rfl, rfl, rfl, rfl, rfl⟩).trans hf
  · rw [hta, hg]; exact (adv_sl_tally e k).1
  · refine advanced_of (F := fun k x => if e.mask.getLsbD k then { x with pc := x.pc + 4 } else x) h hadv (fun k => ?_) fun k x => ?_
    · rw [hg]
      show (e.g.slices.mapIdx fun k (x : Slice) => if e.mask.getLsbD k then { x with pc := x.pc + 4 } else x)[k]? = _
      rw [List.getElem?_mapIdx]
    · split <;> exact ⟨rfl, rfl, rfl, rfl, rfl, rfl, rfl⟩

/-- An instruction of the result shape, over a state of its own. -/
theorem result_over {s : State} {e : Iss} {j : Iss → Judge} {b : Iss → Eff} {ls : List Nat} {d : Byte}
    {w : Nat → Bool} {v : Nat → Nat} {c : Nat → Conds} (h : issOf s = some e) (hj : j e = .go)
    (hroom : RoomForTraps e) (hb : (b e).g = (resultBody e ls d w v c).g) (hst : (b e).st.exe.gangs = s.exe.gangs)
    (hd : ∀ l ∈ ls, w l = true → d.toNat + 1 < 256) :
    ∃ t, issue s j b = .next t ∧ Result (b e).st t e ls d w v c := by
  have hes := (issOf_some h).1
  have hsl : ∀ k, (b e).g.sl k = (({ e.adv with slices := e.adv.slices.mapIdx fun k (x : Slice) =>
      { x with fpx := fpxOr x.fpx (sliceConds k ls c) } } : Gang)).sl k := by rw [hb]; exact fun _ => rfl
  have hk : ∀ k, (b e).g.sl k = if (e.adv.slices[k]?).isSome = true then
      { e.adv.sl k with fpx := fpxOr (e.adv.sl k).fpx (sliceConds k ls c) } else e.adv.sl k := by
    intro k; rw [hsl, sl_mapIdx]
  obtain ⟨t, g, ht, hr, ho, hf, hta, hadv⟩ := issue_retires (b := b) h hj hroom hst
    (fun k => by rw [hk]; split <;> exact (adv_sl_tally e k).2.2)
    (by rw [hb]; simp [resultBody])
    (fun k => by rw [hk]; split <;> exact (adv_sl_tally e k).2.1) (by rw [hb]; rfl)
  refine ⟨t, ht, g, hr, ho, ?_, ?_, ?_, ?_, ?_, ?_⟩
  · rw [hf.regs, hb]; exact wrote_resultsOf _ _ _ _ _ hd
  · rw [hf.preds, hb]; rfl
  · rw [hf.sregs, hb]; rfl
  · rw [hb] at hf; exact ⟨hf.trapBase, hf.fpxEn, hf.dbgCtl, hf.gear, hf.axCount, hf.opens, hf.grp⟩
  · intro k hks
    have h1 := (adv_sl_tally e k).1
    simp only [tally, Prod.mk.injEq] at h1
    rw [hta, hk, if_pos (by rw [isSome_slices (adv_slices_length e)]; exact hks)]
    simp only [tally, h1]
  · refine advanced_of (F := fun k x => { (if e.mask.getLsbD k then { x with pc := x.pc + 4 } else x) with
        fpx := fpxOr x.fpx (sliceConds k ls c) }) h hadv (fun k => ?_) fun k x => ?_
    · rw [hb]
      show ((e.g.slices.mapIdx fun k (x : Slice) => if e.mask.getLsbD k then { x with pc := x.pc + 4 } else x).mapIdx
        fun k (x : Slice) => { x with fpx := fpxOr x.fpx (sliceConds k ls c) })[k]? = _
      rw [List.getElem?_mapIdx, List.getElem?_mapIdx, Option.map_map]
      cases e.g.slices[k]? with
      | none => rfl
      | some x => simp only [Option.map_some, Function.comp]; split <;> rfl
    · dsimp only
      split <;> exact ⟨rfl, rfl, rfl, rfl, rfl, rfl, rfl⟩

theorem Judge.go_and (x : Judge) : Judge.and .go x = x := rfl

theorem barLane_of {e : Iss} {l : Nat} (h : e.active.head? = some l) : barLane e = some l := h

theorem onLane_none {e : Iss} {l : Nat} {f : Nat → Option (FaultCode × Nat)} (h : e.active.head? = some l) (hf : f l = none) : onLane e f = .go := by
  unfold onLane
  rw [barLane_of h]
  dsimp only
  rw [hf]

theorem onLane_some {e : Iss} {l : Nat} {f : Nat → Option (FaultCode × Nat)} {c : FaultCode} {i : Nat} (h : e.active.head? = some l) (hf : f l = some (c, i)) :
    onLane e f = .fault (l / 4) c (BitVec.ofNat 64 i) := by
  unfold onLane
  rw [barLane_of h]
  dsimp only
  rw [hf]

theorem windowReady_go {e : Iss} (h : windowDone e) : windowReady e = .go := by
  unfold windowReady
  rw [if_neg]
  simp only [List.any_eq_true, not_exists, not_and]
  intro o ho hc
  simp only [Bool.and_eq_true, beq_iff_eq] at hc
  by_cases h8 : o.slice < 8
  · have := h o ho hc.1.1 (mem_mask.2 ⟨h8, hc.1.2⟩)
    rw [hc.2] at this; cases this
  · have : e.mask.getLsbD o.slice = false := BitVec.getLsbD_of_ge _ _ (by omega)
    rw [hc.1.2] at this; cases this

theorem othersWait_group (own core : Nat) (q : MemOp) : othersWait own scGroup core q = false := by
  simp [othersWait]

theorem groupRelease_go {e : Iss} (h : releaseDone e) : groupRelease e = .go := by
  unfold groupRelease
  rw [if_pos]
  simp only [relReady, List.all_eq_true, List.mem_filter, decide_eq_true_eq]
  rintro k hk o ⟨ho, _⟩
  split
  · rename_i hc
    simp only [Bool.and_eq_true, beq_iff_eq] at hc
    rw [h o ho hc.1 (hc.2 ▸ hk)]; rfl
  · rw [othersWait_group]; rfl

theorem barOfsOk_iff {e : Iss} {ofs : Nat} (h : ofs < 2 ^ 32) : barOfsOk e.kern.pkt.lmem ofs = true ↔ barrierFits e ofs := by
  unfold barOfsOk lmOk barrierFits lmStore bits
  simp only [Bool.and_eq_true, Bool.not_eq_true', beq_iff_eq, List.all_eq_true, List.mem_range, decide_eq_true_eq]
  have ht : ofs.testBit 30 = false ↔ ofs / 2 ^ 30 % 2 = 0 := by
    rw [Nat.testBit_eq_decide_div_mod_eq]; simp
  constructor
  · rintro ⟨h1, ⟨⟨h2, h3⟩, h4⟩, h5⟩
    rw [ht] at h1
    have h6 := h5 15 (by omega)
    rw [Nat.testBit_eq_decide_div_mod_eq, show decide (ofs / 2 ^ 30 % 2 = 1) = false by simp; omega] at h6
    simp only [Bool.false_eq_true, if_false] at h6
    refine ⟨h4, ?_, ?_⟩ <;> omega
  · rintro ⟨h1, h2, h3⟩
    have h6 : ofs.testBit 30 = false := ht.2 (by omega)
    refine ⟨h6, ⟨⟨by omega, by omega⟩, h1⟩, fun i hi => ?_⟩
    rw [h6]
    simp only [Bool.false_eq_true, if_false]
    omega

theorem leNat_natLe (x c : Nat) : leNat (natLe x c) = x % 256 ^ c := by
  induction c generalizing x with
  | zero => rw [Nat.pow_zero, Nat.mod_one]; rfl
  | succ c ih =>
    show (BitVec.ofNat 8 x).toNat + 256 * leNat (natLe (x / 256) c) = _
    rw [ih, BitVec.toNat_ofNat, show 256 ^ (c + 1) = 256 * 256 ^ c from Nat.pow_succ', Nat.mod_mul]

theorem natLe_length (x c : Nat) : (natLe x c).length = c := by
  induction c generalizing x with
  | zero => rfl
  | succ c ih => show (natLe (x / 256) c).length + 1 = _; rw [ih]

theorem smRun_ext {n : Nat} {m m' : SMap n} {k c : Nat} (h : ∀ i < c, smGet m (k + i) = smGet m' (k + i)) : smRun m k c = smRun m' k c := by
  induction c generalizing k with
  | zero => rfl
  | succ c ih =>
    show smGet m k :: smRun m (k + 1) c = smGet m' k :: smRun m' (k + 1) c
    rw [show smGet m k = smGet m' k from h 0 (by omega), ih fun i hi => by rw [show k + 1 + i = k + (i + 1) by omega]; exact h _ (by omega)]

theorem smRun_smPut {n : Nat} (m : SMap n) (k : Nat) (vs : List (BitVec n)) : smRun (smPut m k vs) k vs.length = vs := by
  induction vs generalizing m k with
  | nil => rfl
  | cons v vs ih =>
    show smGet (smPut m k (v :: vs)) k :: smRun (smPut (smSet m k v) (k + 1) vs) (k + 1) vs.length = _
    rw [ih, smGet_smPut]
    simp

theorem barRead_write (w : SMap 8) (ofs b : Nat) : leNat (smRun (barWrite w ofs b) ofs 16) = b % 2 ^ 128 := by
  unfold barWrite
  have := smRun_smPut w ofs (natLe b 16)
  rw [natLe_length] at this
  rw [this, leNat_natLe]; norm_num

theorem barWrite_other (w : SMap 8) (ofs b : Nat) : ∀ o, o < ofs ∨ ofs + 16 ≤ o → smGet (barWrite w ofs b) o = smGet w o := by
  intro o ho
  unfold barWrite
  rw [smGet_smPut, natLe_length, if_neg (by omega)]

theorem barPack_in (w : SMap 8) (ofs : Nat) {cells : Int} {pend phase reload : Nat} (h1 : -2 ^ 31 ≤ cells) (h2 : cells < 2 ^ 31) (h3 : pend < 2 ^ 16)
    (h4 : phase < 16) (h5 : reload < 2 ^ 16) : BarrierSet w (barWrite w ofs (barPack cells pend phase reload)) ofs cells pend phase reload := by
  refine ⟨?_, barWrite_other _ _ _⟩
  unfold BarrierIn
  rw [barRead_write]
  unfold barPack
  obtain ⟨c, hc⟩ : ∃ c : Nat, c = wrap cells 32 := ⟨_, rfl⟩
  have hw : (c : Int) = cells % 2 ^ 32 := by
    rw [hc]; unfold wrap; rw [Int.toNat_of_nonneg (Int.emod_nonneg _ (by norm_num))]
  rw [← hc]
  have hc32 : c < 2 ^ 32 := by omega
  have hs : signed c 32 = cells := by
    unfold signed
    dsimp only
    rw [Nat.mod_eq_of_lt hc32]
    split <;> omega
  rw [Nat.mod_eq_of_lt (by omega)]
  refine ⟨?_, ?_, ?_, ?_, ?_, ?_⟩
  · rw [← hs]
    unfold signed
    dsimp only
    rw [show (c + 2 ^ 32 * pend + 2 ^ 48 * phase + 2 ^ 64 * reload) % 2 ^ 32 = c % 2 ^ 32 by omega]
  all_goals (unfold bits; omega)

/-- The barrier of the cohort's window, from what it holds. -/
theorem barUpdate_of {b : Nat} {cells z : Int} {pend phase reload n : Nat} (h : signed b 32 = cells ∧ bits b 47 32 = pend ∧ bits b 51 48 = phase ∧ bits b 79 64 = reload ∧ bits b 63 52 = 0 ∧ bits b 127 80 = 0)
    (hr : 0 < reload) (hn : n ≤ pend) (hz1 : -2 ^ 31 ≤ cells + z) (hz2 : cells + z < 2 ^ 31) :
    barUpdate b z n = some (if cells + z = 0 ∧ pend - n = 0 then barPack 0 reload ((phase + 1) % 16) reload else barPack (cells + z) (pend - n) phase reload) := by
  obtain ⟨h1, h2, h3, h4, h5, h6⟩ := h
  unfold barUpdate barCells barReload barRsv barPend barPhase
  dsimp only
  rw [h1, h2, h3, h4, h5, h6, if_neg]
  · split <;> rfl
  · simp only [bne_self_eq_false, Bool.or_self, Bool.false_eq_true, false_or, not_or]
    omega

theorem barUpdate_none {b : Nat} {cells z : Int} {pend phase reload n : Nat} (h : signed b 32 = cells ∧ bits b 47 32 = pend ∧ bits b 51 48 = phase ∧ bits b 79 64 = reload ∧ bits b 63 52 = 0 ∧ bits b 127 80 = 0)
    (hn : pend < n ∨ cells + z < -2 ^ 31 ∨ 2 ^ 31 ≤ cells + z) : barUpdate b z n = none := by
  obtain ⟨h1, h2, h3, h4, h5, h6⟩ := h
  unfold barUpdate barCells barReload barRsv barPend barPhase
  dsimp only
  rw [h1, h2, h4, if_pos]
  exact .inr (.inr hn)

theorem smRun_byte (w : SMap 8) (k c : Nat) : leNat (smRun w k c) < 256 ^ c := by
  induction c generalizing k with
  | zero => exact Nat.one_pos
  | succ c ih =>
    show (smGet w k).toNat + 256 * leNat (smRun w (k + 1) c) < _
    have := ih (k + 1)
    have := (smGet w k).isLt
    rw [Nat.pow_succ]
    omega

theorem barPut_eq {s : State} {e : Iss} (h : issOf s = some e) (ofs b : Nat) : barPut e ofs b = windowed s e (barWrite e.grp.window ofs b) := by
  obtain ⟨h1, -, -, h2, -⟩ := issOf_some h
  unfold barPut windowed modWindow
  rw [h1]
  have : modAt s.exe.groups e.g.grp (fun x => { x with window := barWrite x.window ofs b }) =
      modAt s.exe.groups e.g.grp (fun x => { x with window := barWrite e.grp.window ofs b }) := by
    apply List.ext_getElem?
    intro j
    rw [modAt_get, modAt_get]
    split
    · rename_i hj
      rw [hj, h2]; rfl
    · rfl
  rw [this]


theorem modNb_eq {s : State} {e : Iss} {k : Nat} {x : NumBar} (h : issOf s = some e) (hx : e.grp.nbs[k]? = some x) (f : NumBar → NumBar) :
    modNb s e.g.grp k f = numbered s e k (f x) := by
  obtain ⟨h1, -, -, h2, -⟩ := issOf_some h
  unfold numbered modNb
  have : modAt s.exe.groups e.g.grp (fun y => { y with nbs := modAt y.nbs k f }) =
      modAt s.exe.groups e.g.grp (fun y => { y with nbs := modAt y.nbs k fun _ => f x }) := by
    apply List.ext_getElem?
    intro j
    rw [modAt_get, modAt_get]
    split
    · rename_i hj
      rw [hj, h2]
      show some _ = some _
      congr 1
      have : modAt e.grp.nbs k f = modAt e.grp.nbs k fun _ => f x := by
        apply List.ext_getElem?
        intro j
        rw [modAt_get, modAt_get]
        split
        · rename_i hj
          rw [hj, hx]; rfl
        · rfl
      dsimp only
      rw [this]
    · rfl
  rw [this]

end Sys2Proof.Machine
end

