-- ==== Sys2Proof/Laws/Copies.lean ====
section
/-! SUPPORT. Laws/Copies.lean: the issue of copies, and words landed in a window. -/

namespace Sys2Proof.Machine

theorem copyRelease_go {e : Iss} (h : copiesFree e) : copyRelease e = .go := by
  unfold copyRelease
  rw [if_pos (List.all_eq_true.2 h.2.2.2)]

theorem copyRoom_go {e : Iss} (h : copiesFree e) : copyRoom e = .go := by
  obtain ⟨h1, h2, h3, -⟩ := h
  unfold copyRoom
  dsimp only
  have hf : (coreCopies e.s e.core).filter Copy.queued = coreCopies e.s e.core := List.filter_eq_self.2 h1
  rw [Judge.and_go, clsRoom_go]
  refine ⟨h3, ?_⟩
  rw [if_neg, hf]
  · split at h2
    · rename_i hn
      rw [if_pos hn, if_pos h2]
    · rename_i hn
      rw [if_neg hn, if_pos (by rw [h2]; rfl)]
  · simp only [List.any_eq_true, not_exists, not_and]
    intro c hc
    rw [h1 c hc]; simp

theorem acceptLanes_ok {f : Nat → Nat → Except (FaultCode × Nat) Copy} {L : List Nat} {b : Nat} (h : ∀ (i l : Nat), L[i]? = some l → ∃ c, f l (b + i) = .ok c) :
    ∃ cs, acceptLanes f ((L.zipIdx b).map fun p => (p.1, p.2)) = .ok cs ∧ cs.length = L.length ∧
      ∀ (i l : Nat), L[i]? = some l → ∃ c, f l (b + i) = .ok c ∧ cs[i]? = some c := by
  induction L generalizing b with
  | nil => exact ⟨[], rfl, rfl, fun i l h => by cases i <;> cases h⟩
  | cons a L ih =>
    obtain ⟨c, hc⟩ := h 0 a rfl
    obtain ⟨cs, h1, h2, h3⟩ := ih (b := b + 1) fun i l hl => by
      obtain ⟨c, hc⟩ := h (i + 1) l hl
      exact ⟨c, by rw [show b + 1 + i = b + (i + 1) by omega]; exact hc⟩
    refine ⟨c :: cs, ?_, by simp [h2], ?_⟩
    · rw [List.zipIdx_cons, List.map_cons]
      unfold acceptLanes
      rw [Nat.add_zero] at hc
      rw [hc, h1]
    · intro i l hl
      cases i with
      | zero => cases hl; exact ⟨c, hc, rfl⟩
      | succ i =>
        obtain ⟨c', h4, h5⟩ := h3 i l hl
        exact ⟨c', by rw [show b + (i + 1) = b + 1 + i by omega]; exact h4, h5⟩

theorem acceptLanes_error {f : Nat → Nat → Except (FaultCode × Nat) Copy} {L : List Nat} {b i l x : Nat} {c : FaultCode} (hl : L[i]? = some l)
    (he : f l (b + i) = .error (c, x)) (h : ∀ j k : Nat, j < i → L[j]? = some k → ∃ y, f k (b + j) = .ok y) :
    acceptLanes f ((L.zipIdx b).map fun p => (p.1, p.2)) = .error (c, x, l, b + i) := by
  induction L generalizing b i with
  | nil => cases hl
  | cons a L ih =>
    rw [List.zipIdx_cons, List.map_cons]
    unfold acceptLanes
    cases i with
    | zero => cases hl; rw [Nat.add_zero] at he; rw [he]; rfl
    | succ i =>
      obtain ⟨y, hy⟩ := h 0 a (by omega) rfl
      rw [Nat.add_zero] at hy
      rw [hy, ih (b := b + 1) (i := i) hl (by rw [show b + 1 + i = b + (i + 1) by omega]; exact he) fun j k hj hk => by
        obtain ⟨y, hy⟩ := h (j + 1) k (by omega) hk
        exact ⟨y, by rw [show b + 1 + j = b + (j + 1) by omega]; exact hy⟩]
      simp only [show b + 1 + i = b + (i + 1) by omega]

theorem zipIdx_base (L : List Nat) (b : Nat) : (L.zipIdx.map fun p => (p.1, b + p.2)) = (L.zipIdx b).map fun p => (p.1, p.2) := by
  apply List.ext_getElem?
  intro i
  simp only [List.getElem?_map, List.getElem?_zipIdx, Option.map_map]
  cases L[i]? <;> simp

theorem probeCopy_ok {e : Iss} {c c' : Copy} {z : Int} {vas : List (Option Nat)} (h : probeCopy e c z vas = .ok c') :
    c.len % 4 = 0 ∧ c.lofs.toNat % 4 = 0 ∧ ∃ pages left, c' = { c with pages := pages, rowVa := vas.map (Option.map (BitVec.ofNat 64)), left := left } := by
  unfold probeCopy at h
  dsimp only at h
  repeat' split at h
  all_goals first | (cases h; done) | skip
  cases h
  exact ⟨by omega, by omega, _, _, rfl⟩

theorem wrap_ofInt (z : Int) : BitVec.ofNat 64 (wrap z 64) = BitVec.ofInt 64 z := by
  apply BitVec.eq_of_toNat_eq
  rw [BitVec.toNat_ofNat, BitVec.toNat_ofInt]
  unfold wrap
  have := Int.emod_nonneg z (b := 2 ^ 64) (by norm_num)
  have := Int.emod_lt_of_pos z (b := 2 ^ 64) (by norm_num)
  exact Nat.mod_eq_of_lt (by omega)

theorem descWord_lt (e : Iss) (a : Byte) (l i : Nat) : descWord e a l i < 2 ^ 32 := by
  unfold descWord; exact BitVec.isLt _

theorem rawCopy_of (e : Iss) (kind : CopyKind) (a : Byte) (nobar : Bool) (l i : Nat) :
    CopyOf e a nobar l i kind { rawCopy e kind a nobar l (e.s.exe.nextId + 8 + i) with queued := decide (i < 16) } := by
  refine ⟨rfl, rfl, rfl, ⟨rfl, rfl, rfl, rfl, rfl, rfl⟩, ?_, rfl, ⟨rfl, rfl, rfl⟩, rfl⟩
  show (List.range 4).map (fun j => BitVec.ofNat 32 (descWord e a l j)) = _
  refine List.map_congr_left fun j _ => ?_
  unfold descWord
  exact BitVec.ofNat_toNat _ _ |>.trans (BitVec.setWidth_eq _)

theorem CopyOf.of_eq {e : Iss} {a : Byte} {nobar : Bool} {l i : Nat} {kind : CopyKind} {c c' : Copy} (h : CopyOf e a nobar l i kind c)
    (h1 : c'.id = c.id ∧ c'.kind = c.kind ∧ c'.core = c.core ∧ c'.grp = c.grp ∧ c'.gang = c.gang ∧ c'.slice = c.slice ∧ c'.part = c.part ∧
      c'.ctx = c.ctx ∧ c'.pc = c.pc ∧ c'.owords = c.owords ∧ c'.bar = c.bar ∧ c'.landed = c.landed ∧ c'.stopped = c.stopped ∧ c'.sent = c.sent ∧ c'.queued = c.queued) :
    CopyOf e a nobar l i kind c' := by
  obtain ⟨a1, a2, a3, a4, a5, a6, a7, a8, a9, a10, a11, a12, a13, a14, a15⟩ := h1
  exact ⟨a1.trans h.id, a2.trans h.kind, a3.trans h.core, ⟨a4.trans h.owner.1, a5.trans h.owner.2.1, a6.trans h.owner.2.2.1, a7.trans h.owner.2.2.2.1,
    a8.trans h.owner.2.2.2.2.1, a9.trans h.owner.2.2.2.2.2⟩, a10.trans h.words, a11.trans h.bar, ⟨a12.trans h.fresh.1, a13.trans h.fresh.2.1, a14.trans h.fresh.2.2⟩, a15.trans h.queued⟩

theorem copyLane_of {e : Iss} {kind : CopyKind} {d a : Byte} {nobar : Bool} {l id : Nat} {c : Copy} (h : copyLane e kind d a nobar l id = .ok c) :
    ∃ pages left vas, c = { rawCopy e kind a nobar l id with pages := pages, rowVa := vas, left := left } ∧ (rawCopy e kind a nobar l id).len % 4 = 0 ∧
      (rawCopy e kind a nobar l id).lofs.toNat % 4 = 0 ∧ vas = (if kind = .l2l then []
    else (List.range (rawCopy e kind a nobar l id).rows).map fun (r : Nat) => some (BitVec.ofNat 64 (rowAddr (rawCopy e kind a nobar l id) ((r : Int) * copyStride e d (rawCopy e kind a nobar l id) l)))) := by
  unfold copyLane at h
  dsimp only at h
  obtain ⟨h1, h2, pages, left, h3⟩ := probeCopy_ok h
  refine ⟨pages, left, _, h3, h1, h2, ?_⟩
  split
  · rfl
  · rw [List.map_map]; rfl

theorem rawCopy_shape (e : Iss) (kind : CopyKind) (a : Byte) (nobar : Bool) (l id : Nat) :
    let c := rawCopy e kind a nobar l id
    c.rows = descWord e a l 1 / 2 ^ 24 + 1 ∧ c.len = descWord e a l 3 % 2 ^ 14 + 1 ∧ c.lofs.toNat = descWord e a l 2 ∧
      c.gaddr.toNat = descWord e a l 0 + descWord e a l 1 % 2 ^ 24 * 2 ^ 32 := by
  have h0 := descWord_lt e a l 0
  have h1 := descWord_lt e a l 1
  have h2 := descWord_lt e a l 2
  refine ⟨rfl, rfl, ?_, ?_⟩
  · show (BitVec.ofNat 32 (descWord e a l 2)).toNat = _
    rw [BitVec.toNat_ofNat]; omega
  · show (BitVec.ofNat 64 (descWord e a l 0 + bits (descWord e a l 1) 23 0 * 2 ^ 32)).toNat = _
    rw [BitVec.toNat_ofNat]
    unfold bits
    omega

theorem tileLane_of {e : Iss} {d a : Byte} {nobar : Bool} {fmt l id : Nat} {c : Copy} (h : tileLane e d a nobar fmt l id = .ok c) :
    ∃ rows cols len left, rows = bits (descWord e a l 3) 13 7 + 1 ∧ cols = bits (descWord e a l 3) 6 0 + 1 ∧
    c = { rawCopy e .contrib a nobar l id with lofs := BitVec.ofNat 32 (descWord e a l 0), rows := rows, cols := cols, len := len, fmt := fmt, handle := BitVec.ofNat 32 (rdPair e.g l d / 2 ^ 32), label := BitVec.ofNat 32 (rdPair e.g l d % 2 ^ 32), e0 := descWord e a l 1, estride := descWord e a l 2, gaddr := 0, gofs := 0, left := left } := by
  unfold tileLane at h
  dsimp only at h
  repeat' split at h
  all_goals first | (cases h; done) | skip
  cases h
  exact ⟨_, _, _, _, rfl, rfl, rfl⟩

/-- Words written one after another at places that do not overlap. -/
theorem foldPut {L : List Nat} {dst : Nat → Nat} {bs : SMap 8 → Nat → List Byte} (h4 : ∀ w i, (bs w i).length = 4)
    (hd : L.Pairwise fun i j => dst i + 4 ≤ dst j ∨ dst j + 4 ≤ dst i) (w0 w : SMap 8) (P : Nat → Prop)
    (hP : ∀ o, P o → ∀ i ∈ L, o < dst i ∨ dst i + 4 ≤ o) (hw : ∀ o, P o → smGet w o = smGet w0 o) :
    (∀ o, (∀ i ∈ L, o < dst i ∨ dst i + 4 ≤ o) → smGet (L.foldl (fun w i => smPut w (dst i) (bs w i)) w) o = smGet w o) ∧
    (∀ i ∈ L, (∀ w', (∀ o, P o → smGet w' o = smGet w0 o) → bs w' i = bs w0 i) → ∀ j < 4,
      smGet (L.foldl (fun w i => smPut w (dst i) (bs w i)) w) (dst i + j) = ((bs w0 i)[j]?).getD 0) := by
  induction L generalizing w with
  | nil => exact ⟨fun o _ => rfl, fun i hi => by cases hi⟩
  | cons a L ih =>
    rw [List.pairwise_cons] at hd
    have hw' : ∀ o, P o → smGet (smPut w (dst a) (bs w a)) o = smGet w0 o := by
      intro o ho
      have := hP o ho a (by simp)
      rw [smGet_smPut, h4, if_neg (by omega)]
      exact hw o ho
    obtain ⟨i1, i2⟩ := ih hd.2 (smPut w (dst a) (bs w a)) (fun o ho i hi => hP o ho i (by simp [hi])) hw'
    rw [List.foldl_cons]
    refine ⟨fun o ho => ?_, fun i hi hbs j hj => ?_⟩
    · rw [i1 o fun i hi => ho i (by simp [hi])]
      have := ho a (by simp)
      rw [smGet_smPut, h4, if_neg (by omega)]
    · rcases List.mem_cons.1 hi with rfl | hi
      · rw [i1 _ fun k hk => by have := hd.1 k hk; omega, smGet_smPut, h4, if_pos (by omega), show dst i + j - dst i = j by omega, hbs w hw]
      · exact i2 i hi hbs j hj

theorem lmStore_disjoint {sk : Bool} {a b : Nat} (ha : a % 4 = 0) (hb : b % 4 = 0) (h : a ≠ b) :
    lmStore sk a + 4 ≤ lmStore sk b ∨ lmStore sk b + 4 ≤ lmStore sk a := by
  unfold lmStore
  cases sk
  · simp only [Bool.false_eq_true, if_false]; omega
  · simp only [if_true]
    obtain ⟨t1, h1, m1, e1, b1, c1⟩ : ∃ t h m, a = 1024 * t + 64 * h + 4 * m ∧ h < 16 ∧ m < 16 := ⟨a / 1024, a % 1024 / 64, a % 64 / 4, by omega, by omega, by omega⟩
    obtain ⟨t2, h2, m2, e2, b2, c2⟩ : ∃ t h m, b = 1024 * t + 64 * h + 4 * m ∧ h < 16 ∧ m < 16 := ⟨b / 1024, b % 1024 / 64, b % 64 / 4, by omega, by omega, by omega⟩
    rw [show a / 1024 = t1 by omega, show b / 1024 = t2 by omega, show a % 1024 / 4 / 16 = h1 by omega, show b % 1024 / 4 / 16 = h2 by omega,
      show a % 1024 / 4 % 16 = m1 by omega, show b % 1024 / 4 % 16 = m2 by omega, show a % 4 = 0 from ha, show b % 4 = 0 from hb]
    by_cases hh : h1 = h2
    · subst hh
      by_cases hm : m1 = m2
      · omega
      · have : (h1 + m1) % 16 ≠ (h1 + m2) % 16 := by omega
        have r1 := Nat.mod_lt (h1 + m1) (show 0 < 16 by norm_num)
        have r2 := Nat.mod_lt (h1 + m2) (show 0 < 16 by norm_num)
        generalize (h1 + m1) % 16 = r1 at *
        generalize (h1 + m2) % 16 = r2 at *
        omega
    · have r1 := Nat.mod_lt (h1 + m1) (show 0 < 16 by norm_num)
      have r2 := Nat.mod_lt (h2 + m2) (show 0 < 16 by norm_num)
      generalize (h1 + m1) % 16 = q1 at *
      generalize (h2 + m2) % 16 = q2 at *
      omega

theorem mem_rowWords {len i : Nat} : i ∈ rowWords len ↔ i % 4 = 0 ∧ i + 4 ≤ len := by
  unfold rowWords
  simp only [List.mem_map, List.mem_range]
  constructor
  · rintro ⟨j, hj, rfl⟩; omega
  · rintro ⟨h1, h2⟩; exact ⟨i / 4, by omega, by omega⟩

theorem rowWords_nodup (len : Nat) : (rowWords len).Pairwise (· ≠ ·) := by
  unfold rowWords
  rw [List.pairwise_map]
  exact (List.pairwise_lt_range).imp fun h => by omega

theorem smRun_get {n : Nat} (m : SMap n) (k c j : Nat) (h : j < c) : ((smRun m k c)[j]?).getD 0 = smGet m (k + j) := by
  induction c generalizing k j with
  | zero => omega
  | succ c ih =>
    show ((smGet m k :: smRun m (k + 1) c)[j]?).getD 0 = _
    cases j with
    | zero => rfl
    | succ j => rw [List.getElem?_cons_succ, ih (k + 1) j (by omega)]; congr 1; omega

theorem smRun_length {n : Nat} (m : SMap n) (k c : Nat) : (smRun m k c).length = c := by
  induction c generalizing k with
  | zero => rfl
  | succ c ih => show (smRun m (k + 1) c).length + 1 = _; rw [ih]

theorem modWindow_eq {s : State} {gid : Nat} {g : Group} (h : s.exe.groups[gid]? = some g) (f : SMap 8 → SMap 8) :
    (modWindow s gid f).exe.groups = modAt s.exe.groups gid fun y => { y with window := f g.window } := by
  apply List.ext_getElem?
  intro j
  show (modAt s.exe.groups gid _)[j]? = _
  rw [modAt_get, modAt_get]
  split
  · rename_i hj
    rw [hj, h]; rfl
  · rfl

theorem copyLanded_after {s s' : State} {c : Copy} {i : Nat} (h : s'.exe.copies = s.exe.copies) : copyAfter s c i (copyLanded s' c i).exe.copies := by
  unfold copyLanded copyAfter
  dsimp only
  refine ⟨fun h0 => ?_, fun h0 => ?_⟩
  · rw [h0, h]; rfl
  · rw [if_neg (by rw [List.isEmpty_iff]; exact h0), h]
    unfold modIf
    refine List.map_congr_left fun x _ => ?_
    by_cases hx : x.id = c.id
    · rw [if_pos hx, if_pos (by simpa using hx)]
    · rw [if_neg hx, if_neg (by simpa using hx)]

theorem modAt_modAt {α : Type} (l : List α) (i : Nat) (f g : α → α) : modAt (modAt l i f) i g = modAt l i fun x => g (f x) := by
  apply List.ext_getElem?
  intro j
  simp only [modAt_get]
  split
  · cases l[j]? <;> rfl
  · rfl

/-- A cell counted, where the barrier takes the count. -/
theorem copyCount_ok {s s1 : State} {c : Copy} {i : Nat} {g : Group} {w : SMap 8} (hg : s.exe.groups[c.grp]? = some g)
    (hgr : s1.exe.groups = modAt s.exe.groups c.grp fun y => { y with window := w }) (hc : s1.exe.copies = s.exe.copies) (hcan : countable c w) :
    ∃ w', counted c w w' ∧ (copyCount s1 c i).exe.groups = modAt s.exe.groups c.grp (fun y => { y with window := w' }) ∧
      copyAfter s c i (copyCount s1 c i).exe.copies ∧ (copyCount s1 c i).mem = s1.mem ∧ (copyCount s1 c i).ctl = s1.ctl ∧
      (copyCount s1 c i).sys = s1.sys ∧ (copyCount s1 c i).exe.gangs = s1.exe.gangs := by
  unfold copyCount counted
  cases hb : c.bar with
  | none => exact ⟨w, rfl, hgr, copyLanded_after hc, rfl, rfl, rfl, rfl⟩
  | some b =>
    obtain ⟨cells, pend, phase, reload, h1, h2, h3⟩ := hcan b hb
    have hwin : ((s1.exe.groups[c.grp]?).map Group.window).getD [] = w := by
      rw [hgr, modAt_get, if_pos rfl, hg]; rfl
    have hin := h1
    unfold BarrierIn at hin
    dsimp only at hin
    have hcl : cells < 2 ^ 31 := by
      rw [← hin.1]; unfold signed; dsimp only; split <;> omega
    have hpl : pend < 2 ^ 16 ∧ phase < 16 ∧ reload < 2 ^ 16 := by
      obtain ⟨-, h2, h3, h4, -, -⟩ := hin
      rw [← h2, ← h3, ← h4]
      unfold bits
      refine ⟨?_, ?_, ?_⟩ <;> exact Nat.mod_lt _ (by norm_num)
    have hu := barUpdate_of (z := -1) (n := 0) hin h2 (by omega) (by omega) (by omega)
    dsimp only
    have hbr : barRead w b = leNat (smRun w b 16) := rfl
    rw [hwin, hbr, hu]
    dsimp only
    refine ⟨barWrite w b (if cells + -1 = 0 ∧ pend - 0 = 0 then barPack 0 reload ((phase + 1) % 16) reload else barPack (cells + -1) (pend - 0) phase reload), ?_, ?_, ?_, rfl, rfl, rfl, rfl⟩
    · intro c2 p2 ph2 r2 k1 k2 k3
      unfold BarrierIn at k1
      dsimp only at k1
      have e1 : c2 = cells := k1.1.symm.trans hin.1
      have e2 : p2 = pend := k1.2.1.symm.trans hin.2.1
      have e3 : ph2 = phase := k1.2.2.1.symm.trans hin.2.2.1
      have e4 : r2 = reload := k1.2.2.2.1.symm.trans hin.2.2.2.1
      subst e1 e2 e3 e4
      unfold BarrierUpdated
      simp only [Nat.sub_zero, Int.sub_eq_add_neg]
      split
      · exact barPack_in _ _ (by norm_num) (by norm_num) (by omega) (by omega) (by omega)
      · exact barPack_in _ _ (by omega) (by omega) (by omega) (by omega) (by omega)
    · show modAt s1.exe.groups c.grp _ = _
      rw [hgr, modAt_modAt]
    · exact copyLanded_after hc

theorem find_copy {s : State} {c : Copy} (h : s.exe.copies.find? (fun y => y.id == c.id) = some c) (f : Option Copy → Host.Outcome State Fault Refusal) :
    f (s.exe.copies.find? fun y => y.id == c.id) = f (some c) := by rw [h]

end Sys2Proof.Machine
end

