-- ==== Sys2Proof/Laws/Memory.lean ====
section
/-! SUPPORT. Laws/Memory.lean: every operation that writes bytes of memory keeps their canonical form. -/

namespace Sys2Proof.Machine

/-- The three maps of bytes stand in canonical form. -/
def Mem.canonical (m : Mem) : Prop :=
  Memory.wf m.bytes = true ∧ Memory.wf m.lpddr = true ∧ Memory.wf m.host = true

theorem reset_canonical : State.reset.mem.canonical := ⟨rfl, rfl, rfl⟩

/-! ## Bytes at their home -/

/-- A run of bytes stored changes nothing but the map of bytes. -/
theorem memPut_only (bs : List Byte) (m : Mem) (off : Nat) : ∃ b, memPut m off bs = { m with bytes := b } := by
  induction bs generalizing m off with
  | nil => exact ⟨m.bytes, rfl⟩
  | cons b bs ih =>
    obtain ⟨x, h⟩ := ih (memSet m off b) (off + 1)
    exact ⟨x, h⟩

theorem memSet_canonical (m : Mem) (off : Nat) (b : Byte) (h : m.canonical) : (memSet m off b).canonical :=
  ⟨smWf_smSet _ _ _ h.1, h.2⟩

theorem memPut_canonical (bs : List Byte) (m : Mem) (off : Nat) (h : m.canonical) : (memPut m off bs).canonical := by
  induction bs generalizing m off with
  | nil => exact h
  | cons b bs ih => exact ih _ _ (memSet_canonical m off b h)

theorem homePut_canonical (m : Mem) (off : Nat) (bs : List Byte) (h : m.canonical) : (homePut m off bs).canonical :=
  memPut_canonical bs m off h

theorem keyByte_memSet (m : Mem) (off a : Nat) (b : Byte) : keyByte (memSet m off b) a = keyByte m a := rfl

/-- Read after write of one byte: the byte stored, and every other byte as before. -/
theorem memByte_memSet (m : Mem) (off a : Nat) (b : Byte) : memByte (memSet m off b) a = if a = off then b else memByte m a := by
  unfold memByte
  rw [keyByte_memSet]
  show smGet (smSet m.bytes off (b ^^^ keyByte m off)) a ^^^ _ = _
  rw [smGet_smSet]
  split
  · rename_i h; rw [h, BitVec.xor_assoc, BitVec.xor_self, BitVec.xor_zero]
  · rfl

/-- Read after write of a run of bytes. -/
theorem memByte_memPut (bs : List Byte) (m : Mem) (off a : Nat) :
    memByte (memPut m off bs) a = if off ≤ a ∧ a < off + bs.length then bs.getD (a - off) 0 else memByte m a := by
  induction bs generalizing m off with
  | nil => rw [if_neg (by simp)]; rfl
  | cons b bs ih =>
    show memByte (memPut (memSet m off b) (off + 1) bs) a = _
    rw [ih, memByte_memSet]
    by_cases h : a = off
    · subst h
      rw [if_neg (by omega), if_pos rfl, if_pos (by simp)]
      simp
    · by_cases h2 : off + 1 ≤ a ∧ a < off + 1 + bs.length
      · rw [if_pos h2, if_pos (by simp; omega), show a - off = a - (off + 1) + 1 by omega]; rfl
      · rw [if_neg h2, if_neg h, if_neg (by simp; omega)]

/-! ## The other operations of the memory system -/

theorem foldl_canonical {α : Type} {f : Mem → α → Mem} (hf : ∀ m x, m.canonical → (f m x).canonical) (l : List α) (m : Mem)
    (h : m.canonical) : (l.foldl f m).canonical :=
  List.foldlRecOn l f h fun n hn x _ => hf n x hn

theorem hostPut_canonical (s : State) (a : Nat) (bs : List Byte) (h : s.mem.canonical) : (hostPut s a bs).mem.canonical :=
  ⟨h.1, h.2.1, smWf_smPut bs s.mem.host _ h.2.2⟩

theorem lpddrPut_canonical (m : Mem) (frame : Nat) (cs : List Nat) (h : m.canonical) : (lpddrPut m frame cs).canonical :=
  ⟨h.1, List.foldlRecOn (motive := fun l => Memory.wf l = true) cs _ h.2.1 fun l hl _ _ => smWf_smPut _ l _ hl, h.2.2⟩

theorem llcPut_canonical (m : Mem) (frame wayp policy : Nat) (x y : BitVec 16) (h : m.canonical) :
    (llcPut m frame wayp policy x y).canonical := by
  unfold llcPut
  split
  · exact h
  · dsimp only
    split
    · exact h
    · exact lpddrPut_canonical m _ _ h

theorem recallGrain_canonical (m : Mem) (g n : Nat) (h : m.canonical) : (recallGrain m g n).canonical := by
  have := foldl_canonical (f := fun x d => (l2Dirty m.l2 d (frameOf g) (grainCells g n)).foldl
    (fun x p => if homeWritten m p.1 then x else memSet x p.1 p.2) x) (fun m' d hm => foldl_canonical (fun m'' p hm => by
      split
      · exact hm
      · exact memSet_canonical _ _ _ hm) _ _ hm) ((m.l2.filter fun b => b.frame == frameOf g).map fun b => b.die) m h
  exact this

theorem growRecall_canonical (m : Mem) (off size : Nat) (h : m.canonical) : (growRecall m off size).canonical := by
  unfold growRecall
  dsimp only
  split
  · exact recallGrain_canonical _ _ _ h
  · exact h

theorem mergeBytes_canonical (m : Mem) (t : Option Txn) (bs : List (Nat × Byte)) (h : m.canonical) : (mergeBytes m t bs).canonical :=
  foldl_canonical (fun m p hm => by
    repeat' split
    all_goals first | exact hm | exact memSet_canonical _ _ _ hm) _ _ h

/-- A re-keyed memory keeps the canonical form (R321). -/
theorem rekeyMem_canonical (draw : Nat) (dies : List Nat) (m : Mem) (h : m.canonical) : (rekeyMem draw dies m).canonical :=
  ⟨smWf_filter _ _ h.1, smWf_filter _ _ h.2.1, h.2.2⟩

theorem scrubDies_canonical (m : Mem) (own : Nat) (dies : List Nat) (h : m.canonical) : (scrubDies m own dies).canonical := h

end Sys2Proof.Machine
end

