-- ==== Sys2Proof/Laws/HomeSide.lean ====
section
/-! SUPPORT. Laws/HomeSide.lean: what the home of an address can do, said once: the directory's grains, the bytes that a
recall, an eviction or a write leaves, and the effect of a write by an engine on the rest of the machine. -/

namespace Sys2Proof.Machine

/-! ## Directory entries -/

/-- An entry that stands for a whole grain. -/
def GrainOk (e : DirEntry) : Prop := (e.size = 32 ∨ e.size = 128 ∨ e.size = 512) ∧ e.grain % e.size = 0

theorem grainSize_ok (n : Nat) : grainSize n = 32 ∨ grainSize n = 128 ∨ grainSize n = 512 := by
  unfold grainSize
  split
  · exact .inr (.inr rfl)
  · split
    · exact .inr (.inl rfl)
    · exact .inl rfl

theorem dirAdd_grain (e : DirEntry) (a : Nat) : (dirAdd e a).grain = e.grain ∧ (dirAdd e a).size = e.size := by
  unfold dirAdd
  repeat' split
  all_goals exact ⟨rfl, rfl⟩

theorem dirAdds_grain (as : List Nat) (e : DirEntry) : (as.foldl dirAdd e).grain = e.grain ∧ (as.foldl dirAdd e).size = e.size :=
  List.foldlRecOn (motive := fun x : DirEntry => x.grain = e.grain ∧ x.size = e.size) as _ ⟨rfl, rfl⟩ fun x h a _ =>
    ⟨(dirAdd_grain x a).1.trans h.1, (dirAdd_grain x a).2.trans h.2⟩

/-- The entry that `dirGrow` gives stands for a whole grain that holds the offset. -/
theorem dirGrow_spec {d : List DirEntry} (h : GrainsOk d) (off size : Nat) : let e := dirGrow d off size
    (e.size = 32 ∨ e.size = 128 ∨ e.size = 512) ∧ e.grain % e.size = 0 ∧ e.grain ≤ off ∧ off < e.grain + e.size := by
  have new : (grainSize size = 32 ∨ grainSize size = 128 ∨ grainSize size = 512) ∧ grainBase off (grainSize size) % grainSize size = 0 ∧
      grainBase off (grainSize size) ≤ off ∧ off < grainBase off (grainSize size) + grainSize size := by
    refine ⟨grainSize_ok size, ?_⟩
    unfold grainBase
    rcases grainSize_ok size with h | h | h <;> rw [h] <;> omega
  unfold dirGrow
  dsimp only
  cases hf : dirFind d off with
  | none => rw [(dirAdds_grain _ _).1, (dirAdds_grain _ _).2]; exact new
  | some e =>
    dsimp only
    split
    · have hm := List.mem_of_find?_eq_some hf
      have hp := List.find?_some hf
      rw [Bool.and_eq_true, decide_eq_true_iff, decide_eq_true_iff] at hp
      exact ⟨(h e hm).1, (h e hm).2, hp.1, hp.2⟩
    · rw [(dirAdds_grain _ _).1, (dirAdds_grain _ _).2]
      exact new

theorem dirGrow_ok {d : List DirEntry} (h : GrainsOk d) (off size : Nat) : GrainOk (dirGrow d off size) :=
  ⟨(dirGrow_spec h off size).1, (dirGrow_spec h off size).2.1⟩

theorem GrainOk.add {e : DirEntry} (h : GrainOk e) (a : Nat) : GrainOk (dirAdd e a) := by
  unfold GrainOk
  rw [(dirAdd_grain e a).1, (dirAdd_grain e a).2]
  exact h

theorem dirPut_ok {now : Nat} {d : List DirEntry} {e : DirEntry} (h : GrainsOk d) (he : GrainOk e) : GrainsOk (dirPut now d e) := by
  have h' : GrainsOk (d.filter fun x => x.grain + x.size ≤ e.grain || e.grain + e.size ≤ x.grain) := fun x hx => h x (List.mem_filter.1 hx).1
  unfold dirPut
  dsimp only
  split
  · exact h'
  · exact List.forall_mem_cons.2 ⟨he, h'⟩

/-- The cells of a whole grain hold every offset of it, in one frame. -/
theorem grainCells_mem {g size off : Nat} (hs : size = 32 ∨ size = 128 ∨ size = 512) (hg : g % size = 0) (h1 : g ≤ off) (h2 : off < g + size) :
    frameOf g = frameOf off ∧ cellIn off ∈ grainCells g size := by
  unfold frameOf grainCells cellIn
  rw [List.mem_map]
  refine ⟨?_, off / 32 % 16 - g / 32 % 16, ?_, ?_⟩
  · rcases hs with rfl | rfl | rfl <;> omega
  · rw [List.mem_range]; rcases hs with rfl | rfl | rfl <;> omega
  · rcases hs with rfl | rfl | rfl <;> omega

theorem grainCells_lt {g size i : Nat} (hs : size = 32 ∨ size = 128 ∨ size = 512) (hg : g % size = 0) (h : i ∈ grainCells g size) : i < 16 := by
  unfold grainCells cellIn at h
  obtain ⟨j, hj, rfl⟩ := List.mem_map.1 h
  rw [List.mem_range] at hj
  rcases hs with rfl | rfl | rfl <;> omega

/-! ## Modified copies -/

/-- No slice holds the cell of an offset modified. -/
def NoDirty (l2 : List L2Block) (off : Nat) : Prop :=
  ∀ b ∈ l2, b.frame = frameOf off → ∀ j c, b.cells[j]? = some c → b.start + j = cellIn off → c.dirty = false

theorem HomeAlone.mk' {m : Mem} {off : Nat} (h1 : flightByte m off = none) (h2 : NoDirty m.l2 off) : HomeAlone m off := ⟨h1, h2⟩

theorem NoDirty.byte {l2 : List L2Block} {off : Nat} (h : NoDirty l2 off) : dirtyByte l2 off = none := by
  unfold dirtyByte
  rw [List.find?_eq_none.2]
  intro b hb hp
  rw [Bool.and_eq_true, Bool.and_eq_true, beq_iff_eq] at hp
  obtain ⟨⟨h1, _⟩, h2⟩ := hp
  cases hc : b.cells[cellIn off - b.start]? with
  | none => rw [hc] at h2; cases h2
  | some c =>
    rw [hc] at h2
    rw [Bool.and_eq_true, decide_eq_true_iff] at h2
    rw [h b hb h1 _ c hc (by omega)] at h2
    cases h2.2

/-- Where no other copy is modified, a read at the home finds the home's copy. -/
theorem coByte_alone {m : Mem} {off : Nat} (h : HomeAlone m off) : coByte m off = memByte m off := by
  unfold coByte
  rw [h.1, NoDirty.byte h.2]
  split <;> rfl

/-- No acknowledgement and no notice carries a byte. -/
theorem flight_none {m : Mem} {off : Nat} : flightByte m off = none ↔
    (∀ t ∈ m.txns, ∀ a ∈ t.acks, ∀ p ∈ a.2.2, p.1 ≠ off) ∧ ∀ n ∈ m.notices, ∀ p ∈ n.data.getD [], p.1 ≠ off := by
  unfold flightByte
  have key : ∀ l : List (Nat × Byte), l.find? (fun p => p.1 == off) = none ↔ ∀ p ∈ l, p.1 ≠ off := fun l => by
    rw [List.find?_eq_none]; simp
  constructor
  · intro h
    split at h
    · cases h
    · rename_i h1
      rw [Option.map_eq_none_iff, key] at h
      rw [key] at h1
      exact ⟨fun t ht a ha p hp => h1 p (List.mem_flatMap.2 ⟨t, ht, List.mem_flatMap.2 ⟨a, ha, hp⟩⟩),
        fun n hn p hp => h p (List.mem_flatMap.2 ⟨n, hn, hp⟩)⟩
  · rintro ⟨h1, h2⟩
    rw [(key _).2 fun p hp => by
      obtain ⟨t, ht, hp⟩ := List.mem_flatMap.1 hp
      obtain ⟨a, ha, hp⟩ := List.mem_flatMap.1 hp
      exact h1 t ht a ha p hp]
    dsimp only
    rw [(key _).2 fun p hp => by
      obtain ⟨n, hn, hp⟩ := List.mem_flatMap.1 hp
      exact h2 n hn p hp]
    rfl

theorem l2Cell_mem {l2 : List L2Block} {now die frame i : Nat} {c : L2Cell} (h : l2Cell l2 now die frame i = some c) :
    ∃ b ∈ l2, b.frame = frame ∧ b.start ≤ i ∧ b.cells[i - b.start]? = some c := by
  unfold l2Cell at h
  split at h
  · rename_i b hb
    have hp := List.find?_some hb
    simp only [Bool.and_eq_true, beq_iff_eq, decide_eq_true_eq] at hp
    exact ⟨b, List.mem_of_find?_eq_some hb, hp.1.1.1.2, hp.1.1.2, h⟩
  · cases h

/-- The modified bytes of cells of a frame are none of a byte that no slice holds modified. -/
theorem l2Dirty_ne {bs : List L2Block} {die frame off : Nat} {cs : List Nat} (hc : ∀ i ∈ cs, i < 16) (h : NoDirty bs off) :
    ∀ p ∈ l2Dirty bs die frame cs, p.1 ≠ off := by
  rintro p hp rfl
  unfold l2Dirty at hp
  obtain ⟨i, hi, hp⟩ := List.mem_flatMap.1 hp
  split at hp
  · rename_i c hcell
    split at hp
    · rename_i hd
      obtain ⟨q, hq, rfl⟩ := List.mem_map.1 hp
      have hr : q.2 < 32 := by
        have := (List.mem_zipIdx' hq).1
        unfold cellBytes at this
        have hl : ∀ x n : Nat, (natLe x n).length = n := by
          intro x n
          induction n generalizing x with
          | zero => rfl
          | succ n ih => exact congrArg (· + 1) (ih _)
        rwa [hl] at this
      have := hc i hi
      obtain ⟨b, hb, h1, h2, h3⟩ := l2Cell_mem hcell
      have := h b hb (by rw [h1]; unfold frameOf; dsimp only; omega) _ c h3 (by unfold cellIn; dsimp only; omega)
      rw [this] at hd; cases hd
    · cases hp
  · cases hp

theorem memByte_l2 (m : Mem) (l2 : List L2Block) (off : Nat) : memByte { m with l2 := l2 } off = memByte m off := rfl

/-- Bytes merged into the home's copy leave the others alone. -/
theorem memByte_merge {ps : List (Nat × Byte)} {off : Nat} (f : Mem → Nat × Byte → Mem) (hf : ∀ m p, f m p = m ∨ f m p = memSet m p.1 p.2)
    (h : ∀ p ∈ ps, p.1 ≠ off) (m : Mem) : memByte (ps.foldl f m) off = memByte m off := by
  refine List.foldlRecOn (motive := fun x : Mem => memByte x off = memByte m off) ps f rfl fun x hx p hp => ?_
  rcases hf x p with e | e <;> rw [e]
  · exact hx
  · rw [memByte_memSet, if_neg (Ne.symm (h p hp)), hx]

theorem merge_only {ps : List (Nat × Byte)} (f : Mem → Nat × Byte → Mem) (hf : ∀ m p, f m p = m ∨ f m p = memSet m p.1 p.2) (m : Mem) :
    ∃ b, ps.foldl f m = { m with bytes := b } := by
  refine List.foldlRecOn (motive := fun x : Mem => ∃ b, x = { m with bytes := b }) ps f ⟨m.bytes, rfl⟩ fun x ⟨b, hx⟩ p _ => ?_
  rcases hf x p with e | e <;> rw [e, hx]
  · exact ⟨b, rfl⟩
  · exact ⟨_, rfl⟩

/-- The recall of a grain changes bytes and marks of modified cells alone. -/
theorem recallGrain_only (m : Mem) (g size : Nat) : ∃ b l2, recallGrain m g size = { m with bytes := b, l2 := l2 } := by
  unfold recallGrain
  dsimp only
  generalize (m.l2.filter fun b => b.frame == frameOf g).map (fun b => b.die) = ds
  have : ∃ b, ds.foldl (fun x d => (l2Dirty m.l2 d (frameOf g) (grainCells g size)).foldl
      (fun x p => if homeWritten m p.1 then x else memSet x p.1 p.2) x) m = { m with bytes := b } := by
    refine List.foldlRecOn (motive := fun x : Mem => ∃ b, x = { m with bytes := b }) ds _ ⟨m.bytes, rfl⟩ fun x ⟨b, hx⟩ d _ => ?_
    obtain ⟨b', h⟩ := merge_only (fun x p => if homeWritten m p.1 then x else memSet x p.1 p.2)
      (fun x p => by split; exacts [.inl rfl, .inr rfl]) (ps := l2Dirty m.l2 d (frameOf g) (grainCells g size)) x
    exact ⟨b', by rw [h, hx]⟩
  obtain ⟨b, hb⟩ := this
  rw [hb]
  exact ⟨b, _, rfl⟩

theorem recallGrain_noDirty {m : Mem} {g size off : Nat} (h : NoDirty m.l2 off ∨ (frameOf g = frameOf off ∧ cellIn off ∈ grainCells g size)) :
    NoDirty (recallGrain m g size).l2 off := by
  intro b hb hf j c hc hj
  obtain ⟨b0, hb0, rfl⟩ := List.mem_map.1 hb
  by_cases hfr : (b0.frame == frameOf g) = true
  · rw [if_pos hfr] at hf hc hj
    dsimp only at hf hc hj
    rw [List.getElem?_mapIdx] at hc
    obtain ⟨c0, hc0, hc⟩ := Option.map_eq_some_iff.1 hc
    split at hc
    · rw [← hc]
    · rename_i hn
      rw [← hc]
      rcases h with h | ⟨_, h⟩
      · exact h b0 hb0 hf j c0 hc0 hj
      · rw [hj, List.contains_eq_mem, decide_eq_true_iff] at hn
        exact absurd h hn
  · rw [if_neg hfr] at hf hc hj
    rcases h with h | ⟨h, _⟩
    · exact h b0 hb0 hf j c hc hj
    · rw [hf, h, beq_self_eq_true] at hfr
      exact absurd rfl hfr

theorem recallGrain_byte {m : Mem} {g size off : Nat} (hs : size = 32 ∨ size = 128 ∨ size = 512) (hg : g % size = 0) (h : NoDirty m.l2 off) :
    memByte (recallGrain m g size) off = memByte m off := by
  unfold recallGrain
  dsimp only
  rw [memByte_l2]
  refine List.foldlRecOn (motive := fun x : Mem => memByte x off = memByte m off) _ _ rfl fun x hx d _ => ?_
  exact (memByte_merge _ (fun x p => by split; exacts [.inl rfl, .inr rfl]) (l2Dirty_ne (fun i => grainCells_lt hs hg) h) x).trans hx

/-- The blocks that a rebuilt frame of a slice holds modified come from its cell function. -/
theorem rebuild_noDirty {old : List L2Block} {die frame off : Nat} {g : L2Tag} {st : Bool} {new : List Nat} {f : Nat → Option (L2Cell × Option Nat)}
    (h : frame = frameOf off → ∀ c t, f (cellIn off) = some (c, t) → c.dirty = false) : NoDirty (l2Rebuild old die frame g st new f) off := by
  intro b hb hf j c hc hj
  unfold l2Rebuild at hb
  obtain ⟨t, -, hb⟩ := List.mem_flatMap.1 hb
  obtain ⟨r, -, rfl⟩ := List.mem_map.1 hb
  dsimp only at hf hc hj
  rw [List.getElem?_map] at hc
  obtain ⟨x, hx, hc⟩ := Option.map_eq_some_iff.1 hc
  have hxj : x = j := by
    obtain ⟨h1, h2⟩ := List.getElem?_eq_some_iff.1 hx
    rw [List.getElem_range] at h2
    exact h2.symm
  rw [hxj, hj] at hc
  cases hfc : f (cellIn off) with
  | none => rw [hfc] at hc; rw [← hc]; rfl
  | some p =>
    rw [hfc] at hc
    rw [← hc]
    exact h hf p.1 p.2 hfc

theorem l2Held_noDirty {bs : List L2Block} {die frame off : Nat} {c : L2Cell} {t : Option Nat} (h : NoDirty bs off) (hf : frame = frameOf off)
    (hc : l2Held bs die frame (cellIn off) = some (c, t)) : c.dirty = false := by
  unfold l2Held at hc
  obtain ⟨c', h1, h2⟩ := Option.map_eq_some_iff.1 hc
  cases h2
  obtain ⟨b, hb, k1, k2, k3⟩ := l2Cell_mem h1
  exact h b hb (k1.trans hf) _ _ k3 (by omega)

theorem NoDirty.filter {l2 : List L2Block} {off : Nat} (h : NoDirty l2 off) (p : L2Block → Bool) : NoDirty (l2.filter p) off :=
  fun b hb => h b (List.mem_of_mem_filter hb)

theorem NoDirty.append {a b : List L2Block} {off : Nat} (h : NoDirty a off) (k : NoDirty b off) : NoDirty (a ++ b) off := fun x hx =>
  (List.mem_append.1 hx).elim (h x) (k x)

theorem l2Remove_noDirty {m : Mem} {die f off : Nat} {cs : List Nat} (h : NoDirty m.l2 off) : NoDirty (l2Remove m die f cs).l2 off := by
  unfold l2Remove
  dsimp only
  split
  · exact h
  · refine (rebuild_noDirty fun hf c t hc => ?_).append (h.filter _)
    split at hc
    · cases hc
    · exact l2Held_noDirty (h.filter _) hf hc

/-- Cells put into a slice unmodified. -/
theorem l2Put_noDirty {m : Mem} {die f off : Nat} {g : L2Tag} {st : Bool} {ex : Option Nat} {new : List (Nat × L2Cell)}
    (h : NoDirty m.l2 off) (hn : f = frameOf off → ∀ p ∈ new, p.1 = cellIn off → p.2.dirty = false) : NoDirty (l2Put m die f g st ex new).l2 off := by
  refine (rebuild_noDirty fun hf c t hc => ?_).append (h.filter _)
  split at hc
  · rename_i p hp
    cases hc
    exact hn hf p (List.mem_of_find?_eq_some hp) (by simpa using List.find?_some hp)
  · exact l2Held_noDirty (h.filter _) hf hc

/-! ## What the home's side of memory can do -/

/-- From `m` to `m'` no operation in flight changes; the maps of bytes keep their canonical form and the directory its whole grains;
a byte that no other copy holds modified stays so, and is kept at its home where `P` does not name it. -/
structure MemSide (P : Nat → Prop) (m m' : Mem) : Prop where
  ops : m'.ops = m.ops
  canon : m.canonical → m'.canonical
  grains : GrainsOk m.dir → GrainsOk m'.dir
  bytes : GrainsOk m.dir → ∀ off, HomeAlone m off → HomeAlone m' off ∧ (¬ P off → memByte m' off = memByte m off)

/-- No byte at all. -/
def NoByte : Nat → Prop := fun _ => False

/-- The bytes of a run. -/
def RunOf (off n : Nat) : Nat → Prop := fun a => off ≤ a ∧ a < off + n

theorem MemSide.refl (P : Nat → Prop) (m : Mem) : MemSide P m m := ⟨rfl, id, id, fun _ _ h => ⟨h, fun _ => rfl⟩⟩

theorem MemSide.trans {P : Nat → Prop} {a b c : Mem} (h : MemSide P a b) (k : MemSide P b c) : MemSide P a c :=
  ⟨k.ops.trans h.ops, k.canon ∘ h.canon, k.grains ∘ h.grains, fun hg off ha =>
    let ⟨h1, h2⟩ := h.bytes hg off ha
    let ⟨k1, k2⟩ := k.bytes (h.grains hg) off h1
    ⟨k1, fun hp => (k2 hp).trans (h2 hp)⟩⟩

theorem MemSide.mono {P Q : Nat → Prop} {a b : Mem} (h : MemSide P a b) (hpq : ∀ off, P off → Q off) : MemSide Q a b :=
  ⟨h.ops, h.canon, h.grains, fun hg off ha => let ⟨h1, h2⟩ := h.bytes hg off ha; ⟨h1, fun hq => h2 fun hp => hq (hpq off hp)⟩⟩

theorem MemSide.of_none {P : Nat → Prop} {a b : Mem} (h : MemSide NoByte a b) : MemSide P a b := h.mono fun _ h => h.elim

/-- Everything that counts of a memory but the LLC, the home slices and what the cores hold, unchanged. -/
theorem MemSide.same {m m' : Mem} (h1 : m'.ops = m.ops) (h2 : m'.bytes = m.bytes) (h3 : m'.keys = m.keys) (h4 : m'.l2 = m.l2) (h5 : m'.dir = m.dir)
    (h6 : m'.txns = m.txns) (h7 : m'.notices = m.notices) (h8 : m.canonical → m'.canonical) : MemSide NoByte m m' := by
  refine ⟨h1, h8, fun h => by rw [h5]; exact h, fun _ off ha => ⟨⟨?_, by rw [h4]; exact ha.2⟩, fun _ => ?_⟩⟩
  · rw [flight_none, h6, h7, ← flight_none]; exact ha.1
  · unfold memByte keyByte; rw [h2, h3]

theorem lpddrPut_side (m : Mem) (frame : Nat) (cs : List Nat) : MemSide NoByte m (lpddrPut m frame cs) :=
  .same rfl rfl rfl rfl rfl rfl rfl (lpddrPut_canonical m frame cs)

theorem llcPut_side (m : Mem) (frame wayp policy : Nat) (x y : BitVec 16) : MemSide NoByte m (llcPut m frame wayp policy x y) := by
  have hc := llcPut_canonical m frame wayp policy x y
  unfold llcPut at *
  split
  · exact .same rfl rfl rfl rfl rfl rfl rfl id
  · rename_i h
    rw [if_neg h] at hc
    dsimp only at hc ⊢
    split
    · exact .same rfl rfl rfl rfl rfl rfl rfl id
    · exact .same rfl rfl rfl rfl rfl rfl rfl (lpddrPut_canonical m _ _)

theorem recallGrain_side (m : Mem) {g size : Nat} (h : GrainsOk m.dir → (size = 32 ∨ size = 128 ∨ size = 512) ∧ g % size = 0) :
    MemSide NoByte m (recallGrain m g size) := by
  obtain ⟨b, l2, he⟩ := recallGrain_only m g size
  refine ⟨by rw [he], recallGrain_canonical m g size, fun h => by rw [he]; exact h, fun hg off ha => ⟨⟨?_, recallGrain_noDirty (.inl ha.2)⟩,
    fun _ => recallGrain_byte (h hg).1 (h hg).2 ha.2⟩⟩
  rw [he]
  exact ha.1

theorem growRecall_side (m : Mem) (off size : Nat) : MemSide NoByte m (growRecall m off size) := by
  unfold growRecall
  dsimp only
  split
  · exact recallGrain_side m fun hg => dirGrow_ok hg off size
  · exact .refl _ m

theorem growRecall_dir (m : Mem) (off size : Nat) : (growRecall m off size).dir = m.dir := by
  unfold growRecall
  dsimp only
  split
  · obtain ⟨b, l2, h⟩ := recallGrain_only m (dirGrow m.dir off size).grain (dirGrow m.dir off size).size
    rw [h]
  · rfl

theorem dirPut_side (m : Mem) {now : Nat} {e : DirEntry} (h : GrainsOk m.dir → GrainOk e) : MemSide NoByte m { m with dir := dirPut now m.dir e } :=
  ⟨rfl, id, fun hg => dirPut_ok hg (h hg), fun _ _ ha => ⟨ha, fun _ => rfl⟩⟩

theorem homePut_side (m : Mem) (off : Nat) (bs : List Byte) : MemSide (RunOf off bs.length) m (homePut m off bs) := by
  obtain ⟨b, h⟩ := memPut_only bs m off
  refine ⟨by unfold homePut; rw [h], homePut_canonical m off bs, fun hg => by unfold homePut; rw [h]; exact hg, fun _ a ha => ⟨?_, fun hn => ?_⟩⟩
  · unfold homePut; rw [h]; exact ha
  · unfold homePut
    rw [memByte_memPut]
    exact if_neg hn

theorem forgetFlight_side (m : Mem) (off n : Nat) : MemSide NoByte m (forgetFlight m off n) := by
  refine ⟨rfl, id, id, fun _ a ha => ⟨⟨?_, ha.2⟩, fun _ => rfl⟩⟩
  obtain ⟨h1, h2⟩ := flight_none.1 ha.1
  refine flight_none.2 ⟨fun t ht a ha p hp => ?_, fun x hx p hp => ?_⟩
  · obtain ⟨t', ht', rfl⟩ := List.mem_map.1 ht
    obtain ⟨a', ha', rfl⟩ := List.mem_map.1 ha
    exact h1 t' ht' a' ha' p (List.mem_of_mem_filter hp)
  · obtain ⟨x', hx', rfl⟩ := List.mem_map.1 hx
    cases hd : x'.data with
    | none => rw [hd] at hp; cases hp
    | some d =>
      rw [hd] at hp
      exact h2 x' hx' p (by rw [hd]; exact List.mem_of_mem_filter hp)

theorem mergeBytes_side (m : Mem) (t : Option Txn) (bs : List (Nat × Byte)) : MemSide (fun off => ∃ p ∈ bs, p.1 = off) m (mergeBytes m t bs) := by
  have hf : ∀ (m : Mem) (p : Nat × Byte), (match t with
      | some t => if t.own == none && decide (t.wpa ≤ p.1) && decide (p.1 < t.wpa + t.wlen) then m else memSet m p.1 p.2
      | none => memSet m p.1 p.2) = m ∨ (match t with
      | some t => if t.own == none && decide (t.wpa ≤ p.1) && decide (p.1 < t.wpa + t.wlen) then m else memSet m p.1 p.2
      | none => memSet m p.1 p.2) = memSet m p.1 p.2 := fun m p => by
    cases t with
    | none => exact .inr rfl
    | some t => dsimp only; split; exacts [.inl rfl, .inr rfl]
  obtain ⟨b, he⟩ := merge_only _ hf (ps := bs) m
  have he' : mergeBytes m t bs = { m with bytes := b } := he
  refine ⟨by rw [he'], mergeBytes_canonical m t bs, fun hg => by rw [he']; exact hg, fun _ off ha => ⟨by rw [he']; exact ha, fun hn => ?_⟩⟩
  exact memByte_merge _ hf (fun p hp e => hn ⟨p, hp, e⟩) m

/-! ## The state around it -/

/-- Of the machine nothing changes but the home's side of memory and the numbers given out. -/
structure HomeSide (P : Nat → Prop) (s t : State) : Prop where
  exe : OnlyIds s t
  ids : s.exe.nextId ≤ t.exe.nextId
  ctl : t.ctl = s.ctl
  sys : t.sys = s.sys
  mem : MemSide P s.mem t.mem

theorem HomeSide.refl (P : Nat → Prop) (s : State) : HomeSide P s s := ⟨rfl, Nat.le_refl _, rfl, rfl, .refl P _⟩

theorem HomeSide.trans {P : Nat → Prop} {a b c : State} (h : HomeSide P a b) (k : HomeSide P b c) : HomeSide P a c :=
  ⟨by rw [OnlyIds, k.exe, h.exe], h.ids.trans k.ids, k.ctl.trans h.ctl, k.sys.trans h.sys, h.mem.trans k.mem⟩

theorem HomeSide.mono {P Q : Nat → Prop} {a b : State} (h : HomeSide P a b) (hpq : ∀ off, P off → Q off) : HomeSide Q a b :=
  ⟨h.exe, h.ids, h.ctl, h.sys, h.mem.mono hpq⟩

theorem HomeSide.of_none {P : Nat → Prop} {a b : State} (h : HomeSide NoByte a b) : HomeSide P a b := h.mono fun _ h => h.elim

theorem HomeSide.of_mem {P : Nat → Prop} {s : State} {m : Mem} (h : MemSide P s.mem m) : HomeSide P s { s with mem := m } :=
  ⟨rfl, Nat.le_refl _, rfl, rfl, h⟩

theorem HomeSide.foldl {P : Nat → Prop} {α : Type} {f : State → α → State} {L : List α} (hf : ∀ s, ∀ x ∈ L, HomeSide P s (f s x)) (s : State) :
    HomeSide P s (L.foldl f s) :=
  List.foldlRecOn L f (.refl P s) fun t h x hx => h.trans (hf t x hx)

/-- A byte at its home, read as before. -/
theorem HomeSide.byte {P : Nat → Prop} {s t : State} (h : HomeSide P s t) (hg : GrainsOk s.mem.dir) {off : Nat} (hp : ¬ P off) (ha : HomeAlone s.mem off) :
    HomeAlone t.mem off ∧ homeByte t off = homeByte s off := by
  obtain ⟨h1, h2⟩ := h.mem.bytes hg off ha
  exact ⟨h1, by unfold homeByte; rw [coByte_alone h1, coByte_alone ha, h2 hp]⟩

theorem evictHome_side (s : State) (v : HomeBlock) : HomeSide NoByte s (evictHome s v) := by
  have h0 : MemSide NoByte s.mem { s.mem with homeBlocks := s.mem.homeBlocks.filter fun b => b != v } := .same rfl rfl rfl rfl rfl rfl rfl id
  refine .of_mem ?_
  dsimp only
  split
  · exact h0
  · exact h0.trans (llcPut_side _ _ _ _ _ _)

theorem mem_uniq {α : Type} [DecidableEq α] {l : List α} {x : α} (h : x ∈ uniq l) : x ∈ l := by
  unfold uniq at h
  refine List.foldlRecOn (motive := fun acc : List α => x ∈ acc → x ∈ l) l _ (fun h => by cases h) (fun acc hacc y hy hx => ?_) h
  split at hx
  · exact hacc hx
  · exact (List.mem_append.1 hx).elim hacc fun hx => by rw [List.mem_singleton.1 hx]; exact hy

theorem blockGrains_ok {m : Mem} {v : L2Block} (hg : GrainsOk m.dir) {g : Nat × Nat} (h : g ∈ blockGrains m v) :
    (g.2 = 32 ∨ g.2 = 128 ∨ g.2 = 512) ∧ g.1 % g.2 = 0 := by
  obtain ⟨j, -, hj⟩ := List.mem_filterMap.1 (mem_uniq h)
  obtain ⟨e, he, rfl⟩ := Option.map_eq_some_iff.1 hj
  exact hg e (List.mem_of_find?_eq_some he)

theorem evictLocal_side (s : State) (v : L2Block) : HomeSide NoByte s (evictLocal s v) := by
  refine ⟨rfl, Nat.le_add_right _ _, rfl, rfl, rfl, id, id, fun hg off ha => ⟨⟨?_, NoDirty.filter ha.2 _⟩, fun _ => rfl⟩⟩
  obtain ⟨h1, h2⟩ := flight_none.1 ha.1
  refine flight_none.2 ⟨h1, fun n hn p hp => ?_⟩
  rcases List.mem_append.1 hn with hn | hn
  · exact h2 n hn p hp
  · obtain ⟨g, hgm, rfl⟩ := List.mem_map.1 hn
    have hok := blockGrains_ok hg (List.fst_mem_of_mem_zipIdx hgm)
    dsimp only at hp
    split at hp
    · cases hp
    · exact l2Dirty_ne (fun i hi => grainCells_lt hok.1 hok.2 (List.mem_of_mem_filter hi)) ha.2 p hp

theorem trimSet_side (die frame f : Nat) (s : State) : HomeSide NoByte s (trimSet die frame f s) := by
  induction f generalizing s with
  | zero => exact .refl _ s
  | succ f ih =>
    unfold trimSet
    split
    · exact .refl _ s
    · dsimp only
      split
      · exact .refl _ s
      · exact (evictHome_side s _).trans (ih _)
      · exact (evictLocal_side s _).trans (ih _)
      · split
        · exact (evictHome_side s _).trans (ih _)
        · exact (evictLocal_side s _).trans (ih _)

theorem trimL2_side (s : State) (die frame : Nat) : HomeSide NoByte s (trimL2 s die frame) := trimSet_side die frame 64 s

theorem dropAbove_side (s : State) (die frame top : Nat) : HomeSide NoByte s (dropAbove s die frame top) := by
  unfold dropAbove
  repeat' split
  all_goals first | exact .refl _ s | exact evictLocal_side s _

theorem homeAlloc_side (s : State) (frame : Nat) (cs : List Nat) (write whole : Bool) (policy wayp : Nat) :
    HomeSide NoByte s (homeAlloc s frame cs write whole policy wayp) := by
  unfold homeAlloc
  split
  · split
    · exact .of_mem (lpddrPut_side _ _ _)
    · exact .refl _ s
  · dsimp only
    refine HomeSide.trans (.of_mem ?_) (trimL2_side _ _ _)
    split
    · exact .same rfl rfl rfl rfl rfl rfl rfl id
    · exact (llcPut_side _ _ _ _ _ _).trans (.same rfl rfl rfl rfl rfl rfl rfl id)

/-- An entry put into the directory after what `h` says. -/
theorem MemSide.dirPut {P : Nat → Prop} {m m' : Mem} {now : Nat} {e : DirEntry} (h : MemSide P m m') (he : GrainsOk m.dir → GrainOk e) :
    MemSide P m { m' with dir := dirPut now m'.dir e } :=
  ⟨h.ops, h.canon, fun hg => dirPut_ok (h.grains hg) (he hg), h.bytes⟩

theorem HomeSide.dirPut {P : Nat → Prop} {s t : State} {now : Nat} {e : DirEntry} (h : HomeSide P s t) (he : GrainsOk s.mem.dir → GrainOk e) :
    HomeSide P s { t with mem := { t.mem with dir := Machine.dirPut now t.mem.dir e } } :=
  ⟨h.exe, h.ids, h.ctl, h.sys, h.mem.dirPut he⟩

/-- A transaction opened after what `h` says. -/
theorem HomeSide.openTxn {P : Nat → Prop} {s t : State} {e : DirEntry} (h : HomeSide P s t) (w : Writer) (own : Option Nat) (wpa wlen : Nat) (out : List Nat)
    (he : GrainsOk s.mem.dir → GrainOk e) : HomeSide P s (openTxn t e w own wpa wlen out) := by
  refine ⟨by rw [OnlyIds, Machine.openTxn, h.exe], h.ids.trans (Nat.le_succ _), h.ctl, h.sys, h.mem.ops, h.mem.canon,
    fun hg => dirPut_ok (h.mem.grains hg) (he hg), fun hg off ha => ?_⟩
  obtain ⟨ha, hb⟩ := h.mem.bytes hg off ha
  obtain ⟨h1, h2⟩ := flight_none.1 ha.1
  refine ⟨⟨?_, ha.2⟩, hb⟩
  refine flight_none.2 ⟨fun t ht a hta p hp => ?_, h2⟩
  rcases List.mem_append.1 ht with ht | ht
  · exact h1 t ht a hta p hp
  · rw [List.mem_singleton.1 ht] at hta
    cases hta

theorem GrainOk.cleared {e : DirEntry} (h : GrainOk e) (now : Nat) : GrainOk (dirCleared now e) := h

/-- A transaction changed but for its acknowledgements. -/
theorem modTxns_side (m : Mem) (q : Txn → Bool) (f : Txn → Txn) (h : ∀ t, (f t).acks = t.acks) : MemSide NoByte m { m with txns := modIf m.txns q f } := by
  refine ⟨rfl, id, id, fun _ off ha => ⟨⟨?_, ha.2⟩, fun _ => rfl⟩⟩
  obtain ⟨h1, h2⟩ := flight_none.1 ha.1
  refine flight_none.2 ⟨fun t ht => ?_, h2⟩
  obtain ⟨t', ht', rfl⟩ := List.mem_map.1 ht
  split
  · rw [h]; exact h1 t' ht'
  · exact h1 t' ht'

/-- A WRITE within a cell: of the home's copies no byte but those written changes (R326). -/
theorem homeWriteCell_side (s : State) (w : Writer) (leaf off : Nat) (bs : List Byte) :
    HomeSide (RunOf off bs.length) s (homeWriteCell s w leaf off bs) := by
  unfold homeWriteCell
  dsimp only
  have h1 := growRecall_side s.mem off (leafGrain leaf)
  generalize growRecall s.mem off (leafGrain leaf) = m1 at h1
  have he : GrainsOk s.mem.dir → GrainOk (dirGrow m1.dir off (leafGrain leaf)) := fun hg => dirGrow_ok (h1.grains hg) off _
  split
  · refine HomeSide.trans (.of_mem ?_) (homeAlloc_side _ _ _ _ _ _ _).of_none
    exact (h1.trans (((recallGrain_side m1 fun hg => dirGrow_ok hg off _).trans (forgetFlight_side _ _ _)))).of_none.trans
      ((homePut_side _ off bs).trans (MemSide.of_none (modTxns_side _ _ _ fun _ => rfl)))
  · have h2 : HomeSide (RunOf off bs.length) s (homeAlloc { s with mem := homePut m1 off bs } (frameOf off) [cellIn off] true (bs.length == 32)
        (leafPolicy leaf) (leafWayp leaf)) :=
      HomeSide.trans (.of_mem (h1.of_none.trans (homePut_side m1 off bs))) (homeAlloc_side _ _ _ _ _ _ _).of_none
    split
    · exact h2.dirPut he
    · exact h2.openTxn _ _ _ _ _ he

/-- The bytes of a WRITE within a cell stand at their home. -/
theorem homeWriteCell_mem {s : State} (hg : GrainsOk s.mem.dir) (w : Writer) (leaf off : Nat) (bs : List Byte) {a : Nat} (ha : HomeAlone s.mem a)
    (hr : RunOf off bs.length a) : memByte (homeWriteCell s w leaf off bs).mem a = bs.getD (a - off) 0 := by
  have put : ∀ m, memByte (homePut m off bs) a = bs.getD (a - off) 0 := fun m => by
    unfold homePut; rw [memByte_memPut]; exact if_pos hr
  unfold homeWriteCell
  dsimp only
  have h1 := growRecall_side s.mem off (leafGrain leaf)
  generalize growRecall s.mem off (leafGrain leaf) = m1 at h1
  obtain ⟨a1, -⟩ := h1.bytes hg a ha
  split
  · have h2 := (recallGrain_side m1 fun hg => dirGrow_ok hg off (leafGrain leaf)).trans (forgetFlight_side _ off bs.length)
    obtain ⟨a2, -⟩ := h2.bytes (h1.grains hg) a a1
    have h3 := (homePut_side (forgetFlight (recallGrain m1 (dirGrow m1.dir off (leafGrain leaf)).grain
      (dirGrow m1.dir off (leafGrain leaf)).size) off bs.length) off bs).trans (MemSide.of_none (modTxns_side _ (fun t => decide (t.grain ≤ off) && decide (off < t.grain + t.size))
      (fun t => { t with also := w :: t.also }) fun _ => rfl))
    obtain ⟨a3, -⟩ := h3.bytes (h2.grains (h1.grains hg)) a a2
    exact (((homeAlloc_side _ _ _ _ _ _ _).mem.bytes (h3.grains (h2.grains (h1.grains hg))) a a3).2 id).trans (put _)
  · have h2 := homePut_side m1 off bs
    obtain ⟨a2, -⟩ := h2.bytes (h1.grains hg) a a1
    have h4 := ((homeAlloc_side { s with mem := homePut m1 off bs } (frameOf off) [cellIn off] true (bs.length == 32) (leafPolicy leaf)
      (leafWayp leaf)).mem.bytes (h2.grains (h1.grains hg)) a a2).2 id
    split <;> exact h4.trans (put _)

theorem cellPieces_run (off : Nat) (bs : List Byte) (f : Nat) : ∀ p ∈ cellPieces off bs f, ∀ a, RunOf p.1 p.2.length a → RunOf off bs.length a := by
  induction f generalizing off bs with
  | zero => intro p hp; cases hp
  | succ f ih =>
    intro p hp a ha
    unfold cellPieces at hp
    split at hp
    · cases hp
    · unfold RunOf at *
      rcases List.mem_cons.1 hp with rfl | hp
      · dsimp only at ha
        rw [List.length_take] at ha
        omega
      · have := ih _ _ p hp a ha
        rw [List.length_drop] at this
        have hb : 32 - off % 32 ≤ bs.length ∨ bs.length < 32 - off % 32 := by omega
        omega

/-- A WRITE at its home (R326): of the home's copies no byte but those written changes, and of the rest of the machine nothing. -/
theorem homeWrite_side (s : State) (w : Writer) (leaf off : Nat) (bs : List Byte) : HomeSide (RunOf off bs.length) s (homeWrite s w leaf off bs) :=
  .foldl (fun s p hp => by
    split
    · exact (homeWriteCell_side s w leaf p.1 p.2).mono (cellPieces_run off bs _ p hp)
    · exact .refl _ _) s

/-- The bytes of a WRITE at their home are what the next read finds (R326). -/
theorem homeWrite_mem {s : State} (hg : GrainsOk s.mem.dir) (w : Writer) (leaf off : Nat) (bs : List Byte) {a : Nat} (ha : HomeAlone s.mem a)
    (hu : homeUp s a = true) (hr : RunOf off bs.length a) : memByte (homeWrite s w leaf off bs).mem a = bs.getD (a - off) 0 := by
  have step : ∀ (s : State) (p : Nat × List Byte), HomeSide (RunOf p.1 p.2.length) s (if homeUp s p.1 then homeWriteCell s w leaf p.1 p.2 else s) := fun s p => by
    split
    · exact homeWriteCell_side s w leaf p.1 p.2
    · exact .refl _ _
  unfold homeWrite
  have hf : bs.length + off % 32 ≤ 32 * (bs.length / 32 + 2) := by omega
  generalize bs.length / 32 + 2 = f at hf
  induction f generalizing s off bs with
  | zero => unfold RunOf at hr; omega
  | succ f ih =>
    unfold RunOf at hr
    have hne : bs.isEmpty = false := by cases bs with
      | nil => simp only [List.length_nil] at hr; omega
      | cons _ _ => rfl
    unfold cellPieces
    rw [hne]
    simp only [Bool.false_eq_true, if_false, List.foldl_cons]
    have h1 := step s (off, bs.take (32 - off % 32))
    by_cases hk : a < off + (32 - off % 32)
    · have hup : homeUp s off = true := by
        unfold homeUp homeDie at *
        rwa [show off / dieBytes = a / dieBytes by unfold dieBytes; omega]
      rw [if_pos hup] at h1 ⊢
      have hlen : RunOf off (bs.take (32 - off % 32)).length a := by
        unfold RunOf; rw [List.length_take]; omega
      have h2 : HomeSide (RunOf (off + (32 - off % 32)) (bs.drop (32 - off % 32)).length) _
          ((cellPieces (off + (32 - off % 32)) (bs.drop (32 - off % 32)) f).foldl (fun s p => if homeUp s p.1 then homeWriteCell s w leaf p.1 p.2 else s)
            (homeWriteCell s w leaf off (bs.take (32 - off % 32)))) :=
        .foldl (fun s p hp => (step s p).mono (cellPieces_run _ _ _ p hp)) _
      have h3 := (h2.mem.bytes (h1.mem.grains hg) a (h1.mem.bytes hg a ha).1).2 fun h => by unfold RunOf at h; omega
      refine h3.trans ((homeWriteCell_mem hg w leaf off _ ha hlen).trans ?_)
      rw [List.getD_eq_getElem?_getD, List.getD_eq_getElem?_getD, List.getElem?_take_of_lt (by omega)]
    · rw [ih (h1.mem.grains hg) (off + (32 - off % 32)) (bs.drop (32 - off % 32)) (h1.mem.bytes hg a ha).1
        (by unfold homeUp at *; rw [h1.sys]; exact hu) (by unfold RunOf; rw [List.length_drop]; omega) (by rw [List.length_drop]; omega)]
      rw [List.getD_eq_getElem?_getD, List.getD_eq_getElem?_getD, List.getElem?_drop, show 32 - off % 32 + (a - (off + (32 - off % 32))) = a - off by omega]

/-- What a read at the home finds after a WRITE of it. -/
theorem homeWrite_byte {s : State} (hg : GrainsOk s.mem.dir) (w : Writer) (leaf off : Nat) (bs : List Byte) {a : Nat} (ha : HomeAlone s.mem a)
    (hu : homeUp s a = true) (hr : RunOf off bs.length a) : homeByte (homeWrite s w leaf off bs) a = bs.getD (a - off) 0 :=
  (coByte_alone ((homeWrite_side s w leaf off bs).mem.bytes hg a ha).1).trans (homeWrite_mem hg w leaf off bs ha hu hr)

/-- A write of an engine: host memory, or the bytes at their home (R331, R326). -/
theorem engineWrite_side (s : State) (w : Writer) (leaf pa : Nat) (bs : List Byte) :
    HomeSide (RunOf (paOff pa) bs.length) s (engineWrite s w leaf pa bs) := by
  unfold engineWrite
  split
  · exact .of_mem ⟨rfl, fun h => ⟨h.1, h.2.1, smWf_smPut bs s.mem.host _ h.2.2⟩, id, fun _ _ ha => ⟨ha, fun _ => rfl⟩⟩
  · split
    · exact homeWrite_side s w leaf (paOff pa) bs
    · exact .refl _ s

/-- Bytes written at virtual addresses of a context: the machine beside memory stands as it was. -/
theorem writeVa_side {w : Writer} {at_ need : Nat} {c : Ctx} (bs : List Byte) {s t : State} {va : Nat} (h : writeVa s w at_ c va need bs = .ok t) :
    HomeSide (fun _ => True) s t := by
  induction bs generalizing s va with
  | nil => cases h; exact .refl _ _
  | cons b bs ih =>
    unfold writeVa at h
    split at h
    · cases h
    · exact ((engineWrite_side _ _ _ _ _).mono fun _ _ => trivial).trans (ih h)

theorem vaPutFor_side (s : State) (w : Writer) (c : Ctx) (va n v : Nat) : HomeSide (fun _ => True) s (vaPutFor s w c va n v) := by
  unfold vaPutFor
  cases h : writeVa s w 0 c va 0 (natLe v n) with
  | error f => exact .refl _ s
  | ok t => exact writeVa_side _ h

/-- What an engine can do to the rest of the machine beside contexts, kernels, queues and partials: numbers are given out, and the
home's side of memory changes. -/
structure EngineSide (P : Nat → Prop) (s t : State) : Prop where
  exe : OnlyIds s t
  sys : t.sys = s.sys
  mem : MemSide P s.mem t.mem

theorem EngineSide.refl (P : Nat → Prop) (s : State) : EngineSide P s s := ⟨rfl, rfl, .refl P _⟩

theorem EngineSide.trans {P : Nat → Prop} {a b c : State} (h : EngineSide P a b) (k : EngineSide P b c) : EngineSide P a c :=
  ⟨by rw [OnlyIds, k.exe, h.exe], k.sys.trans h.sys, h.mem.trans k.mem⟩

theorem HomeSide.engine {P : Nat → Prop} {s t : State} (h : HomeSide P s t) : EngineSide P s t := ⟨h.exe, h.sys, h.mem⟩

theorem EngineSide.of_ctl {P : Nat → Prop} (s : State) (c : Ctl) : EngineSide P s { s with ctl := c } := ⟨rfl, rfl, .refl P _⟩

/-! ## Reads at the home (R326, R187, R193) -/

theorem homeRecall_side (s : State) (a : Option Nat) (off size : Nat) : HomeSide NoByte s (homeRecall s a off size) := by
  unfold homeRecall
  dsimp only
  have h1 := growRecall_side s.mem off size
  generalize growRecall s.mem off size = m1 at h1
  split
  · exact .of_mem (h1.trans ((recallGrain_side m1 fun hg => dirGrow_ok hg off _).dirPut fun hg => dirGrow_ok hg off size))
  · exact .of_mem h1

theorem homeShare_side (s : State) (a off size : Nat) (lease : Word) : HomeSide NoByte s (homeShare s a off size lease) := by
  have h := homeRecall_side s (some a) off size
  exact h.dirPut fun hg => (dirGrow_ok (h.mem.grains hg) off size).add a

theorem l2Put_side (m : Mem) (die f : Nat) (g : L2Tag) (st : Bool) (ex : Option Nat) (new : List (Nat × L2Cell)) (hn : ∀ p ∈ new, p.2.dirty = false) :
    MemSide NoByte m (l2Put m die f g st ex new) :=
  ⟨rfl, id, id, fun _ _ ha => ⟨⟨ha.1, l2Put_noDirty ha.2 fun _ p hp _ => hn p hp⟩, fun _ => rfl⟩⟩

theorem l2Remove_side (m : Mem) (die f : Nat) (cs : List Nat) : MemSide NoByte m (l2Remove m die f cs) := by
  have h := fun off => l2Remove_noDirty (m := m) (die := die) (f := f) (cs := cs) (off := off)
  unfold l2Remove at *
  dsimp only at h ⊢
  split
  · exact .refl _ m
  · rename_i hm
    simp only [hm, Bool.false_eq_true, if_false] at h
    exact ⟨rfl, id, id, fun _ off ha => ⟨⟨ha.1, h off ha.2⟩, fun _ => rfl⟩⟩

theorem readGrain_side (s : State) (a : Nat) (g : L2Tag) (wayp off size : Nat) : HomeSide NoByte s (readGrain s a g wayp off size) := by
  unfold readGrain
  dsimp only
  have h := homeRecall_side s (some a) off size
  generalize homeRecall s (some a) off size = s1 at h
  have he : GrainsOk s.mem.dir → GrainOk (dirAdd (dirGrow s1.mem.dir off size) a) := fun hg => (dirGrow_ok (h.mem.grains hg) off size).add a
  refine HomeSide.dirPut (t := { homeAlloc _ _ _ _ _ _ _ with mem := _ }) ((h.trans (homeAlloc_side _ _ _ _ _ _ _)).trans (.of_mem (l2Put_side _ _ _ _ _ _ _ ?_))) he
  rintro p hp
  obtain ⟨i, -, rfl⟩ := List.mem_map.1 hp
  rfl

theorem readRange_side (s : State) (a : Nat) (g : L2Tag) (wayp frame size : Nat) (w : Nat × Nat) : HomeSide NoByte s (readRange s a g wayp frame size w) :=
  HomeSide.trans (.foldl (fun s i _ => by
    dsimp only
    split
    · exact .refl _ s
    · exact readGrain_side _ _ _ _ _ _) s) (trimL2_side _ _ _)

end Sys2Proof.Machine
end

