-- ==== Sys2Proof/Laws/Tree.lean ====
section
/-! SUPPORT. Laws/Tree.lean: the instructions of the tree at issue, and the path of a partial. -/

namespace Sys2Proof.Machine

/-- An instruction that issues one operation for each slice, over a state of its own with the same memory. -/
theorem ops_over {s s1 : State} {e : Iss} {j : Iss → Judge} {b : Iss → Eff} {cl : Nat → Cls}
    {mem : Mem} {mk : Nat → Nat → Nat → MemOp} {kind : Nat → OpKind} {Q : MemOp → Prop} (h : issOf s = some e) (hroom : RoomForTraps e)
    (hj : j e = .go) (hg : (b e).g = (opsBody e cl mem mk).g) (hm0 : (b e).st.mem = (opsBody e cl mem mk).st.mem)
    (hst : OnlyGang { s1 with mem := (b e).st.mem } (b e).st e.gi) (hgs : (b e).st.exe.gangs = s.exe.gangs) (h1m : s1.mem = s.mem)
    (hm : AtCore s.mem mem)
    (hk : ∀ id iss k, (mk id iss k).slice = k ∧ (mk id iss k).id = id ∧ (mk id iss k).gang = e.gi ∧ (mk id iss k).core = e.core ∧
      (mk id iss k).part = e.kern.part ∧ (mk id iss k).ctx = e.kern.ctx ∧ (mk id iss k).pc = e.pc ∧ (mk id iss k).kind = kind k ∧
      (mk id iss k).cls = cl k ∧ (mk id iss k).scope = mScope (e.mode k) ∧ (mk id iss k).killed = false)
    (hQ : ∀ id k, k ∈ e.sls → Q (mk id s.exe.nextId k)) :
    ∃ t ops, issue s j b = .next t ∧ Issued s1 t e cl ops ∧ OpsOf s e kind cl ops ∧ ∀ o ∈ ops, Q o := by
  have hes := (issOf_some h).1
  have hsl : ∀ k, (b e).g.slices[k]? = (e.g.slices[k]?).map (stepCls e cl k) := by rw [hg]; exact opsBody_slices e cl mem mk
  have hfr : ∀ k, ((b e).g.sl k).stack = (e.g.sl k).stack ∧ ((b e).g.sl k).retired = (e.g.sl k).retired := by
    intro k
    have : (b e).g.sl k = ((e.g.slices[k]?).map (stepCls e cl k)).getD { pc := 0 } := by rw [← hsl]; rfl
    rw [this]
    show _ = ((e.g.slices[k]?).getD { pc := 0 }).stack ∧ _ = ((e.g.slices[k]?).getD { pc := 0 }).retired
    cases e.g.slices[k]? with
    | none => exact ⟨rfl, rfl⟩
    | some x =>
      dsimp only [Option.map_some, Option.getD_some]
      unfold stepCls
      split
      · exact ⟨(clsAdd_frame _ _).2.2.1, (clsAdd_frame _ _).2.2.2.2.2.2.2⟩
      · exact ⟨rfl, rfl⟩
  obtain ⟨t, g, h1, h2, h3, h4, h5, h6⟩ := issue_retires (j := j) (b := b) h hj hroom hgs (fun k => (hfr k).1) (by rw [hg]; simp [opsBody, Iss.adv])
    (fun k => (hfr k).2) (by rw [hg]; rfl)
  have hmt : t.mem = (b e).st.mem := h3.mem
  refine ⟨t, e.sls.zipIdx.map fun p => mk (s.exe.nextId + p.2) s.exe.nextId p.1, h1, ?_, opsOf_zip rfl hk, fun o ho => ?_⟩
  · refine issued_of (g := g) h2 ?_ ?_ ?_ ?_ ?_
    · exact (show SameFile e.g (b e).g by rw [hg]; exact ⟨rfl, rfl, rfl, rfl, rfl, rfl, rfl, rfl, rfl, rfl⟩).trans h4
    · rw [hmt]; exact hst.trans h3
    · exact advanced_of (F := stepCls e cl) h h6 hsl fun k x => by
        unfold stepCls
        split
        · obtain ⟨a1, a2, a3, a4, a5, a6, a7, a8⟩ := clsAdd_frame { x with pc := x.pc + 4 } (cl k)
          exact ⟨a1, a2, a3, a4, a5, a6, a7⟩
        · exact ⟨rfl, rfl, rfl, rfl, rfl, rfl, rfl⟩
    · intro k x hx
      rw [h5, ← stepCls_tally]
      have := hsl k
      rw [hx] at this
      rw [sl_of this]
    · rw [hmt, hm0, h1m]
      have := opsBody_mem e cl mem mk
      rw [hes] at this
      exact (hm.addOps _).trans this
  · obtain ⟨id, q, hq, rfl⟩ := mem_zipOps ho
    exact hQ id q hq

theorem zipIdx_rel {α : Type} (M : List α) (n : Nat) : List.Forall₂ (fun a x => x.1 = a) M (M.zipIdx n) := by
  have h := List.forall₂_map_left_iff (R := fun a (x : α × Nat) => x.1 = a) (f := Prod.fst) (l := M.zipIdx n) (u := M.zipIdx n)
  rw [List.zipIdx_map_fst] at h
  exact h.2 (List.forall₂_same.2 fun _ _ => rfl)

/-- The lanes that pass a test, beside what is made of each with its number. -/
theorem filter_rel {α β : Type} {R : α → β → Prop} {p : α → Bool} {g : α × Nat → β} {M : List α} (n : Nat) (h : ∀ l ∈ M, ∀ i, p l = true → R l (g (l, i))) :
    List.Forall₂ R (M.filter p) (((M.zipIdx n).filter fun x => p x.1).map g) := by
  have hf := List.rel_filter (R := fun a (x : α × Nat) => x.1 = a) (p := p) (q := fun x => p x.1) (fun a x (e : x.1 = a) => by subst e; exact Iff.rfl) (zipIdx_rel M n)
  rw [List.forall₂_map_right_iff]
  refine ((List.forall₂_and_left _ _).2 ⟨fun a ha => List.mem_filter.1 ha, hf⟩).imp ?_
  rintro a ⟨b, i⟩ ⟨⟨hm, hp⟩, rfl⟩
  exact h _ hm i hp

/-- The same over the slices of a cohort, one after another. -/
theorem flat_rel {α β : Type} {R : α → β → Prop} {F : Nat → List α} {G : Nat × Nat → List β} {L : List Nat} (n : Nat) (h : ∀ k i, List.Forall₂ R (F k) (G (k, i))) :
    List.Forall₂ R (L.flatMap F) ((L.zipIdx n).flatMap G) :=
  List.rel_flatMap (zipIdx_rel L n) (by rintro k ⟨_, i⟩ rfl; exact h _ i)

theorem handleDev_eq {h : Nat} : handleDev h = h / 2 ^ 22 % 2 ^ 9 := rfl

theorem noHandle_eq {h : Nat} (hh : h < 2 ^ 32) : noHandle h = false ↔ h < 2 ^ 31 := by
  unfold noHandle
  rw [Nat.testBit_eq_decide_div_mod_eq, decide_eq_false_iff_not]
  omega

theorem rdPair_lt (g : Gang) (l : Nat) (a : Byte) : rdPair g l a < 2 ^ 64 := by
  unfold rdPair
  have := BitVec.isLt (smGet g.regs (regKey l a.toNat))
  have := BitVec.isLt (smGet g.regs (regKey l (a.toNat + 1)))
  omega

theorem contribFault_none {e : Iss} {named : Bool} {a b : Byte} {l : Nat} (hl : l < 32) : contribFault e named a b l = none ↔ ContribOk e named a b l := by
  have h1 := rd_lt e.g l a hl
  have h2 := rdPair_lt e.g l b
  have hlab : labelLevel (rdPair e.g l b / 2 ^ 32) = rdPair e.g l b / 2 ^ 32 / 2 ^ 27 ∧ labelIndex (rdPair e.g l b / 2 ^ 32) = rdPair e.g l b / 2 ^ 32 % 2 ^ 27 := by
    unfold labelLevel labelIndex bits
    omega
  unfold contribFault ContribOk
  dsimp only
  have hx : contribX e b l = rdPair e.g l b / 2 ^ 32 := rfl
  have he : contribElem e b l = rdPair e.g l b % 2 ^ 32 := rfl
  rw [hx, he, hlab.1, hlab.2]
  by_cases h0 : noHandle (rd e.g l a) = true
  · rw [if_pos h0]
    simp only [reduceCtorEq, false_iff, not_and]
    intro h3
    rw [← noHandle_eq h1, h0] at h3; cases h3
  · have h0 : noHandle (rd e.g l a) = false := by simpa using h0
    have h3 := (noHandle_eq h1).1 h0
    rw [if_neg (by rw [h0]; decide), ← handleDev_eq]
    by_cases hd : handleDev (rd e.g l a) = ownDev e.s.sys
    · rw [if_neg (by simpa using hd)]
      simp only [h3, hd, true_and, true_implies]
      cases hacc : liveAcc (ownDev e.s.sys) e.ctx (rd e.g l a) with
      | none => simp
      | some acc =>
        dsimp only
        simp only [Option.some.injEq, exists_eq_left']
        by_cases hc : e.lty l ≠ accTy acc.fmt ∨ acc.ecount ≤ rdPair e.g l b % 2 ^ 32
        · rw [if_pos hc]
          simp only [reduceCtorEq, false_iff, not_and]
          intro h5 h6; omega
        · rw [if_neg hc]
          have h5 : e.lty l = accTy acc.fmt ∧ rdPair e.g l b % 2 ^ 32 < acc.ecount := by
            constructor
            · by_contra h; exact hc (.inl h)
            · by_contra h; exact hc (.inr (by omega))
          simp only [h5, true_and]
          cases named with
          | true => simp only [if_true]; split <;> simp_all
          | false =>
            simp only [Bool.false_eq_true, if_false]
            split <;> simp <;> omega
    · rw [if_pos (by simpa using hd)]
      simp only [h3, hd, false_implies, and_self]

theorem contribFault_some {e : Iss} {named : Bool} {a b : Byte} {l : Nat} {c : FaultCode} (h : contribFault e named a b l = some c) : c = .illegalOp := by
  unfold contribFault at h
  dsimp only at h
  repeat' split at h
  all_goals first | (cases h; rfl) | cases h

/-! ## Nodes (R261 to R263, R275): each step of the home's sequence leaves the rest of the machine alone -/

/-- Any byte may change. -/
def AnyByte : Nat → Prop := fun _ => True

theorem vaPut_side (s : State) (c : Ctx) (va n v : Nat) : HomeSide AnyByte s (vaPut s c va n v) := vaPutFor_side s .nobody c va n v

theorem vaBump_side (s : State) (c : Ctx) (va n : Nat) (d : Int) : HomeSide AnyByte s (vaBump s c va n d) := vaPut_side _ _ _ _ _

theorem setLeaves_side (s : State) (c : Ctx) (a : AccSlot) (e lo hi : Nat) : HomeSide AnyByte s (setLeaves s c a e lo hi) := vaPut_side _ _ _ _ _

theorem spillPut_side (s : State) (c : Ctx) (a : AccSlot) (i x : Nat) : HomeSide AnyByte s (spillPut s c a i x) := vaPut_side _ _ _ _ _

theorem spillClose_side (c : Ctx) (a : AccSlot) (f : Nat) (s : State) (i j : Nat) : HomeSide AnyByte s (spillClose c a f s i j) := by
  induction f generalizing s i j with
  | zero => exact .refl _ s
  | succ f ih =>
    unfold spillClose
    dsimp only
    repeat' split
    · exact .refl _ s
    · exact ((spillPut_side _ _ _ _ _).trans (spillPut_side _ _ _ _ _)).trans (ih _ _ _)
    · exact ih _ _ _

theorem spillRemove_side (s : State) (c : Ctx) (a : AccSlot) (i : Nat) : HomeSide AnyByte s (spillRemove s c a i) :=
  (spillPut_side _ _ _ _ _).trans (spillClose_side _ _ _ _ _ _)

theorem rootEvent_side (s : State) (c : Ctx) (a : AccSlot) (p : Partial) (home : Nat) : EngineSide AnyByte s (rootEvent s c a p home) := by
  unfold rootEvent
  repeat' split
  · exact .refl _ s
  · exact .of_ctl s _
  · exact (vaBump_side _ _ _ _ _).engine

theorem rootWrite_side (s : State) (c : Ctx) (a : AccSlot) (p : Partial) (home : Nat) : EngineSide AnyByte s (rootWrite s c a p home) :=
  ((vaPutFor_side _ _ _ _ _ _).trans (vaBump_side _ _ _ _ _)).engine.trans (rootEvent_side _ _ _ _ _)

theorem spillIn_side (s : State) (c : Ctx) (a : AccSlot) (p : Partial) (home : Nat) : EngineSide AnyByte s (spillIn s c a p home) := by
  unfold spillIn
  dsimp only
  split
  · exact .of_ctl s _
  · exact ((spillPut_side _ _ _ _ _).trans (vaBump_side _ _ _ _ _)).engine.trans (.of_ctl _ _)

/-- The loop of R275 changes memory at its homes, partials, faults and counters alone. -/
theorem homeLoop_side (c : Ctx) (a : AccSlot) (home f : Nat) (s : State) (p : Partial) : EngineSide AnyByte s (homeLoop c a home f s p) := by
  induction f generalizing s p with
  | zero => exact .refl _ s
  | succ f ih =>
    unfold homeLoop
    split
    · exact rootWrite_side _ _ _ _ _
    · split
      · exact (EngineSide.of_ctl s _).trans (ih _ _)
      · dsimp only
        split
        · exact ((spillRemove_side _ _ _ _).trans (vaBump_side _ _ _ _ _)).engine.trans (ih _ _)
        · split
          · exact spillIn_side _ _ _ _ _
          · exact .of_ctl s _

theorem modIf_map {ps : List Partial} {i : Nat} {l : PLoc} :
    modIf ps (fun q => q.id == i) (fun q => { q with loc := l }) = ps.map fun q => if q.id = i then { q with loc := l } else q := by
  unfold modIf
  refine List.map_congr_left fun q _ => ?_
  by_cases h : q.id = i
  · rw [if_pos h, if_pos (by simpa using h)]
  · rw [if_neg h, if_neg (by simpa using h)]

theorem accSlot_putSlot (c : Ctx) (a : AccSlot) (n : Nat) : accSlot (putSlot c a) n = if n = a.slot then a else accSlot c n := by
  unfold accSlot putSlot
  dsimp only
  rw [List.find?_cons]
  by_cases h : n = a.slot
  · rw [if_pos h, show (a.slot == n) = true by simp [h]]; rfl
  · rw [if_neg h, show (a.slot == n) = false by simpa using fun h' => h h'.symm]
    dsimp only
    congr 1
    rw [List.find?_filter]
    congr 1
    funext x
    by_cases hx : x.slot = n
    · simp [hx, h]
    · simp [hx]

theorem accSlot_slot (c : Ctx) (n : Nat) : (accSlot c n).slot = n := by
  unfold accSlot
  cases h : c.accs.find? fun a => a.slot == n with
  | none => rfl
  | some a => simpa using List.find?_some h

theorem parentOf_pairUp (a : AccSlot) (x q : Partial) : parentOf a x q (pairUp a.fmt a.nleaf x q) :=
  ⟨rfl, rfl, rfl, rfl, rfl, rfl, rfl, rfl, rfl, rfl⟩

theorem bufferArrive_top {a : AccSlot} {loc : PLoc} {fwd : Partial → PLoc} {cap now f k : Nat} {ps : List Partial} {p : Partial} (h : p.level = treeTop a.nleaf) :
    bufferArrive a loc fwd cap now (f + 1) ps p k = (ps ++ [{ p with loc := fwd p }], k) := by
  unfold bufferArrive; rw [if_pos h]

theorem bufferArrive_pair {a : AccSlot} {loc : PLoc} {fwd : Partial → PLoc} {cap now f k : Nat} {ps : List Partial} {p q : Partial} (h : p.level ≠ treeTop a.nleaf)
    (hq : ps.find? (fun q => q.loc == loc && !q.replay && isSibling p q) = some q) :
    bufferArrive a loc fwd cap now (f + 1) ps p k = bufferArrive a loc fwd cap now f (ps.filter fun x => x.id != q.id) (pairUp a.fmt a.nleaf p q) (k + 1) := by
  rw [bufferArrive, if_neg h, hq]

theorem bufferArrive_hold {a : AccSlot} {loc : PLoc} {fwd : Partial → PLoc} {cap now f k : Nat} {ps : List Partial} {p : Partial} (h : p.level ≠ treeTop a.nleaf)
    (hq : ps.find? (fun q => q.loc == loc && !q.replay && isSibling p q) = none) :
    bufferArrive a loc fwd cap now (f + 1) ps p k = (makeRoom ps loc fwd cap ++ [{ p with loc := loc, since := now }], k) := by
  rw [bufferArrive, if_neg h, hq]

end Sys2Proof.Machine
end

