-- ==== Sys2Proof/Laws/Regions.lean ====
section
/-! SUPPORT. Laws/Regions.lean: the instructions of regions at issue, and the samples that their homes take. -/

namespace Sys2Proof.Machine

/-- A quiet issue that leaves a slice running, over any change of the gang. -/
theorem quiet_over {s : State} {e : Iss} {j : Iss → Judge} {b : Iss → Eff} (h : issOf s = some e) (hj : j e = .go)
    (hq : Quiet e) (hst : (b e).st.exe.gangs = s.exe.gangs) {k : Nat} (hk : k ∈ e.sls)
    (hf : ((b e).g.sl k).finished = false) (hr : ((b e).g.sl k).regang = none)
    (hret : ∀ k ∈ e.sls, ((b e).g.sl k).retired = (e.g.sl k).retired)
    (hl : (b e).g.slices.length = e.g.slices.length) (hi : (b e).g.issues = e.g.issues) :
    ∃ t g, issue s j b = .next t ∧ Retired t e g ∧ OnlyGang (b e).st t e.gi ∧ SameFile (b e).g g ∧
      g.slices = (b e).g.slices.mapIdx fun k (x : Slice) => if e.mask.getLsbD k then { x with retired := x.retired + 1 } else x := by
  obtain ⟨g, h1, h2, h3, h4, h5⟩ := finish_quiet (r := b e) hq (by rw [hst]; exact issOf_gi_lt h) (sls_lt hk) hf hr
  refine ⟨_, g, issue_go h hj, ⟨h1, by rw [h2.issues, hi], ?_, h4⟩, h3, h2.file, h5⟩
  intro i hi2 his
  rw [h2.retired i (by rw [isSome_slices hl]; exact his), if_pos (getLsbD_of_mem_sls hi2), hret i hi2]

theorem getLsbD_sliceMask (k j : Nat) (p : Nat → Bool) (hj : j < 4) : (sliceMask k p).getLsbD j = p (4 * k + j) := by
  unfold sliceMask
  have : j = 0 ∨ j = 1 ∨ j = 2 ∨ j = 3 := by omega
  rcases this with rfl | rfl | rfl | rfl <;>
    (cases p (4 * k) <;> cases p (4 * k + 1) <;> cases p (4 * k + 2) <;> cases p (4 * k + 3) <;> rfl)

/-- A lane of a slice of the cohort runs where the slice's mask says so. -/
theorem mem_running {e : Iss} {l : Nat} : l ∈ e.running ↔ l < 32 ∧ e.mask.getLsbD (l / 4) = true ∧ runOn e.g l = true := by
  unfold Iss.running maskLanes
  simp only [List.mem_filter, List.mem_range, and_assoc]

theorem running_nodup (e : Iss) : e.running.Nodup := by
  unfold Iss.running maskLanes
  exact (List.nodup_range.filter _).filter _

/-- A map of counters after a run of increments, at distinct keys. -/
theorem smGet_foldSet {n : Nat} (key : Nat → Nat) (v : Nat → BitVec n) (L : List Nat) (m : SMap n) (k : Nat) (hn : (L.map key).Nodup) :
    (∀ l ∈ L, k = key l → smGet (L.foldl (fun m l => smSet m (key l) (v l)) m) k = v l) ∧
    ((∀ l ∈ L, k ≠ key l) → smGet (L.foldl (fun m l => smSet m (key l) (v l)) m) k = smGet m k) := by
  induction L generalizing m with
  | nil => exact ⟨fun _ h => absurd h (List.not_mem_nil), fun _ => rfl⟩
  | cons a L ih =>
    rw [List.map_cons, List.nodup_cons] at hn
    obtain ⟨i1, i2⟩ := ih (smSet m (key a) (v a)) hn.2
    refine ⟨fun l hl hk => ?_, fun hk => ?_⟩
    · rw [List.foldl_cons]
      rcases List.mem_cons.1 hl with rfl | hl
      · rw [i2 fun l' hl' he => hn.1 (by rw [← hk, he]; exact List.mem_map_of_mem hl'), smGet_smSet, if_pos hk]
      · exact i1 l hl hk
    · rw [List.foldl_cons, i2 fun l hl => hk l (List.mem_cons_of_mem _ hl), smGet_smSet, if_neg (hk a List.mem_cons_self)]

theorem opsSl {e : Iss} {cl : Nat → Cls} {g : Gang} {k : Nat} (h : g.slices[k]? = (e.g.slices[k]?).map (stepCls e cl k)) :
    (g.sl k).stack = (e.g.sl k).stack ∧ (g.sl k).retired = (e.g.sl k).retired := by
  have : g.sl k = ((e.g.slices[k]?).map (stepCls e cl k)).getD { pc := 0 } := by rw [← h]; rfl
  rw [this]
  show _ = ((e.g.slices[k]?).getD { pc := 0 }).stack ∧ _ = ((e.g.slices[k]?).getD { pc := 0 }).retired
  cases e.g.slices[k]? with
  | none => exact ⟨rfl, rfl⟩
  | some x =>
    dsimp only [Option.map_some, Option.getD_some]
    unfold stepCls
    split
    · exact ⟨(clsAdd_frame _ _).2.2.1, (clsAdd_frame _ _).2.2.2.2.2.2.2⟩
    · exact ⟨rfl, rfl⟩

theorem axRunFault_false {e : Iss} {id : Nat} {r : RLatch} {ds : List Byte} {f : List Byte → List (Byte × Nat)} (h : axRegion e id = some r)
    (hd : axDesc e r = some ds) (hf : ∀ p ∈ f ds, declRun e.n p.1 p.2 = true) : axRunFault e id f = false := by
  unfold axRunFault
  rw [h]
  dsimp only
  rw [hd]
  dsimp only
  rw [List.any_eq_false]
  intro p hp
  simp [hf p hp]

theorem axRunFault_none {e : Iss} {id : Nat} {f : List Byte → List (Byte × Nat)} (h : axRegion e id = none) : axRunFault e id f = true := by
  unfold axRunFault
  rw [h]

theorem axeFault_none {e : Iss} {id k : Nat} : axeFault e id k = none ↔ ∀ l ∈ lanesRunning e k, ∃ o ∈ e.g.opens, o.lane = l ∧ o.id = id := by
  unfold axeFault lanesRunning Iss.runOf
  split
  · rename_i h
    simp only [true_iff]
    intro l hl
    have := List.all_eq_true.1 h l hl
    simpa using this
  · rename_i h
    simp only [reduceCtorEq, false_iff]
    intro hc
    apply h
    rw [List.all_eq_true]
    intro l hl
    simpa using hc l hl

theorem excGet_side {s : State} {w : Writer} {at_ need : Nat} {c : Ctx} (va : Nat) (bs : List Byte) :
    HomeSide AnyByte s (excGet s (writeVa s w at_ c va need bs)) := by
  cases h : writeVa s w at_ c va need bs with
  | ok t => exact writeVa_side _ h
  | error _ => exact .refl _ s

theorem putEntries_side (s : State) (c : Ctx) (d : List Byte) (i : Nat) (es : List (List Byte)) : HomeSide AnyByte s (putEntries s c d i es) :=
  .foldl (fun _ _ _ => excGet_side _ _) s

/-- A sample of a region changes the region's own data alone (R356). -/
theorem insertSample_side (s : State) (c : Ctx) (va : Nat) (d : List Byte) (x : Sample) : HomeSide AnyByte s (insertSample s c va d x) := by
  unfold insertSample
  dsimp only
  repeat' split
  · exact vaBump_side _ _ _ _ _
  · exact (putEntries_side _ _ _ _ _).trans (vaPut_side _ _ _ _ _)
  · exact putEntries_side _ _ _ _ _
  · exact .refl _ s

/-- The check of a sample changes the region's own data alone (R353). -/
theorem checkSample_side (s : State) (c : Ctx) (va : Nat) (d : List Byte) (v : Nat) : HomeSide AnyByte s (checkSample s c va d v) := by
  unfold checkSample
  dsimp only
  have h : HomeSide AnyByte s (if cmpF (decodeF F32 (rgMaxerr d)) (decodeF F32 v) < 0 then vaPut (vaBump s c (va + 0x44) 4 1) c (va + 0x48) 4 v
      else vaBump s c (va + 0x44) 4 1) := by
    split
    · exact (vaBump_side _ _ _ _ _).trans (vaPut_side _ _ _ _ _)
    · exact vaBump_side _ _ _ _ _
  split
  · exact h.trans (vaPut_side _ _ _ _ _)
  · exact h

end Sys2Proof.Machine
end

