-- ==== Sys2Proof/Laws/Tiles.lean ====
section
/-! SUPPORT. Laws/Tiles.lean: the words of the matrix sequencer. -/

namespace Sys2Proof.Machine

theorem tissOf_s {s : State} {x : TIss} (h : tissOf s = some x) : x.s = s ∧ s.exe.groups[x.gid]? = some x.grp ∧ x.grp.tile = some x.t := by
  unfold tissOf at h
  split at h
  · cases h
  · split at h
    · cases h
    · rename_i gid _ grp hg
      split at h
      · rename_i t k ht hk
        split at h
        · cases h
        · split at h
          · cases h; exact ⟨rfl, hg, ht⟩
          · cases h
      · cases h

theorem tIssue_go {s : State} {x : TIss} {j : TIss → TJudge} {b : TIss → Group} (h : tissOf s = some x) (hj : j x = .go) :
    tIssue s j b = .next (wordDone s x { b x with tile := (b x).tile.map fun t => { t with lastPc := x.t.pc } }) := by
  unfold tIssue
  rw [h]
  dsimp only
  rw [hj]
  have := (tissOf_s h).1
  subst this
  rfl

theorem tIssue_fault {s : State} {x : TIss} {j : TIss → TJudge} {b : TIss → Group} {c : FaultCode} {i : Nat} {a : VAddr} {q : Instr}
    (h : tissOf s = some x) (hq : exec q s = tIssue s j b) (hj : j x = .fault c i a) : TileFaults s q x c i a := by
  have hs := (tissOf_s h).1
  refine ⟨_, tileRec x.s x.grp x.kern x.t c i a true, ?_, rfl, rfl, rfl, rfl, rfl, rfl, rfl, rfl, rfl⟩
  rw [hq]
  unfold tIssue
  rw [h]
  dsimp only
  rw [hj]
  subst hs
  rfl

theorem stepped_rules (rs : List TincRule) (p : SMap 32 × Nat) (hp : p.2 < 4) :
    Stepped rs p.1 (applyRules rs p).1 p.2 (applyRules rs p).2 ∧ (applyRules rs p).2 < 4 := by
  induction rs generalizing p with
  | nil =>
    refine ⟨⟨fun i => ?_, ?_⟩, hp⟩
    · show smGet p.1 i = _
      simp
    · show (p.2 : Int) = _
      simp only [List.map_nil, List.sum_nil, Int.add_zero]
      omega
  | cons r rs ih =>
    have hsg : ∀ st : BitVec 16, signed st.toNat 16 = st.toInt := by
      intro st
      rw [BitVec.toInt_eq_toNat_cond]
      unfold signed
      dsimp only
      rw [Nat.mod_eq_of_lt st.isLt]
      rfl
    have hw : ∀ z : Int, ((wrap z 2 : Nat) : Int) = z % 4 := by
      intro z
      unfold wrap
      exact Int.toNat_of_nonneg (Int.emod_nonneg _ (by decide))
    have hstep : (applyRule r p).2 < 4 ∧ (∀ i, smGet (applyRule r p).1 i = BitVec.ofInt 32 ((smGet p.1 i).toNat + stepT i r)) ∧
        ((applyRule r p).2 : Int) = (p.2 + stepAcc r) % 4 := by
      cases r with
      | off => exact ⟨hp, fun i => by simp [applyRule, stepT], by simp [applyRule, stepAcc]; omega⟩
      | treg x st =>
        refine ⟨hp, fun i => ?_, by simp [applyRule, stepAcc]; omega⟩
        show smGet (smSet _ _ _) i = _
        rw [smGet_smSet]
        unfold stepT
        by_cases hi : i = x
        · subst hi
          rw [if_pos rfl]
          dsimp only
          rw [if_pos rfl, hsg]
          apply BitVec.eq_of_toNat_eq
          unfold wrap
          rw [BitVec.toNat_ofNat, BitVec.toNat_ofInt]
          omega
        · rw [if_neg hi]
          dsimp only
          rw [if_neg (fun h => hi h.symm)]
          simp
      | acc st =>
        refine ⟨?_, fun i => by simp [applyRule, stepT], ?_⟩
        · have := hw ((p.2 : Int) + signed st.toNat 16)
          show wrap _ 2 < 4
          omega
        · show ((wrap _ 2 : Nat) : Int) = _
          rw [hw, hsg]
          rfl
    obtain ⟨⟨i1, i2⟩, i3⟩ := ih (applyRule r p) hstep.1
    refine ⟨⟨fun i => ?_, ?_⟩, i3⟩
    · show smGet (applyRules rs (applyRule r p)).1 i = _
      rw [i1, hstep.2.1, List.map_cons, List.sum_cons]
      apply BitVec.eq_of_toNat_eq
      simp only [BitVec.toNat_ofInt]
      omega
    · show ((applyRules rs (applyRule r p)).2 : Int) = _
      rw [i2, hstep.2.2, List.map_cons, List.sum_cons]
      omega

theorem past_adv (t : TileStream) : Past t (tAdvance t) := by
  unfold Past tAdvance
  refine ⟨fun h => by rw [h], fun c hc => ⟨fun h => by rw [hc]; exact if_pos h, fun h h4 => ?_⟩⟩
  refine ⟨(applyRules t.rules (t.regs, c.off)).1, (applyRules t.rules (t.regs, c.off)).2, (stepped_rules t.rules (t.regs, c.off) h4).1, fun h2 => ?_, fun h2 => ?_⟩
  · rw [hc]
    dsimp only
    rw [if_neg (by omega), if_pos h2]
  · rw [hc]
    dsimp only
    rw [if_neg (by omega), if_neg (by omega)]
    rfl

theorem tIssue_streams {s : State} {x : TIss} {j : TIss → TJudge} {b : TIss → Group} {q : Instr} {g : Group} {t : TileStream}
    (h : tissOf s = some x) (hq : exec q s = tIssue s j b) (hj : j x = .go) (hb : b x = { g with tile := some (tAdvance t) }) :
    Streams s q x g t := ⟨_, past_adv t, by rw [hq, tIssue_go h hj, hb]; rfl⟩

theorem tIssue_done {s : State} {x : TIss} {j : TIss → TJudge} {b : TIss → Group} {q : Instr} {t t' : TileStream}
    (h : tissOf s = some x) (hq : exec q s = tIssue s j b) (hj : j x = .go) (hb : b x = x.done t') (ht : t' = t) :
    Streams s q x x.grp t := by
  subst ht
  exact tIssue_streams h hq hj hb

theorem loopJudge_go {x : TIss} {n : Nat} (h : ∀ i < n, capJudge x i = .go) : loopJudge x n = .go := by
  unfold loopJudge
  induction n with
  | zero => rfl
  | succ n ih =>
    rw [List.range_succ, List.foldl_append, ih fun i hi => h i (by omega)]
    simp only [List.foldl_cons, List.foldl_nil]
    rw [h n (by omega)]
    rfl

theorem signed16 (st : BitVec 16) : signed st.toNat 16 = st.toInt := by
  rw [BitVec.toInt_eq_toNat_cond]
  unfold signed
  dsimp only
  rw [Nat.mod_eq_of_lt st.isLt]
  rfl

theorem modAt_const {α : Type} {l : List α} {i : Nat} {x : α} (h : l[i]? = some x) (f : α → α) : modAt l i f = modAt l i fun _ => f x := by
  induction l generalizing i with
  | nil => rfl
  | cons a l ih =>
    cases i with
    | zero => cases h; rfl
    | succ i => rw [modAt, modAt, ih h]

theorem tand_assoc (a b c : TJudge) : (a.and b).and c = a.and (b.and c) := by cases a <;> rfl

/-- The lookup of a canonical map built from pairs with distinct keys. -/
theorem smGet_mapOf {l : List (Nat × Nat)} (hn : (l.map Prod.fst).Nodup) {k v : Nat} (h : (k, v) ∈ l) : smGet (mapOf l) k = BitVec.ofNat 32 v := by
  induction l with
  | nil => cases h
  | cons p l ih =>
    rw [List.map_cons, List.nodup_cons] at hn
    have hno : ∀ l' : List (Nat × Nat), k ∉ l'.map Prod.fst → smGet (mapOf l') k = 0 := by
      intro l' hl'
      induction l' with
      | nil => rfl
      | cons q l' ih' =>
        rw [List.map_cons, List.mem_cons, not_or] at hl'
        unfold mapOf at ih' ⊢
        rw [List.map_cons, List.filter_cons]
        split
        · rw [smGet_cons, if_neg (fun h => hl'.1 h.symm)]; exact ih' hl'.2
        · exact ih' hl'.2
    rcases List.mem_cons.1 h with he | he
    · subst he
      have := hno l hn.1
      unfold mapOf at this ⊢
      rw [List.map_cons, List.filter_cons]
      split
      · rw [smGet_cons, if_pos rfl]
      · rename_i hz
        rw [this]
        simpa using Eq.symm (by simpa using hz)
    · have hne : p.1 ≠ k := fun hc => hn.1 (by rw [hc]; exact List.mem_map_of_mem he)
      have := ih hn.2 he
      unfold mapOf at this ⊢
      rw [List.map_cons, List.filter_cons]
      split
      · rw [smGet_cons, if_neg hne]; exact this
      · exact this

theorem tileKeys_nodup {m n : Nat} (hn : n ≤ 128) : (tileKeys m n).Nodup := by
  unfold tileKeys
  rw [List.nodup_flatMap]
  refine ⟨fun i _ => ?_, ?_⟩
  · exact List.Nodup.map_on (fun a _ b _ h => by omega) List.nodup_range
  · refine List.Pairwise.imp_of_mem ?_ List.pairwise_lt_range
    intro a b ha hb hab x hx hy
    obtain ⟨p, hp, rfl⟩ := List.mem_map.1 hx
    obtain ⟨q, hq, hqe⟩ := List.mem_map.1 hy
    have := List.mem_range.1 hp
    have := List.mem_range.1 hq
    omega

theorem mem_tileKeys {m n i j : Nat} (hi : i < m) (hj : j < n) : 128 * i + j ∈ tileKeys m n := by
  unfold tileKeys
  exact List.mem_flatMap.2 ⟨i, List.mem_range.2 hi, List.mem_map.2 ⟨j, List.mem_range.2 hj, rfl⟩⟩

/-- Columns of bytes put at distinct places of the slab. -/
theorem smGet_columns (cols : List (List Byte)) (n0 o : Nat) (sl : SMap 8) (hlen : ∀ c ∈ cols, o + c.length ≤ 8192) (c b : Nat) (hb : b < 8192) :
    smGet ((cols.zipIdx n0).foldl (fun sl p => smPut sl (slabKey p.2 o) p.1) sl) (8192 * c + b) =
      if n0 ≤ c ∧ o ≤ b ∧ b < o + (cols.getD (c - n0) []).length then (cols.getD (c - n0) []).getD (b - o) 0 else smGet sl (8192 * c + b) := by
  induction cols generalizing n0 sl with
  | nil => simp
  | cons a cols ih =>
    rw [List.zipIdx_cons, List.foldl_cons, ih _ _ fun c hc => hlen c (List.mem_cons_of_mem _ hc)]
    have h1 := hlen a List.mem_cons_self
    have hk : slabKey n0 o = 8192 * n0 + o := rfl
    dsimp only
    rw [smGet_smPut, hk]
    by_cases h2 : n0 + 1 ≤ c
    · have h3 : c - n0 = (c - (n0 + 1)) + 1 := by omega
      rw [h3, List.getD_cons_succ]
      by_cases h4 : o ≤ b ∧ b < o + (cols.getD (c - (n0 + 1)) []).length
      · rw [if_pos ⟨h2, h4⟩, if_pos ⟨by omega, h4⟩]
      · rw [if_neg (fun h => h4 h.2), if_neg (by omega), if_neg (fun h => h4 h.2)]
    · rw [if_neg (fun h => h2 h.1)]
      by_cases h5 : c = n0
      · subst h5
        rw [Nat.sub_self, List.getD_cons_zero]
        by_cases h4 : o ≤ b ∧ b < o + a.length
        · rw [if_pos (by omega), if_pos ⟨by omega, h4⟩]
          rw [show 8192 * c + b - (8192 * c + o) = b - o by omega]
          rw [List.getD_eq_getElem?_getD]
        · rw [if_neg (by omega), if_neg (fun h => h4 h.2)]
      · rw [if_neg (by omega), if_neg (by omega)]

theorem filled_put (w : SMap 8) (o : Nat) (bs : List Byte) (ho : o < 2 ^ 22) : Filled w (winPut w o bs) o bs := by
  intro a
  unfold winPut
  have e3 : bits o 21 0 = o := by unfold bits; omega
  rw [smGet_smPut, e3]
  by_cases h : o ≤ a ∧ a < o + bs.length
  · rw [if_pos h, if_pos h, List.getD_eq_getElem?_getD]
  · rw [if_neg h, if_neg h]

theorem range_one (x : TIss) {o n : Nat} (ho : o < 2 ^ 22) :
    x.ranges [(o, n)] = if o + n ≤ x.kern.pkt.lmem then .go else .fault .lmRange o x.t.pc := by
  unfold TIss.ranges plainOk bits
  simp only [List.find?_cons, List.find?_nil]
  have e1 : o / 2 ^ 31 = 0 := by omega
  have e2 : o / 2 ^ 22 % 2 ^ (29 - 22 + 1) = 0 := by omega
  have e3 : o / 2 ^ 0 % 2 ^ (21 - 0 + 1) = o := by omega
  rw [e1, e2, e3]
  by_cases h : o + n ≤ x.kern.pkt.lmem
  · simp [h]
  · simp [h, TIss.range]

theorem plainView_of {o m : Nat} (ho : o < 2 ^ 22) (hm : o % m = 0) : plainView o m = true := by
  unfold plainView
  rw [Nat.testBit_lt_two_pow (by omega)]
  simp [hm]

theorem carried_push {int : Bool} {keys : List Nat} (f : Nat) (slots : List AccNode) (n : AccNode) (hf : 16 ≤ f + n.level) (hl : n.level ≤ 15) :
    Carried int keys slots n (carryPush int keys f slots n) := by
  induction f generalizing slots n with
  | zero => omega
  | succ f ih =>
    rw [carryPush]
    cases hg : slots.getLast? with
    | none =>
      have : slots = [] := by simpa using hg
      subst this
      exact .rest [] n fun u hu => by cases hu
    | some u =>
      dsimp only
      split
      · rename_i h
        exact .up slots u n _ hg h.1 h.2.1 h.2.2 (ih _ _ (by dsimp only; omega) (by dsimp only; omega))
      · rename_i h
        refine .rest slots n fun v hv => ?_
        rw [hg] at hv
        cases hv
        by_cases h1 : u.level = n.level
        · by_cases h2 : u.index = Nat.xor n.index 1
          · exact .inr (.inr (by by_contra h3; exact h ⟨h1, h2, by omega⟩))
          · exact .inr (.inl h2)
        · exact .inl h1

theorem carriedAll_fold {int : Bool} {keys : List Nat} (nd : Nat → AccNode) (hn : ∀ i, (nd i).level = 5) (L : List Nat) (slots : List AccNode) :
    CarriedAll int keys slots (L.map nd) (L.foldl (fun sl i => carryPush int keys 12 sl (nd i)) slots) := by
  induction L generalizing slots with
  | nil => rfl
  | cons a L ih =>
    exact ⟨_, carried_push 12 slots (nd a) (by rw [hn]; decide) (by rw [hn]; decide), ih _⟩

theorem fused_value {int : Bool} {rows : Nat → List (Option FVal)} {cols : Nat → List FVal} {m n r c leaf lo : Nat} (st : ExactSum) (hr : r < m) (hc : c < n) (hn : n ≤ 128) :
    smGet (fusedNode int ⟨(List.range m).map rows, (List.range n).map cols⟩ st leaf lo).vals (128 * r + c) =
      BitVec.ofNat 32 (fusedVal int (dotExact st (((rows r).drop lo).take 32) (((cols c).drop lo).take 32))) := by
  unfold fusedNode sumsOver
  dsimp only
  rw [show lo + 32 - lo = 32 by omega]
  have hz : ∀ {α : Type} (g : Nat → α) (k : Nat), ((List.range k).map g).zipIdx = (List.range k).map fun i => (g i, i) := by
    intro α g k
    apply List.ext_getElem
    · simp
    · intro i h1 h2
      simp
  rw [hz, hz]
  refine smGet_mapOf ?_ (List.mem_map.2 ⟨(128 * r + c, dotExact st (((rows r).drop lo).take 32) (((cols c).drop lo).take 32)), List.mem_flatMap.2 ⟨(rows r, r), List.mem_map.2 ⟨r, List.mem_range.2 hr, rfl⟩, List.mem_map.2 ⟨(cols c, c), List.mem_map.2 ⟨c, List.mem_range.2 hc, rfl⟩, rfl⟩⟩, rfl⟩)
  have := tileKeys_nodup (m := m) hn
  unfold tileKeys at this
  convert this using 1
  rw [List.map_map, List.map_flatMap, List.flatMap_map]
  congr 1
  funext i
  rw [List.map_map, List.map_map]
  rfl

end Sys2Proof.Machine
end

