-- ==== Sys2Proof/Laws/Interface.lean ====
section
/-! SUPPORT. Laws/Interface.lean: attestation, the interface of a partition and the partition reset. -/

namespace Sys2Proof.Machine

theorem spdmOf_fn (s : State) (fn : Nat) : (spdmOf s fn).fn = fn := by
  unfold spdmOf
  cases h : s.sys.spdm.find? fun x => x.fn == fn with
  | none => rfl
  | some x => simpa using List.find?_some h

theorem spdmDo_some {s : State} {fn : Nat} {f : Spdm → Option Spdm} {y : Spdm} (h : fn ≤ 16) (hb : s.sys.bootFailed = none ∨ fn = 0)
    (hf : f (spdmOf s fn) = some y) : spdmDo s fn f = .next (setSpdm s y) := by
  unfold spdmDo
  rw [if_neg, hf]
  rcases hb with hb | hb
  · simp [hb]; omega
  · simp [hb]

theorem spdmDo_none {s : State} {fn : Nat} {f : Spdm → Option Spdm} (h : fn ≤ 16) (hb : s.sys.bootFailed = none ∨ fn = 0)
    (hf : f (spdmOf s fn) = none) : spdmDo s fn f = .next (setSpdm s (refusedAnswer (spdmOf s fn))) := by
  unfold spdmDo
  rw [if_neg, hf]
  · rfl
  rcases hb with hb | hb
  · simp [hb]; omega
  · simp [hb]

theorem spdmDo_if {s : State} {fn : Nat} {f : Spdm → Option Spdm} {y : Spdm} (c : Prop) [Decidable c] (h : fn ≤ 16) (hb : s.sys.bootFailed = none ∨ fn = 0)
    (hf : f (spdmOf s fn) = if c then some y else none) : spdmDo s fn f = .next (setSpdm s (if c then y else refusedAnswer (spdmOf s fn))) := by
  by_cases hc : c
  · rw [if_pos hc] at hf ⊢; exact spdmDo_some h hb hf
  · rw [if_neg hc] at hf ⊢; exact spdmDo_none h hb hf

theorem answers_of {s : State} {i : Instr} {fn : Nat} {y : Spdm} (h : exec i s = .next (setSpdm s y)) (hy : y.fn = fn) : Answers s i fn y := by
  unfold Answers
  rw [h]
  unfold setSpdm
  rw [hy]

theorem modIf_find {α : Type} (l : List α) (p : α → Bool) (f : α → α) (x : α) (h : ∀ y ∈ l, p y = true → y = x) : modIf l p f = modIf l p fun _ => f x := by
  unfold modIf
  refine List.map_congr_left fun y hy => ?_
  split
  · rename_i hp; rw [h y hy hp]
  · rfl

theorem findPart_modIf (ps : List Partition) (id : Nat) (f : Partition → Partition) (hf : ∀ y, y.id = id → (f y).id = id) :
    findPart (modIf ps (fun x => x.id == id) f) id = (findPart ps id).map f := by
  unfold findPart modIf
  induction ps with
  | nil => rfl
  | cons a ps ih =>
    rw [List.map_cons, List.find?_cons, List.find?_cons]
    by_cases h : a.id = id
    · simp [h, hf a h]
    · simp only [beq_iff_eq, h, if_false]
      rw [show (a.id == id) = false by simpa using h]
      simpa using ih

theorem fnPart_of {s : State} {fn : Nat} {p : Partition} (hb : s.sys.bootFailed = none) (h : (s.ctl.parts.find? fun p => p.vf == fn) = some p) :
    fnPart s fn = some p := by
  unfold fnPart
  rw [hb, if_neg (by simp), h]

theorem findPart_uniq {ps : List Partition} {p : Partition} (h : p ∈ ps) (hu : ∀ q ∈ ps, q.id = p.id → q = p) : findPart ps p.id = some p := by
  unfold findPart
  induction ps with
  | nil => cases h
  | cons a ps ih =>
    rw [List.find?_cons]
    by_cases ha : a.id = p.id
    · rw [show (a.id == p.id) = true by simpa using ha, hu a List.mem_cons_self ha]
    · rw [show (a.id == p.id) = false by simpa using ha]
      rcases List.mem_cons.1 h with rfl | h
      · exact absurd rfl ha
      · exact ih h fun q hq => hu q (List.mem_cons_of_mem _ hq)

theorem modPart_set {s : State} {p : Partition} (hu : ∀ q ∈ s.ctl.parts, q.id = p.id → q = p) (f : Partition → Partition) :
    modPart s p.id f = partSet s p.id (f p) := by
  unfold partSet modPart
  rw [modIf_find s.ctl.parts (fun x => x.id == p.id) f p fun y hy hp => hu y hy (by simpa using hp)]

theorem rekey_key {draw : Nat} {dies : List Nat} {m : Mem} (off : Nat) : keyByte (rekeyMem draw dies m) off =
    if homeDie off ∈ dies then Config.rekeyedByte draw off else keyByte m off := by
  unfold keyByte rekeyMem
  dsimp only
  rw [List.find?_append, List.find?_map]
  by_cases h : homeDie off ∈ dies
  · rw [if_pos h]
    obtain ⟨d, hd⟩ : ∃ d, dies.find? ((fun k : Nat × Nat => k.1 == homeDie off) ∘ fun d => (d, draw)) = some d := by
      rw [← Option.isSome_iff_exists, List.find?_isSome]
      exact ⟨_, h, by simp⟩
    rw [hd]
    rfl
  · rw [if_neg h, List.find?_eq_none.2 fun d hd hm => h (by rw [← show d = homeDie off by simpa using hm]; exact hd), Option.map_none, Option.none_or, List.find?_filter]
    have : (fun a : Nat × Nat => decide ((!dies.contains a.1) = true ∧ (a.1 == homeDie off) = true)) = fun k => k.1 == homeDie off := by
      funext a
      by_cases ha : a.1 = homeDie off <;> simp [ha, h]
    rw [this]

/-- A byte of a re-keyed die reads as the new key gives it (R321); every other byte stands. -/
theorem rekey_byte {draw : Nat} {dies : List Nat} {m : Mem} (off : Nat) : memByte (rekeyMem draw dies m) off =
    if homeDie off ∈ dies then Config.rekeyedByte draw off else memByte m off := by
  unfold memByte
  rw [rekey_key]
  show smGet (m.bytes.filter fun p => (fun k => !dies.contains (homeDie k)) p.1) off ^^^ _ = _
  rw [smGet_filter m.bytes fun k => !dies.contains (homeDie k)]
  by_cases h : homeDie off ∈ dies <;> simp [h]

/-- The partition after a partition reset: its key drawn anew, its memories scrubbed (R321, R405). -/
theorem partReset_spec {s : State} {p : Partition} (f : Partition → Partition) (hp : findPart s.ctl.parts p.id = some p)
    (hf : ∀ y, (f y).id = y.id ∧ (f y).vf = y.vf ∧ (f y).dies = y.dies ∧ (f y).reserved = y.reserved ∧ (f y).key = y.key ∧ (f y).keyGen = y.keyGen ∧
      (f y).areas = y.areas ∧ (f y).pool = y.pool) :
    ∃ q, findPart (modPart (partitionReset s p) p.id f).ctl.parts p.id = some (f q) ∧ PartReset s (modPart (partitionReset s p) p.id f) p (f q) := by
  have hq := findPart_modIf s.ctl.parts p.id (fun x => { x with key := Config.drawnKey s.sys.draws, keyGen := x.keyGen + 1, areas := [], pool := [], ctxwDesc := 0, ctxwCmd := none, ctxwStatus := 0, hews := List.replicate 8 {} })
    fun y hy => hy
  rw [hp] at hq
  refine ⟨_, (findPart_modIf (partitionReset s p).ctl.parts _ f fun y hy => by rw [(hf y).1, hy]).trans (congrArg (Option.map f) hq), ?_⟩
  obtain ⟨h1, h2, h3, h4, h5, h6, h7, h8⟩ := hf { p with key := Config.drawnKey s.sys.draws, keyGen := p.keyGen + 1, areas := [], pool := [], ctxwDesc := 0, ctxwCmd := none, ctxwStatus := 0, hews := List.replicate 8 {} }
  have hd : ∀ {d : Nat} {b : Bool}, (!p.dies.contains d && b) = true → d ∉ p.dies := fun h hm => by simp [hm] at h
  refine ⟨⟨h5, h6, h7, h8⟩, ⟨h1, h2, h3, h4⟩, rfl, fun off ho => (rekey_byte off).trans (if_neg ho), fun k hk => ?_,
    fun off ho => (rekey_byte off).trans (if_pos ho), ⟨fun b hb => hd (List.mem_filter.1 hb).2, fun b hb => ?_, fun b hb => hd (List.mem_filter.1 hb).2, fun b hb => ?_⟩,
    ⟨fun d h => ?_, fun d h => List.mem_append_left _ h⟩, rfl⟩
  · refine (smGet_filter s.mem.lpddr (fun k => !p.dies.contains (k / channelBytes / 12)) k).trans (if_pos ?_)
    simpa using hk
  · simpa using (List.mem_filter.1 hb).2
  · simpa using (List.mem_filter.1 hb).2
  · exact ⟨(List.mem_filter.1 h).1, by simpa using (List.mem_filter.1 h).2⟩

/-- What dropping a group keeps. -/
structure DropKeeps (s t : State) : Prop where
  sys : t.sys = s.sys
  bytes : t.mem.bytes = s.mem.bytes ∧ t.mem.lpddr = s.mem.lpddr ∧ t.mem.host = s.mem.host ∧ t.mem.keys = s.mem.keys
  queues : t.ctl.queues = s.ctl.queues
  faults : t.ctl.faults = s.ctl.faults
  partials : t.ctl.partials = s.ctl.partials
  samples : t.ctl.samples = s.ctl.samples
  parts : t.ctl.parts.map partBody = s.ctl.parts.map partBody
  ctxs : ∀ c ∈ t.ctl.ctxs, ∃ c' ∈ s.ctl.ctxs, c'.part = c.part
  ops : ∀ o ∈ t.mem.ops, ∃ o' ∈ s.mem.ops, o'.part = o.part

theorem DropKeeps.refl (s : State) : DropKeeps s s :=
  ⟨rfl, ⟨rfl, rfl, rfl, rfl⟩, rfl, rfl, rfl, rfl, rfl, fun c h => ⟨c, h, rfl⟩, fun o h => ⟨o, h, rfl⟩⟩

theorem DropKeeps.trans {a b c : State} (h1 : DropKeeps a b) (h2 : DropKeeps b c) : DropKeeps a c := by
  obtain ⟨k1, k2, k3, k4⟩ := h1.bytes
  obtain ⟨l1, l2, l3, l4⟩ := h2.bytes
  refine ⟨h2.sys.trans h1.sys, ⟨l1.trans k1, l2.trans k2, l3.trans k3, l4.trans k4⟩, h2.queues.trans h1.queues, h2.faults.trans h1.faults,
    h2.partials.trans h1.partials, h2.samples.trans h1.samples, h2.parts.trans h1.parts, fun x hx => ?_, fun x hx => ?_⟩
  · obtain ⟨y, hy, e⟩ := h2.ctxs x hx
    obtain ⟨z, hz, e'⟩ := h1.ctxs y hy
    exact ⟨z, hz, e'.trans e⟩
  · obtain ⟨y, hy, e⟩ := h2.ops x hx
    obtain ⟨z, hz, e'⟩ := h1.ops y hy
    exact ⟨z, hz, e'.trans e⟩

theorem DropKeeps.foldl {α : Type} {f : State → α → State} (h : ∀ s x, DropKeeps s (f s x)) (l : List α) (s : State) : DropKeeps s (l.foldl f s) :=
  List.foldlRecOn (motive := DropKeeps s) l f (.refl s) fun t ht x _ => ht.trans (h t x)

/-- Stack areas granted to gangs that wait for one change nothing else (R126). -/
theorem grantAreas_keeps (s : State) (part : Nat) (skip : List Nat) : DropKeeps s (grantAreas s part skip) :=
  .foldl (fun s gi => by
    split
    · exact .refl s
    · rename_i g _
      have h : DropKeeps s { setGang s gi (spill s.ctl.parts part g).2 with ctl := { s.ctl with parts := (spill s.ctl.parts part g).1 } } :=
        { DropKeeps.refl s with parts := spill_parts _ _ _ }
      dsimp only
      repeat' split
      all_goals first | exact h | exact .refl s) _ s

theorem releaseAreas_keeps (s : State) (grp : Group) (part : Nat) : DropKeeps s (releaseAreas s grp part) :=
  .trans (b := _) (by exact { DropKeeps.refl s with parts := map_modIf_same _ _ _ _ fun _ => rfl }) (grantAreas_keeps _ part grp.gangs)

theorem releasePins_keeps (s : State) (gid part cid : Nat) : DropKeeps s (releasePins s gid part cid) := by
  refine { DropKeeps.refl s with ctxs := fun c hc => ?_ }
  obtain ⟨c', hc', rfl⟩ := List.mem_map.1 hc
  refine ⟨c', hc', ?_⟩
  split <;> rfl

/-- A group that is dropped leaves everything but its own resources as it was (R118). -/
theorem dropGroup_keeps (s : State) (g : Nat) (halt : Bool) : DropKeeps s (dropGroup s g halt) := by
  unfold dropGroup
  split
  · exact .refl s
  · split
    · exact .refl s
    · rename_i _ grp _ _ k _
      refine ((releaseAreas_keeps s grp k.part).trans (releasePins_keeps _ g k.part k.ctx)).trans
        (b := releasePins (releaseAreas s grp k.part) g k.part k.ctx) { DropKeeps.refl _ with ops := fun o ho => ?_ }
      obtain ⟨y, hy, rfl⟩ := List.mem_map.1 ho
      refine ⟨y, (List.mem_filter.1 hy).1, ?_⟩
      split <;> rfl

/-- What discarding a partition's contexts leaves of the machine (R404). -/
theorem discard_spec (s : State) (part : Nat) : Discarded s (discardContexts s part) part ∧ DropKeeps s { discardContexts s part with
    ctl := { (discardContexts s part).ctl with queues := s.ctl.queues, faults := s.ctl.faults, partials := s.ctl.partials, samples := s.ctl.samples } } := by
  have hk := DropKeeps.foldl (fun s g => dropGroup_keeps s g false) ((s.exe.groups.zipIdx.filter fun g => match kernOf s g.1 with
    | some k => k.part == part
    | none => false).map Prod.snd) s
  unfold discardContexts
  dsimp only
  generalize ((s.exe.groups.zipIdx.filter fun g => match kernOf s g.1 with
    | some k => k.part == part
    | none => false).map Prod.snd).foldl (fun s g => dropGroup s g false) s = t at hk
  have gone : ∀ {α : Type} (f : α → Nat) (l : List α) x, x ∈ l.filter (fun x => f x != part) → f x ≠ part := fun f l x hx => by
    simpa using (List.mem_filter.1 hx).2
  refine ⟨⟨gone Ctx.part _, by rw [← hk.queues], by rw [← hk.faults], by rw [← hk.partials], by rw [← hk.samples], gone MemOp.part _, gone Copy.part _,
    ⟨gone _ _, gone _ _, gone _ _⟩, hk.bytes, hk.sys⟩, ?_⟩
  exact { hk with
    queues := rfl, faults := rfl, partials := rfl, samples := rfl
    ctxs := fun c hc => hk.ctxs c (List.mem_filter.1 hc).1
    ops := fun o ho => hk.ops o (List.mem_filter.1 ho).1 }

end Sys2Proof.Machine
end

