-- ==== Sys2Proof/Laws/Service.lean ====
section
/-! SUPPORT. Laws/Service.lean: error counters, trips, the stages of the boot, links. -/

namespace Sys2Proof.Machine

theorem countErr_spec (m : SMap 16) (die n : Nat) : ErrCounted m (countErr m die n) die n := by
  intro d
  unfold countErr
  rw [smGet_smSet]
  split
  · rename_i h; subst h; congr 1; split <;> omega
  · rfl

theorem predLearns_ops (L : List L1Block) : ∀ m : Mem, (L.foldl predLearn m).ops = m.ops := by
  induction L with
  | nil => exact fun _ => rfl
  | cons b L ih => exact fun m => (ih _).trans (by unfold predLearn; split <;> rfl)

theorem l1Drop_ops (m : Mem) (p : L1Block → Bool) : (l1Drop m p).ops = m.ops := predLearns_ops _ _

theorem bootStages_spec (flash : List (List Byte)) (f : Nat) : ∀ (i n : Nat), n ≤ f → (∀ j < n, Config.stageSignatureOk (i + j + 1) (nth flash (i + j) []) = true) →
    (n = f → bootStages flash f (i + 1) = ((List.range f).map (fun j => Config.sha512 (nth flash (i + j) [])), none)) ∧
    (n < f → Config.stageSignatureOk (i + n + 1) (nth flash (i + n) []) = false →
      bootStages flash f (i + 1) = ((List.range n).map (fun j => Config.sha512 (nth flash (i + j) [])) ++ [0], some (i + n + 1))) := by
  induction f with
  | zero =>
    intro i n hn h
    exact ⟨fun _ => rfl, fun h => absurd h (by omega)⟩
  | succ f ih =>
    intro i n hn h
    cases n with
    | zero =>
      refine ⟨fun h => absurd h (by omega), fun _ hs => ?_⟩
      unfold bootStages
      have hs' : Config.stageSignatureOk (i + 1) (nth flash (i + 1 - 1) []) = false := hs
      dsimp only
      rw [hs', if_neg Bool.false_ne_true]
      rfl
    | succ n =>
      have h0 : Config.stageSignatureOk (i + 1) (nth flash (i + 1 - 1) []) = true := h 0 (by omega)
      have h1 : ∀ j < n, Config.stageSignatureOk (i + 1 + j + 1) (nth flash (i + 1 + j) []) = true := by
        intro j hj
        rw [show i + 1 + j = i + (j + 1) by omega]
        exact h (j + 1) (by omega)
      have key : ∀ m, (List.range (m + 1)).map (fun j => Config.sha512 (nth flash (i + j) [])) =
          Config.sha512 (nth flash (i + 1 - 1) []) :: (List.range m).map (fun j => Config.sha512 (nth flash (i + 1 + j) [])) := by
        intro m
        rw [List.range_succ_eq_map, List.map_cons, List.map_map]
        congr 1
        refine List.map_congr_left fun j _ => ?_
        show _ = Config.sha512 (nth flash (i + 1 + j) [])
        rw [show i + 1 + j = i + (j + 1) by omega]
        rfl
      have hi := ih (i + 1) n (by omega) h1
      have hu : bootStages flash (f + 1) (i + 1) = (Config.sha512 (nth flash (i + 1 - 1) []) :: (bootStages flash f (i + 1 + 1)).1, (bootStages flash f (i + 1 + 1)).2) := by
        rw [bootStages]; dsimp only; rw [h0, if_pos rfl]
      refine ⟨fun he => ?_, fun hl hs => ?_⟩
      · rw [hu, hi.1 (by omega), key]
      · rw [hu, hi.2 (by omega) (by rw [show i + 1 + n = i + (n + 1) by omega]; exact hs), key]
        show _ = (_ :: _ ++ [0], some _)
        rw [show i + 1 + n + 1 = i + (n + 1) + 1 by omega]
        rfl

/-- What discarding the contexts of several partitions leaves: nothing of theirs, and nothing new (R404, R414). -/
theorem discards_spec (L : List Nat) : ∀ s : State, (L.foldl discardContexts s).sys = s.sys ∧
    (∀ c ∈ (L.foldl discardContexts s).ctl.ctxs, c.part ∉ L ∧ ∃ c' ∈ s.ctl.ctxs, c'.part = c.part) ∧
    ∀ o ∈ (L.foldl discardContexts s).mem.ops, o.part ∉ L ∧ ∃ o' ∈ s.mem.ops, o'.part = o.part := by
  induction L with
  | nil => exact fun s => ⟨rfl, fun c h => ⟨List.not_mem_nil, c, h, rfl⟩, fun o h => ⟨List.not_mem_nil, o, h, rfl⟩⟩
  | cons a L ih =>
    intro s
    obtain ⟨d, k⟩ := discard_spec s a
    obtain ⟨h1, h2, h3⟩ := ih (discardContexts s a)
    refine ⟨h1.trans d.sys, fun c hc => ?_, fun o ho => ?_⟩
    · obtain ⟨hn, c', hc', he⟩ := h2 c hc
      obtain ⟨c₀, h₀, he'⟩ := k.ctxs c' hc'
      exact ⟨fun hm => (List.mem_cons.1 hm).elim (fun hm => d.ctxs c' hc' (he.trans hm)) hn, c₀, h₀, he'.trans he⟩
    · obtain ⟨hn, o', ho', he⟩ := h3 o ho
      obtain ⟨o₀, h₀, he'⟩ := k.ops o' ho'
      exact ⟨fun hm => (List.mem_cons.1 hm).elim (fun hm => d.ops o' ho' (he.trans hm)) hn, o₀, h₀, he'.trans he⟩

theorem onLink_some {s : State} {j : Nat} {l x : Link} {f : Link → Option Link} (h : s.sys.links[j]? = some l) (hf : f l = some x) :
    onLink s j f = { s with sys := { s.sys with links := modAt s.sys.links j fun _ => x } } := by
  unfold onLink; rw [h]; dsimp only; rw [hf]

theorem onLink_none {s : State} {j : Nat} {l : Link} {f : Link → Option Link} (h : s.sys.links[j]? = some l) (hf : f l = none) :
    onLink s j f = s := by
  unfold onLink; rw [h]; dsimp only; rw [hf]

/-- Bytes written at a context's addresses for the debug window or a record change memory at its homes alone. -/
theorem vaBytes_side (s : State) (c : Ctx) (va : Nat) (bs : List Byte) : HomeSide AnyByte s (vaBytes s c va bs) := excGet_side va bs

theorem peerListed_iff (s : State) (r : PeerReq) (p : Partition) (w : Bool) : peerListed s r p w = true ↔ Listed s r p w := by
  unfold peerListed Listed
  rw [Bool.and_eq_true]
  refine and_congr_right fun _ => ?_
  cases p.policy with
  | none => simp
  | some y => cases w <;> simp [and_assoc]

theorem peerMay_iff (s : State) (r : PeerReq) (off len : Nat) (w : Bool) : peerMay s r off len w = true ↔ MayReach s r off len w := by
  unfold peerMay MayReach
  rw [Bool.and_eq_true, decide_eq_true_iff]
  refine and_congr_right fun _ => ?_
  cases partOfDie s (homeDie off) with
  | none => simp
  | some p =>
    simp only [Bool.and_eq_true, peerListed_iff, Option.some.injEq, exists_eq_left', Bool.not_eq_true', List.any_eq_false,
      decide_eq_true_eq, not_and, not_lt]
    refine and_congr_right fun _ => forall₂_congr fun x _ => ?_
    omega

theorem dirAdd_horizon (e : DirEntry) (a : Nat) : (dirAdd e a).horizon = e.horizon := by
  unfold dirAdd
  split
  · rfl
  · split
    · rfl
    · split <;> rfl

theorem dirAdd_owned (e : DirEntry) (a : Nat) (h : e.owned = false) : (dirAdd e a).owned = false := by
  unfold dirAdd
  split
  · exact h
  · split
    · exact h
    · split
      · exact h
      · rfl

theorem laterHorizon_ne (t : Nat) (old : Word) : laterHorizon old (leaseWord t) ≠ 0 := by
  have : leaseWord t ≠ 0 := by
    unfold leaseWord
    split
    · decide
    · rename_i h
      intro h0
      have := congrArg BitVec.toNat h0
      simp at this
      omega
  unfold laterHorizon
  rw [if_neg this]
  split
  · exact this
  · rename_i h
    exact fun h0 => h (.inl h0)

theorem ownPa_local {s : State} {off : Nat} (hd' : s.sys.domId < 512) (h : off < devTop) : paHost (ownDev s.sys) (ownPa s off) = false ∧ paLocal (ownDev s.sys) (ownPa s off) = true ∧ paOff (ownPa s off) = off := by
  have hd : ownDev s.sys < 2 ^ 9 := by unfold ownDev; split <;> omega
  have h1 : paOff (ownPa s off) = off := by unfold paOff ownPa; unfold devTop at h; omega
  have h2 : paDev (ownPa s off) = ownDev s.sys := by unfold paDev ownPa; unfold devTop at h; omega
  refine ⟨?_, ?_, h1⟩
  · unfold paHost
    rw [h1, h2]
    unfold devTop at h
    unfold hostBase
    simp; omega
  · unfold paLocal
    rw [h1, h2]
    simpa using h

/-- An engine's write of own memory is a WRITE at its home (R326). -/
theorem engineWrite_local {s : State} {w : Writer} {leaf off : Nat} {bs : List Byte} (hd : s.sys.domId < 512) (h : off < devTop) :
    engineWrite s w leaf (ownPa s off) bs = homeWrite s w leaf off bs := by
  obtain ⟨h1, h2, h3⟩ := ownPa_local hd h
  unfold engineWrite
  rw [h1, h2, h3]
  rfl

end Sys2Proof.Machine
end

