-- ==== Sys2Proof/Laws/Removal.lean ====
section
/-! SUPPORT. Laws/Removal.lean: the loss of a die or a peer: what the removal of its work keeps. -/

namespace Sys2Proof.Machine

/-- What removing a peer's work keeps: the memories and the caches, the rest of the module, and every fault on its way. -/
structure LoseKeeps (s t : State) : Prop where
  sys : t.sys = s.sys
  bytes : t.mem.bytes = s.mem.bytes
  l1 : t.mem.l1 = s.mem.l1
  l2 : t.mem.l2 = s.mem.l2
  gangs : t.exe.gangs = s.exe.gangs
  groups : t.exe.groups = s.exe.groups
  kernels : t.ctl.kernels.length = s.ctl.kernels.length
  faults : ∀ r ∈ s.ctl.faults, r ∈ t.ctl.faults

theorem LoseKeeps.rfl' (s : State) : LoseKeeps s s := ⟨rfl, rfl, rfl, rfl, rfl, rfl, rfl, fun _ h => h⟩

theorem LoseKeeps.trans {a b c : State} (h1 : LoseKeeps a b) (h2 : LoseKeeps b c) : LoseKeeps a c :=
  ⟨h2.sys.trans h1.sys, h2.bytes.trans h1.bytes, h2.l1.trans h1.l1, h2.l2.trans h1.l2, h2.gangs.trans h1.gangs, h2.groups.trans h1.groups,
    h2.kernels.trans h1.kernels, fun r h => h2.faults r (h1.faults r h)⟩

theorem opFault_keeps (s : State) (o : MemOp) (code : FaultCode) (info : Dbl) (ex : Bool) : LoseKeeps s (opFault s o code info ex) := by
  unfold opFault
  dsimp only
  split
  · exact ⟨rfl, rfl, rfl, rfl, rfl, rfl, rfl, fun r h => List.mem_append_left _ h⟩
  · exact .rfl' s

theorem opFault_spec {s : State} {o : MemOp} {grp : Group} {k : Kernel} (h1 : s.exe.groups[(opGang s o).grp]? = some grp) (h2 : s.ctl.kernels[o.kern]? = some k)
    (code : FaultCode) (info : Dbl) (ex : Bool) : OpFaults s (opFault s o code info ex) o code info := by
  unfold opFault
  dsimp only
  rw [h1, h2]
  exact ⟨rfl, _, rfl, rfl, rfl, rfl, rfl, rfl⟩

theorem noteLoss_keeps (s : State) (o : MemOp) : LoseKeeps s (noteLoss s o) := ⟨rfl, rfl, rfl, rfl, rfl, rfl, modAt_length .., fun _ h => h⟩

theorem loseOp_keeps (dev : Nat) (s : State) (o : MemOp) : LoseKeeps s (loseOp dev s o) := by
  unfold loseOp
  dsimp only
  split
  · exact .rfl' s
  · split
    · exact opFault_keeps ..
    · exact ⟨rfl, rfl, rfl, rfl, rfl, rfl, modAt_length .., fun _ h => h⟩

theorem loseCopy_keeps (dev : Nat) (s : State) (c : Copy) : LoseKeeps s (loseCopy dev s c) := by
  unfold loseCopy
  split
  · exact .rfl' s
  · split
    · exact ⟨rfl, rfl, rfl, rfl, rfl, rfl, modAt_length .., fun _ h => h⟩
    · exact ⟨rfl, rfl, rfl, rfl, rfl, rfl, rfl, fun r h => List.mem_append_left _ h⟩

theorem foldl_keeps {α : Type} {f : State → α → State} (hf : ∀ s x, LoseKeeps s (f s x)) (L : List α) : ∀ s, LoseKeeps s (L.foldl f s) := by
  induction L with
  | nil => exact .rfl'
  | cons a L ih => exact fun s => (hf s a).trans (ih _)

theorem foldl_member {α : Type} {f : State → α → State} (hf : ∀ s x, LoseKeeps s (f s x)) {L : List α} {x : α} (hx : x ∈ L) (s : State) :
    ∃ a, LoseKeeps s a ∧ LoseKeeps (f a x) (L.foldl f s) := by
  induction L generalizing s with
  | nil => cases hx
  | cons y L ih =>
    rcases List.mem_cons.1 hx with rfl | hx
    · exact ⟨s, .rfl' s, foldl_keeps hf L _⟩
    · obtain ⟨a, h1, h2⟩ := ih hx (f s y)
      exact ⟨a, (hf s y).trans h1, h2⟩

/-- What the end of the work on a lost die keeps: the faults, and every operation's core. -/
structure DieKeeps (s t : State) : Prop where
  faults : t.ctl.faults = s.ctl.faults
  cores : ∀ o ∈ t.mem.ops, ∃ q ∈ s.mem.ops, q.core = o.core

theorem DieKeeps.refl (s : State) : DieKeeps s s := ⟨rfl, fun o h => ⟨o, h, rfl⟩⟩

theorem DieKeeps.trans {a b c : State} (h1 : DieKeeps a b) (h2 : DieKeeps b c) : DieKeeps a c := by
  refine ⟨h2.faults.trans h1.faults, fun o ho => ?_⟩
  obtain ⟨q, hq, e⟩ := h2.cores o ho
  obtain ⟨p, hp, e'⟩ := h1.cores q hq
  exact ⟨p, hp, e'.trans e⟩

theorem DieKeeps.foldl {α : Type} {f : State → α → State} (hf : ∀ s x, DieKeeps s (f s x)) (L : List α) (s : State) : DieKeeps s (L.foldl f s) :=
  List.foldlRecOn (motive := DieKeeps s) L f (.refl s) fun t ht x _ => ht.trans (hf t x)

/-- The home's side of memory keeps both. -/
theorem HomeSide.die {P : Nat → Prop} {s t : State} (h : HomeSide P s t) : DieKeeps s t :=
  ⟨by rw [h.ctl], fun o ho => ⟨o, by rw [← h.mem.ops]; exact ho, rfl⟩⟩

theorem DieKeeps.of_map {s : State} {m : Mem} (f : MemOp → MemOp) (hf : ∀ o, (f o).core = o.core) (h : m.ops = s.mem.ops.map f) :
    DieKeeps s { s with mem := m } := by
  refine ⟨rfl, fun o ho => ?_⟩
  obtain ⟨q, hq, rfl⟩ := List.mem_map.1 (show o ∈ s.mem.ops.map f from h ▸ ho)
  exact ⟨q, hq, (hf q).symm⟩

theorem raiseClock_ops (m : Mem) (core home : Nat) : (raiseClock m core home).ops = m.ops := by
  unfold raiseClock
  split <;> rfl

theorem ackWrite_die (s : State) (o : MemOp) (i pa : Nat) : DieKeeps s (ackWrite s o i pa) := by
  have h1 : DieKeeps s { s with mem := markPart s.mem o.id i true } := by
    refine .of_map _ ?_ rfl
    intro q
    repeat' split
    all_goals rfl
  refine h1.trans (.of_map (m := raiseClock _ _ _) _ ?_ ((raiseClock_ops _ _ _).trans rfl))
  exact fun q => by split <;> rfl

theorem ackWriter_die (s : State) (w : Writer) : DieKeeps s (ackWriter s w) := by
  unfold ackWriter
  repeat' split
  all_goals first | exact .refl s | exact ackWrite_die _ _ _ _ | exact ⟨rfl, fun o h => ⟨o, h, rfl⟩⟩

theorem ownDone_die (s : State) (t : Txn) (a : Nat) : DieKeeps s (ownDone s t a) := by
  unfold ownDone
  dsimp only
  repeat' split
  all_goals first
    | exact ⟨rfl, fun o h => ⟨o, h, rfl⟩⟩
    | refine DieKeeps.trans ?_ (trimL2_side _ _ _).die
      exact DieKeeps.trans (b := { s with mem := storeAtSlice { s.mem with dir := _ } a _ _ }) ⟨rfl, fun o h => ⟨o, h, rfl⟩⟩ (ackWrite_die _ _ _ _)

theorem txnDone_die (s : State) (t : Txn) : DieKeeps s (txnDone s t) := by
  unfold txnDone
  dsimp only
  split
  · refine DieKeeps.trans ?_ (ackWriter_die _ _)
    exact ⟨rfl, fun o h => ⟨o, h, rfl⟩⟩
  · refine DieKeeps.trans ?_ (ownDone_die _ _ _)
    exact ⟨rfl, fun o h => ⟨o, h, rfl⟩⟩

/-- An acknowledgement counted (R326, R328). -/
theorem countAck_die (s : State) (t : Txn) (a : Nat) : DieKeeps s (countAck s t a) := by
  have h : ∀ txns, DieKeeps s { s with mem := { mergeBytes s.mem (some t) (((t.acks.find? fun b => b.1 == a).map fun b => b.2.2).getD []) with txns := txns } } :=
    fun _ => ⟨rfl, fun o ho => ⟨o, by rw [← (mergeBytes_side s.mem (some t) _).ops]; exact ho, rfl⟩⟩
  unfold countAck
  dsimp only
  split
  · exact (h _).trans (txnDone_die _ _)
  · exact h _

theorem logOrphan_die (s : State) (x : Orphan) : DieKeeps s (logOrphan s x) := by
  unfold logOrphan
  split
  · exact .refl s
  · dsimp only
    split
    · exact ⟨rfl, fun o h => ⟨o, h, rfl⟩⟩
    · refine DieKeeps.trans ?_ (vaBytes_side _ _ _ _).die
      exact ⟨rfl, fun o h => ⟨o, h, rfl⟩⟩

/-- An agent removed from every home (R323). -/
theorem removeAgent_die (s : State) (a : Nat) : DieKeeps s (removeAgent s a) := by
  unfold removeAgent
  dsimp only
  refine DieKeeps.trans ?_ (.foldl (fun s i => ?_) _ _)
  · exact ⟨rfl, fun o h => ⟨o, h, rfl⟩⟩
  · split
    · exact countAck_die ..
    · exact .refl s

end Sys2Proof.Machine
end

