-- ==== Sys2Proof/Laws/Cells.lean ====
section
/-! SUPPORT. Laws/Cells.lean: the cells that a local slice holds, the marks of an operation's parts, and the end of a transaction. -/

namespace Sys2Proof.Machine

/-! ## The blocks of a local slice -/

/-- The runs of cells cover exactly the cells of the predicate (R189). -/
theorem cellRuns_iff (p : Nat → Bool) (i : Nat) : (∃ r ∈ cellRuns p, r.1 ≤ i ∧ i < r.1 + r.2) ↔ i < 16 ∧ p i = true := by
  unfold cellRuns
  simp only [List.mem_reverse]
  generalize (16 : Nat) = n
  induction n with
  | zero => simp
  | succ n ih =>
    rw [List.range_succ, List.foldl_append, List.foldl_cons, List.foldl_nil]
    revert ih
    generalize List.foldl _ _ (List.range n) = acc
    intro ih
    by_cases hp : p n = true
    · have hi : i < n + 1 ∧ p i = true ↔ (i < n ∧ p i = true) ∨ i = n := by
        constructor
        · rintro ⟨h1, h2⟩
          by_cases h : i = n
          · exact .inr h
          · exact .inl ⟨by omega, h2⟩
        · rintro (⟨h1, h2⟩ | rfl)
          · exact ⟨by omega, h2⟩
          · exact ⟨by omega, hp⟩
      rw [if_pos hp, hi, ← ih]
      cases acc with
      | nil => simp; omega
      | cons x t =>
        obtain ⟨st, m⟩ := x
        dsimp only
        split
        · rename_i h
          have : (st ≤ i ∧ i < st + (m + 1)) ↔ (st ≤ i ∧ i < st + m) ∨ i = n := by omega
          simp only [List.mem_cons, exists_eq_or_imp, this]
          exact or_right_comm
        · have : (n ≤ i ∧ i < n + 1) ↔ i = n := by omega
          simp only [List.mem_cons, exists_eq_or_imp, this]
          exact or_comm
    · rw [if_neg hp, ih]
      constructor
      · exact fun h => ⟨by omega, h.2⟩
      · rintro ⟨h1, h2⟩
        refine ⟨?_, h2⟩
        by_contra h
        exact hp (by rwa [show n = i by omega])

/-- A block holds cell `i` of a frame in a die's slice. -/
def L2Block.holds (b : L2Block) (die frame i : Nat) : Prop :=
  b.die = die ∧ b.frame = frame ∧ b.start ≤ i ∧ i < b.start + b.cells.length

theorem mem_uniq' {α : Type} [DecidableEq α] {l : List α} {x : α} (h : x ∈ l) : x ∈ uniq l := by
  unfold uniq
  have : ∀ (l : List α) (acc : List α), x ∈ acc ∨ x ∈ l → x ∈ l.foldl (fun acc x => if acc.contains x then acc else acc ++ [x]) acc := by
    intro l
    induction l with
    | nil => exact fun acc h => h.elim id fun h => by cases h
    | cons a l ih =>
      intro acc h
      refine ih _ ?_
      rcases h with h | h
      · refine .inl ?_
        dsimp only
        split
        · exact h
        · exact List.mem_append_left _ h
      · rcases List.mem_cons.1 h with rfl | h
        · refine .inl ?_
          dsimp only
          split
          · rename_i hc; simpa using hc
          · exact List.mem_append_right _ (List.mem_singleton.2 rfl)
        · exact .inr h
  exact this l [] (.inr h)

/-- Every block that holds a cell of a rebuilt frame holds what the cell function gives it. -/
theorem rebuild_holds {old : List L2Block} {die frame : Nat} {g : L2Tag} {st : Bool} {new : List Nat} {f : Nat → Option (L2Cell × Option Nat)}
    {b : L2Block} (hb : b ∈ l2Rebuild old die frame g st new f) {i : Nat} (h1 : b.start ≤ i) (h2 : i < b.start + b.cells.length) :
    ∃ c, f i = some (c, b.expiry) ∧ b.cells[i - b.start]? = some c := by
  unfold l2Rebuild at hb
  obtain ⟨t, -, hb⟩ := List.mem_flatMap.1 hb
  obtain ⟨r, hr, rfl⟩ := List.mem_map.1 hb
  dsimp only at h1 h2 ⊢
  rw [List.length_map, List.length_range] at h2
  obtain ⟨-, hp⟩ := (cellRuns_iff _ i).1 ⟨r, hr, h1, h2⟩
  obtain ⟨⟨c, t'⟩, hf, ht⟩ := Option.map_eq_some_iff.1 (eq_of_beq hp)
  refine ⟨c, by rw [hf, ← ht], ?_⟩
  rw [List.getElem?_map, List.getElem?_range (by omega), Option.map_some, show r.1 + (i - r.1) = i by omega, hf]
  rfl

theorem rebuild_frame {old : List L2Block} {die frame : Nat} {g : L2Tag} {st : Bool} {new : List Nat} {f : Nat → Option (L2Cell × Option Nat)}
    {b : L2Block} (hb : b ∈ l2Rebuild old die frame g st new f) : b.die = die ∧ b.frame = frame := by
  unfold l2Rebuild at hb
  obtain ⟨t, -, hb⟩ := List.mem_flatMap.1 hb
  obtain ⟨r, hr, rfl⟩ := List.mem_map.1 hb
  exact ⟨rfl, rfl⟩

/-- Some block of a rebuilt frame holds each cell of the cell function. -/
theorem rebuild_has {old : List L2Block} {die frame : Nat} {g : L2Tag} {st : Bool} {new : List Nat} {f : Nat → Option (L2Cell × Option Nat)}
    {i : Nat} (hi : i < 16) {x : L2Cell × Option Nat} (h : f i = some x) :
    ∃ b ∈ l2Rebuild old die frame g st new f, b.holds die frame i := by
  obtain ⟨r, hr, h1, h2⟩ := (cellRuns_iff (fun i => (f i).map Prod.snd == some x.2) i).2 ⟨hi, by rw [h]; exact beq_self_eq_true _⟩
  unfold l2Rebuild
  refine ⟨_, List.mem_flatMap.2 ⟨x.2, mem_uniq' (List.mem_filterMap.2 ⟨i, List.mem_range.2 hi, by rw [h]; rfl⟩), List.mem_map_of_mem hr⟩, rfl, rfl, h1, ?_⟩
  rw [List.length_map, List.length_range]
  exact h2

/-- A cell that every block holding it holds alike, without a lease. -/
theorem l2Cell_of {L : List L2Block} {now die frame i : Nat} {c : L2Cell} (h : ∃ b ∈ L, b.holds die frame i)
    (hc : ∀ b ∈ L, b.holds die frame i → b.expiry = none ∧ b.cells[i - b.start]? = some c) : l2Cell L now die frame i = some c := by
  unfold l2Cell
  obtain ⟨b, hb, hh⟩ := h
  cases hf : L.find? _ with
  | none =>
    have he := (hc b hb hh).1
    obtain ⟨h1, h2, h3, h4⟩ := hh
    exact absurd (by simp [h1, h2, h3, h4, L2Block.live, he]) (List.find?_eq_none.1 hf b hb)
  | some b' =>
    have hp := List.find?_some hf
    simp only [Bool.and_eq_true, beq_iff_eq, decide_eq_true_eq] at hp
    exact (hc b' (List.mem_of_find?_eq_some hf) ⟨hp.1.1.1.1, hp.1.1.1.2, hp.1.1.2, hp.1.2⟩).2

theorem l2Cell_none {L : List L2Block} {now die frame i : Nat} (h : ∀ b ∈ L, ¬ b.holds die frame i) : l2Cell L now die frame i = none := by
  unfold l2Cell
  rw [List.find?_eq_none.2]
  intro b hb hp
  simp only [Bool.and_eq_true, beq_iff_eq, decide_eq_true_eq] at hp
  exact h b hb ⟨hp.1.1.1.1, hp.1.1.1.2, hp.1.1.2, hp.1.2⟩

/-- A block of a map of the slices in which one frame is rebuilt: one of the rebuilt ones, where it is of that frame. -/
theorem rebuilt_mem {R L : List L2Block} {die frame i : Nat} {b : L2Block} (hb : b ∈ R ++ L.filter fun b => !b.isOf die frame) (hh : b.holds die frame i) :
    b ∈ R := by
  rcases List.mem_append.1 hb with hb | hb
  · exact hb
  · have := (List.mem_filter.1 hb).2
    unfold L2Block.isOf at this
    simp [hh.1, hh.2.1] at this

/-- A cell put into a local slice is what the slice then holds. -/
theorem l2Cell_put {m : Mem} {now die frame : Nat} {g : L2Tag} {st : Bool} {new : List (Nat × L2Cell)} {i : Nat} (hi : i < 16) {c : L2Cell}
    (h : new.find? (fun p => p.1 == i) = some (i, c)) : l2Cell (l2Put m die frame g st none new).l2 now die frame i = some c := by
  refine l2Cell_of ?_ fun b hb hh => ?_
  · obtain ⟨b, hb, hh⟩ := rebuild_has (old := m.l2.filter fun b => b.isOf die frame) (die := die) (frame := frame) (g := g) (st := st) (new := new.map Prod.fst)
      (f := fun i => match new.find? fun p => p.1 == i with
        | some p => some (p.2, none)
        | none => l2Held (m.l2.filter fun b => b.isOf die frame) die frame i) (x := (c, none)) hi (by rw [h])
    exact ⟨b, List.mem_append_left _ hb, hh⟩
  · obtain ⟨x, h1, h2⟩ := rebuild_holds (rebuilt_mem hb hh) hh.2.2.1 hh.2.2.2
    rw [h] at h1
    obtain ⟨rfl, he⟩ := Prod.mk.inj (Option.some.inj h1)
    exact ⟨he.symm, h2⟩

/-- The cells removed from a local slice are gone. -/
theorem l2Cell_remove (m : Mem) (now die frame : Nat) {cs : List Nat} {i : Nat} (hi : i ∈ cs) : l2Cell (l2Remove m die frame cs).l2 now die frame i = none := by
  refine l2Cell_none fun b hb hh => ?_
  unfold l2Remove at hb
  dsimp only at hb
  split at hb
  · rename_i he
    rw [List.isEmpty_iff] at he
    have : b ∈ m.l2.filter fun b => b.isOf die frame := List.mem_filter.2 ⟨hb, by unfold L2Block.isOf; simp [hh.1, hh.2.1]⟩
    rw [he] at this
    cases this
  · obtain ⟨x, h1, -⟩ := rebuild_holds (rebuilt_mem hb hh) hh.2.2.1 hh.2.2.2
    rw [if_pos (by simpa using hi)] at h1
    cases h1

/-- What a slice holds of a frame depends on its blocks of that frame alone. -/
theorem l2Cell_frame (L : List L2Block) (now die frame i : Nat) : l2Cell L now die frame i = l2Cell (L.filter fun b => b.frame == frame) now die frame i := by
  unfold l2Cell
  rw [List.find?_filter]
  congr 1
  congr 1
  funext b
  by_cases h : b.frame = frame
  · simp only [h, beq_self_eq_true, Bool.and_true, true_and, Bool.decide_eq_true, beq_eq_decide]
  · simp [h]

theorem lpddrPut_l2 (m : Mem) (frame : Nat) (cs : List Nat) : (lpddrPut m frame cs).l2 = m.l2 := rfl

theorem llcPut_l2 (m : Mem) (frame wayp policy : Nat) (x y : BitVec 16) : (llcPut m frame wayp policy x y).l2 = m.l2 := by
  unfold llcPut
  split
  · rfl
  · dsimp only
    split <;> rfl

theorem evictHome_l2 (s : State) (v : HomeBlock) : (evictHome s v).mem.l2 = s.mem.l2 := by
  unfold evictHome
  dsimp only
  split
  · rfl
  · exact llcPut_l2 _ _ _ _ _ _

theorem lowestRank_mem {α : Type} {rank : α → Nat} {l : List α} {x : α} (h : lowestRank rank l = some x) : x ∈ l := by
  unfold lowestRank at h
  have : ∀ (L : List α) (b : Option α), (∀ y, b = some y → y ∈ l) → (∀ y ∈ L, y ∈ l) → ∀ y, L.foldl (fun best x => match best with
      | some v => if rank v < rank x then best else some x
      | none => some x) b = some y → y ∈ l := by
    intro L
    induction L with
    | nil => exact fun b hb _ y hy => hb y hy
    | cons a L ih =>
      intro b hb hL y hy
      refine ih _ ?_ (fun y hy => hL y (List.mem_cons_of_mem _ hy)) y hy
      intro z hz
      have ha := hL a List.mem_cons_self
      dsimp only at hz
      split at hz
      · split at hz
        · exact hb z hz
        · cases hz; exact ha
      · cases hz; exact ha
  exact this l none (fun _ h => by cases h) (fun _ h => h) x h

/-- A set made to fit keeps every block of the frame it is made to fit for (R189). -/
theorem trimSet_frame (die frame f : Nat) (s : State) :
    ((trimSet die frame f s).mem.l2.filter fun b => b.frame == frame) = s.mem.l2.filter fun b => b.frame == frame := by
  have loc : ∀ (s : State) (v : L2Block), lowestRank (fun b => policyRank b.policy) ((l2Set s.mem die frame).filter fun b => b.frame != frame) = some v →
      ((evictLocal s v).mem.l2.filter fun b => b.frame == frame) = s.mem.l2.filter fun b => b.frame == frame := by
    intro s v hv
    have hne : v.frame ≠ frame := by simpa using (List.mem_filter.1 (lowestRank_mem hv)).2
    show ((s.mem.l2.filter fun b => b != v).filter fun b => b.frame == frame) = _
    rw [List.filter_filter]
    refine List.filter_congr fun b _ => ?_
    by_cases h : b = v
    · subst h; simp [hne]
    · simp [h]
  induction f generalizing s with
  | zero => rfl
  | succ f ih =>
    unfold trimSet
    dsimp only
    split
    · rfl
    · split
      · rfl
      · rw [ih, evictHome_l2]
      · rename_i hv; rw [ih]; exact loc s _ hv
      · split
        · rw [ih, evictHome_l2]
        · rename_i hv _; rw [ih]; exact loc s _ hv

/-- A set made to fit leaves the transactions in progress and the directory. -/
theorem trimSet_txns (die frame f : Nat) (s : State) : (trimSet die frame f s).mem.txns = s.mem.txns ∧ (trimSet die frame f s).mem.dir = s.mem.dir := by
  have home : ∀ (s : State) (v : HomeBlock), (evictHome s v).mem.txns = s.mem.txns ∧ (evictHome s v).mem.dir = s.mem.dir := by
    intro s v
    unfold evictHome llcPut
    dsimp only
    repeat' split
    all_goals exact ⟨rfl, rfl⟩
  induction f generalizing s with
  | zero => exact ⟨rfl, rfl⟩
  | succ f ih =>
    unfold trimSet
    dsimp only
    split
    · exact ⟨rfl, rfl⟩
    · split
      · exact ⟨rfl, rfl⟩
      · exact ⟨(ih _).1.trans (home _ _).1, (ih _).2.trans (home _ _).2⟩
      · exact ih _
      · split
        · exact ⟨(ih _).1.trans (home _ _).1, (ih _).2.trans (home _ _).2⟩
        · exact ih _

theorem trimL2_txns (s : State) (d frame : Nat) : (trimL2 s d frame).mem.txns = s.mem.txns ∧ (trimL2 s d frame).mem.dir = s.mem.dir :=
  trimSet_txns d frame 64 s

/-- What a slice holds of the frame that its set was made to fit for. -/
theorem trimL2_cell (s : State) (d frame now die i : Nat) : l2Cell (trimL2 s d frame).mem.l2 now die frame i = l2Cell s.mem.l2 now die frame i := by
  rw [l2Cell_frame, l2Cell_frame s.mem.l2]
  unfold trimL2
  rw [trimSet_frame]

/-! ## L1 -/

theorem predLearns_only (L : List L1Block) (m : Mem) : ∃ p, L.foldl predLearn m = { m with predict := p } :=
  List.foldlRecOn (motive := fun x => ∃ p, x = { m with predict := p }) L predLearn ⟨m.predict, rfl⟩ fun x ⟨p, hp⟩ b _ => by
    rw [hp]
    unfold predLearn
    split
    · exact ⟨p, rfl⟩
    · exact ⟨_, rfl⟩

theorem l1Drop_only (m : Mem) (p : L1Block → Bool) : ∃ l1 pr, l1Drop m p = { m with l1 := l1, predict := pr } := by
  obtain ⟨q, hq⟩ := predLearns_only (m.l1.filter p) { m with l1 := m.l1.filter fun b => !p b }
  exact ⟨_, q, hq⟩

theorem l1Trim_only (core set keep n : Nat) (m : Mem) : ∃ l1 pr, l1Trim core set keep n m = { m with l1 := l1, predict := pr } := by
  induction n generalizing m with
  | zero => exact ⟨m.l1, m.predict, rfl⟩
  | succ n ih =>
    unfold l1Trim
    dsimp only
    split
    · exact ⟨m.l1, m.predict, rfl⟩
    · split
      · exact ⟨m.l1, m.predict, rfl⟩
      · rename_i v _
        obtain ⟨p, hp⟩ := predLearns_only [v] { m with l1 := m.l1.filter fun b => b != v }
        rw [List.foldl_cons, List.foldl_nil] at hp
        rw [hp]
        obtain ⟨l1, pr, h⟩ := ih { m with l1 := m.l1.filter (fun b => b != v), predict := p }
        exact ⟨l1, pr, h⟩

theorem l1Put_only (m : Mem) (core frame : Nat) (pc : VAddr) (c pol : Nat) (new : List (Nat × BitVec 256)) :
    ∃ l1 pr, l1Put m core frame pc c pol new = { m with l1 := l1, predict := pr } := by
  unfold l1Put
  obtain ⟨l1, pr, h⟩ := l1Trim_only core (l1SetOf frame) frame 32 { m with l1 := _ }
  exact ⟨l1, pr, h⟩

theorem l1DropCells_only (m : Mem) (core frame : Nat) (cs : List Nat) : ∃ l1 pr, l1DropCells m core frame cs = { m with l1 := l1, predict := pr } := by
  unfold l1DropCells
  split
  · dsimp only
    obtain ⟨p, hp⟩ := predLearns_only ((m.l1.filter fun b => b.isOf core frame).filter fun b => (List.range b.cells.length).all fun j =>
      (if cs.contains (b.start + j) then none else l1Cell (m.l1.filter fun b => b.isOf core frame) core frame (b.start + j)).isNone) { m with l1 := _ }
    rw [hp]
    obtain ⟨l1, pr, h⟩ := l1Trim_only core (l1SetOf frame) frame 32 { m with l1 := _, predict := p }
    exact ⟨l1, pr, h⟩
  · exact ⟨m.l1, m.predict, rfl⟩

/-! ## The parts of an operation -/

theorem findTxn_id {m : Mem} {id : Nat} {x : Txn} (h : findTxn m id = some x) : x.id = id := by simpa using List.find?_some h

theorem findOp_id {m : Mem} {id : Nat} {o : MemOp} (h : findOp m id = some o) : o.id = id := by simpa using List.find?_some h

/-- The operation found after every operation is mapped. -/
theorem findOp_map {m m' : Mem} {op : Nat} {o : MemOp} {f : MemOp → MemOp} (hf : ∀ q, (f q).id = q.id) (h : findOp m op = some o) (hm : m'.ops = m.ops.map f) :
    findOp m' op = some (f o) := by
  unfold findOp at h ⊢
  rw [hm, List.find?_map]
  rw [show ((fun o : MemOp => o.id == op) ∘ f) = fun o : MemOp => o.id == op from funext fun q => by show ((f q).id == op) = _; rw [hf], h]
  rfl

/-- A part after a map of every operation that keeps their numbers. -/
theorem PartNow.map {m m' : Mem} {op i : Nat} {P Q : MemPart → Prop} (f : MemOp → MemOp) (hm : m'.ops = m.ops.map f) (hf : ∀ q, (f q).id = q.id)
    (h : PartNow m op i P) (hPQ : ∀ o p, findOp m op = some o → o.parts[i]? = some p → P p → ∃ p', (f o).parts[i]? = some p' ∧ Q p') : PartNow m' op i Q := by
  obtain ⟨o, p, ho, hp, h⟩ := h
  obtain ⟨p', hp', h'⟩ := hPQ o p ho hp h
  exact ⟨f o, p', findOp_map hf ho hm, hp', h'⟩

theorem PartNow.congr {m m' : Mem} {op i : Nat} {P : MemPart → Prop} (h : m'.ops = m.ops) (hp : PartNow m op i P) : PartNow m' op i P := by
  obtain ⟨o, p, h1, h2⟩ := hp
  exact ⟨o, p, by unfold findOp at h1 ⊢; rw [h]; exact h1, h2⟩

theorem PartNow.mono {m : Mem} {op i : Nat} {P Q : MemPart → Prop} (hp : PartNow m op i P) (h : ∀ p, P p → Q p) : PartNow m op i Q := by
  obtain ⟨o, p, h1, h2, h3⟩ := hp
  exact ⟨o, p, h1, h2, h p h3⟩

/-- A part is marked performed, and acknowledged where that is said. -/
theorem markPart_now {m : Mem} {op i : Nat} {P : MemPart → Prop} (a : Bool) (h : PartNow m op i P) :
    PartNow (markPart m op i a) op i fun q => ∃ p, P p ∧ q = { p with performed := true, acked := p.acked || a } := by
  refine h.map (fun q => if q.id == op || (match findOp m op with
    | some o => o.joint && q.issue == o.issue
    | none => false) then setPart q i fun r => { r with performed := true, acked := r.acked || a } else q) rfl (fun q => by
      repeat' split
      all_goals rfl) fun o p ho hp h => ?_
  rw [if_pos (by rw [findOp_id ho]; simp)]
  refine ⟨_, ?_, p, h, rfl⟩
  show (modAt o.parts i _)[i]? = _
  rw [modAt_get, if_pos rfl, hp]
  rfl

/-- The parts of an issue at an address acknowledged: what is marked performed there is marked acknowledged. -/
theorem ackParts_now {m : Mem} {op i is pa : Nat} {P : MemPart → Prop} (h : PartNow m op i P) :
    PartNow (ackParts m is pa) op i fun q => ∃ p, P p ∧ (q = p ∨ q = { p with acked := true }) := by
  refine h.map (fun q => if q.issue == is then
      { q with parts := q.parts.map fun r => if r.pa == pa && r.performed then { r with acked := true } else r }
    else q) rfl (fun q => by split <;> rfl) fun o p ho hp h => ?_
  split
  · refine ⟨_, by show (o.parts.map _)[i]? = _; rw [List.getElem?_map, hp]; rfl, p, h, ?_⟩
    dsimp only
    split
    · exact .inr rfl
    · exact .inl rfl
  · exact ⟨p, hp, p, h, .inl rfl⟩

/-- A part of a write acknowledged (R216, R326). -/
theorem ackWrite_now {s : State} {o : MemOp} {i pa : Nat} {P : MemPart → Prop} (h : PartNow s.mem o.id i P) :
    PartNow (ackWrite s o i pa).mem o.id i fun q => q.performed = true ∧ q.acked = true := by
  refine PartNow.congr (m := ackParts (markPart s.mem o.id i true) o.issue pa) (raiseClock_ops _ _ _) ((ackParts_now (markPart_now true h)).mono ?_)
  rintro q ⟨-, ⟨p, -, rfl⟩, rfl | rfl⟩
  · exact ⟨rfl, Bool.or_true _⟩
  · exact ⟨rfl, rfl⟩

theorem ackWrite_rest (s : State) (o : MemOp) (i pa : Nat) : (ackWrite s o i pa).exe = s.exe ∧ (ackWrite s o i pa).ctl = s.ctl ∧ (ackWrite s o i pa).sys = s.sys ∧
    (ackWrite s o i pa).mem = { s.mem with ops := (ackWrite s o i pa).mem.ops, clocks := (ackWrite s o i pa).mem.clocks } := by
  refine ⟨rfl, rfl, rfl, ?_⟩
  unfold ackWrite raiseClock
  dsimp only
  split <;> rfl

/-! ## Transactions (R326, R328) -/

theorem findTxn_modIf {m m' : Mem} {id : Nat} {x : Txn} (h : findTxn m id = some x) (f : Txn → Txn) (hf : ∀ z, z.id = id → (f z).id = id)
    (hm : m'.txns = modIf m.txns (fun z => z.id == id) f) : findTxn m' id = some (f x) := by
  unfold findTxn at h ⊢
  rw [hm]
  unfold modIf
  rw [List.find?_map]
  have : ((fun t : Txn => t.id == id) ∘ fun z => if (z.id == id) = true then f z else z) = fun t => t.id == id := by
    funext z
    by_cases hz : z.id = id
    · simp [hz, hf z hz]
    · simp [hz]
  rw [this, h, Option.map_some, if_pos (by simpa using List.find?_some h)]

/-- A store performed in the slice that owns its grain (R191, R326). -/
theorem storeDone (s : State) (m : Mem) (o : MemOp) (i : Nat) (p : MemPart) (a f : Nat) (hm : m.ops = s.mem.ops) :
    let t := trimL2 (ackWrite { s with mem := storeAtSlice m a o p } o i p.pa) a f
    t.ctl = s.ctl ∧ t.sys = s.sys ∧ t.exe.gangs = s.exe.gangs ∧ t.mem.txns = m.txns ∧
      (findOp s.mem o.id = some o → o.parts[i]? = some p → PartNow t.mem o.id i fun q => q.performed = true ∧ q.acked = true) := by
  obtain ⟨r1, r2, r3, r4⟩ := ackWrite_rest { s with mem := storeAtSlice m a o p } o i p.pa
  have hside := trimL2_side (ackWrite { s with mem := storeAtSlice m a o p } o i p.pa) a f
  refine ⟨hside.ctl, hside.sys, ?_, (trimL2_txns _ a f).1.trans (by rw [r4]; rfl), fun ho hp => ?_⟩
  · show (trimL2 _ a f).exe.gangs = _
    rw [hside.exe, r1]
  · refine PartNow.congr hside.mem.ops (ackWrite_now (P := fun _ => True) ⟨o, p, ?_, hp, trivial⟩)
    show m.ops.find? _ = _
    rw [hm]
    exact ho

/-- The end of a transaction takes it out of those in progress, and acknowledges its writer, where it is alone. -/
theorem txnDone_spec (s : State) (t : Txn) : (txnDone s t).ctl = s.ctl ∧ (txnDone s t).exe.gangs = s.exe.gangs ∧
    (txnDone s t).mem.txns = s.mem.txns.filter (fun x => x.id != t.id) ∧
    ((∀ y ∈ s.mem.txns, y.id ≠ t.id → y.writer ≠ t.writer ∧ t.writer ∉ y.also) → (∀ op i o p, t.writer = .part op i → findOp s.mem op = some o → o.parts[i]? = some p →
      PartNow (txnDone s t).mem op i fun q => q.performed = true ∧ q.acked = true) ∧
      (t.own = none → ∀ dev tag cls data, t.writer = .peer dev tag cls data → (txnDone s t).sys = { s.sys with out := s.sys.out ++ [answerOf s.sys dev tag cls 0 data] })) ∧
    ((∀ dev tag cls data, t.writer ≠ .peer dev tag cls data) → (txnDone s t).sys = s.sys) := by
  have wr : ∀ u : State, u.mem.txns = s.mem.txns.filter (fun x => x.id != t.id) → u.mem.ops = s.mem.ops → u.sys = s.sys → (ackWriter u t.writer).ctl = u.ctl ∧
      (ackWriter u t.writer).exe = u.exe ∧ (ackWriter u t.writer).mem.txns = u.mem.txns ∧
      ((∀ y ∈ s.mem.txns, y.id ≠ t.id → y.writer ≠ t.writer ∧ t.writer ∉ y.also) → (∀ op i o p, t.writer = .part op i → findOp s.mem op = some o → o.parts[i]? = some p →
        PartNow (ackWriter u t.writer).mem op i fun q => q.performed = true ∧ q.acked = true) ∧
        ∀ dev tag cls data, t.writer = .peer dev tag cls data → (ackWriter u t.writer).sys = { s.sys with out := s.sys.out ++ [answerOf s.sys dev tag cls 0 data] }) ∧
      ((∀ dev tag cls data, t.writer ≠ .peer dev tag cls data) → (ackWriter u t.writer).sys = s.sys) := by
    intro u hu ho hs
    have hw : (∀ y ∈ s.mem.txns, y.id ≠ t.id → y.writer ≠ t.writer ∧ t.writer ∉ y.also) → writerWaits u.mem t.writer = false := by
      intro h
      unfold writerWaits
      rw [hu, List.any_eq_false]
      intro y hy
      obtain ⟨h1, h2⟩ := List.mem_filter.1 hy
      obtain ⟨k1, k2⟩ := h y h1 (by simpa using h2)
      simp [k1, k2]
    refine ⟨?_, ?_, ?_, fun h => ⟨fun op i o p hwr hop hp => ?_, fun dev tag cls data hwr => ?_⟩, fun h => ?_⟩
    · unfold ackWriter
      repeat' split
      all_goals rfl
    · unfold ackWriter
      repeat' split
      all_goals rfl
    · unfold ackWriter
      repeat' split
      all_goals first | rfl | (rw [(ackWrite_rest _ _ _ _).2.2.2])
    · have hop' : findOp u.mem op = some o := by unfold findOp at hop ⊢; rw [ho]; exact hop
      unfold ackWriter
      rw [if_neg (by rw [hw h]; exact Bool.false_ne_true), hwr]
      dsimp only
      rw [hop']
      have hid := findOp_id hop
      subst hid
      exact ackWrite_now (P := fun _ => True) ⟨o, p, hop', hp, trivial⟩
    · unfold ackWriter
      rw [if_neg (by rw [hw h]; exact Bool.false_ne_true), hwr]
      show ({ u.sys with out := _ } : Sys) = _
      rw [hs]
      rfl
    · unfold ackWriter
      repeat' split
      all_goals first | exact hs | (rename_i hp; exact absurd hp (h _ _ _ _))
  unfold txnDone
  dsimp only
  split
  · rename_i hown
    obtain ⟨w1, w2, w3, w4, w5⟩ := wr { s with mem := { s.mem with txns := s.mem.txns.filter (fun x => x.id != t.id), dir := _ } } rfl rfl rfl
    exact ⟨w1, by rw [w2], w3, fun h => ⟨(w4 h).1, fun _ => (w4 h).2⟩, w5⟩
  · rename_i a hown
    unfold ownDone
    dsimp only
    split
    · rename_i op i hwr
      have none_ : ∀ dev tag cls data, t.writer ≠ .peer dev tag cls data := fun _ _ _ _ h => by rw [hwr] at h; cases h
      split
      · rename_i hn
        refine ⟨rfl, rfl, rfl, fun _ => ⟨fun op' i' o p h1 h2 h3 => ?_, fun h => by rw [hown] at h; cases h⟩, fun _ => rfl⟩
        rw [hwr] at h1; cases h1
        rw [show findOp s.mem op = none from hn] at h2; cases h2
      · rename_i o ho
        split
        · rename_i hpn
          refine ⟨rfl, rfl, rfl, fun _ => ⟨fun op' i' o' p h1 h2 h3 => ?_, fun h => by rw [hown] at h; cases h⟩, fun _ => rfl⟩
          rw [hwr] at h1; cases h1
          rw [show findOp s.mem op = some o from ho] at h2; cases h2
          rw [hpn] at h3; cases h3
        · rename_i p hp
          obtain ⟨r1, r2, r3, r4, r5⟩ := storeDone s { s.mem with txns := s.mem.txns.filter (fun x => x.id != t.id), dir := _ } o i p a (frameOf t.grain) rfl
          refine ⟨r1, r3, r4, fun _ => ⟨fun op' i' o' p' h1 h2 h3 => ?_, fun h => by rw [hown] at h; cases h⟩, fun _ => r2⟩
          rw [hwr] at h1; cases h1
          rw [show findOp s.mem op = some o from ho] at h2; cases h2
          have hid := findOp_id ho
          subst hid
          exact r5 ho hp
    all_goals
      rename_i hwr
      refine ⟨rfl, rfl, rfl, fun _ => ⟨fun op' i' o' p h1 h2 h3 => ?_, fun h => by rw [hown] at h; cases h⟩, fun _ => rfl⟩
      rw [hwr] at h1; cases h1

end Sys2Proof.Machine
end

