-- ==== Sys2Proof/Laws/Homes.lean ====
section
/-! SUPPORT. Laws/Homes.lean: what a home's service of loads and stores keeps, and what it brings. -/

namespace Sys2Proof.Machine

theorem wanted_mem (span bf af c : Nat) (hc : c < 16) : (wanted span bf af c c c).1 ≤ c ∧ c ≤ (wanted span bf af c c c).2 := by
  unfold wanted
  by_cases h : 1 ≤ span ∧ span ≤ 5
  · rw [if_pos h]
    dsimp only
    have hn : c % 2 ^ (span - 1) < 2 ^ (span - 1) := Nat.mod_lt _ (by positivity)
    have hle := Nat.mod_le c (2 ^ (span - 1))
    split <;> split <;> split <;> omega
  · rw [if_neg h]
    dsimp only
    split <;> split <;> split <;> omega

/-- Where the bytes of an aligned number stand. -/
theorem num_space {s : State} {pa n : Nat} (hn : n = 4 ∨ n = 8) (ha : pa % n = 0) (j : Nat) (hj : j < n) :
    paHost (ownDev s.sys) (pa + j) = paHost (ownDev s.sys) pa ∧ paLocal (ownDev s.sys) (pa + j) = paLocal (ownDev s.sys) pa ∧
    paOff (pa + j) = paOff pa + j ∧ (paHost (ownDev s.sys) pa = true → hostAddr (pa + j) = hostAddr pa + j) := by
  have h1 : paOff (pa + j) = paOff pa + j := by unfold paOff; rcases hn with rfl | rfl <;> omega
  have h2 : paDev (pa + j) = paDev pa := by unfold paDev; rcases hn with rfl | rfl <;> omega
  have h3 : paOff pa % n = 0 := by unfold paOff; rcases hn with rfl | rfl <;> omega
  refine ⟨?_, ?_, h1, fun _ => ?_⟩
  · unfold paHost
    rw [h1, h2]
    congr 1
    rw [decide_eq_decide]
    unfold hostBase
    rcases hn with rfl | rfl <;> omega
  · unfold paLocal
    rw [h1, h2]
    congr 1
    rw [decide_eq_decide]
    unfold devTop
    rcases hn with rfl | rfl <;> omega
  · unfold hostAddr
    rw [h1]
    rcases hn with rfl | rfl <;> omega

/-- A number that an engine writes at device memory that its home alone holds, or at host memory, is what the next read finds. -/
theorem numAt_engineWrite {s : State} (w : Writer) (leaf : Nat) (hg : GrainsOk s.mem.dir) {pa n v : Nat} (hn : n = 4 ∨ n = 8) (ha : pa % n = 0)
    (hl : paHost (ownDev s.sys) pa = true ∨ paLocal (ownDev s.sys) pa = true ∧ AtHome s (paOff pa) n) :
    numAt (engineWrite s w leaf pa (natLe v n)) pa n = v % 2 ^ (8 * n) := by
  have hb : (List.range n).map (fun j => spaceByte (engineWrite s w leaf pa (natLe v n)) (pa + j)) = natLe v n := by
    refine List.ext_getElem (by simp [natLe_length]) fun j h1 h2 => ?_
    have hj : j < n := by simpa using h1
    rw [List.getElem_map, List.getElem_range]
    obtain ⟨e1, e2, e3, e4⟩ := num_space (s := s) hn ha j hj
    have hgd : (natLe v n)[j]?.getD 0 = (natLe v n)[j] := by rw [List.getElem?_eq_getElem h2]; rfl
    unfold spaceByte
    rw [(engineWrite_side s w leaf pa _).sys, e1, e2]
    rcases hl with hh | ⟨hl, hat⟩
    · rw [if_pos hh, e4 hh]
      unfold engineWrite
      rw [if_pos hh]
      show smGet (smPut s.mem.host (hostAddr pa) (natLe v n)) _ = _
      rw [smGet_smPut, if_pos ⟨by omega, by rw [natLe_length]; omega⟩, show hostAddr pa + j - hostAddr pa = j by omega, hgd]
    · by_cases hh : paHost (ownDev s.sys) pa = true
      · rw [if_pos hh, e4 hh]
        unfold engineWrite
        rw [if_pos hh]
        show smGet (smPut s.mem.host (hostAddr pa) (natLe v n)) _ = _
        rw [smGet_smPut, if_pos ⟨by omega, by rw [natLe_length]; omega⟩, show hostAddr pa + j - hostAddr pa = j by omega, hgd]
      · have hup := (hat j hj).2
        have hlost : s.sys.lostDies.contains (homeDie (paOff (pa + j))) = false := by
          unfold homeUp at hup; rw [e3]; simpa using hup
        rw [if_neg hh, if_pos hl, hlost, e3]
        unfold engineWrite
        rw [if_neg hh, if_pos hl]
        have := homeWrite_byte hg w leaf (paOff pa) (natLe v n) (hat j hj).1 hup ⟨by omega, by rw [natLe_length]; omega⟩
        rw [if_neg (by simp)]
        rw [show paOff pa + j - paOff pa = j by omega, List.getD_eq_getElem?_getD, hgd] at this
        exact this
  unfold numAt
  rw [hb]
  rw [leNat_natLe, pow_mul]
  norm_num

theorem numAt_lt (s : State) (pa n : Nat) : numAt s pa n < 2 ^ (8 * n) := by
  have : ∀ bs : List Byte, leNat bs < 256 ^ bs.length := by
    intro bs
    induction bs with
    | nil => decide
    | cons b bs ih =>
      show b.toNat + 256 * leNat bs < 256 ^ (bs.length + 1)
      have := b.isLt
      rw [pow_succ]
      omega
  have h := this ((List.range n).map fun j => spaceByte s (pa + j))
  rw [List.length_map, List.length_range] at h
  unfold numAt
  rw [pow_mul]
  exact h

/-! ## Queue headers -/

/-- What a queue operation can do to the rest of the machine: numbers are given out, the home's side of memory changes, queues change
their states and records, and packets go to peers whose memory a header is in. -/
structure QueueSide (P : Nat → Prop) (s t : State) : Prop where
  exe : OnlyIds s t
  ctl : t.ctl = { s.ctl with queues := t.ctl.queues, stampNo := t.ctl.stampNo }
  sys : t.sys = { s.sys with out := t.sys.out, flight := t.sys.flight }
  mem : MemSide P s.mem t.mem
  from_ : ∀ q ∈ t.ctl.queues, ∃ q0 ∈ s.ctl.queues, q0.id = q.id ∧ q0.pa = q.pa ∧ q0.part = q.part ∧ q0.ctx = q.ctx

theorem QueueSide.refl (P : Nat → Prop) (s : State) : QueueSide P s s := ⟨rfl, rfl, rfl, .refl P _, fun q h => ⟨q, h, rfl, rfl, rfl, rfl⟩⟩

theorem QueueSide.trans {P : Nat → Prop} {a b c : State} (h : QueueSide P a b) (k : QueueSide P b c) : QueueSide P a c where
  exe := by rw [OnlyIds, k.exe, h.exe]
  ctl := by rw [k.ctl, h.ctl]
  sys := by rw [k.sys, h.sys]
  mem := h.mem.trans k.mem
  from_ := fun q hq => by
    obtain ⟨q1, h1, e⟩ := k.from_ q hq
    obtain ⟨q0, h0, e0⟩ := h.from_ q1 h1
    exact ⟨q0, h0, e0.1.trans e.1, e0.2.1.trans e.2.1, e0.2.2.1.trans e.2.2.1, e0.2.2.2.trans e.2.2.2⟩

theorem QueueSide.mono {P Q : Nat → Prop} {a b : State} (h : QueueSide P a b) (hpq : ∀ off, P off → Q off) : QueueSide Q a b :=
  ⟨h.exe, h.ctl, h.sys, h.mem.mono hpq, h.from_⟩

theorem HomeSide.queue {P : Nat → Prop} {s t : State} (h : HomeSide P s t) : QueueSide P s t where
  exe := h.exe
  ctl := by rw [h.ctl]
  sys := by rw [h.sys]
  mem := h.mem
  from_ := fun q hq => ⟨q, by rw [h.ctl] at hq; exact hq, rfl, rfl, rfl, rfl⟩

/-- A queue's record changed after what `h` says. -/
theorem QueueSide.modQueue {P : Nat → Prop} {s t : State} (h : QueueSide P s t) (id : Nat) (f : Queue → Queue)
    (hf : ∀ q, (f q).id = q.id ∧ (f q).pa = q.pa ∧ (f q).part = q.part ∧ (f q).ctx = q.ctx) : QueueSide P s (modQueue t id f) := by
  refine h.trans ⟨rfl, rfl, rfl, .refl P _, fun q hq => ?_⟩
  obtain ⟨q0, hq0, rfl⟩ := List.mem_map.1 hq
  refine ⟨q0, hq0, ?_⟩
  split
  · exact ⟨(hf q0).1.symm, (hf q0).2.1.symm, (hf q0).2.2.1.symm, (hf q0).2.2.2.symm⟩
  · exact ⟨rfl, rfl, rfl, rfl⟩

/-- A write by this device: the bytes at their home, or one packet to a peer that is there (R326, R333, R336). -/
theorem deviceWrite_side (s : State) (w : Writer) (part leaf pa : Nat) (bs : List Byte) :
    QueueSide (RunOf (paOff pa) bs.length) s (deviceWrite s w part leaf pa bs) := by
  unfold deviceWrite
  split
  · exact (engineWrite_side s w leaf pa bs).queue
  · split
    · exact .refl _ s
    · exact ⟨rfl, rfl, rfl, .refl _ _, fun q h => ⟨q, h, rfl, rfl, rfl, rfl⟩⟩

/-- The bytes of a header's STATE and ERR. -/
def HeaderOf (s : State) : Nat → Prop := fun off => ∃ q ∈ s.ctl.queues, off = paOff (q.pa + 0x1B) ∨ off = paOff (q.pa + 0x1F)

theorem QueueSide.headers {P : Nat → Prop} {s t : State} (h : QueueSide P s t) (off : Nat) (ho : HeaderOf t off) : HeaderOf s off := by
  obtain ⟨q, hq, e⟩ := ho
  obtain ⟨q0, h0, -, e0, -⟩ := h.from_ q hq
  exact ⟨q0, h0, by rw [e0]; exact e⟩

/-- A queue that enters a state: of memory no byte changes but its header's STATE and ERR (R91). -/
theorem setQState_side {s : State} {q : Queue} (x : QState) (err : Nat) :
    QueueSide (fun off => off = paOff (q.pa + 0x1B) ∨ off = paOff (q.pa + 0x1F)) s (setQState s q x err) := by
  have hrun : ∀ (o v off : Nat), RunOf (paOff (q.pa + o)) (natLe v 1).length off → off = paOff (q.pa + o) := fun o v off h => by
    unfold RunOf at h
    rw [natLe_length] at h
    omega
  have h := ((deviceWrite_side s .nobody q.part q.leaf (q.pa + 0x1B) (natLe (qCode x) 1)).mono (hrun _ _)).mono
    (Q := fun off => off = paOff (q.pa + 0x1B) ∨ off = paOff (q.pa + 0x1F)) (fun _ => .inl)
  have k := fun u => ((deviceWrite_side u .nobody q.part q.leaf (q.pa + 0x1F) (natLe err 1)).mono (hrun _ _)).mono
    (Q := fun off => off = paOff (q.pa + 0x1B) ∨ off = paOff (q.pa + 0x1F)) (fun _ => .inr)
  unfold setQState hdrPut
  dsimp only
  split
  · refine (h.trans (k _)).trans ⟨rfl, rfl, rfl, .refl _ _, fun y hy => ⟨y, (List.mem_filter.1 hy).1, rfl, rfl, rfl, rfl⟩⟩
  · exact (h.trans (k _)).modQueue _ _ fun _ => ⟨rfl, rfl, rfl, rfl⟩

theorem queueById_mem {qs : List Queue} {id : Nat} {q : Queue} (h : queueById qs id = some q) : q ∈ qs ∧ q.id = id :=
  ⟨List.mem_of_find?_eq_some h, beq_iff_eq.1 (List.find?_some (p := fun q : Queue => q.id == id) h)⟩

/-- Every queue moved by its conditions: of memory no byte changes but headers' STATE and ERR (R91, R92). -/
theorem settleQueues_side (s : State) : QueueSide (HeaderOf s) s (settleQueues s) := by
  unfold settleQueues
  refine List.foldlRecOn (motive := QueueSide (HeaderOf s) s) _ _ (.refl _ s) fun t h q0 _ => ?_
  split
  · exact h
  · rename_i q hq
    split
    · exact h.trans ((setQState_side _ _).mono fun off ho => h.headers off ⟨q, (queueById_mem hq).1, ho⟩)
    · exact h

/-- A queue's record changed, and every queue moved, after what `h` says. -/
theorem QueueSide.settle {s t : State} (h : QueueSide (fun _ => True) s t) (id : Nat) (f : Queue → Queue)
    (hf : ∀ q, (f q).id = q.id ∧ (f q).pa = q.pa ∧ (f q).part = q.part ∧ (f q).ctx = q.ctx) :
    QueueSide (fun _ => True) s (settleQueues (Machine.modQueue t id f)) :=
  (h.modQueue id f hf).trans ((settleQueues_side _).mono fun _ _ => trivial)

/-- What the hub holds of a header, a packet or an event it has read changes no byte (R322). -/
theorem hubHold_side (s : State) (leaf pa : Nat) : HomeSide NoByte s (hubHold s leaf pa) := by
  unfold hubHold
  dsimp only
  split
  · exact (homeShare_side s 10 _ _ _).trans (.of_mem (.same rfl rfl rfl rfl rfl rfl rfl id))
  · exact .refl _ s

/-- ENQ at the home: queues and their headers, the entry and packets to peers change, and nothing else (R94). -/
theorem qEnq_side (s : State) (w : Writer) (q : Queue) (img : List Byte) : QueueSide (fun _ => True) s (qEnq s w q img).1 := by
  have dw := fun (s : State) (leaf pa : Nat) (bs : List Byte) => (deviceWrite_side s w q.part leaf pa bs).mono (Q := fun _ => True) fun _ _ => trivial
  unfold qEnq
  dsimp only
  split
  · exact .refl _ s
  · split
    · exact dw ..
    · split
      · exact .refl _ s
      · split
        · exact (setQState_side (q := q) .error 5).mono fun _ _ => trivial
        · refine QueueSide.settle ?_ _ _ fun _ => ⟨rfl, rfl, rfl, rfl⟩
          exact ((dw _ _ _ _).trans (dw _ _ _ _)).trans ⟨rfl, rfl, rfl, .refl _ _, fun q h => ⟨q, h, rfl, rfl, rfl, rfl⟩⟩

/-- DEQ at the home (R94). -/
theorem qDeq_side (s : State) (w : Writer) (q : Queue) : QueueSide (fun _ => True) s (qDeq s w q).1 := by
  unfold qDeq
  dsimp only
  split
  · exact .refl _ s
  · split
    · exact .refl _ s
    · split
      · exact .refl _ s
      · split
        · exact (setQState_side (q := q) .error 5).mono fun _ _ => trivial
        · refine QueueSide.settle ?_ _ _ fun _ => ⟨rfl, rfl, rfl, rfl⟩
          exact (deviceWrite_side ..).mono fun _ _ => trivial

/-- An operation on a queue at its home (R94). -/
theorem qPerform_side (s : State) (w : Writer) (pa : Nat) (enq : Bool) (es : Option Nat) (img : List Byte) (peer : Bool) :
    QueueSide (fun _ => True) s (qPerform s w pa enq es img peer).1 := by
  unfold qPerform
  split
  · exact .refl _ s
  · rename_i q _
    cases es
    all_goals dsimp only
    all_goals repeat' split
    all_goals first | exact .refl _ s | exact qEnq_side .. | exact qDeq_side ..

/-- The answer of a queue operation is that of R94's table, where its slot is mapped. -/
theorem qPerform_answer (s : State) (w : Writer) (pa es : Nat) (enq : Bool) (img : List Byte)
    (hx : ∀ q, queueAt s.ctl.queues pa = some q → ∃ c, findCtx s.ctl.ctxs q.part q.ctx = some c ∧ ∀ k, ∃ x, xlate s 8 c (qSlot q k) (if enq then needW else needR) = .ok x) :
    (qPerform s w pa enq (some es) img false).2 = queueAnswer s pa es enq := by
  unfold qPerform queueAnswer
  cases hq : queueAt s.ctl.queues pa with
  | none => rfl
  | some q =>
    obtain ⟨c, hc, hxl⟩ := hx q hq
    have htail : qTail s q = numAt s (q.pa + 8) 8 := rfl
    have hhead : qHead s q = numAt s q.pa 8 := rfl
    have hown : qOwner s q = some c := hc
    dsimp only
    by_cases hbad : q.state = .error ∨ 3 < es ∨ es ≠ q.esize ∨ (enq = true ∧ q.state = .draining)
    · rw [if_pos hbad, if_pos]
      · rfl
      · rcases hbad with h | h | h | h <;> simp [h]
    · rw [if_neg hbad, if_neg]
      · push Not at hbad
        obtain ⟨b1, b2, b3, b4⟩ := hbad
        cases enq with
        | true =>
          obtain ⟨x, hx⟩ := hxl (numAt s (q.pa + 8) 8)
          simp only [if_true] at hx
          simp only [if_true, qEnq, b4 rfl, if_false, htail, hhead, hown, hx]
          split <;> rfl
        | false =>
          obtain ⟨x, hx⟩ := hxl (numAt s q.pa 8)
          simp only [Bool.false_eq_true, if_false] at hx
          simp only [Bool.false_eq_true, if_false, qDeq, htail, hhead, hown, hc, hx, Option.map_some]
          split
          · rfl
          · split <;> rfl
      · push Not at hbad
        obtain ⟨b1, b2, b3, b4⟩ := hbad
        intro h
        cases enq with
        | true => simp [b1, b3, b4 rfl] at h; omega
        | false => simp [b1, b3] at h; omega

/-- The answer is kept in its part. -/
theorem qAnswer_spec {m m' : Mem} {o : MemOp} {i : Nat} {p : MemPart} (a : QAns) (ack : Bool) (ho : findOp m o.id = some o) (hp : o.parts[i]? = some p) (hm : m'.ops = m.ops) :
    PartNow (qAnswer m' o.id i a ack) o.id i fun q => q.performed = true ∧ q.acked = ack ∧ q.got = some (natLe a.st 4 ++ natLe a.idx 4) ∧ q.wdata = a.ent := by
  have ho' : findOp m' o.id = some o := by unfold findOp at ho ⊢; rw [hm]; exact ho
  have := findOp_map (m' := qAnswer m' o.id i a ack) (f := fun q => if q.id == o.id then setPart q i fun r => { r with got := some (natLe a.st 4 ++ natLe a.idx 4), wdata := a.ent, performed := true, acked := ack } else q)
    (fun q => by split <;> rfl) ho' rfl
  rw [if_pos (beq_self_eq_true _)] at this
  refine ⟨_, { p with got := some (natLe a.st 4 ++ natLe a.idx 4), wdata := a.ent, performed := true, acked := ack }, this, ?_, rfl, rfl, rfl, rfl⟩
  show (modAt o.parts i _)[i]? = _
  rw [modAt_get, if_pos rfl, hp]
  rfl

theorem modAt_same {α : Type} {l : List α} {i : Nat} {x : α} (h : l[i]? = some x) : modAt l i (fun _ => x) = l := by
  apply List.ext_getElem?
  intro j
  rw [modAt_get]
  split
  · rename_i hj; rw [hj, h]; rfl
  · rfl

/-- The end of an operation: `u` stands before its retirement, its gang as `h`. -/
theorem ends_retire {s u : State} {o : MemOp} {g h : Gang} (hu : u.exe.gangs = modAt s.exe.gangs o.gang (fun _ => h))
    (hs : h.slices = g.slices) (hp : h.preds = g.preds) : Ends s (retireOp u o) o g (h.modSl o.slice fun x => clsSub x o.cls) := by
  refine ⟨fun q hq => ?_, ?_, fun k => ?_, hp⟩
  · simpa using (List.mem_filter.1 hq).2
  · show modAt u.exe.gangs o.gang _ = _
    rw [hu, modAt_modAt]
  · rw [sl_modSl, hs]
    have hsl : h.sl k = g.sl k := by unfold Gang.sl; rw [hs]
    rw [hsl]
    by_cases hk : k < g.slices.length
    · rw [List.getElem?_eq_getElem hk]; simp [hk]
    · rw [List.getElem?_eq_none (by omega)]; simp [hk]

theorem finishAcquire_exe (s : State) (o : MemOp) : (finishAcquire s o).exe = s.exe := by
  unfold finishAcquire
  split <;> rfl

theorem opLanes_spec (o : MemOp) : (opLanes o).Nodup ∧ ∀ l ∈ opLanes o, ∃ p ∈ o.parts, p.lane = l := by
  unfold opLanes
  have key : ∀ (L : List MemPart) (acc : List Nat), acc.Nodup → (∀ l ∈ acc, ∃ p ∈ o.parts, p.lane = l) → (∀ p ∈ L, p ∈ o.parts) →
      (L.foldl (fun ls p => if ls.contains p.lane then ls else ls ++ [p.lane]) acc).Nodup ∧
      ∀ l ∈ L.foldl (fun ls p => if ls.contains p.lane then ls else ls ++ [p.lane]) acc, ∃ p ∈ o.parts, p.lane = l := by
    intro L
    induction L with
    | nil => exact fun acc h1 h2 _ => ⟨h1, h2⟩
    | cons p L ih =>
      intro acc h1 h2 h3
      rw [List.foldl_cons]
      split
      · exact ih acc h1 h2 fun q hq => h3 q (List.mem_cons_of_mem _ hq)
      · rename_i hc
        refine ih _ ?_ ?_ fun q hq => h3 q (List.mem_cons_of_mem _ hq)
        · rw [List.nodup_append]
          refine ⟨h1, by simp, fun a ha b hb => ?_⟩
          rw [List.mem_singleton] at hb
          rintro rfl
          rw [List.contains_eq_mem, decide_eq_true_iff, ← hb] at hc
          exact hc ha
        · intro l hl
          rcases List.mem_append.1 hl with hl | hl
          · exact h2 l hl
          · rw [List.mem_singleton] at hl
            exact ⟨p, h3 p List.mem_cons_self, hl.symm⟩
  exact key o.parts [] List.nodup_nil (fun _ h => by cases h) fun _ h => h

/-- The registers after the results of an operation. -/
theorem writes_spec (o : MemOp) (m : SMap 32) (hd : o.dst + o.nreg ≤ 256) (l c : Nat) (hc : c < 256) :
    smGet (smPuts m ((opLanes o).flatMap (laneWrites o))) (regKey l c) =
      if l ∈ opLanes o ∧ o.dst ≤ c ∧ c < o.dst + o.nreg then BitVec.ofNat 32 (leNat (laneBytes o l) / 2 ^ (32 * (c - o.dst))) else smGet m (regKey l c) := by
  have one : ∀ (n : Nat) (l' : Nat) (m : SMap 32), n ≤ o.nreg → smGet (smPuts m ((List.range n).map fun i => (regKey l' (o.dst + i), BitVec.ofNat 32 (leNat (laneBytes o l') / 2 ^ (32 * i))))) (regKey l c) =
      if l = l' ∧ o.dst ≤ c ∧ c < o.dst + n then BitVec.ofNat 32 (leNat (laneBytes o l') / 2 ^ (32 * (c - o.dst))) else smGet m (regKey l c) := by
    intro n
    induction n with
    | zero => intro l' m _; rw [if_neg (by omega)]; rfl
    | succ n ih =>
      intro l' m hn
      rw [List.range_succ, List.map_append, smPuts_append]
      show smGet (smSet (smPuts m _) (regKey l' (o.dst + n)) _) _ = _
      rw [smGet_smSet, ih l' m (by omega)]
      by_cases h : l = l' ∧ c = o.dst + n
      · rw [if_pos ((regKey_inj hc (by omega)).2 h), if_pos ⟨h.1, by omega, by omega⟩, show c - o.dst = n by omega]
      · rw [if_neg (fun hk => h ((regKey_inj hc (by omega)).1 hk))]
        by_cases h2 : l = l' ∧ o.dst ≤ c ∧ c < o.dst + n
        · rw [if_pos h2, if_pos ⟨h2.1, h2.2.1, by omega⟩]
        · rw [if_neg h2, if_neg]
          rintro ⟨e1, e2, e3⟩
          by_cases hcn : c = o.dst + n
          · exact h ⟨e1, hcn⟩
          · exact h2 ⟨e1, e2, by omega⟩
  have hn := (opLanes_spec o).1
  generalize opLanes o = L at hn
  induction L generalizing m with
  | nil => rw [if_neg (fun h => by cases h.1)]; rfl
  | cons a L ih =>
    rw [List.nodup_cons] at hn
    rw [List.flatMap_cons, smPuts_append, ih _ hn.2]
    by_cases h : l ∈ L ∧ o.dst ≤ c ∧ c < o.dst + o.nreg
    · rw [if_pos h, if_pos ⟨List.mem_cons_of_mem _ h.1, h.2⟩]
    · rw [if_neg h]
      show smGet (smPuts m ((List.range o.nreg).map _)) _ = _
      rw [one o.nreg a m le_rfl]
      by_cases h2 : l = a ∧ o.dst ≤ c ∧ c < o.dst + o.nreg
      · rw [if_pos h2, if_pos ⟨by rw [h2.1]; exact List.mem_cons_self, h2.2⟩, h2.1]
      · rw [if_neg h2, if_neg]
        rintro ⟨e1, e2⟩
        rcases List.mem_cons.1 e1 with e1 | e1
        · exact h2 ⟨e1, e2⟩
        · exact h ⟨e1, e2⟩

/-- The results of an operation land. -/
theorem writeLanes_gangs (s : State) {o : MemOp} {g : Gang} (hg : s.exe.gangs[o.gang]? = some g) :
    (writeLanes s o).exe.gangs = modAt s.exe.gangs o.gang fun _ => { g with regs := smPuts g.regs ((opLanes o).flatMap (laneWrites o)) } := by
  show modAt s.exe.gangs o.gang _ = _
  exact modAt_const hg _

theorem landValue_ends {s u : State} {o : MemOp} {g : Gang} (hg : s.exe.gangs[o.gang]? = some g) (hu : u.exe.gangs = s.exe.gangs) (hd : o.dst + o.nreg ≤ 256) :
    ∃ g', Ends s (landValue u o) o g g' ∧ Returned o g g' := by
  have hw := writeLanes_gangs u (o := o) (g := g) (by rw [hu]; exact hg)
  rw [hu] at hw
  exact ⟨_, ends_retire hw rfl rfl, fun l c hc _ => writes_spec o g.regs hd l c hc⟩

theorem landLoad_ends {s u : State} {o : MemOp} {g : Gang} (hg : s.exe.gangs[o.gang]? = some g) (hu : u.exe.gangs = s.exe.gangs) (hd : o.dst + o.nreg ≤ 256) :
    ∃ g', Ends s (landLoad u o) o g g' ∧ Returned o g g' := by
  have hw := writeLanes_gangs u (o := o) (g := g) (by rw [hu]; exact hg)
  rw [hu] at hw
  refine ⟨_, ends_retire (h := { g with regs := smPuts g.regs ((opLanes o).flatMap (laneWrites o)) }) (u := finishAcquire (writeLanes u o) o) ?_ rfl rfl, fun l c hc _ => writes_spec o g.regs hd l c hc⟩
  rw [finishAcquire_exe]
  exact hw

theorem retire_ends {s u : State} {o : MemOp} {g : Gang} (hg : s.exe.gangs[o.gang]? = some g) (hu : u.exe.gangs = s.exe.gangs) :
    Ends s (retireOp u o) o g (g.modSl o.slice fun x => clsSub x o.cls) := by
  refine ends_retire (h := g) ?_ rfl rfl
  rw [hu, modAt_same hg]

/-- A FLUSH changes memory alone (R201). -/
theorem flushDo_mem (s : State) (o : MemOp) : ∃ m, flushDo s o = State.mk s.exe m s.ctl s.sys := by
  unfold flushDo
  split
  · exact ⟨s.mem, rfl⟩
  · refine List.foldlRecOn (motive := fun t : State => ∃ m, t = State.mk s.exe m s.ctl s.sys) o.parts _ ⟨s.mem, rfl⟩ fun t ht p _ => ?_
    split
    · exact ht
    · refine List.foldlRecOn (motive := fun t : State => ∃ m, t = State.mk s.exe m s.ctl s.sys) _ _ ht fun u ⟨m, hm⟩ j _ => ?_
      rw [hm]
      repeat' split
      all_goals exact ⟨_, rfl⟩

end Sys2Proof.Machine
end

