-- ==== Sys2Proof/Laws/Contexts.lean ====
section
/-! SUPPORT. Laws/Contexts.lean: what the parking and killing of a context's groups, and the commands of the control window, leave unchanged. -/

namespace Sys2Proof.Machine

/-! ### Groups of a context that park or are killed -/

/-- What survives of a context when its groups park or are killed. -/
def ctxCore (c : Ctx) : Ctx := { c with saves := [], lockUsed := 0, pinned := [], held := [] }

/-- What the areas, the windows and the records of gangs leave of a gang. -/
def gangCore (g : Gang) : List Slice × SMap 32 × SMap 32 × SMap 32 := (g.slices, g.regs, g.preds, g.sregs)

/-- What the parking or killing of groups of a context keeps; `S` are the groups that may change. -/
structure GroupsKeep (s t : State) (part cid : Nat) (S : Nat → Prop) : Prop where
  mem : t.mem = { s.mem with ops := t.mem.ops }
  sys : t.sys = s.sys
  gangs : t.exe.gangs.map gangCore = s.exe.gangs.map gangCore
  kernels : t.ctl.kernels = s.ctl.kernels
  queues : t.ctl.queues = s.ctl.queues
  samples : t.ctl.samples = s.ctl.samples
  faults : t.ctl.faults = s.ctl.faults
  partials : t.ctl.partials = s.ctl.partials
  parts : t.ctl.parts.map partBody = s.ctl.parts.map partBody
  ctxs : t.ctl.ctxs.map ctxCore = s.ctl.ctxs.map ctxCore
  others : ∀ p k, p ≠ part ∨ k ≠ cid → findCtx t.ctl.ctxs p k = findCtx s.ctl.ctxs p k
  length : t.exe.groups.length = s.exe.groups.length
  groups : ∀ (i : Nat) (g : Group), s.exe.groups[i]? = some g → ∃ g' : Group, t.exe.groups[i]? = some g' ∧ g'.kern = g.kern ∧ g'.lid = g.lid ∧ (¬ S i → g'.state = g.state)

theorem GroupsKeep.rfl' (s : State) (part cid : Nat) (S : Nat → Prop) : GroupsKeep s s part cid S :=
  ⟨rfl, rfl, rfl, rfl, rfl, rfl, rfl, rfl, rfl, rfl, fun _ _ _ => rfl, rfl, fun _ g h => ⟨g, h, rfl, rfl, fun _ => rfl⟩⟩

theorem GroupsKeep.trans {a b c : State} {part cid : Nat} {S : Nat → Prop} (h1 : GroupsKeep a b part cid S) (h2 : GroupsKeep b c part cid S) : GroupsKeep a c part cid S where
  mem := by rw [h2.mem, h1.mem]
  sys := h2.sys.trans h1.sys
  gangs := h2.gangs.trans h1.gangs
  kernels := h2.kernels.trans h1.kernels
  queues := h2.queues.trans h1.queues
  samples := h2.samples.trans h1.samples
  faults := h2.faults.trans h1.faults
  partials := h2.partials.trans h1.partials
  parts := h2.parts.trans h1.parts
  ctxs := h2.ctxs.trans h1.ctxs
  others := fun p k h => (h2.others p k h).trans (h1.others p k h)
  length := h2.length.trans h1.length
  groups := by
    intro i g hg
    obtain ⟨g1, e1, e2, e3, e4⟩ := h1.groups i g hg
    obtain ⟨g2, f1, f2, f3, f4⟩ := h2.groups i g1 e1
    exact ⟨g2, f1, f2.trans e2, f3.trans e3, fun h => (f4 h).trans (e4 h)⟩

theorem GroupsKeep.mono {s t : State} {part cid : Nat} {S T : Nat → Prop} (h : GroupsKeep s t part cid S) (hST : ∀ i, S i → T i) : GroupsKeep s t part cid T :=
  { h with groups := fun i g hg =>
      let ⟨g', e1, e2, e3, e4⟩ := h.groups i g hg
      ⟨g', e1, e2, e3, fun hn => e4 fun hs => hn (hST i hs)⟩ }

theorem modCtx_core {cs : List Ctx} {p k : Nat} {f : Ctx → Ctx} (hf : ∀ c, ctxCore (f c) = ctxCore c) : (modCtx cs p k f).map ctxCore = cs.map ctxCore := by
  unfold modCtx modIf
  rw [List.map_map]
  refine List.map_congr_left fun c _ => ?_
  show ctxCore (if _ then f c else c) = _
  split
  · exact hf c
  · rfl

theorem findCtx_modCtx_other {cs : List Ctx} {p k p' k' : Nat} {f : Ctx → Ctx} (hf : ∀ c, (f c).part = c.part ∧ (f c).cid = c.cid) (h : p' ≠ p ∨ k' ≠ k) :
    findCtx (modCtx cs p k f) p' k' = findCtx cs p' k' := by
  unfold findCtx modCtx modIf
  induction cs with
  | nil => rfl
  | cons c cs ih =>
    rw [List.map_cons, List.find?_cons, List.find?_cons, ih]
    by_cases hc : (c.part == p && c.cid == k) = true
    · rw [if_pos hc, (hf c).1, (hf c).2]
      have : (c.part == p' && c.cid == k') = false := by
        rw [Bool.and_eq_true, beq_iff_eq, beq_iff_eq] at hc
        rw [Bool.and_eq_false_iff, beq_eq_false_iff_ne, beq_eq_false_iff_ne]
        omega
      rw [this]
    · rw [if_neg hc]

theorem ctxCore_id {f : Ctx → Ctx} (hf : ∀ c, ctxCore (f c) = ctxCore c) (c : Ctx) : (f c).part = c.part ∧ (f c).cid = c.cid :=
  ⟨show (ctxCore (f c)).part = _ by rw [hf]; rfl, show (ctxCore (f c)).cid = _ by rw [hf]; rfl⟩

theorem modAt_map {α β : Type} (l : List α) (i : Nat) (f : α → α) (p : α → β) (h : ∀ x, p (f x) = p x) : (modAt l i f).map p = l.map p := by
  induction l generalizing i with
  | nil => rfl
  | cons x l ih =>
    cases i with
    | zero => show p (f x) :: _ = _; rw [h]; rfl
    | succ i => show p x :: _ = _; rw [ih]; rfl

theorem modAt_len {α : Type} (l : List α) (i : Nat) (f : α → α) : (modAt l i f).length = l.length := by
  rw [← List.length_map fun _ : α => (), modAt_map l i f (fun _ => ()) fun _ => rfl, List.length_map]

theorem modAt_groups {l : List Group} {gid : Nat} {f : Group → Group} (hf : ∀ g, (f g).kern = g.kern ∧ (f g).lid = g.lid) (i : Nat) (g : Group) (h : l[i]? = some g) :
    ∃ g' : Group, (modAt l gid f)[i]? = some g' ∧ g'.kern = g.kern ∧ g'.lid = g.lid ∧ (i ≠ gid → g' = g) ∧ (i = gid → g' = f g) := by
  by_cases he : i = gid
  · subst he
    refine ⟨f g, ?_, (hf g).1, (hf g).2, fun h => absurd rfl h, fun _ => rfl⟩
    rw [modAt_get, if_pos rfl, h]; rfl
  · refine ⟨g, ?_, rfl, rfl, fun _ => rfl, fun h => absurd h he⟩
    rw [modAt_other _ _ _ _ he, h]

/-- Groups and contexts' saves and locks alone change. -/
theorem keep_of {s : State} {part cid gid : Nat} {f : Group → Group} {h : Ctx → Ctx} (hf : ∀ g, (f g).kern = g.kern ∧ (f g).lid = g.lid) (hh : ∀ c, ctxCore (h c) = ctxCore c) :
    GroupsKeep s { s with exe := { s.exe with groups := modAt s.exe.groups gid f }, ctl := { s.ctl with ctxs := modCtx s.ctl.ctxs part cid h } } part cid (· = gid) where
  mem := rfl
  sys := rfl
  gangs := rfl
  kernels := rfl
  queues := rfl
  samples := rfl
  faults := rfl
  partials := rfl
  parts := rfl
  ctxs := modCtx_core hh
  others := fun _ _ hn => findCtx_modCtx_other (ctxCore_id hh) hn
  length := modAt_len ..
  groups := fun i g hg => by
    obtain ⟨g', e1, e2, e3, e4, _⟩ := modAt_groups (gid := gid) hf i g hg
    exact ⟨g', e1, e2, e3, fun hn => congrArg Group.state (e4 hn)⟩

theorem modCtx_id (cs : List Ctx) (p k : Nat) : modCtx cs p k (fun c => c) = cs := by
  unfold modCtx modIf
  conv_rhs => rw [← List.map_id cs]
  refine List.map_congr_left fun c _ => ?_
  show (if _ then c else c) = c
  split <;> rfl

theorem takeSave_keep (s : State) (gid : Nat) (k : Kernel) : GroupsKeep s (takeSave s gid k) k.part k.ctx (· = gid) ∧
    ∀ g, s.exe.groups[gid]? = some g → ∃ g', (takeSave s gid k).exe.groups[gid]? = some g' ∧ g'.state = g.state := by
  unfold takeSave
  repeat' split
  all_goals first | exact ⟨.rfl' .., fun g h => ⟨g, h, rfl⟩⟩ | skip
  rename_i o _
  refine ⟨keep_of (f := fun g => { g with saved := some o }) (h := fun c => { c with saves := c.saves ++ [(gid, o, saveSize k)] }) (fun _ => ⟨rfl, rfl⟩) fun _ => rfl, fun g h => ?_⟩
  obtain ⟨g', e1, _, _, _, e5⟩ := modAt_groups (f := fun g => { g with saved := some o }) (gid := gid) (fun _ => ⟨rfl, rfl⟩) gid g h
  exact ⟨g', e1, by rw [e5 rfl]⟩

/-- Stack areas and the gangs' hold on them alone change. -/
theorem areas_keep {s : State} {ps : List Partition} {gs : List Gang} (hp : ps.map partBody = s.ctl.parts.map partBody)
    (hg : gs.map gangCore = s.exe.gangs.map gangCore) (part cid : Nat) (S : Nat → Prop) :
    GroupsKeep s { s with exe := { s.exe with gangs := gs }, ctl := { s.ctl with parts := ps } } part cid S :=
  ⟨rfl, rfl, hg, rfl, rfl, rfl, rfl, rfl, hp, rfl, fun _ _ _ => rfl, rfl, fun _ g h => ⟨g, h, rfl, rfl, fun _ => rfl⟩⟩

theorem takeArea_core (ps : List Partition) (p : Nat) (g : Gang) : gangCore (takeArea ps p g).2 = gangCore g := by
  have h := takeArea_file ps p g
  unfold gangCore
  rw [takeArea_slices, h.regs, h.preds, h.sregs]

theorem spill_core (ps : List Partition) (p : Nat) (g : Gang) : gangCore (spill ps p g).2 = gangCore g := by
  have h := spill_file ps p g
  unfold gangCore
  rw [spill_slices, h.regs, h.preds, h.sregs]

theorem modAt_core {gs : List Gang} {i : Nat} {g g' : Gang} (h : gs[i]? = some g) (hc : gangCore g' = gangCore g) :
    (modAt gs i fun _ => g').map gangCore = gs.map gangCore := by
  refine List.ext_getElem? fun j => ?_
  rw [List.getElem?_map, List.getElem?_map, modAt_get]
  split
  · rename_i hj; rw [hj, h]; exact congrArg some hc
  · rfl

theorem parkAreas_keep (s : State) (grp : Group) (part p cid : Nat) (S : Nat → Prop) : GroupsKeep s (parkAreas s grp part) p cid S ∧
    (parkAreas s grp part).exe.groups = s.exe.groups := by
  have key : ∀ (L : List Nat) (acc : List Partition × List Gang), acc.1.map partBody = s.ctl.parts.map partBody → acc.2.map gangCore = s.exe.gangs.map gangCore →
      let r := L.foldl (fun (acc : List Partition × List Gang) gi =>
        match acc.2[gi]? with
        | none => acc
        | some g =>
          let t := takeArea acc.1 part g
          (t.1, modAt acc.2 gi fun _ => t.2)) acc
      r.1.map partBody = s.ctl.parts.map partBody ∧ r.2.map gangCore = s.exe.gangs.map gangCore := fun L acc h1 h2 =>
    List.foldlRecOn (motive := fun r : List Partition × List Gang => r.1.map partBody = s.ctl.parts.map partBody ∧ r.2.map gangCore = s.exe.gangs.map gangCore)
      L _ ⟨h1, h2⟩ fun r h gi _ => by
        split
        · exact h
        · rename_i g hg
          exact ⟨(takeArea_parts ..).trans h.1, (modAt_core hg (takeArea_core ..)).trans h.2⟩
  obtain ⟨h1, h2⟩ := key grp.gangs (s.ctl.parts, s.exe.gangs) rfl rfl
  unfold parkAreas
  dsimp only at h1 h2 ⊢
  split
  · exact ⟨areas_keep h1 h2 .., rfl⟩
  · exact ⟨.rfl' .., rfl⟩

theorem grantAreas_keep (s : State) (part : Nat) (skip : List Nat) (p cid : Nat) (S : Nat → Prop) : GroupsKeep s (grantAreas s part skip) p cid S ∧
    (grantAreas s part skip).exe.groups = s.exe.groups := by
  unfold grantAreas
  refine List.foldlRecOn (motive := fun t : State => GroupsKeep s t p cid S ∧ t.exe.groups = s.exe.groups) _ _ ⟨.rfl' .., rfl⟩ fun t ⟨h, hg⟩ gi _ => ?_
  split
  · exact ⟨h, hg⟩
  · rename_i g hgi
    dsimp only
    repeat' split
    all_goals first
      | exact ⟨h, hg⟩
      | exact ⟨h.trans (areas_keep (s := t) (spill_parts ..) (modAt_core hgi (spill_core ..)) p cid S), hg⟩

theorem kern_of {s : State} {part cid : Nat} {g : Group} (h : ofCtx s part cid g = true) : ∃ k, kernOf s g = some k ∧ k.part = part ∧ k.ctx = cid := by
  unfold ofCtx at h
  cases hk : kernOf s g with
  | none => rw [hk] at h; cases h
  | some k =>
    rw [hk] at h
    rw [Bool.and_eq_true, beq_iff_eq, beq_iff_eq] at h
    exact ⟨k, rfl, h⟩

theorem parkStart_keep {s : State} {part cid gid : Nat} {g : Group} (debug : Bool) (hg : s.exe.groups[gid]? = some g) (ho : ofCtx s part cid g = true) :
    GroupsKeep s (parkStart s gid debug) part cid (· = gid) ∧ ∃ g', (parkStart s gid debug).exe.groups[gid]? = some g' ∧ g'.state = parkingOf g.state := by
  obtain ⟨k, hk, hp, hc⟩ := kern_of ho
  subst hp; subst hc
  unfold parkStart
  rw [hg]
  dsimp only
  rw [hk]
  dsimp only
  split
  · rename_i hne
    refine ⟨.rfl' .., g, hg, ?_⟩
    unfold parkingOf
    rw [if_neg (bne_iff_ne.1 hne)]
  · rename_i hne
    have hst : g.state = .running := by
      by_contra h
      exact hne (bne_iff_ne.2 h)
    let f : Group → Group := fun g => { g with state := .parking, debugSave := debug, atStop := !k.fixed || k.turn == 0 }
    have h1 : GroupsKeep s { s with exe := { s.exe with groups := modAt s.exe.groups gid f } } k.part k.ctx (· = gid) := by
      have := keep_of (s := s) (part := k.part) (cid := k.ctx) (gid := gid) (f := f) (h := fun c => c) (fun _ => ⟨rfl, rfl⟩) fun _ => rfl
      rw [modCtx_id] at this
      exact this
    let s1 : State := { s with exe := { s.exe with groups := modAt s.exe.groups gid f } }
    obtain ⟨h2, g2⟩ := parkAreas_keep s1 g k.part k.part k.ctx (· = gid)
    obtain ⟨h3, h4⟩ := takeSave_keep (parkAreas s1 g k.part) gid k
    obtain ⟨g', e1, _, _, _, e5⟩ := modAt_groups (f := f) (gid := gid) (fun _ => ⟨rfl, rfl⟩) gid g hg
    obtain ⟨g2, e6, e7⟩ := h4 g' (by rw [g2]; exact e1)
    refine ⟨h1.trans (h2.trans h3), g2, e6, ?_⟩
    rw [e7, e5 rfl]
    unfold parkingOf
    rw [if_pos hst]

theorem modIf_partBody {ps : List Partition} {p : Partition → Bool} {f : Partition → Partition} (hf : ∀ x, partBody (f x) = partBody x) : (modIf ps p f).map partBody = ps.map partBody := by
  unfold modIf
  rw [List.map_map]
  refine List.map_congr_left fun c _ => ?_
  show partBody (if _ then f c else c) = _
  split
  · exact hf c
  · rfl

theorem releaseAreas_keep (s : State) (grp : Group) (part cid : Nat) (S : Nat → Prop) : GroupsKeep s (releaseAreas s grp part) part cid S ∧ (releaseAreas s grp part).exe.groups = s.exe.groups := by
  have h := areas_keep (s := s) (ps := modIf s.ctl.parts (fun p => p.id == part) fun p =>
      { p with areas := p.areas.filter fun a => !(grp.gangs.filterMap fun gi => (s.exe.gangs[gi]?).bind Gang.area).contains a })
    (gs := grp.gangs.foldl (fun gs gi => modAt gs gi fun g => { g with area := none }) s.exe.gangs) (modIf_partBody fun _ => rfl)
    (List.foldlRecOn (motive := fun gs : List Gang => gs.map gangCore = s.exe.gangs.map gangCore) grp.gangs _ rfl
      fun gs h x _ => (modAt_map gs x (fun g => { g with area := none }) gangCore fun _ => rfl).trans h) part cid S
  obtain ⟨h1, h2⟩ := grantAreas_keep _ part grp.gangs part cid S
  exact ⟨h.trans h1, h2⟩

theorem releasePins_keep (s : State) (gid part cid : Nat) : GroupsKeep s (releasePins s gid part cid) part cid (· = gid) := by
  unfold releasePins
  exact keep_of (f := fun g => { g with pins := [] }) (h := fun c => { c with lockUsed := c.lockUsed - _ }) (fun _ => ⟨rfl, rfl⟩) fun _ => rfl

theorem dropGroup_keep {s : State} {part cid gid : Nat} {g : Group} (halt : Bool) (hg : s.exe.groups[gid]? = some g) (ho : ofCtx s part cid g = true) :
    GroupsKeep s (dropGroup s gid halt) part cid (· = gid) ∧ ∃ g', (dropGroup s gid halt).exe.groups[gid]? = some g' ∧ g'.state = .killed := by
  obtain ⟨k, hk, hp, hc⟩ := kern_of ho
  subst hp; subst hc
  obtain ⟨a1, a2⟩ := releaseAreas_keep s g k.part k.ctx (· = gid)
  have a3 := a1.trans (releasePins_keep (releaseAreas s g k.part) gid k.part k.ctx)
  obtain ⟨g1, e1, e2, e3, _⟩ := a3.groups gid g hg
  unfold dropGroup
  rw [hg]
  dsimp only
  rw [hk]
  dsimp only
  generalize hu : releasePins (releaseAreas s g k.part) gid k.part k.ctx = u at a3 e1
  let f : Group → Group := fun g => { g with state := .killed, gangs := [], window := if halt then g.window else [], nbs := [], tile := none, tctx := none, slots := [], debugSave := false, atStop := false }
  obtain ⟨g2, d1, d2, d3, _, d5⟩ := modAt_groups (f := f) (gid := gid) (fun _ => ⟨rfl, rfl⟩) gid g1 e1
  refine ⟨a3.trans ⟨rfl, rfl, rfl, rfl, rfl, rfl, rfl, rfl, rfl, rfl, fun _ _ _ => rfl, modAt_len .., fun i y hy => ?_⟩, g2, d1, by rw [d5 rfl]⟩
  obtain ⟨g', c1, c2, c3, c4, _⟩ := modAt_groups (f := f) (gid := gid) (fun _ => ⟨rfl, rfl⟩) i y hy
  exact ⟨g', c1, c2, c3, fun hn => congrArg Group.state (c4 hn)⟩

theorem dropSave_keep (s : State) (gid part cid : Nat) : GroupsKeep s (dropSave s gid part cid) part cid (· = gid) ∧
    ∀ g, s.exe.groups[gid]? = some g → ∃ g', (dropSave s gid part cid).exe.groups[gid]? = some g' ∧ g'.state = g.state := by
  refine ⟨keep_of (f := fun g => { g with saved := none }) (h := fun c => { c with saves := c.saves.filter fun r => r.1 != gid }) (fun _ => ⟨rfl, rfl⟩) fun _ => rfl, fun g h => ?_⟩
  obtain ⟨g', e1, _, _, _, e5⟩ := modAt_groups (f := fun g => { g with saved := none }) (gid := gid) (fun _ => ⟨rfl, rfl⟩) gid g h
  exact ⟨g', e1, by rw [e5 rfl]⟩

/-- Groups of a context moved one after another, each by a step that moves that group alone. -/
theorem groups_fold {part cid : Nat} {step : State → Nat → State} {f : GState → GState} (hf : ∀ x, f (f x) = f x)
    (hs : ∀ s gid g, s.exe.groups[gid]? = some g → ofCtx s part cid g = true →
      GroupsKeep s (step s gid) part cid (· = gid) ∧ ∃ g', (step s gid).exe.groups[gid]? = some g' ∧ g'.state = f g.state)
    (L : List Nat) : ∀ s : State, (∀ i ∈ L, ∃ g, s.exe.groups[i]? = some g ∧ ofCtx s part cid g = true) →
      GroupsKeep s (L.foldl step s) part cid (· ∈ L) ∧
      ∀ i ∈ L, ∀ g, s.exe.groups[i]? = some g → ∃ g', (L.foldl step s).exe.groups[i]? = some g' ∧ g'.state = f g.state := by
  induction L with
  | nil => exact fun s _ => ⟨.rfl' .., fun i h => absurd h (List.not_mem_nil)⟩
  | cons x L ih =>
    intro s hL
    obtain ⟨g, hg, ho⟩ := hL x List.mem_cons_self
    obtain ⟨k1, g1, e1, e2⟩ := hs s x g hg ho
    have hkern : ∀ (y : Group) (y' : Group), y'.kern = y.kern → ofCtx (step s x) part cid y' = ofCtx s part cid y := by
      intro y y' hy
      unfold ofCtx kernOf
      rw [k1.kernels, hy]
    obtain ⟨k2, hrest⟩ := ih (step s x) (fun i hi => by
      obtain ⟨y, hy, hyo⟩ := hL i (List.mem_cons_of_mem _ hi)
      obtain ⟨y', f1, f2, _⟩ := k1.groups i y hy
      exact ⟨y', f1, by rw [hkern y y' f2]; exact hyo⟩)
    rw [List.foldl_cons]
    refine ⟨(k1.mono fun i hi => by rw [hi]; exact List.mem_cons_self).trans (k2.mono fun i hi => List.mem_cons_of_mem _ hi), fun i hi y hy => ?_⟩
    obtain ⟨y', f1, _, _, f4⟩ := k1.groups i y hy
    by_cases hx : i = x
    · subst hx
      rw [hy] at hg
      cases hg
      by_cases hL' : i ∈ L
      · obtain ⟨z, z1, z2⟩ := hrest i hL' g1 e1
        exact ⟨z, z1, by rw [z2, e2, hf]⟩
      · obtain ⟨z, z1, _, _, z4⟩ := k2.groups i g1 e1
        exact ⟨z, z1, by rw [z4 hL', e2]⟩
    · have hi' : i ∈ L := by
        rcases List.mem_cons.1 hi with h | h
        · exact absurd h hx
        · exact h
      obtain ⟨z, z1, z2⟩ := hrest i hi' y' f1
      exact ⟨z, z1, by rw [z2, f4 hx]⟩

theorem mem_ctxGroups {s : State} {c : Ctx} {i : Nat} : i ∈ ctxGroups s c ↔ ∃ g, s.exe.groups[i]? = some g ∧ ofCtx s c.part c.cid g = true := by
  unfold ctxGroups
  rw [List.mem_map]
  constructor
  · rintro ⟨⟨g, j⟩, hx, rfl⟩
    obtain ⟨h1, h2⟩ := List.mem_filter.1 hx
    exact ⟨g, (List.mem_zipIdx_iff_getElem?.1 h1), h2⟩
  · rintro ⟨g, h1, h2⟩
    exact ⟨(g, i), List.mem_filter.2 ⟨List.mem_zipIdx_iff_getElem?.2 h1, h2⟩, rfl⟩

/-- What the fold over a context's groups does, in the words of the statements. -/
theorem groups_move {part cid : Nat} {step : State → Nat → State} {f : GState → GState} (hf : ∀ x, f (f x) = f x)
    (hs : ∀ s gid g, s.exe.groups[gid]? = some g → ofCtx s part cid g = true →
      GroupsKeep s (step s gid) part cid (· = gid) ∧ ∃ g', (step s gid).exe.groups[gid]? = some g' ∧ g'.state = f g.state)
    {s : State} {c : Ctx} (hp : c.part = part) (hc : c.cid = cid) :
    GroupsKeep s ((ctxGroups s c).foldl step s) part cid (fun _ => True) ∧ GroupsMove s ((ctxGroups s c).foldl step s) part cid f := by
  subst hp; subst hc
  obtain ⟨h1, h2⟩ := groups_fold hf hs (ctxGroups s c) s fun i hi => mem_ctxGroups.1 hi
  refine ⟨h1.mono fun _ _ => trivial, h1.length, fun i g hg => ?_⟩
  obtain ⟨g', e1, e2, e3, e4⟩ := h1.groups i g hg
  refine ⟨g', e1, e2, e3, ?_⟩
  by_cases ho : ofCtx s c.part c.cid g = true
  · obtain ⟨g2, f1, f2⟩ := h2 i (mem_ctxGroups.2 ⟨g, hg, ho⟩) g hg
    rw [e1] at f1
    cases f1
    rw [f2, if_pos ho]
  · rw [e4 (fun hm => ho ?_), if_neg ho]
    obtain ⟨g2, f1, f2⟩ := mem_ctxGroups.1 hm
    rw [hg] at f1
    cases f1
    exact f2

theorem parkAll_move {s : State} {c : Ctx} (debug : Bool) : GroupsKeep s ((ctxGroups s c).foldl (fun s g => parkStart s g debug) s) c.part c.cid (fun _ => True) ∧
    GroupsMove s ((ctxGroups s c).foldl (fun s g => parkStart s g debug) s) c.part c.cid parkingOf :=
  groups_move (fun x => by cases x <;> rfl) (fun _ _ _ h1 h2 => parkStart_keep debug h1 h2) rfl rfl

theorem killGroups_move {s : State} {c : Ctx} : GroupsKeep s (killGroups s c) c.part c.cid (fun _ => True) ∧ GroupsMove s (killGroups s c) c.part c.cid killedOf := by
  unfold killGroups
  refine groups_move (fun x => by cases x <;> rfl) (fun s gid g hg ho => ?_) rfl rfl
  dsimp only
  rw [hg]
  have hd : ∀ P : Prop, (GroupsKeep s (dropSave (dropGroup s gid true) gid c.part c.cid) c.part c.cid (· = gid) → (∃ g', (dropSave (dropGroup s gid true) gid c.part c.cid).exe.groups[gid]? = some g' ∧ g'.state = .killed) → P) → P := by
    intro P hP
    obtain ⟨a, g1, b1, b2⟩ := dropGroup_keep true hg ho
    obtain ⟨c1, c2⟩ := dropSave_keep (dropGroup s gid true) gid c.part c.cid
    obtain ⟨g2, d1, d2⟩ := c2 g1 b1
    exact hP (a.trans c1) ⟨g2, d1, d2.trans b2⟩
  cases hst : g.state <;> dsimp only [Option.map_some] <;> rw [hst] <;> first
    | exact hd _ fun a b => ⟨a, b⟩
    | exact ⟨.rfl' .., g, hg, hst⟩
    | skip
  let f : Group → Group := fun g => { g with state := .killed }
  obtain ⟨g2, d1, _, _, _, d5⟩ := modAt_groups (f := f) (gid := gid) (fun _ => ⟨rfl, rfl⟩) gid g hg
  refine ⟨?_, g2, d1, by rw [d5 rfl]; rfl⟩
  have := keep_of (s := s) (part := c.part) (cid := c.cid) (gid := gid) (f := f) (h := fun c => c) (fun _ => ⟨rfl, rfl⟩) fun _ => rfl
  rw [modCtx_id] at this
  exact this

theorem paBytes_num (s : State) (pa n o k : Nat) (h : o + k ≤ n) : leNat (((paBytes s pa n).drop o).take k) = numAt s (pa + o) k := by
  unfold numAt paBytes
  congr 1
  apply List.ext_getElem?
  intro i
  rw [List.getElem?_take, List.getElem?_drop, List.getElem?_map, List.getElem?_map]
  by_cases hi : i < k
  · rw [if_pos hi, List.getElem?_range (by omega), List.getElem?_range hi, Option.map_some, Option.map_some, Nat.add_assoc]
  · rw [if_neg hi, List.getElem?_eq_none (by rw [List.length_range]; omega)]; rfl

theorem powBetween_iff {x lo hi : Nat} (h : lo ≤ hi) : powBetween x lo hi = true ↔ ∃ k, lo ≤ k ∧ k ≤ hi ∧ x = 2 ^ k := by
  unfold powBetween
  rw [List.any_eq_true]
  constructor
  · rintro ⟨i, hi, he⟩
    rw [List.mem_range] at hi
    exact ⟨lo + i, by omega, by omega, beq_iff_eq.1 he⟩
  · rintro ⟨k, h1, h2, h3⟩
    exact ⟨k - lo, List.mem_range.2 (by omega), by rw [beq_iff_eq, h3]; congr 1; omega⟩

theorem areaOk_iff {s : State} {p : Partition} {cid root va n : Nat} : areaOk s p cid root va n = true ↔ AreaGood s p cid root va n := by
  unfold areaOk AreaGood
  rw [List.all_eq_true]
  refine forall₂_congr fun pg _ => ?_
  cases xlateAt s 8 p cid root (pg * 2 ^ 16) needW with
  | error f => simp
  | ok x => simp

theorem numAt_lt8 (s : State) (pa : Nat) : numAt s pa 8 < 2 ^ 64 := numAt_lt s pa 8

theorem descRead_of (s : State) (pa : Nat) : DescRead s pa (parseDesc (paBytes s pa 128)) := by
  have h := fun o k (hk : o + k ≤ 128) => paBytes_num s pa 128 o k hk
  have h8 : ∀ o, o + 8 ≤ 128 → (BitVec.ofNat 64 (leNat (((paBytes s pa 128).drop o).take 8))).toNat = numAt s (pa + o) 8 := by
    intro o ho
    rw [h o 8 ho, BitVec.toNat_ofNat, Nat.mod_eq_of_lt (numAt_lt s _ 8)]
  unfold DescRead parseDesc
  dsimp only
  exact ⟨h 0 8 (by omega), by rw [h _ _ (by omega)], by simp only [h 0x0C 2 (by omega)], h _ _ (by omega), h8 _ (by omega), h8 _ (by omega), h8 _ (by omega), h _ _ (by omega), h _ _ (by omega), h8 _ (by omega), h _ _ (by omega)⟩

theorem descGood_iff {s : State} {p : Partition} {cid pa : Nat} : DescGood s p cid pa ↔ (pa % 128 = 0 ∧ paLocal (ownDev s.sys) pa = true ∧ p.dies.contains (homeDie (paOff pa)) = true ∧
    descOk (paBytes s pa 128) p.id cid = true ∧ areaOk s p cid (parseDesc (paBytes s pa 128)).ptRoot (parseDesc (paBytes s pa 128)).stopArea.toNat (parseDesc (paBytes s pa 128)).stopSize = true ∧
    areaOk s p cid (parseDesc (paBytes s pa 128)).ptRoot (parseDesc (paBytes s pa 128)).saveArea.toNat (parseDesc (paBytes s pa 128)).saveSize = true) := by
  obtain ⟨d1, _, _, _, _, _, d7, d8, _, d10, d11⟩ := descRead_of s pa
  have h := fun o k (hk : o + k ≤ 128) => paBytes_num s pa 128 o k hk
  rw [areaOk_iff, areaOk_iff, d1, d7, d8, d10, d11]
  unfold DescGood descOk
  dsimp only
  simp only [h 0 8 (by omega), h 8 1 (by omega), h 9 1 (by omega), h 0x0A 2 (by omega), h 0x0C 2 (by omega), h 0x18 8 (by omega), h 0x20 8 (by omega), h 0x28 4 (by omega), h 0x30 8 (by omega),
    h 0x38 8 (by omega), h 0x40 64 (by omega)]
  simp only [Bool.and_eq_true, beq_iff_eq, decide_eq_true_eq, powBetween_iff (show 16 ≤ 30 by omega), List.contains_iff_mem, Nat.add_zero, and_assoc]

theorem findPart_body {ps qs : List Partition} (h : ps.map partBody = qs.map partBody) {k : Nat} {p : Partition} (hp : findPart qs k = some p) : ∃ p', findPart ps k = some p' ∧ partBody p' = partBody p := by
  have hf : ∀ l : List Partition, (findPart l k).map partBody = (l.map partBody).find? fun x => x.id == k := by
    intro l
    unfold findPart
    rw [List.find?_map]
    rfl
  have h2 : (findPart ps k).map partBody = (findPart qs k).map partBody := by rw [hf, hf, h]
  rw [hp] at h2
  cases hq : findPart ps k with
  | none => rw [hq] at h2; cases h2
  | some p' => rw [hq] at h2; exact ⟨p', rfl, by injection h2⟩

theorem cwDone_answer {s t : State} {part r : Nat} {p : Partition} (hp : findPart s.ctl.parts part = some p) (h : t.ctl.parts.map partBody = s.ctl.parts.map partBody) : CwAnswer (cwDone t part r) part r := by
  obtain ⟨p', h1, _⟩ := findPart_body h hp
  refine ⟨{ p' with ctxwCmd := none, ctxwStatus := BitVec.ofNat 32 r }, ?_, rfl⟩
  have := findPart_modIf t.ctl.parts part (fun p => { p with ctxwCmd := none, ctxwStatus := BitVec.ofNat 32 r }) fun _ h => h
  rw [h1] at this
  exact this

theorem findCtx_core {cs ds : List Ctx} (h : cs.map ctxCore = ds.map ctxCore) {p k : Nat} {c : Ctx} (hc : findCtx ds p k = some c) : ∃ c', findCtx cs p k = some c' ∧ ctxCore c' = ctxCore c := by
  have hf : ∀ l : List Ctx, (findCtx l p k).map ctxCore = (l.map ctxCore).find? fun x => x.part == p && x.cid == k := by
    intro l
    unfold findCtx
    rw [List.find?_map]
    rfl
  have h2 : (findCtx cs p k).map ctxCore = (findCtx ds p k).map ctxCore := by rw [hf, hf, h]
  rw [hc] at h2
  cases hq : findCtx cs p k with
  | none => rw [hq] at h2; cases h2
  | some c' => rw [hq] at h2; exact ⟨c', rfl, by injection h2⟩

theorem findCtx_ids {cs : List Ctx} {p k : Nat} {c : Ctx} (h : findCtx cs p k = some c) : c.part = p ∧ c.cid = k := by
  have := List.find?_some h
  rw [Bool.and_eq_true, beq_iff_eq, beq_iff_eq] at this
  exact this

theorem findCtx_setCtx {s : State} {p k : Nat} {c x : Ctx} (h : findCtx s.ctl.ctxs p k = some c) (hp : x.part = p) (hk : x.cid = k) : findCtx (setCtx s x).ctl.ctxs p k = some x := by
  unfold setCtx
  dsimp only
  rw [hp, hk]
  unfold findCtx modCtx modIf at *
  generalize s.ctl.ctxs = cs at h ⊢
  induction cs with
  | nil => cases h
  | cons y ys ih =>
    rw [List.map_cons, List.find?_cons]
    rw [List.find?_cons] at h
    by_cases hy : (y.part == p && y.cid == k) = true
    · rw [if_pos hy, hp, hk]; simp
    · rw [if_neg hy]
      rw [Bool.not_eq_true] at hy
      rw [hy] at h ⊢
      exact ih h

theorem findCtx_setCtx_other {s : State} {p k : Nat} {x : Ctx} (h : p ≠ x.part ∨ k ≠ x.cid) : findCtx (setCtx s x).ctl.ctxs p k = findCtx s.ctl.ctxs p k := by
  unfold setCtx
  dsimp only
  unfold findCtx modCtx modIf
  induction s.ctl.ctxs with
  | nil => rfl
  | cons y ys ih =>
    rw [List.map_cons, List.find?_cons, List.find?_cons, ih]
    by_cases hy : (y.part == x.part && y.cid == x.cid) = true
    · rw [if_pos hy]
      rw [Bool.and_eq_true, beq_iff_eq, beq_iff_eq] at hy
      have h1 : (x.part == p && x.cid == k) = false := by
        rw [Bool.and_eq_false_iff, beq_eq_false_iff_ne, beq_eq_false_iff_ne]; omega
      have h2 : (y.part == p && y.cid == k) = false := by
        rw [Bool.and_eq_false_iff, beq_eq_false_iff_ne, beq_eq_false_iff_ne]; omega
      rw [h1, h2]
    · rw [if_neg hy]

/-- What a command keeps besides its own context: of memory no byte changes but the STATE and ERR of headers. -/
structure CmdKeep (s t : State) (part cid : Nat) : Prop where
  grains : GrainsOk s.mem.dir → GrainsOk t.mem.dir
  bytes : GrainsOk s.mem.dir → ∀ off, HomeAlone s.mem off → HomeAlone t.mem off ∧ (¬ HeaderOf s off → memByte t.mem off = memByte s.mem off)
  from_ : ∀ off, HeaderOf t off → HeaderOf s off
  slices : t.exe.gangs.map gangCore = s.exe.gangs.map gangCore
  others : ∀ p k, p ≠ part ∨ k ≠ cid → findCtx t.ctl.ctxs p k = findCtx s.ctl.ctxs p k
  parts : t.ctl.parts.map partBody = s.ctl.parts.map partBody

theorem CmdKeep.trans {a b c : State} {part cid : Nat} (h1 : CmdKeep a b part cid) (h2 : CmdKeep b c part cid) : CmdKeep a c part cid where
  grains := fun h => h2.grains (h1.grains h)
  bytes := fun hg off ha =>
    let ⟨k1, k2⟩ := h1.bytes hg off ha
    let ⟨l1, l2⟩ := h2.bytes (h1.grains hg) off k1
    ⟨l1, fun hn => (l2 fun h => hn (h1.from_ off h)).trans (k2 hn)⟩
  from_ := fun off h => h1.from_ off (h2.from_ off h)
  slices := h2.slices.trans h1.slices
  others := fun p k h => (h2.others p k h).trans (h1.others p k h)
  parts := h2.parts.trans h1.parts

/-- The home's side of memory alone changes, and queues. -/
theorem QueueSide.cmd {s t : State} (h : QueueSide (HeaderOf s) s t) (part cid : Nat) : CmdKeep s t part cid where
  grains := h.mem.grains
  bytes := fun hg off ha => h.mem.bytes hg off ha
  from_ := h.headers
  slices := by rw [h.exe]
  others := fun p k _ => by rw [h.ctl]
  parts := by rw [h.ctl]

/-- What memory holds, the slices' blocks and what is on its way stay. -/
theorem cmd_of {s t : State} {part cid : Nat} (hm : MemSide NoByte s.mem { t.mem with ops := s.mem.ops }) (hq : t.ctl.queues = s.ctl.queues)
    (hs : t.exe.gangs.map gangCore = s.exe.gangs.map gangCore) (ho : ∀ p k, p ≠ part ∨ k ≠ cid → findCtx t.ctl.ctxs p k = findCtx s.ctl.ctxs p k)
    (hp : t.ctl.parts.map partBody = s.ctl.parts.map partBody) : CmdKeep s t part cid where
  grains := hm.grains
  bytes := fun hg off ha => let ⟨h1, h2⟩ := hm.bytes hg off ha; ⟨h1, fun _ => h2 id⟩
  from_ := fun off h => by unfold HeaderOf at *; rw [hq] at h; exact h
  slices := hs
  others := ho
  parts := hp

theorem GroupsKeep.cmd {s t : State} {part cid : Nat} {S : Nat → Prop} (h : GroupsKeep s t part cid S) : CmdKeep s t part cid :=
  cmd_of (by rw [h.mem]; exact .same rfl rfl rfl rfl rfl rfl rfl id) h.queues h.gangs h.others h.parts

theorem setCtx_cmd (s : State) {x : Ctx} {part cid : Nat} (hp : x.part = part) (hk : x.cid = cid) : CmdKeep s (setCtx s x) part cid := by
  subst hp; subst hk
  exact cmd_of (.refl _ _) rfl rfl (fun _ _ h => findCtx_setCtx_other h) rfl

/-- An accepted command, from what its effect keeps. -/
theorem commanded_of {s t : State} {part cid : Nat} {p : Partition} (hp : findPart s.ctl.parts part = some p) (h : CmdKeep s t part cid) : Commanded s (cwDone t part cwOk) part cid where
  answer := cwDone_answer hp h.parts
  memory := fun hg off ha hq => by
    obtain ⟨h1, h2⟩ := h.bytes hg off ha
    refine (coByte_alone h1).trans ((h2 ?_).trans (coByte_alone ha).symm)
    rintro ⟨q, hm, e⟩
    have := hq q hm
    omega
  slices := h.slices
  others := h.others

theorem ctxCmd_eq {s : State} {n part cid : Nat} {p : Partition} (hp : findPart s.ctl.parts part = some p) (hr : p.state = .run) (hc : cid < 64) (hw : WindowTakes p n cid)
    (f : Partition → Option Ctx → Except Nat State) :
    ctxCmd n part cid s f = match f p (findCtx s.ctl.ctxs part cid) with
      | .error r => .next (cwDone s part r)
      | .ok t => .next (cwDone t part cwOk) := by
  have ht : ctxwTakes p n cid = true := by
    unfold ctxwTakes
    rcases hw with h | h <;> simp [hr, hc, h]
  unfold ctxCmd
  rw [hp]
  dsimp only
  rw [ht, if_neg (by decide)]
  all_goals (split <;> rename_i h <;> rw [h])

/-! ### Kernels that a fatal halt ends -/

theorem unpins_keep (L : List (Nat × Nat)) : ∀ c : Ctx, ∃ ps, L.foldl unpinOne c = { c with pinned := ps } := by
  induction L with
  | nil => exact fun c => ⟨c.pinned, rfl⟩
  | cons x L ih =>
    intro c
    obtain ⟨ps, h⟩ := ih (unpinOne c x)
    exact ⟨ps, h⟩

/-- Of the machine nothing changes but kernels' records, and the pins and holds of one context. -/
structure KernSide (s t : State) (part cid : Nat) : Prop where
  exe : t.exe = s.exe
  mem : t.mem = s.mem
  sys : t.sys = s.sys
  ctl : t.ctl = { s.ctl with ctxs := t.ctl.ctxs, kernels := t.ctl.kernels }
  ctxs : t.ctl.ctxs.map ctxCore = s.ctl.ctxs.map ctxCore
  others : ∀ p k, p ≠ part ∨ k ≠ cid → findCtx t.ctl.ctxs p k = findCtx s.ctl.ctxs p k

theorem KernSide.refl (s : State) (part cid : Nat) : KernSide s s part cid := ⟨rfl, rfl, rfl, rfl, rfl, fun _ _ _ => rfl⟩

theorem KernSide.trans {a b c : State} {part cid : Nat} (h : KernSide a b part cid) (k : KernSide b c part cid) : KernSide a c part cid :=
  ⟨k.exe.trans h.exe, k.mem.trans h.mem, k.sys.trans h.sys, by rw [k.ctl, h.ctl], k.ctxs.trans h.ctxs, fun p q hn => (k.others p q hn).trans (h.others p q hn)⟩

theorem KernSide.of_ctx (s : State) (part cid : Nat) {f : Ctx → Ctx} (hf : ∀ c, ctxCore (f c) = ctxCore c) :
    KernSide s { s with ctl := { s.ctl with ctxs := modCtx s.ctl.ctxs part cid f } } part cid :=
  ⟨rfl, rfl, rfl, rfl, modCtx_core hf, fun _ _ h => findCtx_modCtx_other (ctxCore_id hf) h⟩

theorem KernSide.of_kern (s : State) (ks : List Kernel) (part cid : Nat) : KernSide s { s with ctl := { s.ctl with kernels := ks } } part cid :=
  ⟨rfl, rfl, rfl, rfl, rfl, fun _ _ _ => rfl⟩

theorem KernSide.cmd {s t : State} {part cid : Nat} (h : KernSide s t part cid) : CmdKeep s t part cid :=
  cmd_of (by rw [h.mem]; exact .refl _ _) (by rw [h.ctl]) (by rw [h.exe]) h.others (by rw [h.ctl])

/-- A kernel's record closed, its pins and its regions released (R112). -/
theorem closeKernel_spec (s : State) (kern : Nat) (k : Kernel) (st : KState) (status fault : Nat) :
    KernSide s (closeKernel s kern k st status fault) k.part k.ctx ∧ (closeKernel s kern k st status fault).ctl.kernels =
      modAt s.ctl.kernels kern fun x => { x with state := st, status := status, faultCode := fault, pins := [], plan := [] } := by
  have h1 : KernSide s (modKern (releaseKernPins s k) kern fun x => { x with state := st, status := status, faultCode := fault, pins := [], plan := [] }) k.part k.ctx :=
    (KernSide.of_ctx s k.part k.ctx (f := fun c => k.pins.foldl unpinOne c) fun c => by
      obtain ⟨ps, h⟩ := unpins_keep k.pins c; rw [h]; rfl).trans (.of_kern _ _ _ _)
  unfold closeKernel
  dsimp only
  generalize hu : modKern (releaseKernPins s k) kern _ = u at h1
  have hk : u.ctl.kernels = modAt s.ctl.kernels kern fun x => { x with state := st, status := status, faultCode := fault, pins := [], plan := [] } := by rw [← hu]; rfl
  split
  · exact ⟨h1, hk⟩
  · rename_i c hc
    obtain ⟨e1, e2⟩ := findCtx_ids hc
    refine ⟨h1.trans ?_, hk⟩
    unfold releaseHeld
    rw [e1, e2]
    exact .of_ctx u k.part k.ctx fun _ => rfl

/-- A kernel that ends for a fatal halt (R112). -/
theorem stopKernel_spec {s : State} {kern : Nat} {k : Kernel} (hk : s.ctl.kernels[kern]? = some k) (st : KState) (status fault : Nat) (due : Completion) :
    KernSide s (stopKernel s kern st status fault due) k.part k.ctx ∧ (stopKernel s kern st status fault due).ctl.kernels =
      modAt s.ctl.kernels kern fun _ => { k with state := st, status := status, faultCode := fault, pins := [], plan := [], advanced := true, due := due } := by
  unfold stopKernel
  rw [hk]
  dsimp only
  obtain ⟨h1, h2⟩ := closeKernel_spec (modKern s kern fun x => { x with advanced := true, due := due }) kern k st status fault
  refine ⟨(KernSide.of_kern s _ k.part k.ctx).trans h1, h2.trans ?_⟩
  unfold modKern
  rw [modAt_modAt]
  exact modAt_const hk _

theorem kernLive_iff (k : Kernel) : kernLive k = true ↔ k.state ≠ .retired ∧ k.state ≠ .failed := by
  unfold kernLive
  simp

theorem has_iff {c : Ctx} {part cid : Nat} : c.has part cid = true ↔ part = c.part ∧ cid = c.cid := by
  unfold Ctx.has
  simp

/-- The kernels of a context that a fatal halt ends (R92, R112, R113). -/
theorem failAll_spec (s : State) (c : Ctx) (code : Nat) : KernSide s (failAll s c code) c.part c.cid ∧ KernelsStopped s (failAll s c code) c.part c.cid code := by
  let step : State → Nat → State := fun s i =>
    match s.ctl.kernels[i]? with
    | none => s
    | some k =>
      if !(c.has k.part k.ctx && kernLive k) then s
      else if k.pkt.kind = pkLaunch then stopKernel s i .failed stHalted code .atHalt
      else if k.state = .fitting then stopKernel s i .retired stOk 0 .atHalt
      else stopKernel s i .failed stOk 0 .none
  have one : ∀ (s : State) (i : Nat), KernSide s (step s i) c.part c.cid ∧ (step s i).ctl.kernels.length = s.ctl.kernels.length ∧
      (∀ j, j ≠ i → (step s i).ctl.kernels[j]? = s.ctl.kernels[j]?) ∧
      ∀ k, s.ctl.kernels[i]? = some k →
        (k.part = c.part → k.ctx = c.cid → k.state ≠ .retired → k.state ≠ .failed → (step s i).ctl.kernels[i]? = some (stoppedKernel code k)) ∧
        (¬ (k.part = c.part ∧ k.ctx = c.cid) ∨ k.state = .retired ∨ k.state = .failed → (step s i).ctl.kernels[i]? = some k) := by
    intro s i
    cases hk : s.ctl.kernels[i]? with
    | none =>
      have : step s i = s := by show (match s.ctl.kernels[i]? with | none => s | some k => _) = s; rw [hk]
      rw [this]
      exact ⟨.refl .., rfl, fun _ _ => rfl, fun k h => by cases h⟩
    | some k =>
      by_cases hb : (c.has k.part k.ctx && kernLive k) = true
      · have hb' := hb
        rw [Bool.and_eq_true, has_iff, kernLive_iff] at hb'
        have hst : ∃ st status fault due, step s i = stopKernel s i st status fault due ∧
            ({ k with state := st, status := status, faultCode := fault, pins := [], plan := [], advanced := true, due := due } : Kernel) = stoppedKernel code k := by
          have he : step s i = if k.pkt.kind = pkLaunch then stopKernel s i .failed stHalted code .atHalt
              else if k.state = .fitting then stopKernel s i .retired stOk 0 .atHalt else stopKernel s i .failed stOk 0 .none := by
            show (match s.ctl.kernels[i]? with | none => s | some k => _) = _
            rw [hk]
            dsimp only
            rw [hb, if_neg (by decide)]
          rw [he]
          unfold stoppedKernel
          by_cases h1 : k.pkt.kind = 1
          · exact ⟨_, _, _, _, if_pos h1, by simp [h1, stHalted]⟩
          · by_cases h2 : k.state = .fitting
            · exact ⟨_, _, _, _, (if_neg h1).trans (if_pos h2), by simp [h1, h2, stOk]⟩
            · exact ⟨_, _, _, _, (if_neg h1).trans (if_neg h2), by simp [h1, h2, stOk]⟩
        obtain ⟨st, status, fault, due, e, e'⟩ := hst
        obtain ⟨h1, h2⟩ := stopKernel_spec hk st status fault due
        rw [e]
        refine ⟨by rw [← hb'.1.1, ← hb'.1.2]; exact h1, by rw [h2]; exact modAt_len .., fun j hj => by rw [h2]; exact modAt_other _ _ _ _ hj, fun k' hk' => ?_⟩
        cases hk'
        rw [h2, modAt_get, if_pos rfl, hk, e']
        exact ⟨fun _ _ _ _ => rfl, fun h => absurd h (by simp [hb'])⟩
      · have : step s i = s := by
          show (match s.ctl.kernels[i]? with | none => s | some k => _) = s
          rw [hk]
          dsimp only
          rw [if_pos (by rw [Bool.not_eq_true] at hb; rw [hb]; rfl)]
        rw [this]
        refine ⟨.refl .., rfl, fun _ _ => rfl, fun k' hk' => ?_⟩
        cases hk'
        refine ⟨fun h1 h2 h3 h4 => absurd ?_ hb, fun _ => hk⟩
        rw [Bool.and_eq_true, has_iff, kernLive_iff]
        exact ⟨⟨h1, h2⟩, h3, h4⟩
  have key : ∀ (L : List Nat), L.Nodup → ∀ s : State, KernSide s (L.foldl step s) c.part c.cid ∧ (L.foldl step s).ctl.kernels.length = s.ctl.kernels.length ∧
      ∀ (i : Nat), (i ∉ L → (L.foldl step s).ctl.kernels[i]? = s.ctl.kernels[i]?) ∧ (i ∈ L → ∀ k, s.ctl.kernels[i]? = some k →
        (k.part = c.part → k.ctx = c.cid → k.state ≠ .retired → k.state ≠ .failed → (L.foldl step s).ctl.kernels[i]? = some (stoppedKernel code k)) ∧
        (¬ (k.part = c.part ∧ k.ctx = c.cid) ∨ k.state = .retired ∨ k.state = .failed → (L.foldl step s).ctl.kernels[i]? = some k)) := by
    intro L
    induction L with
    | nil => exact fun _ s => ⟨.refl .., rfl, fun i => ⟨fun _ => rfl, fun h => by cases h⟩⟩
    | cons a L ih =>
      intro hn s
      rw [List.nodup_cons] at hn
      obtain ⟨o1, o2, o3, o4⟩ := one s a
      obtain ⟨i1, i2, i3⟩ := ih hn.2 (step s a)
      refine ⟨o1.trans i1, i2.trans o2, fun i => ⟨fun hi => ?_, fun hi k hk => ?_⟩⟩
      · rw [List.mem_cons, not_or] at hi
        exact ((i3 i).1 hi.2).trans (o3 i hi.1)
      · rcases List.mem_cons.1 hi with rfl | hi
        · rw [List.foldl_cons, (i3 i).1 hn.1]
          exact o4 k hk
        · exact (i3 i).2 hi k ((o3 i fun e => hn.1 (e ▸ hi)).trans hk)
  obtain ⟨h1, h2, h3⟩ := key (List.range s.ctl.kernels.length) List.nodup_range s
  refine ⟨h1, h2, fun i k hk => (h3 i).2 (List.mem_range.2 ?_) k hk⟩
  exact (List.getElem?_eq_some_iff.1 hk).1

/-- What a fatal halt ends at once (R70, R73, R112, R115, R319). -/
theorem haltWork_spec {s : State} {c : Ctx} (code : Nat) : CmdKeep s (haltWork s c code) c.part c.cid ∧
    (haltWork s c code).ctl.ctxs.map ctxCore = s.ctl.ctxs.map ctxCore ∧ GroupsMove s (haltWork s c code) c.part c.cid killedOf ∧
    KernelsStopped s (haltWork s c code) c.part c.cid code := by
  obtain ⟨h1, h2⟩ := killGroups_move (s := s) (c := c)
  obtain ⟨h3, h4⟩ := failAll_spec (killGroups s c) c code
  have hk := h1.cmd.trans h3.cmd
  have hc := h3.ctxs.trans h1.ctxs
  have hg : GroupsMove s (failAll (killGroups s c) c code) c.part c.cid killedOf := by unfold GroupsMove; rw [h3.exe]; exact h2
  have hs : KernelsStopped s (failAll (killGroups s c) c code) c.part c.cid code := by unfold KernelsStopped at h4 ⊢; rw [h1.kernels] at h4; exact h4
  unfold haltWork
  generalize failAll (killGroups s c) c code = u at hk hc hg hs
  exact ⟨hk.trans (cmd_of (.same rfl rfl rfl rfl rfl rfl rfl id) rfl rfl (fun _ _ _ => rfl) rfl), hc, hg, hs⟩

/-- The record that a rise of the halt line makes primary (R73, R88). -/
def primOf (prim : FaultRec) : FaultRec := { prim with prim := true, dbg := prim.code == some .debugStop }

/-- What the rise of the halt line does (R70, R73, R88). -/
theorem raiseHalt_spec {s : State} {c : Ctx} {part cid : Nat} (hc : findCtx s.ctl.ctxs part cid = some c) (prim : FaultRec) (rest : List FaultRec) :
    CmdKeep s (raiseHalt s c prim rest) part cid ∧
    GroupsMove s (raiseHalt s c prim rest) part cid (if prim.code = some .debugStop then parkingOf else killedOf) ∧
    (prim.code = some .debugStop → (raiseHalt s c prim rest).ctl.kernels = s.ctl.kernels) ∧
    (prim.code ≠ some .debugStop → KernelsStopped s (raiseHalt s c prim rest) part cid (faultNum prim.code)) ∧
    ∃ x rs, findCtx (raiseHalt s c prim rest).ctl.ctxs part cid = some x ∧ x.state = .halting ∧ x.debugHalt = (prim.code == some .debugStop) ∧ x.parkCmd = false ∧
      x.primary = some (primOf prim) ∧ x.t0ptp = prim.ptp ∧ x.kord = c.kord ∧ x.accs = c.accs ∧
      x.recs = ((if c.state = .debugStopped then c.recs else []) ++ primOf prim :: rest.map fun r => { r with dbg := prim.code == some .debugStop }) ++ rs := by
  obtain ⟨cp, ck⟩ := findCtx_ids hc
  unfold raiseHalt
  dsimp only
  generalize hrecs : ((newEngines _ _).map _ : List FaultRec) = rs
  generalize hx : ({ c with state := CState.halting, parkCmd := false, debugHalt := (prim.code == some FaultCode.debugStop), primary := some _, recs := _, t0ptp := prim.ptp } : Ctx) = x
  have xp : x.part = part ∧ x.cid = cid := by rw [← hx]; exact ⟨cp, ck⟩
  have h0 := setCtx_cmd s xp.1 xp.2
  have f0 := findCtx_setCtx hc xp.1 xp.2
  have done : ∀ u : State, u.ctl.ctxs.map ctxCore = (setCtx s x).ctl.ctxs.map ctxCore → ∃ x' rs, findCtx (settleQueues u).ctl.ctxs part cid = some x' ∧
      x'.state = .halting ∧ x'.debugHalt = (prim.code == some .debugStop) ∧ x'.parkCmd = false ∧
      x'.primary = some (primOf prim) ∧ x'.t0ptp = prim.ptp ∧ x'.kord = c.kord ∧ x'.accs = c.accs ∧
      x'.recs = ((if c.state = .debugStopped then c.recs else []) ++ primOf prim :: rest.map fun r => { r with dbg := prim.code == some .debugStop }) ++ rs := by
    intro u hu
    obtain ⟨x', e1, e2⟩ := findCtx_core hu f0
    have fld : ∀ {α : Type} (p : Ctx → α), (∀ c, p (ctxCore c) = p c) → p x' = p x := fun p hp => by rw [← hp x', e2, hp x]
    refine ⟨x', rs, by rw [(settleQueues_side u).ctl]; exact e1, (fld Ctx.state fun _ => rfl).trans (by rw [← hx]), (fld Ctx.debugHalt fun _ => rfl).trans (by rw [← hx]),
      (fld Ctx.parkCmd fun _ => rfl).trans (by rw [← hx]), (fld Ctx.primary fun _ => rfl).trans (by rw [← hx]; rfl), (fld Ctx.t0ptp fun _ => rfl).trans (by rw [← hx]),
      (fld Ctx.kord fun _ => rfl).trans (by rw [← hx]), (fld Ctx.accs fun _ => rfl).trans (by rw [← hx]), (fld Ctx.recs fun _ => rfl).trans ?_⟩
    rw [← hx]
    rfl
  have settled : ∀ u : State, (settleQueues u).exe.groups = u.exe.groups ∧ (settleQueues u).ctl.kernels = u.ctl.kernels := fun u =>
    ⟨by rw [(settleQueues_side u).exe], by rw [(settleQueues_side u).ctl]⟩
  by_cases hd : (prim.code == some FaultCode.debugStop) = true
  · obtain ⟨h1, h2⟩ := parkAll_move (s := setCtx s x) (c := c) true
    rw [cp, ck] at h1 h2
    rw [if_pos hd, if_pos (beq_iff_eq.1 hd)]
    refine ⟨h0.trans (h1.cmd.trans ((settleQueues_side _).cmd part cid)), ?_, fun _ => ((settled _).2.trans h1.kernels), fun hn => absurd (beq_iff_eq.1 hd) hn, done _ h1.ctxs⟩
    unfold GroupsMove
    rw [(settled _).1]
    exact h2
  · obtain ⟨h1, h2, h3, h4⟩ := haltWork_spec (s := setCtx s x) (c := c) (faultNum prim.code)
    rw [cp, ck] at h1 h3 h4
    rw [if_neg hd, if_neg fun h => hd (beq_iff_eq.2 h)]
    refine ⟨h0.trans (h1.trans ((settleQueues_side _).cmd part cid)), ?_, fun h => absurd (beq_iff_eq.2 h) hd, fun _ => ?_, done _ h2⟩
    · unfold GroupsMove
      rw [(settled _).1]
      exact h3
    · unfold KernelsStopped
      rw [(settled _).2]
      exact h4

/-! ### Queues of a context -/

theorem deviceWrite_ctl (s : State) (w : Writer) (part leaf pa : Nat) (bs : List Byte) : (deviceWrite s w part leaf pa bs).ctl = s.ctl := by
  unfold deviceWrite
  split
  · exact (engineWrite_side ..).ctl
  · split <;> rfl

theorem setQState_queues (s : State) (q : Queue) (x : QState) (err : Nat) : (setQState s q x err).ctl.queues =
    if x = .unbound then s.ctl.queues.filter (fun y => y.id != q.id) else modIf s.ctl.queues (fun y => y.id == q.id) fun y => { y with state := x } := by
  unfold setQState hdrPut modQueue
  dsimp only
  split
  · dsimp only; rw [deviceWrite_ctl, deviceWrite_ctl]
  · dsimp only; rw [deviceWrite_ctl, deviceWrite_ctl]

/-- Queues of a context moved to a state (R91). -/
theorem ctxQueues_side (s : State) (c : Ctx) (x : QState) (err : Nat) : QueueSide (HeaderOf s) s (ctxQueues s c x err) := by
  unfold ctxQueues
  refine List.foldlRecOn (motive := QueueSide (HeaderOf s) s) _ _ (.refl _ s) fun t h q hq => ?_
  exact (h.modQueue q.id (fun y => { y with taken := none }) fun _ => ⟨rfl, rfl, rfl, rfl⟩).trans
    ((setQState_side _ _).mono fun off ho => ⟨q, (List.mem_filter.1 hq).1, ho⟩)

/-- Every queue of the context is gone, or in the state given. -/
theorem ctxQueues_state (s : State) (c : Ctx) (x : QState) (err : Nat) : ∀ q ∈ (ctxQueues s c x err).ctl.queues, q.part = c.part → q.ctx = c.cid → q.state = .unbound ∨ (x ≠ .unbound ∧ q.state = x) := by
  have key : ∀ (L : List Queue) (s : State), ∀ q ∈ (L.foldl (fun s q => setQState (modQueue s q.id fun y => { y with taken := none }) q x err) s).ctl.queues,
      (∃ q0 ∈ s.ctl.queues, q0.id = q.id ∧ q0.state = q.state ∧ q0.part = q.part ∧ q0.ctx = q.ctx ∧ ∀ y ∈ L, y.id ≠ q.id) ∨ (x ≠ .unbound ∧ q.state = x) := by
    intro L
    induction L with
    | nil => exact fun s q hq => .inl ⟨q, hq, rfl, rfl, rfl, rfl, fun y hy => absurd hy List.not_mem_nil⟩
    | cons p L ih =>
      intro s q hq
      rw [List.foldl_cons] at hq
      rcases ih _ q hq with ⟨q1, h1, e1, e2, e3, e4, e5⟩ | h
      · rw [setQState_queues] at h1
        split at h1
        · obtain ⟨h2, h3⟩ := List.mem_filter.1 h1
          obtain ⟨q0, h4, rfl⟩ := List.mem_map.1 h2
          refine .inl ⟨q0, h4, ?_⟩
          by_cases hp : (q0.id == p.id) = true
          · rw [if_pos hp] at h3
            exact absurd (beq_iff_eq.1 hp) (bne_iff_ne.1 h3)
          · rw [if_neg hp] at e1 e2 e3 e4
            refine ⟨e1, e2, e3, e4, fun y hy => ?_⟩
            rcases List.mem_cons.1 hy with rfl | hy
            · exact fun h => hp (beq_iff_eq.2 (e1.trans h.symm))
            · exact e5 y hy
        · rename_i hx
          obtain ⟨q2, h2, rfl⟩ := List.mem_map.1 h1
          obtain ⟨q0, h4, rfl⟩ := List.mem_map.1 h2
          by_cases hp : (q0.id == p.id) = true
          · right
            rw [if_pos (by rw [if_pos hp]; exact hp)] at e2
            exact ⟨hx, e2.symm⟩
          · left
            have hid : (if (q0.id == p.id) = true then { q0 with taken := none } else q0) = q0 := if_neg hp
            rw [hid, if_neg hp] at e1 e2 e3 e4
            refine ⟨q0, h4, e1, e2, e3, e4, fun y hy => ?_⟩
            rcases List.mem_cons.1 hy with rfl | hy
            · exact fun h => hp (beq_iff_eq.2 (e1.trans h.symm))
            · exact e5 y hy
      · exact .inr h
  intro q hq hp hc
  rcases key _ s q hq with ⟨q0, h0, e1, e2, e3, e4, e5⟩ | h
  · left
    by_contra hne
    refine e5 q0 (List.mem_filter.2 ⟨h0, ?_⟩) e1
    rw [Bool.and_eq_true, Bool.and_eq_true, beq_iff_eq, beq_iff_eq, bne_iff_ne]
    exact ⟨⟨e3.trans hp, e4.trans hc⟩, fun h => hne (e2.symm.trans h)⟩
  · exact .inr h

/-! ### Windows and headers -/

theorem local_add {own pa k : Nat} (ha : pa % 64 = 0) (hk : k < 64) : paLocal own (pa + k) = paLocal own pa ∧ paHost own (pa + k) = paHost own pa ∧ paOff (pa + k) = paOff pa + k := by
  have h1 : paOff (pa + k) = paOff pa + k := by unfold paOff; omega
  have h2 : paDev (pa + k) = paDev pa := by unfold paDev; omega
  have h3 : paOff pa % 64 = 0 := by unfold paOff; omega
  refine ⟨?_, ?_, h1⟩
  · unfold paLocal
    rw [h1, h2]
    congr 1
    rw [decide_eq_decide]
    unfold devTop
    omega
  · unfold paHost
    rw [h1, h2]
    congr 1
    rw [decide_eq_decide]
    unfold hostBase
    omega

theorem local_not_host {own pa : Nat} (h : paLocal own pa = true) : paHost own pa = false := by
  unfold paLocal at h
  unfold paHost
  rw [Bool.and_eq_true, decide_eq_true_iff] at h
  rw [Bool.and_eq_false_iff, decide_eq_false_iff_not]
  right
  have := h.2
  unfold devTop at this
  unfold hostBase
  omega

theorem deviceWrite_local {s : State} {pa : Nat} (w : Writer) (part leaf : Nat) (bs : List Byte) (h : paLocal (ownDev s.sys) pa = true) :
    deviceWrite s w part leaf pa bs = homeWrite s w leaf (paOff pa) bs := by
  have hp : paPeer s pa = false := by unfold paPeer; simp [h]
  unfold deviceWrite engineWrite
  rw [hp, h, local_not_host h]
  rfl

/-- What queue moves keep of a state is preserved by settling, where every move preserves it. -/
theorem settle_inv {P : State → Prop} (hs : ∀ s q x, P s → queueById s.ctl.queues q.id = some q → qNext s q = some x → P (setQState s q x 0)) {s : State} (h : P s) : P (settleQueues s) := by
  unfold settleQueues
  refine List.foldlRecOn (motive := P) _ _ h fun t h q0 _ => ?_
  split
  · exact h
  · rename_i q hq
    have hid := (queueById_mem hq).2
    split
    · exact hs t q _ h (by rw [hid]; exact hq) ‹_›
    · exact h

theorem hewDone_answer {t : State} {part w st idx : Nat} {p : Partition} (hp : findPart t.ctl.parts part = some p) (hw : w < p.hews.length) : HewAnswer (hewDone t part w st idx) part w st idx := by
  have h := findPart_modIf t.ctl.parts part (fun p => { p with hews := modAt p.hews w fun h => { h with cmd := none, status := BitVec.ofNat 32 st, index := BitVec.ofNat 64 idx } }) fun _ h => h
  rw [hp] at h
  refine ⟨_, h, ?_⟩
  have : nth (modAt p.hews w fun h => { h with cmd := none, status := BitVec.ofNat 32 st, index := BitVec.ofNat 64 idx }) w {} = { nth p.hews w {} with cmd := none, status := BitVec.ofNat 32 st, index := BitVec.ofNat 64 idx } := by
    unfold nth
    rw [modAt_get, if_pos rfl, List.getElem?_eq_getElem hw]
    rfl
  dsimp only
  rw [this]
  exact ⟨rfl, rfl⟩

/-- A window takes a command that it may take, at a header address that passes the checks (R100). -/
theorem hewCmd_eq {s : State} {n part w ctx : Nat} {p : Partition} {c : Ctx} {x : Xl} (hp : findPart s.ctl.parts part = some p) (hr : p.state = .run) (hw : w < 8) (ht : HewTakes p w n ctx)
    (hc : findCtx s.ctl.ctxs part ctx = some c) (h1 : c.state ≠ .free) (h2 : c.state ≠ .retired) (ha : (nth p.hews w {}).queue.toNat % 64 = 0)
    (hx : xlate s 8 c (nth p.hews w {}).queue.toNat needRW = .ok x) (f : State → Partition → Xl → State) :
    hewCmd s part w n ctx f = .next (f (hubHold s x.leaf x.pa) p x) := by
  have htk : hewTakes p w n ctx = true := by
    unfold hewTakes hewOf
    rcases ht with h | h <;> rw [hr, h] <;> simp [hw]
  have hu : ctxUp c = true := by unfold ctxUp; simp [h1, h2]
  unfold hewCmd
  rw [hp]
  dsimp only
  rw [htk, if_neg (by decide), hc]
  dsimp only
  unfold hewOf
  rw [hu, if_neg (by decide), if_neg (by omega), hx]

theorem queueAt_some {qs : List Queue} {pa : Nat} {q : Queue} (h : queueAt qs pa = some q) : q ∈ qs ∧ q.pa = pa ∧ q.state ≠ .unbound := by
  have h2 := List.find?_some (p := fun q : Queue => q.state != .unbound && q.pa == pa) h
  rw [Bool.and_eq_true, beq_iff_eq, bne_iff_ne] at h2
  exact ⟨List.mem_of_find?_eq_some h, h2.2, h2.1⟩

/-- Every queue numbered `id` is in state `x`. -/
def AllAre (id : Nat) (x : QState) (s : State) : Prop := ∀ y ∈ s.ctl.queues, y.id = id → y.state = x

theorem setQState_all (s : State) (q : Queue) (x : QState) (err : Nat) : AllAre q.id x (setQState s q x err) := by
  intro y hy hid
  rw [setQState_queues] at hy
  split at hy
  · exact absurd hid (bne_iff_ne.1 (List.mem_filter.1 hy).2)
  · obtain ⟨y0, _, rfl⟩ := List.mem_map.1 hy
    by_cases h : (y0.id == q.id) = true
    · rw [if_pos h]
    · rw [if_neg h] at hid
      exact absurd (beq_iff_eq.2 hid) h

theorem xlate_weaken {s : State} {c : Ctx} {va need : Nat} {x : Xl} (h : xlate s 8 c va need = .ok x) : xlate s 8 c va 0 = .ok x := by
  unfold xlate at *
  cases hp : findPart s.ctl.parts c.part with
  | none => rw [hp] at h; cases h
  | some p =>
    rw [hp] at h
    dsimp only at h ⊢
    unfold xlateAt at *
    cases hl : leafOf s 8 p.id c.cid c.desc.ptRoot p.dies va with
    | error f => rw [hl] at h; cases h
    | ok y =>
      obtain ⟨leaf, sh⟩ := y
      rw [hl] at h
      replace h : (if permOk (ownDev s.sys) p need leaf (leafAddr leaf sh va) = true then Except.ok (⟨leafAddr leaf sh va, leaf⟩ : Xl) else .error FaultCode.permFault) = .ok x := h
      show (if permOk (ownDev s.sys) p 0 leaf (leafAddr leaf sh va) = true then Except.ok (⟨leafAddr leaf sh va, leaf⟩ : Xl) else .error FaultCode.permFault) = .ok x
      split at h
      · rename_i hperm
        have : permOk (ownDev s.sys) p 0 leaf (leafAddr leaf sh va) = true := by
          unfold permOk at *
          rw [Bool.and_eq_true] at hperm ⊢
          refine ⟨?_, hperm.2⟩
          rw [beq_iff_eq]
          exact Nat.and_zero leaf
        rw [this, if_pos rfl]
        exact h
      · cases h

theorem leNat_zero (bs : List Byte) : leNat bs = 0 ↔ (bs.all fun b => b == 0) = true := by
  induction bs with
  | nil => exact ⟨fun _ => rfl, fun _ => rfl⟩
  | cons b bs ih =>
    show b.toNat + 256 * leNat bs = 0 ↔ _
    rw [List.all_cons, Bool.and_eq_true, beq_iff_eq, ← ih]
    constructor
    · intro h
      exact ⟨BitVec.eq_of_toNat_eq (by show b.toNat = 0; omega), by omega⟩
    · rintro ⟨rfl, h⟩
      rw [h]; rfl

theorem headerGood_iff {s : State} {c : Ctx} {pa : Nat} : HeaderGood s c pa ↔ bindOk (paBytes s pa 64) c.cid = true := by
  have h := fun o k (hk : o + k ≤ 64) => paBytes_num s pa 64 o k hk
  have h28 : ((paBytes s pa 64).drop 0x28).all (fun b => b == 0) = true ↔ numAt s (pa + 0x28) 24 = 0 := by
    rw [← leNat_zero, ← h 0x28 24 (by omega), List.take_of_length_le]
    rw [List.length_drop]
    unfold paBytes
    rw [List.length_map, List.length_range]
  unfold HeaderGood bindOk
  dsimp only
  simp only [h 0x10 8 (by omega), h 0x18 1 (by omega), h 0x19 1 (by omega), h 0x1A 1 (by omega), h 0x1B 1 (by omega), h 0x1C 1 (by omega), h 0x1D 1 (by omega), h 0x1E 1 (by omega), h 0 8 (by omega), h 8 8 (by omega),
    Bool.and_eq_true, beq_iff_eq, decide_eq_true_eq, Bool.or_eq_true, h28, and_assoc, Nat.add_zero]

theorem latched_of (s : State) (c : Ctx) (va pa leaf : Nat) : Latched s c va pa (bindQueue s c va pa leaf (paBytes s pa 64)) := by
  have h := fun o k (hk : o + k ≤ 64) => paBytes_num s pa 64 o k hk
  unfold Latched bindQueue
  dsimp only
  refine ⟨rfl, rfl, rfl, rfl, ?_, h _ _ (by omega), h _ _ (by omega), ?_, h _ _ (by omega), h _ _ (by omega)⟩
  · rw [h 0x1A 1 (by omega), beq_iff_eq]
  · rw [h 0x10 8 (by omega), BitVec.toNat_ofNat, Nat.mod_eq_of_lt (numAt_lt s _ 8)]

/-- A new queue alone bears its number; settling leaves it BOUND or ACTIVE. -/
def Fresh (q0 : Queue) (s : State) : Prop :=
  (∃ q ∈ s.ctl.queues, { q with state := .bound } = { q0 with state := .bound }) ∧ ∀ q ∈ s.ctl.queues, q.id = q0.id → q.state = .bound ∨ q.state = .active

theorem some_of_ite {α : Type} {b : Bool} {x y : α} (h : (if b = true then some y else none) = some x) : x = y := by
  cases b with
  | false => cases h
  | true => exact (Option.some.inj h).symm

theorem qNext_from {s : State} {q : Queue} {x : QState} (h : qNext s q = some x) : (q.state = .draining → x = .unbound) ∧ (q.state = .bound → x = .active) ∧ (q.state = .active → x = .bound) := by
  unfold qNext at h
  dsimp only at h
  refine ⟨fun hs => ?_, fun hs => ?_, fun hs => ?_⟩ <;> (rw [hs] at h; exact some_of_ite h)

theorem fresh_settle {q0 : Queue} {s : State} (h : Fresh q0 s) : Fresh q0 (settleQueues s) := by
  refine settle_inv (P := Fresh q0) (fun s q x ⟨⟨y, hy, hy2⟩, hall⟩ hq hx => ?_) h
  obtain ⟨hm, _⟩ := queueById_mem hq
  obtain ⟨n1, n2, n3⟩ := qNext_from hx
  have yid : y.id = q0.id := by have := congrArg Queue.id hy2; exact this
  have hxid : q.id = q0.id → x = .bound ∨ x = .active := by
    intro h
    rcases hall q hm h with h' | h'
    · exact .inr (n2 h')
    · exact .inl (n3 h')
  unfold Fresh
  rw [setQState_queues]
  split
  · rename_i hu
    have hne : q.id ≠ q0.id := fun h => by rcases hxid h with h | h <;> rw [hu] at h <;> cases h
    exact ⟨⟨y, List.mem_filter.2 ⟨hy, by rw [bne_iff_ne, yid]; exact fun h => hne h.symm⟩, hy2⟩, fun z hz => hall z (List.mem_filter.1 hz).1⟩
  · refine ⟨⟨_, List.mem_map.2 ⟨y, hy, rfl⟩, ?_⟩, fun z hz hzid => ?_⟩
    · have : ∀ b : Bool, ({ (if b = true then { y with state := x } else y) with state := QState.bound } : Queue) = { y with state := .bound } := by intro b; cases b <;> rfl
      exact (this _).trans hy2
    · obtain ⟨z0, hz0, rfl⟩ := List.mem_map.1 hz
      by_cases h : (z0.id == q.id) = true
      · rw [if_pos h] at hzid ⊢
        exact hxid ((beq_iff_eq.1 h).symm.trans hzid)
      · rw [if_neg h] at hzid ⊢
        exact hall z0 hz0 hzid

theorem draining_settle {id : Nat} {s : State} (h : AllAre id .draining s) : AllAre id .draining (settleQueues s) := by
  refine settle_inv (P := AllAre id .draining) (fun s q x hall hq hx => ?_) h
  obtain ⟨hm, _⟩ := queueById_mem hq
  intro y hy hid
  rw [setQState_queues] at hy
  split at hy
  · exact hall y (List.mem_filter.1 hy).1 hid
  · rename_i hu
    obtain ⟨y0, hy0, rfl⟩ := List.mem_map.1 hy
    by_cases h : (y0.id == q.id) = true
    · rw [if_pos h] at hid
      exact absurd ((qNext_from hx).1 (hall q hm ((beq_iff_eq.1 h).symm.trans hid))) hu
    · rw [if_neg h] at hid ⊢
      exact hall y0 hy0 hid

end Sys2Proof.Machine
end

