-- ==== Sys2Proof/Laws/Kernels.lean ====
section
/-! SUPPORT. Laws/Kernels.lean: the end of a kernel, the completions and the queues' heads: what they change and what they leave. -/

namespace Sys2Proof.Machine

/-! ### Sorted lists -/

theorem mem_ins {α : Type} (before : α → α → Bool) (x : α) (l : List α) (y : α) : y ∈ sortWith.ins before x l ↔ y = x ∨ y ∈ l := by
  induction l with
  | nil => simp [sortWith.ins]
  | cons z t ih =>
    unfold sortWith.ins
    split
    · rw [List.mem_cons, ih, List.mem_cons]; tauto
    · rw [List.mem_cons, List.mem_cons]

theorem mem_sortWith {α : Type} (before : α → α → Bool) (l : List α) (y : α) : y ∈ sortWith before l ↔ y ∈ l := by
  induction l with
  | nil => rfl
  | cons z t ih => unfold sortWith; rw [mem_ins, ih, List.mem_cons]

/-- An element ahead of every other stands first. -/
theorem sortWith_head {α : Type} {before : α → α → Bool} {l : List α} {x : α} (hx : x ∈ l) (h : ∀ y ∈ l, y ≠ x → before x y = true ∧ before y x = false) :
    (sortWith before l).head? = some x := by
  induction l with
  | nil => cases hx
  | cons z t ih =>
    unfold sortWith
    by_cases hz : z = x
    · subst hz
      cases hs : sortWith before t with
      | nil => rfl
      | cons y r =>
        unfold sortWith.ins
        by_cases hb : before y z = true
        · rw [if_pos hb]
          by_cases hy : y = z
          · rw [hy]; rfl
          · have := (h y (List.mem_cons_of_mem _ ((mem_sortWith before t y).1 (by rw [hs]; exact List.mem_cons_self))) hy).2
            rw [hb] at this; cases this
        · rw [if_neg hb]; rfl
    · have hxt : x ∈ t := by
        rcases List.mem_cons.1 hx with e | e
        · exact absurd e.symm hz
        · exact e
      have := ih hxt fun y hy => h y (List.mem_cons_of_mem _ hy)
      cases hs : sortWith before t with
      | nil => rw [hs] at this; cases this
      | cons y r =>
        rw [hs] at this
        cases this
        unfold sortWith.ins
        rw [if_pos (h z List.mem_cons_self hz).1]
        rfl

/-! ### The end of a kernel -/

/-- Where HEAD of the queue that a kernel's packet was taken from stands, and STATE and ERR of headers. -/
def HeadOr (s : State) (k : Kernel) : Nat → Prop := fun off => RunOf (paOff k.qpa) 8 off ∨ HeaderOf s off

/-- HEAD advances past a packet: of memory no byte changes but HEAD and the STATE and ERR of headers (R99). -/
theorem advanceHead_side {s : State} {i : Nat} {k : Kernel} (hk : s.ctl.kernels[i]? = some k) :
    QueueSide (HeadOr s k) (modKern s i fun x => { x with advanced := true }) (advanceHead s i) := by
  unfold advanceHead
  rw [hk]
  dsimp only
  split
  · rename_i ha
    have : (modKern s i fun x => { x with advanced := true }) = s := by
      unfold modKern
      have : (modAt s.ctl.kernels i fun x => { x with advanced := true }) = s.ctl.kernels := by
        conv_rhs => rw [← modAt_same hk]
        refine List.ext_getElem? fun j => ?_
        rw [modAt_get, modAt_get]
        split
        · rename_i hj
          subst hj
          rw [hk]
          show some _ = some _
          rw [← ha]
        · rfl
      rw [this]
    rw [this]
    exact .refl _ s
  · split
    · exact .refl _ _
    · have h1 := deviceWrite_side (modKern s i fun x => { x with advanced := true }) .nobody k.part k.qleaf k.qpa (natLe (k.qidx + 1) 8)
      rw [natLe_length] at h1
      have h2 := h1.mono (Q := HeadOr s k) fun _ => .inl
      generalize deviceWrite (modKern s i fun x => { x with advanced := true }) .nobody k.part k.qleaf k.qpa (natLe (k.qidx + 1) 8) = u at h2
      split
      · exact h2
      · rename_i q hq
        have hm := List.mem_of_find?_eq_some hq
        have h3 := h2.modQueue q.id (fun y => { y with taken := none, stamps := y.stamps.drop 1 }) fun _ => ⟨rfl, rfl, rfl, rfl⟩
        have h4 : QueueSide (HeadOr s k) (modKern s i fun x => { x with advanced := true })
            (if q.state = .stalled then setQState (modQueue u q.id fun y => { y with taken := none, stamps := y.stamps.drop 1 }) q .active 0
              else modQueue u q.id fun y => { y with taken := none, stamps := y.stamps.drop 1 }) := by
          split
          · exact h3.trans ((setQState_side _ _).mono fun off ho => .inr (h2.headers off ⟨q, hm, ho⟩))
          · exact h3
        exact h4.trans ((settleQueues_side _).mono fun off ho => .inr (h4.headers off ho))

/-- An add at a home changes the eight bytes of its number, or sends a packet (R101, R223). -/
theorem homeAdd_side (s : State) (w : Writer) (part leaf pa v : Nat) : QueueSide (RunOf (paOff pa) 8) s (homeAdd s w part leaf pa v) := by
  unfold homeAdd
  dsimp only
  split
  · have h := engineWrite_side s w leaf pa (natLe (leNat ((List.range 8).map fun i => spaceByte s (pa + i)) + v) 8)
    rw [natLe_length] at h
    exact h.queue
  · exact ⟨rfl, rfl, rfl, .refl _ _, fun q h => ⟨q, h, rfl, rfl, rfl, rfl⟩⟩

theorem doneAdd_side (s : State) (c : Ctx) (k : Kernel) : QueueSide (fun _ => True) s (doneAdd s c k) := by
  unfold doneAdd
  split
  · exact .refl _ s
  · exact (homeAdd_side ..).mono fun _ _ => trivial

theorem doneWord_side (s : State) (c : Ctx) (kern : Nat) (k : Kernel) (word : Nat) : QueueSide (fun _ => True) s (doneWord s c kern k word) := by
  unfold doneWord
  split
  · exact (deviceWrite_side ..).mono fun _ _ => trivial
  · exact .refl _ s

/-- The completion of a kernel's packet: memory, queues' headers in it, and packets to peers; the kernel's add may be left to be
made (R97, R113). -/
theorem complete_side (s : State) (c : Ctx) (kern : Nat) (k : Kernel) (word : Option Nat) : ∃ u, QueueSide (fun _ => True) s u ∧
    (complete s c kern k word = u ∨ complete s c kern k word = modKern u kern fun x => { x with due := .add }) := by
  unfold complete
  split
  · exact ⟨s, .refl _ s, .inl rfl⟩
  · split
    · exact ⟨_, doneAdd_side .., .inl rfl⟩
    · dsimp only
      split
      · exact ⟨_, doneWord_side .., .inr rfl⟩
      · exact ⟨_, (doneWord_side s c kern k _).trans (doneAdd_side _ c k), .inl rfl⟩

theorem modCtx_modCtx (cs : List Ctx) (p k : Nat) {f g : Ctx → Ctx} (hf : ∀ c, (f c).part = c.part ∧ (f c).cid = c.cid) : modCtx (modCtx cs p k f) p k g = modCtx cs p k fun x => g (f x) := by
  unfold modCtx modIf
  rw [List.map_map]
  refine List.map_congr_left fun c _ => ?_
  cases h : (c.part == p && c.cid == k) with
  | true => simp only [Function.comp_apply, h, if_true, (hf c).1, (hf c).2]
  | false => simp only [Function.comp_apply, h, Bool.false_eq_true, if_false]

/-- The record of a kernel that has ended. -/
def endedKern (k : Kernel) (st : KState) (status fault : Nat) (due : Completion) : Kernel :=
  { k with state := st, status := status, faultCode := fault, pins := [], plan := [], advanced := true, due := due }

/-- The owner of a kernel that has ended: its pins and the regions it held are released. -/
def endedCtx (k : Kernel) (i : Nat) (c : Ctx) : Ctx := { k.pins.foldl unpinOne c with held := c.held.filter fun h => h.2 != i }

theorem unpins_ids (L : List (Nat × Nat)) (x : Ctx) : (L.foldl unpinOne x).part = x.part ∧ (L.foldl unpinOne x).cid = x.cid ∧ (L.foldl unpinOne x).held = x.held := by
  obtain ⟨ps, e⟩ := unpins_keep L x
  rw [e]; exact ⟨rfl, rfl, rfl⟩

/-- A kernel closed: its record, and its owner without its pins and holds (R112, R347). -/
theorem closeKernel_eq {s : State} {i : Nat} {k : Kernel} {c : Ctx} (hc : findCtx s.ctl.ctxs k.part k.ctx = some c) (st : KState) (status fault : Nat) :
    closeKernel s i k st status fault = { s with ctl := { s.ctl with
      ctxs := modCtx s.ctl.ctxs k.part k.ctx (endedCtx k i)
      kernels := modAt s.ctl.kernels i fun x => { x with state := st, status := status, faultCode := fault, pins := [], plan := [] } } } := by
  have hids := findCtx_ids hc
  have hkc : findCtx (modCtx s.ctl.ctxs k.part k.ctx fun c => k.pins.foldl unpinOne c) k.part k.ctx = some (k.pins.foldl unpinOne c) :=
    findCtx_modCtx (f := fun c => k.pins.foldl unpinOne c) hc fun x => ⟨(unpins_ids _ x).1, (unpins_ids _ x).2.1⟩
  unfold closeKernel kernCtx modKern releaseKernPins releaseHeld
  dsimp only
  rw [hkc]
  dsimp only
  rw [(unpins_ids k.pins c).1, (unpins_ids k.pins c).2.1, hids.1, hids.2,
    modCtx_modCtx _ _ _ (f := fun c => k.pins.foldl unpinOne c) (fun x => ⟨(unpins_ids _ x).1, (unpins_ids _ x).2.1⟩)]
  congr 3
  funext x
  show ({ k.pins.foldl unpinOne x with held := (k.pins.foldl unpinOne x).held.filter _ } : Ctx) = endedCtx k i x
  rw [(unpins_ids k.pins x).2.2]
  rfl

theorem raiseHalt_faults (s : State) (c : Ctx) (prim : FaultRec) (rest : List FaultRec) : (raiseHalt s c prim rest).ctl.faults = s.ctl.faults := by
  unfold raiseHalt
  dsimp only
  rw [(settleQueues_side _).ctl]
  dsimp only
  split
  · exact (parkAll_move (c := c) true).1.faults
  · unfold haltWork
    dsimp only
    rw [(failAll_spec _ c _).1.ctl]
    exact (killGroups_move (c := c)).1.faults

theorem faultRank_lt {f g : FaultRec} (hf : f.kind < 16 ∧ f.unit < 256 ∧ f.place < 256 ∧ f.die ≤ 8) (hg : g.kind < 16 ∧ g.unit < 256 ∧ g.place < 256 ∧ g.die ≤ 8) (h : Ahead f g) : faultRank f < faultRank g := by
  unfold Ahead at h
  unfold faultRank
  dsimp only at h ⊢
  have e : ∀ r : FaultRec, r.die ≤ 8 → (if r.die = 8 ∧ r.code ≠ some .haltRequest then 1 else 0) ≤ 1 ∧ (r.die ≠ 8 → (if r.die = 8 ∧ r.code ≠ some .haltRequest then 1 else 0) = 0) := by
    intro r _
    constructor
    · split <;> omega
    · intro hn; rw [if_neg (fun h => hn h.1)]
  obtain ⟨f1, f2⟩ := e f hf.2.2.2
  obtain ⟨g1, g2⟩ := e g hg.2.2.2
  generalize (if f.die = 8 ∧ f.code ≠ some .haltRequest then 1 else 0) = a at *
  generalize (if g.die = 8 ∧ g.code ≠ some .haltRequest then 1 else 0) = b at *
  obtain ⟨k1, u1, p1, d1⟩ := hf
  obtain ⟨k2, u2, p2, d2⟩ := hg
  by_cases h8 : f.die = 8 <;> by_cases h9 : g.die = 8 <;> simp only [h8, h9, if_true, if_false] at h f2 g2 ⊢ <;> omega

/-- The faults of a context sorted, where one ranks ahead of every other. -/
theorem sorted_faults {L : List FaultRec} {f : FaultRec} (hf : f ∈ L) (h : ∀ g ∈ L, g.kind < 16 ∧ g.unit < 256 ∧ g.place < 256 ∧ g.die ≤ 8 ∧ (g = f ∨ Ahead f g)) :
    ∃ rest, sortWith (fun a b => decide (faultRank a ≤ faultRank b)) L = f :: rest ∧ ∀ g ∈ L, g ≠ f → g ∈ rest := by
  have hh := sortWith_head (before := fun a b => decide (faultRank a ≤ faultRank b)) hf fun g hg hne => by
    obtain ⟨a1, a2, a3, a4, a5⟩ := h g hg
    obtain ⟨b1, b2, b3, b4, _⟩ := h f hf
    rcases a5 with a5 | a5
    · exact absurd a5 hne
    · have := faultRank_lt ⟨b1, b2, b3, b4⟩ ⟨a1, a2, a3, a4⟩ a5
      rw [decide_eq_true_iff, decide_eq_false_iff_not]
      omega
  cases hs : sortWith (fun a b => decide (faultRank a ≤ faultRank b)) L with
  | nil => rw [hs] at hh; cases hh
  | cons x rest =>
    rw [hs] at hh
    cases hh
    refine ⟨rest, rfl, fun g hg hne => ?_⟩
    have := (mem_sortWith (fun a b => decide (faultRank a ≤ faultRank b)) L g).2 hg
    rw [hs] at this
    rcases List.mem_cons.1 this with e | e
    · exact absurd e hne
    · exact e

theorem writeStop_side (s : State) (c : Ctx) : HomeSide (fun _ => True) s (writeStop s c) := vaBytes_side s c _ _

theorem smRun_puts_low (head : List Byte) (d : List (Nat × Byte)) (hd : ∀ p ∈ d, 0x40 ≤ p.1) (hh : head.length = 48) (o n : Nat) (h : o + n ≤ 64) :
    ((smRun (smPuts (smPut [] 0 head) d) 0 256).drop o).take n = ((head ++ List.replicate 16 0).drop o).take n := by
  apply List.ext_getElem?
  intro i
  rw [List.getElem?_take, List.getElem?_take, List.getElem?_drop, List.getElem?_drop]
  split
  · rename_i hi
    have hlen := smRun_length (smPuts (smPut [] 0 head) d) 0 256
    have hg := smRun_get (smPuts (smPut [] 0 head) d) 0 256 (o + i) (by omega)
    rw [List.getElem?_eq_getElem (by omega)] at hg ⊢
    rw [Option.getD_some, Nat.zero_add] at hg
    rw [hg, smGet_smPuts_other _ _ _ (fun p hp => by have := hd p hp; omega), smGet_smPut]
    by_cases hi2 : o + i < 48
    · rw [if_pos (by omega), Nat.sub_zero, List.getElem?_append_left (by omega), List.getElem?_eq_getElem (by omega)]
      rfl
    · rw [if_neg (by omega), List.getElem?_append_right (by omega), List.getElem?_replicate, if_pos (by omega)]
      rfl
  · rfl

theorem slice_of (a b c : List Byte) (o n : Nat) (ha : a.length = o) (hb : b.length = n) : ((a ++ b ++ c).drop o).take n = b := by
  rw [List.append_assoc, List.drop_append_of_le_length (by omega), List.drop_of_length_le (by omega), List.nil_append, List.take_append_of_le_length (by omega), List.take_of_length_le (by omega)]

theorem natLe_val {x n : Nat} (h : x < 256 ^ n) : leNat (natLe x n) = x := by rw [leNat_natLe, Nat.mod_eq_of_lt h]

theorem recBytes_fields (r : FaultRec) (h1 : r.kind < 256) (h2 : r.die < 256) (h3 : r.unit < 256) (h4 : r.place < 256) (h5 : r.kord < 2 ^ 64) (h6 : r.group < 2 ^ 32) (h7 : r.gang < 2 ^ 32)
    (hd : ∀ p ∈ r.detail, 0x40 ≤ p.1) : RecordBytes r (recBytes r) := by
  have hf : flagBit r.prim 0 + flagBit r.exact 1 + flagBit r.dbg 2 < 8 := by
    unfold flagBit; cases r.prim <;> cases r.exact <;> cases r.dbg <;> decide
  have hc : faultNum r.code < 256 := by
    unfold faultNum; split <;> omega
  obtain ⟨head, hhead⟩ : ∃ hd, hd = natLe (faultNum r.code) 1 ++ natLe r.kind 1 ++ natLe r.die 1 ++ natLe r.unit 1
    ++ natLe r.place 1 ++ natLe (flagBit r.prim 0 + flagBit r.exact 1 + flagBit r.dbg 2) 1 ++ natLe 0 2
    ++ natLe r.pc.toNat 8 ++ natLe r.info.toNat 8 ++ natLe r.mode.toNat 4 ++ natLe r.counters.toNat 4
    ++ natLe r.kord 8 ++ natLe r.group 4 ++ natLe r.gang 4 := ⟨_, rfl⟩
  have hlen : head.length = 48 := by
    rw [hhead]; simp only [List.length_append, natLe_length]
  have hb : recBytes r = smRun (smPuts (smPut [] 0 head) r.detail) 0 256 := by rw [hhead]; rfl
  have f : ∀ o n, o + n ≤ 64 → leNat (((recBytes r).drop o).take n) = leNat (((head ++ List.replicate 16 0).drop o).take n) := by
    intro o n h
    rw [hb, smRun_puts_low head r.detail hd hlen o n h]
  have g : ∀ (a : List Byte) (x n : Nat) (c : List Byte) (o : Nat), head ++ List.replicate 16 0 = a ++ natLe x n ++ c → a.length = o → o + n ≤ 64 → x < 256 ^ n → leNat (((recBytes r).drop o).take n) = x := by
    intro a x n c o e ha ho hx
    rw [f o n ho, e, slice_of _ _ _ _ _ ha (natLe_length x n), natLe_val hx]
  unfold RecordBytes
  dsimp only
  have hflags : leNat (((recBytes r).drop 5).take 1) = flagBit r.prim 0 + flagBit r.exact 1 + flagBit r.dbg 2 :=
    g (natLe (faultNum r.code) 1 ++ natLe r.kind 1 ++ natLe r.die 1 ++ natLe r.unit 1 ++ natLe r.place 1) _ 1 _ 5 (by rw [hhead]; (repeat rw [List.append_assoc])) (by simp only [List.length_append, natLe_length]) (by omega) (by omega)
  refine ⟨by rw [hb, smRun_length],
    g [] _ 1 _ 0 (by rw [hhead]; (repeat rw [List.append_assoc]); rfl) rfl (by omega) (by omega),
    g (natLe (faultNum r.code) 1) _ 1 _ 1 (by rw [hhead]; (repeat rw [List.append_assoc])) (by simp only [natLe_length]) (by omega) (by omega),
    g (natLe (faultNum r.code) 1 ++ natLe r.kind 1) _ 1 _ 2 (by rw [hhead]; (repeat rw [List.append_assoc])) (by simp only [List.length_append, natLe_length]) (by omega) (by omega),
    g (natLe (faultNum r.code) 1 ++ natLe r.kind 1 ++ natLe r.die 1) _ 1 _ 3 (by rw [hhead]; (repeat rw [List.append_assoc])) (by simp only [List.length_append, natLe_length]) (by omega) (by omega),
    g (natLe (faultNum r.code) 1 ++ natLe r.kind 1 ++ natLe r.die 1 ++ natLe r.unit 1) _ 1 _ 4 (by rw [hhead]; (repeat rw [List.append_assoc])) (by simp only [List.length_append, natLe_length]) (by omega) (by omega),
    ⟨?_, ?_, ?_, by rw [hflags]; exact hf⟩,
    g (natLe (faultNum r.code) 1 ++ natLe r.kind 1 ++ natLe r.die 1 ++ natLe r.unit 1 ++ natLe r.place 1 ++ natLe (flagBit r.prim 0 + flagBit r.exact 1 + flagBit r.dbg 2) 1) 0 2 _ 6 (by rw [hhead]; (repeat rw [List.append_assoc])) (by simp only [List.length_append, natLe_length]) (by omega) (by omega),
    g (natLe (faultNum r.code) 1 ++ natLe r.kind 1 ++ natLe r.die 1 ++ natLe r.unit 1 ++ natLe r.place 1 ++ natLe (flagBit r.prim 0 + flagBit r.exact 1 + flagBit r.dbg 2) 1 ++ natLe 0 2) _ 8 _ 8 (by rw [hhead]; (repeat rw [List.append_assoc])) (by simp only [List.length_append, natLe_length]) (by omega) (r.pc.isLt.trans_le (by decide)),
    g (natLe (faultNum r.code) 1 ++ natLe r.kind 1 ++ natLe r.die 1 ++ natLe r.unit 1 ++ natLe r.place 1 ++ natLe (flagBit r.prim 0 + flagBit r.exact 1 + flagBit r.dbg 2) 1 ++ natLe 0 2 ++ natLe r.pc.toNat 8) _ 8 _ 16 (by rw [hhead]; (repeat rw [List.append_assoc])) (by simp only [List.length_append, natLe_length]) (by omega) (r.info.isLt.trans_le (by decide)),
    g (natLe (faultNum r.code) 1 ++ natLe r.kind 1 ++ natLe r.die 1 ++ natLe r.unit 1 ++ natLe r.place 1 ++ natLe (flagBit r.prim 0 + flagBit r.exact 1 + flagBit r.dbg 2) 1 ++ natLe 0 2 ++ natLe r.pc.toNat 8 ++ natLe r.info.toNat 8) _ 4 _ 24 (by rw [hhead]; (repeat rw [List.append_assoc])) (by simp only [List.length_append, natLe_length]) (by omega) (r.mode.isLt.trans_le (by decide)),
    g (natLe (faultNum r.code) 1 ++ natLe r.kind 1 ++ natLe r.die 1 ++ natLe r.unit 1 ++ natLe r.place 1 ++ natLe (flagBit r.prim 0 + flagBit r.exact 1 + flagBit r.dbg 2) 1 ++ natLe 0 2 ++ natLe r.pc.toNat 8 ++ natLe r.info.toNat 8 ++ natLe r.mode.toNat 4) _ 4 _ 28 (by rw [hhead]; (repeat rw [List.append_assoc])) (by simp only [List.length_append, natLe_length]) (by omega) (r.counters.isLt.trans_le (by decide)),
    g (natLe (faultNum r.code) 1 ++ natLe r.kind 1 ++ natLe r.die 1 ++ natLe r.unit 1 ++ natLe r.place 1 ++ natLe (flagBit r.prim 0 + flagBit r.exact 1 + flagBit r.dbg 2) 1 ++ natLe 0 2 ++ natLe r.pc.toNat 8 ++ natLe r.info.toNat 8 ++ natLe r.mode.toNat 4 ++ natLe r.counters.toNat 4) _ 8 _ 32 (by rw [hhead]; (repeat rw [List.append_assoc])) (by simp only [List.length_append, natLe_length]) (by omega) (by omega),
    g (natLe (faultNum r.code) 1 ++ natLe r.kind 1 ++ natLe r.die 1 ++ natLe r.unit 1 ++ natLe r.place 1 ++ natLe (flagBit r.prim 0 + flagBit r.exact 1 + flagBit r.dbg 2) 1 ++ natLe 0 2 ++ natLe r.pc.toNat 8 ++ natLe r.info.toNat 8 ++ natLe r.mode.toNat 4 ++ natLe r.counters.toNat 4 ++ natLe r.kord 8) _ 4 _ 40 (by rw [hhead]; (repeat rw [List.append_assoc])) (by simp only [List.length_append, natLe_length]) (by omega) (by omega),
    g (natLe (faultNum r.code) 1 ++ natLe r.kind 1 ++ natLe r.die 1 ++ natLe r.unit 1 ++ natLe r.place 1 ++ natLe (flagBit r.prim 0 + flagBit r.exact 1 + flagBit r.dbg 2) 1 ++ natLe 0 2 ++ natLe r.pc.toNat 8 ++ natLe r.info.toNat 8 ++ natLe r.mode.toNat 4 ++ natLe r.counters.toNat 4 ++ natLe r.kord 8 ++ natLe r.group 4) _ 4 _ 44 (by rw [hhead]) (by simp only [List.length_append, natLe_length]) (by omega) (by omega), ?_⟩
  · rw [hflags]; unfold flagBit; cases r.prim <;> cases r.exact <;> cases r.dbg <;> decide
  · rw [hflags]; unfold flagBit; cases r.prim <;> cases r.exact <;> cases r.dbg <;> decide
  · rw [hflags]; unfold flagBit; cases r.prim <;> cases r.exact <;> cases r.dbg <;> decide
  · rw [f 0x30 16 (by omega), List.drop_append_of_le_length (by omega), List.drop_of_length_le (by omega)]
    rfl

end Sys2Proof.Machine
end

