-- ==== Sys2Proof/Laws/Packets.lean ====
section
/-! SUPPORT. Laws/Packets.lean: the packets the dispatcher takes, their actions and their completion. -/

namespace Sys2Proof.Machine

theorem mem_takeable {s : State} {q : Queue} {c : Ctx} : (q, c) ∈ takeable s ↔ Served s q c := by
  unfold takeable Served
  rw [List.mem_filterMap]
  constructor
  · rintro ⟨y, hy, h⟩
    cases ho : qOwner s y with
    | none => rw [ho] at h; cases h
    | some o =>
      rw [ho] at h
      dsimp only at h
      split at h
      · rename_i hb
        cases h
        simp only [Bool.and_eq_true, Bool.or_eq_true, beq_iff_eq, bne_iff_ne, Option.isNone_iff_eq_none] at hb
        exact ⟨hy, ho, hb.1.1.1.1, hb.1.1.1.2, hb.1.1.2, hb.1.2, hb.2⟩
      · cases h
  · rintro ⟨h1, h2, h3, h4, h5, h6, h7⟩
    refine ⟨q, h1, ?_⟩
    rw [h2]
    dsimp only
    rw [if_pos]
    simp only [Bool.and_eq_true, Bool.or_eq_true, beq_iff_eq, bne_iff_ne, Option.isNone_iff_eq_none]
    exact ⟨⟨⟨⟨h3, h4⟩, h5⟩, h6⟩, h7⟩

theorem packetPrio_min (q : Queue) (n : Nat) : packetPrio q n = min (n % 8) q.prio := by
  unfold packetPrio
  split
  · rw [Nat.min_eq_left (by omega)]
  · rw [Nat.min_eq_right (by omega)]

theorem headPrio_eq (s : State) (q : Queue) (c : Ctx) : packetPrio q (((headPacket s q c).map Packet.prio).getD 0) = headPrio s q c := by
  rw [packetPrio_min]
  unfold headPrio
  cases headPacket s q c with
  | none => rfl
  | some p => rfl

theorem choose_none {s : State} (h : ¬ ∃ q c, Served s q c) : choosePacket s = none := by
  unfold choosePacket
  have : takeable s = [] := List.eq_nil_iff_forall_not_mem.2 fun x hx => h ⟨x.1, x.2, mem_takeable.1 hx⟩
  rw [this]
  rfl

theorem choose_of {s : State} {q : Queue} {c : Ctx} (h : Chosen s q c) : choosePacket s = some (q, c) := by
  unfold choosePacket
  dsimp only
  refine sortWith_head (mem_takeable.2 h.1) fun y hy hne => ?_
  obtain ⟨q', c'⟩ := y
  have := h.2 q' c' (mem_takeable.1 hy) hne
  dsimp only
  simp only [headPrio_eq]
  rcases this with h1 | ⟨h1, h2⟩
  · rw [if_pos (by omega), if_pos (by omega), decide_eq_true_iff, decide_eq_false_iff_not]
    omega
  · rw [if_neg (by omega), if_neg (by omega), decide_eq_true_iff, decide_eq_false_iff_not]
    omega

theorem fields_iff (s : State) (c : Ctx) (p : Packet) : PacketFields s c p ↔
    (!commonOk p || (p.kind == pkLaunch && !launchOk p) || (usesRegions p && (regionTable s c p.regions.toNat).isNone)) = false := by
  unfold PacketFields
  rw [Bool.or_eq_false_iff, Bool.or_eq_false_iff, Bool.not_eq_false']
  have e1 : commonOk p = true ↔ p.prio < 8 ∧ leNat ((p.raw.drop 0x22).take 2) = 0 ∧ leNat ((p.raw.drop 0x78).take 8) = 0 ∧
    p.dep0.toNat % 8 = 0 ∧ p.dep1.toNat % 8 = 0 ∧ p.done.toNat % 8 = 0 := by
    unfold commonOk
    simp only [Bool.and_eq_true, decide_eq_true_eq, beq_iff_eq]
    tauto
  have e2 : (p.kind == pkLaunch && !launchOk p) = false ↔ (p.kind = 1 → p.flags < 16 ∧ 1 ≤ p.stages.sum ∧ p.stages.sum ≤ 32 ∧ p.code.toNat % 4 = 0 ∧ 1 ≤ p.gx ∧ 1 ≤ p.gy ∧ 1 ≤ p.gz ∧
      p.gx * p.gy * p.gz < 2 ^ 32 ∧ 1 ≤ p.regs ∧ p.regs ≤ 240 ∧ p.acc ≤ 4 ∧ p.lmem ≤ 3145728 ∧
      (p.flags.testBit 3 = true → p.recdest ≠ 0)) := by
    rw [Bool.and_eq_false_iff, beq_eq_false_iff_ne, Bool.not_eq_false']
    have : launchOk p = true ↔ p.flags < 16 ∧ 1 ≤ p.stages.sum ∧ p.stages.sum ≤ 32 ∧ p.code.toNat % 4 = 0 ∧ 1 ≤ p.gx ∧ 1 ≤ p.gy ∧ 1 ≤ p.gz ∧
      p.gx * p.gy * p.gz < 2 ^ 32 ∧ 1 ≤ p.regs ∧ p.regs ≤ 240 ∧ p.acc ≤ 4 ∧ p.lmem ≤ 3145728 ∧
      (p.flags.testBit 3 = true → p.recdest ≠ 0) := by
      unfold launchOk gangCount gridTotal lmemMax
      simp only [Bool.and_eq_true, decide_eq_true_eq, beq_iff_eq, Bool.or_eq_true, bne_iff_ne, Bool.not_eq_true']
      cases p.flags.testBit 3 <;> simp <;> tauto
    rw [this]
    unfold pkLaunch
    tauto
  have e3 : (usesRegions p && (regionTable s c p.regions.toNat).isNone) = false ↔ (p.kind = 1 ∨ p.kind = 6 → regionTable s c p.regions.toNat ≠ none) := by
    rw [Bool.and_eq_false_iff]
    unfold usesRegions pkLaunch pkFitsync
    rw [Bool.or_eq_false_iff, beq_eq_false_iff_ne, beq_eq_false_iff_ne]
    cases regionTable s c p.regions.toNat <;> simp
  rw [e1, e2, e3]
  tauto

theorem pins_iff (s : State) (c : Ctx) (p : Packet) : PacketPins s c p ↔ (usesWset p && (wsetRanges s c p.wset.toNat).isNone) = false := by
  unfold PacketPins usesWset pkLaunch pkPin pkUnpin
  rw [Bool.and_eq_false_iff, Bool.or_eq_false_iff, Bool.or_eq_false_iff, beq_eq_false_iff_ne, beq_eq_false_iff_ne, beq_eq_false_iff_ne]
  cases wsetRanges s c p.wset.toNat with
  | none => simp; tauto
  | some _ => simp

theorem addrOk_iff (s : State) (c : Ctx) (a : Dbl) (need : Nat) : addrOk s c a.toNat need = true ↔ (a ≠ 0 → ∃ x, xlate s 8 c a.toNat need = .ok x) := by
  unfold addrOk
  rw [Bool.or_eq_true, beq_iff_eq]
  have : a.toNat = 0 ↔ a = 0 := by
    constructor
    · intro h; exact BitVec.eq_of_toNat_eq h
    · intro h; rw [h]; rfl
  rw [this]
  cases h : xlate s 8 c a.toNat need with
  | ok x => simp
  | error f => simp

theorem addrs_iff (s : State) (c : Ctx) (p : Packet) : PacketAddrs s c p ↔ (!addrOk s c p.dep0.toNat needR || !addrOk s c p.dep1.toNat needR || !addrOk s c p.done.toNat needW) = false := by
  unfold PacketAddrs
  simp only [Bool.or_eq_false_iff, Bool.not_eq_false', addrOk_iff, List.forall_mem_cons, List.not_mem_nil, false_implies, implies_true, and_true]
  tauto

theorem check_error {s : State} {c : Ctx} {p : Packet} {e : Nat} (h : PacketError s c p e) : packetCheck s c p = e ∧ e ≠ 0 := by
  unfold PacketError at h
  rw [fields_iff, pins_iff, addrs_iff] at h
  unfold packetCheck
  rcases h with ⟨h1, rfl⟩ | ⟨h1, h2, rfl⟩ | ⟨h1, h2, h3, rfl⟩ | ⟨h1, h2, h3, h4, rfl⟩
  · rw [if_pos h1]; exact ⟨rfl, by decide⟩
  · rw [if_neg (by omega), if_pos (by rwa [Bool.not_eq_false] at h2)]; exact ⟨rfl, by decide⟩
  · rw [if_neg (by omega), h2, if_neg (by decide), if_pos (by rwa [Bool.not_eq_false] at h3)]; exact ⟨rfl, by decide⟩
  · rw [if_neg (by omega), h2, if_neg (by decide), h3, if_neg (by decide), if_pos (by rwa [Bool.not_eq_false] at h4)]; exact ⟨rfl, by decide⟩

theorem check_passes {s : State} {c : Ctx} {p : Packet} (h : PacketPasses s c p) : packetCheck s c p = 0 := by
  obtain ⟨h1, h2, h3, h4⟩ := h
  rw [fields_iff] at h2
  rw [pins_iff] at h3
  rw [addrs_iff] at h4
  unfold packetCheck
  rw [if_neg (by omega), h2, if_neg (by decide), h3, if_neg (by decide), h4, if_neg (by decide)]

theorem regionsOf_eq (s : State) (c : Ctx) (p : Packet) : (if usesRegions p then (regionTable s c p.regions.toNat).getD [] else []) = regionsOf s c p := by
  unfold regionsOf usesRegions pkLaunch pkFitsync
  refine if_congr ?_ rfl rfl
  rw [Bool.or_eq_true, beq_iff_eq, beq_iff_eq]

theorem namesHeld_iff (s : State) (c : Ctx) (p : Packet) : namesHeld s c p = true ↔ NamesHeld s c p := by
  unfold namesHeld NamesHeld
  rw [← regionsOf_eq]
  cases usesRegions p with
  | false => simp
  | true => simp [List.any_eq_true]

theorem depsHold_iff (s : State) (c : Ctx) (p : Packet) : depsHold s c p = true ↔ DepsHold s c p := by
  have e : ∀ (a : Dbl) (v : Nat), (a == 0 || (match xlate s 8 c a.toNat needR with
    | .ok x => decide (v ≤ eventValue s x.pa)
    | .error _ => false)) = true ↔ (a = 0 ∨ ∃ x, xlate s 8 c a.toNat needR = .ok x ∧ v ≤ numAt s x.pa 8) := by
    intro a v
    rw [Bool.or_eq_true, beq_iff_eq]
    cases h : xlate s 8 c a.toNat needR with
    | error f => simp
    | ok x =>
      simp only [decide_eq_true_eq]
      constructor
      · rintro (h | h)
        · exact .inl h
        · exact .inr ⟨x, rfl, h⟩
      · rintro (h | ⟨y, hy, h⟩)
        · exact .inl h
        · cases hy; exact .inr h
  unfold depsHold DepsHold
  dsimp only
  rw [Bool.and_eq_true]
  refine Iff.trans (and_congr (e p.dep0 p.dep0v) (e p.dep1 p.dep1v)) ?_
  simp only [List.forall_mem_cons, List.not_mem_nil, false_implies, implies_true, and_true]


/-! ### What the hub die reads -/

/-- What the hub die holds of what it has read is a matter of memory alone. -/
theorem hubHold_mem (s : State) (leaf pa : Nat) : ∃ m, hubHold s leaf pa = { s with mem := m } := by
  have hr : ∀ (u : State) (a off size : Nat), ∃ m, homeShare u a off size 0 = { u with mem := m } := by
    intro u a off size
    unfold homeShare homeRecall
    dsimp only
    split <;> exact ⟨_, rfl⟩
  unfold hubHold
  dsimp only
  split
  · obtain ⟨m, h⟩ := hr s 10 (paOff pa) (leafGrain leaf)
    rw [h]
    exact ⟨_, rfl⟩
  · exact ⟨s.mem, rfl⟩

theorem hubRead_of {s u : State} (h : HomeSide NoByte s u) (hm : ∃ m, u = { s with mem := m }) : HubRead s u := by
  obtain ⟨m, rfl⟩ := hm
  exact ⟨rfl, h.mem.ops, fun hg off ha => (h.mem.bytes hg off ha).2 id⟩

theorem hubHold_read (s : State) (leaf pa : Nat) : HubRead s (hubHold s leaf pa) := hubRead_of (hubHold_side ..) (hubHold_mem ..)

theorem hubReads_both (s : State) (c : Ctx) (vas : List Nat) : HomeSide NoByte s (hubReads s c vas) ∧ ∃ m, hubReads s c vas = { s with mem := m } := by
  unfold hubReads
  refine List.foldlRecOn (motive := fun t : State => HomeSide NoByte s t ∧ ∃ m, t = { s with mem := m }) vas _ ⟨.refl _ s, s.mem, rfl⟩ fun t ⟨h, m, hm⟩ va _ => ?_
  split
  · rename_i x _
    refine ⟨h.trans (hubHold_side ..), ?_⟩
    obtain ⟨m2, h2⟩ := hubHold_mem t x.leaf x.pa
    exact ⟨m2, by rw [h2, hm]⟩
  · exact ⟨h, m, hm⟩

theorem hubReads_read (s : State) (c : Ctx) (vas : List Nat) : HubRead s (hubReads s c vas) := hubRead_of (hubReads_both ..).1 (hubReads_both ..).2

theorem hubHead_both (s : State) (q : Queue) (c : Ctx) : HomeSide NoByte s (hubHead s q c) ∧ ∃ m, hubHead s q c = { s with mem := m } := by
  obtain ⟨h1, m1, e1⟩ := hubReads_both (hubHold s q.leaf q.pa) c [qSlot q (qHead s q)]
  obtain ⟨m0, e0⟩ := hubHold_mem s q.leaf q.pa
  refine ⟨(hubHold_side s q.leaf q.pa).trans h1, m1, ?_⟩
  unfold hubHead
  rw [e1, e0]

theorem hubHead_read (s : State) (q : Queue) (c : Ctx) : HubRead s (hubHead s q c) := hubRead_of (hubHead_both ..).1 (hubHead_both ..).2

/-- The reads of a look at a head packet and at the events it waits for. -/
theorem hubTake_both (s : State) (q : Queue) (c : Ctx) (vas : List Nat) :
    HomeSide NoByte s (hubReads (hubHead s q c) c vas) ∧ ∃ m, hubReads (hubHead s q c) c vas = { s with mem := m } := by
  obtain ⟨h0, m0, e0⟩ := hubHead_both s q c
  obtain ⟨h1, m1, e1⟩ := hubReads_both (hubHead s q c) c vas
  exact ⟨h0.trans h1, m1, by rw [e1, e0]⟩

/-! ### Regions latched at a launch -/

/-- A step that may write memory and, of the contexts, the regions a context knows. -/
structure LatchKeep (s t : State) (part cid : Nat) : Prop where
  side : EngineSide (fun _ => True) s t
  ctl : t.ctl = { s.ctl with ctxs := t.ctl.ctxs }
  others : ∀ p k, p ≠ part ∨ k ≠ cid → findCtx t.ctl.ctxs p k = findCtx s.ctl.ctxs p k
  own : ∀ x, findCtx s.ctl.ctxs part cid = some x → ∃ y, findCtx t.ctl.ctxs part cid = some y ∧ y.state = x.state ∧ y.kord = x.kord ∧ y.held = x.held ∧ y.part = x.part ∧ y.cid = x.cid

theorem LatchKeep.rfl' (s : State) (part cid : Nat) : LatchKeep s s part cid := ⟨.refl _ s, rfl, fun _ _ _ => rfl, fun x h => ⟨x, h, rfl, rfl, rfl, rfl, rfl⟩⟩

theorem LatchKeep.trans {a b c : State} {part cid : Nat} (h1 : LatchKeep a b part cid) (h2 : LatchKeep b c part cid) : LatchKeep a c part cid where
  side := h1.side.trans h2.side
  ctl := by rw [h2.ctl, h1.ctl]
  others := fun _ _ h => (h2.others _ _ h).trans (h1.others _ _ h)
  own := by
    intro x hx
    obtain ⟨y, hy, e1, e2, e3, e4, e5⟩ := h1.own x hx
    obtain ⟨z, hz, f1, f2, f3, f4, f5⟩ := h2.own y hy
    exact ⟨z, hz, f1.trans e1, f2.trans e2, f3.trans e3, f4.trans e4, f5.trans e5⟩

theorem HomeSide.latch {s t : State} (h : HomeSide (fun _ => True) s t) (part cid : Nat) : LatchKeep s t part cid := by
  refine ⟨h.engine, by rw [h.ctl], fun _ _ _ => by rw [h.ctl], fun x hx => ⟨x, ?_, rfl, rfl, rfl, rfl, rfl⟩⟩
  rw [h.ctl]
  exact hx

theorem rgPut_side (s : State) (c : Ctx) (va : Nat) (fs : List (Nat × Nat × Nat)) : HomeSide (fun _ => True) s (rgPut s c va fs) :=
  .foldl (fun s _ _ => vaPutFor_side s ..) s

theorem modCtx_latch (s : State) (part cid : Nat) {f : Ctx → Ctx} (hf : ∀ x, (f x).state = x.state ∧ (f x).kord = x.kord ∧ (f x).held = x.held ∧ (f x).part = x.part ∧ (f x).cid = x.cid) :
    LatchKeep s { s with ctl := { s.ctl with ctxs := modCtx s.ctl.ctxs part cid f } } part cid :=
  ⟨.of_ctl s _, rfl, fun _ _ h => findCtx_modCtx_other (fun x => ⟨(hf x).2.2.2.1, (hf x).2.2.2.2⟩) h,
    fun x hx => ⟨f x, findCtx_modCtx hx fun x => ⟨(hf x).2.2.2.1, (hf x).2.2.2.2⟩, hf x⟩⟩

/-- A region looked at by a launch: its own data and what its context knows of it may change (R346). -/
theorem regionLaunch_keep (s : State) (c : Ctx) (id va hash : Nat) : LatchKeep s (regionLaunch s c id va hash).1 c.part c.cid := by
  have hi : ∀ cause, LatchKeep s (rgPut s c va (toInvalid cause)) c.part c.cid := fun cause => (rgPut_side ..).latch _ _
  unfold regionLaunch
  split
  · exact .rfl' _ _ _
  · split
    · exact .rfl' _ _ _
    · dsimp only
      split
      · split
        · exact hi _
        · split
          · exact hi _
          · dsimp only
            generalize hL : ([(0x00, 1, stObserve), (0x38, 4, cfgSum (rgRead s c va))] ++ (List.range 28).map fun i => (0x3C + i, 1, 0) : List (Nat × Nat × Nat)) = L
            have h1 := rgPut_side s c va L
            generalize rgPut s c va L = t1 at h1
            have h2 : HomeSide (fun _ => True) t1 (putCopy t1 c (rgRead s c va) (masters t1 c (rgRead s c va))) := excGet_side _ _
            exact ((h1.trans h2).latch _ _).trans (modCtx_latch _ _ _ fun x => ⟨rfl, rfl, rfl, rfl, rfl⟩)
      · split
        · exact hi _
        · split
          · exact .rfl' _ _ _
          · split
            · exact hi _
            · split
              · exact hi _
              · split
                · exact hi _
                · split
                  · exact hi _
                  · exact .rfl' _ _ _

theorem latchFold_keep (part cid : Nat) (L : List (Nat × Nat × Nat)) : ∀ (s : State) (acc : List RLatch) (x : Ctx), findCtx s.ctl.ctxs part cid = some x →
    ∃ t rs, L.foldl (fun (acc : State × List RLatch) x =>
      match findCtx acc.1.ctl.ctxs part cid with
      | none => acc
      | some c =>
        let (t, m) := regionLaunch acc.1 c x.1 x.2.1 x.2.2
        (t, acc.2 ++ [⟨x.1, BitVec.ofNat 64 x.2.1, BitVec.ofNat 64 x.2.2, m, false⟩])) (s, acc) = (t, acc ++ rs) ∧ LatchKeep s t part cid ∧
      rs.map (fun r => (r.id, r.desc, r.hash)) = L.map (fun x => (x.1, BitVec.ofNat 64 x.2.1, BitVec.ofNat 64 x.2.2)) ∧ (L = [] → t = s) := by
  induction L with
  | nil => exact fun s acc x _ => ⟨s, [], by rw [List.append_nil]; rfl, .rfl' _ _ _, rfl, fun _ => rfl⟩
  | cons y L ih =>
    intro s acc x hx
    rw [List.foldl_cons]
    dsimp only
    rw [hx]
    dsimp only
    have hids := findCtx_ids hx
    have h1 := regionLaunch_keep s x y.1 y.2.1 y.2.2
    rw [hids.1, hids.2] at h1
    obtain ⟨z, hz, _⟩ := h1.own x hx
    obtain ⟨t, rs, e1, e2, e3, _⟩ := ih (regionLaunch s x y.1 y.2.1 y.2.2).1 (acc ++ [⟨y.1, BitVec.ofNat 64 y.2.1, BitVec.ofNat 64 y.2.2, (regionLaunch s x y.1 y.2.1 y.2.2).2, false⟩]) z hz
    refine ⟨t, ⟨y.1, BitVec.ofNat 64 y.2.1, BitVec.ofNat 64 y.2.2, (regionLaunch s x y.1 y.2.1 y.2.2).2, false⟩ :: rs, ?_, h1.trans e2, ?_, fun h => by cases h⟩
    · refine Eq.trans e1 ?_
      rw [List.append_assoc]
      rfl
    · rw [List.map_cons, List.map_cons, e3]

theorem modCtx_same (cs : List Ctx) (p k : Nat) {f : Ctx → Ctx} (hf : ∀ x, f x = x) : modCtx cs p k f = cs := by
  rw [show f = fun c => c from funext hf, modCtx_id]

/-- The regions of a packet latched: what a launch changes of them, and the holds it takes (R346, R347). -/
theorem latch_spec {s : State} {c : Ctx} {p : Packet} (kern : Nat) (hc : findCtx s.ctl.ctxs c.part c.cid = some c) :
    ∃ t rs, latchRegions s c kern p = (t, rs) ∧ EngineSide (fun _ => True) s t ∧ t.ctl = { s.ctl with ctxs := t.ctl.ctxs } ∧
      (∀ p k, p ≠ c.part ∨ k ≠ c.cid → findCtx t.ctl.ctxs p k = findCtx s.ctl.ctxs p k) ∧
      (∃ y, findCtx t.ctl.ctxs c.part c.cid = some y ∧ y.state = c.state ∧ y.kord = c.kord ∧ y.held = c.held ++ (regionsOf s c p).map fun r => (r.1, kern)) ∧
      rs.map (fun r => (r.id, r.desc, r.hash)) = (regionsOf s c p).map (fun x => (x.1, BitVec.ofNat 64 x.2.1, BitVec.ofNat 64 x.2.2)) ∧
      (regionsOf s c p = [] → t = s) := by
  unfold latchRegions
  rw [regionsOf_eq]
  obtain ⟨t, rs, e1, e2, e3, e4⟩ := latchFold_keep c.part c.cid (regionsOf s c p) s [] c hc
  dsimp only
  obtain ⟨y, hy, f1, f2, f3, f4, f5⟩ := e2.own c hc
  have e1' := e1
  rw [List.nil_append] at e1'
  refine ⟨{ t with ctl := { t.ctl with ctxs := modCtx t.ctl.ctxs c.part c.cid fun x => { x with held := x.held ++ (regionsOf s c p).map fun y => (y.1, kern) } } }, rs, ?_, e2.side.trans (.of_ctl _ _), ?_, ?_, ?_, e3, ?_⟩
  · rw [Prod.mk.injEq]
    exact ⟨congrArg (fun r : State × List RLatch => { r.1 with ctl := { r.1.ctl with ctxs := modCtx r.1.ctl.ctxs c.part c.cid fun x => { x with held := x.held ++ (regionsOf s c p).map fun (y : Nat × Nat × Nat) => (y.1, kern) } } }) e1', congrArg Prod.snd e1'⟩
  · rw [e2.ctl]
  · intro p' k' h
    rw [← e2.others p' k' h]
    exact findCtx_modCtx_other (fun x => ⟨rfl, rfl⟩) h
  · refine ⟨{ y with held := y.held ++ (regionsOf s c p).map fun y => (y.1, kern) }, findCtx_modCtx hy fun x => ⟨rfl, rfl⟩, f1, f2, ?_⟩
    rw [← f3]
  · intro h
    rw [h, e4 h, modCtx_same]
    intro x
    show ({ x with held := x.held ++ [] } : Ctx) = x
    rw [List.append_nil]

/-- The record of a packet that is taken. -/
def takenRec (s t : State) (q : Queue) (c : Ctx) (p : Packet) (rs : List RLatch) : Kernel :=
  { id := s.ctl.kernels.length, part := c.part, ctx := c.cid, queue := q.id, qidx := qHead t q, qpa := q.pa, qleaf := q.leaf,
    ord := if p.kind == pkLaunch then c.kord else 0, pkt := p, state := .waiting, prio := packetPrio q p.prio,
    fixed := p.kind == pkLaunch && (c.desc.fixedGear || p.flags.testBit 0),
    total := if p.kind == pkLaunch then gridTotal p else 0, regions := rs }

/-- The state in which a packet has been taken, its queue not yet stalled. -/
def takenState (s t : State) (q : Queue) (c : Ctx) (p : Packet) (rs : List RLatch) : State :=
  modQueue { t with ctl := { t.ctl with
    kernels := t.ctl.kernels ++ [takenRec s t q c p rs]
    ctxs := modCtx t.ctl.ctxs c.part c.cid fun x => if p.kind == pkLaunch then { x with kord := (x.kord + 1) % 2 ^ 64 } else x } } q.id
      fun y => { y with taken := some s.ctl.kernels.length }

theorem takePacket_eq {s : State} {q : Queue} {c : Ctx} {p : Packet} {t : State} {rs : List RLatch} (h : latchRegions s c s.ctl.kernels.length p = (t, rs)) :
    takePacket s q c p = if depsHold (takenState s t q c p rs) c p || q.state == .draining then takenState s t q c p rs else setQState (takenState s t q c p rs) q .stalled 0 := by
  unfold takePacket
  dsimp only
  rw [h]
  rfl

/-! ### Bytes that queue operations keep -/

theorem off_header {s : State} {off : Nat} (h : ∀ q ∈ s.ctl.queues, q.pa % 64 = 0 ∧ (off < paOff q.pa ∨ paOff q.pa + 64 ≤ off)) : ¬ HeaderOf s off := by
  rintro ⟨q, hq, e⟩
  obtain ⟨ha, ho⟩ := h q hq
  rw [(local_add (own := 0) ha (show 0x1B < 64 by omega)).2.2, (local_add (own := 0) ha (show 0x1F < 64 by omega)).2.2] at e
  omega

/-- What a queue operation leaves of memory, as a statement about bytes. -/
theorem QueueSide.keeps {P : Nat → Prop} {s t : State} (h : QueueSide P s t) {Q : Nat → Prop} (hq : ∀ off, Q off → ¬ HeaderOf s off → ¬ P off) : KeepsBytes s t Q :=
  fun hg => ⟨h.mem.grains hg, fun off hQ ho ha => by
    obtain ⟨h1, h2⟩ := h.mem.bytes hg off ha
    refine ⟨h1, ?_⟩
    unfold homeByte
    rw [coByte_alone h1, coByte_alone ha, h2 (hq off hQ (off_header ho))]⟩

theorem KeepsBytes.of_eq {s s' t t' : State} {P : Nat → Prop} (h : KeepsBytes s t P) (hm : s'.mem = s.mem) (hq : s'.ctl.queues = s.ctl.queues) (ht : t'.mem = t.mem) : KeepsBytes s' t' P := by
  intro hg
  rw [hm] at hg
  obtain ⟨a, b⟩ := h hg
  rw [ht]
  refine ⟨a, fun off hp ho ha => ?_⟩
  rw [hm] at ha
  obtain ⟨b1, b2⟩ := b off hp (by rw [← hq]; exact ho) ha
  refine ⟨b1, ?_⟩
  unfold homeByte at b2 ⊢
  rw [ht, hm]
  exact b2

/-- A number at device memory that a queue operation does not reach. -/
theorem QueueSide.num {P : Nat → Prop} {s t : State} (h : QueueSide P s t) {pa n : Nat} (hn : n = 4 ∨ n = 8) (ha : pa % n = 0) (hl : paLocal (ownDev s.sys) pa = true)
    (hg : GrainsOk s.mem.dir) (hat : ∀ j < n, HomeAlone s.mem (paOff pa + j)) (hp : ∀ j < n, ¬ P (paOff pa + j)) : numAt t pa n = numAt s pa n := by
  unfold numAt
  congr 1
  refine List.map_congr_left fun j hj => ?_
  have hj := List.mem_range.1 hj
  obtain ⟨e1, e2, e3, _⟩ := num_space (s := s) hn ha j hj
  obtain ⟨b1, b2⟩ := h.mem.bytes hg _ (hat j hj)
  have o1 : ownDev t.sys = ownDev s.sys := by rw [h.sys]; rfl
  have o2 : t.sys.lostDies = s.sys.lostDies := by rw [h.sys]
  have o3 : t.exe.fresh = s.exe.fresh := by rw [h.exe]
  unfold spaceByte
  rw [o1, o2, o3, e1, e2, e3, local_not_host hl, coByte_alone b1, coByte_alone (hat j hj), b2 (hp j hj)]
  simp only [Bool.false_eq_true, if_false]

/-! ### HEAD advances -/

theorem settle_taken {s : State} {id : Nat} (h : ∀ y ∈ s.ctl.queues, y.id = id → y.taken = none) : ∀ y ∈ (settleQueues s).ctl.queues, y.id = id → y.taken = none := by
  refine settle_inv (P := fun t => ∀ y ∈ t.ctl.queues, y.id = id → y.taken = none) (fun t q x ht _ _ y hy hid => ?_) h
  rw [setQState_queues] at hy
  split at hy
  · exact ht y (List.mem_filter.1 hy).1 hid
  · obtain ⟨z, hz, rfl⟩ := List.mem_map.1 hy
    have : z.id = id := by revert hid; split <;> exact fun h => h
    have := ht z hz this
    split <;> exact this

theorem off_aligned {a b j : Nat} (ha : a % 64 = 0) (hb : b % 64 = 0) (hj : j < 8) : paOff a + j ≠ paOff (b + 0x1B) ∧ paOff a + j ≠ paOff (b + 0x1F) := by
  rw [(local_add (own := 0) hb (show 0x1B < 64 by omega)).2.2, (local_add (own := 0) hb (show 0x1F < 64 by omega)).2.2]
  have a1 : paOff a % 64 = 0 := by unfold paOff; omega
  have a2 : paOff b % 64 = 0 := by unfold paOff; omega
  omega

theorem head_advanced {s : State} {i : Nat} {k : Kernel} (hk : s.ctl.kernels[i]? = some k) : HeadAdvanced s (advanceHead s i) i k := by
  intro ha hnum hg hl hal hat hqs
  unfold advanceHead
  rw [hk]
  dsimp only
  rw [ha, if_neg (by decide)]
  have hv : paNat (modKern s i fun x => { x with advanced := true }) k.qpa 8 = k.qidx := hnum
  rw [if_neg (fun h => h hv)]
  generalize hw : modKern s i (fun x => { x with advanced := true }) = v
  have vm : v.mem = s.mem := by rw [← hw]; rfl
  have vs : v.sys = s.sys := by rw [← hw]; rfl
  have vq : v.ctl.queues = s.ctl.queues := by rw [← hw]; rfl
  have e1 : deviceWrite v .nobody k.part k.qleaf k.qpa (natLe (k.qidx + 1) 8) = engineWrite v .nobody k.qleaf k.qpa (natLe (k.qidx + 1) 8) := by
    unfold deviceWrite
    have : paPeer v k.qpa = false := by unfold paPeer; rw [vs, hl]; rfl
    rw [this]
    rfl
  have hside := deviceWrite_side v .nobody k.part k.qleaf k.qpa (natLe (k.qidx + 1) 8)
  have hn1 : numAt (deviceWrite v .nobody k.part k.qleaf k.qpa (natLe (k.qidx + 1) 8)) k.qpa 8 = (k.qidx + 1) % 2 ^ 64 := by
    rw [e1, numAt_engineWrite .nobody k.qleaf (by rw [vm]; exact hg) (.inr rfl) (by omega) (.inr ⟨by rw [vs]; exact hl, fun j hj => ?_⟩)]
    have := hat j (by omega)
    unfold homeUp at this ⊢
    rw [vm, vs]
    exact this
  have hq1 : (deviceWrite v .nobody k.part k.qleaf k.qpa (natLe (k.qidx + 1) 8)).ctl.queues = s.ctl.queues := by rw [deviceWrite_ctl, vq]
  generalize deviceWrite v .nobody k.part k.qleaf k.qpa (natLe (k.qidx + 1) 8) = w at hside hn1 hq1
  have wl : paLocal (ownDev w.sys) k.qpa = true := by rw [hside.sys]; dsimp only [ownDev]; rw [vs]; exact hl
  have wg : GrainsOk w.mem.dir := hside.mem.grains (by rw [vm]; exact hg)
  have wat : ∀ j < 8, HomeAlone w.mem (paOff k.qpa + j) := fun j hj => (hside.mem.bytes (by rw [vm]; exact hg) _ (by rw [vm]; exact (hat j (by omega)).1)).1
  rw [hq1]
  cases hf : s.ctl.queues.find? (fun q => q.pa == k.qpa && q.taken == some i) with
  | none => exact ⟨hn1, fun q hq => by cases hq⟩
  | some q =>
    dsimp only
    have hm := List.mem_of_find?_eq_some hf
    have h3 : QueueSide (HeaderOf w) w (modQueue w q.id fun y => { y with taken := none, stamps := y.stamps.drop 1 }) := (QueueSide.refl _ w).modQueue _ _ fun _ => ⟨rfl, rfl, rfl, rfl⟩
    have h4 : QueueSide (HeaderOf w) w (if q.state = .stalled then setQState (modQueue w q.id fun y => { y with taken := none, stamps := y.stamps.drop 1 }) q .active 0 else modQueue w q.id fun y => { y with taken := none, stamps := y.stamps.drop 1 }) := by
      split
      · exact h3.trans ((setQState_side _ _).mono fun off ho => ⟨q, by rw [hq1]; exact hm, ho⟩)
      · exact h3
    have h5 := h4.trans ((settleQueues_side _).mono fun off ho => h4.headers off ho)
    refine ⟨(h5.num (.inr rfl) (by omega) wl wg wat fun j hj => ?_).trans hn1, fun q' hq' => ?_⟩
    · rintro ⟨y, hy, e⟩
      rw [hq1] at hy
      have := off_aligned (j := j) hal (hqs y hy) hj
      omega
    · cases hq'
      refine settle_taken fun y hy hid => ?_
      have hmod : ∀ z ∈ (modQueue w q.id fun y => { y with taken := none, stamps := y.stamps.drop 1 }).ctl.queues, z.id = q.id → z.taken = none := by
        intro z hz hid
        obtain ⟨z0, _, rfl⟩ := List.mem_map.1 hz
        by_cases hb : (z0.id == q.id) = true
        · rw [if_pos hb]
        · rw [if_neg hb] at hid
          exact absurd (beq_iff_eq.2 hid) hb
      split at hy
      · rw [setQState_queues, if_neg (by decide)] at hy
        obtain ⟨z, hz, rfl⟩ := List.mem_map.1 hy
        have hid' : z.id = q.id := by revert hid; split <;> exact fun h => h
        have := hmod z hz hid'
        split <;> exact this
      · exact hmod y hy hid

theorem head_outside {s : State} {i : Nat} {k : Kernel} (hk : s.ctl.kernels[i]? = some k) : OutsideHead s (advanceHead s i) k := by
  have h := (advanceHead_side hk).keeps (Q := fun off => off < paOff k.qpa ∨ paOff k.qpa + 8 ≤ off) fun off hq hh => by
    rintro (h | h)
    · unfold RunOf at h; omega
    · exact hh h
  exact h.of_eq rfl rfl rfl

/-! ### States that read alike -/

/-- Two states of the same memory, system and partitions translate and read alike. -/
def ReadAlike (s t : State) : Prop := t.exe.fresh = s.exe.fresh ∧ t.mem = s.mem ∧ t.sys = s.sys ∧ t.ctl.parts = s.ctl.parts

theorem space_alike {s t : State} (h : ReadAlike s t) (pa : Nat) : spaceByte t pa = spaceByte s pa := by
  unfold spaceByte
  rw [h.1, h.2.1, h.2.2.1]

theorem numAt_alike {s t : State} (h : ReadAlike s t) (pa n : Nat) : numAt t pa n = numAt s pa n := by
  unfold numAt
  simp only [space_alike h]

theorem xlate_alike {s t : State} (h : ReadAlike s t) {c c' : Ctx} (hc : c'.part = c.part ∧ c'.cid = c.cid ∧ c'.desc = c.desc) (at_ va need : Nat) :
    xlate t at_ c' va need = xlate s at_ c va need := by
  obtain ⟨_, h2, h3, h4⟩ := h
  unfold xlate
  rw [h4, hc.1, hc.2.1, hc.2.2]
  cases findPart s.ctl.parts c.part with
  | none => rfl
  | some p =>
    dsimp only
    unfold xlateAt leafOf
    rw [h2, h3]

/-! ### Completions -/

theorem AtHome.of_eq {s t : State} (hm : t.mem = s.mem) (hs : t.sys = s.sys) {off n : Nat} (h : AtHome s off n) : AtHome t off n := fun j hj => by
  have := h j hj
  unfold homeUp at this ⊢
  rw [hm, hs]
  exact this

/-- An add of this device at its own memory. -/
theorem homeAdd_num {s : State} (w : Writer) (part leaf : Nat) {pa : Nat} (v : Nat) (hg : GrainsOk s.mem.dir) (hl : paLocal (ownDev s.sys) pa = true) (ha : pa % 8 = 0) (hat : AtHome s (paOff pa) 8) :
    numAt (homeAdd s w part leaf pa v) pa 8 = (numAt s pa 8 + v) % 2 ^ 64 := by
  unfold homeAdd
  dsimp only
  rw [hl, Bool.or_true, if_pos rfl]
  exact numAt_engineWrite w leaf hg (.inr rfl) ha (.inr ⟨hl, hat⟩)

theorem doneAdded_of {u w : State} {c c' : Ctx} {k : Kernel} (h : ReadAlike u w) (hq : w.ctl.queues = u.ctl.queues) (hc : c'.part = c.part ∧ c'.cid = c.cid ∧ c'.desc = c.desc) :
    DoneAdded u (settleQueues (doneAdd w c' k)) c k.pkt := by
  refine ⟨fun ⟨f, hf⟩ => ?_, fun x hx hg hl ha ho hat => ?_⟩
  · have : doneAdd w c' k = w := by
      unfold doneAdd
      rw [xlate_alike h hc, hf]
    rw [this]
    exact ((settleQueues_side w).keeps fun _ _ hn => hn).of_eq h.2.1.symm hq.symm rfl
  · have e : doneAdd w c' k = homeAdd w .nobody k.part x.leaf x.pa k.pkt.donev := by
      unfold doneAdd
      rw [xlate_alike h hc, hx]
    rw [e]
    have hg' : GrainsOk w.mem.dir := by rw [h.2.1]; exact hg
    have hl' : paLocal (ownDev w.sys) x.pa = true := by rw [h.2.2.1]; exact hl
    have hat' : AtHome w (paOff x.pa) 8 := hat.of_eq h.2.1 h.2.2.1
    have hside := homeAdd_side w .nobody k.part x.leaf x.pa k.pkt.donev
    rw [← numAt_alike h, ← homeAdd_num .nobody k.part x.leaf k.pkt.donev hg' hl' ha hat']
    refine (settleQueues_side _).num (.inr rfl) ha ?_ (hside.mem.grains hg') (fun j hj => (hside.mem.bytes hg' _ (hat' j hj).1).1) fun j hj => ?_
    · rw [hside.sys]; exact hl'
    · intro hh
      refine off_header (fun q hq' => ?_) (hside.headers _ hh)
      rw [hq] at hq'
      refine ⟨(ho q hq').1, ?_⟩
      have := (ho q hq').2
      omega

/-- The status word at its place, in the state whose control the completion leaves. -/
theorem wordWritten_of {u v : State} {c c' : Ctx} {i : Nat} {k : Kernel} {word : Nat} (h : ReadAlike u v) (he : v.exe = u.exe) (hc : c'.part = c.part ∧ c'.cid = c.cid ∧ c'.desc = c.desc) :
    WordWritten u { doneWord v c' i k word with ctl := u.ctl } c k.pkt word := by
  have ex := xlate_alike h hc
  refine ⟨rfl, rfl, fun hf => ?_, fun x y hx hy hg hl ha => ?_⟩
  · have : doneWord v c' i k word = v := by
      unfold doneWord
      rw [ex, ex]
      rcases hf with ⟨f, hf⟩ | ⟨f, hf⟩
      · rw [hf]
      · rw [hf]
        cases xlate u 8 c k.pkt.done.toNat needW <;> rfl
    rw [this]
    show State.mk v.exe v.mem u.ctl v.sys = u
    rw [he, h.2.1, h.2.2.1]
  · have e : doneWord v c' i k word = engineWrite v (doneWriter i) y.leaf y.pa (natLe word 8) := by
      unfold doneWord
      rw [ex, ex, hx, hy]
      dsimp only
      unfold deviceWrite
      have : paPeer v y.pa = false := by unfold paPeer; rw [h.2.2.1, hl]; rfl
      rw [this]
      rfl
    have hg' : GrainsOk v.mem.dir := by rw [h.2.1]; exact hg
    have hside := engineWrite_side v (doneWriter i) y.leaf y.pa (natLe word 8)
    rw [e]
    refine ⟨hside.mem.grains hg', fun hat => ?_, fun off ho hal => ?_⟩
    · exact numAt_engineWrite (s := v) (pa := y.pa) (n := 8) (v := word) (doneWriter i) y.leaf hg' (.inr rfl) ha (.inr ⟨by rw [h.2.2.1]; exact hl, hat.of_eq h.2.1 h.2.2.1⟩)
    · obtain ⟨b1, b2⟩ := hside.byte hg' (off := off) (fun hr => by unfold RunOf at hr; rw [natLe_length] at hr; omega) (by rw [h.2.1]; exact hal)
      refine ⟨b1, ?_⟩
      unfold homeByte at b2 ⊢
      rw [h.2.1] at b2
      exact b2

theorem settle_kernels (s : State) : (settleQueues s).ctl.kernels = s.ctl.kernels := by rw [(settleQueues_side s).ctl]

/-- The completion of a packet, then every queue moved, after a state `v` that reads as `u` does. -/
theorem completes_of {u v : State} {c c' : Ctx} {i : Nat} {k : Kernel} (h : ReadAlike u v) (he : v.exe = u.exe) (hq : v.ctl.queues = u.ctl.queues) (hc : c'.part = c.part ∧ c'.cid = c.cid ∧ c'.desc = c.desc)
    {k2 : Kernel} (hk : v.ctl.kernels[i]? = some k2) (hd : k2.due = .none) (word : Option Nat) : Completes u (settleQueues (complete v c' i k word)) i c k.pkt word := by
  refine ⟨fun h0 => ?_, fun h0 => ?_⟩
  · have : complete v c' i k word = v := by unfold complete; rw [if_pos h0]
    rw [this]
    exact ((settleQueues_side v).keeps fun _ _ hn => hn).of_eq h.2.1.symm hq.symm rfl
  · cases word with
    | none =>
      have : complete v c' i k none = doneAdd v c' k := by unfold complete; rw [if_neg h0]
      dsimp only
      rw [this]
      exact doneAdded_of h hq hc
    | some w =>
      dsimp only
      have hW := wordWritten_of (i := i) (k := k) (word := w) h he hc
      have hside := doneWord_side v c' i k w
      unfold complete
      rw [if_neg h0]
      dsimp only
      have hqueues : (doneWord v c' i k w).ctl.queues = u.ctl.queues := by
        unfold doneWord
        split
        · rw [deviceWrite_ctl, hq]
        · exact hq
      generalize doneWord v c' i k w = x at hW hside hqueues
      split
      · refine ⟨_, { k2 with due := .add }, hW, ?_, (fun hn => by cases hn), fun _ => ?_, .inr rfl⟩
        · rw [settle_kernels]
          show (modAt x.ctl.kernels i _)[i]? = _
          rw [modAt_get, if_pos rfl, hside.ctl]
          dsimp only
          rw [hk]; rfl
        · exact ((settleQueues_side (modKern x i fun y => { y with due := .add })).keeps (Q := fun _ => True) fun _ _ hn => hn).of_eq rfl hqueues.symm rfl
      · refine ⟨_, k2, hW, ?_, fun _ => ?_, (fun hn => by rw [hd] at hn; cases hn), .inl hd⟩
        · rw [settle_kernels, (doneAdd_side x c' k).ctl]
          dsimp only
          rw [hside.ctl]
          exact hk
        · refine doneAdded_of (u := { x with ctl := u.ctl }) ⟨rfl, rfl, rfl, ?_⟩ hqueues hc
          show x.ctl.parts = u.ctl.parts
          rw [hside.ctl]
          exact h.2.2.2

/-! ### Pin counts -/

theorem pinCount_setPin (c : Ctx) (x y : Nat × Nat) (n : Nat) : pinCount (setPin c x n) y = if y = x then n else pinCount c y := by
  have hf : ∀ L : List (Nat × Nat × Nat), y ≠ x → (L.filter fun z => !(z.1 == x.1 && z.2.1 == x.2)).find? (fun z => z.1 == y.1 && z.2.1 == y.2) = L.find? fun z => z.1 == y.1 && z.2.1 == y.2 := by
    intro L hne
    induction L with
    | nil => rfl
    | cons z L ih =>
      by_cases hz : (z.1 == x.1 && z.2.1 == x.2) = true
      · rw [List.filter_cons_of_neg (by rw [hz]; decide), ih, List.find?_cons_of_neg]
        rw [Bool.and_eq_true, beq_iff_eq, beq_iff_eq] at hz ⊢
        rintro ⟨h1, h2⟩
        exact hne (Prod.ext (h1.symm.trans hz.1) (h2.symm.trans hz.2))
      · rw [List.filter_cons_of_pos (by rw [Bool.not_eq_true] at hz; rw [hz]; decide)]
        by_cases hy : (z.1 == y.1 && z.2.1 == y.2) = true
        · rw [List.find?_cons_of_pos (by exact hy), List.find?_cons_of_pos (by exact hy)]
        · rw [List.find?_cons_of_neg (by exact hy), List.find?_cons_of_neg (by exact hy), ih]
  have hn : ∀ L : List (Nat × Nat × Nat), (L.filter fun z => !(z.1 == x.1 && z.2.1 == x.2)).find? (fun z => z.1 == x.1 && z.2.1 == x.2) = none := by
    intro L
    rw [List.find?_eq_none]
    intro z hz
    have := (List.mem_filter.1 hz).2
    rw [Bool.not_eq_true'] at this
    rw [this]; decide
  unfold pinCount setPin
  dsimp only
  by_cases h0 : n = 0
  · rw [if_pos h0]
    by_cases hy : y = x
    · rw [if_pos hy, hy, hn, h0]; rfl
    · rw [if_neg hy, hf _ hy]
  · rw [if_neg h0]
    by_cases hy : y = x
    · rw [if_pos hy, hy, List.find?_cons_of_pos (by simp)]; rfl
    · rw [if_neg hy, List.find?_cons_of_neg, hf _ hy]
      rw [Bool.and_eq_true, beq_iff_eq, beq_iff_eq]
      rintro ⟨h1, h2⟩
      exact hy (Prod.ext h1.symm h2.symm)

theorem unpins_count (L : List (Nat × Nat)) (y : Nat × Nat) : ∀ c : Ctx, pinCount (L.foldl unpinOne c) y = pinCount c y - L.count y := by
  induction L with
  | nil => exact fun c => rfl
  | cons x L ih =>
    intro c
    rw [List.foldl_cons, ih]
    unfold unpinOne
    rw [pinCount_setPin, List.count_cons]
    by_cases h : y = x
    · subst h
      rw [if_pos rfl, if_pos (beq_self_eq_true y)]
      omega
    · rw [if_neg h, if_neg (by rw [beq_iff_eq]; exact fun e => h e.symm)]
      rfl

/-! ### Packets end -/

/-- The completion of a packet leaves kernels' records but for its own add, every context and the engine (R97, R113). -/
theorem complete_keep (s : State) (c : Ctx) (i : Nat) (k : Kernel) (word : Option Nat) : OnlyIds s (settleQueues (complete s c i k word)) ∧
    (settleQueues (complete s c i k word)).mem.ops = s.mem.ops ∧ (settleQueues (complete s c i k word)).ctl.ctxs = s.ctl.ctxs ∧
    (settleQueues (complete s c i k word)).ctl.parts = s.ctl.parts ∧ (settleQueues (complete s c i k word)).ctl.faults = s.ctl.faults ∧
    ((settleQueues (complete s c i k word)).ctl.kernels = s.ctl.kernels ∨
      (settleQueues (complete s c i k word)).ctl.kernels = modAt s.ctl.kernels i fun x => { x with due := .add }) := by
  obtain ⟨u, hu, e⟩ := complete_side s c i k word
  have hs := settleQueues_side (complete s c i k word)
  rw [hs.mem.ops, hs.ctl]
  dsimp only
  rcases e with e | e <;> rw [e] at hs ⊢
  · refine ⟨?_, hu.mem.ops, ?_, ?_, ?_, .inl ?_⟩
    · rw [OnlyIds, hs.exe, hu.exe]
    all_goals rw [hu.ctl]
  · refine ⟨?_, hu.mem.ops, ?_, ?_, ?_, .inr ?_⟩
    · rw [OnlyIds, hs.exe]
      show ({ u.exe with nextId := _ } : Exe) = _
      rw [hu.exe]
    all_goals
      unfold modKern
      dsimp only
      rw [hu.ctl]

/-- The end of a live kernel, with the state in which HEAD has advanced (R99, R112, R113, R347). -/
theorem ends_core {s : State} {i : Nat} {k : Kernel} {c : Ctx} (hk : s.ctl.kernels[i]? = some k) (hl : kernLive k = true) (hc : findCtx s.ctl.ctxs k.part k.ctx = some c) (st : KState) (status : Nat) :
    (∃ d, (endKernel s i st status 0).ctl.kernels = modAt s.ctl.kernels i fun _ => endedKern k st status 0 d) ∧
    (OnlyIds s (endKernel s i st status 0) ∧ (endKernel s i st status 0).mem.ops = s.mem.ops ∧ (endKernel s i st status 0).ctl.parts = s.ctl.parts ∧ (endKernel s i st status 0).ctl.faults = s.ctl.faults) ∧
    (CtxNow (endKernel s i st status 0) k.part k.ctx fun x => x = { c with pinned := x.pinned, held := c.held.filter fun h => h.2 != i } ∧ ∀ y, pinCount x y = pinCount c y - k.pins.count y) ∧
    (∀ p x, p ≠ k.part ∨ x ≠ k.ctx → findCtx (endKernel s i st status 0).ctl.ctxs p x = findCtx s.ctl.ctxs p x) ∧
    Completes (advanceHead s i) (endKernel s i st status 0) i c k.pkt (if k.pkt.kind = 1 ∨ k.pkt.kind = 2 ∨ k.pkt.kind = 3 then some (status + 2 ^ 16 * (k.ord % 2 ^ 48)) else none) := by
  have hA := advanceHead_side hk
  unfold endKernel
  rw [hk]
  dsimp only
  rw [hl, Bool.not_true, if_neg (by decide)]
  generalize advanceHead s i = u at hA
  have uc : u.ctl.ctxs = s.ctl.ctxs := by rw [hA.ctl]; rfl
  have uk : u.ctl.kernels = modAt s.ctl.kernels i fun x => { x with advanced := true } := by rw [hA.ctl]; rfl
  have hids : ∀ x : Ctx, (endedCtx k i x).part = x.part ∧ (endedCtx k i x).cid = x.cid := fun x => ⟨(unpins_ids k.pins x).1, (unpins_ids k.pins x).2.1⟩
  rw [closeKernel_eq (c := c) (by rw [uc]; exact hc), uc, uk, modAt_modAt]
  have hki : (modAt s.ctl.kernels i fun x => { { x with advanced := true } with state := st, status := status, faultCode := 0, pins := [], plan := [] })[i]? = some (endedKern k st status 0 k.due) := by
    rw [modAt_get, if_pos rfl, hk]
    rfl
  unfold completeKernel
  dsimp only
  rw [hki]
  unfold modKern kernCtx
  dsimp only
  rw [modAt_modAt, show findCtx (modCtx s.ctl.ctxs k.part k.ctx (endedCtx k i)) (endedKern k st status 0 k.due).part (endedKern k st status 0 k.due).ctx = some (endedCtx k i c) from findCtx_modCtx hc hids]
  dsimp only
  generalize hv : ({ u with ctl := { u.ctl with ctxs := modCtx s.ctl.ctxs k.part k.ctx (endedCtx k i), kernels := modAt s.ctl.kernels i fun x => { { x with advanced := true } with state := st, status := status, faultCode := 0, pins := [], plan := [], due := .none } } } : State) = v
  have vk : v.ctl.kernels = modAt s.ctl.kernels i fun _ => endedKern k st status 0 .none := by
    rw [← hv]
    dsimp only
    refine List.ext_getElem? fun j => ?_
    rw [modAt_get, modAt_get]
    split
    · rename_i hj
      rw [hj, hk]; rfl
    · rfl
  have hw : (if usesWset (endedKern k st status 0 k.due).pkt = true then some (statusWord (endedKern k st status 0 k.due) (endedKern k st status 0 k.due).status (endedKern k st status 0 k.due).faultCode) else none) =
      (if k.pkt.kind = 1 ∨ k.pkt.kind = 2 ∨ k.pkt.kind = 3 then some (status + 2 ^ 16 * (k.ord % 2 ^ 48)) else none) := by
    refine if_congr ?_ ?_ rfl
    · show usesWset k.pkt = true ↔ _
      unfold usesWset pkLaunch pkPin pkUnpin
      rw [Bool.or_eq_true, Bool.or_eq_true, beq_iff_eq, beq_iff_eq, beq_iff_eq, or_assoc]
    · rfl
  rw [hw]
  have hK := complete_keep v (endedCtx k i c) i (endedKern k st status 0 k.due) (if k.pkt.kind = 1 ∨ k.pkt.kind = 2 ∨ k.pkt.kind = 3 then some (status + 2 ^ 16 * (k.ord % 2 ^ 48)) else none)
  have hC := completes_of (u := u) (v := v) (c := c) (c' := endedCtx k i c) (i := i) (k := endedKern k st status 0 k.due) (k2 := endedKern k st status 0 .none)
    (by rw [← hv]; exact ⟨rfl, rfl, rfl, rfl⟩) (by rw [← hv]) (by rw [← hv])
    (by obtain ⟨ps, e⟩ := unpins_keep k.pins c; unfold endedCtx; rw [e]; exact ⟨rfl, rfl, rfl⟩)
    (by rw [vk, modAt_get, if_pos rfl, hk]; rfl) rfl (if k.pkt.kind = 1 ∨ k.pkt.kind = 2 ∨ k.pkt.kind = 3 then some (status + 2 ^ 16 * (k.ord % 2 ^ 48)) else none)
  generalize settleQueues (complete v (endedCtx k i c) i (endedKern k st status 0 k.due) (if k.pkt.kind = 1 ∨ k.pkt.kind = 2 ∨ k.pkt.kind = 3 then some (status + 2 ^ 16 * (k.ord % 2 ^ 48)) else none)) = t at hK hC
  obtain ⟨k1, k2, k3, k4, k5, k6⟩ := hK
  have vc : v.ctl.ctxs = modCtx s.ctl.ctxs k.part k.ctx (endedCtx k i) := by rw [← hv]
  refine ⟨?_, ⟨?_, ?_, ?_, ?_⟩, ?_, fun p x hne => ?_, hC⟩
  · rcases k6 with e | e
    · exact ⟨.none, e.trans vk⟩
    · refine ⟨.add, e.trans ?_⟩
      rw [vk, modAt_modAt]
      rfl
  · rw [OnlyIds, k1, ← hv]
    show ({ u.exe with nextId := _ } : Exe) = _
    rw [hA.exe]
    rfl
  · rw [k2, ← hv]
    exact hA.mem.ops
  · rw [k4, ← hv]
    show u.ctl.parts = _
    rw [hA.ctl]; rfl
  · rw [k5, ← hv]
    show u.ctl.faults = _
    rw [hA.ctl]; rfl
  · refine ⟨endedCtx k i c, ?_, ?_, fun y => ?_⟩
    · rw [k3, vc]
      exact findCtx_modCtx hc hids
    · obtain ⟨ps, e⟩ := unpins_keep k.pins c
      unfold endedCtx
      rw [e]
    · exact unpins_count k.pins y c
  · rw [k3, vc]
    exact findCtx_modCtx_other hids hne

theorem ends_of {s : State} {i : Nat} {k : Kernel} {c : Ctx} (hk : s.ctl.kernels[i]? = some k) (hl : kernLive k = true) (hc : findCtx s.ctl.ctxs k.part k.ctx = some c) (st : KState) (status : Nat) :
    PacketEnds s (endKernel s i st status 0) i k c st status := by
  obtain ⟨a1, a2, a3, a4, a5⟩ := ends_core hk hl hc st status
  exact ⟨a1, a2, a3, a4, _, head_outside hk, head_advanced hk, (advanceHead_side hk).sys, a5⟩

/-! ### Actions -/

theorem packetsGo_iff (c : Ctx) : packetsGo c = true ↔ ContextGoes c := by
  unfold packetsGo fatalHalt ctxUp ContextGoes
  cases c.debugHalt <;> simp
  tauto

theorem act_eq {s : State} {i kind : Nat} {k : Kernel} {c : Ctx} (h : Acts s i kind k c) (f : Kernel → Ctx → State) : packetAct kind i s f = .next (f k c) := by
  obtain ⟨h1, h2, h3, h4, h5, h6⟩ := h
  unfold packetAct
  rw [h1]
  dsimp only
  rw [show kernCtx s k = some c from h2]
  dsimp only
  rw [if_pos]
  rw [Bool.and_eq_true, Bool.and_eq_true, Bool.and_eq_true, beq_iff_eq, beq_iff_eq, depsHold_iff, packetsGo_iff]
  exact ⟨⟨⟨h3, h4⟩, h5⟩, h6⟩

theorem act_idle {s : State} {i kind : Nat} (h : ∀ k c, ¬ Acts s i kind k c) (f : Kernel → Ctx → State) : packetAct kind i s f = .next s := by
  unfold packetAct
  cases h1 : s.ctl.kernels[i]? with
  | none => rfl
  | some k =>
    dsimp only
    cases h2 : kernCtx s k with
    | none => rfl
    | some c =>
      dsimp only
      rw [if_neg]
      rw [Bool.and_eq_true, Bool.and_eq_true, Bool.and_eq_true, beq_iff_eq, beq_iff_eq, depsHold_iff, packetsGo_iff]
      rintro ⟨⟨⟨a, b⟩, d⟩, e⟩
      exact h k c ⟨h1, h2, a, b, d, e⟩

theorem acts_live {s : State} {i kind : Nat} {k : Kernel} {c : Ctx} (h : Acts s i kind k c) : kernLive k = true := by
  unfold kernLive; rw [h.2.2.2.1]; rfl

theorem acts_ends {s : State} {i kind : Nat} {k : Kernel} {c : Ctx} (h : Acts s i kind k c) (st : KState) (status : Nat) : PacketEnds s (endKernel s i st status 0) i k c st status :=
  ends_of h.1 (acts_live h) h.2.1 st status

/-! ### Ranges pinned -/

theorem pages_fold {s : State} {c : Ctx} {p : Partition} (L : List Nat) : ∀ acc : List (Nat × Nat), acc.Nodup →
    ((∀ pg ∈ L, pinPage s c p (pg * 2 ^ 16) ≠ none) → ∃ ps, L.foldl (fun acc pg =>
      match acc, pinPage s c p (pg * 2 ^ 16) with
      | some ps, some x => some (if ps.contains x then ps else ps ++ [x])
      | _, _ => none) (some acc) = some ps ∧ ps.Nodup ∧ ps.length ≤ acc.length + L.length ∧ ∀ x, x ∈ ps ↔ x ∈ acc ∨ ∃ pg ∈ L, pinPage s c p (pg * 2 ^ 16) = some x) := by
  induction L with
  | nil => exact fun acc ha _ => ⟨acc, rfl, ha, le_rfl, fun x => ⟨.inl, fun h => h.elim id fun ⟨_, h, _⟩ => absurd h List.not_mem_nil⟩⟩
  | cons pg L ih =>
    intro acc ha h
    rw [List.foldl_cons]
    cases hx : pinPage s c p (pg * 2 ^ 16) with
    | none => exact absurd hx (h pg List.mem_cons_self)
    | some x =>
      dsimp only
      obtain ⟨ps, h1, h2, h4, h3⟩ := ih (if acc.contains x then acc else acc ++ [x]) (by
        split
        · exact ha
        · rename_i hc
          rw [List.contains_iff_mem] at hc
          exact List.nodup_append.2 ⟨ha, List.nodup_singleton x, fun a b y hy e => hc (by rw [List.mem_singleton.1 hy] at e; rw [← e]; exact b)⟩) fun q hq => h q (List.mem_cons_of_mem _ hq)
      refine ⟨ps, h1, h2, ?_, fun y => ?_⟩
      · rw [List.length_cons]
        split at h4
        · omega
        · rw [List.length_append, List.length_singleton] at h4
          omega
      rw [h3]
      constructor
      · rintro (h | ⟨q, hq, e⟩)
        · split at h
          · exact .inl h
          · rcases List.mem_append.1 h with h | h
            · exact .inl h
            · rw [List.mem_singleton.1 h]; exact .inr ⟨pg, List.mem_cons_self, hx⟩
        · exact .inr ⟨q, List.mem_cons_of_mem _ hq, e⟩
      · rintro (h | ⟨q, hq, e⟩)
        · left
          split
          · exact h
          · exact List.mem_append_left _ h
        · rcases List.mem_cons.1 hq with e2 | e2
          · left
            rw [e2, hx] at e
            cases e
            split
            · rename_i hc; exact List.contains_iff_mem.1 hc
            · exact List.mem_append_right _ (List.mem_singleton.2 rfl)
          · exact .inr ⟨q, e2, e⟩

theorem pages_none {s : State} {c : Ctx} {p : Partition} (L : List Nat) : L.foldl (fun (acc : Option (List (Nat × Nat))) pg =>
      match acc, pinPage s c p (pg * 2 ^ 16) with
      | some ps, some x => some (if ps.contains x then ps else ps ++ [x])
      | _, _ => none) none = none := by
  induction L with
  | nil => rfl
  | cons pg L ih => exact ih

theorem rangePages_none {s : State} {c : Ctx} {p : Partition} {r : Nat × Nat} (h : ∃ pg ∈ vaPages r.1 r.2, pinPage s c p (pg * 2 ^ 16) = none) : rangePages s c p r = none := by
  unfold rangePages
  obtain ⟨pg, hm, hn⟩ := h
  generalize (some [] : Option (List (Nat × Nat))) = acc
  generalize vaPages r.1 r.2 = L at hm
  induction L generalizing acc with
  | nil => cases hm
  | cons q L ih =>
    rw [List.foldl_cons]
    rcases List.mem_cons.1 hm with e | e
    · rw [← e, hn]
      cases acc <;> exact pages_none L
    · exact ih _ e

/-- How many ranges of a list have page `x` among their pages. -/
theorem touching_cons (s : State) (c : Ctx) (p : Partition) (r : Nat × Nat) (rs : List (Nat × Nat)) (x : Nat × Nat) {ps : List (Nat × Nat)} (hn : ps.Nodup)
    (hp : ∀ x, x ∈ ps ↔ ∃ pg ∈ vaPages r.1 r.2, pinPage s c p (pg * 2 ^ 16) = some x) : touching s c p (r :: rs) x = ps.count x + touching s c p rs x := by
  unfold touching
  rw [List.filter_cons]
  have : ((vaPages r.1 r.2).any fun pg => pinPage s c p (pg * 2 ^ 16) == some x) = true ↔ x ∈ ps := by
    rw [List.any_eq_true, hp]
    exact ⟨fun ⟨a, b, d⟩ => ⟨a, b, beq_iff_eq.1 d⟩, fun ⟨a, b, d⟩ => ⟨a, b, beq_iff_eq.2 d⟩⟩
  by_cases hx : x ∈ ps
  · rw [if_pos (this.2 hx), List.length_cons, List.count_eq_one_of_mem hn hx]; omega
  · rw [if_neg (fun h => hx (this.1 h)), List.count_eq_zero_of_not_mem hx]; omega

theorem pinPages_fold (ps : List (Nat × Nat)) : ∀ (c : Ctx) (got : List (Nat × Nat)), (∀ x, pinCount c x + ps.count x ≤ 65535) →
    ∃ c', ps.foldl (fun acc x =>
        match acc with
        | some (c, got) => (pinOne c x).map fun c => (c, got ++ [x])
        | none => none) (some (c, got)) = some (c', got ++ ps) ∧ c' = { c with pinned := c'.pinned } ∧ ∀ x, pinCount c' x = pinCount c x + ps.count x := by
  induction ps with
  | nil => exact fun c got _ => ⟨c, by rw [List.append_nil]; rfl, rfl, fun x => rfl⟩
  | cons y ps ih =>
    intro c got h
    rw [List.foldl_cons]
    dsimp only
    have hy := h y
    rw [List.count_cons_self] at hy
    have hp : pinOne c y = some (setPin c y (pinCount c y + 1)) := by
      unfold pinOne; rw [if_neg (by omega)]
    rw [hp]
    obtain ⟨c', h1, h2, h3⟩ := ih (setPin c y (pinCount c y + 1)) (got ++ [y]) fun x => by
      have hx := h x
      rw [pinCount_setPin]
      rw [List.count_cons] at hx
      by_cases e : x = y
      · rw [e] at hx ⊢
        rw [if_pos rfl]
        rw [if_pos (beq_self_eq_true y)] at hx
        omega
      · rw [if_neg e]
        rw [if_neg (by rw [beq_iff_eq]; exact fun a => e a.symm)] at hx
        omega
    refine ⟨c', ?_, ?_, fun x => ?_⟩
    · refine Eq.trans h1 ?_
      rw [List.append_assoc]; rfl
    · rw [h2]; rfl
    · rw [h3, pinCount_setPin, List.count_cons]
      by_cases e : x = y
      · rw [if_pos e, e, if_pos (beq_self_eq_true y)]; omega
      · rw [if_neg e, if_neg (by rw [beq_iff_eq]; exact fun a => e a.symm)]; omega

theorem pinFold {s : State} {c0 : Ctx} {p : Partition} (rs : List (Nat × Nat)) : ∀ (c : Ctx) (got : List (Nat × Nat)), (∀ r ∈ rs, ∀ pg ∈ vaPages r.1 r.2, pinPage s c0 p (pg * 2 ^ 16) ≠ none) →
    (∀ x, pinCount c x + touching s c0 p rs x ≤ 65535) → (c.part = c0.part ∧ c.cid = c0.cid ∧ c.desc = c0.desc) →
    ∃ c' ps, rs.foldl (fun acc r =>
    match acc, rangePages s c0 p r with
    | some (c, got), some ps =>
      ps.foldl (fun acc x =>
        match acc with
        | some (c, got) => (pinOne c x).map fun c => (c, got ++ [x])
        | none => none) (some (c, got))
    | _, _ => none) (some (c, got)) = some (c', got ++ ps) ∧ c' = { c with pinned := c'.pinned } ∧ (∀ x, pinCount c' x = pinCount c x + touching s c0 p rs x) ∧
      (∀ x, ps.count x = touching s c0 p rs x) ∧ ps.length ≤ (rs.flatMap fun r => vaPages r.1 r.2).length := by
  induction rs with
  | nil => exact fun c got _ _ _ => ⟨c, [], by rw [List.append_nil]; rfl, rfl, fun x => rfl, fun x => rfl, le_rfl⟩
  | cons r rs ih =>
    intro c got h1 h2 h3
    rw [List.foldl_cons]
    obtain ⟨qs, e1, e2, e4, e3⟩ := pages_fold (s := s) (c := c0) (p := p) (vaPages r.1 r.2) [] List.nodup_nil (h1 r List.mem_cons_self)
    have e3' : ∀ x, x ∈ qs ↔ ∃ pg ∈ vaPages r.1 r.2, pinPage s c0 p (pg * 2 ^ 16) = some x := fun x => by
      rw [e3]; exact ⟨fun h => h.resolve_left List.not_mem_nil, .inr⟩
    have ht := fun x => touching_cons s c0 p r rs x e2 e3'
    rw [show rangePages s c0 p r = some qs from e1]
    dsimp only
    obtain ⟨c1, f1, f2, f3⟩ := pinPages_fold qs c got fun x => by have := h2 x; rw [ht] at this; omega
    rw [f1]
    obtain ⟨c2, ps, g1, g2, g3, g4, g5⟩ := ih c1 (got ++ qs) (fun r hr => h1 r (List.mem_cons_of_mem _ hr)) (fun x => by have := h2 x; rw [ht] at this; rw [f3]; omega) (by rw [f2]; exact h3)
    refine ⟨c2, qs ++ ps, ?_, ?_, fun x => ?_, fun x => ?_, ?_⟩
    · refine Eq.trans g1 ?_
      rw [List.append_assoc]
    · rw [g2, f2]
    · rw [g3, f3, ht]; omega
    · rw [List.count_append, g4, ht]
    · rw [List.length_append, List.flatMap_cons, List.length_append]
      rw [List.length_nil] at e4
      omega

theorem pinRanges_some {s : State} {c : Ctx} {p : Partition} {rs : List (Nat × Nat)} (h : Pinnable s c p rs) :
    ∃ c' ps, pinRanges s c p rs = some (c', ps) ∧ c' = { c with pinned := c'.pinned } ∧ (∀ x, pinCount c' x = pinCount c x + touching s c p rs x) ∧
      (∀ x, ps.count x = touching s c p rs x) ∧ ps.length ≤ (rs.flatMap fun r => vaPages r.1 r.2).length := by
  obtain ⟨c', ps, h1, h2, h3, h4, h5⟩ := pinFold rs c [] h.1 h.2 ⟨rfl, rfl, rfl⟩
  exact ⟨c', ps, h1, h2, h3, h4, h5⟩

theorem pinFold_none {s : State} {c0 : Ctx} {p : Partition} (rs : List (Nat × Nat)) : rs.foldl (fun (acc : Option (Ctx × List (Nat × Nat))) r =>
    match acc, rangePages s c0 p r with
    | some (c, got), some ps =>
      ps.foldl (fun acc x =>
        match acc with
        | some (c, got) => (pinOne c x).map fun c => (c, got ++ [x])
        | none => none) (some (c, got))
    | _, _ => none) none = none := by
  induction rs with
  | nil => rfl
  | cons r rs ih => exact ih

theorem pinRanges_none {s : State} {c : Ctx} {p : Partition} {rs : List (Nat × Nat)} (h : ∃ r ∈ rs, ∃ pg ∈ vaPages r.1 r.2, pinPage s c p (pg * 2 ^ 16) = none) :
    pinRanges s c p rs = none := by
  unfold pinRanges
  obtain ⟨r, hr, h⟩ := h
  have hn := rangePages_none h
  generalize (some (c, []) : Option (Ctx × List (Nat × Nat))) = acc
  induction rs generalizing acc with
  | nil => cases hr
  | cons q L ih =>
    rw [List.foldl_cons]
    rcases List.mem_cons.1 hr with e | e
    · rw [← e, hn]
      cases acc <;> exact pinFold_none L
    · exact ih e _

/-! ### Translations loaded -/

/-- How many translations a TLB holds pinned. -/
def heldAt (tlb : List TlbEntry) (n : Nat) : Nat := (tlb.filter fun e => e.place == n && e.held).length

/-- A translation put in stands first, and of the others at most one goes, which is not held (R317). -/
theorem tlbPut_spec (tlb : List TlbEntry) (n : Nat) (a : TlbEntry) : ∃ L : List TlbEntry, tlbPut tlb n a = a :: L ∧ L.Sublist tlb ∧ ∀ e ∈ tlb, e.held = true → e ∈ L := by
  unfold tlbPut
  refine ⟨_, rfl, ?_⟩
  split
  · exact ⟨List.Sublist.refl _, fun e he _ => he⟩
  · split
    · rename_i v hv
      refine ⟨List.filter_sublist, fun e he hh => List.mem_filter.2 ⟨he, ?_⟩⟩
      rw [bne_iff_ne]
      rintro rfl
      have := List.mem_of_getLast? hv
      rw [List.mem_filter, hh] at this
      cases this.2
    · exact ⟨List.Sublist.refl _, fun e he _ => he⟩

/-- A leaf that PIN or LAUNCH takes: it is held where the TLB has room, and no other that is held goes. -/
theorem holdLeaf_spec (tlb : List TlbEntry) (a : TlbEntry) : (∀ e ∈ holdLeaf tlb a, e ∈ tlb ∨ e = a) ∧ (∀ e ∈ tlb, e.held = true → e ∈ holdLeaf tlb a) ∧
    (∀ n, heldAt (holdLeaf tlb a) n ≤ heldAt tlb n + 1) ∧ (heldAt tlb a.place < heldLimit → a ∈ holdLeaf tlb a) := by
  obtain ⟨L, h1, h2, h3⟩ := tlbPut_spec tlb l2TlbSize a
  unfold holdLeaf
  split
  · rw [h1]
    refine ⟨fun e he => ?_, fun e he hh => List.mem_cons_of_mem _ (h3 e he hh), fun n => ?_, fun _ => List.mem_cons_self⟩
    · rcases List.mem_cons.1 he with e1 | e1
      · exact .inr e1
      · exact .inl (h2.subset e1)
    · have := (h2.filter fun e => e.place == n && e.held).length_le
      unfold heldAt
      rw [List.filter_cons]
      split
      · rw [List.length_cons]; omega
      · omega
  · rename_i hn
    exact ⟨fun _ h => .inl h, fun _ h _ => h, fun _ => Nat.le_succ _, fun h => absurd h hn⟩

/-- One pinned page's translation, with the leaf `leaf`, put in the L2 TLBs of some dies in place of any other. -/
def loadPage (c : Ctx) (x : Nat × Nat) (leaf : Nat) (D : List Nat) (tlb : List TlbEntry) : List TlbEntry :=
  D.foldl (fun tlb d => holdLeaf tlb ⟨l2Tlb d c.cid (x.1 * 2 ^ x.2), c.part, c.cid, x.1, x.2, BitVec.ofNat 64 leaf, true⟩) tlb

theorem loadPage_spec (c : Ctx) (x : Nat × Nat) (leaf : Nat) (D : List Nat) (tlb : List TlbEntry) :
    (∀ e ∈ loadPage c x leaf D tlb, e ∈ tlb ∨ (e.part = c.part ∧ e.ctx = c.cid ∧ (e.page, e.size) = x ∧ e.leaf = BitVec.ofNat 64 leaf ∧ e.held = true)) ∧
    (∀ e ∈ tlb, e.held = true → e ∈ loadPage c x leaf D tlb) ∧
    (∀ n, heldAt (loadPage c x leaf D tlb) n ≤ heldAt tlb n + D.length) ∧
    ((∀ n, heldAt tlb n + D.length ≤ heldLimit) → ∀ d ∈ D, (⟨l2Tlb d c.cid (x.1 * 2 ^ x.2), c.part, c.cid, x.1, x.2, BitVec.ofNat 64 leaf, true⟩ : TlbEntry) ∈ loadPage c x leaf D tlb) := by
  induction D generalizing tlb with
  | nil => exact ⟨fun _ h => .inl h, fun _ h _ => h, fun _ => le_rfl, fun _ d hd => absurd hd List.not_mem_nil⟩
  | cons a D ih =>
    obtain ⟨h1, h2, h3, h4⟩ := ih (holdLeaf tlb ⟨l2Tlb a c.cid (x.1 * 2 ^ x.2), c.part, c.cid, x.1, x.2, BitVec.ofNat 64 leaf, true⟩)
    obtain ⟨g1, g2, hc, g4⟩ := holdLeaf_spec tlb ⟨l2Tlb a c.cid (x.1 * 2 ^ x.2), c.part, c.cid, x.1, x.2, BitVec.ofNat 64 leaf, true⟩
    refine ⟨fun e he => ?_, fun e he hh => h2 e (g2 e he hh) hh, fun n => ?_, fun hn d hd => ?_⟩
    · rcases h1 e he with h | h
      · rcases g1 e h with h | h
        · exact .inl h
        · rw [h]; exact .inr ⟨rfl, rfl, rfl, rfl, rfl⟩
      · exact .inr h
    · have a1 := h3 n
      have a2 := hc n
      rw [List.length_cons]
      exact le_trans a1 (by omega)
    · rcases List.mem_cons.1 hd with e | e
      · rw [e]
        refine h2 _ (g4 ?_) rfl
        have := hn (l2Tlb a c.cid (x.1 * 2 ^ x.2))
        rw [List.length_cons] at this
        show heldAt tlb (l2Tlb a c.cid (x.1 * 2 ^ x.2)) < _
        omega
      · refine h4 (fun n => ?_) d e
        have a1 := hn n
        have a2 := hc n
        rw [List.length_cons] at a1
        omega

/-- The translations of a list of pinned pages, loaded (R317, R320). -/
theorem loadPages_spec (s : State) (c : Ctx) (p : Partition) (ps : List (Nat × Nat)) (tlb : List TlbEntry) :
    let T := ps.foldl (fun tlb x =>
      let va := x.1 * 2 ^ x.2
      match leafOf s 8 c.part c.cid c.desc.ptRoot p.dies va with
      | .error _ => tlb
      | .ok (leaf, _) => loadPage c x leaf p.dies (tlb.filter fun t => !(t.part == c.part && t.ctx == c.cid && t.page == x.1 && t.size == x.2))) tlb
    (∀ x l, leafOf s 8 c.part c.cid c.desc.ptRoot p.dies (x.1 * 2 ^ x.2) = .ok l →
      x ∈ ps ∨ (∀ e ∈ tlb, e.part = c.part → e.ctx = c.cid → (e.page, e.size) = x → e.leaf = BitVec.ofNat 64 l.1 ∧ e.held = true) →
      ∀ e ∈ T, e.part = c.part → e.ctx = c.cid → (e.page, e.size) = x → e.leaf = BitVec.ofNat 64 l.1 ∧ e.held = true) ∧
    ((∀ n, heldAt tlb n + ps.length * p.dies.length ≤ heldLimit) → ∀ x l, leafOf s 8 c.part c.cid c.desc.ptRoot p.dies (x.1 * 2 ^ x.2) = .ok l → ∀ d ∈ p.dies,
      x ∈ ps ∨ (⟨l2Tlb d c.cid (x.1 * 2 ^ x.2), c.part, c.cid, x.1, x.2, BitVec.ofNat 64 l.1, true⟩ : TlbEntry) ∈ tlb →
      (⟨l2Tlb d c.cid (x.1 * 2 ^ x.2), c.part, c.cid, x.1, x.2, BitVec.ofNat 64 l.1, true⟩ : TlbEntry) ∈ T) := by
  dsimp only
  induction ps generalizing tlb with
  | nil => exact ⟨fun x l _ h => h.resolve_left List.not_mem_nil, fun _ x l _ d _ h => h.resolve_left List.not_mem_nil⟩
  | cons y ps ih =>
    rw [List.foldl_cons]
    cases hy : leafOf s 8 c.part c.cid c.desc.ptRoot p.dies (y.1 * 2 ^ y.2) with
    | error f =>
      obtain ⟨h1, h2⟩ := ih tlb
      refine ⟨fun x l hl h => h1 x l hl ?_, fun hn x l hl d hd h => h2 (fun n => ?_) x l hl d hd ?_⟩
      · rcases h with h | h
        · rcases List.mem_cons.1 h with e | e
          · rw [e, hy] at hl; cases hl
          · exact .inl e
        · exact .inr h
      · have := hn n
        rw [List.length_cons, Nat.add_mul] at this
        omega
      · rcases h with h | h
        · rcases List.mem_cons.1 h with e | e
          · rw [e, hy] at hl; cases hl
          · exact .inl e
        · exact .inr h
    | ok ly =>
      obtain ⟨leaf, sh⟩ := ly
      dsimp only
      obtain ⟨m1, m2, m3, m4⟩ := loadPage_spec c y leaf p.dies (tlb.filter fun t => !(t.part == c.part && t.ctx == c.cid && t.page == y.1 && t.size == y.2))
      have hsub : ∀ n, heldAt (tlb.filter fun t => !(t.part == c.part && t.ctx == c.cid && t.page == y.1 && t.size == y.2)) n ≤ heldAt tlb n := fun n =>
        (List.filter_sublist.filter _).length_le
      obtain ⟨h1, h2⟩ := ih (loadPage c y leaf p.dies (tlb.filter fun t => !(t.part == c.part && t.ctx == c.cid && t.page == y.1 && t.size == y.2)))
      refine ⟨fun x l hl h => h1 x l hl ?_, fun hn x l hl d hd h => h2 (fun n => ?_) x l hl d hd ?_⟩
      · by_cases hx : x ∈ ps
        · exact .inl hx
        · refine .inr fun e he hp hc hk => ?_
          rcases m1 e he with a | ⟨_, _, a1, a2, a3⟩
          · obtain ⟨a1, a2⟩ := List.mem_filter.1 a
            by_cases hxy : x = y
            · rw [← hxy, ← hk, hp, hc] at a2
              simp at a2
            · rcases h with h | h
              · rcases List.mem_cons.1 h with h | h
                · exact absurd h hxy
                · exact absurd h hx
              · exact h e a1 hp hc hk
          · rw [a1] at hk
            rw [← hk, hy] at hl
            cases hl
            exact ⟨a2, a3⟩
      · have a1 := hn n
        have a2 := m3 n
        have a3 := hsub n
        rw [List.length_cons, Nat.add_mul, Nat.one_mul] at a1
        omega
      · by_cases hx : x ∈ ps
        · exact .inl hx
        · right
          by_cases hxy : x = y
          · rw [hxy, hy] at hl
            cases hl
            rw [hxy]
            refine m4 (fun n => ?_) d hd
            have a1 := hn n
            have a3 := hsub n
            rw [List.length_cons, Nat.add_mul, Nat.one_mul] at a1
            omega
          · refine m2 _ (List.mem_filter.2 ⟨?_, ?_⟩) rfl
            · rcases h with h | h
              · rcases List.mem_cons.1 h with h | h
                · exact absurd h hxy
                · exact absurd h hx
              · exact h
            · have : (x.1 == y.1 && x.2 == y.2) = false := by
                rw [Bool.and_eq_false_iff, beq_eq_false_iff_ne, beq_eq_false_iff_ne]
                by_contra hcon
                push Not at hcon
                exact hxy (Prod.ext hcon.1 hcon.2)
              rw [Bool.and_eq_false_iff] at this
              rcases this with h | h <;> simp [h]

theorem pinned_of {s : State} {c : Ctx} {p : Partition} {rs : List (Nat × Nat)} {c' : Ctx} {ps : List (Nat × Nat)} (hc : findCtx s.ctl.ctxs c.part c.cid = some c)
    (h1 : c' = { c with pinned := c'.pinned }) (h2 : ∀ x, pinCount c' x = pinCount c x + touching s c p rs x) (h3 : ∀ x, ps.count x = touching s c p rs x)
    (h4 : ps.length ≤ (rs.flatMap fun r => vaPages r.1 r.2).length) : Pinned s (loadPinned (setCtx s c') c' p ps) c c' p rs := by
  have e1 : c'.part = c.part := by rw [h1]
  have e2 : c'.cid = c.cid := by rw [h1]
  have e3 : c'.desc = c.desc := by rw [h1]
  obtain ⟨L1, L2⟩ := loadPages_spec (setCtx s c') c' p ps s.mem.tlb
  refine ⟨rfl, ?_, h1, fun q k hne => ?_, h2, fun x l hx hl => ?_⟩
  · exact findCtx_setCtx hc e1 e2
  · exact findCtx_setCtx_other (x := c') (by rw [e1, e2]; exact hne)
  · have hm : x ∈ ps := List.count_pos_iff.1 (by rw [h3]; exact hx)
    have hl' : leafOf (setCtx s c') 8 c'.part c'.cid c'.desc.ptRoot p.dies (x.1 * 2 ^ x.2) = .ok l := by rw [e1, e2, e3]; exact hl
    rw [← e1, ← e2]
    refine ⟨L1 x l hl' (.inl hm), fun hn d hd h8 => ?_⟩
    have := L2 (fun n => le_trans (Nat.add_le_add_left (Nat.mul_le_mul_right _ h4) _) (hn n)) x l hl' d hd (.inl hm)
    unfold tlbFind
    rw [if_pos (by omega)]
    dsimp only
    unfold tlbAt
    rw [ne_eq, List.find?_eq_none]
    intro hnone
    refine hnone _ this ?_
    have hpd : placeDie d = d := by unfold placeDie; rw [if_pos (by omega)]
    rw [hpd]
    simp only [beq_self_eq_true, Bool.true_and, beq_iff_eq]
    exact (Nat.mul_div_cancel _ (Nat.two_pow_pos _)).symm

/-! ### Ranges unpinned -/

theorem find_keys {L : List (Nat × Nat × Nat)} {x : Nat × Nat} : (∃ y ∈ L, (y.1, y.2.1) = x) ↔ L.find? (fun y => y.1 == x.1 && y.2.1 == x.2) ≠ none := by
  rw [ne_eq, List.find?_eq_none]
  constructor
  · rintro ⟨y, hy, e⟩ h
    refine h y hy ?_
    rw [← e, Bool.and_eq_true, beq_iff_eq, beq_iff_eq]
    exact ⟨rfl, rfl⟩
  · intro h
    by_contra hn
    refine h fun y hy hb => hn ⟨y, hy, ?_⟩
    rw [Bool.and_eq_true, beq_iff_eq, beq_iff_eq] at hb
    exact Prod.ext hb.1 hb.2

theorem unpin_keys (c : Ctx) (x : Nat × Nat) (h : (c.pinned.map fun y => (y.1, y.2.1)).Nodup) : ((unpinOne c x).pinned.map fun y => (y.1, y.2.1)).Nodup := by
  have hf : ((c.pinned.filter fun y => !(y.1 == x.1 && y.2.1 == x.2)).map fun y => (y.1, y.2.1)).Nodup := h.sublist (List.Sublist.map _ List.filter_sublist)
  unfold unpinOne setPin
  dsimp only
  split
  · exact hf
  · rw [List.map_cons, List.nodup_cons]
    refine ⟨fun hm => ?_, hf⟩
    obtain ⟨y, hy, e⟩ := List.mem_map.1 hm
    have := (List.mem_filter.1 hy).2
    rw [Prod.mk.injEq] at e
    rw [e.1, e.2] at this
    simp at this

theorem unpinL_count (L : List (Nat × Nat × Nat)) (x : Nat × Nat) (c : Ctx) : pinCount (L.foldl (fun c y => unpinOne c (y.1, y.2.1)) c) x = pinCount c x - (L.map fun y => (y.1, y.2.1)).count x := by
  have : L.foldl (fun c y => unpinOne c (y.1, y.2.1)) c = (L.map fun y => (y.1, y.2.1)).foldl unpinOne c := by rw [List.foldl_map]
  rw [this, unpins_count]

theorem unpinL_keys (L : List (Nat × Nat × Nat)) : ∀ c : Ctx, (c.pinned.map fun y => (y.1, y.2.1)).Nodup → ((L.foldl (fun c y => unpinOne c (y.1, y.2.1)) c).pinned.map fun y => (y.1, y.2.1)).Nodup := by
  induction L with
  | nil => exact fun c h => h
  | cons y L ih => exact fun c h => ih _ (unpin_keys c _ h)

theorem unpinR_count (rs : List (Nat × Nat)) (x : Nat × Nat) : ∀ c : Ctx, (c.pinned.map fun y => (y.1, y.2.1)).Nodup →
    pinCount (rs.foldl (fun (c : Ctx) r =>
    (c.pinned.filter fun y => pageMeets r y.1 y.2.1).foldl (fun c y => unpinOne c (y.1, y.2.1)) c) c) x = pinCount c x - (rs.filter fun r => pageMeets r x.1 x.2).length := by
  induction rs with
  | nil => exact fun c _ => rfl
  | cons r rs ih =>
    intro c h
    rw [List.foldl_cons, ih _ (unpinL_keys _ c h), unpinL_count, List.filter_cons]
    have hn : ((c.pinned.filter fun y => pageMeets r y.1 y.2.1).map fun y => (y.1, y.2.1)).Nodup := h.sublist (List.Sublist.map _ List.filter_sublist)
    by_cases hm : pageMeets r x.1 x.2 = true
    · rw [if_pos hm, List.length_cons]
      by_cases hx : x ∈ c.pinned.map fun y => (y.1, y.2.1)
      · rw [List.count_eq_one_of_mem hn]
        · omega
        · obtain ⟨y, hy, e⟩ := List.mem_map.1 hx
          refine List.mem_map.2 ⟨y, List.mem_filter.2 ⟨hy, ?_⟩, e⟩
          rw [← e] at hm
          exact hm
      · have : pinCount c x = 0 := by
          unfold pinCount
          cases hf : c.pinned.find? (fun y => y.1 == x.1 && y.2.1 == x.2) with
          | none => rfl
          | some y => exact absurd (List.mem_map.2 (find_keys.2 (by rw [hf]; exact fun h => by cases h))) hx
        rw [this]; omega
    · rw [if_neg hm, List.count_eq_zero_of_not_mem, Nat.sub_zero]
      intro hc
      obtain ⟨y, hy, e⟩ := List.mem_map.1 hc
      have := (List.mem_filter.1 hy).2
      rw [← e] at hm
      exact hm this

theorem unpinR_keep (rs : List (Nat × Nat)) : ∀ c : Ctx, ∃ ps, rs.foldl (fun (c : Ctx) r =>
    (c.pinned.filter fun y => pageMeets r y.1 y.2.1).foldl (fun c y => unpinOne c (y.1, y.2.1)) c) c = { c with pinned := ps } := by
  have key : ∀ (L : List (Nat × Nat × Nat)) (c : Ctx), ∃ ps, L.foldl (fun c y => unpinOne c (y.1, y.2.1)) c = { c with pinned := ps } := by
    intro L
    induction L with
    | nil => exact fun c => ⟨c.pinned, rfl⟩
    | cons y L ih =>
      intro c
      obtain ⟨ps, e⟩ := ih (unpinOne c (y.1, y.2.1))
      exact ⟨ps, e⟩
  induction rs with
  | nil => exact fun c => ⟨c.pinned, rfl⟩
  | cons r rs ih =>
    intro c
    rw [List.foldl_cons]
    obtain ⟨ps, e⟩ := key (c.pinned.filter fun y => pageMeets r y.1 y.2.1) c
    obtain ⟨ps2, e2⟩ := ih ((c.pinned.filter fun y => pageMeets r y.1 y.2.1).foldl (fun c y => unpinOne c (y.1, y.2.1)) c)
    refine ⟨ps2, ?_⟩
    rw [e2, e]

/-! ### Captures -/

theorem captureRanges_all {s : State} {c : Ctx} (rs : List (Nat × Nat)) (h : ∀ r ∈ rs, capturable s c r = true ∧ ownerBytes s c r.1 r.2 ≠ none) :
    captureRanges s c rs = (rs.flatMap (fun r => natLe r.1 8 ++ natLe r.2 8 ++ (ownerBytes s c r.1 r.2).getD []), true) := by
  induction rs with
  | nil => rfl
  | cons r rs ih =>
    unfold captureRanges
    obtain ⟨h1, h2⟩ := h r List.mem_cons_self
    rw [h1]
    cases hb : ownerBytes s c r.1 r.2 with
    | none => exact absurd hb h2
    | some bs =>
      dsimp only
      rw [ih fun r hr => h r (List.mem_cons_of_mem _ hr), List.flatMap_cons, hb]
      rfl

theorem captureRanges_bad {s : State} {c : Ctx} (rs : List (Nat × Nat)) (h : ∃ r ∈ rs, capturable s c r = false ∨ ownerBytes s c r.1 r.2 = none) : (captureRanges s c rs).2 = false := by
  induction rs with
  | nil => obtain ⟨r, hr, _⟩ := h; cases hr
  | cons r rs ih =>
    unfold captureRanges
    split
    · rename_i h1 h2
      dsimp only
      refine ih ?_
      obtain ⟨q, hq, hb⟩ := h
      rcases List.mem_cons.1 hq with e | e
      · rw [e, h1, h2] at hb
        rcases hb with hb | hb <;> cases hb
      · exact ⟨q, e, hb⟩
    · rfl

theorem take8_lt (bs : List Byte) : leNat (bs.take 8) < 2 ^ 64 := by
  have : ∀ bs : List Byte, leNat bs < 256 ^ bs.length := by
    intro bs
    induction bs with
    | nil => decide
    | cons b bs ih =>
      rw [List.length_cons, Nat.pow_succ]
      unfold leNat
      have := b.isLt
      omega
  refine Nat.lt_of_lt_of_le (this _) ?_
  rw [show (2 : Nat) ^ 64 = 256 ^ 8 by decide]
  exact Nat.pow_le_pow_right (by decide) (by rw [List.length_take]; omega)

theorem capture_of (s : State) (c : Ctx) (raw : List Byte) (ord : Nat) : Capture s c raw ord (captureBytes s c raw ord) := by
  have hw : (parsePacket raw).wset.toNat = leNat ((raw.drop 0x30).take 8) := by
    show (BitVec.ofNat 64 _).toNat = _
    rw [BitVec.toNat_ofNat, Nat.mod_eq_of_lt (take8_lt _)]
  unfold captureBytes
  rw [hw]
  unfold Capture
  dsimp only
  generalize wsetRanges s c (leNat ((raw.drop 0x30).take 8)) = list
  cases hcr : captureRanges s c (list.getD []) with
  | mk body ok =>
    dsimp only
    refine ⟨_, body, rfl, fun h => ?_, fun h1 h2 => ?_⟩
    · rw [if_neg]
      rw [Bool.and_eq_true]
      rintro ⟨a, b⟩
      rcases h with h | h
      · rw [h] at b; cases b
      · have := captureRanges_bad (list.getD []) h
        rw [hcr] at this
        have this : ok = false := this
        rw [this] at a; cases a
    · have := captureRanges_all (list.getD []) h2
      rw [hcr, Prod.mk.injEq] at this
      refine ⟨?_, this.1⟩
      rw [if_pos]
      rw [Bool.and_eq_true]
      refine ⟨this.2, ?_⟩
      cases list with
      | none => exact absurd rfl h1
      | some _ => rfl

theorem closeFac_ctxs (s : State) (part facil : Nat) : (closeFacilities s part facil).ctl = { s.ctl with ctxs := if facil.testBit 1 then s.ctl.ctxs else modIf s.ctl.ctxs (fun c => c.part == part) fun c => { c with perf := [] } } ∧
    (closeFacilities s part facil).mem = s.mem ∧ (closeFacilities s part facil).sys = s.sys := by
  unfold closeFacilities facProfile facDebug
  cases facil.testBit 1 <;> cases facil.testBit 0 <;> exact ⟨rfl, rfl, rfl⟩

theorem readVa_alike {s t : State} (h : ReadAlike s t) (die : Nat) (c : Ctx) (va n need : Nat) : readVa t die c va n need = readVa s die c va n need := by
  unfold readVa
  congr 1
  funext i acc
  rw [xlate_alike h ⟨rfl, rfl, rfl⟩]
  cases acc <;> cases xlate s die c (va + i) need <;> simp only [space_alike h]

theorem ownerBytes_alike {s t : State} (h : ReadAlike s t) (c : Ctx) (va n : Nat) : ownerBytes t c va n = ownerBytes s c va n := by
  unfold ownerBytes; rw [readVa_alike h]

theorem capturable_alike {s t : State} (h : ReadAlike s t) (c : Ctx) (r : Nat × Nat) : capturable t c r = capturable s c r := by
  unfold capturable
  congr 1
  funext pg
  rw [xlate_alike h ⟨rfl, rfl, rfl⟩]

theorem captureRanges_alike {s t : State} (h : ReadAlike s t) (c : Ctx) (rs : List (Nat × Nat)) : captureRanges t c rs = captureRanges s c rs := by
  induction rs with
  | nil => rfl
  | cons r rs ih =>
    unfold captureRanges
    rw [capturable_alike h, ownerBytes_alike h, ih]

theorem wset_alike {s t : State} (h : ReadAlike s t) (c : Ctx) (va : Nat) : wsetRanges t c va = wsetRanges s c va := by
  have hd : ∀ a n, inDevice t c a n = inDevice s c a n := by
    intro a n
    unfold inDevice
    congr 1
    funext pg
    rw [xlate_alike h ⟨rfl, rfl, rfl⟩, h.2.2.1]
  unfold wsetRanges
  simp only [ownerBytes_alike h, hd]

theorem captureBytes_alike {s t : State} (h : ReadAlike s t) (c : Ctx) (raw : List Byte) (ord : Nat) : captureBytes t c raw ord = captureBytes s c raw ord := by
  unfold captureBytes
  simp only [wset_alike h, captureRanges_alike h]

theorem launch_pins {s : State} {i : Nat} {k : Kernel} {c : Ctx} {p : Partition} (h : Acts s i 1 k c) (hp : findPart s.ctl.parts c.part = some p) (hpin : Pinnable s c p ((wsetRanges s c k.pkt.wset.toNat).getD [])) :
    ∃ t b cb img pins, exec (.launchPacket i) s = .next t ∧ Pinned s b c cb p ((wsetRanges s c k.pkt.wset.toNat).getD []) ∧ Capture b cb k.pkt.raw k.ord img ∧
        (∀ x, pins.count x = touching s c p ((wsetRanges s c k.pkt.wset.toNat).getD []) x) ∧
        t = { (if k.pkt.flags.testBit 3 = true then hostWritten b k.pkt.recdest.toNat img else b) with
          ctl := { b.ctl with kernels := modAt s.ctl.kernels i fun _ => { k with state := .dispatching, pins := pins } } } := by
  obtain ⟨c', ps, h1, h2, h3, h4, h5⟩ := pinRanges_some hpin
  have hids := findCtx_ids h.2.1
  have hc : findCtx s.ctl.ctxs c.part c.cid = some c := by rw [hids.1, hids.2]; exact h.2.1
  have hP := pinned_of hc h2 h3 h4 h5
  obtain ⟨s1, hs1⟩ : ∃ s1, s1 = modKern s i fun x => { x with state := .pinning } := ⟨_, rfl⟩
  have h1' : pinRanges s1 c p ((wsetRanges s1 c k.pkt.wset.toNat).getD []) = some (c', ps) := by rw [hs1]; exact h1
  have hp1 : findPart s1.ctl.parts c.part = some p := by rw [hs1]; exact hp
  have hk : modAt (modAt s.ctl.kernels i fun x => { x with state := .pinning }) i (fun x => { x with state := .dispatching, pins := ps }) = modAt s.ctl.kernels i fun _ => { k with state := .dispatching, pins := ps } := by
    rw [modAt_modAt]
    refine List.ext_getElem? fun j => ?_
    rw [modAt_get, modAt_get]
    split
    · rename_i hj
      rw [hj, h.1]; rfl
    · rfl
  have hcap : captureBytes (loadPinned (setCtx s1 c') c' p ps) c' k.pkt.raw k.ord = captureBytes (loadPinned (setCtx s c') c' p ps) c' k.pkt.raw k.ord := by
    refine captureBytes_alike (s := loadPinned (setCtx s c') c' p ps) ?_ _ _ _
    rw [hs1]
    exact ⟨rfl, rfl, rfl, rfl⟩
  refine ⟨_, loadPinned (setCtx s c') c' p ps, c', captureBytes (loadPinned (setCtx s c') c' p ps) c' k.pkt.raw k.ord, ps, ?_, hP, capture_of _ _ _ _, h4, rfl⟩
  refine (act_eq h _).trans ?_
  dsimp only
  rw [← hs1]
  simp only [hp1, h1', hcap]
  rw [← hk, hs1]
  cases k.pkt.flags.testBit 3 <;> rfl

/-- A byte written at an address of a context, read at its home. -/
theorem vaByte_one {s : State} {c : Ctx} {va : Nat} {x : Xl} (hx : xlate s 8 c va 0 = .ok x) (hg : GrainsOk s.mem.dir) (hl : paLocal (ownDev s.sys) x.pa = true)
    (hat : AtHome s (paOff x.pa) 1) (r : Nat) : homeByte (vaBytes s c va (natLe r 1)) (paOff x.pa) = BitVec.ofNat 8 r := by
  have e : vaBytes s c va (natLe r 1) = engineWrite s .nobody x.leaf x.pa [BitVec.ofNat 8 r] := by
    unfold vaBytes
    rw [show natLe r 1 = [BitVec.ofNat 8 r] from rfl]
    unfold writeVa
    rw [hx]
    rfl
  rw [e]
  unfold engineWrite
  rw [local_not_host hl, if_neg (by decide), hl, if_pos rfl]
  have h0 := hat 0 (by omega)
  have := homeWrite_byte hg .nobody x.leaf (paOff x.pa) [BitVec.ofNat 8 r] h0.1 h0.2 ⟨Nat.le_refl _, by simp⟩
  rw [Nat.add_zero, Nat.sub_self] at this
  exact this

theorem judge_of {s : State} {c : Ctx} {p : Partition} {va r : Nat} {y : Policy} (h : PolicyResult s c p va r y) :
    (r ≠ 0 ∧ judgePolicy s c p va = (r, none)) ∨ (r = 0 ∧ judgePolicy s c p va = (0, some y)) := by
  unfold judgePolicy
  rcases h with ⟨rfl, h⟩ | ⟨bs, h1, h2, h⟩
  · left
    refine ⟨by decide, ?_⟩
    cases hb : policyBlob s c va with
    | none => rfl
    | some bs =>
      rw [hb] at h
      have h' : policyFields bs = none := h
      dsimp only
      rw [h']
  · rw [h1]
    dsimp only
    rw [h2]
    dsimp only
    rcases h with ⟨rfl, h⟩ | ⟨h3, h⟩
    · left; rw [if_pos h]; exact ⟨by decide, rfl⟩
    · rw [if_neg (fun e => e h3)]
      rcases h with ⟨rfl, h⟩ | ⟨key, hk, h⟩
      · left; rw [h]; exact ⟨by decide, rfl⟩
      · rw [hk]
        dsimp only
        rcases h with ⟨rfl, h⟩ | ⟨hs, h⟩
        · left; rw [h]; exact ⟨by decide, rfl⟩
        · rw [hs]
          rw [if_neg (by decide)]
          rcases h with ⟨rfl, h⟩ | ⟨rfl, h⟩
          · left; rw [if_pos h]; exact ⟨by decide, rfl⟩
          · right; rw [if_neg (by omega)]; exact ⟨rfl, rfl⟩

theorem closed_find {cs : List Ctx} {c : Ctx} {id : Nat} (h : findCtx cs c.part c.cid = some c) (hid : id = c.part) :
    findCtx (modIf cs (fun x => x.part == id) fun x => { x with perf := [] }) c.part c.cid = some { c with perf := [] } := by
  unfold findCtx modIf at *
  induction cs with
  | nil => cases h
  | cons x cs ih =>
    rw [List.map_cons]
    by_cases hx : (x.part == c.part && x.cid == c.cid) = true
    · rw [List.find?_cons_of_pos (by exact hx)] at h
      cases h
      have hb : (c.part == id) = true := by rw [hid]; exact beq_self_eq_true _
      rw [if_pos hb, List.find?_cons_of_pos (by exact hx)]
    · rw [List.find?_cons_of_neg (by exact hx)] at h
      rw [List.find?_cons_of_neg]
      · exact ih h
      · split <;> exact hx

theorem policy_find {ps : List Partition} {p : Partition} {id : Nat} {f : Partition → Partition} (h : findPart ps id = some p) (hf : ∀ x, (f x).id = x.id := by intro _; rfl) :
    findPart (modIf ps (fun x => x.id == p.id) f) id = some (f p) := by
  have hpid : p.id = id := beq_iff_eq.1 (List.find?_some (p := fun x : Partition => x.id == id) h)
  unfold findPart modIf at *
  induction ps with
  | nil => cases h
  | cons x ps ih =>
    rw [List.map_cons]
    by_cases hx : (x.id == id) = true
    · rw [List.find?_cons_of_pos (by exact hx)] at h
      cases h
      rw [if_pos (beq_self_eq_true _), List.find?_cons_of_pos]
      rw [hf]; exact hx
    · rw [List.find?_cons_of_neg (by exact hx)] at h
      rw [List.find?_cons_of_neg]
      · exact ih h
      · rw [if_neg (by rw [hpid]; exact hx)]; exact hx

theorem closed_gangs (v : State) (part facil gi : Nat) (g : Gang) (hg : (closeFacilities v part facil).exe.gangs[gi]? = some g) :
    ∃ g0, v.exe.gangs[gi]? = some g0 ∧ g = { g0 with dbgCtl := g.dbgCtl } ∧
      ∀ (grp : Group) (x : Kernel), v.exe.groups[g0.grp]? = some grp → v.ctl.kernels[grp.kern]? = some x →
        g.dbgCtl = if x.part = part ∧ facil.testBit 0 = false then 0 else g0.dbgCtl := by
  unfold closeFacilities at hg
  dsimp only at hg
  generalize hw : (if facil.testBit facProfile = true then v else { v with ctl := { v.ctl with ctxs := modIf v.ctl.ctxs (fun c => c.part == part) fun c => { c with perf := [] } } }) = w at hg
  have we : w.exe = v.exe := by rw [← hw]; split <;> rfl
  have wk : w.ctl.kernels = v.ctl.kernels := by rw [← hw]; split <;> rfl
  rw [show facDebug = 0 from rfl] at hg
  cases hb : facil.testBit 0 with
  | true =>
    rw [hb, if_pos rfl, we] at hg
    exact ⟨g, hg, rfl, fun grp x _ _ => by rw [if_neg (fun h => by cases h.2)]⟩
  | false =>
    rw [hb, if_neg (by decide)] at hg
    dsimp only at hg
    rw [List.getElem?_map, we] at hg
    cases h0 : v.exe.gangs[gi]? with
    | none => rw [h0] at hg; cases hg
    | some g0 =>
      rw [h0, Option.map_some, Option.some.injEq] at hg
      refine ⟨g0, rfl, ?_, fun grp x h1 h2 => ?_⟩
      · rw [← hg]
        split
        · split <;> rfl
        · rfl
      · have hkx : (v.exe.groups[g0.grp]?).bind (kernOf w) = some x := by
          rw [h1]
          show w.ctl.kernels[grp.kern]? = some x
          rw [wk]; exact h2
        rw [hkx] at hg
        dsimp only at hg
        rw [← hg]
        by_cases hp : x.part = part
        · rw [if_pos hp, if_pos ⟨hp, rfl⟩]
        · rw [if_neg hp, if_neg (fun h => hp h.1)]

end Sys2Proof.Machine
end

