-- ==== Sys2Proof/Laws/Reads.lean ====
section
/-! SUPPORT. Laws/Reads.lean: what a READ leaves in the reader's slice, and what a recall, a home write, a fill and a
counted acknowledgement change. -/

namespace Sys2Proof.Machine

/-! ## A cell that a slice holds -/

/-- A die's slice holds cell `i` of a frame with the data `d`, under no lease, in every block that holds it. -/
def CellHeld (l2 : List L2Block) (a f i : Nat) (d : BitVec 256) : Prop :=
  (∃ b ∈ l2, b.holds a f i) ∧ ∀ b ∈ l2, b.holds a f i → b.expiry = none ∧ ∃ c, b.cells[i - b.start]? = some c ∧ c.data = d

theorem CellHeld.cell {l2 : List L2Block} {a f i : Nat} {d : BitVec 256} (h : CellHeld l2 a f i d) (now : Nat) :
    ∃ c, l2Cell l2 now a f i = some c ∧ c.data = d := by
  unfold l2Cell
  obtain ⟨⟨b, hb, hh⟩, hc⟩ := h
  cases hf : l2.find? _ with
  | none =>
    have he := (hc b hb hh).1
    obtain ⟨h1, h2, h3, h4⟩ := hh
    exact absurd (by simp [h1, h2, h3, h4, L2Block.live, he]) (List.find?_eq_none.1 hf b hb)
  | some b' =>
    have hp := List.find?_some hf
    simp only [Bool.and_eq_true, beq_iff_eq, decide_eq_true_eq] at hp
    exact (hc b' (List.mem_of_find?_eq_some hf) ⟨hp.1.1.1.1, hp.1.1.1.2, hp.1.1.2, hp.1.2⟩).2

theorem cellHeld_frame {l : List L2Block} {a f i : Nat} {d : BitVec 256} : CellHeld (l.filter fun b => b.frame == f) a f i d ↔ CellHeld l a f i d := by
  unfold CellHeld
  constructor
  · rintro ⟨⟨b, hb, hh⟩, h⟩
    exact ⟨⟨b, (List.mem_filter.1 hb).1, hh⟩, fun b hb hh => h b (List.mem_filter.2 ⟨hb, by simp [hh.2.1]⟩) hh⟩
  · rintro ⟨⟨b, hb, hh⟩, h⟩
    exact ⟨⟨b, List.mem_filter.2 ⟨hb, by simp [hh.2.1]⟩, hh⟩, fun b hb hh => h b (List.mem_filter.1 hb).1 hh⟩

theorem recallGrain_keeps (m : Mem) (g size a f i : Nat) : (l2Cell m.l2 0 a f i = none → l2Cell (recallGrain m g size).l2 0 a f i = none) ∧
    ∀ d, CellHeld m.l2 a f i d → CellHeld (recallGrain m g size).l2 a f i d := by
  have hmap : ∃ F : L2Block → L2Block, (recallGrain m g size).l2 = m.l2.map F ∧ ∀ b, (F b).die = b.die ∧ (F b).frame = b.frame ∧ (F b).start = b.start ∧
      (F b).expiry = b.expiry ∧ (F b).cells.length = b.cells.length ∧ ∀ j : Nat, ((F b).cells[j]?).map L2Cell.data = (b.cells[j]?).map L2Cell.data := by
    refine ⟨_, rfl, fun b => ?_⟩
    split
    · refine ⟨rfl, rfl, rfl, rfl, by simp, fun j => ?_⟩
      dsimp only
      rw [List.getElem?_mapIdx]
      cases b.cells[j]? with
      | none => rfl
      | some c => simp only [Option.map_some]; split <;> rfl
    · exact ⟨rfl, rfl, rfl, rfl, rfl, fun _ => rfl⟩
  obtain ⟨F, h1, h2⟩ := hmap
  rw [h1]
  constructor
  · intro h
    unfold l2Cell at h ⊢
    rw [List.find?_map]
    have : ((fun b : L2Block => b.die == a && b.frame == f && decide (b.start ≤ i) && decide (i < b.start + b.cells.length) && b.live 0) ∘ F) =
        fun b => b.die == a && b.frame == f && decide (b.start ≤ i) && decide (i < b.start + b.cells.length) && b.live 0 := by
      funext b
      obtain ⟨k1, k2, k3, k4, k5, -⟩ := h2 b
      simp only [Function.comp, L2Block.live, k1, k2, k3, k4, k5]
    rw [this]
    cases hf : m.l2.find? _ with
    | none => rfl
    | some b =>
      rw [hf] at h
      dsimp only [Option.map_some] at h ⊢
      have := (h2 b).2.2.2.2.2 (i - b.start)
      rw [h] at this
      rw [(h2 b).2.2.1]
      simpa using this
  · rintro d ⟨⟨b, hb, hh⟩, h⟩
    have hk : ∀ b, (F b).holds a f i ↔ b.holds a f i := fun b => by
      obtain ⟨k1, k2, k3, k4, k5, -⟩ := h2 b
      unfold L2Block.holds; rw [k1, k2, k3, k5]
    refine ⟨⟨F b, List.mem_map_of_mem hb, (hk b).2 hh⟩, fun b' hb' hh' => ?_⟩
    obtain ⟨b0, hb0, rfl⟩ := List.mem_map.1 hb'
    obtain ⟨e, c, hc, hd⟩ := h b0 hb0 ((hk b0).1 hh')
    obtain ⟨k1, k2, k3, k4, k5, k6⟩ := h2 b0
    refine ⟨k4.trans e, ?_⟩
    have := k6 (i - b0.start)
    rw [hc] at this
    rw [k3]
    obtain ⟨c', hc', hd'⟩ := Option.map_eq_some_iff.1 this
    exact ⟨c', hc', hd'.trans hd⟩

theorem l2Put_keeps {m : Mem} {a f i : Nat} {g : L2Tag} {new : List (Nat × L2Cell)} (hn : ∀ p ∈ new, p.1 ≠ i) (hi : i < 16) :
    (l2Cell m.l2 0 a f i = none → l2Cell (l2Put m a f g false none new).l2 0 a f i = none) ∧
    ∀ d, CellHeld m.l2 a f i d → CellHeld (l2Put m a f g false none new).l2 a f i d := by
  have hf : new.find? (fun p => p.1 == i) = none := List.find?_eq_none.2 fun p hp => by simpa using hn p hp
  have same : l2Cell (m.l2.filter fun b => b.isOf a f) 0 a f i = l2Cell m.l2 0 a f i := by
    unfold l2Cell
    rw [List.find?_filter]
    congr 2
    funext b
    unfold L2Block.isOf
    cases (b.die == a) <;> cases (b.frame == f) <;> simp
  constructor
  · intro h
    refine l2Cell_none fun b hb hh => ?_
    obtain ⟨c, h1, -⟩ := rebuild_holds (rebuilt_mem hb hh) hh.2.2.1 hh.2.2.2
    rw [hf] at h1
    dsimp only at h1
    unfold l2Held at h1
    rw [same, h] at h1
    cases h1
  · rintro d hd
    obtain ⟨c, hc, hcd⟩ := hd.cell 0
    have hexp : l2Expiry (m.l2.filter fun b => b.isOf a f) a f i = none := by
      unfold l2Expiry
      split
      · rename_i b hb
        have hp := List.find?_some hb
        simp only [Bool.and_eq_true, decide_eq_true_eq, L2Block.isOf, beq_iff_eq] at hp
        exact (hd.2 b (List.mem_filter.1 (List.mem_of_find?_eq_some hb)).1 ⟨hp.1.1.1, hp.1.1.2, hp.1.2, hp.2⟩).1
      · rfl
    have hval : (match new.find? fun p => p.1 == i with
        | some p => some (p.2, none)
        | none => l2Held (m.l2.filter fun b => b.isOf a f) a f i) = some (c, none) := by
      rw [hf]; dsimp only; unfold l2Held; rw [same, hc, hexp]; rfl
    refine ⟨?_, fun b hb hh => ?_⟩
    · obtain ⟨b, hb, hh⟩ := rebuild_has (old := m.l2.filter fun b => b.isOf a f) (die := a) (frame := f) (g := g) (st := false) (new := new.map Prod.fst)
        (f := fun i => match new.find? fun p => p.1 == i with
          | some p => some (p.2, none)
          | none => l2Held (m.l2.filter fun b => b.isOf a f) a f i) hi hval
      exact ⟨b, List.mem_append_left _ hb, hh⟩
    · obtain ⟨x, h1, h2⟩ := rebuild_holds (rebuilt_mem hb hh) hh.2.2.1 hh.2.2.2
      obtain ⟨rfl, he⟩ := Prod.mk.inj (Option.some.inj (hval.symm.trans h1))
      exact ⟨he.symm, c, h2, hcd⟩

theorem l2Put_new {m : Mem} {a f i : Nat} {g : L2Tag} {new : List (Nat × L2Cell)} {c : L2Cell} (hn : new.find? (fun p => p.1 == i) = some (i, c)) (hi : i < 16) :
    CellHeld (l2Put m a f g false none new).l2 a f i c.data := by
  refine ⟨?_, fun b hb hh => ?_⟩
  · obtain ⟨b, hb, hh⟩ := rebuild_has (old := m.l2.filter fun b => b.isOf a f) (die := a) (frame := f) (g := g) (st := false) (new := new.map Prod.fst)
      (f := fun i => match new.find? fun p => p.1 == i with
        | some p => some (p.2, none)
        | none => l2Held (m.l2.filter fun b => b.isOf a f) a f i) (x := (c, none)) hi (by rw [hn])
    exact ⟨b, List.mem_append_left _ hb, hh⟩
  · obtain ⟨x, h1, h2⟩ := rebuild_holds (rebuilt_mem hb hh) hh.2.2.1 hh.2.2.2
    rw [hn] at h1
    obtain ⟨rfl, he⟩ := Prod.mk.inj (Option.some.inj h1)
    exact ⟨he.symm, c, h2, rfl⟩

/-! ## The steps of a READ -/

theorem evictHome_rest (s : State) (v : HomeBlock) : (evictHome s v).mem.l2 = s.mem.l2 ∧ (evictHome s v).mem.txns = s.mem.txns ∧ (evictHome s v).mem.notices = s.mem.notices := by
  unfold evictHome llcPut
  dsimp only
  repeat' split
  all_goals exact ⟨rfl, rfl, rfl⟩

/-- The notices of a set made to fit are of its own die. -/
theorem trimSet_notices (die frame f : Nat) (s : State) : ∀ n ∈ (trimSet die frame f s).mem.notices, n ∈ s.mem.notices ∨ n.agent = die := by
  have loc : ∀ (s : State) (v : L2Block), lowestRank (fun b => policyRank b.policy) ((l2Set s.mem die frame).filter fun b => b.frame != frame) = some v →
      ∀ n ∈ (evictLocal s v).mem.notices, n ∈ s.mem.notices ∨ n.agent = die := by
    intro s v hv n hn
    rcases List.mem_append.1 hn with hn | hn
    · exact .inl hn
    · obtain ⟨g, -, rfl⟩ := List.mem_map.1 hn
      have hm := (List.mem_filter.1 (List.mem_filter.1 (lowestRank_mem hv)).1).2
      simp only [Bool.and_eq_true, beq_iff_eq] at hm
      exact .inr hm.1.1
  induction f generalizing s with
  | zero => exact fun n hn => .inl hn
  | succ f ih =>
    unfold trimSet
    dsimp only
    have hh : ∀ v n, n ∈ (trimSet die frame f (evictHome s v)).mem.notices → n ∈ s.mem.notices ∨ n.agent = die := fun v n hn => by
      rcases ih _ n hn with h | h
      · rw [(evictHome_rest s v).2.2] at h; exact .inl h
      · exact .inr h
    have hl : ∀ v, lowestRank (fun b => policyRank b.policy) ((l2Set s.mem die frame).filter fun b => b.frame != frame) = some v →
        ∀ n, n ∈ (trimSet die frame f (evictLocal s v)).mem.notices → n ∈ s.mem.notices ∨ n.agent = die := fun v hv n hn => by
      rcases ih _ n hn with h | h
      · exact loc s v hv n h
      · exact .inr h
    split
    · exact fun n hn => .inl hn
    · split
      · exact fun n hn => .inl hn
      · exact hh _
      · rename_i hv; exact hl _ hv
      · split
        · exact hh _
        · rename_i hv _; exact hl _ hv

/-- What a step of a READ of agent `a` does to the cell `i` of a frame and to what stands before it. -/
structure ReadStep (a f i : Nat) (s t : State) : Prop where
  side : HomeSide NoByte s t
  txns : t.mem.txns = s.mem.txns
  notices : ∀ n ∈ t.mem.notices, n.agent = a → n ∈ s.mem.notices
  cell : (l2Cell s.mem.l2 0 a f i = none → l2Cell t.mem.l2 0 a f i = none) ∧ ∀ d, CellHeld s.mem.l2 a f i d → CellHeld t.mem.l2 a f i d

theorem ReadStep.trans {a f i : Nat} {s t u : State} (h : ReadStep a f i s t) (k : ReadStep a f i t u) : ReadStep a f i s u :=
  ⟨h.side.trans k.side, k.txns.trans h.txns, fun n hn ha => h.notices n (k.notices n hn ha) ha, k.cell.1 ∘ h.cell.1, fun d hd => k.cell.2 d (h.cell.2 d hd)⟩

theorem homeRecall_step (s : State) (x : Option Nat) (off size a f i : Nat) : ReadStep a f i s (homeRecall s x off size) := by
  have hside := homeRecall_side s x off size
  have hg : (growRecall s.mem off size).txns = s.mem.txns ∧ (growRecall s.mem off size).notices = s.mem.notices ∧
      ((l2Cell s.mem.l2 0 a f i = none → l2Cell (growRecall s.mem off size).l2 0 a f i = none) ∧ ∀ d, CellHeld s.mem.l2 a f i d → CellHeld (growRecall s.mem off size).l2 a f i d) := by
    unfold growRecall
    dsimp only
    split
    · obtain ⟨b, l2, h⟩ := recallGrain_only s.mem (dirGrow s.mem.dir off size).grain (dirGrow s.mem.dir off size).size
      exact ⟨by rw [h], by rw [h], recallGrain_keeps _ _ _ _ _ _⟩
    · exact ⟨rfl, rfl, id, fun _ => id⟩
  refine ⟨hside, ?_, ?_, ?_⟩
  all_goals
    unfold homeRecall
    dsimp only
    split
  · obtain ⟨b, l2, h⟩ := recallGrain_only (growRecall s.mem off size) (dirGrow (growRecall s.mem off size).dir off size).grain (dirGrow (growRecall s.mem off size).dir off size).size
    dsimp only
    rw [h]
    exact hg.1
  · exact hg.1
  · obtain ⟨b, l2, h⟩ := recallGrain_only (growRecall s.mem off size) (dirGrow (growRecall s.mem off size).dir off size).grain (dirGrow (growRecall s.mem off size).dir off size).size
    dsimp only
    rw [h]
    exact fun n hn _ => by rw [← hg.2.1]; exact hn
  · exact fun n hn _ => by rw [← hg.2.1]; exact hn
  · have := recallGrain_keeps (growRecall s.mem off size) (dirGrow (growRecall s.mem off size).dir off size).grain (dirGrow (growRecall s.mem off size).dir off size).size a f i
    exact ⟨this.1 ∘ hg.2.2.1, fun d hd => this.2 d (hg.2.2.2 d hd)⟩
  · exact hg.2.2

theorem homeAlloc_step (s : State) (frame : Nat) (cs : List Nat) (w wh : Bool) (pol wayp a f i : Nat) (hf : frame = f) (ha : homeDie (512 * frame) ≠ a) :
    ReadStep a f i s (homeAlloc s frame cs w wh pol wayp) := by
  subst hf
  have hside := homeAlloc_side s frame cs w wh pol wayp
  have key : ∀ m : Mem, m.l2 = s.mem.l2 → m.txns = s.mem.txns → m.notices = s.mem.notices →
      let t := trimL2 { s with mem := m } (homeDie (512 * frame)) frame
      t.mem.txns = s.mem.txns ∧ (∀ n ∈ t.mem.notices, n.agent = a → n ∈ s.mem.notices) ∧ (t.mem.l2.filter fun b => b.frame == frame) = s.mem.l2.filter fun b => b.frame == frame := by
    intro m h1 h2 h3
    refine ⟨(trimL2_txns _ _ _).1.trans h2, fun n hn hna => ?_, (trimSet_frame _ _ _ _).trans (by rw [h1])⟩
    rcases trimSet_notices _ _ _ _ n hn with h | h
    · rw [← h3]; exact h
    · exact absurd (h.symm.trans hna) ha
  have fin : ∀ t : State, HomeSide NoByte s t → t.mem.txns = s.mem.txns → (∀ n ∈ t.mem.notices, n.agent = a → n ∈ s.mem.notices) →
      ((t.mem.l2.filter fun b => b.frame == frame) = s.mem.l2.filter fun b => b.frame == frame) → ReadStep a frame i s t := fun t h1 h2 h3 h4 =>
    ⟨h1, h2, h3, by rw [l2Cell_frame, l2Cell_frame t.mem.l2, h4]; exact id, fun d h => cellHeld_frame.1 (by rw [h4]; exact cellHeld_frame.2 h)⟩
  have llc : ∀ (x y : BitVec 16), (llcPut s.mem frame wayp pol x y).l2 = s.mem.l2 ∧ (llcPut s.mem frame wayp pol x y).txns = s.mem.txns ∧ (llcPut s.mem frame wayp pol x y).notices = s.mem.notices := by
    intro x y
    unfold llcPut
    dsimp only
    repeat' split
    all_goals exact ⟨rfl, rfl, rfl⟩
  have hif : ∀ (b : Bool) (x y : BitVec 16), (if b = true then s.mem else llcPut s.mem frame wayp pol x y).l2 = s.mem.l2 ∧
      (if b = true then s.mem else llcPut s.mem frame wayp pol x y).txns = s.mem.txns ∧ (if b = true then s.mem else llcPut s.mem frame wayp pol x y).notices = s.mem.notices := by
    intro b x y
    split
    · exact ⟨rfl, rfl, rfl⟩
    · exact llc x y
  unfold homeAlloc at hside ⊢
  split
  · rename_i hp
    rw [if_pos hp] at hside
    split
    · rename_i hw
      rw [if_pos hw] at hside
      exact fin _ hside rfl (fun n hn _ => hn) rfl
    · rename_i hw
      rw [if_neg hw] at hside
      exact fin _ hside rfl (fun n hn _ => hn) rfl
  · rename_i hp
    rw [if_neg hp] at hside
    dsimp only at hside ⊢
    generalize hb : (List.isEmpty _ || w && wh) = bb at hside ⊢
    generalize cellMask _ = x at hside ⊢
    have h := hif bb x 0
    generalize (if bb = true then s.mem else llcPut s.mem frame wayp pol x 0) = m at hside h ⊢
    have k := fun hb => key { m with homeBlocks := hb } h.1 h.2.1 h.2.2
    exact fin _ hside (k _).1 (k _).2.1 (k _).2.2

theorem find_mapped {L : List Nat} {F : Nat → L2Cell} {i : Nat} (h : i ∈ L) : (L.map fun j => (j, F j)).find? (fun p => p.1 == i) = some (i, F i) := by
  induction L with
  | nil => cases h
  | cons x L ih =>
    rw [List.map_cons, List.find?_cons]
    by_cases hx : x = i
    · subst hx; simp
    · rw [show ((x, F x).1 == i) = false by simpa using hx]
      exact ih ((List.mem_cons.1 h).resolve_left (Ne.symm hx))

/-- The state of cell `i` between the steps of a READ: not held, or held with the bytes of the home. -/
def CellState (s t : State) (a f i : Nat) : Prop :=
  l2Cell t.mem.l2 0 a f i = none ∨ ∃ d, CellHeld t.mem.l2 a f i d ∧ ((∀ j < 32, HomeAlone s.mem (512 * f + 32 * i + j)) → d = coCell s.mem (16 * f + i))

theorem coCell_keep {s t : State} (h : HomeSide NoByte s t) (hg : GrainsOk s.mem.dir) {f i : Nat} (ha : ∀ j < 32, HomeAlone s.mem (512 * f + 32 * i + j)) :
    coCell t.mem (16 * f + i) = coCell s.mem (16 * f + i) := by
  have hb : ∀ j < 32, homeByte t (512 * f + 32 * i + j) = homeByte s (512 * f + 32 * i + j) := fun j hj => (h.byte hg (fun h => h) (ha j hj)).2
  unfold coCell coNat
  congr 2
  unfold coRead
  refine List.map_congr_left fun j hj => ?_
  rw [show 32 * (16 * f + i) + j = 512 * f + 32 * i + j by omega]
  exact hb j (List.mem_range.1 hj)

/-- One grain read by agent `a`. -/
theorem readGrain_step {s0 s : State} {a f i : Nat} {g : L2Tag} {wayp off size : Nat} (hside : HomeSide NoByte s0 s) (hg : GrainsOk s0.mem.dir)
    (hf : frameOf off = f) (ha : homeDie off ≠ a) (hi : i < 16) (h : CellState s0 s a f i) :
    let t := readGrain s a g wayp off size
    HomeSide NoByte s t ∧ t.mem.txns = s.mem.txns ∧ (∀ n ∈ t.mem.notices, n.agent = a → n ∈ s.mem.notices) ∧ CellState s0 t a f i ∧
      (cellIn off = i ∨ l2Cell s.mem.l2 0 a f i ≠ none → l2Cell t.mem.l2 0 a f i ≠ none) := by
  subst hf
  have hd : homeDie (512 * frameOf off) ≠ a := by
    unfold homeDie frameOf at *
    unfold dieBytes at *
    omega
  have h1 := homeRecall_step s (some a) off size a (frameOf off) i
  have hgr : GrainsOk (homeRecall s (some a) off size).mem.dir := h1.side.mem.grains (hside.mem.grains hg)
  have hsg := readGrain_side s a g wayp off size
  obtain ⟨e1, e2, e3, e4⟩ := dirGrow_spec hgr off size
  have hmem := (grainCells_mem e1 e2 e3 e4).2
  unfold readGrain at hsg ⊢
  dsimp only at hsg ⊢
  generalize hs1 : homeRecall s (some a) off size = s1 at *
  generalize he : dirGrow s1.mem.dir off size = e at *
  have h2 := homeAlloc_step s1 (frameOf off) ((grainCells e.grain e.size).filter fun i => (l2Cell s1.mem.l2 0 a (frameOf off) i).isNone) false false g.policy wayp a (frameOf off) i rfl hd
  generalize homeAlloc s1 (frameOf off) ((grainCells e.grain e.size).filter fun i => (l2Cell s1.mem.l2 0 a (frameOf off) i).isNone) false false g.policy wayp = s2 at *
  have h12 := h1.trans h2
  refine ⟨hsg, h12.txns, h12.notices, ?_⟩
  by_cases hn : i ∈ (grainCells e.grain e.size).filter fun i => (l2Cell s1.mem.l2 0 a (frameOf off) i).isNone
  · have held := l2Put_new (m := s2.mem) (a := a) (f := frameOf off) (g := g) (find_mapped (F := fun i => (⟨coCell s2.mem (16 * frameOf off + i), false⟩ : L2Cell)) hn) hi
    refine ⟨.inr ⟨_, held, fun hal => coCell_keep (hside.trans h12.side) hg hal⟩, fun _ hnone => ?_⟩
    obtain ⟨c, hc, -⟩ := held.cell 0
    rw [show l2Cell _ 0 a (frameOf off) i = some c from hc] at hnone
    cases hnone
  · have keep := l2Put_keeps (m := s2.mem) (a := a) (f := frameOf off) (g := g) (i := i)
      (new := ((grainCells e.grain e.size).filter fun i => (l2Cell s1.mem.l2 0 a (frameOf off) i).isNone).map fun i => (i, (⟨coCell s2.mem (16 * frameOf off + i), false⟩ : L2Cell)))
      (fun p hp => by
        obtain ⟨j, hj, rfl⟩ := List.mem_map.1 hp
        rintro rfl
        exact hn hj) hi
    constructor
    · rcases h with h | ⟨d, hd, hx⟩
      · exact .inl (keep.1 (h12.cell.1 h))
      · exact .inr ⟨d, keep.2 d (h12.cell.2 d hd), hx⟩
    · intro hci hnone
      rcases hci.symm with hci | hci
      · rcases h with h | ⟨d, hd, hx⟩
        · exact hci h
        · obtain ⟨c, hc, -⟩ := (keep.2 d (h12.cell.2 d hd)).cell 0
          rw [show l2Cell _ 0 a (frameOf off) i = some c from hc] at hnone
          cases hnone
      have hex : (l2Cell s1.mem.l2 0 a (frameOf off) i).isNone = false := by
        rw [List.mem_filter] at hn
        by_contra hcon
        exact hn ⟨hci ▸ hmem, by simpa using hcon⟩
      rcases h with h | ⟨d, hd, hx⟩
      · rw [h1.cell.1 h] at hex; cases hex
      · obtain ⟨c, hc, -⟩ := (keep.2 d (h12.cell.2 d hd)).cell 0
        rw [show l2Cell _ 0 a (frameOf off) i = some c from hc] at hnone
        cases hnone

theorem wanted_has (span bf af c lo hi i : Nat) (h1 : lo ≤ i) (h2 : i ≤ hi) (h3 : i < 16) : (wanted span bf af c lo hi).1 ≤ i ∧ i ≤ (wanted span bf af c lo hi).2 := by
  unfold wanted
  dsimp only
  split <;> (dsimp only; constructor <;> repeat' split) <;> omega

theorem foldl_min_le (L : List Nat) (i : Nat) (h : i ∈ L) : L.foldl (fun a b => if b < a then b else a) 15 ≤ i ∧ i ≤ L.foldl (fun a b => if a < b then b else a) 0 := by
  have lo : ∀ (L : List Nat) (a : Nat), (L.foldl (fun a b => if b < a then b else a) a ≤ a) ∧ ∀ x ∈ L, L.foldl (fun a b => if b < a then b else a) a ≤ x := by
    intro L
    induction L with
    | nil => exact fun a => ⟨Nat.le_refl _, fun x hx => by cases hx⟩
    | cons y L ih =>
      intro a
      rw [List.foldl_cons]
      obtain ⟨k1, k2⟩ := ih (if y < a then y else a)
      refine ⟨k1.trans (by split <;> omega), fun x hx => ?_⟩
      rcases List.mem_cons.1 hx with rfl | hx
      · exact k1.trans (by split <;> omega)
      · exact k2 x hx
  have hi : ∀ (L : List Nat) (a : Nat), (a ≤ L.foldl (fun a b => if a < b then b else a) a) ∧ ∀ x ∈ L, x ≤ L.foldl (fun a b => if a < b then b else a) a := by
    intro L
    induction L with
    | nil => exact fun a => ⟨Nat.le_refl _, fun x hx => by cases hx⟩
    | cons y L ih =>
      intro a
      rw [List.foldl_cons]
      obtain ⟨k1, k2⟩ := ih (if a < y then y else a)
      refine ⟨Nat.le_trans (by split <;> omega) k1, fun x hx => ?_⟩
      rcases List.mem_cons.1 hx with rfl | hx
      · exact Nat.le_trans (by split <;> omega) k1
      · exact k2 x hx
  exact ⟨(lo L 15).2 i h, (hi L 0).2 i h⟩

/-- A range read by agent `a`, of which a cell is free to be read. -/
theorem readRange_cell {s : State} {a f i : Nat} {g : L2Tag} {wayp size : Nat} {w : Nat × Nat} (hg : GrainsOk s.mem.dir) (ha : homeDie (512 * f) ≠ a) (hi : i < 16)
    (hw : w.1 ≤ i ∧ i ≤ w.2) (hs : size = 32 ∨ size = 128 ∨ size = 512) (hn : l2Cell s.mem.l2 0 a f i = none)
    (hb : txnBusy s.mem (512 * f + 32 * i) = false) (hno : noticeAhead s.mem a (512 * f + 32 * i) = false) :
    ∃ c, l2Cell (readRange s a g wayp f size w).mem.l2 0 a f i = some c ∧
      ((∀ j < 32, HomeAlone s.mem (512 * f + 32 * i + j)) → c.data = coCell s.mem (16 * f + i)) := by
  unfold readRange
  dsimp only
  rw [trimL2_cell]
  have hr : (roundOut w size).1 ≤ i ∧ i ≤ (roundOut w size).2 := by
    unfold roundOut
    rcases hs with rfl | rfl | rfl <;> dsimp only <;> omega
  have hmem : i ∈ (List.range 16).filter fun i => decide ((roundOut w size).1 ≤ i) && decide (i ≤ (roundOut w size).2) :=
    List.mem_filter.2 ⟨List.mem_range.2 hi, by simp [hr]⟩
  have hlt : ∀ j ∈ (List.range 16).filter (fun i => decide ((roundOut w size).1 ≤ i) && decide (i ≤ (roundOut w size).2)), j < 16 := fun j hj => List.mem_range.1 (List.mem_filter.1 hj).1
  generalize (List.range 16).filter (fun i => decide ((roundOut w size).1 ≤ i) && decide (i ≤ (roundOut w size).2)) = L at *
  have key : ∀ (L : List Nat) (t : State), (∀ j ∈ L, j < 16) → HomeSide NoByte s t → t.mem.txns = s.mem.txns → (∀ n ∈ t.mem.notices, n.agent = a → n ∈ s.mem.notices) → CellState s t a f i →
      let u := L.foldl (fun s i =>
        if txnBusy s.mem (512 * f + 32 * i) || noticeAhead s.mem a (512 * f + 32 * i) || (l2Cell s.mem.l2 0 a f i).isSome then s
        else readGrain s a g wayp (512 * f + 32 * i) size) t
      CellState s u a f i ∧ (i ∈ L ∨ l2Cell t.mem.l2 0 a f i ≠ none → l2Cell u.mem.l2 0 a f i ≠ none) := by
    intro L
    induction L with
    | nil => exact fun t _ _ _ _ h => ⟨h, fun h => h.resolve_left (by simp)⟩
    | cons x L ih =>
      intro t hx h1 h2 h3 h4
      rw [List.foldl_cons]
      have hfx : frameOf (512 * f + 32 * x) = f := by have := hx x List.mem_cons_self; unfold frameOf; omega
      have hdx : homeDie (512 * f + 32 * x) ≠ a := by
        have := hx x List.mem_cons_self
        unfold homeDie dieBytes at *
        omega
      split
      · rename_i hc
        obtain ⟨k1, k2⟩ := ih t (fun j hj => hx j (List.mem_cons_of_mem _ hj)) h1 h2 h3 h4
        refine ⟨k1, fun h => k2 ?_⟩
        rcases h with h | h
        · rcases List.mem_cons.1 h with rfl | h
          · right
            have b1 : txnBusy t.mem (512 * f + 32 * i) = false := by unfold txnBusy at hb ⊢; rw [h2]; exact hb
            have b2 : noticeAhead t.mem a (512 * f + 32 * i) = false := by
              unfold noticeAhead at hno ⊢
              rw [List.any_eq_false] at hno ⊢
              intro n hn hcon
              simp only [Bool.and_eq_true, beq_iff_eq] at hcon
              exact hno n (h3 n hn hcon.1.1) (by simpa using hcon)
            rw [b1, b2] at hc
            simp only [Bool.or_self, Bool.false_or] at hc
            intro hnone
            rw [hnone] at hc; cases hc
          · exact .inl h
        · exact .inr h
      · obtain ⟨k1, k2, k3, k4, k5⟩ := readGrain_step (g := g) (wayp := wayp) (size := size) h1 hg hfx hdx hi h4
        obtain ⟨m1, m2⟩ := ih _ (fun j hj => hx j (List.mem_cons_of_mem _ hj)) (h1.trans k1) (k2.trans h2) (fun n hn hna => h3 n (k3 n hn hna) hna) k4
        refine ⟨m1, fun h => m2 ?_⟩
        rename_i hc
        rcases h with h | h
        · rcases List.mem_cons.1 h with rfl | h
          · exact .inr (k5 (.inl (by unfold cellIn; omega)))
          · exact .inl h
        · exact .inr (k5 (.inr h))
  obtain ⟨k1, k2⟩ := key L s hlt (.refl _ s) rfl (fun n hn _ => hn) (.inl hn)
  have k3 := k2 (.inl hmem)
  rcases k1 with k1 | ⟨d, hd, hx⟩
  · exact absurd k1 k3
  · obtain ⟨c, hc, hcd⟩ := hd.cell 0
    exact ⟨c, hc, fun h => hcd.trans (hx h)⟩

/-! ## The bytes of the home -/

theorem homePut_byte {m : Mem} {off : Nat} {bs : List Byte} (j : Nat) (hj : j < bs.length) : memByte (homePut m off bs) (off + j) = bs.getD j 0 := by
  unfold homePut
  rw [memByte_memPut, if_pos (by omega)]
  congr 1
  omega

theorem memByte_same {m m' : Mem} (h1 : m'.bytes = m.bytes) (h2 : m'.keys = m.keys) (a : Nat) : memByte m' a = memByte m a := by
  unfold memByte keyByte; rw [h1, h2]

theorem trimSet_bytes (die frame f : Nat) (s : State) : (trimSet die frame f s).mem.bytes = s.mem.bytes ∧ (trimSet die frame f s).mem.keys = s.mem.keys := by
  have hh : ∀ (s : State) v, (evictHome s v).mem.bytes = s.mem.bytes ∧ (evictHome s v).mem.keys = s.mem.keys := by
    intro s v
    unfold evictHome llcPut
    dsimp only
    repeat' split
    all_goals exact ⟨rfl, rfl⟩
  induction f generalizing s with
  | zero => exact ⟨rfl, rfl⟩
  | succ f ih =>
    unfold trimSet
    dsimp only
    split
    · exact ⟨rfl, rfl⟩
    · split
      · exact ⟨rfl, rfl⟩
      · exact ⟨(ih _).1.trans (hh _ _).1, (ih _).2.trans (hh _ _).2⟩
      · exact ih _
      · split
        · exact ⟨(ih _).1.trans (hh _ _).1, (ih _).2.trans (hh _ _).2⟩
        · exact ih _

theorem homeAlloc_bytes (s : State) (frame : Nat) (cs : List Nat) (w wh : Bool) (pol wayp : Nat) :
    (homeAlloc s frame cs w wh pol wayp).mem.bytes = s.mem.bytes ∧ (homeAlloc s frame cs w wh pol wayp).mem.keys = s.mem.keys := by
  unfold homeAlloc
  split
  · split <;> exact ⟨rfl, rfl⟩
  · dsimp only
    have hif : ∀ (b : Bool) (x y : BitVec 16), (if b = true then s.mem else llcPut s.mem frame wayp pol x y).bytes = s.mem.bytes ∧
      (if b = true then s.mem else llcPut s.mem frame wayp pol x y).keys = s.mem.keys := by
      intro b x y
      unfold llcPut
      dsimp only
      repeat' split
      all_goals exact ⟨rfl, rfl⟩
    unfold trimL2
    obtain ⟨h1, h2⟩ := trimSet_bytes (homeDie (512 * frame)) frame 64 { s with mem := { (if ((List.filter (fun i => (homeHolds s.mem.homeBlocks frame i).isNone) cs).isEmpty || w && wh) = true then s.mem
      else llcPut s.mem frame wayp pol (cellMask (List.filter (fun i => (homeHolds s.mem.homeBlocks frame i).isNone) cs)) 0) with homeBlocks := _ } }
    exact ⟨h1.trans (hif _ _ _).1, h2.trans (hif _ _ _).2⟩

theorem homeWriteCell_put (s : State) (w : Writer) (leaf off : Nat) (bs : List Byte) (j : Nat) (hj : j < bs.length) :
    memByte (homeWriteCell s w leaf off bs).mem (off + j) = bs.getD j 0 := by
  unfold homeWriteCell
  dsimp only
  split
  · rw [memByte_same (homeAlloc_bytes _ _ _ _ _ _ _).1 (homeAlloc_bytes _ _ _ _ _ _ _).2]
    exact homePut_byte j hj
  · split
    · exact (memByte_same (homeAlloc_bytes _ _ _ _ _ _ _).1 (homeAlloc_bytes _ _ _ _ _ _ _).2 _).trans (homePut_byte j hj)
    · exact (memByte_same (homeAlloc_bytes _ _ _ _ _ _ _).1 (homeAlloc_bytes _ _ _ _ _ _ _).2 _).trans (homePut_byte j hj)

/-! ## Recalls, fills and answers -/

theorem overlayStores_ops {m m' : Mem} (h : m'.ops = m.ops) (o : MemOp) (a : Bool) (pa : Nat) (c : BitVec 256) : overlayStores m' o a pa c = overlayStores m o a pa c := by
  unfold overlayStores; rw [h]

theorem homeRecall_l1 (s : State) (a : Option Nat) (off size : Nat) : (homeRecall s a off size).mem.l1 = s.mem.l1 ∧ (homeRecall s a off size).mem.host = s.mem.host := by
  have hg : (growRecall s.mem off size).l1 = s.mem.l1 ∧ (growRecall s.mem off size).host = s.mem.host := by
    unfold growRecall
    dsimp only
    split
    · obtain ⟨b, l2, h⟩ := recallGrain_only s.mem (dirGrow s.mem.dir off size).grain (dirGrow s.mem.dir off size).size
      rw [h]; exact ⟨rfl, rfl⟩
    · exact ⟨rfl, rfl⟩
  unfold homeRecall
  dsimp only
  split
  · obtain ⟨b, l2, h⟩ := recallGrain_only (growRecall s.mem off size) (dirGrow (growRecall s.mem off size).dir off size).grain (dirGrow (growRecall s.mem off size).dir off size).size
    dsimp only
    rw [h]
    exact hg
  · exact hg

/-- What the recalls before a fill change. -/
structure Recalled (s t : State) : Prop where
  side : HomeSide NoByte s t
  txns : t.mem.txns = s.mem.txns
  l1 : t.mem.l1 = s.mem.l1

theorem recalled_fold (s : State) (L : List Nat) (f : Nat → Nat) : Recalled s (L.foldl (fun s i => homeRecall s none (f i) 32) s) :=
  List.foldlRecOn (motive := fun t : State => Recalled s t) L _ ⟨.refl _ s, rfl, rfl⟩ fun t ht x _ =>
    ⟨ht.side.trans (homeRecall_side t none (f x) 32), (homeRecall_step t none (f x) 32 0 0 0).txns.trans ht.txns, (homeRecall_l1 t none (f x) 32).1.trans ht.l1⟩

theorem paFrame_same {pa pb : Nat} (h : paFrame pa = paFrame pb) (own : Nat) : paLocal own pa = paLocal own pb ∧ paHost own pa = paHost own pb := by
  have hd : paDev pa = paDev pb := by unfold paDev paFrame at *; omega
  have h1 : paOff pa < devTop ↔ paOff pb < devTop := by unfold paOff paFrame devTop at *; omega
  have h2 : hostBase ≤ paOff pa ↔ hostBase ≤ paOff pb := by unfold paOff paFrame hostBase at *; omega
  unfold paLocal paHost
  rw [hd]
  exact ⟨by rw [decide_eq_decide.2 h1], by rw [decide_eq_decide.2 h2]⟩

theorem fillFrame_ops (s : State) (o : MemOp) (p0 : MemPart) (frame : Nat) (below : Nat → Option (BitVec 256)) :
    (fillFrame s o p0 frame below).mem.ops = s.mem.ops.map fun q =>
      if q.issue == o.issue && isLoad q then { q with parts := q.parts.map (fillPart s q frame below) } else q := by
  unfold fillFrame
  dsimp only
  rw [raiseClock_ops]
  have touch : ∀ (cs : List Nat) (m : Mem), (cs.foldl (fun m i => l1Touch m o.core frame i) m).ops = m.ops := by
    intro cs m
    exact List.foldlRecOn (motive := fun x : Mem => x.ops = m.ops) cs _ rfl fun x hx _ _ => hx
  have put : ∀ (m : Mem) (pc : VAddr) (c pol : Nat) (new : List (Nat × BitVec 256)), (l1Put m o.core frame pc c pol new).ops = m.ops := by
    intro m pc c pol new
    obtain ⟨l1, pr, h⟩ := l1Put_only m o.core frame pc c pol new
    rw [h]
  have home : ∀ (t : State) (b : Bool) (f : Nat) (cs : List Nat) (x y : Nat), (if b = true then homeAlloc t f cs false false x y else t).mem.ops = t.mem.ops := by
    intro t b f cs x y
    split
    · exact (homeAlloc_side _ _ _ _ _ _ _).mem.ops
    · rfl
  have ite2 : ∀ (c : Bool) (a b : Mem) (x : List MemOp), a.ops = x → b.ops = x → (if c = true then a else b).ops = x := by
    intro c a b x h1 h2; split <;> assumption
  exact ite2 _ _ _ _ (home _ _ _ _ _ _) ((touch _ _).trans ((put _ _ _ _ _).trans (home _ _ _ _ _ _)))

theorem fillFrame_side (s : State) (o : MemOp) (p0 : MemPart) (frame : Nat) (below : Nat → Option (BitVec 256)) :
    let t := fillFrame s o p0 frame below
    t.ctl = s.ctl ∧ t.sys = s.sys ∧ t.exe.gangs = s.exe.gangs ∧ HomeKeeps s t ∧ t.mem.bytes = s.mem.bytes := by
  have ite2 : ∀ {α : Type} (c : Bool) (a b : State) (f : State → α) (x : α), f a = x → f b = x → f (if c = true then a else b) = x := by
    intro α c a b f x h1 h2; split <;> assumption
  have mem : ∀ (m : Mem) (cs : List Nat) (core home : Nat) (pc : VAddr) (c pol : Nat) (new : List (Nat × BitVec 256)) (b : Bool),
      (raiseClock (if b = true then m else cs.foldl (fun m i => l1Touch m core frame i) (l1Put m core frame pc c pol new)) core home).bytes = m.bytes ∧
      (raiseClock (if b = true then m else cs.foldl (fun m i => l1Touch m core frame i) (l1Put m core frame pc c pol new)) core home).keys = m.keys := by
    intro m cs core home pc c pol new b
    have h1 : ∀ (m : Mem), (raiseClock m core home).bytes = m.bytes ∧ (raiseClock m core home).keys = m.keys := fun m => by unfold raiseClock; split <;> exact ⟨rfl, rfl⟩
    obtain ⟨l1, pr, h2⟩ := l1Put_only m core frame pc c pol new
    have h3 : ∀ (m : Mem), (cs.foldl (fun m i => l1Touch m core frame i) m).bytes = m.bytes ∧ (cs.foldl (fun m i => l1Touch m core frame i) m).keys = m.keys := fun m =>
      List.foldlRecOn (motive := fun x : Mem => x.bytes = m.bytes ∧ x.keys = m.keys) cs _ ⟨rfl, rfl⟩ fun x hx _ _ => hx
    rw [(h1 _).1, (h1 _).2]
    split
    · exact ⟨rfl, rfl⟩
    · rw [(h3 _).1, (h3 _).2, h2]; exact ⟨rfl, rfl⟩
  unfold fillFrame
  dsimp only
  have hb := fun (t : State) (b : Bool) (f : Nat) (cs : List Nat) (x y : Nat) =>
    (ite2 b (homeAlloc t f cs false false x y) t (fun u => u.mem.bytes) t.mem.bytes (homeAlloc_bytes _ _ _ _ _ _ _).1 rfl)
  have hk := fun (t : State) (b : Bool) (f : Nat) (cs : List Nat) (x y : Nat) =>
    (ite2 b (homeAlloc t f cs false false x y) t (fun u => u.mem.keys) t.mem.keys (homeAlloc_bytes _ _ _ _ _ _ _).2 rfl)
  refine ⟨?_, ?_, ?_, fun _ off _ => memByte_same ((mem _ _ _ _ _ _ _ _ _).1.trans (hb _ _ _ _ _ _)) ((mem _ _ _ _ _ _ _ _ _).2.trans (hk _ _ _ _ _ _)) _, (mem _ _ _ _ _ _ _ _ _).1.trans (hb _ _ _ _ _ _)⟩
  · exact ite2 _ _ _ (fun u => u.ctl) _ (homeAlloc_side _ _ _ _ _ _ _).ctl rfl
  · exact ite2 _ _ _ (fun u => u.sys) _ (homeAlloc_side _ _ _ _ _ _ _).sys rfl
  · exact ite2 _ _ _ (fun u => u.exe.gangs) _ (by rw [(homeAlloc_side _ _ _ _ _ _ _).exe]) rfl

theorem fillFrame_part {s s1 : State} {op k : Nat} {o : MemOp} {p0 p : MemPart} {frame : Nat} {below : Nat → Option (BitVec 256)} {P : MemPart → Prop}
    (hops : s1.mem.ops = s.mem.ops) (ho : findOp s.mem op = some o) (hl : isLoad o = true) (hp : o.parts[k]? = some p) (h : P (fillPart s1 o frame below p)) :
    PartNow (fillFrame s1 o p0 frame below).mem op k P := by
  refine PartNow.map (m := s.mem) (P := fun q => q = p) _ ((fillFrame_ops s1 o p0 frame below).trans (by rw [hops])) (fun q => by split <;> rfl) ⟨o, p, ho, hp, rfl⟩ fun o' p' ho' hp' he => ?_
  rw [ho] at ho'; cases ho'
  subst he
  rw [if_pos (by simp [hl])]
  exact ⟨_, by show (o.parts.map _)[k]? = _; rw [List.getElem?_map, hp']; rfl, h⟩

theorem growRecall_txns (m : Mem) (off size : Nat) : (growRecall m off size).txns = m.txns ∧ (growRecall m off size).notices = m.notices := by
  unfold growRecall
  dsimp only
  split
  · obtain ⟨b, l2, h⟩ := recallGrain_only m (dirGrow m.dir off size).grain (dirGrow m.dir off size).size
    rw [h]; exact ⟨rfl, rfl⟩
  · exact ⟨rfl, rfl⟩

theorem dropAbove_txns (s : State) (d f t : Nat) : (dropAbove s d f t).mem.txns = s.mem.txns := by
  unfold dropAbove
  repeat' split
  all_goals rfl

theorem l2Remove_txns (m : Mem) (d f : Nat) (cs : List Nat) : (l2Remove m d f cs).txns = m.txns := by
  unfold l2Remove; dsimp only; split <;> rfl

theorem mergeBytes_bytes (m : Mem) (t : Option Txn) (bs : List (Nat × Byte)) : ∃ b, mergeBytes m t bs = { m with bytes := b } := by
  have hf : ∀ (m : Mem) (p : Nat × Byte), (match t with
      | some t => if t.own == none && decide (t.wpa ≤ p.1) && decide (p.1 < t.wpa + t.wlen) then m else memSet m p.1 p.2
      | none => memSet m p.1 p.2) = m ∨ (match t with
      | some t => if t.own == none && decide (t.wpa ≤ p.1) && decide (p.1 < t.wpa + t.wlen) then m else memSet m p.1 p.2
      | none => memSet m p.1 p.2) = memSet m p.1 p.2 := fun m p => by
    cases t with
    | none => exact .inr rfl
    | some t => dsimp only; split; exacts [.inl rfl, .inr rfl]
  exact merge_only _ hf m

theorem countAck_gone {s : State} {txn a : Nat} {x : Txn} (h : findTxn s.mem txn = some x) : ∀ y, findTxn (countAck s x a).mem txn = some y → a ∉ y.outstanding := by
  have hid := findTxn_id h
  intro y hy
  unfold countAck at hy
  dsimp only at hy
  obtain ⟨b, hb⟩ := mergeBytes_bytes s.mem (some x) (((x.acks.find? fun z => z.1 == a).map fun z => z.2.2).getD [])
  rw [hb] at hy
  split at hy
  · have := (txnDone_spec { s with mem := { { s.mem with bytes := b } with txns := modIf s.mem.txns (fun z => z.id == x.id) fun _ => { x with outstanding := x.outstanding.filter fun z => z != a, acks := x.acks.filter fun z => z.1 != a } } }
      { x with outstanding := x.outstanding.filter fun z => z != a, acks := x.acks.filter fun z => z.1 != a }).2.2.1
    unfold findTxn at hy
    rw [this] at hy
    have h1 := List.find?_some hy
    have h2 := (List.mem_filter.1 (List.mem_of_find?_eq_some hy)).2
    simp only [bne_iff_ne, ne_eq, beq_iff_eq] at h1 h2
    exact absurd (h1.trans hid.symm) h2
  · have := findTxn_modIf (m' := { { s.mem with bytes := b } with txns := modIf s.mem.txns (fun z => z.id == x.id) fun _ => { x with outstanding := x.outstanding.filter fun z => z != a, acks := x.acks.filter fun z => z.1 != a } }) h (fun _ => { x with outstanding := x.outstanding.filter fun z => z != a, acks := x.acks.filter fun z => z.1 != a }) (fun _ _ => hid) (by rw [hid])
    rw [show findTxn _ txn = some _ from this] at hy
    cases hy
    simp

theorem paLocal_not_peer {s : State} {pa : Nat} (h : paLocal (ownDev s.sys) pa = true) : peerGone s pa = false ∧ paPeer s pa = false := by
  unfold peerGone paPeer
  rw [h]
  exact ⟨rfl, rfl⟩

theorem gotPart_now {m : Mem} {op i : Nat} {o : MemOp} {p : MemPart} (bs : List Byte) (a : Bool) (ho : findOp m op = some o) (hp : o.parts[i]? = some p) :
    PartNow (gotPart m op i bs a) op i fun q => q.performed = true ∧ q.got = some bs := by
  refine PartNow.map (m := m) (P := fun q => q = p) (fun q => if q.id == op then setPart q i fun r => { r with got := some bs, performed := true, acked := r.acked || a } else q) rfl
    (fun q => by split <;> rfl) ⟨o, p, ho, hp, rfl⟩ fun o' p' ho' hp' he => ?_
  rw [ho] at ho'; cases ho'
  rw [if_pos (by rw [findOp_id ho]; simp)]
  refine ⟨{ p' with got := some bs, performed := true, acked := p'.acked || a }, ?_, rfl, rfl⟩
  show (modAt o.parts i _)[i]? = _
  rw [modAt_get, if_pos rfl, hp']
  rfl

end Sys2Proof.Machine
end

