-- ==== Sys2Proof/Laws/Updates.lean ====
section
/-! SUPPORT. Laws/Updates.lean: the named updates of the state, one lemma for each field. -/

namespace Sys2Proof.Machine

/-! ### setGang -/

@[simp] theorem setGang_exe_cur (s : State) (gi : Nat) (g : Gang) : (setGang s gi g).exe.cur = s.exe.cur := rfl
@[simp] theorem setGang_exe_curTile (s : State) (gi : Nat) (g : Gang) : (setGang s gi g).exe.curTile = s.exe.curTile := rfl
@[simp] theorem setGang_exe_agenda (s : State) (gi : Nat) (g : Gang) : (setGang s gi g).exe.agenda = s.exe.agenda := rfl
@[simp] theorem setGang_exe_fresh (s : State) (gi : Nat) (g : Gang) : (setGang s gi g).exe.fresh = s.exe.fresh := rfl
@[simp] theorem setGang_exe_nextId (s : State) (gi : Nat) (g : Gang) : (setGang s gi g).exe.nextId = s.exe.nextId := rfl
@[simp] theorem setGang_exe_lastGang (s : State) (gi : Nat) (g : Gang) : (setGang s gi g).exe.lastGang = s.exe.lastGang := rfl

/-! ### idle -/

@[simp] theorem idle_exe_curTile (s : State) : (idle s).exe.curTile = s.exe.curTile := rfl
@[simp] theorem idle_exe_agenda (s : State) : (idle s).exe.agenda = s.exe.agenda := rfl
@[simp] theorem idle_exe_fresh (s : State) : (idle s).exe.fresh = s.exe.fresh := rfl
@[simp] theorem idle_exe_nextId (s : State) : (idle s).exe.nextId = s.exe.nextId := rfl
@[simp] theorem idle_exe_lastGang (s : State) : (idle s).exe.lastGang = s.exe.lastGang := rfl

/-! ### addFault -/

@[simp] theorem addFault_ctl_ctxs (s : State) (r : FaultRec) : (addFault s r).ctl.ctxs = s.ctl.ctxs := rfl
@[simp] theorem addFault_ctl_parts (s : State) (r : FaultRec) : (addFault s r).ctl.parts = s.ctl.parts := rfl
@[simp] theorem addFault_ctl_samples (s : State) (r : FaultRec) : (addFault s r).ctl.samples = s.ctl.samples := rfl
@[simp] theorem addFault_ctl_stampNo (s : State) (r : FaultRec) : (addFault s r).ctl.stampNo = s.ctl.stampNo := rfl
@[simp] theorem addFault_ctl_acceptNo (s : State) (r : FaultRec) : (addFault s r).ctl.acceptNo = s.ctl.acceptNo := rfl

/-! ### noteIssue -/

@[simp] theorem noteIssue_exe_cur (s : State) (q gi : Nat) : (noteIssue s q gi).exe.cur = s.exe.cur := rfl
@[simp] theorem noteIssue_exe_curTile (s : State) (q gi : Nat) : (noteIssue s q gi).exe.curTile = s.exe.curTile := rfl
@[simp] theorem noteIssue_exe_agenda (s : State) (q gi : Nat) : (noteIssue s q gi).exe.agenda = s.exe.agenda := rfl
@[simp] theorem noteIssue_exe_fresh (s : State) (q gi : Nat) : (noteIssue s q gi).exe.fresh = s.exe.fresh := rfl
@[simp] theorem noteIssue_exe_nextId (s : State) (q gi : Nat) : (noteIssue s q gi).exe.nextId = s.exe.nextId := rfl
@[simp] theorem noteIssue_exe_lastGang (s : State) (q gi : Nat) : (noteIssue s q gi).exe.lastGang = (q, gi) :: s.exe.lastGang.filter fun p => p.1 != q := rfl

/-! ### setGroup -/

@[simp] theorem setGroup_mem (s : State) (i : Nat) (g : Group) : (setGroup s i g).mem = s.mem := rfl
@[simp] theorem setGroup_ctl (s : State) (i : Nat) (g : Group) : (setGroup s i g).ctl = s.ctl := rfl
@[simp] theorem setGroup_sys (s : State) (i : Nat) (g : Group) : (setGroup s i g).sys = s.sys := rfl
@[simp] theorem setGroup_exe_cur (s : State) (i : Nat) (g : Group) : (setGroup s i g).exe.cur = s.exe.cur := rfl
@[simp] theorem setGroup_exe_curTile (s : State) (i : Nat) (g : Group) : (setGroup s i g).exe.curTile = s.exe.curTile := rfl
@[simp] theorem setGroup_exe_agenda (s : State) (i : Nat) (g : Group) : (setGroup s i g).exe.agenda = s.exe.agenda := rfl
@[simp] theorem setGroup_exe_gangs (s : State) (i : Nat) (g : Group) : (setGroup s i g).exe.gangs = s.exe.gangs := rfl
@[simp] theorem setGroup_exe_groups (s : State) (i : Nat) (g : Group) : (setGroup s i g).exe.groups = modAt s.exe.groups i fun _ => g := rfl
@[simp] theorem setGroup_exe_copies (s : State) (i : Nat) (g : Group) : (setGroup s i g).exe.copies = s.exe.copies := rfl
@[simp] theorem setGroup_exe_fresh (s : State) (i : Nat) (g : Group) : (setGroup s i g).exe.fresh = s.exe.fresh := rfl
@[simp] theorem setGroup_exe_nextId (s : State) (i : Nat) (g : Group) : (setGroup s i g).exe.nextId = s.exe.nextId := rfl
@[simp] theorem setGroup_exe_lastGang (s : State) (i : Nat) (g : Group) : (setGroup s i g).exe.lastGang = s.exe.lastGang := rfl

/-! ### modNb -/

@[simp] theorem modNb_mem (s : State) (i k : Nat) (f : NumBar → NumBar) : (modNb s i k f).mem = s.mem := rfl
@[simp] theorem modNb_ctl (s : State) (i k : Nat) (f : NumBar → NumBar) : (modNb s i k f).ctl = s.ctl := rfl
@[simp] theorem modNb_sys (s : State) (i k : Nat) (f : NumBar → NumBar) : (modNb s i k f).sys = s.sys := rfl
@[simp] theorem modNb_exe_cur (s : State) (i k : Nat) (f : NumBar → NumBar) : (modNb s i k f).exe.cur = s.exe.cur := rfl
@[simp] theorem modNb_exe_curTile (s : State) (i k : Nat) (f : NumBar → NumBar) : (modNb s i k f).exe.curTile = s.exe.curTile := rfl
@[simp] theorem modNb_exe_agenda (s : State) (i k : Nat) (f : NumBar → NumBar) : (modNb s i k f).exe.agenda = s.exe.agenda := rfl
@[simp] theorem modNb_exe_gangs (s : State) (i k : Nat) (f : NumBar → NumBar) : (modNb s i k f).exe.gangs = s.exe.gangs := rfl
@[simp] theorem modNb_exe_groups (s : State) (i k : Nat) (f : NumBar → NumBar) : (modNb s i k f).exe.groups = modAt s.exe.groups i fun x => { x with nbs := modAt x.nbs k f } := rfl
@[simp] theorem modNb_exe_copies (s : State) (i k : Nat) (f : NumBar → NumBar) : (modNb s i k f).exe.copies = s.exe.copies := rfl
@[simp] theorem modNb_exe_fresh (s : State) (i k : Nat) (f : NumBar → NumBar) : (modNb s i k f).exe.fresh = s.exe.fresh := rfl
@[simp] theorem modNb_exe_nextId (s : State) (i k : Nat) (f : NumBar → NumBar) : (modNb s i k f).exe.nextId = s.exe.nextId := rfl
@[simp] theorem modNb_exe_lastGang (s : State) (i k : Nat) (f : NumBar → NumBar) : (modNb s i k f).exe.lastGang = s.exe.lastGang := rfl

/-! ### modWindow -/

@[simp] theorem modWindow_mem (s : State) (i : Nat) (f : SMap 8 → SMap 8) : (modWindow s i f).mem = s.mem := rfl
@[simp] theorem modWindow_ctl (s : State) (i : Nat) (f : SMap 8 → SMap 8) : (modWindow s i f).ctl = s.ctl := rfl
@[simp] theorem modWindow_sys (s : State) (i : Nat) (f : SMap 8 → SMap 8) : (modWindow s i f).sys = s.sys := rfl
@[simp] theorem modWindow_exe_cur (s : State) (i : Nat) (f : SMap 8 → SMap 8) : (modWindow s i f).exe.cur = s.exe.cur := rfl
@[simp] theorem modWindow_exe_curTile (s : State) (i : Nat) (f : SMap 8 → SMap 8) : (modWindow s i f).exe.curTile = s.exe.curTile := rfl
@[simp] theorem modWindow_exe_agenda (s : State) (i : Nat) (f : SMap 8 → SMap 8) : (modWindow s i f).exe.agenda = s.exe.agenda := rfl
@[simp] theorem modWindow_exe_gangs (s : State) (i : Nat) (f : SMap 8 → SMap 8) : (modWindow s i f).exe.gangs = s.exe.gangs := rfl
@[simp] theorem modWindow_exe_groups (s : State) (i : Nat) (f : SMap 8 → SMap 8) : (modWindow s i f).exe.groups = modAt s.exe.groups i fun x => { x with window := f x.window } := rfl
@[simp] theorem modWindow_exe_copies (s : State) (i : Nat) (f : SMap 8 → SMap 8) : (modWindow s i f).exe.copies = s.exe.copies := rfl
@[simp] theorem modWindow_exe_fresh (s : State) (i : Nat) (f : SMap 8 → SMap 8) : (modWindow s i f).exe.fresh = s.exe.fresh := rfl
@[simp] theorem modWindow_exe_nextId (s : State) (i : Nat) (f : SMap 8 → SMap 8) : (modWindow s i f).exe.nextId = s.exe.nextId := rfl
@[simp] theorem modWindow_exe_lastGang (s : State) (i : Nat) (f : SMap 8 → SMap 8) : (modWindow s i f).exe.lastGang = s.exe.lastGang := rfl

/-! ### modOpSlice -/

@[simp] theorem modOpSlice_mem (s : State) (o : MemOp) (f : Slice → Slice) : (modOpSlice s o f).mem = s.mem := rfl
@[simp] theorem modOpSlice_ctl (s : State) (o : MemOp) (f : Slice → Slice) : (modOpSlice s o f).ctl = s.ctl := rfl
@[simp] theorem modOpSlice_sys (s : State) (o : MemOp) (f : Slice → Slice) : (modOpSlice s o f).sys = s.sys := rfl
@[simp] theorem modOpSlice_exe_cur (s : State) (o : MemOp) (f : Slice → Slice) : (modOpSlice s o f).exe.cur = s.exe.cur := rfl
@[simp] theorem modOpSlice_exe_curTile (s : State) (o : MemOp) (f : Slice → Slice) : (modOpSlice s o f).exe.curTile = s.exe.curTile := rfl
@[simp] theorem modOpSlice_exe_agenda (s : State) (o : MemOp) (f : Slice → Slice) : (modOpSlice s o f).exe.agenda = s.exe.agenda := rfl
@[simp] theorem modOpSlice_exe_gangs (s : State) (o : MemOp) (f : Slice → Slice) : (modOpSlice s o f).exe.gangs = modAt s.exe.gangs o.gang fun g => g.modSl o.slice f := rfl
@[simp] theorem modOpSlice_exe_groups (s : State) (o : MemOp) (f : Slice → Slice) : (modOpSlice s o f).exe.groups = s.exe.groups := rfl
@[simp] theorem modOpSlice_exe_copies (s : State) (o : MemOp) (f : Slice → Slice) : (modOpSlice s o f).exe.copies = s.exe.copies := rfl
@[simp] theorem modOpSlice_exe_fresh (s : State) (o : MemOp) (f : Slice → Slice) : (modOpSlice s o f).exe.fresh = s.exe.fresh := rfl
@[simp] theorem modOpSlice_exe_nextId (s : State) (o : MemOp) (f : Slice → Slice) : (modOpSlice s o f).exe.nextId = s.exe.nextId := rfl
@[simp] theorem modOpSlice_exe_lastGang (s : State) (o : MemOp) (f : Slice → Slice) : (modOpSlice s o f).exe.lastGang = s.exe.lastGang := rfl

/-! ### setCtx -/

@[simp] theorem setCtx_exe (s : State) (c : Ctx) : (setCtx s c).exe = s.exe := rfl
@[simp] theorem setCtx_mem (s : State) (c : Ctx) : (setCtx s c).mem = s.mem := rfl
@[simp] theorem setCtx_sys (s : State) (c : Ctx) : (setCtx s c).sys = s.sys := rfl
@[simp] theorem setCtx_ctl_ctxs (s : State) (c : Ctx) : (setCtx s c).ctl.ctxs = modCtx s.ctl.ctxs c.part c.cid fun _ => c := rfl
@[simp] theorem setCtx_ctl_parts (s : State) (c : Ctx) : (setCtx s c).ctl.parts = s.ctl.parts := rfl
@[simp] theorem setCtx_ctl_queues (s : State) (c : Ctx) : (setCtx s c).ctl.queues = s.ctl.queues := rfl
@[simp] theorem setCtx_ctl_kernels (s : State) (c : Ctx) : (setCtx s c).ctl.kernels = s.ctl.kernels := rfl
@[simp] theorem setCtx_ctl_faults (s : State) (c : Ctx) : (setCtx s c).ctl.faults = s.ctl.faults := rfl
@[simp] theorem setCtx_ctl_partials (s : State) (c : Ctx) : (setCtx s c).ctl.partials = s.ctl.partials := rfl
@[simp] theorem setCtx_ctl_samples (s : State) (c : Ctx) : (setCtx s c).ctl.samples = s.ctl.samples := rfl
@[simp] theorem setCtx_ctl_stampNo (s : State) (c : Ctx) : (setCtx s c).ctl.stampNo = s.ctl.stampNo := rfl
@[simp] theorem setCtx_ctl_acceptNo (s : State) (c : Ctx) : (setCtx s c).ctl.acceptNo = s.ctl.acceptNo := rfl

/-! ### modKern -/

@[simp] theorem modKern_exe (s : State) (k : Nat) (f : Kernel → Kernel) : (modKern s k f).exe = s.exe := rfl
@[simp] theorem modKern_mem (s : State) (k : Nat) (f : Kernel → Kernel) : (modKern s k f).mem = s.mem := rfl
@[simp] theorem modKern_sys (s : State) (k : Nat) (f : Kernel → Kernel) : (modKern s k f).sys = s.sys := rfl
@[simp] theorem modKern_ctl_ctxs (s : State) (k : Nat) (f : Kernel → Kernel) : (modKern s k f).ctl.ctxs = s.ctl.ctxs := rfl
@[simp] theorem modKern_ctl_parts (s : State) (k : Nat) (f : Kernel → Kernel) : (modKern s k f).ctl.parts = s.ctl.parts := rfl
@[simp] theorem modKern_ctl_queues (s : State) (k : Nat) (f : Kernel → Kernel) : (modKern s k f).ctl.queues = s.ctl.queues := rfl
@[simp] theorem modKern_ctl_kernels (s : State) (k : Nat) (f : Kernel → Kernel) : (modKern s k f).ctl.kernels = modAt s.ctl.kernels k f := rfl
@[simp] theorem modKern_ctl_faults (s : State) (k : Nat) (f : Kernel → Kernel) : (modKern s k f).ctl.faults = s.ctl.faults := rfl
@[simp] theorem modKern_ctl_partials (s : State) (k : Nat) (f : Kernel → Kernel) : (modKern s k f).ctl.partials = s.ctl.partials := rfl
@[simp] theorem modKern_ctl_samples (s : State) (k : Nat) (f : Kernel → Kernel) : (modKern s k f).ctl.samples = s.ctl.samples := rfl
@[simp] theorem modKern_ctl_stampNo (s : State) (k : Nat) (f : Kernel → Kernel) : (modKern s k f).ctl.stampNo = s.ctl.stampNo := rfl
@[simp] theorem modKern_ctl_acceptNo (s : State) (k : Nat) (f : Kernel → Kernel) : (modKern s k f).ctl.acceptNo = s.ctl.acceptNo := rfl

/-! ### modQueue -/

@[simp] theorem modQueue_exe (s : State) (i : Nat) (f : Queue → Queue) : (modQueue s i f).exe = s.exe := rfl
@[simp] theorem modQueue_mem (s : State) (i : Nat) (f : Queue → Queue) : (modQueue s i f).mem = s.mem := rfl
@[simp] theorem modQueue_sys (s : State) (i : Nat) (f : Queue → Queue) : (modQueue s i f).sys = s.sys := rfl
@[simp] theorem modQueue_ctl_ctxs (s : State) (i : Nat) (f : Queue → Queue) : (modQueue s i f).ctl.ctxs = s.ctl.ctxs := rfl
@[simp] theorem modQueue_ctl_parts (s : State) (i : Nat) (f : Queue → Queue) : (modQueue s i f).ctl.parts = s.ctl.parts := rfl
@[simp] theorem modQueue_ctl_queues (s : State) (i : Nat) (f : Queue → Queue) : (modQueue s i f).ctl.queues = modIf s.ctl.queues (fun q => q.id == i) f := rfl
@[simp] theorem modQueue_ctl_kernels (s : State) (i : Nat) (f : Queue → Queue) : (modQueue s i f).ctl.kernels = s.ctl.kernels := rfl
@[simp] theorem modQueue_ctl_faults (s : State) (i : Nat) (f : Queue → Queue) : (modQueue s i f).ctl.faults = s.ctl.faults := rfl
@[simp] theorem modQueue_ctl_partials (s : State) (i : Nat) (f : Queue → Queue) : (modQueue s i f).ctl.partials = s.ctl.partials := rfl
@[simp] theorem modQueue_ctl_samples (s : State) (i : Nat) (f : Queue → Queue) : (modQueue s i f).ctl.samples = s.ctl.samples := rfl
@[simp] theorem modQueue_ctl_stampNo (s : State) (i : Nat) (f : Queue → Queue) : (modQueue s i f).ctl.stampNo = s.ctl.stampNo := rfl
@[simp] theorem modQueue_ctl_acceptNo (s : State) (i : Nat) (f : Queue → Queue) : (modQueue s i f).ctl.acceptNo = s.ctl.acceptNo := rfl

/-! ### modPart -/

@[simp] theorem modPart_exe (s : State) (i : Nat) (f : Partition → Partition) : (modPart s i f).exe = s.exe := rfl
@[simp] theorem modPart_mem (s : State) (i : Nat) (f : Partition → Partition) : (modPart s i f).mem = s.mem := rfl
@[simp] theorem modPart_sys (s : State) (i : Nat) (f : Partition → Partition) : (modPart s i f).sys = s.sys := rfl
@[simp] theorem modPart_ctl_ctxs (s : State) (i : Nat) (f : Partition → Partition) : (modPart s i f).ctl.ctxs = s.ctl.ctxs := rfl
@[simp] theorem modPart_ctl_parts (s : State) (i : Nat) (f : Partition → Partition) : (modPart s i f).ctl.parts = modIf s.ctl.parts (fun p => p.id == i) f := rfl
@[simp] theorem modPart_ctl_queues (s : State) (i : Nat) (f : Partition → Partition) : (modPart s i f).ctl.queues = s.ctl.queues := rfl
@[simp] theorem modPart_ctl_kernels (s : State) (i : Nat) (f : Partition → Partition) : (modPart s i f).ctl.kernels = s.ctl.kernels := rfl
@[simp] theorem modPart_ctl_faults (s : State) (i : Nat) (f : Partition → Partition) : (modPart s i f).ctl.faults = s.ctl.faults := rfl
@[simp] theorem modPart_ctl_partials (s : State) (i : Nat) (f : Partition → Partition) : (modPart s i f).ctl.partials = s.ctl.partials := rfl
@[simp] theorem modPart_ctl_samples (s : State) (i : Nat) (f : Partition → Partition) : (modPart s i f).ctl.samples = s.ctl.samples := rfl
@[simp] theorem modPart_ctl_stampNo (s : State) (i : Nat) (f : Partition → Partition) : (modPart s i f).ctl.stampNo = s.ctl.stampNo := rfl
@[simp] theorem modPart_ctl_acceptNo (s : State) (i : Nat) (f : Partition → Partition) : (modPart s i f).ctl.acceptNo = s.ctl.acceptNo := rfl

/-! ### modHew -/

@[simp] theorem modHew_exe (s : State) (i w : Nat) (f : Hew → Hew) : (modHew s i w f).exe = s.exe := rfl
@[simp] theorem modHew_mem (s : State) (i w : Nat) (f : Hew → Hew) : (modHew s i w f).mem = s.mem := rfl
@[simp] theorem modHew_sys (s : State) (i w : Nat) (f : Hew → Hew) : (modHew s i w f).sys = s.sys := rfl
@[simp] theorem modHew_ctl_ctxs (s : State) (i w : Nat) (f : Hew → Hew) : (modHew s i w f).ctl.ctxs = s.ctl.ctxs := rfl
@[simp] theorem modHew_ctl_parts (s : State) (i w : Nat) (f : Hew → Hew) : (modHew s i w f).ctl.parts = modIf s.ctl.parts (fun p => p.id == i) fun p => { p with hews := modAt p.hews w f } := rfl
@[simp] theorem modHew_ctl_queues (s : State) (i w : Nat) (f : Hew → Hew) : (modHew s i w f).ctl.queues = s.ctl.queues := rfl
@[simp] theorem modHew_ctl_kernels (s : State) (i w : Nat) (f : Hew → Hew) : (modHew s i w f).ctl.kernels = s.ctl.kernels := rfl
@[simp] theorem modHew_ctl_faults (s : State) (i w : Nat) (f : Hew → Hew) : (modHew s i w f).ctl.faults = s.ctl.faults := rfl
@[simp] theorem modHew_ctl_partials (s : State) (i w : Nat) (f : Hew → Hew) : (modHew s i w f).ctl.partials = s.ctl.partials := rfl
@[simp] theorem modHew_ctl_samples (s : State) (i w : Nat) (f : Hew → Hew) : (modHew s i w f).ctl.samples = s.ctl.samples := rfl
@[simp] theorem modHew_ctl_stampNo (s : State) (i w : Nat) (f : Hew → Hew) : (modHew s i w f).ctl.stampNo = s.ctl.stampNo := rfl
@[simp] theorem modHew_ctl_acceptNo (s : State) (i w : Nat) (f : Hew → Hew) : (modHew s i w f).ctl.acceptNo = s.ctl.acceptNo := rfl

/-! ### hostPut -/

@[simp] theorem hostPut_exe (s : State) (a : Nat) (bs : List Byte) : (hostPut s a bs).exe = s.exe := rfl
@[simp] theorem hostPut_ctl (s : State) (a : Nat) (bs : List Byte) : (hostPut s a bs).ctl = s.ctl := rfl
@[simp] theorem hostPut_sys (s : State) (a : Nat) (bs : List Byte) : (hostPut s a bs).sys = s.sys := rfl
@[simp] theorem hostPut_mem_bytes (s : State) (a : Nat) (bs : List Byte) : (hostPut s a bs).mem.bytes = s.mem.bytes := rfl
@[simp] theorem hostPut_mem_lpddr (s : State) (a : Nat) (bs : List Byte) : (hostPut s a bs).mem.lpddr = s.mem.lpddr := rfl
@[simp] theorem hostPut_mem_keys (s : State) (a : Nat) (bs : List Byte) : (hostPut s a bs).mem.keys = s.mem.keys := rfl
@[simp] theorem hostPut_mem_host (s : State) (a : Nat) (bs : List Byte) : (hostPut s a bs).mem.host = smPut s.mem.host (a % 2 ^ 42) bs := rfl
@[simp] theorem hostPut_mem_ops (s : State) (a : Nat) (bs : List Byte) : (hostPut s a bs).mem.ops = s.mem.ops := rfl
@[simp] theorem hostPut_mem_l1 (s : State) (a : Nat) (bs : List Byte) : (hostPut s a bs).mem.l1 = s.mem.l1 := rfl
@[simp] theorem hostPut_mem_l2 (s : State) (a : Nat) (bs : List Byte) : (hostPut s a bs).mem.l2 = s.mem.l2 := rfl
@[simp] theorem hostPut_mem_homeBlocks (s : State) (a : Nat) (bs : List Byte) : (hostPut s a bs).mem.homeBlocks = s.mem.homeBlocks := rfl
@[simp] theorem hostPut_mem_llc (s : State) (a : Nat) (bs : List Byte) : (hostPut s a bs).mem.llc = s.mem.llc := rfl
@[simp] theorem hostPut_mem_dir (s : State) (a : Nat) (bs : List Byte) : (hostPut s a bs).mem.dir = s.mem.dir := rfl
@[simp] theorem hostPut_mem_txns (s : State) (a : Nat) (bs : List Byte) : (hostPut s a bs).mem.txns = s.mem.txns := rfl
@[simp] theorem hostPut_mem_notices (s : State) (a : Nat) (bs : List Byte) : (hostPut s a bs).mem.notices = s.mem.notices := rfl
@[simp] theorem hostPut_mem_tlb (s : State) (a : Nat) (bs : List Byte) : (hostPut s a bs).mem.tlb = s.mem.tlb := rfl
@[simp] theorem hostPut_mem_upper (s : State) (a : Nat) (bs : List Byte) : (hostPut s a bs).mem.upper = s.mem.upper := rfl
@[simp] theorem hostPut_mem_walks (s : State) (a : Nat) (bs : List Byte) : (hostPut s a bs).mem.walks = s.mem.walks := rfl
@[simp] theorem hostPut_mem_icache (s : State) (a : Nat) (bs : List Byte) : (hostPut s a bs).mem.icache = s.mem.icache := rfl
@[simp] theorem hostPut_mem_predict (s : State) (a : Nat) (bs : List Byte) : (hostPut s a bs).mem.predict = s.mem.predict := rfl
@[simp] theorem hostPut_mem_clocks (s : State) (a : Nat) (bs : List Byte) : (hostPut s a bs).mem.clocks = s.mem.clocks := rfl
@[simp] theorem hostPut_mem_homeStamp (s : State) (a : Nat) (bs : List Byte) : (hostPut s a bs).mem.homeStamp = s.mem.homeStamp := rfl
@[simp] theorem hostPut_mem_hostBuf (s : State) (a : Nat) (bs : List Byte) : (hostPut s a bs).mem.hostBuf = s.mem.hostBuf := rfl
@[simp] theorem hostPut_mem_hubBuf (s : State) (a : Nat) (bs : List Byte) : (hostPut s a bs).mem.hubBuf = s.mem.hubBuf := rfl
@[simp] theorem hostPut_mem_leases (s : State) (a : Nat) (bs : List Byte) : (hostPut s a bs).mem.leases = s.mem.leases := rfl
@[simp] theorem hostPut_mem_lastKord (s : State) (a : Nat) (bs : List Byte) : (hostPut s a bs).mem.lastKord = s.mem.lastKord := rfl

/-! ### countUncorr -/

@[simp] theorem countUncorr_exe (s : State) (d n : Nat) : (countUncorr s d n).exe = s.exe := rfl
@[simp] theorem countUncorr_mem (s : State) (d n : Nat) : (countUncorr s d n).mem = s.mem := rfl
@[simp] theorem countUncorr_ctl (s : State) (d n : Nat) : (countUncorr s d n).ctl = s.ctl := rfl
@[simp] theorem countUncorr_sys_cycle (s : State) (d n : Nat) : (countUncorr s d n).sys.cycle = s.sys.cycle := rfl
@[simp] theorem countUncorr_sys_ptp (s : State) (d n : Nat) : (countUncorr s d n).sys.ptp = s.sys.ptp := rfl
@[simp] theorem countUncorr_sys_domId (s : State) (d n : Nat) : (countUncorr s d n).sys.domId = s.sys.domId := rfl
@[simp] theorem countUncorr_sys_leaseNs (s : State) (d n : Nat) : (countUncorr s d n).sys.leaseNs = s.sys.leaseNs := rfl
@[simp] theorem countUncorr_sys_guardNs (s : State) (d n : Nat) : (countUncorr s d n).sys.guardNs = s.sys.guardNs := rfl
@[simp] theorem countUncorr_sys_syncNs (s : State) (d n : Nat) : (countUncorr s d n).sys.syncNs = s.sys.syncNs := rfl
@[simp] theorem countUncorr_sys_links (s : State) (d n : Nat) : (countUncorr s d n).sys.links = s.sys.links := rfl
@[simp] theorem countUncorr_sys_ownInc (s : State) (d n : Nat) : (countUncorr s d n).sys.ownInc = s.sys.ownInc := rfl
@[simp] theorem countUncorr_sys_agentInc (s : State) (d n : Nat) : (countUncorr s d n).sys.agentInc = s.sys.agentInc := rfl
@[simp] theorem countUncorr_sys_peerInc (s : State) (d n : Nat) : (countUncorr s d n).sys.peerInc = s.sys.peerInc := rfl
@[simp] theorem countUncorr_sys_dieReplays (s : State) (d n : Nat) : (countUncorr s d n).sys.dieReplays = s.sys.dieReplays := rfl
@[simp] theorem countUncorr_sys_cut (s : State) (d n : Nat) : (countUncorr s d n).sys.cut = s.sys.cut := rfl
@[simp] theorem countUncorr_sys_lostDies (s : State) (d n : Nat) : (countUncorr s d n).sys.lostDies = s.sys.lostDies := rfl
@[simp] theorem countUncorr_sys_lostPeers (s : State) (d n : Nat) : (countUncorr s d n).sys.lostPeers = s.sys.lostPeers := rfl
@[simp] theorem countUncorr_sys_scrubbing (s : State) (d n : Nat) : (countUncorr s d n).sys.scrubbing = s.sys.scrubbing := rfl
@[simp] theorem countUncorr_sys_out (s : State) (d n : Nat) : (countUncorr s d n).sys.out = s.sys.out := rfl
@[simp] theorem countUncorr_sys_flight (s : State) (d n : Nat) : (countUncorr s d n).sys.flight = s.sys.flight := rfl
@[simp] theorem countUncorr_sys_hostOut (s : State) (d n : Nat) : (countUncorr s d n).sys.hostOut = s.sys.hostOut := rfl
@[simp] theorem countUncorr_sys_spdm (s : State) (d n : Nat) : (countUncorr s d n).sys.spdm = s.sys.spdm := rfl
@[simp] theorem countUncorr_sys_temp (s : State) (d n : Nat) : (countUncorr s d n).sys.temp = s.sys.temp := rfl
@[simp] theorem countUncorr_sys_step (s : State) (d n : Nat) : (countUncorr s d n).sys.step = s.sys.step := rfl
@[simp] theorem countUncorr_sys_kickstand (s : State) (d n : Nat) : (countUncorr s d n).sys.kickstand = s.sys.kickstand := rfl
@[simp] theorem countUncorr_sys_kdie (s : State) (d n : Nat) : (countUncorr s d n).sys.kdie = s.sys.kdie := rfl
@[simp] theorem countUncorr_sys_nextFull (s : State) (d n : Nat) : (countUncorr s d n).sys.nextFull = s.sys.nextFull := rfl
@[simp] theorem countUncorr_sys_tripped (s : State) (d n : Nat) : (countUncorr s d n).sys.tripped = s.sys.tripped := rfl
@[simp] theorem countUncorr_sys_clocksStopped (s : State) (d n : Nat) : (countUncorr s d n).sys.clocksStopped = s.sys.clocksStopped := rfl
@[simp] theorem countUncorr_sys_errUncorr (s : State) (d n : Nat) : (countUncorr s d n).sys.errUncorr = countErr s.sys.errUncorr d n := rfl
@[simp] theorem countUncorr_sys_errCorr (s : State) (d n : Nat) : (countUncorr s d n).sys.errCorr = s.sys.errCorr := rfl
@[simp] theorem countUncorr_sys_flash (s : State) (d n : Nat) : (countUncorr s d n).sys.flash = s.sys.flash := rfl
@[simp] theorem countUncorr_sys_bootFailed (s : State) (d n : Nat) : (countUncorr s d n).sys.bootFailed = s.sys.bootFailed := rfl
@[simp] theorem countUncorr_sys_measures (s : State) (d n : Nat) : (countUncorr s d n).sys.measures = s.sys.measures := rfl
@[simp] theorem countUncorr_sys_draws (s : State) (d n : Nat) : (countUncorr s d n).sys.draws = s.sys.draws := rfl

/-! ### setSpdm -/

@[simp] theorem setSpdm_exe (s : State) (x : Spdm) : (setSpdm s x).exe = s.exe := rfl
@[simp] theorem setSpdm_mem (s : State) (x : Spdm) : (setSpdm s x).mem = s.mem := rfl
@[simp] theorem setSpdm_ctl (s : State) (x : Spdm) : (setSpdm s x).ctl = s.ctl := rfl
@[simp] theorem setSpdm_sys_cycle (s : State) (x : Spdm) : (setSpdm s x).sys.cycle = s.sys.cycle := rfl
@[simp] theorem setSpdm_sys_ptp (s : State) (x : Spdm) : (setSpdm s x).sys.ptp = s.sys.ptp := rfl
@[simp] theorem setSpdm_sys_domId (s : State) (x : Spdm) : (setSpdm s x).sys.domId = s.sys.domId := rfl
@[simp] theorem setSpdm_sys_leaseNs (s : State) (x : Spdm) : (setSpdm s x).sys.leaseNs = s.sys.leaseNs := rfl
@[simp] theorem setSpdm_sys_guardNs (s : State) (x : Spdm) : (setSpdm s x).sys.guardNs = s.sys.guardNs := rfl
@[simp] theorem setSpdm_sys_syncNs (s : State) (x : Spdm) : (setSpdm s x).sys.syncNs = s.sys.syncNs := rfl
@[simp] theorem setSpdm_sys_links (s : State) (x : Spdm) : (setSpdm s x).sys.links = s.sys.links := rfl
@[simp] theorem setSpdm_sys_ownInc (s : State) (x : Spdm) : (setSpdm s x).sys.ownInc = s.sys.ownInc := rfl
@[simp] theorem setSpdm_sys_agentInc (s : State) (x : Spdm) : (setSpdm s x).sys.agentInc = s.sys.agentInc := rfl
@[simp] theorem setSpdm_sys_peerInc (s : State) (x : Spdm) : (setSpdm s x).sys.peerInc = s.sys.peerInc := rfl
@[simp] theorem setSpdm_sys_dieReplays (s : State) (x : Spdm) : (setSpdm s x).sys.dieReplays = s.sys.dieReplays := rfl
@[simp] theorem setSpdm_sys_cut (s : State) (x : Spdm) : (setSpdm s x).sys.cut = s.sys.cut := rfl
@[simp] theorem setSpdm_sys_lostDies (s : State) (x : Spdm) : (setSpdm s x).sys.lostDies = s.sys.lostDies := rfl
@[simp] theorem setSpdm_sys_lostPeers (s : State) (x : Spdm) : (setSpdm s x).sys.lostPeers = s.sys.lostPeers := rfl
@[simp] theorem setSpdm_sys_scrubbing (s : State) (x : Spdm) : (setSpdm s x).sys.scrubbing = s.sys.scrubbing := rfl
@[simp] theorem setSpdm_sys_out (s : State) (x : Spdm) : (setSpdm s x).sys.out = s.sys.out := rfl
@[simp] theorem setSpdm_sys_flight (s : State) (x : Spdm) : (setSpdm s x).sys.flight = s.sys.flight := rfl
@[simp] theorem setSpdm_sys_hostOut (s : State) (x : Spdm) : (setSpdm s x).sys.hostOut = s.sys.hostOut := rfl
@[simp] theorem setSpdm_sys_spdm (s : State) (x : Spdm) : (setSpdm s x).sys.spdm = x :: s.sys.spdm.filter fun y => y.fn != x.fn := rfl
@[simp] theorem setSpdm_sys_temp (s : State) (x : Spdm) : (setSpdm s x).sys.temp = s.sys.temp := rfl
@[simp] theorem setSpdm_sys_step (s : State) (x : Spdm) : (setSpdm s x).sys.step = s.sys.step := rfl
@[simp] theorem setSpdm_sys_kickstand (s : State) (x : Spdm) : (setSpdm s x).sys.kickstand = s.sys.kickstand := rfl
@[simp] theorem setSpdm_sys_kdie (s : State) (x : Spdm) : (setSpdm s x).sys.kdie = s.sys.kdie := rfl
@[simp] theorem setSpdm_sys_nextFull (s : State) (x : Spdm) : (setSpdm s x).sys.nextFull = s.sys.nextFull := rfl
@[simp] theorem setSpdm_sys_tripped (s : State) (x : Spdm) : (setSpdm s x).sys.tripped = s.sys.tripped := rfl
@[simp] theorem setSpdm_sys_clocksStopped (s : State) (x : Spdm) : (setSpdm s x).sys.clocksStopped = s.sys.clocksStopped := rfl
@[simp] theorem setSpdm_sys_errUncorr (s : State) (x : Spdm) : (setSpdm s x).sys.errUncorr = s.sys.errUncorr := rfl
@[simp] theorem setSpdm_sys_errCorr (s : State) (x : Spdm) : (setSpdm s x).sys.errCorr = s.sys.errCorr := rfl
@[simp] theorem setSpdm_sys_flash (s : State) (x : Spdm) : (setSpdm s x).sys.flash = s.sys.flash := rfl
@[simp] theorem setSpdm_sys_bootFailed (s : State) (x : Spdm) : (setSpdm s x).sys.bootFailed = s.sys.bootFailed := rfl
@[simp] theorem setSpdm_sys_measures (s : State) (x : Spdm) : (setSpdm s x).sys.measures = s.sys.measures := rfl
@[simp] theorem setSpdm_sys_draws (s : State) (x : Spdm) : (setSpdm s x).sys.draws = s.sys.draws := rfl

/-! ### memSet -/

@[simp] theorem memSet_bytes (m : Mem) (a : Nat) (b : Byte) : (memSet m a b).bytes = smSet m.bytes a (b ^^^ keyByte m a) := rfl
@[simp] theorem memSet_lpddr (m : Mem) (a : Nat) (b : Byte) : (memSet m a b).lpddr = m.lpddr := rfl
@[simp] theorem memSet_keys (m : Mem) (a : Nat) (b : Byte) : (memSet m a b).keys = m.keys := rfl
@[simp] theorem memSet_host (m : Mem) (a : Nat) (b : Byte) : (memSet m a b).host = m.host := rfl
@[simp] theorem memSet_ops (m : Mem) (a : Nat) (b : Byte) : (memSet m a b).ops = m.ops := rfl
@[simp] theorem memSet_l1 (m : Mem) (a : Nat) (b : Byte) : (memSet m a b).l1 = m.l1 := rfl
@[simp] theorem memSet_l2 (m : Mem) (a : Nat) (b : Byte) : (memSet m a b).l2 = m.l2 := rfl
@[simp] theorem memSet_homeBlocks (m : Mem) (a : Nat) (b : Byte) : (memSet m a b).homeBlocks = m.homeBlocks := rfl
@[simp] theorem memSet_llc (m : Mem) (a : Nat) (b : Byte) : (memSet m a b).llc = m.llc := rfl
@[simp] theorem memSet_dir (m : Mem) (a : Nat) (b : Byte) : (memSet m a b).dir = m.dir := rfl
@[simp] theorem memSet_txns (m : Mem) (a : Nat) (b : Byte) : (memSet m a b).txns = m.txns := rfl
@[simp] theorem memSet_notices (m : Mem) (a : Nat) (b : Byte) : (memSet m a b).notices = m.notices := rfl
@[simp] theorem memSet_tlb (m : Mem) (a : Nat) (b : Byte) : (memSet m a b).tlb = m.tlb := rfl
@[simp] theorem memSet_upper (m : Mem) (a : Nat) (b : Byte) : (memSet m a b).upper = m.upper := rfl
@[simp] theorem memSet_walks (m : Mem) (a : Nat) (b : Byte) : (memSet m a b).walks = m.walks := rfl
@[simp] theorem memSet_icache (m : Mem) (a : Nat) (b : Byte) : (memSet m a b).icache = m.icache := rfl
@[simp] theorem memSet_predict (m : Mem) (a : Nat) (b : Byte) : (memSet m a b).predict = m.predict := rfl
@[simp] theorem memSet_clocks (m : Mem) (a : Nat) (b : Byte) : (memSet m a b).clocks = m.clocks := rfl
@[simp] theorem memSet_homeStamp (m : Mem) (a : Nat) (b : Byte) : (memSet m a b).homeStamp = m.homeStamp := rfl
@[simp] theorem memSet_hostBuf (m : Mem) (a : Nat) (b : Byte) : (memSet m a b).hostBuf = m.hostBuf := rfl
@[simp] theorem memSet_hubBuf (m : Mem) (a : Nat) (b : Byte) : (memSet m a b).hubBuf = m.hubBuf := rfl
@[simp] theorem memSet_leases (m : Mem) (a : Nat) (b : Byte) : (memSet m a b).leases = m.leases := rfl
@[simp] theorem memSet_lastKord (m : Mem) (a : Nat) (b : Byte) : (memSet m a b).lastKord = m.lastKord := rfl

/-! ### setOp -/

@[simp] theorem setOp_bytes (m : Mem) (o : MemOp) : (setOp m o).bytes = m.bytes := rfl
@[simp] theorem setOp_lpddr (m : Mem) (o : MemOp) : (setOp m o).lpddr = m.lpddr := rfl
@[simp] theorem setOp_keys (m : Mem) (o : MemOp) : (setOp m o).keys = m.keys := rfl
@[simp] theorem setOp_host (m : Mem) (o : MemOp) : (setOp m o).host = m.host := rfl
@[simp] theorem setOp_ops (m : Mem) (o : MemOp) : (setOp m o).ops = m.ops.map fun q => if q.id == o.id then o else q := rfl
@[simp] theorem setOp_l1 (m : Mem) (o : MemOp) : (setOp m o).l1 = m.l1 := rfl
@[simp] theorem setOp_l2 (m : Mem) (o : MemOp) : (setOp m o).l2 = m.l2 := rfl
@[simp] theorem setOp_homeBlocks (m : Mem) (o : MemOp) : (setOp m o).homeBlocks = m.homeBlocks := rfl
@[simp] theorem setOp_llc (m : Mem) (o : MemOp) : (setOp m o).llc = m.llc := rfl
@[simp] theorem setOp_dir (m : Mem) (o : MemOp) : (setOp m o).dir = m.dir := rfl
@[simp] theorem setOp_txns (m : Mem) (o : MemOp) : (setOp m o).txns = m.txns := rfl
@[simp] theorem setOp_notices (m : Mem) (o : MemOp) : (setOp m o).notices = m.notices := rfl
@[simp] theorem setOp_tlb (m : Mem) (o : MemOp) : (setOp m o).tlb = m.tlb := rfl
@[simp] theorem setOp_upper (m : Mem) (o : MemOp) : (setOp m o).upper = m.upper := rfl
@[simp] theorem setOp_walks (m : Mem) (o : MemOp) : (setOp m o).walks = m.walks := rfl
@[simp] theorem setOp_icache (m : Mem) (o : MemOp) : (setOp m o).icache = m.icache := rfl
@[simp] theorem setOp_predict (m : Mem) (o : MemOp) : (setOp m o).predict = m.predict := rfl
@[simp] theorem setOp_clocks (m : Mem) (o : MemOp) : (setOp m o).clocks = m.clocks := rfl
@[simp] theorem setOp_homeStamp (m : Mem) (o : MemOp) : (setOp m o).homeStamp = m.homeStamp := rfl
@[simp] theorem setOp_hostBuf (m : Mem) (o : MemOp) : (setOp m o).hostBuf = m.hostBuf := rfl
@[simp] theorem setOp_hubBuf (m : Mem) (o : MemOp) : (setOp m o).hubBuf = m.hubBuf := rfl
@[simp] theorem setOp_leases (m : Mem) (o : MemOp) : (setOp m o).leases = m.leases := rfl
@[simp] theorem setOp_lastKord (m : Mem) (o : MemOp) : (setOp m o).lastKord = m.lastKord := rfl

/-! ### setClock -/

@[simp] theorem setClock_bytes (m : Mem) (core t : Nat) : (setClock m core t).bytes = m.bytes := rfl
@[simp] theorem setClock_lpddr (m : Mem) (core t : Nat) : (setClock m core t).lpddr = m.lpddr := rfl
@[simp] theorem setClock_keys (m : Mem) (core t : Nat) : (setClock m core t).keys = m.keys := rfl
@[simp] theorem setClock_host (m : Mem) (core t : Nat) : (setClock m core t).host = m.host := rfl
@[simp] theorem setClock_ops (m : Mem) (core t : Nat) : (setClock m core t).ops = m.ops := rfl
@[simp] theorem setClock_l1 (m : Mem) (core t : Nat) : (setClock m core t).l1 = m.l1 := rfl
@[simp] theorem setClock_l2 (m : Mem) (core t : Nat) : (setClock m core t).l2 = m.l2 := rfl
@[simp] theorem setClock_homeBlocks (m : Mem) (core t : Nat) : (setClock m core t).homeBlocks = m.homeBlocks := rfl
@[simp] theorem setClock_llc (m : Mem) (core t : Nat) : (setClock m core t).llc = m.llc := rfl
@[simp] theorem setClock_dir (m : Mem) (core t : Nat) : (setClock m core t).dir = m.dir := rfl
@[simp] theorem setClock_txns (m : Mem) (core t : Nat) : (setClock m core t).txns = m.txns := rfl
@[simp] theorem setClock_notices (m : Mem) (core t : Nat) : (setClock m core t).notices = m.notices := rfl
@[simp] theorem setClock_tlb (m : Mem) (core t : Nat) : (setClock m core t).tlb = m.tlb := rfl
@[simp] theorem setClock_upper (m : Mem) (core t : Nat) : (setClock m core t).upper = m.upper := rfl
@[simp] theorem setClock_walks (m : Mem) (core t : Nat) : (setClock m core t).walks = m.walks := rfl
@[simp] theorem setClock_icache (m : Mem) (core t : Nat) : (setClock m core t).icache = m.icache := rfl
@[simp] theorem setClock_predict (m : Mem) (core t : Nat) : (setClock m core t).predict = m.predict := rfl
@[simp] theorem setClock_clocks (m : Mem) (core t : Nat) : (setClock m core t).clocks = (core, t) :: m.clocks.filter fun p => p.1 != core := rfl
@[simp] theorem setClock_homeStamp (m : Mem) (core t : Nat) : (setClock m core t).homeStamp = m.homeStamp := rfl
@[simp] theorem setClock_hostBuf (m : Mem) (core t : Nat) : (setClock m core t).hostBuf = m.hostBuf := rfl
@[simp] theorem setClock_hubBuf (m : Mem) (core t : Nat) : (setClock m core t).hubBuf = m.hubBuf := rfl
@[simp] theorem setClock_leases (m : Mem) (core t : Nat) : (setClock m core t).leases = m.leases := rfl
@[simp] theorem setClock_lastKord (m : Mem) (core t : Nat) : (setClock m core t).lastKord = m.lastKord := rfl

end Sys2Proof.Machine
end

