-- ==== Sys2Proof/Tests/Slice0.lean ====
section
/-! SUPPORT. Tests/Slice0.lean: words written out from the spec's encodings, terms that the legality check
refuses, small runs of one step, and a state that meets the hypotheses of each statement. -/

namespace Sys2Proof.Tests
set_option Elab.async false
open Sys2Proof Sys2Proof.Machine

/-! ## Words, written out from spec/opcode_table.json -/

/-- Every word of the list decodes to the instruction beside it. -/
def decodesAll (dec : Nat → Option Instr) (l : List (Nat × Instr)) : Bool := l.all fun p => dec p.1 == some p.2

/-- Every instruction of the list is refused by the legality check. -/
def refusesAll (l : List Instr) : Bool := l.all fun i => !i.wf

theorem test_words_control : decodesAll decodeLane [
    (0x01000000, .nop), (0x02D67514, .mode 1 5 6 3 1 2 4 5), (0x03FFFFFD, .imm 0xFFFFFD), (0x040000A5, .immh 0xA5),
    (0x050420FF, .wait 1 2 3 0x3F), (0x06FFFFFD, .bra 0xFFFFFD), (0x07FFFFFD, .call 0xFFFFFD), (0x08000000, .ret),
    (0x09000C01, .brx 0xC 1), (0x0AFFFFFD, .rpush 0xFFFFFD), (0x0B000000, .join), (0x0CFFFFFD, .regang 0xFFFFFD),
    (0x0D000000, .exit), (0x0E000000, .yield), (0x0F05F901, .elect 5 1), (0x10060302, .vote 6 3 2),
    (0x110AF90E, .getc 0xA 0xE), (0x12000C0E, .evwait 0xC 0xE), (0x13000C0E, .evadd 0xC 0xE)] = true := by decide +kernel

theorem test_words_system : decodesAll decodeLane [
    (0x14000007, .trap 7), (0x15000000, .rtt), (0x16000008, .brk 8), (0x170000FF, .halt 0xFF),
    (0x180AF902, .ctr 0xA 2), (0x190A0030, .csrr 0xA 0x30), (0x1A0A006B, .csrw 0xA 0x6B)] = true := by decide +kernel

theorem test_words_integer : decodesAll decodeLane [
    (0x200A0C0E, .iadd 0xA 0xC 0xE), (0x210A0C0E, .isub 0xA 0xC 0xE), (0x220A0C0E, .imul 0xA 0xC 0xE),
    (0x230A0C0E, .imulh 0xA 0xC 0xE), (0x240A0C0E, .imad 0xA 0xC 0xE), (0x250A0C0E, .imin 0xA 0xC 0xE),
    (0x260A0C0E, .imax 0xA 0xC 0xE), (0x270A0C00, .iabs 0xA 0xC), (0x280A0C0E, .and 0xA 0xC 0xE),
    (0x290A0C0E, .or 0xA 0xC 0xE), (0x2A0A0C0E, .xor 0xA 0xC 0xE), (0x2B0A0C0E, .andn 0xA 0xC 0xE),
    (0x2C0A0C0E, .shl 0xA 0xC 0xE), (0x2D0A0C0E, .shr 0xA 0xC 0xE), (0x2E0A0C0E, .sar 0xA 0xC 0xE),
    (0x2F0A0C0E, .rot 0xA 0xC 0xE), (0x300A0C00, .popc 0xA 0xC), (0x310A0C00, .clz 0xA 0xC),
    (0x320A0C00, .brev 0xA 0xC), (0x330A0C0E, .bfe 0xA 0xC 0xE), (0x340A0C0E, .bfi 0xA 0xC 0xE),
    (0x35A60C0E, .icmp 5 6 0xC 0xE), (0x360A0C0E, .sel 0xA 0xC 0xE), (0x370A0C00, .mov 0xA 0xC),
    (0x380A8003, .movi 0xA 0x8003), (0x390A8003, .movh 0xA 0x8003), (0x3A0A0C0E, .lea 0xA 0xC 0xE),
    (0x3B0A0C1F, .shfli 0xA 0xC 0x1F), (0x3C0A0C10, .shflx 0xA 0xC 0x10), (0x3D0A0C01, .shflu 0xA 0xC 1),
    (0x3E0A0C09, .shfld 0xA 0xC 9), (0x3F0A0C0E, .idot4 0xA 0xC 0xE)] = true := by decide +kernel

theorem test_words_predicates : decodesAll decodeLane [
    (0x40010203, .pand 1 2 3), (0x41040506, .por 4 5 6), (0x42070100, .pxor 7 1 0), (0x43030400, .pnot 3 4),
    (0x440A0500, .p2v 0xA 5 0), (0x45030C00, .v2p 3 0xC 0), (0x46060500, .pmov 6 5)] = true := by decide +kernel

theorem test_words_uniform : decodesAll decodeLane [
    (0x480A0C0E, .sadd 0xA 0xC 0xE), (0x490A0C0E, .ssub 0xA 0xC 0xE), (0x4A0A0C0E, .smul 0xA 0xC 0xE),
    (0x4B0A0C0E, .sand 0xA 0xC 0xE), (0x4C0A0C0E, .sor 0xA 0xC 0xE), (0x4D0A0C0E, .sxor 0xA 0xC 0xE),
    (0x4E0A0C0E, .sshl 0xA 0xC 0xE), (0x4F0A0C0E, .sshr 0xA 0xC 0xE), (0x500A0C00, .smov 0xA 0xC),
    (0x510A8003, .smovi 0xA 0x8003), (0x52833FF8, .scmp 4 3 0x3F 0xF8), (0x530A0C00, .s2v 0xA 0xC),
    (0x540A0C00, .v2s 0xA 0xC), (0x550A0C0E, .sld 0xA 0xC 0xE), (0x560A0C0E, .sst 0xA 0xC 0xE), (0x56F80C0E, .sst 248 0xC 0xE), (0x56F90C0E, .sst 249 0xC 0xE)] = true := by decide +kernel

theorem test_words_float : decodesAll decodeLane [
    (0x580A0C0E, .fadd 0xA 0xC 0xE), (0x590A0C0E, .fsub 0xA 0xC 0xE), (0x5A0A0C0E, .fmul 0xA 0xC 0xE),
    (0x5B0A0C0E, .ffma 0xA 0xC 0xE), (0x5C0A0C0E, .fmin 0xA 0xC 0xE), (0x5D0A0C0E, .fmax 0xA 0xC 0xE),
    (0x5E0A0C00, .fabs 0xA 0xC), (0x5F0A0C00, .fneg 0xA 0xC), (0x60E20C0E, .fcmp 7 2 0xC 0xE),
    (0x610A0C00, .fclass 0xA 0xC), (0x620A0C0E, .fscale 0xA 0xC 0xE), (0x630A0C00, .frint 0xA 0xC),
    (0x640A0C00, .frcp 0xA 0xC), (0x650A0C00, .frsq 0xA 0xC), (0x660A0C00, .fsqrt 0xA 0xC),
    (0x670A0C00, .fexp2 0xA 0xC), (0x680A0C00, .flog2 0xA 0xC), (0x690A0C00, .fsin 0xA 0xC),
    (0x6A0A0C00, .fcos 0xA 0xC), (0x6B0A0C00, .ftanh 0xA 0xC), (0x6C0A0C0E, .fdiv 0xA 0xC 0xE)] = true := by decide +kernel

theorem test_words_conversion : decodesAll decodeLane [
    (0x6D0A0C39, .cvt 0xA 0xC 3 9), (0x6E0A0C4D, .cvtsr 0xA 0xC 2 1 5), (0x6F0A0C14, .rng 0xA 0xC 0x14),
    (0x700A0C07, .qmx 0xA 0xC 7), (0x710A0C0E, .dqmx 0xA 0xC 0xE), (0x720A0C0E, .packl 0xA 0xC 0xE),
    (0x730A0C08, .unpackl 0xA 0xC 8), (0x740A0C00, .gamax 0xA 0xC), (0x750A0C02, .gred 0xA 0xC 2),
    (0x760A0C0E, .fdot2 0xA 0xC 0xE), (0x770A0C01, .cmp24 0xA 0xC 1)] = true := by decide +kernel

theorem test_words_access : decodesAll decodeLane [
    (0x800A0C0E, .ld 0xA 0xC 0xE), (0x810A0C0E, .ld2 0xA 0xC 0xE), (0x820A0C0E, .ld4 0xA 0xC 0xE),
    (0x830A0C0E, .st 0xA 0xC 0xE), (0x840A0C0E, .st2 0xA 0xC 0xE), (0x850A0C0E, .st4 0xA 0xC 0xE),
    (0x860A0C0E, .ldl 0xA 0xC 0xE), (0x870A0C0E, .ldl4 0xA 0xC 0xE), (0x880A0C0E, .stl 0xA 0xC 0xE),
    (0x890A0C0E, .stl4 0xA 0xC 0xE)] = true := by decide +kernel

theorem test_words_atomic : decodesAll decodeLane [
    (0x8A0A0C0E, .atadd 0xA 0xC 0xE), (0x8B0A0C0E, .atand 0xA 0xC 0xE), (0x8C0A0C0E, .ator 0xA 0xC 0xE),
    (0x8D0A0C0E, .atxor 0xA 0xC 0xE), (0x8E0A0C0E, .atmin 0xA 0xC 0xE), (0x8F0A0C0E, .atmax 0xA 0xC 0xE),
    (0x900A0C0E, .atxchg 0xA 0xC 0xE), (0x910A0C0E, .atcas 0xA 0xC 0xE), (0x920A0C0E, .atfmax 0xA 0xC 0xE),
    (0x930A0C0E, .atfmin 0xA 0xC 0xE), (0x940A0C0E, .atladd 0xA 0xC 0xE), (0x950A0C0E, .atlcas 0xA 0xC 0xE)] = true := by decide +kernel

theorem test_words_block : decodesAll decodeLane [
    (0x96000000, .fence), (0x97000C0E, .flush 0xC 0xE), (0x98000C0E, .invr 0xC 0xE), (0x99020C0E, .pref 2 0xC 0xE),
    (0x9A0A0C0E, .lockb 0xA 0xC 0xE), (0x9B000C0E, .unlockb 0xC 0xE)] = true := by decide +kernel

theorem test_words_queue : decodesAll decodeLane [
    (0x9C0A0C0E, .enq 0xA 0xC 0xE), (0x01000000, .nop), (0x02D67514, .mode 1 5 6 3 1 2 4 5),
    (0x03FFFFFD, .imm 0xFFFFFD), (0x040000A5, .immh 0xA5), (0x050420FF, .wait 1 2 3 0x3F),
    (0x06FFFFFD, .bra 0xFFFFFD), (0x07FFFFFD, .call 0xFFFFFD), (0x08000000, .ret), (0x09000C01, .brx 0xC 1),
    (0x0AFFFFFD, .rpush 0xFFFFFD), (0x0B000000, .join), (0x0CFFFFFD, .regang 0xFFFFFD), (0x0D000000, .exit),
    (0x0E000000, .yield), (0x0F05F901, .elect 5 1), (0x10060302, .vote 6 3 2), (0x110AF90E, .getc 0xA 0xE),
    (0x12000C0E, .evwait 0xC 0xE), (0x13000C0E, .evadd 0xC 0xE), (0x14000007, .trap 7), (0x15000000, .rtt),
    (0x16000008, .brk 8), (0x170000FF, .halt 0xFF), (0x180AF902, .ctr 0xA 2), (0x190A0030, .csrr 0xA 0x30),
    (0x1A0A006B, .csrw 0xA 0x6B), (0x200A0C0E, .iadd 0xA 0xC 0xE), (0x210A0C0E, .isub 0xA 0xC 0xE),
    (0x220A0C0E, .imul 0xA 0xC 0xE), (0x230A0C0E, .imulh 0xA 0xC 0xE), (0x240A0C0E, .imad 0xA 0xC 0xE),
    (0x250A0C0E, .imin 0xA 0xC 0xE), (0x260A0C0E, .imax 0xA 0xC 0xE), (0x270A0C00, .iabs 0xA 0xC),
    (0x280A0C0E, .and 0xA 0xC 0xE), (0x290A0C0E, .or 0xA 0xC 0xE), (0x2A0A0C0E, .xor 0xA 0xC 0xE),
    (0x2B0A0C0E, .andn 0xA 0xC 0xE), (0x2C0A0C0E, .shl 0xA 0xC 0xE), (0x2D0A0C0E, .shr 0xA 0xC 0xE),
    (0x2E0A0C0E, .sar 0xA 0xC 0xE), (0x2F0A0C0E, .rot 0xA 0xC 0xE), (0x300A0C00, .popc 0xA 0xC),
    (0x310A0C00, .clz 0xA 0xC), (0x320A0C00, .brev 0xA 0xC), (0x330A0C0E, .bfe 0xA 0xC 0xE),
    (0x340A0C0E, .bfi 0xA 0xC 0xE), (0x35A60C0E, .icmp 5 6 0xC 0xE), (0x360A0C0E, .sel 0xA 0xC 0xE),
    (0x370A0C00, .mov 0xA 0xC), (0x380A8003, .movi 0xA 0x8003), (0x390A8003, .movh 0xA 0x8003),
    (0x3A0A0C0E, .lea 0xA 0xC 0xE), (0x3B0A0C1F, .shfli 0xA 0xC 0x1F), (0x3C0A0C10, .shflx 0xA 0xC 0x10),
    (0x3D0A0C01, .shflu 0xA 0xC 1), (0x3E0A0C09, .shfld 0xA 0xC 9), (0x3F0A0C0E, .idot4 0xA 0xC 0xE),
    (0x40010203, .pand 1 2 3), (0x41040506, .por 4 5 6), (0x42070100, .pxor 7 1 0), (0x43030400, .pnot 3 4),
    (0x440A0500, .p2v 0xA 5 0), (0x45030C00, .v2p 3 0xC 0), (0x46060500, .pmov 6 5), (0x480A0C0E, .sadd 0xA 0xC 0xE),
    (0x490A0C0E, .ssub 0xA 0xC 0xE), (0x4A0A0C0E, .smul 0xA 0xC 0xE), (0x4B0A0C0E, .sand 0xA 0xC 0xE),
    (0x4C0A0C0E, .sor 0xA 0xC 0xE), (0x4D0A0C0E, .sxor 0xA 0xC 0xE), (0x4E0A0C0E, .sshl 0xA 0xC 0xE),
    (0x4F0A0C0E, .sshr 0xA 0xC 0xE), (0x500A0C00, .smov 0xA 0xC), (0x510A8003, .smovi 0xA 0x8003),
    (0x52833FF8, .scmp 4 3 0x3F 0xF8), (0x530A0C00, .s2v 0xA 0xC), (0x540A0C00, .v2s 0xA 0xC),
    (0x550A0C0E, .sld 0xA 0xC 0xE), (0x560A0C0E, .sst 0xA 0xC 0xE), (0x580A0C0E, .fadd 0xA 0xC 0xE),
    (0x590A0C0E, .fsub 0xA 0xC 0xE), (0x5A0A0C0E, .fmul 0xA 0xC 0xE), (0x5B0A0C0E, .ffma 0xA 0xC 0xE),
    (0x5C0A0C0E, .fmin 0xA 0xC 0xE), (0x5D0A0C0E, .fmax 0xA 0xC 0xE), (0x5E0A0C00, .fabs 0xA 0xC),
    (0x5F0A0C00, .fneg 0xA 0xC), (0x60E20C0E, .fcmp 7 2 0xC 0xE), (0x610A0C00, .fclass 0xA 0xC),
    (0x620A0C0E, .fscale 0xA 0xC 0xE), (0x630A0C00, .frint 0xA 0xC), (0x640A0C00, .frcp 0xA 0xC),
    (0x650A0C00, .frsq 0xA 0xC), (0x660A0C00, .fsqrt 0xA 0xC), (0x670A0C00, .fexp2 0xA 0xC),
    (0x680A0C00, .flog2 0xA 0xC), (0x690A0C00, .fsin 0xA 0xC), (0x6A0A0C00, .fcos 0xA 0xC),
    (0x6B0A0C00, .ftanh 0xA 0xC), (0x6C0A0C0E, .fdiv 0xA 0xC 0xE), (0x6D0A0C39, .cvt 0xA 0xC 3 9),
    (0x6E0A0C4D, .cvtsr 0xA 0xC 2 1 5), (0x6F0A0C14, .rng 0xA 0xC 0x14), (0x700A0C07, .qmx 0xA 0xC 7),
    (0x710A0C0E, .dqmx 0xA 0xC 0xE), (0x720A0C0E, .packl 0xA 0xC 0xE), (0x730A0C08, .unpackl 0xA 0xC 8),
    (0x740A0C00, .gamax 0xA 0xC), (0x750A0C02, .gred 0xA 0xC 2), (0x760A0C0E, .fdot2 0xA 0xC 0xE),
    (0x770A0C01, .cmp24 0xA 0xC 1), (0x800A0C0E, .ld 0xA 0xC 0xE), (0x810A0C0E, .ld2 0xA 0xC 0xE),
    (0x820A0C0E, .ld4 0xA 0xC 0xE), (0x830A0C0E, .st 0xA 0xC 0xE), (0x840A0C0E, .st2 0xA 0xC 0xE),
    (0x850A0C0E, .st4 0xA 0xC 0xE), (0x860A0C0E, .ldl 0xA 0xC 0xE), (0x870A0C0E, .ldl4 0xA 0xC 0xE),
    (0x880A0C0E, .stl 0xA 0xC 0xE), (0x890A0C0E, .stl4 0xA 0xC 0xE), (0x8A0A0C0E, .atadd 0xA 0xC 0xE),
    (0x8B0A0C0E, .atand 0xA 0xC 0xE), (0x8C0A0C0E, .ator 0xA 0xC 0xE), (0x8D0A0C0E, .atxor 0xA 0xC 0xE),
    (0x8E0A0C0E, .atmin 0xA 0xC 0xE), (0x8F0A0C0E, .atmax 0xA 0xC 0xE), (0x900A0C0E, .atxchg 0xA 0xC 0xE),
    (0x910A0C0E, .atcas 0xA 0xC 0xE), (0x920A0C0E, .atfmax 0xA 0xC 0xE), (0x930A0C0E, .atfmin 0xA 0xC 0xE),
    (0x940A0C0E, .atladd 0xA 0xC 0xE), (0x950A0C0E, .atlcas 0xA 0xC 0xE), (0x96000000, .fence),
    (0x97000C0E, .flush 0xC 0xE), (0x98000C0E, .invr 0xC 0xE), (0x99020C0E, .pref 2 0xC 0xE),
    (0x9A0A0C0E, .lockb 0xA 0xC 0xE), (0x9B000C0E, .unlockb 0xC 0xE), (0x9D0A0C0E, .deq 0xA 0xC 0xE),
    (0x9E0A0C0E, .pstore 0xA 0xC 0xE)] = true := by decide +kernel

theorem test_words_barrier : decodesAll decodeLane [
    (0xA0000C0E, .binit 0xC 0xE), (0xA10A0C02, .barr 0xA 0xC 2), (0xA2000C0E, .bexp 0xC 0xE),
    (0xA3000C0E, .bwait 0xC 0xE), (0xA4050C0E, .btest 5 0xC 0xE), (0xA50A0C1F, .nbarr 0xA 0xC 1 0xF),
    (0xA6000C09, .nbwait 0xC 9)] = true := by decide +kernel

theorem test_words_copy : decodesAll decodeLane [
    (0xA70A0405, .copy 0xA 4 1 1), (0xA80A0304, .copyg 0xA 3 1), (0xA90A0106, .copyc 0xA 1 1 2)] = true := by decide +kernel

theorem test_words_tree : decodesAll decodeLane [
    (0xB00A0CF9, .accarm 0xA 0xC), (0xB10A0C0E, .contrib 0xA 0xC 0xE), (0xB20A0C0E, .contribn 0xA 0xC 0xE),
    (0xB30A0C0E, .accq 0xA 0xC 0xE), (0xB4000C00, .accdrop 0xC)] = true := by decide +kernel

theorem test_words_region : decodesAll decodeLane [
    (0xB80A0C21, .axb 0xA 0xC 0x21), (0xB9000C22, .axe 0xC 0x22), (0xBA000023, .axinv 0x23),
    (0xBB0A303F, .axq 0xA 3 0x3F)] = true := by decide +kernel

theorem test_words_tile : decodesAll decodeTile [
    (0x04000000, .tnop), (0x0B800000, .tfmt 3 8), (0x0CE0000D, .tset 3 2 0xD), (0x10E0000D, .taddImm 3 8 0xD),
    (0x10E2D000, .taddReg 3 8 0xD), (0x14E36000, .tldb 3 8 0xD 2), (0x1B8D8000, .tldc 3 8 0xD 2),
    (0x1F000000, .tzero 3), (0x23349F00, .mm 3 0 0xD 2 7 0xC), (0x27349F00, .mmdual 3 0 0xD 2 7 0xC),
    (0x2B349F00, .mmt 3 0 0xD 2 7 0xC), (0x2F349F00, .mms 3 0 0xD 2 7 0xC), (0x30E34000, .tlds 3 8 0xD),
    (0x3736C000, .tsta 3 0 0xD 5 1), (0x3B800000, .temit 3 8), (0x3C300008, .tloopImm 3 8),
    (0x3C3C0000, .tloopReg 3 8), (0x43000000, .tincOff 3), (0x4360000D, .tincT 3 8 0xD), (0x43800008, .tincAcc 3 8),
    (0x44E00000, .twait 3 8), (0x48E00000, .tarr 3 8), (0x4C000000, .tstop)] = true := by decide +kernel

/-! ## The legality check (R41 to R44, R54, R56, R58) -/

theorem test_words_agree_with_encoder : encodeLane (.iadd 10 12 14) = some 0x200A0C0E ∧
    encodeLane (.axq 10 3 63) = some 0xBB0A303F ∧ encodeTile (.tset 4 0 0x1000) = some 0x0D001000 := by decide +kernel

theorem test_word_iadd_bits : decodeLane 0b00100000_00001010_00001100_00001110 = some (.iadd 10 12 14) := by decide +kernel

theorem test_words_refused : decodeLane 0x00000000 = none ∧ decodeLane 0x01000001 = none ∧ decodeLane 0x20F80C0E = none ∧
    decodeLane 0x27080C01 = none ∧ decodeTile 0x00000000 = none := by decide +kernel

theorem test_wf_mode_types : refusesAll [.mode 0 0 14 0 0 1 0 0, .mode 0 0 4 6 0 1 0 0, .mode 0 0 4 0 0 7 0 0, .mode 0 0 4 0 0 1 5 0,
    .mode 0 0 4 0 0 1 0 7] = true := by decide +kernel

theorem test_wf_control : refusesAll [.brx 9 0, .brx 248 0, .vote 8 0 0, .vote 248 0 3, .getc 248 0, .getc 8 15, .evwait 9 10, .evwait 8 11,
    .evadd 249 8, .ctr 9 0, .ctr 8 3, .csrr 248 0, .csrr 9 0x10, .csrr 8 0x7FF, .csrw 251 0x20, .csrw 9 0x10, .csrw 8 0x7FF] = true := by
  decide +kernel

theorem test_wf_integer : refusesAll [.iadd 248 8 8, .iadd 8 251 8, .iadd 8 8 251, .iabs 248 8, .iabs 8 251, .icmp 6 1 8 8,
    .icmp 0 1 251 8, .icmp 0 1 8 251, .movi 248 0, .lea 9 8 8, .lea 8 9 8, .lea 8 8 251, .shfli 248 8 0, .shfli 8 251 0] = true := by
  decide +kernel

theorem test_wf_uniform : refusesAll [.p2v 248 0 0, .p2v 8 1 1, .v2p 0 251 0, .v2p 1 8 1, .sadd 64 0 0, .sadd 0 64 0, .sadd 0 0 250,
    .smov 64 0, .smovi 64 0, .scmp 6 0 0 0, .scmp 0 0 64 0, .scmp 0 0 0 64, .s2v 248 0, .s2v 8 64, .v2s 64 8, .v2s 0 251, .sld 0 1 8,
    .sst 0 64 8, .sst 64 0 8, .sst 0 0 251] = true := by decide +kernel

theorem test_wf_float : refusesAll [.fcmp 0 0 251 8, .fcmp 0 0 8 251, .cvt 248 8 0 0, .cvt 8 251 0 0, .cvt 8 8 0 14, .cvtsr 8 8 0 1 0,
    .cvtsr 8 8 1 2 0, .cvtsr 8 8 5 0 0, .qmx 8 8 1, .unpackl 8 8 9, .gred 8 8 3, .dqmx 248 8 8, .cmp24 248 8 0] = true := by decide +kernel

theorem test_wf_memory : refusesAll [.ld 0 8 8, .ld 248 8 8, .ld 8 9 8, .ld 8 8 251, .ld2 7 8 8, .st 251 8 8, .st2 248 8 8, .ldl 0 8 8,
    .ldl4 7 8 8, .stl 251 8 8, .stl4 248 8 8, .atadd 248 8 8, .atadd 8 249 8, .atcas 0 8 8, .atladd 248 8 8, .atlcas 0 8 8, .flush 9 8,
    .invr 8 251, .pref 3 8 8, .lockb 0 8 8, .unlockb 9 8, .enq 9 8 8, .deq 8 9 8, .pstore 8 249 8] = true := by decide +kernel

theorem test_wf_engines : refusesAll [.binit 251 8, .bexp 8 251, .bwait 251 8, .barr 8 8 3, .barr 248 8 0, .btest 0 251 8, .nbarr 8 8 0 0,
    .nbarr 8 249 2 0, .nbwait 251 0, .copy 8 5 0 0, .copy 8 0 0 0, .copy 8 1 0 2, .copy 8 1 0 3, .copyg 8 5 0, .copyc 9 1 0 0, .copyc 8 1 0 3,
    .accarm 0 8, .accarm 8 9, .contrib 8 8 9, .accq 0 8 8, .accdrop 251, .axb 7 8 0, .axb 8 248 0, .axe 7 0, .axq 0 0 0, .axq 8 4 0,
    .tset 0 3 0, .tsta 0 0 0 6 0, .tloopImm 0 0] = true := by decide +kernel

/-! ## A cohort ready to issue -/

/-- The machine that runs one group, a cohort of its slices named under a mode word; `f` changes each slice. -/
def lane (m : BitVec 24) (f : Slice → Slice := id) (mask : BitVec 8 := 0xFF) : State :=
  let s := State.reset.withFetchWord 32 0x01000000
  let named (g : Gang) : Gang :=
    { g with slices := g.slices.map fun x => f { x with mode := m }
             area := some 0
             cohorts := [mask, ~~~mask].filter fun c => c != 0 }
  { s with exe := { s.exe with agenda := [], cur := some (0, mask), gangs := s.exe.gangs.map named } }

/-- The mode word of element type `t`, the rest as after reset. -/
def ty (t : Nat) : BitVec 24 := BitVec.ofNat 24 (t * 2 ^ 16 + 0x200)

/-- A register of a lane of the gang holds a value. -/
def withReg (s : State) (l c : Nat) (v : Word) : State :=
  { s with exe := { s.exe with gangs := s.exe.gangs.map fun g => { g with regs := smSet g.regs (regKey l c) v } } }

/-- The gang changed. -/
def withGang (s : State) (f : Gang → Gang) : State := { s with exe := { s.exe with gangs := s.exe.gangs.map f } }

/-- The group changed. -/
def withGroup (s : State) (f : Group → Group) : State := { s with exe := { s.exe with groups := s.exe.groups.map f } }

/-- A cohort issues in `s` and has the property `P`. -/
def Meets (s : State) (P : Iss → Prop) : Prop := ∃ e, issOf s = some e ∧ P e

theorem meets {s : State} {P : Iss → Prop} (d : ∀ e, Decidable (P e))
    (h : ((issOf s).any fun e => @decide (P e) (d e)) = true) : Meets s P := by
  cases hs : issOf s with
  | none => rw [hs] at h; cases h
  | some e => rw [hs] at h; exact ⟨e, hs, @of_decide_eq_true _ (d e) h⟩

def topDec (st : List StackEntry) (p : StackEntry → Prop) [DecidablePred p] : Decidable (∃ x r, st = x :: r ∧ p x) :=
  match st with
  | [] => isFalse fun ⟨_, _, h, _⟩ => by cases h
  | x :: r => if h : p x then isTrue ⟨x, r, rfl, h⟩ else isFalse fun ⟨_, _, e, q⟩ => by cases e; exact h q

def getDec (l : List Slice) (k : Nat) (p : Slice → Prop) [DecidablePred p] : Decidable (∃ x, l[k]? = some x ∧ p x) :=
  match hl : l[k]? with
  | none => isFalse fun ⟨_, e, _⟩ => by cases e
  | some x => if h : p x then isTrue ⟨x, rfl, h⟩ else isFalse fun ⟨_, e, q⟩ => by cases e; exact h q

def optDec (o : Option Nat) (p : Nat → Prop) [DecidablePred p] : Decidable (∃ x, o = some x ∧ p x) :=
  match o with
  | none => isFalse fun ⟨_, e, _⟩ => by cases e
  | some x => if h : p x then isTrue ⟨x, rfl, h⟩ else isFalse fun ⟨_, e, q⟩ => by cases e; exact h q

/-- What most statements ask of a cohort: no trap is due, stacks have room, a slice runs and none rounds by RST. -/
def Ready (e : Iss) : Prop := RoomForTraps e ∧ Quiet e ∧ someRuns e ∧ noRst e

def readyDec (e : Iss) : Decidable (Ready e) := by
  have := getDec
  unfold Ready RoomForTraps Quiet someRuns noRst
  infer_instance

def fitsDec (e : Iss) (t : Nat → Bool) (ds ss ps : List Byte) : Decidable (Fits e t ds ss ps) := by
  unfold Fits
  infer_instance

theorem witness_IssueStateInstructions : Meets (lane resetMode) fun e => Quiet e ∧ someRuns e ∧ Ready e :=
  meets (fun e => by have := readyDec e; have := getDec; unfold Quiet someRuns; infer_instance) (by decide +kernel)

/-- A ready cohort whose operands fit. -/
theorem fits {s : State} {t : Nat → Bool} {ds ss ps : List Byte}
    (h : ((issOf s).any fun e => @decide _ (@instDecidableAnd _ _ (readyDec e) (fitsDec e t ds ss ps))) = true) :
    Meets s fun e => Ready e ∧ Fits e t ds ss ps :=
  meets (fun e => @instDecidableAnd _ _ (readyDec e) (fitsDec e t ds ss ps)) h

/-- A ready cohort of which a check holds. -/
theorem ready {s : State} {p : Iss → Bool} (h : ((issOf s).any fun e => @decide (Ready e ∧ p e = true) (@instDecidableAnd _ _ (readyDec e) _)) = true) :
    Meets s fun e => Ready e ∧ p e = true :=
  meets (fun e => @instDecidableAnd _ _ (readyDec e) _) h

theorem witness_WaitHoldsUntilCountersFall :
    (Meets (lane (ty 4)) fun e => Quiet e ∧ someRuns e ∧ ∀ k ∈ e.sls, (e.g.sl k).cL ≤ 0 ∧ (e.g.sl k).cS ≤ 0 ∧ (e.g.sl k).cC ≤ 0 ∧
      (e.g.sl k).cF ≤ 0) ∧
    Meets (lane (ty 4) fun x => { x with cL := 63 }) fun e => Quiet e ∧ someRuns e ∧ ∃ k ∈ e.sls, 62 < (e.g.sl k).cL ∨
      63 < (e.g.sl k).cS :=
  ⟨meets (fun e => by have := getDec; unfold Quiet someRuns; infer_instance) (by decide +kernel),
    meets (fun e => by have := getDec; unfold Quiet someRuns; infer_instance) (by decide +kernel)⟩

/-- A JOINPT entry with no waiting lane. -/
def joinTop (pc : VAddr) : StackEntry := { kind := .joinpt, lanes := 15, pc := pc }

theorem witness_BranchAndCall :
    (Meets (lane (ty 4)) fun e => Quiet e ∧ someRuns e ∧ targetOf e.pc 0xFFFFFF 0xFFFFC ∧
      ∀ k ∈ e.sls, (divided (e.g.sl k) (sliceMask k (activeOn e.g)) 0xFFFFC (e.pc + 4)).isSome = true ∧
        (sliceMask k (activeOn e.g) ≠ 0 → (e.g.sl k).stack.length < 64)) ∧
    Meets (withGang (lane 0x140200 fun x => { x with stack := List.replicate 63 (joinTop 0x100040) }) fun g => { g with preds := [(1, 0x33333333)] })
      fun e => Quiet e ∧ someRuns e ∧ targetOf e.pc 1 0x100004 ∧
      ∀ k ∈ e.sls, (divided (e.g.sl k) (sliceMask k (activeOn e.g)) 0x100004 (e.pc + 4)).isSome = true ∧
        (sliceMask k (activeOn e.g) ≠ 0 → (e.g.sl k).stack.length < 64) :=
  ⟨meets (fun e => by have := getDec; unfold Quiet someRuns targetOf; infer_instance) (by decide +kernel),
    meets (fun e => by have := getDec; unfold Quiet someRuns targetOf; infer_instance) (by decide +kernel)⟩

theorem witness_IntegerArithmetic :
    (Meets (lane (ty 0)) fun e => Ready e ∧ Fits e setInt [8] [10, 248] []) ∧ (Meets (lane (ty 3)) fun e => Ready e ∧ Fits e setInt [246] [10, 250] []) ∧
    (Meets (lane (ty 8)) fun e => Ready e ∧ Fits e setSigned [8] [10] []) ∧ Meets (lane (ty 10)) fun e => Ready e ∧ Fits e setByte [8] [10, 12] [] :=
  ⟨fits (by decide +kernel), fits (by decide +kernel), fits (by decide +kernel), fits (by decide +kernel)⟩

theorem witness_BitInstructions :
    (Meets (lane (ty 13)) fun e => Ready e ∧ Fits e setAny [0] [10, 12] []) ∧ (Meets (lane (ty 9)) fun e => Ready e ∧ Fits e setInt [8] [10] [247]) ∧
    (Meets (lane (ty 2)) fun e => Ready e ∧ Fits e setWide [] [246] [8]) ∧ (Meets (lane (ty 1)) fun e => Ready e ∧ Fits e setWide [8] [10] []) ∧
    Meets (lane (ty 3)) fun e => Ready e ∧ Fits e setWide [8] [10] [12] :=
  ⟨fits (by decide +kernel), fits (by decide +kernel), fits (by decide +kernel), fits (by decide +kernel), fits (by decide +kernel)⟩

theorem witness_MovesAndShuffles :
    (Meets (lane (ty 5)) fun e => Ready e ∧ Fits e setAny [8] [10, 12] []) ∧ (Meets (lane (ty 4)) fun e => Ready e ∧ Fits e setAny [] [] [247]) ∧
    (Meets (lane (ty 6)) fun e => Ready e ∧ ((e.sls.all fun k => setAny (e.ty k)) && pairOk e.n 8 && wideOk e.n 249 && declOk e.n 250) = true) ∧
    Meets (lane (ty 2)) fun e => Ready e ∧ Fits e setAny [8] [10] [] :=
  ⟨fits (by decide +kernel), fits (by decide +kernel), ready (by decide +kernel), fits (by decide +kernel)⟩

theorem witness_Predicates :
    (Meets (lane (ty 3)) fun e => Ready e ∧ Fits e setWide [] [10, 248] []) ∧
    (Meets (lane (ty 1)) fun e => Ready e ∧ ((e.sls.all fun k => decide (e.ty k ≤ 1)) && !sldPending e) = true) ∧
    Meets (lane (ty 4)) fun e => Ready e ∧ declOk e.n 247 = true :=
  ⟨fits (by decide +kernel), ready (by decide +kernel), ready (by decide +kernel)⟩

theorem witness_ElectionsAndVotes : Meets (lane (ty 4)) fun e => Ready e ∧ declOk e.n 8 = true := ready (by decide +kernel)

/-- An SLD of gang 0 in flight. -/
def someOp (kind : OpKind) (cls : Cls) : MemOp :=
  { id := 7, issue := 7, gang := 0, slice := 0, core := 0, part := 0, ctx := 0, kern := 0, kind := kind, cls := cls, order := 0, scope := 1,
    dst := 8, nreg := 1, parts := [{ lane := 0, va := 0x3000, pa := 0x3000, len := 4 }] }

/-- The machine with operations in flight. -/
def withOps (s : State) (os : List MemOp) : State := { s with mem := { s.mem with ops := os } }

theorem witness_UniformInstructions :
    (Meets (lane (ty 0)) fun e => Ready e ∧ ((e.sls.all fun k => decide (e.ty k ≤ 1)) && declOk e.n 8 && !sldPending e) = true) ∧
    Meets (withOps (lane (ty 4)) [someOp .sload .none]) fun e => Ready e ∧ sldPending e = true :=
  ⟨ready (by decide +kernel), ready (by decide +kernel)⟩

theorem witness_FloatArithmetic :
    (Meets (lane (ty 4)) fun e => Ready e ∧ Fits e setFp [8] [10, 12] []) ∧ Meets (lane (ty 7)) fun e => Ready e ∧ Fits e setFp [8] [10] [250] :=
  ⟨fits (by decide +kernel), fits (by decide +kernel)⟩

theorem witness_FloatFunctions :
    (Meets (lane (ty 5)) fun e => Ready e ∧ Fits e setFp [8] [10] []) ∧ Meets (lane (ty 6)) fun e => Ready e ∧ Fits e setFps [8] [10] [] :=
  ⟨fits (by decide +kernel), fits (by decide +kernel)⟩

theorem witness_FloatFunctions_special : F16 ∈ [F32, F16, BF16] ∧ decodeF F16 0x7E01 = .nan ∧ decodeF F32 0xFFFFFFFF = .nan ∧
    2 ^ (F16.eb + F16.mb) = 0x8000 ∧ infCode F16 = 0x7C00 ∧ infCode F32 = 0x7F800000 := by decide +kernel

theorem witness_FloatOrderAndCompares :
    (Meets (lane (ty 6)) fun e => Ready e ∧ Fits e setFp [8] [10, 12] []) ∧ (Meets (lane (ty 5)) fun e => Ready e ∧ Fits e setScal [] [10, 249] []) ∧
    Meets (lane (ty 4)) fun e => Ready e ∧ Fits e setFp [] [10] [8] :=
  ⟨fits (by decide +kernel), fits (by decide +kernel), fits (by decide +kernel)⟩

theorem witness_Conversions :
    (Meets (lane (ty 4)) fun e => Ready e ∧ (e.sls.all fun k => cvtOk e.n (e.mode k) 8 10 3 13) = true) ∧
    (Meets (lane (ty 12)) fun e => Ready e ∧ (e.sls.all fun k => cvtOk e.n (e.mode k) 8 10 3 4) = true) ∧
    Meets (lane (ty 5)) fun e => Ready e ∧ Fits e setScal [] [10] [8] :=
  ⟨ready (by decide +kernel), ready (by decide +kernel), fits (by decide +kernel)⟩

theorem witness_ScaleDotAndCrossLane :
    (Meets (lane (ty 4)) fun e => Ready e ∧ Fits e setF32 [] [] [8, 10, 12]) ∧ (Meets (lane (ty 6)) fun e => Ready e ∧ Fits e setHalf [] [] [8, 10, 12]) ∧
    (Meets (lane (ty 7)) fun e => Ready e ∧ Fits e setFps [8] [10] []) ∧ (Meets (lane (ty 5)) fun e => Ready e ∧ Fits e setFp [8] [10] []) ∧
    Meets (lane (ty 0)) fun e => Ready e ∧ Fits e (fun _ => true) [] [] [8, 10] :=
  ⟨fits (by decide +kernel), fits (by decide +kernel), fits (by decide +kernel), fits (by decide +kernel), fits (by decide +kernel)⟩

theorem witness_PackAndTwoOfFour :
    (Meets (withReg (lane (ty 4)) 0 12 8) fun e => Ready e ∧ ((decide (e.active.head? = some 0)) && decide (rd e.g 0 12 % 16 ≤ 8) && declOk e.n 8) = true) ∧
    (Meets (lane (ty 10)) fun e => Ready e ∧ Fits e setC24 [] [] [8]) ∧
    Meets (lane (ty 6)) fun e => Ready e ∧ (e.sls.all fun k => if setHalf (e.ty k) then pairOk e.n 10 else declOk e.n 10) = true :=
  ⟨ready (by decide +kernel), fits (by decide +kernel), ready (by decide +kernel)⟩

/-- A stack entry of a kind, with every lane of its slice. -/
def entry (k : StackKind) (pc : VAddr) : StackEntry := { kind := k, lanes := 15, pc := pc }

theorem witness_StackAndUnwinding_returns :
    (Meets (lane (ty 4) fun x => { x with stack := [entry .call 0x100080] }) fun e => Quiet e ∧
      (∀ k ∈ e.sls, ∃ x r, (e.g.sl k).stack = x :: r ∧ x.kind = .call) ∧
      ∃ k ∈ e.sls, ∃ y, e.g.slices[k]? = some y ∧ ∃ x r, y.stack = x :: r ∧ x.lanes &&& ~~~y.exited ≠ 0) ∧
    (Meets (lane (ty 4)) fun e => Quiet e ∧ lowestSuch e 0 fun k => ¬ ∃ x r, (e.g.sl k).stack = x :: r ∧ x.kind = .call) ∧
    (Meets (lane (ty 4) fun x => { x with stack := List.replicate 63 (joinTop 0) }) fun e => Quiet e ∧ someRuns e ∧
      targetOf e.pc 0x10 0x100040 ∧ ∀ k ∈ e.sls, (e.g.sl k).stack.length < 64) ∧
    Meets (lane (ty 4) fun x => { x with stack := List.replicate 64 (joinTop 0) }) fun e => Quiet e ∧ targetOf e.pc 0x10 0x100040 ∧
      lowestSuch e 0 fun k => 64 ≤ (e.g.sl k).stack.length :=
  ⟨meets (fun e => by have := getDec; have := topDec; unfold Quiet; infer_instance) (by decide +kernel),
    meets (fun e => by have := topDec; unfold Quiet lowestSuch; infer_instance) (by decide +kernel),
    meets (fun e => by have := getDec; unfold Quiet someRuns targetOf; infer_instance) (by decide +kernel),
    meets (fun e => by unfold Quiet lowestSuch targetOf; infer_instance) (by decide +kernel)⟩

theorem witness_StackAndUnwinding_joins :
    (Meets (lane (ty 4) fun x => { x with stack := [{ joinTop 0x100000 with pend := 1 }] }) fun e => Quiet e ∧
      (∀ k ∈ e.sls, ∃ x r, (e.g.sl k).stack = x :: r ∧ x.kind = .joinpt ∧ x.pc = (e.g.sl k).pc) ∧
      ∃ k ∈ e.sls, ∃ y, e.g.slices[k]? = some y ∧ ∃ x r, y.stack = x :: r ∧ (x.pend ≠ 0 ∨ x.lanes &&& ~~~y.exited ≠ 0)) ∧
    (Meets (lane (ty 4) fun x => { x with stack := [joinTop 4] }) fun e => Quiet e ∧
      lowestSuch e 0 fun k => ¬ ∃ x r, (e.g.sl k).stack = x :: r ∧ x.kind = .joinpt ∧ x.pc = (e.g.sl k).pc) ∧
    Meets (lane (ty 4)) fun e => Quiet e ∧ someRuns e ∧ pairOk e.n 8 = true ∧ ∀ k ∈ e.sls, (e.g.sl k).run ≠ 0 ∧
      (∀ j < 4, activeOn e.g (4 * k + j) = true → rdPair e.g (4 * k + j) 8 % 4 = 0 ∧ rdPair e.g (4 * k + j) 8 < 2 ^ 56) ∧
      (divided (e.g.sl k) (brxSideOf e 8 k) (BitVec.ofNat 56 (brxGoes e 8 (leadLane e k))) e.pc).isSome = true ∧ (e.g.sl k).stack.length < 64 :=
  ⟨meets (fun e => by have := getDec; have := topDec; unfold Quiet; infer_instance) (by decide +kernel),
    meets (fun e => by have := topDec; unfold Quiet lowestSuch; infer_instance) (by decide +kernel),
    meets (fun e => by have := getDec; unfold Quiet someRuns; infer_instance) (by decide +kernel)⟩

/-- What a step leaves satisfies a check. -/
def leaves (o : Host.Outcome State Fault Refusal) (p : State → Bool) : Bool :=
  match o with
  | .next t => p t
  | _ => false

theorem witness_ExitEndsLanes :
    (Meets (lane (ty 4)) fun e => Quiet e ∧ (∀ k < 8, (e.g.sl k).regang = none) ∧ e.kern.fixed = false ∧ e.grp.state = .running) ∧
    leaves (exec .exit (lane (ty 4))) (fun t => t.exe.gangs.all (fun g => g.slices.all Slice.finished) &&
      t.exe.groups.all fun g => g.state == .exiting) = true :=
  ⟨meets (fun e => by unfold Quiet; infer_instance) (by decide +kernel), by decide +kernel⟩

/-- The slices outside a mask changed. -/
def elsewhere (s : State) (mask : BitVec 8) (f : Slice → Slice) : State :=
  withGang s fun g => { g with slices := g.slices.zipIdx.map fun x => if mask.getLsbD x.2 then x.1 else f x.1 }

theorem witness_RegangMerges :
    (Meets (lane (ty 4) id 0x01) fun e => Quiet e ∧ someRuns e ∧ e.g.slices.length = 8 ∧
      ∃ k < 8, k ∉ e.sls ∧ (e.g.sl k).finished = false ∧ (e.g.sl k).regang = none) ∧
    (Meets (elsewhere (lane (ty 4) id 0x81) 0x81 fun x => { x with regang := some 5 }) fun e => Quiet e ∧ someRuns e ∧ e.g.slices.length = 8 ∧
      (∀ k < 8, k ∉ e.sls → (e.g.sl k).finished = true ∨ ((e.g.sl k).regang = some 5 ∧ (e.g.sl k).pc = e.pc)) ∧
      ∀ k ∈ e.sls, (e.g.sl k).pc = e.pc ∧ (e.g.sl k).finished = false) ∧
    Meets (elsewhere (lane (ty 4) id 0x01) 0x01 fun x => { x with regang := some 5 }) fun e => Quiet e ∧ someRuns e ∧ e.g.slices.length = 8 ∧
      (∀ k < 8, k ∉ e.sls → (e.g.sl k).finished = true ∨ (e.g.sl k).regang ≠ none) ∧ (∀ k ∈ e.sls, (e.g.sl k).finished = false) ∧
      ∃ k < 8, k ∉ e.sls ∧ (e.g.sl k).finished = false ∧ ((e.g.sl k).regang ≠ some 6 ∨ (e.g.sl k).pc ≠ e.pc) :=
  ⟨meets (fun e => by have := getDec; unfold Quiet someRuns; infer_instance) (by decide +kernel),
    meets (fun e => by have := getDec; unfold Quiet someRuns; infer_instance) (by decide +kernel),
    meets (fun e => by have := getDec; unfold Quiet someRuns; infer_instance) (by decide +kernel)⟩

/-- The partition's policy opens every facility. -/
def opened (s : State) : State :=
  { s with ctl := { s.ctl with parts := s.ctl.parts.map fun p => { p with policy := some { facil := 0xFF, counter := 1, doms := [], blob := [] } } } }

theorem witness_TrapsAndReturns :
    (Meets (lane (ty 4) fun x => { x with stack := List.replicate 63 (joinTop 0) }) fun e => Quiet e ∧ someRuns e ∧
      (dbgCtl e.s e.g e.kern.part).getLsbD 0 = false ∧ ∀ k ∈ e.sls, e.act k ≠ 0 → (e.g.sl k).stack.length < 64) ∧
    (Meets (lane (ty 4) fun x => { x with stack := List.replicate 64 (joinTop 0) }) fun e => Quiet e ∧ someRuns e ∧
      lowestSuch e 0 fun k => e.act k ≠ 0 ∧ 64 ≤ (e.g.sl k).stack.length) ∧
    (Meets (lane (ty 4) fun x => { x with stack := [entry .trap 0x100008] }) fun e => Quiet e ∧ someRuns e ∧
      (∀ k ∈ e.sls, ∃ x r, (e.g.sl k).stack = x :: r ∧ x.kind = .trap) ∧
      ∃ k ∈ e.sls, ∃ y, e.g.slices[k]? = some y ∧ ∃ x r, y.stack = x :: r ∧ x.lanes &&& ~~~y.exited ≠ 0) ∧
    Meets (lane (ty 4)) fun e => Quiet e ∧ someRuns e ∧ lowestSuch e 0 fun k => ¬ ∃ x r, (e.g.sl k).stack = x :: r ∧ x.kind = .trap :=
  ⟨meets (fun e => by have := getDec; unfold Quiet someRuns; infer_instance) (by decide +kernel),
    meets (fun e => by have := getDec; unfold Quiet someRuns lowestSuch; infer_instance) (by decide +kernel),
    meets (fun e => by have := getDec; have := topDec; unfold Quiet someRuns; infer_instance) (by decide +kernel),
    meets (fun e => by have := getDec; have := topDec; unfold Quiet someRuns lowestSuch; infer_instance) (by decide +kernel)⟩

theorem witness_FaultsAndTraps_faults :
    (Meets (lane (ty 4)) fun e => lowestSuch e 0 fun k => e.act k ≠ 0) ∧
    (Meets (lane 0x140200) fun e => Quiet e ∧ someRuns e ∧ ∀ k ∈ e.sls, e.act k = 0) ∧
    (Meets (lane (ty 4)) fun e => lowestSuch e 0 fun k => setInt (e.ty k) = false) ∧
    Meets (withGang (opened (lane (ty 4))) fun g => { g with dbgCtl := 1 }) fun e => (dbgCtl e.s e.g e.kern.part).getLsbD 0 = true ∧ Quiet e ∧
      (∃ x, e.g.slices[0]? = some x ∧ x.run ≠ 0) ∧ lowestSuch e 0 fun k => e.act k ≠ 0 :=
  ⟨meets (fun e => by unfold lowestSuch; infer_instance) (by decide +kernel),
    meets (fun e => by have := getDec; unfold Quiet someRuns; infer_instance) (by decide +kernel),
    meets (fun e => by unfold lowestSuch; infer_instance) (by decide +kernel),
    meets (fun e => by have := getDec; unfold Quiet lowestSuch; infer_instance) (by decide +kernel)⟩

theorem witness_FaultsAndTraps_traps :
    (Meets (withGang (opened (lane (ty 4))) fun g => { g with dbgCtl := 2 }) fun e => RoomForTraps e ∧ 7 ∈ e.sls ∧
      (∃ x, e.g.slices[7]? = some x ∧ x.stack.length < 64) ∧ mayTrap e 7 ∧ e.g.fpxEn = 0 ∧ (dbgCtl e.s e.g e.kern.part).getLsbD 1 = true) ∧
    (Meets (withGang (lane (ty 4)) fun g => { g with fpxEn := 31 }) fun e => RoomForTraps e ∧ noRst e ∧ 0 ∈ e.sls ∧ mayTrap e 0 ∧
      (∃ x, e.g.slices[0]? = some x ∧ x.stack.length < 64) ∧ Fits e setFp [8] [10, 12] []) ∧
    leaves (exec (.fadd 8 10 12) (withReg (withReg (withGang (lane (ty 4)) fun g => { g with fpxEn := 31 }) 0 10 0x7F800000) 0 12 0xFF800000))
      (fun t => t.exe.gangs.all fun g => (g.sl 0).trapCause == 0x00100022 && (g.sl 0).mode == 0x040200 && (g.sl 1).trapCause == 0) = true :=
  ⟨meets (fun e => by have := getDec; unfold RoomForTraps mayTrap; infer_instance) (by decide +kernel),
    meets (fun e => by have := getDec; have := fitsDec e; unfold RoomForTraps mayTrap noRst; infer_instance) (by decide +kernel),
    by decide +kernel⟩

theorem witness_ControlRegisters :
    (Meets (opened (lane (ty 4))) fun e => Ready e ∧ (pairOk e.n 8 && declOk e.n 247 && e.kern.pkt.stages.length == 4 &&
      decide ((e.kern.pkt.stages.take 0).sum ≤ e.g.idx) && decide (e.g.idx < (e.kern.pkt.stages.take 1).sum) &&
      facilOpen e.s.ctl.parts e.kern.part 1) = true) ∧
    (Meets (withReg (lane (ty 4)) 0 8 31) fun e => Ready e ∧ ((WellFormed.csrWide 0x20).isSome && declOk e.n 8 &&
      e.sls.all fun k => ((csrwSource e 8 0x20 k).map (csrwValueOk e 0x20)).getD true) = true) ∧
    Meets (withReg (lane (ty 4)) 0 8 32) fun e => declOk e.n 8 = true ∧
      lowestSuch e 0 fun k => ∃ v, csrwSource e 8 0x20 k = some v ∧ 32 ≤ v :=
  ⟨ready (by decide +kernel), ready (by decide +kernel),
    meets (fun e => by have := fun (o : Option Nat) (p : Nat → Prop) [DecidablePred p] => optDec o p; unfold lowestSuch; infer_instance)
      (by decide +kernel)⟩

/-! ## Memory, barriers, copies, the tree and regions -/

def okDec {α β : Type} (x : Except α β) : Decidable (∃ p, x = .ok p) :=
  match x with
  | .ok p => isTrue ⟨p, rfl⟩
  | .error _ => isFalse fun ⟨_, h⟩ => by cases h

def errDec {α β : Type} (x : Except α β) : Decidable (∃ p, x = .error p) :=
  match x with
  | .error p => isTrue ⟨p, rfl⟩
  | .ok _ => isFalse fun ⟨_, h⟩ => by cases h

def reachDec (e : Iss) (f : Nat → Except FaultCode (List (MemPart × Nat))) : Decidable (Reaches e f) := by
  have := fun l => okDec (f l)
  unfold Reaches
  infer_instance

/-- A cohort that issues an access whose lanes reach memory. -/
theorem reach {s : State} {p : Iss → Bool} {f : Iss → Nat → Except FaultCode (List (MemPart × Nat))}
    (h : ((issOf s).any fun e => @decide (Ready e ∧ p e = true ∧ Reaches e (f e))
      (@instDecidableAnd _ _ (readyDec e) (@instDecidableAnd _ _ _ (reachDec e (f e))))) = true) :
    Meets s fun e => Ready e ∧ p e = true ∧ Reaches e (f e) :=
  meets (fun e => @instDecidableAnd _ _ (readyDec e) (@instDecidableAnd _ _ _ (reachDec e (f e)))) h

theorem witness_AccessesAreCutAtCells : Meets (lane (ty 4)) fun e =>
    ∃ ps, laneParts e.s 0 e.ctx 3 0x1FFFE 6 needRW [1, 2, 3, 4, 5, 6] = .ok ps :=
  meets (fun _ => okDec _) (by decide +kernel)

/-- A lane of the gang names an address that no page maps, in the pair 8 and 9. -/
def astray (s : State) : State := withReg s 5 9 0x40

theorem witness_LoadsAndStoresIssue :
    (Meets (withReg (lane (ty 5) fun x => { x with cL := 62 }) 31 8 0x1E) fun e => Ready e ∧
      (e.sls.all fun j => decide (e.ty j ≤ 13) && loadOrder (e.mode j) && baseOk e.n 8 && declOk e.n 250 && loadRunOk e.n 12 (runLen 2 (e.ty j))
        && decide ((e.g.sl j).cL < 63)) = true ∧
      Reaches e fun l => laneParts e.s (coreAt e.core) e.ctx l (blockEa e.g l 8 250) (4 * runLen 2 (e.lty l)) needR []) ∧
    (Meets (lane (ty 4) fun x => { x with cL := 63 }) fun e => ∃ j ∈ e.sls, 63 ≤ (e.g.sl j).cL) ∧
    (Meets (astray (lane (ty 4))) fun e => (∀ j ∈ e.sls, (e.g.sl j).cL < 63) ∧ firstFailing e (fun l => excFault
      (laneParts e.s (coreAt e.core) e.ctx l (blockEa e.g l 8 249) 4 needR [])) 5 .xlateFault) ∧
    (Meets (lane (ty 4) fun x => { x with cS := 62 }) fun e => Ready e ∧
      (e.sls.all fun j => decide (e.ty j ≤ 13) && storeOrder (e.mode j) && baseOk e.n 8 && declOk e.n 250 && storeRunOk e.n (e.ty j) 12 (runLen 4 (e.ty j)) false
        && decide ((e.g.sl j).cS < 63)) = true ∧
      Reaches e fun l => laneParts e.s (coreAt e.core) e.ctx l (blockEa e.g l 8 250) (4 * runLen 4 (e.lty l)) needW
        (storeBytes e.g (e.lty l) l 12 (runLen 4 (e.lty l)) false)) ∧
    (Meets (lane (ty 4) fun x => { x with cS := 63 }) fun e => ∃ j ∈ e.sls, 63 ≤ (e.g.sl j).cS) ∧
    Meets (astray (lane (ty 4))) fun e => (∀ j ∈ e.sls, (e.g.sl j).cS < 63) ∧ firstFailing e (fun l => storeFault e.s
      (laneParts e.s (coreAt e.core) e.ctx l (blockEa e.g l 8 249) 4 needW (storeBytes e.g (e.lty l) l 12 1 true))) 5 .xlateFault :=
  ⟨reach (p := fun e => e.sls.all fun j => decide (e.ty j ≤ 13) && loadOrder (e.mode j) && baseOk e.n 8 && declOk e.n 250 &&
      loadRunOk e.n 12 (runLen 2 (e.ty j)) && decide ((e.g.sl j).cL < 63)) (by decide +kernel),
    meets (fun _ => inferInstance) (by decide +kernel),
    meets (fun e => by unfold firstFailing; infer_instance) (by decide +kernel),
    reach (p := fun e => e.sls.all fun j => decide (e.ty j ≤ 13) && storeOrder (e.mode j) && baseOk e.n 8 && declOk e.n 250 &&
      storeRunOk e.n (e.ty j) 12 (runLen 4 (e.ty j)) false && decide ((e.g.sl j).cS < 63)) (by decide +kernel),
    meets (fun _ => inferInstance) (by decide +kernel),
    meets (fun e => by unfold firstFailing; infer_instance) (by decide +kernel)⟩

theorem witness_WindowAndAtomicIssue_window :
    (Meets (lane (ty 4)) fun e => Ready e ∧ ((e.sls.all fun j => decide (e.ty j ≤ 13) && loadOrder (e.mode j) && !tyWide (e.ty j) && declOk e.n 10 &&
      declOk e.n 12 && loadRunOk e.n 16 (runLen 4 (e.ty j)) && storeRunOk e.n (e.ty j) 16 (runLen 4 (e.ty j)) false && storeOrder (e.mode j) &&
      decide ((e.g.sl j).cL < 63) && decide ((e.g.sl j).cS < 63)) && e.active.all fun l => lmOk e.kern.pkt.lmem (lmOffset e.g l 10 12) 16) = true) ∧
    (Meets (withReg (lane (ty 4)) 31 10 0x10000) fun e => firstFailing e (fun l => lmFault e.kern.pkt.lmem (lmOffset e.g l 10 12) 4) 31 .lmRange) ∧
    Meets (lane (ty 1)) fun e => Ready e ∧ ((e.sls.all fun j => decide (e.ty j ≤ 1) && declOk e.n 8 && declOk e.n 10 && declOk e.n 12 &&
      decide (clsCount (e.g.sl j) .l < 63)) && e.active.all fun l => lmOk e.kern.pkt.lmem (rd e.g l 10) 4) = true :=
  ⟨ready (by decide +kernel), meets (fun e => by unfold firstFailing; infer_instance) (by decide +kernel), ready (by decide +kernel)⟩

/-- The one page maps a peer's memory. -/
def peerPage (s : State) : State :=
  { s with mem := { s.mem with bytes := smPut s.mem.bytes 0x20000 (natLe (2 ^ 43 + 0x181F) 8) }, sys := { s.sys with domId := 0 } }

theorem witness_WindowAndAtomicIssue_atomics :
    (Meets (lane (ty 2)) fun e => Ready e ∧ (e.sls.all fun j => tyI (e.ty j) && pairOk e.n 10 && srcOk e.n (e.ty j) 12 && dstOk e.n (e.ty j) 8 &&
      decide (clsCount (e.g.sl j) .l < 63)) = true ∧ Reaches e fun l => rmwPart e.s (coreAt e.core) e.ctx l (rdPair e.g l 10) 8 .add (e.val 12 l) (e.val 8 l)) ∧
    (Meets (astray (lane (ty 4))) fun e => firstFailing e (fun l => excFault
      (rmwPart e.s (coreAt e.core) e.ctx l (rdPair e.g l 8) 4 .fmax (e.val 12 l) (e.val 0 l))) 5 .xlateFault) ∧
    (Meets (lane (ty 4)) fun e => Ready e ∧ (pairOk e.n 8 && wideOk e.n 248 && e.sls.all fun j => decide ((e.g.sl j).cS < 63)) = true ∧
      Reaches e fun l => rmwPart e.s (coreAt e.core) e.ctx l (rdPair e.g l 8) 8 .add (rd64 e.g l 248 false) 0) ∧
    (Meets (lane (ty 4)) fun e => Ready e ∧ (pairOk e.n 8 && pairOk e.n 10 && declOk e.n 249 && (e.sls.all fun j => decide ((e.g.sl j).cL < 63)) &&
      !ownLocalPending e) = true ∧ Reaches e fun l => queuePart e.s e l 10 249 true) ∧
    Meets (withGang (peerPage (lane (ty 4))) fun g => { g with regs := (List.range 32).foldl (fun m l => smSet m (regKey l 12) 383) g.regs }) fun e => Ready e ∧
      (e.sls.all fun j => decide (e.ty j ≤ 13) && storeOrder (e.mode j) && srcOk e.n (e.ty j) 8 && pairOk e.n 10 && declOk e.n 12 && decide ((e.g.sl j).cS < 63)) = true ∧
      Reaches e fun l => pstorePart e.s (coreAt e.core) e.ctx l (rdPair e.g l 10) (rd e.g l 12) 4 (natLe (e.val 8 l) 4) :=
  ⟨reach (p := fun e => e.sls.all fun j => tyI (e.ty j) && pairOk e.n 10 && srcOk e.n (e.ty j) 12 && dstOk e.n (e.ty j) 8 &&
      decide (clsCount (e.g.sl j) .l < 63)) (by decide +kernel),
    meets (fun e => by unfold firstFailing; infer_instance) (by decide +kernel),
    reach (p := fun e => pairOk e.n 8 && wideOk e.n 248 && e.sls.all fun j => decide ((e.g.sl j).cS < 63)) (by decide +kernel),
    reach (p := fun e => pairOk e.n 8 && pairOk e.n 10 && declOk e.n 249 && (e.sls.all fun j => decide ((e.g.sl j).cL < 63)) && !ownLocalPending e) (by decide +kernel),
    reach (p := fun e => e.sls.all fun j => decide (e.ty j ≤ 13) && storeOrder (e.mode j) && srcOk e.n (e.ty j) 8 && pairOk e.n 10 && declOk e.n 12 &&
      decide ((e.g.sl j).cS < 63)) (by decide +kernel)⟩

theorem witness_FencesBlocksAndUniform :
    (Meets (lane 0x040300) fun e => Ready e ∧ ((e.sls.all fun k => mOrder (e.mode k) != 0) && e.sls.all (fenceReady e)) = true) ∧
    (Meets (withOps (lane 0x040240 fun x => { x with cL := 1 }) [someOp .load .l]) fun e => e.sls.all (fenceReady e) = false) ∧
    (Meets (lane (ty 4)) fun e => lowestSuch e 0 fun k => mOrder (e.mode k) = 0) ∧
    (Meets (lane (ty 4)) fun e => Ready e ∧ (pairOk e.n 8 && wideOk e.n 249 && baseOk e.n 249 && (e.active.all fun l => decide (rdPair e.g l 8 % 8 = 0) &&
      (excFault (xlate e.s (coreAt e.core) e.ctx (rdPair e.g l 8) needR)).isNone && decide (rd64 e.g l 249 false ≤ 0)) &&
      (e.active.all fun l => evReady e l 0) && (e.sls.all fun j => decide ((e.g.sl j).cS < 63)) &&
      (rangeFault e.s (coreAt e.core) e.ctx (rd64 e.g 0 8 false) (rd e.g 0 12) needR).isNone && !sldPending e && storeOrder (e.mode 0) && loadOrder (e.mode 0)) = true) ∧
    (Meets (lane (ty 4) fun x => { x with im := 512 }) fun e => Ready e ∧ (declOk e.n 8 && baseOk e.n 10 && declOk e.n 248 && (e.active.all fun l =>
      decide (rd e.g l 248 ≠ 0) && decide (rd e.g l 248 ≤ 512) && decide (rd64 e.g l 10 false / 512 = (rd64 e.g l 10 false + rd e.g l 248 - 1) / 512) &&
      (excFault (xlate e.s (coreAt e.core) e.ctx (rd64 e.g l 10 false) needRW)).isNone)) = true) ∧
    Meets (lane (ty 4)) fun e => ∃ ps, laneParts e.s (coreAt e.core) e.ctx 0 (uniEa e 8 249) 4 needR [] = .ok ps :=
  ⟨ready (by decide +kernel), meets (fun _ => inferInstance) (by decide +kernel), meets (fun e => by unfold lowestSuch; infer_instance) (by decide +kernel),
    ready (by decide +kernel), ready (by decide +kernel), meets (fun _ => okDec _) (by decide +kernel)⟩

/-- A window with a transaction barrier at offset 32: cells, arrivals, phase, reload. -/
def barWindow (cells pend phase reload : Nat) : SMap 8 := smPut [] 32 (natLe (cells + 2 ^ 32 * (pend + 2 ^ 16 * phase) + 2 ^ 64 * reload) 16)

def withWindow (s : State) (w : SMap 8) : State := withGroup s fun g => { g with window := w }

theorem witness_Barriers_transaction :
    (Meets (withReg (withWindow (lane (ty 4)) (barWindow 5 32 15 1)) 0 10 32) fun e => Ready e ∧ windowDone e ∧ releaseDone e ∧ barrierFits e 32 ∧
      e.active.head? = some 0 ∧ rd e.g 0 10 = 32 ∧ BarrierIn e.grp.window 32 5 32 15 1 ∧ arrivals e 0 32 ∧ arrivals e 1 8 ∧ arrivals e 2 1) ∧
    (Meets (withReg (lane (ty 4)) 0 10 0x10000) fun e => windowDone e ∧ ¬ barrierFits e 0x10000 ∧ rd e.g 0 10 = 0x10000) ∧
    BarrierIn (barWindow (2 ^ 32 - 1) 65535 0 65535) 32 (-1) 65535 0 65535 :=
  ⟨meets (fun e => by have := readyDec e; unfold windowDone releaseDone barrierFits BarrierIn arrivals; infer_instance) (by decide +kernel),
    meets (fun e => by unfold windowDone barrierFits; infer_instance) (by decide +kernel), by unfold BarrierIn; decide +kernel⟩

theorem witness_Barriers_numbered : Meets (lane (ty 4)) fun e => Ready e ∧ releaseDone e ∧ declOk e.n 10 = true ∧ e.active.head? = some 0 ∧
    e.grp.nbs[15]? = some { phase := 0, reload := 2, pend := 2 } :=
  meets (fun e => by have := readyDec e; unfold releaseDone; infer_instance) (by decide +kernel)

/-- A machine whose lanes describe one-row copies of 16 bytes from 1 MiB to the window, in O1 to O4. -/
def copying (d : Nat) : State := withGang (lane (ty 4)) fun g =>
  { g with regs := (List.range 32).foldl (fun m l => smSet (smSet (smSet (smSet m (regKey l 1) 0x100000) (regKey l 3) (BitVec.ofNat 32 (16 * l)))
    (regKey l 4) 15) (regKey l 8) (BitVec.ofNat 32 d)) g.regs }

/-- The same for one cohort of four slices, so that the sixteen entries take its copies at once. -/
def copies (d : Nat) : State :=
  let s := copying d
  { s with exe := { s.exe with cur := some (0, 0x0F), gangs := s.exe.gangs.map fun g => { g with cohorts := [0x0F, 0xF0] } } }

theorem witness_Copies_issue :
    (Meets (copies 0) fun e => Ready e ∧ copiesFree e ∧ declOk e.n 249 = true ∧ e.active.length = 16 ∧
      ∀ l ∈ e.active, ∃ c, copyLane e .g2l 249 1 true l (e.s.exe.nextId + 8 + l) = .ok c) ∧
    (Meets (copying 0) fun e => Ready e ∧ copiesFree e ∧ e.active.length = 32 ∧ ∃ c, copyLane e .l2g 8 1 true 31 31 = .ok c) ∧
    (Meets (copies 0x100) fun e => Ready e ∧ ∃ c, gatherLane e 8 1 true 0 0 = .ok c) ∧
    Meets (copies 0) fun e => Ready e ∧ ∃ x, copyLane e .g2l 8 2 true 0 0 = .error x :=
  ⟨meets (fun e => by have := readyDec e; have := fun l => okDec (copyLane e .g2l 249 1 true l (e.s.exe.nextId + 8 + l)); unfold copiesFree; infer_instance) (by decide +kernel),
    meets (fun e => by have := readyDec e; have := okDec (copyLane e .l2g 8 1 true 31 31); unfold copiesFree; infer_instance) (by decide +kernel),
    meets (fun e => by have := readyDec e; have := okDec (gatherLane e 8 1 true 0 0); infer_instance) (by decide +kernel),
    meets (fun e => by have := readyDec e; have := errDec (copyLane e .g2l 8 2 true 0 0); infer_instance) (by decide +kernel)⟩

/-- The context with an armed accumulator in slot 3 of generation 2: eight F32 leaves, four elements. -/
def armed (s : State) : State :=
  { s with ctl := { s.ctl with ctxs := s.ctl.ctxs.map fun c => { c with accs :=
    [{ slot := 3, gen := 2, state := .armed, desc := 0x300000, base := 0x310000, ecount := 4, nleaf := 8, fmt := 0, leafmap := 0x320000, spill := 0x330000, cap := 8 }] } } }

theorem witness_Copies_contributes : Meets (withReg (armed (copies 0)) 0 11 0x2003) fun e => Ready e ∧ pairOk e.n 10 = true ∧ ∃ c, tileLane e 10 2 true 0 0 0 = .ok c :=
  meets (fun e => by have := readyDec e; have := okDec (tileLane e 10 2 true 0 0 0); infer_instance) (by decide +kernel)

def handles (s : State) : State := withGang s fun g => { g with regs := (List.range 32).foldl (fun m l => smSet m (regKey l 10) 0x2003) g.regs }

theorem witness_TreeInstructions :
    (Meets (lane (ty 4)) fun e => Ready e ∧ (declOk e.n 8 && pairOk e.n 10 && e.active.head? == some 0 && (e.sls.all fun j => decide ((e.g.sl j).cL < 63)) &&
      (excFault (xlate e.s (coreAt e.core) e.ctx (rdPair e.g 0 10) needR)).isNone) = true) ∧
    (Meets (withReg (lane (ty 4)) 0 11 0x40) fun e => e.active.head? = some 0 ∧
      excFault (xlate e.s (coreAt e.core) e.ctx (rdPair e.g 0 10) needR) = some .xlateFault) ∧
    (Meets (handles (armed (lane (ty 4)))) fun e => Ready e ∧ ((e.sls.all fun k => decide (e.ty k = 4) && srcOk e.n 4 8 && decide ((e.g.sl k).cS < 63)) && declOk e.n 10 &&
      pairOk e.n 12 && decide (liveAcc (ownDev e.s.sys) e.ctx 0x2003 = some (accSlot e.ctx 3)) && e.active.all fun l => decide (rd e.g l 10 = 0x2003) &&
        decide (rdPair e.g l 12 % 2 ^ 32 < 4) && decide (rdPair e.g l 12 / 2 ^ 32 < 8)) = true) ∧
    (Meets (withReg (lane (ty 4)) 0 12 4) fun e => 0 ∈ e.active ∧ 3 < rd e.g 0 12 ∧ liveAcc (ownDev e.s.sys) e.ctx (rd e.g 0 10) = none) :=
  ⟨ready (by decide +kernel), meets (fun _ => inferInstance) (by decide +kernel), ready (by decide +kernel), meets (fun _ => inferInstance) (by decide +kernel)⟩

/-- The kernel has latched region 5, whose descriptor stands at 4 MiB with two inputs and one output. -/
def latched (mode : RState) (s : State) : State :=
  { s with mem := { s.mem with bytes := smPut s.mem.bytes 0x400000 (natLe (2 + 2 ^ 8) 4) }
           ctl := { s.ctl with kernels := s.ctl.kernels.map fun k => { k with regions := [{ id := 5, desc := 0x400000, hash := 0, mode := mode }] } } }

theorem witness_Regions_issue :
    (Meets (latched .off (lane (ty 4) fun x => { x with stack := [joinTop 0x100040] })) fun e => Ready e ∧ ((axRegion e 5).isSome &&
      ((axRegion e 5).bind (axDesc e)).isSome && declOk e.n 8 && declRun e.n 10 2 && (e.sls.all fun k => decide ((e.g.sl k).cF < 63) &&
        ((e.g.sl k).stack.head?.any fun t => t.kind == .joinpt && t.pend == 0)) && e.g.opens.isEmpty && e.running.all fun l => decide (axCountOf e.g 5 l < 2 ^ 22)) = true) ∧
    (Meets (withGang (latched .observe (lane (ty 4))) fun g => { g with opens := (List.range 32).map fun l => { id := 5, lane := l, sampled := true, count := 0, x := [0, 0], yhat := [] } }) fun e =>
      Ready e ∧ (e.running.all fun l => e.g.opens.any fun o => o.lane == l && o.id == 5) = true) ∧
    Meets (lane (ty 4)) fun e => Ready e ∧ ((axRegion e 5).isNone && declOk e.n 8 && declOk e.n 247) = true :=
  ⟨ready (by decide +kernel), ready (by decide +kernel), ready (by decide +kernel)⟩

/-! ## Streams, and the machine's events -/

/-- The machine whose group's tile stream is named, with T registers and the descriptor F0. -/
def tile (regs : List (Nat × Word)) (d : List Byte) (f : TileStream → TileStream := id) : State :=
  let set (t : TileStream) : TileStream :=
    f { t with regs := regs.foldl (fun m p => smSet m p.1 p.2) t.regs, fdesc := [some d, none, none, none] }
  let s := withGroup (State.reset.withFetchWord 32 0x04000000) fun g => { g with tile := g.tile.map set }
  { s with exe := { s.exe with agenda := [], curTile := some 0 } }

/-- Both operands in format 0, nothing scaled. -/
def plainDesc : List Byte := natLe (0x2000 + 2 ^ 32 * 0x2000) 32

/-- A stream that may execute has the property `P`. -/
theorem streamMeets {s : State} {P : TIss → Prop} (d : ∀ e, Decidable (P e))
    (h : ((tissOf s).any fun e => @decide (P e) (d e)) = true) : ∃ x, tissOf s = some x ∧ P x := by
  cases hs : tissOf s with
  | none => rw [hs] at h; cases h
  | some x => rw [hs] at h; exact ⟨x, rfl, @of_decide_eq_true _ (d x) h⟩

theorem witness_StepRunsDecoded :
    (Meets (cohortNamed { lane (ty 4) with exe := { (lane (ty 4)).exe with agenda := [.lane 0 0xFF] } } [] 0 0xFF) fun e =>
      laneFetch e = .ok 0x01000000 ∧ (decodeLane 0x01000000).isSome = true) ∧
    ∃ x, tissOf (streamNamed (tile [] plainDesc) [] 0) = some x ∧ tileWord x = .ok 0x04000000 ∧ decodeTile 0x04000000 = some .tnop :=
  ⟨meets (fun _ => inferInstance) (by decide +kernel), streamMeets (fun _ => inferInstance) (by decide +kernel)⟩

theorem witness_TileStreamWords : ∃ x, tissOf (tile [(3, 0xFFFFFFF8)] plainDesc) = some x ∧ x.accNo 3 < x.kern.pkt.acc ∧ ¬ tDebug x.grp x.ctx ∧
    x.grp.nbs[15]? = some { phase := 0, reload := 2, pend := 2 } ∧ fdescOk plainDesc = true ∧ kickOk x.s plainDesc = true ∧
    ((smGet x.t.regs 3).toNat % 16 + 16 - 0) % 16 = 8 ∧ bodyWordOk x x.t.pc 0x04000000 :=
  streamMeets (fun _ => by unfold bodyWordOk; infer_instance) (by decide +kernel)

theorem witness_TileLoadsAndStores :
    (∃ x, tissOf (tile [(1, 64), (2, 0x2000), (3, 0x201010)] plainDesc) = some x ∧ (nth x.t.fdesc 0 none).isSome = true ∧ kickOk x.s (x.fd 0) = true ∧
      slabFault x.kern.pkt.lmem x.grp.window ⟨false, 64, 0, 0x201010, x.fd 0⟩ = none ∧ slabFault x.kern.pkt.lmem x.grp.window ⟨true, 64, 0, 0x201010, []⟩ = none ∧
      slabFault x.kern.pkt.lmem x.grp.window ⟨false, 64, 0x2000, 0x201010, x.fd 0⟩ = some (.lmRange, 0x2000) ∧
      shapeOk 0x201010 = true ∧ owSkind (fdA (x.fd 0)) = 0 ∧ x.accNo 2 < x.kern.pkt.acc) ∧
    ∃ x, tissOf (tile [(1, 64)] plainDesc fun t => { t with accs := t.accs.map fun _ => { kind := .resident, shape := some (16, 16) } }) = some x ∧
      (x.acc 0).kind = .resident ∧ (x.acc 0).shape = some (16, 16) ∧ 64 + 16 * 16 * outSize 0 ≤ x.kern.pkt.lmem :=
  ⟨streamMeets (fun _ => inferInstance) (by decide +kernel), streamMeets (fun _ => inferInstance) (by decide +kernel)⟩

theorem witness_TileMultiplies :
    (∃ x, tissOf (tile [(1, 64), (5, 0x201010)] plainDesc) = some x ∧ mmCommon x (mmArgs .mm x 0 0 1 2 3 5) = .go ∧
      owSkind (fdA (x.fd 0)) ≠ 3 ∧ (x.acc 0).kind = .empty ∧ (x.t.reg 3) % 32 = 0 ∧ 0 + 32 - 0 ≤ alignOf 0) ∧
    ∃ x, tissOf (tile [(1, 64), (3, 0x8000), (5, 0x201010)] plainDesc fun t => { t with accs := t.accs.map fun _ => { kind := .resident, shape := some (16, 16) } }) = some x ∧
      mmCommon x (mmArgs .dual x 0 0 1 2 3 5) = .go ∧ (x.acc 0).kind = .resident ∧ xMeets (x.fd 0) (mmArgs .dual x 0 0 1 2 3 5) (4 * 32 * 32) = false :=
  ⟨streamMeets (fun _ => inferInstance) (by decide +kernel), streamMeets (fun _ => inferInstance) (by decide +kernel)⟩

/-- The machine of one running context, its context, kernel, group and partition changed. -/
def hub (fc : Ctx → Ctx := id) (fk : Kernel → Kernel := id) (fg : Group → Group := id) (fp : Partition → Partition := id) : State :=
  let s := State.reset.withFetchWord 32 0x01000000
  { s with exe := { s.exe with agenda := [], groups := s.exe.groups.map fg },
           ctl := { s.ctl with ctxs := s.ctl.ctxs.map fc, kernels := s.ctl.kernels.map fk, parts := s.ctl.parts.map fp } }

/-- The fabric page and the service state changed. -/
def withSys (s : State) (f : Sys → Sys) : State := { s with sys := f s.sys }

/-- A state has the property `P`, at its only context. -/
def ctx0 (s : State) : Ctx := (findCtx s.ctl.ctxs 0 0).getD bootCtx
def part0 (s : State) : Partition := (findPart s.ctl.parts 0).getD bootPart
def kern0 (s : State) : Kernel := s.ctl.kernels.headD bootKernel
def group0 (s : State) : Group := s.exe.groups.headD bootGroup

theorem witness_InterfaceAndAttestation :
    (hub.sys.bootFailed = none ∧ hub.sys.links.length = 24) ∧
    ∀ st ∈ [TState.configUnlocked, .configLocked, .run, .error], ∀ s, s = withSys (hub (fp := fun p => { p with state := st })) (fun y =>
      { y with spdm := [{ fn := 1, version := true, caps := true, algs := true, session := true }] }) →
      s.sys.bootFailed = none ∧ (spdmOf s 1).session = true ∧ (s.ctl.parts.find? fun p => p.vf == 1) = some (part0 s) ∧ (part0 s).state = st ∧
        (part0 s).polKey = none ∧ (∀ q ∈ s.ctl.parts, q.id = (part0 s).id → q = part0 s) ∧ (st = .configUnlocked → diesOk s (part0 s).id 1 [0, 7] = true) := by
  refine ⟨by decide +kernel, ?_⟩
  intro st h s hs
  subst hs
  revert st
  decide +kernel

theorem witness_ServiceEvents :
    ∀ s, s = withOps (hub) [someOp .load .l] → (findOp s.mem 7).isSome = true ∧ isLoad (someOp .load .l) = true ∧ s.exe.gangs.length = 1 ∧
      (s.exe.groups[(opGang s (someOp .load .l)).grp]?).isSome = true ∧ (s.ctl.kernels[0]?).isSome = true ∧ (findCtx s.ctl.ctxs 0 0).isSome = true ∧
      hardEntries < (List.replicate 17 (joinTop 0)).length := by
  intro s hs
  subst hs
  decide +kernel

/-- Memory of whose bytes no cache, notice or transaction holds another value. -/
theorem alone {m : Mem} (h : m.l2 = [] ∧ m.notices = [] ∧ m.txns = []) (off : Nat) : HomeAlone m off :=
  ⟨by simp [flightByte, h.2.1, h.2.2], by simp [h.1]⟩

theorem atHome {s : State} (h : (s.mem.l2 = [] ∧ s.mem.notices = [] ∧ s.mem.txns = []) ∧ s.sys.lostDies = []) (off n : Nat) : AtHome s off n :=
  fun _ _ => ⟨alone h.1 _, by simp [homeUp, h.2]⟩

/-- A packet that waits on a link, or on none, for device 7. -/
def onLink (link : Option Nat) (tag note : Nat) (req : PeerOp) : FabricOut := { dev := 7, tag := tag, inc := 0, cls := 0, req := some req, note := note, link := link }

theorem witness_LinkEvents :
    (∀ st ∈ [LState.down, .training, .up, .degraded, .quarantined], ∀ n ∈ [0, 1, 2, 14, 15], ∀ s, s = withSys hub (fun y =>
      { y with links := y.links.map fun l => { l with state := st, attempts := n, flit := 9, replays := n }, flight := [onLink (some 22) 1 0 (.read 0 32), onLink (some 23) 1 0 (.read 0 32)] }) →
      ∃ l, s.sys.links[23]? = some l ∧ l.state = st ∧ l.attempts = n ∧ replayNo l.flit l.replays 9 = n + 1 ∧ replayNo l.flit l.replays 8 = 1 ∧
        (∃ m ∈ s.sys.flight, m.link = some 23) ∧ (∀ m ∈ s.sys.flight, m.link ≠ some 21) ∧ s.sys.kickstand = false ∧ s.sys.bootFailed = none) ∧
    ∀ s, s = withSys hub (fun y => { y with dieReplays := [(24, 9, 14), (37, 9, 15)] }) → ∀ p ∈ [(24, 9, 15), (37, 9, 16), (37, 8, 1), (30, 9, 1)],
      (s.sys.dieReplays.find? fun x => x.1 == p.1).elim 1 (fun x => replayNo x.2.1 x.2.2 p.2.1) = p.2.2 := by
  refine ⟨?_, ?_⟩
  · intro st _ n _ s hs
    subst hs
    exact ⟨{ state := st, attempts := n, flit := 9, replays := n }, rfl, rfl, rfl, rfl, rfl, ⟨_, .tail _ (.head _), rfl⟩, by simp [withSys, onLink], rfl, rfl⟩
  · intro s hs
    subst hs
    decide +kernel

/-- The one partition with a stream of its function, and commands that stand in its windows. -/
def ported (cw hew : Option (Nat × Nat)) : State :=
  opened (hub (fp := fun p => { p with ideKeys := [(3, 1)], ctxwCmd := cw, hews := p.hews.map fun h => { h with cmd := hew } }))

theorem witness_PortEvents_memory :
    ∀ s, s = ported none none → (s.ctl.parts.find? fun p => p.vf == 1 && p.state == .run) = some (part0 s) ∧ (∃ k ∈ (part0 s).ideKeys, k.1 = 3) ∧
      (∀ k ∈ (part0 s).ideKeys, k.1 ≠ 2) ∧ barReach s (part0 s) 0x2FFFFFFFF0 16 = true ∧ barReach s (part0 s) 0x2FFFFFFFF1 16 = false ∧
      txnsOn s.mem 0x2FFFFFFFF0 16 = [] ∧ boundHeader s.ctl.queues (ownPa s 0x40) 8 = false ∧ AtHome s 0x40 8 ∧
      (∀ p ∈ hub.ctl.parts, p.vf ≠ 2 ∨ p.state ≠ .run) ∧ s.sys.links.length = 24 ∧ (part0 s).hews.length = 8 := by
  intro s hs
  subst hs
  and_intros <;> first
    | decide +kernel
    | exact atHome (by decide +kernel) _ _

theorem witness_PortEvents_pages :
    (facilOpen (ported none none).ctl.parts 0 0 = true ∧ facilOpen hub.ctl.parts 0 0 = false ∧
      inAreas (ctx0 (hub fun c => { c with state := .debugStopped })) 0x1000000 0x10000 = true ∧
      (∀ p ∈ (hub (fp := fun p => { p with state := .configUnlocked })).ctl.parts, p.state = .configUnlocked) ∧ ∃ p ∈ hub.ctl.parts, p.state ≠ .configUnlocked) ∧
    (∀ x ∈ [none, some (1, 5)], ∀ s, s = ported x x → findPart s.ctl.parts 0 = some (part0 s) ∧ (part0 s).state = .run ∧ (part0 s).ctxwCmd = x ∧
      (part0 s).hews[7]? = some { cmd := x }) ∧
    Commands 8 0x3F0008 ∧ ¬ Commands 8 0x400001 ∧ ¬ Commands 8 0x11 ∧ ¬ Commands 8 9 ∧ Commands 5 5 ∧ ¬ Commands 5 6 ∧ ¬ Commands 5 0 := by
  refine ⟨by decide +kernel, ?_, by unfold Commands; decide⟩
  intro x hx s hs
  subst hs
  revert x
  decide +kernel

/-- The machine as module 5 of a domain, with a policy that lists partition 9 of module 7. -/
def domain : State :=
  withSys (hub (fc := fun c => { c with accs := [{ slot := 3, gen := 2, state := .armed, ecount := 4, nleaf := 8, fmt := 0, flags := 2 }] })
    (fp := fun p => { p with policy := some { facil := 0xFF, counter := 1, doms := [(7, 9, true)], blob := [] }, reserved := [(0x1000, 0x1000)] }))
    fun y => { y with domId := 5 }

def request (op : PeerOp) : PeerReq := { dev := 7, part := 9, inc := 0, tag := 1, op := op }

theorem witness_PeersAndRemovals_requests :
    Heard domain (request (.read 0 32)) ∧ ¬ Heard domain { request (.read 0 32) with inc := 1 } ∧ Listed domain (request (.read 0 32)) (part0 domain) true ∧
    MayReach domain (request (.read 0x2000 32)) 0x2000 512 true ∧ ¬ MayReach domain (request (.read 0x1FFF 1)) 0x1FFF 1 false ∧
    txnsOn domain.mem 0x2000 32 = [] ∧ homeFree domain 0x2000 512 = true ∧ AtHome domain 0x2000 512 ∧ GrainsOk domain.mem.dir ∧
    (∀ k < 512, boundHeader domain.ctl.queues (ownPa domain (0x2000 + k)) 1 = false) ∧
    liveAcc (ownDev domain.sys) (ctx0 domain) 0x1402003 = some (accSlot (ctx0 domain) 3) ∧ labelOk 8 0 7 = true := by
  have hp : partOfDie domain (homeDie 0x2000) = some (part0 domain) := by decide +kernel
  have hl : Listed domain (request (.read 0 32)) (part0 domain) true :=
    ⟨by decide +kernel, { facil := 0xFF, counter := 1, doms := [(7, 9, true)], blob := [] }, by decide +kernel, by decide +kernel⟩
  refine ⟨by unfold Heard; decide +kernel, by unfold Heard; decide +kernel, hl, ⟨by decide, part0 domain, hp, ⟨hl.1, hl.2⟩, by decide +kernel⟩, ?_,
    by decide +kernel, by decide +kernel, atHome (by decide +kernel) _ _, by unfold GrainsOk; decide +kernel, fun _ _ => rfl, by decide +kernel, by decide +kernel⟩
  rintro ⟨_, p, h, _, hr⟩
  have h2 : partOfDie domain (homeDie 0x1FFF) = some (part0 domain) := by decide +kernel
  rw [h2] at h
  cases h
  have := hr (0x1000, 0x1000) (by decide +kernel)
  omega

/-- A transaction of part 0 of operation 7 on the grain at 0x40, which waits for agents; the host has answered where `a8`. -/
def txnOf (agents : List Nat) (a8 : Bool) : Txn :=
  { id := 1, grain := 0x40, size := 32, writer := .part 7 0, own := none, bytes := [], wpa := 0x40, wlen := 4, outstanding := agents,
    acks := if a8 then [(8, 0, [])] else [] }

/-- The machine with transactions in progress. -/
def withTxns (s : State) (ts : List Txn) : State := { s with mem := { s.mem with txns := ts } }

theorem witness_PeersAndRemovals_waiting :
    (∀ x ∈ txnsOn (withTxns domain [txnOf [9] false]).mem 0x40 32, x.outstanding = [9]) ∧ txnsOn (withTxns domain [txnOf [9] false]).mem 0x40 32 ≠ [] ∧
    (∃ x ∈ txnsOn (withTxns domain [txnOf [3, 9] false]).mem 0x40 32, x.outstanding ≠ [9]) ∧ homeFree (withTxns domain [txnOf [9] false]) 0x40 8 = false ∧
    homeUp (withTxns domain [txnOf [9] false]) 0x40 = true := by decide +kernel

/-- A load of a peer's memory that has been sent, or a contribute to a peer's accumulator. -/
def sentOp (kind : OpKind) : MemOp :=
  { someOp kind .l with parts := [{ lane := 0, va := 0x3000, pa := 2 ^ 43 * 7 + 0x40, len := 4, aux := 7 * 2 ^ 22, performed := true }] }

/-- A copy out of the window of one row of sixteen bytes, one cell of which is left. -/
def copy7 (kind : CopyKind) (pa : Nat) (sent : Bool) : Copy :=
  { id := 70, issue := 7, core := 0, grp := 0, gang := 0, slice := 0, part := 0, ctx := 0, kern := 0, pc := 0x100000, kind := kind, queued := true,
    owords := [0, 0, 0, 0], gaddr := 0x100000, len := 16, rowVa := [some 0x100000], pages := [(0x10, pa, 0)], left := [(0, if kind = .l2g then 0x8000 else 0)],
    sent := if sent then [(0, 0x8000)] else [] }

theorem witness_PeersAndRemovals_removals :
    (∀ k ∈ [OpKind.load, .contrib], ∀ s, s = withOps domain [sentOp k] → findOp s.mem 7 = some (sentOp k) ∧
      (sentOp k).parts.find? (awaitsPeer s (sentOp k)) = (sentOp k).parts.head? ∧ (s.exe.groups[(opGang s (sentOp k)).grp]?).isSome = true ∧
      (s.ctl.kernels[0]?).isSome = true ∧ (sentOp k).parts.find? (awaitsPeer hub { sentOp k with kind := .stl }) = none) ∧
    (∀ s, s = withSys { domain with exe := { domain.exe with copies := [copy7 .l2g (2 ^ 43 * 7) true] } } (fun y => { y with flight := [onLink none 70 0 (.write 0 [])] }) →
      findOp s.mem 70 = none ∧ (s.exe.copies.find? fun c => c.id == 70) = some (copy7 .l2g (2 ^ 43 * 7) true) ∧
      (s.sys.flight.find? fun m => m.tag == 70) = some (onLink none 70 0 (.write 0 []))) ∧
    7 ∉ domain.sys.lostDies ∧ 383 ∉ domain.sys.lostPeers ∧ 383 ≠ ownDev domain.sys ∧ 5 = ownDev domain.sys ∧
    (withSys domain fun y => { y with lostPeers := [0], lostDies := [0] }).sys.lostPeers = [0] ∧
    (∀ s, s = withOps domain [sentOp .load] → ∃ p ∈ (sentOp .load).parts, peerPart s (sentOp .load) p = true ∧ paDev p.pa = 7 ∧ p.acked = false ∧ p.got = none) := by
  refine ⟨?_, ?_, by decide +kernel, by decide +kernel, by decide +kernel, by decide +kernel, by decide +kernel, ?_⟩
  · intro k hk s hs
    subst hs
    revert k
    decide +kernel
  · intro s hs
    subst hs
    decide +kernel
  · intro s hs
    subst hs
    exact ⟨_, .head _, by decide +kernel⟩
/-- An operation of one part of `len` bytes at a physical address, by a core of die 0. -/
def opAt (kind : OpKind) (cls : Cls) (pa len : Nat) : MemOp :=
  { someOp kind cls with parts := [{ lane := 0, va := 0x3000, pa := pa, len := len, wdata := natLe 5 len }] }

/-- That part. -/
def partAt (pa len : Nat) : MemPart := { lane := 0, va := 0x3000, pa := pa, len := len, wdata := natLe 5 len }

/-- The machine with one link that carries traffic. -/
def linked (s : State) : State := withSys s fun y => { y with domId := 5, links := [{ state := .up }] }

theorem canSend_linked (s : State) (dev frame : Nat) (h : s.sys.cut = [] ∧ s.sys.flight = []) : canSend (linked s).sys dev frame 0 = true := by
  simp [canSend, routeOf, openLinks, linked, withSys, linkUp, Link.carries, h.1, h.2, Nat.mod_one, List.range_succ]

/-- The core's L1 and the slice of die 0 hold the first cell of a frame. -/
def cached (s : State) (frame : Nat) : State :=
  { s with mem := { s.mem with
      l1 := [{ core := 0, frame := frame, start := 0, cells := [5], missPc := 0, missCell := 0, touched := 0, policy := 0 }]
      l2 := [{ die := 0, frame := frame, start := 0, cells := [⟨5, true⟩], part := 0, ctx := 0, policy := 0 }] } }

theorem witness_HomeReadsAndWrites_fills :
    (∀ s, s = withOps (cached hub 0x18) [opAt .load .l 0x3000 4] → s.mem.ok ∧ findOp s.mem 7 = some (opAt .load .l 0x3000 4) ∧
      ((opAt .load .l 0x3000 4).parts.filter fun p => paFrame p.pa == 0x18 && p.got.isNone) = [partAt 0x3000 4] ∧ paPeer s 0x3000 = false ∧
      captureOk s.mem.ops (opAt .load .l 0x3000 4) (partAt 0x3000 4) = true ∧ l1Usable s (opAt .load .l 0x3000 4) (partAt 0x3000 4) = true ∧
      l1Cell s.mem.l1 0 0x18 0 = some 5) ∧
    (∀ s, s = withOps hub [opAt .load .l 0x3000 4] → l1Cell s.mem.l1 0 0x18 0 = none ∧ homeTurn (ownDev s.sys) s.mem.ops (opAt .load .l 0x3000 4) (partAt 0x3000 4) = true ∧
      CellAtHome s (partAt 0x3000 4) ∧ (belowCell s (opAt .load .l 0x3000 4) (partAt 0x3000 4) 0x3000).isSome = true) ∧
    ∀ pa, pa = 2 ^ 43 * 7 + 0x40 → ∀ x ∈ [true, false], ∀ o, o = { opAt .load .l pa 4 with parts := [{ partAt pa 4 with performed := x }] } →
      ∀ s, s = linked (withOps hub [o]) → paPeer s pa = true ∧ belowCell s o (partAt pa 4) pa = none ∧ peerGone s pa = false ∧
        peerGone (withSys s fun y => { y with lostPeers := [7] }) pa = true ∧ homeTurn (ownDev s.sys) s.mem.ops o (partAt pa 4) = true ∧
        canSend s.sys (paDev pa) (frameOf (paOff pa)) 0 = true ∧ answerable s.sys 7 (some (paFrame pa)) = true ∧ captureOk s.mem.ops o (partAt pa 4) = true ∧
        (s.exe.groups[(opGang s o).grp]?).isSome = true ∧ (s.ctl.kernels[0]?).isSome = true := by
  refine ⟨?_, ?_, ?_⟩
  · intro s hs; subst hs; unfold Mem.ok GrainsOk; decide +kernel
  · intro s hs; subst hs; exact ⟨by decide +kernel, by decide +kernel, fun _ _ => alone (by decide +kernel) _, by decide +kernel⟩
  · intro pa hpa x hx o ho s hs
    subst hpa; subst ho; subst hs
    refine ⟨?_, ?_, ?_, ?_, ?_, canSend_linked _ _ _ ⟨rfl, rfl⟩, ?_, ?_, ?_, ?_⟩ <;> revert x <;> decide +kernel

/-- A queue whose header stands at a physical address. -/
def headerAt (pa : Nat) (st : QState) : Queue :=
  { id := 40, part := 0, ctx := 0, va := 0, pa := pa, leaf := 0, launch := true, esize := 2, cap := 1, base := 0, prio := 0, qflags := 0, state := st, stamps := [] }

theorem witness_HomeReadsAndWrites_requests :
    (∀ s, s = withOps hub [opAt .load .l (dieBytes + 0x40) 4] → ∀ p, (opAt .load .l (dieBytes + 0x40) 4).parts[0]? = some p → p.got = none ∧
      paLocal (ownDev s.sys) p.pa = true ∧ homeUp s (paOff p.pa) = true ∧ homeTurn (ownDev s.sys) s.mem.ops (opAt .load .l (dieBytes + 0x40) 4) p = true ∧
      servedAtHome s (opAt .load .l (dieBytes + 0x40) 4) p = false ∧ CellFree s 0 p ∧
      l2Cell s.mem.l2 0 0 (frameOf (dieBytes + 0x40)) 2 = none ∧ CellAtHome s p) ∧
    (∀ off ∈ [dieBytes + 0x40, 0x40], ∀ st ∈ [QState.bound, .unbound], ∀ dir ∈ [[], [{ grain := off, size := 32, ptrs := [3, 8] }]], ∀ s,
      s = { withOps hub [opAt .store .s off 4] with
        mem := { (withOps hub [opAt .store .s off 4]).mem with dir := dir }
        ctl := { hub.ctl with queues := [headerAt off st] } } →
      ∀ p, (opAt .store .s off 4).parts[0]? = some p → MayPerform s (opAt .store .s off 4) 0 p ∧ noticeAhead s.mem 0 (paOff p.pa) = false ∧
        lateHeader s p = decide (st = .bound) ∧ (homeDie (paOff p.pa) = if off = 0x40 then coreDie 0 else 1) ∧ leafPolicy p.leaf ≠ 3 ∧
        liveAgents s (coveredSet (dirGrow s.mem.dir (paOff p.pa) (leafGrain p.leaf)) s.sys.ptp) = (if dir = [] then [] else [3, 8]) ∧
        writerWaits s.mem (.part 7 0) = false) ∧
    (∀ s, s = cached (withOps hub [opAt .store .s (dieBytes + 0x40) 4]) (frameOf dieBytes) → (l2Cell s.mem.l2 0 0 (frameOf (dieBytes + 0x40)) 0).isSome = true) := by
  refine ⟨?_, ?_, ?_⟩
  · intro s hs p hp; subst hs; cases hp
    and_intros <;> first
      | decide +kernel
      | unfold CellFree; decide +kernel
      | exact fun _ _ => alone (by decide +kernel) _
  · intro off ho st hst dir hd s hs p hp; subst hs; cases hp
    simp only [List.mem_cons, List.not_mem_nil, or_false] at ho hst hd
    rcases ho with rfl | rfl <;> rcases hst with rfl | rfl <;> rcases hd with rfl | rfl <;> unfold MayPerform <;> decide +kernel
  · intro s hs; subst hs; decide +kernel

def notice1 (inc : Nat) (d : Option (List (Nat × Byte))) : Notice := { id := 2, agent := 4, inc := inc, grain := 0x80, size := 32, data := d }

theorem witness_InvalidationsAndLeases_acknowledgements :
    (∀ agents ∈ [[8], [3, 8, 9]], ∀ s, s = withTxns hub [txnOf agents true] → findTxn s.mem 1 = some (txnOf agents true) ∧ 8 ∈ (txnOf agents true).outstanding ∧
      ((txnOf agents true).acks.find? fun a => a.1 == 8) = some (8, 0, []) ∧ 0 = (smGet s.sys.agentInc 8).toNat ∧
      1 ≠ (smGet s.sys.agentInc 8).toNat ∧ noticeAhead s.mem 8 0x40 = false ∧ Alone s (txnOf agents true) ∧ leaseHolds s.mem s.sys.ptp s.sys.guardNs 0x40 = false ∧
      (∀ a ∈ (txnOf agents true).acks, a.1 ≠ 3) ∧ GrainsOk s.mem.dir) ∧
    (∀ s, s = { withTxns hub [{ txnOf [4] false with grain := 0x80, acks := [(4, 0, [])] }] with
        mem := { (withTxns hub [{ txnOf [4] false with grain := 0x80, acks := [(4, 0, [])] }]).mem with
          notices := [notice1 0 none], dir := [{ grain := 0x80, size := 32, horizon := 1, ptrs := [4, 9] }] } } →
      noticeAhead s.mem 4 0x80 = true ∧ leaseHolds s.mem s.sys.ptp s.sys.guardNs 0x80 = true) ∧
    ∀ inc ∈ [0, 1], ∀ d ∈ [none, some [(0x80, 1), (0x9F, 2)]], ∀ s, s = { hub with mem := { hub.mem with notices := [notice1 inc d], dir := [{ grain := 0x80, size := 32, ptrs := [4] }] } } →
      (s.mem.notices.find? fun n => n.id == 2) = some (notice1 inc d) ∧ (∀ y ∈ s.mem.txns, y.grain ≠ 0x80) ∧ (inc = (smGet s.sys.agentInc 4).toNat ↔ inc = 0) ∧
      (∀ x, d = some x → (x.map Prod.fst).Nodup) ∧ (dirFind s.mem.dir 0x80).isSome = true := by
  refine ⟨?_, ?_, ?_⟩
  · intro a ha s hs; subst hs
    simp only [List.mem_cons, List.not_mem_nil, or_false] at ha
    rcases ha with rfl | rfl <;> unfold Alone GrainsOk <;> decide +kernel
  · intro s hs; subst hs; decide +kernel
  · intro i hi d hd s hs; subst hs
    simp only [List.mem_cons, List.not_mem_nil, or_false] at hi hd
    rcases hi with rfl | rfl <;> rcases hd with rfl | rfl <;> exact ⟨by decide +kernel, by decide +kernel, by decide +kernel, (by rintro x ⟨⟩ <;> decide), by decide +kernel⟩

/-- A walk of die 7 for the page of an address. -/
def walk7 (page : Nat) : Walk := { die := 7, part := 0, ctx := 0, page := page, cores := [168] }

theorem witness_InvalidationsAndLeases_walks :
    (∀ st ∈ [CState.running, .halting, .halted], ∀ page ∈ [0, 0x4000], ∀ s, s = { hub (fun c => { c with state := st }) with mem := { hub.mem with walks := [walk7 page] } } →
      (s.mem.walks.find? fun w => w.die == 7 && w.part == 0 && w.ctx == 0 && w.page == page) = some (walk7 page) ∧ findCtx s.ctl.ctxs 0 0 = some (ctx0 s) ∧
      findPart s.ctl.parts 0 = some (part0 s) ∧ (ctx0 s).state = st ∧ walkOn s.mem.walks (walk7 page) = true ∧
      walkFrom s.mem (fun l => (upperFind s.mem.upper 7 0 0 l (page * 2 ^ 16)).map UpperEntry.entry) s.sys.domId (ownDev s.sys) (part0 s).dies (page * 2 ^ 16) 4 (ctx0 s).desc.ptRoot =
        if page = 0 then .ok (0x81F, 30) else .error .xlateFault) ∧
    (∀ w ∈ hub.mem.walks, w.die = 7 → w.part = 0 → w.ctx = 0 → w.page ≠ 0) ∧
    (∀ s, s = { hub with mem := { hub.mem with l2 := [{ die := 7, frame := 2 ^ 43 + 5, start := 3, cells := [⟨5, false⟩], part := 0, ctx := 0, policy := 0, expiry := some 0 }] } } → ∃ i, i ∈ expiredCells s 7 (2 ^ 43 + 5)) := by
  refine ⟨?_, by decide +kernel, ?_⟩
  · intro st h page hp s hs; subst hs
    simp only [List.mem_cons, List.not_mem_nil, or_false] at h hp
    rcases hp with rfl | rfl <;> rcases h with rfl | rfl | rfl <;> decide +kernel
  · intro s hs; subst hs; exact ⟨3, by decide +kernel⟩

theorem witness_HomeAtomicsAndQueues_atomics :
    (∀ o, o = opAt (.rmw .add false true) .l 0x40 8 → ∀ s, s = withOps hub [o] → ∀ p, o.parts[0]? = some p → s.mem.ok ∧ s.sys.domId < 512 ∧ findOp s.mem 7 = some o ∧
      p.performed = false ∧ rmwReady s o p = true ∧ rmwSame s.mem o.issue p.pa = [(o, 0)] ∧ paLocal (ownDev s.sys) p.pa = true ∧ paHost (ownDev s.sys) p.pa = false ∧
      p.len = 8 ∧ p.pa % p.len = 0 ∧ AtHome s (paOff p.pa) p.len) ∧
    (∀ o, o = opAt (.rmw .add false true) .l (2 ^ 43 * 9) 8 → ∀ s, s = linked (withOps hub [o]) →
      ∀ p, o.parts[0]? = some p → p.performed = false ∧ rmwReady s o p = true ∧ paLocal (ownDev s.sys) p.pa = false ∧ paHost (ownDev s.sys) p.pa = false ∧
        canSend s.sys (paDev p.pa) (frameOf (paOff p.pa)) 0 = true ∧ paDev p.pa ∉ s.sys.lostPeers ∧ paDev p.pa ∈ (withSys s fun y => { y with lostPeers := [9] }).sys.lostPeers ∧
        canSend (withSys s fun y => { y with links := [] }).sys (paDev p.pa) (frameOf (paOff p.pa)) 0 = false) ∧
    (∀ o, o = opAt (.rmw .add false true) .l hostBase 4 → ∀ s, s = withOps hub [o] → ∀ p, o.parts[0]? = some p → rmwReady s o p = true ∧ paHost (ownDev s.sys) p.pa = true ∧
      rmwSame s.mem o.issue p.pa = [(o, 0)]) := by
  refine ⟨?_, ?_, ?_⟩
  · intro o ho s hs p hp; subst ho; subst hs; cases hp
    unfold Mem.ok GrainsOk
    and_intros <;> first
      | decide +kernel
      | exact atHome (by decide +kernel) _ _
  · intro o ho s hs p hp; subst ho; subst hs; cases hp
    exact ⟨by decide +kernel, by decide +kernel, by decide +kernel, by decide +kernel, canSend_linked _ _ _ ⟨rfl, rfl⟩, by decide +kernel, by decide +kernel,
      by decide +kernel⟩
  · intro o ho s hs p hp; subst ho; subst hs; cases hp; decide +kernel

theorem witness_HomeAtomicsAndQueues_queues :
    (∀ o, o = opAt (.enq 0) .l 0x40 64 → ∀ s, s = withOps hub [o] → ∀ p, o.parts[0]? = some p → findOp s.mem 7 = some o ∧ p.performed = false ∧
      rmwSame s.mem o.issue p.pa = [(o, 0)] ∧ rmwReady s o p = true ∧ paLocal (ownDev s.sys) p.pa = true ∧ queueAt s.ctl.queues p.pa = none) ∧
    (∀ k ∈ [OpKind.enq 0, .deq 0], ∀ o, o = opAt k .l (2 ^ 43 * 9) 64 → ∀ s, s = linked (withOps hub [o]) → ∀ p, o.parts[0]? = some p → rmwSame s.mem o.issue p.pa = [(o, 0)] ∧
      rmwReady s o p = true ∧ paLocal (ownDev s.sys) p.pa = false ∧ paHost (ownDev s.sys) p.pa = false ∧ paDev p.pa ∉ s.sys.lostPeers ∧
      canSend s.sys (paDev p.pa) (frameOf (paOff p.pa)) 0 = true) := by
  refine ⟨?_, ?_⟩
  · intro o ho s hs p hp; subst ho; subst hs; cases hp; decide +kernel
  · intro k hk o ho s hs p hp; subst ho; subst hs; cases hp
    simp only [List.mem_cons, List.not_mem_nil, or_false] at hk
    rcases hk with rfl | rfl <;>
      exact ⟨by decide +kernel, by decide +kernel, by decide +kernel, by decide +kernel, by decide +kernel, canSend_linked _ _ _ ⟨rfl, rfl⟩⟩

/-- An operation every part of which has come back. -/
def back (kind : OpKind) (cls : Cls) : MemOp :=
  { someOp kind cls with parts := [{ lane := 31, va := 0x3000, pa := 0x3000, len := 4, got := some (natLe 5 4), performed := true, acked := true, aux := 1 }] }

theorem witness_OperationsEnd :
    (∀ k ∈ [OpKind.load, .enq 0, .deq 0, .rmw .add false true, .sload, .store, .contrib, .pstore, .unlockb, .flush, .axinv 5, .accdrop, .axb 5, .axe 5, .accq, .lockb],
      ∀ y ∈ [Cls.l, .s, .f, .none], ∀ s, s = withOps hub [back k y] → findOp s.mem 7 = some (back k y) ∧ (s.exe.gangs[0]?).isSome = true ∧ (back k y).dst + (back k y).nreg ≤ 256 ∧
        (∀ p ∈ (back k y).parts, p.lane < 32) ∧ (∀ q ∈ s.mem.ops, q.id = 7 → q = back k y) ∧ mayLand s (back k y) = true ∧ (∀ p ∈ (back k y).parts, p.performed = true ∧ p.acked = true) ∧
        answerable s.sys 7 none = true ∧ hostReadsDone (ownDev s.sys) s.mem.ops (back k y) = true ∧ flushReady s (back k y) = true ∧
        samplesLeft s (back k y) = false ∧ (∃ p ∈ (back k y).parts, p.aux = 1) ∧ (findCtx s.ctl.ctxs 0 0).isSome = true) ∧
    (∀ s, s = withOps hub [back .ldl .l] → localOk s (back .ldl .l) = true ∧ lowerSlicesDone s (back .ldl .l) = true) ∧
    (∀ b c, ∀ s, s = withOps hub [back (.atl b c) .l] → atlReady s (back (.atl b c) .l) = true) ∧
    (∀ s, s = withOps hub [someOp .accarm .l] → armReady s (someOp .accarm .l) = true ∧ ∃ p r, (someOp .accarm .l).parts = p :: r ∧ p.got = none) ∧
    mayLand hub (someOp .load .l) = false ∧ dropDone (ctx0 hub) 3 = true ∧
    (∀ s, s = linked (withOps hub [sentOp (.rmw .add false true)]) → ∀ p ∈ (sentOp (.rmw .add false true)).parts, p.got = none ∧ paPeer s p.pa = true ∧ p.performed = true) := by
  refine ⟨?_, ?_, ?_, ?_, by decide +kernel, by decide +kernel, ?_⟩
  · intro k hk y hy s hs; subst hs; revert k y; decide +kernel
  · intro s hs; subst hs; decide +kernel
  · intro b c s hs; subst hs; revert b c; decide +kernel
  · intro s hs; subst hs; exact ⟨by decide +kernel, _, _, rfl, rfl⟩
  · intro s hs; subst hs; decide +kernel

/-- A context descriptor at 3 MiB whose areas are mapped. -/
def described : State :=
  let d := natLe 0x10000 8 ++ natLe 1 4 ++ natLe 0 20 ++ natLe 0x1000000 8 ++ natLe 0x10000 8 ++ natLe 0x2000000 8 ++ natLe 0x10000 8
  let s := hub (fp := fun p => { p with ctxwDesc := 0x300000 })
  { s with mem := { s.mem with bytes := smPut s.mem.bytes 0x300000 d } }

theorem areaGood {s : State} {p : Partition} {cid root va n : Nat} (h : ((vaPages va n).all fun pg => match xlateAt s 8 p cid root (pg * 2 ^ 16) needW with
    | .ok x => leafPinned x.leaf && paLocal (ownDev s.sys) x.pa
    | .error _ => false) = true) : AreaGood s p cid root va n := by
  intro pg hp
  have := List.all_eq_true.mp h pg hp
  split at this
  · rename_i x hx
    simp only [Bool.and_eq_true] at this
    exact ⟨x, hx, this.1, this.2⟩
  · cases this

theorem witness_ContextCommands :
    (∀ st ∈ [CState.built, .runnable, .running, .parked, .halting, .halted, .debugStopped, .retired, .free], ∀ ks ∈ [KState.retired, .running],
      ∀ s, s = opened (hub (fun c => { c with state := st }) fun k => { k with state := ks }) →
      findPart s.ctl.parts 0 = some (part0 s) ∧ (part0 s).state = .run ∧ findCtx s.ctl.ctxs 0 0 = some (ctx0 s) ∧ (ctx0 s).state = st ∧
      facilOpen s.ctl.parts 0 0 = true ∧ findCtx s.ctl.ctxs 0 63 = none ∧ (NoneInFlight s 0 0 ↔ ks = .retired) ∧ ∀ n ≤ 8, WindowTakes (part0 s) n 0) ∧
    facilOpen hub.ctl.parts 0 0 = false ∧ WindowTakes { bootPart with ctxwCmd := some (2, 63) } 2 63 ∧ ¬ WindowTakes { bootPart with ctxwCmd := some (2, 63) } 1 63 ∧
    DescGood described (part0 described) 1 0x300000 ∧ findCtx described.ctl.ctxs 0 1 = none ∧ ¬ DescGood hub (part0 hub) 1 0 := by
  refine ⟨?_, by decide +kernel, by unfold WindowTakes; decide, by unfold WindowTakes; decide, ?_, by decide +kernel, ?_⟩
  · intro st h ks hk s hs; subst hs
    simp only [List.mem_cons, List.not_mem_nil, or_false] at hk
    rcases hk with rfl | rfl <;> unfold NoneInFlight WindowTakes <;> revert st <;> decide +kernel
  · unfold DescGood
    and_intros
    all_goals first
      | decide +kernel
      | exact areaGood (by decide +kernel)
      | exact ⟨16, by decide, by decide, by decide +kernel⟩
  · rintro ⟨_, _, _, _, h, _⟩
    exact absurd h (by decide +kernel)

/-- A queue of two 32-byte or 64-byte entries at 6 MiB, its entries at 0x610000, `tail` appended. -/
def queueRec (launch : Bool) (st : QState) (stamps : List Nat) : Queue :=
  { id := 40, part := 0, ctx := 0, va := 0x600000, pa := 0x600000, leaf := 0x81F, launch := launch, esize := if launch then 2 else 0, cap := 1, base := 0x610000, prio := 3, qflags := 0,
    state := st, stamps := stamps }

def queued (launch : Bool) (st : QState) (tail : Nat) (kind : Nat := 0) : State :=
  let s := hub (fp := fun p => { p with hews := p.hews.map fun h => { h with queue := 0x600000 } }) (fk := fun k => { k with state := .retired })
  { s with mem := { s.mem with bytes := smPut (smPut s.mem.bytes 0x600000 (natLe (2 ^ 64 * tail) 64)) 0x610000 (natLe kind 128) },
           ctl := { s.ctl with queues := [queueRec launch st (List.range tail)] } }

/-- A header that BIND accepts, at 6 MiB. -/
def header : State :=
  let s := hub (fp := fun p => { p with hews := p.hews.map fun h => { h with queue := 0x600000 } })
  { s with mem := { s.mem with bytes := smPut s.mem.bytes 0x600010 (natLe 0x610000 8 ++ [1, 2, 0, 0, 3, 0, 1, 0]) } }

theorem witness_EnqueueWindows_queues :
    ∀ st ∈ [QState.bound, .active, .stalled, .draining, .error], ∀ l ∈ [true, false], ∀ t ∈ [0, 1, 2], ∀ s, s = queued l st t →
      findPart s.ctl.parts 0 = some (part0 s) ∧ (part0 s).state = .run ∧ (part0 s).hews.length = 8 ∧ (nth (part0 s).hews 7 {}).queue.toNat = 0x600000 ∧
      HewTakes (part0 s) 7 1 0 ∧ xlate s 8 (ctx0 s) 0x600000 needRW = .ok ⟨0x600000, 0x81F⟩ ∧ queueAt s.ctl.queues 0x600000 = some (queueRec l st (List.range t)) ∧
      xlate (hubHold s 0x81F 0x600000) 8 (ctx0 s) (qSlot (queueRec l st (List.range t)) 1) needW = .ok ⟨if l then 0x610080 else 0x610020, 0x81F⟩ ∧
      GrainsOk (hubHold s 0x81F 0x600000).mem.dir ∧ paLocal (ownDev s.sys) 0x600000 = true ∧ OffHeaders s 0x610000 128 ∧ AtHome (hubHold s 0x81F 0x600000) 0x600000 64 ∧
      AtHome (hubHold s 0x81F 0x600000) 0x610000 128 ∧ (∀ k ∈ s.ctl.queues, k.pa % 64 = 0) := by
  intro st h l hl t ht s hs; subst hs
  refine ⟨?_, ?_, ?_, ?_, ?_, ?_, ?_, ?_, ?_, ?_, ?_, atHome ?_ _ _, atHome ?_ _ _, ?_⟩ <;> (try unfold GrainsOk) <;> (try unfold OffHeaders) <;> (try unfold HewTakes) <;>
    revert st l t <;> decide +kernel

theorem witness_EnqueueWindows_answers :
    ((windowAnswer (hubHold (queued false .bound 1) 0x81F 0x600000) 0x600000 true).st = 0 ∧ (windowAnswer (hubHold (queued false .bound 2) 0x81F 0x600000) 0x600000 true).st = 1 ∧
      (windowAnswer (queued false .draining 0) 0x600000 true).st = 2 ∧ (windowAnswer (hubHold (queued false .bound 1) 0x81F 0x600000) 0x600000 false).st = 0 ∧
      (windowAnswer (queued false .bound 0) 0x600000 false).st = 3 ∧ (windowAnswer (queued true .bound 0) 0x600000 false).st = 4) ∧
    (HeaderGood header (ctx0 header) 0x600000 ∧ queueAt header.ctl.queues 0x600000 = none ∧ ¬ HeaderGood hub (ctx0 hub) 0x600000 ∧ MayBind (ctx0 header) ∧
      xlate header 8 (ctx0 header) 0x600000 needW = .ok ⟨0x600000, 0x81F⟩ ∧ numAt header (0x600000 + 0x1A) 1 = 0) := by
  refine ⟨by decide +kernel, ?_⟩
  unfold HeaderGood MayBind
  decide +kernel

/-- A fault on its way to the hub. -/
def faultOf (code : FaultCode) (die : Nat) : FaultRec := { part := 0, ctx := 0, code := some code, kind := 1, die := die, unit := 255 }

theorem witness_HaltsAndStops :
    (∀ st ∈ [CState.runnable, .running, .parked, .debugStopped, .halting, .halted, .free], ∀ s, s = { hub (fun c => { c with state := st }) with
        ctl := { (hub fun c => { c with state := st }).ctl with faults := [faultOf .illegalOp 7, faultOf .debugStop 0] } } →
      (ctx0 s).state = st ∧ FirstOf (arrived s 0 0) (faultOf .debugStop 0) ∧ FirstOf ((arrived s 0 0).filter fun g => g.code != some .debugStop) (faultOf .illegalOp 7) ∧
      ∀ g ∈ arrived s 0 0, g.kind < 16 ∧ g.unit < 256 ∧ g.place < 256 ∧ g.die ≤ 8) ∧
    (∀ gs ∈ [GState.parked, .running], ∀ d ∈ [true, false], ∀ s, s = hub (fun c => { c with state := .halting, debugHalt := d }) id (fun g => { g with state := gs }) →
      findCtx s.ctl.ctxs 0 0 = some (ctx0 s) ∧ (ctx0 s).state = .halting ∧ (ctx0 s).debugHalt = d ∧ (∀ x ∈ s.exe.copies, copyGoes s x = false) ∧
      ((∀ g ∈ s.exe.groups, ¬ StillRuns s (ctx0 s) g) ↔ gs = .parked)) ∧
    (∀ s, s = { hub (fun c => { c with state := .halting }) with exe := { (hub fun c => { c with state := .halting }).exe with copies := [{ copy7 .g2l 0 false with landed := 15 }] } } →
      ∃ x ∈ s.exe.copies, copyGoes s x = true) ∧
    ∀ s, s = hub (fun c => { c with desc := { c.desc with wdogMs := 1 } }) (fun k => { k with countNs := 1000001 }) → (ctx0 s).desc.wdogMs * 1000000 < (kern0 s).countNs ∧
      (kern0 s).state = .running ∧ (ctx0 s).state = .running ∧ s.ctl.faults = [] := by
  refine ⟨?_, ?_, ?_, ?_⟩
  · intro st h s hs; subst hs; unfold FirstOf Ahead; revert st; decide +kernel
  · intro gs hg d hd s hs; subst hs
    simp only [List.mem_cons, List.not_mem_nil, or_false] at hg hd
    rcases hg with rfl | rfl <;> rcases hd with rfl | rfl <;> refine ⟨by decide +kernel, by decide +kernel, by decide +kernel, by decide +kernel, ?_⟩ <;> unfold StillRuns
    · exact ⟨fun _ => rfl, fun _ g hg h => by cases hg with | head => (rcases h.2 with h | h | h | ⟨h, _⟩ <;> cases h) | tail _ h => cases h⟩
    · exact ⟨fun _ => rfl, fun _ g hg h => by cases hg with | head => (rcases h.2 with h | h | h | ⟨h, _⟩ <;> cases h) | tail _ h => cases h⟩
    · exact ⟨fun h => absurd ⟨by decide +kernel, .inr (.inl rfl)⟩ (h _ (.head _)), fun h => by cases h⟩
    · exact ⟨fun h => absurd ⟨by decide +kernel, .inr (.inl rfl)⟩ (h _ (.head _)), fun h => by cases h⟩
  · intro s hs; subst hs; exact ⟨_, .head _, by decide +kernel⟩
  · intro s hs; subst hs; decide +kernel

theorem served {s : State} {q : Queue} {c : Ctx} (h : s.ctl.queues = [q]) (hs : Served s q c) : Chosen s q c := by
  refine ⟨hs, fun q' c' h' hne => absurd ?_ hne⟩
  have e : q' = q := by simpa [h] using h'.1
  subst e
  have := hs.2.1.symm.trans h'.2.1
  rw [Option.some.inj this]

/-- Packets in 128 bytes: one that waits for an event that reads 0 to reach 5, and a FITSYNC that names region 0. -/
def waits : Nat := leNat (natLe 0 56 ++ natLe 0x700000 8 ++ natLe 5 8)
def names : Nat := leNat (natLe 6 104 ++ natLe 0x780000 8)

/-- The queue with such a packet at its head, in a context that holds region 0 where the packet names it. -/
def heading (st : QState) (raw : Nat) : State :=
  let s := queued true st 1 raw
  { s with mem := { s.mem with bytes := smPut s.mem.bytes 0x780000 (natLe 0x790000 8) }, ctl := { s.ctl with ctxs := s.ctl.ctxs.map fun c => { c with held := [(0, 9)] } } }

theorem witness_PacketsTaken_choice :
    ∀ x ∈ [(QState.active, names), (.draining, waits)], ∀ s, s = heading x.1 x.2 → ∀ q, q = queueRec true x.1 [0] → Chosen s q (ctx0 s) ∧
      headPacket s q (ctx0 s) = some (parsePacket (natLe x.2 128)) := by
  intro x h s hs q hq; subst hs; subst hq
  refine ⟨served rfl ?_, ?_⟩
  · unfold Served; revert x; decide +kernel
  · revert x; decide +kernel

theorem witness_PacketsTaken_passes :
    (∀ raw ∈ [waits, names], ∀ s, s = heading .active raw → PacketPasses s (ctx0 s) (parsePacket (natLe raw 128))) ∧
    ∀ s, s = queued true .active 1 8 → headPacket s (queueRec true .active [0]) (ctx0 s) = some (parsePacket (natLe 8 128)) ∧ PacketError s (ctx0 s) (parsePacket (natLe 8 128)) 1 := by
  refine ⟨?_, fun s hs => by subst hs; exact ⟨by decide +kernel, .inl ⟨by decide +kernel, rfl⟩⟩⟩
  intro raw hr s hs; subst hs
  refine ⟨?_, ?_, ?_, fun a ha hne => ?_⟩
  · revert raw; decide +kernel
  · unfold PacketFields; revert raw; decide +kernel
  · unfold PacketPins; revert raw; decide +kernel
  · have hx : (excFault (xlate (heading .active raw) 8 (ctx0 (heading .active raw)) a.1.toNat a.2)).isNone = true := by
      revert hne a raw
      decide +kernel
    revert hx
    cases xlate (heading .active raw) 8 (ctx0 (heading .active raw)) a.1.toNat a.2 with
    | ok x => exact fun _ => ⟨x, rfl⟩
    | error f => exact fun e => by cases e

theorem witness_PacketsTaken_conditions :
    ∀ raw ∈ [waits, names], ∀ s, s = heading .active raw → ∀ p, p = parsePacket (natLe raw 128) → ∀ u, u = hubReads (hubHead s (queueRec true .active [0]) (ctx0 s)) (ctx0 s) (depVas p) →
      (raw ≠ names → regionsOf u (ctx0 s) p = []) ∧ (raw = names → NamesHeld u (ctx0 s) p) ∧ (DepsHold u (ctx0 s) p ↔ raw ≠ waits) := by
  intro raw hr s hs p hp u hu; subst hu; subst hs; subst hp
  refine ⟨?_, ?_, ?_⟩
  · revert raw; decide +kernel
  · unfold NamesHeld; revert raw; decide +kernel
  · rw [← depsHold_iff]; revert raw; decide +kernel

theorem witness_PacketsTaken_polls :
    ∀ x ∈ [(QState.stalled, none), (.active, some 0), (.draining, some 0)], ∀ s, s = { heading x.1 names with ctl := { (heading x.1 names).ctl with queues := [{ queueRec true x.1 [0] with taken := x.2 }] } } →
      ∃ q, queueById s.ctl.queues 40 = some q ∧ qOwner s q = some (ctx0 s) ∧ q.taken = x.2 ∧ q.state = x.1 ∧ (s.ctl.kernels[0]?).isSome = true ∧
        (x.2 = none → (headPacket (hubHead s q (ctx0 s)) q (ctx0 s)).isSome = true) := by
  intro x h s hs; subst hs
  exact ⟨_, rfl, by revert x; decide +kernel, rfl, rfl, rfl, by revert x; decide +kernel⟩

theorem witness_GoodKept : Good (lane (ty 4)) ∧ Good hub ∧ ∃ t, step State.reset = .next t :=
  ⟨by unfold Good Mem.ok Sys.ok Exe.ok GrainsOk; decide +kernel, by unfold Good Mem.ok Sys.ok Exe.ok GrainsOk; decide +kernel, _, rfl⟩

theorem witness_HomeWriteReadsBack : GrainsOk (lane (ty 4)).mem.dir ∧ Memory.wf (lane (ty 4)).mem.bytes = true ∧ flightByte (lane (ty 4)).mem 0x1000 = none ∧
    (lane (ty 4)).mem.l2 = [] := by unfold GrainsOk; decide +kernel

/-- A waiting packet of a kind with a working-set list at 5 MiB of one range. -/
def acting (kind lo : Nat) : State :=
  let s := hub (fk := fun k => { k with state := .waiting, pkt := { k.pkt with kind := kind, wset := 0x500000, raw := natLe kind 128 } }) (fg := fun g => { g with state := .done })
  { s with mem := { s.mem with bytes := smPut s.mem.bytes 0x500000 (natLe 1 16 ++ natLe lo 8 ++ natLe 0x10000 8) } }

theorem witness_PacketActions_kinds :
    ∀ kind ∈ [0, 1, 2, 3, 4, 5, 6, 7], ∀ s, s = acting kind 0x3FFF0000 → Acts s 0 kind (kern0 s) (ctx0 s) ∧
      findPart s.ctl.parts 0 = some (part0 s) ∧ ((ctx0 s).pinned.map fun y => (y.1, y.2.1)).Nodup := by
  intro k hk s hs
  subst hs
  have h : ∀ k ∈ [0, 1, 2, 3, 4, 5, 6, 7], ∀ a ∈ [((kern0 (acting k 0x3FFF0000)).pkt.dep0, (kern0 (acting k 0x3FFF0000)).pkt.dep0v),
      ((kern0 (acting k 0x3FFF0000)).pkt.dep1, (kern0 (acting k 0x3FFF0000)).pkt.dep1v)], a.1 = 0 := by decide +kernel
  refine ⟨⟨?_, ?_, ?_, ?_, ?_, fun a ha => .inl (h k hk a ha)⟩, ?_, ?_⟩ <;> (try unfold ContextGoes) <;> revert k <;> decide +kernel

theorem touching_le (s : State) (c : Ctx) (p : Partition) (rs : List (Nat × Nat)) (x : Nat × Nat) : touching s c p rs x ≤ rs.length :=
  List.length_filter_le _ _

theorem witness_PacketActions_pins :
    (∀ s, s = acting 2 0x3FFF0000 → ∀ rs, rs = (wsetRanges s (ctx0 s) (kern0 s).pkt.wset.toNat).getD [] → rs = [(0x3FFF0000, 0x10000)] ∧
      Pinnable s (ctx0 s) (part0 s) rs ∧ touching s (ctx0 s) (part0 s) rs (0, 30) = 1) ∧
    (∀ s, s = acting 2 0x40000000 → wsetRanges s (ctx0 s) 0x500000 = some [(0x40000000, 0x10000)] ∧ 0x4000 ∈ vaPages 0x40000000 0x10000 ∧
      pinPage s (ctx0 s) (part0 s) (0x4000 * 2 ^ 16) = none) := by
  refine ⟨?_, fun s hs => by subst hs; decide +kernel⟩
  intro s hs rs hr
  have e : rs = [(0x3FFF0000, 0x10000)] := by subst hr; subst hs; decide +kernel
  refine ⟨e, ⟨?_, fun x => ?_⟩, ?_⟩
  · rw [e]; subst hs; decide +kernel
  · have h0 : pinCount (ctx0 s) x = 0 := by subst hs; rfl
    have := touching_le s (ctx0 s) (part0 s) rs x
    rw [h0]; rw [e] at this ⊢
    exact Nat.le_trans (by simpa using this) (by decide)
  · rw [e]; subst hs; decide +kernel

/-- A policy blob of no domains for partition `id` with counter 5. -/
def blob (id : Nat) : List Byte := natLe 1 2 ++ natLe id 2 ++ natLe 0 4 ++ natLe 5 8 ++ natLe 0 112

/-- The machine with such a blob at 5 MiB, and the partition's policy key. -/
def judging (key : Option Nat) (id : Nat) : State :=
  let s := hub (fp := fun p => { p with polKey := key })
  { s with mem := { s.mem with bytes := smPut s.mem.bytes 0x500000 (blob id) } }

theorem blob_read : policyBlob (judging none 1) (ctx0 (judging none 1)) 0x500000 = some (blob 1) ∧ policyBlob (judging none 0) (ctx0 (judging none 0)) 0x500000 = some (blob 0) ∧
    policyBlob (judging (some 7) 0) (ctx0 (judging (some 7) 0)) 0x500000 = some (blob 0) := by decide +kernel

/-- The policy of such a blob. -/
def open0 (id : Nat) : Policy := { facil := 0, counter := 5, doms := [], blob := blob id }

theorem blob_fields : ∀ id ∈ [0, 1], policyFields (blob id) = some (open0 id) ∧ leNat (((blob id).drop 2).take 1) = id := by decide +kernel

theorem judging_part (key : Option Nat) (id : Nat) : (part0 (judging key id)).polKey = key ∧ (part0 (judging key id)).id = 0 ∧
    (part0 (judging key id)).lastCounter = 0 := ⟨rfl, rfl, rfl⟩

theorem judged {s : State} {c : Ctx} {p : Partition} {va n r : Nat} (h : policyBlob s c va = some (blob n)) (hi : n ∈ [0, 1])
    (hr : (r = 5 ∧ n ≠ p.id) ∨ (n = p.id ∧ ((r = 4 ∧ p.polKey = none) ∨ ∃ key, p.polKey = some key ∧
      ((r = 2 ∧ Config.policySignatureOk key (policySigned (blob n)) = false) ∨
       (Config.policySignatureOk key (policySigned (blob n)) = true ∧ r = 0 ∧ p.lastCounter < 5))))) : PolicyResult s c p va r (open0 n) := by
  refine .inr ⟨_, h, (blob_fields n hi).1, ?_⟩
  rw [(blob_fields n hi).2]
  refine hr.imp id fun ⟨a, b⟩ => ⟨a, b.imp id fun ⟨k, hk, x⟩ => ⟨k, hk, x.imp id fun ⟨y, z⟩ => ⟨y, .inr z⟩⟩⟩

theorem witness_PacketActions_policies :
    PolicyResult hub (ctx0 hub) (part0 hub) 0x500000 1 (open0 0) ∧
    (∀ s, s = judging none 1 → PolicyResult s (ctx0 s) (part0 s) 0x500000 5 (open0 1)) ∧
    (∀ s, s = judging none 0 → PolicyResult s (ctx0 s) (part0 s) 0x500000 4 (open0 0)) ∧
    (∀ s, s = judging (some 7) 0 → ∃ r ∈ [0, 2], PolicyResult s (ctx0 s) (part0 s) 0x500000 r (open0 0)) ∧
    ∀ s, s = judging none 0 → (ownerBytes s (ctx0 s) 0x500000 128).isSome = true ∧ (excFault (xlate s 8 (ctx0 s) (0x500000 + 0x12) 0)).isNone = true := by
  refine ⟨.inl ⟨rfl, by decide +kernel⟩, ?_, ?_, ?_, by intro s hs; subst hs; decide +kernel⟩
  · intro s hs
    subst hs
    exact judged blob_read.1 (by decide) (.inl ⟨rfl, by rw [(judging_part _ _).2.1]; decide⟩)
  · intro s hs
    subst hs
    exact judged blob_read.2.1 (by decide) (.inr ⟨(judging_part _ _).2.1.symm, .inl ⟨rfl, (judging_part _ _).1⟩⟩)
  · intro s hs
    subst hs
    obtain ⟨h1, h2, h3⟩ := judging_part (some 7) 0
    cases hk : Config.policySignatureOk 7 (policySigned (blob 0)) with
    | false => exact ⟨2, by decide, judged blob_read.2.2 (by decide) (.inr ⟨h2.symm, .inr ⟨7, h1, .inl ⟨rfl, hk⟩⟩⟩)⟩
    | true => exact ⟨0, by decide, judged blob_read.2.2 (by decide) (.inr ⟨h2.symm, .inr ⟨7, h1, .inr ⟨hk, rfl, by rw [h3]; decide⟩⟩⟩)⟩

/-- A grid of the machine's kernel that no group of it has left yet; its old group is another kernel's. -/
def gridOf (f : Kernel → Kernel) : State := hub (fun c => c) (fun k => f { k with nextLid := 0, started := false }) fun g => { g with kern := 1, state := .done }

theorem firstOf {s : State} {i : Nat} {k : Kernel} {c : Ctx} (h1 : s.ctl.kernels = [k]) (h : GridWaits s 0 i k c) (hi : i = 0) : FirstGrid s 0 i k c := by
  refine ⟨h, fun j k' c' w hne => ?_⟩
  have := w.1
  rw [h1] at this
  cases j with
  | zero => exact absurd hi.symm hne
  | succ n => simp at this

theorem witness_GridsAndRetirement_grids :
    (∀ s, s = gridOf (fun k => { k with state := .dispatching, acceptNo := none }) → (kern0 s).state = .dispatching ∧ (kern0 s).acceptNo = none ∧
      findCtx s.ctl.ctxs 0 0 = some (ctx0 s) ∧ ContextGoes (ctx0 s) ∧ heldGrids s 0 < 64 ∧ PlaceMay (kern0 s)) ∧
    (∀ s, s = gridOf (fun k => { k with state := .dispatching, acceptNo := none, fixed := true, total := 33 }) → (kern0 s).acceptNo = none ∧ PlaceFails (kern0 s) 6) ∧
    ∀ s, s = gridOf (fun k => { k with state := .dispatching }) →
      FirstGrid s 0 0 (kern0 s) (ctx0 s) ∧ (kern0 s).fixed = false ∧ (kern0 s).pkt.flags.testBit 1 = false ∧ (∀ g ∈ s.exe.groups, g.kern = 0 → g.state ≠ .pending) ∧
      restoreAhead s 0 (kern0 s).prio = false ∧ (allowedCores s (kern0 s)).head? = some 0 ∧ coreRoom s 0 resident (kern0 s).pkt 1 = true := by
  refine ⟨?_, ?_, ?_⟩
  · intro s hs; subst hs; unfold PlaceMay ContextGoes; decide +kernel
  · intro s hs; subst hs; unfold PlaceFails; decide +kernel
  · intro s hs
    subst hs
    refine ⟨firstOf rfl (by unfold GridWaits; decide +kernel) rfl, ?_⟩
    decide +kernel

/-- The kernel's region 3, treated at its fit point, its descriptor at 7 MiB in state `st`. -/
def fitting (ks : KState) (st : Nat) : State :=
  let s := hub (fun c => c) (fun k => { k with state := ks, regions := [{ id := 3, desc := 0x700000, hash := 0, mode := .observe, treated := true }] }) fun g => { g with state := .done }
  { s with mem := { s.mem with bytes := smPut s.mem.bytes 0x700000 [BitVec.ofNat 8 st] } }

/-- That region's record. -/
def region3 : RLatch := { id := 3, desc := 0x700000, hash := 0, mode := .observe, treated := true }

theorem drained {s : State} {i : Nat} (h : s.mem.ops = [] ∧ s.exe.copies = [] ∧ s.ctl.partials = [] ∧ s.ctl.samples = []) : KernDrained s i := by
  obtain ⟨a, b, c, d⟩ := h
  unfold KernDrained
  rw [a, b, c, d]
  exact ⟨nofun, nofun, nofun, nofun⟩

theorem witness_GridsAndRetirement_ends :
    (∀ s, s = fitting .draining 1 → (kern0 s).state = .draining ∧ (kern0 s).due ≠ .add ∧ KernDrained s 0 ∧ ContextGoes (ctx0 s) ∧ FitDone s (ctx0 s) (kern0 s)) ∧
    (∀ s, s = hub (fun c => c) (fun k => { k with state := .retired, due := .add }) → (kern0 s).due = .add ∧ writerWaits s.mem (doneWriter 0) = false) ∧
    (∀ s, s = acting 6 0 → Acts s 0 6 (kern0 s) (ctx0 s) ∧ (kern0 s).regions = []) ∧
    ∀ s, s = fitting .fitting stTrain → (kern0 s).state = .fitting ∧ (kern0 s).regions = [region3] ∧ inTraining s (ctx0 s) region3 = true ∧ ContextGoes (ctx0 s) ∧
      s.ctl.kernels.length = 1 := by
  refine ⟨?_, ?_, ?_, ?_⟩
  · intro s hs
    subst hs
    refine ⟨rfl, by decide, drained ⟨rfl, rfl, rfl, rfl⟩, ?_, ?_⟩
    · unfold ContextGoes; decide +kernel
    · unfold FitDone; decide +kernel
  · intro s hs; subst hs; decide +kernel
  · intro s hs
    subst hs
    have h : ∀ a ∈ [((kern0 (acting 6 0)).pkt.dep0, (kern0 (acting 6 0)).pkt.dep0v), ((kern0 (acting 6 0)).pkt.dep1, (kern0 (acting 6 0)).pkt.dep1v)], a.1 = 0 := by decide +kernel
    refine ⟨⟨?_, ?_, ?_, ?_, ?_, fun a ha => .inl (h a ha)⟩, ?_⟩ <;> (try unfold ContextGoes) <;> decide +kernel
  · intro s hs; subst hs; unfold ContextGoes; decide +kernel

/-- Every slice of the machine's gang finished. -/
def finished (s : State) : State := withGang s fun g => { g with slices := g.slices.map fun x => { x with run := 0, exited := 15 } }

theorem onlyGang {s : State} {g : Group} {y : Gang} {P : Gang → Prop} (h : s.exe.gangs = [y]) (hp : P y) : ∀ x, gangsOf s g x → P x := by
  rintro x ⟨gi, _, hx⟩
  rw [h] at hx
  cases gi with
  | zero => cases hx; exact hp
  | succ n => simp at hx

theorem witness_GroupEvents_ends :
    (∀ s, s = finished (hub (fun c => c) (fun k => k) fun g => { g with state := .exiting, tile := g.tile.map fun t => { t with ended := true } }) →
      GroupEnded s 0 (group0 s) ∧ (kern0 s).nextLid = (kern0 s).total ∧ (kern0 s).state = .running) ∧
    ∀ s, s = hub (fun c => c) (fun k => { k with pkt := { k.pkt with flags := 4 } }) (fun g => { g with state := .killed }) → (group0 s).state = .killed ∧
      (kern0 s).pkt.flags.testBit 2 = true ∧ ¬ HaltsForGood (ctx0 s) := by
  refine ⟨?_, ?_⟩
  · intro s hs
    subst hs
    refine ⟨⟨rfl, onlyGang (y := _) rfl ?_, onlyGang (y := _) rfl ?_, ?_, ?_, ?_⟩, ?_⟩
    · decide +kernel
    · decide +kernel
    · decide +kernel
    · decide +kernel
    · intro x hx; cases hx; rfl
    · decide +kernel
  · intro s hs; subst hs; unfold HaltsForGood; decide +kernel

/-- The machine in fixed gear at its only gang's turn, a REGANG partner awaited or not. -/
def turning (r : Option Nat) : State :=
  withGang (hub (fun c => c) (fun k => { k with fixed := true, total := 1 })) fun g => { g with slices := g.slices.map fun x => { x with regang := r } }

/-- A running gang has the turn with one cohort, and the turn passes or not. -/
def turnPasses (s : State) (p : Bool) : Bool :=
  (turnGang s 0 (kern0 s)).any fun y => s.exe.groups[y.2.grp]? == some (group0 s) && nextCohort y.2 == some 0xFF && (group0 s).state == .running &&
    passes s y.1 y.2 (group0 s) (kern0 s) (ctx0 s) 0xFF == p

theorem witness_GroupEvents_parks :
    (∀ s, s = withGang (hub (fun c => c) (fun k => k) fun g => { g with state := .parking, atStop := true, saved := some 0 }) (fun g => { g with area := some 0, starve := 4096 }) →
      ParkDone s 0 (group0 s) (ctx0 s) ∧ findPart s.ctl.parts 0 ≠ none ∧ (∀ gi ∈ (group0 s).gangs, (s.exe.gangs[gi]?.bind Gang.area).isSome = true) ∧
      ∀ g ∈ s.exe.gangs, 4096 ≤ g.starve) ∧
    (∀ s, s = hub (fun c => c) (fun k => k) (fun g => { g with state := .parked, saved := some 0, slots := [], tctx := none }) → restorable (ctx0 s) (group0 s) = true ∧
      newAhead s 0 (kern0 s).prio = false ∧ (group0 s).gangs.Nodup ∧ (allowedCores s (kern0 s)).head? = some 0 ∧ coreRoom s 0 resident (kern0 s).pkt 1 = true) ∧
    (∀ s, s = turning (some 0) → turnPasses s true = true) ∧ ∀ s, s = turning none → turnPasses s false = true := by
  refine ⟨?_, ?_, fun s hs => by subst hs; decide +kernel, fun s hs => by subst hs; decide +kernel⟩
  · intro s hs
    subst hs
    refine ⟨⟨rfl, rfl, ⟨onlyGang (y := _) rfl ?_, ?_, ?_⟩, onlyGang (y := _) rfl ?_, ?_⟩, ?_⟩
    · decide +kernel
    · decide +kernel
    · decide +kernel
    · decide +kernel
    · exact fun x hx => absurd hx (by decide +kernel)
    · decide +kernel
  · intro s hs; subst hs; decide +kernel

theorem witness_GroupEvents_records :
    (∀ g ∈ hub.exe.gangs, g.slices.length = 8 ∧ ∀ x ∈ g.slices, x.retired < 2 ^ 64) ∧
    PlainEntry (joinTop 0x1000) ∧ PlainEntry { joinTop 0x1000 with kind := .call } ∧ PlainEntry { joinTop 0 with kind := .trap, mode := resetMode, im := 7 } := by
  refine ⟨by decide +kernel, ?_, ?_, ?_⟩
  · exact ⟨rfl, rfl⟩
  · exact ⟨rfl, by decide +kernel⟩
  · exact ⟨rfl, rfl⟩

/-! ## Copies, partials and samples on their way -/

def withCopy (s : State) (c : Copy) : State := { s with exe := { s.exe with copies := [c] } }

theorem witness_Copies_lands :
    (∀ k ∈ [CopyKind.g2l, .l2l], ∀ c, c = { copy7 k 0x3000 false with gofs := 64 } → ∀ s, s = withCopy hub c → s.exe.copies.find? (fun y => y.id == c.id) = some c ∧
      (s.exe.groups[0]?).isSome = true ∧ copyGoes s c = true ∧ nth (dstRows c) 0 0 % 4 = 0 ∧ c.left[0]? = some (0, 0) ∧
      (k = .g2l → ∀ v ∈ copySources c 0 0, (copyCell s c v).isSome = true)) ∧
    (∀ c, c = copy7 .l2g 0x3000 false → ∀ s, s = withCopy hub c → ∀ p, p = outPart c 0x8000 0x100000 → nth c.rowVa 0 none = some 0x100000 ∧ c.left[0]? = some (0, 0x8000) ∧
      (0, 0x8000) ∉ c.sent ∧ paLocal (ownDev s.sys) p.pa = true ∧ homeUp s (paOff p.pa) = true ∧ txnBusy s.mem (paOff p.pa) = false ∧
      paOff p.pa % 32 + (outBytes c [] 0 0x8000 0x100000).length ≤ 32 ∧ writerWaits s.mem (.copy c.id) = false) ∧
    (∀ c, c = copy7 .l2g 0x3000 true → (0, 0x8000) ∈ c.sent ∧ paPeer (withCopy hub c) (outPart c 0x8000 0x100000).pa = false) ∧
    (∀ c, c = copy7 .l2g (2 ^ 43 * 7) false → ∀ s, s = linked (withCopy hub c) → ∀ p, p = outPart c 0x8000 0x100000 → paPeer s p.pa = true ∧ peerGone s p.pa = false ∧
      canSend s.sys (paDev p.pa) (frameOf (paOff p.pa)) 0 = true ∧ answerable s.sys c.id (some (256 * 0x8000 + 0)) = true) := by
  refine ⟨?_, ?_, ?_, ?_⟩
  · intro k hk c hc s hs; subst hc; subst hs; revert k; decide +kernel
  · intro c hc s hs p hp; subst hc; subst hs; subst hp; decide +kernel
  · intro c hc; subst hc; decide +kernel
  · intro c hc s hs p hp; subst hc; subst hs; subst hp
    exact ⟨by decide +kernel, by decide +kernel, canSend_linked _ _ _ ⟨rfl, rfl⟩, by decide +kernel⟩

/-- A copy's barrier at offset 32 whose next count is its last, and one that has many to come. -/
theorem witness_Copies_counts :
    (∀ cells ∈ [1, 5], countable { copy7 .g2l 0x3000 false with bar := some 32 } (barWindow cells 1 0 1)) ∧ countable (copy7 .g2l 0x3000 false) [] ∧
    (∀ c, c = { copy7 .contrib 0x3000 false with fmt := 0, cols := 4 } → ∀ s, s = withCopy hub c → copyGoes s c = true ∧ c.left = [(0, 0)] ∧
      (findCtx s.ctl.ctxs 0 0).isSome = true) ∧
    (∀ o, o = someOp .copyAck .c → ∀ s, s = withOps hub [o] → copyIssue s.mem 0 = some o ∧ ((issueOps s.mem o.issue).map fun q => (q.gang, q.slice)).Nodup ∧
      ∀ q ∈ issueOps s.mem o.issue, q.cls = .c) ∧
    (∀ c, c = { copy7 .g2l 0x3000 false with queued := false } → ∀ s, s = withCopy hub c → copyIssue s.mem 0 = none ∧
      (coreCopies s 0).find? (fun z => !z.queued) = some c ∧ ((coreCopies s 0).filter Copy.queued).length < 16) := by
  refine ⟨?_, (fun b h => by cases h), ?_, ?_, ?_⟩
  · intro n hn b hb
    cases hb
    exact ⟨n, 1, 0, 1, by unfold BarrierIn; revert n; decide +kernel, by decide, by revert n; decide +kernel⟩
  · intro c hc s hs; subst hc; subst hs; decide +kernel
  · intro o ho s hs; subst ho; subst hs; decide +kernel
  · intro c hc s hs; subst hc; subst hs; decide +kernel

/-- A partial of the armed accumulator in slot 3. -/
def part3 (id index : Nat) (loc : PLoc) (replay : Bool) : Partial :=
  { id := id, part := 0, ctx := 0, kern := 0, handle := 0x2003, elem := 1, level := 0, index := index, value := 5, replay := replay, acks := [], loc := loc, since := 0, core := 0 }

/-- The machine of that accumulator with partials on their way. -/
def tree (ps : List Partial) (f : AccSlot → AccSlot := id) : State :=
  let s := armed hub
  { s with ctl := { s.ctl with partials := ps, ctxs := s.ctl.ctxs.map fun c => { c with accs := c.accs.map f } }, sys := { s.sys with cycle := 100 } }

theorem witness_TreePath_buffers :
    (∀ r ∈ [true, false], ∀ o ∈ [[], [part3 8 6 (.heldCore 0) false], [part3 8 4 (.heldCore 0) false]], ∀ x, x = part3 9 7 (.toCore 0) r → ∀ s, s = tree (o ++ [x]) →
      s.ctl.partials.find? (fun y => y.id == 9) = some x ∧ findCtx s.ctl.ctxs 0 0 = some (ctx0 s) ∧ formsNodes (ctx0 s) = true ∧ bufferOf s x (.heldCore 0) (portward s) 128 ∧
      inTurn s.ctl.partials x = true ∧ (accSlot (ctx0 s) 3).gen = handleGen 0x2003 ∧ (accSlot (ctx0 s) 3).state ≠ .free ∧ x.level ≠ treeTop (accSlot (ctx0 s) 3).nleaf ∧
      ((o.find? fun q => q.loc == .heldCore 0 && !q.replay && isSibling x q).isSome = true ↔ o = [part3 8 6 (.heldCore 0) false])) ∧
    bufferOf hub (part3 9 7 (.toPort 3) false) (.heldPort 3) (fun _ => .toHome) 32 ∧ treeTop (accSlot (ctx0 (tree [])) 3).nleaf = 3 ∧
    (∀ n ∈ [128], ((List.replicate n (part3 8 4 (.heldCore 0) false)).filter fun q => q.loc == .heldCore 0).length = 128) ∧
    ∀ l ∈ [PLoc.heldCore 0, .heldPort 3], ∀ x, x = part3 9 7 l false → ∀ s, s = tree [x] → inTurn s.ctl.partials x = true ∧ 64 < s.sys.cycle - x.since ∧ 32 < 2 * (s.sys.cycle - x.since) := by
  refine ⟨?_, .inr ⟨_, rfl, rfl, rfl, rfl⟩, by decide +kernel, by decide +kernel, ?_⟩
  · intro r hr o ho x hx s hs; subst hx; subst hs
    refine ⟨?_, ?_, ?_, .inl ⟨_, rfl, rfl, rfl, rfl⟩, ?_, ?_, ?_, ?_, ?_⟩ <;> revert r o <;> decide +kernel
  · intro l hl x hx s hs; subst hx; subst hs; revert l; decide +kernel

theorem witness_TreePath_drops :
    ∀ pur ∈ [[], List.range 383], ∀ s, s = tree [part3 9 7 (.heldHome 383) false] (fun a => { a with state := .dropping, purged := pur }) →
      (accSlot (ctx0 s) 3).state = .dropping ∧ 383 ∉ (accSlot (ctx0 s) 3).purged ∧
      (∀ p ∈ s.ctl.partials, p.part = 0 → p.ctx = 0 → p.loc = .rooted 383 → handleSlot p.handle.toNat ≠ 3) ∧
      ((∀ h < 384, h = 383 ∨ h ∈ (accSlot (ctx0 s) 3).purged ∨ h / 48 ∈ s.sys.lostDies) ↔ pur ≠ []) := by
  intro p hp s hs; subst hs
  simp only [List.mem_cons, List.not_mem_nil, or_false] at hp
  rcases hp with rfl | rfl <;> decide +kernel

/-- Where element 1 of the accumulator stands. -/
def home3 : Nat := sliceOf (frameOf 0x310004)

/-- The leaf map of the accumulator: leaf 7 of element 1 marked or not, and its count of entries spilled. -/
def marked (ps : List Partial) (map spills : Nat) : State :=
  let s := tree ps
  { s with mem := { s.mem with bytes := smPut (smPut s.mem.bytes 0x320001 [BitVec.ofNat 8 map]) 0x30003C (natLe spills 4) } }

theorem witness_TreePath_home :
    (∀ o ∈ [[], [part3 8 6 (.heldHome home3) false]], ∀ m ∈ [0, 0x80], ∀ x, x = part3 9 7 .toHome false → ∀ s, s = marked (o ++ [x]) m 0 →
      homeServes s (ctx0 s) (accSlot (ctx0 s) 3) x 0x310004 home3 ∧ liveAcc (ownDev s.sys) (ctx0 s) 0x2003 = some (accSlot (ctx0 s) 3) ∧
      leafBits (withoutPartial s 9) (ctx0 s) (accSlot (ctx0 s) 3) 1 7 8 = m / 0x80 ∧
      ((withoutPartial s 9).ctl.partials.find? fun q => q.loc == .heldHome home3 && isSibling x q) = o.head? ∧ homeFull s (ctx0 s) home3 = false) ∧
    (∀ x, x = part3 9 7 .toHome false → ∀ s, s = tree [x] (fun a => { a with state := .free }) → liveAcc (ownDev s.sys) (ctx0 s) 0x2003 = none) ∧
    ∀ x, x = part3 9 7 (.rooted home3) false → ∀ s, s = tree [x] (fun a => { a with event := 0x340000 }) → writerWaits s.mem (rootWriter x) = false ∧
      (accSlot (ctx0 s) 3).event ≠ 0 := by
  refine ⟨?_, ?_, ?_⟩
  · intro o ho m hm x hx s hs; subst hx; subst hs
    refine ⟨⟨rfl, ?_, ?_, ?_, ?_, rfl⟩, ?_, ?_, ?_, ?_⟩ <;> revert o m <;> decide +kernel
  · intro x hx s hs; subst hx; subst hs; decide +kernel
  · intro x hx s hs; subst hx; subst hs; decide +kernel

/-- The context with a quota of partials that a home holds. -/
def quota (q : Nat) (s : State) : State := { s with ctl := { s.ctl with ctxs := s.ctl.ctxs.map fun c => { c with desc := { c.desc with pbufQuota := q } } } }

theorem witness_TreePath_spills :
    ∀ q ∈ [0, 4], ∀ n ∈ [8, 0], ∀ s, s = quota q (marked [part3 9 7 .toHome false] 0 n) → ∀ v, v = ackHome (setLeaves (withoutPartial s 9) (ctx0 s) (accSlot (ctx0 s) 3) 1 7 8) (part3 9 7 .toHome false) →
      (homeFull v (ctx0 s) home3 = true ↔ q = 0) ∧ vaNat v (ctx0 s) (0x300000 + 0x3C) 4 = n ∧
      spillFind v (ctx0 s) (accSlot (ctx0 s) 3) 1 (labelWord 0 6) 8 (spillHome (accSlot (ctx0 s) 3) 1 (labelWord 0 6)) = none ∧
      (spillFree v (ctx0 s) (accSlot (ctx0 s) 3) 8 (spillHome (accSlot (ctx0 s) 3) 1 (labelWord 0 7))).isSome = true := by
  intro q hq n hn s hs v hv; subst hv; subst hs
  refine ⟨?_, ?_, ?_, ?_⟩ <;> revert q n <;> decide +kernel

/-- A sample of region 3 on its way. -/
def sample3 (err : Option Word) : Sample :=
  { id := 4, part := 0, ctx := 0, region := 3, kern := 0, kord := 0, gid := 0, word3 := 9, x := [1], y := [2], err := err, op := 7 }

/-- The machine of that region in ARMED with an eager hit, whose place its context knows. -/
def eager : State :=
  let s := fitting .running 3
  { s with mem := { s.mem with bytes := smPut s.mem.bytes 0x70003E [2] }, ctl := { s.ctl with ctxs := s.ctl.ctxs.map fun c => { c with regionAt := [(3, 0x700000)] } } }

theorem witness_Regions_samples :
    (∀ e ∈ [none, some 5], ∀ s, s = { fitting .running 1 with ctl := { (fitting .running 1).ctl with samples := [sample3 e] } } →
      s.ctl.samples.find? (fun y => y.id == 4) = some (sample3 e) ∧ findCtx s.ctl.ctxs 0 0 = some (ctx0 s) ∧ regionVa s 0 3 = some 0x700000 ∧
      rgReach s (ctx0 s) 0x700000 = true ∧ formsNodes (ctx0 s) = true) ∧
    ∀ s, s = eager →
      ((ctx0 s).regionAt.find? fun p => p.1 == 3) = some (3, BitVec.ofNat 64 0x700000) ∧ (rgEflags (rgRead s (ctx0 s) 0x700000)).testBit 1 = true ∧
      (ctx0 s).eagerSeen.contains (0, 3) = false := by
  refine ⟨?_, ?_⟩
  · intro e he s hs; subst hs
    simp only [List.mem_cons, List.not_mem_nil, or_false] at he
    rcases he with rfl | rfl <;> decide +kernel
  · intro s hs; subst hs; decide +kernel

/-- Where uncorrectable errors are found, beside a load's data. -/
theorem witness_ServiceEvents_sites :
    (∀ s, s = cached hub 5 → (s.mem.l2.find? fun y => y.isOf 0 5 && decide (y.start ≤ 0) && decide (0 < y.start + y.cells.length)).isSome = true) ∧
    (∀ c, c = copy7 .g2l 0x3000 false → ∀ s, s = withCopy hub c → (s.exe.copies.find? fun c => c.id == 70) = some c ∧ c.stopped = false) ∧
    (∀ s, s = tree [part3 9 7 (.heldHome home3) false] → (s.ctl.partials.find? fun p => p.id == 9).isSome = true ∧ (findCtx s.ctl.ctxs 0 0).isSome = true) ∧
    (∀ s, s = withGang hub (fun g => { g with slices := g.slices.map fun x => { x with stack := List.replicate 17 (joinTop 0) } }) →
      ∀ g ∈ s.exe.gangs, hardEntries < (g.sl 7).stack.length) ∧ (group0 hub).tile.isSome = true ∧ hub.sys.kickstand = false := by
  refine ⟨?_, ?_, ?_, ?_, by decide +kernel, by decide +kernel⟩
  · intro s hs; subst hs; decide +kernel
  · intro c hc s hs; subst hc; subst hs; decide +kernel
  · intro s hs; subst hs; decide +kernel
  · intro s hs; subst hs; decide +kernel

/-! ## Completion -/

theorem witness_WordsRoundTrip : Instr.wf (.iadd 8 0xFA 0xF8) = true ∧ encodeLane (.iadd 8 0xFA 0xF8) = some 0x2008FAF8 ∧
    Instr.wf (.tset 4 0 0x1000) = true ∧ encodeTile (.tset 4 0 0x1000) = some 0x0D001000 := by decide +kernel

theorem witness_DecodedWordsAreEncodings : decodeLane 0x2008FAF8 = some (.iadd 8 0xFA 0xF8) ∧ decodeTile 0x0D001000 = some (.tset 4 0 0x1000) := by decide +kernel

theorem witness_WindowFormsComplete :
    (Meets (lane (ty 4)) fun e => RoomForTraps e ∧ ((e.sls.all fun j => decide (clsCount (e.g.sl j) .l < 63) && decide (clsCount (e.g.sl j) .s < 63) && decide (e.ty j ≤ 13) &&
      loadOrder (e.mode j) && storeOrder (e.mode j) && !tyWide (e.ty j) && declOk e.n 10 && declOk e.n 12 && loadRunOk e.n 16 (runLen 4 (e.ty j)) &&
      storeRunOk e.n (e.ty j) 16 (runLen 4 (e.ty j)) false && loadRunOk e.n 16 (runLen 1 (e.ty j)) && storeRunOk e.n (e.ty j) 16 (runLen 1 (e.ty j)) true) &&
      e.active.all fun l => lmOk e.kern.pkt.lmem (lmOffset e.g l 10 12) (4 * runLen 1 (e.lty l)) && lmOk e.kern.pkt.lmem (lmOffset e.g l 10 12) (4 * runLen 4 (e.lty l))) = true) ∧
    Meets (lane (ty 1)) fun e => RoomForTraps e ∧ ((e.sls.all fun j => decide (e.ty j ≤ 1) && declOk e.n 8 && declOk e.n 10 && declOk e.n 12 &&
      decide (clsCount (e.g.sl j) .l < 63)) && e.active.all fun l => lmOk e.kern.pkt.lmem (rd e.g l 10) 4) = true :=
  ⟨meets (fun e => by have := getDec; unfold RoomForTraps; infer_instance) (by decide +kernel), meets (fun e => by have := getDec; unfold RoomForTraps; infer_instance) (by decide +kernel)⟩

/-- A lane's address translates for both uses, to memory that is not the host's. -/
def Mapped (e : Iss) (l : Nat) (a : Byte) (n need : Nat) : Prop :=
  rdPair e.g l a % n = 0 ∧ ∃ x, xlate e.s (coreAt e.core) e.ctx (rdPair e.g l a) need = .ok x ∧ paHost (ownDev e.s.sys) x.pa = false

def mappedDec (e : Iss) (l : Nat) (a : Byte) (n need : Nat) : Decidable (Mapped e l a n need) :=
  match h : xlate e.s (coreAt e.core) e.ctx (rdPair e.g l a) need with
  | .ok x => if p : rdPair e.g l a % n = 0 ∧ paHost (ownDev e.s.sys) x.pa = false then isTrue ⟨p.1, x, h, p.2⟩
    else isFalse fun ⟨m, y, e, q⟩ => p ⟨m, by rw [h] at e; cases e; exact q⟩
  | .error _ => isFalse fun ⟨_, _, e, _⟩ => by rw [h] at e; cases e

theorem witness_AtomicAndQueueFormsComplete :
    (∀ t ∈ [0, 2, 4, 5], Meets (lane (ty t)) fun e => RoomForTraps e ∧ ((e.sls.all fun j => (tyI (e.ty j) == decide (t < 4)) && (tyF (e.ty j) == decide (3 < t)) && tyIF (e.ty j) &&
      pairOk e.n 10 && srcOk e.n (e.ty j) 12 && dstOk e.n (e.ty j) 8 && decide (clsCount (e.g.sl j) .l < 63)) = true) ∧ ∀ l ∈ e.active, Mapped e l 10 (if tyWide (e.lty l) then 8 else 4) needRW) ∧
    (Meets (lane (ty 4)) fun e => RoomForTraps e ∧ (pairOk e.n 10 && wideOk e.n 248 && pairOk e.n 8 && declOk e.n 249 && !ownLocalPending e &&
      e.sls.all fun j => decide (clsCount (e.g.sl j) .s < 63) && decide (clsCount (e.g.sl j) .l < 63)) = true ∧ (∀ l ∈ e.active, Mapped e l 10 8 needRW) ∧
      Reaches e (fun l => queuePart e.s e l 10 249 true) ∧ Reaches e fun l => queuePart e.s e l 10 249 false) ∧
    Meets (withGang (peerPage (lane (ty 4))) fun g => { g with regs := (List.range 32).foldl (fun m l => smSet m (regKey l 12) 383) g.regs }) fun e => RoomForTraps e ∧
      (pairOk e.n 10 && declOk e.n 12 && (e.sls.all fun j => decide (e.ty j ≤ 13) && storeOrder (e.mode j) && srcOk e.n (e.ty j) 8 && decide (clsCount (e.g.sl j) .s < 63)) &&
      e.active.all fun l => decide (rdPair e.g l 10 % 4 = 0) && decide (rd e.g l 12 < 384) && decide (rd e.g l 12 ≠ ownDev e.s.sys) &&
        (match xlate e.s (coreAt e.core) e.ctx (rdPair e.g l 10) needW with
          | .ok x => leafPeer x.leaf
          | .error _ => false)) = true := by
  refine ⟨?_, ?_, ?_⟩
  · intro t ht
    simp only [List.mem_cons, List.not_mem_nil, or_false] at ht
    rcases ht with rfl | rfl | rfl | rfl <;>
      exact meets (fun e => by have := getDec; have := mappedDec e; unfold RoomForTraps; infer_instance) (by decide +kernel)
  · exact meets (fun e => by have := getDec; have := mappedDec e; have := reachDec e; unfold RoomForTraps; infer_instance) (by decide +kernel)
  · exact meets (fun e => by have := getDec; unfold RoomForTraps; infer_instance) (by decide +kernel)

theorem witness_MemoryEventsComplete_requests :
    (∀ o, o = opAt .load .l (dieBytes + 0x40) 4 → ∀ s, s = withOps hub [o] → ∀ p, o.parts[0]? = some p → s.mem.ok ∧ isLoad o = true ∧ p.got = none ∧ paLocal (ownDev s.sys) p.pa = true ∧
      homeUp s (paOff p.pa) = true ∧ CellFree s (coreDie o.core) p ∧ homeDie (paOff p.pa) ≠ coreDie o.core ∧ leafPolicy p.leaf ≠ 3 ∧ boundHeader s.ctl.queues p.pa p.len = false ∧ homeTurn (ownDev s.sys) s.mem.ops o p = true ∧
      l2Cell s.mem.l2 0 0 (frameOf (paOff p.pa)) (cellIn (paOff p.pa)) = none) ∧
    (∀ o, o = opAt .load .l 0x40 4 → ∀ s, s = withOps hub [o] → ∀ p, o.parts[0]? = some p → s.mem.ok ∧ paLocal (ownDev s.sys) p.pa = true ∧ homeUp s (paOff p.pa) = true ∧ CellFree s (coreDie o.core) p ∧ captureOk s.mem.ops o p = true ∧ homeTurn (ownDev s.sys) s.mem.ops o p = true ∧
      (belowCell s o p p.pa).isSome = true ∧ o.parts = [p]) ∧
    ∀ off ∈ [dieBytes + 0x40, 0x40], ∀ o, o = opAt .store .s off 4 → ∀ s, s = withOps hub [o] → ∀ p, o.parts[0]? = some p → s.mem.ok ∧ paLocal (ownDev s.sys) p.pa = true ∧ homeUp s (paOff p.pa) = true ∧ CellFree s (coreDie o.core) p ∧ isStore o = true ∧ MayPerform s o 0 p ∧
      lateHeader s p = false ∧ leafPolicy p.leaf ≠ 3 ∧ (homeDie (paOff p.pa) = coreDie o.core ↔ off = 0x40) ∧
      ∀ a ∈ liveAgents s (coveredSet (dirGrow s.mem.dir (paOff p.pa) (leafGrain p.leaf)) s.sys.ptp), a = coreDie o.core := by
  refine ⟨?_, ?_, ?_⟩
  · intro o ho s hs p hp; subst ho; subst hs; cases hp; unfold CellFree Mem.ok GrainsOk; decide +kernel
  · intro o ho s hs p hp; subst ho; subst hs; cases hp; unfold CellFree Mem.ok GrainsOk; decide +kernel
  · intro off hf o ho s hs p hp; subst ho; subst hs; cases hp
    unfold MayPerform CellFree Mem.ok GrainsOk; revert off; decide +kernel

theorem witness_MemoryEventsComplete_answers :
    (∀ s, s = withTxns hub [txnOf [3, 8, 9] true] → ∃ x, findTxn s.mem 1 = some x ∧ 3 ∈ x.outstanding ∧ (∀ a ∈ x.acks, a.1 ≠ 3) ∧ 9 ∈ x.outstanding ∧
      x.acks.find? (fun a => a.1 == 8) = some (8, (smGet s.sys.agentInc 8).toNat, []) ∧ 8 ∈ x.outstanding ∧ noticeAhead s.mem 8 x.grain = false ∧
      leaseHolds s.mem s.sys.ptp s.sys.guardNs x.grain = false) ∧
    (∀ d ∈ [none, some [(0x80, 1)]], ∀ s, s = { hub with mem := { hub.mem with notices := [notice1 0 d] } } → (s.mem.notices.find? fun n => n.id == 2) = some (notice1 0 d)) ∧
    ∀ s, s = { hub with mem := { hub.mem with walks := [walk7 0x4000] } } → (s.mem.walks.find? fun w => w.die == 7 && w.part == 0 && w.ctx == 0 && w.page == 0x4000) = some (walk7 0x4000) ∧
      findCtx s.ctl.ctxs 0 0 = some (ctx0 s) ∧ findPart s.ctl.parts 0 = some (part0 s) ∧ walkOn s.mem.walks (walk7 0x4000) = true ∧ (ctx0 s).state ≠ .halting ∧ (ctx0 s).state ≠ .halted := by
  refine ⟨?_, fun d _ s hs => by subst hs; rfl, ?_⟩
  · intro s hs; subst hs; exact ⟨txnOf [3, 8, 9] true, by decide +kernel⟩
  · intro s hs; subst hs; decide +kernel

theorem witness_OperationEventsComplete :
    (∀ k ∈ [OpKind.rmw .add false true, .enq 0, .deq 0], ∀ o, o = opAt k .l 0x40 8 → ∀ s, s = withOps hub [o] → ∀ p, o.parts[0]? = some p → findOp s.mem 7 = some o ∧
      p.performed = false ∧ rmwSame s.mem o.issue p.pa = [(o, 0)] ∧ rmwReady s o p = true ∧ paLocal (ownDev s.sys) p.pa = true ∧ paHost (ownDev s.sys) p.pa = false ∧
      p.len = 8 ∧ queueAt s.ctl.queues p.pa = none) ∧
    ∀ x ∈ [(OpKind.load, Cls.l), (.store, .s), (.axb 5, .f), (.axe 5, .f)], ∀ o, o = back x.1 x.2 → ∀ s, s = withOps hub [o] → findOp s.mem 7 = some o ∧ (s.exe.gangs[0]?).isSome = true ∧
      (∀ q ∈ s.mem.ops, q.id = 7 → q = o) ∧ (∀ p ∈ o.parts, p.got.isSome = true ∧ p.performed = true ∧ p.acked = true) ∧ o.killed = false ∧
      hostReadsDone (ownDev s.sys) s.mem.ops o = true ∧ samplesLeft s o = false := by
  refine ⟨?_, ?_⟩
  · intro k hk o ho s hs p hp; subst ho; subst hs; cases hp
    revert k; decide +kernel
  · intro x hx o ho s hs; subst ho; subst hs
    revert x; decide +kernel

/-! ## One step on a small state; the expected values are the spec's worked examples -/

/-- The registers of lane 0 set, then the instruction run by the whole cohort: register `c` of lane `l`. -/
def out (m : BitVec 24) (regs : List (Nat × Nat × Word)) (i : Instr) (l c : Nat) : Option Nat :=
  match exec i (regs.foldl (fun s p => withReg s p.1 p.2.1 p.2.2) (lane m)) with
  | .next t => (t.exe.gangs.head?).map fun g => (smGet g.regs (regKey l c)).toNat
  | _ => none

theorem test_nop_steps : leaves (step (State.reset.withFetchWord 32 0x01000000)) (fun t => t.exe.gangs.all fun g =>
    g.slices.all fun x => x.pc == 0x100004 && x.retired == 1) = true := by decide +kernel

theorem test_tnop_steps : leaves (step (State.reset.withFetchWord 32 0x04000000)) (fun t => t.exe.gangs.length == 1) = true := by decide +kernel

theorem test_reserved_word_faults : leaves (step (State.reset.withFetchWord 32 0xFF000000)) (fun t => t.ctl.faults.map FaultRec.code == [some .illegalOp]) = true := by
  decide +kernel

/-- R144's example, with IMUL's half of it. -/
theorem test_imulh : out (ty 0) [(0, 10, 0xFFFFFFFF), (0, 12, 2)] (.imulh 8 10 12) 0 8 = some 0xFFFFFFFF ∧
    out (ty 0) [(0, 10, 0xFFFFFFFF), (0, 12, 2)] (.imul 8 10 12) 0 8 = some 0xFFFFFFFE ∧
    out (ty 1) [(0, 10, 0xFFFFFFFF), (0, 12, 2)] (.imulh 8 10 12) 0 8 = some 1 := by decide +kernel

/-- R149's example. -/
theorem test_bfe : out (ty 0) [(0, 10, 0xF0A0), (0, 12, 0x0804)] (.bfe 8 10 12) 0 8 = some 0x0A ∧
    out (ty 0) [(0, 10, 0xF0A0), (0, 12, 0x0808)] (.bfe 8 10 12) 0 8 = some 0xFFFFFFF0 ∧
    out (ty 1) [(0, 10, 0xF0A0), (0, 12, 0x0808)] (.bfe 8 10 12) 0 8 = some 0xF0 := by decide +kernel

/-- R141: I32 wraps, and saturates under SAT. -/
theorem test_iadd_wraps_and_saturates : out (ty 0) [(0, 10, 0x7FFFFFFF), (0, 12, 1)] (.iadd 8 10 12) 0 8 = some 0x80000000 ∧
    out 0x001200 [(0, 10, 0x7FFFFFFF), (0, 12, 1)] (.iadd 8 10 12) 0 8 = some 0x7FFFFFFF ∧ out (ty 0) [] (.iadd 8 250 250) 31 8 = some 62 := by decide +kernel

/-- R162's example: the one rounding of FFMA, and the two of FMUL and FADD. -/
theorem test_ffma : out (ty 4) [(0, 10, 0x3F800001), (0, 8, 0xBF800000)] (.ffma 8 10 10) 0 8 = some 0x34800000 ∧
    out (ty 4) [(0, 10, 0x3F800001), (0, 8, 0xBF800002)] (.ffma 8 10 10) 0 8 = some 0x28800000 := by decide +kernel

/-- R165's examples. -/
theorem test_fclass : out (ty 4) [(0, 10, 1)] (.fclass 8 10) 0 8 = some 0x20 ∧ out (ty 7) [(0, 10, 0x7F808000)] (.fclass 8 10) 0 8 = some 0x800008 := by
  decide +kernel

/-- R169's example: 300.0 into element 2 of E4M3X4. -/
theorem test_cvt : out (ty 4) [(0, 8, 0x43960000), (0, 10, 0x11223344)] (.cvt 10 8 2 12) 0 10 = some 0x11793344 := by decide +kernel

/-- R170's example, and R35's. -/
theorem test_cvtsr : out (ty 5) [(0, 8, 0x00001000), (0, 9, 0x3FF01000), (0, 0, 0x7FFFFFFF)] (.cvtsr 10 8 2 0 0) 0 10 = some 0x3F81 ∧
    out (ty 5) [(0, 8, 0x00001000), (0, 9, 0x3FF01000), (0, 0, 0x80000000)] (.cvtsr 10 8 2 0 0) 0 10 = some 0x3F80 := by decide +kernel

/-- R36's block: 300.0 and 0.01, in E4M3. -/
theorem test_qmx : out (ty 4) [(0, 10, 0x43960000), (1, 10, 0x3C23D70A)] (.qmx 8 10 2) 0 8 = some 0x27F79 ∧
    out (ty 4) [(0, 10, 0x43960000), (1, 10, 0x3C23D70A)] (.qmx 8 10 2) 1 8 = some 0x27F05 := by decide +kernel

/-- R37's five leaves, in lanes 0 to 4 of GRED. -/
theorem test_gred : out (ty 4) [(0, 8, 0x3F800000), (1, 8, 0x33800000), (2, 8, 0x33800000), (3, 8, 0x33800000), (4, 8, 0x33800000)] (.gred 9 8 0) 31 9
    = some 0x3F800002 := by decide +kernel

/-- R24: a reduction of one active lane's NaN gives the canonical NaN. -/
theorem test_gred_nan : [0, 1, 2].all (fun k => leaves (exec (.gred 9 8 k) (withReg (lane (ty 4) (fun x => { x with run := 1 }) 1) 0 8 0xFFC12345)) fun t =>
    t.exe.gangs.all fun g => smGet g.regs (regKey 0 9) == 0x7FC00000) = true := by decide +kernel

/-- R178's example. -/
theorem test_cmp24 : out (ty 7) [(0, 8, 0xC0403F80), (0, 9, 0x7FC14040)] (.cmp24 10 8 0) 0 10 = some 0x7FC1C040 ∧
    out (ty 7) [(0, 8, 0xC0403F80), (0, 9, 0x7FC14040)] (.cmp24 10 8 1) 0 10 = some 0xD := by decide +kernel

/-- R259's example: (0, 12) of thirteen leaves stands for (2, 3). -/
theorem test_normalise : normalise 13 0 12 = (2, 3) ∧ normalise 13 2 2 = (2, 2) ∧ labelWord 2 3 = 0x10000003 := by decide +kernel

/-- R222's examples. -/
theorem test_atfmax : rmwNew .fmax false 4 0x80000000 0 0 = none ∧ rmwNew .fmax false 4 0x3F800000 0x7FC12345 0 = some 0x7FC00000 := by decide +kernel

/-- R184's example: the skewed view's offset 0xD4. -/
theorem test_skew : lmStore true 0xD4 = 0xE0 ∧ lmStore false 0xD4 = 0xD4 := by decide +kernel

/-- R79's example: TRAP 7 in slice 2 with lanes 9 and 10 active. -/
theorem test_trap : leaves (exec (.trap 7) (withGang (lane 0x100200 (fun x => { x with pc := 0x40000120 }) 0x04) fun g => { g with preds := [(1, 0x600)] })) (fun t =>
    t.exe.gangs.all fun g => (g.sl 2).trapCause == 0x720 && (g.sl 2).trapInfo == 0x40000120 && (g.sl 2).mode == 0x040200 && (g.sl 2).run == 0b0110 &&
      (g.sl 2).stack.head?.any fun e => e.lanes == 0b1111 && e.pc == 0x40000124 && e.mode == 0x100200) = true := by decide +kernel

/-- R71: HALT raises HALT_REQUEST with its code in INFO. -/
theorem test_halt : leaves (exec (.halt 9) (lane (ty 4))) (fun t => t.ctl.faults.map (fun r => (r.code, r.info)) == [(some .haltRequest, 9)]) = true := by decide +kernel

/-- R332: DOM_ID keeps nine bits, and GUARD_NS stays at 200 at least. -/
theorem test_pages : leaves (exec (.domIdWrite 0x605) State.reset) (fun t => t.sys.domId == 5) = true ∧
    leaves (exec (.guardNsWrite 7) State.reset) (fun t => t.sys.guardNs == 200) = true := by decide +kernel

end Sys2Proof.Tests
end

section
/-! PROOFS. Proofs/HostPort.lean: a host write through the port, and a state in which a read does not find its bytes (R331). -/

namespace Sys2Proof.Machine

/-- A host write that passes every check of the port is a WRITE at the home (R326, R331). -/
theorem exec_hostWrite_home {s : State} {fn : HostFn} {off : Nat} {data : List Byte} {p : Partition} (hv : vfStream s fn = some p)
    (hd : data ≠ []) (hr : barReach s p off data.length = true) (hb : boundHeader s.ctl.queues (ownPa s off) data.length = false)
    (ht : txnsOn s.mem off data.length = []) : exec (.hostWrite fn off data) s = .next (homeWrite s .nobody 0 off data) := by
  rw [exec_hostWrite]
  unfold execHostWrite
  simp [hv, hd, hr, hb, ht]

/-- The partition of the counterexample: its interface runs on die 0, with one stream. -/
def spillPart : Partition := { id := 0, vf := 1, dies := [0], state := .run, ideKeys := [(3, 1)] }

/-- A block of frame 0x807FF with more modified cells than a frame has, so that its cells 16 and up lie at the addresses of frame
0x80800. That is more cells than a set keeps, and both frames fall in one set of one slice. -/
def spillBlock : L2Block :=
  { die := 0, frame := 0x807FF, start := 0, cells := List.replicate 65 ⟨0, true⟩, part := 0, ctx := 0, policy := 0 }

/-- The machine with that block, under a directory entry of 1,024 bytes that spans both frames: no whole grain (`GrainsOk`). -/
def spillState : State :=
  { ctl := { parts := [spillPart] }, mem := { dir := [{ grain := 512 * 0x807FF, size := 1024 }], l2 := [spillBlock] } }

/-- The first byte of frame 0x80800. -/
def spillOff : Nat := 512 * 0x80800

/-- No copy of that frame is modified and nothing is on its way, as the blocks' frames tell it. -/
theorem spillState_atHome : AtHome spillState spillOff 1 := by
  intro i hi
  obtain rfl : i = 0 := by omega
  refine ⟨⟨by decide +kernel, fun b hb hf => ?_⟩, by decide +kernel⟩
  rw [List.mem_singleton.1 hb] at hf
  exact absurd hf (by decide +kernel)

theorem spillState_hostWrite : exec (.hostWrite ⟨1, 3⟩ spillOff [1]) spillState = .next (homeWrite spillState .nobody 0 spillOff [1]) :=
  exec_hostWrite_home (p := spillPart) (by decide +kernel) (by decide) (by decide +kernel) (by decide +kernel) (by decide +kernel)

/-- The write's room in the home slice evicts the block, and the notice of its entry carries the old byte, which a read then finds. -/
theorem spillState_reads_old : homeByte (homeWrite spillState .nobody 0 spillOff [1]) spillOff = 0 := by decide +kernel

/-- Refutes O40: the clause on host writes has no hypothesis that the directory holds whole grains. Under an entry that spans two
frames, with a block longer than its frame, the write's own eviction sends out a notice with an older value of the byte written, and
the read at the home finds that. Where `GrainsOk` holds, `homeWrite_byte` gives the bytes written. -/
theorem not_portEvents : ¬ Obligations.PortEvents := by
  unfold Obligations.PortEvents
  rintro ⟨hport, -⟩
  obtain ⟨hstream, -⟩ := hport spillState 1 3 spillOff 0 [1] spillPart (by decide +kernel)
  obtain ⟨-, -, -, hwrite⟩ := hstream ⟨(3, 1), by decide, rfl⟩
  obtain ⟨t, ht, -, -, -, -, hread⟩ := hwrite (by decide +kernel) (by decide) (by decide +kernel) (by decide +kernel)
  obtain rfl : homeWrite spillState .nobody 0 spillOff [1] = t := Host.Outcome.next.inj (spillState_hostWrite.symm.trans ht)
  have hone := hread spillState_atHome 0 (by decide)
  exact absurd (spillState_reads_old.symm.trans hone) (by decide)

end Sys2Proof.Machine
end

section
/-! PROOFS. Proofs/Conversions.lean: CVT and CVTSR, element by element (R169, R170). -/

namespace Sys2Proof.Machine

/-! ## One element replaced -/

/-- Below and above its element `i`, a value written as high part, element and low part does not depend on that element. -/
theorem elemOf_digits_ne {t i j y h lo : Nat} (hy : y < 2 ^ tyWidth t) (hlo : lo < 2 ^ (tyWidth t * i)) (hj : j ≠ i) :
    elemOf t (2 ^ (tyWidth t * i) * (2 ^ tyWidth t * h + y) + lo) j =
      if j < i then elemOf t lo j else elemOf t h (j - i - 1) := by
  unfold elemOf
  generalize tyWidth t = w at *
  split
  case isTrue hlt =>
    obtain ⟨k, rfl⟩ := Nat.exists_eq_add_of_lt hlt
    rw [show w * (j + k + 1) = w * j + (w + w * k) by ring, pow_add, pow_add, mul_assoc, mul_assoc,
      Nat.mul_add_div (by positivity), Nat.mul_add_mod]
  case isFalse hge =>
    obtain ⟨k, rfl⟩ := Nat.exists_eq_add_of_lt (show i < j by omega)
    rw [show w * (i + k + 1) = w * i + (w + w * k) by ring, pow_add, pow_add, ← Nat.div_div_eq_div_mul,
      ← Nat.div_div_eq_div_mul, Nat.mul_add_div (by positivity), Nat.div_eq_of_lt hlo, Nat.add_zero,
      Nat.mul_add_div (by positivity), Nat.div_eq_of_lt hy, Nat.add_zero, show i + k + 1 - i - 1 = k by omega]

/-- A value as the part above element `i`, element `i` and the part below it. -/
theorem digits_eq (t v i : Nat) : 2 ^ (tyWidth t * i) * (2 ^ tyWidth t * (v / 2 ^ (tyWidth t * i) / 2 ^ tyWidth t)
    + elemOf t v i) + v % 2 ^ (tyWidth t * i) = v := by
  unfold elemOf
  rw [Nat.div_add_mod, Nat.div_add_mod]

theorem putElem_eq_digits (t v i x : Nat) : putElem t v i x =
    2 ^ (tyWidth t * i) * (2 ^ tyWidth t * (v / 2 ^ (tyWidth t * i) / 2 ^ tyWidth t) + x % 2 ^ tyWidth t)
      + v % 2 ^ (tyWidth t * i) := by
  have hv := digits_eq t v i
  unfold putElem
  dsimp only
  rw [mul_add] at hv ⊢
  rw [mul_comm (elemOf t v i), mul_comm (x % _)]
  omega

theorem elemOf_putElem_same (t v i x : Nat) : elemOf t (putElem t v i x) i = x % 2 ^ tyWidth t := by
  rw [putElem_eq_digits]
  unfold elemOf
  rw [Nat.mul_add_div (by positivity), Nat.div_eq_of_lt (Nat.mod_lt _ (by positivity)), Nat.add_zero,
    Nat.mul_add_mod, Nat.mod_mod]

theorem elemOf_putElem_ne {t i j : Nat} (v x : Nat) (h : j ≠ i) : elemOf t (putElem t v i x) j = elemOf t v j := by
  have hlo : v % 2 ^ (tyWidth t * i) < 2 ^ (tyWidth t * i) := Nat.mod_lt _ (by positivity)
  conv_rhs => rw [← digits_eq t v i]
  rw [putElem_eq_digits, elemOf_digits_ne (Nat.mod_lt _ (by positivity)) hlo h,
    elemOf_digits_ne (elemOf_lt t v i) hlo h]

theorem elemOf_putElem (t v i x j : Nat) :
    elemOf t (putElem t v i x) j = if j = i then x % 2 ^ tyWidth t else elemOf t v j := by
  split
  case isTrue h => rw [h, elemOf_putElem_same]
  case isFalse h => exact elemOf_putElem_ne v x h

/-! ## Elements packed, and elements placed -/

theorem elemOf_packRes {t n j : Nat} (f : Nat → Nat × Conds) (h : j < n) :
    elemOf t (packRes t ((List.range n).map f)).1 j = (f j).1 % 2 ^ tyWidth t := by
  unfold elemOf packRes
  rw [packElems_get _ _ _ (by simpa using h)]
  simp

theorem packRes_conds (t n : Nat) (f : Nat → Nat × Conds) :
    (packRes t ((List.range n).map f)).2 = orConds ((List.range n).map fun j => (f j).2) := by
  simp [packRes, Function.comp_def]

theorem orConds_append (as bs : List Conds) : orConds (as ++ bs) = orConds as ||| orConds bs := by
  induction as with
  | nil => simp [orConds]
  | cons c cs ih => simp [orConds, ih, BitVec.or_assoc]

/-- The `n` results of `f` placed over the elements of `old` from element `b` upward, their conditions raised together. -/
def placeElems (t b : Nat) (f : Nat → Nat × Conds) (old n : Nat) : Nat × Conds :=
  (List.range n).foldl (fun r j => (putElem t r.1 (b + j) (f j).1, r.2 ||| (f j).2)) (old, 0)

theorem placeElems_succ (t b : Nat) (f : Nat → Nat × Conds) (old n : Nat) : placeElems t b f old (n + 1) =
    (putElem t (placeElems t b f old n).1 (b + n) (f n).1, (placeElems t b f old n).2 ||| (f n).2) := by
  simp [placeElems, List.range_succ]

theorem elemOf_placeElems (t b : Nat) (f : Nat → Nat × Conds) (old n j : Nat) :
    elemOf t (placeElems t b f old n).1 j =
      if b ≤ j ∧ j < b + n then (f (j - b)).1 % 2 ^ tyWidth t else elemOf t old j := by
  induction n with
  | zero =>
    rw [if_neg (by omega)]
    rfl
  | succ n ih =>
    rw [placeElems_succ, elemOf_putElem]
    by_cases hj : j = b + n
    · rw [if_pos hj, if_pos (by omega), hj, Nat.add_sub_cancel_left]
    · rw [if_neg hj, ih]
      exact if_congr (by omega) rfl rfl

theorem placeElems_conds (t b : Nat) (f : Nat → Nat × Conds) (old n : Nat) :
    (placeElems t b f old n).2 = orConds ((List.range n).map fun j => (f j).2) := by
  induction n with
  | zero => rfl
  | succ n ih => simp [placeElems_succ, ih, List.range_succ, orConds_append, orConds]

/-! ## CVT (R169) -/

theorem cvtVal_packs {st tt p rm : Nat} {sat : Bool} {a old : Nat} (h : tyCount tt ≤ tyCount st) :
    cvtVal st tt p rm sat a old = packRes tt ((List.range (tyCount tt)).map fun j =>
      convElem st tt rm sat (elemOf st a (p * tyCount tt + j))) := if_pos h

theorem cvtVal_places {st tt p rm : Nat} {sat : Bool} {a old : Nat} (h : ¬ tyCount tt ≤ tyCount st) :
    cvtVal st tt p rm sat a old = placeElems tt (p * tyCount st)
      (fun j => convElem st tt rm sat (elemOf st a j)) old (tyCount st) := if_neg h

theorem cvtOk_dstOk {n : Nat} {m : BitVec 24} {d a : Byte} {p tt : Nat} (h : cvtOk n m d a p tt = true) :
    dstOk n tt d = true := by
  unfold cvtOk at h
  simp only [Bool.and_eq_true] at h
  obtain ⟨⟨⟨-, hd⟩, -⟩, -⟩ := h
  exact hd

/-- CVT at issue: its result in each active lane is `cvtVal` of the lane's source and old d. -/
theorem exec_cvt_result {s : State} {e : Iss} {d a : Byte} {p : BitVec 2} {ty : BitVec 4} (h : issOf s = some e)
    (hroom : RoomForTraps e) (hok : ∀ k ∈ e.sls, cvtOk e.n (e.mode k) d a p.toNat ty.toNat = true)
    {r : Nat → Nat × Conds} (hr : r = fun l => cvtVal (e.lty l) ty.toNat p.toNat (mRound (e.lmode l))
      (mSat (e.lmode l)) (e.val a l) (rd e.g l d)) :
    ∃ t, exec (.cvt d a p ty) s = .next t ∧
      Result s t e e.active d (fun _ => tyWide ty.toNat) (fun l => (r l).1) fun l => (r l).2 := by
  subst hr
  rw [exec_cvt]
  exact result_spec h (legal_go.2 hok) hroom ⟨_, rfl⟩
    fun l hl hw => wide_room (cvtOk_dstOk (hok _ (active_slice hl))) hw

/-! ## CVTSR (R170) -/

/-- A register of a one-element type is its element 0. -/
theorem codeOf_zero {e : Iss} {a : Byte} {l : Nat} (hl : l < 32) (hc : tyCount (e.lty l) = 1) :
    codeOf e a l 0 = e.val a l := by
  have hw := tyCount_width (e.lty l)
  rw [hc, mul_one] at hw
  unfold codeOf elemOf
  rw [mul_zero, pow_zero, Nat.div_one, hw]
  exact Nat.mod_eq_of_lt (rdT_lt _ _ _ _ hl)

theorem tyCount_of_setScal {t : Nat} (h : setScal t = true) : tyCount t = 1 := by
  simp only [setScal, Bool.or_eq_true, beq_iff_eq] at h
  obtain rfl | rfl := h <;> rfl

/-- CVTSR's result from the rounded element `q` and the old d: F32 replaces the whole register. -/
def cvtsrVal (f p old q : Nat) : Nat := if f = 0 then q else putElem (cvtsrTy f) old p q

/-- Where F32 stands at position 0, both forms of CVTSR's result put `q` at element `p` and leave the others. -/
theorem elemOf_cvtsrVal {f p j : Nat} (old q : Nat) (hp : f = 0 → p = 0) (hj : j < tyCount (cvtsrTy f)) :
    elemOf (cvtsrTy f) (cvtsrVal f p old q) j =
      if j = p then q % 2 ^ tyWidth (cvtsrTy f) else elemOf (cvtsrTy f) old j := by
  unfold cvtsrVal
  split
  case isTrue hf =>
    subst hf
    obtain rfl : j = 0 := Nat.lt_one_iff.1 hj
    rw [if_pos (hp rfl).symm]
    simp [elemOf]
  case isFalse => exact elemOf_putElem _ _ _ _ _

/-- CVTSR at issue: its result in each active lane is `cvtsrVal` of the stochastic rounding of the lane's source. -/
theorem exec_cvtsr_result {s : State} {e : Iss} {d a : Byte} {f r : BitVec 3} {p : BitVec 2} (h : issOf s = some e)
    (hroom : RoomForTraps e) (hfit : Fits e setScal [] [a] [d]) (hf : f = 0 → ∀ k ∈ e.sls, e.ty k = 5)
    {q : Nat → Nat × Conds} (hq : q = fun l => convStoch (tyFmt (cvtsrTy f.toNat)) (mSat (e.lmode l))
      (decodeF (tyFmt (e.lty l)) (e.val a l)) (rd e.g l (r.zeroExtend 8))) :
    ∃ t, exec (.cvtsr d a f p r) s = .next t ∧ Result s t e e.active d (fun _ => false)
      (fun l => cvtsrVal f.toNat p.toNat (rd e.g l d) (q l).1) fun l => (q l).2 := by
  subst hq
  have hz : f.toNat = 0 ↔ f = 0 := by rw [← BitVec.toNat_inj]; rfl
  simp only [cvtsrVal, hz]
  rw [exec_cvtsr]
  refine result_spec h (legal_go.2 fun k hk => ?_) hroom ⟨_, rfl⟩ fun l _ hw => by simp at hw
  obtain ⟨hty, -, hsrc, hdst⟩ := hfit k hk
  have hsub : (f != 0 || e.ty k == 5) = true := by
    simpa only [Bool.or_eq_true, bne_iff_ne, beq_iff_eq, ne_eq, ← imp_iff_not_or] using fun h0 => hf h0 k hk
  rw [hty, hsrc a (by simp), hdst d (by simp), hsub]
  rfl

/-- Settles O16: both instructions give `cvtVal` and `cvtsrVal` in each active lane, whose elements are those packed
(`elemOf_packRes`), those placed over the old d (`elemOf_placeElems`), and the one replaced (`elemOf_cvtsrVal`). -/
theorem conversions : Obligations.Conversions := by
  unfold Obligations.Conversions
  intro s e d a p ty f r hiss hroom
  refine ⟨fun hok => ?_, fun hfit _ hf _ => ?_⟩
  · obtain ⟨t, ht, hres⟩ := exec_cvt_result hiss hroom hok rfl
    refine ⟨t, _, _, ht, hres, ?_⟩
    rintro l - _ _ _ rfl rfl rfl
    split
    case isTrue hn =>
      simp only [cvtVal_packs hn]
      exact ⟨fun j hj => elemOf_packRes _ hj, packRes_conds _ _ _⟩
    case isFalse hn =>
      simp only [cvtVal_places hn, Nat.succ_mul]
      exact ⟨fun j _ => elemOf_placeElems _ _ _ _ _ j, placeElems_conds _ _ _ _ _⟩
  · obtain ⟨t, ht, hres⟩ := exec_cvtsr_result (r := r) (p := p) hiss hroom hfit (fun h0 => (hf h0).2) rfl
    refine ⟨t, _, _, ht, hres, ?_⟩
    rintro l hl _ _ rfl rfl
    have hcode : codeOf e a l 0 = e.val a l :=
      codeOf_zero (active_lt hl) (tyCount_of_setScal (hfit _ (active_slice hl)).1)
    have hpos : f.toNat = 0 → p.toNat = 0 := fun h0 => by rw [(hf (BitVec.eq_of_toNat_eq h0)).1]; rfl
    unfold numOf
    rw [hcode]
    exact ⟨rfl, fun j hj => elemOf_cvtsrVal _ _ hpos hj⟩

end Sys2Proof.Machine
end

section
/-! PROOFS. Proofs/Encoding.lean: a word put together from its fields is read back, and a word read is put together again
(R39, R53 to R56, R289). -/

namespace Sys2Proof.Machine

/-! ## Words put together from fields -/

theorem pk_eq_add (base : Nat) (fs : List (Nat × Nat)) : pk base fs = base + pk 0 fs := by
  induction fs generalizing base with
  | nil => rfl
  | cons f fs ih =>
    obtain ⟨v, lo⟩ := f
    rw [pk, pk, ih (base + _), ih (0 + _)]
    omega

/-- The value fits `k` bits. -/
def FitsBits (v k : Nat) : Prop := v < 2 ^ k

theorem fitsBits_toNat {k m : Nat} {x : BitVec k} (h : k ≤ m) : FitsBits x.toNat m :=
  Nat.lt_of_lt_of_le x.isLt (Nat.pow_le_pow_right (by decide) h)

/-- The fields lie below bit `n`, from the highest down. -/
def Under : Nat → List (Nat × Nat) → Prop
  | _, [] => True
  | n, (v, lo) :: fs => lo ≤ n ∧ FitsBits v (n - lo) ∧ Under lo fs

theorem under_nil (n : Nat) : Under n [] ↔ True := Iff.rfl

theorem under_cons (n v lo : Nat) (fs : List (Nat × Nat)) :
    Under n ((v, lo) :: fs) ↔ lo ≤ n ∧ FitsBits v (n - lo) ∧ Under lo fs := Iff.rfl

theorem pk_lt_of_under {n : Nat} {fs : List (Nat × Nat)} (h : Under n fs) : pk 0 fs < 2 ^ n := by
  induction fs generalizing n with
  | nil => exact Nat.two_pow_pos n
  | cons f fs ih =>
    obtain ⟨v, lo⟩ := f
    obtain ⟨hn, hv, h⟩ := h
    have hx : v * 2 ^ lo + 2 ^ lo ≤ 2 ^ n := by
      calc v * 2 ^ lo + 2 ^ lo = (v + 1) * 2 ^ lo := (Nat.succ_mul _ _).symm
        _ ≤ 2 ^ (n - lo) * 2 ^ lo := Nat.mul_le_mul_right _ hv
        _ = 2 ^ n := by rw [← pow_add, Nat.sub_add_cancel hn]
    have := ih h
    rw [pk, pk_eq_add]
    omega

/-- What stands above the fields is read as if they were zero. -/
theorem pk_div_above {j m base : Nat} {fs : List (Nat × Nat)} (h : Under j fs) (hb : base >>> j <<< j = base) (hm : j ≤ m) :
    pk base fs / 2 ^ m = base >>> m := by
  obtain ⟨i, rfl⟩ := Nat.exists_eq_add_of_le hm
  rw [Nat.shiftRight_eq_div_pow, Nat.shiftLeft_eq] at hb
  rw [Nat.shiftRight_eq_div_pow, pow_add, ← Nat.div_div_eq_div_mul, ← Nat.div_div_eq_div_mul, pk_eq_add]
  congr 1
  conv_lhs => rw [← hb, Nat.add_comm, Nat.add_mul_div_right _ _ (Nat.two_pow_pos j), Nat.div_eq_of_lt (pk_lt_of_under h), Nat.zero_add]

theorem pk_div {m base : Nat} {fs : List (Nat × Nat)} (h : Under m fs) (hb : base >>> m <<< m = base) : pk base fs / 2 ^ m = base >>> m :=
  pk_div_above h hb m.le_refl

/-- The opcode of a lane word is read past its fields. -/
theorem pk_div_lane {m base : Nat} {fs : List (Nat × Nat)} (h : Under 24 fs) (hb : base >>> 24 <<< 24 = base) (hm : 24 ≤ m) :
    pk base fs / 2 ^ m = base >>> m := pk_div_above h hb hm

theorem pk_lt {m n base : Nat} {fs : List (Nat × Nat)} (h : Under m fs) (hb : base + 2 ^ m ≤ 2 ^ n) : pk base fs < 2 ^ n := by
  have := pk_lt_of_under h
  rw [pk_eq_add]
  omega

/-- A field that stands above the bits read does not reach them. -/
theorem pk_skip {lo k l v base : Nat} {fs : List (Nat × Nat)} (h : lo + k ≤ l) :
    pk base ((v, l) :: fs) / 2 ^ lo % 2 ^ k = pk base fs / 2 ^ lo % 2 ^ k := by
  obtain ⟨j, rfl⟩ := Nat.exists_eq_add_of_le h
  rw [pk, pk_eq_add, pk_eq_add base fs, show base + v * 2 ^ (lo + k + j) + pk 0 fs = base + pk 0 fs + 2 ^ lo * (2 ^ k * (v * 2 ^ j)) by ring,
    Nat.add_mul_div_left _ _ (Nat.two_pow_pos lo), Nat.add_mul_mod_self_left]

theorem fld_eq_iff {w lo k : Nat} {x : BitVec k} : fld w lo k = x ↔ w / 2 ^ lo % 2 ^ k = x.toNat := by
  rw [← BitVec.toNat_inj, fld, BitVec.toNat_ofNat]

theorem fld_pk_skip {lo k l v base : Nat} {fs : List (Nat × Nat)} (h : lo + k ≤ l) :
    fld (pk base ((v, l) :: fs)) lo k = fld (pk base fs) lo k := by
  rw [fld_eq_iff, pk_skip h, fld, BitVec.toNat_ofNat]

/-- A field is read back. -/
theorem fld_pk {lo k base : Nat} {x : BitVec k} {fs : List (Nat × Nat)} (h : Under lo fs) (hb : base >>> (lo + k) <<< (lo + k) = base) :
    fld (pk base ((x.toNat, lo) :: fs)) lo k = x := by
  rw [Nat.shiftRight_eq_div_pow, Nat.shiftLeft_eq] at hb
  generalize base / 2 ^ (lo + k) = q at hb
  have hw : pk base ((x.toNat, lo) :: fs) = 2 ^ lo * (x.toNat + 2 ^ k * q) + pk 0 fs := by rw [pk, pk_eq_add, ← hb]; ring
  rw [fld_eq_iff, hw, Nat.mul_add_div (Nat.two_pow_pos lo), Nat.div_eq_of_lt (pk_lt_of_under h), Nat.add_zero, Nat.add_mul_mod_self_left, Nat.mod_eq_of_lt x.isLt]


/-! ## Words with fixed bits between their fields -/

theorem decodeLaneRaw_elect {d : BitVec 3} {s : BitVec 1} {w : Nat} (h : encodeLane (.elect d s) = some w) :
    w < 2 ^ 32 ∧ decodeLaneRaw w = some (.elect d s) := by
  have hw := Option.some.inj h
  simp only [pk] at hw
  have hp : w / 2 ^ 28 = 0 := by omega
  have hc : w / 2 ^ 24 % 16 = 15 := by omega
  simp only [decodeLaneRaw, decodePage0, hp, hc]
  rw [if_pos (by simp only [Bool.and_eq_true, beq_iff_eq]; omega),
    fld_eq_iff.2 (show _ = d.toNat by omega), fld_eq_iff.2 (show _ = s.toNat by omega)]
  exact ⟨by omega, rfl⟩

theorem decodeLaneRaw_getc {d : BitVec 8} {s : BitVec 4} {w : Nat} (h : encodeLane (.getc d s) = some w) :
    w < 2 ^ 32 ∧ decodeLaneRaw w = some (.getc d s) := by
  have hw := Option.some.inj h
  simp only [pk] at hw
  have hp : w / 2 ^ 28 = 1 := by omega
  have hc : w / 2 ^ 24 % 16 = 1 := by omega
  simp only [decodeLaneRaw, decodePage1, hp, hc]
  rw [if_pos (by simp only [beq_iff_eq]; omega),
    fld_eq_iff.2 (show _ = d.toNat by omega), fld_eq_iff.2 (show _ = s.toNat by omega)]
  exact ⟨by omega, rfl⟩

theorem decodeLaneRaw_ctr {d : BitVec 8} {s : BitVec 2} {w : Nat} (h : encodeLane (.ctr d s) = some w) :
    w < 2 ^ 32 ∧ decodeLaneRaw w = some (.ctr d s) := by
  have hw := Option.some.inj h
  simp only [pk] at hw
  have hp : w / 2 ^ 28 = 1 := by omega
  have hc : w / 2 ^ 24 % 16 = 8 := by omega
  simp only [decodeLaneRaw, decodePage1, hp, hc]
  rw [if_pos (by simp only [beq_iff_eq]; omega),
    fld_eq_iff.2 (show _ = d.toNat by omega), fld_eq_iff.2 (show _ = s.toNat by omega)]
  exact ⟨by omega, rfl⟩

theorem decodeLaneRaw_accarm {d a : BitVec 8} {w : Nat} (h : encodeLane (.accarm d a) = some w) :
    w < 2 ^ 32 ∧ decodeLaneRaw w = some (.accarm d a) := by
  have hw := Option.some.inj h
  simp only [pk] at hw
  have hp : w / 2 ^ 28 = 11 := by omega
  have hc : w / 2 ^ 24 % 16 = 0 := by omega
  simp only [decodeLaneRaw, decodePageB, hp, hc]
  rw [if_pos (by simp only [beq_iff_eq]; omega),
    fld_eq_iff.2 (show _ = d.toNat by omega), fld_eq_iff.2 (show _ = a.toNat by omega)]
  exact ⟨by omega, rfl⟩

theorem decodeTileRaw_taddReg {d a b : BitVec 4} {w : Nat} (h : encodeTile (.taddReg d a b) = some w) :
    w < 2 ^ 32 ∧ decodeTileRaw w = some (.taddReg d a b) := by
  have hw := Option.some.inj h
  simp only [pk] at hw
  have hp : w / 2 ^ 26 = 4 := by omega
  simp only [decodeTileRaw, hp]
  rw [if_neg (by simp only [beq_iff_eq]; omega), if_pos (by simp only [Bool.and_eq_true, beq_iff_eq]; omega),
    fld_eq_iff.2 (show _ = d.toNat by omega), fld_eq_iff.2 (show _ = a.toNat by omega), fld_eq_iff.2 (show _ = b.toNat by omega)]
  exact ⟨by omega, rfl⟩

theorem decodeTileRaw_tloopReg {l : BitVec 6} {a : BitVec 4} {w : Nat} (h : encodeTile (.tloopReg l a) = some w) :
    w < 2 ^ 32 ∧ decodeTileRaw w = some (.tloopReg l a) := by
  have hw := Option.some.inj h
  simp only [pk] at hw
  have hp : w / 2 ^ 26 = 15 := by omega
  simp only [decodeTileRaw, hp]
  rw [if_neg (by simp only [beq_iff_eq]; omega), if_pos (by simp only [Bool.and_eq_true, beq_iff_eq]; omega),
    fld_eq_iff.2 (show _ = l.toNat by omega), fld_eq_iff.2 (show _ = a.toNat by omega)]
  exact ⟨by omega, rfl⟩

theorem decodeTileRaw_tincT {s : BitVec 2} {x : BitVec 4} {i : BitVec 16} {w : Nat} (h : encodeTile (.tincT s x i) = some w) :
    w < 2 ^ 32 ∧ decodeTileRaw w = some (.tincT s x i) := by
  have hw := Option.some.inj h
  simp only [pk] at hw
  have hp : w / 2 ^ 26 = 16 := by omega
  simp only [decodeTileRaw, hp]
  rw [if_neg (by simp only [beq_iff_eq]; omega), if_pos (by simp only [Bool.and_eq_true, beq_iff_eq]; omega),
    fld_eq_iff.2 (show _ = s.toNat by omega), fld_eq_iff.2 (show _ = x.toNat by omega), fld_eq_iff.2 (show _ = i.toNat by omega)]
  exact ⟨by omega, rfl⟩

theorem decodeTileRaw_tincAcc {s : BitVec 2} {i : BitVec 16} {w : Nat} (h : encodeTile (.tincAcc s i) = some w) :
    w < 2 ^ 32 ∧ decodeTileRaw w = some (.tincAcc s i) := by
  have hw := Option.some.inj h
  simp only [pk] at hw
  have hp : w / 2 ^ 26 = 16 := by omega
  simp only [decodeTileRaw, hp]
  rw [if_neg (by simp only [beq_iff_eq]; omega), if_neg (by simp only [Bool.and_eq_true, beq_iff_eq]; omega), if_pos (by simp only [beq_iff_eq]; omega),
    fld_eq_iff.2 (show _ = s.toNat by omega), fld_eq_iff.2 (show _ = i.toNat by omega)]
  exact ⟨by omega, rfl⟩

/-! ## Every encoded word decodes -/

theorem decodeLaneRaw_encodeLane {i : Instr} {w : Nat} (h : encodeLane i = some w) : w < 2 ^ 32 ∧ decodeLaneRaw w = some i := by
  cases i <;> try contradiction
  case elect => exact decodeLaneRaw_elect h
  case getc => exact decodeLaneRaw_getc h
  case ctr => exact decodeLaneRaw_ctr h
  case accarm => exact decodeLaneRaw_accarm h
  all_goals
    obtain rfl := Option.some.inj h
    refine ⟨pk_lt (m := 24) (by simp only [under_cons, under_nil, fitsBits_toNat, Nat.reduceSub, Nat.reduceLeDiff, and_self]) (by decide), ?_⟩
    simp only [decodeLaneRaw, decodePage0, decodePage1, decodePage2, decodePage3, decodePage4, decodePage5, decodePage6, decodePage7,
      decodePage8, decodePage9, decodePageA, decodePageB, pk_div, pk_div_lane, pk_skip, fld_pk, fld_pk_skip, under_cons, under_nil,
      fitsBits_toNat, Nat.reduceAdd, Nat.reduceSub, Nat.reduceLeDiff, Nat.reduceShiftLeft, Nat.reduceShiftRight, Nat.reduceMod, and_self]
  -- what is left are the checks of zero bits, of numerals
  all_goals rfl

theorem decodeTileRaw_encodeTile {i : Instr} {w : Nat} (h : encodeTile i = some w) : w < 2 ^ 32 ∧ decodeTileRaw w = some i := by
  cases i <;> try contradiction
  case taddReg => exact decodeTileRaw_taddReg h
  case tloopReg => exact decodeTileRaw_tloopReg h
  case tincT => exact decodeTileRaw_tincT h
  case tincAcc => exact decodeTileRaw_tincAcc h
  all_goals
    obtain rfl := Option.some.inj h
    refine ⟨pk_lt (m := 26) (by simp only [under_cons, under_nil, fitsBits_toNat, Nat.reduceSub, Nat.reduceLeDiff, and_self]) (by decide), ?_⟩
    simp only [decodeTileRaw, pk_div, pk_skip, fld_pk, fld_pk_skip, under_cons, under_nil, fitsBits_toNat, Nat.reduceAdd, Nat.reduceSub,
      Nat.reduceLeDiff, Nat.reduceShiftLeft, Nat.reduceShiftRight, and_self]
  all_goals rfl

/-- Settles O1: the fields of a word do not overlap, so that each is read back, and the checks of the fixed bits pass. -/
theorem wordsRoundTrip : Obligations.WordsRoundTrip := by
  unfold Obligations.WordsRoundTrip decodeLane decodeTile
  refine ⟨fun i w hwf h => ?_, fun i w hwf h => ?_⟩
  · obtain ⟨hw, hd⟩ := decodeLaneRaw_encodeLane h
    exact ⟨hw, Option.filter_eq_some_iff.2 ⟨hd, hwf⟩⟩
  · obtain ⟨hw, hd⟩ := decodeTileRaw_encodeTile h
    exact ⟨hw, Option.filter_eq_some_iff.2 ⟨hd, hwf⟩⟩

/-! ## Every word that decodes is put together again -/

theorem fld_toNat (w lo k : Nat) : (fld w lo k).toNat = w / 2 ^ lo % 2 ^ k := BitVec.toNat_ofNat _ _

/-- A word with its bits below `n` cleared. -/
def above (w n : Nat) : Nat := w / 2 ^ n * 2 ^ n

theorem above_zero (w : Nat) : above w 0 = w := by simp [above]

theorem above_split (w lo k : Nat) : above w lo = above w (lo + k) + w / 2 ^ lo % 2 ^ k * 2 ^ lo := by
  rw [above, above, pow_add, ← Nat.div_div_eq_div_mul, Nat.mul_comm (2 ^ lo), ← Nat.mul_assoc, ← Nat.add_mul, Nat.div_add_mod']

/-- Bits that are zero may be counted to those cleared. -/
theorem bits_zero_iff (w lo k : Nat) : w / 2 ^ lo % 2 ^ k = 0 ↔ above w (lo + k) = above w lo := by
  rw [above_split w lo k, left_eq_add, Nat.mul_eq_zero]
  exact ⟨Or.inl, fun h => h.resolve_right (Nat.two_pow_pos lo).ne'⟩

/-- A word is put together again from the bits above a field, the field and those below it. -/
theorem pk_fld {w n lo k : Nat} {fs : List (Nat × Nat)} (h : lo + k = n) : pk (above w n) (((fld w lo k).toNat, lo) :: fs) = pk (above w lo) fs := by
  rw [pk, fld_toNat, ← h, ← above_split]

theorem pk_done (w : Nat) : pk (above w 0) [] = w := above_zero w

theorem some_pk {w n base : Nat} {fs : List (Nat × Nat)} (hb : base = above w n) (h : pk (above w n) fs = w) :
    some (pk base fs) = some w := by rw [hb, h]

/-- The words of opcodes 0x00 to 0x0F; ELECT has the code of ZERO between its fields. -/
theorem encodeLane_of_decodePage0 {w : Nat} {i : Instr} (hp : w / 2 ^ 28 = 0) (h : decodePage0 w = some i) : encodeLane i = some w := by
  unfold decodePage0 at h
  split at h <;>
    simp only [Option.ite_none_right_eq_some, Bool.and_eq_true, beq_iff_eq, Option.some.injEq, reduceCtorEq, bits_zero_iff, Nat.reduceAdd] at h
  all_goals obtain ⟨hz, rfl⟩ := h
  case h_15 =>
    refine congrArg some ?_
    simp only [above, pk, fld_toNat] at hz ⊢
    omega
  all_goals
    refine some_pk (n := 24) (by unfold above; omega) ?_
    simp only [*, pk_fld, pk_done, Nat.reduceAdd]

/-- The words of opcodes 0x10 to 0x1F; GETC and CTR have the code of ZERO between their fields. -/
theorem encodeLane_of_decodePage1 {w : Nat} {i : Instr} (hp : w / 2 ^ 28 = 1) (h : decodePage1 w = some i) : encodeLane i = some w := by
  unfold decodePage1 at h
  split at h <;>
    simp only [Option.ite_none_right_eq_some, Bool.and_eq_true, beq_iff_eq, Option.some.injEq, reduceCtorEq, bits_zero_iff, Nat.reduceAdd] at h
  all_goals obtain ⟨hz, rfl⟩ := h
  case h_2 | h_9 =>
    refine congrArg some ?_
    simp only [pk, fld_toNat]
    omega
  all_goals
    refine some_pk (n := 24) (by unfold above; omega) ?_
    simp only [*, pk_fld, pk_done, Nat.reduceAdd]

/-- The words of opcodes 0xB0 to 0xBF; ACCARM ends with the code of ZERO. -/
theorem encodeLane_of_decodePageB {w : Nat} {i : Instr} (hp : w / 2 ^ 28 = 11) (h : decodePageB w = some i) : encodeLane i = some w := by
  unfold decodePageB at h
  split at h <;>
    simp only [Option.ite_none_right_eq_some, Bool.and_eq_true, beq_iff_eq, Option.some.injEq, reduceCtorEq, bits_zero_iff, Nat.reduceAdd] at h
  all_goals obtain ⟨hz, rfl⟩ := h
  case h_1 =>
    refine congrArg some ?_
    simp only [pk, fld_toNat]
    omega
  all_goals
    refine some_pk (n := 24) (by unfold above; omega) ?_
    simp only [*, pk_fld, pk_done, Nat.reduceAdd]

theorem encodeLane_of_decodeLaneRaw {w : Nat} {i : Instr} (h : decodeLaneRaw w = some i) : encodeLane i = some w := by
  unfold decodeLaneRaw at h
  split at h
  case h_1 hp => exact encodeLane_of_decodePage0 hp h
  case h_2 hp => exact encodeLane_of_decodePage1 hp h
  case h_12 hp => exact encodeLane_of_decodePageB hp h
  case h_13 => cases h
  all_goals
    simp only [decodePage2, decodePage3, decodePage4, decodePage5, decodePage6, decodePage7,
      decodePage8, decodePage9, decodePageA] at h
    split at h <;>
      simp only [Option.ite_none_right_eq_some, Bool.and_eq_true, beq_iff_eq, Option.some.injEq, reduceCtorEq, bits_zero_iff, Nat.reduceAdd] at h
  all_goals obtain ⟨hz, rfl⟩ := h
  all_goals
    refine some_pk (n := 24) (by unfold above; omega) ?_
    simp only [*, pk_fld, pk_done, Nat.reduceAdd]

theorem encodeTile_of_decodeTileRaw {w : Nat} {i : Instr} (h : decodeTileRaw w = some i) : encodeTile i = some w := by
  unfold decodeTileRaw at h
  split at h
  case h_20 => cases h
  case h_4 | h_15 | h_16 =>
    -- opcodes of several forms, which their fixed bits tell apart
    repeat' split at h
    all_goals
      simp only [Bool.and_eq_true, beq_iff_eq, reduceCtorEq] at *
    all_goals
      obtain rfl := Option.some.inj h
      refine congrArg some (show pk _ _ = _ from ?_)
      simp only [pk, fld_toNat]
      omega
  all_goals simp only [Option.ite_none_right_eq_some, beq_iff_eq, Option.some.injEq, bits_zero_iff, Nat.reduceAdd] at h
  all_goals obtain ⟨hz, rfl⟩ := h
  all_goals
    refine some_pk (n := 26) (by unfold above; omega) ?_
    simp only [*, pk_fld, pk_done, Nat.reduceAdd]

/-- Settles O2: every bit of a word that decodes is a field's, or is checked by its decoder. -/
theorem decodedWordsAreEncodings : Obligations.DecodedWordsAreEncodings := by
  unfold Obligations.DecodedWordsAreEncodings decodeLane decodeTile
  refine fun w i _ => ⟨fun h => ?_, fun h => ?_⟩
  · obtain ⟨hd, hwf⟩ := Option.filter_eq_some_iff.1 h
    exact ⟨hwf, encodeLane_of_decodeLaneRaw hd⟩
  · obtain ⟨hd, hwf⟩ := Option.filter_eq_some_iff.1 h
    exact ⟨hwf, encodeTile_of_decodeTileRaw hd⟩

/-- Settles O53, by running the decoders. -/
theorem knownWords : Obligations.KnownWords := by
  unfold Obligations.KnownWords
  exact ⟨by decide +kernel, by decide +kernel⟩

end Sys2Proof.Machine
end

section
/-! PROOFS. Proofs/IssueState.lean: a step runs what its word decodes to (R38, R55), and the issue-state instructions (R57 to R61, R137). -/

namespace Sys2Proof.Machine

/-! ## A step runs the decoded instruction -/

/-- The cohort named is found from the gangs, groups and kernels alone. -/
theorem issOf_mem {s : State} {e : Iss} (h : issOf s = some e) (m : Mem) :
    issOf { s with mem := m } = some { e with s := { s with mem := m } } := by
  obtain ⟨-, hcur, hg, hgrp, hk, hc, hmay⟩ := issOf_some h
  simp only [issOf, hcur, hg, hgrp, hk, hc, hmay, if_true]

/-- The stream named is found from the groups and kernels alone. -/
theorem tissOf_mem {s : State} {x : TIss} (h : tissOf s = some x) (m : Mem) :
    tissOf { s with mem := m } = some { x with s := { s with mem := m } } := by
  unfold tissOf at *
  repeat' split at h
  all_goals first | contradiction | cases h
  simp only [*, if_true]

theorem tileFetched_mem (x : TIss) (i : Instr) : ∃ m, tileFetched x i = { x.s with mem := m } := by
  unfold tileFetched
  generalize hs : x.s = s
  clear hs
  induction tileFetches x i generalizing s with
  | nil => exact ⟨s.mem, rfl⟩
  | cons va r ih => exact ih { s with mem := icFill s x.grp.core x.ctx va }

theorem step_next {s : State} {m : Move} {rest : List Move} (ha : s.exe.agenda = m :: rest)
    (hc : s.sys.clocksStopped = false ∨ m = .event .moduleReset) :
    step s = perform m { s with exe := { s.exe with agenda := rest } } := by
  unfold step
  rw [ha]
  rcases hc with hc | rfl <;> simp [*]

/-- Settles O3: the step performs the move at the head of the agenda, whose fetch changes the instruction cache alone. -/
theorem stepRunsDecoded : Obligations.StepRunsDecoded := by
  unfold Obligations.StepRunsDecoded
  refine ⟨fun s gi m rest e w i ha hc he hw hd => ?_, fun s gid rest x w i ha hc hx hw hd => ?_, fun s i rest ha => ⟨fun hc => ?_, fun hc hi => ?_⟩⟩
  · refine ⟨?_, ?_⟩
    · rw [step_next ha (.inl hc)]
      change (match issOf (cohortNamed s rest gi m) with
        | none => _
        | some e => _) = _
      rw [he]
      simp only [hw, hd]
    · unfold laneFetched
      rw [(issOf_some he).1]
      exact issOf_mem he _
  · refine ⟨?_, ?_⟩
    · rw [step_next ha (.inl hc)]
      change (match tissOf (streamNamed s rest gid) with
        | none => _
        | some x => _) = _
      rw [hx]
      simp only [hw, hd]
    · obtain ⟨m, hm⟩ := tileFetched_mem x i
      rw [hm, (tissOf_s hx).1]
      exact tissOf_mem hx m
  · exact step_next ha (hc.imp id fun h => by rw [h])
  · unfold step
    rw [ha]
    simp [hc, hi]

/-! ## Issue-state instructions -/

/-- A machine whose one kernel runs in fixed gear, the turn and the issue being its gang's. -/
def fixedGear : State :=
  let s := bootState State.reset 0 (.tick 0 0)
  { s with
    exe := { s.exe with cur := some (0, 0xFF) }
    ctl := { s.ctl with kernels := [{ bootKernel with fixed := true }] } }

/-- Its issue in progress. -/
def fixedGearIss : Iss :=
  { s := fixedGear, gi := 0, mask := 0xFF, g := newGang bootKernel bootCtx 0 0 0 0 0, grp := bootGroup,
    kern := { bootKernel with fixed := true }, ctx := bootCtx }

theorem fixedGear_issOf : issOf fixedGear = some fixedGearIss := rfl

theorem fixedGear_someRuns : someRuns fixedGearIss := ⟨0, by decide, { pc := 0x100000 }, rfl, by decide⟩

theorem fixedGear_quiet : Quiet fixedGearIss := ⟨rfl, by decide +kernel⟩

/-- YIELD leaves no mark on its gang there, where it is an issue like any other (R123, R137). -/
theorem fixedGear_yield : ∃ t, exec .yield fixedGear = .next t ∧ (t.exe.gangs[0]?).map Gang.yielded = some false :=
  ⟨finish fixedGearIss { st := fixedGear, g := { fixedGearIss.adv with yielded := false } },
    issue_go (j := fun _ => .go) (b := fun e => { st := e.s, g := { e.adv with yielded := !e.kern.fixed } }) fixedGear_issOf rfl,
    by decide +kernel⟩

/-- Refutes O4: in fixed gear YIELD is an issue like any other, and its gang is not marked as having given way. -/
theorem not_issueStateInstructions : ¬ Obligations.IssueStateInstructions := by
  unfold Obligations.IssueStateInstructions
  intro h
  obtain ⟨-, -, -, -, t, ht, -, g, hg, hy⟩ := h fixedGear fixedGearIss fixedGear_issOf fixedGear_quiet fixedGear_someRuns
  obtain ⟨t', ht', hg'⟩ := fixedGear_yield
  obtain rfl : t = t' := Host.Outcome.next.inj (ht.symm.trans ht')
  change t.exe.gangs[0]? = some g at hg
  rw [hg, Option.map_some, hy] at hg'
  exact absurd hg' (by decide)

/-- WAIT's judgement. -/
theorem waitDone_iff (x : Slice) (l w c f : Nat) : waitDone x l w c f = true ↔ x.cL ≤ l ∧ x.cS ≤ w ∧ x.cC ≤ c ∧ x.cF ≤ f := by
  simp only [waitDone, Bool.and_eq_true, decide_eq_true_eq, and_assoc]

/-- An instruction that only goes on to pc + 4. -/
theorem adv_result {s : State} {e : Iss} {j : Iss → Judge} (h : issOf s = some e) (hj : j e = .go) (hq : Quiet e) (hr : someRuns e) :
    ∃ t, issue s j (fun e => { st := e.s, g := e.adv }) = .next t ∧ SliceResult s t e fun _ x => { x with pc := x.pc + 4 } := by
  obtain ⟨k, hk, x, hx, hrun⟩ := hr
  exact slice_result (f := fun _ x => { x with pc := x.pc + 4 }) h hj hq rfl (fun _ _ _ _ => rfl) ⟨k, hk, x, hx, fin_run hrun⟩
    fun _ _ _ _ => ⟨rfl, rfl⟩

/-- Settles O5. -/
theorem waitHoldsUntilCountersFall : Obligations.WaitHoldsUntilCountersFall := by
  unfold Obligations.WaitHoldsUntilCountersFall
  refine fun s e l c n f he hq hr => ⟨fun h => ?_, fun ⟨k, hk, h⟩ => ?_⟩
  · refine adv_result he (if_pos ?_) hq hr
    exact List.all_eq_true.2 fun k hk => (waitDone_iff _ _ _ _ _).2 (h k hk)
  · refine issue_stall he (if_neg fun hall => ?_)
    have := (waitDone_iff _ _ _ _ _).1 (List.all_eq_true.1 hall k hk)
    omega

end Sys2Proof.Machine
end

section
/-! PROOFS. Proofs/MemForms.lean: the issue of loads and stores, and completion of the window forms, the atomics, the queue
operations and PSTORE (R51, R94, R101, R196 to R200, R220 to R224, R340). -/

namespace Sys2Proof.Machine

/-- An instruction that issues one operation of kind `kind k` for each slice `k`, all of one class, judged by its types, the room of
its class and its lanes. -/
theorem kindOps_complete {s : State} {e : Iss} {j : Iss → Judge} {b : Iss → Eff} {ok : Nat → Bool} {cl : Cls} {ea : Nat → Nat}
    {f : Nat → Option FaultCode} {mem : Mem} {mk : Nat → Nat → Nat → MemOp} (kind : Nat → OpKind) (h : issOf s = some e)
    (hroom : RoomForTraps e) (hj : j e = (legal e ok).and ((clsRoom e fun _ => cl).and (judgeLanes e.active ea f)))
    (hb : b e = opsBody e (fun _ => cl) mem mk) (hok : ∀ k ∈ e.sls, ok k = true) (hc : ∀ k ∈ e.sls, clsCount (e.g.sl k) cl < 63)
    (hf : ∀ l ∈ e.active, f l = none) (hm : AtCore s.mem mem)
    (hk : ∀ id iss k, ∃ d m q ps, mk id iss k = { mkOp e id iss k (kind k) cl d m ps with order := q }) :
    ∃ t ops, issue s j b = .next t ∧ Issued s t e (fun _ => cl) ops ∧ ∀ o ∈ ops, o.kind = kind o.slice := by
  have hk' : ∀ id iss k, (mk id iss k).slice = k ∧ (mk id iss k).id = id ∧ (mk id iss k).gang = e.gi ∧ (mk id iss k).core = e.core ∧
      (mk id iss k).part = e.kern.part ∧ (mk id iss k).ctx = e.kern.ctx ∧ (mk id iss k).pc = e.pc ∧ (mk id iss k).kind = kind k ∧
      (mk id iss k).cls = cl ∧ (mk id iss k).scope = mScope (e.mode k) ∧ (mk id iss k).killed = false := fun id iss k => by
    obtain ⟨d, m, q, ps, hd⟩ := hk id iss k
    rw [hd]
    exact mkOp_fields
  obtain ⟨t, ops, h1, h2, -, h4⟩ := laneOps_ex (Q := fun o => o.kind = kind o.slice) h hroom hj hb hok hc hf hm hk' fun id k _ => by
    obtain ⟨hs, -, -, -, -, -, -, hkind, -⟩ := hk' id s.exe.nextId k
    rw [hs, hkind]
  exact ⟨t, ops, h1, h2, h4⟩

/-! ## LD, LD2, LD4, ST, ST2 and ST4 at issue (R196 to R199) -/

/-- The access of `k` elements of lane `l`'s type at its effective address, for a load. -/
def loadAccess (s : State) (e : Iss) (k : Nat) (a b : Byte) (l : Nat) : Except FaultCode (List (MemPart × Nat)) :=
  laneParts s (coreAt e.core) e.ctx l (blockEa e.g l a b) (4 * runLen k (e.lty l)) needR []

/-- The access of `k` elements of lane `l`'s type at its effective address, for a store of register `d`. -/
def storeAccess (s : State) (e : Iss) (k : Nat) (d a b : Byte) (l : Nat) : Except FaultCode (List (MemPart × Nat)) :=
  laneParts s (coreAt e.core) e.ctx l (blockEa e.g l a b) (4 * runLen k (e.lty l)) needW
    (storeBytes e.g (e.lty l) l d (runLen k (e.lty l)) (k == 1))

/-- A load's types and registers (R196, R197). -/
def loadLegal (e : Iss) (k : Nat) (d a b : Byte) (j : Nat) : Bool :=
  decide (e.ty j ≤ 13) && loadOrder (e.mode j) && baseOk e.n a && declOk e.n b && loadRunOk e.n d (runLen k (e.ty j))

/-- A store's types and registers (R196, R197). -/
def storeLegal (e : Iss) (k : Nat) (d a b : Byte) (j : Nat) : Bool :=
  decide (e.ty j ≤ 13) && storeOrder (e.mode j) && baseOk e.n a && declOk e.n b
    && storeRunOk e.n (e.ty j) d (runLen k (e.ty j)) (k == 1)

/-- What a load makes for slice `j`, its L1 hits captured. -/
def loadOp (e : Iss) (ps : List (MemPart × Nat)) (d : Byte) (m : Nat → Nat) (id iss j : Nat) : MemOp :=
  let o := mkOp e id iss j .load .l d.toNat (m j) (partsOf ps j)
  { o with parts := o.parts.map (captureL1 e.s e.s.mem.ops o) }

theorem loadInstr_eq (k : Nat) (d a b : Byte) (s : State) : loadInstr k d a b s = issue s
    (fun e => (legal e (loadLegal e k d a b)).and ((clsRoom e fun _ => .l).and
      (judgeLanes e.active (fun l => blockEa e.g l a b) fun l => excFault (loadAccess e.s e k a b l))))
    fun e => loadBody e (allParts e.active (loadAccess e.s e k a b)) d fun j => runLen k (e.ty j) := rfl

theorem storeInstr_eq (k : Nat) (d a b : Byte) (s : State) : storeInstr k d a b s = issue s
    (fun e => (legal e (storeLegal e k d a b)).and ((clsRoom e fun _ => .s).and
      (judgeLanes e.active (fun l => blockEa e.g l a b) fun l => storeFault e.s (storeAccess e.s e k d a b l))))
    fun e => opsBody e (fun _ => .s) (storeL1 e.s e.core ((allParts e.active (storeAccess e.s e k d a b)).map Prod.fst)) fun id iss j =>
      mkOp e id iss j .store .s 0 0 (partsOf (allParts e.active (storeAccess e.s e k d a b)) j) := rfl

theorem laneParts_lanes {s : State} {at_ : Nat} {c : Ctx} {l ea n need : Nat} {data : List Byte} :
    ∀ p ∈ excGet [] (laneParts s at_ c l ea n need data), p.1.lane = l ∧ p.1.got = none := by
  cases h : laneParts s at_ c l ea n need data with
  | error f => exact fun p hp => absurd hp List.not_mem_nil
  | ok ps => exact laneParts_plain h

/-- The parts of slice `k`, from the accesses of all lanes. -/
theorem partsOf_slice {e : Iss} {f : Nat → Except FaultCode (List (MemPart × Nat))} (h : ∀ l, ∀ p ∈ excGet [] (f l), p.1.lane = l) (k : Nat) :
    partsOf (allParts e.active f) k = sliceParts e f k := partsOf_all (fun l _ => h l) k

/-- Parts that no L1 has answered are what a load was issued with. -/
theorem plainParts_loadOp {e : Iss} {f : Nat → Except FaultCode (List (MemPart × Nat))} (d : Byte) (m : Nat → Nat) (id iss j : Nat)
    (h : ∀ l, ∀ p ∈ excGet [] (f l), p.1.lane = l ∧ p.1.got = none) :
    plainParts (loadOp e (allParts e.active f) d m id iss j) = sliceParts e f j := by
  rw [← partsOf_slice (fun l p hp => (h l p hp).1)]
  have hgot : ∀ p ∈ partsOf (allParts e.active f) j, p.got = none := by
    intro p hp
    obtain ⟨q, hq, rfl⟩ := List.mem_map.1 hp
    obtain ⟨l, -, hl⟩ := List.mem_flatMap.1 (List.mem_filter.1 hq).1
    exact (h l q hl).2
  show ((partsOf (allParts e.active f) j).map _).map _ = _
  rw [List.map_map]
  refine (List.map_congr_left fun p hp => ?_).trans (List.map_id _)
  show { captureL1 _ _ _ p with got := none } = p
  rw [captureL1_plain, ← hgot p hp]

theorem load_issues {s : State} {e : Iss} (k : Nat) (d a b : Byte) (h : issOf s = some e) (hroom : RoomForTraps e)
    (hok : ∀ j ∈ e.sls, loadLegal e k d a b j = true) (hc : ∀ j ∈ e.sls, (e.g.sl j).cL < 63) (hf : Reaches e (loadAccess s e k a b)) :
    ∃ t ops, loadInstr k d a b s = .next t ∧ Issued s t e (fun _ => .l) ops ∧ OpsOf s e (fun _ => .load) (fun _ => .l) ops ∧
      ∀ o ∈ ops, o.order = mOrder (e.mode o.slice) ∧ o.dst = d.toNat ∧ o.nreg = runLen k (e.ty o.slice) ∧
        plainParts o = sliceParts e (loadAccess s e k a b) o.slice := by
  obtain rfl := (issOf_some h).1
  rw [loadInstr_eq]
  let ps := allParts e.active (loadAccess e.s e k a b)
  let mk := loadOp e ps d fun j => runLen k (e.ty j)
  obtain ⟨t, g, h1, h2, h3, h4, h5, h6, h7⟩ := ops_spec (cl := fun _ => .l) (mem := e.s.mem) (mk := mk)
    (j := fun e => (legal e (loadLegal e k d a b)).and ((clsRoom e fun _ => .l).and
      (judgeLanes e.active (fun l => blockEa e.g l a b) fun l => excFault (loadAccess e.s e k a b l))))
    (b := fun e => loadBody e (allParts e.active (loadAccess e.s e k a b)) d fun j => runLen k (e.ty j)) h
    (by
      rw [Judge.and_go, Judge.and_go, legal_go]
      exact ⟨hok, clsRoom_go.2 hc, judgeLanes_go.2 fun l hl => excFault_none.2 (hf l hl)⟩)
    hroom rfl ((countRequests_only e (ps.map Prod.fst) { e.s with mem := _ } e.gi).trans
      ⟨rfl, rfl, fun _ _ => rfl, rfl, rfl, rfl, rfl, rfl, rfl, rfl, rfl⟩) rfl
  refine ⟨t, e.sls.zipIdx.map fun p => mk (e.s.exe.nextId + p.2) e.s.exe.nextId p.1, h1, issued_of h2 h3 h4 h5 h6 ?_,
    opsOf_zip (mk := mk) rfl fun _ _ _ => ⟨rfl, rfl, rfl, rfl, rfl, rfl, rfl, rfl, rfl, rfl, rfl⟩, fun o ho => ?_⟩
  · rw [h7]
    exact (opsBody_mem e (fun _ => .l) e.s.mem mk).trans (touchParts_core _ _ _)
  · obtain ⟨id, j, -, rfl⟩ := mem_zipOps ho
    exact ⟨rfl, rfl, rfl, plainParts_loadOp _ _ _ _ _ fun _ => laneParts_lanes⟩

theorem storeFault_none {s : State} {x : Except FaultCode (List (MemPart × Nat))} :
    storeFault s x = none ↔ ∃ ps, x = .ok ps ∧ headerFault s ps = none := by
  cases x <;> simp [storeFault]

theorem store_issues {s : State} {e : Iss} (k : Nat) (d a b : Byte) (h : issOf s = some e) (hroom : RoomForTraps e)
    (hok : ∀ j ∈ e.sls, storeLegal e k d a b j = true) (hc : ∀ j ∈ e.sls, (e.g.sl j).cS < 63) (hf : Reaches e (storeAccess s e k d a b))
    (hh : ∀ l ∈ e.active, headerFault s (excGet [] (storeAccess s e k d a b l)) = none) :
    ∃ t ops, storeInstr k d a b s = .next t ∧ Issued s t e (fun _ => .s) ops ∧ OpsOf s e (fun _ => .store) (fun _ => .s) ops ∧
      ∀ o ∈ ops, o.order = mOrder (e.mode o.slice) ∧ o.parts = sliceParts e (storeAccess s e k d a b) o.slice := by
  obtain rfl := (issOf_some h).1
  rw [storeInstr_eq]
  exact laneOps_ex h hroom rfl rfl hok hc
    (fun l hl => by
      obtain ⟨ps, hps⟩ := hf l hl
      have := hh l hl
      rw [hps] at this ⊢
      exact storeFault_none.2 ⟨ps, rfl, this⟩)
    (storeL1_core _ _ _) (fun _ _ _ => mkOp_fields) fun _ _ _ => ⟨rfl, partsOf_slice (fun _ p hp => (laneParts_lanes p hp).1) _⟩

theorem load_faults {s : State} {e : Iss} (k : Nat) (d a b : Byte) (h : issOf s = some e) (hok : ∀ j ∈ e.sls, loadLegal e k d a b j = true) :
    ((∃ j ∈ e.sls, 63 ≤ (e.g.sl j).cL) → loadInstr k d a b s = .next (idle s)) ∧
    ∀ l c, (∀ j ∈ e.sls, (e.g.sl j).cL < 63) → firstFailing e (fun l => excFault (loadAccess s e k a b l)) l c →
      loadInstr k d a b s = .next (raise e (l / 4) c (BitVec.ofNat 64 (blockEa e.g l a b))) := by
  obtain rfl := (issOf_some h).1
  rw [loadInstr_eq]
  refine ⟨fun hc => issue_stall h ?_, fun l c hc hf => laneOps_fault (ea := fun l => blockEa e.g l a b) (cl := fun _ => .l) h rfl hok hc hf⟩
  rw [legal_go.2 hok, clsRoom_stall hc]
  rfl

theorem store_faults {s : State} {e : Iss} (k : Nat) (d a b : Byte) (h : issOf s = some e) (hok : ∀ j ∈ e.sls, storeLegal e k d a b j = true) :
    ((∃ j ∈ e.sls, 63 ≤ (e.g.sl j).cS) → storeInstr k d a b s = .next (idle s)) ∧
    ∀ l c, (∀ j ∈ e.sls, (e.g.sl j).cS < 63) → firstFailing e (fun l => storeFault s (storeAccess s e k d a b l)) l c →
      storeInstr k d a b s = .next (raise e (l / 4) c (BitVec.ofNat 64 (blockEa e.g l a b))) := by
  obtain rfl := (issOf_some h).1
  rw [storeInstr_eq]
  refine ⟨fun hc => issue_stall h ?_, fun l c hc hf => laneOps_fault (ea := fun l => blockEa e.g l a b) (cl := fun _ => .s) h rfl hok hc hf⟩
  rw [legal_go.2 hok, clsRoom_stall hc]
  rfl

theorem exec_loads (d a b : Byte) (s : State) : ∀ p ∈ [(1, Instr.ld d a b), (2, .ld2 d a b), (4, .ld4 d a b)],
    exec p.2 s = loadInstr p.1 d a b s := by
  simp [exec_ld, exec_ld2, exec_ld4, execLd, execLd2, execLd4]

theorem exec_stores (d a b : Byte) (s : State) : ∀ p ∈ [(1, Instr.st d a b), (2, .st2 d a b), (4, .st4 d a b)],
    exec p.2 s = storeInstr p.1 d a b s := by
  simp [exec_st, exec_st2, exec_st4, execSt, execSt2, execSt4]

/-- Settles O26: the three loads are `loadInstr` and the three stores `storeInstr`, whose judgement takes types, room and lanes in
that order. -/
theorem loadsAndStoresIssue : Obligations.LoadsAndStoresIssue := by
  unfold Obligations.LoadsAndStoresIssue
  intro s e d a b h
  refine ⟨fun p hp hok f hf => ?_, fun p hp hok f hf => ?_⟩
  · rw [exec_loads d a b s p hp]
    obtain rfl : f = loadAccess s e p.1 a b := hf
    exact ⟨fun hroom hc hr => load_issues p.1 d a b h hroom hok hc hr, load_faults p.1 d a b h hok⟩
  · rw [exec_stores d a b s p hp]
    obtain rfl : f = storeAccess s e p.1 d a b := hf
    exact ⟨fun hroom hc hr hh => store_issues p.1 d a b h hroom hok hc hr hh, store_faults p.1 d a b h hok⟩

/-! ## Completion of the window forms (R200, R224) -/

theorem ldlInstr_completes {s : State} {e : Iss} (k : Nat) (d a b : Byte) (h : issOf s = some e) (hroom : RoomForTraps e)
    (hok : ∀ j ∈ e.sls, e.ty j ≤ 13 ∧ loadOrder (e.mode j) = true ∧ (k = 1 ∨ tyWide (e.ty j) = false) ∧
      declOk e.n a = true ∧ declOk e.n b = true ∧ loadRunOk e.n d (runLen k (e.ty j)) = true)
    (hc : ∀ j ∈ e.sls, clsCount (e.g.sl j) .l < 63)
    (hw : ∀ l ∈ e.active, lmOk e.kern.pkt.lmem (lmOffset e.g l a b) (4 * runLen k (e.lty l)) = true) :
    ∃ t ops, ldlInstr k d a b s = .next t ∧ Issued s t e (fun _ => .l) ops ∧ ∀ o ∈ ops, o.kind = .ldl :=
  kindOps_complete (fun _ => .ldl) h hroom rfl rfl
    (fun j hj => by
      obtain ⟨h1, h2, h3, h4, h5, h6⟩ := hok j hj
      simp [h1, h2, h4, h5, h6, h3])
    hc (fun l hl => lmFault_none.2 (hw l hl)) (by rw [(issOf_some h).1]; exact .refl _) fun _ _ _ => ⟨_, _, _, _, rfl⟩

theorem stlInstr_completes {s : State} {e : Iss} (k : Nat) (d a b : Byte) (h : issOf s = some e) (hroom : RoomForTraps e)
    (hok : ∀ j ∈ e.sls, e.ty j ≤ 13 ∧ storeOrder (e.mode j) = true ∧ (k = 1 ∨ tyWide (e.ty j) = false) ∧
      declOk e.n a = true ∧ declOk e.n b = true ∧ storeRunOk e.n (e.ty j) d (runLen k (e.ty j)) (k == 1) = true)
    (hc : ∀ j ∈ e.sls, clsCount (e.g.sl j) .s < 63)
    (hw : ∀ l ∈ e.active, lmOk e.kern.pkt.lmem (lmOffset e.g l a b) (4 * runLen k (e.lty l)) = true) :
    ∃ t ops, stlInstr k d a b s = .next t ∧ Issued s t e (fun _ => .s) ops ∧ ∀ o ∈ ops, o.kind = .stl :=
  kindOps_complete (fun _ => .stl) h hroom rfl rfl
    (fun j hj => by
      obtain ⟨h1, h2, h3, h4, h5, h6⟩ := hok j hj
      simp [h1, h2, h4, h5, h6, h3])
    hc (fun l hl => lmFault_none.2 (hw l hl)) (by rw [(issOf_some h).1]; exact .refl _) fun _ _ _ => ⟨_, _, _, _, rfl⟩

theorem atlInstr_completes {s : State} {e : Iss} (ok : Nat → Bool) (cas : Bool) (d a b : Byte) (h : issOf s = some e)
    (hroom : RoomForTraps e) (hn : ∀ j ∈ e.sls, declOk e.n d = true ∧ declOk e.n a = true ∧ declOk e.n b = true)
    (hok : ∀ j ∈ e.sls, ok (e.ty j) = true) (hc : ∀ j ∈ e.sls, clsCount (e.g.sl j) (if d = 0 then Cls.s else .l) < 63)
    (hw : ∀ l ∈ e.active, lmOk e.kern.pkt.lmem (rd e.g l a) 4 = true) :
    ∃ t ops, atlInstr ok cas d a b s = .next t ∧ Issued s t e (fun _ => if d = 0 then Cls.s else .l) ops ∧
      ∀ o ∈ ops, o.kind = .atl cas (d != 0) :=
  kindOps_complete (fun _ => .atl cas (d != 0)) h hroom rfl rfl
    (fun j hj => by
      obtain ⟨h1, h2, h3⟩ := hn j hj
      simp [h1, h2, h3, hok j hj])
    hc (fun l hl => lmFault_none.2 (hw l hl)) (by rw [(issOf_some h).1]; exact .refl _) fun _ _ _ => ⟨_, _, _, _, rfl⟩

/-- Settles O57: LDL and LDL4, STL and STL4, ATLADD and ATLCAS are each one form of issue, judged by the types, the room of the class
and the window, in that order. -/
theorem windowFormsComplete : Obligations.WindowFormsComplete := by
  unfold Obligations.WindowFormsComplete
  intro s e d a b h hroom
  refine ⟨?_, ?_, ?_, ?_, ?_, ?_⟩
  · exact fun hl hc hw => ldlInstr_completes 1 d a b h hroom hl hc hw
  · exact fun hl hc hw => ldlInstr_completes 4 d a b h hroom hl hc hw
  · exact fun hl hc hw => stlInstr_completes 1 d a b h hroom hl hc hw
  · exact fun hl hc hw => stlInstr_completes 4 d a b h hroom hl hc hw
  · exact fun hn ht hc hw => atlInstr_completes (fun t => t ≤ 1) false d a b h hroom hn (fun j hj => by simpa using ht j hj) hc hw
  · exact fun hn ht hc hw => atlInstr_completes (fun t => t ≤ 1 || t == 4) true d a b h hroom hn (fun j hj => by simpa using ht j hj) hc hw

/-! ## Completion of the atomics, EVADD, the queue operations and PSTORE (R94, R101, R220 to R222, R340) -/

/-- An active lane's address that is aligned and translates for an atomic; `host` says that it may lie in host memory. -/
def AtomicReaches (s : State) (e : Iss) (a : Byte) (host : Bool) (l n : Nat) : Prop :=
  rdPair e.g l a % n = 0 ∧ ∃ x, xlate s (coreAt e.core) e.ctx (rdPair e.g l a) needRW = .ok x ∧
    (host = true ∨ paHost (ownDev s.sys) x.pa = false)

theorem rmwPart_reaches {s : State} {e : Iss} {a : Byte} {host : Bool} {l n opd cmp : Nat} {op : AtOp}
    (hop : host = true → op = .add ∨ op = .xchg ∨ op = .cas) (h : AtomicReaches s e a host l n) :
    excFault (rmwPart s (coreAt e.core) e.ctx l (rdPair e.g l a) n op opd cmp) = none := by
  obtain ⟨hal, x, hx, hh⟩ := h
  exact rmwPart_ok hal hx (hh.imp_left hop)

theorem atomic_completes {s : State} {e : Iss} (op : AtOp) (ok : Nat → Bool) (d a b : Byte) (host : Bool) (h : issOf s = some e)
    (hroom : RoomForTraps e) (hop : host = true → op = .add ∨ op = .xchg ∨ op = .cas)
    (hok : ∀ j ∈ e.sls, ok (e.ty j) = true ∧ pairOk e.n a = true ∧ srcOk e.n (e.ty j) b = true ∧ (d = 0 ∨ dstOk e.n (e.ty j) d = true))
    (hc : ∀ j ∈ e.sls, clsCount (e.g.sl j) (if d = 0 then Cls.s else .l) < 63)
    (hw : ∀ l ∈ e.active, AtomicReaches s e a host l (if tyWide (e.lty l) then 8 else 4)) :
    ∃ t ops, atomic op ok d a b s = .next t ∧ Issued s t e (fun _ => if d = 0 then Cls.s else .l) ops ∧
      ∀ o ∈ ops, o.kind = .rmw op (tySigned (e.ty o.slice)) (d != 0) := by
  obtain rfl := (issOf_some h).1
  exact kindOps_complete (fun k => .rmw op (tySigned (e.ty k)) (d != 0)) h hroom rfl rfl
    (fun j hj => by
      obtain ⟨h1, h2, h3, h4⟩ := hok j hj
      simpa [h1, h2, h3] using h4)
    hc (fun l hl => rmwPart_reaches hop (hw l hl)) (dropParts_core _ _ _)
    fun _ _ _ => ⟨_, _, _, _, rfl⟩

theorem evadd_completes {s : State} {e : Iss} (a b : Byte) (h : issOf s = some e) (hroom : RoomForTraps e) (ha : pairOk e.n a = true)
    (hb : wideOk e.n b = true) (hc : ∀ j ∈ e.sls, clsCount (e.g.sl j) .s < 63) (hw : ∀ l ∈ e.active, AtomicReaches s e a true l 8) :
    ∃ t ops, exec (.evadd a b) s = .next t ∧ Issued s t e (fun _ => .s) ops ∧ ∀ o ∈ ops, o.kind = .rmw .add false false ∧ o.order = 2 := by
  obtain rfl := (issOf_some h).1
  have hall : ∃ t ops, exec (.evadd a b) e.s = .next t ∧ Issued e.s t e (fun _ => .s) ops ∧
      OpsOf e.s e (fun _ => .rmw .add false false) (fun _ => .s) ops ∧ ∀ o ∈ ops, o.kind = .rmw .add false false ∧ o.order = 2 := by
    rw [exec_evadd]
    exact laneOps_ex h hroom rfl rfl (fun j _ => by rw [ha, hb]; rfl) hc
      (fun l hl => rmwPart_reaches (fun _ => .inl rfl) (hw l hl)) (dropParts_core _ _ _) (fun _ _ _ => mkOp_fields) fun _ _ _ => ⟨rfl, rfl⟩
  obtain ⟨t, ops, h1, h2, -, h4⟩ := hall
  exact ⟨t, ops, h1, h2, h4⟩

theorem queueInstr_completes {s : State} {e : Iss} (enq : Bool) (d a b : Byte) (h : issOf s = some e) (hroom : RoomForTraps e)
    (hd : pairOk e.n d = true) (ha : pairOk e.n a = true) (hb : declOk e.n b = true) (hc : ∀ j ∈ e.sls, clsCount (e.g.sl j) .l < 63)
    (hp : enq = true → ownLocalPending e = false) (hw : ∀ l ∈ e.active, ∃ ps, queuePart s e l a b enq = .ok ps) :
    ∃ t ops, queueInstr enq d a b s = .next t ∧ Issued s t e (fun _ => .l) ops ∧ ∀ o ∈ ops, o.kind = if enq then .enq 0 else .deq 0 := by
  obtain rfl := (issOf_some h).1
  refine kindOps_complete (ea := fun l => rdPair e.g l a) (ok := fun _ => pairOk e.n d && pairOk e.n a && declOk e.n b) (fun _ => if enq then .enq 0 else .deq 0) h hroom
    ?_ rfl (fun j _ => by simp [hd, ha, hb]) hc (fun l hl => excFault_none.2 (hw l hl)) (dropParts_core _ _ _)
    fun _ _ _ => ⟨_, _, _, _, rfl⟩
  have : (enq && ownLocalPending e) = false := by cases enq <;> simp_all
  dsimp only
  rw [this]
  simp [Judge.and_go_right]

theorem pstorePart_ok {s : State} {at_ : Nat} {c : Ctx} {l ea p n : Nat} {data : List Byte} {x : Xl} (hal : ea % n = 0) (hp : p < 384)
    (hown : p ≠ ownDev s.sys) (hx : xlate s at_ c ea needW = .ok x) (hl : leafPeer x.leaf = true) :
    excFault (pstorePart s at_ c l ea p n data) = none := by
  unfold pstorePart
  rw [if_neg (by omega), if_neg (by simpa using hal), hx]
  simp [hl, excFault]

theorem pstore_completes {s : State} {e : Iss} (d a b : Byte) (h : issOf s = some e) (hroom : RoomForTraps e)
    (hok : ∀ j ∈ e.sls, e.ty j ≤ 13 ∧ storeOrder (e.mode j) = true ∧ srcOk e.n (e.ty j) d = true) (ha : pairOk e.n a = true)
    (hb : declOk e.n b = true) (hc : ∀ j ∈ e.sls, clsCount (e.g.sl j) .s < 63)
    (hw : ∀ l ∈ e.active, rdPair e.g l a % (if tyWide (e.lty l) then 8 else 4) = 0 ∧ rd e.g l b < 384 ∧ rd e.g l b ≠ ownDev s.sys ∧
        ∃ x, xlate s (coreAt e.core) e.ctx (rdPair e.g l a) needW = .ok x ∧ leafPeer x.leaf = true) :
    ∃ t ops, exec (.pstore d a b) s = .next t ∧ Issued s t e (fun _ => .s) ops ∧ ∀ o ∈ ops, o.kind = .pstore := by
  obtain rfl := (issOf_some h).1
  rw [exec_pstore]
  exact kindOps_complete (fun _ => .pstore) h hroom rfl rfl
    (fun j hj => by
      obtain ⟨h1, h2, h3⟩ := hok j hj
      simp [h1, h2, h3, ha, hb])
    hc (fun l hl => by
      obtain ⟨hal, hp, hown, x, hx, hleaf⟩ := hw l hl
      exact pstorePart_ok hal hp hown hx hleaf)
    (storeL1_core _ _ _) fun _ _ _ => ⟨_, _, _, _, rfl⟩

/-- Settles O58: the ten atomics are one form of issue, as are ENQ and DEQ; only ATADD, ATXCHG and ATCAS may reach host memory. -/
theorem atomicAndQueueFormsComplete : Obligations.AtomicAndQueueFormsComplete := by
  unfold Obligations.AtomicAndQueueFormsComplete
  intro s e d a b h hroom cl room size mapped typed
  have at_ : ∀ (op : AtOp) (ok : Nat → Bool) (host : Bool), (host = true → op = .add ∨ op = .xchg ∨ op = .cas) → typed ok host →
      ∃ t ops, atomic op ok d a b s = .next t ∧ Issued s t e (fun _ => cl) ops ∧ ∀ o ∈ ops, o.kind = .rmw op (tySigned (e.ty o.slice)) (d != 0) :=
    fun op ok host hop ht => atomic_completes op ok d a b host h hroom hop ht.1 ht.2.1 ht.2.2
  refine ⟨?_, ?_, ?_, ?_, ?_, ?_, ?_, ?_, ?_, ?_, ?_, ?_, ?_, ?_⟩
  · exact at_ .add tyI true (by simp)
  · exact at_ .and tyI false (by simp)
  · exact at_ .or tyI false (by simp)
  · exact at_ .xor tyI false (by simp)
  · exact at_ .min tyI false (by simp)
  · exact at_ .max tyI false (by simp)
  · exact at_ .xchg tyIF true (by simp)
  · exact at_ .cas tyIF true (by simp)
  · exact at_ .fmax tyF false (by simp)
  · exact at_ .fmin tyF false (by simp)
  · exact fun ha hb hc hw => evadd_completes a b h hroom ha hb hc hw
  · exact fun hd ha hb hc hp hw => queueInstr_completes true d a b h hroom hd ha hb hc (fun _ => hp) hw
  · exact fun hd ha hb hc hw => queueInstr_completes false d a b h hroom hd ha hb hc (by simp) hw
  · exact fun hok ha hb hc hw => pstore_completes d a b h hroom hok ha hb hc hw

end Sys2Proof.Machine
end

section
/-! PROOFS. Proofs/OpEnds.lean: the later steps of operations: what LOAD_COMPLETE, STORE_ACK and FIT_ANSWER end, and what
RMW_AT_HOME and QUEUE_OP_AT_HOME perform (R51, R52, R94, R95, R197, R198, R221, R355, R356). -/

namespace Sys2Proof.Machine

/-! ## An operation that stands while its parts change -/

/-- Operation `o` stands in a memory, with the parts `ps`. -/
def Stands (m : Mem) (o : MemOp) (ps : List MemPart) : Prop := findOp m o.id = some { o with parts := ps }

theorem stands_of_find {m : Mem} {op : Nat} {o : MemOp} (h : findOp m op = some o) : Stands m o o.parts := by
  obtain rfl := findOp_id h
  exact h

theorem Stands.map {m m' : Mem} {o : MemOp} {ps qs : List MemPart} {f : MemOp → MemOp} (h : Stands m o ps) (hm : m'.ops = m.ops.map f)
    (hf : ∀ q, (f q).id = q.id) (he : f { o with parts := ps } = { o with parts := qs }) : Stands m' o qs :=
  (findOp_map hf h hm).trans (congrArg some he)

theorem Stands.congr {m m' : Mem} {o : MemOp} {ps : List MemPart} (h : Stands m o ps) (hm : m'.ops = m.ops) : Stands m' o ps := by
  unfold Stands findOp at *
  rw [hm]
  exact h

theorem onOp_stands {s : State} {o : MemOp} {ps : List MemPart} (h : Stands s.mem o ps) (f : State → MemOp → State) :
    onOp s o.id f = f s { o with parts := ps } := by
  unfold onOp
  rw [h]

theorem setPart_ite_id (c : Prop) [Decidable c] (q : MemOp) (i : Nat) (f : MemPart → MemPart) : (if c then setPart q i f else q).id = q.id := by
  split <;> rfl

theorem Stands.gotPart {m : Mem} {o : MemOp} {ps : List MemPart} (h : Stands m o ps) (i : Nat) (bs : List Byte) (a : Bool) :
    Stands (gotPart m o.id i bs a) o (modAt ps i fun r => { r with got := some bs, performed := true, acked := r.acked || a }) :=
  h.map rfl (fun q => setPart_ite_id _ q i _) (by rw [if_pos (beq_self_eq_true _)]; rfl)

theorem Stands.markPart {m : Mem} {o : MemOp} {ps : List MemPart} (h : Stands m o ps) (i : Nat) (a : Bool) :
    Stands (markPart m o.id i a) o (modAt ps i fun r => { r with performed := true, acked := r.acked || a }) :=
  h.map rfl (fun q => setPart_ite_id _ q i _) (by simp only [beq_self_eq_true, Bool.true_or, if_true]; rfl)

theorem Stands.ackParts {m : Mem} {o : MemOp} {ps : List MemPart} (h : Stands m o ps) (pa : Nat) :
    Stands (ackParts m o.issue pa) o (ps.map fun r => if r.pa == pa && r.performed then { r with acked := true } else r) :=
  h.map rfl (fun q => by split <;> rfl) (by rw [if_pos (beq_self_eq_true _)])

/-- Every operation of an issue has its parts mapped. -/
theorem Stands.issue {m m' : Mem} {o : MemOp} {ps : List MemPart} (h : Stands m o ps) (f : MemPart → MemPart)
    (hm : m'.ops = modIf m.ops (fun q => q.issue == o.issue) fun q => { q with parts := q.parts.map f }) : Stands m' o (ps.map f) :=
  h.map hm (fun q => by split <;> rfl) (by rw [if_pos (beq_self_eq_true _)])

/-- A step that sets the operations of an issue one after another, each to its own with new parts. -/
theorem Stands.setOps {s : State} {o : MemOp} {ps : List MemPart} {f : State → MemOp → State} {L : List MemOp} (h : Stands s.mem o ps)
    (hL : ∀ q ∈ L, q.id = o.id → q = o)
    (hf : ∀ t q, (f t q).exe.gangs = t.exe.gangs ∧ ∃ qs, (f t q).mem.ops = t.mem.ops.map fun r => if r.id == q.id then { q with parts := qs } else r) :
    (L.foldl f s).exe.gangs = s.exe.gangs ∧ ∃ qs, Stands (L.foldl f s).mem o qs := by
  refine List.foldlRecOn (motive := fun t : State => t.exe.gangs = s.exe.gangs ∧ ∃ qs, Stands t.mem o qs) L f ⟨rfl, ps, h⟩ fun t ⟨hg, ps', ht⟩ q hq => ?_
  obtain ⟨hgq, qs, hops⟩ := hf t q
  refine ⟨hgq.trans hg, ?_⟩
  have hid : ∀ r : MemOp, (if r.id == q.id then { q with parts := qs } else r).id = r.id := fun r => by
    split
    · rename_i hr; exact (beq_iff_eq.1 hr).symm
    · rfl
  by_cases hqo : q.id = o.id
  · obtain rfl := hL q hq hqo
    exact ⟨qs, ht.map hops hid (if_pos (beq_self_eq_true _))⟩
  · exact ⟨ps', ht.map hops hid (if_neg (by simpa using fun h => hqo h.symm))⟩

theorem issueOps_unique {s : State} {op : Nat} {o : MemOp} (h : findOp s.mem op = some o) (hu : ∀ q ∈ s.mem.ops, q.id = op → q = o) :
    ∀ q ∈ issueOps s.mem o.issue, q.id = o.id → q = o := fun q hq he =>
  hu q (List.mem_filter.1 hq).1 (by rw [he, findOp_id h])

/-! ## The parts of an operation answered one after another -/

/-- On the way from `s` to `t` the parts of `o` are done one after another: each is done, or numbered in `todo` and as it was. -/
structure Underway (D : MemPart → Prop) (s : State) (o : MemOp) (todo : Nat → Prop) (t : State) : Prop where
  gangs : t.exe.gangs = s.exe.gangs
  own : ownDev t.sys = ownDev s.sys
  answer : answerable t.sys o.id none = true
  parts : ∃ ps, Stands t.mem o ps ∧ ∀ i p, ps[i]? = some p → D p ∨ todo i ∧ o.parts[i]? = some p

theorem Underway.start {D : MemPart → Prop} {s : State} {op : Nat} {o : MemOp} {todo : Nat → Prop} (h : findOp s.mem op = some o)
    (ha : answerable s.sys op none = true) (ht : ∀ i p, o.parts[i]? = some p → todo i) : Underway D s o todo s :=
  ⟨rfl, rfl, by rw [findOp_id h]; exact ha, o.parts, stands_of_find h, fun i p hp => .inr ⟨ht i p hp, hp⟩⟩

theorem Underway.foldl {α : Type} {D : MemPart → Prop} {s : State} {o : MemOp} {key : α → Nat} {f : State → α → State} {L : List α}
    (hf : ∀ x ∈ L, ∀ (t : State) (R : List α), Underway D s o (fun i => i = key x ∨ ∃ y ∈ R, key y = i) t → Underway D s o (fun i => ∃ y ∈ R, key y = i) (f t x)) {t : State}
    (ht : Underway D s o (fun i => ∃ y ∈ L, key y = i) t) : Underway D s o (fun _ => False) (L.foldl f t) := by
  induction L generalizing t with
  | nil => exact ⟨ht.gangs, ht.own, ht.answer, by simpa using ht.parts⟩
  | cons x L ih =>
    refine ih (fun y hy => hf y (List.mem_cons_of_mem _ hy)) (hf x List.mem_cons_self t L ⟨ht.gangs, ht.own, ht.answer, ?_⟩)
    simpa [eq_comm] using ht.parts

/-- The part that is numbered next is done already, or is not there. -/
theorem Underway.skip {D : MemPart → Prop} {s t : State} {o : MemOp} {i : Nat} {R : Nat → Prop} (h : Underway D s o (fun j => j = i ∨ R j) t)
    (hd : ∀ p, o.parts[i]? = some p → D p) : Underway D s o R t := by
  obtain ⟨ps, hps, hall⟩ := h.parts
  refine ⟨h.gangs, h.own, h.answer, ps, hps, fun j p hp => ?_⟩
  rcases hall j p hp with hD | ⟨rfl | hR, ho⟩
  · exact .inl hD
  · exact .inl (hd p ho)
  · exact .inr ⟨hR, ho⟩

/-- The part that is numbered next is done. -/
theorem Underway.step {D : MemPart → Prop} {s t u : State} {o : MemOp} {i : Nat} {R : Nat → Prop} (h : Underway D s o (fun j => j = i ∨ R j) t)
    (hg : u.exe.gangs = t.exe.gangs) (hs : u.sys = (ackReq t o.id (some i)).sys)
    (hp : ∀ ps, Stands t.mem o ps → ∃ qs, Stands u.mem o qs ∧ ∀ (j : Nat) (q : MemPart), qs[j]? = some q →
      ∃ p, ps[j]? = some p ∧ (D q ∨ j ≠ i ∧ q = p)) : Underway D s o R u := by
  obtain ⟨ps, hps, hall⟩ := h.parts
  obtain ⟨qs, hqs, hq⟩ := hp ps hps
  refine ⟨hg.trans h.gangs, ?_, ?_, qs, hqs, fun j q hj => ?_⟩
  · rw [hs]; exact h.own
  · rw [hs]
    exact List.all_eq_true.2 fun m hm => List.all_eq_true.1 h.answer m (List.mem_filter.1 hm).1
  · obtain ⟨p, hpj, hD | ⟨hji, rfl⟩⟩ := hq j q hj
    · exact .inl hD
    · rcases hall j q hpj with hD | ⟨rfl | hR, ho⟩
      · exact .inl hD
      · exact absurd rfl hji
      · exact .inr ⟨hR, ho⟩

theorem Underway.done {D : MemPart → Prop} {s t : State} {o : MemOp} (h : Underway D s o (fun _ => False) t) :
    ∃ ps, Stands t.mem o ps ∧ ∀ p ∈ ps, D p := by
  obtain ⟨ps, hps, hall⟩ := h.parts
  refine ⟨ps, hps, fun p hp => ?_⟩
  obtain ⟨i, hi⟩ := List.mem_iff_getElem?.1 hp
  exact (hall i p hi).resolve_right fun h => h.1

theorem answerable_part {x : Sys} {op : Nat} (h : answerable x op none = true) (i : Nat) : answerable x op (some i) = true := by
  refine List.all_eq_true.2 fun m hm => ?_
  have := List.all_eq_true.1 h m hm
  unfold FabricOut.named at *
  cases hl : m.link.any (linkUp x) with
  | true => simp
  | false =>
    simp only [hl, Option.isNone_none, Bool.true_or, Bool.and_true, Bool.or_false] at this
    simp only [Bool.or_false, Bool.not_eq_true'] at this ⊢
    rw [this]; rfl

/-- A part whose data has come and whose write is acknowledged. -/
def Answered (p : MemPart) : Prop := p.got.isSome = true ∧ p.acked = true

/-- A part whose write is performed and acknowledged. -/
def Settled (p : MemPart) : Prop := p.performed = true ∧ p.acked = true

theorem paPeer_own {s t : State} (h : ownDev t.sys = ownDev s.sys) (pa : Nat) : paPeer t pa = paPeer s pa := by
  unfold paPeer
  rw [h]

theorem drawAnswer_underway {s t : State} {o : MemOp} {i : Nat} {R : Nat → Prop} (h : Underway Answered s o (fun j => j = i ∨ R j) t)
    (hp : ∀ p ∈ o.parts, Answered p ∨ p.got = none ∧ paPeer s p.pa = true ∧ p.performed = true) : Underway Answered s o R (drawAnswer t o i) := by
  unfold drawAnswer
  cases hi : o.parts[i]? with
  | none => exact h.skip fun p hp => by rw [hi] at hp; cases hp
  | some p =>
    dsimp only
    rcases hp p (List.mem_of_getElem? hi) with hA | ⟨hgot, hpeer, hperf⟩
    · rw [if_pos (by simp [hA.1])]
      exact h.skip fun q hq => by rw [hi] at hq; cases hq; exact hA
    · rw [if_neg (by simp [hgot, paPeer_own h.own, hpeer, hperf, answerable_part h.answer])]
      refine h.step rfl rfl fun ps hps => ⟨_, hps.gotPart i _ true, fun j q hj => ?_⟩
      rw [modAt_get] at hj
      split at hj
      · rename_i hji
        obtain ⟨p', hp', rfl⟩ := Option.map_eq_some_iff.1 hj
        exact ⟨p', hp', .inl ⟨rfl, Bool.or_true _⟩⟩
      · rename_i hji
        exact ⟨q, hj, .inr ⟨hji, rfl⟩⟩

theorem drawAnswers_done {s : State} {op : Nat} {o : MemOp} (h : findOp s.mem op = some o) (ha : answerable s.sys op none = true)
    (hp : ∀ p ∈ o.parts, Answered p ∨ p.got = none ∧ paPeer s p.pa = true ∧ p.performed = true) :
    Underway Answered s o (fun _ => False) (drawAnswers s o) :=
  Underway.foldl (key := id) (fun _ _ _ _ ht => drawAnswer_underway ht hp)
    (.start h ha fun i _ hi => ⟨i, List.mem_range.2 (List.getElem?_eq_some_iff.1 hi).1, rfl⟩)

/-- Parts that are answered draw nothing. -/
theorem drawAnswers_answered {s : State} {o : MemOp} (h : ∀ p ∈ o.parts, p.got.isSome = true) : drawAnswers s o = s := by
  refine List.foldlRecOn (motive := fun t => t = s) _ _ rfl fun t ht i _ => ?_
  rw [ht]
  unfold drawAnswer
  cases hi : o.parts[i]? with
  | none => rfl
  | some p => exact if_pos (by simp [h p (List.mem_of_getElem? hi)])

/-- The operations before `o` do not change with it. -/
theorem earlier_gotPart (m : Mem) (o : MemOp) (i : Nat) (bs : List Byte) (a : Bool) :
    earlier (gotPart m o.id i bs a).ops o = earlier m.ops o := by
  unfold gotPart earlier modIf
  induction m.ops with
  | nil => rfl
  | cons q L ih =>
    rw [List.map_cons, List.filter_cons, List.filter_cons, ih]
    by_cases hq : q.id = o.id
    · simp [hq, setPart]
    · simp [hq]

theorem drawAnswers_earlier (s : State) (o : MemOp) : earlier (drawAnswers s o).mem.ops o = earlier s.mem.ops o := by
  refine List.foldlRecOn (motive := fun t : State => earlier t.mem.ops o = earlier s.mem.ops o) _ _ rfl fun t ht i _ => ?_
  unfold drawAnswer
  split
  · exact ht
  · split
    · exact ht
    · exact (earlier_gotPart t.mem o i _ true).trans ht

theorem ackSent_done {s : State} {op : Nat} {o : MemOp} (h : findOp s.mem op = some o) (ha : answerable s.sys op none = true)
    (hp : ∀ p ∈ o.parts, p.performed = true ∧ (p.acked = true ∨ paPeer s p.pa = true)) :
    Underway Settled s o (fun _ => False) (ackSent s o fun p => paPeer s p.pa) := by
  refine Underway.foldl (key := Prod.snd) (fun x hx t R ht => ?_) (.start h ha fun i p hi => ⟨(p, i), List.mem_iff_getElem?.2 ⟨i, by simp [hi]⟩, rfl⟩)
  have hx' : o.parts[x.2]? = some x.1 := by simpa using List.mem_zipIdx_iff_getElem?.1 hx
  obtain ⟨hperf, hor⟩ := hp x.1 (List.mem_of_getElem? hx')
  by_cases hack : x.1.acked = true
  · rw [if_neg (by simp [hack])]
    exact ht.skip fun q hq => by rw [hx'] at hq; cases hq; exact ⟨hperf, hack⟩
  · rw [if_pos (by simp [hperf, hack, hor.resolve_left hack, answerable_part ht.answer])]
    refine ht.step rfl rfl fun ps hps => ⟨_, (hps.markPart x.2 true).ackParts x.1.pa, fun j q hj => ?_⟩
    rw [List.getElem?_map, modAt_get] at hj
    obtain ⟨r, hr, rfl⟩ := Option.map_eq_some_iff.1 hj
    split at hr
    · obtain ⟨p', hp', rfl⟩ := Option.map_eq_some_iff.1 hr
      refine ⟨p', hp', .inl ?_⟩
      split
      · exact ⟨rfl, rfl⟩
      · exact ⟨rfl, Bool.or_true _⟩
    · rename_i hji
      refine ⟨r, hr, ?_⟩
      split
      · rename_i hc
        exact .inl ⟨(Bool.and_eq_true _ _ ▸ hc).2, rfl⟩
      · exact .inr ⟨hji, rfl⟩

/-- Parts that are acknowledged have nothing to be acknowledged. -/
theorem ackSent_acked {s : State} {o : MemOp} (peer : MemPart → Bool) (h : ∀ p ∈ o.parts, p.acked = true) : ackSent s o peer = s := by
  refine List.foldlRecOn (motive := fun t => t = s) _ _ rfl fun t ht x hx => ?_
  rw [ht]
  exact if_neg (by simp [h x.1 (List.fst_mem_of_mem_zipIdx hx)])

/-- Parts that are performed do not go out again. -/
theorem storeOut_performed {s : State} {o : MemOp} {ps : List MemPart} (h : Stands s.mem o ps) (hp : ∀ p ∈ ps, p.performed = true) (L : List Nat) :
    L.foldl (fun t i => storeOutPart t o.id i) s = s := by
  refine List.foldlRecOn (motive := fun t => t = s) _ _ rfl fun t ht i _ => ?_
  rw [ht]
  unfold storeOutPart
  rw [h]
  dsimp only
  cases hi : ps[i]? with
  | none => rfl
  | some p => exact if_pos (by simp [hp p (List.mem_of_getElem? hi)])

theorem contribSend_performed {s : State} {o : MemOp} {ps : List MemPart} (h : Stands s.mem o ps) (hp : ∀ p ∈ ps, p.performed = true) :
    contribSend s o.id = s := by
  unfold contribSend
  rw [onOp_stands h]
  refine List.foldlRecOn (motive := fun t => t = s) _ _ rfl fun t ht x hx => ?_
  rw [ht]
  exact if_pos (by simp [hp x.1 (List.fst_mem_of_mem_zipIdx hx)])

/-! ## Operations that end -/

theorem landLoad_stands {s u : State} {o : MemOp} {g : Gang} {ps : List MemPart} (hg : s.exe.gangs[o.gang]? = some g)
    (hu : u.exe.gangs = s.exe.gangs) (hd : o.dst + o.nreg ≤ 256) : ∃ g', Ends s (landLoad u { o with parts := ps }) o g g' := by
  obtain ⟨g', h, -⟩ := landLoad_ends (o := { o with parts := ps }) hg hu hd
  exact ⟨g', h⟩

theorem landValue_stands {s u : State} {o : MemOp} {g : Gang} {ps : List MemPart} (hg : s.exe.gangs[o.gang]? = some g)
    (hu : u.exe.gangs = s.exe.gangs) (hd : o.dst + o.nreg ≤ 256) : ∃ g', Ends s (landValue u { o with parts := ps }) o g g' := by
  obtain ⟨g', h, -⟩ := landValue_ends (o := { o with parts := ps }) hg hu hd
  exact ⟨g', h⟩

/-- A retired operation writes no register. -/
theorem retire_stands {s u : State} {o : MemOp} {g : Gang} {ps : List MemPart} (hg : s.exe.gangs[o.gang]? = some g)
    (hu : u.exe.gangs = s.exe.gangs) : ∃ g', Ends s (retireOp u { o with parts := ps }) o g g' ∧ g'.regs = g.regs :=
  ⟨_, retire_ends (o := { o with parts := ps }) hg hu, rfl⟩

/-- The end of an operation of class S of which every part is acknowledged. -/
theorem endStore_ends {s u : State} {o : MemOp} {g : Gang} {ps : List MemPart} (h : Stands u.mem o ps) (ha : ∀ p ∈ ps, p.acked = true)
    (hg : s.exe.gangs[o.gang]? = some g) (hu : u.exe.gangs = s.exe.gangs) : ∃ g', Ends s (endStore u o.id) o g g' ∧ g'.regs = g.regs := by
  unfold endStore
  rw [onOp_stands h, if_pos (show allAcked { o with parts := ps } = true from List.all_eq_true.2 ha)]
  exact retire_stands hg ((congrArg Exe.gangs (finishAcquire_exe u _)).trans hu)

theorem atlIssue_stands {s : State} {op : Nat} {o : MemOp} (h : findOp s.mem op = some o) (hu : ∀ q ∈ s.mem.ops, q.id = op → q = o) (cas : Bool) :
    (atlIssue s o cas).exe.gangs = s.exe.gangs ∧ ∃ qs, Stands (atlIssue s o cas).mem o qs :=
  (stands_of_find h).setOps (issueOps_unique h hu) fun _ _ => ⟨rfl, _, rfl⟩

/-- The window atomics of an issue performed, or performed already (R221, R224). -/
theorem atlDone_stands {s : State} {op : Nat} {o : MemOp} (h : findOp s.mem op = some o) (hu : ∀ q ∈ s.mem.ops, q.id = op → q = o) (cas c : Bool)
    {t : State} (ht : t = if c then s else atlIssue s o cas) : t.exe.gangs = s.exe.gangs ∧ ∃ qs, Stands t.mem o qs := by
  cases c with
  | true => rw [ht]; exact ⟨rfl, _, stands_of_find h⟩
  | false => rw [ht]; exact atlIssue_stands h hu cas

theorem HomeSide.gangs {P : Nat → Prop} {s t : State} (h : HomeSide P s t) : t.exe.gangs = s.exe.gangs := by
  rw [h.exe]

/-- A lane of a LOCKB changes what groups hold, and the home's side of memory (R205). -/
theorem lockOne_keeps (s : State) (o : MemOp) (p : MemPart) :
    (lockOne s o p).1.exe.gangs = s.exe.gangs ∧ (lockOne s o p).1.mem.ops = s.mem.ops := by
  have side := fun frame cs w wh pol wayp => homeAlloc_side s frame cs w wh pol wayp
  unfold lockOne
  dsimp only
  repeat' split
  all_goals first | exact ⟨rfl, rfl⟩ | skip
  all_goals exact ⟨(side ..).gangs, (side ..).mem.ops⟩

theorem lockDo_keeps (s : State) (q : MemOp) : (lockDo s q).exe.gangs = s.exe.gangs ∧
    ∃ qs, (lockDo s q).mem.ops = s.mem.ops.map fun r => if r.id == q.id then { q with parts := qs } else r := by
  have key : ∀ (L : List MemPart) (acc : State × List MemPart), acc.1.exe.gangs = s.exe.gangs ∧ acc.1.mem.ops = s.mem.ops →
      let r := L.foldl (fun (acc : State × List MemPart) p =>
        ((lockOne acc.1 q p).1, acc.2 ++ [{ p with got := some (natLe (lockOne acc.1 q p).2 4), performed := true }])) acc
      r.1.exe.gangs = s.exe.gangs ∧ r.1.mem.ops = s.mem.ops := by
    intro L
    induction L with
    | nil => exact fun _ h => h
    | cons p L ih =>
      intro acc h
      obtain ⟨h1, h2⟩ := lockOne_keeps acc.1 q p
      exact ih _ ⟨h1.trans h.1, h2.trans h.2⟩
  obtain ⟨h1, h2⟩ := key q.parts (s, []) ⟨rfl, rfl⟩
  exact ⟨h1, _, by rw [← h2]; rfl⟩

theorem lockIssue_stands {s : State} {op : Nat} {o : MemOp} (h : findOp s.mem op = some o) (hu : ∀ q ∈ s.mem.ops, q.id = op → q = o) :
    (lockIssue s o).exe.gangs = s.exe.gangs ∧ ∃ qs, Stands (lockIssue s o).mem o qs :=
  (stands_of_find h).setOps (issueOps_unique h hu) lockDo_keeps

theorem accArm_keeps (s : State) (c : Ctx) (ea : Nat) : (accArm s c ea).1.exe = s.exe ∧ (accArm s c ea).1.mem = s.mem := by
  unfold accArm
  dsimp only
  repeat' split
  all_goals exact ⟨rfl, rfl⟩

/-- ACCARM answers every part of its issue at once (R267). -/
theorem armDo_answers {s : State} {op : Nat} {o : MemOp} {p : MemPart} {r : List MemPart} (h : findOp s.mem op = some o) (ho : o.parts = p :: r)
    (hp : p.got = none) (hc : (findCtx s.ctl.ctxs o.part o.ctx).isSome = true) (ha : armReady s o = true) :
    (armDo s o).exe.gangs = s.exe.gangs ∧ ∃ qs, Stands (armDo s o).mem o qs ∧ ∀ q ∈ qs, q.got.isSome = true := by
  obtain ⟨c, hc⟩ := Option.isSome_iff_exists.1 hc
  have hc' : opCtx s o = some c := hc
  obtain ⟨hexe, hmem⟩ := accArm_keeps s c p.aux
  unfold armDo
  rw [ho, hc']
  dsimp only
  rw [if_neg (by simp [hp, ha])]
  have hs : Stands (accArm s c p.aux).1.mem o o.parts := (stands_of_find h).congr (congrArg Mem.ops hmem)
  generalize accArm s c p.aux = x at hs hexe
  refine ⟨congrArg Exe.gangs hexe, _, hs.issue (fun p => { p with got := some (natLe x.2 4), performed := true, acked := true }) rfl, fun q hq => ?_⟩
  obtain ⟨p', -, rfl⟩ := List.mem_map.1 hq
  rfl

theorem unlockDo_gangs (s : State) (o : MemOp) : (unlockDo s o).exe.gangs = s.exe.gangs :=
  List.foldlRecOn (motive := fun t : State => t.exe.gangs = s.exe.gangs) o.parts _ rfl fun _ ht _ _ => ht

theorem setInvPending_gangs (s : State) (c : Ctx) (va : Nat) : (setInvPending s c va).exe.gangs = s.exe.gangs := by
  unfold setInvPending
  split
  · exact (vaPutFor_side s .nobody c _ _ _).gangs
  · rfl

/-- SLD's end: its uniform register holds the word (R158). -/
theorem landUniform_ends {s : State} {o : MemOp} {g : Gang} (hg : s.exe.gangs[o.gang]? = some g) :
    ∃ g', Ends s (landUniform s o) o g g' ∧
      ∀ r, smGet g'.sregs r = if r = o.dst then BitVec.ofNat 32 (leNat (laneBytes o ((opLanes o).headD 0))) else smGet g.sregs r := by
  refine ⟨_, ends_retire (h := { g with sregs := smSet g.sregs o.dst (BitVec.ofNat 32 (leNat (laneBytes o ((opLanes o).headD 0)))) }) ?_ rfl rfl,
    fun r => smGet_smSet ..⟩
  rw [finishAcquire_exe]
  exact modAt_const hg _

/-! ## The events, kind by kind -/

section
variable {s : State} {op : Nat} {o : MemOp} (h : findOp s.mem op = some o)
include h

theorem loadComplete_other (hc : o.cls ≠ .l) (hk : o.kind ≠ .sload) : exec (.loadComplete op) s = .next s := by
  simp [exec_loadComplete, execLoadComplete, h, hc, hk]

theorem loadComplete_killed (hc : o.cls = .l) (hk : o.killed = true) : exec (.loadComplete op) s = .next (retireOp s o) := by
  simp [exec_loadComplete, execLoadComplete, h, hc, hk]

theorem loadComplete_sload (hk : o.killed = false) (hkind : o.kind = .sload) :
    exec (.loadComplete op) s = .next (if mayLand s o then landUniform s o else s) := by
  simp [exec_loadComplete, execLoadComplete, h, hk, hkind]

theorem storeAck_other (hc : o.cls ≠ .s) : exec (.storeAck op) s = .next s := by
  simp [exec_storeAck, execStoreAck, h, hc]

section
variable (hc : o.cls = .l) (hk : o.killed = false)
include hc hk

theorem loadComplete_load (hkind : o.kind = .load) : exec (.loadComplete op) s = .next (if mayLand s o then landLoad s o else s) := by
  simp [exec_loadComplete, execLoadComplete, h, hc, hk, hkind]

theorem loadComplete_deq {b : Nat} (hkind : o.kind = .deq b) :
    exec (.loadComplete op) s = .next (if mayLand s o then landLoad (deqWindow s o) o else s) := by
  simp [exec_loadComplete, execLoadComplete, h, hc, hk, hkind]

/-- ENQ and read-modify-writes draw the answers of peers first (R96, R223). -/
theorem loadComplete_drawn {a : Nat} {b : AtOp} {c : Bool} (hkind : o.kind = .enq a ∨ o.kind = .rmw b c true) :
    exec (.loadComplete op) s = .next (onOp (drawAnswers s o) op fun t q => if mayLand t q then landLoad t q else t) := by
  rcases hkind with hkind | hkind <;> simp [exec_loadComplete, execLoadComplete, h, hc, hk, hkind]

theorem loadComplete_ldl (hkind : o.kind = .ldl) :
    exec (.loadComplete op) s = .next (if localOk s o then landLoad s (ldlDo s o) else s) := by
  simp [exec_loadComplete, execLoadComplete, h, hc, hk, hkind]

theorem loadComplete_atl {b c : Bool} (hkind : o.kind = .atl b c) (hr : atlReady s o = true) : exec (.loadComplete op) s =
    .next (onOp (if o.parts.all MemPart.performed && !o.parts.isEmpty then s else atlIssue s o b) op landLoad) := by
  simp [exec_loadComplete, execLoadComplete, h, hc, hk, hkind, hr]

theorem loadComplete_lockb (hkind : o.kind = .lockb) : exec (.loadComplete op) s =
    .next (onOp (if allGot o && !o.parts.isEmpty then s else lockIssue s o) op landValue) := by
  simp [exec_loadComplete, execLoadComplete, h, hc, hk, hkind]

theorem loadComplete_accarm (hkind : o.kind = .accarm) :
    exec (.loadComplete op) s = .next (onOp (armDo s o) op fun t q => if allGot q then landValue t q else t) := by
  simp [exec_loadComplete, execLoadComplete, h, hc, hk, hkind]

/-- ACCQ and AXQ read their values and land them at once (R269, R358). -/
theorem loadComplete_query {r n : Nat} (hkind : o.kind = .accq ∨ o.kind = .axq r n) :
    ∃ ps, exec (.loadComplete op) s = .next (landValue s { o with parts := ps }) := by
  rcases hkind with hkind | hkind
  · exact ⟨_, by simp only [exec_loadComplete, execLoadComplete, h, hc, hk, hkind]; rfl⟩
  · exact ⟨_, by simp only [exec_loadComplete, execLoadComplete, h, hc, hk, hkind]; rfl⟩

end

section
variable (hc : o.cls = .s)
include hc

theorem storeAck_store (hkind : o.kind = .store) : exec (.storeAck op) s = .next (endStore
    ((List.range o.parts.length).foldl (fun t i => storeOutPart t op i) (ackSent s o fun p => paPeer s p.pa)) op) := by
  simp [exec_storeAck, execStoreAck, h, hc, hkind]

theorem storeAck_rmw {a : AtOp} {b c : Bool} (hkind : o.kind = .rmw a b c) :
    exec (.storeAck op) s = .next (endStore (ackSent s o fun p => paPeer s p.pa) op) := by
  simp [exec_storeAck, execStoreAck, h, hc, hkind]

theorem storeAck_contrib (hkind : o.kind = .contrib) :
    exec (.storeAck op) s = .next (endStore (contribSend (ackSent s o fun p => handleDev p.aux != ownDev s.sys) op) op) := by
  simp [exec_storeAck, execStoreAck, h, hc, hkind]

theorem storeAck_pstore (hkind : o.kind = .pstore) : exec (.storeAck op) s = .next (endStore (pstoreAck s o) op) := by
  simp [exec_storeAck, execStoreAck, h, hc, hkind]

theorem storeAck_stl (hkind : o.kind = .stl) (hl : localOk s o = true) (hs : lowerSlicesDone s o = true) :
    exec (.storeAck op) s = .next (retireOp (stlDo s o) o) := by
  simp [exec_storeAck, execStoreAck, h, hc, hkind, hl, hs]

theorem storeAck_atl {b c : Bool} (hkind : o.kind = .atl b c) (hr : atlReady s o = true) : exec (.storeAck op) s =
    .next (onOp (if o.parts.all MemPart.performed && !o.parts.isEmpty then s else atlIssue s o b) op retireOp) := by
  simp [exec_storeAck, execStoreAck, h, hc, hkind, hr]

theorem storeAck_unlockb (hkind : o.kind = .unlockb) : exec (.storeAck op) s = .next (retireOp (unlockDo s o) o) := by
  simp [exec_storeAck, execStoreAck, h, hc, hkind]

theorem storeAck_flush (hkind : o.kind = .flush) (hp : ∃ p ∈ o.parts, p.aux = 1) (hr : flushReady s o = true) :
    exec (.storeAck op) s = .next (retireOp (flushDo s o) o) := by
  simp [exec_storeAck, execStoreAck, h, hc, hkind, hp, hr]

theorem storeAck_axinv {r : Nat} (hkind : o.kind = .axinv r) (hp : o.parts ≠ []) :
    ∃ u, exec (.storeAck op) s = .next (retireOp u o) ∧ u.exe.gangs = s.exe.gangs := by
  simp only [exec_storeAck, execStoreAck, h, hc, hkind, List.isEmpty_iff, hp]
  cases opCtx s o with
  | none => exact ⟨s, rfl, rfl⟩
  | some c =>
    cases regionVa s o.kern r with
    | none => exact ⟨s, rfl, rfl⟩
    | some va => exact ⟨_, rfl, setInvPending_gangs s c va⟩

theorem storeAck_accdrop (hkind : o.kind = .accdrop)
    (hd : ∀ p ∈ o.parts, ∀ c, findCtx s.ctl.ctxs o.part o.ctx = some c → dropDone c p.aux = true) :
    exec (.storeAck op) s = .next (retireOp s o) := by
  simp only [exec_storeAck, execStoreAck, h, hc, hkind]
  show Host.Outcome.next (if _ then _ else _) = _
  rw [if_pos]
  refine List.all_eq_true.2 fun p hp => ?_
  cases hctx : opCtx s o with
  | none => rfl
  | some c => exact hd p hp c hctx

end

theorem fitAnswer_axb {r : Nat} (hkind : o.kind = .axb r) (hk : o.killed = false) : exec (.fitAnswer op) s = .next (landValue s o) := by
  simp [exec_fitAnswer, execFitAnswer, h, hkind, hk]

theorem fitAnswer_axe {r : Nat} (hkind : o.kind = .axe r) :
    exec (.fitAnswer op) s = .next (if samplesLeft s o then s else retireOp s o) := by
  simp [exec_fitAnswer, execFitAnswer, h, hkind]

end

/-! ## The ends of the kinds that need more than one fact -/

section
variable {s : State} {op : Nat} {o : MemOp} {g : Gang} (h : findOp s.mem op = some o) (hg : s.exe.gangs[o.gang]? = some g)
include h hg

/-- A returning operation of which everything has come back lands its results (R51, R197). -/
theorem returning_ends (hd : o.dst + o.nreg ≤ 256) (hc : o.cls = .l) (hk : o.killed = false) {a : Nat} {b : AtOp} {c : Bool}
    (hkind : o.kind = .load ∨ o.kind = .enq a ∨ o.kind = .deq a ∨ o.kind = .rmw b c true) (hm : mayLand s o = true) :
    ∃ t g', exec (.loadComplete op) s = .next t ∧ Ends s t o g g' ∧ Returned o g g' := by
  have land : ∀ u : State, u.exe.gangs = s.exe.gangs → exec (.loadComplete op) s = .next (landLoad u o) →
      ∃ t g', exec (.loadComplete op) s = .next t ∧ Ends s t o g g' ∧ Returned o g g' := fun u hu he => by
    obtain ⟨g', h1, h2⟩ := landLoad_ends hg hu hd
    exact ⟨_, g', he, h1, h2⟩
  have drawn (hkind : o.kind = .enq a ∨ o.kind = .rmw b c true) : exec (.loadComplete op) s = .next (landLoad s o) := by
    have hgot : ∀ p ∈ o.parts, p.got.isSome = true := by
      unfold mayLand allGot at hm
      simp only [Bool.and_eq_true, List.all_eq_true] at hm
      exact hm.1.1
    rw [loadComplete_drawn h hc hk hkind, drawAnswers_answered hgot]
    unfold onOp
    rw [h]
    exact congrArg _ (if_pos hm)
  rcases hkind with hkind | hkind | hkind | hkind
  · exact land s rfl (by rw [loadComplete_load h hc hk hkind, if_pos hm])
  · exact land s rfl (drawn (.inl hkind))
  · exact land (deqWindow s o) rfl (by rw [loadComplete_deq h hc hk hkind, if_pos hm])
  · exact land s rfl (drawn (.inr hkind))

/-- What was sent to a peer is answered by the event itself (R96, R223). -/
theorem drawn_ends (hd : o.dst + o.nreg ≤ 256) (hc : o.cls = .l) (hk : o.killed = false) {a : Nat} {b : AtOp} {c : Bool}
    (hkind : o.kind = .enq a ∨ o.kind = .rmw b c true)
    (hp : ∀ p ∈ o.parts, (p.got.isSome = true ∧ p.acked = true) ∨ (p.got = none ∧ paPeer s p.pa = true ∧ p.performed = true))
    (ha : answerable s.sys op none = true) (hh : hostReadsDone (ownDev s.sys) s.mem.ops o = true) :
    ∃ t g', exec (.loadComplete op) s = .next t ∧ Ends s t o g g' := by
  have hun := drawAnswers_done h ha hp
  obtain ⟨ps, hps, hdone⟩ := hun.done
  have hland : mayLand (drawAnswers s o) { o with parts := ps } = true := by
    have hhost : hostReadsDone (ownDev (drawAnswers s o).sys) (drawAnswers s o).mem.ops { o with parts := ps } = true := by
      unfold hostReadsDone at hh ⊢
      rw [hun.own]
      show (_ || (earlier (drawAnswers s o).mem.ops o).all _) = true
      rw [drawAnswers_earlier]
      exact hh
    unfold mayLand allGot allAcked
    simp only [Bool.and_eq_true, Bool.or_eq_true, List.all_eq_true]
    exact ⟨⟨fun p hp => (hdone p hp).1, .inr fun p hp => (hdone p hp).2⟩, hhost⟩
  obtain ⟨g', hend⟩ := landLoad_stands (ps := ps) hg hun.gangs hd
  obtain rfl := findOp_id h
  refine ⟨_, g', ?_, hend⟩
  rw [loadComplete_drawn h hc hk hkind, onOp_stands hps, if_pos hland]

/-- A write of which every part is performed, and acknowledged or sent to a peer whose link carries traffic, ends (R51, R333). -/
theorem writes_end (hc : o.cls = .s) {a : AtOp} {b c : Bool} (hkind : o.kind = .store ∨ o.kind = .rmw a b c)
    (hp : ∀ p ∈ o.parts, p.performed = true ∧ (p.acked = true ∨ paPeer s p.pa = true)) (ha : answerable s.sys op none = true) :
    ∃ t g', exec (.storeAck op) s = .next t ∧ Ends s t o g g' ∧ g'.regs = g.regs := by
  have hun := ackSent_done h ha hp
  obtain ⟨ps, hps, hdone⟩ := hun.done
  obtain ⟨g', hend⟩ := endStore_ends hps (fun p hp => (hdone p hp).2) hg hun.gangs
  obtain rfl := findOp_id h
  refine ⟨_, g', ?_, hend⟩
  rcases hkind with hkind | hkind
  · rw [storeAck_store h hc hkind, storeOut_performed hps fun p hp => (hdone p hp).1]
  · rw [storeAck_rmw h hc hkind]

/-- A write of which every part is performed and acknowledged ends (R51). -/
theorem settled_ends (hc : o.cls = .s) {a : AtOp} {b c : Bool} (hkind : o.kind = .store ∨ o.kind = .contrib ∨ o.kind = .rmw a b c)
    (hp : ∀ p ∈ o.parts, p.performed = true ∧ p.acked = true) :
    ∃ t g', exec (.storeAck op) s = .next t ∧ Ends s t o g g' ∧ g'.regs = g.regs := by
  have hs := stands_of_find h
  obtain ⟨g', hend⟩ := endStore_ends hs (fun p hq => (hp p hq).2) hg rfl
  have hack : ∀ peer : MemPart → Bool, ackSent s o peer = s := fun peer => ackSent_acked peer fun p hq => (hp p hq).2
  obtain rfl := findOp_id h
  refine ⟨_, g', ?_, hend⟩
  rcases hkind with hkind | hkind | hkind
  · rw [storeAck_store h hc hkind, hack, storeOut_performed hs fun p hq => (hp p hq).1]
  · rw [storeAck_contrib h hc hkind, hack, contribSend_performed hs fun p hq => (hp p hq).1]
  · rw [storeAck_rmw h hc hkind, hack]

/-- A PSTORE ends when its packets are acknowledged (R340). -/
theorem pstore_ends (hc : o.cls = .s) (hkind : o.kind = .pstore) (hp : ∀ p ∈ o.parts, p.performed = true)
    (ha : answerable s.sys o.issue none = true) :
    ∃ t g', exec (.storeAck op) s = .next t ∧ Ends s t o g g' ∧ g'.regs = g.regs := by
  have hs : ∃ ps, Stands (pstoreAck s o).mem o ps ∧ ∀ p ∈ ps, p.acked = true := by
    refine ⟨_, (stands_of_find h).issue (fun p => { p with acked := true }) ?_, fun p hq => ?_⟩
    · unfold pstoreAck
      rw [if_neg (by simp [ha]), if_pos (List.all_eq_true.2 hp)]
      rfl
    · obtain ⟨p', -, rfl⟩ := List.mem_map.1 hq
      rfl
  have hgangs : (pstoreAck s o).exe.gangs = s.exe.gangs := by
    unfold pstoreAck
    rw [if_neg (by simp [ha]), if_pos (List.all_eq_true.2 hp)]
    rfl
  obtain ⟨ps, hps, hack⟩ := hs
  obtain ⟨g', hend⟩ := endStore_ends hps hack hg hgangs
  obtain rfl := findOp_id h
  exact ⟨_, g', storeAck_pstore h hc hkind, hend⟩

end

/-- Settles O45, kind by kind: an operation ends in `landLoad`, `landValue`, `landUniform` or `retireOp`, from a state in which
it still stands and no gang has changed. -/
theorem operationsEnd : Obligations.OperationsEnd := by
  unfold Obligations.OperationsEnd
  intro s op o g h hg hd _ hu
  have hid := findOp_id h
  refine ⟨fun hc hk => ?_, fun hc hk => ⟨?_, ?_, ?_, ?_, ?_, ?_, ?_⟩, fun hkind hk hm => ?_, loadComplete_other h, storeAck_other h,
    fun hc => ⟨?_, ?_, ?_, ?_, ?_, ?_, ?_, ?_, ?_⟩, fun r hkind hk => ?_, fun r hkind hs => ?_, fun r hkind hs => ?_⟩
  · exact ⟨_, loadComplete_killed h hc hk, hc ▸ retire_ends hg rfl⟩
  · exact fun a b c hkind hm => returning_ends h hg hd hc hk hkind hm
  · exact fun a b c hkind hp ha hh => drawn_ends h hg hd hc hk hkind hp ha hh
  · intro b hkind hm
    rcases hkind with hkind | hkind
    · rw [loadComplete_load h hc hk hkind, if_neg (by simp [hm])]
    · rw [loadComplete_deq h hc hk hkind, if_neg (by simp [hm])]
  · intro hkind hl
    obtain ⟨g', hend⟩ := landLoad_stands (ps := (ldlDo s o).parts) hg rfl hd
    exact ⟨_, g', by rw [loadComplete_ldl h hc hk hkind, if_pos hl]; rfl, hend⟩
  · intro b c hkind hr
    obtain ⟨hgs, qs, hqs⟩ := atlDone_stands h hu b (o.parts.all MemPart.performed && !o.parts.isEmpty) rfl
    obtain ⟨g', hend⟩ := landLoad_stands (ps := qs) hg hgs hd
    exact ⟨_, g', by rw [loadComplete_atl h hc hk hkind hr, ← hid, onOp_stands hqs], hend⟩
  · rintro hkind ⟨p, r, ho, hp⟩ hctx hr
    obtain ⟨hgs, qs, hqs, hgot⟩ := armDo_answers h ho hp hctx hr
    obtain ⟨g', hend⟩ := landValue_stands (ps := qs) hg hgs hd
    exact ⟨_, g', by
      rw [loadComplete_accarm h hc hk hkind, ← hid, onOp_stands hqs, if_pos (show allGot { o with parts := qs } = true from List.all_eq_true.2 hgot)], hend⟩
  · intro r n hkind
    have query (hkind : o.kind = .accq ∨ o.kind = .axq r n) : ∃ t g', exec (.loadComplete op) s = .next t ∧ Ends s t o g g' := by
      obtain ⟨ps, he⟩ := loadComplete_query h hc hk hkind
      obtain ⟨g', hend⟩ := landValue_stands (ps := ps) hg rfl hd
      exact ⟨_, g', he, hend⟩
    rcases hkind with hkind | hkind | hkind
    · exact query (.inl hkind)
    · exact query (.inr hkind)
    · have hlock : ∀ c : Bool, ∃ qs, (if c then s else lockIssue s o).exe.gangs = s.exe.gangs ∧ Stands (if c then s else lockIssue s o).mem o qs := by
        intro c
        cases c with
        | true => exact ⟨_, rfl, stands_of_find h⟩
        | false =>
          obtain ⟨hgs, qs, hqs⟩ := lockIssue_stands h hu
          exact ⟨qs, hgs, hqs⟩
      obtain ⟨qs, hgs, hqs⟩ := hlock (allGot o && !o.parts.isEmpty)
      obtain ⟨g', hend⟩ := landValue_stands (ps := qs) hg hgs hd
      exact ⟨_, g', by rw [loadComplete_lockb h hc hk hkind, ← hid, onOp_stands hqs], hend⟩
  · obtain ⟨g', hend, hv⟩ := landUniform_ends (o := o) hg
    exact ⟨_, g', by rw [loadComplete_sload h hk hkind, if_pos hm], hend, hv⟩
  · exact fun a b c hkind hp => settled_ends h hg hc hkind hp
  · exact fun a b c hkind hp ha => writes_end h hg hc hkind hp ha
  · exact fun hkind hp ha => pstore_ends h hg hc hkind hp ha
  · intro hkind hl hs
    obtain ⟨g', hend⟩ := retire_stands (u := stlDo s o) (ps := o.parts) hg rfl
    exact ⟨_, g', storeAck_stl h hc hkind hl hs, hend⟩
  · intro b c hkind hr
    obtain ⟨hgs, qs, hqs⟩ := atlDone_stands h hu b (o.parts.all MemPart.performed && !o.parts.isEmpty) rfl
    obtain ⟨g', hend⟩ := retire_stands (ps := qs) hg hgs
    exact ⟨_, g', by rw [storeAck_atl h hc hkind hr, ← hid, onOp_stands hqs], hend⟩
  · intro hkind
    obtain ⟨g', hend⟩ := retire_stands (ps := o.parts) hg (unlockDo_gangs s o)
    exact ⟨_, g', storeAck_unlockb h hc hkind, hend⟩
  · intro hkind hp hr
    obtain ⟨m, hm⟩ := flushDo_mem s o
    obtain ⟨g', hend⟩ := retire_stands (u := flushDo s o) (ps := o.parts) hg (by rw [hm])
    exact ⟨_, g', storeAck_flush h hc hkind hp hr, hend⟩
  · intro r hkind hp
    obtain ⟨u, he, hgs⟩ := storeAck_axinv h hc hkind hp
    obtain ⟨g', hend⟩ := retire_stands (ps := o.parts) hg hgs
    exact ⟨_, g', he, hend⟩
  · intro hkind hdrop
    obtain ⟨g', hend⟩ := retire_stands (ps := o.parts) hg rfl
    exact ⟨_, g', storeAck_accdrop h hc hkind hdrop, hend⟩
  · obtain ⟨g', hend, hr⟩ := landValue_ends (o := o) hg rfl hd
    exact ⟨_, g', fitAnswer_axb h hkind hk, hend, hr⟩
  · obtain ⟨g', hend⟩ := retire_stands (ps := o.parts) hg rfl
    exact ⟨_, g', by rw [fitAnswer_axe h hkind, if_neg (by simp [hs])], hend⟩
  · rw [fitAnswer_axe h hkind, if_pos hs]

/-! ## What RMW_AT_HOME and QUEUE_OP_AT_HOME perform (R94, R95, R221) -/

theorem natLe_leNat (bs : List Byte) : natLe (leNat bs) bs.length = bs := by
  induction bs with
  | nil => rfl
  | cons b bs ih =>
    have hb := b.isLt
    have h1 : BitVec.ofNat 8 (b.toNat + 256 * leNat bs) = b := BitVec.eq_of_toNat_eq (by simp; omega)
    have h2 : (b.toNat + 256 * leNat bs) / 256 = leNat bs := by omega
    show BitVec.ofNat 8 (b.toNat + 256 * leNat bs) :: natLe ((b.toNat + 256 * leNat bs) / 256) bs.length = _
    rw [h1, h2, ih]

/-- The bytes that stand at an address are those of the number there. -/
theorem bytes_numAt (s : State) (pa n : Nat) (hn : n ≤ 8) :
    ((List.range 8).map fun j => spaceByte s (pa + j)).take n = natLe (numAt s pa n) n := by
  have : ((List.range n).map fun j => spaceByte s (pa + j)).length = n := by simp
  rw [← List.map_take, List.take_range, Nat.min_eq_left hn]
  conv_lhs => rw [← natLe_leNat ((List.range n).map fun j => spaceByte s (pa + j)), this]
  rfl

/-- A part alone at its address, performed as a read-modify-write: it has the old value (R221). -/
theorem rmwGroup_now {s : State} {op i : Nat} {o : MemOp} {p : MemPart} {a : AtOp} {sg ret : Bool} (h : findOp s.mem op = some o)
    (hp : o.parts[i]? = some p) (hk : o.kind = .rmw a sg ret) (hn : p.len ≤ 8) :
    PartNow (rmwGroup s o i p [(o, i)]).mem o.id i fun q => q.performed = true ∧ q.got = some (natLe (numAt s p.pa p.len) p.len) := by
  have hold := bytes_numAt s p.pa p.len hn
  obtain rfl := findOp_id h
  have holds : ([(o, i)].foldl rmwOne { cur := (List.range 8).map fun j => spaceByte s (p.pa + j) }).olds =
      [(o.id, i, natLe (numAt s p.pa p.len) p.len)] := by
    rw [← hold]
    simp only [List.foldl_cons, List.foldl_nil, rmwOne, hk, hp]
    split <;> rfl
  have hgot := gotPart_now (natLe (numAt s p.pa p.len) p.len) false h hp
  unfold rmwGroup
  dsimp only
  rw [holds]
  generalize hm : (if o.order = 4 then _ else _ : Mem) = m
  have hops : m.ops = (gotPart s.mem o.id i (natLe (numAt s p.pa p.len) p.len) false).ops := by
    rw [← hm]
    split
    · exact (l1DropCells_core _ _ _ _).ops
    · exact (l1DropCells_core _ _ _ _).ops
  have hraise := (raiseClock_ops m o.core (homeKey (ownDev s.sys) p.pa)).trans hops
  split
  · exact hgot.congr hraise
  · exact hgot.congr ((engineWrite_side _ _ _ _ _).mem.ops.trans hraise)

/-- An acknowledged part has the data that it had. -/
theorem ackWrite_got {s : State} {o : MemOp} {i pa : Nat} {v : Option (List Byte)} (h : PartNow s.mem o.id i fun q => q.performed = true ∧ q.got = v) :
    PartNow (ackWrite s o i pa).mem o.id i fun q => q.performed = true ∧ q.got = v := by
  refine PartNow.congr (m := ackParts (markPart s.mem o.id i true) o.issue pa) (raiseClock_ops _ _ _) ((ackParts_now (markPart_now true h)).mono ?_)
  rintro q ⟨-, ⟨p, ⟨-, hgot⟩, rfl⟩, rfl | rfl⟩ <;> exact ⟨rfl, hgot⟩

theorem rmwAtHome_completes {s : State} {op i : Nat} {o : MemOp} {p : MemPart} {a : AtOp} {sg ret : Bool} (h : findOp s.mem op = some o)
    (hp : o.parts[i]? = some p) (hperf : p.performed = false) (hsame : rmwSame s.mem o.issue p.pa = [(o, i)]) (hr : rmwReady s o p = true)
    (hk : o.kind = .rmw a sg ret) (hl : paLocal (ownDev s.sys) p.pa = true) (hh : paHost (ownDev s.sys) p.pa = false) (hn : p.len ≤ 8) :
    ∃ t, exec (.rmwAtHome op i) s = .next t ∧
      PartNow t.mem op i fun q => q.performed = true ∧ q.got = some (natLe (numAt s p.pa p.len) p.len) := by
  obtain ⟨hgone, hpeer⟩ := paLocal_not_peer (s := s) hl
  have hnow := rmwGroup_now (s := { s with exe := { s.exe with fresh := s.exe.fresh + 0 } }) h hp hk hn
  obtain rfl := findOp_id h
  rw [exec_rmwAtHome]
  unfold execRmwAtHome
  simp only [h, hk, hp, hperf, hr, hgone, hpeer, hh, hsame, List.all_cons, List.all_nil, Bool.and_self, Bool.false_and, Bool.not_true,
    Bool.or_self, Bool.false_eq_true, if_false, if_true]
  refine ⟨_, rfl, ?_⟩
  split
  · exact hnow
  · exact ackWrite_got hnow

theorem queueOpAtHome_completes {s : State} {op i : Nat} {o : MemOp} {p : MemPart} {b : Nat} (h : findOp s.mem op = some o)
    (hp : o.parts[i]? = some p) (hperf : p.performed = false) (hsame : rmwSame s.mem o.issue p.pa = [(o, i)]) (hr : rmwReady s o p = true)
    (hk : o.kind = .enq b ∨ o.kind = .deq b) (hl : paLocal (ownDev s.sys) p.pa = true) (hq : queueAt s.ctl.queues p.pa = none) :
    ∃ t, exec (.queueOpAtHome op i) s = .next t ∧
      PartNow t.mem op i fun q => q.performed = true ∧ q.got = some (natLe 2 4 ++ natLe 0 4) := by
  obtain ⟨hgone, hpeer⟩ := paLocal_not_peer (s := s) hl
  obtain ⟨enq, hkind⟩ : ∃ enq, qKind o = some enq := by
    rcases hk with hk | hk
    · exact ⟨true, by unfold qKind; rw [hk]⟩
    · exact ⟨false, by unfold qKind; rw [hk]⟩
  obtain rfl := findOp_id h
  rw [exec_queueOpAtHome]
  unfold execQueueOpAtHome
  simp only [h, hkind, hp, hperf, hgone, hpeer, hsame, hr, List.all_cons, List.all_nil, Bool.and_self, Bool.false_and, Bool.not_true,
    Bool.or_self, Bool.false_eq_true, if_false]
  refine ⟨_, rfl, ?_⟩
  have hperform : qPerform s (.part o.id i) p.pa enq (some p.aux2) p.wdata false = (s, qClosed) := by unfold qPerform; rw [hq]
  rw [List.foldl_cons, List.foldl_nil]
  unfold qLane
  simp only [hp, hpeer, hperform, Bool.false_eq_true, if_false]
  have hans := (qAnswer_spec (m' := s.mem) qClosed (!writerWaits s.mem (.part o.id i)) h hp rfl).mono
    (Q := fun q => q.performed = true ∧ q.got = some (natLe 2 4 ++ natLe 0 4)) fun q hq => ⟨hq.1, hq.2.2.1⟩
  refine hans.congr ((raiseClock_ops _ _ _).trans ?_)
  split <;> rfl

/-- Settles O60: the lane alone at its address is performed with the number that stands there, or with the answer CLOSED; and an
operation of which everything has come back meets the conditions under which O45 says that it ends. -/
theorem operationEventsComplete : Obligations.OperationEventsComplete := by
  unfold Obligations.OperationEventsComplete
  refine ⟨fun s op i o p h hp hperf hsame hr => ⟨fun a sg ret hk hl hh hn => ?_, fun b hk hl hq => ?_⟩, fun s op o g h hg hu hall hk => ?_⟩
  · exact rmwAtHome_completes h hp hperf hsame hr hk hl hh (by omega)
  · exact queueOpAtHome_completes h hp hperf hsame hr hk hl hq
  · have gone : ∀ (u : State) (q : MemOp), q.id = o.id → ∀ r ∈ (retireOp u q).mem.ops, r.id ≠ op := fun u q hq r hr => by
      rw [← findOp_id h, ← hq]
      simpa using (List.mem_filter.1 hr).2
    refine ⟨fun hc hkind hh => ?_, fun hc hkind => ?_, fun r hkind => ?_, fun r hkind hs => ?_⟩
    · have hm : mayLand s o = true := by
        unfold mayLand allGot
        simp only [Bool.and_eq_true, List.all_eq_true]
        exact ⟨⟨fun p hp => (hall p hp).1, by simp [isLoad, hkind]⟩, hh⟩
      exact ⟨landLoad s o, by rw [loadComplete_load h hc hk hkind, if_pos hm], gone _ o rfl⟩
    · obtain ⟨t, g', he, hend, -⟩ := settled_ends h hg hc (a := .add) (b := false) (c := false) (.inl hkind) fun p hp => (hall p hp).2
      exact ⟨t, he, fun q hq => by rw [← findOp_id h]; exact hend.1 q hq⟩
    · exact ⟨_, fitAnswer_axb h hkind hk, gone _ o rfl⟩
    · exact ⟨retireOp s o, by rw [fitAnswer_axe h hkind, if_neg (by simp [hs])], gone _ o rfl⟩

end Sys2Proof.Machine
end

section
/-! PROOFS. Proofs/Traps.lean: HALT and BRK, faults of a slice, and the traps that follow an instruction (R54, R73, R78 to R80, R88). -/

namespace Sys2Proof.Machine

/-! ## Faults of a slice (R73, R76) -/

theorem raise_faulted {s : State} {e : Iss} (h : issOf s = some e) (k : Nat) (code : FaultCode) (info : Dbl) :
    Faulted s (raise e k code info) e k code info := by
  obtain rfl := (issOf_some h).1
  refine ⟨((setGang_only e.s e.gi _).trans (addFault_only _ _ _)).trans (idle_only _ _), rfl, ?_, _, rfl, rfl, rfl, rfl, rfl, rfl, rfl, rfl, rfl, rfl, rfl⟩
  show (modAt e.s.exe.gangs e.gi _)[e.gi]? = _
  rw [modAt_get, if_pos rfl, List.getElem?_eq_getElem (issOf_gi_lt h)]
  rfl

/-- The lowest slice with an active lane. -/
theorem find_active {e : Iss} {k : Nat} (h : lowestSuch e k fun k => e.act k ≠ 0) : (e.sls.find? fun k => e.act k != 0) = some k :=
  find_first (lowestSuch_congr h fun _ _ => by simp)

theorem halt_faults {s : State} {e : Iss} {k : Nat} (c : Byte) (h : issOf s = some e) (hk : lowestSuch e k fun k => e.act k ≠ 0) :
    exec (.halt c) s = .next (raise e k .haltRequest (c.zeroExtend 64)) := by
  rw [exec_halt]
  exact issue_fault h (by rw [find_active hk])

theorem halt_advances {s : State} {e : Iss} (c : Byte) (h : issOf s = some e) (hq : Quiet e) (hr : someRuns e) (hn : ∀ k ∈ e.sls, e.act k = 0) :
    ∃ t, exec (.halt c) s = .next t ∧ SliceResult s t e fun _ x => { x with pc := x.pc + 4 } := by
  rw [exec_halt]
  refine adv_result h ?_ hq hr
  rw [List.find?_eq_none.2 fun k hk => by simp [hn k hk]]

theorem iadd_faults {s : State} {e : Iss} {k : Nat} (d a b : Byte) (h : issOf s = some e)
    (hok : ∀ j ∈ e.sls, setInt (e.ty j) = true → (dstOk e.n (e.ty j) d && srcOk e.n (e.ty j) a && srcOk e.n (e.ty j) b) = true)
    (hk : lowestSuch e k fun k => setInt (e.ty k) = false) : exec (.iadd d a b) s = .next (raise e k .illegalOp 0) := by
  rw [exec_iadd]
  refine legal_fault h rfl (lowestSuch_congr hk fun j hj => ?_)
  cases ht : setInt (e.ty j) with
  | false => simp
  | true => simpa [Bool.and_assoc] using hok j hj ht

/-! ## The end of an issue after which a slice runs on -/

/-- Where a slice runs on after the traps, nothing is settled at REGANG: the gang has its slices as they retired. -/
theorem finish_unsettled {e : Iss} {r : Eff} (hn : noOverflow e r) {k : Nat} {y : Slice} (hk : k < 8)
    (hy : (takePending e r e.sls).slices[k]? = some y) (hf : y.finished = false) (hr : y.regang = none) :
    ∃ ps g, g.slices = (retireGang e (takePending e r e.sls)).slices ∧
      finish e r = afterSettle e g.grp (setGang { r.st with ctl := { r.st.ctl with parts := ps } } e.gi g) := by
  rw [finish_eq e r hn]
  dsimp only
  generalize takePending e r e.sls = g0 at hy
  generalize hg1 : ({ retireGang e g0 with cohorts := divideCohort (retireGang e g0) e.mask } : Gang) = g1
  have hsl : (spill r.st.ctl.parts e.kern.part g1).2.slices = (retireGang e g0).slices := by
    rw [spill_slices]
    subst hg1
    rfl
  generalize spill r.st.ctl.parts e.kern.part g1 = pg at hsl
  refine ⟨pg.1, pg.2, hsl, ?_⟩
  have hyk : pg.2.sl k = if e.mask.getLsbD k then { y with retired := y.retired + 1 } else y := by
    refine sl_of ?_
    rw [hsl, retireGang_slice, hy]
    rfl
  have hreg : allRegang pg.2 = false := by
    refine allRegang_false hk ?_ ?_
    · rw [hyk]; split <;> exact hf
    · rw [hyk]; split <;> exact hr
  unfold settleRegang
  rw [hreg]
  rfl

theorem finish_unsettled_gang {e : Iss} {r : Eff} (hn : noOverflow e r) (hg : e.gi < r.st.exe.gangs.length) {k : Nat} {y : Slice} (hk : k < 8)
    (hy : (takePending e r e.sls).slices[k]? = some y) (hf : y.finished = false) (hr : y.regang = none) :
    ∃ g, (finish e r).exe.gangs[e.gi]? = some g ∧ g.slices = (retireGang e (takePending e r e.sls)).slices := by
  obtain ⟨ps, g, hsl, he⟩ := finish_unsettled hn hk hy hf hr
  refine ⟨g, ?_, hsl⟩
  rw [he, afterSettle_gangs, setGang_gangs, modAt_get, if_pos rfl]
  show Option.map (fun _ => g) (r.st.exe.gangs[e.gi]?) = some g
  rw [List.getElem?_eq_getElem hg]
  rfl

/-! ## The traps that follow an instruction (R78) -/

/-- The gang after the trap that is pending in slice `k`, if there is one. -/
def takeOne (e : Iss) (r : Eff) (g : Gang) (k : Nat) : Gang :=
  match pendingTrap e r k with
  | some (cause, conds, lanes) => g.modSl k fun x => takeTrap x g.trapBase cause 0 conds lanes x.pc e.pc
  | none => g

theorem takePending_eq (e : Iss) (r : Eff) (ks : List Nat) : takePending e r ks = ks.foldl (takeOne e r) r.g := rfl

theorem takeOne_base (e : Iss) (r : Eff) (g : Gang) (k : Nat) : (takeOne e r g k).trapBase = g.trapBase := by
  unfold takeOne
  split <;> rfl

theorem takeOne_other (e : Iss) (r : Eff) (g : Gang) {j k : Nat} (h : j ≠ k) : (takeOne e r g j).slices[k]? = g.slices[k]? := by
  unfold takeOne
  split
  · exact modAt_other _ _ _ _ h.symm
  · rfl

theorem takeOne_same {e : Iss} {r : Eff} {g : Gang} {k : Nat} {x : Slice} {c n : Nat} {lanes : BitVec 4} (hp : pendingTrap e r k = some (c, n, lanes))
    (hx : g.slices[k]? = some x) : (takeOne e r g k).slices[k]? = some (takeTrap x g.trapBase c 0 n lanes x.pc e.pc) := by
  unfold takeOne
  rw [hp]
  show (modAt g.slices k _)[k]? = _
  rw [modAt_get, if_pos rfl, hx]
  rfl

theorem takeOthers {e : Iss} {r : Eff} {k : Nat} {L : List Nat} (h : k ∉ L) (g : Gang) :
    (L.foldl (takeOne e r) g).slices[k]? = g.slices[k]? ∧ (L.foldl (takeOne e r) g).trapBase = g.trapBase :=
  List.foldlRecOn (motive := fun t : Gang => t.slices[k]? = g.slices[k]? ∧ t.trapBase = g.trapBase) L _ ⟨rfl, rfl⟩ fun t ⟨h1, h2⟩ j hj =>
    ⟨(takeOne_other e r t fun hjk : j = k => h (hjk ▸ hj)).trans h1, (takeOne_base e r t j).trans h2⟩

/-- A pending trap is taken by its own slice, and no other slice's trap touches it. -/
theorem takePending_slice {e : Iss} {r : Eff} {k : Nat} {x : Slice} {c n : Nat} {lanes : BitVec 4} (hk : k ∈ e.sls)
    (hx : r.g.slices[k]? = some x) (hp : pendingTrap e r k = some (c, n, lanes)) :
    (takePending e r e.sls).slices[k]? = some (takeTrap x r.g.trapBase c 0 n lanes x.pc e.pc) := by
  obtain ⟨A, B, hAB⟩ := List.append_of_mem hk
  have hnd : (A ++ k :: B).Nodup := hAB ▸ (sls_sorted e).imp Nat.ne_of_lt
  have hA : k ∉ A := fun h => (List.nodup_append.1 hnd).2.2 k h k List.mem_cons_self rfl
  have hB : k ∉ B := (List.nodup_cons.1 (List.nodup_append.1 hnd).2.1).1
  obtain ⟨ha, hb⟩ := takeOthers (e := e) (r := r) hA r.g
  rw [takePending_eq, hAB, List.foldl_append, List.foldl_cons, (takeOthers hB _).1, takeOne_same hp (ha.trans hx), hb]

/-- An instruction that steps the program counter of slice `k` and leaves its stack, lanes, mode word and IM: the trap due
there. -/
theorem pendingTrap_due {s : State} {e : Iss} {r : Eff} {k : Nat} {x : Slice} (h : issOf s = some e) (hk : k ∈ e.sls)
    (hx : e.g.slices[k]? = some x) (hm : mayTrap e k) (hall : r.all = false) {y : Slice} (hy : r.g.slices[k]? = some y)
    (hrun : y.run = x.run) (hst : y.stack = x.stack) (hreg : y.regang = x.regang) :
    pendingTrap e r k = if (r.cs k).zeroExtend 32 &&& e.g.fpxEn ≠ 0 then some (0x22, ((r.cs k).zeroExtend 32 &&& e.g.fpxEn).toNat, e.act k)
      else if (dbgCtl e.s e.g e.kern.part).getLsbD 1 = true then some (0x23, 0, e.act k) else none := by
  obtain ⟨htrap, hact, hlive⟩ := hm
  have hxk : e.g.sl k = x := sl_of hx
  have hyk : r.g.sl k = y := sl_of hy
  have hreg' : y.regang = none := hreg.trans (hxk ▸ iss_regang h hk)
  have hno : ∀ z : Slice, z.stack = x.stack → hasTrap z = false := fun z hz => by
    unfold hasTrap
    rw [hz, ← hxk]
    simpa using htrap
  have hlanes : e.act k &&& y.run = e.act k := by rw [hrun, ← hxk]; exact hlive
  have hfin : y.finished = false := fin_run fun h0 => hact (by rw [← hlanes, h0]; simp)
  unfold pendingTrap
  dsimp only
  rw [hyk, hall, hxk, hno x rfl, hno y hst, hfin, hreg']
  simp only [Bool.false_eq_true, if_false, hlanes]
  rw [if_neg (by simpa using hact)]
  simp only [bne_iff_ne]
  rfl

/-- The slice in which a trap is due takes it, and retires. -/
theorem trap_taken {s : State} {e : Iss} {r : Eff} {k : Nat} {x y : Slice} {c n : Nat} (h : issOf s = some e) (hroom : RoomForTraps e)
    (hstack : ∀ j, (r.g.sl j).stack = (e.g.sl j).stack) (hst : r.st.exe.gangs = s.exe.gangs) (hk : k ∈ e.sls) (hx : e.g.slices[k]? = some x)
    (hm : mayTrap e k) (hy : r.g.slices[k]? = some y) (hreg : y.regang = x.regang) (hp : pendingTrap e r k = some (c, n, e.act k)) :
    ∃ g, (finish e r).exe.gangs[e.gi]? = some g ∧ g.slices[k]? =
      some { takeTrap y r.g.trapBase c 0 n (e.act k) y.pc e.pc with retired := y.retired + 1 } := by
  have htake := takePending_slice hk hy hp
  obtain ⟨g, hg, hsl⟩ := finish_unsettled_gang (noOverflow_of_room hroom hstack) (by rw [hst]; exact issOf_gi_lt h) (sls_lt hk) htake
    (fin_run hm.2.1) (hreg.trans (sl_of hx ▸ iss_regang h hk))
  refine ⟨g, hg, ?_⟩
  rw [hsl, retireGang_slice, htake]
  exact congrArg some (if_pos (getLsbD_of_mem_sls hk))

theorem takeTrap_trapped (g : Gang) (y : Slice) (c n : Nat) (lanes : BitVec 4) (ret at_ : VAddr) :
    takeTrap y g.trapBase c 0 n lanes ret at_ = trapped g (c + 2 ^ 16 * n) lanes ret at_ y := rfl

theorem countRetired_mem {e : Iss} {k : Nat} (hk : k ∈ e.sls) (f : Slice → Slice) (x : Slice) :
    countRetired e k f x = { f x with retired := (f x).retired + 1 } := if_pos (getLsbD_of_mem_sls hk)

theorem adv_slice {e : Iss} {k : Nat} {x : Slice} (hk : k ∈ e.sls) (hx : e.g.slices[k]? = some x) :
    e.adv.slices[k]? = some { x with pc := x.pc + 4 } := by
  show (e.g.slices.mapIdx fun k (x : Slice) => if e.mask.getLsbD k then { x with pc := x.pc + 4 } else x)[k]? = _
  rw [List.getElem?_mapIdx, hx]
  exact congrArg some (if_pos (getLsbD_of_mem_sls hk))

/-! ## SINGLE_STEP after NOP, FP_EXCEPTION after FADD, and the debug stop of BRK (R78 to R80, R88, R162) -/

/-- An issue that goes through leaves its gang retired, whatever traps are taken. -/
theorem finish_retired {s : State} {e : Iss} {r : Eff} (h : issOf s = some e) (hn : noOverflow e r) (hst : r.st.exe.gangs = s.exe.gangs)
    (hl : r.g.slices.length = e.g.slices.length) (hr : ∀ k, (r.g.sl k).retired = (e.g.sl k).retired) (hi : r.g.issues = e.g.issues) :
    ∃ g, Retired (finish e r) e g ∧ OnlyGang r.st (finish e r) e.gi ∧ SameFile r.g g := by
  obtain ⟨g, hg, haft, honly, hcur⟩ := finish_spec e r hn (by rw [hst]; exact issOf_gi_lt h)
  refine ⟨g, ⟨hg, by rw [haft.issues, hi], fun k hk hks => ?_, hcur⟩, honly, haft.file⟩
  rw [haft.retired k (by rw [isSome_slices hl]; exact hks), if_pos (getLsbD_of_mem_sls hk), hr]

theorem nop_steps {s : State} {e : Iss} {k : Nat} {x : Slice} (h : issOf s = some e) (hroom : RoomForTraps e) (hk : k ∈ e.sls)
    (hx : e.g.slices[k]? = some x) (hm : mayTrap e k) (hfpx : e.g.fpxEn = 0) (hstep : (dbgCtl s e.g e.kern.part).getLsbD 1 = true) :
    ∃ t g, exec .nop s = .next t ∧ Retired t e g ∧ OnlyGang s t e.gi ∧ SameFile e.g g ∧ g.slices[k]? = some
      (countRetired e k (fun x => trapped e.g 0x23 (e.act k) (x.pc + 4) e.pc x) x) := by
  obtain rfl := (issOf_some h).1
  have hexec : exec .nop e.s = .next (finish e { st := e.s, g := e.adv }) := by
    rw [exec_nop]
    exact issue_go h rfl
  generalize hr : ({ st := e.s, g := e.adv } : Eff) = r at hexec
  have hrg : r.g = e.adv := by rw [← hr]
  have hrst : r.st = e.s := by rw [← hr]
  have hy : r.g.slices[k]? = some { x with pc := x.pc + 4 } := by rw [hrg]; exact adv_slice hk hx
  have hstack : ∀ j, (r.g.sl j).stack = (e.g.sl j).stack := fun j => by rw [hrg]; exact (adv_sl_tally e j).2.2
  have hp : pendingTrap e r k = some (0x23, 0, e.act k) := by
    refine (pendingTrap_due h hk hx hm (by rw [← hr]) hy ?_ ?_ ?_).trans ?_
    · rfl
    · rfl
    · rfl
    · rw [hfpx, if_neg (by simp), if_pos hstep]
  obtain ⟨g, hret, honly, hfile⟩ := finish_retired h (noOverflow_of_room hroom hstack) (by rw [hrst]) (by rw [hrg]; exact adv_slices_length e)
    (fun j => by rw [hrg]; exact (adv_sl_tally e j).2.1) (by rw [hrg]; rfl)
  obtain ⟨g', hg', hsl⟩ := trap_taken h hroom hstack (by rw [hrst]) hk hx hm hy rfl hp
  obtain rfl : g' = g := Option.some.inj (hg'.symm.trans hret.gang)
  refine ⟨_, g', hexec, hret, hrst ▸ honly, SameFile.trans (b := e.adv) ⟨rfl, rfl, rfl, rfl, rfl, rfl, rfl, rfl, rfl, rfl⟩ (hrg ▸ hfile), ?_⟩
  rw [hsl, countRetired_mem hk, takeTrap_trapped, hrg]
  rfl

/-- The value and conditions of FADD in lane `l`, over its elements (R160, R162). -/
def faddLane (e : Iss) (a b : Byte) (l : Nat) : Nat × Conds :=
  packRes (e.lty l) ((List.range (tyCount (e.lty l))).map fun i =>
    finishF (tyFmt (e.lty l)) (mRound (e.lmode l)) (mSat (e.lmode l))
      (addF (mRound (e.lmode l)) (numOf e a l i) (numOf e b l i)))

/-- FADD's results and conditions, written into the gang. -/
def faddBody (e : Iss) (d a b : Byte) : Eff :=
  resultBody e e.active d e.wide (fun l => (faddLane e a b l).1) fun l => (faddLane e a b l).2

theorem execFadd_eq (d a b : Byte) (s : State) : execFadd d a b s = issue s
    (fun e => legal e fun k => setFp (e.ty k) && (!true || notRst (e.mode k)) && dstOk e.n (e.ty k) d
        && srcOk e.n (e.ty k) a && srcOk e.n (e.ty k) b) fun e => faddBody e d a b := rfl

theorem packRes_perElement (e : Iss) (f : Nat → Nat → Nat × Conds) :
    perElement e (fun l => (packRes (e.lty l) ((List.range (tyCount (e.lty l))).map (f l))).1)
      (fun l => (packRes (e.lty l) ((List.range (tyCount (e.lty l))).map (f l))).2) f := by
  intro l _
  refine ⟨by simp [packRes, Function.comp_def], fun i hi => ?_⟩
  unfold packRes elemOf
  rw [packElems_get _ _ _ (by simpa using hi)]
  simp

theorem fadd_judged {e : Iss} {d a b : Byte} (hf : Fits e setFp [d] [a, b] []) (hr : noRst e) :
    (legal e fun k => setFp (e.ty k) && (!true || notRst (e.mode k)) && dstOk e.n (e.ty k) d
        && srcOk e.n (e.ty k) a && srcOk e.n (e.ty k) b) = .go := by
  rw [legal_go]
  intro k hk
  obtain ⟨h1, h2, h3, -⟩ := hf k hk
  simp [h1, h2 d (by simp), h3 a (by simp), h3 b (by simp), notRst, hr k hk]

/-- FADD with its traps, where nothing is known of `finish` but what it does to a trap that is due. -/
theorem fadd_traps {s : State} {e : Iss} {d a b : Byte} {k : Nat} {x : Slice} (h : issOf s = some e) (hroom : RoomForTraps e) (hk : k ∈ e.sls)
    (hx : e.g.slices[k]? = some x) (hm : mayTrap e k) (hf : Fits e setFp [d] [a, b] []) (hr : noRst e) :
    ∃ t v c g, exec (.fadd d a b) s = .next t ∧ Result s t e e.active d e.wide v c ∧
      (perElement e v c fun l i => finishF (tyFmt (e.lty l)) (mRound (e.lmode l)) (mSat (e.lmode l))
        (addF (mRound (e.lmode l)) (numOf e a l i) (numOf e b l i))) ∧
      t.exe.gangs[e.gi]? = some g ∧ ∀ cs : Conds, cs = sliceConds k e.active c →
        cs.zeroExtend 32 &&& e.g.fpxEn ≠ 0 → g.slices[k]? = some (countRetired e k (fun x =>
          trapped e.g (0x22 + 2 ^ 16 * (cs.zeroExtend 32 &&& e.g.fpxEn).toNat) (e.act k) (x.pc + 4) e.pc
            { x with fpx := fpxOr x.fpx cs }) x) := by
  obtain rfl := (issOf_some h).1
  have hexec : exec (.fadd d a b) e.s = .next (finish e (faddBody e d a b)) := by
    rw [exec_fadd, execFadd_eq]
    exact issue_go h (fadd_judged hf hr)
  have hres : ∃ t, exec (.fadd d a b) e.s = .next t ∧ Result e.s t e e.active d e.wide (fun l => (faddLane e a b l).1) fun l => (faddLane e a b l).2 := by
    rw [exec_fadd, execFadd_eq]
    exact result_spec h (fadd_judged hf hr) hroom ⟨false, rfl⟩ fun l hl hw => hf.room (d := d) (by simp) hl hw
  obtain ⟨t, ht, hres⟩ := hres
  obtain rfl : finish e (faddBody e d a b) = t := Host.Outcome.next.inj (hexec.symm.trans ht)
  obtain ⟨g, hret, hrest⟩ := hres
  refine ⟨_, _, _, g, hexec, ⟨g, hret, hrest⟩, packRes_perElement e _, hret.gang, ?_⟩
  rintro cs hcs hne
  have hy : (faddBody e d a b).g.slices[k]? = some { x with pc := x.pc + 4, fpx := fpxOr x.fpx cs } := by
    rw [hcs]
    show (e.adv.slices.mapIdx fun k (x : Slice) => { x with fpx := fpxOr x.fpx (sliceConds k e.active fun l => (faddLane e a b l).2) })[k]? = _
    rw [List.getElem?_mapIdx, adv_slice hk hx]
    rfl
  have hstack : ∀ j, ((faddBody e d a b).g.sl j).stack = (e.g.sl j).stack := fun j => by
    have := sl_mapIdx e.adv (fun k (x : Slice) => { x with fpx := fpxOr x.fpx (sliceConds k e.active fun l => (faddLane e a b l).2) }) j
    refine (congrArg Slice.stack this).trans ?_
    split <;> exact (adv_sl_tally e j).2.2
  have hp : pendingTrap e (faddBody e d a b) k = some (0x22, (cs.zeroExtend 32 &&& e.g.fpxEn).toNat, e.act k) := by
    have hcs' : (faddBody e d a b).cs k = cs := hcs.symm
    refine (pendingTrap_due h hk hx hm ?_ hy ?_ ?_ ?_).trans ?_
    · rfl
    · rfl
    · rfl
    · rfl
    · rw [hcs', if_pos hne]
  obtain ⟨g', hg', hsl⟩ := trap_taken h hroom hstack rfl hk hx hm hy rfl hp
  obtain rfl : g' = g := Option.some.inj (hg'.symm.trans hret.gang)
  rw [hsl, countRetired_mem hk, takeTrap_trapped]
  rfl

theorem brk_stops {s : State} {e : Iss} {k : Nat} {x : Slice} (c : Byte) (h : issOf s = some e) (hstop : (dbgCtl s e.g e.kern.part).getLsbD 0 = true)
    (hq : Quiet e) (hx : e.g.slices[k]? = some x) (hrun : x.run ≠ 0) (hk : lowestSuch e k fun k => e.act k ≠ 0) :
    ∃ t g r, exec (.brk c) s = .next t ∧ Retired t e g ∧ t.ctl.faults = s.ctl.faults ++ [r] ∧
      r.code = some .debugStop ∧ r.part = e.kern.part ∧ r.ctx = e.kern.ctx ∧ t.mem = s.mem := by
  obtain rfl := (issOf_some h).1
  have hb : brkStops e = true := hstop
  have hexec : exec (.brk c) e.s = .next (finish e { st := debugStopAt e k, g := e.adv }) := by
    rw [exec_brk]
    refine (issue_go h (if_pos hb)).trans ?_
    rw [if_pos hb, find_active hk]
  generalize hr : ({ st := debugStopAt e k, g := e.adv } : Eff) = r at hexec
  have hrg : r.g = e.adv := by rw [← hr]
  have hrst : r.st = debugStopAt e k := by rw [← hr]
  have hn : noOverflow e r := noOverflow_quiet hq r
  have hy : (takePending e r e.sls).slices[k]? = some { x with pc := x.pc + 4 } := by
    rw [takePending_quiet hq, hrg]
    exact adv_slice hk.1 hx
  obtain ⟨g, hret, honly, -⟩ := finish_retired h hn (by rw [hrst]; rfl) (by rw [hrg]; exact adv_slices_length e)
    (fun j => by rw [hrg]; exact (adv_sl_tally e j).2.1) (by rw [hrg]; rfl)
  obtain ⟨ps, g1, -, hfin⟩ := finish_unsettled hn (sls_lt hk.1) hy (fin_run hrun) (sl_of hx ▸ iss_regang h hk.1)
  refine ⟨_, g, sliceRec e.s e.g e.grp e.kern k (some .debugStop) 0, hexec, hret, ?_, rfl, rfl, rfl, ?_⟩
  · rw [hfin, afterSettle_faults]
    show r.st.ctl.faults = _
    rw [hrst]
    rfl
  · rw [honly.mem, hrst]
    rfl

/-- Settles O23: a trap is taken in its own slice as the instruction ends, and a slice that runs on leaves nothing to settle at
REGANG. -/
theorem faultsAndTraps : Obligations.FaultsAndTraps := by
  unfold Obligations.FaultsAndTraps
  refine ⟨fun s e c d a b h => ⟨fun k code info _ => raise_faulted h k code info, fun k hk => halt_faults c h hk,
      fun hq hr hn => halt_advances c h hq hr hn, fun k hok hk => iadd_faults d a b h hok hk,
      fun k x hstop hq hx hrun hk => brk_stops c h hstop hq hx hrun hk⟩,
    fun s e d a b k x h hroom hk hx _ hm => ⟨nop_steps h hroom hk hx hm, fadd_traps h hroom hk hx hm⟩⟩

end Sys2Proof.Machine
end

section
/-! PROOFS. Proofs/Invariant.lean: the invariant of the machine taken apart, what keeps each of its parts, and what an issue
has to leave for it. -/

namespace Sys2Proof.Machine

/-! ## The parts of the invariant -/

/-- Every gang has its eight slices (R41). -/
def GangsOk (gs : List Gang) : Prop := ∀ g ∈ gs, g.slices.length = 8

theorem memOk_iff (m : Mem) : m.ok ↔
    Memory.wf m.bytes = true ∧ Memory.wf m.lpddr = true ∧ Memory.wf m.host = true ∧ GrainsOk m.dir := Iff.rfl

theorem memOk_canonical (m : Mem) : m.ok ↔ m.canonical ∧ GrainsOk m.dir := by
  simp only [memOk_iff, Mem.canonical, and_assoc]

theorem good_iff (s : State) :
    Good s ↔ s.mem.ok ∧ (s.sys.domId < 512 ∧ s.sys.links.length = 24) ∧ GangsOk s.exe.gangs :=
  Iff.rfl

/-- A step's outcome keeps the invariant where it goes on. -/
def GoodOut : Host.Outcome State Fault Refusal → Prop
  | .next t => Good t
  | _ => True

@[simp] theorem goodOut_next (t : State) : GoodOut (.next t) ↔ Good t := Iff.rfl

@[simp] theorem goodOut_fault (f : Fault) : GoodOut (.fault f) := trivial

@[simp] theorem goodOut_refused (r : Refusal) : GoodOut (.refused r) := trivial

theorem foldl_good {α : Type} {f : State → α → State} (hf : ∀ s x,
    Good s → Good (f s x)) (L : List α) {s : State} (h : Good s) :
    Good (L.foldl f s) :=
  List.foldlRecOn L f h fun t ht x _ => hf t x ht

theorem foldl_fst_good {α β : Type} {f : State × β → α → State × β} (hf : ∀ acc x,
    Good acc.1 → Good (f acc x).1) (L : List α)
    {acc : State × β} (h : Good acc.1) : Good (L.foldl f acc).1 :=
  List.foldlRecOn (motive := fun acc : State × β => Good acc.1) L f h fun t ht x _ => hf t x ht

theorem ite_fst_good {β : Type} {p : Prop} [Decidable p] {a b : State × β} (ha : Good a.1) (hb : Good b.1) :
    Good (ite p a b).1 := by
  split
  · exact ha
  · exact hb

/-! ## Gangs -/

theorem GangsOk.modAt {gs : List Gang} (h : GangsOk gs) (i : Nat) {f : Gang → Gang}
    (hf : ∀ g, g.slices.length = 8 → (f g).slices.length = 8) : GangsOk (modAt gs i f) := by
  induction gs generalizing i with
  | nil => exact h
  | cons g gs ih =>
    obtain ⟨hg, ht⟩ := List.forall_mem_cons.1 h
    cases i with
    | zero => exact List.forall_mem_cons.2 ⟨hf g hg, ht⟩
    | succ i => exact List.forall_mem_cons.2 ⟨hg, ih ht i⟩

theorem GangsOk.map {gs : List Gang} (h : GangsOk gs) {f : Gang → Gang}
    (hf : ∀ g, g.slices.length = 8 → (f g).slices.length = 8) : GangsOk (gs.map f) := by
  intro g hg
  obtain ⟨x, hx, rfl⟩ := List.mem_map.1 hg
  exact hf x (h x hx)

theorem GangsOk.foldl {α : Type} {f : List Gang → α → List Gang} (hf : ∀ gs x,
    GangsOk gs → GangsOk (f gs x)) (L : List α)
    {gs : List Gang} (h : GangsOk gs) : GangsOk (L.foldl f gs) :=
  List.foldlRecOn L f h fun t ht x _ => hf t x ht

theorem GangsOk.mapIdx {gs : List Gang} (h : GangsOk gs) {f : Nat → Gang → Gang}
    (hf : ∀ i g, g.slices.length = 8 → (f i g).slices.length = 8) : GangsOk (gs.mapIdx f) := by
  intro g hg
  obtain ⟨i, hi, rfl⟩ := List.mem_mapIdx.1 hg
  exact hf i _ (h _ (List.getElem_mem hi))

theorem Good.sys {s : State} (h : Good s) : s.sys.ok := h.2.1

theorem Good.gangs {s : State} (h : Good s) : GangsOk s.exe.gangs := h.2.2

theorem Good.setGangs {s : State} (h : Good s) {gs : List Gang} (hg : GangsOk gs) :
    Good { s with exe := { s.exe with gangs := gs } } :=
  ⟨h.1, h.2.1, hg⟩

theorem GangsOk.append {gs hs : List Gang} (h : GangsOk gs) (k : GangsOk hs) : GangsOk (gs ++ hs) :=
  List.forall_mem_append.2 ⟨h, k⟩

/-! ## Memory -/

theorem Mem.ok.foldl {α : Type} {f : Mem → α → Mem} (hf : ∀ m x, m.ok → (f m x).ok) (L : List α) {m : Mem} (h : m.ok) :
    (L.foldl f m).ok :=
  List.foldlRecOn L f h fun t ht x _ => hf t x ht

theorem MemSide.ok {P : Nat → Prop} {m m' : Mem} (h : MemSide P m m') (hm : m.ok) : m'.ok := by
  rw [memOk_canonical] at hm ⊢
  exact ⟨h.canon hm.1, h.grains hm.2⟩

theorem SameHome.ok {m m' : Mem} (h : SameHome m m') (hm : m.ok) : m'.ok := by
  rw [memOk_iff, h.bytes, h.lpddr, h.host, h.dir]
  exact hm

theorem Good.mem {s : State} (h : Good s) : s.mem.ok := h.1

theorem Good.setMem {s : State} (h : Good s) {m : Mem} (hm : m.ok) : Good { s with mem := m } := ⟨hm, h.2⟩

theorem Mem.ok.grains {m : Mem} (h : m.ok) : GrainsOk m.dir := h.2.2.2

theorem Mem.ok.setDir {m : Mem} (h : m.ok) {d : List DirEntry} (hd : GrainsOk d) : { m with dir := d }.ok :=
  ⟨h.1, h.2.1, h.2.2.1, hd⟩

theorem GrainsOk.filter {d : List DirEntry} (h : GrainsOk d) (p : DirEntry → Bool) : GrainsOk (d.filter p) :=
  fun e he => h e (List.mem_filter.1 he).1

theorem GrainsOk.map {d : List DirEntry} (h : GrainsOk d) {f : DirEntry → DirEntry} (hf : ∀ e,
    (f e).grain = e.grain ∧ (f e).size = e.size) :
    GrainsOk (d.map f) := by
  intro e he
  obtain ⟨x, hx, rfl⟩ := List.mem_map.1 he
  rw [(hf x).1, (hf x).2]
  exact h x hx

/-! ## What the home, an engine and a queue keep -/

theorem EngineSide.good {P : Nat → Prop} {s t : State} (k : EngineSide P s t) (h : Good s) : Good t := by
  obtain ⟨hm, hs, hx⟩ := (good_iff s).1 h
  exact (good_iff t).2 ⟨k.mem.ok hm, by rw [k.sys]; exact hs, by rw [k.exe]; exact hx⟩

theorem HomeSide.good {P : Nat → Prop} {s t : State} (k : HomeSide P s t) (h : Good s) : Good t := k.engine.good h

theorem QueueSide.good {P : Nat → Prop} {s t : State} (k : QueueSide P s t) (h : Good s) : Good t := by
  obtain ⟨hm, hs, hx⟩ := (good_iff s).1 h
  exact (good_iff t).2 ⟨k.mem.ok hm, by rw [k.sys]; exact hs, by rw [k.exe]; exact hx⟩

/-! ## An issue -/

theorem setGang_good {s : State} (h : Good s) (i : Nat) {g : Gang} (hg : g.slices.length = 8) :
    Good (setGang s i g) := by
  exact h.setGangs (h.gangs.modAt i fun _ _ => hg)

theorem addFault_good {s : State} (h : Good s) (r : FaultRec) : Good (addFault s r) := h

theorem idle_good {s : State} (h : Good s) : Good (idle s) := h

theorem noteIssue_good {s : State} (h : Good s) (a b : Nat) : Good (noteIssue s a b) := h

theorem dropSave_good {s : State} (h : Good s) (gid part cid : Nat) : Good (dropSave s gid part cid) := h

theorem lapse_good {s : State} (h : Good s) (gid : Nat) (grp : Group) : Good (lapse s gid grp) := by
  unfold lapse
  split
  · exact dropSave_good h ..
  · exact h

theorem groupExit_good {s : State} (h : Good s) (gid : Nat) : Good (groupExit s gid) := by
  grind [groupExit, lapse_good, good_iff]

theorem advanceTurn_good {s : State} (h : Good s) (kern : Nat) : Good (advanceTurn s kern) := by
  grind [advanceTurn, good_iff]

theorem settleRegang_good {s : State} (h : Good s) (gi : Nat) (grp : Group) (k : Kernel) (step : Bool) {g : Gang}
    (hg : g.slices.length = 8) :
    Good (settleRegang s gi grp k step g) := by
  obtain ⟨g', -, ht, hs | ⟨r, hs⟩⟩ := settleRegang_tally s gi grp k step g <;> rw [hs]
  · exact setGang_good h gi (ht.1.trans hg)
  · exact addFault_good (setGang_good h gi (ht.1.trans hg)) r

/-- An issue in a state that keeps the invariant, of a gang with eight slices. -/
def IssOk (e : Iss) : Prop := Good e.s ∧ e.g.slices.length = 8

/-- An effect that leaves both so. -/
def EffOk (r : Eff) : Prop := Good r.st ∧ r.g.slices.length = 8

theorem issOk_of {s : State} {e : Iss} (h : Good s) (he : issOf s = some e) : IssOk e := by
  obtain ⟨hs, -, hg, -⟩ := issOf_some he
  exact ⟨by rw [hs]; exact h, h.gangs _ (List.mem_of_getElem? hg)⟩

theorem raise_good {e : Iss} (h : IssOk e) (sl : Nat) (code : FaultCode) (info : Dbl) : Good (raise e sl code info) :=
  idle_good (addFault_good (setGang_good h.1 _ (by simpa using h.2)) _)

theorem finish_good {e : Iss} {r : Eff} (h : IssOk e) (hr : EffOk r) : Good (finish e r) := by
  obtain ⟨hst, hg⟩ := hr
  unfold finish
  split
  · exact raise_good h ..
  · have hp : (takePending e r e.sls).slices.length = 8 := (takePending_tally e r e.sls).1.trans hg
    extract_lets g0 g1 g2
    have h2 : g2.slices.length = 8 := by simp [g2, g1, g0, hp]
    have hs := (spill_tally r.st.ctl.parts e.kern.part g2).1.trans h2
    grind [groupExit_good, advanceTurn_good, settleRegang_good, noteIssue_good, idle_good, good_iff]

theorem issue_good {s : State} (h : Good s) (j : Iss → Judge) {b : Iss → Eff} (hb : ∀ e, IssOk e → EffOk (b e)) :
    GoodOut (issue s j b) := by
  cases ho : issue s j b with
  | next t =>
    rcases issue_cases ho with rfl | ⟨e, he, ⟨-, rfl⟩ | ⟨k, c, i, -, rfl⟩⟩
    · exact h
    · exact finish_good (issOk_of h he) (hb e (issOk_of h he))
    · exact raise_good (issOk_of h he) k c i
  | _ => trivial

/-! ## Bodies of one shape -/

theorem adv_ok {e : Iss} (h : IssOk e) : e.adv.slices.length = 8 := (adv_slices_length e).trans h.2

theorem resultBody_ok {e : Iss} (h : IssOk e) (ls : List Nat) (d : Byte) (w : Nat → Bool) (v : Nat → Nat)
    (c : Nat → Conds) :
    EffOk (resultBody e ls d w v c) := ⟨h.1, by simp [resultBody, adv_ok h]⟩

theorem predBody_ok {e : Iss} (h : IssOk e) (p : Nat) (v : Nat → Bool) (c : Nat → Conds) : EffOk (predBody e p v c) :=
  ⟨h.1, by simp [predBody, adv_ok h]⟩

theorem uniBody_ok {e : Iss} (h : IssOk e) (d : Byte) (v : Nat → Nat) : EffOk (uniBody e d v) := by
  unfold uniBody
  dsimp only
  split <;> exact ⟨h.1, adv_ok h⟩

theorem sliceBody_ok {e : Iss} (h : IssOk e) (f : Nat → Slice → Slice) : EffOk (sliceBody e f) :=
  ⟨h.1, by simp [sliceBody, h.2]⟩

end Sys2Proof.Machine
end

section
/-! PROOFS. Proofs/InvariantMemory.lean: what changes memory keeps its part of the invariant. -/

namespace Sys2Proof.Machine

/-! ## Fetched lines and bytes of memory -/

theorem memPut_ok {m : Mem} (h : m.ok) (off : Nat) (bs : List Byte) : (memPut m off bs).ok :=
  (homePut_side m off bs).ok h

theorem icFill_ok {s : State} (h : Good s) (core : Nat) (c : Ctx) (va : VAddr) : (icFill s core c va).ok := by
  unfold icFill
  repeat' split
  all_goals exact h.1

/-! ## Blocks, the directory and writes at the home -/

theorem l1Put_ok {m : Mem} (h : m.ok) (core frame : Nat) (pc : VAddr) (c policy : Nat) (new : List (Nat × BitVec 256)) :
    (l1Put m core frame pc c policy new).ok := by
  obtain ⟨l1, pr, hm⟩ := l1Put_only m core frame pc c policy new
  rw [hm]
  exact h

theorem l1Drop_ok {m : Mem} (h : m.ok) (p : L1Block → Bool) : (l1Drop m p).ok := by
  obtain ⟨l1, pr, hm⟩ := l1Drop_only m p
  rw [hm]
  exact h

theorem l1DropCells_ok {m : Mem} (h : m.ok) (core frame : Nat) (cs : List Nat) : (l1DropCells m core frame cs).ok :=
  (l1DropCells_core m core frame cs).home.ok h

theorem l1Touch_ok {m : Mem} (h : m.ok) (core frame i : Nat) : (l1Touch m core frame i).ok := h

theorem l2Put_ok {m : Mem} (h : m.ok) (die frame : Nat) (g : L2Tag) (store : Bool) (expiry : Option Nat)
    (new : List (Nat × L2Cell)) : (l2Put m die frame g store expiry new).ok := h

theorem l2Remove_ok {m : Mem} (h : m.ok) (die frame : Nat) (cs : List Nat) : (l2Remove m die frame cs).ok :=
  (l2Remove_side m die frame cs).ok h

theorem recallGrain_ok {m : Mem} (h : m.ok) {e : DirEntry} (he : GrainOk e) : (recallGrain m e.grain e.size).ok :=
  (recallGrain_side m fun _ => he).ok h

theorem Mem.ok.setLpddr {m : Mem} (h : m.ok) (k : Nat) (bs : List Byte) :
    ({ m with lpddr := smPut m.lpddr k bs } : Mem).ok :=
  ⟨h.1, smWf_smPut _ _ _ h.2.1, h.2.2⟩

theorem dirLeave_grain (e : DirEntry) (a : Nat) : (dirLeave e a).grain = e.grain ∧ (dirLeave e a).size = e.size := by
  grind [dirLeave]

theorem dirLeave_ok {e : DirEntry} (h : GrainOk e) (a : Nat) : GrainOk (dirLeave e a) := by
  unfold GrainOk
  rw [(dirLeave_grain e a).1, (dirLeave_grain e a).2]
  exact h

theorem growRecall_ok {m : Mem} (h : m.ok) (off size : Nat) : (growRecall m off size).ok :=
  (growRecall_side m off size).ok h

theorem llcPut_ok {m : Mem} (h : m.ok) (frame wayp policy : Nat) (cells dirt : BitVec 16) :
    (llcPut m frame wayp policy cells dirt).ok :=
  (llcPut_side m frame wayp policy cells dirt).ok h

/-! ## Operations in flight -/

theorem noteParts_ok {m : Mem} (h : m.ok) (o : MemOp) : (noteParts m o).ok := (noteParts_core m o).home.ok h

theorem acquireL1_ok {m : Mem} (h : m.ok) (core scope : Nat) : (acquireL1 m core scope).ok :=
  (acquireL1_core m core scope).1.home.ok h

theorem raiseClock_ok {m : Mem} (h : m.ok) (core home : Nat) : (raiseClock m core home).ok := by
  unfold raiseClock
  split <;> exact h

theorem stampRmw_ok {m : Mem} (h : m.ok) (core scope home : Nat) : (stampRmw m core scope home).ok := h

theorem stampFence_ok {m : Mem} (h : m.ok) (core scope : Nat) : (stampFence m core scope).ok := h

/-! ## Issue of memory operations -/

theorem touchParts_ok {m : Mem} (h : m.ok) (core : Nat) (ps : List MemPart) : (touchParts m core ps).ok :=
  (touchParts_core m core ps).home.ok h

theorem storePartL1_ok (own core : Nat) {m : Mem} (h : m.ok) (p : MemPart) : (storePartL1 own core m p).ok :=
  (storePartL1_core own core m p).home.ok h

theorem storeL1_ok {s : State} (h : Good s) (core : Nat) (ps : List MemPart) : (storeL1 s core ps).ok :=
  (storeL1_core s core ps).home.ok h.1

theorem dropParts_ok {m : Mem} (h : m.ok) (core : Nat) (ps : List MemPart) : (dropParts m core ps).ok :=
  (dropParts_core m core ps).home.ok h

/-! ## Fills, requests at homes, invalidations -/

theorem ackParts_ok {m : Mem} (h : m.ok) (issue pa : Nat) : (ackParts m issue pa).ok := h

theorem storeAtSlice_ok {m : Mem} (h : m.ok) (die : Nat) (o : MemOp) (p : MemPart) : (storeAtSlice m die o p).ok := h

theorem markPart_ok {m : Mem} (h : m.ok) (op i : Nat) (ack : Bool) : (markPart m op i ack).ok := h

theorem mergeBytes_ok {m : Mem} (h : m.ok) (t : Option Txn) (bs : List (Nat × Byte)) : (mergeBytes m t bs).ok :=
  (mergeBytes_side m t bs).ok h

theorem gotPart_ok {m : Mem} (h : m.ok) (op i : Nat) (bs : List Byte) (ack : Bool) : (gotPart m op i bs ack).ok := h

theorem cleanCell_ok {m : Mem} (h : m.ok) (cell : Nat) : (cleanCell m cell).ok := h

/-! ## The tree -/

theorem ackPartial_ok {m : Mem} (h : m.ok) (acks : List (Nat × Nat)) : (ackPartial m acks).ok := by
  refine .foldl ?_ acks h
  exact fun _ _ hm => hm

/-! ## Queues and the enqueue windows -/

theorem qAnswer_ok {m : Mem} (h : m.ok) (op i : Nat) (a : QAns) (ack : Bool) : (qAnswer m op i a ack).ok := h

/-! ## The ends of operations -/

theorem answerIssue_ok {m : Mem} (h : m.ok) (issue v : Nat) : (answerIssue m issue v).ok := h

/-! ## Groups -/

theorem dropOldCode_ok {m : Mem} (h : m.ok) (core part cid ord : Nat) : (dropOldCode m core part cid ord).ok := h

theorem dropLocals_ok {m : Mem} (h : m.ok) (grp : Group) : (dropLocals m grp).ok := h

/-! ## Peers, dies and links -/

theorem renameWriter_ok {m : Mem} (h : m.ok) (a b : Writer) : (renameWriter m a b).ok := h

theorem dropLines_ok {s : State} (h : Good s) (die : Nat) : (dropLines s die).ok := h.mem.setDir (h.mem.grains.filter _)

theorem expirePeer_ok {s : State} (h : Good s) (dev : Nat) : (expirePeer s dev).ok :=
  h.mem.setDir ((h.mem.grains.map (by grind)).filter _)

/-! ## Trust -/

theorem rekeyMem_ok (draw : Nat) (dies : List Nat) {m : Mem} (h : m.ok) : (rekeyMem draw dies m).ok :=
  (memOk_canonical _).2 ⟨rekeyMem_canonical draw dies m ((memOk_canonical m).1 h).1, h.grains⟩

theorem scrubDies_ok {m : Mem} (h : m.ok) (own : Nat) (dies : List Nat) : (scrubDies m own dies).ok :=
  h.setDir (h.grains.filter _)

/-! ## Service -/

theorem fromBelow_ok (s : State) (llc : Bool) {m : Mem} (h : m.ok) (cell : Nat) : (fromBelow s llc m cell).ok := by
  unfold fromBelow
  split
  · exact memPut_ok h ..
  · exact ⟨smWf_smPut _ _ _ h.1, h.2⟩

theorem dropBlock_ok {s : State} (h : Good s) (tier : MemTier) (core pa : Nat) : (dropBlock s tier core pa).ok := by
  have below := fun (llc : Bool) (m : Mem) (cell : Nat) (hm : m.ok) => fromBelow_ok s llc hm cell
  cases tier with
  | l1 => exact l1Drop_ok h.1 _
  | homeSlice =>
    unfold dropBlock
    dsimp only
    split
    · exact h.1
    · exact .foldl (below true) _ h.1
  | llc =>
    unfold dropBlock
    dsimp only
    split
    · exact h.1
    · exact .foldl (below false) _ h.1
  | _ => exact h.1

end Sys2Proof.Machine
end

section
/-! PROOFS. Proofs/InvariantOperations.lean: operations of memory, the tree, copies, queues and regions keep the invariant. -/

namespace Sys2Proof.Machine

/-! ## Blocks, the directory and writes at the home -/

theorem trimL2_good {s : State} (h : Good s) (die frame : Nat) : Good (trimL2 s die frame) := (trimL2_side ..).good h

theorem dropAbove_good {s : State} (h : Good s) (die frame top : Nat) : Good (dropAbove s die frame top) :=
  (dropAbove_side ..).good h

theorem homeAlloc_good {s : State} (h : Good s) (frame : Nat) (cs : List Nat) (write whole : Bool) (policy wayp : Nat) :
    Good (homeAlloc s frame cs write whole policy wayp) :=
  (homeAlloc_side ..).good h

theorem sendReq_good {s : State} (h : Good s) (part dev tag cls note : Nat) (r : PeerOp) :
    Good (sendReq s part dev tag cls note r) := h

theorem ackReq_good {s : State} (h : Good s) (tag : Nat) (note : Option Nat) : Good (ackReq s tag note) := h

theorem answerTo_good {s : State} (h : Good s) (dev tag cls : Nat) (data : List Byte) (note : Nat) :
    Good (answerTo s dev tag cls data note) := h

theorem openTxn_good {s : State} (h : Good s) {e : DirEntry} (he : GrainOk e) (w : Writer) (own : Option Nat)
    (wpa wlen : Nat) (out : List Nat) :
    Good (openTxn s e w own wpa wlen out) := h.setMem (h.mem.setDir (dirPut_ok h.mem.grains he))

theorem homeWriteCell_good {s : State} (h : Good s) (w : Writer) (leaf off : Nat) (bs : List Byte) :
    Good (homeWriteCell s w leaf off bs) :=
  (homeWriteCell_side ..).good h

theorem homeWrite_good {s : State} (h : Good s) (w : Writer) (leaf off : Nat) (bs : List Byte) :
    Good (homeWrite s w leaf off bs) :=
  (homeWrite_side ..).good h

theorem engineWrite_good {s : State} (h : Good s) (w : Writer) (leaf pa : Nat) (bs : List Byte) :
    Good (engineWrite s w leaf pa bs) :=
  (engineWrite_side ..).good h

/-! ## Operations in flight -/

theorem modOpSlice_good {s : State} (h : Good s) (o : MemOp) (f : Slice → Slice) : Good (modOpSlice s o f) :=
  h.setGangs (h.gangs.modAt _ fun g hg => by simpa using hg)

theorem retireOp_good {s : State} (h : Good s) (o : MemOp) : Good (retireOp s o) := by
  grind [retireOp, modOpSlice_good, good_iff, memOk_iff]

theorem opFault_good {s : State} (h : Good s) (o : MemOp) (code : FaultCode) (info : Dbl) (exact : Bool) :
    Good (opFault s o code info exact) := by
  grind [opFault, addFault_good, good_iff, memOk_iff]

theorem modWindow_good {s : State} (h : Good s) (gid : Nat) (f : SMap 8 → SMap 8) : Good (modWindow s gid f) := h

/-! ## Barriers -/

theorem barPut_good {e : Iss} (h : IssOk e) (ofs b : Nat) : Good (barPut e ofs b) := modWindow_good h.1 ..

theorem updateAt_good {e : Iss} (h : IssOk e) (a : Byte) (dcells : Int) (darr : Nat) (l : Nat) :
    Good (updateAt e a dcells darr l) := by
  grind [updateAt, barPut_good]

theorem modNb_good {s : State} (h : Good s) (gid k : Nat) (f : NumBar → NumBar) : Good (modNb s gid k f) := h

/-! ## Fills, requests at homes, invalidations -/

theorem homeRecall_good {s : State} (h : Good s) (a : Option Nat) (off size : Nat) : Good (homeRecall s a off size) :=
  (homeRecall_side ..).good h

theorem homeShare_good {s : State} (h : Good s) (a off size : Nat) (lease : Word) :
    Good (homeShare s a off size lease) :=
  (homeShare_side ..).good h

theorem readRange_good {s : State} (h : Good s) (a : Nat) (g : L2Tag) (wayp frame size : Nat) (w : Nat × Nat) :
    Good (readRange s a g wayp frame size w) :=
  (readRange_side ..).good h

theorem peerRead_good {s : State} (h : Good s) (o : MemOp) (p0 : MemPart) (r : Nat × Nat) :
    Good (peerRead s o p0 r) := h

theorem peerFill_good {s : State} (h : Good s) (o : MemOp) (p0 : MemPart) (r : Nat × Nat) :
    Good (peerFill s o p0 r) := by
  grind [peerFill, trimL2_good, l2Put_ok, l2Remove_ok, good_iff]

theorem fillFrame_good {s : State} (h : Good s) (o : MemOp) (p0 : MemPart) (frame : Nat)
    (below : Nat → Option (BitVec 256)) : Good (fillFrame s o p0 frame below) := by
  unfold fillFrame
  extract_lets ops took cs cells _ t1 t2 m
  have h2 : Good t2 := by grind [homeAlloc_good, good_iff, memOk_iff]
  have hl := fun (m : Mem) (hm : m.ok) => Mem.ok.foldl (f := fun m i => l1Touch m o.core frame i)
    (fun _ i hm => l1Touch_ok hm o.core frame i) cs hm
  have hm : Mem.ok m := by
    have := h2.mem
    grind [l1Put_ok]
  exact h2.setMem (raiseClock_ok hm ..)

theorem ackWrite_good {s : State} (h : Good s) (o : MemOp) (i pa : Nat) : Good (ackWrite s o i pa) := by
  grind [ackWrite, raiseClock_ok, ackParts_ok, markPart_ok, good_iff]

theorem ackWriter_good {s : State} (h : Good s) (w : Writer) : Good (ackWriter s w) := by
  unfold ackWriter
  split
  · exact h
  · cases w with
    | part op i =>
      dsimp only
      split
      · exact h
      · exact ackWrite_good h ..
    | peer dev tag cls data => exact answerTo_good h ..
    | _ => exact h

theorem ownDone_good {s : State} (h : Good s) (t : Txn) (a : Nat) : Good (ownDone s t a) := by
  have hd : GrainsOk (dirPut s.sys.ptp s.mem.dir { dirGrow s.mem.dir t.grain t.size with
      coarse := false, vec := 0, ptrs := [a], owned := true }) :=
    dirPut_ok h.mem.grains (dirGrow_ok h.mem.grains ..)
  have hm := h.mem.setDir hd
  grind [ownDone, trimL2_good, ackWrite_good, storeAtSlice_ok, Good.setMem]

theorem txnDone_good {s : State} (h : Good s) (t : Txn) : Good (txnDone s t) := by
  have hd : GrainsOk (dirPut s.sys.ptp s.mem.dir (dirCleared s.sys.ptp (dirGrow s.mem.dir t.grain t.size))) :=
    dirPut_ok h.mem.grains ((dirGrow_ok h.mem.grains ..).cleared _)
  grind [txnDone, ackWriter_good, ownDone_good, good_iff, memOk_iff]

theorem countAck_good {s : State} (h : Good s) (t : Txn) (agent : Nat) : Good (countAck s t agent) := by
  grind [countAck, txnDone_good, mergeBytes_ok, good_iff, memOk_iff]

theorem rmwGroup_good {s : State} (h : Good s) (o : MemOp) (i : Nat) (p : MemPart) (same : List (MemOp × Nat)) :
    Good (rmwGroup s o i p same) := by
  unfold rmwGroup
  extract_lets run m1 m2 home m3
  have h1 : m1.ok := .foldl (fun _ _ hm => gotPart_ok hm ..) _ h.mem
  have h2 : m2.ok := l1DropCells_ok h1 ..
  have h3 : m3.ok := by grind [raiseClock_ok, stampRmw_ok]
  split
  · exact h.setMem h3
  · exact engineWrite_good (h.setMem h3) ..

theorem rmwPeer_good {s : State} (h : Good s) (o : MemOp) (i : Nat) (p : MemPart) (op : AtOp) (sg : Bool) :
    Good (rmwPeer s o i p op sg) := h

theorem noteLoss_good {s : State} (h : Good s) (o : MemOp) : Good (noteLoss s o) := h

theorem lostPart_good {s : State} (h : Good s) (o : MemOp) (i : Nat) (va : Dbl) (returns : Bool) :
    Good (lostPart s o i va returns) := by
  grind [lostPart, opFault_good, noteLoss_good, markPart_ok, good_iff]

theorem writeLanes_good {s : State} (h : Good s) (o : MemOp) : Good (writeLanes s o) :=
  h.setGangs (h.gangs.modAt _ fun _ hg => hg)

theorem finishAcquire_good {s : State} (h : Good s) (o : MemOp) : Good (finishAcquire s o) := by
  grind [finishAcquire, acquireL1_ok, good_iff]

theorem stlDo_good {s : State} (h : Good s) (o : MemOp) : Good (stlDo s o) := h

theorem atlIssue_good {s : State} (h : Good s) (o : MemOp) (cas : Bool) : Good (atlIssue s o cas) := by
  unfold atlIssue
  refine foldl_good ?_ _ h
  intro s _ hs
  exact hs

theorem lockOne_good {s : State} (h : Good s) (o : MemOp) (p : MemPart) : Good (lockOne s o p).1 := by
  grind [lockOne, homeAlloc_good, good_iff]

theorem lockDo_good {s : State} (h : Good s) (o : MemOp) : Good (lockDo s o) := by
  have hf := foldl_fst_good (f := fun (acc : State × List MemPart) p =>
    let (s', st) := lockOne acc.1 o p
    (s', acc.2 ++ [{ p with got := some (natLe st 4), performed := true }])) (fun _ p hs => lockOne_good hs o p) o.parts
      (acc := (s, [])) h
  exact hf

theorem lockIssue_good {s : State} (h : Good s) (o : MemOp) : Good (lockIssue s o) :=
  foldl_good (fun _ q hs => lockDo_good hs q) _ h

theorem unlockDo_good {s : State} (h : Good s) (o : MemOp) : Good (unlockDo s o) := by
  unfold unlockDo
  refine foldl_good ?_ _ h
  intro s _ hs
  exact hs

theorem flushCell_good {s : State} (h : Good s) (cell : Nat) : Good (flushCell s cell) :=
  h.setMem (cleanCell_ok ((recallGrain_ok h.mem (dirGrow_ok h.mem.grains ..)).setLpddr ..) cell)

theorem flushDo_good {s : State} (h : Good s) (o : MemOp) : Good (flushDo s o) := by
  unfold flushDo
  split
  · exact h
  · refine foldl_good (fun s p hs => ?_) _ h
    split
    · exact hs
    · refine foldl_good (fun s j hs => ?_) _ hs
      grind [flushCell_good]

theorem prefLane_good (e : Iss) (lvl ea : Nat) {s : State} (hs : Good s) (k : Nat) : Good (prefLane e lvl ea s k) := by
  unfold prefLane
  split
  · exact hs
  · extract_lets off f o p w cs t
    have ht : Good t := by
      grind [homeAlloc_good, foldl_good, homeRecall_good, readRange_good]
    grind [llcPut_ok, l1Put_ok, Good.setMem, Good.mem]

/-! ## The tree -/

theorem vaPut_good {s : State} (h : Good s) (c : Ctx) (va n v : Nat) : Good (vaPut s c va n v) := (vaPut_side ..).good h

theorem vaBump_good {s : State} (h : Good s) (c : Ctx) (va n : Nat) (d : Int) : Good (vaBump s c va n d) :=
  (vaBump_side ..).good h

theorem setLeaves_good {s : State} (h : Good s) (c : Ctx) (a : AccSlot) (e lo hi : Nat) :
    Good (setLeaves s c a e lo hi) :=
  (setLeaves_side ..).good h

theorem accArm_good {s : State} (h : Good s) (c : Ctx) (ea : Nat) : Good (accArm s c ea).1 := by
  grind [accArm, good_iff]

theorem ackHome_good {s : State} (h : Good s) (p : Partial) : Good (ackHome s p) :=
  foldl_good (fun _ _ hs => answerTo_good hs ..) _ (h.setMem (ackPartial_ok h.mem _))

theorem rootEvent_good {s : State} (h : Good s) (c : Ctx) (a : AccSlot) (p : Partial) (home : Nat) :
    Good (rootEvent s c a p home) :=
  (rootEvent_side ..).good h

theorem homeSequence_good {s : State} (h : Good s) (c : Ctx) (p : Partial) (home : Nat) :
    Good (homeSequence s c p home) := by
  have hl := fun (p : Partial) (t : State) (ht : Good t) (a : AccSlot) => (homeLoop_side c a home 28 t p).good ht
  grind [homeSequence, ackHome_good, vaBump_good, setLeaves_good, addFault_good]

/-! ## Copies -/

theorem copyAccepted_good {s : State} (h : Good s) (o : MemOp) : Good (copyAccepted s o) :=
  foldl_good (fun _ q hs => retireOp_good hs q) _ h

theorem copyLanded_good {s : State} (h : Good s) (c : Copy) (i : Nat) : Good (copyLanded s c i) := h

theorem copySent_good {s : State} (h : Good s) (c : Copy) (at_ : Nat × Nat) : Good (copySent s c at_) := h

theorem copyFault_good {s : State} (h : Good s) (c : Copy) (code : FaultCode) (info : Nat) :
    Good (copyFault s c code info) := h

theorem copyCount_good {s : State} (h : Good s) (c : Copy) (i : Nat) : Good (copyCount s c i) := by
  grind [copyCount, modWindow_good, copyLanded_good, copyFault_good]

theorem landWindow_good {s : State} (h : Good s) (c : Copy) (r x : Nat) (cell : Nat → BitVec 256) :
    Good (landWindow s c r x cell) := h

theorem copyAtHome_good {s : State} (h : Good s) (c : Copy) (va : Nat) : Good (copyAtHome s c va) := by
  grind [copyAtHome, homeAlloc_good, homeRecall_good]

theorem copyRead_good {s : State} (h : Good s) (c : Copy) (va : Nat) : Good (copyRead s c va) := by
  grind [copyRead, readRange_good]

theorem copyAsk_good {s : State} (h : Good s) (c : Copy) (at_ : Nat × Nat) (vas : List Nat) :
    Good (copyAsk s c at_ vas) := by
  unfold copyAsk
  dsimp only
  split
  · exact h
  · exact copySent_good (foldl_good (fun _ _ hs => sendReq_good hs ..) _ h) ..

theorem copyAnswer_good (c : Copy) {acc : State × List (Nat × BitVec 256)} (h : Good acc.1) (va : Nat) :
    Good (copyAnswer c acc va).1 :=
  peerFill_good (ackReq_good h ..) ..

theorem copyIn_good {s : State} (h : Good s) (c : Copy) (i : Nat) (at_ : Nat × Nat) : Good (copyIn s c i at_) := by
  have hhome : Good ((copySources c at_.1 at_.2).foldl (fun s v => copyAtHome s c v) s) := foldl_good
    (fun _ v hs => copyAtHome_good hs c v) _ h
  have hanswer := fun (vs : List Nat) => foldl_fst_good (fun _ v hs => copyAnswer_good c hs v) vs (acc := (s, [])) h
  grind [copyIn, copyCount_good, landWindow_good, copyRead_good, copyFault_good, copyAsk_good]

theorem copyDrops_good {s : State} (h : Good s) (c : Copy) (p : MemPart) : Good (copyDrops s c p) := by
  grind [copyDrops, l1Drop_ok, storePartL1_ok, good_iff]

theorem copyOut_good {s : State} (h : Good s) (c : Copy) (i : Nat) (at_ : Nat × Nat) : Good (copyOut s c i at_) := by
  grind [copyOut, sendReq_good, ackReq_good, engineWrite_good, noteLoss_good, copySent_good, copyCount_good,
    copyDrops_good]

/-! ## Queues and the enqueue windows -/

theorem deviceWrite_good {s : State} (h : Good s) (w : Writer) (part leaf pa : Nat) (bs : List Byte) :
    Good (deviceWrite s w part leaf pa bs) :=
  (deviceWrite_side ..).good h

theorem hubHold_good {s : State} (h : Good s) (leaf pa : Nat) : Good (hubHold s leaf pa) := (hubHold_side ..).good h

theorem modQueue_good {s : State} (h : Good s) (id : Nat) (f : Queue → Queue) : Good (modQueue s id f) := h

theorem hdrPut_good {s : State} (h : Good s) (w : Writer) (q : Queue) (o n v : Nat) : Good (hdrPut s w q o n v) := by
  grind [hdrPut, deviceWrite_good]

theorem setQState_good {s : State} (h : Good s) (q : Queue) (x : QState) (err : Nat) : Good (setQState s q x err) := by
  grind [setQState, modQueue_good, hdrPut_good, good_iff]

theorem settleQueues_good {s : State} (h : Good s) : Good (settleQueues s) := (settleQueues_side ..).good h

theorem qSlotFail_good {s : State} (h : Good s) (q : Queue) : Good (qSlotFail s q).1 := by
  grind [qSlotFail, setQState_good]

theorem qEnq_good {s : State} (h : Good s) (w : Writer) (q : Queue) (img : List Byte) : Good (qEnq s w q img).1 := by
  grind [qEnq, deviceWrite_good, modQueue_good, hdrPut_good, settleQueues_good, qSlotFail_good, good_iff]

theorem qDeq_good {s : State} (h : Good s) (w : Writer) (q : Queue) : Good (qDeq s w q).1 := by
  grind [qDeq, modQueue_good, hdrPut_good, settleQueues_good, qSlotFail_good]

theorem qPerform_good {s : State} (h : Good s) (w : Writer) (pa : Nat) (enq : Bool) (es : Option Nat) (img : List Byte)
    (peer : Bool) : Good (qPerform s w pa enq es img peer).1 := by
  grind [qPerform, qEnq_good, qDeq_good]

theorem qLane_good {s : State} (h : Good s) (o : MemOp) (i : Nat) (enq : Bool) : Good (qLane s o i enq) := by
  grind [qLane, sendReq_good, qPerform_good, raiseClock_ok, stampRmw_ok, markPart_ok, qAnswer_ok, good_iff]

theorem qBind_good {s : State} (h : Good s) (c : Option Ctx) (cid va : Nat) : Good (qBind s c cid va).1 := by
  unfold qBind
  iterate 4
    split
    · exact h
  dsimp only
  iterate 2
    split
    · exact h
  refine settleQueues_good (hdrPut_good (hubHold_good ?_ ..) ..)
  exact h

theorem modHew_good {s : State} (h : Good s) (part w : Nat) (f : Hew → Hew) : Good (modHew s part w f) := h

theorem hewDone_good {s : State} (h : Good s) (part w st idx : Nat) : Good (hewDone s part w st idx) := h

theorem hewWord_good {s : State} (h : Good s) (part w v : Nat) : Good (hewWord s part w v) := by
  grind [hewWord, modHew_good, hewDone_good]

/-! ## Regions -/

theorem rgPut_good {s : State} (h : Good s) (c : Ctx) (va : Nat) (fs : List (Nat × Nat × Nat)) :
    Good (rgPut s c va fs) :=
  (rgPut_side ..).good h

theorem excGet_good {s : State} (h : Good s) (w : Writer) (at_ need : Nat) (c : Ctx) (va : Nat) (bs : List Byte) :
    Good (excGet s (writeVa s w at_ c va need bs)) := (excGet_side va bs).good h

theorem putCopy_good {s : State} (h : Good s) (c : Ctx) (d : List Byte) (m : List Nat) : Good (putCopy s c d m) :=
  excGet_good h ..

theorem regionLaunch_good {s : State} (h : Good s) (c : Ctx) (id va hash : Nat) :
    Good (regionLaunch s c id va hash).1 :=
  (regionLaunch_keep ..).side.good h

theorem fitRegion_good {s : State} (h : Good s) (c : Ctx) (id va : Nat) : Good (fitRegion s c id va).1 := by
  have put := fun fs => rgPut_good h c va fs
  unfold fitRegion
  generalize rgPut s c va = f at put ⊢
  dsimp only
  repeat' with_reducible apply ite_fst_good
  all_goals grind

theorem forgetEager_good {s : State} (h : Good s) (c : Ctx) (id : Nat) : Good (forgetEager s c id) := h

theorem trainRegion_good {s : State} (h : Good s) (c : Ctx) (va : Nat) : Good (trainRegion s c va) :=
  rgPut_good (putCopy_good (excGet_good h ..) ..) ..

theorem setInvPending_good {s : State} (h : Good s) (c : Ctx) (va : Nat) : Good (setInvPending s c va) := by
  grind [setInvPending, vaPut_good]

theorem insertSample_good {s : State} (h : Good s) (c : Ctx) (va : Nat) (d : List Byte) (x : Sample) :
    Good (insertSample s c va d x) :=
  (insertSample_side ..).good h

theorem checkSample_good {s : State} (h : Good s) (c : Ctx) (va : Nat) (d : List Byte) (err : Nat) :
    Good (checkSample s c va d err) :=
  (checkSample_side ..).good h

/-! ## The ends of operations -/

theorem landLoad_good {s : State} (h : Good s) (o : MemOp) : Good (landLoad s o) := by
  grind [landLoad, retireOp_good, writeLanes_good, finishAcquire_good]

theorem landValue_good {s : State} (h : Good s) (o : MemOp) : Good (landValue s o) := by
  grind [landValue, retireOp_good, writeLanes_good]

theorem landUniform_good {s : State} (h : Good s) (o : MemOp) : Good (landUniform s o) := by
  unfold landUniform
  refine retireOp_good (finishAcquire_good (h.setGangs ?_) o) o
  exact h.gangs.modAt _ fun _ hg => hg

theorem drawAnswer_good {s : State} (h : Good s) (o : MemOp) (i : Nat) : Good (drawAnswer s o i) := by
  grind [drawAnswer, ackReq_good, gotPart_ok, good_iff]

theorem drawAnswers_good {s : State} (h : Good s) (o : MemOp) : Good (drawAnswers s o) :=
  foldl_good (fun _ i hs => drawAnswer_good hs o i) _ h

theorem deqWindow_good {s : State} (h : Good s) (o : MemOp) : Good (deqWindow s o) := h

theorem armDo_good {s : State} (h : Good s) (o : MemOp) : Good (armDo s o) := by
  grind [armDo, accArm_good, answerIssue_ok, good_iff]

theorem onOp_good {s : State} (h : Good s) (op : Nat) {f : State → MemOp → State} (hf : ∀ {t}, Good t → ∀ o,
    Good (f t o)) : Good (onOp s op f) := by
  unfold onOp
  split
  · exact h
  · exact hf h _

theorem ackSent_good {s : State} (h : Good s) (o : MemOp) (peer : MemPart → Bool) : Good (ackSent s o peer) := by
  refine foldl_good (fun s x hs => ?_) _ h
  split
  · exact (ackReq_good hs o.id (some x.2)).setMem (ackParts_ok (markPart_ok hs.mem ..) ..)
  · exact hs

theorem storeOutPart_good {s : State} (h : Good s) (op i : Nat) : Good (storeOutPart s op i) := by
  grind [storeOutPart, sendReq_good, engineWrite_good, ackWrite_good, noteLoss_good, markPart_ok, good_iff]

theorem pstoreSend_good {s : State} (h : Good s) (o : MemOp) : Good (pstoreSend s o) := by
  unfold pstoreSend
  extract_lets ops ps own ready sendable t sent
  split
  · exact h
  · have ht : Good t := foldl_good (fun s f hs => by split <;> exact hs) _ h
    exact ht

theorem pstoreAck_good {s : State} (h : Good s) (o : MemOp) : Good (pstoreAck s o) := by
  grind [pstoreAck, ackReq_good, pstoreSend_good, good_iff, memOk_iff]

theorem contribSend_good {s : State} (h : Good s) (op : Nat) : Good (contribSend s op) := by
  refine onOp_good h op fun {s} hs o => foldl_good (fun t x ht => ?_) _ hs
  dsimp only
  repeat' split
  · exact ht
  · exact noteLoss_good (ht.setMem (markPart_ok ht.mem ..)) o
  · exact (sendReq_good ht ..).setMem (markPart_ok ht.mem ..)
  · exact ht

theorem endStore_good {s : State} (h : Good s) (op : Nat) : Good (endStore s op) := by
  refine onOp_good h op fun {t} ht q => ?_
  grind [retireOp_good, finishAcquire_good]

theorem expireFrame_good {s : State} (h : Good s) (die frame : Nat) : Good (expireFrame s die frame) := by
  grind [expireFrame, l1Drop_ok, l2Remove_ok, good_iff]

theorem expireLeases_good {s : State} (h : Good s) : Good (expireLeases s) :=
  foldl_good (fun _ _ hs => expireFrame_good hs ..) _ h

end Sys2Proof.Machine
end

section
/-! PROOFS. Proofs/InvariantGroups.lean: groups, kernels and contexts keep the invariant. -/

namespace Sys2Proof.Machine

/-! ## Traps, stops and control registers -/

theorem debugStopAt_good {e : Iss} (h : IssOk e) (k : Nat) : Good (debugStopAt e k) := addFault_good h.1 _

theorem csrwState_good (e : Iss) (n v : Nat) {s : State} (h : Good s) : Good (csrwState e n v s) := by
  grind [csrwState, good_iff]

/-! ## The matrix sequencer -/

theorem setGroup_good {s : State} (h : Good s) (gid : Nat) (g : Group) : Good (setGroup s gid g) := h

theorem tRaise_good {x : TIss} (h : Good x.s) (code : FaultCode) (info : Nat) (at_ : VAddr) :
    Good (tRaise x code info at_) := h

/-! ## Save records -/

theorem vaBytes_good {s : State} (h : Good s) (c : Ctx) (va : Nat) (bs : List Byte) : Good (vaBytes s c va bs) :=
  (vaBytes_side ..).good h

theorem saveRecord_good {s : State} (h : Good s) (c : Ctx) (k : Kernel) (grp : Group) (va : Nat) :
    Good (saveRecord s c k grp va) := by
  refine foldl_good (fun _ _ hs => vaBytes_good hs ..) _ (vaBytes_good ?_ ..)
  exact h

/-! ## Groups -/

theorem afterDepart_good {s : State} (h : Good s) (part cid : Nat) : Good (afterDepart s part cid) := by
  grind [afterDepart, good_iff]

theorem grantAreas_good {s : State} (h : Good s) (part : Nat) (skip : List Nat) : Good (grantAreas s part skip) := by
  refine foldl_good (fun s gi hs => ?_) _ h
  split
  · exact hs
  next g hg =>
    have hl : (spill s.ctl.parts part g).2.slices.length = 8 := (spill_tally ..).1.trans
      (hs.gangs _ (List.mem_of_getElem? hg))
    have hset := setGang_good hs gi hl
    grind [good_iff]

theorem releaseAreas_good {s : State} (h : Good s) (grp : Group) (part : Nat) : Good (releaseAreas s grp part) := by
  have hg : GangsOk (grp.gangs.foldl (fun gs gi => modAt gs gi fun g => { g with area := none }) s.exe.gangs) := by
    refine .foldl (fun gs gi hg => hg.modAt gi ?_) _ h.gangs
    intro g h8
    exact h8
  unfold releaseAreas
  refine grantAreas_good ?_ ..
  exact ⟨h.mem, h.sys, hg⟩

theorem releasePins_good {s : State} (h : Good s) (gid : Nat) (part cid : Nat) : Good (releasePins s gid part cid) := h

theorem dropGroup_good {s : State} (h : Good s) (gid : Nat) (halt : Bool) : Good (dropGroup s gid halt) := by
  grind [dropGroup, releaseAreas_good, releasePins_good, good_iff, memOk_iff]

theorem takeSave_good {s : State} (h : Good s) (gid : Nat) (k : Kernel) : Good (takeSave s gid k) := by
  grind [takeSave, good_iff]

theorem parkAreas_good {s : State} (h : Good s) (grp : Group) (part : Nat) : Good (parkAreas s grp part) := by
  have hk := List.foldlRecOn (motive := fun acc : List Partition × List Gang => GangsOk acc.2) grp.gangs
    (fun (acc : List Partition × List Gang) gi =>
      match acc.2[gi]? with
      | none => acc
      | some g =>
        let t := takeArea acc.1 part g
        (t.1, modAt acc.2 gi fun _ => t.2)) (b := (s.ctl.parts, s.exe.gangs)) h.gangs fun acc hacc gi _ => by
      dsimp only
      split
      · exact hacc
      next g hg => exact hacc.modAt gi fun _ _ => (takeArea_tally ..).1.trans (hacc _ (List.mem_of_getElem? hg))
  unfold parkAreas
  dsimp only
  split
  · exact h.setGangs hk
  · exact h

theorem parkStart_good {s : State} (h : Good s) (gid : Nat) (debug : Bool) : Good (parkStart s gid debug) := by
  grind [parkStart, takeSave_good, parkAreas_good, good_iff]

theorem evictOne_good {s : State} (h : Good s) (gid : Nat) : ∀ t, evictOne s gid = some t → Good t := by
  intro t ht
  grind [evictOne, afterDepart_good, dropGroup_good, parkStart_good]

theorem evictOne_getD_good {s : State} (h : Good s) (gid : Nat) : Good ((evictOne s gid).getD s) := by
  cases hv : evictOne s gid with
  | none => exact h
  | some t => exact evictOne_good h gid t hv

theorem evictUntil_good (core : Nat) (p : Packet) (n : Nat) (vs : List Nat) {s : State} (h : Good s) :
    ∀ t, evictUntil core p n vs s = some t → Good t := by
  induction vs generalizing s with
  | nil => grind [evictUntil]
  | cons v vs ih =>
    unfold evictUntil
    split
    · rintro _ ⟨⟩
      exact h
    · exact ih (evictOne_getD_good h v)

theorem ctxRunning_good {s : State} (h : Good s) (part cid : Nat) : Good (ctxRunning s part cid) := h

/-- What a look for a core finds keeps the invariant. -/
def GoodFound : Found → Prop
  | .at_ _ t => Good t
  | .leaving t => Good t
  | .nowhere => True

theorem findCore_good {s : State} (h : Good s) (cores : List Nat) (p : Packet) (n prio : Nat) :
    GoodFound (findCore s cores p n prio) := by
  unfold findCore
  split
  · exact h
  · split
    · exact h
    · split
      · trivial
      next c t ht =>
        obtain ⟨d, -, hd⟩ := List.exists_of_findSome?_eq_some ht
        obtain ⟨u, hu, he⟩ := Option.map_eq_some_iff.1 hd
        cases he
        have := evictUntil_good _ p n _ h t hu
        split <;> exact this

theorem placeOne_good {s : State} (h : Good s) (kern lid core : Nat) : Good (placeOne s kern lid core) := by
  have hnew : ∀ (n : Nat) (f : Nat → Gang), (∀ i, (f i).slices.length = 8) → GangsOk ((List.range n).map f) := by
    intro n f hf g hg
    obtain ⟨i, -, rfl⟩ := List.mem_map.1 hg
    exact hf i
  unfold placeOne
  split
  · exact h
  · split
    · exact h
    · refine ctxRunning_good ?_ ..
      exact ⟨dropOldCode_ok (acquireL1_ok h.mem ..) .., h.sys, h.gangs.append (hnew _ _ fun _ => rfl)⟩

theorem assignRots_good {s : State} (h : Good s) (kern : Nat) : Good (assignRots s kern) := by
  unfold assignRots
  split
  · exact h
  · dsimp only
    split
    · exact h
    · refine h.setGangs (h.gangs.map fun g hg => ?_)
      split <;> exact hg

theorem spillAll_good {s : State} (h : Good s) (grp : Group) (part : Nat) : Good (spillAll s grp part) := h

theorem takePart_slices (s : State) (c : Ctx) (va n : Nat) {f : List Byte → Gang → Gang}
    (hf : ∀ bs g, (f bs g).slices.length = g.slices.length) (g : Gang) : (takePart s c va n f g).slices.length =
      g.slices.length := by
  unfold takePart
  split
  · exact hf ..
  · rfl

theorem loadGang_slices (s : State) (c : Ctx) (k : Kernel) (pool : SMap 8) (va i : Nat) (g : Gang) :
    (loadGang s c k pool va i g).slices.length = g.slices.length := by
  unfold loadGang
  dsimp only
  split <;> simp [takePart_slices, loadSlices, loadTraps, loadRegions]

/-- The gangs of a group loaded from their records. -/
theorem restoredGangs_ok {s : State} (h : Good s) (c : Ctx) (k : Kernel) (pool : SMap 8) (va : Nat) (slots : List Nat)
    (L : List (Nat × Nat)) :
    GangsOk (L.foldl (fun gs x => modAt gs x.1 fun g =>
      { loadGang s c k pool va x.2 g with slot := nth slots x.2 0, yielded := false })
      s.exe.gangs) := by
  refine .foldl (fun gs x hgs => hgs.modAt x.1 ?_) _ h.gangs
  intro g h8
  exact (loadGang_slices s c k pool va x.2 g).trans h8

theorem restoreOn_good {s : State} (h : Good s) (gid : Nat) (grp : Group) (k : Kernel) (c : Ctx) (core : Nat) :
    Good (restoreOn s gid grp k c core) := by
  have hm := dropOldCode_ok (acquireL1_ok h.mem core scSystem) core k.part k.ctx k.ord
  have hg := restoredGangs_ok h c k (((findPart s.ctl.parts k.part).map Partition.pool).getD [])
    (c.desc.saveArea.toNat + grp.saved.getD 0)
    (takeSlots (usedSlots s core) (gangCount k.pkt)) grp.gangs.zipIdx
  refine ctxRunning_good ?_ ..
  split
  · refine addFault_good (dropSave_good ?_ ..) _
    exact ⟨hm, h.sys, hg⟩
  · refine dropSave_good ?_ ..
    exact ⟨hm, h.sys, hg⟩

theorem afterDone_good {s : State} (h : Good s) (kern : Nat) : Good (afterDone s kern) := by
  grind [afterDone, good_iff]

theorem passTurn_good {s : State} (h : Good s) (kern gi : Nat) (m : BitVec 8) : Good (passTurn s kern gi m) := by
  refine advanceTurn_good (h.setGangs (h.gangs.modAt _ ?_)) _
  intro g hg
  exact hg

/-! ## Packets, grids and kernels -/

theorem hubReads_good {s : State} (h : Good s) (c : Ctx) (vas : List Nat) : Good (hubReads s c vas) :=
  (hubReads_both s c vas).1.good h

theorem hubHead_good {s : State} (h : Good s) (q : Queue) (c : Ctx) : Good (hubHead s q c) := by
  grind [hubHead, hubHold_good, hubReads_good]

theorem latchRegions_good {s : State} (h : Good s) (c : Ctx) (kern : Nat) (p : Packet) :
    Good (latchRegions s c kern p).1 := by
  unfold latchRegions
  extract_lets rs r
  have hr : Good r.1 := foldl_fst_good (fun acc x hs => by
    split
    · exact hs
    · exact regionLaunch_good hs ..) rs h
  exact hr

theorem takePacket_good {s : State} (h : Good s) (q : Queue) (c : Ctx) (p : Packet) : Good (takePacket s q c p) := by
  grind [takePacket, modQueue_good, setQState_good, latchRegions_good, good_iff]

theorem setCtx_good {s : State} (h : Good s) (c : Ctx) : Good (setCtx s c) := h

theorem loadPinned_good {s : State} (h : Good s) (c : Ctx) (p : Partition) (ps : List (Nat × Nat)) :
    Good (loadPinned s c p ps) := h

theorem unpinRanges_good {s : State} (h : Good s) (c : Ctx) (rs : List (Nat × Nat)) : Good (unpinRanges s c rs) := h

theorem modKern_good {s : State} (h : Good s) (kern : Nat) (f : Kernel → Kernel) : Good (modKern s kern f) := h

theorem doneAdd_good {s : State} (h : Good s) (c : Ctx) (k : Kernel) : Good (doneAdd s c k) := (doneAdd_side ..).good h

theorem doneWord_good {s : State} (h : Good s) (c : Ctx) (kern : Nat) (k : Kernel) (word : Nat) :
    Good (doneWord s c kern k word) :=
  (doneWord_side ..).good h

theorem complete_good {s : State} (h : Good s) (c : Ctx) (kern : Nat) (k : Kernel) (word : Option Nat) :
    Good (complete s c kern k word) := by
  unfold complete
  split
  · exact h
  · cases word with
    | none => exact doneAdd_good h ..
    | some w =>
      have hw := doneWord_good h c kern k w
      dsimp only
      split
      · exact modKern_good hw ..
      · exact doneAdd_good hw ..

theorem advanceHead_good {s : State} (h : Good s) (kern : Nat) : Good (advanceHead s kern) := by
  grind [advanceHead, deviceWrite_good, modQueue_good, setQState_good, settleQueues_good, modKern_good]

theorem closeKernel_good {s : State} (h : Good s) (kern : Nat) (k : Kernel) (st : KState) (status fault : Nat) :
    Good (closeKernel s kern k st status fault) := by
  unfold closeKernel
  dsimp only
  split <;> exact h

theorem completeKernel_good {s : State} (h : Good s) (kern : Nat) : Good (completeKernel s kern) := by
  grind [completeKernel, modKern_good, complete_good]

theorem endKernel_good {s : State} (h : Good s) (kern : Nat) (st : KState) (status fault : Nat) :
    Good (endKernel s kern st status fault) := by
  grind [endKernel, settleQueues_good, advanceHead_good, closeKernel_good, completeKernel_good]

theorem stopKernel_good {s : State} (h : Good s) (kern : Nat) (st : KState) (status fault : Nat) (due : Completion) :
    Good (stopKernel s kern st status fault due) := by
  grind [stopKernel, modKern_good, closeKernel_good]

theorem failKernel_good {s : State} (h : Good s) (kern status : Nat) : Good (failKernel s kern status) := by
  grind [failKernel, endKernel_good]

theorem hostPut_good {s : State} (h : Good s) (addr : Nat) (bs : List Byte) : Good (hostPut s addr bs) :=
  h.setMem ⟨h.mem.1, h.mem.2.1, smWf_smPut _ _ _ h.mem.2.2.1, h.mem.grains⟩

theorem closeFacilities_good {s : State} (h : Good s) (part facil : Nat) : Good (closeFacilities s part facil) := by
  unfold closeFacilities
  extract_lets _ t
  have ht : Good t := by
    unfold t
    split <;> exact h
  split
  · exact ht
  · refine ht.setGangs (ht.gangs.map fun g hg => ?_)
    split
    · split <;> exact hg
    · exact hg

theorem treat_good {s : State} (h : Good s) (kern id : Nat) : Good (treat s kern id) := h

theorem fitProgress_good (c : Ctx) (kern : Nat) (rs : List RLatch) {s : State} (h : Good s) :
    Good (fitProgress c kern rs s).1 := by
  induction rs generalizing s with
  | nil => exact h
  | cons r rs ih =>
    unfold fitProgress
    grind [fitRegion_good, forgetEager_good, treat_good]

theorem fitPoint_good {s : State} (h : Good s) (kern : Nat) : Good (fitPoint s kern) := by
  unfold fitPoint
  split
  · exact h
  next k _ =>
    split
    · exact h
    next c _ =>
      have hf := fitProgress_good c kern k.regions (modKern_good h kern fun x => { x with state := .fitting })
      dsimp only
      split
      · exact endKernel_good hf ..
      · exact hf

theorem placeAllOn_good {s : State} (h : Good s) (kern core total : Nat) : Good (placeAllOn s kern core total) :=
  assignRots_good (foldl_good (fun _ lid hs => placeOne_good hs kern lid core) _ (modKern_good h ..)) kern

theorem coopFree_good (cores : List Nat) (kern total : Nat) (k : Kernel) {s : State} (h : Good s) :
    ∀ t, coopFree cores kern total k s = some t → Good t := by
  refine List.foldlRecOn (motive := fun acc : Option State => ∀ t,
    acc = some t → Good t) (List.range total) _ ?_ fun acc hacc lid _ => ?_
  · rintro _ ⟨⟩
    exact h
  · cases acc with
    | none => rintro _ ⟨⟩
    | some s =>
      intro t ht
      obtain ⟨c, -, rfl⟩ := Option.map_eq_some_iff.1 ht
      exact placeOne_good (hacc s rfl) ..

theorem coopEvict_good (cores : List Nat) (kern total : Nat) (k : Kernel) {s : State} (h : Good s) :
    ∀ r, coopEvict cores kern total k s = some r → Good r.2 := by
  have victims := fun (t : State) (ht : Good t) (L : List Nat) => foldl_good (f := fun s v => (evictOne s v).getD s)
    (fun _ v hs => evictOne_getD_good hs v) L ht
  unfold coopEvict
  extract_lets r
  have hr : ∀ x, r = some x → Good x.1 ∧ Good x.2.2 := by
    refine List.foldlRecOn
      (motive := fun acc : Option (State × List Nat × State) => ∀ x, acc = some x → Good x.1 ∧ Good x.2.2)
      (List.range total) _ ?_ fun acc hacc lid _ => ?_
    · rintro _ ⟨⟩
      exact ⟨h, h⟩
    · cases acc with
      | none => rintro _ ⟨⟩
      | some acc =>
        obtain ⟨plan, cs, real⟩ := acc
        obtain ⟨hplan, hreal⟩ := hacc _ rfl
        dsimp only
        split
        · rintro _ ⟨⟩
          exact ⟨placeOne_good hplan .., hreal⟩
        · intro x hx
          obtain ⟨⟨c, t⟩, ht, rfl⟩ := Option.map_eq_some_iff.1 hx
          obtain ⟨d, -, hd⟩ := List.exists_of_findSome?_eq_some ht
          obtain ⟨u, hu, he⟩ := Option.map_eq_some_iff.1 hd
          cases he
          exact ⟨placeOne_good (evictUntil_good _ _ _ _ hplan _ hu) .., victims _ hreal _⟩
  intro x hx
  obtain ⟨y, hy, rfl⟩ := Option.map_eq_some_iff.1 hx
  exact (hr y hy).2

theorem placePlan_good {s : State} (h : Good s) (kern : Nat) (k : Kernel) :
    ∀ t, placePlan s kern k = some t → Good t := by
  refine List.foldlRecOn (motive := fun acc : Option State => ∀ t, acc = some t → Good t)
    k.plan.zipIdx _ ?_ fun acc hacc x _ => ?_
  · rintro _ ⟨⟩
    exact modKern_good h ..
  · grind [placeOne_good]

theorem placePlan_getD_good {s u : State} (h : Good s) (kern : Nat) (k : Kernel) (hu : Good u) :
    Good ((placePlan s kern k).getD u) := by
  cases hp : placePlan s kern k with
  | none => exact hu
  | some t => exact placePlan_good h kern k t hp

theorem placeCoop_good {s : State} (h : Good s) (kern : Nat) (k : Kernel) (cores : List Nat) :
    Good (placeCoop s kern k cores) := by
  have plan := fun (s : State) (k : Kernel) (h : Good s) (u : State) (hu : Good u) => placePlan_getD_good h kern k hu
  have evict := fun cs t ht => coopEvict_good cores kern k.total k h (cs, t) ht
  grind [placeCoop, failKernel_good, modKern_good, coopFree_good]

theorem placeGrid_good {s : State} (h : Good s) (part kern : Nat) : ∀ t, placeGrid s part kern = some t → Good t := by
  have found := fun (k : Kernel) n => findCore_good h (allowedCores s k) k.pkt n k.prio
  grind [placeGrid, GoodFound, placeAllOn_good, failKernel_good, placeCoop_good, placeOne_good]

/-! ## Halts and the control window -/

theorem writeStop_good {s : State} (h : Good s) (c : Ctx) : Good (writeStop s c) := (writeStop_side ..).good h

theorem killGroups_good {s : State} (h : Good s) (c : Ctx) : Good (killGroups s c) := by
  refine foldl_good (fun s g hs => ?_) _ h
  split
  · exact hs
  · exact hs
  · exact dropSave_good (dropGroup_good hs ..) ..
  · exact hs

theorem failAll_good {s : State} (h : Good s) (c : Ctx) (code : Nat) : Good (failAll s c code) := by
  refine foldl_good (fun s i hs => ?_) _ h
  grind [stopKernel_good]

theorem haltWork_good {s : State} (h : Good s) (c : Ctx) (code : Nat) : Good (haltWork s c code) := by
  grind [haltWork, killGroups_good, failAll_good, good_iff, memOk_iff]

theorem raiseHalt_good {s : State} (h : Good s) (c : Ctx) (prim : FaultRec) (rest : List FaultRec) :
    Good (raiseHalt s c prim rest) := by
  unfold raiseHalt
  refine settleQueues_good ?_
  split
  · exact foldl_good (fun _ g hs => parkStart_good hs g true) _ (setCtx_good h _)
  · exact haltWork_good (setCtx_good h _) ..

theorem completeHalted_good {s : State} (h : Good s) (c : Ctx) : Good (completeHalted s c) := by
  refine foldl_good (fun s i hs => ?_) _ h
  grind [completeKernel_good]

theorem ctxQueues_good {s : State} (h : Good s) (c : Ctx) (x : QState) (err : Nat) : Good (ctxQueues s c x err) :=
  (ctxQueues_side ..).good h

theorem dropWork_good {s : State} (h : Good s) (c : Ctx) : Good (dropWork s c) := h

theorem cwDone_good {s : State} (h : Good s) (part r : Nat) : Good (cwDone s part r) := h

theorem ctxwWord_good {s : State} (h : Good s) (part v : Nat) : Good (ctxwWord s part v) := by
  grind [ctxwWord, cwDone_good, good_iff]

theorem retireCtx_good {s : State} (h : Good s) (c : Ctx) : Good (retireCtx s c) := by
  grind [retireCtx, ctxQueues_good, good_iff, memOk_iff]

end Sys2Proof.Machine
end

section
/-! PROOFS. Proofs/InvariantService.lean: peers, links, pages, trust, service and time keep the invariant. -/

namespace Sys2Proof.Machine

/-! ## Peers, dies and links -/

theorem answerPeer_good {s : State} (h : Good s) (r : PeerReq) (cls : Nat) (data : List Byte) (note : Nat) :
    Good (answerPeer s r cls data note) := h

theorem refusePeer_good {s : State} (h : Good s) (r : PeerReq) : Good (refusePeer s r) := h

theorem leaseRead_good {s : State} (h : Good s) (r : PeerReq) (off len : Nat) : Good (leaseRead s r off len) := by
  unfold leaseRead
  extract_lets t u live
  have hu : Good u := foldl_good (fun _ _ hs => homeShare_good hs ..) _ h
  exact answerPeer_good (s := { u with mem := _ }) hu ..

theorem peerReadAt_good {s : State} (h : Good s) (r : PeerReq) (off len : Nat) : Good (peerReadAt s r off len) := by
  grind [peerReadAt, answerPeer_good, leaseRead_good]

theorem peerDone_good {s : State} (h : Good s) (r : PeerReq) (cls : Nat) (data : List Byte) :
    Good (peerDone s r cls data) := by
  grind [peerDone, answerPeer_good]

theorem peerWriteAt_good {s : State} (h : Good s) (r : PeerReq) (off : Nat) (data : List Byte) :
    Good (peerWriteAt s r off data) := by
  grind [peerWriteAt, homeWrite_good, peerDone_good]

theorem peerAtomicAt_good {s : State} (h : Good s) (r : PeerReq) (op : AtOp) (sg : Bool) (off size : Nat)
    (opd cmp : Dbl) : Good (peerAtomicAt s r op sg off size opd cmp) := by
  grind [peerAtomicAt, homeWrite_good, peerDone_good]

theorem peerEnqAt_good {s : State} (h : Good s) (r : PeerReq) (off esize : Nat) (image : List Byte) :
    Good (peerEnqAt s r off esize image) := by
  grind [peerEnqAt, qPerform_good, peerDone_good, renameWriter_ok, good_iff]

theorem peerScatterAt_good {s : State} (h : Good s) (r : PeerReq) (off : Nat) (bs : List (Nat × Byte)) :
    Good (peerScatterAt s r off bs) :=
  peerDone_good (foldl_good (fun _ _ hs => homeWrite_good hs ..) _ h) ..

theorem peerPartial_good {s : State} (h : Good s) (r : PeerReq) (c : Ctx) (a : AccSlot) (w : Word) (elem : Nat)
    (label : Word) (value : Dbl) (replay : Bool) : Good (peerPartial s r c a w elem label value replay) := h

theorem peerPerform_good {s : State} (h : Good s) (r : PeerReq) : Good (peerPerform s r) := by
  grind [peerPerform, refusePeer_good, peerReadAt_good, peerWriteAt_good, peerAtomicAt_good, peerEnqAt_good,
    peerScatterAt_good, peerPartial_good]

theorem logOrphan_good {s : State} (h : Good s) (x : Orphan) : Good (logOrphan s x) := by
  grind [logOrphan, vaBytes_good, setCtx_good]

theorem removeAgent_good {s : State} (h : Good s) (a : Nat) : Good (removeAgent s a) := by
  have hd : GrainsOk ((s.mem.dir.map fun e => dirLeave e a).filter fun e => !dirEmpty s.sys.ptp e) :=
    (h.mem.grains.map fun e => dirLeave_grain e a).filter _
  refine foldl_good (fun s i hs => ?_) _ (h.setMem (h.mem.setDir hd))
  split
  · exact countAck_good hs ..
  · exact hs

theorem dropDie_good {s : State} (h : Good s) (die : Nat) : Good (dropDie s die) := by
  refine ⟨dropLines_ok h die, h.sys, h.gangs.map fun g hg => ?_⟩
  split
  · simpa using hg
  · exact hg

theorem loseDie_good {s : State} (h : Good s) (die : Nat) : Good (loseDie s die) := by
  unfold loseDie
  split
  · exact h
  · extract_lets listed hit orphans t u v
    have ht : Good t := foldl_good (fun _ _ hs => addFault_good hs _) _ h
    have hu : Good u := foldl_good (fun _ x hs => logOrphan_good hs x) _ ht
    have hv : Good v := removeAgent_good (dropDie_good hu die) die
    exact hv

theorem loseOp_good (dev : Nat) {s : State} (h : Good s) (o : MemOp) : Good (loseOp dev s o) := by
  grind [loseOp, opFault_good, noteLoss_good, good_iff, memOk_iff]

theorem loseCopy_good (dev : Nat) {s : State} (h : Good s) (c : Copy) : Good (loseCopy dev s c) := by
  grind [loseCopy, noteLoss_good, copyFault_good, good_iff]

theorem onLink_good {s : State} (h : Good s) (j : Nat) (f : Link → Option Link) : Good (onLink s j f) := by
  unfold onLink
  split
  · exact h
  · split
    · exact h
    · exact ⟨h.mem, ⟨h.sys.1, (modAt_length ..).trans h.sys.2⟩, h.gangs⟩

theorem reroute_good {s : State} (h : Good s) : Good (reroute s) := h

theorem shiftLink_good {s : State} (h : Good s) (j : Nat) (f : Link → Option Link) : Good (shiftLink s j f) := by
  grind [shiftLink, onLink_good, reroute_good]

theorem dieReplay_good {s : State} (h : Good s) (link flit : Nat) : Good (dieReplay s link flit) := by
  grind [dieReplay, loseDie_good, good_iff]

theorem quarantine_good {s : State} (h : Good s) (link : Nat) : Good (quarantine s link) := by
  grind [quarantine, shiftLink_good]

/-! ## The host port and its pages -/

theorem hostAnswer_good {s : State} (h : Good s) (fn : Nat) (bs : List Byte) : Good (hostAnswer s fn bs) := h

theorem hostHold_good {s : State} (h : Good s) (off : Nat) : Good (hostHold s off) := by
  grind [hostHold, homeShare_good, good_iff, memOk_iff]

theorem memoryRead_good {s : State} (h : Good s) (p : Partition) (vf offset len : Nat) :
    Good (memoryRead s p vf offset len) := by
  unfold memoryRead
  split
  · exact hostAnswer_good h ..
  · split
    · exact h
    · exact foldl_good (fun _ _ hs => hostHold_good hs _) _ (hostAnswer_good h ..)

theorem leaseWrite_good {s : State} (h : Good s) (v : Nat) : Good (leaseWrite s v) := by
  grind [leaseWrite, good_iff]

/-! ## Trust -/

theorem discardContexts_good {s : State} (h : Good s) (part : Nat) : Good (discardContexts s part) := by
  unfold discardContexts
  extract_lets ofPart gids t
  have ht : Good t := foldl_good (fun _ g hs => dropGroup_good hs g false) _ h
  exact ht

theorem partitionReset_good {s : State} (h : Good s) (p : Partition) : Good (partitionReset s p) := by
  grind [partitionReset, rekeyMem_ok, scrubDies_ok, good_iff]

theorem modPart_good {s : State} (h : Good s) (id : Nat) (f : Partition → Partition) : Good (modPart s id f) := h

theorem enterError_good {s : State} (h : Good s) (p : Partition) : Good (enterError s p) := by
  grind [enterError, discardContexts_good, modPart_good]

theorem setSpdm_good {s : State} (h : Good s) (x : Spdm) : Good (setSpdm s x) := h

/-! ## Service -/

theorem countUncorr_good {s : State} (h : Good s) (die n : Nat) : Good (countUncorr s die n) := h

theorem loseData_good {s : State} (h : Good s) (o : MemOp) (p : MemPart) (tier : MemTier) :
    Good (loseData s o p tier) := by
  grind [loseData, opFault_good, countUncorr_good, dropBlock_ok, good_iff]

theorem homeLoss_good {s : State} (h : Good s) (part cid die slice : Nat) (addr : Dbl) :
    Good (homeLoss s part cid die slice addr) := h

theorem lostBlock_good {s : State} (h : Good s) (b : L2Block) (cell : Nat) : Good (lostBlock s b cell) := h

theorem sliceLoss_good {s : State} (h : Good s) (gi k : Nat) (addr : Dbl) (ok : Gang → Bool) :
    Good (sliceLoss s gi k addr ok) := by
  unfold sliceLoss
  split
  · exact h
  next g hg =>
    have h8 := h.gangs _ (List.mem_of_getElem? hg)
    have hset := setGang_good (g := g.modSl k fun x => { x with stopped := true }) h gi (by simpa using h8)
    split
    · exact h
    · split
      · exact h
      · split
        · exact hset
        · exact h

theorem stackLoss_good {s : State} (h : Good s) (gi k : Nat) : Good (stackLoss s gi k) := by
  grind [stackLoss, sliceLoss_good]

theorem streamLoss_good {s : State} (h : Good s) (gid : Nat) (addr : Dbl) : Good (streamLoss s gid addr) := by
  grind [streamLoss, setGroup_good, countUncorr_good, addFault_good]

theorem copyLoss_good {s : State} (h : Good s) (c : Copy) (cell : Nat) : Good (copyLoss s c cell) := by
  grind [copyLoss, copyFault_good, countUncorr_good]

theorem partialLoss_good {s : State} (h : Good s) (p : Partial) : Good (partialLoss s p) := h

theorem trip_good {s : State} (h : Good s) : Good (trip s) := by
  have ht : Good ((s.ctl.parts.map Partition.id).foldl discardContexts s) :=
    foldl_good (fun _ p hs => discardContexts_good hs p) _ h
  exact ht

/-! ## The agents and time -/

theorem laneFetched_good {e : Iss} (h : IssOk e) : Good (laneFetched e) := h.1.setMem (icFill_ok h.1 ..)

theorem tileFetched_good {x : TIss} (h : Good x.s) (i : Instr) : Good (tileFetched x i) :=
  foldl_good (fun _ _ hs => hs.setMem (icFill_ok hs ..)) _ h

theorem tick_good (cycles ns : Nat) {s : State} (h : Good s) : Good (tick cycles ns s) := by
  grind [tick, expireLeases_good, good_iff]

theorem countStarved_good {s : State} (h : Good s) (rs cs : List Ready) : Good (countStarved s rs cs) := by
  refine h.setGangs (h.gangs.mapIdx fun i g hg => ?_)
  dsimp only
  split <;> exact hg

theorem plan_good {s : State} (h : Good s) : Good (plan s) := countStarved_good h ..

end Sys2Proof.Machine
end

section
/-! PROOFS. Proofs/InvariantInstructions.lean: lane instructions keep the invariant: each is an issue with a body
of one of a few shapes. -/

namespace Sys2Proof.Machine

/-! ## Operations in flight -/

theorem opsBody_ok {e : Iss} (h : IssOk e) (cls : Nat → Cls) {mem : Mem} (hm : mem.ok) (mk : Nat → Nat → Nat → MemOp) :
    EffOk (opsBody e cls mem mk) := by
  unfold opsBody
  extract_lets base ops g
  have hops : (ops.foldl noteParts { mem with ops := mem.ops ++ ops }).ok := .foldl (fun _ o ho => noteParts_ok ho o)
    ops hm
  exact ⟨h.1.setMem hops, by simp [g, h.2]⟩

/-! ## Issue of memory operations -/

theorem loadBody_ok {e : Iss} (h : IssOk e) (ps : List (MemPart × Nat)) (d : Byte) (m : Nat → Nat) :
    EffOk (loadBody e ps d m) := by
  unfold loadBody
  extract_lets r raw got
  obtain ⟨hst, hg⟩ : EffOk r := opsBody_ok h _ h.1.mem _
  exact ⟨hst.setMem (touchParts_ok hst.mem ..), hg⟩

theorem rmwBody_ok {e : Iss} (h : IssOk e) (cl : Cls) (ps : List (MemPart × Nat)) (kind : Nat → OpKind)
    (order : Nat → Nat) (d : Byte)
    (m : Nat → Nat) : EffOk (rmwBody e cl ps kind order d m) := opsBody_ok h _ (dropParts_ok h.1.mem ..) _

/-! ## Copies -/

theorem copyBody_ok {e : Iss} (h : IssOk e) (raw : Nat → Nat → Copy) (f : Nat → Nat → Except (FaultCode × Nat) Copy) :
    EffOk (copyBody e raw f) := by
  unfold copyBody
  extract_lets r base lanes t
  obtain ⟨hst, hg⟩ : EffOk r := opsBody_ok h _ h.1.mem _
  split <;> exact ⟨hst, hg⟩

/-! ## Traps, stops and control registers -/

theorem trapBody_ok {e : Iss} (h : IssOk e) (cause code : Nat) : EffOk (trapBody e cause code) := sliceBody_ok h _

/-! ## Floating-point shapes -/

theorem floatBody_ok {e : Iss} (h : IssOk e) (d : Byte) (w : Nat → Bool) (f : Nat → Nat × Conds) :
    EffOk (floatBody e d w f) :=
  resultBody_ok h ..

theorem advBody_ok {e : Iss} (h : IssOk e) {st : State} (hst : Good st) : EffOk { st := st, g := e.adv } :=
  ⟨hst, adv_ok h⟩

/-! ## Barriers -/

theorem execBinit_good {s : State} (h : Good s) (a b : BitVec 8) : GoodOut (execBinit a b s) := by
  refine issue_good h _ fun e he => ?_
  split
  · exact advBody_ok he he.1
  · exact advBody_ok he (barPut_good he ..)

theorem execBarr_good {s : State} (h : Good s) (d a : BitVec 8) (kind : BitVec 2) : GoodOut (execBarr d a kind s) := by
  refine issue_good h _ fun e he => ?_
  split
  · exact advBody_ok he he.1
  · exact ⟨updateAt_good he .., (resultBody_ok he ..).2⟩

theorem execBexp_good {s : State} (h : Good s) (a b : BitVec 8) : GoodOut (execBexp a b s) := by
  refine issue_good h _ fun e he => ?_
  split
  · exact advBody_ok he he.1
  · exact advBody_ok he (updateAt_good he ..)

theorem execBtest_good {s : State} (h : Good s) (d : BitVec 3) (a b : BitVec 8) : GoodOut (execBtest d a b s) := by
  refine issue_good h _ fun e he => ?_
  split
  · exact advBody_ok he he.1
  · exact predBody_ok he ..

theorem execNbarr_good {s : State} (h : Good s) (d a : BitVec 8) (kind : BitVec 2) (n : BitVec 4) :
    GoodOut (execNbarr d a kind n s) := by
  refine issue_good h _ fun e he => ?_
  split
  · exact advBody_ok he he.1
  · exact ⟨modNb_good he.1 .., (resultBody_ok he ..).2⟩

/-! ## Issue of memory operations -/

theorem loadInstr_good {s : State} (h : Good s) (k : Nat) (d a b : Byte) : GoodOut (loadInstr k d a b s) :=
  issue_good h _ fun _ he => loadBody_ok he ..

theorem storeInstr_good {s : State} (h : Good s) (k : Nat) (d a b : Byte) : GoodOut (storeInstr k d a b s) :=
  issue_good h _ fun _ he => opsBody_ok he _ (storeL1_ok he.1 ..) _

theorem execSld_good {s : State} (h : Good s) (d a b : Byte) : GoodOut (execSld d a b s) := by
  refine issue_good h _ fun e he => ?_
  extract_lets ps r mine os hit ops _ mem
  split
  · exact advBody_ok he he.1
  · obtain ⟨hst, hg⟩ : EffOk r := opsBody_ok he _ he.1.mem _
    have hm : Mem.ok mem := hst.mem
    refine ⟨hst.setMem ?_, hg⟩
    split
    · exact touchParts_ok hm ..
    · exact hm

theorem ldlInstr_good {s : State} (h : Good s) (k : Nat) (d a b : Byte) : GoodOut (ldlInstr k d a b s) :=
  issue_good h _ fun _ he => opsBody_ok he _ he.1.mem _

theorem stlInstr_good {s : State} (h : Good s) (k : Nat) (d a b : Byte) : GoodOut (stlInstr k d a b s) :=
  issue_good h _ fun _ he => opsBody_ok he _ he.1.mem _

theorem atlInstr_good {s : State} (h : Good s) (ok : Nat → Bool) (cas : Bool) (d a b : Byte) :
    GoodOut (atlInstr ok cas d a b s) :=
  issue_good h _ fun _ he => opsBody_ok he _ he.1.mem _

theorem atomic_good {s : State} (h : Good s) (op : AtOp) (ok : Nat → Bool) (d a b : Byte) :
    GoodOut (atomic op ok d a b s) :=
  issue_good h _ fun _ he => rmwBody_ok he ..

theorem execEvwait_good {s : State} (h : Good s) (a b : Byte) : GoodOut (execEvwait a b s) := by
  refine issue_good h _ fun e he => advBody_ok he
    (he.1.setMem (.foldl (fun m k hm => ?_) _ (.foldl (fun m l hm => ?_) _ he.1.mem)))
  · split
    · exact hm
    · exact acquireL1_ok hm ..
  · split
    · exact l1DropCells_ok hm ..
    · exact hm

theorem execFence_good {s : State} (h : Good s) : GoodOut (execFence s) := by
  refine issue_good h _ fun e he => advBody_ok he (he.1.setMem (.foldl (fun m k hm => ?_) _ he.1.mem))
  grind [stampFence_ok, acquireL1_ok]

theorem execInvr_good {s : State} (h : Good s) (a b : Byte) : GoodOut (execInvr a b s) := by
  refine issue_good h _ fun e he => advBody_ok he
    (he.1.setMem (.foldl (fun m l hm => .foldl (fun m p hm => ?_) _ hm) _ he.1.mem))
  dsimp only
  split
  · exact hm
  · exact l1Drop_ok hm _

theorem lockInstr_good {s : State} (h : Good s) (kind : OpKind) (cl : Cls) (need : Nat) (d a b : Byte) :
    GoodOut (lockInstr kind cl need d a b s) :=
  issue_good h _ fun _ he => opsBody_ok he _ he.1.mem _

theorem queueInstr_good {s : State} (h : Good s) (enq : Bool) (d a b : Byte) : GoodOut (queueInstr enq d a b s) :=
  issue_good h _ fun _ he => rmwBody_ok he ..

/-! ## The tree -/

theorem contribInstr_good {s : State} (h : Good s) (named : Bool) (d a b : Byte) :
    GoodOut (contribInstr named d a b s) := by
  refine issue_good h _ fun e he => ?_
  extract_lets base r ps
  obtain ⟨hst, hg⟩ : EffOk r := opsBody_ok he _ he.1.mem _
  exact ⟨hst, hg⟩

theorem execAccdrop_good {s : State} (h : Good s) (a : BitVec 8) : GoodOut (execAccdrop a s) := by
  refine issue_good h _ fun e he => ?_
  extract_lets r
  obtain ⟨hst, hg⟩ : EffOk r := opsBody_ok he _ he.1.mem _
  split <;> exact ⟨hst, hg⟩

/-! ## Regions -/

theorem execAxb_good {s : State} (h : Good s) (d a : BitVec 8) (i : BitVec 6) : GoodOut (execAxb d a i s) := by
  refine issue_good h _ fun e he => ?_
  extract_lets r ds lane w yh uses cls res st opened
  obtain ⟨hst, hg⟩ : EffOk res := opsBody_ok he _ he.1.mem _
  exact ⟨hst, by simpa using hg⟩

/-! ## Traps, stops and control registers -/

theorem execBrk_good {s : State} (h : Good s) (c : BitVec 8) : GoodOut (execBrk c s) := by
  refine issue_good h _ fun e he => ?_
  split
  · split
    · exact advBody_ok he (debugStopAt_good he _)
    · exact advBody_ok he he.1
  · exact trapBody_ok he ..

theorem csrwGang_slices (e : Iss) (n v k : Nat) (g : Gang) : (csrwGang e n v k g).slices.length = g.slices.length := by
  unfold csrwGang
  repeat' split
  all_goals simp

theorem execCsrw_good {s : State} (h : Good s) (d : BitVec 8) (n : BitVec 12) : GoodOut (execCsrw d n s) := by
  refine issue_good h _ fun e he => List.foldlRecOn (motive := EffOk) e.sls _ (advBody_ok he he.1) fun r hr k _ => ?_
  split
  · exact ⟨csrwState_good _ _ _ hr.1, (csrwGang_slices ..).trans hr.2⟩
  · exact hr

/-! ## Control flow -/

theorem execExit_good {s : State} (h : Good s) : GoodOut (execExit s) := by
  refine issue_good h _ fun e he => ?_
  obtain ⟨hst, hg⟩ := sliceBody_ok he fun k x => exitSlice (e.act k) x
  exact ⟨hst, hg⟩

theorem execVote_good {s : State} (h : Good s) (d : BitVec 8) (a : BitVec 3) (sub : BitVec 2) :
    GoodOut (execVote d a sub s) := by
  refine issue_good h _ fun e he => ?_
  grind [resultBody_ok, predBody_ok]

/-! ## Integer shapes -/

theorem arith3_good {s : State} (h : Good s) (ty : Nat → Bool) (d a b : Byte)
    (f : (t : Nat) → (m : BitVec 24) → Nat → Nat → Nat → Nat) : GoodOut (arith3 s ty d a b f) :=
  issue_good h _ fun _ he => resultBody_ok he ..

theorem arith2_good {s : State} (h : Good s) (ty : Nat → Bool) (d a : Byte)
    (f : (t : Nat) → (m : BitVec 24) → Nat → Nat) : GoodOut (arith2 s ty d a f) :=
  issue_good h _ fun _ he => resultBody_ok he ..

theorem arithB_good {s : State} (h : Good s) (ty : Nat → Bool) (d a b : Byte) (f : (t : Nat) → Nat → Nat → Nat → Nat) :
    GoodOut (arithB s ty d a b f) :=
  issue_good h _ fun _ he => resultBody_ok he ..

theorem countShape_good {s : State} (h : Good s) (d a : Byte) (f : (w x : Nat) → Nat) : GoodOut (countShape d a s f) :=
  issue_good h _ fun _ he => resultBody_ok he ..

theorem shuffle_good {s : State} (h : Good s) (d a : Byte) (src : Nat → Option Nat) : GoodOut (shuffle d a s src) :=
  issue_good h _ fun _ he => resultBody_ok he ..

/-! ## Floating-point shapes -/

theorem float3_good {s : State} (h : Good s) (ty : Nat → Bool) (rounds : Bool) (d a b : Byte)
    (f : Fmt → Nat → Bool → Nat → Nat → Nat → Nat × Conds) : GoodOut (float3 s ty rounds d a b f) :=
  issue_good h _ fun _ he => floatBody_ok he ..

theorem float2_good {s : State} (h : Good s) (ty : Nat → Bool) (rounds : Bool) (d a : Byte)
    (f : Fmt → Nat → Bool → Nat → Nat × Conds) : GoodOut (float2 s ty rounds d a f) :=
  issue_good h _ fun _ he => floatBody_ok he ..

/-! ## Predicates and uniform registers -/

theorem predOp_good {s : State} (h : Good s) (d a b : BitVec 3) (f : Bool → Bool → Bool) : GoodOut (predOp d a b s f) :=
  issue_good h _ fun _ he => predBody_ok he ..

theorem execV2p_good {s : State} (h : Good s) (d : BitVec 3) (a : Byte) (sub : BitVec 1) :
    GoodOut (execV2p d a sub s) := by
  refine issue_good h _ fun e he => ?_
  split
  · exact predBody_ok he ..
  · exact advBody_ok he he.1

theorem uniOp_good {s : State} (h : Good s) (d a b : Byte) (ok : Nat → Bool) (f : (t x y : Nat) → Nat) :
    GoodOut (uniOp d a b s ok f) :=
  issue_good h _ fun _ he => uniBody_ok he ..

end Sys2Proof.Machine
end

section
/-! PROOFS. Proofs/InvariantEvents.lean: words of the matrix sequencer and events keep the invariant. -/

namespace Sys2Proof.Machine

/-! ## The matrix sequencer -/

theorem tIssue_good {s : State} (h : Good s) (j : TIss → TJudge) (b : TIss → Group) : GoodOut (tIssue s j b) := by
  unfold tIssue
  split
  · exact h
  next x hx =>
    have hs : Good x.s := by
      rw [(tissOf_s hx).1]
      exact h
    split
    · exact h
    · exact tRaise_good hs ..
    · exact hs

/-! ## Fills, requests at homes, invalidations -/

theorem execHomeRead_good {s : State} (h : Good s) (op part : Nat) : GoodOut (execHomeRead op part s) := by
  grind [execHomeRead, readRange_good, raiseClock_ok, goodOut_next, good_iff]

theorem execFillComplete_good {s : State} (h : Good s) (op frame : Nat) : GoodOut (execFillComplete op frame s) := by
  have recalled := fun (o : MemOp) (p0 : MemPart) => foldl_good
    (f := fun s i => homeRecall s none (frameOf (paOff p0.pa) * 512 + 32 * i) 32)
    (fun _ i hs => homeRecall_good hs none (frameOf (paOff p0.pa) * 512 + 32 * i) 32)
      (cellsOf (requestParts s.mem o frame) frame) h
  unfold execFillComplete
  split
  · exact h
  next o _ =>
    dsimp only
    split
    next p0 _ _ _ =>
      split
      · split
        · exact opFault_good h ..
        · split
          · rw [goodOut_next]
            split
            · exact peerRead_good h ..
            · exact h
          · split
            · exact h
            · exact fillFrame_good (peerFill_good (ackReq_good h ..) ..) ..
      · refine fillFrame_good ?_ ..
        split
        · exact recalled o p0
        · exact h
    · exact h

theorem execHomeOwn_good {s : State} (h : Good s) (op part : Nat) : GoodOut (execHomeOwn op part s) := by
  have hm := fun off size => growRecall_ok h.mem off size
  have he := fun off size => dirGrow_ok (hm off size).grains off size
  have hd := fun off size a => dirPut_ok (now := s.sys.ptp)
    (e := { dirGrow (growRecall s.mem off size).dir off size with
    coarse := false, vec := 0, ptrs := [a], owned := true }) (hm off size).grains (he off size)
  unfold execHomeOwn
  split
  · exact h
  · split
    · exact h
    next o _ _ p _ =>
      dsimp only
      split
      · split
        · exact opFault_good h ..
        · split
          · exact trimL2_good (ackWrite_good (h.setMem (storeAtSlice_ok ((hm _ _).setDir (hd _ _ _)) ..)) ..) ..
          · exact openTxn_good (h.setMem (hm _ _)) (he _ _) ..
      · exact h

theorem execHomeWrite_good {s : State} (h : Good s) (op part : Nat) : GoodOut (execHomeWrite op part s) := by
  grind [execHomeWrite, homeWriteCell_good, opFault_good, ackWrite_good, markPart_ok, goodOut_next, good_iff]

theorem execInvalidate_good {s : State} (h : Good s) (txn agent : Nat) : GoodOut (execInvalidate txn agent s) := by
  grind [execInvalidate, dropAbove_good, l2Remove_ok, goodOut_next, good_iff, memOk_iff]

theorem execInvalidateAck_good {s : State} (h : Good s) (txn agent : Nat) :
    GoodOut (execInvalidateAck txn agent s) := by
  grind [execInvalidateAck, countAck_good, goodOut_next, good_iff, memOk_iff]

theorem execHorizonReached_good {s : State} (h : Good s) (txn : Nat) : GoodOut (execHorizonReached txn s) := by
  grind [execHorizonReached, countAck_good, goodOut_next]

theorem noticeAtHome_good {s : State} (h : Good s) (wback : Bool) (notice : Nat) :
    GoodOut (noticeAtHome wback notice s) := by
  have leave := fun (m : Mem) (hm : m.ok) (n : Notice) (e : DirEntry) (he : dirFind m.dir n.grain = some e) =>
    hm.setDir (dirPut_ok (now := s.sys.ptp) hm.grains
      (dirLeave_ok (hm.grains e (List.mem_of_find?_eq_some he)) n.agent))
  unfold noticeAtHome
  split
  · exact h
  next n _ =>
    split
    · exact h
    · extract_lets on crossed _ m0 m
      have ok : m.ok := mergeBytes_ok (m := m0) h.mem ..
      split
      · exact h
      · split
        · exact h.setMem ok
        · split
          · exact h.setMem ok
          next e he => exact h.setMem (leave m ok n e he)

theorem execRmwAtHome_good {s : State} (h : Good s) (op part : Nat) : GoodOut (execRmwAtHome op part s) := by
  grind [execRmwAtHome, opFault_good, ackWrite_good, rmwGroup_good, rmwPeer_good, lostPart_good, goodOut_next, good_iff]

/-! ## The tree -/

theorem execAccdropAtHome_good {s : State} (h : Good s) (part ctx slot home : Nat) :
    GoodOut (execAccdropAtHome part ctx slot home s) := by
  grind [execAccdropAtHome, goodOut_next, good_iff]

theorem execPartialAtBuffer_good {s : State} (h : Good s) (p : Nat) : GoodOut (execPartialAtBuffer p s) := by
  unfold execPartialAtBuffer
  split
  · exact h
  next x _ =>
    split
    · exact h
    · dsimp only
      split
      · exact h
      · split <;> exact h

theorem execPartialForwardTimeout_good {s : State} (h : Good s) (held : Nat) :
    GoodOut (execPartialForwardTimeout held s) := by
  unfold execPartialForwardTimeout
  split
  · exact h
  next x _ =>
    split
    · exact h
    · dsimp only
      split
      · split <;> exact h
      · split <;> exact h
      · exact h

theorem execPartialAtHome_good {s : State} (h : Good s) (p : Nat) : GoodOut (execPartialAtHome p s) := by
  unfold execPartialAtHome
  split
  · exact h
  next x _ =>
    split
    · exact h
    · extract_lets a pa home _ rest
      have hr : Good rest := h
      split
      · rw [goodOut_next]
        split
        · exact homeSequence_good hr ..
        · exact h
      · rw [goodOut_next]
        split
        · exact h
        · exact rootEvent_good hr ..
      · exact h

/-! ## Copies -/

theorem execCopyEntryAssign_good {s : State} (h : Good s) (core : Nat) : GoodOut (execCopyEntryAssign core s) := by
  grind [execCopyEntryAssign, copyAccepted_good, goodOut_next, good_iff]

theorem execCopyCellLand_good {s : State} (h : Good s) (copy cell : Nat) : GoodOut (execCopyCellLand copy cell s) := by
  grind [execCopyCellLand, copyIn_good, copyOut_good, goodOut_next]

theorem execCopycRowRead_good {s : State} (h : Good s) (copy : Nat) : GoodOut (execCopycRowRead copy s) := by
  grind [execCopycRowRead, copyCount_good, goodOut_next, good_iff]

/-! ## Queues and the enqueue windows -/

theorem execQueueOpAtHome_good {s : State} (h : Good s) (op part : Nat) : GoodOut (execQueueOpAtHome op part s) := by
  unfold execQueueOpAtHome
  split
  · exact h
  next o _ =>
    split
    · dsimp only
      split
      · exact h
      · split
        · exact lostPart_good h ..
        · split
          · exact h
          · exact foldl_good (fun _ x hs => qLane_good hs x.1 x.2 _) _ h
    · exact h

theorem hewCmd_good {s : State} (h : Good s) (part w cmd ctx : Nat) {f : State → Partition → Xl → State}
    (hf : ∀ {t}, Good t → ∀ p x, Good (f t p x)) : GoodOut (hewCmd s part w cmd ctx f) := by
  have hf := fun leaf pa p x => hf (t := hubHold s leaf pa) (hubHold_good h ..) p x
  grind [hewCmd, hewDone_good, goodOut_next]

theorem execHewEnq_good {s : State} (h : Good s) (part win ctx : Nat) : GoodOut (execHewEnq part win ctx s) := by
  refine hewCmd_good h _ _ _ _ fun {t} ht p x => ?_
  have hq : Good (qPerform t .nobody x.pa true none (smRun (hewOf p win).entry 0 256) false).1 := qPerform_good ht ..
  exact hewDone_good hq ..

theorem execHewDeq_good {s : State} (h : Good s) (part win ctx : Nat) : GoodOut (execHewDeq part win ctx s) := by
  refine hewCmd_good h _ _ _ _ fun {t} ht p x => ?_
  have hq : Good (qPerform t .nobody x.pa false none [] false).1 := qPerform_good ht ..
  exact hewDone_good (modHew_good hq ..) ..

theorem execHewBind_good {s : State} (h : Good s) (part win ctx : Nat) : GoodOut (execHewBind part win ctx s) := by
  grind [execHewBind, qBind_good, hewDone_good, goodOut_next]

theorem execHewDrain_good {s : State} (h : Good s) (part win ctx : Nat) : GoodOut (execHewDrain part win ctx s) := by
  refine hewCmd_good h _ _ _ _ fun ht _ _ => ?_
  grind [hewDone_good, settleQueues_good, setQState_good]

theorem execHewReset_good {s : State} (h : Good s) (part win ctx : Nat) : GoodOut (execHewReset part win ctx s) := by
  refine hewCmd_good h _ _ _ _ fun ht _ _ => ?_
  grind [hewDone_good, setQState_good]

/-! ## Regions -/

theorem execSampleAtHome_good {s : State} (h : Good s) (sample : Nat) : GoodOut (execSampleAtHome sample s) := by
  grind [execSampleAtHome, insertSample_good, checkSample_good, goodOut_next, good_iff]

theorem execEagerHitNotify_good {s : State} (h : Good s) (core part ctx region : Nat) :
    GoodOut (execEagerHitNotify core part ctx region s) := by
  grind [execEagerHitNotify, goodOut_next, good_iff]

/-! ## The ends of operations -/

theorem execLoadComplete_good {s : State} (h : Good s) (op : Nat) : GoodOut (execLoadComplete op s) := by
  grind [execLoadComplete, retireOp_good, atlIssue_good, lockIssue_good, landLoad_good, landValue_good,
    landUniform_good, drawAnswers_good, deqWindow_good, armDo_good, onOp_good, goodOut_next]

theorem execStoreAck_good {s : State} (h : Good s) (op : Nat) : GoodOut (execStoreAck op s) := by
  have out := fun (o : MemOp) (t : State) (ht : Good t) => foldl_good (fun t i hs => storeOutPart_good hs op i)
    (List.range o.parts.length) ht
  have retire := fun (t : State) (ht : Good t) => onOp_good ht op fun {t} ht o => retireOp_good ht o
  have dropped := fun (o : MemOp) (b : Bool) => show GoodOut (.next (if b then retireOp s o else s)) by
    cases b
    · exact h
    · exact retireOp_good h o
  unfold execStoreAck
  split
  · grind [ackReq_good, goodOut_next]
  next o _ =>
    dsimp only
    split
    · exact h
    · split
      · exact endStore_good (out o _ (ackSent_good h ..)) op
      · exact endStore_good (pstoreAck_good h o) op
      · exact endStore_good (ackSent_good h ..) op
      · exact endStore_good (contribSend_good (ackSent_good h ..) op) op
      · rw [goodOut_next]
        split
        · exact retireOp_good (stlDo_good h o) o
        · exact h
      · split
        · refine retire _ ?_
          split
          · exact h
          · exact atlIssue_good h ..
        · exact h
      · split
        · rw [goodOut_next]
          split
          · exact retireOp_good (flushDo_good h o) o
          · exact h
        · rw [goodOut_next]
          split
          · exact h
          · exact retireOp_good h o
      · exact retireOp_good (unlockDo_good h o) o
      · exact dropped o _
      · split
        · rw [goodOut_next]
          split
          · exact h
          · exact retireOp_good h o
        · split
          · exact retireOp_good (setInvPending_good h ..) o
          · exact retireOp_good h o
      all_goals exact h

theorem execFitAnswer_good {s : State} (h : Good s) (op : Nat) : GoodOut (execFitAnswer op s) := by
  grind [execFitAnswer, retireOp_good, landValue_good, goodOut_next]

theorem execLeaseExpiry_good {s : State} (h : Good s) (die frame : Nat) : GoodOut (execLeaseExpiry die frame s) := by
  grind [execLeaseExpiry, expireFrame_good, goodOut_next]

theorem execDirectorySweep_good {s : State} (h : Good s) (die slice : Nat) :
    GoodOut (execDirectorySweep die slice s) := by
  refine h.setMem (h.mem.setDir ((h.mem.grains.map fun e => ?_).filter _))
  split <;> exact ⟨rfl, rfl⟩

theorem execPageWalk_good {s : State} (h : Good s) (part ctx die : Nat) (va : Dbl) :
    GoodOut (execPageWalk part ctx die va s) := by
  unfold execPageWalk
  split
  · exact h
  · split
    · split
      · exact h
      · dsimp only
        split <;> exact h
    · exact h

/-! ## The matrix sequencer -/

theorem execTldb_good {s : State} (h : Good s) (a b ts : BitVec 4) (f : BitVec 2) : GoodOut (execTldb a b ts f s) := by
  grind [execTldb, tIssue_good]

theorem execTlds_good {s : State} (h : Good s) (a b ts : BitVec 4) : GoodOut (execTlds a b ts s) := by
  grind [execTlds, tIssue_good]

theorem mmIssue_good {s : State} (h : Good s) (args : TIss → MmArgs) : GoodOut (mmIssue args s) := tIssue_good h ..

/-! ## Groups -/

theorem execGroupParked_good {s : State} (h : Good s) (group : Nat) : GoodOut (execGroupParked group s) := by
  unfold execGroupParked
  split
  · exact h
  next grp _ =>
    split
    · exact h
    next k _ =>
      split
      · exact h
      next c _ =>
        split
        · exact h
        · have ht := takeSave_good (parkAreas_good h grp k.part) group k
          dsimp only
          split
          · exact h
          · refine settleQueues_good (afterDepart_good ?_ ..)
            have hu := saveRecord_good (spillAll_good ht grp k.part)
            exact hu ..

theorem execGroupDone_good {s : State} (h : Good s) (group : Nat) : GoodOut (execGroupDone group s) := by
  grind [execGroupDone, settleQueues_good, afterDepart_good, releaseAreas_good, releasePins_good, afterDone_good,
    dropLocals_ok, goodOut_next, good_iff]

theorem execGroupRequeue_good {s : State} (h : Good s) (group : Nat) : GoodOut (execGroupRequeue group s) := by
  grind [execGroupRequeue, goodOut_next, good_iff]

theorem execGangStarved_good {s : State} (h : Good s) (gang : Nat) : GoodOut (execGangStarved gang s) := by
  grind [execGangStarved, goodOut_next, good_iff]

theorem execTurnPass_good {s : State} (h : Good s) (k : Nat) : GoodOut (execTurnPass k s) := by
  grind [execTurnPass, passTurn_good, goodOut_next]

/-! ## Packets, grids and kernels -/

theorem execDispatcherTake_good {s : State} (h : Good s) : GoodOut (execDispatcherTake s) := by
  grind [execDispatcherTake, setQState_good, hubReads_good, hubHead_good, takePacket_good, goodOut_next]

theorem execDependencyPoll_good {s : State} (h : Good s) (queue : Nat) : GoodOut (execDependencyPoll queue s) := by
  grind [execDependencyPoll, setQState_good, hubReads_good, hubHead_good, goodOut_next]

theorem packetAct_good {s : State} (h : Good s) (kind k : Nat) {f : Kernel → Ctx → State} (hf : ∀ kn c, Good (f kn c)) :
    GoodOut (packetAct kind k s f) := by
  unfold packetAct
  split
  · exact h
  next kn _ =>
    split
    · exact h
    next c _ =>
      split
      · exact hf kn c
      · exact h

theorem execPinPacket_good {s : State} (h : Good s) (k : Nat) : GoodOut (execPinPacket k s) := by
  refine packetAct_good h _ _ fun kn c => ?_
  grind [endKernel_good, loadPinned_good, setCtx_good]

theorem execPolicyPacket_good {s : State} (h : Good s) (k : Nat) : GoodOut (execPolicyPacket k s) := by
  refine packetAct_good h _ _ fun kn c => ?_
  split
  · exact h
  · dsimp only
    refine endKernel_good ?_ ..
    split
    · exact vaBytes_good h ..
    · refine closeFacilities_good ?_ ..
      have ht := vaBytes_good h c
      exact ht ..

theorem execFitsyncPacket_good {s : State} (h : Good s) (k : Nat) : GoodOut (execFitsyncPacket k s) :=
  packetAct_good h _ _ fun _ _ => fitPoint_good (advanceHead_good h k) k

theorem execFitTrainingDone_good {s : State} (h : Good s) (part ctx region : Nat) :
    GoodOut (execFitTrainingDone part ctx region s) := by
  grind [execFitTrainingDone, trainRegion_good, fitPoint_good, goodOut_next]

theorem execLaunchPacket_good {s : State} (h : Good s) (k : Nat) : GoodOut (execLaunchPacket k s) := by
  refine packetAct_good h _ _ fun kn c => ?_
  grind [modKern_good, failKernel_good, loadPinned_good, setCtx_good, hostPut_good]

theorem execGridAccept_good {s : State} (h : Good s) (k : Nat) : GoodOut (execGridAccept k s) := by
  grind [execGridAccept, modKern_good, advanceHead_good, failKernel_good, goodOut_next, good_iff]

theorem execGroupRestore_good {s : State} (h : Good s) (group : Nat) : GoodOut (execGroupRestore group s) := by
  unfold execGroupRestore
  split
  · exact h
  · split
    · exact h
    next k _ =>
      split
      · exact h
      · split
        · exact h
        · have found := findCore_good h (allowedCores s k) k.pkt 1 k.prio
          split
          next hf =>
            rw [hf] at found
            exact settleQueues_good (restoreOn_good found ..)
          next hf =>
            rw [hf] at found
            exact found
          · exact h

theorem execGroupPlace_good {s : State} (h : Good s) (part : Nat) : GoodOut (execGroupPlace part s) := by
  unfold execGroupPlace
  split
  next t ht =>
    obtain ⟨k, -, hk⟩ := List.exists_of_findSome?_eq_some ht
    exact settleQueues_good (placeGrid_good h part k t hk)
  · exact h

theorem execKernelRetire_good {s : State} (h : Good s) (k : Nat) : GoodOut (execKernelRetire k s) := by
  grind [execKernelRetire, settleQueues_good, modKern_good, doneAdd_good, fitPoint_good, goodOut_next]

theorem execWatchdog_good {s : State} (h : Good s) (k : Nat) : GoodOut (execWatchdog k s) := by
  grind [execWatchdog, addFault_good, goodOut_next]

/-! ## Halts and the control window -/

theorem execFaultAtHub_good {s : State} (h : Good s) (part ctx : Nat) : GoodOut (execFaultAtHub part ctx s) := by
  grind [execFaultAtHub, setCtx_good, writeStop_good, raiseHalt_good, goodOut_next, good_iff]

theorem execContextStopped_good {s : State} (h : Good s) (part ctx : Nat) :
    GoodOut (execContextStopped part ctx s) := by
  grind [execContextStopped, settleQueues_good, setCtx_good, writeStop_good, completeHalted_good, ctxQueues_good,
    dropWork_good, goodOut_next]

theorem ctxCmd_good {s : State} (h : Good s) (cmd part cid : Nat) {f : Partition → Option Ctx → Except Nat State}
    (hf : ∀ p c t, f p c = .ok t → Good t) : GoodOut (ctxCmd cmd part cid s f) := by
  unfold ctxCmd
  split
  · exact h
  next p _ =>
    split
    · exact h
    · split
      · exact cwDone_good h ..
      next t ht => exact cwDone_good (hf p _ t ht) ..

theorem execCtxBuild_good {s : State} (h : Good s) (part ctx : Nat) : GoodOut (execCtxBuild part ctx s) := by
  refine ctxCmd_good h _ _ _ fun p c t ht => ?_
  grind [good_iff]

theorem execCtxEnable_good {s : State} (h : Good s) (part ctx : Nat) : GoodOut (execCtxEnable part ctx s) := by
  refine ctxCmd_good h _ _ _ fun p c t ht => ?_
  grind [settleQueues_good, setCtx_good]

theorem execCtxPark_good {s : State} (h : Good s) (part ctx : Nat) : GoodOut (execCtxPark part ctx s) := by
  refine ctxCmd_good h _ _ _ fun p c t ht => ?_
  have park := fun L => foldl_good (fun s g hs => parkStart_good hs g false) L h
  grind [settleQueues_good, setCtx_good]

theorem execCtxResume_good {s : State} (h : Good s) (part ctx : Nat) : GoodOut (execCtxResume part ctx s) := by
  refine ctxCmd_good h _ _ _ fun p c t ht => ?_
  grind [settleQueues_good, setCtx_good]

theorem execCtxDstop_good {s : State} (h : Good s) (part ctx : Nat) : GoodOut (execCtxDstop part ctx s) := by
  refine ctxCmd_good h _ _ _ fun p c t ht => ?_
  grind [raiseHalt_good]

theorem execCtxHalt_good {s : State} (h : Good s) (part ctx : Nat) : GoodOut (execCtxHalt part ctx s) := by
  refine ctxCmd_good h _ _ _ fun p c t ht => ?_
  grind [raiseHalt_good]

theorem execCtxRetire_good {s : State} (h : Good s) (part ctx : Nat) : GoodOut (execCtxRetire part ctx s) := by
  refine ctxCmd_good h _ _ _ fun p c t ht => ?_
  grind [retireCtx_good]

theorem execCtxRelease_good {s : State} (h : Good s) (part ctx : Nat) : GoodOut (execCtxRelease part ctx s) := by
  refine ctxCmd_good h _ _ _ fun p c t ht => ?_
  grind [good_iff]

/-! ## Peers, dies and links -/

theorem execPeerRequest_good {s : State} (h : Good s) (r : PeerReq) : GoodOut (execPeerRequest r s) := by
  grind [execPeerRequest, peerPerform_good, goodOut_next]

theorem execRefused_good {s : State} (h : Good s) (op : Nat) : GoodOut (execRefused op s) := by
  grind [execRefused, ackReq_good, opFault_good, copyFault_good, goodOut_next]

theorem execDieLost_good {s : State} (h : Good s) (die : Nat) : GoodOut (execDieLost die s) := by
  grind [execDieLost, loseDie_good, goodOut_next]

theorem execPeerLost_good {s : State} (h : Good s) (dev : Nat) : GoodOut (execPeerLost dev s) := by
  unfold execPeerLost
  split
  · exact h
  · extract_lets t u m
    have ht : Good t := foldl_good (fun _ o hs => loseOp_good dev hs o) _ h
    have hu : Good u := foldl_good (fun _ c hs => loseCopy_good dev hs c) _ ht
    exact ⟨expirePeer_ok hu dev, hu.sys, hu.gangs⟩

theorem execPeerReadmission_good {s : State} (h : Good s) (dev : Nat) : GoodOut (execPeerReadmission dev s) := by
  grind [execPeerReadmission, goodOut_next, good_iff]

theorem execLinkEnable_good {s : State} (h : Good s) (link : Nat) : GoodOut (execLinkEnable link s) := by
  grind [execLinkEnable, onLink_good, goodOut_next]

theorem execLinkTrained_good {s : State} (h : Good s) (link lanes farInc : Nat) :
    GoodOut (execLinkTrained link lanes farInc s) := by
  grind [execLinkTrained, shiftLink_good, goodOut_next, good_iff]

theorem execLinkTrainingFail_good {s : State} (h : Good s) (link : Nat) : GoodOut (execLinkTrainingFail link s) := by
  grind [execLinkTrainingFail, shiftLink_good, goodOut_next]

theorem execLaneFail_good {s : State} (h : Good s) (link working : Nat) : GoodOut (execLaneFail link working s) := by
  grind [execLaneFail, shiftLink_good, goodOut_next]

theorem execLinkRetrain_good {s : State} (h : Good s) (link : Nat) : GoodOut (execLinkRetrain link s) := by
  grind [execLinkRetrain, onLink_good, goodOut_next]

theorem execFlitCrcFail_good {s : State} (h : Good s) (flit : LinkFlit) : GoodOut (execFlitCrcFail flit s) := by
  grind [execFlitCrcFail, onLink_good, dieReplay_good, goodOut_next]

theorem execLinkDisable_good {s : State} (h : Good s) (link : Nat) : GoodOut (execLinkDisable link s) := by
  grind [execLinkDisable, onLink_good, goodOut_next]

theorem execLinkQuarantine_good {s : State} (h : Good s) (link : Nat) : GoodOut (execLinkQuarantine link s) := by
  grind [execLinkQuarantine, quarantine_good, goodOut_next]

theorem execGcmTagFail_good {s : State} (h : Good s) (link : Nat) : GoodOut (execGcmTagFail link s) := by
  grind [execGcmTagFail, quarantine_good, goodOut_next]

theorem execLinkRelease_good {s : State} (h : Good s) (link : Nat) : GoodOut (execLinkRelease link s) := by
  grind [execLinkRelease, onLink_good, goodOut_next]

theorem execStopGoSignal_good {s : State} (h : Good s) (link cls : Nat) (stop : Bool) :
    GoodOut (execStopGoSignal link cls stop s) := by
  grind [execStopGoSignal, onLink_good, goodOut_next]

/-! ## The host port and its pages -/

theorem execHostWrite_good {s : State} (h : Good s) (fn : HostFn) (offset : Nat) (data : List Byte) :
    GoodOut (execHostWrite fn offset data s) := by
  grind [execHostWrite, homeWrite_good, goodOut_next]

theorem execHostRead_good {s : State} (h : Good s) (bar : HostBar) (offset len : Nat) :
    GoodOut (execHostRead bar offset len s) := by
  cases bar with
  | memory fn =>
    unfold execHostRead
    dsimp only
    split
    · exact hostAnswer_good h ..
    · exact memoryRead_good h ..
  | control fn =>
    unfold execHostRead
    dsimp only
    split <;> exact hostAnswer_good h ..
  | management => exact hostAnswer_good h ..

theorem execDebugWindowAccess_good {s : State} (h : Good s) (part ctx : Nat) (addr : Dbl) (len : Nat)
    (data : Option (List Byte)) : GoodOut (execDebugWindowAccess part ctx addr len data s) := by
  grind [execDebugWindowAccess, vaBytes_good, hostAnswer_good, goodOut_next]

theorem execGuardNsWrite_good {s : State} (h : Good s) (value : Word) : GoodOut (execGuardNsWrite value s) := by
  grind [execGuardNsWrite, goodOut_next, good_iff]

theorem execDomIdWrite_good {s : State} (h : Good s) (value : Word) : GoodOut (execDomIdWrite value s) := by
  grind [execDomIdWrite, goodOut_next, good_iff]

theorem execRegisterWrite_good {s : State} (h : Good s) (reg : PlainReg) (value : Dbl) :
    GoodOut (execRegisterWrite reg value s) := by
  cases reg with
  | ctxwCmd part => exact ctxwWord_good h ..
  | hewCmd part win => exact hewWord_good h ..
  | leaseNs => exact leaseWrite_good h _
  | _ => exact h

/-! ## Trust -/

theorem execScrubComplete_good {s : State} (h : Good s) (die : Nat) : GoodOut (execScrubComplete die s) := by
  grind [execScrubComplete, goodOut_next, good_iff]

theorem execLockInterfaceRequest_good {s : State} (h : Good s) (fn : Nat) :
    GoodOut (execLockInterfaceRequest fn s) := by
  grind [execLockInterfaceRequest, partitionReset_good, modPart_good, goodOut_next]

theorem execBindPolicyKey_good {s : State} (h : Good s) (fn key : Nat) : GoodOut (execBindPolicyKey fn key s) := by
  grind [execBindPolicyKey, modPart_good, goodOut_next]

theorem execStartInterfaceRequest_good {s : State} (h : Good s) (fn : Nat) :
    GoodOut (execStartInterfaceRequest fn s) := by
  grind [execStartInterfaceRequest, modPart_good, goodOut_next]

theorem execStopInterfaceRequest_good {s : State} (h : Good s) (fn : Nat) :
    GoodOut (execStopInterfaceRequest fn s) := by
  grind [execStopInterfaceRequest, partitionReset_good, modPart_good, enterError_good, goodOut_next]

theorem execIdeIntegrityFailure_good {s : State} (h : Good s) (fn : Nat) : GoodOut (execIdeIntegrityFailure fn s) := by
  grind [execIdeIntegrityFailure, enterError_good, goodOut_next]

theorem execChangePartition_good {s : State} (h : Good s) (fn part : Nat) (dies : List Nat)
    (reserved : List (Nat × Nat)) : GoodOut (execChangePartition fn part dies reserved s) := by
  grind [execChangePartition, modPart_good, enterError_good, goodOut_next, good_iff]

theorem execIdeKeyManagement_good {s : State} (h : Good s) (fn stream key : Nat) :
    GoodOut (execIdeKeyManagement fn stream key s) := by
  grind [execIdeKeyManagement, modPart_good, goodOut_next]

theorem spdmDo_good {s : State} (h : Good s) (fn : Nat) (f : Spdm → Option Spdm) : GoodOut (spdmDo s fn f) := by
  grind [spdmDo, setSpdm_good, goodOut_next]

theorem execKeyExchange_good {s : State} (h : Good s) (fn share : Nat) : GoodOut (execKeyExchange fn share s) := by
  grind [execKeyExchange, spdmDo_good, good_iff]

theorem execKeyUpdate_good {s : State} (h : Good s) (target : KeyTarget) : GoodOut (execKeyUpdate target s) := by
  cases target with
  | session fn =>
    unfold execKeyUpdate
    refine spdmDo_good ?_ ..
    exact h
  | link l => exact onLink_good (s := { s with sys := { s.sys with draws := s.sys.draws + 1 } }) h ..

theorem execModuleReset_good {s : State} (h : Good s) : GoodOut (execModuleReset s) := by
  have hs : (511 : Nat) < 512 ∧ (List.replicate 24 ({} : Link)).length = 24 := by decide
  exact ⟨⟨h.mem.1, h.mem.2.1, h.mem.2.2.1, List.forall_mem_nil _⟩, hs, List.forall_mem_nil _⟩

theorem execFullModuleTrainingComplete_good {s : State} (h : Good s) : GoodOut (execFullModuleTrainingComplete s) := by
  grind [execFullModuleTrainingComplete, goodOut_next, good_iff]

/-! ## Service -/

theorem execCorrectedError_good {s : State} (h : Good s) (die : Nat) : GoodOut (execCorrectedError die s) := by
  grind [execCorrectedError, goodOut_next, good_iff]

theorem execPatrolScrub_good {s : State} (h : Good s) (die corrected uncorrected : Nat) :
    GoodOut (execPatrolScrub die corrected uncorrected s) := by
  grind [execPatrolScrub, goodOut_next, good_iff]

theorem execUncorrectableError_good {s : State} (h : Good s) (site : ErrSite) :
    GoodOut (execUncorrectableError site s) := by
  have lose := fun (op part : Nat) (tier : MemTier) => onOp_good h op (f := fun s o => match o.parts[part]? with
    | some p => loseData s o p tier
    | none => s) fun ht o => by
      split
      · exact loseData_good ht ..
      · exact ht
  cases site with
  | loadData op part tier => exact lose op part tier
  | stackEntry gang slice => exact stackLoss_good h ..
  | sliceData gang slice addr => exact sliceLoss_good h ..
  | streamData group addr => exact streamLoss_good h ..
  | _ => grind [execUncorrectableError, lostBlock_good, copyLoss_good, homeLoss_good, partialLoss_good,
    countUncorr_good, loseDie_good, goodOut_next]

theorem execThrottle_good {s : State} (h : Good s) (temp : Nat) : GoodOut (execThrottle temp s) := by
  unfold execThrottle
  extract_lets _ t
  have ht : Good t := h
  rw [goodOut_next]
  split
  · exact trip_good ht
  · exact ht

theorem execThermalTrip_good {s : State} (h : Good s) (temp : Nat) : GoodOut (execThermalTrip temp s) := by
  unfold execThermalTrip
  split
  · exact trip_good (s := { s with sys := { s.sys with temp := temp % 256, step := throttleStep s.sys.step temp } }) h
  · exact h

theorem execUndervoltageTrip_good {s : State} (h : Good s) (millivolts : Nat) :
    GoodOut (execUndervoltageTrip millivolts s) := by
  grind [execUndervoltageTrip, trip_good, goodOut_next]

end Sys2Proof.Machine
end

section
/-! PROOFS. Proofs/InvariantStep.lean: every step keeps the invariant (O55). -/

namespace Sys2Proof.Machine

/-! ## Every instruction and event -/

theorem exec_good {s : State} (h : Good s) (i : Instr) : GoodOut (exec i s) := by
  unfold exec
  cases i with
  | nop | wait | yield | halt | bwait | nbwait => exact issue_good h _ fun _ he => advBody_ok he he.1
  | mode | imm | immh | bra | call | ret | brx | rpush | join | regang | rtt =>
    exact issue_good h _ fun _ he => sliceBody_ok he ..
  | exit => exact execExit_good h ..
  | elect | icmp | scmp | fcmp => exact issue_good h _ fun _ he => predBody_ok he ..
  | vote => exact execVote_good h ..
  | getc | ctr | csrr | sel | movi | movh | lea | p2v | s2v | fclass | rng | packl | unpackl | gamax | cmp24 =>
    exact issue_good h _ fun _ he => resultBody_ok he ..
  | evwait => exact execEvwait_good h ..
  | evadd => exact issue_good h _ fun _ he => rmwBody_ok he ..
  | trap => exact issue_good h _ fun _ he => trapBody_ok he ..
  | brk => exact execBrk_good h ..
  | csrw => exact execCsrw_good h ..
  | iadd | isub | imul | imulh | imad | imin | imax | and | or | xor | andn | idot4 => exact arith3_good h ..
  | iabs | brev | mov => exact arith2_good h ..
  | shl | shr | sar | rot | bfe | bfi => exact arithB_good h ..
  | popc | clz => exact countShape_good h ..
  | shfli | shflx | shflu | shfld => exact shuffle_good h ..
  | pand | por | pxor | pnot | pmov => exact predOp_good h ..
  | v2p => exact execV2p_good h ..
  | sadd | ssub | smul | sand | sor | sxor | sshl | sshr | smov => exact uniOp_good h ..
  | smovi | v2s => exact issue_good h _ fun _ he => uniBody_ok he ..
  | sld => exact execSld_good h ..
  | sst | pstore => exact issue_good h _ fun _ he => opsBody_ok he _ (storeL1_ok he.1 ..) _
  | fadd | fsub | fmul | ffma | fmin | fmax | fdiv => exact float3_good h ..
  | fabs | fneg | frint | frcp | frsq | fsqrt | fexp2 | flog2 | fsin | fcos | ftanh => exact float2_good h ..
  | fscale | cvt | cvtsr | qmx | dqmx | gred | fdot2 => exact issue_good h _ fun _ he => floatBody_ok he ..
  | ld | ld2 | ld4 => exact loadInstr_good h ..
  | st | st2 | st4 => exact storeInstr_good h ..
  | ldl | ldl4 => exact ldlInstr_good h ..
  | stl | stl4 => exact stlInstr_good h ..
  | atadd | atand | ator | atxor | atmin | atmax | atxchg | atcas | atfmax | atfmin => exact atomic_good h ..
  | atladd | atlcas => exact atlInstr_good h ..
  | fence => exact execFence_good h ..
  | flush | accarm | accq | axe | axinv | axq => exact issue_good h _ fun _ he => opsBody_ok he _ he.1.mem _
  | invr => exact execInvr_good h ..
  | pref => exact issue_good h _ fun _ he => advBody_ok he (foldl_good (fun _ _ hs => prefLane_good _ _ _ hs _) _ he.1)
  | lockb | unlockb => exact lockInstr_good h ..
  | enq | deq => exact queueInstr_good h ..
  | binit => exact execBinit_good h ..
  | barr => exact execBarr_good h ..
  | bexp => exact execBexp_good h ..
  | btest => exact execBtest_good h ..
  | nbarr => exact execNbarr_good h ..
  | copy | copyg | copyc => exact issue_good h _ fun _ he => copyBody_ok he ..
  | contrib | contribn => exact contribInstr_good h ..
  | accdrop => exact execAccdrop_good h ..
  | axb => exact execAxb_good h ..
  | tnop | tfmt | tset | taddImm | taddReg | tldc | tzero | mmdual | tsta | temit | tloopImm | tloopReg | tincOff
  | tincT | tincAcc | twait | tarr | tstop => exact tIssue_good h ..
  | tldb => exact execTldb_good h ..
  | mm | mmt | mms => exact mmIssue_good h ..
  | tlds => exact execTlds_good h ..
  | ctxBuild => exact execCtxBuild_good h ..
  | ctxEnable => exact execCtxEnable_good h ..
  | ctxPark => exact execCtxPark_good h ..
  | ctxResume => exact execCtxResume_good h ..
  | ctxDstop => exact execCtxDstop_good h ..
  | ctxHalt => exact execCtxHalt_good h ..
  | ctxRetire => exact execCtxRetire_good h ..
  | ctxRelease => exact execCtxRelease_good h ..
  | hewEnq => exact execHewEnq_good h ..
  | hewDeq => exact execHewDeq_good h ..
  | hewBind => exact execHewBind_good h ..
  | hewDrain => exact execHewDrain_good h ..
  | hewReset => exact execHewReset_good h ..
  | dispatcherTake => exact execDispatcherTake_good h ..
  | dependencyPoll => exact execDependencyPoll_good h ..
  | nopPacket | signalPacket => exact packetAct_good h _ _ fun _ _ => endKernel_good h ..
  | launchPacket => exact execLaunchPacket_good h ..
  | pinPacket => exact execPinPacket_good h ..
  | unpinPacket => exact packetAct_good h _ _ fun _ _ => endKernel_good (unpinRanges_good h ..) ..
  | recordPacket => exact packetAct_good h _ _ fun _ _ => endKernel_good (hostPut_good h ..) ..
  | fitsyncPacket => exact execFitsyncPacket_good h ..
  | policyPacket => exact execPolicyPacket_good h ..
  | gridAccept => exact execGridAccept_good h ..
  | groupPlace => exact execGroupPlace_good h ..
  | groupRestore => exact execGroupRestore_good h ..
  | groupParked => exact execGroupParked_good h ..
  | groupDone => exact execGroupDone_good h ..
  | groupRequeue => exact execGroupRequeue_good h ..
  | kernelRetire => exact execKernelRetire_good h ..
  | faultAtHub => exact execFaultAtHub_good h ..
  | contextStopped => exact execContextStopped_good h ..
  | watchdog => exact execWatchdog_good h ..
  | pageWalk => exact execPageWalk_good h ..
  | fitTrainingDone => exact execFitTrainingDone_good h ..
  | scrubComplete => exact execScrubComplete_good h ..
  | turnPass => exact execTurnPass_good h ..
  | sampleAtHome => exact execSampleAtHome_good h ..
  | loadComplete => exact execLoadComplete_good h ..
  | storeAck => exact execStoreAck_good h ..
  | fitAnswer => exact execFitAnswer_good h ..
  | fillComplete => exact execFillComplete_good h ..
  | homeRead => exact execHomeRead_good h ..
  | homeOwn => exact execHomeOwn_good h ..
  | homeWrite => exact execHomeWrite_good h ..
  | homeEvict | homeWback => exact noticeAtHome_good h ..
  | invalidate => exact execInvalidate_good h ..
  | invalidateAck => exact execInvalidateAck_good h ..
  | rmwAtHome => exact execRmwAtHome_good h ..
  | queueOpAtHome => exact execQueueOpAtHome_good h ..
  | horizonReached => exact execHorizonReached_good h ..
  | copyEntryAssign => exact execCopyEntryAssign_good h ..
  | copyCellLand => exact execCopyCellLand_good h ..
  | copycRowRead => exact execCopycRowRead_good h ..
  | partialAtBuffer => exact execPartialAtBuffer_good h ..
  | partialForwardTimeout => exact execPartialForwardTimeout_good h ..
  | partialAtHome => exact execPartialAtHome_good h ..
  | accdropAtHome => exact execAccdropAtHome_good h ..
  | leaseExpiry => exact execLeaseExpiry_good h ..
  | directorySweep => exact execDirectorySweep_good h ..
  | gangStarved => exact execGangStarved_good h ..
  | eagerHitNotify => exact execEagerHitNotify_good h ..
  | peerRequest => exact execPeerRequest_good h ..
  | refused => exact execRefused_good h ..
  | dieLost => exact execDieLost_good h ..
  | peerLost => exact execPeerLost_good h ..
  | hostWrite => exact execHostWrite_good h ..
  | hostRead => exact execHostRead_good h ..
  | debugWindowAccess => exact execDebugWindowAccess_good h ..
  | guardNsWrite => exact execGuardNsWrite_good h ..
  | domIdWrite => exact execDomIdWrite_good h ..
  | registerWrite => exact execRegisterWrite_good h ..
  | linkEnable => exact execLinkEnable_good h ..
  | linkDisable => exact execLinkDisable_good h ..
  | linkQuarantine => exact execLinkQuarantine_good h ..
  | linkRelease => exact execLinkRelease_good h ..
  | linkTrained => exact execLinkTrained_good h ..
  | linkTrainingFail => exact execLinkTrainingFail_good h ..
  | laneFail => exact execLaneFail_good h ..
  | flitCrcFail => exact execFlitCrcFail_good h ..
  | linkRetrain => exact execLinkRetrain_good h ..
  | gcmTagFail => exact execGcmTagFail_good h ..
  | moduleReset => exact execModuleReset_good h ..
  | getVersion | getCapabilities | negotiateAlgorithms | getDigests | getCertificate | challenge | getMeasurements
  | finish | endSession => exact spdmDo_good h ..
  | keyExchange => exact execKeyExchange_good h ..
  | keyUpdate => exact execKeyUpdate_good h ..
  | lockInterfaceRequest => exact execLockInterfaceRequest_good h ..
  | bindPolicyKey => exact execBindPolicyKey_good h ..
  | startInterfaceRequest => exact execStartInterfaceRequest_good h ..
  | stopInterfaceRequest => exact execStopInterfaceRequest_good h ..
  | ideIntegrityFailure => exact execIdeIntegrityFailure_good h ..
  | correctedError => exact execCorrectedError_good h ..
  | uncorrectableError => exact execUncorrectableError_good h ..
  | patrolScrub => exact execPatrolScrub_good h ..
  | throttle => exact execThrottle_good h ..
  | thermalTrip => exact execThermalTrip_good h ..
  | undervoltageTrip => exact execUndervoltageTrip_good h ..
  | stopGoSignal => exact execStopGoSignal_good h ..
  | peerReadmission => exact execPeerReadmission_good h ..
  | changePartition => exact execChangePartition_good h ..
  | ideKeyManagement => exact execIdeKeyManagement_good h ..
  | fullModuleTrainingComplete => exact execFullModuleTrainingComplete_good h ..

/-! ## The agents and time -/

theorem laneStep_good {s : State} (h : Good s) (gi : Nat) (m : BitVec 8) : GoodOut (laneStep gi m s) := by
  unfold laneStep
  extract_lets _ t
  have ht : Good t := h
  split
  · exact ht
  next e he =>
    have hi : IssOk e := issOk_of ht he
    split
    · exact raise_good hi ..
    · split
      · refine raise_good (e := { e with s := laneFetched e }) ?_ ..
        exact ⟨laneFetched_good hi, hi.2⟩
      · exact exec_good (laneFetched_good hi) _

theorem tileStep_good {s : State} (h : Good s) (gid : Nat) : GoodOut (tileStep gid s) := by
  unfold tileStep
  extract_lets _ t
  have ht : Good t := h
  split
  · exact ht
  next x hx =>
    have hs : Good x.s := by
      rw [(tissOf_s hx).1]
      exact ht
    split
    · exact tRaise_good hs ..
    · split
      · exact tRaise_good hs ..
      · exact exec_good (tileFetched_good hs _) _

theorem starvedStep_good {s : State} (h : Good s) (gi : Nat) : GoodOut (starvedStep gi s) := by
  unfold starvedStep
  dsimp only
  split
  · exact h
  · split
    · split
      · exact laneStep_good h ..
      · exact h
    · exact h

theorem perform_good {s : State} (h : Good s) (m : Move) : GoodOut (perform m s) := by
  cases m with
  | lane gi k => exact laneStep_good h gi k
  | tile g => exact tileStep_good h g
  | event i => exact exec_good h i
  | starved gi => exact starvedStep_good h gi
  | tick c n => exact tick_good c n h

/-! ## The step -/

theorem step_good {s : State} (h : Good s) : GoodOut (step s) := by
  unfold step
  split
  · split
    · trivial
    · exact plan_good h
  · split
    · trivial
    · refine perform_good ?_ _
      exact h

/-- Settles O55, by one lemma for each instruction and each event: what it leaves of the machine meets the invariant. -/
theorem goodKept : Obligations.GoodKept := by
  unfold Obligations.GoodKept
  intro s t h ht
  have hs := step_good h
  rw [ht] at hs
  exact hs

end Sys2Proof.Machine
end

section
/-! PROOFS. Proofs/TrapReturns.lean: TRAP, BRK and RTT, slice by slice (R78, R79). -/

namespace Sys2Proof.Machine

/-! ## TRAP and BRK (R78, R79) -/

theorem trapFull_isSome {e : Iss} {k : Nat} :
    (trapFull e k).isSome = true ↔ e.act k ≠ 0 ∧ 64 ≤ (e.g.sl k).stack.length := by
  unfold trapFull
  split
  · rename_i hc
    simpa [show stackLimit = 64 from rfl] using hc
  · rename_i hc
    simpa [show stackLimit = 64 from rfl] using hc

theorem trapFull_go {e : Iss} (h : ∀ k ∈ e.sls, e.act k ≠ 0 → (e.g.sl k).stack.length < 64) :
    judgeSlices e (trapFull e) = .go := by
  rw [judgeSlices_go]
  intro k hk
  rw [Option.eq_none_iff_forall_ne_some]
  intro c hc
  obtain ⟨hact, hfull⟩ := trapFull_isSome.1 (Option.isSome_of_mem hc)
  exact absurd hfull (Nat.not_le.2 (h k hk hact))

theorem takeTrap_code (x : Slice) (g : Gang) (cause code : Nat) (lanes : BitVec 4) (ret at_ : VAddr) :
    takeTrap x g.trapBase cause code 0 lanes ret at_ = trapped g (cause + 2 ^ 8 * code) lanes ret at_ x := rfl

/-- An instruction whose body is that of TRAP: the slices with an active lane enter the handler, the others go on. -/
theorem trapBody_result {s : State} {e : Iss} {j : Iss → Judge} {b : Iss → Eff} {cause code : Nat}
    (h : issOf s = some e) (hj : j e = .go) (hq : Quiet e) (hr : someRuns e) (hb : b e = trapBody e cause code) :
    ∃ t, issue s j b = .next t ∧ SliceResult s t e fun k x =>
      if e.act k = 0 then { x with pc := x.pc + 4 }
      else trapped e.g (cause + 2 ^ 8 * code) (e.act k) (x.pc + 4) x.pc x := by
  obtain ⟨k, hk, x, hx, hrun⟩ := hr
  refine slice_result h hj hq hb (fun _ _ _ _ => rfl) ⟨k, hk, x, hx, ?_⟩ fun i _ y _ => ?_
  · split
    · exact fin_run hrun
    · rename_i hact
      exact fin_run hact
  · split <;> exact ⟨rfl, rfl⟩

theorem trap_taken_by_slices {s : State} {e : Iss} (c : Byte) (h : issOf s = some e) (hq : Quiet e) (hr : someRuns e)
    (hroom : ∀ k ∈ e.sls, e.act k ≠ 0 → (e.g.sl k).stack.length < 64) :
    ∃ t, exec (.trap c) s = .next t ∧ SliceResult s t e fun k x =>
      if e.act k = 0 then { x with pc := x.pc + 4 }
      else trapped e.g (0x20 + 2 ^ 8 * c.toNat) (e.act k) (x.pc + 4) x.pc x := by
  rw [exec_trap]
  exact trapBody_result h (trapFull_go hroom) hq hr rfl

theorem brk_taken_by_slices {s : State} {e : Iss} (c : Byte) (h : issOf s = some e) (hq : Quiet e) (hr : someRuns e)
    (hstop : (dbgCtl s e.g e.kern.part).getLsbD 0 = false)
    (hroom : ∀ k ∈ e.sls, e.act k ≠ 0 → (e.g.sl k).stack.length < 64) :
    ∃ t, exec (.brk c) s = .next t ∧ SliceResult s t e fun k x =>
      if e.act k = 0 then { x with pc := x.pc + 4 }
      else trapped e.g (0x21 + 2 ^ 8 * c.toNat) (e.act k) (x.pc + 4) x.pc x := by
  obtain rfl := (issOf_some h).1
  have hb : brkStops e = false := hstop
  rw [exec_brk]
  refine trapBody_result h ?_ hq hr ?_
  · simp only [hb, Bool.false_eq_true, if_false, trapFull_go hroom]
  · simp only [hb, Bool.false_eq_true, if_false, causeBreakpoint]

theorem trap_overflows {s : State} {e : Iss} {k : Nat} (c : Byte) (h : issOf s = some e)
    (hk : lowestSuch e k fun k => e.act k ≠ 0 ∧ 64 ≤ (e.g.sl k).stack.length) :
    exec (.trap c) s = .next (raise e k .stackOverflow 0) := by
  rw [exec_trap]
  refine judge_fault h rfl (lowestSuch_congr hk fun _ _ => trapFull_isSome.symm) ?_
  exact if_pos (by simpa [show stackLimit = 64 from rfl] using hk.2.1)

/-! ## RTT (R79) -/

theorem unwind_retired (st : List StackEntry) (x : Slice) : (unwind x st).retired = x.retired := by
  induction st generalizing x with
  | nil => rfl
  | cons a r ih =>
    rw [unwind]
    dsimp only
    repeat' split
    all_goals first | rfl | exact ih _

/-- A slice after RTT (R79): the TRAP entry on top restored, less the lanes that exited. -/
def returned (y : Slice) : Slice :=
  match y.stack with
  | x :: r =>
    let z := { y with run := x.lanes &&& ~~~y.exited, pc := x.pc, mode := x.mode, im := x.im, stack := r }
    if x.lanes &&& ~~~y.exited = 0 then unwind z r else z
  | [] => y

theorem returnTrap_isSome (y : Slice) : (returnTrap y).isSome = true ↔ ∃ x r, y.stack = x :: r ∧ x.kind = .trap := by
  unfold returnTrap
  cases y.stack with
  | nil => simp
  | cons x r =>
    by_cases hk : x.kind = .trap
    · simp only [hk, beq_self_eq_true, if_true]
      split <;> simp [hk]
    · simp [hk]

theorem returnTrap_eq {y : Slice} {x : StackEntry} {r : List StackEntry} (hs : y.stack = x :: r) (hk : x.kind = .trap) :
    returnTrap y = some (returned y) := by
  simp only [returnTrap, returned, hs, hk, beq_self_eq_true, if_true]
  split <;> rfl

theorem returned_frame (y : Slice) : (returned y).retired = y.retired ∧ (returned y).regang = y.regang := by
  unfold returned
  split
  · dsimp only
    split
    · exact ⟨unwind_retired _ _, unwind_regang _ _⟩
    · exact ⟨rfl, rfl⟩
  · exact ⟨rfl, rfl⟩

theorem returned_runs {y : Slice} {x : StackEntry} {r : List StackEntry} (hs : y.stack = x :: r)
    (hl : x.lanes &&& ~~~y.exited ≠ 0) : (returned y).finished = false := by
  refine fin_run ?_
  simpa only [returned, hs, if_neg hl] using hl

theorem rtt_returns {s : State} {e : Iss} (h : issOf s = some e) (hq : Quiet e)
    (htop : ∀ k ∈ e.sls, ∃ x r, (e.g.sl k).stack = x :: r ∧ x.kind = .trap)
    (hlive : ∃ k ∈ e.sls, ∃ y x r, e.g.slices[k]? = some y ∧ y.stack = x :: r ∧ x.lanes &&& ~~~y.exited ≠ 0) :
    ∃ t, exec .rtt s = .next t ∧ SliceResult s t e fun _ y => returned y := by
  have heq : ∀ k ∈ e.sls, ∀ y, e.g.slices[k]? = some y → (returnTrap y).getD y = returned y := by
    intro k hk y hy
    obtain ⟨x, r, hs, ht⟩ := htop k hk
    rw [sl_of hy] at hs
    rw [returnTrap_eq hs ht, Option.getD_some]
  obtain ⟨k, hk, y, x, r, hy, hs, hl⟩ := hlive
  rw [exec_rtt]
  refine slice_result h ?_ hq rfl (fun i z hi hz => heq i hi z hz) ⟨k, hk, y, hy, returned_runs hs hl⟩ fun i hi z hz => ?_
  · rw [legal_go]
    exact fun i hi => (returnTrap_isSome _).2 (htop i hi)
  · rw [heq i hi z hz]
    exact returned_frame z

theorem rtt_faults {s : State} {e : Iss} {k : Nat} (h : issOf s = some e)
    (hk : lowestSuch e k fun k => ¬ ∃ x r, (e.g.sl k).stack = x :: r ∧ x.kind = .trap) :
    exec .rtt s = .next (raise e k .illegalOp 0) := by
  rw [exec_rtt]
  exact legal_fault h rfl (lowestSuch_congr hk fun _ _ => by rw [← returnTrap_isSome, Bool.not_eq_true])

/-- Settles O22: TRAP and BRK change each slice by the one description of a trap, and RTT by its inverse. -/
theorem trapsAndReturns : Obligations.TrapsAndReturns := by
  unfold Obligations.TrapsAndReturns
  intro s e c h hq hr
  refine ⟨?_, fun k hk => trap_overflows c h hk, rtt_returns h hq, fun k hk => rtt_faults h hk⟩
  intro p hp hcond hroom
  simp only [List.mem_cons, List.not_mem_nil, or_false] at hp
  rcases hp with rfl | rfl
  · exact trap_taken_by_slices c h hq hr hroom
  · exact brk_taken_by_slices c h hq hr hcond hroom

end Sys2Proof.Machine
end

section
/-! PROOFS. Proofs/ControlRegisters.lean: CTR, GETC, CSRR and CSRW (R80, R81, R106). -/

namespace Sys2Proof.Machine

/-! ## CTR, GETC and CSRR (R80, R81, R106) -/

theorem pairOk_room {n : Nat} {d : Byte} (h : pairOk n d = true) : d.toNat + 1 < 256 := by
  have := d.isLt
  simp only [pairOk, Bool.and_eq_true, beq_iff_eq] at h
  omega

theorem ctr_reads {s : State} {e : Iss} {d : Byte} {sub : BitVec 2} {v : Nat → Nat} (h : issOf s = some e)
    (hroom : RoomForTraps e) (hd : pairOk e.n d = true) (hsub : decide (sub.toNat ≤ 2) = true) (hv : ∀ k, ctrValue e sub.toNat k = v k) :
    ∃ t, exec (.ctr d sub) s = .next t ∧ Result s t e e.active d (fun _ => true) (fun l => v (l / 4)) noConds := by
  obtain rfl : ctrValue e sub.toNat = v := funext hv
  rw [exec_ctr]
  refine result_spec h ?_ hroom ⟨false, rfl⟩ fun _ _ _ => pairOk_room hd
  rw [legal_go]
  exact fun _ _ => by rw [hd, hsub]; rfl

theorem getc_reads {s : State} {e : Iss} {d : Byte} {sub : BitVec 4} {v : Nat} (h : issOf s = some e)
    (hroom : RoomForTraps e) (hd : declOk e.n d = true) (hsub : decide (sub.toNat ≤ 14) = true) (hv : getcValue e sub.toNat = v) :
    ∃ t, exec (.getc d sub) s = .next t ∧ Result s t e e.active d (fun _ => false) (fun _ => v) noConds := by
  subst hv
  rw [exec_getc]
  refine result_spec h ?_ hroom ⟨false, rfl⟩ fun _ _ hw => absurd hw Bool.false_ne_true
  rw [legal_go]
  exact fun _ _ => by rw [hd, hsub]; rfl

/-- CSRR of a register of the given width. -/
theorem csrr_reads {s : State} {e : Iss} {d : Byte} {n : BitVec 12} {w : Bool} {v : Nat → Nat} (h : issOf s = some e)
    (hroom : RoomForTraps e) (hn : WellFormed.csrWide n.toNat = some w) (hd : (if w then pairOk e.n d else declOk e.n d) = true)
    (hv : ∀ k, csrValue e n.toNat k = v k) :
    ∃ t, exec (.csrr d n) s = .next t ∧ Result s t e e.active d (fun _ => w) (fun l => v (l / 4)) noConds := by
  obtain rfl : csrValue e n.toNat = v := funext hv
  have hw : csrIsWide n.toNat = w := by cases w <;> simp [csrIsWide, hn]
  rw [exec_csrr]
  refine result_spec h ?_ hroom ⟨false, by rw [hw]; rfl⟩ fun _ _ hwide => pairOk_room (by simpa [hwide] using hd)
  rw [legal_go]
  exact fun _ _ => by simp only [hn, hw, Option.isSome_some, Bool.true_and, hd]

/-- The sums of the first stages rise with their number (R104). -/
theorem stageBase_mono (p : Packet) {i j : Nat} (h : i ≤ j) : stageBase p i ≤ stageBase p j :=
  (List.take_sublist_take_left h).sum_le_sum fun _ _ => Nat.zero_le _

/-- The stage of a gang is the one whose gangs it stands among (R104). -/
theorem stageOf_eq {p : Packet} {i st : Nat} (hst : st < 4) (hlo : stageBase p st ≤ i) (hhi : i < stageBase p (st + 1)) :
    stageOf p i = st := by
  have hfind : (List.range 4).find? (fun j => decide (i < stageBase p (j + 1))) = some st := by
    rw [List.find?_range_eq_some]
    refine ⟨by simpa using hhi, List.mem_range.2 hst, fun j hj => ?_⟩
    simpa using (stageBase_mono p (Nat.succ_le_of_lt hj)).trans hlo
  unfold stageOf
  rw [hfind, Option.getD_some]

/-! ## The numbers of the control registers (R80) -/

theorem csr_eq_iff (n : BitVec 12) (m : Nat) (hm : m < 2 ^ 12) : n.toNat = m ↔ n = BitVec.ofNat 12 m := by
  rw [← BitVec.toNat_inj, BitVec.toNat_ofNat, Nat.mod_eq_of_lt hm]

theorem csrWide_perf {i : Nat} (hi : i < 4) :
    WellFormed.csrWide (0x060 + i) = some false ∧ WellFormed.csrWide (0x068 + i) = some true := by
  interval_cases i <;> exact ⟨rfl, rfl⟩

theorem csrValue_perf (e : Iss) {i : Nat} (hi : i < 4) (k : Nat) :
    csrValue e (0x060 + i) k = (if facilOpen e.s.ctl.parts e.kern.part 1 then (perfGet e.ctx e.core i).toNat else 0) ∧
    csrValue e (0x068 + i) k = (if facilOpen e.s.ctl.parts e.kern.part 1 then (perfGet e.ctx e.core (i + 4)).toNat else 0) := by
  interval_cases i <;> exact ⟨rfl, rfl⟩

theorem csrValue_dbgCtl (e : Iss) (k : Nat) :
    csrValue e 0x050 k = if facilOpen e.s.ctl.parts e.kern.part 0 then e.g.dbgCtl.toNat else 0 := by
  show (dbgCtl e.s e.g e.kern.part).toNat = _
  unfold dbgCtl
  rw [apply_ite BitVec.toNat]
  rfl

/-! ## CSRW: the slices of the cohort write one after another (R80) -/

/-- A write of `v` by slice `k`. -/
def csrwStep (e : Iss) (n : Nat) (r : Eff) (k v : Nat) : Eff :=
  { r with st := csrwState e n v r.st, g := csrwGang e n v k r.g }

/-- The effect of the writes of the slices `ks`, in order. -/
def csrwEff (e : Iss) (d : Byte) (n : Nat) (ks : List Nat) (r : Eff) : Eff :=
  ks.foldl (fun r k => (csrwSource e d n k).elim r (csrwStep e n r k)) r

theorem csrwEff_cons (e : Iss) (d : Byte) (n k : Nat) (ks : List Nat) (r : Eff) :
    csrwEff e d n (k :: ks) r = csrwEff e d n ks ((csrwSource e d n k).elim r (csrwStep e n r k)) := rfl

/-- CSRW's judgement: a register of the list, an operand of its width, and values without reserved bits (R80). -/
def csrwJudge (e : Iss) (d : Byte) (n : Nat) : Judge :=
  legal e fun k => (WellFormed.csrWide n).isSome && (if csrIsWide n then wideOk e.n d else declOk e.n d) &&
    (csrwSource e d n k).elim true (csrwValueOk e n)

/-- CSRW's effect. -/
def csrwBody (e : Iss) (d : Byte) (n : Nat) : Eff := csrwEff e d n e.sls { st := e.s, g := e.adv }

theorem execCsrw_eq (d : Byte) (n : BitVec 12) (s : State) :
    execCsrw d n s = issue s (fun e => csrwJudge e d n.toNat) fun e => csrwBody e d n.toNat := by
  unfold execCsrw csrwJudge csrwBody csrwEff
  congr
  · funext e
    congr
    funext k
    congr
    cases csrwSource e d n.toNat k <;> rfl
  · funext e
    congr
    funext r k
    cases csrwSource e d n.toNat k <;> rfl

/-- Slice `k` as the writes leave it: FPX_FLAGS without the bits written as 1. -/
def csrwSlice (e : Iss) (d : Byte) (n k : Nat) (x : Slice) : Slice :=
  { x with fpx := if n = 0x021 then (csrwSource e d n k).elim x.fpx fun v => fpxClear x.fpx (BitVec.ofNat 32 v) else x.fpx }

/-- The fields of a gang that no control register is. -/
def csrKept (g : Gang) := (g.regs, g.preds, g.sregs, g.gear, g.axCount, g.opens, g.issues)

theorem csrwGang_kept (e : Iss) (n v k : Nat) (g : Gang) : csrKept (csrwGang e n v k g) = csrKept g := by
  unfold csrwGang
  split_ifs <;> rfl

theorem csrwEff_kept (e : Iss) (d : Byte) (n : Nat) (ks : List Nat) (r : Eff) :
    csrKept (csrwEff e d n ks r).g = csrKept r.g :=
  foldl_same (csrwSource e d n) (csrwStep e n) (fun r => csrKept r.g) (fun _ _ _ => csrwGang_kept ..) ks r

theorem csrwGang_slice (e : Iss) (n v k j : Nat) (g : Gang) : (csrwGang e n v k g).slices[j]? =
    (g.slices[j]?).map fun x => if j = k ∧ n = 0x021 then { x with fpx := fpxClear x.fpx (BitVec.ofNat 32 v) } else x := by
  by_cases hn : n = 0x021
  · subst hn
    show (modAt g.slices k _)[j]? = _
    rw [modAt_get]
    by_cases hj : j = k <;> simp [hj]
  · have hsl : (csrwGang e n v k g).slices = g.slices := by
      unfold csrwGang
      rw [if_neg hn]
      split_ifs <;> rfl
    simp [hsl, hn]

theorem csrwEff_slice (e : Iss) (d : Byte) (n : Nat) {ks : List Nat} (hk : ks.Nodup) (r : Eff) (j : Nat) :
    (csrwEff e d n ks r).g.slices[j]? =
      (r.g.slices[j]?).map fun x => if j ∈ ks then csrwSlice e d n j x else x := by
  induction ks generalizing r with
  | nil => simp [csrwEff]
  | cons k ks ih =>
    obtain ⟨hks, hnd⟩ := List.nodup_cons.1 hk
    have hstep : ((csrwSource e d n k).elim r (csrwStep e n r k)).g.slices[j]? =
        (r.g.slices[j]?).map fun x => if j = k then csrwSlice e d n k x else x := by
      unfold csrwSlice
      cases hs : csrwSource e d n k with
      | none => simp
      | some v =>
        show (csrwGang e n v k r.g).slices[j]? = _
        rw [csrwGang_slice]
        by_cases hj : j = k <;> by_cases hn : n = 0x021 <;> simp [hj, hn]
    rw [csrwEff_cons, ih hnd, hstep, Option.map_map]
    congr 1
    funext x
    by_cases hj : j = k
    · subst hj
      simp [hks]
    · simp [hj]

/-- The state that CSRW leaves differs in the performance counters alone. -/
theorem csrwState_only (e : Iss) (n v : Nat) (s : State) (gi : Nat) :
    OnlyGang s (csrwState e n v s) gi ∧ (csrwState e n v s).exe = s.exe ∧ (csrwState e n v s).ctl.parts = s.ctl.parts := by
  unfold csrwState
  repeat' split
  · exact ⟨⟨rfl, rfl, fun _ _ => rfl, rfl, rfl, rfl, rfl, rfl, map_modIf_same _ _ _ _ fun _ => rfl, rfl, rfl⟩, rfl, rfl⟩
  all_goals exact ⟨.refl _ _, rfl, rfl⟩

theorem csrwEff_only (e : Iss) (d : Byte) (n : Nat) (ks : List Nat) (r : Eff) (gi : Nat) :
    OnlyGang r.st (csrwEff e d n ks r).st gi ∧ (csrwEff e d n ks r).st.exe = r.st.exe ∧
      (csrwEff e d n ks r).st.ctl.parts = r.st.ctl.parts := by
  induction ks generalizing r with
  | nil => exact ⟨.refl _ _, rfl, rfl⟩
  | cons k ks ih =>
    rw [csrwEff_cons]
    cases csrwSource e d n k with
    | none => exact ih r
    | some v =>
      obtain ⟨h1, h2, h3⟩ := ih (csrwStep e n r k v)
      obtain ⟨g1, g2, g3⟩ := csrwState_only e n v r.st gi
      exact ⟨g1.trans h1, h2.trans g2, h3.trans g3⟩

theorem perfNumber_eq {n i : Nat} (h : n = 0x060 + i ∧ i < 4 ∨ n = 0x064 + i ∧ 4 ≤ i ∧ i < 8) : perfNumber n = some i := by
  unfold perfNumber
  rcases h with ⟨rfl, hi⟩ | ⟨rfl, h4, hi⟩
  · rw [if_pos (by omega)]
    simp
  · rw [if_neg (by omega), if_pos (by omega)]
    exact congrArg some (by omega)

/-- The context once the slices `ks` have written PERF register `i`: it holds the last value, and the others are kept. -/
theorem csrwEff_perf {e : Iss} {d : Byte} {n i : Nat} (hn : perfNumber n = some i) (ks : List Nat) {r : Eff} {x : Ctx}
    (hopen : facilOpen r.st.ctl.parts e.kern.part 1 = true) (hx : findCtx r.st.ctl.ctxs e.kern.part e.kern.ctx = some x) :
    ∃ y, findCtx (csrwEff e d n ks r).st.ctl.ctxs e.kern.part e.kern.ctx = some y ∧
      (∀ j, j ≠ i → perfGet y e.core j = perfGet x e.core j) ∧
      perfGet y e.core i = match (ks.filterMap (csrwSource e d n)).getLast? with
        | some v => BitVec.ofNat 64 v
        | none => perfGet x e.core i := by
  induction ks generalizing r x with
  | nil => exact ⟨x, hx, fun _ _ => rfl, rfl⟩
  | cons k ks ih =>
    rw [csrwEff_cons]
    cases hs : csrwSource e d n k with
    | none =>
      rw [List.filterMap_cons_none hs]
      exact ih hopen hx
    | some v =>
      have hst : (csrwStep e n r k v).st = { r.st with ctl := { r.st.ctl with
          ctxs := modCtx r.st.ctl.ctxs e.kern.part e.kern.ctx fun c => perfSet c e.core i (BitVec.ofNat 64 v) } } := by
        simp only [csrwStep, csrwState, hn]
        exact if_pos hopen
      obtain ⟨y, hy, hother, hlast⟩ := ih (r := csrwStep e n r k v) (x := perfSet x e.core i (BitVec.ofNat 64 v))
        (by rw [hst]; exact hopen) (by rw [hst]; exact findCtx_modCtx hx fun c => perfSet_id c _ _ _)
      refine ⟨y, hy, fun j hj => ?_, ?_⟩
      · rw [hother j hj, perf_get_set, if_neg hj]
      · rw [hlast, List.filterMap_cons_some hs, List.getLast?_cons, perf_get_set, if_pos rfl]
        cases (ks.filterMap (csrwSource e d n)).getLast? <;> rfl

/-- What a write leaves in a register of the gang: the last value by `u` where `hit`, and what it held otherwise. -/
theorem csrwEff_field {β : Type} (e : Iss) (d : Byte) (n : Nat) (ks : List Nat) (r : Eff) (p : Gang → β) (u : Nat → β) (hit : Prop)
    [Decidable hit] (hs : ∀ v k g, p (csrwGang e n v k g) = if hit then u v else p g) :
    p (csrwEff e d n ks r).g =
      ((ks.filterMap (csrwSource e d n)).getLast?).elim (p r.g) fun v => if hit then u v else p r.g := by
  by_cases hh : hit
  · simp only [if_pos hh] at hs ⊢
    refine (foldl_last (csrwSource e d n) (csrwStep e n) (fun r => p r.g) u (fun _ _ _ => hs ..) ks r).trans ?_
    cases (ks.filterMap (csrwSource e d n)).getLast? <;> rfl
  · simp only [if_neg hh] at hs ⊢
    refine (foldl_same (csrwSource e d n) (csrwStep e n) (fun r => p r.g) (fun _ _ _ => hs ..) ks r).trans ?_
    cases (ks.filterMap (csrwSource e d n)).getLast? <;> rfl

/-- Slice `k` after CSRW: at pc + 4, with its FPX_FLAGS written. -/
def csrwAfter (e : Iss) (d : Byte) (n k : Nat) (x : Slice) : Slice :=
  if e.mask.getLsbD k then { csrwSlice e d n k x with pc := x.pc + 4 } else x

theorem csrwBody_slice (e : Iss) (d : Byte) (n k : Nat) :
    (csrwBody e d n).g.slices[k]? = (e.g.slices[k]?).map (csrwAfter e d n k) := by
  have hnd : e.sls.Nodup := (sls_sorted e).imp Nat.ne_of_lt
  unfold csrwBody
  rw [csrwEff_slice e d n hnd]
  show Option.map _ (e.g.slices.mapIdx (fun k (x : Slice) => if e.mask.getLsbD k then { x with pc := x.pc + 4 } else x))[k]? = _
  rw [List.getElem?_mapIdx, Option.map_map]
  congr 1
  funext x
  unfold csrwAfter
  by_cases hm : e.mask.getLsbD k = true
  · have h8 : k < 8 := Nat.lt_of_not_le fun hc => by simp [BitVec.getLsbD_of_ge _ _ hc] at hm
    simp only [Function.comp_apply, if_pos (mem_mask.2 ⟨h8, hm⟩), if_pos hm]
    rfl
  · have hk : k ∉ e.sls := fun hc => hm (mem_mask.1 hc).2
    simp only [Function.comp_apply, if_neg hk, if_neg hm]

/-- A part of a slice that CSRW leaves alone. -/
theorem csrwBody_sl (e : Iss) (d : Byte) (n k : Nat) {β : Type} (p : Slice → β) (hp : ∀ x, p (csrwAfter e d n k x) = p x) :
    p ((csrwBody e d n).g.sl k) = p (e.g.sl k) := by
  unfold Gang.sl nth
  rw [csrwBody_slice]
  cases e.g.slices[k]? with
  | none => rfl
  | some x => exact hp x

theorem csrwAfter_frame (e : Iss) (d : Byte) (n k : Nat) (x : Slice) :
    let y := csrwAfter e d n k x
    y.run = x.run ∧ y.exited = x.exited ∧ y.stack = x.stack ∧ y.mode = x.mode ∧ y.im = x.im ∧ y.regang = x.regang ∧
      y.pc = if e.mask.getLsbD k then x.pc + 4 else x.pc := by
  unfold csrwAfter
  dsimp only
  split <;> exact ⟨rfl, rfl, rfl, rfl, rfl, rfl, rfl⟩

theorem csrwAfter_retired (e : Iss) (d : Byte) (n k : Nat) (x : Slice) : (csrwAfter e d n k x).retired = x.retired := by
  unfold csrwAfter
  split <;> rfl

theorem csrwBody_kept (e : Iss) (d : Byte) (n : Nat) : csrKept (csrwBody e d n).g = csrKept e.g := csrwEff_kept ..

theorem csrwBody_length (e : Iss) (d : Byte) (n : Nat) : (csrwBody e d n).g.slices.length = e.g.slices.length := by
  refine (foldl_same (csrwSource e d n) (csrwStep e n) (fun r => r.g.slices.length) (fun r k v => ?_) e.sls _).trans (adv_slices_length e)
  show (csrwGang e n v k r.g).slices.length = r.g.slices.length
  unfold csrwGang
  split_ifs
  · rfl
  · rfl
  · exact modSl_slices_length ..
  all_goals rfl

/-- CSRW retires where its values are legal. -/
theorem csrw_retires {s : State} {e : Iss} {d : Byte} {n : BitVec 12} (h : issOf s = some e) (hroom : RoomForTraps e)
    (hn : (WellFormed.csrWide n.toNat).isSome = true)
    (hd : (if WellFormed.csrWide n.toNat = some true then wideOk e.n d else declOk e.n d) = true)
    (hv : ∀ k ∈ e.sls, ∀ v, csrwSource e d n.toNat k = some v → csrwValueOk e n.toNat v = true) :
    exec (.csrw d n) s = .next (finish e (csrwBody e d n.toNat)) ∧ noOverflow e (csrwBody e d n.toNat) ∧
    ∃ g, Retired (finish e (csrwBody e d n.toNat)) e g ∧ OnlyGang s (finish e (csrwBody e d n.toNat)) e.gi ∧ Advanced e g ∧
      SameFile (csrwBody e d n.toNat).g g ∧ ∀ k, tally (g.sl k) = tally ((csrwBody e d n.toNat).g.sl k) := by
  obtain rfl := (issOf_some h).1
  have hj : csrwJudge e d n.toNat = .go := by
    unfold csrwJudge
    rw [legal_go]
    intro k hk
    have hw : (if csrIsWide n.toNat then wideOk e.n d else declOk e.n d) = true := by simpa [csrIsWide] using hd
    rw [hn, hw]
    cases hs : csrwSource e d n.toNat k with
    | none => rfl
    | some v => exact hv k hk v hs
  have hstack : ∀ k, ((csrwBody e d n.toNat).g.sl k).stack = (e.g.sl k).stack := fun k =>
    csrwBody_sl e d _ k Slice.stack fun x => (csrwAfter_frame e d _ k x).2.2.1
  obtain ⟨honly, hexe, -⟩ := csrwEff_only e d n.toNat e.sls { st := e.s, g := e.adv } e.gi
  have hexec := (exec_csrw d n e.s).trans (execCsrw_eq d n e.s)
  have hkept := csrwBody_kept e d n.toNat
  simp only [csrKept, Prod.mk.injEq] at hkept
  obtain ⟨-, -, -, -, -, -, hiss⟩ := hkept
  obtain ⟨t, g, ht, hret, ho, hfile, htally, hadv⟩ := issue_retires (j := fun e => csrwJudge e d n.toNat) (b := fun e => csrwBody e d n.toNat) h hj hroom
    (congrArg Exe.gangs hexe) hstack (csrwBody_length ..)
    (fun k => csrwBody_sl e d _ k Slice.retired fun x => csrwAfter_retired e d _ k x) hiss
  have hgo := issue_go (j := fun e => csrwJudge e d n.toNat) (b := fun e => csrwBody e d n.toNat) h hj
  obtain rfl : finish e (csrwBody e d n.toNat) = t := Host.Outcome.next.inj (hgo.symm.trans ht)
  exact ⟨hexec.trans hgo, noOverflow_of_room hroom hstack, g, hret, honly.trans ho,
    advanced_of h hadv (csrwBody_slice e d n.toNat) (csrwAfter_frame e d n.toNat), hfile, htally⟩

theorem csrwBody_field {β : Type} (e : Iss) (d : Byte) (n : Nat) (p : Gang → β) (u : Nat → β) (hit : Prop) [Decidable hit]
    (hs : ∀ v k g, p (csrwGang e n v k g) = if hit then u v else p g) (hadv : p e.adv = p e.g) :
    p (csrwBody e d n).g = (lastSource e d n).elim (p e.g) fun v => if hit then u v else p e.g := by
  unfold csrwBody lastSource
  rw [csrwEff_field e d n e.sls _ p u hit hs]
  simp only [hadv]

/-- What register `n` = `m` holds by its last write; the last write of another register says nothing of `m`. -/
theorem last_elim {β : Type} {e : Iss} {d : Byte} {n m : Nat} {base : β} {u : Nat → β} {hit hit' : Prop} [Decidable hit] [Decidable hit']
    (hm : hit → n = m) (hh : hit' ↔ hit) : ((lastSource e d n).elim base fun v => if hit then u v else base) =
      (lastSource e d m).elim base fun v => if hit' then u v else base := by
  by_cases h : hit
  · obtain rfl := hm h
    simp only [if_pos h, if_pos (hh.2 h)]
  · simp only [if_neg h, if_neg (mt hh.1 h)]
    cases lastSource e d n <;> cases lastSource e d m <;> rfl

theorem csrwGang_trapBase (e : Iss) (n v k : Nat) (g : Gang) : (csrwGang e n v k g).trapBase =
    if n = 0x010 then BitVec.ofNat 64 (v % 2 ^ 56 / 256 * 256) else g.trapBase := by
  unfold csrwGang
  split_ifs <;> rfl

theorem csrwGang_fpxEn (e : Iss) (n v k : Nat) (g : Gang) : (csrwGang e n v k g).fpxEn =
    if n = 0x020 then BitVec.ofNat 32 v else g.fpxEn := by
  unfold csrwGang
  split_ifs <;> first | rfl | omega

theorem csrwGang_dbgCtl (e : Iss) (n v k : Nat) (g : Gang) : (csrwGang e n v k g).dbgCtl =
    if n = 0x050 ∧ facilOpen e.s.ctl.parts e.kern.part 0 = true then BitVec.ofNat 32 v else g.dbgCtl := by
  by_cases hn : n = 0x050
  · subst hn
    show (if facilOpen e.s.ctl.parts e.kern.part 0 then { g with dbgCtl := BitVec.ofNat 32 v } else g).dbgCtl = _
    by_cases ho : facilOpen e.s.ctl.parts e.kern.part 0 = true
    · rw [if_pos ho, if_pos ⟨rfl, ho⟩]
    · rw [if_neg ho, if_neg fun hc => ho hc.2]
  · rw [if_neg fun hc => hn hc.1]
    unfold csrwGang
    rw [if_neg hn]
    split_ifs <;> rfl

theorem perfGet_noSaves (c : Ctx) (core i : Nat) : perfGet (noSaves c) core i = perfGet c core i := rfl

/-- The PERF register after CSRW: the last value, and for a counter that counts issues, this issue (R80). -/
theorem csrw_perf {s : State} {e : Iss} {d : Byte} {n : BitVec 12} (h : issOf s = some e) (hno : noOverflow e (csrwBody e d n.toNat))
    {i v : Nat} (hlast : lastSource e d n.toNat = some v)
    (hi : n.toNat = 0x060 + i ∧ i < 4 ∨ n.toNat = 0x064 + i ∧ 4 ≤ i ∧ i < 8) (hopen : facilOpen s.ctl.parts e.kern.part 1 = true) :
    ∃ c, findCtx (finish e (csrwBody e d n.toNat)).ctl.ctxs e.kern.part e.kern.ctx = some c ∧ perfGet c e.core i = BitVec.ofNat 64 v +
      (if 4 ≤ i ∧ (perfGet e.ctx e.core (i - 4)).toNat = 2 then 1 else 0) := by
  obtain ⟨rfl, -, -, -, -, hctx, -⟩ := issOf_some h
  obtain ⟨y, hy, hother, hval⟩ := csrwEff_perf (d := d) (perfNumber_eq hi) e.sls (r := { st := e.s, g := e.adv }) hopen hctx
  obtain ⟨-, -, hparts⟩ := csrwEff_only e d n.toNat e.sls { st := e.s, g := e.adv } e.gi
  change (e.sls.filterMap (csrwSource e d n.toNat)).getLast? = some v at hlast
  rw [hlast] at hval
  have hcs := findCtx_noSaves (finish_ctxs hno) e.kern.part e.kern.ctx
  have hbump : findCtx (perfBump (csrwBody e d n.toNat).st.ctl e.kern.part e.kern.ctx e.core 2).ctxs e.kern.part e.kern.ctx =
      some (perfCount y e.core 2 1) := by
    rw [perfBump_ctxs, show (csrwBody e d n.toNat).st.ctl.parts = e.s.ctl.parts from hparts]
    exact (congrArg (findCtx · _ _) (if_pos hopen)).trans (findCtx_modCtx hy fun c => perfCount_id c _ _ _)
  rw [hbump, Option.map_some] at hcs
  obtain ⟨c, hc, hcy⟩ := Option.map_eq_some_iff.1 hcs
  refine ⟨c, hc, ?_⟩
  rw [← perfGet_noSaves, hcy, perfGet_noSaves, perfCount_get _ _ _ _ (by omega), hval]
  by_cases h4 : 4 ≤ i
  · rw [hother (i - 4) (by omega)]
  · rw [if_neg fun hc => h4 hc.1, if_neg fun hc => h4 hc.1]

/-- FPX_FLAGS of a slice after CSRW: without the bits written as 1 (R80). -/
theorem csrwAfter_fpx (e : Iss) (d : Byte) (n : BitVec 12) (k : Nat) (x : Slice) :
    (csrwAfter e d n.toNat k x).fpx = match csrwSource e d 0x021 k with
      | some v => if n = 0x021 ∧ k ∈ e.sls then x.fpx &&& ~~~(BitVec.ofNat 32 v) else x.fpx
      | none => x.fpx := by
  by_cases hm : e.mask.getLsbD k = true
  · have hk : k ∈ e.sls := mem_mask.2 ⟨Nat.lt_of_not_le fun hc => by simp [BitVec.getLsbD_of_ge _ _ hc] at hm, hm⟩
    rw [csrwAfter, if_pos hm]
    by_cases hn : n = 0x021
    · subst hn
      show (csrwSource e d 0x021 k).elim x.fpx _ = _
      cases csrwSource e d 0x021 k with
      | none => rfl
      | some v => exact (if_pos ⟨rfl, hk⟩).symm
    · have hn' : n.toNat ≠ 0x021 := fun hc => hn ((csr_eq_iff n 0x021 (by decide)).1 hc)
      show (if n.toNat = 0x021 then _ else x.fpx) = _
      rw [if_neg hn']
      cases csrwSource e d 0x021 k with
      | none => rfl
      | some v => exact (if_neg fun hc => hn hc.1).symm
  · rw [csrwAfter, if_neg hm]
    cases csrwSource e d 0x021 k with
    | none => rfl
    | some v => exact (if_neg fun hc => hm (mem_mask.1 hc.2).2).symm

theorem csrw_writes {s : State} {e : Iss} {d : Byte} {n : BitVec 12} (h : issOf s = some e) (hroom : RoomForTraps e)
    (hn : (WellFormed.csrWide n.toNat).isSome = true)
    (hd : (if WellFormed.csrWide n.toNat = some true then wideOk e.n d else declOk e.n d) = true)
    (hv : ∀ k ∈ e.sls, ∀ v, csrwSource e d n.toNat k = some v → csrwValueOk e n.toNat v = true) :
    ∃ t g, exec (.csrw d n) s = .next t ∧ Retired t e g ∧ OnlyGang s t e.gi ∧ Advanced e g ∧
      g.regs = e.g.regs ∧ g.preds = e.g.preds ∧ g.sregs = e.g.sregs ∧ g.gear = e.g.gear ∧
      g.axCount = e.g.axCount ∧ g.opens = e.g.opens ∧
      g.trapBase = (match lastSource e d 0x010 with
        | some v => if n = 0x010 then BitVec.ofNat 64 (v % 2 ^ 56 / 256 * 256) else e.g.trapBase
        | none => e.g.trapBase) ∧
      g.fpxEn = (match lastSource e d 0x020 with
        | some v => if n = 0x020 then BitVec.ofNat 32 v else e.g.fpxEn
        | none => e.g.fpxEn) ∧
      g.dbgCtl = (match lastSource e d 0x050 with
        | some v => if n = 0x050 ∧ facilOpen s.ctl.parts e.kern.part 0 = true then BitVec.ofNat 32 v else e.g.dbgCtl
        | none => e.g.dbgCtl) ∧
      (∀ k x, e.g.slices[k]? = some x → (g.sl k).fpx = match csrwSource e d 0x021 k with
        | some v => if n = 0x021 ∧ k ∈ e.sls then x.fpx &&& ~~~(BitVec.ofNat 32 v) else x.fpx
        | none => x.fpx) ∧
      (∀ i v, lastSource e d n.toNat = some v → (n.toNat = 0x060 + i ∧ i < 4 ∨ n.toNat = 0x064 + i ∧ 4 ≤ i ∧ i < 8) →
        facilOpen s.ctl.parts e.kern.part 1 = true →
        ∃ c, findCtx t.ctl.ctxs e.kern.part e.kern.ctx = some c ∧ perfGet c e.core i = BitVec.ofNat 64 v +
          (if 4 ≤ i ∧ (perfGet e.ctx e.core (i - 4)).toNat = 2 then 1 else 0)) := by
  obtain ⟨hexec, hno, g, hret, honly, hadv, hfile, htally⟩ := csrw_retires h hroom hn hd hv
  have hkept := csrwBody_kept e d n.toNat
  simp only [csrKept, Prod.mk.injEq] at hkept
  obtain ⟨hregs, hpreds, hsregs, hgear, hax, hopens, -⟩ := hkept
  refine ⟨_, g, hexec, hret, honly, hadv, hfile.regs.trans hregs, hfile.preds.trans hpreds, hfile.sregs.trans hsregs,
    hfile.gear.trans hgear, hfile.axCount.trans hax, hfile.opens.trans hopens, ?_, ?_, ?_, ?_, fun i v hl hi ho => csrw_perf h hno hl hi ho⟩
  · rw [hfile.trapBase, csrwBody_field e d n.toNat Gang.trapBase _ _ (fun v k g => csrwGang_trapBase ..) rfl,
      last_elim (hit' := n = 0x010) id (csr_eq_iff n 0x010 (by decide)).symm]
    cases lastSource e d 0x010 <;> rfl
  · rw [hfile.fpxEn, csrwBody_field e d n.toNat Gang.fpxEn _ _ (fun v k g => csrwGang_fpxEn ..) rfl,
      last_elim (hit' := n = 0x020) id (csr_eq_iff n 0x020 (by decide)).symm]
    cases lastSource e d 0x020 <;> rfl
  · rw [hfile.dbgCtl, csrwBody_field e d n.toNat Gang.dbgCtl _ _ (fun v k g => csrwGang_dbgCtl ..) rfl, (issOf_some h).1,
      last_elim (hit' := n = 0x050 ∧ _) And.left (and_congr_left' (csr_eq_iff n 0x050 (by decide)).symm)]
    cases lastSource e d 0x050 <;> rfl
  · intro k x hx
    have hfpx : (g.sl k).fpx = ((csrwBody e d n.toNat).g.sl k).fpx := congrArg (·.2.2.2.2.2) (htally k)
    rw [hfpx, sl_of ((csrwBody_slice e d n.toNat k).trans (congrArg _ hx))]
    exact csrwAfter_fpx e d n k x

theorem csrw_faults {s : State} {e : Iss} {d : Byte} {k : Nat} (h : issOf s = some e) (hd : declOk e.n d = true)
    (hk : lowestSuch e k fun k => ∃ v, csrwSource e d 0x020 k = some v ∧ 32 ≤ v) :
    exec (.csrw d 0x020) s = .next (raise e k .illegalOp 0) := by
  rw [exec_csrw, execCsrw_eq]
  refine legal_fault h rfl (lowestSuch_congr hk fun j _ => ?_)
  have hleg : ((WellFormed.csrWide 0x020).isSome && if csrIsWide 0x020 then wideOk e.n d else declOk e.n d) = true := hd
  show _ ↔ ((WellFormed.csrWide 0x020).isSome && (if csrIsWide 0x020 then wideOk e.n d else declOk e.n d) &&
    (csrwSource e d 0x020 j).elim true (csrwValueOk e 0x020)) = false
  rw [hleg]
  cases csrwSource e d 0x020 j <;> simp [csrwValueOk]

/-- Settles O24: the reads are results of one shape, and CSRW is the fold of its slices' writes. -/
theorem controlRegisters : Obligations.ControlRegisters := by
  unfold Obligations.ControlRegisters
  refine ⟨fun s e d h hroom => ?_, fun s e d h => ⟨fun n hroom hn hd hv => csrw_writes h hroom hn hd hv, fun hd k hk => csrw_faults h hd hk⟩⟩
  obtain rfl := (issOf_some h).1
  refine ⟨fun hd p hp => ?_, fun hd p hp => ?_, fun hd st hst _ hlo hhi p hp => ?_, fun hd p hp => ?_, fun hd p hp => ?_,
    fun i hi sel cnt hsel hcnt v hv => ⟨fun hd => ?_, fun hd => ?_⟩⟩
  · simp only [List.mem_cons, List.not_mem_nil, or_false] at hp
    rcases hp with rfl | rfl | rfl <;> exact ctr_reads h hroom hd rfl fun _ => rfl
  · simp only [List.mem_cons, List.not_mem_nil, or_false] at hp
    rcases hp with rfl | rfl | rfl | rfl | rfl | rfl | rfl | rfl | rfl | rfl | rfl | rfl <;>
      exact getc_reads h hroom hd rfl rfl
  · have hstage := stageOf_eq (p := e.kern.pkt) hst hlo hhi
    simp only [List.mem_cons, List.not_mem_nil, or_false] at hp
    rcases hp with rfl | rfl | rfl <;>
      exact getc_reads h hroom hd rfl (by rw [← hstage]; rfl)
  · simp only [List.mem_cons, List.not_mem_nil, or_false] at hp
    rcases hp with rfl | rfl | rfl | rfl | rfl | rfl | rfl | rfl | rfl | rfl
    case inr.inr.inr.inr.inr.inr.inr.inr.inr => exact csrr_reads h hroom (w := false) rfl hd (csrValue_dbgCtl e)
    all_goals exact csrr_reads h hroom (w := false) rfl hd fun _ => rfl
  · simp only [List.mem_cons, List.not_mem_nil, or_false] at hp
    rcases hp with rfl | rfl | rfl <;> exact csrr_reads h hroom (w := true) rfl hd fun _ => rfl
  · subst hv
    exact csrr_reads h hroom (w := false) (hsel ▸ (csrWide_perf hi).1) hd fun k => hsel ▸ (csrValue_perf e hi k).1
  · subst hv
    exact csrr_reads h hroom (w := true) (hcnt ▸ (csrWide_perf hi).2) hd fun k => hcnt ▸ (csrValue_perf e hi k).2

end Sys2Proof.Machine
end

section
/-! PROOFS. Proofs/ContextCommands.lean: the eight commands of the control window, each by the effect it has before its answer (R68 to
R70, R75, R88, R404). -/

namespace Sys2Proof.Machine

/-! ## The window -/

/-- The control window of a partition in RUN takes command number `n` to context `cid` (R68, R404). -/
structure WindowOpen (s : State) (p : Partition) (part n cid : Nat) : Prop where
  part : findPart s.ctl.parts part = some p
  run : p.state = .run
  number : cid < 64
  takes : WindowTakes p n cid

section
variable {s u : State} {p : Partition} {part n cid r : Nat} {f : Partition → Option Ctx → Except Nat State}

theorem findPart_id (h : findPart s.ctl.parts part = some p) : p.id = part := by
  simpa using List.find?_some h

theorem ctxCmd_ok (h : WindowOpen s p part n cid) (hf : f p (findCtx s.ctl.ctxs part cid) = .ok u) :
    ctxCmd n part cid s f = .next (cwDone u part cwOk) := by
  rw [ctxCmd_eq h.part h.run h.number h.takes, hf]

theorem ctxCmd_refused (h : WindowOpen s p part n cid) (hf : f p (findCtx s.ctl.ctxs part cid) = .error r) :
    ctxCmd n part cid s f = .next (cwRefused s part r) := by
  rw [ctxCmd_eq h.part h.run h.number h.takes, hf]
  rfl

theorem ctxwTakes_iff : ctxwTakes p n cid = true ↔ p.state = .run ∧ cid < 64 ∧ WindowTakes p n cid := by
  simp [ctxwTakes, WindowTakes, and_assoc]

theorem ctxCmd_shut (h : ∀ p, findPart s.ctl.parts part = some p → ¬ (p.state = .run ∧ cid < 64 ∧ WindowTakes p n cid)) :
    ctxCmd n part cid s f = .next s := by
  unfold ctxCmd
  cases hp : findPart s.ctl.parts part with
  | none => rfl
  | some p => simp [mt ctxwTakes_iff.1 (h p hp)]

end

/-- Each command is one of the window's, by its number (R68). -/
theorem command_ctxCmd {s : State} {part cid : Nat} {x : Nat × Instr}
    (hx : x ∈ [(1, Instr.ctxBuild part cid), (2, .ctxEnable part cid), (3, .ctxPark part cid), (4, .ctxResume part cid),
      (5, .ctxDstop part cid), (6, .ctxHalt part cid), (7, .ctxRetire part cid), (8, .ctxRelease part cid)]) :
    ∃ f, exec x.2 s = ctxCmd x.1 part cid s f ∧ (2 ≤ x.1 → x.1 ≠ 5 → ∀ p, f p none = .error cwBadState) := by
  simp only [List.mem_cons, List.not_mem_nil, or_false] at hx
  rcases hx with rfl | rfl | rfl | rfl | rfl | rfl | rfl | rfl
  · exact ⟨_, (exec_ctxBuild ..).trans rfl, by omega⟩
  · exact ⟨_, (exec_ctxEnable ..).trans rfl, fun _ _ _ => rfl⟩
  · exact ⟨_, (exec_ctxPark ..).trans rfl, fun _ _ _ => rfl⟩
  · exact ⟨_, (exec_ctxResume ..).trans rfl, fun _ _ _ => rfl⟩
  · exact ⟨_, (exec_ctxDstop ..).trans rfl, fun _ h => absurd rfl h⟩
  · exact ⟨_, (exec_ctxHalt ..).trans rfl, fun _ _ _ => rfl⟩
  · exact ⟨_, (exec_ctxRetire ..).trans rfl, fun _ _ _ => rfl⟩
  · exact ⟨_, (exec_ctxRelease ..).trans rfl, fun _ _ _ => rfl⟩

/-! ## BUILD (R69) -/

theorem findCtx_append {cs : List Ctx} {x : Ctx} (h : findCtx cs x.part x.cid = none) :
    findCtx (cs ++ [x]) x.part x.cid = some x := by
  unfold findCtx at *
  rw [List.find?_append, h]
  simp

theorem findCtx_append_other {cs : List Ctx} {x : Ctx} {q k : Nat} (h : q ≠ x.part ∨ k ≠ x.cid) :
    findCtx (cs ++ [x]) q k = findCtx cs q k := by
  have hx : (x.part == q && x.cid == k) = false := by
    rw [Bool.and_eq_false_iff, beq_eq_false_iff_ne, beq_eq_false_iff_ne]
    omega
  unfold findCtx
  rw [List.find?_append, List.find?_cons, hx, List.find?_nil, Option.or_none]

/-- The reasons for which BUILD answers BAD_DESC, as the model tests them. -/
theorem buildRefused_iff {s : State} {p : Partition} {part cid : Nat} (hid : p.id = part) (o : Option Ctx) :
    let pa := p.ctxwDesc.toNat
    let bs := paBytes s pa 128
    let d := parseDesc bs
    (o.isSome ∨ pa % 128 ≠ 0 ∨ paLocal (ownDev s.sys) pa = false ∨ p.dies.contains (homeDie (paOff pa)) = false ∨
      descOk bs part cid = false ∨ areaOk s p cid d.ptRoot d.stopArea.toNat d.stopSize = false ∨
      areaOk s p cid d.ptRoot d.saveArea.toNat d.saveSize = false) ↔ (o.isSome = true ∨ ¬ DescGood s p cid pa) := by
  subst hid
  dsimp only
  rw [descGood_iff]
  simp only [not_and_or, Bool.not_eq_true, ne_eq]

section
variable {s : State} {p : Partition} {part cid : Nat} (hw : WindowOpen s p part 1 cid)
include hw

theorem build_refused (h : (findCtx s.ctl.ctxs part cid).isSome = true ∨ ¬ DescGood s p cid p.ctxwDesc.toNat) :
    exec (.ctxBuild part cid) s = .next (cwRefused s part 1) :=
  (exec_ctxBuild ..).trans (ctxCmd_refused hw (if_pos ((buildRefused_iff (findPart_id hw.part) _).2 h)))

theorem build_latches (hc : findCtx s.ctl.ctxs part cid = none) (h : DescGood s p cid p.ctxwDesc.toNat) :
    ∃ t d, exec (.ctxBuild part cid) s = .next t ∧ Commanded s t part cid ∧ t.ctl.kernels = s.ctl.kernels ∧
      DescRead s p.ctxwDesc.toNat d ∧ findCtx t.ctl.ctxs part cid = some { part := part, cid := cid, state := .built, desc := d } := by
  have hgo : ¬ ((findCtx s.ctl.ctxs part cid).isSome = true ∨ ¬ DescGood s p cid p.ctxwDesc.toNat) := by simp [hc, h]
  let d := parseDesc (paBytes s p.ctxwDesc.toNat 128)
  let x : Ctx := { part := part, cid := cid, state := .built, desc := d }
  refine ⟨_, d, (exec_ctxBuild ..).trans (ctxCmd_ok hw (if_neg (mt (buildRefused_iff (findPart_id hw.part) _).1 hgo))),
    commanded_of hw.part (cmd_of (.refl _ _) rfl rfl (fun q k hqk => ?_) rfl), rfl, descRead_of s _, ?_⟩
  · exact findCtx_append_other (x := x) hqk
  · exact findCtx_append (x := x) hc

end

/-! ## ENABLE, PARK and RESUME (R70, R84) -/

/-- A context takes a new record, and every queue moves by its conditions. -/
theorem setSettled {s : State} {part cid : Nat} {c x : Ctx} (hc : findCtx s.ctl.ctxs part cid = some c) (hx : x.part = c.part ∧ x.cid = c.cid) :
    CmdKeep s (settleQueues (setCtx s x)) part cid ∧ OnlyIds s (settleQueues (setCtx s x)) ∧
      (settleQueues (setCtx s x)).ctl.kernels = s.ctl.kernels ∧ findCtx (settleQueues (setCtx s x)).ctl.ctxs part cid = some x := by
  obtain ⟨hp, hk⟩ := findCtx_ids hc
  have side := settleQueues_side (setCtx s x)
  refine ⟨(setCtx_cmd s (hx.1.trans hp) (hx.2.trans hk)).trans (side.cmd part cid), side.exe, ?_, ?_⟩
  · rw [side.ctl]; rfl
  · rw [side.ctl]; exact findCtx_setCtx hc (hx.1.trans hp) (hx.2.trans hk)

theorem GroupsMove.onlyIds {s t u : State} {part cid : Nat} {f : GState → GState} (h : GroupsMove s t part cid f) (hu : OnlyIds t u) :
    GroupsMove s u part cid f := by
  unfold GroupsMove
  rw [hu]
  exact h

section
variable {s : State} {p : Partition} {part cid : Nat} {c : Ctx}

theorem enable_runs (hw : WindowOpen s p part 2 cid) (hc : findCtx s.ctl.ctxs part cid = some c) (hst : c.state = .built) :
    ∃ t, exec (.ctxEnable part cid) s = .next t ∧ Commanded s t part cid ∧ t.ctl.kernels = s.ctl.kernels ∧
      CtxNow t part cid fun x => x = { c with state := .runnable } := by
  obtain ⟨hkeep, -, hkern, hnow⟩ := setSettled (x := { c with state := .runnable }) hc ⟨rfl, rfl⟩
  refine ⟨_, (exec_ctxEnable ..).trans (ctxCmd_ok hw ?_), commanded_of hw.part hkeep, hkern, _, hnow, rfl⟩
  rw [hc]
  exact if_pos hst

theorem enable_refused (hw : WindowOpen s p part 2 cid) (hc : findCtx s.ctl.ctxs part cid = some c) (hst : c.state ≠ .built) :
    exec (.ctxEnable part cid) s = .next (cwRefused s part 2) := by
  refine (exec_ctxEnable ..).trans (ctxCmd_refused hw ?_)
  rw [hc]
  exact if_neg hst

theorem park_parks (hw : WindowOpen s p part 3 cid) (hc : findCtx s.ctl.ctxs part cid = some c) (hst : c.state = .running ∨ c.state = .parked) :
    ∃ t, exec (.ctxPark part cid) s = .next t ∧ Commanded s t part cid ∧ t.ctl.kernels = s.ctl.kernels ∧
      (CtxNow t part cid fun x => x.state = .parked ∧ x.parkCmd = true) ∧ GroupsMove s t part cid parkingOf := by
  obtain ⟨hp, hk⟩ := findCtx_ids hc
  obtain ⟨hgroups, hmove⟩ := parkAll_move (s := s) (c := c) false
  rw [hp, hk] at hgroups hmove
  obtain ⟨c', hc', -⟩ := findCtx_core hgroups.ctxs hc
  obtain ⟨hkeep, hids, hkern, hnow⟩ := setSettled (x := { c' with state := .parked, parkCmd := true }) hc' ⟨rfl, rfl⟩
  refine ⟨_, (exec_ctxPark ..).trans (ctxCmd_ok hw ?_), commanded_of hw.part (hgroups.cmd.trans hkeep), hkern.trans hgroups.kernels,
    ⟨_, hnow, rfl, rfl⟩, hmove.onlyIds hids⟩
  rw [hc]
  refine (if_pos hst).trans ?_
  dsimp only
  rw [hc']

theorem park_refused (hw : WindowOpen s p part 3 cid) (hc : findCtx s.ctl.ctxs part cid = some c) (h1 : c.state ≠ .running) (h2 : c.state ≠ .parked) :
    exec (.ctxPark part cid) s = .next (cwRefused s part 2) := by
  refine (exec_ctxPark ..).trans (ctxCmd_refused hw ?_)
  rw [hc]
  exact if_neg (not_or.2 ⟨h1, h2⟩)

/-- RESUME of a context whose new record is `x`. -/
theorem resume_runs {x : Ctx} (hw : WindowOpen s p part 4 cid) (hc : findCtx s.ctl.ctxs part cid = some c) (hx : x.part = c.part ∧ x.cid = c.cid)
    (hf : c.state = .parked ∧ x = { c with state := .running, parkCmd := false } ∨ c.state = .debugStopped ∧
      x = { c with state := .running, parkCmd := false, debugHalt := false, primary := none, recs := [] }) :
    ∃ t, exec (.ctxResume part cid) s = .next t ∧ Commanded s t part cid ∧ OnlyIds s t ∧ t.ctl.kernels = s.ctl.kernels ∧
      CtxNow t part cid fun y => y = x := by
  obtain ⟨hkeep, hids, hkern, hnow⟩ := setSettled hc hx
  refine ⟨_, (exec_ctxResume ..).trans (ctxCmd_ok (u := settleQueues (setCtx s x)) hw ?_), commanded_of hw.part hkeep, hids, hkern, _, hnow, rfl⟩
  rw [hc]
  rcases hf with ⟨hst, rfl⟩ | ⟨hst, rfl⟩
  · exact if_pos hst
  · exact (if_neg (by rw [hst]; decide)).trans (if_pos hst)

theorem resume_refused (hw : WindowOpen s p part 4 cid) (hc : findCtx s.ctl.ctxs part cid = some c) (h1 : c.state ≠ .parked) (h2 : c.state ≠ .debugStopped) :
    exec (.ctxResume part cid) s = .next (cwRefused s part 2) := by
  refine (exec_ctxResume ..).trans (ctxCmd_refused hw ?_)
  rw [hc]
  exact (if_neg h1).trans (if_neg h2)

/-! ## DSTOP and HALT (R75, R88) -/

theorem haltable_iff : haltable c = true ↔ c.state = .runnable ∨ c.state = .running ∨ c.state = .parked := by
  simp [haltable, or_assoc]

theorem haltCmd_iff : (haltable c || c.state == .debugStopped) = true ↔
    c.state = .runnable ∨ c.state = .running ∨ c.state = .parked ∨ c.state = .debugStopped := by
  rw [Bool.or_eq_true, haltable_iff, beq_iff_eq, or_assoc, or_assoc]

theorem dstop_denied (hw : WindowOpen s p part 5 cid) (hf : facilOpen s.ctl.parts part 0 = false) :
    exec (.ctxDstop part cid) s = .next (cwRefused s part 4) := by
  refine (exec_ctxDstop ..).trans (ctxCmd_refused hw ?_)
  rw [findPart_id hw.part, show facDebug = 0 from rfl, hf]
  rfl

theorem dstop_stops (hw : WindowOpen s p part 5 cid) (hf : facilOpen s.ctl.parts part 0 = true) (hc : findCtx s.ctl.ctxs part cid = some c)
    (hst : c.state = .runnable ∨ c.state = .running ∨ c.state = .parked) :
    ∃ t, exec (.ctxDstop part cid) s = .next t ∧ Commanded s t part cid ∧ t.ctl.kernels = s.ctl.kernels ∧ GroupsMove s t part cid parkingOf ∧
      CtxNow t part cid fun x => x.state = .halting ∧ x.debugHalt = true ∧ x.parkCmd = false ∧
        x.primary.bind FaultRec.code = some .debugStop := by
  obtain ⟨hkeep, hmove, hkern, -, x, -, hnow, hstate, hdebug, hpark, hprim, -⟩ := raiseHalt_spec hc (dispatcherRec s part cid .debugStop 0 0) []
  refine ⟨_, (exec_ctxDstop ..).trans (ctxCmd_ok hw ?_), commanded_of hw.part hkeep, hkern rfl, hmove, x, hnow, hstate, hdebug, hpark, by rw [hprim]; rfl⟩
  rw [findPart_id hw.part, show facDebug = 0 from rfl, hf, hc]
  exact if_pos (haltable_iff.2 hst)

theorem dstop_refused (hw : WindowOpen s p part 5 cid) (hf : facilOpen s.ctl.parts part 0 = true) (hc : findCtx s.ctl.ctxs part cid = some c)
    (hst : ¬ (c.state = .runnable ∨ c.state = .running ∨ c.state = .parked)) :
    exec (.ctxDstop part cid) s = .next (cwRefused s part 2) := by
  refine (exec_ctxDstop ..).trans (ctxCmd_refused hw ?_)
  rw [findPart_id hw.part, show facDebug = 0 from rfl, hf, hc]
  exact if_neg (mt haltable_iff.1 hst)

theorem halt_halts (hw : WindowOpen s p part 6 cid) (hc : findCtx s.ctl.ctxs part cid = some c)
    (hst : c.state = .runnable ∨ c.state = .running ∨ c.state = .parked ∨ c.state = .debugStopped) :
    ∃ t, exec (.ctxHalt part cid) s = .next t ∧ Commanded s t part cid ∧ GroupsMove s t part cid killedOf ∧ KernelsStopped s t part cid 0x10 ∧
      CtxNow t part cid fun x => x.state = .halting ∧ x.debugHalt = false ∧ x.parkCmd = false ∧
        ∃ r, x.primary = some r ∧ r ∈ x.recs ∧ r.code = some .haltRequest ∧ r.kind = 8 ∧ r.die = 8 ∧ r.unit = 0 ∧
          r.prim = true ∧ r.exact = false ∧ r.info = 0x100 := by
  obtain ⟨hkeep, hmove, -, hkern, x, rs, hnow, hstate, hdebug, hpark, hprim, -, -, -, hrecs⟩ :=
    raiseHalt_spec hc (dispatcherRec s part cid .haltRequest 0x100 0) []
  refine ⟨_, (exec_ctxHalt ..).trans (ctxCmd_ok hw ?_), commanded_of hw.part hkeep, hmove, hkern (fun h => by cases h), x, hnow, hstate, hdebug, hpark,
    _, hprim, ?_, rfl, rfl, rfl, rfl, rfl, rfl, rfl⟩
  · rw [hc]
    exact if_pos (haltCmd_iff.2 hst)
  · rw [hrecs]
    simp

theorem halt_refused (hw : WindowOpen s p part 6 cid) (hc : findCtx s.ctl.ctxs part cid = some c)
    (hst : ¬ (c.state = .runnable ∨ c.state = .running ∨ c.state = .parked ∨ c.state = .debugStopped)) :
    exec (.ctxHalt part cid) s = .next (cwRefused s part 2) := by
  refine (exec_ctxHalt ..).trans (ctxCmd_refused hw ?_)
  rw [hc]
  exact if_neg (mt haltCmd_iff.1 hst)

/-! ## RETIRE and RELEASE (R70, R91, R194, R317) -/

theorem kernelInFlight_iff (hc : findCtx s.ctl.ctxs part cid = some c) : kernelInFlight s c = false ↔ NoneInFlight s part cid := by
  obtain ⟨rfl, rfl⟩ := findCtx_ids hc
  unfold kernelInFlight NoneInFlight
  rw [List.any_eq_false]
  refine forall₂_congr fun k _ => ?_
  rw [Bool.and_eq_true, Bool.or_eq_true, has_iff, kernLive_iff, beq_iff_eq]
  tauto

/-- RETIRE goes on from BUILT, from HALTED, and from RUNNABLE with nothing in flight. -/
theorem mayRetire_iff (hc : findCtx s.ctl.ctxs part cid = some c) :
    (c.state = .built ∨ c.state = .halted ∨ (c.state = .runnable ∧ kernelInFlight s c = false)) ↔
      (c.state = .built ∨ c.state = .halted ∨ (c.state = .runnable ∧ NoneInFlight s part cid)) := by
  rw [kernelInFlight_iff hc]

theorem has_false_iff {c : Ctx} {q k : Nat} : (!c.has q k) = true ↔ ¬ (q = c.part ∧ k = c.cid) := by
  rw [Bool.not_eq_true', ← Bool.not_eq_true, has_iff]

theorem mem_modIf_sat {α : Type} {q : α → Bool} {f : α → α} {l : List α} {x : α} (hx : x ∈ modIf l q f) (hq : q x = true) :
    ∃ y ∈ l, x = f y := by
  obtain ⟨y, hy, rfl⟩ := List.mem_map.1 hx
  by_cases hqy : q y = true
  · exact ⟨y, hy, if_pos hqy⟩
  · rw [if_neg hqy] at hq
    exact absurd hq hqy

theorem retireCtx_spec (hc : findCtx s.ctl.ctxs part cid = some c) : CmdKeep s (retireCtx s c) part cid ∧
    (retireCtx s c).ctl.kernels = s.ctl.kernels ∧
    (CtxNow (retireCtx s c) part cid fun x => x.state = .retired ∧ x.accs = [] ∧ x.lockUsed = 0 ∧ x.saves = [] ∧ x.held = []) ∧
    (∀ q ∈ (retireCtx s c).ctl.queues, q.part = part → q.ctx = cid → q.state = .unbound) ∧
    (∀ x ∈ (retireCtx s c).ctl.partials, ¬ (x.part = part ∧ x.ctx = cid)) ∧ (∀ x ∈ (retireCtx s c).mem.tlb, ¬ (x.part = part ∧ x.ctx = cid)) ∧
    (∀ x ∈ (retireCtx s c).mem.upper, ¬ (x.part = part ∧ x.ctx = cid)) ∧ (∀ x ∈ (retireCtx s c).mem.walks, ¬ (x.part = part ∧ x.ctx = cid)) ∧
    (∀ x ∈ (retireCtx s c).mem.icache, ¬ (x.part = part ∧ x.ctx = cid)) ∧
    ∀ g ∈ (retireCtx s c).exe.groups, ofCtx (retireCtx s c) part cid g = true → g.pins = [] := by
  obtain ⟨rfl, rfl⟩ := findCtx_ids hc
  have side := ctxQueues_side s c .unbound 0
  have hqueues := ctxQueues_state s c .unbound 0
  have hctx : findCtx (ctxQueues s c .unbound 0).ctl.ctxs c.part c.cid = some c := by rw [side.ctl]; exact hc
  have hkern : (ctxQueues s c .unbound 0).ctl.kernels = s.ctl.kernels := by rw [side.ctl]
  have hcmd := side.cmd c.part c.cid
  unfold retireCtx
  dsimp only
  generalize ctxQueues s c .unbound 0 = u at hqueues hctx hkern hcmd
  refine ⟨hcmd.trans (cmd_of (.same rfl rfl rfl rfl rfl rfl rfl id) rfl rfl (fun q k hqk => findCtx_modCtx_other (fun _ => ⟨rfl, rfl⟩) hqk) rfl),
    hkern, ⟨_, findCtx_modCtx hctx fun _ => ⟨rfl, rfl⟩, rfl, rfl, rfl, rfl, rfl⟩, fun q hq hp hk => ?_, ?_, ?_, ?_, ?_, ?_, fun g hg ho => ?_⟩
  · rcases hqueues q hq hp hk with h | ⟨h, -⟩
    · exact h
    · exact absurd rfl h
  iterate 5 exact fun x hx => has_false_iff.1 (List.mem_filter.1 hx).2
  · obtain ⟨y, -, rfl⟩ := mem_modIf_sat (q := ofCtx u c.part c.cid) hg ho
    rfl

theorem retire_retires (hw : WindowOpen s p part 7 cid) (hc : findCtx s.ctl.ctxs part cid = some c)
    (hst : c.state = .built ∨ c.state = .halted ∨ (c.state = .runnable ∧ NoneInFlight s part cid)) :
    ∃ t, exec (.ctxRetire part cid) s = .next t ∧ Commanded s t part cid ∧ t.ctl.kernels = s.ctl.kernels ∧
      (CtxNow t part cid fun x => x.state = .retired ∧ x.accs = [] ∧ x.lockUsed = 0 ∧ x.saves = [] ∧ x.held = []) ∧
      (∀ q ∈ t.ctl.queues, q.part = part → q.ctx = cid → q.state = .unbound) ∧
      (∀ x ∈ t.ctl.partials, ¬ (x.part = part ∧ x.ctx = cid)) ∧ (∀ x ∈ t.mem.tlb, ¬ (x.part = part ∧ x.ctx = cid)) ∧
      (∀ x ∈ t.mem.upper, ¬ (x.part = part ∧ x.ctx = cid)) ∧ (∀ x ∈ t.mem.walks, ¬ (x.part = part ∧ x.ctx = cid)) ∧
      (∀ x ∈ t.mem.icache, ¬ (x.part = part ∧ x.ctx = cid)) ∧ ∀ g ∈ t.exe.groups, ofCtx t part cid g = true → g.pins = [] := by
  obtain ⟨hkeep, hrest⟩ := retireCtx_spec hc
  refine ⟨_, (exec_ctxRetire ..).trans (ctxCmd_ok (u := retireCtx s c) hw ?_), commanded_of hw.part hkeep, hrest⟩
  rw [hc]
  exact if_pos ((mayRetire_iff hc).2 hst)

theorem retire_refused (hw : WindowOpen s p part 7 cid) (hc : findCtx s.ctl.ctxs part cid = some c)
    (hst : ¬ (c.state = .built ∨ c.state = .halted ∨ (c.state = .runnable ∧ NoneInFlight s part cid))) :
    exec (.ctxRetire part cid) s = .next (cwRefused s part 2) := by
  refine (exec_ctxRetire ..).trans (ctxCmd_refused hw ?_)
  rw [hc]
  exact if_neg (mt (mayRetire_iff hc).1 hst)

theorem findCtx_released (cs : List Ctx) (q k : Nat) :
    findCtx (cs.filter fun x => !(x.part == part && x.cid == cid)) q k = if q = part ∧ k = cid then none else findCtx cs q k := by
  unfold findCtx
  rw [List.find?_filter]
  split
  · rename_i h
    obtain ⟨rfl, rfl⟩ := h
    exact List.find?_eq_none.2 fun x _ => by by_cases hx : x.part = q <;> simp [hx]
  · rename_i h
    congr 1
    funext x
    by_cases hx : (x.part == q && x.cid == k) = true
    · have hids : x.part = q ∧ x.cid = k := by simpa using hx
      obtain ⟨rfl, rfl⟩ := hids
      have hne : (x.part == part && x.cid == cid) = false := by simpa using h
      simp [hne]
    · rw [Bool.not_eq_true] at hx
      simp [hx]

theorem release_frees (hw : WindowOpen s p part 8 cid) (hc : findCtx s.ctl.ctxs part cid = some c) (hst : c.state = .retired) :
    ∃ t, exec (.ctxRelease part cid) s = .next t ∧ Commanded s t part cid ∧ t.ctl.kernels = s.ctl.kernels ∧ t.exe = s.exe ∧ t.mem = s.mem ∧
      findCtx t.ctl.ctxs part cid = none := by
  let u : State := { s with ctl := { s.ctl with ctxs := s.ctl.ctxs.filter fun x => !(x.part == part && x.cid == cid) } }
  refine ⟨_, (exec_ctxRelease ..).trans (ctxCmd_ok (u := u) hw ?_), commanded_of hw.part (cmd_of (.refl _ _) rfl rfl (fun q k hqk => ?_) rfl),
    rfl, rfl, rfl, (findCtx_released s.ctl.ctxs part cid).trans (if_pos ⟨rfl, rfl⟩)⟩
  · rw [hc]
    exact if_pos hst
  · exact (findCtx_released s.ctl.ctxs q k).trans (if_neg (by omega))

theorem release_refused (hw : WindowOpen s p part 8 cid) (hc : findCtx s.ctl.ctxs part cid = some c) (hst : c.state ≠ .retired) :
    exec (.ctxRelease part cid) s = .next (cwRefused s part 2) := by
  refine (exec_ctxRelease ..).trans (ctxCmd_refused hw ?_)
  rw [hc]
  exact if_neg hst

end

/-- Settles O46: each command is the window's one form with its own effect, and a refusal writes the answer alone. -/
theorem contextCommands : Obligations.ContextCommands := by
  unfold Obligations.ContextCommands
  intro s part cid
  refine ⟨fun hshut i hi => ?_, fun p hp hrun hnum => ⟨fun x hx => ?_, fun hw hc => ?_, fun hw hf => ?_, fun c hc => ?_⟩⟩
  · obtain ⟨n, hx⟩ : ∃ n, (n, i) ∈ [(1, Instr.ctxBuild part cid), (2, .ctxEnable part cid), (3, .ctxPark part cid), (4, .ctxResume part cid),
        (5, .ctxDstop part cid), (6, .ctxHalt part cid), (7, .ctxRetire part cid), (8, .ctxRelease part cid)] := by
      simp only [List.mem_cons, List.not_mem_nil, or_false] at hi
      rcases hi with rfl | rfl | rfl | rfl | rfl | rfl | rfl | rfl <;> simp
    obtain ⟨f, hf, -⟩ := command_ctxCmd hx
    rw [hf]
    refine ctxCmd_shut fun p hp ⟨hrun, hnum, _⟩ => ?_
    rcases hshut p hp with h | h
    · exact h hrun
    · omega
  · obtain ⟨f, hf, hnone⟩ := command_ctxCmd (s := s) hx
    rw [hf]
    refine ⟨fun hw => ctxCmd_shut fun q hq ⟨_, _, hwq⟩ => ?_, fun hw h2 h5 hc => ctxCmd_refused ⟨hp, hrun, hnum, hw⟩ ?_⟩
    · obtain rfl := Option.some.inj (hp.symm.trans hq)
      exact hw hwq
    · rw [hc, hnone h2 h5]
      rfl
  · have hopen : WindowOpen s p part 1 cid := ⟨hp, hrun, hnum, hw⟩
    exact ⟨build_latches hopen hc, fun h => build_refused hopen (.inr h)⟩
  · exact dstop_denied ⟨hp, hrun, hnum, hw⟩ hf
  · have hopen : ∀ {n}, WindowTakes p n cid → WindowOpen s p part n cid := fun hw => ⟨hp, hrun, hnum, hw⟩
    refine ⟨fun hw => build_refused (hopen hw) (.inl (by rw [hc]; rfl)),
      fun hw => ⟨enable_runs (hopen hw) hc, enable_refused (hopen hw) hc⟩,
      fun hw => ⟨park_parks (hopen hw) hc, park_refused (hopen hw) hc⟩,
      fun hw => ⟨fun h => resume_runs (hopen hw) hc ⟨rfl, rfl⟩ (.inl ⟨h, rfl⟩), fun h => resume_runs (hopen hw) hc ⟨rfl, rfl⟩ (.inr ⟨h, rfl⟩),
        resume_refused (hopen hw) hc⟩,
      fun hw hf => ⟨dstop_stops (hopen hw) hf hc, fun h1 h2 h3 => dstop_refused (hopen hw) hf hc (by tauto)⟩,
      fun hw => ⟨halt_halts (hopen hw) hc, fun h1 h2 h3 h4 => halt_refused (hopen hw) hc (by tauto)⟩,
      fun hw => ⟨retire_retires (hopen hw) hc, fun h1 h2 h3 => retire_refused (hopen hw) hc (by tauto)⟩,
      fun hw => ⟨release_frees (hopen hw) hc, release_refused (hopen hw) hc⟩⟩

end Sys2Proof.Machine
end

section
/-! PROOFS. Proofs/HaltsAndStops.lean: faults at the hub, the end of a halt and the watchdog (R70, R72 to R74, R76, R88, R91, R112,
R113). -/

namespace Sys2Proof.Machine

/-! ## Sorted lists -/

section
variable {α : Type} {before : α → α → Bool}

theorem ins_sorted (total : ∀ a b, before a b = true ∨ before b a = true) (trans : ∀ a b c, before a b = true → before b c = true → before a c = true)
    (x : α) {l : List α} (h : l.Pairwise fun a b => before a b = true) : (sortWith.ins before x l).Pairwise fun a b => before a b = true := by
  induction h with
  | nil => exact List.pairwise_singleton ..
  | @cons y t hy ht ih =>
    unfold sortWith.ins
    split
    · rename_i hyx
      refine List.pairwise_cons.2 ⟨fun z hz => ?_, ih⟩
      rcases (mem_ins before x t z).1 hz with rfl | hz
      · exact hyx
      · exact hy z hz
    · rename_i hyx
      have hxy : before x y = true := (total x y).resolve_right hyx
      refine List.pairwise_cons.2 ⟨fun z hz => ?_, List.pairwise_cons.2 ⟨hy, ht⟩⟩
      rcases List.mem_cons.1 hz with rfl | hz
      · exact hxy
      · exact trans x y z hxy (hy z hz)

theorem sortWith_sorted (total : ∀ a b, before a b = true ∨ before b a = true) (trans : ∀ a b c, before a b = true → before b c = true → before a c = true)
    (l : List α) : (sortWith before l).Pairwise fun a b => before a b = true := by
  induction l with
  | nil => exact .nil
  | cons x l ih => exact ins_sorted total trans x ih

end

/-- The faults of a list that pass a test, in the order of their ranks (R74). -/
theorem sorted_filter {L : List FaultRec} {p : FaultRec → Bool} {f : FaultRec} (hL : ∀ g ∈ L, g.kind < 16 ∧ g.unit < 256 ∧ g.place < 256 ∧ g.die ≤ 8)
    (hf : FirstOf (L.filter p) f) : ∃ rest, (sortWith (fun a b => decide (faultRank a ≤ faultRank b)) L).filter p = f :: rest ∧
      ∀ g ∈ L.filter p, g ≠ f → g ∈ rest := by
  have hmem : ∀ g, g ∈ (sortWith (fun a b => decide (faultRank a ≤ faultRank b)) L).filter p ↔ g ∈ L.filter p := fun g => by
    rw [List.mem_filter, List.mem_filter, mem_sortWith]
  have hsorted : ((sortWith (fun a b => decide (faultRank a ≤ faultRank b)) L).filter p).Pairwise fun a b => faultRank a ≤ faultRank b := by
    refine ((sortWith_sorted (fun a b => ?_) (fun a b c => ?_) L).filter p).imp of_decide_eq_true
    · simpa using Nat.le_total ..
    · simpa using Nat.le_trans
  generalize (sortWith (fun a b => decide (faultRank a ≤ faultRank b)) L).filter p = S at hmem hsorted
  obtain ⟨hfL, hfirst⟩ := hf
  cases S with
  | nil => exact absurd ((hmem f).2 hfL) List.not_mem_nil
  | cons x rest =>
    have hx : x = f := by
      have hxL := (hmem x).1 List.mem_cons_self
      rcases hfirst x hxL with rfl | ha
      · rfl
      · have hlt := faultRank_lt (hL f (List.mem_filter.1 hfL).1) (hL x (List.mem_filter.1 hxL).1) ha
        rcases List.mem_cons.1 ((hmem f).2 hfL) with rfl | hr
        · rfl
        · exact absurd ((List.pairwise_cons.1 hsorted).1 f hr) (Nat.not_le.2 hlt)
    subst hx
    exact ⟨rest, rfl, fun g hg hne => (List.mem_cons.1 ((hmem g).2 hg)).resolve_left hne⟩

/-! ## FAULT_AT_HUB (R70, R73, R74) -/

theorem CmdKeep.headersOnly {s t : State} {part cid : Nat} (h : CmdKeep s t part cid) : HeadersOnly s t := fun hg off ha hq => by
  obtain ⟨halone, hbyte⟩ := h.bytes hg off ha
  refine (coByte_alone halone).trans ((hbyte ?_).trans (coByte_alone ha).symm)
  rintro ⟨q, hm, e⟩
  have := hq q hm
  omega

/-- The faults of a context taken off their way. -/
def faultsTaken (s : State) (part cid : Nat) : State := { s with ctl := { s.ctl with faults := faultsLeft s part cid } }

/-- The faults of a context in the order of their ranks. -/
def ranked (s : State) (part cid : Nat) : List FaultRec := sortWith (fun a b => decide (faultRank a ≤ faultRank b)) (arrived s part cid)

theorem mem_ranked {s : State} {part cid : Nat} {g : FaultRec} : g ∈ ranked s part cid ↔ g ∈ arrived s part cid := mem_sortWith ..

/-- A fault in the range of its fields (R76). -/
def RankFields (s : State) (part cid : Nat) : Prop := ∀ g ∈ arrived s part cid, g.kind < 16 ∧ g.unit < 256 ∧ g.place < 256 ∧ g.die ≤ 8

/-- The state of a context that the faults `fs` have reached, the first of them in rank at the head (R70, R73). -/
def hubTakes (s : State) (c : Ctx) (fs : List FaultRec) : State :=
  match fs with
  | [] => s
  | f :: rest =>
    match c.state with
    | .free | .built | .retired => s
    | .runnable | .running | .parked => raiseHalt s c f rest
    | .debugStopped => (match fs.filter fun r => r.code != some .debugStop with
      | [] => s
      | g :: others => raiseHalt s c g others)
    | .halting => setCtx s { c with recs := c.recs ++ fs.map fun r => { r with dbg := c.debugHalt } }
    | .halted => writeStop (setCtx s { c with recs := c.recs ++ fs }) { c with recs := c.recs ++ fs }

section
variable {s : State} {part cid : Nat} {c : Ctx} {f : FaultRec}

theorem faultAtHub_none (h : findCtx s.ctl.ctxs part cid = none) : exec (.faultAtHub part cid) s = .next (faultsTaken s part cid) := by
  show (match ranked s part cid, findCtx s.ctl.ctxs part cid with | f :: rest, some c => _ | _, _ => _) = _
  rw [h]
  cases ranked s part cid <;> rfl

theorem faultAtHub_some (hc : findCtx s.ctl.ctxs part cid = some c) :
    exec (.faultAtHub part cid) s = .next (hubTakes (faultsTaken s part cid) c (ranked s part cid)) := by
  rw [exec_faultAtHub]
  unfold execFaultAtHub ranked arrived
  dsimp only
  rw [hc]
  generalize sortWith (fun a b => decide (faultRank a ≤ faultRank b)) (s.ctl.faults.filter fun f => f.part == part && f.ctx == cid) = fs
  cases fs with
  | nil => rfl
  | cons f rest =>
    dsimp only
    unfold hubTakes
    cases c.state
    case debugStopped =>
      dsimp only
      cases (f :: rest).filter fun r => r.code != some .debugStop <;> rfl
    all_goals rfl

/-- A context that is FREE, BUILT or RETIRED discards its faults (R70). -/
theorem hubTakes_discards (hst : c.state = .free ∨ c.state = .built ∨ c.state = .retired) (fs : List FaultRec) : hubTakes s c fs = s := by
  unfold hubTakes
  cases fs with
  | nil => rfl
  | cons f rest => rcases hst with e | e | e <;> rw [e]

theorem hubTakes_halts (hst : c.state = .runnable ∨ c.state = .running ∨ c.state = .parked) (f : FaultRec) (rest : List FaultRec) :
    hubTakes s c (f :: rest) = raiseHalt s c f rest := by
  unfold hubTakes
  rcases hst with e | e | e <;> rw [e]

theorem hubTakes_stopped (hst : c.state = .debugStopped) (fs : List FaultRec) :
    hubTakes s c fs = match fs.filter fun r => r.code != some .debugStop with
      | [] => s
      | g :: others => raiseHalt s c g others := by
  unfold hubTakes
  cases fs with
  | nil => rfl
  | cons f rest => rw [hst]

theorem ctxNow_recs_nil (hc : findCtx s.ctl.ctxs part cid = some c) : CtxNow s part cid fun x => x = { c with recs := c.recs ++ [] } :=
  ⟨c, hc, by rw [List.append_nil]⟩

/-- Faults that find the context HALTING are only recorded (R70). -/
theorem hubTakes_halting (hc : findCtx s.ctl.ctxs part cid = some c) (hst : c.state = .halting) (fs : List FaultRec) : ∃ ctxs,
    hubTakes s c fs = { s with ctl := { s.ctl with ctxs := ctxs } } ∧
      CtxNow (hubTakes s c fs) part cid fun x => x = { c with recs := c.recs ++ fs.map fun r => { r with dbg := c.debugHalt } } := by
  obtain ⟨hp, hk⟩ := findCtx_ids hc
  unfold hubTakes
  cases fs with
  | nil => exact ⟨_, rfl, ctxNow_recs_nil hc⟩
  | cons f rest =>
    dsimp only
    split <;> rename_i e <;> rw [hst] at e <;> cases e
    refine ⟨_, rfl, _, findCtx_setCtx hc ?_ ?_, rfl⟩
    exacts [hp, hk]

/-- Faults that find the context HALTED are recorded, and its stop records written (R70, R76). -/
theorem hubTakes_halted (hc : findCtx s.ctl.ctxs part cid = some c) (hst : c.state = .halted) (fs : List FaultRec) : ∃ ctxs,
    HomeSide (fun _ => True) { s with ctl := { s.ctl with ctxs := ctxs } } (hubTakes s c fs) ∧
      CtxNow (hubTakes s c fs) part cid fun x => x = { c with recs := c.recs ++ fs } := by
  obtain ⟨hp, hk⟩ := findCtx_ids hc
  unfold hubTakes
  cases fs with
  | nil => exact ⟨_, .refl _ s, ctxNow_recs_nil hc⟩
  | cons f rest =>
    dsimp only
    split <;> rename_i e <;> rw [hst] at e <;> cases e
    have hside := writeStop_side (setCtx s { c with recs := c.recs ++ f :: rest }) { c with recs := c.recs ++ f :: rest }
    refine ⟨_, hside, _, ?_, rfl⟩
    rw [hside.ctl]
    refine findCtx_setCtx hc ?_ ?_
    exacts [hp, hk]

theorem atHub_discards (h : findCtx s.ctl.ctxs part cid = none ∨ ∃ c, findCtx s.ctl.ctxs part cid = some c ∧ (c.state = .free ∨ c.state = .built ∨ c.state = .retired)) :
    exec (.faultAtHub part cid) s = .next (faultsTaken s part cid) := by
  rcases h with h | ⟨c, hc, hst⟩
  · exact faultAtHub_none h
  · rw [faultAtHub_some hc, hubTakes_discards hst]

/-- The halt line raised for the faults `fs`, of which `f` is first in rank. -/
theorem haltEntered_of {fs rest : List FaultRec} (hc : findCtx s.ctl.ctxs part cid = some c) (hrest : ∀ g ∈ fs, g ≠ f → g ∈ rest) :
    HaltEntered s (raiseHalt (faultsTaken s part cid) c f rest) part cid f fs := by
  obtain ⟨hkeep, hmove, hkern, hstop, x, rs, hnow, hstate, hdebug, hpark, hprim, ht0, -, -, hrecs⟩ :=
    raiseHalt_spec (s := faultsTaken s part cid) hc f rest
  refine ⟨raiseHalt_faults .., hkeep.headersOnly, hkeep.others, hmove, ?_, x, hnow, hstate, hdebug, hpark, ht0, hprim, fun g hg hne => ?_⟩
  · split
    · rename_i h
      exact hkern h
    · rename_i h
      exact hstop h
  · rw [hrecs]
    exact List.mem_append_left _ (List.mem_append_right _ (List.mem_cons_of_mem _ (List.mem_map_of_mem (hrest g hg hne))))

theorem atHub_halts (hc : findCtx s.ctl.ctxs part cid = some c) (hr : RankFields s part cid) (hst : c.state = .runnable ∨ c.state = .running ∨ c.state = .parked)
    (hf : FirstOf (arrived s part cid) f) : ∃ t, exec (.faultAtHub part cid) s = .next t ∧ HaltEntered s t part cid f (arrived s part cid) := by
  obtain ⟨rest, hs, hrest⟩ := sorted_faults hf.1 fun g hg => by
    obtain ⟨h1, h2, h3, h4⟩ := hr g hg
    exact ⟨h1, h2, h3, h4, hf.2 g hg⟩
  refine ⟨_, ?_, haltEntered_of hc hrest⟩
  rw [faultAtHub_some hc, show ranked s part cid = f :: rest from hs, hubTakes_halts hst]

theorem atHub_halts_stopped (hc : findCtx s.ctl.ctxs part cid = some c) (hr : RankFields s part cid) (hst : c.state = .debugStopped)
    (hf : FirstOf ((arrived s part cid).filter fun g => g.code != some .debugStop) f) :
    ∃ t, exec (.faultAtHub part cid) s = .next t ∧ HaltEntered s t part cid f ((arrived s part cid).filter fun g => g.code != some .debugStop) := by
  obtain ⟨rest, hs, hrest⟩ := sorted_filter hr hf
  refine ⟨_, ?_, haltEntered_of hc hrest⟩
  rw [faultAtHub_some hc, hubTakes_stopped hst, show (ranked s part cid).filter _ = f :: rest from hs]

theorem atHub_debugStops (hc : findCtx s.ctl.ctxs part cid = some c) (hst : c.state = .debugStopped) (h : ∀ g ∈ arrived s part cid, g.code = some .debugStop) :
    exec (.faultAtHub part cid) s = .next (faultsTaken s part cid) := by
  rw [faultAtHub_some hc, hubTakes_stopped hst, List.filter_eq_nil_iff.2 fun g hg => by rw [h g (mem_ranked.1 hg)]; decide]

theorem atHub_halting (hc : findCtx s.ctl.ctxs part cid = some c) (hst : c.state = .halting) :
    ∃ t rs, exec (.faultAtHub part cid) s = .next t ∧ t.exe = s.exe ∧ t.mem = s.mem ∧ t.sys = s.sys ∧
      t.ctl.faults = faultsLeft s part cid ∧ t.ctl.queues = s.ctl.queues ∧ t.ctl.kernels = s.ctl.kernels ∧
      (CtxNow t part cid fun x => x = { c with recs := c.recs ++ rs }) ∧ ∀ g ∈ arrived s part cid, { g with dbg := c.debugHalt } ∈ rs := by
  obtain ⟨ctxs, he, hnow⟩ := hubTakes_halting (s := faultsTaken s part cid) hc hst (ranked s part cid)
  refine ⟨_, _, faultAtHub_some hc, ?_, ?_, ?_, ?_, ?_, ?_, hnow, fun g hg => ?_⟩
  iterate 6 rw [he]; rfl
  exact List.mem_map_of_mem (f := fun r : FaultRec => { r with dbg := c.debugHalt }) (mem_ranked.2 hg)

theorem atHub_halted (hc : findCtx s.ctl.ctxs part cid = some c) (hst : c.state = .halted) :
    ∃ t rs, exec (.faultAtHub part cid) s = .next t ∧ OnlyIds s t ∧ t.sys = s.sys ∧
      t.ctl.faults = faultsLeft s part cid ∧ t.ctl.queues = s.ctl.queues ∧ t.ctl.kernels = s.ctl.kernels ∧
      (CtxNow t part cid fun x => x = { c with recs := c.recs ++ rs }) ∧ ∀ g ∈ arrived s part cid, g ∈ rs := by
  obtain ⟨ctxs, hside, hnow⟩ := hubTakes_halted (s := faultsTaken s part cid) hc hst (ranked s part cid)
  refine ⟨_, _, faultAtHub_some hc, hside.exe, hside.sys, ?_, ?_, ?_, hnow, fun g hg => mem_ranked.2 hg⟩
  iterate 3 rw [hside.ctl]; rfl

end

/-! ## CONTEXT_STOPPED (R70, R88, R91, R112, R113) -/

/-- A kernel whose completion waits for its context to reach HALTED. -/
def AwaitsHalt (part cid : Nat) (k : Kernel) : Prop := k.part = part ∧ k.ctx = cid ∧ k.due = .atHalt

/-- What completions at HALTED keep, and the kernels they were made for. -/
structure CompletedAt (s t : State) (part cid : Nat) (L : List Nat) : Prop where
  exe : OnlyIds s t
  ops : t.mem.ops = s.mem.ops
  ctxs : t.ctl.ctxs = s.ctl.ctxs
  kernels : ∀ (i : Nat) (k : Kernel), s.ctl.kernels[i]? = some k → ∃ k', t.ctl.kernels[i]? = some k' ∧ k' = { k with due := k'.due } ∧
    (¬ AwaitsHalt part cid k → k' = k) ∧ (i ∈ L → ¬ AwaitsHalt part cid k')

theorem CompletedAt.refl (s : State) (part cid : Nat) : CompletedAt s s part cid [] :=
  ⟨rfl, rfl, rfl, fun _ k hk => ⟨k, hk, rfl, fun _ => rfl, fun h => absurd h List.not_mem_nil⟩⟩

theorem CompletedAt.trans {s t u : State} {part cid : Nat} {L M : List Nat} (h : CompletedAt s t part cid L) (h' : CompletedAt t u part cid M) :
    CompletedAt s u part cid (L ++ M) where
  exe := by rw [OnlyIds, h'.exe, h.exe]
  ops := h'.ops.trans h.ops
  ctxs := h'.ctxs.trans h.ctxs
  kernels := fun i k hk => by
    obtain ⟨k1, hk1, e1, same1, done1⟩ := h.kernels i k hk
    obtain ⟨k2, hk2, e2, same2, done2⟩ := h'.kernels i k1 hk1
    refine ⟨k2, hk2, by rw [e2, e1], fun hn => ?_, fun hi => ?_⟩
    · obtain rfl := same1 hn
      exact same2 hn
    · rcases List.mem_append.1 hi with hi | hi
      · rw [same2 (done1 hi)]
        exact done1 hi
      · exact done2 hi

/-- A kernel's completion: its record keeps all but `due`, which leaves atHalt. -/
theorem completeKernel_spec {s : State} {i : Nat} {k : Kernel} (hk : s.ctl.kernels[i]? = some k) :
    OnlyIds s (completeKernel s i) ∧ (completeKernel s i).mem.ops = s.mem.ops ∧ (completeKernel s i).ctl.ctxs = s.ctl.ctxs ∧
      ∃ d, d ≠ .atHalt ∧ (completeKernel s i).ctl.kernels = modAt s.ctl.kernels i fun x => { x with due := d } := by
  unfold completeKernel
  rw [hk]
  dsimp only
  split
  · exact ⟨rfl, rfl, rfl, .none, by decide, rfl⟩
  · rename_i c _
    obtain ⟨u, side, hu⟩ := complete_side (modKern s i fun x => { x with due := .none }) c i k
      (if usesWset k.pkt then some (statusWord k k.status k.faultCode) else none)
    have hkern : u.ctl.kernels = modAt s.ctl.kernels i fun x => { x with due := .none } := by rw [side.ctl]; rfl
    have hctxs : u.ctl.ctxs = s.ctl.ctxs := by rw [side.ctl]; rfl
    rcases hu with hu | hu
    · rw [hu]
      exact ⟨side.exe, side.mem.ops, hctxs, .none, by decide, hkern⟩
    · rw [hu]
      refine ⟨side.exe, side.mem.ops, hctxs, .add, by decide, ?_⟩
      show modAt u.ctl.kernels i _ = _
      rw [hkern, modAt_modAt]

/-- The completion made for kernel `i`, where it waits for HALTED. -/
def completeAt (c : Ctx) (s : State) (i : Nat) : State :=
  match s.ctl.kernels[i]? with
  | none => s
  | some k => if c.has k.part k.ctx && k.due == .atHalt then completeKernel s i else s

theorem awaits_iff {c : Ctx} {k : Kernel} : (c.has k.part k.ctx && k.due == .atHalt) = true ↔ AwaitsHalt c.part c.cid k := by
  rw [Bool.and_eq_true, has_iff, beq_iff_eq, and_assoc]
  rfl

theorem completeAt_spec (s : State) (c : Ctx) (i : Nat) : CompletedAt s (completeAt c s i) c.part c.cid [i] := by
  have untouched : (∀ k, s.ctl.kernels[i]? = some k → ¬ AwaitsHalt c.part c.cid k) → CompletedAt s s c.part c.cid [i] := fun h =>
    ⟨rfl, rfl, rfl, fun j k hj => ⟨k, hj, rfl, fun _ => rfl, fun hm => by
      rw [List.mem_singleton.1 hm] at hj
      exact h k hj⟩⟩
  unfold completeAt
  cases hk : s.ctl.kernels[i]? with
  | none => exact untouched fun k h => by rw [hk] at h; cases h
  | some k =>
    dsimp only
    split
    · rename_i hw
      obtain ⟨hexe, hops, hctxs, d, hd, hkern⟩ := completeKernel_spec hk
      refine ⟨hexe, hops, hctxs, fun j k' hj => ?_⟩
      rw [hkern, modAt_get]
      by_cases hji : j = i
      · subst hji
        obtain rfl := Option.some.inj (hk.symm.trans hj)
        rw [if_pos rfl, hj]
        exact ⟨_, rfl, rfl, fun hn => absurd (awaits_iff.1 hw) hn, fun _ h => hd h.2.2⟩
      · rw [if_neg hji]
        exact ⟨k', hj, rfl, fun _ => rfl, fun hm => absurd (List.mem_singleton.1 hm) hji⟩
    · rename_i hw
      refine untouched fun k' h => ?_
      obtain rfl := Option.some.inj (hk.symm.trans h)
      exact mt awaits_iff.2 hw

/-- The completions that waited for the context to reach HALTED (R113). -/
theorem completeHalted_spec (s : State) (c : Ctx) : CompletedAt s (completeHalted s c) c.part c.cid (List.range s.ctl.kernels.length) := by
  have fold : ∀ (L : List Nat) (s : State), CompletedAt s (L.foldl (completeAt c) s) c.part c.cid L := by
    intro L
    induction L with
    | nil => exact fun s => .refl s ..
    | cons i L ih => exact fun s => (completeAt_spec s c i).trans (ih _)
  exact fold _ s

theorem mem_setQState {s : State} {p q : Queue} {x : QState} {err : Nat} {f : Queue → Queue} (hf : ∀ y, (f y).id = y.id)
    (hq : q ∈ (setQState (modQueue s p.id f) p x err).ctl.queues) :
    (q ∈ s.ctl.queues ∧ q.id ≠ p.id) ∨ ∃ y ∈ s.ctl.queues, ∃ st, y.id = p.id ∧ q = { f y with state := st } := by
  have hmod : ∀ y ∈ (modQueue s p.id f).ctl.queues, (y ∈ s.ctl.queues ∧ y.id ≠ p.id) ∨ ∃ z ∈ s.ctl.queues, z.id = p.id ∧ y = f z := by
    intro y hy
    obtain ⟨z, hz, rfl⟩ := List.mem_map.1 hy
    split
    · rename_i h
      exact .inr ⟨z, hz, beq_iff_eq.1 h, rfl⟩
    · rename_i h
      exact .inl ⟨hz, fun e => h (beq_iff_eq.2 e)⟩
  rw [setQState_queues] at hq
  split at hq
  · rcases hmod q (List.mem_filter.1 hq).1 with h | ⟨z, hz, hid, rfl⟩
    · exact .inl h
    · exact .inr ⟨z, hz, (f z).state, hid, rfl⟩
  · obtain ⟨y, hy, rfl⟩ := List.mem_map.1 hq
    rcases hmod y hy with ⟨h, hne⟩ | ⟨z, hz, hid, rfl⟩
    · rw [if_neg (by simpa using hne)]
      exact .inl ⟨h, hne⟩
    · rw [if_pos (by simp [hf, hid])]
      exact .inr ⟨z, hz, x, hid, rfl⟩

/-- Of the context's queues that have been moved, none keeps a packet taken. -/
theorem ctxQueues_taken (s : State) (c : Ctx) (x : QState) (err : Nat) :
    ∀ q ∈ (ctxQueues s c x err).ctl.queues, q.part = c.part → q.ctx = c.cid → q.state = .unbound ∨ q.taken = none := by
  have fold : ∀ (L : List Queue) (s : State), ∀ q ∈ (L.foldl (fun s q => setQState (modQueue s q.id fun y => { y with taken := none }) q x err) s).ctl.queues,
      (q ∈ s.ctl.queues ∧ ∀ p ∈ L, q.id ≠ p.id) ∨ q.taken = none := by
    intro L
    induction L with
    | nil => exact fun s q hq => .inl ⟨hq, fun p hp => absurd hp List.not_mem_nil⟩
    | cons p L ih =>
      intro s q hq
      rcases ih _ q hq with ⟨h, hL⟩ | h
      · rcases mem_setQState (f := fun y => { y with taken := none }) (fun _ => rfl) h with ⟨h, hne⟩ | ⟨y, -, st, -, rfl⟩
        · refine .inl ⟨h, fun r hr => ?_⟩
          rcases List.mem_cons.1 hr with rfl | hr
          · exact hne
          · exact hL r hr
        · exact .inr rfl
      · exact .inr h
  intro q hq hp hk
  rcases fold _ s q hq with ⟨h, hL⟩ | h
  · by_cases hu : q.state = .unbound
    · exact .inl hu
    · exact absurd rfl (hL q (List.mem_filter.2 ⟨h, by simp [hp, hk, hu]⟩))
  · exact .inr h

theorem debugDone_false_iff {s : State} {c : Ctx} {g : Group} : debugDone s c g = false ↔ StillRuns s c g := by
  unfold debugDone StillRuns resident
  cases g.state <;> cases g.tile <;> simp [or_iff_not_imp_left]

theorem copiesGo_iff {s : State} {c : Ctx} : (s.exe.copies.any fun x => c.has x.part x.ctx && copyGoes s x) = true ↔
    ∃ x ∈ s.exe.copies, x.part = c.part ∧ x.ctx = c.cid ∧ copyGoes s x = true := by
  simp only [List.any_eq_true, Bool.and_eq_true, has_iff, and_assoc]

section
variable {s : State} {part cid : Nat} {c : Ctx}

theorem stopped_unread (h : ∀ c, findCtx s.ctl.ctxs part cid = some c → c.state ≠ .halting ∨ ∃ x ∈ s.exe.copies, x.part = c.part ∧ x.ctx = c.cid ∧ copyGoes s x = true) :
    exec (.contextStopped part cid) s = .next s := by
  rw [exec_contextStopped]
  unfold execContextStopped
  split
  · rfl
  · rename_i c hc
    exact if_pos ((h c hc).imp_right copiesGo_iff.2)

/-- The copies of a halting context all stand at the end of a beat, or are done. -/
def CopiesStand (s : State) (c : Ctx) : Prop := ∀ x ∈ s.exe.copies, x.part = c.part → x.ctx = c.cid → copyGoes s x = false

theorem copiesStand_go (h : CopiesStand s c) : ¬ (s.exe.copies.any fun x => c.has x.part x.ctx && copyGoes s x) = true := fun hgo => by
  obtain ⟨x, hx, hp, hk, hg⟩ := copiesGo_iff.1 hgo
  rw [h x hx hp hk] at hg
  cases hg

/-- CONTEXT_STOPPED of a halting context none of whose copies stands inside a beat. -/
theorem stopped_eq (hc : findCtx s.ctl.ctxs part cid = some c) (hst : c.state = .halting) (hgo : CopiesStand s c) :
    exec (.contextStopped part cid) s =
      if c.debugHalt then
        if s.exe.groups.all (debugDone s c) then .next (settleQueues (writeStop (setCtx s { c with state := .debugStopped }) c)) else .next s
      else
        let c := { c with recs := c.recs ++ newEngines c.recs (copyUnitRecs s c) }
        .next (ctxQueues (completeHalted (dropWork (setCtx (writeStop s c) { c with state := .halted }) c) c) c .error 4) := by
  rw [exec_contextStopped]
  unfold execContextStopped
  rw [hc]
  exact if_neg (not_or.2 ⟨not_not_intro hst, copiesStand_go hgo⟩)

theorem debugStop_waits (hc : findCtx s.ctl.ctxs part cid = some c) (hst : c.state = .halting) (hgo : CopiesStand s c) (hd : c.debugHalt = true)
    (h : ∃ g ∈ s.exe.groups, StillRuns s c g) : exec (.contextStopped part cid) s = .next s := by
  obtain ⟨g, hg, hr⟩ := h
  rw [stopped_eq hc hst hgo, if_pos hd, if_neg]
  rw [Bool.not_eq_true, List.all_eq_false]
  exact ⟨g, hg, by rw [debugDone_false_iff.2 hr]; decide⟩

theorem debugStop_ends (hc : findCtx s.ctl.ctxs part cid = some c) (hst : c.state = .halting) (hgo : CopiesStand s c) (hd : c.debugHalt = true)
    (h : ∀ g ∈ s.exe.groups, ¬ StillRuns s c g) : ∃ t, exec (.contextStopped part cid) s = .next t ∧ OnlyIds s t ∧
      t.ctl.kernels = s.ctl.kernels ∧ CtxNow t part cid fun x => x = { c with state := .debugStopped } := by
  obtain ⟨hp, hk⟩ := findCtx_ids hc
  have hall : s.exe.groups.all (debugDone s c) = true := List.all_eq_true.2 fun g hg =>
    (Bool.eq_false_or_eq_true _).resolve_right fun hf => h g hg (debugDone_false_iff.1 hf)
  have hside := (writeStop_side (setCtx s { c with state := .debugStopped }) c).queue.trans
    ((settleQueues_side _).mono fun _ _ => trivial)
  refine ⟨_, by rw [stopped_eq hc hst hgo, if_pos hd, if_pos hall], hside.exe, ?_, _, ?_, rfl⟩
  · rw [hside.ctl]; rfl
  · rw [hside.ctl]
    exact findCtx_setCtx hc hp hk

/-- What a fatal halt leaves when it ends (R70, R91, R113). -/
structure HaltedFrom (s t : State) (part cid : Nat) : Prop where
  now : CtxNow t part cid fun x => x.state = .halted
  others : ∀ p k, p ≠ part ∨ k ≠ cid → findCtx t.ctl.ctxs p k = findCtx s.ctl.ctxs p k
  gangs : t.exe.gangs = s.exe.gangs
  groups : t.exe.groups = s.exe.groups.map fun g => if g.state = .killed ∧ ofCtx s part cid g = true then { g with window := [] } else g
  ops : ∀ o ∈ t.mem.ops, ¬ (o.part = part ∧ o.ctx = cid)
  copies : ∀ x ∈ t.exe.copies, ¬ (x.part = part ∧ x.ctx = cid)
  queues : ∀ q ∈ t.ctl.queues, q.part = part → q.ctx = cid → q.state = .unbound ∨ (q.state = .error ∧ q.taken = none)
  kernels : ∀ (i : Nat) (k : Kernel), s.ctl.kernels[i]? = some k → ∃ k', t.ctl.kernels[i]? = some k' ∧ k' = { k with due := k'.due } ∧
    ¬ AwaitsHalt part cid k' ∧ (¬ AwaitsHalt part cid k → k' = k)

/-- The work of the context given up, its record set to HALTED. -/
theorem dropWork_groups (s : State) (c x : Ctx) : (dropWork (setCtx s x) c).exe.groups =
    s.exe.groups.map fun g => if g.state = .killed ∧ ofCtx s c.part c.cid g = true then { g with window := [] } else g := by
  show s.exe.groups.map _ = _
  refine List.map_congr_left fun g _ => ?_
  dsimp only
  congr 1
  rw [Bool.and_eq_true, beq_iff_eq]
  rfl

theorem fatalHalt_ends {x y : Ctx} (hc : findCtx s.ctl.ctxs part cid = some c) (hx : x.part = part ∧ x.cid = cid)
    (hy : y.part = part ∧ y.cid = cid ∧ y.state = .halted) :
    HaltedFrom s (ctxQueues (completeHalted (dropWork (setCtx (writeStop s x) y) x) x) x .error 4) part cid := by
  obtain ⟨rfl, rfl⟩ := hx
  obtain ⟨hyp, hyk, hst⟩ := hy
  have hstop := writeStop_side s x
  have hcomp := completeHalted_spec (dropWork (setCtx (writeStop s x) y) x) x
  have hstates := ctxQueues_state (completeHalted (dropWork (setCtx (writeStop s x) y) x) x) x .error 4
  have htaken := ctxQueues_taken (completeHalted (dropWork (setCtx (writeStop s x) y) x) x) x .error 4
  have hside := ctxQueues_side (completeHalted (dropWork (setCtx (writeStop s x) y) x) x) x .error 4
  have hdrop := dropWork_groups (writeStop s x) x y
  generalize completeHalted (dropWork (setCtx (writeStop s x) y) x) x = u at *
  generalize ctxQueues u x .error 4 = t at *
  have hexe : t.exe.gangs = (writeStop s x).exe.gangs ∧ t.exe.groups = (dropWork (setCtx (writeStop s x) y) x).exe.groups ∧
      t.exe.copies = (dropWork (setCtx (writeStop s x) y) x).exe.copies := by
    rw [hside.exe, hcomp.exe]
    exact ⟨rfl, rfl, rfl⟩
  have hctxs : t.ctl.ctxs = (setCtx (writeStop s x) y).ctl.ctxs := by
    rw [hside.ctl]
    exact hcomp.ctxs
  have hof : ∀ g, ofCtx (writeStop s x) x.part x.cid g = ofCtx s x.part x.cid g := fun g => by
    unfold ofCtx kernOf
    rw [hstop.ctl]
  refine ⟨⟨y, ?_, hst⟩, fun p k h => ?_, ?_, ?_, fun o ho => ?_, fun z hz => ?_, fun q hq hp hk => ?_, fun i k hk => ?_⟩
  · rw [hctxs]
    exact findCtx_setCtx (s := writeStop s x) (by rw [hstop.ctl]; exact hc) hyp hyk
  · rw [hctxs, findCtx_setCtx_other (by rw [hyp, hyk]; exact h), hstop.ctl]
  · rw [hexe.1, hstop.exe]
  · rw [hexe.2.1, hdrop, hstop.exe]
    simp only [hof]
  · rw [hside.mem.ops, hcomp.ops] at ho
    exact has_false_iff.1 (List.mem_filter.1 ho).2
  · rw [hexe.2.2] at hz
    exact has_false_iff.1 (List.mem_filter.1 hz).2
  · rcases hstates q hq hp hk with h | ⟨-, h⟩
    · exact .inl h
    · rcases htaken q hq hp hk with h' | h'
      · exact .inl h'
      · exact .inr ⟨h, h'⟩
  · have hk0 : (dropWork (setCtx (writeStop s x) y) x).ctl.kernels[i]? = some k := by
      show (writeStop s x).ctl.kernels[i]? = some k
      rw [hstop.ctl]
      exact hk
    obtain ⟨k', hk', e, same, done⟩ := hcomp.kernels i k hk0
    refine ⟨k', by rw [hside.ctl]; exact hk', e, done (List.mem_range.2 ?_), same⟩
    exact (List.getElem?_eq_some_iff.1 hk0).1

theorem fatalHalt_stops (hc : findCtx s.ctl.ctxs part cid = some c) (hst : c.state = .halting) (hgo : CopiesStand s c) (hd : c.debugHalt = false) :
    ∃ t, exec (.contextStopped part cid) s = .next t ∧ HaltedFrom s t part cid := by
  obtain ⟨hp, hk⟩ := findCtx_ids hc
  refine ⟨_, (stopped_eq hc hst hgo).trans (if_neg (by rw [hd]; decide)), fatalHalt_ends hc ⟨?_, ?_⟩ ⟨?_, ?_, rfl⟩⟩
  exacts [hp, hk, hp, hk]

end

/-! ## WATCHDOG (R72) -/

/-- A kernel has run longer than its context's WDOG_MS, and no WATCHDOG of the context is on its way. -/
def RunsOver (s : State) (k : Kernel) (c : Ctx) : Prop :=
  c.desc.wdogMs ≠ 0 ∧ (k.state = .running ∨ k.state = .draining) ∧ (c.state = .runnable ∨ c.state = .running) ∧
    c.desc.wdogMs * 1000000 < k.countNs ∧ ∀ f ∈ s.ctl.faults, f.part = k.part → f.ctx = k.ctx → f.code ≠ some .watchdog

theorem watchdog_eq {s : State} {i : Nat} {k : Kernel} {c : Ctx} (hk : s.ctl.kernels[i]? = some k) (hc : findCtx s.ctl.ctxs k.part k.ctx = some c) [Decidable (RunsOver s k c)] :
    exec (.watchdog i) s = if RunsOver s k c then .next (addFault s (dispatcherRec s k.part k.ctx .watchdog k.ord k.ord)) else .next s := by
  have hkc : kernCtx s k = some c := hc
  rw [exec_watchdog]
  unfold execWatchdog
  rw [hk]
  dsimp only
  rw [hkc]
  dsimp only
  congr 1
  simp [RunsOver, and_assoc]

/-- Settles O48: each of the three events by the branch that its conditions choose, and the layout of the record. -/
theorem haltsAndStops : Obligations.HaltsAndStops := by
  unfold Obligations.HaltsAndStops
  refine ⟨fun s part cid => ⟨atHub_discards, fun c f hc hr => ⟨atHub_halts hc hr, atHub_halts_stopped hc hr, atHub_debugStops hc, atHub_halting hc, atHub_halted hc⟩⟩,
    fun s part cid c => ⟨fun h => stopped_unread fun c hc => ?_, fun hc hst => stopped_unread fun c' hc' => ?_, fun hc hst => ⟨fun h => stopped_unread fun c' hc' => ?_,
      fun hgo => ⟨fun hd => ⟨debugStop_waits hc hst hgo hd, debugStop_ends hc hst hgo hd⟩, fun hd => ?_⟩⟩⟩, fun s i k c hk hc => ⟨fun h1 h2 h3 h4 h5 => ?_, fun h => ?_⟩, ?_⟩
  · rw [h] at hc
    cases hc
  · obtain rfl := Option.some.inj (hc.symm.trans hc')
    exact .inl hst
  · obtain rfl := Option.some.inj (hc.symm.trans hc')
    exact .inr h
  · obtain ⟨t, he, h⟩ := fatalHalt_stops hc hst hgo hd
    refine ⟨t, he, h.now, h.others, h.gangs, h.groups, h.ops, h.copies, h.queues, fun i k hk => ?_⟩
    obtain ⟨k', hk', e, hdone, hsame⟩ := h.kernels i k hk
    refine ⟨k', hk', e, fun hp hc hd => hdone ⟨?_, ?_, hd⟩, hsame⟩
    · rw [e]; exact hp
    · rw [e]; exact hc
  · classical
    exact ⟨_, (watchdog_eq hk hc).trans (if_pos ⟨h1, h2, h3, h4, h5⟩), rfl, rfl, rfl, rfl, rfl, rfl, rfl⟩
  · classical
    refine (watchdog_eq hk hc).trans (if_neg fun ⟨h1, h2, h3, h4, _⟩ => ?_)
    rcases h with h | ⟨ha, hb⟩ | ⟨ha, hb⟩ | h
    · exact h1 h
    · exact h2.elim ha hb
    · exact h3.elim ha hb
    · omega
  · exact fun r h1 h2 h3 h4 h5 h6 h7 hd => recBytes_fields r h1 h2 h3 h4 h5 h6 h7 hd

end Sys2Proof.Machine
end

section
/-! PROOFS. Proofs/GroupRecords.lean: what the record has of a slice, and the stack area of an entry, read back (R84, R125, R126); the
starved gang and the turn that passes (R87, R121, R122). -/

namespace Sys2Proof.Machine

/-! ## Parts of a record -/

/-- A part given as its fields: the bytes of a number, and the numbers. -/
def partBytes (fs : List (Nat × List Nat)) : List Byte := fs.flatMap fun f => nums f.1 f.2

/-- The place of a field in a part. -/
def fieldPlace (fs : List (Nat × List Nat)) (i : Nat) : Nat := ((fs.take i).map fun f => f.1 * f.2.length).sum

theorem nums_length (n : Nat) (xs : List Nat) : (nums n xs).length = n * xs.length := by
  unfold nums
  induction xs with
  | nil => rfl
  | cons x xs ih => rw [List.flatMap_cons, List.length_append, natLe_length, ih, List.length_cons]; ring

theorem partBytes_length (fs : List (Nat × List Nat)) : (partBytes fs).length = (fs.map fun f => f.1 * f.2.length).sum := by
  unfold partBytes
  rw [List.length_flatMap]
  simp only [nums_length]

theorem flatMap_split {α β : Type} {l : List α} {i : Nat} {x : α} (h : l[i]? = some x) (f : α → List β) :
    l.flatMap f = (l.take i).flatMap f ++ f x ++ (l.drop (i + 1)).flatMap f := by
  obtain ⟨hi, rfl⟩ := List.getElem?_eq_some_iff.1 h
  have hl : l = l.take i ++ l[i] :: l.drop (i + 1) := by rw [← List.drop_eq_getElem_cons hi, List.take_append_drop]
  rw [congrArg (List.flatMap f) hl, List.flatMap_append, List.flatMap_cons, List.append_assoc]

/-- Number `k` of field `i` of a part reads back. -/
theorem fieldAt_partBytes {fs : List (Nat × List Nat)} {i n k x : Nat} {xs : List Nat} (hf : fs[i]? = some (n, xs)) (hx : xs[k]? = some x) (hn : x < 256 ^ n)
    (rest : List Byte) : fieldAt (partBytes fs ++ rest) (fieldPlace fs i + n * k) n = x := by
  have hk : k < xs.length := (List.getElem?_eq_some_iff.1 hx).1
  have hplace : (partBytes (fs.take i) ++ nums n (xs.take k)).length = fieldPlace fs i + n * k := by
    rw [List.length_append, partBytes_length, nums_length, List.length_take, Nat.min_eq_left hk.le]
    rfl
  have hbytes : partBytes fs ++ rest = (partBytes (fs.take i) ++ nums n (xs.take k)) ++ natLe x n ++
      (nums n (xs.drop (k + 1)) ++ (partBytes (fs.drop (i + 1)) ++ rest)) := by
    unfold partBytes nums
    rw [flatMap_split hf, flatMap_split hx]
    simp only [List.append_assoc]
  unfold fieldAt
  rw [hbytes, slice_of _ _ _ _ _ hplace (natLe_length x n), natLe_val hn]

/-! ## A slice (R84, R85) -/

/-- The fields of the slices' part that a restore takes, in the order of R85. -/
def sliceFields (g : Gang) : List (Nat × List Nat) :=
  [(8, g.slices.map fun x => x.pc.toNat), (4, g.slices.map fun x => x.mode.toNat), (4, g.slices.map fun x => x.im.toNat),
   (4, g.slices.map fun x => (counterWord x).toNat), (8, g.slices.map fun x => x.retired), (1, g.slices.map fun x => x.stack.length),
   (1, g.slices.map fun x => x.run.toNat), (1, g.slices.map fun x => x.exited.toNat)]

theorem sliceBytes_eq (g : Gang) : sliceBytes g = partBytes (sliceFields g) ++ nums 4 ((List.range 7).map fun p => (smGet g.preds (p + 1)).toNat) := by
  simp [sliceBytes, partBytes, sliceFields]

theorem slice_get {g : Gang} {k : Nat} (h : k < g.slices.length) : g.slices[k]? = some (g.sl k) := by
  unfold Gang.sl nth
  rw [List.getElem?_eq_getElem h]
  rfl

/-- A field of slice `k` in the slices' part of its gang's record. -/
theorem fieldAt_sliceBytes {g : Gang} {k i n o : Nat} {f : Slice → Nat} (hk : k < g.slices.length) (ho : fieldPlace (sliceFields g) i = o)
    (hf : (sliceFields g)[i]? = some (n, g.slices.map f)) (hn : f (g.sl k) < 256 ^ n) : fieldAt (sliceBytes g) (o + n * k) n = f (g.sl k) := by
  rw [sliceBytes_eq, ← ho]
  exact fieldAt_partBytes hf (by rw [List.getElem?_map, slice_get hk]; rfl) hn _

theorem loadSlice_sliceBytes {g : Gang} {k : Nat} (h8 : g.slices.length = 8) (hk : k < 8) (hr : ∀ x ∈ g.slices, x.retired < 2 ^ 64) :
    loadSlice (sliceBytes g) k (g.sl k) = g.sl k := by
  have hkl : k < g.slices.length := by omega
  have place : ∀ i, fieldPlace (sliceFields g) i = (([64, 32, 32, 32, 64, 8, 8, 8] : List Nat).take i).sum := fun i => by
    simp [fieldPlace, sliceFields, List.map_take, h8]
  have hpc : fieldAt (sliceBytes g) (0 + 8 * k) 8 = (g.sl k).pc.toNat :=
    fieldAt_sliceBytes (i := 0) (f := fun x => x.pc.toNat) hkl (place 0) rfl ((g.sl k).pc.isLt.trans (by decide))
  have hmode : fieldAt (sliceBytes g) (64 + 4 * k) 4 = (g.sl k).mode.toNat :=
    fieldAt_sliceBytes (i := 1) (f := fun x => x.mode.toNat) hkl (place 1) rfl ((g.sl k).mode.isLt.trans (by decide))
  have him : fieldAt (sliceBytes g) (96 + 4 * k) 4 = (g.sl k).im.toNat :=
    fieldAt_sliceBytes (i := 2) (f := fun x => x.im.toNat) hkl (place 2) rfl ((g.sl k).im.isLt.trans_le (by decide))
  have hret : fieldAt (sliceBytes g) (160 + 8 * k) 8 = (g.sl k).retired :=
    fieldAt_sliceBytes (i := 4) (f := fun x => x.retired) hkl (place 4) rfl ((hr _ (List.mem_of_getElem? (slice_get hkl))).trans_le (by decide))
  have hrun : fieldAt (sliceBytes g) (232 + 1 * k) 1 = (g.sl k).run.toNat :=
    fieldAt_sliceBytes (i := 6) (f := fun x => x.run.toNat) hkl (place 6) rfl ((g.sl k).run.isLt.trans (by decide))
  have hex : fieldAt (sliceBytes g) (240 + 1 * k) 1 = (g.sl k).exited.toNat :=
    fieldAt_sliceBytes (i := 7) (f := fun x => x.exited.toNat) hkl (place 7) rfl ((g.sl k).exited.isLt.trans (by decide))
  rw [Nat.zero_add] at hpc
  rw [Nat.one_mul] at hrun hex
  unfold loadSlice
  dsimp only
  rw [hpc, hmode, him, hret, hrun, hex]
  simp only [BitVec.ofNat_toNat, BitVec.setWidth_eq, if_true]

/-! ## An entry of the stack area (R125) -/

theorem entryBytes_length (e : StackEntry) : (entryBytes e).length = 16 := by
  unfold entryBytes
  rw [List.length_append, natLe_length, natLe_length]

/-- Bits [127:64] of an entry: its kind, its lanes and its PC. -/
def entryHigh (e : StackEntry) : Nat := 2 ^ 60 * kindCode e.kind + 2 ^ 56 * e.lanes.toNat + e.pc.toNat

theorem entryHigh_fields (e : StackEntry) : entryHigh e < 2 ^ 64 ∧ bits (entryHigh e) 63 60 = kindCode e.kind ∧
    BitVec.ofNat 4 (bits (entryHigh e) 59 56) = e.lanes ∧ BitVec.ofNat 56 (entryHigh e) = e.pc := by
  have hkind : kindCode e.kind < 4 := by cases e.kind <;> decide
  have hl := e.lanes.isLt
  have hp := e.pc.isLt
  unfold entryHigh bits
  refine ⟨by omega, by omega, BitVec.eq_of_toNat_eq ?_, BitVec.eq_of_toNat_eq ?_⟩
  · rw [BitVec.toNat_ofNat]; omega
  · rw [BitVec.toNat_ofNat]; omega

theorem entryLow_lt (e : StackEntry) : entryLow e < 2 ^ 64 := by
  have h1 := e.pend.isLt
  have h2 := e.ppc.isLt
  have h3 := e.mode.isLt
  have h4 := e.im.isLt
  unfold entryLow
  split <;> omega

theorem pending_fields (p : BitVec 4) (q : VAddr) : BitVec.ofNat 4 (bits (2 ^ 60 * p.toNat + q.toNat) 63 60) = p ∧
    BitVec.ofNat 56 (2 ^ 60 * p.toNat + q.toNat) = q := by
  have hp := p.isLt
  have hq := q.isLt
  unfold bits
  refine ⟨BitVec.eq_of_toNat_eq ?_, BitVec.eq_of_toNat_eq ?_⟩
  · rw [BitVec.toNat_ofNat]; omega
  · rw [BitVec.toNat_ofNat]; omega

theorem saved_fields (m : BitVec 24) (im : Word) : BitVec.ofNat 24 (bits (2 ^ 32 * m.toNat + im.toNat) 55 32) = m ∧
    BitVec.ofNat 32 (2 ^ 32 * m.toNat + im.toNat) = im := by
  have hm := m.isLt
  have hi := im.isLt
  unfold bits
  refine ⟨BitVec.eq_of_toNat_eq ?_, BitVec.eq_of_toNat_eq ?_⟩
  · rw [BitVec.toNat_ofNat]; omega
  · rw [BitVec.toNat_ofNat]; omega

theorem entryOf_entryBytes {e : StackEntry} (h : PlainEntry e) : entryOf (entryBytes e) = some e := by
  obtain ⟨hlt, hcode, hlanes, hpc⟩ := entryHigh_fields e
  have hlow : leNat ((entryBytes e).take 8) = entryLow e := by
    unfold entryBytes
    rw [List.take_append_of_le_length (natLe_length ..).ge, List.take_of_length_le (natLe_length ..).le, natLe_val (entryLow_lt e)]
  have hhigh : leNat ((entryBytes e).drop 8) = entryHigh e := by
    unfold entryBytes
    rw [List.drop_append_of_le_length (natLe_length ..).ge, List.drop_of_length_le (natLe_length ..).le, List.nil_append]
    exact natLe_val hlt
  unfold entryOf
  dsimp only
  rw [hlow, hhigh, hcode, hlanes, hpc]
  obtain ⟨kind, lanes, pc, pend, ppc, mode, im⟩ := e
  cases kind with
  | joinpt =>
    obtain ⟨rfl, rfl⟩ : mode = 0 ∧ im = 0 := h
    obtain ⟨h1, h2⟩ := pending_fields pend ppc
    simp only [entryLow, kindCode, h1, h2, if_true]
  | call =>
    obtain ⟨rfl, rfl, rfl, rfl⟩ : pend = 0 ∧ ppc = 0 ∧ mode = 0 ∧ im = 0 := h
    rfl
  | trap =>
    obtain ⟨rfl, rfl⟩ : pend = 0 ∧ ppc = 0 := h
    obtain ⟨h1, h2⟩ := saved_fields mode im
    simp only [entryLow, kindCode, h1, h2]
    rfl

/-! ## The starved gang (R121, R122) -/

theorem gangStarved_none {s : State} {i : Nat} (h : ∀ g, s.exe.gangs[i]? = some g → g.starve < 4096) : exec (.gangStarved i) s = .next s := by
  rw [exec_gangStarved]
  unfold execGangStarved
  split
  · rfl
  · rename_i g hg
    exact congrArg _ (if_neg (Nat.not_le.2 (h g hg)))

theorem gangStarved_first {s : State} {i : Nat} {g : Gang} (hg : s.exe.gangs[i]? = some g) (h : 4096 ≤ g.starve) :
    exec (.gangStarved i) s = .next { s with exe := { s.exe with agenda := .starved i :: s.exe.agenda } } := by
  rw [exec_gangStarved]
  unfold execGangStarved
  rw [hg]
  exact congrArg _ (if_pos h)

/-! ## The turn that passes (R87, R123) -/

theorem any_filterMap_modAt {L : List Nat} {gs : List Gang} {gi : Nat} {f : Gang → Gang} {q : Gang → Bool} (hq : ∀ x, q (f x) = q x) :
    (L.filterMap fun i => (modAt gs gi f)[i]?).any q = (L.filterMap fun i => gs[i]?).any q := by
  rw [List.any_filterMap, List.any_filterMap]
  congr 1
  funext i
  rw [modAt_get]
  by_cases hi : i = gi
  · rw [if_pos hi]
    cases gs[i]? with
    | none => rfl
    | some x => exact hq x
  · rw [if_neg hi]

/-- What a gang's turn leaves of it does not end its slot, nor open an ended one. -/
theorem slotEnded_modAt (s : State) (kern p gi : Nat) {f : Gang → Gang} (hf : ∀ x, (f x).rotPos = x.rotPos ∧ (f x).slices = x.slices) :
    slotEnded { s with exe := { s.exe with gangs := modAt s.exe.gangs gi f } } kern p = slotEnded s kern p := by
  unfold slotEnded kernGangs
  rw [List.any_flatMap, List.any_flatMap]
  congr 1
  funext grp
  refine any_filterMap_modAt fun x => ?_
  obtain ⟨h1, h2⟩ := hf x
  unfold gangEnded
  rw [h1, h2]

theorem find_map_range {n : Nat} {f : Nat → Nat} {q : Nat → Bool} : (∀ x, ((List.range n).map f).find? q = some x → ∃ j < n, x = f j ∧ q (f j) = true ∧ ∀ y < j, q (f y) = false) ∧
    (((List.range n).map f).find? q = none → ∀ j < n, q (f j) = false) := by
  rw [List.find?_map]
  refine ⟨fun x hx => ?_, fun h j hj => ?_⟩
  · obtain ⟨j, hj, rfl⟩ := Option.map_eq_some_iff.1 hx
    obtain ⟨hq, hlt, hmin⟩ := List.find?_range_eq_some.1 hj
    exact ⟨j, List.mem_range.1 hlt, rfl, hq, fun y hy => by simpa using hmin y hy⟩
  · have := List.find?_eq_none.1 (Option.map_eq_none_iff.1 h) j (List.mem_range.2 hj)
    simpa using this

/-- The turn moves to the next slot whose gang has not ended (R87, R123). -/
theorem advanceTurn_moved {s t : State} {i : Nat} {k : Kernel} (hk : s.ctl.kernels[i]? = some k) (hfix : k.fixed = true)
    (hkern : t.ctl.kernels = s.ctl.kernels) (hslot : ∀ p, slotEnded t i p = slotEnded s i p) : TurnMoved s (advanceTurn t i) i k := by
  obtain ⟨hsome, hnone⟩ := find_map_range (n := rotSize k) (f := fun j => k.turn + 1 + j) (q := fun p => !slotEnded t i (p % rotSize k))
  unfold TurnMoved advanceTurn
  rw [hkern, hk]
  dsimp only
  split
  · rename_i h
    refine ⟨k, by rw [hkern]; exact hk, rfl, fun _ => rfl, fun j hj hfree _ => ?_⟩
    have := hnone h j hj
    rw [Bool.not_eq_false', hslot, hfree] at this
    cases this
  · rename_i p h
    obtain ⟨j, hj, rfl, hfree, hmin⟩ := hsome p h
    rw [Bool.not_eq_true', hslot] at hfree
    rw [if_neg (by rw [hfix]; decide)]
    refine ⟨{ k with turn := (k.turn + 1 + j) % rotSize k }, ?_, rfl, fun hall => ?_, fun x hx hxfree hxmin => ?_⟩
    · dsimp only
      rw [modAt_get, if_pos rfl, hk]
      rfl
    · rw [hall j hj] at hfree
      cases hfree
    · have hjx : j = x := by
        rcases Nat.lt_trichotomy j x with hlt | heq | hgt
        · rw [hxmin j hlt] at hfree
          cases hfree
        · exact heq
        · have := hmin x hgt
          rw [Bool.not_eq_false', hslot, hxfree] at this
          cases this
      rw [hjx]

theorem turnPass_none {s : State} {i : Nat} (h : ∀ k, s.ctl.kernels[i]? = some k → k.fixed = false ∨ turnGang s i k = none) : exec (.turnPass i) s = .next s := by
  rw [exec_turnPass]
  unfold execTurnPass
  split
  · rfl
  · rename_i k hk
    rcases h k hk with hf | hn
    · split
      · rfl
      · split
        · rw [hf]
          rfl
        · rfl
    · rw [hn]

section
variable {s : State} {i gi : Nat} {k : Kernel} {g : Gang} {grp : Group} {c : Ctx} {m : BitVec 8}

/-- The gang `g` of a fixed-gear kernel has the turn, with cohort `m` its next. -/
structure HasTurn (s : State) (i : Nat) (k : Kernel) (gi : Nat) (g : Gang) (grp : Group) (c : Ctx) (m : BitVec 8) : Prop where
  kern : s.ctl.kernels[i]? = some k
  fixed : k.fixed = true
  turn : turnGang s i k = some (gi, g)
  group : s.exe.groups[g.grp]? = some grp
  ctx : findCtx s.ctl.ctxs k.part k.ctx = some c
  cohort : nextCohort g = some m
  runs : grp.state = .running ∨ (grp.state = .parking ∧ grp.atStop = false)

theorem turnPass_eq (h : HasTurn s i k gi g grp c m) : exec (.turnPass i) s = .next (if passes s gi g grp k c m then passTurn s i gi m else s) := by
  have hctx : kernCtx s k = some c := h.ctx
  have hgo : (k.fixed && (grp.state == .running || (grp.state == .parking && !grp.atStop))) = true := by
    rcases h.runs with e | ⟨e1, e2⟩
    · simp [h.fixed, e]
    · simp [h.fixed, e1, e2]
  rw [exec_turnPass]
  unfold execTurnPass
  rw [h.kern]
  dsimp only
  rw [h.turn]
  dsimp only
  rw [h.group, hctx, h.cohort]
  dsimp only
  rw [hgo, Bool.true_and]
  split <;> rfl

/-- A REGANG partner or a stack area that a slice of the cohort waits for makes the turn pass. -/
theorem passes_of_waits (h : ∃ j, m.getLsbD j = true ∧ j < 8 ∧ ((g.sl j).regang ≠ none ∨ (g.area = none ∧ 16 < (g.sl j).stack.length))) :
    passes s gi g grp k c m = true := by
  obtain ⟨j, hm, hj, hw⟩ := h
  have hany : ((maskSlices m).any fun j => (g.sl j).regang.isSome || spillStalls g j) = true := by
    refine List.any_eq_true.2 ⟨j, List.mem_filter.2 ⟨List.mem_range.2 hj, hm⟩, ?_⟩
    rw [Bool.or_eq_true]
    refine hw.imp (fun h => Option.isSome_iff_ne_none.2 h) fun ⟨ha, hs⟩ => ?_
    unfold spillStalls
    rw [ha, Option.isNone_none, Bool.true_and]
    exact decide_eq_true hs
  unfold passes
  rw [hany, Bool.true_or]

theorem turnPass_passes (h : HasTurn s i k gi g grp c m) (hp : passes s gi g grp k c m = true) :
    ∃ t, exec (.turnPass i) s = .next t ∧ t.mem = s.mem ∧ t.ctl.ctxs = s.ctl.ctxs ∧
      t.exe.gangs = modAt s.exe.gangs gi (fun x => { x with lastCoh := some (lowSlice m) }) ∧ TurnMoved s t i k := by
  refine ⟨passTurn s i gi m, ?_, advanceTurn_mem .., (advanceTurn_ctxs ..).1, advanceTurn_gangs .., advanceTurn_moved h.kern h.fixed rfl fun p => ?_⟩
  · rw [turnPass_eq h, if_pos hp]
  · exact slotEnded_modAt s i p gi fun _ => ⟨rfl, rfl⟩

theorem turnPass_stays (h : HasTurn s i k gi g grp c m) (hp : passes s gi g grp k c m = false) : exec (.turnPass i) s = .next s := by
  rw [turnPass_eq h, hp]
  rfl

end

end Sys2Proof.Machine
end

section
/-! PROOFS. Proofs/GroupEvents.lean: how groups end, park, are restored and re-queued (R70, R83 to R85, R115, R117, R118, R126). -/

namespace Sys2Proof.Machine

/-! ## Re-queueing (R83, R115) -/

theorem fatalHalt_iff {c : Ctx} : fatalHalt c = true ↔ HaltsForGood c := by
  unfold fatalHalt HaltsForGood
  simp

section
variable {s : State} {i : Nat} {g : Group} {k : Kernel} {c : Ctx}

/-- Group `i` is `g`, of kernel `k` and context `c`. -/
structure GroupOf (s : State) (i : Nat) (g : Group) (k : Kernel) (c : Ctx) : Prop where
  group : s.exe.groups[i]? = some g
  kern : s.ctl.kernels[g.kern]? = some k
  ctx : findCtx s.ctl.ctxs k.part k.ctx = some c

theorem GroupOf.kernOf (h : GroupOf s i g k c) : Machine.kernOf s g = some k := h.kern

theorem GroupOf.kernCtx (h : GroupOf s i g k c) : Machine.kernCtx s k = some c := h.ctx

theorem GroupOf.ofCtx (h : GroupOf s i g k c) : Machine.ofCtx s k.part k.ctx g = true := by
  unfold Machine.ofCtx
  rw [h.kernOf]
  simp

theorem GroupOf.lt (h : GroupOf s i g k c) : i < s.exe.groups.length := (List.getElem?_eq_some_iff.1 h.group).1

/-- A group KILLED that replay makes PENDING again. -/
def Requeues (g : Group) (k : Kernel) (c : Ctx) : Prop :=
  g.state = .killed ∧ k.pkt.flags.testBit 2 = true ∧ k.state ≠ .retired ∧ k.state ≠ .failed ∧ ¬ HaltsForGood c

theorem requeues_iff : (g.state == .killed && isReplayable k && kernLive k && !fatalHalt c) = true ↔ Requeues g k c := by
  unfold Requeues isReplayable
  rw [← fatalHalt_iff]
  simp [kernLive_iff, and_assoc]

theorem groupRequeue_pending (h : GroupOf s i g k c) (hr : Requeues g k c) :
    exec (.groupRequeue i) s = .next { s with exe := { s.exe with groups := modAt s.exe.groups i fun _ => { g with state := .pending } } } := by
  rw [exec_groupRequeue]
  unfold execGroupRequeue
  rw [h.group]
  dsimp only
  rw [h.kernOf]
  dsimp only
  rw [h.kernCtx]
  dsimp only
  rw [if_pos (requeues_iff.2 hr), modAt_const h.group]

theorem groupRequeue_none (h : ∀ g k c, GroupOf s i g k c → ¬ Requeues g k c) : exec (.groupRequeue i) s = .next s := by
  rw [exec_groupRequeue]
  unfold execGroupRequeue
  split
  · rfl
  · rename_i g hg
    split
    · rfl
    · rename_i k hk
      cases hc : kernCtx s k with
      | none => simp
      | some c => exact if_neg (mt requeues_iff.1 (h g k c ⟨hg, hk, hc⟩))

/-! ## The conditions of an end and of a park (R84, R117) -/

theorem all_gangs_iff {p : Gang → Bool} : ((g.gangs.filterMap fun gi => s.exe.gangs[gi]?).all p) = true ↔ ∀ x, gangsOf s g x → p x = true := by
  rw [List.all_eq_true]
  simp only [List.mem_filterMap]
  rfl

theorem no_copy_iff : (!(s.exe.copies.any fun x => x.grp == i)) = true ↔ ∀ x ∈ s.exe.copies, x.grp ≠ i := by
  simp

theorem no_op_iff {q : MemOp → Bool} : (!(s.mem.ops.any fun o => g.gangs.contains o.gang && q o)) = true ↔ ∀ o ∈ s.mem.ops, o.gang ∈ g.gangs → q o = false := by
  simp

theorem groupEnds_iff : groupEnds s i g = true ↔ GroupEnded s i g := by
  have hops : ∀ o : MemOp, (o.cls == .l || o.cls == .f || o.kind == .sload) = false ↔ o.cls ≠ .l ∧ o.cls ≠ .f ∧ o.kind ≠ .sload := fun o => by
    simp [and_assoc]
  have hslices : ∀ x : Gang, (x.slices.all fun y => y.cL == 0 && y.cF == 0) = true ↔ ∀ y ∈ x.slices, y.cL = 0 ∧ y.cF = 0 := fun x => by simp
  unfold groupEnds GroupEnded
  dsimp only
  simp only [Bool.and_eq_true, all_gangs_iff, no_copy_iff, no_op_iff, beq_iff_eq, and_assoc, hops, hslices]
  cases g.tile with
  | none => simp
  | some t => simp

theorem parkReady_iff : parkReady s i g c = true ↔ ParkDone s i g c := by
  have hslices : ∀ x : Gang, (x.slices.all fun y => y.cL == 0 && y.cF == 0 && y.cC == 0) = true ↔ ∀ y ∈ x.slices, y.cL = 0 ∧ y.cF = 0 ∧ y.cC = 0 :=
    fun x => by simp [and_assoc]
  unfold parkReady ParkDone GroupQuiet
  dsimp only
  simp only [Bool.and_eq_true, all_gangs_iff, no_copy_iff, no_op_iff, beq_iff_eq, and_assoc, hslices]
  constructor
  · rintro ⟨hstate, hstop, hzero, hcopies, hops, htile⟩
    refine ⟨hstate, hstop, fun x hx y hy => ?_, hcopies, hops, fun x hx y hy => (hzero x hx y hy).2.2, fun x hd hx => ?_⟩
    · obtain ⟨hl, hf, -⟩ := hzero x hx y hy
      exact ⟨hl, hf⟩
    · rw [hd, hx] at htile
      exact htile
  · rintro ⟨hstate, hstop, hlf, hcopies, hops, hc, htile⟩
    refine ⟨hstate, hstop, fun x hx y hy => ?_, hcopies, hops, ?_⟩
    · obtain ⟨hl, hf⟩ := hlf x hx y hy
      exact ⟨hl, hf, hc x hx y hy⟩
    · cases hd : g.debugSave with
      | false => rfl
      | true =>
        cases hx : g.tile with
        | none => rfl
        | some x => exact htile x hd hx

/-! ## A group that leaves its core (R70) -/

theorem any_modAt {α : Type} {l : List α} {i : Nat} {x : α} (hi : i < l.length) (P : α → Bool) :
    (modAt l i fun _ => x).any P = (P x || l.zipIdx.any fun y => y.2 != i && P y.1) := by
  rw [Bool.eq_iff_iff, Bool.or_eq_true, List.any_eq_true, List.any_eq_true]
  constructor
  · rintro ⟨y, hy, hP⟩
    obtain ⟨j, hj⟩ := List.getElem?_of_mem hy
    rw [modAt_get] at hj
    split at hj
    · obtain ⟨-, -, rfl⟩ := Option.map_eq_some_iff.1 hj
      exact .inl hP
    · rename_i hne
      exact .inr ⟨(y, j), List.mem_zipIdx_iff_getElem?.2 hj, by simp [hne, hP]⟩
  · rintro (hP | ⟨⟨y, j⟩, hy, hP⟩)
    · exact ⟨x, List.mem_of_getElem? (i := i) (by rw [modAt_get, if_pos rfl, List.getElem?_eq_getElem hi]; rfl), hP⟩
    · rw [Bool.and_eq_true, bne_iff_ne] at hP
      exact ⟨y, List.mem_of_getElem? (i := j) (by rw [modAt_other _ _ _ _ hP.1]; exact List.mem_zipIdx_iff_getElem?.1 hy), hP.2⟩

/-- Whether a group of the context stands in a state that `f` names, group `i` being `x` and no other moved. -/
theorem mine_any {t : State} {part cid : Nat} {x : Group} (hi : i < s.exe.groups.length) (hg : t.exe.groups = modAt s.exe.groups i fun _ => x)
    (hof : ∀ y, ofCtx t part cid y = ofCtx s part cid y) (f : GState → Bool) :
    ((t.exe.groups.filter (ofCtx t part cid)).any fun y => f y.state) = (ofCtx s part cid x && f x.state ||
      s.exe.groups.zipIdx.any fun y => y.2 != i && ofCtx s part cid y.1 && f y.1.state) := by
  rw [List.any_filter, hg, any_modAt hi]
  simp only [hof, Bool.and_assoc]

/-- The context after a group of it has left its core. -/
theorem afterDepart_now {t : State} {part cid : Nat} {x : Group} {c : Ctx} (hc : findCtx t.ctl.ctxs part cid = some c) (hi : i < s.exe.groups.length)
    (hg : t.exe.groups = modAt s.exe.groups i fun _ => x) (hof : ∀ y, ofCtx t part cid y = ofCtx s part cid y) (hx : ofCtx s part cid x = true)
    (hleft : resident x.state = false) : ∃ ctxs, afterDepart t part cid = { t with ctl := { t.ctl with ctxs := ctxs } } ∧
      findCtx ctxs part cid = some { c with state := afterLeaving s part cid i (x.state == .parked) c.state } := by
  have hres := mine_any hi hg hof resident
  have hpark := mine_any hi hg hof (· == .parked)
  rw [hx, Bool.true_and, hleft, Bool.false_or] at hres
  rw [hx, Bool.true_and] at hpark
  unfold afterDepart
  rw [hc]
  dsimp only
  rw [hres, hpark]
  unfold afterLeaving
  split
  · rename_i h
    rw [Bool.and_eq_true, beq_iff_eq, Bool.not_eq_true'] at h
    refine ⟨_, rfl, (findCtx_modCtx hc ?_).trans ?_⟩
    · exact fun _ => ⟨rfl, rfl⟩
    · rw [if_pos h]
  · rename_i h
    rw [Bool.and_eq_true, beq_iff_eq, Bool.not_eq_true'] at h
    exact ⟨_, rfl, by rw [if_neg h]; exact hc⟩

/-! ## GROUP_DONE (R112, R117, R118, R126) -/

/-- Areas given to gangs that have none, those of `skip` left out. -/
def Granted (skip : List Nat) (gs gs' : List Gang) : Prop :=
  ∀ (gi : Nat) (x : Gang), gs'[gi]? = some x → ∃ x0 : Gang, gs[gi]? = some x0 ∧ x = { x0 with area := x.area } ∧
    (gi ∈ skip ∨ x0.area ≠ none → x.area = x0.area)

theorem Granted.refl (skip : List Nat) (gs : List Gang) : Granted skip gs gs := fun _ x hx => ⟨x, hx, rfl, fun _ => rfl⟩

theorem Granted.trans {skip : List Nat} {a b c : List Gang} (h : Granted skip a b) (h' : Granted skip b c) : Granted skip a c := by
  intro gi x hx
  obtain ⟨x1, hx1, e1, k1⟩ := h' gi x hx
  obtain ⟨x0, hx0, e0, k0⟩ := h gi x1 hx1
  refine ⟨x0, hx0, by rw [e1, e0], fun hs => ?_⟩
  have harea := k0 hs
  refine (k1 (hs.imp_right fun hn => ?_)).trans harea
  rw [harea]
  exact hn

theorem takeArea_area (ps : List Partition) (part : Nat) (x : Gang) : (takeArea ps part x).2 = { x with area := (takeArea ps part x).2.area } := by
  unfold takeArea
  repeat' split
  all_goals rfl

theorem spill_area (ps : List Partition) (part : Nat) (x : Gang) : (spill ps part x).2 = { x with area := (spill ps part x).2.area } := by
  unfold spill
  dsimp only
  split
  · split <;> exact takeArea_area ..
  · rfl

/-- Stack areas granted: the pool and the gangs' areas alone change (R126). -/
theorem grantAreas_spec (s : State) (part : Nat) (skip : List Nat) :
    ∃ ps gs, grantAreas s part skip = { s with exe := { s.exe with gangs := gs }, ctl := { s.ctl with parts := ps } } ∧ Granted skip s.exe.gangs gs := by
  unfold grantAreas
  refine List.foldlRecOn (motive := fun t : State => ∃ ps gs, t = { s with exe := { s.exe with gangs := gs }, ctl := { s.ctl with parts := ps } } ∧
    Granted skip s.exe.gangs gs) _ _ ⟨_, _, rfl, Granted.refl skip _⟩ fun t ⟨ps, gs, ht, hgr⟩ gi _ => ?_
  subst ht
  dsimp only
  split
  · exact ⟨ps, gs, rfl, hgr⟩
  · rename_i x hx
    have one : x.area = none → gi ∉ skip → Granted skip gs (modAt gs gi fun _ => (spill ps part x).2) := fun hn hskip j y hy => by
      rw [modAt_get] at hy
      split at hy
      · rename_i hj
        subst hj
        rw [hx] at hy
        cases hy
        exact ⟨x, hx, spill_area .., fun h => h.elim (absurd · hskip) (absurd hn)⟩
      · exact ⟨y, hy, rfl, fun _ => rfl⟩
    split
    · split
      · rename_i hgo
        rw [Bool.and_eq_true, Bool.and_eq_true, Option.isNone_iff_eq_none, Bool.not_eq_true'] at hgo
        exact ⟨_, _, rfl, hgr.trans (one hgo.1.2 fun h => Bool.false_ne_true (hgo.2.symm.trans (List.contains_iff_mem.2 h)))⟩
      · exact ⟨ps, gs, rfl, hgr⟩
    · exact ⟨ps, gs, rfl, hgr⟩

theorem foldl_modAt_get (L : List Nat) {f : Gang → Gang} (hf : ∀ x, f (f x) = f x) : ∀ (gs : List Gang) (gi : Nat),
    (L.foldl (fun gs gi => modAt gs gi f) gs)[gi]? = if gi ∈ L then (gs[gi]?).map f else gs[gi]? := by
  induction L with
  | nil => exact fun gs gi => rfl
  | cons j L ih =>
    intro gs gi
    rw [List.foldl_cons, ih, modAt_get]
    by_cases hj : gi = j
    · rw [if_pos hj, if_pos (List.mem_cons.2 (.inl hj)), Option.map_map, show f ∘ f = f from funext hf]
      split <;> rfl
    · rw [if_neg hj]
      by_cases hL : gi ∈ L
      · rw [if_pos hL, if_pos (List.mem_cons_of_mem _ hL)]
      · rw [if_neg hL, if_neg fun h => (List.mem_cons.1 h).elim hj hL]

/-- What the release of a group's stack areas does to the gangs (R126). -/
def AreasFreed (g : Group) (gs gs' : List Gang) : Prop :=
  ∀ (gi : Nat) (x : Gang), gs'[gi]? = some x → ∃ x0 : Gang, gs[gi]? = some x0 ∧ x = { x0 with area := x.area } ∧
    (gi ∈ g.gangs → x.area = none) ∧ (gi ∉ g.gangs → x0.area ≠ none → x.area = x0.area)

theorem releaseAreas_spec (s : State) (g : Group) (part : Nat) :
    ∃ ps gs, releaseAreas s g part = { s with exe := { s.exe with gangs := gs }, ctl := { s.ctl with parts := ps } } ∧ AreasFreed g s.exe.gangs gs := by
  unfold releaseAreas
  dsimp only
  obtain ⟨ps, gs, he, hgr⟩ := grantAreas_spec { s with
    ctl := { s.ctl with parts := modIf s.ctl.parts (fun p => p.id == part) fun p =>
      { p with areas := p.areas.filter fun a => !(g.gangs.filterMap fun gi => (s.exe.gangs[gi]?).bind Gang.area).contains a } }
    exe := { s.exe with gangs := g.gangs.foldl (fun gs gi => modAt gs gi fun g => { g with area := none }) s.exe.gangs } } part g.gangs
  refine ⟨ps, gs, he, fun gi x hx => ?_⟩
  obtain ⟨x1, hx1, e1, k1⟩ := hgr gi x hx
  rw [foldl_modAt_get g.gangs (f := fun g => { g with area := none }) fun _ => rfl] at hx1
  split at hx1
  · rename_i hin
    obtain ⟨x0, hx0, rfl⟩ := Option.map_eq_some_iff.1 hx1
    exact ⟨x0, hx0, e1, fun _ => k1 (.inl hin), fun hn => absurd hin hn⟩
  · rename_i hout
    exact ⟨x1, hx1, e1, fun hin => absurd hin hout, fun _ hn => k1 (.inr hn)⟩

/-- The record of a group that is DONE. -/
def doneGroup (g : Group) : Group := { g with state := .done, window := [], nbs := [], tile := none, tctx := none, slots := [], pins := [] }

/-- The resources of an ended group freed. -/
def freeGroup (s : State) (i : Nat) (g : Group) (k : Kernel) : State :=
  let t := releasePins (releaseAreas s g k.part) i k.part k.ctx
  { t with
    mem := dropLocals t.mem g
    exe := { t.exe with groups := modAt t.exe.groups i fun g =>
      { g with state := .done, window := [], nbs := [], tile := none, tctx := none, slots := [] } } }

theorem freeGroup_spec (hg : s.exe.groups[i]? = some g) : ∃ ps gs, freeGroup s i g k =
    { s with
      mem := dropLocals s.mem g
      exe := { s.exe with gangs := gs, groups := modAt s.exe.groups i fun _ => doneGroup g }
      ctl := { s.ctl with
        parts := ps, ctxs := modCtx s.ctl.ctxs k.part k.ctx fun c => { c with lockUsed := c.lockUsed - g.pins.length } } } ∧
    AreasFreed g s.exe.gangs gs := by
  obtain ⟨ps, gs, he, hfreed⟩ := releaseAreas_spec s g k.part
  refine ⟨ps, gs, ?_, hfreed⟩
  unfold freeGroup releasePins
  rw [he]
  dsimp only
  rw [hg, modAt_modAt, modAt_const hg]
  rfl

theorem groupDone_none (h : ∀ g, s.exe.groups[i]? = some g → ¬ GroupEnded s i g) : exec (.groupDone i) s = .next s := by
  rw [exec_groupDone]
  unfold execGroupDone
  split
  · rfl
  · rename_i g hg
    split
    · rfl
    · exact if_pos (by rw [Bool.not_eq_true', ← Bool.not_eq_true, groupEnds_iff]; exact h g hg)

theorem groupDone_eq (h : GroupOf s i g k c) (he : GroupEnded s i g) :
    exec (.groupDone i) s = .next (settleQueues (afterDepart (afterDone (freeGroup s i g k) g.kern) k.part k.ctx)) := by
  rw [exec_groupDone]
  unfold execGroupDone
  rw [h.group]
  dsimp only
  rw [h.kernOf]
  dsimp only
  rw [groupEnds_iff.2 he]
  rfl

/-- Every other group of the kernel has ended, and there is none to come. -/
def LastGroup (s : State) (i kern : Nat) (k : Kernel) : Prop :=
  k.state = .running ∧ k.nextLid = k.total ∧ ∀ (j : Nat) (y : Group), s.exe.groups[j]? = some y → y.kern = kern → j ≠ i → y.state = .done

theorem allDone_iff {t : State} {kern : Nat} {x : Group} (hg : t.exe.groups = modAt s.exe.groups i fun _ => x) (hx : x.state = .done) :
    ((t.exe.groups.filter fun g => g.kern == kern).all fun g => g.state == .done) = true ↔
      ∀ (j : Nat) (y : Group), s.exe.groups[j]? = some y → y.kern = kern → j ≠ i → y.state = .done := by
  simp only [List.all_eq_true, List.mem_filter, beq_iff_eq, and_imp]
  rw [hg]
  constructor
  · intro h j y hj hk hne
    exact h y (List.mem_of_getElem? (i := j) (by rw [modAt_other _ _ _ _ hne]; exact hj)) hk
  · intro h y hy hk
    obtain ⟨j, hj⟩ := List.getElem?_of_mem hy
    rw [modAt_get] at hj
    split at hj
    · obtain ⟨-, -, rfl⟩ := Option.map_eq_some_iff.1 hj
      exact hx
    · rename_i hne
      exact h j y hj hk hne

/-- The context that a kernel belongs to, by its numbers. -/
def ownerOf (k : Kernel) : Nat × Nat := (k.part, k.ctx)

/-- A kernel whose last group has ended is DRAINING; otherwise nothing changes. -/
theorem afterDone_spec {t : State} {kern : Nat} {x : Group} (hk : t.ctl.kernels[kern]? = some k)
    (hg : t.exe.groups = modAt s.exe.groups i fun _ => x) (hx : x.state = .done) : ∃ ks, afterDone t kern = { t with ctl := { t.ctl with kernels := ks } } ∧
      (LastGroup s i kern k → ks = modAt t.ctl.kernels kern fun _ => { k with state := .draining }) ∧ (¬ LastGroup s i kern k → ks = t.ctl.kernels) ∧
      ∀ j : Nat, (ks[j]?).map ownerOf = (t.ctl.kernels[j]?).map ownerOf := by
  have hlast : (k.state == .running && k.nextLid == k.total && (t.exe.groups.filter fun g => g.kern == kern).all fun g => g.state == .done) = true ↔
      LastGroup s i kern k := by
    rw [Bool.and_eq_true, Bool.and_eq_true, beq_iff_eq, beq_iff_eq, allDone_iff hg hx, and_assoc]
    rfl
  unfold afterDone
  rw [hk]
  dsimp only
  split
  · rename_i h
    refine ⟨_, rfl, fun _ => modAt_const hk _, fun hn => absurd (hlast.1 h) hn, fun j => ?_⟩
    rw [modAt_get]
    split
    · rw [Option.map_map]
      rfl
    · rfl
  · rename_i h
    exact ⟨_, rfl, fun hl => absurd (hlast.2 hl) h, fun _ => rfl, fun _ => rfl⟩

theorem ofCtx_congr {t : State} (h : ∀ j : Nat, (t.ctl.kernels[j]?).map ownerOf = (s.ctl.kernels[j]?).map ownerOf)
    (part cid : Nat) (y : Group) : ofCtx t part cid y = ofCtx s part cid y := by
  have hy := h y.kern
  unfold ofCtx Machine.kernOf
  have eq_of : ∀ a b : Option Kernel, a.map ownerOf = b.map ownerOf →
      (match a with | some k => k.part == part && k.ctx == cid | none => false) = match b with | some k => k.part == part && k.ctx == cid | none => false
    | none, none, _ => rfl
    | some a, some b, h => by
      obtain ⟨hp, hc⟩ := Prod.mk.inj (Option.some.inj h)
      dsimp only
      rw [hp, hc]
  exact eq_of _ _ hy

/-- What the end of a group leaves. -/
structure DoneFrom (s t : State) (i : Nat) (g : Group) (k : Kernel) (c : Ctx) : Prop where
  copies : t.exe.copies = s.exe.copies
  ops : t.mem.ops = (dropLocals s.mem g).ops
  groups : t.exe.groups = modAt s.exe.groups i fun _ => doneGroup g
  gangs : AreasFreed g s.exe.gangs t.exe.gangs
  now : CtxNow t k.part k.ctx fun x => x.lockUsed = c.lockUsed - g.pins.length ∧ x.state = afterLeaving s k.part k.ctx i false c.state
  last : LastGroup s i g.kern k → t.ctl.kernels = modAt s.ctl.kernels g.kern fun _ => { k with state := .draining }
  others : ¬ LastGroup s i g.kern k → t.ctl.kernels = s.ctl.kernels

theorem groupDone_ends (h : GroupOf s i g k c) (he : GroupEnded s i g) : ∃ t, exec (.groupDone i) s = .next t ∧ DoneFrom s t i g k c := by
  obtain ⟨ps, gs, hfree, hgangs⟩ := freeGroup_spec (k := k) h.group
  obtain ⟨ks, hdone, hlast, hothers, hkern⟩ := afterDone_spec (s := s) (t := freeGroup s i g k) (x := doneGroup g) (by rw [hfree]; exact h.kern)
    (by rw [hfree]) rfl
  rw [hfree] at hdone hlast hothers hkern
  obtain ⟨ctxs, hdepart, hnow⟩ := afterDepart_now (s := s) (i := i) (x := doneGroup g) (t := afterDone (freeGroup s i g k) g.kern)
    (c := { c with lockUsed := c.lockUsed - g.pins.length })
    (by rw [hfree, hdone]; exact findCtx_modCtx h.ctx fun _ => ⟨rfl, rfl⟩) h.lt (by rw [hfree, hdone]) (ofCtx_congr (by rw [hfree, hdone]; exact hkern) _ _)
    h.ofCtx rfl
  rw [hfree, hdone] at hdepart
  have hside := settleQueues_side (afterDepart (afterDone (freeGroup s i g k) g.kern) k.part k.ctx)
  refine ⟨_, groupDone_eq h he, ?_⟩
  rw [hfree, hdone, hdepart] at hside ⊢
  refine ⟨?_, hside.mem.ops, ?_, ?_,
    ⟨{ c with lockUsed := c.lockUsed - g.pins.length, state := afterLeaving s k.part k.ctx i false c.state }, ?_, rfl, rfl⟩, fun hl => ?_, fun hn => ?_⟩
  · rw [hside.exe]
  · rw [hside.exe]
  · rw [hside.exe]; exact hgangs
  · rw [hside.ctl]; exact hnow
  · rw [hside.ctl]; exact hlast hl
  · rw [hside.ctl]; exact hothers hn

end

end Sys2Proof.Machine
end

section
/-! PROOFS. Proofs/GroupRestore.lean: how groups park and are restored (R70, R84, R85, R88, R126, R303). -/

namespace Sys2Proof.Machine

section
variable {s : State} {i o core : Nat} {g : Group} {k : Kernel} {c : Ctx}

/-! ## GROUP_PARKED (R84, R88) -/

/-- Every gang of the group has its stack area. -/
def HasAreas (s : State) (g : Group) : Prop := ∀ gi ∈ g.gangs, ∃ x : Gang, s.exe.gangs[gi]? = some x ∧ x.area ≠ none

theorem takeArea_some (ps : List Partition) (part : Nat) {x : Gang} (h : x.area ≠ none) : takeArea ps part x = (ps, x) := by
  obtain ⟨n, hn⟩ := Option.ne_none_iff_exists'.1 h
  unfold takeArea
  split
  · rw [hn]
  · rfl

/-- One gang given its stack area at a park. -/
def areaTaken (part : Nat) (acc : List Partition × List Gang) (gi : Nat) : List Partition × List Gang :=
  match acc.2[gi]? with
  | none => acc
  | some g => ((takeArea acc.1 part g).1, modAt acc.2 gi fun _ => (takeArea acc.1 part g).2)

theorem parkAreas_eq (s : State) (g : Group) (part : Nat) : parkAreas s g part =
    let r := g.gangs.foldl (areaTaken part) (s.ctl.parts, s.exe.gangs)
    if g.gangs.all fun gi => ((r.2[gi]?).bind Gang.area).isSome then
      { s with ctl := { s.ctl with parts := r.1 }, exe := { s.exe with gangs := r.2 } }
    else s := rfl

theorem parkAreas_same (h : HasAreas s g) (part : Nat) : parkAreas s g part = s := by
  have hfold : g.gangs.foldl (areaTaken part) (s.ctl.parts, s.exe.gangs) = (s.ctl.parts, s.exe.gangs) := by
    refine List.foldlRecOn (motive := fun acc => acc = (s.ctl.parts, s.exe.gangs)) g.gangs _ rfl fun acc hacc gi hgi => ?_
    obtain ⟨x, hx, harea⟩ := h gi hgi
    subst hacc
    unfold areaTaken
    rw [hx]
    dsimp only
    rw [takeArea_some _ _ harea, modAt_same hx]
  rw [parkAreas_eq, hfold]
  dsimp only
  split <;> rfl

theorem takeSave_saved (hg : s.exe.groups[i]? = some g) (ho : g.saved = some o) : takeSave s i k = s := by
  unfold takeSave
  rw [hg]
  cases kernCtx s k with
  | none => rfl
  | some c => exact if_pos (by rw [ho]; rfl)

theorem parkRoom_of_areas (hg : s.exe.groups[i]? = some g) (ho : g.saved = some o) (h : HasAreas s g) : parkRoom s i = true := by
  unfold parkRoom
  rw [hg]
  dsimp only
  rw [ho, Option.isSome_some, Bool.true_and, List.all_eq_true]
  intro gi hgi
  obtain ⟨x, hx, harea⟩ := h gi hgi
  rw [hx]
  exact Option.isSome_iff_ne_none.2 harea

/-- A record written changes memory at its homes, and the count of free values. -/
theorem saveRecord_side (s : State) (c : Ctx) (k : Kernel) (g : Group) (va : Nat) :
    HomeSide AnyByte { s with exe := { s.exe with fresh := s.exe.fresh + saveSize k } } (saveRecord s c k g va) :=
  (vaBytes_side ..).trans (.foldl (fun _ _ _ => vaBytes_side ..) _)

/-- The record of a group that is PARKED. -/
def parkedGroup (g : Group) : Group := { g with state := .parked, slots := [], tctx := none }

/-- A group's record written and its core left. -/
def parkGroup (s : State) (i : Nat) (g : Group) (k : Kernel) (c : Ctx) (o : Nat) : State :=
  let t := saveRecord (spillAll s g k.part) c k g (c.desc.saveArea.toNat + o)
  { t with exe := { t.exe with groups := modAt t.exe.groups i fun g => { g with state := .parked, slots := [], tctx := none } } }

theorem parkGroup_spec (hg : s.exe.groups[i]? = some g) :
    (parkGroup s i g k c o).exe.gangs = s.exe.gangs ∧ (parkGroup s i g k c o).exe.groups = (modAt s.exe.groups i fun _ => parkedGroup g) ∧
      (parkGroup s i g k c o).mem.ops = s.mem.ops ∧ (parkGroup s i g k c o).ctl.kernels = s.ctl.kernels ∧ (parkGroup s i g k c o).ctl.ctxs = s.ctl.ctxs := by
  have hside := saveRecord_side (spillAll s g k.part) c k g (c.desc.saveArea.toNat + o)
  unfold parkGroup
  dsimp only
  refine ⟨?_, ?_, hside.mem.ops, ?_, ?_⟩
  · rw [hside.exe]; rfl
  · rw [hside.exe]; exact modAt_const hg _
  · rw [hside.ctl]; rfl
  · rw [hside.ctl]; rfl

theorem groupParked_eq (h : GroupOf s i g k c) (hd : ParkDone s i g c) (ho : g.saved = some o) (ha : HasAreas s g) :
    exec (.groupParked i) s = .next (settleQueues (afterDepart (parkGroup s i g k c o) k.part k.ctx)) := by
  rw [exec_groupParked]
  unfold execGroupParked
  rw [h.group]
  dsimp only
  rw [h.kernOf]
  dsimp only
  rw [h.kernCtx]
  dsimp only
  rw [parkReady_iff.2 hd, if_neg (by decide), parkAreas_same ha, takeSave_saved h.group ho, parkRoom_of_areas h.group ho ha, if_neg (by decide), h.group,
    Option.bind_some, ho]
  rfl

theorem groupParked_none (h : ∀ g k c, GroupOf s i g k c → ¬ ParkDone s i g c) : exec (.groupParked i) s = .next s := by
  rw [exec_groupParked]
  unfold execGroupParked
  split
  · rfl
  · rename_i g hg
    split
    · rfl
    · rename_i k hk
      split
      · rfl
      · rename_i c hc
        exact if_pos (by rw [Bool.not_eq_true', ← Bool.not_eq_true, parkReady_iff]; exact h g k c ⟨hg, hk, hc⟩)

/-- What the park of a group leaves. -/
structure ParkedFrom (s t : State) (i : Nat) (g : Group) (k : Kernel) (c : Ctx) : Prop where
  ops : t.mem.ops = s.mem.ops
  gangs : t.exe.gangs = s.exe.gangs
  kernels : t.ctl.kernels = s.ctl.kernels
  groups : t.exe.groups = modAt s.exe.groups i fun _ => parkedGroup g
  now : CtxNow t k.part k.ctx fun x => x = { c with state := afterLeaving s k.part k.ctx i true c.state }

theorem groupParked_parks (h : GroupOf s i g k c) (hd : ParkDone s i g c) (ho : g.saved = some o) (ha : HasAreas s g) :
    ∃ t, exec (.groupParked i) s = .next t ∧ ParkedFrom s t i g k c := by
  obtain ⟨hgangs, hgroups, hops, hkern, hctxs⟩ := parkGroup_spec (k := k) (c := c) (o := o) h.group
  obtain ⟨ctxs, hdepart, hnow⟩ := afterDepart_now (s := s) (i := i) (x := parkedGroup g) (t := parkGroup s i g k c o) (c := c)
    (by rw [hctxs]; exact h.ctx) h.lt hgroups (ofCtx_congr (fun j => by rw [hkern]) _ _) h.ofCtx rfl
  have hside := settleQueues_side (afterDepart (parkGroup s i g k c o) k.part k.ctx)
  refine ⟨_, groupParked_eq h hd ho ha, ?_⟩
  rw [hdepart] at hside ⊢
  refine ⟨hside.mem.ops.trans hops, ?_, ?_, ?_, _, ?_, rfl⟩
  · rw [hside.exe]; exact hgangs
  · rw [hside.ctl]; exact hkern
  · rw [hside.exe]; exact hgroups
  · rw [hside.ctl]; exact hnow

/-! ## GROUP_RESTORE (R84, R85, R303) -/

theorem groupRestore_none (h : ∀ g k c, GroupOf s i g k c → restorable c g = false ∨ newAhead s k.part k.prio = true) : exec (.groupRestore i) s = .next s := by
  rw [exec_groupRestore]
  unfold execGroupRestore
  split
  · rfl
  · rename_i g hg
    split
    · rfl
    · rename_i k hk
      split
      · rfl
      · rename_i c hc
        refine if_pos ?_
        rw [Bool.or_eq_true, Bool.not_eq_true']
        exact h g k c ⟨hg, hk, hc⟩

theorem findCore_first {cores pre post : List Nat} {p : Packet} {n prio : Nat} (hcores : cores = pre ++ core :: post)
    (hpre : ∀ x ∈ pre, coreRoom s x resident p n = false) (hcore : coreRoom s core resident p n = true) : findCore s cores p n prio = .at_ core s := by
  have hfind : (cores.find? fun c => coreRoom s c resident p n) = some core := by
    rw [hcores, List.find?_append, List.find?_eq_none.2 fun x hx => by rw [hpre x hx]; decide, Option.none_or, List.find?_cons, hcore]
  unfold findCore
  rw [hfind]

theorem groupRestore_eq (h : GroupOf s i g k c) (hr : restorable c g = true) (hn : newAhead s k.part k.prio = false)
    (hfound : findCore s (allowedCores s k) k.pkt 1 k.prio = .at_ core s) : exec (.groupRestore i) s = .next (settleQueues (restoreOn s i g k c core)) := by
  rw [exec_groupRestore]
  unfold execGroupRestore
  rw [h.group]
  dsimp only
  rw [h.kernOf]
  dsimp only
  rw [h.kernCtx]
  dsimp only
  rw [hr, hn, if_neg (by decide), hfound]

theorem takePart_keeps {α β : Type} (p : α → β) (s : State) (c : Ctx) (va n : Nat) {f : List Byte → α → α} (hf : ∀ bs x, p (f bs x) = p x) (x : α) :
    p (takePart s c va n f x) = p x := by
  unfold takePart
  split
  · exact hf ..
  · rfl

/-- What a group keeps when its record is loaded. -/
def recordBody (g : Group) : Nat × Nat × List Nat × List Nat × Nat := (g.kern, g.lid, g.gangs, g.pins, g.nbs.length)

theorem loadGroup_recordBody (s : State) (c : Ctx) (k : Kernel) (va : Nat) (g : Group) : recordBody (loadGroup s c k va g) = recordBody g := by
  unfold loadGroup
  dsimp only
  rw [takePart_keeps recordBody, takePart_keeps recordBody]
  · exact fun _ _ => rfl
  · intro bs x
    unfold recordBody
    rw [List.length_mapIdx]

theorem foldl_zipIdx_get {f : Nat → Gang → Gang} (L : List Nat) : L.Nodup → ∀ (n : Nat) (gs : List Gang) (gi : Nat),
    (gi ∉ L → ((L.zipIdx n).foldl (fun gs x => modAt gs x.1 (f x.2)) gs)[gi]? = gs[gi]?) ∧
    ∀ j : Nat, L[j]? = some gi → ((L.zipIdx n).foldl (fun gs x => modAt gs x.1 (f x.2)) gs)[gi]? = (gs[gi]?).map (f (n + j)) := by
  induction L with
  | nil => exact fun _ n gs gi => ⟨fun _ => rfl, fun j h => by cases h⟩
  | cons a L ih =>
    intro hn n gs gi
    obtain ⟨ha, hL⟩ := List.nodup_cons.1 hn
    rw [List.zipIdx_cons, List.foldl_cons]
    obtain ⟨hout, hin⟩ := ih hL (n + 1) (modAt gs a (f n)) gi
    refine ⟨fun hgi => ?_, fun j hj => ?_⟩
    · rw [List.mem_cons, not_or] at hgi
      exact (hout hgi.2).trans (modAt_other _ _ _ _ hgi.1)
    · cases j with
      | zero =>
        obtain rfl := Option.some.inj hj
        rw [hout ha, modAt_get, if_pos rfl, Nat.add_zero]
      | succ j =>
        have hmem : gi ∈ L := List.mem_of_getElem? (i := j) hj
        rw [hin j hj, modAt_other _ _ _ _ fun e => ha (by rw [← e]; exact hmem), Nat.add_right_comm, Nat.add_assoc]

/-- The stack pool of a kernel's partition. -/
def poolOf (s : State) (k : Kernel) : SMap 8 := ((findPart s.ctl.parts k.part).map Partition.pool).getD []

theorem ctxRunning_exe (s : State) (part cid : Nat) : (ctxRunning s part cid).exe = s.exe := rfl

theorem ctxRunning_ctxs (s : State) (part cid : Nat) : (ctxRunning s part cid).ctl.ctxs =
    modCtx s.ctl.ctxs part cid fun c => if c.state == .runnable || c.state == .parked then { c with state := .running } else c := rfl

theorem recordBody_running (x : Group) (core : Nat) (slots : List Nat) (tile : Option TileStream) (tctx : Option Nat) :
    recordBody { x with state := .running, core := core, slots := slots, tile := tile, saved := none, debugSave := false, atStop := false, tctx := tctx } =
      recordBody x := rfl

theorem restoreOn_groups (s : State) (i : Nat) (g : Group) (k : Kernel) (c : Ctx) (core : Nat) : ∃ x : Group,
    (restoreOn s i g k c core).exe.groups = (modAt (modAt s.exe.groups i fun _ => x) i fun y => { y with saved := none }) ∧ x.state = .running ∧ x.core = core ∧
      recordBody x = recordBody (loadGroup s c k (c.desc.saveArea.toNat + g.saved.getD 0) g) := by
  obtain ⟨u, hu, x, hx⟩ : ∃ u, restoreOn s i g k c core = ctxRunning u k.part k.ctx ∧ ∃ x : Group,
      u.exe.groups = (modAt (modAt s.exe.groups i fun _ => x) i fun y => { y with saved := none }) ∧ x.state = .running ∧ x.core = core ∧
      recordBody x = recordBody (loadGroup s c k (c.desc.saveArea.toNat + g.saved.getD 0) g) := by
    refine ⟨_, rfl, ?_⟩
    split <;> exact ⟨_, rfl, rfl, rfl, recordBody_running ..⟩
  exact ⟨x, by rw [hu]; exact hx⟩

theorem restoreOn_gangs (s : State) (i : Nat) (g : Group) (k : Kernel) (c : Ctx) (core : Nat) : ∃ slots,
    (restoreOn s i g k c core).exe.gangs = g.gangs.zipIdx.foldl (fun gs x => modAt gs x.1 fun y =>
      { loadGang s c k (poolOf s k) (c.desc.saveArea.toNat + g.saved.getD 0) x.2 y with slot := nth slots x.2 0, yielded := false }) s.exe.gangs := by
  refine ⟨takeSlots (usedSlots s core) (gangCount k.pkt), (congrArg Exe.gangs (ctxRunning_exe ..)).trans ?_⟩
  split <;> rfl

theorem restoreOn_ctxs (s : State) (i : Nat) (g : Group) (k : Kernel) (c : Ctx) (core : Nat) : (restoreOn s i g k c core).ctl.ctxs =
    modCtx (modCtx s.ctl.ctxs k.part k.ctx fun c => { c with saves := c.saves.filter fun r => r.1 != i }) k.part k.ctx fun c =>
      if c.state == .runnable || c.state == .parked then { c with state := .running } else c := by
  refine (ctxRunning_ctxs ..).trans (congrArg (fun cs => modCtx cs k.part k.ctx _) ?_)
  split <;> rfl

theorem restorable_running (h : restorable c g = true) : c.state = .runnable ∨ c.state = .parked ∨ c.state = .running := by
  unfold restorable at h
  simp only [Bool.and_eq_true, Bool.or_eq_true, beq_iff_eq] at h
  tauto

/-- What the restore of a group leaves. -/
structure RestoredFrom (s t : State) (i : Nat) (g : Group) (k : Kernel) (c : Ctx) (core : Nat) : Prop where
  group : ∃ g', t.exe.groups[i]? = some g' ∧ g'.state = .running ∧ g'.core = core ∧ g'.saved = none ∧ recordBody g' = recordBody g
  others : ∀ j : Nat, j ≠ i → t.exe.groups[j]? = s.exe.groups[j]?
  gangs : ∀ (gi : Nat) (x : Gang), s.exe.gangs[gi]? = some x → (gi ∉ g.gangs → t.exe.gangs[gi]? = some x) ∧
    ∀ j : Nat, g.gangs[j]? = some gi → ∃ y, t.exe.gangs[gi]? = some y ∧
      y = { loadGang s c k (poolOf s k) (c.desc.saveArea.toNat + g.saved.getD 0) j x with slot := y.slot, yielded := false }
  now : CtxNow t k.part k.ctx fun x => x.state = .running ∧ x.saves = c.saves.filter fun r => r.1 != i

theorem RestoredFrom.settled {t : State} (h : RestoredFrom s t i g k c core) : RestoredFrom s (settleQueues t) i g k c core := by
  have hside := settleQueues_side t
  obtain ⟨hgroup, hothers, hgangs, hnow⟩ := h
  refine ⟨?_, ?_, ?_, ?_⟩
  · rw [hside.exe]; exact hgroup
  · rw [hside.exe]; exact hothers
  · rw [hside.exe]; exact hgangs
  · unfold CtxNow
    rw [hside.ctl]
    exact hnow

theorem restoreOn_spec (h : GroupOf s i g k c) (hr : restorable c g = true) (hn : g.gangs.Nodup) : RestoredFrom s (restoreOn s i g k c core) i g k c core := by
  obtain ⟨x, hgroups, hstate, hcore, hbody⟩ := restoreOn_groups s i g k c core
  obtain ⟨slots, hgangs⟩ := restoreOn_gangs s i g k c core
  rw [modAt_modAt] at hgroups
  refine ⟨⟨{ x with saved := none }, ?_, hstate, hcore, rfl, hbody.trans (loadGroup_recordBody ..)⟩, fun j hj => ?_, fun gi x hx => ?_, ?_⟩
  · rw [hgroups, modAt_get, if_pos rfl, h.group]
    rfl
  · rw [hgroups, modAt_other _ _ _ _ hj]
  · obtain ⟨hout, hin⟩ := foldl_zipIdx_get (f := fun j y =>
      { loadGang s c k (poolOf s k) (c.desc.saveArea.toNat + g.saved.getD 0) j y with slot := nth slots j 0, yielded := false }) g.gangs hn 0 s.exe.gangs gi
    rw [hgangs]
    refine ⟨fun hgi => (hout hgi).trans hx, fun j hj => ⟨_, (hin j hj).trans (congrArg _ hx), ?_⟩⟩
    rw [Nat.zero_add]
  · have hsaves := findCtx_modCtx (f := fun c => { c with saves := c.saves.filter fun r => r.1 != i }) h.ctx fun _ => ⟨rfl, rfl⟩
    have hrun := findCtx_modCtx (f := fun c => if c.state == .runnable || c.state == .parked then { c with state := .running } else c) hsaves
      fun x => by split <;> exact ⟨rfl, rfl⟩
    refine ⟨_, (congrArg (findCtx · k.part k.ctx) (restoreOn_ctxs s i g k c core)).trans hrun, ?_⟩
    split
    · exact ⟨rfl, rfl⟩
    · rename_i hne
      rw [Bool.or_eq_true, beq_iff_eq, beq_iff_eq, not_or] at hne
      exact ⟨((restorable_running hr).resolve_left hne.1).resolve_left hne.2, rfl⟩

end

end Sys2Proof.Machine
end

section
/-! PROOFS. Proofs/GroupEventsSettled.lean: O52, from the rules of the events. -/

namespace Sys2Proof.Machine

theorem recordBody_eq {g g' : Group} (h : recordBody g' = recordBody g) :
    g'.kern = g.kern ∧ g'.lid = g.lid ∧ g'.gangs = g.gangs ∧ g'.nbs.length = g.nbs.length ∧ g'.pins = g.pins := by
  unfold recordBody at h
  simp only [Prod.mk.injEq] at h
  obtain ⟨hkern, hlid, hgangs, hpins, hnbs⟩ := h
  exact ⟨hkern, hlid, hgangs, hnbs, hpins⟩

theorem not_lastGroup_iff {s : State} {i kern : Nat} {k : Kernel} : ¬ LastGroup s i kern k ↔
    k.state ≠ .running ∨ k.nextLid ≠ k.total ∨ ∃ (j : Nat) (y : Group), s.exe.groups[j]? = some y ∧ y.kern = kern ∧ j ≠ i ∧ y.state ≠ .done := by
  unfold LastGroup
  simp only [not_and_or, not_forall, exists_prop]

end Sys2Proof.Machine

namespace Sys2Proof
open Machine

/-- Settles O52: each event by the conditions that choose its branch, and the records by their fields. -/
theorem groupEvents : Obligations.GroupEvents := by
  unfold Obligations.GroupEvents
  refine ⟨fun s i => ⟨fun h => groupRequeue_none fun g k c hg ⟨h1, h2, h3, h4, h5⟩ => ?_, fun g k c hg hk hc h1 h2 h3 h4 h5 =>
      groupRequeue_pending ⟨hg, hk, hc⟩ ⟨h1, h2, h3, h4, h5⟩, groupDone_none, fun g k c hg hk hc he => ?_⟩,
    fun s i => ⟨fun h => groupParked_none fun g k c hg => h g k c hg.group hg.kern hg.ctx, fun g k c o hg hk hc hd ho _ ha => ?_,
      fun h => groupRestore_none fun g k c hg => h g k c hg.group hg.kern hg.ctx, fun g k c core pre post hg hk hc hr hn hnodup hcores hpre hcore => ?_⟩,
    fun s i => ⟨gangStarved_none, fun g => gangStarved_first⟩,
    fun s i => ⟨turnPass_none, fun k gi g grp c m hk hfix hturn hgrp hc hm hruns => ?_⟩,
    fun g k => loadSlice_sliceBytes, fun e he => ⟨entryBytes_length e, entryOf_entryBytes he⟩⟩
  · rcases h g k c hg.group hg.kern hg.ctx with h | h | h | h | h
    · exact h h1
    · rw [h2] at h
      cases h
    · exact h3 h
    · exact h4 h
    · exact h5 h
  · obtain ⟨t, hexec, h⟩ := groupDone_ends ⟨hg, hk, hc⟩ he
    exact ⟨t, hexec, h.copies, h.ops, h.groups, h.gangs, h.now, fun h1 h2 h3 => h.last ⟨h1, h2, h3⟩, fun hn => h.others (not_lastGroup_iff.2 hn)⟩
  · obtain ⟨t, hexec, h⟩ := groupParked_parks ⟨hg, hk, hc⟩ hd ho ha
    exact ⟨t, hexec, h.ops, h.gangs, h.kernels, h.groups, h.now⟩
  · have hgrp : GroupOf s i g k c := ⟨hg, hk, hc⟩
    have h := (restoreOn_spec (core := core) hgrp hr hnodup).settled
    obtain ⟨g', hg', hstate, hcore', hsaved, hbody⟩ := h.group
    obtain ⟨hkern, hlid, hgangs, hnbs, hpins⟩ := recordBody_eq hbody
    exact ⟨_, g', groupRestore_eq hgrp hr hn (findCore_first hcores hpre hcore), hg', hstate, hcore', hsaved, hkern, hlid, hgangs, hnbs, hpins,
      h.others, h.gangs, h.now⟩
  · have hhas : HasTurn s i k gi g grp c m := ⟨hk, hfix, hturn, hgrp, hc, hm, hruns⟩
    exact ⟨turnPass_stays hhas, fun hw => turnPass_passes hhas (hw.elim passes_of_waits id)⟩

end Sys2Proof
end

section
/-! PROOFS. Proofs/WindowAndAtomicIssue.lean: the issue of window accesses, atomics, queue operations, EVADD and PSTORE (R94, R101,
R183, R200, R220 to R224, R340). -/

namespace Sys2Proof.Machine

/-! ## LDL, LDL4, STL, STL4, ATLADD and ATLCAS at issue (R183, R200, R224) -/

/-- A window load's types and registers (R200). -/
def ldlLegal (e : Iss) (k : Nat) (d a b : Byte) (j : Nat) : Bool :=
  decide (e.ty j ≤ 13) && loadOrder (e.mode j) && (k == 1 || !tyWide (e.ty j)) && declOk e.n a && declOk e.n b
    && loadRunOk e.n d (runLen k (e.ty j))

/-- A window store's types and registers (R200). -/
def stlLegal (e : Iss) (k : Nat) (d a b : Byte) (j : Nat) : Bool :=
  decide (e.ty j ≤ 13) && storeOrder (e.mode j) && (k == 1 || !tyWide (e.ty j)) && declOk e.n a && declOk e.n b
    && storeRunOk e.n (e.ty j) d (runLen k (e.ty j)) (k == 1)

/-- Whether lane `l`'s access of `k` elements lies in the window (R183). -/
def windowFault (e : Iss) (k : Nat) (a b : Byte) (l : Nat) : Option FaultCode :=
  lmFault e.kern.pkt.lmem (lmOffset e.g l a b) (4 * runLen k (e.lty l))

theorem exec_windowLoads (d a b : Byte) (s : State) : ∀ p ∈ [(1, Instr.ldl d a b), (4, .ldl4 d a b)],
    exec p.2 s = ldlInstr p.1 d a b s := by
  simp [exec_ldl, exec_ldl4, execLdl, execLdl4]

theorem exec_windowStores (d a b : Byte) (s : State) : ∀ p ∈ [(1, Instr.stl d a b), (4, .stl4 d a b)],
    exec p.2 s = stlInstr p.1 d a b s := by
  simp [exec_stl, exec_stl4, execStl, execStl4]

section
variable {s : State} {e : Iss} (h : issOf s = some e)
include h

theorem ldl_issues (hroom : RoomForTraps e) (k : Nat) (d a b : Byte) (hok : ∀ j ∈ e.sls, ldlLegal e k d a b j = true)
    (hc : ∀ j ∈ e.sls, (e.g.sl j).cL < 63) (hw : ∀ l ∈ e.active, windowFault e k a b l = none) :
    ∃ t ops, ldlInstr k d a b s = .next t ∧ Issued s t e (fun _ => .l) ops ∧ OpsOf s e (fun _ => .ldl) (fun _ => .l) ops ∧
      ∀ o ∈ ops, o.order = mOrder (e.mode o.slice) ∧ o.dst = d.toNat ∧ o.nreg = runLen k (e.ty o.slice) ∧
        o.parts = (e.active.filter fun l => l / 4 == o.slice).map fun l =>
          lmPart l (lmOffset e.g l a b) (4 * runLen k (e.ty o.slice)) [] := by
  obtain rfl := (issOf_some h).1
  exact laneOps_ex h hroom rfl rfl hok hc hw (.refl _) (fun _ _ _ => mkOp_fields) fun _ _ _ => ⟨rfl, rfl, rfl, rfl⟩

theorem ldl_faults (k : Nat) (d a b : Byte) (hok : ∀ j ∈ e.sls, ldlLegal e k d a b j = true) (hc : ∀ j ∈ e.sls, (e.g.sl j).cL < 63) {l : Nat}
    {c : FaultCode} (hf : firstFailing e (windowFault e k a b) l c) :
    c = .lmRange ∧ ldlInstr k d a b s = .next (raise e (l / 4) .lmRange (BitVec.ofNat 64 (lmOffset e.g l a b))) := by
  obtain rfl := lmFault_some hf.2.1
  exact ⟨rfl, laneOps_fault (cl := fun _ => .l) (ea := fun l => lmOffset e.g l a b) h rfl hok hc hf⟩

theorem stl_issues (hroom : RoomForTraps e) (k : Nat) (d a b : Byte) (hok : ∀ j ∈ e.sls, stlLegal e k d a b j = true)
    (hc : ∀ j ∈ e.sls, (e.g.sl j).cS < 63) (hw : ∀ l ∈ e.active, windowFault e k a b l = none) :
    ∃ t ops, stlInstr k d a b s = .next t ∧ Issued s t e (fun _ => .s) ops ∧ OpsOf s e (fun _ => .stl) (fun _ => .s) ops ∧
      ∀ o ∈ ops, o.order = mOrder (e.mode o.slice) ∧ o.parts = (e.active.filter fun l => l / 4 == o.slice).map fun l =>
        lmPart l (lmOffset e.g l a b) (4 * runLen k (e.ty o.slice))
          (storeBytes e.g (e.ty o.slice) l d (runLen k (e.ty o.slice)) (k == 1)) := by
  obtain rfl := (issOf_some h).1
  exact laneOps_ex h hroom rfl rfl hok hc hw (.refl _) (fun _ _ _ => mkOp_fields) fun _ _ _ => ⟨rfl, rfl⟩

theorem stl_faults (k : Nat) (d a b : Byte) (hok : ∀ j ∈ e.sls, stlLegal e k d a b j = true) (hc : ∀ j ∈ e.sls, (e.g.sl j).cS < 63) {l : Nat}
    {c : FaultCode} (hf : firstFailing e (windowFault e k a b) l c) :
    c = .lmRange ∧ stlInstr k d a b s = .next (raise e (l / 4) .lmRange (BitVec.ofNat 64 (lmOffset e.g l a b))) := by
  obtain rfl := lmFault_some hf.2.1
  exact ⟨rfl, laneOps_fault (cl := fun _ => .s) (ea := fun l => lmOffset e.g l a b) h rfl hok hc hf⟩

theorem atl_issues (hroom : RoomForTraps e) (ok : Nat → Bool) (cas : Bool) (d a b : Byte) {cl : Cls} (hcl : cl = if d = 0 then .s else .l)
    (hok : ∀ j ∈ e.sls, (ok (e.ty j) && declOk e.n d && declOk e.n a && declOk e.n b) = true)
    (hc : ∀ j ∈ e.sls, clsCount (e.g.sl j) cl < 63) (hw : ∀ l ∈ e.active, lmFault e.kern.pkt.lmem (rd e.g l a) 4 = none) :
    ∃ t ops, atlInstr ok cas d a b s = .next t ∧ Issued s t e (fun _ => cl) ops ∧ OpsOf s e (fun _ => .atl cas (d != 0)) (fun _ => cl) ops ∧
      ∀ o ∈ ops, o.order = mOrder (e.mode o.slice) ∧ o.dst = d.toNat ∧ o.nreg = 1 ∧
        o.parts = (e.active.filter fun l => l / 4 == o.slice).map fun l =>
          { lmPart l (rd e.g l a) 4 (natLe (rd e.g l b) 4) with cmp := BitVec.ofNat 64 (rd e.g l d) } := by
  subst hcl
  obtain rfl := (issOf_some h).1
  exact laneOps_ex h hroom rfl rfl hok hc hw (.refl _) (fun _ _ _ => mkOp_fields) fun _ _ _ => ⟨rfl, rfl, rfl, rfl⟩

/-! ## The atomics, EVADD, ENQ, DEQ and PSTORE at issue (R94, R101, R220 to R223, R340) -/

theorem atomic_issues (hroom : RoomForTraps e) (op : AtOp) (ok : Nat → Bool) (d a b : Byte) {cl : Cls} (hcl : cl = if d = 0 then .s else .l)
    {f : Nat → Except FaultCode (List (MemPart × Nat))}
    (hfun : f = fun l => rmwPart s (coreAt e.core) e.ctx l (rdPair e.g l a) (if tyWide (e.lty l) then 8 else 4) op (e.val b l) (e.val d l))
    (hok : ∀ j ∈ e.sls, (ok (e.ty j) && pairOk e.n a && srcOk e.n (e.ty j) b && (d == 0 || dstOk e.n (e.ty j) d)) = true)
    (hc : ∀ j ∈ e.sls, clsCount (e.g.sl j) cl < 63) (hf : Reaches e f) :
    ∃ t ops, atomic op ok d a b s = .next t ∧ Issued s t e (fun _ => cl) ops ∧
      OpsOf s e (fun k => .rmw op (tySigned (e.ty k)) (d != 0)) (fun _ => cl) ops ∧ ∀ o ∈ ops, o.order = mOrder (e.mode o.slice) ∧
        o.dst = d.toNat ∧ o.nreg = (if tyWide (e.ty o.slice) then 2 else 1) ∧ o.parts = sliceParts e f o.slice := by
  subst hcl hfun
  obtain rfl := (issOf_some h).1
  exact laneOps_ex h hroom rfl rfl hok hc (fun l hl => excFault_none.2 (hf l hl)) (dropParts_core _ _ _) (fun _ _ _ => mkOp_fields)
    fun _ _ _ => ⟨rfl, rfl, rfl, partsOf_slice (fun _ => rmwPart_lane) _⟩

theorem atomic_faults (op : AtOp) (ok : Nat → Bool) (d a b : Byte) {cl : Cls} (hcl : cl = if d = 0 then .s else .l)
    {f : Nat → Except FaultCode (List (MemPart × Nat))}
    (hfun : f = fun l => rmwPart s (coreAt e.core) e.ctx l (rdPair e.g l a) (if tyWide (e.lty l) then 8 else 4) op (e.val b l) (e.val d l))
    (hok : ∀ j ∈ e.sls, (ok (e.ty j) && pairOk e.n a && srcOk e.n (e.ty j) b && (d == 0 || dstOk e.n (e.ty j) d)) = true)
    (hc : ∀ j ∈ e.sls, clsCount (e.g.sl j) cl < 63) {l : Nat} {c : FaultCode} (hf : firstFailing e (fun l => excFault (f l)) l c) :
    atomic op ok d a b s = .next (raise e (l / 4) c (BitVec.ofNat 64 (rdPair e.g l a))) := by
  subst hcl hfun
  obtain rfl := (issOf_some h).1
  exact laneOps_fault (cl := fun _ => if d = 0 then .s else .l) (ea := fun l => rdPair e.g l a) h rfl hok hc hf

theorem evadd_issues (hroom : RoomForTraps e) (a b : Byte) {f : Nat → Except FaultCode (List (MemPart × Nat))}
    (hfun : f = fun l => rmwPart s (coreAt e.core) e.ctx l (rdPair e.g l a) 8 .add (rd64 e.g l b false) 0)
    (ha : pairOk e.n a = true) (hb : wideOk e.n b = true) (hc : ∀ j ∈ e.sls, (e.g.sl j).cS < 63) (hf : Reaches e f) :
    ∃ t ops, exec (.evadd a b) s = .next t ∧ Issued s t e (fun _ => .s) ops ∧ OpsOf s e (fun _ => .rmw .add false false) (fun _ => .s) ops ∧
      ∀ o ∈ ops, o.order = 2 ∧ o.parts = sliceParts e f o.slice := by
  subst hfun
  obtain rfl := (issOf_some h).1
  rw [exec_evadd]
  exact laneOps_ex h hroom rfl rfl (fun _ _ => by rw [ha, hb]; rfl) hc (fun l hl => excFault_none.2 (hf l hl)) (dropParts_core _ _ _)
    (fun _ _ _ => mkOp_fields) fun _ _ _ => ⟨rfl, partsOf_slice (fun _ => rmwPart_lane) _⟩

theorem queue_issues (hroom : RoomForTraps e) (enq : Bool) (d a b : Byte) {f : Nat → Except FaultCode (List (MemPart × Nat))}
    (hfun : f = fun l => queuePart s e l a b enq) (hd : pairOk e.n d = true) (ha : pairOk e.n a = true) (hb : declOk e.n b = true)
    (hc : ∀ j ∈ e.sls, (e.g.sl j).cL < 63) (hp : enq = true → ownLocalPending e = false) (hf : Reaches e f) :
    ∃ t ops, queueInstr enq d a b s = .next t ∧ Issued s t e (fun _ => .l) ops ∧
      OpsOf s e (fun _ => if enq then .enq 0 else .deq 0) (fun _ => .l) ops ∧ ∀ o ∈ ops, o.order = mOrder (e.mode o.slice) ∧
        o.dst = d.toNat ∧ o.nreg = 2 ∧ o.parts = sliceParts e f o.slice := by
  subst hfun
  obtain rfl := (issOf_some h).1
  refine ops_ex h hroom rfl ?_ (dropParts_core _ _ _) (fun _ _ _ => mkOp_fields)
    fun _ _ _ => ⟨rfl, rfl, rfl, partsOf_slice (fun _ => queuePart_lane) _⟩
  have hwait : (enq && ownLocalPending e) = false := by
    cases enq
    · rfl
    · exact hp rfl
  simp only [hwait, Judge.and_go, Bool.false_eq_true, if_false, and_true]
  exact ⟨legal_go.2 fun _ _ => by rw [hd, ha, hb]; rfl, clsRoom_go.2 hc, judgeLanes_go.2 fun l hl => excFault_none.2 (hf l hl)⟩

/-- The store of lane `l` to the device that register b names (R340). -/
def pstoreAccess (s : State) (e : Iss) (d a b : Byte) (l : Nat) : Except FaultCode (List (MemPart × Nat)) :=
  pstorePart s (coreAt e.core) e.ctx l (rdPair e.g l a) (rd e.g l b) (if tyWide (e.lty l) then 8 else 4)
    (natLe (e.val d l) (if tyWide (e.lty l) then 8 else 4))

theorem pstore_issues (hroom : RoomForTraps e) (d a b : Byte)
    (hok : ∀ j ∈ e.sls, (decide (e.ty j ≤ 13) && storeOrder (e.mode j) && srcOk e.n (e.ty j) d && pairOk e.n a && declOk e.n b) = true)
    (hc : ∀ j ∈ e.sls, (e.g.sl j).cS < 63) (hf : Reaches e (pstoreAccess s e d a b)) :
    ∃ t ops, exec (.pstore d a b) s = .next t ∧ Issued s t e (fun _ => .s) ops ∧ OpsOf s e (fun _ => .pstore) (fun _ => .s) ops ∧
      ∀ o ∈ ops, o.order = mOrder (e.mode o.slice) ∧ o.parts = sliceParts e (pstoreAccess s e d a b) o.slice := by
  obtain rfl := (issOf_some h).1
  rw [exec_pstore]
  exact laneOps_ex h hroom rfl rfl hok hc (fun l hl => excFault_none.2 (hf l hl)) (storeL1_core _ _ _) (fun _ _ _ => mkOp_fields)
    fun _ _ _ => ⟨rfl, partsOf_slice (fun _ => pstorePart_lane) _⟩

theorem pstore_faults (d a b : Byte)
    (hok : ∀ j ∈ e.sls, (decide (e.ty j ≤ 13) && storeOrder (e.mode j) && srcOk e.n (e.ty j) d && pairOk e.n a && declOk e.n b) = true)
    (hc : ∀ j ∈ e.sls, (e.g.sl j).cS < 63) {l : Nat} {c : FaultCode} (hf : firstFailing e (fun l => excFault (pstoreAccess s e d a b l)) l c) :
    exec (.pstore d a b) s = .next (raise e (l / 4) c (BitVec.ofNat 64 (rdPair e.g l a))) := by
  obtain rfl := (issOf_some h).1
  rw [exec_pstore]
  exact laneOps_fault (cl := fun _ => .s) (ea := fun l => rdPair e.g l a) h rfl hok hc hf

end

theorem exec_atomics (d a b : Byte) (s : State) :
    ∀ p ∈ [(Instr.atadd d a b, AtOp.add, tyI), (.atand d a b, .and, tyI), (.ator d a b, .or, tyI), (.atxor d a b, .xor, tyI),
      (.atmin d a b, .min, tyI), (.atmax d a b, .max, tyI), (.atxchg d a b, .xchg, tyIF), (.atcas d a b, .cas, tyIF),
      (.atfmax d a b, .fmax, tyF), (.atfmin d a b, .fmin, tyF)], exec p.1 s = atomic p.2.1 p.2.2 d a b s := by
  simp [exec_atadd, exec_atand, exec_ator, exec_atxor, exec_atmin, exec_atmax, exec_atxchg, exec_atcas, exec_atfmax, exec_atfmin,
    execAtadd, execAtand, execAtor, execAtxor, execAtmin, execAtmax, execAtxchg, execAtcas, execAtfmax, execAtfmin]

theorem exec_windowAtomics (d a b : Byte) (s : State) :
    ∀ p ∈ ([(.atladd d a b, false, fun t => decide (t ≤ 1)), (.atlcas d a b, true, fun t => decide (t ≤ 1) || t == 4)] :
      List (Instr × Bool × (Nat → Bool))), exec p.1 s = atlInstr p.2.2 p.2.1 d a b s := by
  simp [exec_atladd, exec_atlcas, execAtladd, execAtlcas]

theorem exec_queues (d a b : Byte) (s : State) : ∀ p ∈ [(Instr.enq d a b, true, OpKind.enq 0), (.deq d a b, false, .deq 0)],
    exec p.1 s = queueInstr p.2.1 d a b s ∧ p.2.2 = if p.2.1 then .enq 0 else .deq 0 := by
  simp [exec_enq, exec_deq, execEnq, execDeq]

/-- Settles O27: each family of instructions is one form of issue, judged by its types, the room of its class and its lanes. -/
theorem windowAndAtomicIssue : Obligations.WindowAndAtomicIssue := by
  unfold Obligations.WindowAndAtomicIssue
  refine ⟨fun s e d a b h hroom => ⟨fun p hp hok hc => ?_, fun p hp hok hc => ?_, fun p hp cl hcl hok hc hw => ?_⟩,
    fun s e d a b h hroom => ⟨fun p hp cl f hcl hf hok hc => ?_, fun f hf ha hb hc => evadd_issues h hroom a b hf ha hb hc,
      fun p hp f hf hd ha hb hc hw hr => ?_, fun f hf hok hc => ?_⟩⟩
  · rw [exec_windowLoads d a b s p hp]
    exact ⟨fun hw => ldl_issues h hroom p.1 d a b hok hc fun l hl => lmFault_none.2 (hw l hl), fun l c => ldl_faults h p.1 d a b hok hc⟩
  · rw [exec_windowStores d a b s p hp]
    exact ⟨fun hw => stl_issues h hroom p.1 d a b hok hc fun l hl => lmFault_none.2 (hw l hl), fun l c => stl_faults h p.1 d a b hok hc⟩
  · rw [exec_windowAtomics d a b s p hp]
    exact atl_issues h hroom p.2.2 p.2.1 d a b hcl hok hc fun l hl => lmFault_none.2 (hw l hl)
  · rw [exec_atomics d a b s p hp]
    exact ⟨atomic_issues h hroom p.2.1 p.2.2 d a b hcl hf hok hc, fun l c => atomic_faults h p.2.1 p.2.2 d a b hcl hf hok hc⟩
  · obtain ⟨hexec, hkind⟩ := exec_queues d a b s p hp
    rw [hexec, hkind]
    exact queue_issues h hroom p.2.1 d a b hf hd ha hb hc hw hr
  · obtain rfl : f = pstoreAccess s e d a b := hf
    exact ⟨pstore_issues h hroom d a b hok hc, fun l c => pstore_faults h d a b hok hc⟩

end Sys2Proof.Machine
end

section
/-! PROOFS. Proofs/PrefetchSpill.lean: a PREF after which a byte that no copy held modified reads otherwise (R204). -/

namespace Sys2Proof.Machine

/-- A block of frame 0 with one more cell than a frame has, all modified, so that its last cell lies at the addresses of frame 1. -/
def longBlock : L2Block := { die := 0, frame := 0, start := 0, cells := List.replicate 17 ⟨1, true⟩, part := 0, ctx := 0, policy := 0 }

/-- The machine of one running group, whose slice 0 is about to issue, with that block under an owned directory entry of 1,024 bytes
that spans both frames: no whole grain (`GrainsOk`). -/
def longState : State :=
  let s := bootState State.reset 0 (.tick 0 0)
  { s with
    exe := { s.exe with
      agenda := [], cur := some (0, 1), gangs := s.exe.gangs.map fun g => { g with area := some 0, cohorts := [1, 0xFE] } }
    mem := { s.mem with dir := [{ grain := 0, size := 1024, owned := true, ptrs := [0] }], l2 := [longBlock] } }

/-- The cohort may issue, its stacks have room for a trap, and registers 8 and 9 are declared. -/
theorem longState_issues : ∃ e, issOf longState = some e ∧ RoomForTraps e ∧ baseOk e.n 8 = true ∧ declOk e.n 8 = true := by
  have hready : ((issOf longState).any fun e => (e.sls.all fun k => decide ((e.g.sl k).stack.length < stackLimit)) &&
      baseOk e.n 8 && declOk e.n 8) = true := by decide +kernel
  rw [Option.any_eq_true] at hready
  obtain ⟨e, he, hall⟩ := hready
  simp only [Bool.and_eq_true, List.all_eq_true, decide_eq_true_eq] at hall
  exact ⟨e, he, hall.1.1, hall.1.2, hall.2⟩

/-- No copy of frame 1 is modified and nothing is on its way, as the blocks' frames tell it. -/
theorem longState_alone : HomeAlone longState.mem 512 := by
  refine ⟨by decide +kernel, fun b hb hf => ?_⟩
  rw [List.mem_singleton.1 hb] at hf
  exact absurd hf (by decide)

theorem longState_byte : homeByte longState 512 = 0 := by decide +kernel

/-- The recall that PREF of address 0 makes writes the block's last cell into frame 1. -/
theorem longState_prefetched : (match exec (.pref 0 8 8) longState with
    | .next t => homeByte t 512
    | _ => 0) = 1 := by decide +kernel

/-- Refutes O28: the clause on PREF has no hypothesis that the directory holds whole grains. Under an entry that spans two frames, with
a block longer than its frame, the recall at the home writes a modified cell of frame 0 over a byte of frame 1, whose block does not
count as a copy of it. -/
theorem not_fencesBlocksAndUniform : ¬ Obligations.FencesBlocksAndUniform := by
  unfold Obligations.FencesBlocksAndUniform
  rintro ⟨hall, -⟩
  obtain ⟨e, he, hroom, hbase, hdecl⟩ := longState_issues
  obtain ⟨-, -, -, hpref, -⟩ := hall longState e 8 8 he hroom
  obtain ⟨t, ht, -, -, hkeeps, -⟩ := hpref 0 (by decide) hbase hdecl
  have hone := longState_prefetched
  rw [ht] at hone
  have hzero : homeByte t 512 = 0 := (hkeeps 512 (by decide) longState_alone).trans longState_byte
  exact absurd (hzero.symm.trans hone) (by decide)

end Sys2Proof.Machine
end

section
/-! PROOFS. Proofs/HomeAtomics.lean: atomics at their homes, and the packets of a peer's atomics (R221, R223, R326, R331, R336). -/

namespace Sys2Proof.Machine

theorem PartNow.and {m : Mem} {op i : Nat} {P Q : MemPart → Prop} (hp : PartNow m op i P) (hq : PartNow m op i Q) :
    PartNow m op i fun r => P r ∧ Q r := by
  obtain ⟨o, p, ho, hp, hP⟩ := hp
  obtain ⟨o', p', ho', hp', hQ⟩ := hq
  obtain rfl : o = o' := Option.some.inj (ho.symm.trans ho')
  obtain rfl : p = p' := Option.some.inj (hp.symm.trans hp')
  exact ⟨o, p, ho, hp, hP, hQ⟩

theorem findOp_part {m : Mem} {op i : Nat} {o : MemOp} {p : MemPart} (ho : findOp m op = some o) (hp : o.parts[i]? = some p) :
    PartNow m o.id i fun q => q = p :=
  ⟨o, p, by rw [findOp_id ho]; exact ho, hp, rfl⟩

/-! ## What a service changes beside the bytes: operations, the L1 of a core, its clock (R216, R218) -/

/-- Of a memory only operations, L1s with their predictor and clocks with their stamps change. -/
def OpsAndClocks (m m' : Mem) : Prop :=
  m' = { m with ops := m'.ops, l1 := m'.l1, predict := m'.predict, clocks := m'.clocks, homeStamp := m'.homeStamp }

theorem OpsAndClocks.refl (m : Mem) : OpsAndClocks m m := rfl

theorem OpsAndClocks.trans {a b c : Mem} (h : OpsAndClocks a b) (k : OpsAndClocks b c) : OpsAndClocks a c := by
  unfold OpsAndClocks at *
  rw [k, h]

theorem raiseClock_other (m : Mem) (core home : Nat) : OpsAndClocks m (raiseClock m core home) := by
  unfold raiseClock
  split <;> rfl

theorem l1DropCells_other (m : Mem) (core frame : Nat) (cs : List Nat) : OpsAndClocks m (l1DropCells m core frame cs) := by
  obtain ⟨l1, pr, h⟩ := l1DropCells_only m core frame cs
  rw [h]
  rfl

theorem stampRmw_other (m : Mem) (core scope home : Nat) : OpsAndClocks m (stampRmw m core scope home) := rfl

theorem gotParts_other (m : Mem) (olds : List (Nat × Nat × List Byte)) :
    OpsAndClocks m (olds.foldl (fun m x => gotPart m x.1 x.2.1 x.2.2 false) m) :=
  List.foldlRecOn olds _ (.refl m) fun _ h _ _ => h.trans rfl

/-- Every byte that the operations of a state read stands as it was. -/
theorem OpsAndClocks.num {m m' : Mem} (h : OpsAndClocks m m') {s : State} (hm : s.mem = m) (pa n : Nat) :
    numAt { s with mem := m' } pa n = numAt s pa n := by
  subst hm
  rw [show m' = _ from h]
  rfl

theorem OpsAndClocks.atHome {m m' : Mem} (h : OpsAndClocks m m') {s : State} (hm : s.mem = m) {off n : Nat} (ha : AtHome s off n) :
    AtHome { s with mem := m' } off n := by
  subst hm
  rw [show m' = _ from h]
  exact ha

theorem OpsAndClocks.grains {m m' : Mem} (h : OpsAndClocks m m') (hg : GrainsOk m.dir) : GrainsOk m'.dir := by
  rw [show m' = _ from h]
  exact hg

/-! ## The atomics of one issue at one address (R221) -/

/-- The parts of `same` are atomics `at_` on `n` bytes. -/
def SameAtomics (at_ : AtOp) (n : Nat) (same : List (MemOp × Nat)) : Prop :=
  ∀ x ∈ same, ∃ r, x.1.parts[x.2]? = some r ∧ r.len = n ∧ ∃ g b, x.1.kind = .rmw at_ g b

/-- A run stands at the number `v` of `n` bytes: `v` stands in its first bytes, and where it has written nothing `v` is the number `v0`
that it found. -/
def RmwRun.stands (r : RmwRun) (n v0 v : Nat) : Prop :=
  r.cur.take n = natLe v n ∧ v < 2 ^ (8 * n) ∧ (r.wrote = n ∨ r.wrote = 0 ∧ v = v0)

theorem leNat_natLe_lt {v n : Nat} (h : v < 2 ^ (8 * n)) : leNat (natLe v n) = v := by
  rw [leNat_natLe, show (256 : Nat) = 2 ^ 8 from rfl, ← pow_mul, Nat.mod_eq_of_lt h]

theorem natLe_mod (v n : Nat) : natLe (v % 2 ^ (8 * n)) n = natLe v n := by
  have h := natLe_leNat (natLe v n)
  rwa [natLe_length, leNat_natLe, show (256 : Nat) = 2 ^ 8 from rfl, ← pow_mul] at h

/-- One part more leaves the number that its operation makes of the one it finds. -/
theorem rmwOne_stands {at_ : AtOp} {n v0 v : Nat} {r : RmwRun} (h : r.stands n v0 v) {x : MemOp × Nat} {p : MemPart}
    (hp : x.1.parts[x.2]? = some p) (hn : p.len = n) {g b : Bool} (hk : x.1.kind = .rmw at_ g b) :
    (rmwOne r x).stands n v0 ((rmwNew at_ g n v (leNat p.wdata) p.cmp.toNat).getD v % 2 ^ (8 * n)) := by
  obtain ⟨hcur, hv, hw⟩ := h
  unfold rmwOne
  rw [hk, hp]
  dsimp only
  rw [hn, hcur, leNat_natLe_lt hv]
  cases rmwNew at_ g n v (leNat p.wdata) p.cmp.toNat with
  | none =>
    rw [Option.getD_none, Nat.mod_eq_of_lt hv]
    exact ⟨hcur, hv, hw⟩
  | some w =>
    refine ⟨?_, Nat.mod_lt _ (by positivity), .inl ?_⟩
    · rw [Option.getD_some, natLe_mod]
      exact List.take_left' (natLe_length _ _)
    · show Nat.max r.wrote n = n
      rcases hw with h | ⟨h, -⟩ <;> rw [h] <;> simp

theorem rmwRun_stands {at_ : AtOp} {n v0 : Nat} {same : List (MemOp × Nat)} (hs : SameAtomics at_ n same) {r : RmwRun} {v : Nat}
    (h : r.stands n v0 v) : (same.foldl rmwOne r).stands n v0 (rmwAfter at_ n v same) := by
  induction same generalizing r v with
  | nil => exact h
  | cons x same ih =>
    obtain ⟨p, hp, hn, g, b, hk⟩ := hs x List.mem_cons_self
    rw [List.foldl_cons, rmwAfter, hp, hk]
    exact ih (fun y hy => hs y (List.mem_cons_of_mem _ hy)) (rmwOne_stands h hp hn hk)

/-- What the home does for the parts of an issue: memory holds what the last leaves, and beside the home's side of memory nothing
changes but operations, the core's L1 and its clock (R221). -/
theorem rmwGroup_num {s : State} (hg : GrainsOk s.mem.dir) {o : MemOp} (i : Nat) {p : MemPart} {at_ : AtOp} {same : List (MemOp × Nat)}
    (hs : SameAtomics at_ p.len same) (hn : p.len = 4 ∨ p.len = 8) (ha : p.pa % p.len = 0)
    (hl : paHost (ownDev s.sys) p.pa = true ∨ paLocal (ownDev s.sys) p.pa = true ∧ AtHome s (paOff p.pa) p.len) :
    numAt (rmwGroup s o i p same) p.pa p.len = rmwAfter at_ p.len (numAt s p.pa p.len) same := by
  have hrun := rmwRun_stands hs (r := { cur := (List.range 8).map fun j => spaceByte s (p.pa + j) })
    ⟨bytes_numAt s p.pa p.len (by omega), numAt_lt s p.pa p.len, .inr ⟨rfl, rfl⟩⟩
  unfold rmwGroup
  dsimp only
  generalize same.foldl rmwOne _ = run at hrun
  obtain ⟨hcur, hlt, hw⟩ := hrun
  generalize hm : raiseClock _ o.core _ = m
  have hoc : OpsAndClocks s.mem m := by
    rw [← hm]
    refine .trans ?_ (raiseClock_other _ _ _)
    have h := (gotParts_other s.mem run.olds).trans (l1DropCells_other _ o.core (paFrame p.pa) [p.pa / 32 % 16])
    split
    · exact h.trans (stampRmw_other _ _ _ _)
    · exact h
  split
  · rename_i h0
    rcases hw with h | ⟨-, h⟩
    · omega
    · exact (hoc.num rfl _ _).trans h.symm
  · rename_i h0
    obtain hw : run.wrote = p.len := hw.resolve_right fun h => h0 h.1
    rw [hw, hcur, numAt_engineWrite _ _ (hoc.grains hg) hn ha (hl.imp_right fun h => ⟨h.1, hoc.atHome rfl h.2⟩), Nat.mod_eq_of_lt hlt]

theorem rmwGroup_rest (s : State) (o : MemOp) (i : Nat) (p : MemPart) (same : List (MemOp × Nat)) :
    (rmwGroup s o i p same).ctl = s.ctl ∧ (rmwGroup s o i p same).sys = s.sys ∧ (rmwGroup s o i p same).exe.gangs = s.exe.gangs := by
  unfold rmwGroup
  dsimp only
  split
  · exact ⟨rfl, rfl, rfl⟩
  · exact ⟨(engineWrite_side ..).ctl, (engineWrite_side ..).sys, (engineWrite_side ..).gangs⟩

theorem ackWrite_num (s : State) (o : MemOp) (i pa a n : Nat) : numAt (ackWrite s o i pa) a n = numAt s a n := by
  unfold numAt spaceByte
  obtain ⟨hexe, -, hsys, hmem⟩ := ackWrite_rest s o i pa
  rw [hexe, hsys, hmem]
  rfl

/-! ## The two kinds of address, and the number of a device (R305) -/

theorem paHost_not_local {own pa : Nat} (h : paHost own pa = true) : paLocal own pa = false := by
  unfold paHost hostBase at h
  unfold paLocal devTop
  simp only [Bool.and_eq_true, decide_eq_true_eq] at h
  simp only [Bool.and_eq_false_iff, decide_eq_false_iff_not]
  omega

/-- An address of the module itself is no peer's. -/
theorem ours_not_peer {s : State} {pa : Nat} (h : paLocal (ownDev s.sys) pa = true ∨ paHost (ownDev s.sys) pa = true) :
    paPeer s pa = false ∧ peerGone s pa = false := by
  have hp : paPeer s pa = false := by
    unfold paPeer
    rcases h with h | h <;> rw [h] <;> simp
  exact ⟨hp, by unfold peerGone; rw [hp]; rfl⟩

theorem theirs_peer {s : State} {pa : Nat} (hl : paLocal (ownDev s.sys) pa = false) (hh : paHost (ownDev s.sys) pa = false) :
    paPeer s pa = true := by
  unfold paPeer
  rw [hl, hh]
  rfl

theorem peerGone_iff {s : State} {pa : Nat} (h : paPeer s pa = true) : peerGone s pa = true ↔ paDev pa ∈ s.sys.lostPeers := by
  unfold peerGone
  rw [h, Bool.true_and, List.contains_iff_mem]

theorem peerGone_not {s : State} {pa : Nat} (h : paPeer s pa = true) (hn : paDev pa ∉ s.sys.lostPeers) : peerGone s pa = false :=
  Bool.eq_false_iff.2 fun hg => hn ((peerGone_iff h).1 hg)

/-- What the module's own memory holds does not hang on the engine's free values (log 14). -/
theorem numAt_fresh {s : State} {pa n : Nat} (hn : n = 4 ∨ n = 8) (ha : pa % n = 0)
    (hl : paHost (ownDev s.sys) pa = true ∨ paLocal (ownDev s.sys) pa = true ∧ AtHome s (paOff pa) n) (fr : Nat) :
    numAt { s with exe := { s.exe with fresh := fr } } pa n = numAt s pa n := by
  unfold numAt
  refine congrArg leNat (List.map_congr_left fun j hj => ?_)
  obtain ⟨ehost, eloc, eoff, -⟩ := num_space (s := s) hn ha j (List.mem_range.1 hj)
  unfold spaceByte
  dsimp only
  rw [ehost, eloc, eoff]
  rcases hl with hh | ⟨hloc, hat⟩
  · rw [if_pos hh, if_pos hh]
  · have hup : s.sys.lostDies.contains (homeDie (paOff pa + j)) = false := by
      have := (hat j (List.mem_range.1 hj)).2
      unfold homeUp at this
      rwa [Bool.not_eq_true'] at this
    rw [if_pos hloc, if_pos hloc, hup]
    rfl

/-! ## RMW_AT_HOME -/

theorem rmwAtHome_idle {s : State} {op i : Nat} {o : MemOp} {p : MemPart} {at_ : AtOp} {sg ret : Bool} (ho : findOp s.mem op = some o)
    (hk : o.kind = .rmw at_ sg ret) (hp : o.parts[i]? = some p) (h : p.performed = true ∨ rmwReady s o p = false) :
    exec (.rmwAtHome op i) s = .next s := by
  rw [exec_rmwAtHome]
  unfold execRmwAtHome
  simp only [ho, hk, hp]
  rw [if_pos (by rcases h with h | h <;> simp [h])]

section
variable {s : State} {op i : Nat} {o : MemOp} {p : MemPart} {at_ : AtOp} {sg ret : Bool} (ho : findOp s.mem op = some o)
  (hk : o.kind = .rmw at_ sg ret) (hp : o.parts[i]? = some p) (hperf : p.performed = false) (hready : rmwReady s o p = true)
include ho hk hp hperf hready

/-- A service of the module's own memory: the parts of the issue at the address, and the acknowledgement where no agent's is awaited. -/
theorem rmwAtHome_serves (hours : paLocal (ownDev s.sys) p.pa = true ∨ paHost (ownDev s.sys) p.pa = true)
    (hhost : paHost (ownDev s.sys) p.pa = true → Config.hostAtomicSupported s.exe.fresh = true)
    (hall : ∀ x ∈ rmwSame s.mem o.issue p.pa, ∃ r, x.1.parts[x.2]? = some r ∧ rmwReady s x.1 r = true) :
    ∃ fr u, u = rmwGroup { s with exe := { s.exe with fresh := fr } } o i p (rmwSame s.mem o.issue p.pa) ∧
      exec (.rmwAtHome op i) s = .next (if writerWaits u.mem (.part op i) then u else ackWrite u o i p.pa) := by
  obtain ⟨hpeer, hgone⟩ := ours_not_peer hours
  have hcfg : (paHost (ownDev s.sys) p.pa && !Config.hostAtomicSupported s.exe.fresh) = false := by
    cases h : paHost (ownDev s.sys) p.pa with
    | false => rfl
    | true => rw [hhost h]; rfl
  have hok : ((rmwSame s.mem o.issue p.pa).all fun x => match x.1.parts[x.2]? with
      | some r => rmwReady s x.1 r
      | none => true) = true := List.all_eq_true.2 fun x hx => by
    obtain ⟨r, hr, hready⟩ := hall x hx
    rw [hr]
    exact hready
  refine ⟨s.exe.fresh + (if paHost (ownDev s.sys) p.pa then 1 else 0), _, rfl, ?_⟩
  rw [exec_rmwAtHome]
  unfold execRmwAtHome
  simp only [ho, hk, hp, hperf, hready, hgone, hpeer, hcfg, Bool.not_true, Bool.or_self, Bool.false_eq_true, if_false, findOp_id ho]
  exact if_pos hok

/-- Host memory without atomics (R331). -/
theorem rmwAtHome_host (hhost : paHost (ownDev s.sys) p.pa = true) (hcfg : Config.hostAtomicSupported s.exe.fresh = false) {grp : Group} {k : Kernel}
    (hgrp : s.exe.groups[(opGang s o).grp]? = some grp) (hkern : s.ctl.kernels[o.kern]? = some k) :
    ∃ t, exec (.rmwAtHome op i) s = .next t ∧ OpFaults s t o .permFault p.va := by
  obtain ⟨hpeer, hgone⟩ := ours_not_peer (.inr hhost)
  rw [exec_rmwAtHome]
  unfold execRmwAtHome
  simp only [ho, hk, hp, hperf, hready, hgone, hpeer, hhost, hcfg, Bool.not_true, Bool.not_false, Bool.and_self, Bool.or_self, Bool.false_eq_true,
    if_false, if_true]
  exact ⟨_, rfl, opFault_spec (s := { s with exe := { s.exe with fresh := s.exe.fresh + 1 } }) hgrp hkern _ _ _⟩

/-- A peer that is there gets the operation with its operands (R223, R338). -/
theorem rmwAtHome_sends (hpeer : paPeer s p.pa = true) (hthere : paDev p.pa ∉ s.sys.lostPeers)
    (hsend : canSend s.sys (paDev p.pa) (frameOf (paOff p.pa)) 0 = true) :
    ∃ t m, exec (.rmwAtHome op i) s = .next t ∧ t.ctl = s.ctl ∧ t.exe = s.exe ∧ t.mem.bytes = s.mem.bytes ∧
      Sent s t o p m (.atomic at_ sg (paOff p.pa) p.len (BitVec.ofNat 64 (leNat p.wdata)) p.cmp) ∧ m.note = i ∧
      PartNow t.mem op i fun q => q.performed = true ∧ q.got = p.got := by
  have hid := findOp_id ho
  rw [exec_rmwAtHome]
  unfold execRmwAtHome
  simp only [ho, hk, hp, hperf, hready, peerGone_not hpeer hthere, hpeer, hsend, Bool.not_true, Bool.or_self, Bool.false_eq_true, if_false, if_true]
  refine ⟨_, _, rfl, rfl, rfl, rfl, ⟨rfl, rfl, rfl, rfl, rfl, rfl, rfl, rfl⟩, rfl, ?_⟩
  rw [← hid]
  refine (markPart_now false (findOp_part ho hp)).mono ?_
  rintro q ⟨-, rfl, rfl⟩
  exact ⟨rfl, rfl⟩

theorem rmwAtHome_holds (hpeer : paPeer s p.pa = true) (hthere : paDev p.pa ∉ s.sys.lostPeers)
    (hsend : canSend s.sys (paDev p.pa) (frameOf (paOff p.pa)) 0 = false) : exec (.rmwAtHome op i) s = .next s := by
  rw [exec_rmwAtHome]
  unfold execRmwAtHome
  simp only [ho, hk, hp, hperf, hready, peerGone_not hpeer hthere, hpeer, hsend, Bool.not_true, Bool.or_self, Bool.false_eq_true, if_false, if_true]

/-- What a lost peer's memory is asked for is lost (R336). -/
theorem rmwAtHome_lost (hpeer : paPeer s p.pa = true) (hlost : paDev p.pa ∈ s.sys.lostPeers) :
    exec (.rmwAtHome op i) s = .next (lostPart s o i p.va ret) := by
  rw [exec_rmwAtHome]
  unfold execRmwAtHome
  simp only [ho, hk, hp, hperf, hready, (peerGone_iff hpeer).2 hlost, Bool.not_true, Bool.or_self, Bool.false_eq_true, if_false, if_true]

/-- The number that the last operation leaves, and the old value of an operation alone (R221, R326). -/
theorem rmwAtHome_performs (hg : GrainsOk s.mem.dir) (hours : paLocal (ownDev s.sys) p.pa = true ∨ paHost (ownDev s.sys) p.pa = true)
    (hn : p.len = 4 ∨ p.len = 8) (ha : p.pa % p.len = 0) (hat : paLocal (ownDev s.sys) p.pa = true → AtHome s (paOff p.pa) p.len)
    (hhost : paHost (ownDev s.sys) p.pa = true → Config.hostAtomicSupported s.exe.fresh = true)
    (hall : ∀ x ∈ rmwSame s.mem o.issue p.pa, ∃ r, x.1.parts[x.2]? = some r ∧ r.pa = p.pa ∧ r.len = p.len ∧ rmwReady s x.1 r = true ∧
      ∃ g b, x.1.kind = .rmw at_ g b) :
    ∃ t, exec (.rmwAtHome op i) s = .next t ∧ t.ctl = s.ctl ∧ t.sys = s.sys ∧ t.exe.gangs = s.exe.gangs ∧
      numAt t p.pa p.len = rmwAfter at_ p.len (numAt s p.pa p.len) (rmwSame s.mem o.issue p.pa) ∧
      (rmwSame s.mem o.issue p.pa = [(o, i)] → PartNow t.mem op i fun q => q.performed = true ∧ q.got = some (natLe (numAt s p.pa p.len) p.len) ∧
        (writerWaits t.mem (.part op i) = false → q.acked = true)) := by
  have hatom : SameAtomics at_ p.len (rmwSame s.mem o.issue p.pa) := fun x hx => by
    obtain ⟨r, hr, -, hlen, -, hkind⟩ := hall x hx
    exact ⟨r, hr, hlen, hkind⟩
  obtain ⟨fr, u, hu, he⟩ := rmwAtHome_serves ho hk hp hperf hready hours hhost fun x hx => by
    obtain ⟨r, hr, -, -, hready, -⟩ := hall x hx
    exact ⟨r, hr, hready⟩
  have hhome : paHost (ownDev s.sys) p.pa = true ∨ paLocal (ownDev s.sys) p.pa = true ∧ AtHome s (paOff p.pa) p.len :=
    hours.symm.imp_right fun h => ⟨h, hat h⟩
  have hold : numAt { s with exe := { s.exe with fresh := fr } } p.pa p.len = numAt s p.pa p.len := numAt_fresh hn ha hhome fr
  obtain ⟨hctl, hsys, hgangs⟩ := hu ▸ rmwGroup_rest { s with exe := { s.exe with fresh := fr } } o i p (rmwSame s.mem o.issue p.pa)
  have hnum := hu ▸ rmwGroup_num (s := { s with exe := { s.exe with fresh := fr } }) hg i hatom hn ha hhome
  rw [hold] at hnum
  have hnow : rmwSame s.mem o.issue p.pa = [(o, i)] → PartNow u.mem o.id i fun q => q.performed = true ∧ q.got = some (natLe (numAt s p.pa p.len) p.len) := by
    intro h1
    rw [hu, h1, ← hold]
    exact rmwGroup_now (s := { s with exe := { s.exe with fresh := fr } }) ho hp hk (by omega)
  obtain rfl := findOp_id ho
  by_cases hw : writerWaits u.mem (.part o.id i) = true
  · rw [if_pos hw] at he
    refine ⟨u, he, hctl, hsys, hgangs, hnum, fun h1 => (hnow h1).mono fun q ⟨hq1, hq2⟩ => ⟨hq1, hq2, fun h => ?_⟩⟩
    rw [hw] at h
    cases h
  · rw [if_neg hw] at he
    refine ⟨_, he, hctl, hsys, hgangs, (ackWrite_num ..).trans hnum, fun h1 => ?_⟩
    exact ((ackWrite_got (hnow h1)).and (ackWrite_now (hnow h1))).mono fun q ⟨⟨hq1, hq2⟩, _, hq3⟩ => ⟨hq1, hq2, fun _ => hq3⟩

end

end Sys2Proof.Machine
end

section
/-! PROOFS. Proofs/HomeAtomicsAndQueues.lean: queue operations at their homes, and O44 (R94 to R96, R221, R223). -/

namespace Sys2Proof.Machine

theorem OpsAndClocks.waits {m m' : Mem} (h : OpsAndClocks m m') (w : Writer) : writerWaits m' w = writerWaits m w := by
  rw [show m' = _ from h]
  rfl

theorem qAnswer_other (m : Mem) (op i : Nat) (a : QAns) (ack : Bool) : OpsAndClocks m (qAnswer m op i a ack) := rfl

/-- A lane's answer kept, and the clock and stamp of its order. -/
theorem answered_other (m : Mem) (o : MemOp) (i home : Nat) (a : QAns) (ack : Bool) :
    OpsAndClocks m (raiseClock (if o.order = 4 then stampRmw (qAnswer m o.id i a ack) o.core o.scope home else qAnswer m o.id i a ack) o.core home) := by
  refine .trans ?_ (raiseClock_other _ _ _)
  split <;> rfl

theorem answered_ops (m : Mem) (o : MemOp) (i home : Nat) (a : QAns) (ack : Bool) :
    (raiseClock (if o.order = 4 then stampRmw (qAnswer m o.id i a ack) o.core o.scope home else qAnswer m o.id i a ack) o.core home).ops =
      (qAnswer m o.id i a ack).ops := by
  rw [raiseClock_ops]
  split <;> rfl

theorem qKind_of {o : MemOp} {enq : Bool} {b : Nat} (h : o.kind = if enq then .enq b else .deq b) : qKind o = some enq := by
  unfold qKind
  cases enq <;> rw [h] <;> rfl

/-! ## QUEUE_OP_AT_HOME in one lane (R94 to R96) -/

section
variable {s : State} {op i : Nat} {o : MemOp} {p : MemPart} {enq : Bool} (ho : findOp s.mem op = some o) (hp : o.parts[i]? = some p)
  (hk : qKind o = some enq) (hperf : p.performed = false) (hsame : rmwSame s.mem o.issue p.pa = [(o, i)]) (hready : rmwReady s o p = true)
include ho hp hk hperf hsame hready

theorem queueOpAtHome_lane (hgone : peerGone s p.pa = false)
    (hsend : (paPeer s p.pa && enq && !canSend s.sys (paDev p.pa) (frameOf (paOff p.pa)) 0) = false) :
    exec (.queueOpAtHome op i) s = .next (qLane s o i enq) := by
  rw [exec_queueOpAtHome]
  unfold execQueueOpAtHome
  simp only [ho, hk, hp, hperf, hgone, hsend, hsame, hready, List.all_cons, List.all_nil, Bool.and_self, Bool.not_true, Bool.or_self,
    Bool.false_eq_true, if_false, List.foldl_cons, List.foldl_nil]

/-- The lane's answer at a home of this module is that of R94. -/
theorem queueOpAtHome_answers (hours : paLocal (ownDev s.sys) p.pa = true ∨ paHost (ownDev s.sys) p.pa = true)
    (hslots : ∀ q, queueAt s.ctl.queues p.pa = some q → ∃ c, findCtx s.ctl.ctxs q.part q.ctx = some c ∧
      ∀ k, ∃ x, xlate s 8 c (qSlot q k) (if enq then needW else needR) = .ok x) :
    ∃ t, exec (.queueOpAtHome op i) s = .next t ∧ t.exe.gangs = s.exe.gangs ∧
      (PartNow t.mem op i fun q => q.performed = true ∧ (writerWaits t.mem (.part op i) = false → q.acked = true) ∧
        q.got = some (natLe (queueAnswer s p.pa p.aux2 enq).st 4 ++ natLe (queueAnswer s p.pa p.aux2 enq).idx 4) ∧ q.wdata = (queueAnswer s p.pa p.aux2 enq).ent) ∧
      (queueAt s.ctl.queues p.pa = none → t.ctl = s.ctl ∧ t.sys = s.sys ∧ t.mem.bytes = s.mem.bytes) := by
  obtain ⟨hpeer, hgone⟩ := ours_not_peer hours
  obtain rfl := findOp_id ho
  have hside := qPerform_side s (.part o.id i) p.pa enq (some p.aux2) p.wdata false
  have hans := qPerform_answer s (.part o.id i) p.pa p.aux2 enq p.wdata hslots
  have hnone : queueAt s.ctl.queues p.pa = none → (qPerform s (.part o.id i) p.pa enq (some p.aux2) p.wdata false).1 = s := fun h => by
    unfold qPerform
    rw [h]
  refine ⟨_, queueOpAtHome_lane ho hp hk hperf hsame hready hgone (by rw [hpeer]; rfl), ?_⟩
  unfold qLane
  simp only [hp, hpeer, Bool.false_eq_true, if_false]
  generalize qPerform s (.part o.id i) p.pa enq (some p.aux2) p.wdata false = r at hside hans hnone
  obtain ⟨u, a⟩ := r
  subst hans
  have hother := fun home => answered_other u.mem o i home (queueAnswer s p.pa p.aux2 enq) (!writerWaits u.mem (.part o.id i))
  refine ⟨?_, ?_, fun h => ?_⟩
  · show u.exe.gangs = _
    rw [hside.exe]
  · refine PartNow.congr (answered_ops ..) ((qAnswer_spec _ _ ho hp hside.mem.ops).mono ?_)
    rintro q ⟨hq1, hq2, hq3, hq4⟩
    refine ⟨hq1, fun hw => ?_, hq3, hq4⟩
    have hfree : writerWaits u.mem (.part o.id i) = false := ((hother _).waits _).symm.trans hw
    rw [hq2]
    dsimp only
    rw [hfree]
    rfl
  · have hu : u = s := hnone h
    subst hu
    refine ⟨rfl, rfl, ?_⟩
    dsimp only
    rw [show raiseClock _ o.core _ = _ from hother _]

/-- An ENQ of another device's queue goes out with its order and image (R96). -/
theorem queueOpAtHome_sends (he : enq = true) (hpeer : paPeer s p.pa = true) (hthere : paDev p.pa ∉ s.sys.lostPeers)
    (hsend : canSend s.sys (paDev p.pa) (frameOf (paOff p.pa)) 0 = true) :
    ∃ t m, exec (.queueOpAtHome op i) s = .next t ∧ t.ctl = s.ctl ∧ t.exe = s.exe ∧
      Sent s t o p m (.enq (paOff p.pa) p.aux2 o.order p.wdata) ∧ m.note = i ∧ PartNow t.mem op i fun q => q.performed = true ∧ q.got = p.got := by
  obtain rfl := findOp_id ho
  subst he
  have hlane := queueOpAtHome_lane ho hp hk hperf hsame hready (peerGone_not hpeer hthere) (by rw [hsend, Bool.not_true, Bool.and_false])
  unfold qLane at hlane
  simp only [hp, hpeer, if_true] at hlane
  refine ⟨_, _, hlane, rfl, rfl, ⟨rfl, rfl, rfl, rfl, rfl, rfl, rfl, rfl⟩, rfl, (markPart_now false (findOp_part ho hp)).mono ?_⟩
  rintro q ⟨-, rfl, rfl⟩
  exact ⟨rfl, rfl⟩

theorem queueOpAtHome_holds (he : enq = true) (hpeer : paPeer s p.pa = true) (hthere : paDev p.pa ∉ s.sys.lostPeers)
    (hsend : canSend s.sys (paDev p.pa) (frameOf (paOff p.pa)) 0 = false) : exec (.queueOpAtHome op i) s = .next s := by
  subst he
  rw [exec_queueOpAtHome]
  unfold execQueueOpAtHome
  simp only [ho, hk, hp, hperf, peerGone_not hpeer hthere, hpeer, hsend, hsame, hready, List.all_cons, List.all_nil, Bool.and_self, Bool.not_true,
    Bool.not_false, Bool.or_self, Bool.false_eq_true, if_false, if_true]

/-- A DEQ of another device's queue answers CLOSED (R96). -/
theorem queueOpAtHome_closed (he : enq = false) (hpeer : paPeer s p.pa = true) (hthere : paDev p.pa ∉ s.sys.lostPeers) :
    ∃ t, exec (.queueOpAtHome op i) s = .next t ∧ t.ctl = s.ctl ∧ t.exe = s.exe ∧ t.sys = s.sys ∧
      PartNow t.mem op i fun q => q.performed = true ∧ q.acked = true ∧ q.got = some (natLe 2 4 ++ natLe 0 4) := by
  obtain rfl := findOp_id ho
  subst he
  have hlane := queueOpAtHome_lane ho hp hk hperf hsame hready (peerGone_not hpeer hthere) (by rw [Bool.and_false, Bool.false_and])
  unfold qLane at hlane
  simp only [hp, hpeer, Bool.false_eq_true, if_true, if_false] at hlane
  exact ⟨_, hlane, rfl, rfl, rfl, (qAnswer_spec qClosed true ho hp rfl).mono fun q ⟨hq1, hq2, hq3, _⟩ => ⟨hq1, hq2, hq3⟩⟩

end

/-- Settles O44: the atomics of one issue at an address leave, one after another, what `rmwAfter` says, by induction on them, and the
engine's write puts it at its home; the answer of a queue operation is that of R94's table. -/
theorem homeAtomicsAndQueues : Obligations.HomeAtomicsAndQueues := by
  unfold Obligations.HomeAtomicsAndQueues
  refine ⟨fun s op i o p at_ sg ret hok _ ho hk hp => ⟨rmwAtHome_idle ho hk hp, fun hperf hready => ⟨?_, ?_, fun hl hh => ⟨?_, ?_, fun hlost => ?_⟩⟩⟩,
    fun s op i o p enq ho hp hkind hperf hsame hready => ?_⟩
  · exact fun hours hn ha hat hhost hall => rmwAtHome_performs ho hk hp hperf hready hok.2.2.2 hours hn ha hat hhost hall
  · exact fun hhost hcfg grp k hgrp hkern => rmwAtHome_host ho hk hp hperf hready hhost hcfg hgrp hkern
  · exact rmwAtHome_sends ho hk hp hperf hready (theirs_peer hl hh)
  · exact rmwAtHome_holds ho hk hp hperf hready (theirs_peer hl hh)
  · have he := rmwAtHome_lost ho hk hp hperf hready (theirs_peer hl hh) hlost
    refine ⟨fun hret grp k hgrp hkern => ⟨_, he, ?_⟩, fun hret => ⟨_, he, ?_, ?_⟩⟩
    · rw [lostPart, if_pos hret]
      exact opFault_spec hgrp hkern _ _ _
    · rw [lostPart, if_neg (by rw [hret]; exact Bool.false_ne_true), ← findOp_id ho]
      refine (markPart_now true (findOp_part ho hp)).mono ?_
      rintro q ⟨r, -, rfl⟩
      exact ⟨rfl, Bool.or_true _⟩
    · rw [lostPart, if_neg (by rw [hret]; exact Bool.false_ne_true)]
      rfl
  · obtain ⟨b, hb⟩ := hkind
    have hk := qKind_of hb
    refine ⟨queueOpAtHome_answers ho hp hk hperf hsame hready, fun hl hh hthere => ⟨fun he => ?_, fun he => ?_, fun he => ?_⟩⟩
    · exact queueOpAtHome_sends ho hp hk hperf hsame hready he (theirs_peer hl hh) hthere
    · exact queueOpAtHome_holds ho hp hk hperf hsame hready he (theirs_peer hl hh) hthere
    · exact queueOpAtHome_closed ho hp hk hperf hsame hready he (theirs_peer hl hh) hthere

end Sys2Proof.Machine
end

section
/-! PROOFS. Proofs/PacketsTaken.lean: the dispatcher's check and take, and the polls of dependencies (R91, R97 to R99, R322, R347). -/

namespace Sys2Proof.Machine

/-! ## A queue that enters a state (R89, R91) -/

/-- STATE and ERR written, the queue's record apart. -/
def headerPut (s : State) (q : Queue) (x : QState) (err : Nat) : State :=
  hdrPut (hdrPut s .nobody q 0x1B 1 (qCode x)) .nobody q 0x1F 1 err

theorem setQState_eq (s : State) (q : Queue) (x : QState) (err : Nat) :
    setQState s q x err =
      { headerPut s q x err with ctl := { (headerPut s q x err).ctl with queues := (setQState s q x err).ctl.queues } } := by
  unfold setQState headerPut modQueue
  dsimp only
  split <;> rfl

theorem headerPut_ctl (s : State) (q : Queue) (x : QState) (err : Nat) : (headerPut s q x err).ctl = s.ctl := by
  unfold headerPut hdrPut
  rw [deviceWrite_ctl, deviceWrite_ctl]

theorem setQState_ctl (s : State) (q : Queue) (x : QState) (err : Nat) :
    (setQState s q x err).ctl = { s.ctl with queues := (setQState s q x err).ctl.queues } := by
  conv_lhs => rw [setQState_eq, headerPut_ctl]

/-- A byte of device memory as a number. -/
theorem numAt_one {u : State} {pa : Nat} (hl : paLocal (ownDev u.sys) pa = true) (hup : homeUp u (paOff pa) = true) :
    numAt u pa 1 = (homeByte u (paOff pa)).toNat := by
  have hlost : u.sys.lostDies.contains (homeDie (paOff pa)) = false := by
    unfold homeUp at hup
    rwa [Bool.not_eq_true'] at hup
  unfold numAt spaceByte homeByte
  simp only [List.range_one, List.map_cons, List.map_nil, Nat.add_zero, local_not_host hl, hl, hlost, Bool.false_eq_true, if_false, if_true]
  exact Nat.add_zero _

/-- STATE and ERR of an aligned header at its home read as they were written. -/
theorem headerPut_reads {s : State} {q : Queue} (x : QState) {err : Nat} (herr : err < 256) (hg : GrainsOk s.mem.dir)
    (hl : paLocal (ownDev s.sys) q.pa = true) (ha : q.pa % 64 = 0) (hat : AtHome s (paOff q.pa) 64) :
    numAt (headerPut s q x err) (q.pa + 0x1B) 1 = qCode x ∧ numAt (headerPut s q x err) (q.pa + 0x1F) 1 = err := by
  obtain ⟨lstate, -, ostate⟩ := local_add (own := ownDev s.sys) ha (show 0x1B < 64 by omega)
  obtain ⟨lerr, -, oerr⟩ := local_add (own := ownDev s.sys) ha (show 0x1F < 64 by omega)
  rw [hl] at lstate lerr
  generalize hu : homeWrite s .nobody q.leaf (paOff (q.pa + 0x1B)) (natLe (qCode x) 1) = u
  have hside := hu ▸ homeWrite_side s .nobody q.leaf (paOff (q.pa + 0x1B)) (natLe (qCode x) 1)
  generalize hv : homeWrite u .nobody q.leaf (paOff (q.pa + 0x1F)) (natLe err 1) = v
  have hside' := hv ▸ homeWrite_side u .nobody q.leaf (paOff (q.pa + 0x1F)) (natLe err 1)
  have hputs : headerPut s q x err = v := by
    unfold headerPut hdrPut
    rw [deviceWrite_local _ _ _ _ lstate, hu, deviceWrite_local _ _ _ _ (by rw [hside.sys]; exact lerr), hv]
  have hsys : v.sys = s.sys := hside'.sys.trans hside.sys
  have hup : ∀ j < 64, ∀ t : State, t.sys = s.sys → homeUp t (paOff q.pa + j) = true := fun j hj t ht => by
    have := (hat j hj).2
    unfold homeUp at this ⊢
    rwa [ht]
  have hgu : GrainsOk u.mem.dir := hside.mem.grains hg
  have alone : ∀ j < 64, HomeAlone u.mem (paOff q.pa + j) := fun j hj => (hside.mem.bytes hg _ (hat j hj).1).1
  have hstate : homeByte u (paOff q.pa + 0x1B) = BitVec.ofNat 8 (qCode x) := by
    rw [← hu, ostate, homeWrite_byte hg .nobody q.leaf (paOff q.pa + 0x1B) (natLe (qCode x) 1) (hat 0x1B (by omega)).1 (hup _ (by omega) s rfl)
      ⟨Nat.le_refl _, by rw [natLe_length]; omega⟩, Nat.sub_self]
    rfl
  have herr' : homeByte v (paOff q.pa + 0x1F) = BitVec.ofNat 8 err := by
    rw [← hv, oerr, homeWrite_byte hgu .nobody q.leaf (paOff q.pa + 0x1F) (natLe err 1) (alone 0x1F (by omega)) (hup _ (by omega) u hside.sys)
      ⟨Nat.le_refl _, by rw [natLe_length]; omega⟩, Nat.sub_self]
    rfl
  have hkept : homeByte v (paOff q.pa + 0x1B) = homeByte u (paOff q.pa + 0x1B) := by
    refine (hside'.byte hgu (fun h => ?_) (alone 0x1B (by omega))).2
    unfold RunOf at h
    rw [natLe_length, oerr] at h
    omega
  rw [hputs, numAt_one (by rw [hsys]; exact lstate) (by rw [ostate]; exact hup _ (by omega) v hsys),
    numAt_one (by rw [hsys]; exact lerr) (by rw [oerr]; exact hup _ (by omega) v hsys), ostate, oerr, hkept, hstate, herr']
  refine ⟨?_, ?_⟩
  · cases x <;> rfl
  · rw [BitVec.toNat_ofNat, Nat.mod_eq_of_lt herr]

theorem setQState_num (s : State) (q : Queue) (x : QState) (err pa n : Nat) : numAt (setQState s q x err) pa n = numAt (headerPut s q x err) pa n := by
  rw [setQState_eq]
  rfl

/-- Memory keeps every byte but STATE and ERR of a bound queue's header. -/
theorem MemSide.headersOnly {s t : State} (h : MemSide (HeaderOf s) s.mem t.mem) : HeadersOnly s t := fun hg off ha hq => by
  obtain ⟨halone, hbyte⟩ := h.bytes hg off ha
  refine (coByte_alone halone).trans ((hbyte ?_).trans (coByte_alone ha).symm)
  rintro ⟨q, hm, e⟩
  have := hq q hm
  omega

/-! ## DISPATCHER_TAKE (R97 to R99, R347) -/

theorem chosen_ids {s : State} {q : Queue} {c : Ctx} (h : Chosen s q c) : q ∈ s.ctl.queues ∧ findCtx s.ctl.ctxs c.part c.cid = some c ∧
    (q.state = .active ∨ q.state = .draining) := by
  obtain ⟨⟨hmem, hown, -, hstate, -⟩, -⟩ := h
  obtain ⟨hp, hc⟩ := findCtx_ids hown
  exact ⟨hmem, by rw [hp, hc]; exact hown, hstate⟩

theorem dispatcherTake_idle {s : State} (h : ¬ ∃ q c, Served s q c) : exec .dispatcherTake s = .next s := by
  rw [exec_dispatcherTake]
  unfold execDispatcherTake
  rw [choose_none h]

theorem dispatcherTake_unreadable {s : State} {q : Queue} {c : Ctx} (h : Chosen s q c) (hp : headPacket s q c = none) :
    exec .dispatcherTake s = .next (setQState s q .error 5) := by
  rw [exec_dispatcherTake]
  unfold execDispatcherTake
  simp only [choose_of h, hp]

section
variable {s : State} {q : Queue} {c : Ctx} {p : Packet} (h : Chosen s q c) (hp : headPacket s q c = some p)
include h hp

theorem dispatcherTake_eq : exec .dispatcherTake s =
    if packetCheck s c p ≠ 0 then .next (setQState (hubReads (hubHead s q c) c (depVas p)) q .error (packetCheck s c p))
    else if namesHeld (hubReads (hubHead s q c) c (depVas p)) c p then
      .next (if q.state = .draining then hubReads (hubHead s q c) c (depVas p) else setQState (hubReads (hubHead s q c) c (depVas p)) q .stalled 0)
    else .next (takePacket (hubReads (hubHead s q c) c (depVas p)) q c p) := by
  rw [exec_dispatcherTake]
  unfold execDispatcherTake
  simp only [choose_of h, hp]

theorem dispatcherTake_error {e : Nat} (he : PacketError s c p e) :
    exec .dispatcherTake s = .next (setQState (hubReads (hubHead s q c) c (depVas p)) q .error e) := by
  obtain ⟨rfl, hne⟩ := check_error he
  rw [dispatcherTake_eq h hp, if_pos hne]

theorem dispatcherTake_held (hpass : PacketPasses s c p) (hheld : NamesHeld (hubReads (hubHead s q c) c (depVas p)) c p) :
    exec .dispatcherTake s = .next (if q.state = .draining then hubReads (hubHead s q c) c (depVas p)
      else setQState (hubReads (hubHead s q c) c (depVas p)) q .stalled 0) := by
  rw [dispatcherTake_eq h hp, if_neg (by rw [check_passes hpass]; exact fun h => h rfl), if_pos ((namesHeld_iff ..).2 hheld)]

theorem dispatcherTake_takes (hpass : PacketPasses s c p) (hheld : ¬ NamesHeld (hubReads (hubHead s q c) c (depVas p)) c p) :
    exec .dispatcherTake s = .next (takePacket (hubReads (hubHead s q c) c (depVas p)) q c p) := by
  rw [dispatcherTake_eq h hp, if_neg (by rw [check_passes hpass]; exact fun h => h rfl), if_neg fun hn => hheld ((namesHeld_iff ..).1 hn)]

end

/-! ## A packet taken -/

theorem depsHold_alike {s t : State} (h : ReadAlike s t) (c : Ctx) (p : Packet) : DepsHold t c p ↔ DepsHold s c p := by
  unfold DepsHold
  simp only [xlate_alike h ⟨rfl, rfl, rfl⟩, numAt_alike h]

/-- A LAUNCH takes its context's KORD; its grid and its gear are those of the packet (R103, R111). -/
theorem takenRec_launch {u t : State} {q : Queue} {c : Ctx} {p : Packet} {rs : List RLatch} (hk : p.kind = 1) :
    (takenRec u t q c p rs).ord = c.kord ∧ (takenRec u t q c p rs).total = p.gx * p.gy * p.gz ∧
      ((takenRec u t q c p rs).fixed = true ↔ c.desc.fixedGear = true ∨ p.flags.testBit 0 = true) := by
  have hl : (p.kind == pkLaunch) = true := beq_iff_eq.2 hk
  refine ⟨if_pos hl, if_pos hl, ?_⟩
  show (p.kind == pkLaunch && (c.desc.fixedGear || p.flags.testBit 0)) = true ↔ _
  rw [hl, Bool.true_and, Bool.or_eq_true]

/-- The context that takes a packet: the next KORD, and the regions that the packet names held (R103, R347). -/
def TakesCtx (u : State) (c : Ctx) (p : Packet) (x : Ctx) : Prop :=
  x.state = c.state ∧ x.kord = (if p.kind = 1 then (c.kord + 1) % 2 ^ 64 else c.kord) ∧
    x.held = c.held ++ (regionsOf u c p).map fun r => (r.1, u.ctl.kernels.length)

/-- The state in which a packet has been taken: its record, its context and its queue (R98, R99, R347). -/
theorem takenState_spec {u : State} {c : Ctx} (q : Queue) (p : Packet) (hc : findCtx u.ctl.ctxs c.part c.cid = some c) :
    ∃ t rs, latchRegions u c u.ctl.kernels.length p = (t, rs) ∧ OnlyIds u (takenState u t q c p rs) ∧
      (takenState u t q c p rs).ctl.kernels = u.ctl.kernels ++ [takenRec u t q c p rs] ∧
      rs.map (fun r => (r.id, r.desc, r.hash)) = (regionsOf u c p).map (fun x => (x.1, BitVec.ofNat 64 x.2.1, BitVec.ofNat 64 x.2.2)) ∧
      CtxNow (takenState u t q c p rs) c.part c.cid (TakesCtx u c p) ∧
      (∀ part cid, part ≠ c.part ∨ cid ≠ c.cid → findCtx (takenState u t q c p rs).ctl.ctxs part cid = findCtx u.ctl.ctxs part cid) ∧
      (takenState u t q c p rs).ctl.queues = modIf u.ctl.queues (fun y => y.id == q.id) (fun y => { y with taken := some u.ctl.kernels.length }) ∧
      (regionsOf u c p = [] → t = u) := by
  obtain ⟨t, rs, hlatch, hside, hctl, hothers, ⟨x, hx, hstate, hkord, hheld⟩, hrs, hnone⟩ := latch_spec (p := p) u.ctl.kernels.length hc
  refine ⟨t, rs, hlatch, hside.exe, ?_, hrs, ?_, fun part cid hn => ?_, ?_, hnone⟩
  · show t.ctl.kernels ++ _ = _
    rw [hctl]
  · refine ⟨_, findCtx_modCtx hx fun x => by split <;> exact ⟨rfl, rfl⟩, ?_⟩
    unfold pkLaunch
    by_cases hk : p.kind = 1
    · rw [beq_iff_eq.2 hk, if_pos rfl]
      exact ⟨hstate, by rw [if_pos hk, ← hkord], hheld⟩
    · rw [beq_eq_false_iff_ne.2 hk, if_neg Bool.false_ne_true]
      exact ⟨hstate, hkord.trans (if_neg hk).symm, hheld⟩
  · exact (findCtx_modCtx_other (fun x => by split <;> exact ⟨rfl, rfl⟩) hn).trans (hothers part cid hn)
  · show modIf t.ctl.queues _ _ = _
    rw [hctl]

theorem modIf_taken {qs : List Queue} {id n : Nat} : ∀ y ∈ modIf qs (fun y => y.id == id) (fun y => { y with taken := some n }),
    y.id = id → y.taken = some n := fun y hy hid => by
  obtain ⟨z, -, rfl⟩ := List.mem_map.1 hy
  by_cases hz : (z.id == id) = true
  · rw [if_pos hz]
  · rw [if_neg hz] at hid
    exact absurd (beq_iff_eq.2 hid) hz

/-- The queue of a packet that waits is STALLED; of control nothing else changes (R91). -/
theorem stalled_keeps (v : State) (q : Queue) {n : Nat} (h : ∀ y ∈ v.ctl.queues, y.id = q.id → y.taken = some n) :
    OnlyIds v (setQState v q .stalled 0) ∧ (setQState v q .stalled 0).ctl = { v.ctl with queues := (setQState v q .stalled 0).ctl.queues } ∧
      ∀ y ∈ (setQState v q .stalled 0).ctl.queues, y.id = q.id → y.taken = some n := by
  refine ⟨(setQState_side _ _).exe, setQState_ctl .., fun y hy hid => ?_⟩
  rw [setQState_queues, if_neg (by decide)] at hy
  obtain ⟨z, hz, rfl⟩ := List.mem_map.1 hy
  have hz' := h z hz (by revert hid; split <;> exact id)
  split <;> exact hz'

/-- The packet taken where it names no region: of memory at most its queue's header has changed, and the queue is STALLED where a
dependency does not hold (R91, R99). -/
theorem takePacket_plain {u : State} {q : Queue} {c : Ctx} {p : Packet} {rs : List RLatch} (hq : q ∈ u.ctl.queues)
    (h : latchRegions u c u.ctl.kernels.length p = (u, rs)) :
    HeadersOnly u (takePacket u q c p) ∧ (DepsHold u c p ∨ q.state = .draining → (takePacket u q c p).mem = u.mem) ∧
      (¬ DepsHold u c p → q.state = .active → ∀ y ∈ (takePacket u q c p).ctl.queues, y.id = q.id → y.state = .stalled) := by
  have hdeps : (depsHold (takenState u u q c p rs) c p || q.state == .draining) = true ↔ DepsHold u c p ∨ q.state = .draining := by
    rw [Bool.or_eq_true, depsHold_iff, beq_iff_eq]
    exact or_congr_left (depsHold_alike ⟨rfl, rfl, rfl, rfl⟩ c p)
  rw [takePacket_eq h]
  by_cases hd : DepsHold u c p ∨ q.state = .draining
  · rw [if_pos (hdeps.2 hd)]
    refine ⟨fun _ _ _ _ => rfl, fun _ => rfl, fun hn hact => ?_⟩
    rw [hact] at hd
    exact absurd (hd.resolve_right (by decide)) hn
  · rw [if_neg fun hb => hd (hdeps.1 hb)]
    refine ⟨?_, fun h => absurd h hd, fun _ _ => setQState_all _ q .stalled 0⟩
    exact MemSide.headersOnly ((setQState_side (s := takenState u u q c p rs) (q := q) .stalled 0).mono fun off ho => ⟨q, hq, ho⟩).mem

/-! ## DEPENDENCY_POLL (R91, R99, R347) -/

/-- What a STALLED queue without a taken packet waits for: no region that its head packet names is held (R347). -/
def headReady (u : State) (q : Queue) (c : Ctx) : Bool :=
  match headPacket u q c with
  | some p => !namesHeld u c p
  | none => true

theorem headReady_held {u : State} {q : Queue} {c : Ctx} (h : ∃ p, headPacket u q c = some p ∧ NamesHeld u c p) : headReady u q c = false := by
  obtain ⟨p, hp, hn⟩ := h
  unfold headReady
  rw [hp]
  show (!namesHeld u c p) = false
  rw [(namesHeld_iff ..).2 hn]
  rfl

theorem headReady_free {u : State} {q : Queue} {c : Ctx} (h : ∀ p, headPacket u q c = some p → ¬ NamesHeld u c p) : headReady u q c = true := by
  unfold headReady
  cases hp : headPacket u q c with
  | none => rfl
  | some p =>
    show (!namesHeld u c p) = true
    rw [Bool.eq_false_iff.2 fun hn => h p hp ((namesHeld_iff ..).1 hn)]
    rfl

section
variable {s : State} {n : Nat} {q : Queue} {c : Ctx} (hq : queueById s.ctl.queues n = some q) (hown : qOwner s q = some c)
include hq hown

/-- A poll of a queue whose packet is taken: `ready` says whether what it waits for holds. -/
theorem dependencyPoll_taken {i : Nat} {k : Kernel} (hi : q.taken = some i) (hk : s.ctl.kernels[i]? = some k) {ready : Bool}
    (hr : ready = (k.state != .waiting || depsHold (hubReads s c (depVas k.pkt)) c k.pkt)) :
    exec (.dependencyPoll n) s = if q.state = .stalled && ready then .next (setQState (hubReads s c (depVas k.pkt)) q .active 0)
      else if q.state = .active && !ready then .next (setQState (hubReads s c (depVas k.pkt)) q .stalled 0)
      else .next (hubReads s c (depVas k.pkt)) := by
  obtain ⟨m, hm⟩ := (hubReads_both s c (depVas k.pkt)).2
  have htk : ∀ m, takenKern { s with mem := m } q = some k := fun m => by
    unfold takenKern
    rw [hi]
    exact hk
  subst hr
  rw [exec_dependencyPoll]
  unfold execDependencyPoll
  simp only [hq, hown, htk s.mem, hm, htk m, hi, Option.isSome_some, Bool.and_true]

theorem dependencyPoll_untaken (hi : q.taken = none) :
    exec (.dependencyPoll n) s = if q.state = .stalled && headReady (hubHead s q c) q c then .next (setQState (hubHead s q c) q .active 0)
      else .next (hubHead s q c) := by
  have htk : ∀ u : State, takenKern u q = none := fun u => by
    unfold takenKern
    rw [hi]
    rfl
  rw [exec_dependencyPoll]
  unfold execDependencyPoll
  simp only [hq, hown, htk, hi, Option.isSome_none, Bool.and_false, Bool.false_eq_true, if_false]
  rfl

end

theorem dependencyPoll_idle {s : State} {n : Nat} (h : ∀ q c, queueById s.ctl.queues n = some q → qOwner s q ≠ some c) :
    exec (.dependencyPoll n) s = .next s := by
  rw [exec_dependencyPoll]
  unfold execDependencyPoll
  cases hq : queueById s.ctl.queues n with
  | none => rfl
  | some q =>
    cases hown : qOwner s q with
    | none => simp only [hown]
    | some c => exact absurd hown (h q c hq)

theorem pollDue_iff {u : State} {c : Ctx} {k : Kernel} : (k.state != .waiting || depsHold u c k.pkt) = true ↔ k.state ≠ .waiting ∨ DepsHold u c k.pkt := by
  rw [Bool.or_eq_true, bne_iff_ne, depsHold_iff]

theorem pollDue_not {u : State} {c : Ctx} {k : Kernel} (hw : k.state = .waiting) (hd : ¬ DepsHold u c k.pkt) :
    (k.state != .waiting || depsHold u c k.pkt) = false :=
  Bool.eq_false_iff.2 fun h => (pollDue_iff.1 h).elim (fun hn => hn hw) hd

/-- Settles O49: the chosen queue is the head of the dispatcher's order, the check's code is that of the first cause, and a packet
taken or polled leaves its queue as its dependencies stand after the hub die's reads. -/
theorem packetsTaken : Obligations.PacketsTaken := by
  unfold Obligations.PacketsTaken
  refine ⟨fun s h => dispatcherTake_idle h, fun s q c h => ⟨dispatcherTake_unreadable h, fun p hp => ?_⟩,
    fun s n => ⟨dependencyPoll_idle, fun q c hq hown => ⟨fun i k hi hk => ?_, fun hi => ?_⟩⟩, fun s q x err _ herr => ?_⟩
  · obtain ⟨hside, m, hm⟩ := hubTake_both s q c (depVas p)
    refine ⟨hubRead_of hside ⟨m, hm⟩, fun e he => dispatcherTake_error h hp he, dispatcherTake_held h hp, fun hpass hheld => ?_⟩
    obtain ⟨hmem, hc, -⟩ := chosen_ids h
    have he := dispatcherTake_takes h hp hpass hheld
    have hctl : (hubReads (hubHead s q c) c (depVas p)).ctl = s.ctl := hside.ctl
    have hids := hside.exe
    generalize hubReads (hubHead s q c) c (depVas p) = u at he hctl hids hheld ⊢
    rw [← hctl] at hc hmem ⊢
    obtain ⟨t, rs, hlatch, hexe, hkernels, hregions, hown, hothers, hqueues, hnone⟩ := takenState_spec q p hc
    have htaken : ∀ y ∈ (takenState u t q c p rs).ctl.queues, y.id = q.id → y.taken = some u.ctl.kernels.length := by
      rw [hqueues]
      exact modIf_taken
    obtain ⟨v, hv, hvids, hvctl, hvtaken⟩ : ∃ v, takePacket u q c p = v ∧ OnlyIds (takenState u t q c p rs) v ∧
        v.ctl = { (takenState u t q c p rs).ctl with queues := v.ctl.queues } ∧
        ∀ y ∈ v.ctl.queues, y.id = q.id → y.taken = some u.ctl.kernels.length := by
      refine ⟨_, takePacket_eq hlatch, ?_⟩
      split
      · exact ⟨rfl, rfl, htaken⟩
      · exact stalled_keeps _ q htaken
    refine ⟨v, takenRec u t q c p rs, hv ▸ he, by rw [OnlyIds, hvids, hexe, hids], by rw [hvctl]; exact hkernels, rfl, rfl, rfl, rfl, rfl, rfl,
      packetPrio_min q p.prio, rfl, rfl, rfl, rfl, takenRec_launch, hregions, ?_, ?_, hvtaken, fun h0 => ?_⟩
    · unfold CtxNow
      rw [hvctl]
      exact hown
    · rw [hvctl]
      exact hothers
    · obtain rfl := hnone h0
      exact ⟨rfl, hv ▸ takePacket_plain hmem hlatch⟩
  · refine ⟨hubReads_read .., fun hns hna => ?_, fun hdue => ⟨fun hst => ?_, fun hact => ?_⟩, fun hw hd => ⟨fun hst => ?_, fun hact => ?_⟩⟩
    · rw [dependencyPoll_taken hq hown hi hk rfl, if_neg (by simp [hns]), if_neg (by simp [hna])]
    · rw [dependencyPoll_taken hq hown hi hk (pollDue_iff.2 hdue).symm, if_pos (by simp [hst])]
    · rw [dependencyPoll_taken hq hown hi hk (pollDue_iff.2 hdue).symm, if_neg (by simp [hact]), if_neg (by simp)]
    · rw [dependencyPoll_taken hq hown hi hk (pollDue_not hw hd).symm, if_neg (by simp), if_neg (by simp [hst])]
    · rw [dependencyPoll_taken hq hown hi hk (pollDue_not hw hd).symm, if_neg (by simp), if_pos (by simp [hact])]
  · refine ⟨hubHead_read .., fun hns => ?_, fun hst hheld => ?_, fun hst hfree => ?_⟩
    · rw [dependencyPoll_untaken hq hown hi, if_neg (by simp [hns])]
    · rw [dependencyPoll_untaken hq hown hi, if_neg (by simp [headReady_held hheld])]
    · rw [dependencyPoll_untaken hq hown hi, if_pos (by simp [hst, headReady_free hfree])]
  · refine ⟨(setQState_side _ _).exe, setQState_ctl .., setQState_all s q x err, fun hg hl ha hat => ?_⟩
    rw [setQState_num, setQState_num]
    exact headerPut_reads x herr hg hl ha hat

end Sys2Proof.Machine
end

section
/-! PROOFS. Proofs/PacketActions.lean: the actions of NOP, SIGNAL, PIN, UNPIN, RECORD, POLICY and LAUNCH packets, and their completion
(R97, R112, R113, R315, R318, R407, R409, R413). -/

namespace Sys2Proof.Machine

/-! ## The end of a packet, seen from a state whose record of it stood otherwise -/

theorem modKern_alike (s : State) (i : Nat) (f : Kernel → Kernel) : ReadAlike s (modKern s i f) := ⟨rfl, rfl, rfl, rfl⟩

/-- HEAD has advanced, from a state that reads alike and for a record of the same packet. -/
theorem HeadAdvanced.alike {s s' u : State} {i : Nat} {k k' : Kernel} (h : HeadAdvanced s' u i k') (ha : ReadAlike s s') (hq : s'.ctl.queues = s.ctl.queues)
    (hk : k'.advanced = k.advanced ∧ k'.qpa = k.qpa ∧ k'.qidx = k.qidx) : HeadAdvanced s u i k := by
  obtain ⟨hadv, hqpa, hqidx⟩ := hk
  unfold HeadAdvanced at h ⊢
  rw [hadv, hqpa, hqidx, numAt_alike ha, hq, ha.2.1, ha.2.2.1] at h
  exact fun h1 h2 h3 h4 h5 h6 => h h1 h2 h3 h4 h5 (h6.of_eq ha.2.1 ha.2.2.1)

/-- The end of a packet whose record was changed before, in its state alone. -/
theorem PacketEnds.of_modKern {s t : State} {i : Nat} {f : Kernel → Kernel} {k k' : Kernel} {c : Ctx} {st : KState} {status : Nat}
    (h : PacketEnds (modKern s i f) t i k' c st status) (hk : k' = { k with state := k'.state }) : PacketEnds s t i k c st status := by
  obtain ⟨⟨d, hrec⟩, hengine, ⟨x, hx, hxc, hxp⟩, hothers, u, houtside, hhead, hsys, hcomp⟩ := h
  have hpart : k'.part = k.part ∧ k'.ctx = k.ctx ∧ k'.pins = k.pins ∧ k'.pkt = k.pkt ∧ k'.ord = k.ord ∧ k'.qpa = k.qpa ∧ k'.qidx = k.qidx ∧
      k'.advanced = k.advanced := by
    rw [hk]
    exact ⟨rfl, rfl, rfl, rfl, rfl, rfl, rfl, rfl⟩
  obtain ⟨epart, ectx, epins, epkt, eord, eqpa, eqidx, eadv⟩ := hpart
  refine ⟨⟨d, hrec.trans ?_⟩, hengine, ⟨x, by rw [← epart, ← ectx]; exact hx, hxc, fun y => by rw [← epins]; exact hxp y⟩,
    fun p x hn => hothers p x (by rw [epart, ectx]; exact hn), u, ?_, hhead.alike (modKern_alike s i f) rfl ⟨eadv, eqpa, eqidx⟩, hsys, ?_⟩
  · show modAt (modAt s.ctl.kernels i f) i _ = _
    rw [modAt_modAt, hk]
  · unfold OutsideHead at houtside ⊢
    rw [eqpa] at houtside
    exact houtside.of_eq rfl rfl rfl
  · rw [← epkt, ← eord]
    exact hcomp

/-! ## NOP, SIGNAL and the packets that do nothing -/

theorem packets_idle {s : State} {i : Nat} : ∀ x ∈ [(0, Instr.nopPacket i), (1, .launchPacket i), (2, .pinPacket i), (3, .unpinPacket i),
    (4, .signalPacket i), (5, .recordPacket i), (6, .fitsyncPacket i), (7, .policyPacket i)],
    (∀ k c, ¬ Acts s i x.1 k c) → exec x.2 s = .next s := by
  simp only [List.forall_mem_cons, List.not_mem_nil, false_implies, implies_true, and_true]
  exact ⟨fun h => act_idle h _, fun h => act_idle h _, fun h => act_idle h _, fun h => act_idle h _, fun h => act_idle h _, fun h => act_idle h _,
    fun h => act_idle h _, fun h => act_idle h _⟩

section
variable {s : State} {i : Nat} {k : Kernel} {c : Ctx}

theorem nopPacket_ends (h : Acts s i 0 k c) : ∃ t, exec (.nopPacket i) s = .next t ∧ PacketEnds s t i k c .retired 0 :=
  ⟨_, act_eq h _, acts_ends h _ _⟩

theorem signalPacket_ends (h : Acts s i 4 k c) : ∃ t, exec (.signalPacket i) s = .next t ∧ PacketEnds s t i k c .retired 0 :=
  ⟨_, act_eq h _, acts_ends h _ _⟩

/-- The owner of a packet that acts, by its own numbers. -/
theorem Acts.owner {kind : Nat} (h : Acts s i kind k c) : c.part = k.part ∧ c.cid = k.ctx ∧ findCtx s.ctl.ctxs c.part c.cid = some c := by
  obtain ⟨-, hc, -⟩ := h
  obtain ⟨hp, hx⟩ := findCtx_ids hc
  exact ⟨hp, hx, by rw [hp, hx]; exact hc⟩

/-- A packet ends after its action has led to `b`, which has its record and an owner of the same number. -/
theorem acted_ends {kind : Nat} (h : Acts s i kind k c) {b : State} {cb : Ctx} (hk : b.ctl.kernels = s.ctl.kernels)
    (hc : findCtx b.ctl.ctxs c.part c.cid = some cb) (st : KState) (status : Nat) : PacketEnds b (endKernel b i st status 0) i k cb st status := by
  obtain ⟨hp, hx, -⟩ := h.owner
  exact ends_of (by rw [hk]; exact h.1) (acts_live h) (by rw [← hp, ← hx]; exact hc) st status

/-! ## PIN and UNPIN (R315, R318) -/

theorem Pinned.kernels {b : State} {cb : Ctx} {p : Partition} {rs : List (Nat × Nat)} (h : Pinned s b c cb p rs) : b.ctl.kernels = s.ctl.kernels := by
  obtain ⟨hb, -⟩ := h
  rw [hb]

theorem pinPacket_pins (h : Acts s i 2 k c) {p : Partition} (hp : findPart s.ctl.parts c.part = some p)
    (hpin : Pinnable s c p ((wsetRanges s c k.pkt.wset.toNat).getD [])) :
    ∃ t b cb, exec (.pinPacket i) s = .next t ∧ Pinned s b c cb p ((wsetRanges s c k.pkt.wset.toNat).getD []) ∧ PacketEnds b t i k cb .retired 0 := by
  obtain ⟨c', ps, hranges, hctx, hcounts, hpages, hlen⟩ := pinRanges_some hpin
  have hpinned := pinned_of h.owner.2.2 hctx hcounts hpages hlen
  refine ⟨_, loadPinned (setCtx s c') c' p ps, c', (act_eq h _).trans ?_, hpinned, acted_ends h hpinned.kernels hpinned.2.1 _ _⟩
  simp only [hp, hranges, Option.map_some, Option.isSome_some, if_true]
  rfl

theorem pinPacket_fails (h : Acts s i 2 k c) {p : Partition} (hp : findPart s.ctl.parts c.part = some p)
    (hbad : ∃ r ∈ (wsetRanges s c k.pkt.wset.toNat).getD [], ∃ pg ∈ vaPages r.1 r.2, pinPage s c p (pg * 2 ^ 16) = none) :
    ∃ t, exec (.pinPacket i) s = .next t ∧ PacketEnds s t i k c .retired 4 := by
  refine ⟨endKernel s i .retired 4 0, (act_eq h _).trans ?_, acts_ends h _ _⟩
  simp only [hp, pinRanges_none hbad, Option.map_none, Option.isSome_none, Bool.false_eq_true, if_false]
  rfl

theorem pageMeets_iff (r : Nat × Nat) (pg sh : Nat) : pageMeets r pg sh = true ↔ meetsRange r (pg, sh) := by
  unfold pageMeets meetsRange
  rw [Bool.and_eq_true, decide_eq_true_iff, decide_eq_true_iff]

/-- What the shootdown of ranges keeps of a list of translations: those that are another context's, or meet no range (R318). -/
theorem mem_shootdown {α : Type} {part ctx : α → Nat} {page : α → Nat × Nat} {rs : List (Nat × Nat)} {P K : Nat} {L : List α} {e : α} :
    e ∈ L.filter (fun t => !((part t == P && ctx t == K) && rs.any fun r => pageMeets r (page t).1 (page t).2)) ↔
      e ∈ L ∧ ¬ (part e = P ∧ ctx e = K ∧ ∃ r ∈ rs, meetsRange r (page e)) := by
  rw [List.mem_filter, Bool.not_eq_true', ← Bool.not_eq_true, Bool.and_eq_true, Bool.and_eq_true, beq_iff_eq, beq_iff_eq, List.any_eq_true]
  simp only [pageMeets_iff, and_assoc]

theorem unpinPacket_unpins (h : Acts s i 3 k c) {rs : List (Nat × Nat)} (hrs : rs = (wsetRanges s c k.pkt.wset.toNat).getD []) :
    ∃ t b cb, exec (.unpinPacket i) s = .next t ∧ PacketEnds b t i k cb .retired 0 ∧
      b = { s with mem := { s.mem with tlb := b.mem.tlb, upper := b.mem.upper }, ctl := { s.ctl with ctxs := b.ctl.ctxs } } ∧
      cb = { c with pinned := cb.pinned } ∧ (∀ q x, q ≠ c.part ∨ x ≠ c.cid → findCtx b.ctl.ctxs q x = findCtx s.ctl.ctxs q x) ∧
      ((c.pinned.map fun y => (y.1, y.2.1)).Nodup → ∀ x n, n = (rs.filter fun r => decide (r.1 < (x.1 + 1) * 2 ^ x.2) && decide (x.1 * 2 ^ x.2 < r.1 + r.2)).length →
        pinCount cb x = pinCount c x - n) ∧
      (∀ e, e ∈ b.mem.tlb ↔ e ∈ s.mem.tlb ∧ ¬ (e.part = c.part ∧ e.ctx = c.cid ∧ ∃ r ∈ rs, meetsRange r (e.page, e.size))) ∧
      ∀ e, e ∈ b.mem.upper ↔ e ∈ s.mem.upper ∧ ¬ (e.part = c.part ∧ e.ctx = c.cid ∧ ∃ r ∈ rs,
        meetsRange r (e.va / 2 ^ entryShift e.lvl, entryShift e.lvl)) := by
  obtain ⟨ps, hps⟩ := unpinR_keep rs c
  obtain ⟨cb, hcb⟩ : ∃ cb : Ctx, cb = rs.foldl (fun (c : Ctx) r =>
    (c.pinned.filter fun y => pageMeets r y.1 y.2.1).foldl (fun c y => unpinOne c (y.1, y.2.1)) c) c := ⟨_, rfl⟩
  have hkeep : cb = { c with pinned := cb.pinned } := by
    rw [hcb, hps]
  have hpart : cb.part = c.part := by rw [hkeep]
  have hcid : cb.cid = c.cid := by rw [hkeep]
  have hb : unpinRanges s c rs = { setCtx s cb with mem := (unpinRanges s c rs).mem } := by
    rw [hcb]
    rfl
  refine ⟨_, unpinRanges s c rs, cb, (act_eq h _).trans ?_, acted_ends h ?_ ?_ _ _, ?_, hkeep, fun q x hne => ?_, fun hn x n hlen => ?_, fun e => ?_, fun e => ?_⟩
  · rw [← hrs]
    rfl
  · rw [hb]
    rfl
  · rw [hb]
    exact findCtx_setCtx h.owner.2.2 hpart hcid
  · rfl
  · rw [hb]
    exact findCtx_setCtx_other (by rw [hpart, hcid]; exact hne)
  · rw [hcb, hlen]
    exact unpinR_count rs x c hn
  · exact mem_shootdown (part := TlbEntry.part) (ctx := TlbEntry.ctx) (page := fun e => (e.page, e.size))
  · exact mem_shootdown (part := UpperEntry.part) (ctx := UpperEntry.ctx) (page := fun e => (e.va / 2 ^ entryShift e.lvl, entryShift e.lvl))

/-! ## RECORD (R413) -/

theorem recordPacket_records (h : Acts s i 5 k c) {raw : List Byte} (hraw : ownerBytes s c k.pkt.args.toNat 128 = some raw) :
    ∃ t img, exec (.recordPacket i) s = .next t ∧ Capture s c raw (2 ^ 64 - 1) img ∧ PacketEnds (hostWritten s k.pkt.code.toNat img) t i k c .retired 0 := by
  refine ⟨endKernel (hostWritten s k.pkt.code.toNat (captureBytes s c raw (2 ^ 64 - 1))) i .retired 0 0, _, (act_eq h _).trans ?_,
    capture_of s c raw (2 ^ 64 - 1), acted_ends (b := hostWritten s _ _) h rfl h.owner.2.2 _ _⟩
  simp only [hraw]
  rfl

/-! ## POLICY (R406, R407, R409) -/

/-- The policy accepted: it stands, and the facilities that it closes have zeroed their registers. -/
def policyTaken (s : State) (p : Partition) (y : Policy) : State :=
  closeFacilities { s with ctl := { s.ctl with parts := modIf s.ctl.parts (fun x => x.id == p.id) fun x =>
    { x with policy := some y, lastCounter := y.counter } } } p.id y.facil

theorem policyTaken_ctxs (s : State) (p : Partition) (y : Policy) : (policyTaken s p y).ctl.ctxs =
    if y.facil.testBit 1 then s.ctl.ctxs else modIf s.ctl.ctxs (fun c => c.part == p.id) fun c => { c with perf := [] } := by
  unfold policyTaken
  rw [(closeFac_ctxs ..).1]

theorem policyTaken_parts (s : State) (p : Partition) (y : Policy) : (policyTaken s p y).ctl.parts =
    modIf s.ctl.parts (fun x => x.id == p.id) fun x => { x with policy := some y, lastCounter := y.counter } := by
  unfold policyTaken
  rw [(closeFac_ctxs ..).1]

theorem policyTaken_kernels (s : State) (p : Partition) (y : Policy) : (policyTaken s p y).ctl.kernels = s.ctl.kernels := by
  unfold policyTaken
  rw [(closeFac_ctxs ..).1]

theorem policyTaken_mem (s : State) (p : Partition) (y : Policy) : (policyTaken s p y).mem = s.mem := (closeFac_ctxs ..).2.1

/-- The owner after the policy: PERF is empty where PROFILE closes (R409). -/
theorem policyTaken_owner {p : Partition} (y : Policy) (hp : p.id = c.part) (hc : findCtx s.ctl.ctxs c.part c.cid = some c) :
    findCtx (policyTaken s p y).ctl.ctxs c.part c.cid = some { c with perf := if y.facil.testBit 1 then c.perf else [] } := by
  rw [policyTaken_ctxs]
  cases y.facil.testBit 1 with
  | true => exact hc
  | false => exact closed_find hc hp

theorem policyTaken_perf {p : Partition} (y : Policy) : ∀ x ∈ (policyTaken s p y).ctl.ctxs, x.part = p.id → y.facil.testBit 1 = false → x.perf = [] := by
  intro x hx hpart hbit
  rw [policyTaken_ctxs, hbit] at hx
  obtain ⟨z, -, rfl⟩ := List.mem_map.1 hx
  by_cases hz : (z.part == p.id) = true
  · rw [if_pos hz]
  · rw [if_neg hz] at hpart
    exact absurd (beq_iff_eq.2 hpart) hz

theorem policyPacket_judges (h : Acts s i 7 k c) {p : Partition} (hp : findPart s.ctl.parts c.part = some p) {r : Nat} {o : Option Policy}
    (hj : judgePolicy s c p k.pkt.args.toNat = (r, o)) {b : State}
    (hb : b = (o.map fun y => policyTaken (vaBytes s c (k.pkt.args.toNat + 0x12) (natLe r 1)) p y).getD
      (vaBytes s c (k.pkt.args.toNat + 0x12) (natLe r 1))) :
    exec (.policyPacket i) s = .next (endKernel b i .retired 0 0) := by
  refine (act_eq h _).trans ?_
  subst hb
  simp only [hp, hj]
  cases o <;> rfl

/-- RESULT stands in the blob, where its byte is at its home (R407). -/
theorem result_stands {va r : Nat} : ∀ x, xlate s 8 c va 0 = .ok x → GrainsOk s.mem.dir → paLocal (ownDev s.sys) x.pa = true →
    AtHome s (paOff x.pa) 1 → ∀ b : State, b.mem = (vaBytes s c va (natLe r 1)).mem → homeByte b (paOff x.pa) = BitVec.ofNat 8 r := by
  intro x hx hg hl hat b hb
  rw [← vaByte_one hx hg hl hat r]
  unfold homeByte
  rw [hb]

theorem policyPacket_refuses (h : Acts s i 7 k c) {p : Partition} (hp : findPart s.ctl.parts c.part = some p) {r : Nat}
    (hj : judgePolicy s c p k.pkt.args.toNat = (r, none)) :
    ∃ t b, exec (.policyPacket i) s = .next t ∧ PacketEnds b t i k c .retired 0 ∧ b.mem = (vaBytes s c (k.pkt.args.toNat + 0x12) (natLe r 1)).mem ∧
      OnlyIds s b ∧ b.ctl = s.ctl ∧ b.sys = s.sys := by
  have hside := vaBytes_side s c (k.pkt.args.toNat + 0x12) (natLe r 1)
  refine ⟨_, _, policyPacket_judges h hp hj rfl, acted_ends h (by rw [Option.map_none, Option.getD_none, hside.ctl]) ?_ _ _, rfl, hside.exe, hside.ctl, hside.sys⟩
  rw [Option.map_none, Option.getD_none, hside.ctl]
  exact h.owner.2.2

theorem policyPacket_accepts (h : Acts s i 7 k c) {p : Partition} (hp : findPart s.ctl.parts c.part = some p) {y : Policy}
    (hj : judgePolicy s c p k.pkt.args.toNat = (0, some y)) :
    ∃ t b cb, exec (.policyPacket i) s = .next t ∧ PacketEnds b t i k cb .retired 0 ∧ b.mem = (vaBytes s c (k.pkt.args.toNat + 0x12) (natLe 0 1)).mem ∧
      findPart b.ctl.parts c.part = some { p with policy := some y, lastCounter := y.counter } ∧
      cb = { c with perf := if y.facil.testBit 1 then c.perf else [] } ∧
      (∀ x ∈ b.ctl.ctxs, x.part = p.id → y.facil.testBit 1 = false → x.perf = []) ∧
      ∀ (gi : Nat) (g : Gang), b.exe.gangs[gi]? = some g → ∃ g0 : Gang, s.exe.gangs[gi]? = some g0 ∧ g = { g0 with dbgCtl := g.dbgCtl } ∧
        (∀ (grp : Group) (x : Kernel), s.exe.groups[g0.grp]? = some grp → s.ctl.kernels[grp.kern]? = some x →
          g.dbgCtl = if x.part = p.id ∧ y.facil.testBit 0 = false then 0 else g0.dbgCtl) := by
  have hside := vaBytes_side s c (k.pkt.args.toNat + 0x12) (natLe 0 1)
  have hexe : (vaBytes s c (k.pkt.args.toNat + 0x12) (natLe 0 1)).exe.gangs = s.exe.gangs ∧
      (vaBytes s c (k.pkt.args.toNat + 0x12) (natLe 0 1)).exe.groups = s.exe.groups := by rw [hside.exe]; exact ⟨rfl, rfl⟩
  have he := policyPacket_judges h hp hj rfl
  rw [Option.map_some, Option.getD_some] at he
  have hctl := hside.ctl
  generalize vaBytes s c (k.pkt.args.toNat + 0x12) (natLe 0 1) = u at he hexe hctl ⊢
  refine ⟨_, policyTaken u p y, _, he, acted_ends h ?_ (policyTaken_owner y (findPart_id hp) ?_) _ _, policyTaken_mem u p y, ?_, rfl, policyTaken_perf y, fun gi g hg => ?_⟩
  · rw [policyTaken_kernels, hctl]
  · rw [hctl]
    exact h.owner.2.2
  · rw [policyTaken_parts, hctl]
    exact policy_find hp
  · obtain ⟨g0, h0, hkeep, hdbg⟩ := closed_gangs _ _ _ gi g hg
    refine ⟨g0, by rw [← hexe.1]; exact h0, hkeep, fun grp x hgrp hx => hdbg grp x ?_ ?_⟩
    · show u.exe.groups[g0.grp]? = _
      rw [hexe.2]
      exact hgrp
    · show u.ctl.kernels[grp.kern]? = _
      rw [hctl]
      exact hx

/-! ## LAUNCH (R112, R315) -/

theorem launchPacket_fails (h : Acts s i 1 k c) {p : Partition} (hp : findPart s.ctl.parts c.part = some p)
    (hbad : ∃ r ∈ (wsetRanges s c k.pkt.wset.toNat).getD [], ∃ pg ∈ vaPages r.1 r.2, pinPage s c p (pg * 2 ^ 16) = none) :
    ∃ t, exec (.launchPacket i) s = .next t ∧ PacketEnds s t i k c .failed 4 := by
  have hpins : pinRanges (modKern s i fun x => { x with state := .pinning }) c p
      ((wsetRanges (modKern s i fun x => { x with state := .pinning }) c k.pkt.wset.toNat).getD []) = none := pinRanges_none hbad
  have hkern : (modKern s i fun x => { x with state := .pinning }).ctl.kernels[i]? = some { k with state := .pinning } := by
    show (modAt s.ctl.kernels i _)[i]? = _
    rw [modAt_get, if_pos rfl, h.1]
    rfl
  have hends := ends_of (s := modKern s i fun x => { x with state := .pinning }) (c := c) hkern rfl h.2.1 .failed 4
  refine ⟨_, (act_eq h _).trans ?_, hends.of_modKern rfl⟩
  have hp' : findPart (modKern s i fun x => { x with state := .pinning }).ctl.parts c.part = some p := hp
  simp only [hp', hpins]
  rfl

end

/-- Settles O50: each action leads to a state in which the packet's record stands as it was and its owner keeps its number, and the
packet ends there. -/
theorem packetActions : Obligations.PacketActions := by
  unfold Obligations.PacketActions
  refine ⟨fun s i => packets_idle, fun s i k c => ⟨nopPacket_ends, signalPacket_ends, fun h p hp => ⟨pinPacket_pins h hp, pinPacket_fails h hp⟩,
    fun h => unpinPacket_unpins h rfl, fun h raw hraw => recordPacket_records h hraw, fun h p r y hp hres => ?_,
    fun h p hp => ⟨launch_pins h hp, launchPacket_fails h hp⟩⟩⟩
  rcases judge_of hres with ⟨hr, hj⟩ | ⟨rfl, hj⟩
  · obtain ⟨t, b, he, hends, hmem, hrest⟩ := policyPacket_refuses h hp hj
    exact ⟨t, b, c, he, hends, fun x hx hg hl hat => result_stands x hx hg hl hat b hmem, fun _ => ⟨rfl, hrest⟩, fun h0 => absurd h0 hr⟩
  · obtain ⟨t, b, cb, he, hends, hmem, hrest⟩ := policyPacket_accepts h hp hj
    exact ⟨t, b, cb, he, hends, fun x hx hg hl hat => result_stands x hx hg hl hat b hmem, fun h0 => absurd rfl h0, fun _ => hrest⟩

end Sys2Proof.Machine
end

section
/-! PROOFS. Proofs/QueueOperations.lean: what a window's ENQ and DEQ leave at a header and in the slots of its queue (R89, R94). -/

namespace Sys2Proof.Machine

/-! ## Bytes and numbers after a step of the queues -/

theorem QueueSide.byte {P : Nat → Prop} {s t : State} (h : QueueSide P s t) (hg : GrainsOk s.mem.dir) {off : Nat} (hp : ¬ P off)
    (ha : HomeAlone s.mem off) : homeByte t off = homeByte s off := by
  obtain ⟨halone, hbyte⟩ := h.mem.bytes hg off ha
  exact (coByte_alone halone).trans ((hbyte hp).trans (coByte_alone ha).symm)

theorem QueueSide.atHome {P : Nat → Prop} {s t : State} (h : QueueSide P s t) (hg : GrainsOk s.mem.dir) {off n : Nat} (ha : AtHome s off n) :
    AtHome t off n := fun j hj => by
  obtain ⟨halone, hup⟩ := ha j hj
  refine ⟨(h.mem.bytes hg _ halone).1, ?_⟩
  unfold homeUp at hup ⊢
  rw [h.sys]
  exact hup

theorem QueueSide.own {P : Nat → Prop} {s t : State} (h : QueueSide P s t) : ownDev t.sys = ownDev s.sys := by
  unfold ownDev
  rw [h.sys]

/-- Eight bytes of a header at its home. -/
theorem AtHome.number {s : State} {pa k : Nat} (h : AtHome s (paOff pa) 64) (ha : pa % 64 = 0) (hk : k + 8 ≤ 64) : AtHome s (paOff (pa + k)) 8 := fun j hj => by
  rw [(local_add (own := 0) ha (show k < 64 by omega)).2.2, Nat.add_assoc]
  exact h (k + j) (by omega)

/-- A number that this device writes at its own memory. -/
theorem deviceWrite_num {s : State} {pa : Nat} (w : Writer) (part leaf v : Nat) (hg : GrainsOk s.mem.dir) (ha : pa % 8 = 0)
    (hl : paLocal (ownDev s.sys) pa = true) (hat : AtHome s (paOff pa) 8) : numAt (deviceWrite s w part leaf pa (natLe v 8)) pa 8 = v % 2 ^ 64 := by
  unfold deviceWrite
  rw [(paLocal_not_peer hl).2]
  exact numAt_engineWrite w leaf hg (.inr rfl) ha (.inr ⟨hl, hat⟩)

/-- HEAD and TAIL of an aligned header are kept while the queues move. -/
theorem settle_num {v : State} {pa k : Nat} (hk : k = 0 ∨ k = 8) (ha : pa % 64 = 0) (hg : GrainsOk v.mem.dir) (hl : paLocal (ownDev v.sys) pa = true)
    (hat : AtHome v (paOff pa) 64) (hq : ∀ y ∈ v.ctl.queues, y.pa % 64 = 0) : numAt (settleQueues v) (pa + k) 8 = numAt v (pa + k) 8 := by
  have hloc := local_add (own := ownDev v.sys) ha (show k < 64 by omega)
  refine (settleQueues_side v).num (.inr rfl) (by omega) (by rw [hloc.1]; exact hl) hg (fun j hj => (hat.number ha (by omega) j hj).1) fun j hj => ?_
  rintro ⟨y, hy, e⟩
  have hy64 := hq y hy
  rw [hloc.2.2, (local_add (own := 0) hy64 (show 0x1B < 64 by omega)).2.2, (local_add (own := 0) hy64 (show 0x1F < 64 by omega)).2.2] at e
  have h1 : paOff pa % 64 = 0 := by unfold paOff; omega
  have h2 : paOff y.pa % 64 = 0 := by unfold paOff; omega
  omega

/-- The queues of a step stand where they stood. -/
theorem QueueSide.aligned {P : Nat → Prop} {s t : State} (h : QueueSide P s t) (hq : ∀ y ∈ s.ctl.queues, y.pa % 64 = 0) : ∀ y ∈ t.ctl.queues, y.pa % 64 = 0 := by
  intro y hy
  obtain ⟨z, hz, -, hpa, -⟩ := h.from_ y hy
  rw [← hpa]
  exact hq z hz

/-! ## A queue operation of a window (R94, R100) -/

section
variable {u : State} {pa : Nat} {q : Queue} (hq : queueAt u.ctl.queues pa = some q)
include hq

theorem qPerform_window (w : Writer) {enq : Bool} (img : List Byte) (hne : q.state ≠ .error) (hnd : enq = true → q.state ≠ .draining) :
    qPerform u w pa enq none img false = if enq then qEnq u w q img else qDeq u w q := by
  unfold qPerform
  rw [hq]
  cases enq with
  | true => simp [hne, hnd rfl]
  | false => simp [hne]

theorem qPerform_closed (w : Writer) {enq : Bool} (img : List Byte) (h : q.state = .error ∨ enq = true ∧ q.state = .draining) :
    qPerform u w pa enq none img false = (u, qClosed) := by
  unfold qPerform
  rw [hq]
  rcases h with h | ⟨rfl, h⟩ <;> simp [h]

theorem windowAnswer_enq (hes : q.esize ≤ 3) : windowAnswer u pa true =
    if q.state = .error ∨ q.state = .draining then ⟨2, 0, []⟩
    else if numAt u (q.pa + 8) 8 - numAt u q.pa 8 = 2 ^ q.cap then ⟨1, numAt u (q.pa + 8) 8, []⟩ else ⟨0, numAt u (q.pa + 8) 8, []⟩ := by
  unfold windowAnswer queueAnswer
  rw [hq]
  dsimp only
  rw [Option.map_some, Option.getD_some]
  refine if_congr ⟨?_, ?_⟩ rfl (if_pos rfl)
  · rintro (h | h | h | ⟨-, h⟩)
    · exact .inl h
    · omega
    · exact absurd rfl h
    · exact .inr h
  · rintro (h | h)
    · exact .inl h
    · exact .inr (.inr (.inr ⟨rfl, h⟩))

theorem windowAnswer_deq (hes : q.esize ≤ 3) : windowAnswer u pa false =
    if q.state = .error then ⟨2, 0, []⟩ else if q.launch = true then ⟨4, 0, []⟩
    else if numAt u (q.pa + 8) 8 = numAt u q.pa 8 then ⟨3, numAt u q.pa 8, []⟩
    else match (findCtx u.ctl.ctxs q.part q.ctx).map fun c => xlate u 8 c (qSlot q (numAt u q.pa 8)) needR with
      | some (.ok x) => ⟨0, numAt u q.pa 8, paBytes u x.pa (qEsize q)⟩
      | _ => ⟨2, 0, []⟩ := by
  unfold windowAnswer queueAnswer
  rw [hq]
  dsimp only
  rw [Option.map_some, Option.getD_some]
  refine if_congr ⟨?_, .inl⟩ rfl ((if_neg Bool.false_ne_true).trans rfl)
  rintro (h | h | h | ⟨h, -⟩)
  · exact h
  · omega
  · exact absurd rfl h
  · cases h

end

/-! ## ENQ (R94) -/

section
variable {u : State} {q : Queue} {o : Ctx} (ho : findCtx u.ctl.ctxs q.part q.ctx = some o)

theorem qEnq_full (w : Writer) (img : List Byte) (hnd : q.state ≠ .draining) (hfull : numAt u (q.pa + 8) 8 - numAt u q.pa 8 = 2 ^ q.cap) :
    qEnq u w q img = (hdrPut u w q 0x20 8 (numAt u (q.pa + 0x20) 8 + 1), ⟨1, numAt u (q.pa + 8) 8, []⟩) := by
  unfold qEnq
  dsimp only
  rw [if_neg hnd]
  exact if_pos hfull

include ho

theorem qEnq_slot (w : Writer) (img : List Byte) (hnd : q.state ≠ .draining) (hroom : numAt u (q.pa + 8) 8 - numAt u q.pa 8 ≠ 2 ^ q.cap) {f : FaultCode}
    (hx : xlate u 8 o (qSlot q (numAt u (q.pa + 8) 8)) needW = .error f) : qEnq u w q img = (setQState u q .error 5, qClosed) := by
  have hx' : xlate u 8 o (qSlot q (qTail u q)) needW = .error f := hx
  unfold qEnq
  dsimp only
  rw [if_neg hnd, if_neg (by exact hroom), show qOwner u q = some o from ho]
  dsimp only
  rw [hx']
  rfl

/-- The state after an ENQ: the entry in its slot, and TAIL past it. -/
def enqWritten (u : State) (w : Writer) (q : Queue) (y : Xl) (img : List Byte) : State :=
  hdrPut (deviceWrite u w q.part y.leaf y.pa (img.take (qEsize q))) w q 8 8 (numAt u (q.pa + 8) 8 + 1)

/-- The append's stamp taken, for its queue (R99). -/
def enqStamped (v : State) (q : Queue) : State :=
  modQueue { v with ctl := { v.ctl with stampNo := v.ctl.stampNo + 1 } } q.id fun y => { y with stamps := y.stamps ++ [v.ctl.stampNo + 1] }

theorem qEnq_appends (w : Writer) (img : List Byte) (hnd : q.state ≠ .draining) (hroom : numAt u (q.pa + 8) 8 - numAt u q.pa 8 ≠ 2 ^ q.cap) {y : Xl}
    (hx : xlate u 8 o (qSlot q (numAt u (q.pa + 8) 8)) needW = .ok y) :
    qEnq u w q img = (settleQueues (enqStamped (enqWritten u w q y img) q), ⟨0, numAt u (q.pa + 8) 8, []⟩) := by
  have hx' : xlate u 8 o (qSlot q (qTail u q)) needW = .ok y := hx
  unfold qEnq
  dsimp only
  rw [if_neg hnd, if_neg (by exact hroom), show qOwner u q = some o from ho]
  dsimp only
  rw [hx']
  rfl

end

/-- TAIL and the entry after an ENQ, at the home of an aligned header and of a slot outside every header (R94). -/
theorem enq_stands {u : State} {q : Queue} (w : Writer) {y : Xl} {img : List Byte} (hmem : q ∈ u.ctl.queues) (hg : GrainsOk u.mem.dir)
    (hql : paLocal (ownDev u.sys) q.pa = true) (hyl : paLocal (ownDev u.sys) y.pa = true) (hoff : OffHeaders u y.pa (qEsize q)) (hlen : qEsize q ≤ img.length)
    (hqat : AtHome u (paOff q.pa) 64) (hyat : AtHome u (paOff y.pa) (qEsize q)) :
    numAt (settleQueues (enqStamped (enqWritten u w q y img) q)) (q.pa + 8) 8 = (numAt u (q.pa + 8) 8 + 1) % 2 ^ 64 ∧
      ∀ j < qEsize q, homeByte (settleQueues (enqStamped (enqWritten u w q y img) q)) (paOff y.pa + j) = img.getD j 0 := by
  have hal := (hoff q hmem).1
  have hrun : (img.take (qEsize q)).length = qEsize q := by rw [List.length_take]; omega
  have hslot := deviceWrite_side u w q.part y.leaf y.pa (img.take (qEsize q))
  have hentry : ∀ j < qEsize q, homeByte (deviceWrite u w q.part y.leaf y.pa (img.take (qEsize q))) (paOff y.pa + j) = img.getD j 0 := fun j hj => by
    rw [deviceWrite_local _ _ _ _ hyl, homeWrite_byte hg w y.leaf (paOff y.pa) _ (hyat j hj).1 (hyat j hj).2 ⟨by omega, by omega⟩,
      show paOff y.pa + j - paOff y.pa = j by omega, List.getD_eq_getElem?_getD, List.getD_eq_getElem?_getD, List.getElem?_take_of_lt hj]
  have hctl := deviceWrite_ctl u w q.part y.leaf y.pa (img.take (qEsize q))
  unfold enqWritten
  generalize deviceWrite u w q.part y.leaf y.pa (img.take (qEsize q)) = s1 at hslot hentry hctl ⊢
  have hg1 := hslot.mem.grains hg
  have hqat1 := hslot.atHome hg hqat
  have hql1 : paLocal (ownDev s1.sys) q.pa = true := by rw [hslot.own]; exact hql
  have htail := deviceWrite_side s1 w q.part q.leaf (q.pa + 8) (natLe (numAt u (q.pa + 8) 8 + 1) 8)
  have hnum := deviceWrite_num w q.part q.leaf (numAt u (q.pa + 8) 8 + 1) hg1 (show (q.pa + 8) % 8 = 0 by omega)
    (by rw [(local_add hal (show 8 < 64 by omega)).1]; exact hql1) (hqat1.number hal (by omega))
  have hctl2 := deviceWrite_ctl s1 w q.part q.leaf (q.pa + 8) (natLe (numAt u (q.pa + 8) 8 + 1) 8)
  unfold hdrPut
  generalize deviceWrite s1 w q.part q.leaf (q.pa + 8) (natLe (numAt u (q.pa + 8) 8 + 1) 8) = s2 at htail hnum hctl2 ⊢
  have hstamp : QueueSide NoByte s2 (enqStamped s2 q) :=
    QueueSide.trans (b := { s2 with ctl := { s2.ctl with stampNo := s2.ctl.stampNo + 1 } })
      ⟨rfl, rfl, rfl, .refl _ _, fun q h => ⟨q, h, rfl, rfl, rfl, rfl⟩⟩ ((QueueSide.refl _ _).modQueue _ _ fun _ => ⟨rfl, rfl, rfl, rfl⟩)
  have hpas : ∀ z ∈ (enqStamped s2 q).ctl.queues, ∃ y0 ∈ u.ctl.queues, y0.pa = z.pa := fun z hz => by
    obtain ⟨z2, hz2, -, hpa, -⟩ := hstamp.from_ z hz
    rw [hctl2, hctl] at hz2
    exact ⟨z2, hz2, hpa⟩
  have hg2 := htail.mem.grains hg1
  refine ⟨?_, fun j hj => ?_⟩
  · refine (settle_num (v := enqStamped s2 q) (.inr rfl) hal hg2 (by rw [hstamp.own, htail.own]; exact hql1) (hstamp.atHome hg2 (htail.atHome hg1 hqat1))
      fun z hz => ?_).trans hnum
    obtain ⟨y0, hy0, hpa⟩ := hpas z hz
    rw [← hpa]
    exact (hoff y0 hy0).1
  · obtain ⟨ha0, -⟩ := hyat j hj
    have ha1 := (hslot.mem.bytes hg _ ha0).1
    have ha2 := (htail.mem.bytes hg1 _ ha1).1
    have hout : ∀ y0 ∈ u.ctl.queues, paOff y.pa + j < paOff y0.pa ∨ paOff y0.pa + 64 ≤ paOff y.pa + j := fun y0 hy0 => by
      have := (hoff y0 hy0).2
      omega
    have hsettle : homeByte (settleQueues (enqStamped s2 q)) (paOff y.pa + j) = homeByte (enqStamped s2 q) (paOff y.pa + j) := by
      refine (settleQueues_side (enqStamped s2 q)).byte hg2 (off_header fun z hz => ?_) ha2
      obtain ⟨y0, hy0, hpa⟩ := hpas z hz
      rw [← hpa]
      exact ⟨(hoff y0 hy0).1, hout y0 hy0⟩
    have hhead : homeByte s2 (paOff y.pa + j) = homeByte s1 (paOff y.pa + j) := by
      refine htail.byte hg1 (fun hr => ?_) ha1
      unfold RunOf at hr
      rw [natLe_length, (local_add (own := 0) hal (show 8 < 64 by omega)).2.2] at hr
      have := hout q hmem
      omega
    exact hsettle.trans (hhead.trans (hentry j hj))

/-! ## DEQ (R94) -/

section
variable {u : State} {q : Queue} {o : Ctx} (ho : findCtx u.ctl.ctxs q.part q.ctx = some o)

theorem qDeq_launch (w : Writer) (h : q.launch = true) : qDeq u w q = (u, ⟨4, 0, []⟩) := by
  unfold qDeq
  dsimp only
  rw [if_pos h]

theorem qDeq_empty (w : Writer) (hl : q.launch = false) (h : numAt u (q.pa + 8) 8 = numAt u q.pa 8) : qDeq u w q = (u, ⟨3, numAt u q.pa 8, []⟩) := by
  unfold qDeq
  dsimp only
  rw [if_neg (by rw [hl]; exact Bool.false_ne_true)]
  exact if_pos h

include ho

theorem qDeq_slot (w : Writer) (hl : q.launch = false) (hne : numAt u (q.pa + 8) 8 ≠ numAt u q.pa 8) {f : FaultCode}
    (hx : xlate u 8 o (qSlot q (numAt u q.pa 8)) needR = .error f) : qDeq u w q = (setQState u q .error 5, qClosed) := by
  have hx' : xlate u 8 o (qSlot q (qHead u q)) needR = .error f := hx
  unfold qDeq
  dsimp only
  rw [if_neg (by rw [hl]; exact Bool.false_ne_true), if_neg (by exact hne), show qOwner u q = some o from ho]
  dsimp only
  rw [hx']
  rfl

/-- The state after a DEQ: HEAD past the entry, and its stamp gone. -/
def deqWritten (u : State) (w : Writer) (q : Queue) : State :=
  modQueue (hdrPut u w q 0 8 (numAt u q.pa 8 + 1)) q.id fun y => { y with stamps := y.stamps.drop 1 }

theorem qDeq_removes (w : Writer) (hl : q.launch = false) (hne : numAt u (q.pa + 8) 8 ≠ numAt u q.pa 8) {y : Xl}
    (hx : xlate u 8 o (qSlot q (numAt u q.pa 8)) needR = .ok y) :
    qDeq u w q = (settleQueues (deqWritten u w q), ⟨0, numAt u q.pa 8, paBytes u y.pa (qEsize q)⟩) := by
  have hx' : xlate u 8 o (qSlot q (qHead u q)) needR = .ok y := hx
  unfold qDeq
  dsimp only
  rw [if_neg (by rw [hl]; exact Bool.false_ne_true), if_neg (by exact hne), show qOwner u q = some o from ho]
  dsimp only
  rw [hx']
  rfl

end

theorem deq_stands {u : State} {q : Queue} (w : Writer) (hal : q.pa % 64 = 0) (hqs : ∀ k ∈ u.ctl.queues, k.pa % 64 = 0) (hg : GrainsOk u.mem.dir)
    (hql : paLocal (ownDev u.sys) q.pa = true) (hqat : AtHome u (paOff q.pa) 64) :
    numAt (settleQueues (deqWritten u w q)) q.pa 8 = (numAt u q.pa 8 + 1) % 2 ^ 64 := by
  have hnum := deviceWrite_num w q.part q.leaf (numAt u q.pa 8 + 1) hg (show q.pa % 8 = 0 by omega) hql (hqat.number (k := 0) hal (by omega))
  have hside : QueueSide _ u (deqWritten u w q) := (deviceWrite_side u w q.part q.leaf q.pa (natLe (numAt u q.pa 8 + 1) 8)).modQueue q.id (fun y => { y with stamps := y.stamps.drop 1 })
    fun _ => ⟨rfl, rfl, rfl, rfl⟩
  exact (settle_num (v := deqWritten u w q) (k := 0) (.inl rfl) hal (hside.mem.grains hg) (by rw [hside.own]; exact hql) (hside.atHome hg hqat)
    (hside.aligned hqs)).trans hnum

end Sys2Proof.Machine
end

section
/-! PROOFS. Proofs/EnqueueWindows.lean: the five commands of a host enqueue window (R90, R91, R93, R94, R100, R322). -/

namespace Sys2Proof.Machine

/-! ## What a window takes, and what it answers (R100) -/

/-- A step of the queues, answered in a window: every context, kernel, gang and group stands as it was. -/
theorem QueueSide.windowed {P : Nat → Prop} {s t : State} (h : QueueSide P s t) (part w st idx : Nat) : Windowed s (hewDone t part w st idx) where
  exe := by
    show t.exe.gangs = _ ∧ t.exe.groups = _
    rw [h.exe]
    exact ⟨rfl, rfl⟩
  ctxs := by
    show t.ctl.ctxs = _
    rw [h.ctl]
  kernels := by
    show t.ctl.kernels = _
    rw [h.ctl]
  ops := h.mem.ops

theorem findPart_modHew (t : State) (part w : Nat) (f : Hew → Hew) :
    findPart (modHew t part w f).ctl.parts part = (findPart t.ctl.parts part).map fun p => { p with hews := modAt p.hews w f } :=
  findPart_modIf t.ctl.parts part (fun p => { p with hews := modAt p.hews w f }) fun _ h => h

section
variable {s : State} {part w : Nat} {p : Partition} (hp : findPart s.ctl.parts part = some p) (hw : w < 8) (hlen : p.hews.length = 8)
include hp hw hlen

theorem QueueSide.answers {P : Nat → Prop} {t : State} (h : QueueSide P s t) (st idx : Nat) : HewAnswer (hewDone t part w st idx) part w st idx :=
  hewDone_answer (p := p) (by rw [h.ctl]; exact hp) (by omega)

/-- The entry that a DEQ returns stands in the window (R100). -/
theorem QueueSide.returns {P : Nat → Prop} {t : State} (h : QueueSide P s t) (ent : List Byte) (st idx : Nat) {v : State}
    (hv : v = hewDone (modHew t part w fun x => { x with entry := smPut x.entry 0 ent }) part w st idx) :
    Windowed s v ∧ HewAnswer v part w st idx ∧ ∃ p', findPart v.ctl.parts part = some p' ∧
      ∀ j < ent.length, smGet (nth p'.hews w {}).entry j = (ent[j]?).getD 0 := by
  have hwindow : Windowed s v := by
    have hdone := h.windowed part w st idx
    subst hv
    exact ⟨hdone.exe, hdone.ctxs, hdone.kernels, hdone.ops⟩
  have h1 := findPart_modHew t part w fun x => { x with entry := smPut x.entry 0 ent }
  rw [h.ctl] at h1
  replace h1 := h1.trans (congrArg _ hp)
  generalize modHew t part w _ = t1 at hv h1
  have h2 := (findPart_modHew t1 part w fun x => { x with cmd := none, status := BitVec.ofNat 32 st, index := BitVec.ofNat 64 idx }).trans (congrArg _ h1)
  subst hv
  refine ⟨hwindow, hewDone_answer h1 (by dsimp only; rw [modAt_length]; omega), _, h2, fun j hj => ?_⟩
  unfold nth
  rw [modAt_get, if_pos rfl, modAt_get, if_pos rfl, List.getElem?_eq_getElem (by omega)]
  show smGet (smPut _ 0 ent) j = _
  rw [smGet_smPut, if_pos ⟨by omega, by omega⟩, Nat.sub_zero]

end

section
variable {s : State} {part w cid n : Nat} {p : Partition} (hp : findPart s.ctl.parts part = some p) (hr : p.state = .run) (hw : w < 8)

theorem hewTakes_iff : p.state = .run → w < 8 → (hewTakes p w n cid = true ↔ HewTakes p w n cid) := by
  intro hr hw
  unfold hewTakes HewTakes hewOf
  simp [hr, hw]

include hp

/-- A window of an interface that is not in RUN, or that is none, takes no command (R404). -/
theorem hewCmd_closed (h : p.state ≠ .run ∨ 8 ≤ w) (f : State → Partition → Xl → State) : hewCmd s part w n cid f = .next s := by
  have : hewTakes p w n cid = false := by
    unfold hewTakes
    rcases h with h | h
    · simp [h]
    · simp [Nat.not_lt.2 h]
  unfold hewCmd
  rw [hp]
  dsimp only
  rw [this]
  rfl

include hr hw

theorem hewCmd_busy (h : ¬ HewTakes p w n cid) (f : State → Partition → Xl → State) : hewCmd s part w n cid f = .next s := by
  unfold hewCmd
  rw [hp]
  dsimp only
  rw [Bool.eq_false_iff.2 fun ht => h ((hewTakes_iff hr hw).1 ht)]
  rfl

theorem hewCmd_down (ht : HewTakes p w n cid) (h : ∀ c, findCtx s.ctl.ctxs part cid = some c → c.state = .free ∨ c.state = .retired)
    (f : State → Partition → Xl → State) : hewCmd s part w n cid f = .next (hewRefused s part w 8 0) := by
  unfold hewCmd
  rw [hp]
  dsimp only
  rw [(hewTakes_iff hr hw).2 ht, if_neg (by decide)]
  cases hc : findCtx s.ctl.ctxs part cid with
  | none => rfl
  | some c =>
    have : ctxUp c = false := by
      unfold ctxUp
      rcases h c hc with h | h <;> rw [h] <;> rfl
    dsimp only
    rw [this]
    rfl

theorem hewCmd_bad (ht : HewTakes p w n cid) {c : Ctx} (hc : findCtx s.ctl.ctxs part cid = some c) (hf : c.state ≠ .free) (hret : c.state ≠ .retired)
    (h : (nth p.hews w {}).queue.toNat % 64 ≠ 0 ∨ ∃ f, xlate s 8 c (nth p.hews w {}).queue.toNat needRW = .error f) (f : State → Partition → Xl → State) :
    hewCmd s part w n cid f = .next (hewRefused s part w 12 0) := by
  have hup : ctxUp c = true := by
    unfold ctxUp
    simp [hf, hret]
  unfold hewCmd
  rw [hp]
  dsimp only
  rw [(hewTakes_iff hr hw).2 ht, if_neg (by decide), hc]
  dsimp only
  unfold hewOf
  rw [hup, if_neg (by decide)]
  by_cases ha : (nth p.hews w {}).queue.toNat % 64 = 0
  · obtain ⟨e, he⟩ := h.resolve_left fun hn => hn ha
    rw [if_neg fun hn => hn ha, he]
    rfl
  · rw [if_pos ha]
    rfl

/-! ## BIND (R90, R93) -/

theorem hewBind_eq (ht : HewTakes p w 3 cid) : exec (.hewBind part w cid) s =
    .next (hewDone (qBind s (findCtx s.ctl.ctxs part cid) cid (nth p.hews w {}).queue.toNat).1 part w
      (qBind s (findCtx s.ctl.ctxs part cid) cid (nth p.hews w {}).queue.toNat).2 0) := by
  rw [exec_hewBind]
  unfold execHewBind
  rw [hp]
  dsimp only
  rw [(hewTakes_iff hr hw).2 ht]
  rfl

theorem hewBind_busy (h : ¬ HewTakes p w 3 cid) : exec (.hewBind part w cid) s = .next s := by
  rw [exec_hewBind]
  unfold execHewBind
  rw [hp]
  dsimp only
  rw [Bool.eq_false_iff.2 fun ht => h ((hewTakes_iff hr hw).1 ht)]
  rfl

theorem hewBind_answers (ht : HewTakes p w 3 cid) {n : Nat}
    (h : qBind s (findCtx s.ctl.ctxs part cid) cid (nth p.hews w {}).queue.toNat = (s, n)) : exec (.hewBind part w cid) s = .next (hewRefused s part w n 0) := by
  rw [hewBind_eq hp hr hw ht, h]
  rfl

end

theorem hewBind_closed {s : State} {part w cid : Nat} {p : Partition} (hp : findPart s.ctl.parts part = some p) (h : p.state ≠ .run ∨ 8 ≤ w) :
    exec (.hewBind part w cid) s = .next s := by
  have : hewTakes p w 3 cid = false := by
    unfold hewTakes
    rcases h with h | h
    · simp [h]
    · simp [Nat.not_lt.2 h]
  rw [exec_hewBind]
  unfold execHewBind
  rw [hp]
  dsimp only
  rw [this]
  rfl

theorem mayBind_iff (c : Ctx) : MayBind c ↔ bindUp c = true := by
  unfold MayBind bindUp
  simp only [Bool.or_eq_true, beq_iff_eq, or_assoc]

section
variable {s : State} {part cid va : Nat} {c : Ctx}

theorem qBind_bad (h : va % 64 ≠ 0 ∨ ¬ MayBind c ∨ ∃ f, xlate s 8 c va needW = .error f) : qBind s (some c) cid va = (s, 10) := by
  unfold qBind
  dsimp only
  by_cases ha : va % 64 ≠ 0 ∨ bindUp c = false
  · rw [if_pos ha]
  · rw [if_neg ha]
    push Not at ha
    obtain ⟨f, hf⟩ := (h.resolve_left fun hn => hn ha.1).resolve_left fun hn => hn ((mayBind_iff c).2 (by simpa using ha.2))
    rw [hf]

variable (hc : findCtx s.ctl.ctxs part cid = some c) {x : Xl} (ha : va % 64 = 0) (hm : MayBind c) (hx : xlate s 8 c va needW = .ok x)
include ha hm hx

theorem qBind_bound (h : (queueAt s.ctl.queues x.pa).isSome = true) : qBind s (some c) cid va = (s, 8) := by
  unfold qBind
  dsimp only
  rw [if_neg (by rw [(mayBind_iff c).1 hm]; simp [ha]), hx]
  dsimp only
  rw [if_pos h]

include hc

theorem qBind_free (h : queueAt s.ctl.queues x.pa = none) : qBind s (some c) cid va =
    if !bindOk (paBytes s x.pa 64) c.cid then (s, 10)
    else if (bindQueue s c va x.pa x.leaf (paBytes s x.pa 64)).launch && decide (256 ≤ (s.ctl.queues.filter fun y => y.launch && y.part == part).length) then (s, 11)
    else (settleQueues (hdrPut (hubHold { s with
        exe := { s.exe with nextId := s.exe.nextId + 1 }
        ctl := { s.ctl with queues := s.ctl.queues ++ [bindQueue s c va x.pa x.leaf (paBytes s x.pa 64)], stampNo := s.ctl.stampNo + 1 } } x.leaf x.pa)
        .nobody (bindQueue s c va x.pa x.leaf (paBytes s x.pa 64)) 0x1B 1 (qCode .bound)), 0) := by
  obtain ⟨hpart, hcid⟩ := findCtx_ids hc
  unfold qBind
  dsimp only
  rw [if_neg (by rw [(mayBind_iff c).1 hm]; simp [ha]), hx]
  dsimp only
  rw [h, if_neg (by decide), hcid, hpart]

theorem qBind_latches (h : queueAt s.ctl.queues x.pa = none) (hgood : HeaderGood s c x.pa)
    (hroom : numAt s (x.pa + 0x1A) 1 = 0 → (s.ctl.queues.filter fun y => y.launch && y.part == part).length < 256) (hids : ∀ q ∈ s.ctl.queues, q.id ≠ s.exe.nextId) :
    ∃ t q, qBind s (some c) cid va = (t, 0) ∧ t.exe.gangs = s.exe.gangs ∧ t.exe.groups = s.exe.groups ∧ t.ctl.ctxs = s.ctl.ctxs ∧ t.ctl.kernels = s.ctl.kernels ∧
      t.ctl.parts = s.ctl.parts ∧ t.mem.ops = s.mem.ops ∧ q ∈ t.ctl.queues ∧ Latched s c va x.pa q ∧ (q.state = .bound ∨ q.state = .active) := by
  have hlatched := latched_of s c va x.pa x.leaf
  have hnew : (bindQueue s c va x.pa x.leaf (paBytes s x.pa 64)).id = s.exe.nextId ∧ (bindQueue s c va x.pa x.leaf (paBytes s x.pa 64)).state = .bound := ⟨rfl, rfl⟩
  have he := qBind_free hc ha hm hx h
  rw [headerGood_iff.1 hgood, if_neg (by decide), if_neg] at he
  · generalize bindQueue s c va x.pa x.leaf (paBytes s x.pa 64) = q0 at he hlatched hnew
    generalize hs0 : ({ s with exe := { s.exe with nextId := s.exe.nextId + 1 }, ctl := { s.ctl with queues := s.ctl.queues ++ [q0], stampNo := s.ctl.stampNo + 1 } } : State) = s0 at he
    have hside : QueueSide (fun _ => True) s0 (settleQueues (hdrPut (hubHold s0 x.leaf x.pa) .nobody q0 0x1B 1 (qCode .bound))) :=
      (((hubHold_side s0 x.leaf x.pa).queue.mono fun _ _ => trivial).trans ((deviceWrite_side ..).mono fun _ _ => trivial)).trans
        ((settleQueues_side _).mono fun _ _ => trivial)
    have hqueues : (hdrPut (hubHold s0 x.leaf x.pa) .nobody q0 0x1B 1 (qCode .bound)).ctl.queues = s.ctl.queues ++ [q0] := by
      unfold hdrPut
      rw [deviceWrite_ctl, (hubHold_side ..).ctl, ← hs0]
    have hfresh : Fresh q0 (hdrPut (hubHold s0 x.leaf x.pa) .nobody q0 0x1B 1 (qCode .bound)) := by
      refine ⟨⟨q0, by rw [hqueues]; simp, rfl⟩, fun z hz hid => ?_⟩
      rw [hqueues] at hz
      rcases List.mem_append.1 hz with hz | hz
      · exact absurd (hid.trans hnew.1) (hids z hz)
      · rw [List.mem_singleton.1 hz]
        exact .inl hnew.2
    obtain ⟨⟨q, hq, hsame⟩, hstates⟩ := fresh_settle hfresh
    generalize settleQueues (hdrPut (hubHold s0 x.leaf x.pa) .nobody q0 0x1B 1 (qCode .bound)) = t at he hside hq hstates
    have hlast : Latched s c va x.pa q := by
      have hq0 : Latched s c va x.pa { q0 with state := .bound } := hlatched
      rw [← hsame] at hq0
      exact hq0
    have hid : q.id = q0.id := by
      have := congrArg Queue.id hsame
      exact this
    refine ⟨t, q, he, ?_, ?_, ?_, ?_, ?_, ?_, hq, hlast, hstates q hq hid⟩
    · rw [hside.exe, ← hs0]
    · rw [hside.exe, ← hs0]
    · rw [hside.ctl, ← hs0]
    · rw [hside.ctl, ← hs0]
    · rw [hside.ctl, ← hs0]
    · rw [hside.mem.ops, ← hs0]
  · obtain ⟨-, -, -, -, hlaunch, -⟩ := hlatched
    rw [Bool.and_eq_true, decide_eq_true_iff]
    rintro ⟨hl, hfull⟩
    have := hroom (hlaunch.1 hl)
    omega

end

end Sys2Proof.Machine
end

section
/-! PROOFS. Proofs/WindowCommands.lean: ENQ, DEQ, DRAIN and RESET at a header that passes the checks, and O47 (R91, R94, R100). -/

namespace Sys2Proof.Machine

/-! ## The queue after the hub die's read, and what an answer says of it (R94) -/

theorem hubHold_queue {s : State} {pa : Nat} {q : Queue} (hq : queueAt s.ctl.queues pa = some q) (leaf pa' : Nat) :
    queueAt (hubHold s leaf pa').ctl.queues pa = some q := by
  rw [(hubHold_side ..).ctl]
  exact hq

theorem hubHold_owner {s : State} {part cid : Nat} {o : Ctx} (ho : findCtx s.ctl.ctxs part cid = some o) (leaf pa : Nat) :
    findCtx (hubHold s leaf pa).ctl.ctxs part cid = some o := by
  rw [(hubHold_side ..).ctl]
  exact ho

theorem enqAnswer_room {u : State} {pa : Nat} {q : Queue} (hu : queueAt u.ctl.queues pa = some q) (hes : q.esize ≤ 3) (ha : (windowAnswer u pa true).st = 0) :
    q.state ≠ .error ∧ q.state ≠ .draining ∧ numAt u (q.pa + 8) 8 - numAt u q.pa 8 ≠ 2 ^ q.cap ∧ (windowAnswer u pa true).idx = numAt u (q.pa + 8) 8 := by
  rw [windowAnswer_enq hu hes] at ha ⊢
  by_cases hst : q.state = .error ∨ q.state = .draining
  · rw [if_pos hst] at ha
    cases ha
  · rw [if_neg hst] at ha ⊢
    by_cases hfull : numAt u (q.pa + 8) 8 - numAt u q.pa 8 = 2 ^ q.cap
    · rw [if_pos hfull] at ha
      cases ha
    · rw [if_neg hfull]
      push Not at hst
      exact ⟨hst.1, hst.2, hfull, rfl⟩

/-- Window `w` of a partition in RUN names the header at `x`, which a context that is up reaches (R100, R404). -/
structure HeaderAt (s : State) (part w cid : Nat) (p : Partition) (c : Ctx) (x : Xl) : Prop where
  found : findPart s.ctl.parts part = some p
  runs : p.state = .run
  window : w < 8
  windows : p.hews.length = 8
  owner : findCtx s.ctl.ctxs part cid = some c
  used : c.state ≠ .free
  kept : c.state ≠ .retired
  aligned : (nth p.hews w {}).queue.toNat % 64 = 0
  maps : xlate s 8 c (nth p.hews w {}).queue.toNat needRW = .ok x

section
variable {s : State} {part w cid : Nat} {p : Partition} {c : Ctx} {x : Xl} (h : HeaderAt s part w cid p c x)
include h

theorem HeaderAt.cmd {n : Nat} (ht : HewTakes p w n cid) {f : State → Partition → Xl → State} {i : Instr} (hi : exec i s = hewCmd s part w n cid f) :
    exec i s = .next (f (hubHold s x.leaf x.pa) p x) :=
  hi.trans <| hewCmd_eq h.found h.runs h.window ht h.owner h.used h.kept h.aligned h.maps f

/-- A step of the queues after the hub die's read, answered in the window. -/
theorem HeaderAt.answers {P : Nat → Prop} {t : State} (ht : QueueSide P (hubHold s x.leaf x.pa) t) (st idx : Nat) :
    HewAnswer (hewDone t part w st idx) part w st idx ∧ Windowed s (hewDone t part w st idx) := by
  have hside : QueueSide (fun _ => True) s t := ((hubHold_side s x.leaf x.pa).queue.mono fun _ _ => trivial).trans (ht.mono fun _ _ => trivial)
  exact ⟨hside.answers h.found h.window h.windows st idx, hside.windowed part w st idx⟩

/-- The same, with an entry returned in HEW_ENTRY. -/
theorem HeaderAt.returns {P : Nat → Prop} {t : State} (ht : QueueSide P (hubHold s x.leaf x.pa) t) (ent : List Byte) (st idx : Nat) {v : State}
    (hv : v = hewDone (modHew t part w fun x => { x with entry := smPut x.entry 0 ent }) part w st idx) :
    Windowed s v ∧ HewAnswer v part w st idx ∧ ∃ p', findPart v.ctl.parts part = some p' ∧
      ∀ j < ent.length, smGet (nth p'.hews w {}).entry j = (ent[j]?).getD 0 := by
  have hside : QueueSide (fun _ => True) s t := ((hubHold_side s x.leaf x.pa).queue.mono fun _ _ => trivial).trans (ht.mono fun _ _ => trivial)
  exact hside.returns h.found h.window h.windows ent st idx hv

/-! ## DRAIN and RESET (R91) -/

theorem hewDrain_none (ht : HewTakes p w 4 cid) (hq : queueAt s.ctl.queues x.pa = none) :
    exec (.hewDrain part w cid) s = .next (hewRefused (hubHold s x.leaf x.pa) part w 8 0) := by
  refine (h.cmd ht (exec_hewDrain part w cid s)).trans ?_
  rw [(hubHold_side ..).ctl, hq]
  rfl

theorem hewReset_none (ht : HewTakes p w 5 cid) (hq : queueAt s.ctl.queues x.pa = none) :
    exec (.hewReset part w cid) s = .next (hewRefused (hubHold s x.leaf x.pa) part w 8 0) := by
  refine (h.cmd ht (exec_hewReset part w cid s)).trans ?_
  rw [(hubHold_side ..).ctl, hq]
  rfl

theorem hewEnq_eq (ht : HewTakes p w 1 cid) {t : State} {a : QAns}
    (ha : qPerform (hubHold s x.leaf x.pa) .nobody x.pa true none (smRun (nth p.hews w {}).entry 0 256) false = (t, a)) :
    exec (.hewEnq part w cid) s = .next (hewDone t part w a.st a.idx) := by
  refine (h.cmd ht (exec_hewEnq part w cid s)).trans ?_
  unfold hewOf
  rw [ha]

theorem hewDeq_eq (ht : HewTakes p w 2 cid) {t : State} {a : QAns}
    (ha : qPerform (hubHold s x.leaf x.pa) .nobody x.pa false none [] false = (t, a)) :
    exec (.hewDeq part w cid) s = .next (hewDone (modHew t part w fun h => { h with entry := smPut h.entry 0 a.ent }) part w a.st a.idx) := by
  refine (h.cmd ht (exec_hewDeq part w cid s)).trans ?_
  rw [ha]

theorem hewEnq_none (ht : HewTakes p w 1 cid) (hq : queueAt s.ctl.queues x.pa = none) :
    exec (.hewEnq part w cid) s = .next (hewRefused (hubHold s x.leaf x.pa) part w 2 0) := by
  refine hewEnq_eq h ht (a := qClosed) ?_
  unfold qPerform
  rw [(hubHold_side ..).ctl, hq]

section
variable {q : Queue} (hq : queueAt s.ctl.queues x.pa = some q)
include hq

theorem hewDrain_drains (ht : HewTakes p w 4 cid) (hst : q.state = .bound ∨ q.state = .active ∨ q.state = .stalled) :
    ∃ t, exec (.hewDrain part w cid) s = .next t ∧ HewAnswer t part w 0 0 ∧ Windowed s t ∧ ∀ y ∈ t.ctl.queues, y.id = q.id → y.state = .draining := by
  obtain ⟨hanswer, hwindow⟩ := h.answers (((setQState_side (s := hubHold s x.leaf x.pa) (q := q) .draining 0).mono (Q := fun _ => True) fun _ _ => trivial).trans
    ((settleQueues_side _).mono fun _ _ => trivial)) 0 0
  refine ⟨_, (h.cmd ht (exec_hewDrain part w cid s)).trans ?_, hanswer, hwindow, draining_settle (setQState_all _ q .draining 0)⟩
  rw [(hubHold_side ..).ctl, hq]
  exact congrArg Host.Outcome.next (if_pos hst)

theorem hewDrain_refuses (ht : HewTakes p w 4 cid) (hb : q.state ≠ .bound) (ha : q.state ≠ .active) (hs : q.state ≠ .stalled) :
    exec (.hewDrain part w cid) s = .next (hewRefused (hubHold s x.leaf x.pa) part w 8 0) := by
  refine (h.cmd ht (exec_hewDrain part w cid s)).trans ?_
  rw [(hubHold_side ..).ctl, hq]
  exact congrArg Host.Outcome.next (if_neg fun hn => hn.elim hb fun hn => hn.elim ha hs)

theorem hewReset_eq (ht : HewTakes p w 5 cid) : exec (.hewReset part w cid) s =
    .next (if q.state = .error && !(((findCtx s.ctl.ctxs q.part q.ctx).map fun o => o.state == .halting).getD false) then
      hewDone (setQState (hubHold s x.leaf x.pa) q .unbound 0) part w 0 0 else hewRefused (hubHold s x.leaf x.pa) part w 8 0) := by
  refine (h.cmd ht (exec_hewReset part w cid s)).trans ?_
  unfold qOwner
  rw [(hubHold_side ..).ctl, hq]
  dsimp only
  cases findCtx s.ctl.ctxs q.part q.ctx <;> rfl

theorem hewReset_unbinds (ht : HewTakes p w 5 cid) (hst : q.state = .error) (ho : ∀ o, findCtx s.ctl.ctxs q.part q.ctx = some o → o.state ≠ .halting) :
    ∃ t, exec (.hewReset part w cid) s = .next t ∧ HewAnswer t part w 0 0 ∧ Windowed s t ∧ ∀ y ∈ t.ctl.queues, y.id ≠ q.id := by
  obtain ⟨hanswer, hwindow⟩ := h.answers (setQState_side (q := q) .unbound 0) 0 0
  refine ⟨_, (hewReset_eq h hq ht).trans (congrArg Host.Outcome.next (if_pos ?_)), hanswer, hwindow, fun y hy => ?_⟩
  · rw [hst]
    cases hc : findCtx s.ctl.ctxs q.part q.ctx with
    | none => rfl
    | some o => simp [ho o hc]
  · replace hy : y ∈ (setQState (hubHold s x.leaf x.pa) q .unbound 0).ctl.queues := hy
    rw [setQState_queues, if_pos rfl] at hy
    exact bne_iff_ne.1 (List.mem_filter.1 hy).2

theorem hewReset_refuses (ht : HewTakes p w 5 cid) (hst : q.state ≠ .error ∨ ∃ o, findCtx s.ctl.ctxs q.part q.ctx = some o ∧ o.state = .halting) :
    exec (.hewReset part w cid) s = .next (hewRefused (hubHold s x.leaf x.pa) part w 8 0) := by
  refine (hewReset_eq h hq ht).trans (congrArg Host.Outcome.next (if_neg ?_))
  rcases hst with hst | ⟨o, ho, hhalt⟩
  · simp [hst]
  · simp [ho, hhalt]

/-! ## ENQ and DEQ (R94) -/

section
variable (hes : q.esize ≤ 3) {o : Ctx} (ho : findCtx s.ctl.ctxs q.part q.ctx = some o)

include hes

theorem hewEnq_closed (ht : HewTakes p w 1 cid) (ha : (windowAnswer (hubHold s x.leaf x.pa) x.pa true).st = 2) :
    exec (.hewEnq part w cid) s = .next (hewRefused (hubHold s x.leaf x.pa) part w 2 0) := by
  have hu := hubHold_queue hq x.leaf x.pa
  rw [windowAnswer_enq hu hes] at ha
  refine hewEnq_eq h ht (qPerform_closed hu .nobody _ ?_)
  by_contra hst
  rw [if_neg fun hn => hst (hn.imp_right fun hd => ⟨rfl, hd⟩)] at ha
  split at ha <;> cases ha

theorem hewEnq_full (ht : HewTakes p w 1 cid) (ha : (windowAnswer (hubHold s x.leaf x.pa) x.pa true).st = 1) (hg : GrainsOk (hubHold s x.leaf x.pa).mem.dir)
    (hl : paLocal (ownDev s.sys) q.pa = true) (hal : q.pa % 64 = 0) (hat : AtHome (hubHold s x.leaf x.pa) (paOff q.pa) 64) :
    ∃ t, exec (.hewEnq part w cid) s = .next t ∧ HewAnswer t part w 1 (windowAnswer (hubHold s x.leaf x.pa) x.pa true).idx ∧ Windowed s t ∧
      t.ctl.queues = s.ctl.queues ∧ numAt t (q.pa + 0x20) 8 = (numAt (hubHold s x.leaf x.pa) (q.pa + 0x20) 8 + 1) % 2 ^ 64 := by
  have hu := hubHold_queue hq x.leaf x.pa
  have hctl := (hubHold_side s x.leaf x.pa).ctl
  rw [← (hubHold_side s x.leaf x.pa).sys] at hl
  have hans := h.answers (t := hdrPut (hubHold s x.leaf x.pa) .nobody q 0x20 8 (numAt (hubHold s x.leaf x.pa) (q.pa + 0x20) 8 + 1)) (deviceWrite_side ..) 1
    (windowAnswer (hubHold s x.leaf x.pa) x.pa true).idx
  have he := fun t a => hewEnq_eq h ht (t := t) (a := a)
  generalize hubHold s x.leaf x.pa = u at hu hctl hl ha hg hat hans he ⊢
  rw [windowAnswer_enq hu hes] at ha hans ⊢
  by_cases hst : q.state = .error ∨ q.state = .draining
  · rw [if_pos hst] at ha
    cases ha
  · rw [if_neg hst] at ha hans ⊢
    by_cases hfull : numAt u (q.pa + 8) 8 - numAt u q.pa 8 = 2 ^ q.cap
    · rw [if_pos hfull] at hans ⊢
      push Not at hst
      have hperf := (qPerform_window hu .nobody (smRun (nth p.hews w {}).entry 0 256) hst.1 fun _ => hst.2).trans
        ((if_pos rfl).trans (qEnq_full .nobody (smRun (nth p.hews w {}).entry 0 256) hst.2 hfull))
      refine ⟨_, he _ _ hperf, hans.1, hans.2, ?_, ?_⟩
      · show (deviceWrite ..).ctl.queues = _
        rw [deviceWrite_ctl, hctl]
      · exact deviceWrite_num .nobody q.part q.leaf _ hg (by omega) (by rw [(local_add hal (show 0x20 < 64 by omega)).1]; exact hl) (hat.number hal (by omega))
    · rw [if_neg hfull] at ha
      cases ha

include ho

theorem hewEnq_slot (ht : HewTakes p w 1 cid) (hx : ∃ f, xlate (hubHold s x.leaf x.pa) 8 o (qSlot q (numAt (hubHold s x.leaf x.pa) (q.pa + 8) 8)) needW = .error f)
    (ha : (windowAnswer (hubHold s x.leaf x.pa) x.pa true).st = 0) :
    ∃ t, exec (.hewEnq part w cid) s = .next t ∧ HewAnswer t part w 2 0 ∧ Windowed s t ∧ ∀ y ∈ t.ctl.queues, y.id = q.id → y.state = .error := by
  have hu := hubHold_queue hq x.leaf x.pa
  obtain ⟨hne, hnd, hroom, -⟩ := enqAnswer_room hu hes ha
  obtain ⟨f, hf⟩ := hx
  obtain ⟨hanswer, hwindow⟩ := h.answers (setQState_side (q := q) .error 5) 2 0
  exact ⟨_, hewEnq_eq h ht ((qPerform_window hu .nobody _ hne fun _ => hnd).trans
    ((if_pos rfl).trans (qEnq_slot (hubHold_owner ho x.leaf x.pa) .nobody _ hnd hroom hf))), hanswer, hwindow, setQState_all _ q .error 5⟩

theorem hewEnq_appends (ht : HewTakes p w 1 cid) {y : Xl} (hx : xlate (hubHold s x.leaf x.pa) 8 o (qSlot q (numAt (hubHold s x.leaf x.pa) (q.pa + 8) 8)) needW = .ok y)
    (ha : (windowAnswer (hubHold s x.leaf x.pa) x.pa true).st = 0) (hg : GrainsOk (hubHold s x.leaf x.pa).mem.dir) (hl : paLocal (ownDev s.sys) q.pa = true)
    (hyl : paLocal (ownDev s.sys) y.pa = true) (hoff : OffHeaders s y.pa (qEsize q)) (hat : AtHome (hubHold s x.leaf x.pa) (paOff q.pa) 64)
    (hyat : AtHome (hubHold s x.leaf x.pa) (paOff y.pa) (qEsize q)) :
    ∃ t, exec (.hewEnq part w cid) s = .next t ∧ HewAnswer t part w 0 (windowAnswer (hubHold s x.leaf x.pa) x.pa true).idx ∧ Windowed s t ∧
      numAt t (q.pa + 8) 8 = (numAt (hubHold s x.leaf x.pa) (q.pa + 8) 8 + 1) % 2 ^ 64 ∧
      ∀ j < qEsize q, homeByte t (paOff y.pa + j) = smGet (nth p.hews w {}).entry j := by
  have hu := hubHold_queue hq x.leaf x.pa
  obtain ⟨hne, hnd, hroom, hidx⟩ := enqAnswer_room hu hes ha
  have hlen : qEsize q ≤ (smRun (nth p.hews w {}).entry 0 256).length := by
    rw [smRun_length]
    unfold qEsize
    exact (Nat.mul_le_mul_left 32 (Nat.pow_le_pow_right (by decide) hes)).trans (by decide)
  have hperf := (qPerform_window hu .nobody (smRun (nth p.hews w {}).entry 0 256) hne fun _ => hnd).trans
    ((if_pos rfl).trans (qEnq_appends (hubHold_owner ho x.leaf x.pa) .nobody (smRun (nth p.hews w {}).entry 0 256) hnd hroom hx))
  have hside := qPerform_side (hubHold s x.leaf x.pa) .nobody x.pa true none (smRun (nth p.hews w {}).entry 0 256) false
  rw [hperf] at hside
  obtain ⟨hanswer, hwindow⟩ := h.answers hside 0 (windowAnswer (hubHold s x.leaf x.pa) x.pa true).idx
  have hoff' : OffHeaders (hubHold s x.leaf x.pa) y.pa (qEsize q) := by
    unfold OffHeaders
    rw [(hubHold_side ..).ctl]
    exact hoff
  have hstands := enq_stands (u := hubHold s x.leaf x.pa) .nobody (img := smRun (nth p.hews w {}).entry 0 256) (queueAt_some hu).1 hg
    (by rw [(hubHold_side ..).sys]; exact hl) (by rw [(hubHold_side ..).sys]; exact hyl) hoff' hlen hat hyat
  refine ⟨_, hewEnq_eq h ht hperf, hidx ▸ hanswer, hidx ▸ hwindow, hstands.1, fun j hj => (hstands.2 j hj).trans ?_⟩
  have hj256 : j < 256 := by rw [smRun_length] at hlen; omega
  rw [List.getD_eq_getElem?_getD, smRun_get _ _ _ _ hj256, Nat.zero_add]

omit hes in
theorem hewDeq_slot (ht : HewTakes p w 2 cid) (hx : ∃ f, xlate (hubHold s x.leaf x.pa) 8 o (qSlot q (numAt (hubHold s x.leaf x.pa) q.pa 8)) needR = .error f)
    (hne : q.state ≠ .error) (hl : q.launch = false) (hsome : numAt (hubHold s x.leaf x.pa) (q.pa + 8) 8 ≠ numAt (hubHold s x.leaf x.pa) q.pa 8) :
    ∃ t, exec (.hewDeq part w cid) s = .next t ∧ HewAnswer t part w 2 0 ∧ Windowed s t ∧ ∀ y ∈ t.ctl.queues, y.id = q.id → y.state = .error := by
  have hu := hubHold_queue hq x.leaf x.pa
  obtain ⟨f, hf⟩ := hx
  have hperf := (qPerform_window hu .nobody [] hne fun hn => by cases hn).trans
    ((if_neg Bool.false_ne_true).trans (qDeq_slot (hubHold_owner ho x.leaf x.pa) .nobody hl hsome hf))
  obtain ⟨hwindow, hanswer, -⟩ := h.returns (setQState_side (s := hubHold s x.leaf x.pa) (q := q) .error 5) [] 2 0 rfl
  exact ⟨_, hewDeq_eq h ht hperf, hanswer, hwindow, setQState_all _ q .error 5⟩

theorem hewDeq_removes (ht : HewTakes p w 2 cid) {y : Xl} (hx : xlate (hubHold s x.leaf x.pa) 8 o (qSlot q (numAt (hubHold s x.leaf x.pa) q.pa 8)) needR = .ok y)
    (ha : (windowAnswer (hubHold s x.leaf x.pa) x.pa false).st = 0) (hg : GrainsOk (hubHold s x.leaf x.pa).mem.dir) (hl : paLocal (ownDev s.sys) q.pa = true)
    (hqs : ∀ k ∈ s.ctl.queues, k.pa % 64 = 0) (hat : AtHome (hubHold s x.leaf x.pa) (paOff q.pa) 64) :
    ∃ t, exec (.hewDeq part w cid) s = .next t ∧ HewAnswer t part w 0 (windowAnswer (hubHold s x.leaf x.pa) x.pa false).idx ∧ Windowed s t ∧
      numAt t q.pa 8 = (numAt (hubHold s x.leaf x.pa) q.pa 8 + 1) % 2 ^ 64 ∧ ∃ p', findPart t.ctl.parts part = some p' ∧ ∀ j < qEsize q,
        smGet (nth p'.hews w {}).entry j = spaceByte (hubHold s x.leaf x.pa) (y.pa + j) := by
  have hu := hubHold_queue hq x.leaf x.pa
  have hown := hubHold_owner ho x.leaf x.pa
  rw [windowAnswer_deq hu hes] at ha ⊢
  by_cases hst : q.state = .error
  · rw [if_pos hst] at ha
    cases ha
  by_cases hlaunch : q.launch = true
  · rw [if_neg hst, if_pos hlaunch] at ha
    cases ha
  by_cases hempty : numAt (hubHold s x.leaf x.pa) (q.pa + 8) 8 = numAt (hubHold s x.leaf x.pa) q.pa 8
  · rw [if_neg hst, if_neg hlaunch, if_pos hempty] at ha
    cases ha
  rw [if_neg hst, if_neg hlaunch, if_neg hempty, hown, Option.map_some, hx]
  have hperf := (qPerform_window hu .nobody [] hst fun hn => by cases hn).trans
    ((if_neg Bool.false_ne_true).trans (qDeq_removes hown .nobody (Bool.eq_false_iff.2 hlaunch) hempty hx))
  have hside := qPerform_side (hubHold s x.leaf x.pa) .nobody x.pa false none [] false
  rw [hperf] at hside
  obtain ⟨hwindow, hanswer, p', hp', hentry⟩ := h.returns hside (paBytes (hubHold s x.leaf x.pa) y.pa (qEsize q)) 0 (numAt (hubHold s x.leaf x.pa) q.pa 8) rfl
  obtain ⟨hmem, -, -⟩ := queueAt_some hq
  refine ⟨_, hewDeq_eq h ht hperf, hanswer, hwindow, ?_, p', hp', fun j hj => ?_⟩
  · exact deq_stands .nobody (hqs q hmem) (by rw [(hubHold_side ..).ctl]; exact hqs) hg (by rw [(hubHold_side ..).sys]; exact hl) hat
  · have hlen : (paBytes (hubHold s x.leaf x.pa) y.pa (qEsize q)).length = qEsize q := by
      unfold paBytes
      rw [List.length_map, List.length_range]
    rw [hentry j (by omega)]
    unfold paBytes
    rw [List.getElem?_map, List.getElem?_range hj]
    rfl

end

theorem hewDeq_keeps (ht : HewTakes p w 2 cid) (hes : q.esize ≤ 3) (ha : (windowAnswer (hubHold s x.leaf x.pa) x.pa false).st = 3 ∨
      (windowAnswer (hubHold s x.leaf x.pa) x.pa false).st = 4 ∨ q.state = .error) :
    ∃ t, exec (.hewDeq part w cid) s = .next t ∧
      HewAnswer t part w (windowAnswer (hubHold s x.leaf x.pa) x.pa false).st (windowAnswer (hubHold s x.leaf x.pa) x.pa false).idx ∧
      Windowed s t ∧ t.mem = (hubHold s x.leaf x.pa).mem ∧ t.ctl.queues = s.ctl.queues := by
  have hu := hubHold_queue hq x.leaf x.pa
  have hperf : qPerform (hubHold s x.leaf x.pa) .nobody x.pa false none [] false =
      (hubHold s x.leaf x.pa, ⟨(windowAnswer (hubHold s x.leaf x.pa) x.pa false).st, (windowAnswer (hubHold s x.leaf x.pa) x.pa false).idx, []⟩) := by
    rw [windowAnswer_deq hu hes] at ha ⊢
    by_cases hst : q.state = .error
    · rw [if_pos hst]
      exact qPerform_closed hu .nobody [] (.inl hst)
    rw [if_neg hst] at ha ⊢
    rw [qPerform_window hu .nobody [] hst (fun hn => absurd hn Bool.false_ne_true), if_neg Bool.false_ne_true]
    by_cases hlaunch : q.launch = true
    · rw [if_pos hlaunch]
      exact qDeq_launch .nobody hlaunch
    rw [if_neg hlaunch] at ha ⊢
    by_cases hempty : numAt (hubHold s x.leaf x.pa) (q.pa + 8) 8 = numAt (hubHold s x.leaf x.pa) q.pa 8
    · rw [if_pos hempty]
      exact qDeq_empty .nobody (Bool.eq_false_iff.2 hlaunch) hempty
    rw [if_neg hempty] at ha
    rcases ha with ha | ha | ha
    · split at ha <;> cases ha
    · split at ha <;> cases ha
    · exact absurd ha hst
  obtain ⟨hwindow, hanswer, -⟩ := h.returns (.refl (fun _ => True) _) [] (windowAnswer (hubHold s x.leaf x.pa) x.pa false).st
    (windowAnswer (hubHold s x.leaf x.pa) x.pa false).idx rfl
  refine ⟨_, hewDeq_eq h ht hperf, hanswer, hwindow, rfl, ?_⟩
  show (hubHold s x.leaf x.pa).ctl.queues = _
  rw [(hubHold_side ..).ctl]

end

end

/-! ## The obligation -/

/-- The windows' commands by their numbers: each is taken, refused or kept back before it reads a header (R100). -/
theorem hew_refusals {s : State} {part w cid : Nat} {p : Partition} (hp : findPart s.ctl.parts part = some p) (hr : p.state = .run) (hw : w < 8)
    {n : Nat} {i : Instr} {f : State → Partition → Xl → State} (hi : exec i s = hewCmd s part w n cid f) :
    (¬ HewTakes p w n cid → exec i s = .next s) ∧
    (HewTakes p w n cid → n ≠ 3 → (∀ c, findCtx s.ctl.ctxs part cid = some c → c.state = .free ∨ c.state = .retired) →
      exec i s = .next (hewRefused s part w 8 0)) ∧
    (HewTakes p w n cid → n ≠ 3 → ∀ c, findCtx s.ctl.ctxs part cid = some c → c.state ≠ .free → c.state ≠ .retired →
      (nth p.hews w {}).queue.toNat % 64 ≠ 0 ∨ (∃ f, xlate s 8 c (nth p.hews w {}).queue.toNat needRW = .error f) →
      exec i s = .next (hewRefused s part w 12 0)) := by
  rw [hi]
  exact ⟨fun ht => hewCmd_busy hp hr hw ht f, fun ht _ h => hewCmd_down hp hr hw ht h f, fun ht _ c hc hf hret h => hewCmd_bad hp hr hw ht hc hf hret h f⟩

theorem hew_idle {s : State} {part w cid : Nat} (h : ∀ p, findPart s.ctl.parts part = some p → p.state ≠ .run ∨ 8 ≤ w) :
    ∀ i ∈ [Instr.hewEnq part w cid, .hewDeq part w cid, .hewBind part w cid, .hewDrain part w cid, .hewReset part w cid], exec i s = .next s := by
  have hcmd : ∀ (n : Nat) (f : State → Partition → Xl → State), hewCmd s part w n cid f = .next s := fun n f => by
    cases hp : findPart s.ctl.parts part with
    | none =>
      unfold hewCmd
      rw [hp]
    | some p => exact hewCmd_closed hp (h p hp) f
  have hbind : exec (.hewBind part w cid) s = .next s := by
    cases hp : findPart s.ctl.parts part with
    | none =>
      rw [exec_hewBind]
      unfold execHewBind
      rw [hp]
    | some p => exact hewBind_closed hp (h p hp)
  simp only [List.forall_mem_cons]
  exact ⟨(exec_hewEnq ..).trans (hcmd 1 _), (exec_hewDeq ..).trans (hcmd 2 _), hbind, (exec_hewDrain ..).trans (hcmd 4 _), (exec_hewReset ..).trans (hcmd 5 _), List.forall_mem_nil _⟩

theorem hewBind_latches {s : State} {part w cid : Nat} {p : Partition} (hp : findPart s.ctl.parts part = some p) (hr : p.state = .run) (hw : w < 8)
    (hlen : p.hews.length = 8) (ht : HewTakes p w 3 cid) {c : Ctx} {va pa : Nat}
    (h : ∃ t q, qBind s (findCtx s.ctl.ctxs part cid) cid (nth p.hews w {}).queue.toNat = (t, 0) ∧ t.exe.gangs = s.exe.gangs ∧ t.exe.groups = s.exe.groups ∧
      t.ctl.ctxs = s.ctl.ctxs ∧ t.ctl.kernels = s.ctl.kernels ∧ t.ctl.parts = s.ctl.parts ∧ t.mem.ops = s.mem.ops ∧ q ∈ t.ctl.queues ∧
      Latched s c va pa q ∧ (q.state = .bound ∨ q.state = .active)) :
    ∃ t q, exec (.hewBind part w cid) s = .next t ∧ HewAnswer t part w 0 0 ∧ Windowed s t ∧ q ∈ t.ctl.queues ∧ Latched s c va pa q ∧
      (q.state = .bound ∨ q.state = .active) := by
  obtain ⟨t, q, he, hgangs, hgroups, hctxs, hkernels, hparts, hops, hq, hlatched, hst⟩ := h
  refine ⟨hewDone t part w 0 0, q, ?_, hewDone_answer (p := p) (by rw [hparts]; exact hp) (by omega), ⟨⟨hgangs, hgroups⟩, hctxs, hkernels, hops⟩, hq, hlatched, hst⟩
  rw [hewBind_eq hp hr hw ht, he]

/-- Settles O47: each command is taken apart where the window checks it (`hew_refusals`), BIND by the causes of `qBind`, and the
other four at the header they name (`HeaderAt`). -/
theorem enqueueWindows : Obligations.EnqueueWindows := by
  intro s part w cid
  refine ⟨hew_idle, fun p hp hr hw hlen => ⟨?_, fun ht hn => ?_, fun c hc => ⟨fun ht => ⟨fun h => ?_, fun x ha hm hx => ⟨fun h => ?_, fun hq => ⟨fun h => ?_, fun hg hl hfull => ?_, fun hg hl hids => ?_⟩⟩⟩, fun hf hret x ha hx => ?_⟩⟩⟩
  · simp only [List.forall_mem_cons]
    exact ⟨hew_refusals hp hr hw (exec_hewEnq ..), hew_refusals hp hr hw (exec_hewDeq ..),
      ⟨hewBind_busy hp hr hw, fun _ h => absurd rfl h, fun _ h => absurd rfl h⟩, hew_refusals hp hr hw (exec_hewDrain ..),
      hew_refusals hp hr hw (exec_hewReset ..), List.forall_mem_nil _⟩
  · exact hewBind_answers hp hr hw ht (by rw [hn]; rfl)
  · exact hewBind_answers hp hr hw ht (by rw [hc]; exact qBind_bad h)
  · exact hewBind_answers hp hr hw ht (by rw [hc]; exact qBind_bound ha hm hx h)
  · refine hewBind_answers hp hr hw ht ?_
    rw [hc, qBind_free hc ha hm hx hq, if_pos]
    rw [Bool.not_eq_true', Bool.eq_false_iff]
    exact fun hok => h (headerGood_iff.2 hok)
  · refine hewBind_answers hp hr hw ht ?_
    obtain ⟨-, -, -, -, hlaunch, -⟩ := latched_of s c (nth p.hews w {}).queue.toNat x.pa x.leaf
    rw [hc, qBind_free hc ha hm hx hq, headerGood_iff.1 hg, if_neg (by decide), if_pos]
    rw [Bool.and_eq_true, decide_eq_true_iff]
    exact ⟨hlaunch.2 hl, hfull⟩
  · refine hewBind_latches hp hr hw hlen ht ?_
    rw [hc]
    exact qBind_latches hc ha hm hx hq hg hl hids
  · have h : HeaderAt s part w cid p c x := ⟨hp, hr, hw, hlen, hc, hf, hret, ha, hx⟩
    refine ⟨hubHold_read s x.leaf x.pa, fun hq => ⟨fun ht => hewDrain_none h ht hq, fun ht => hewReset_none h ht hq, fun ht => hewEnq_none h ht hq⟩, fun q hq =>
      ⟨fun ht => ⟨hewDrain_drains h hq ht, hewDrain_refuses h hq ht⟩, fun ht => ⟨hewReset_unbinds h hq ht, hewReset_refuses h hq ht⟩,
        fun ht hes o ho => ⟨hewEnq_slot h hq hes ho ht, hewEnq_closed h hq hes ht, hewEnq_full h hq hes ht, fun y hy => hewEnq_appends h hq hes ho ht hy⟩,
        fun ht hes o ho => ⟨hewDeq_slot h hq ho ht, hewDeq_keeps h hq ht hes, fun y hy => hewDeq_removes h hq hes ho ht hy⟩⟩⟩

end Sys2Proof.Machine
end

section
/-! PROOFS. Proofs/FitPoints.lean: kernels whose queue's HEAD has advanced, fit points, and the end of kernels (R99, R113, R114, R347, R348). -/

namespace Sys2Proof.Machine

/-! ## A kernel past its packet (R99) -/

/-- HEAD has advanced past kernel `i`'s packet and the kernel stands in state `y`. -/
def headPast (s : State) (i : Nat) (k : Kernel) (y : KState) : State :=
  { advanceHead s i with ctl := { (advanceHead s i).ctl with kernels := modAt s.ctl.kernels i fun _ => { k with state := y, advanced := true } } }

section
variable {s : State} {i : Nat} {k : Kernel} (hk : s.ctl.kernels[i]? = some k)
include hk

theorem headPast_kernel (y : KState) : (headPast s i k y).ctl.kernels[i]? = some { k with state := y, advanced := true } := by
  show (modAt s.ctl.kernels i _)[i]? = _
  rw [modAt_get, if_pos rfl, hk]
  rfl

theorem headPast_ctxs (y : KState) : (headPast s i k y).ctl.ctxs = s.ctl.ctxs := by
  show (advanceHead s i).ctl.ctxs = _
  rw [(advanceHead_side hk).ctl]
  rfl

theorem advanceHead_kernels : (advanceHead s i).ctl.kernels = modAt s.ctl.kernels i fun _ => { k with advanced := true } := by
  rw [(advanceHead_side hk).ctl]
  exact modAt_const hk _

theorem advanceHead_past : advanceHead s i = headPast s i k k.state := by
  unfold headPast
  rw [show ({ k with state := k.state, advanced := true } : Kernel) = { k with advanced := true } from rfl, ← advanceHead_kernels hk]

theorem modKern_past (y : KState) : modKern (advanceHead s i) i (fun x => { x with state := y }) = headPast s i k y := by
  unfold headPast modKern
  rw [advanceHead_kernels hk, modAt_modAt]

theorem headPast_stays (y : KState) : advanceHead (headPast s i k y) i = headPast s i k y := by
  unfold advanceHead
  rw [headPast_kernel hk y]
  rfl

/-- A kernel ends after HEAD has advanced past its packet: the packet ends as where both are one step. -/
theorem headPast_ends {c : Ctx} {y : KState} (hl : kernLive { k with state := y } = true) (hc : findCtx s.ctl.ctxs k.part k.ctx = some c) (st : KState) (status : Nat) :
    PacketEnds s (endKernel (headPast s i k y) i st status 0) i k c st status := by
  have hside := advanceHead_side hk
  have hctxs := headPast_ctxs hk y
  obtain ⟨⟨d, hrec⟩, ⟨hids, hops, hparts, hfaults⟩, howner, hothers, hdone⟩ :=
    ends_core (c := c) (headPast_kernel hk y) hl (by rw [hctxs]; exact hc) st status
  rw [headPast_stays hk y] at hdone
  refine ⟨⟨d, hrec.trans ?_⟩, ⟨?_, hops.trans hside.mem.ops, hparts.trans ?_, hfaults.trans ?_⟩, howner, fun p x hn => (hothers p x hn).trans ?_,
    headPast s i k y, ?_, ?_, hside.sys, hdone⟩
  · exact modAt_modAt ..
  · rw [OnlyIds, hids]
    show ({ (advanceHead s i).exe with nextId := _ } : Exe) = _
    rw [hside.exe]
    rfl
  · show (advanceHead s i).ctl.parts = _
    rw [hside.ctl]
    rfl
  · show (advanceHead s i).ctl.faults = _
    rw [hside.ctl]
    rfl
  · rw [hctxs]
  · exact KeepsBytes.of_eq (head_outside hk) rfl rfl rfl
  · exact head_advanced hk

end

/-! ## Fit points (R347, R348) -/

/-- Kernel `i` of a context is at a fit point. -/
def AtFit (t : State) (i part cid : Nat) : Prop :=
  (∃ k, t.ctl.kernels[i]? = some k ∧ k.state = .fitting ∧ k.part = part ∧ k.ctx = cid) ∧ ∃ c, findCtx t.ctl.ctxs part cid = some c

theorem ite_fst_ctl {p : Prop} [Decidable p] {a b : State × Bool} {x : Ctl} (ha : a.1.ctl = x) (hb : b.1.ctl = x) : (if p then a else b).1.ctl = x := by
  split
  · exact ha
  · exact hb

theorem fitRegion_ctl (s : State) (c : Ctx) (id va : Nat) : (fitRegion s c id va).1.ctl = s.ctl := by
  have hput := fun fs => (rgPut_side s c va fs).ctl
  unfold fitRegion
  generalize rgPut s c va = f at hput ⊢
  dsimp only
  repeat' with_reducible apply ite_fst_ctl
  all_goals simp only [hput]

theorem treat_fit {t : State} {i part cid : Nat} (h : AtFit t i part cid) (id : Nat) : AtFit (treat t i id) i part cid := by
  obtain ⟨⟨k, hk, hst, hp, hx⟩, hc⟩ := h
  refine ⟨⟨{ k with regions := modIf k.regions (fun r => r.id == id) fun r => { r with treated := true } }, ?_, hst, hp, hx⟩, hc⟩
  show (modAt t.ctl.kernels i _)[i]? = _
  rw [modAt_get, if_pos rfl, hk]
  rfl

theorem forgetEager_fit {t : State} {i part cid : Nat} (h : AtFit t i part cid) {c : Ctx} (hp : c.part = part) (hx : c.cid = cid) (id : Nat) :
    AtFit (forgetEager t c id) i part cid := by
  obtain ⟨hk, x, hc⟩ := h
  subst hp hx
  exact ⟨hk, _, findCtx_modCtx hc fun _ => ⟨rfl, rfl⟩⟩

theorem fitProgress_fit {c : Ctx} {i part cid : Nat} (hp : c.part = part) (hx : c.cid = cid) (rs : List RLatch) :
    ∀ {t : State}, AtFit t i part cid → AtFit (fitProgress c i rs t).1 i part cid := by
  induction rs with
  | nil => exact fun h => h
  | cons r rs ih =>
    intro t h
    unfold fitProgress
    by_cases htrain : inTraining t c r = true
    · rw [if_pos htrain]
      exact h
    rw [if_neg htrain]
    by_cases hdone : r.treated = true
    · rw [if_pos hdone]
      exact ih h
    rw [if_neg hdone]
    obtain ⟨-, x, hfind⟩ := id h
    have hids : ((findCtx t.ctl.ctxs c.part c.cid).getD c).part = part ∧ ((findCtx t.ctl.ctxs c.part c.cid).getD c).cid = cid := by
      rw [hp, hx, hfind]
      exact findCtx_ids hfind
    have hnext : AtFit (fitRegion (forgetEager t ((findCtx t.ctl.ctxs c.part c.cid).getD c) r.id) ((findCtx t.ctl.ctxs c.part c.cid).getD c) r.id
        r.desc.toNat).1 i part cid := by
      unfold AtFit
      rw [fitRegion_ctl]
      exact forgetEager_fit h hids.1 hids.2 r.id
    dsimp only
    split
    · exact treat_fit hnext r.id
    · exact ih (treat_fit hnext r.id)

/-- At a fit point whose regions have all been treated and are out of training nothing is left to do. -/
theorem fitProgress_done {s : State} {c : Ctx} {i : Nat} {rs : List RLatch} (h : ∀ r ∈ rs, r.treated = true ∧ inTraining s c r = false) :
    fitProgress c i rs s = (s, true) := by
  induction rs with
  | nil => rfl
  | cons r rs ih =>
    obtain ⟨htreated, htrain⟩ := h r List.mem_cons_self
    unfold fitProgress
    rw [htrain, htreated]
    exact ih fun r hr => h r (List.mem_cons_of_mem _ hr)

theorem fitProgress_waits {s : State} {c : Ctx} {i : Nat} {r : RLatch} {rs : List RLatch} (h : inTraining s c r = true) :
    fitProgress c i (r :: rs) s = (s, false) := by
  unfold fitProgress
  rw [if_pos h]

theorem endKernel_fitted {t : State} {i part cid : Nat} (h : AtFit t i part cid) (status : Nat) : Fitted (endKernel t i .retired status 0) i := by
  obtain ⟨⟨k, hk, hst, rfl, rfl⟩, c, hc⟩ := h
  obtain ⟨⟨d, hrec⟩, -⟩ := ends_of hk (by unfold kernLive; rw [hst]; rfl) hc .retired status
  exact ⟨_, by rw [hrec, modAt_get, if_pos rfl, hk]; rfl, .inr rfl⟩

/-- A kernel enters its fit points. -/
def fitStart (s : State) (i : Nat) : State := modKern s i fun x => { x with state := .fitting }

theorem inTraining_fitStart (s : State) (i : Nat) (c : Ctx) (r : RLatch) : inTraining (fitStart s i) c r = inTraining s c r := rfl

section
variable {s : State} {i : Nat} {k : Kernel} {c : Ctx} (hk : s.ctl.kernels[i]? = some k) (hc : findCtx s.ctl.ctxs k.part k.ctx = some c)
include hk

theorem fitStart_kernel : (fitStart s i).ctl.kernels[i]? = some { k with state := .fitting } := by
  show (modAt s.ctl.kernels i _)[i]? = _
  rw [modAt_get, if_pos rfl, hk]
  rfl

include hc

theorem fitStart_fit : AtFit (fitStart s i) i k.part k.ctx := ⟨⟨_, fitStart_kernel hk, rfl, rfl, rfl⟩, c, hc⟩

theorem fitPoint_eq : fitPoint s i =
    if (fitProgress c i k.regions (fitStart s i)).2 then
      endKernel (fitProgress c i k.regions (fitStart s i)).1 i .retired (if k.linkLoss then 1 else 0) 0
    else (fitProgress c i k.regions (fitStart s i)).1 := by
  unfold fitPoint
  rw [hk]
  dsimp only
  rw [show kernCtx s k = some c from hc]
  rfl

theorem fitPoint_fitted : Fitted (fitPoint s i) i := by
  obtain ⟨hp, hx⟩ := findCtx_ids hc
  have hfit := fitProgress_fit hp hx k.regions (fitStart_fit hk hc)
  rw [fitPoint_eq hk hc]
  split
  · exact endKernel_fitted hfit _
  · obtain ⟨⟨k', hk', hst, -⟩, -⟩ := hfit
    exact ⟨k', hk', .inl hst⟩

theorem fitPoint_done (h : FitDone s c k) : fitPoint s i = endKernel (fitStart s i) i .retired (if k.linkLoss then 1 else 0) 0 := by
  rw [fitPoint_eq hk hc, fitProgress_done (s := fitStart s i) h]
  rfl

/-- A kernel whose fit points have all finished retires (R114, R348). -/
theorem fitPoint_ends (h : FitDone s c k) : PacketEnds s (fitPoint s i) i k c .retired (if k.linkLoss then 1 else 0) := by
  rw [fitPoint_done hk hc h]
  exact (ends_of (s := fitStart s i) (c := c) (fitStart_kernel hk) rfl hc .retired _).of_modKern rfl

end

/-! ## KERNEL_RETIRE (R113, R114) -/

theorem kernSettled_iff {s : State} {i : Nat} : kernSettled s i = true ↔ KernDrained s i := by
  unfold kernSettled KernDrained
  simp only [Bool.and_eq_true, Bool.not_eq_true', and_assoc]
  refine and_congr ?_ (and_congr ?_ (and_congr ?_ ?_)) <;> refine List.any_eq_false.trans (forall₂_congr fun x _ => ?_)
  · rw [beq_iff_eq]
  · rw [beq_iff_eq]
  · cases x.loc <;> simp
  · rw [beq_iff_eq]

section
variable {s : State} {i : Nat}

theorem kernelRetire_idle (h : ∀ k c, s.ctl.kernels[i]? = some k → findCtx s.ctl.ctxs k.part k.ctx = some c →
    (k.due ≠ .add ∨ writerWaits s.mem (doneWriter i) = true) ∧ (k.state ≠ .draining ∨ ¬ KernDrained s i ∨ ¬ ContextGoes c)) :
    exec (.kernelRetire i) s = .next s := by
  rw [exec_kernelRetire]
  unfold execKernelRetire
  cases hk : s.ctl.kernels[i]? with
  | none => rfl
  | some k =>
    dsimp only
    cases hc : kernCtx s k with
    | none => rfl
    | some c =>
      obtain ⟨hdue, hgoes⟩ := h k c hk hc
      dsimp only
      rw [if_neg, if_neg]
      · rw [Bool.and_eq_true, Bool.and_eq_true, beq_iff_eq, kernSettled_iff, packetsGo_iff]
        tauto
      · rintro ⟨hadd, hwaits⟩
        rw [hwaits] at hdue
        exact hdue.elim (fun hn => hn hadd) Bool.false_ne_true

variable {k : Kernel} {c : Ctx} (hk : s.ctl.kernels[i]? = some k) (hc : findCtx s.ctl.ctxs k.part k.ctx = some c)
include hk hc

theorem kernelRetire_adds (hdue : k.due = .add) (hw : writerWaits s.mem (doneWriter i) = false) :
    ∃ t, exec (.kernelRetire i) s = .next t ∧ OnlyIds s t ∧ t.ctl.kernels = modAt s.ctl.kernels i (fun _ => { k with due := .none }) ∧
      t.ctl.ctxs = s.ctl.ctxs ∧ DoneAdded s t c k.pkt := by
  have hside := ((doneAdd_side (modKern s i fun x => { x with due := .none }) c k).trans ((settleQueues_side _).mono fun _ _ => trivial))
  refine ⟨settleQueues (doneAdd (modKern s i fun x => { x with due := .none }) c k), ?_, hside.exe, ?_, ?_,
    doneAdded_of (modKern_alike s i _) rfl ⟨rfl, rfl, rfl⟩⟩
  · rw [exec_kernelRetire]
    unfold execKernelRetire
    rw [hk]
    dsimp only
    rw [show kernCtx s k = some c from hc]
    exact if_pos ⟨hdue, hw⟩
  · rw [hside.ctl]
    exact modAt_const hk _
  · rw [hside.ctl]
    rfl

theorem kernelRetire_fits (hdue : k.due ≠ .add) (hst : k.state = .draining) (hd : KernDrained s i) (hgo : ContextGoes c) :
    exec (.kernelRetire i) s = .next (fitPoint s i) := by
  rw [exec_kernelRetire]
  unfold execKernelRetire
  rw [hk]
  dsimp only
  rw [show kernCtx s k = some c from hc]
  dsimp only
  rw [if_neg fun hn => hdue hn.1, if_pos]
  rw [Bool.and_eq_true, Bool.and_eq_true, beq_iff_eq, kernSettled_iff, packetsGo_iff]
  exact ⟨⟨hst, hd⟩, hgo⟩

end

/-! ## FITSYNC (R348) -/

section
variable {s : State} {i : Nat} {k : Kernel} {c : Ctx} (h : Acts s i 6 k c)
include h

theorem fitsyncPacket_fits : exec (.fitsyncPacket i) s = .next (fitPoint (advanceHead s i) i) := act_eq h _

theorem fitsync_kernel : (advanceHead s i).ctl.kernels[i]? = some { k with advanced := true } ∧
    findCtx (advanceHead s i).ctl.ctxs k.part k.ctx = some c := by
  obtain ⟨hk, hc, -⟩ := h
  refine ⟨?_, ?_⟩
  · rw [advanceHead_past hk]
    exact headPast_kernel hk _
  · rw [advanceHead_past hk, headPast_ctxs hk]
    exact hc

theorem fitsync_ends (hr : k.regions = []) : PacketEnds s (fitPoint (advanceHead s i) i) i k c .retired (if k.linkLoss then 1 else 0) := by
  obtain ⟨hk', hc'⟩ := fitsync_kernel h
  obtain ⟨hk, hc, -⟩ := h
  have hdone : FitDone (advanceHead s i) c { k with advanced := true } := fun r hm => absurd (hr ▸ hm : r ∈ []) List.not_mem_nil
  rw [fitPoint_done hk' hc' hdone, show fitStart (advanceHead s i) i = headPast s i k .fitting from modKern_past hk _]
  exact headPast_ends hk rfl hc _ _

end

/-! ## FIT_TRAINING_DONE (R352) -/

theorem trainRegion_ctl (s : State) (c : Ctx) (va : Nat) : (trainRegion s c va).ctl = s.ctl :=
  ((rgPut_side ..).ctl.trans (excGet_side ..).ctl).trans (excGet_side ..).ctl

/-- Kernel `x` of a context waits at its fit point for the training of a region. -/
def waitsFor (s : State) (part ctx region : Nat) (c : Ctx) (x : Kernel × Nat) : Bool :=
  x.1.part == part && x.1.ctx == ctx && x.1.state == .fitting && x.1.regions.any fun r => r.id == region && inTraining s c r

theorem waitsFor_iff {s : State} {part ctx region : Nat} {c : Ctx} {x : Kernel × Nat} : waitsFor s part ctx region c x = true ↔
    x.1.part = part ∧ x.1.ctx = ctx ∧ x.1.state = .fitting ∧ ∃ r ∈ x.1.regions, r.id = region ∧ inTraining s c r = true := by
  unfold waitsFor
  simp only [Bool.and_eq_true, beq_iff_eq, List.any_eq_true, and_assoc]

section
variable {s : State} {part ctx region : Nat}

theorem fitTrainingDone_idle (h : ∀ c, findCtx s.ctl.ctxs part ctx = some c → ¬ ContextGoes c ∨ ∀ k ∈ s.ctl.kernels, k.part = part → k.ctx = ctx →
    k.state = .fitting → ∀ r ∈ k.regions, r.id = region → inTraining s c r = false) : exec (.fitTrainingDone part ctx region) s = .next s := by
  rw [exec_fitTrainingDone]
  unfold execFitTrainingDone
  cases hc : findCtx s.ctl.ctxs part ctx with
  | none => rfl
  | some c =>
    dsimp only
    by_cases hgo : packetsGo c = true
    · have hnone : s.ctl.kernels.zipIdx.find? (waitsFor s part ctx region c) = none := List.find?_eq_none.2 fun x hx hw => by
        obtain ⟨hp, hcx, hst, r, hr, hid, htrain⟩ := waitsFor_iff.1 hw
        rw [(h c hc).resolve_left (fun hn => hn ((packetsGo_iff c).1 hgo)) x.1 (List.fst_mem_of_mem_zipIdx hx) hp hcx hst r hr hid] at htrain
        cases htrain
      unfold waitsFor at hnone
      rw [hgo, if_neg (by decide), hnone]
    · rw [if_pos (by rw [Bool.eq_false_iff.2 hgo]; rfl)]

variable {i : Nat} {k : Kernel} {c : Ctx} {r : RLatch} (hc : findCtx s.ctl.ctxs part ctx = some c) (hk : s.ctl.kernels[i]? = some k)
  (hp : k.part = part) (hx : k.ctx = ctx)
include hc hk hp hx

theorem fitTrainingDone_trains (hgo : ContextGoes c) (hst : k.state = .fitting) (hr : k.regions = [r]) (hid : r.id = region) (htrain : inTraining s c r = true)
    (hothers : ∀ (j : Nat) (x : Kernel), s.ctl.kernels[j]? = some x → j ≠ i → x.part ≠ part ∨ x.ctx ≠ ctx ∨ x.state ≠ .fitting) :
    exec (.fitTrainingDone part ctx region) s = .next (fitPoint (trainRegion s c r.desc.toNat) i) := by
  have hfind : s.ctl.kernels.zipIdx.find? (waitsFor s part ctx region c) = some (k, i) := by
    have hwaits : waitsFor s part ctx region c (k, i) = true := waitsFor_iff.2 ⟨hp, hx, hst, r, by rw [hr]; exact List.mem_singleton_self r, hid, htrain⟩
    obtain ⟨y, hy⟩ := Option.isSome_iff_exists.1 (List.find?_isSome.2 ⟨(k, i), List.mem_zipIdx_iff_getElem?.2 hk, hwaits⟩)
    have hmem := List.mem_zipIdx_iff_getElem?.1 (List.mem_of_find?_eq_some hy)
    obtain ⟨hyp, hyx, hyst, -⟩ := waitsFor_iff.1 (List.find?_some hy)
    have hindex : y.2 = i := by
      by_contra hne
      exact (hothers y.2 y.1 hmem hne).elim (fun hn => hn hyp) fun hn => hn.elim (fun hn => hn hyx) fun hn => hn hyst
    rw [hindex, hk] at hmem
    rw [hy, Option.some.inj hmem, ← hindex]
  unfold waitsFor at hfind
  rw [exec_fitTrainingDone]
  unfold execFitTrainingDone
  rw [hc]
  dsimp only
  rw [(packetsGo_iff c).2 hgo, if_neg (by decide), hfind]
  dsimp only
  rw [hr, List.find?_cons_of_pos (by rw [hid]; exact beq_self_eq_true region)]

theorem trained_kernel : (trainRegion s c r.desc.toNat).ctl.kernels[i]? = some k ∧ findCtx (trainRegion s c r.desc.toNat).ctl.ctxs k.part k.ctx = some c := by
  rw [trainRegion_ctl, hp, hx]
  exact ⟨hk, hc⟩

end

end Sys2Proof.Machine
end

section
/-! PROOFS. Proofs/Grids.lean: grids accepted by the distributor and their groups placed (R99, R105, R108 to R111, R115). -/

namespace Sys2Proof.Machine

/-! ## GRID_ACCEPT (R99, R108, R109) -/

theorem placeTest_fails {k : Kernel} {st : Nat} (h : PlaceFails k st) : placeTest k = some st := by
  unfold placeTest
  rcases h with ⟨hroom, rfl⟩ | ⟨hroom, hfix, hsize, rfl⟩ | ⟨hroom, hfix, hsize, hall, rfl⟩
  · rw [show fits k.pkt = false from hroom]
    rfl
  · rw [show fits k.pkt = true from hroom, if_neg (by decide), if_pos ⟨hfix, hsize⟩]
    rfl
  · rw [show fits k.pkt = true from hroom, if_neg (by decide), if_neg fun hn => absurd hn.2 (Nat.not_lt.2 hsize), if_pos ⟨hfix, by rw [hall]; rfl⟩]
    rfl

theorem placeTest_may {k : Kernel} (h : PlaceMay k) : placeTest k = none := by
  obtain ⟨hroom, hfixed⟩ := h
  unfold placeTest
  rw [show fits k.pkt = true from hroom, if_neg (by decide), if_neg fun hn => absurd hn.2 (Nat.not_lt.2 (hfixed hn.1).1), if_neg]
  rintro ⟨hfix, hn⟩
  rw [(hfixed hfix).2] at hn
  cases hn

/-- The count of the grids that distributors have accepted, one up. -/
def gridCounted (s : State) : State := { s with ctl := { s.ctl with acceptNo := s.ctl.acceptNo + 1 } }

/-- The distributor has taken grid `i`, its HEAD where it stood. -/
def gridTaken (s : State) (i : Nat) : State := modKern (gridCounted s) i fun x => { x with acceptNo := some (s.ctl.acceptNo + 1) }

/-- A DISPATCHING grid that its distributor may take now (R109). -/
structure GridGoes (s : State) (i : Nat) (k : Kernel) (c : Ctx) : Prop where
  kern : s.ctl.kernels[i]? = some k
  ctx : findCtx s.ctl.ctxs k.part k.ctx = some c
  goes : ContextGoes c
  state : k.state = .dispatching
  fresh : k.acceptNo = none
  room : heldGrids s k.part < 64

section
variable {s : State} {i : Nat}

theorem gridAccept_idle (h : ∀ k c, s.ctl.kernels[i]? = some k → findCtx s.ctl.ctxs k.part k.ctx = some c →
    k.state ≠ .dispatching ∨ k.acceptNo ≠ none ∨ 64 ≤ heldGrids s k.part ∨ ¬ ContextGoes c) : exec (.gridAccept i) s = .next s := by
  rw [exec_gridAccept]
  unfold execGridAccept
  cases hk : s.ctl.kernels[i]? with
  | none => rfl
  | some k =>
    dsimp only
    cases hc : kernCtx s k with
    | none => rfl
    | some c =>
      have hno := h k c hk hc
      dsimp only
      rw [if_neg]
      rw [Bool.and_eq_true, Bool.and_eq_true, Bool.and_eq_true, packetsGo_iff, beq_iff_eq, Option.isNone_iff_eq_none, decide_eq_true_iff]
      rintro ⟨⟨⟨hgo, hst⟩, hfresh⟩, hroom⟩
      exact hno.elim (fun hn => hn hst) fun hn => hn.elim (fun hn => hn hfresh) fun hn => hn.elim (Nat.not_le.2 hroom) fun hn => hn hgo

variable {k : Kernel} {c : Ctx} (h : GridGoes s i k c)
include h

theorem gridTaken_kernel : (gridTaken s i).ctl.kernels[i]? = some { k with acceptNo := some (s.ctl.acceptNo + 1) } := by
  show (modAt s.ctl.kernels i _)[i]? = _
  rw [modAt_get, if_pos rfl, h.kern]
  rfl

theorem gridAccept_eq : exec (.gridAccept i) s =
    .next (((placeTest k).map fun st => failKernel (advanceHead (gridTaken s i) i) i st).getD (advanceHead (gridTaken s i) i)) := by
  obtain ⟨hk, hc, hgo, hstate, hfresh, hroom⟩ := h
  rw [exec_gridAccept]
  unfold execGridAccept
  rw [hk]
  dsimp only
  rw [show kernCtx s k = some c from hc]
  dsimp only
  rw [if_pos]
  · cases placeTest k <;> rfl
  · rw [(packetsGo_iff c).2 hgo, hstate, hfresh, decide_eq_true hroom]
    rfl

theorem gridAccept_ends {st : Nat} (hst : PlaceFails k st) : ∃ t, exec (.gridAccept i) s = .next t ∧
    PacketEnds { s with ctl := { s.ctl with acceptNo := s.ctl.acceptNo + 1 } } t i { k with acceptNo := some (s.ctl.acceptNo + 1) } c .failed st := by
  have hends := headPast_ends (gridTaken_kernel h) (y := k.state) (c := c) (by unfold kernLive; rw [h.state]; rfl) h.ctx .failed st
  have hpast := advanceHead_past (gridTaken_kernel h)
  refine ⟨failKernel (advanceHead (gridTaken s i) i) i st, ?_, ?_⟩
  · rw [gridAccept_eq h, placeTest_fails hst]
    rfl
  · unfold failKernel
    rw [hpast]
    exact PacketEnds.of_modKern (s := gridCounted s) (f := fun x => { x with acceptNo := some (s.ctl.acceptNo + 1) }) hends rfl

theorem gridAccept_takes (hst : PlaceMay k) : ∃ t, exec (.gridAccept i) s = .next t ∧ OnlyIds s t ∧ t.ctl.ctxs = s.ctl.ctxs ∧ t.ctl.acceptNo = s.ctl.acceptNo + 1 ∧
    t.ctl.kernels = modAt s.ctl.kernels i (fun _ => { k with acceptNo := some (s.ctl.acceptNo + 1), advanced := true }) ∧
    OutsideHead s t k ∧ HeadAdvanced s t i k := by
  have hk := gridTaken_kernel h
  have hside := advanceHead_side hk
  have hout := head_outside hk
  refine ⟨advanceHead (gridTaken s i) i, ?_, hside.exe, ?_, ?_, ?_, ?_, ?_⟩
  · rw [gridAccept_eq h, placeTest_may hst]
    rfl
  · rw [hside.ctl]
    rfl
  · rw [hside.ctl]
    rfl
  · rw [advanceHead_kernels hk]
    exact modAt_modAt ..
  · exact KeepsBytes.of_eq hout rfl rfl rfl
  · exact (head_advanced hk).alike ⟨rfl, rfl, rfl, rfl⟩ rfl ⟨rfl, rfl, rfl⟩

end

/-! ## The grid whose group is placed next (R109) -/

/-- A grid waits for its next group to be placed. -/
def gridWaits (s : State) (part : Nat) (x : Kernel × Nat) : Bool :=
  x.1.part == part && x.1.acceptNo.isSome && (x.1.state == .dispatching || x.1.state == .running) && (nextGroup s x.2 x.1).isSome &&
    (match kernCtx s x.1 with
      | some c => placeable c
      | none => false)

/-- A grid goes ahead of another: of higher priority, or of the same and accepted no later. -/
def gridBefore (a b : Kernel × Nat) : Bool :=
  if a.1.prio ≠ b.1.prio then decide (b.1.prio < a.1.prio) else decide (a.1.acceptNo.getD 0 ≤ b.1.acceptNo.getD 0)

theorem waitingGrids_eq (s : State) (part : Nat) :
    waitingGrids s part = (sortWith gridBefore (s.ctl.kernels.zipIdx.filter (gridWaits s part))).map Prod.snd := rfl

section
variable {s : State} {part : Nat}

theorem gridWaits_iff {k : Kernel} {i : Nat} : (k, i) ∈ s.ctl.kernels.zipIdx.filter (gridWaits s part) ↔ ∃ c, GridWaits s part i k c := by
  rw [List.mem_filter, List.mem_zipIdx_iff_getElem?]
  unfold gridWaits GridWaits kernCtx placeable
  simp only [Bool.and_eq_true, Bool.or_eq_true, beq_iff_eq, Option.isSome_iff_ne_none]
  cases findCtx s.ctl.ctxs k.part k.ctx with
  | none => simp
  | some c => simp [and_assoc]

theorem waitingGrids_empty (h : ¬ ∃ i k c, GridWaits s part i k c) : waitingGrids s part = [] := by
  rw [waitingGrids_eq, List.filter_eq_nil_iff.2 fun x hx hw => h ⟨x.2, x.1, gridWaits_iff.1 (List.mem_filter.2 ⟨hx, hw⟩)⟩]
  rfl

theorem waitingGrids_first {i : Nat} {k : Kernel} {c : Ctx} (h : FirstGrid s part i k c) : (waitingGrids s part).head? = some i := by
  obtain ⟨hwaits, hfirst⟩ := h
  obtain ⟨hk, -⟩ := id hwaits
  have hhead : (sortWith gridBefore (s.ctl.kernels.zipIdx.filter (gridWaits s part))).head? = some (k, i) := by
    refine sortWith_head (gridWaits_iff.2 ⟨c, hwaits⟩) fun y hy hne => ?_
    obtain ⟨c', hy'⟩ := gridWaits_iff.1 hy
    have hindex : y.2 ≠ i := fun he => hne (by
      obtain ⟨hky, -⟩ := hy'
      rw [he, hk] at hky
      exact Prod.ext (Option.some.inj hky).symm he)
    unfold gridBefore
    rcases hfirst y.2 y.1 c' hy' hindex with hlt | ⟨heq, hlt⟩
    · simp [hlt, Nat.ne_of_lt hlt, Nat.ne_of_gt hlt, Nat.le_of_lt hlt]
    · simp [heq, hlt, Nat.le_of_lt hlt]
  rw [waitingGrids_eq, List.head?_map, hhead]
  rfl

end

/-! ## A new group started (R105, R115, R119, R248, R279) -/

/-- The record of a new group as it starts. -/
def startedGroup (s : State) (i : Nat) (k : Kernel) (core : Nat) : Group :=
  { kern := i, lid := k.nextLid, state := .running, core := core, placeNo := (nextPlace s k.part).2
    gangs := (List.range (gangCount k.pkt)).map fun g => s.exe.gangs.length + g
    nbs := List.replicate 16 { reload := gangCount k.pkt + (if k.pkt.tile = 0 then 0 else 1), pend := gangCount k.pkt + (if k.pkt.tile = 0 then 0 else 1) }
    tile := newTile k.pkt, tctx := if k.pkt.tile = 0 then none else some (freeTctx s core), replay := false
    slots := takeSlots (usedSlots s core) (gangCount k.pkt), rots := ((s.exe.groups[s.exe.groups.length]?).map Group.rots).getD [] }

/-- The gangs of a new group as they start. -/
def startedGangs (s : State) (k : Kernel) (c : Ctx) (core : Nat) : List Gang :=
  (List.range (gangCount k.pkt)).map fun g => newGang k c s.exe.groups.length k.nextLid g (nth (takeSlots (usedSlots s core) (gangCount k.pkt)) g 0)
    (nth (((s.exe.groups[s.exe.groups.length]?).map Group.rots).getD []) g 0)

/-- The state in which a new group has started on a core. -/
def groupStarted (s : State) (i : Nat) (k : Kernel) (c : Ctx) (core : Nat) : State :=
  ctxRunning { s with
    exe := { s.exe with gangs := s.exe.gangs ++ startedGangs s k c core, groups := s.exe.groups ++ [startedGroup s i k core] }
    mem := dropOldCode (acquireL1 s.mem core scSystem) core k.part k.ctx k.ord
    ctl := { s.ctl with
      parts := (nextPlace s k.part).1.ctl.parts
      kernels := modAt s.ctl.kernels i fun x => { x with
        state := .running, started := true, nextLid := if x.nextLid ≤ k.nextLid then k.nextLid + 1 else x.nextLid } } } k.part k.ctx

theorem placeOne_new {s : State} {i core : Nat} {k : Kernel} {c : Ctx} (hk : s.ctl.kernels[i]? = some k) (hc : findCtx s.ctl.ctxs k.part k.ctx = some c)
    (hnew : pendingGroup s i k.nextLid = none) : placeOne s i k.nextLid core = groupStarted s i k c core := by
  unfold placeOne
  rw [hk]
  dsimp only
  rw [show kernCtx s k = some c from hc, hnew]
  rfl

theorem newGang_starts (k : Kernel) (c : Ctx) (gid lid g slot rot : Nat) :
    (newGang k c gid lid g slot rot).slices = List.replicate 8 { pc := k.pkt.code.setWidth 56 } ∧
    smGet (newGang k c gid lid g slot rot).sregs 0 = k.pkt.args.setWidth 32 ∧ smGet (newGang k c gid lid g slot rot).sregs 1 = (k.pkt.args >>> 32).setWidth 32 ∧
    smGet (newGang k c gid lid g slot rot).sregs 2 = BitVec.ofNat 32 lid ∧ smGet (newGang k c gid lid g slot rot).sregs 3 = BitVec.ofNat 32 g ∧
    ∀ n, 4 ≤ n → smGet (newGang k c gid lid g slot rot).sregs n = 0 := by
  have hhigh : BitVec.ofNat 32 (k.pkt.args.toNat / 2 ^ 32) = (k.pkt.args >>> 32).setWidth 32 := by
    rw [← BitVec.ofNat_toNat, BitVec.toNat_ushiftRight, Nat.shiftRight_eq_div_pow]
  unfold newGang
  dsimp only
  refine ⟨by rw [BitVec.ofNat_toNat], ?_, ?_, ?_, ?_, fun n hn => ?_⟩
  · simp [smPuts, smGet_smSet]
  · refine Eq.trans ?_ hhigh
    simp [smPuts, smGet_smSet]
  · simp [smPuts, smGet_smSet]
  · simp [smPuts, smGet_smSet]
  · rw [smGet_smPuts_other]
    · rfl
    · simp only [List.forall_mem_cons]
      exact ⟨by omega, by omega, by omega, by omega, List.forall_mem_nil _⟩

theorem newTile_starts (p : Packet) : (p.tile = 0 → newTile p = none) ∧
    (p.tile ≠ 0 → ∃ x, newTile p = some x ∧ x.pc = p.tile.setWidth 56 ∧ x.accs.length = p.acc ∧ x.ended = false) := by
  unfold newTile
  refine ⟨fun h => if_pos h, fun h => ⟨_, if_neg h, ?_, List.length_replicate, rfl⟩⟩
  exact BitVec.ofNat_toNat ..

/-- The start of a group drops blocks of its core's L1 and code of its context alone. -/
theorem startedMem_side (P : Nat → Prop) (m : Mem) (core part cid ord : Nat) : MemSide P m (dropOldCode (acquireL1 m core scSystem) core part cid ord) := by
  obtain ⟨q, hl1⟩ := l1Drop_frame m fun b => b.core == core
  have hacquire : acquireL1 m core scSystem = { m with l1 := m.l1.filter fun b => !(b.core == core), predict := q } := hl1
  unfold dropOldCode
  rw [hacquire]
  exact ⟨rfl, id, id, fun _ _ h => ⟨h, fun _ => rfl⟩⟩

section
variable {s : State} {i core : Nat} {k : Kernel} {c : Ctx}

theorem groupStarted_starts {t : State} (ht : OnlyIds (groupStarted s i k c core) t) : Started s t i k core k.nextLid := by
  obtain ⟨hnone, hsome⟩ := newTile_starts k.pkt
  refine ⟨startedGroup s i k core, startedGangs s k c core, by rw [ht]; rfl, by rw [ht]; rfl, rfl, rfl, rfl, rfl, rfl, rfl, rfl, rfl, hnone, hsome, ?_,
    fun j x hx => ?_⟩
  · unfold startedGangs
    rw [List.length_map, List.length_range]
    rfl
  · unfold startedGangs at hx
    rw [List.getElem?_map] at hx
    obtain ⟨g, hg, rfl⟩ := Option.map_eq_some_iff.1 hx
    obtain ⟨-, rfl⟩ := List.getElem?_eq_some_iff.1 hg
    rw [List.getElem_range]
    obtain ⟨hslices, hregs⟩ := newGang_starts k c s.exe.groups.length k.nextLid j (nth (takeSlots (usedSlots s core) (gangCount k.pkt)) j 0)
      (nth (((s.exe.groups[s.exe.groups.length]?).map Group.rots).getD []) j 0)
    exact ⟨rfl, rfl, hslices, rfl, rfl, hregs⟩

theorem groupStarted_kernels (hk : s.ctl.kernels[i]? = some k) :
    (groupStarted s i k c core).ctl.kernels = modAt s.ctl.kernels i fun _ => { k with state := .running, started := true, nextLid := k.nextLid + 1 } := by
  refine (modAt_const hk _).trans ?_
  rw [if_pos (Nat.le_refl _)]

theorem groupStarted_ctxs (s : State) (i : Nat) (k : Kernel) (c : Ctx) (core : Nat) : (groupStarted s i k c core).ctl.ctxs =
    modCtx s.ctl.ctxs k.part k.ctx fun c => if c.state == .runnable || c.state == .parked then { c with state := .running } else c := rfl

theorem eligible_runs (h : eligible c = true) : (if c.state == .runnable || c.state == .parked then { c with state := .running } else c) = { c with state := .running } := by
  by_cases hw : (c.state == .runnable || c.state == .parked) = true
  · rw [if_pos hw]
  · rw [if_neg hw]
    have hrun : c.state = .running := by
      unfold eligible at h
      simp only [Bool.or_eq_true, Bool.and_eq_true, beq_iff_eq] at h hw
      tauto
    rw [← hrun]

theorem ctxRunning_ids (x : Ctx) : (if x.state == .runnable || x.state == .parked then { x with state := .running } else x : Ctx).part = x.part ∧
    (if x.state == .runnable || x.state == .parked then { x with state := .running } else x : Ctx).cid = x.cid := by
  split <;> exact ⟨rfl, rfl⟩

/-! ## GROUP_PLACE (R109) -/

theorem nextGroup_new (hnone : ∀ g ∈ s.exe.groups, g.kern = i → g.state ≠ .pending) (h : nextGroup s i k ≠ none) : nextGroup s i k = some k.nextLid := by
  have hfilter : (s.exe.groups.filter fun g => g.kern == i && g.state == .pending) = [] := List.filter_eq_nil_iff.2 fun g hg hn => by
    rw [Bool.and_eq_true, beq_iff_eq, beq_iff_eq] at hn
    exact hnone g hg hn.1 hn.2
  unfold nextGroup at h ⊢
  rw [hfilter] at h ⊢
  by_cases hlt : k.nextLid < k.total
  · exact if_pos hlt
  · exact absurd (if_neg hlt) h

theorem pendingGroup_none (hnone : ∀ g ∈ s.exe.groups, g.kern = i → g.state ≠ .pending) (lid : Nat) : pendingGroup s i lid = none := by
  unfold pendingGroup
  rw [List.find?_eq_none.2 fun x hx hn => ?_]
  · rfl
  · simp only [Bool.and_eq_true, beq_iff_eq] at hn
    exact hnone x.1 (List.fst_mem_of_mem_zipIdx hx) hn.1.1 hn.2

theorem groupPlace_idle {part : Nat} (h : ¬ ∃ i k c, GridWaits s part i k c) : exec (.groupPlace part) s = .next s := by
  rw [exec_groupPlace]
  unfold execGroupPlace
  rw [waitingGrids_empty h]
  rfl

/-- The first waiting grid's next group is new and finds a core with room: the state in which it has started. -/
theorem groupPlace_eq {part : Nat} {pre post : List Nat} (hfirst : FirstGrid s part i k c) (hfix : k.fixed = false) (hcoop : k.pkt.flags.testBit 1 = false)
    (hnone : ∀ g ∈ s.exe.groups, g.kern = i → g.state ≠ .pending) (hahead : restoreAhead s part k.prio = false) (hcores : allowedCores s k = pre ++ core :: post)
    (hpre : ∀ x ∈ pre, coreRoom s x resident k.pkt 1 = false) (hcore : coreRoom s core resident k.pkt 1 = true) :
    exec (.groupPlace part) s = .next (settleQueues (groupStarted s i k c core)) := by
  have hhead := waitingGrids_first hfirst
  obtain ⟨⟨hk, -, -, -, hnext, hc, -⟩, -⟩ := hfirst
  have hplace : placeGrid s part i = some (groupStarted s i k c core) := by
    unfold placeGrid
    rw [hk]
    dsimp only
    rw [nextGroup_new hnone hnext]
    dsimp only
    rw [hahead, hfix, show isCoop k = false from hcoop, findCore_first hcores hpre hcore]
    exact congrArg some (placeOne_new hk hc (pendingGroup_none hnone _))
  obtain ⟨rest, hlist⟩ := List.head?_eq_some_iff.1 hhead
  rw [exec_groupPlace]
  unfold execGroupPlace
  rw [hlist, List.findSome?_cons, hplace]

theorem groupPlace_starts {part : Nat} {pre post : List Nat} (hfirst : FirstGrid s part i k c) (hfix : k.fixed = false) (hcoop : k.pkt.flags.testBit 1 = false)
    (hnone : ∀ g ∈ s.exe.groups, g.kern = i → g.state ≠ .pending) (hahead : restoreAhead s part k.prio = false) (hcores : allowedCores s k = pre ++ core :: post)
    (hpre : ∀ x ∈ pre, coreRoom s x resident k.pkt 1 = false) (hcore : coreRoom s core resident k.pkt 1 = true) :
    ∃ t, exec (.groupPlace part) s = .next t ∧ Started s t i k core k.nextLid ∧ HeadersOnly s t ∧ t.mem.ops = s.mem.ops ∧
      t.ctl.kernels = modAt s.ctl.kernels i (fun _ => { k with state := .running, started := true, nextLid := k.nextLid + 1 }) ∧
      (CtxNow t k.part k.ctx fun x => x = { c with state := .running }) ∧
      ∀ p x, p ≠ k.part ∨ x ≠ k.ctx → findCtx t.ctl.ctxs p x = findCtx s.ctl.ctxs p x := by
  have he := groupPlace_eq hfirst hfix hcoop hnone hahead hcores hpre hcore
  obtain ⟨⟨hk, -, -, -, -, hc, helig⟩, -⟩ := hfirst
  have hside := settleQueues_side (groupStarted s i k c core)
  have hmem : MemSide (HeaderOf s) s.mem (settleQueues (groupStarted s i k c core)).mem := (startedMem_side _ s.mem core k.part k.ctx k.ord).trans hside.mem
  refine ⟨_, he, groupStarted_starts hside.exe, hmem.headersOnly, hmem.ops, ?_, ⟨_, ?_, eligible_runs helig⟩, fun p x hne => ?_⟩
  · rw [hside.ctl]
    exact groupStarted_kernels (c := c) (core := core) hk
  · rw [hside.ctl]
    exact findCtx_modCtx hc ctxRunning_ids
  · rw [hside.ctl]
    exact findCtx_modCtx_other ctxRunning_ids hne

end

/-! ## The obligation -/

/-- Settles O51: each event by the conditions that choose its branch; a kernel whose HEAD has advanced before it ends has ended as
one whose HEAD advances as it ends (`headPast_ends`). -/
theorem gridsAndRetirement : Obligations.GridsAndRetirement := by
  unfold Obligations.GridsAndRetirement
  refine ⟨fun s i => ⟨gridAccept_idle, fun k c hk hc hgo hst hfresh hroom => ?_⟩, fun s part => ⟨groupPlace_idle, fun i k c core pre post => groupPlace_starts⟩,
    fun s i => ⟨kernelRetire_idle, fun k c hk hc => kernelRetire_adds hk hc, fun k c hk hc hdue hst hd hgo => ?_⟩, fun s i k c h => ?_,
    fun s part ctx region => ⟨fitTrainingDone_idle, fun i k c r hc hgo hk hp hx hst hr hid htreated htrain hothers => ?_⟩⟩
  · have h : GridGoes s i k c := ⟨hk, hc, hgo, hst, hfresh, hroom⟩
    exact ⟨fun st => gridAccept_ends h, gridAccept_takes h⟩
  · have he := kernelRetire_fits hk hc hdue hst hd hgo
    exact ⟨⟨_, he, fitPoint_fitted hk hc⟩, fun hdone => ⟨_, he, fitPoint_ends hk hc hdone⟩⟩
  · obtain ⟨hk', hc'⟩ := fitsync_kernel h
    exact ⟨⟨_, fitsyncPacket_fits h, fitPoint_fitted hk' hc'⟩, fun hr => ⟨_, fitsyncPacket_fits h, fitsync_ends h hr⟩⟩
  · have he := fitTrainingDone_trains hc hk hp hx hgo hst hr hid htrain hothers
    obtain ⟨hk', hc'⟩ := trained_kernel (r := r) hc hk hp hx
    refine ⟨fun hout => ⟨_, he, fitPoint_ends hk' hc' fun y hy => ?_⟩, fun _ => ⟨_, he, fitPoint_fitted hk' hc'⟩⟩
    rw [hr, List.mem_singleton] at hy
    rw [hy]
    exact ⟨htreated, hout⟩

end Sys2Proof.Machine
end

section
/-! PROOFS. Proofs/Branches.lean: BRA, CALL and BRX, slice by slice (R127, R129, R130, R132). -/

namespace Sys2Proof.Machine

/-! ## A slice that runs on -/

/-- `y` is what an instruction leaves of a slice `x` that it does not stop: it has retired as often, it does not stand at REGANG
anew, and it runs where it ran. -/
def RunsOn (x y : Slice) : Prop := y.retired = x.retired ∧ y.regang = x.regang ∧ (x.run ≠ 0 → y.run ≠ 0)

/-- `x` with a CALL entry on its stack: its lanes `lanes` return to `ret` (R130, R132). -/
def withReturn (lanes : BitVec 4) (ret : VAddr) (x : Slice) : Slice :=
  { x with stack := { kind := .call, lanes := lanes, pc := ret } :: x.stack }

theorem RunsOn.withReturn {x y : Slice} (h : RunsOn x y) (lanes : BitVec 4) (ret : VAddr) : RunsOn x (withReturn lanes ret y) := h

theorem divided_runsOn {x y : Slice} {taken : BitVec 4} {t other : VAddr} (h : divided x taken t other = some y) : RunsOn x y := by
  rw [divided_eq] at h
  obtain ⟨hregang, hretired, hrun, -⟩ := divide_frame h
  exact ⟨hretired, hregang, hrun⟩

/-- An instruction that divides the slices of its cohort: `f` gives what each becomes, and each runs on. -/
theorem runsOn_result {s : State} {e : Iss} {j : Iss → Judge} {b : Iss → Eff} {f : Nat → Option Slice} {F : Nat → Slice → Slice}
    (h : issOf s = some e) (hj : j e = .go) (hq : Quiet e) (hr : someRuns e) (hb : b e = sliceBody e fun k x => (f k).getD x)
    (hf : ∀ k ∈ e.sls, f k = some (F k (e.g.sl k)) ∧ RunsOn (e.g.sl k) (F k (e.g.sl k))) :
    ∃ t, issue s j b = .next t ∧ SliceResult s t e F := by
  have hfx : ∀ k x, k ∈ e.sls → e.g.slices[k]? = some x → (f k).getD x = F k x ∧ RunsOn x (F k x) := fun k x hk hx => by
    obtain ⟨heq, hruns⟩ := hf k hk
    rw [sl_of hx] at heq hruns
    exact ⟨by rw [heq, Option.getD_some], hruns⟩
  obtain ⟨k, hk, x, hx, hrun⟩ := hr
  refine slice_result h hj hq hb (fun i y hi hy => (hfx i y hi hy).1) ⟨k, hk, x, hx, ?_⟩ fun i hi y hy => ?_
  · exact fin_run ((hfx k x hk hx).2.2.2 hrun)
  · obtain ⟨heq, hretired, hregang, -⟩ := hfx i y hi hy
    rw [heq]
    exact ⟨hretired, hregang⟩

/-! ## BRA and CALL (R129, R130) -/

theorem braSlice_eq {e : Iss} {o : BitVec 24} {t : VAddr} (ht : targetOf e.pc o t) (k : Nat) :
    braSlice e o k = divided (e.g.sl k) (sliceMask k (activeOn e.g)) t (e.pc + 4) := by
  rw [divided_eq]
  simp only [braSlice, target_jTarget ht, takenLanes]

theorem callSlice_eq {e : Iss} {o : BitVec 24} {t : VAddr} {k : Nat} {y : Slice} (ht : targetOf e.pc o t)
    (hy : divided (e.g.sl k) (sliceMask k (activeOn e.g)) t (e.pc + 4) = some y) :
    callSlice e o k = some (if sliceMask k (activeOn e.g) = 0 then y else withReturn (sliceMask k (activeOn e.g)) (e.pc + 4) y) := by
  rw [divided_eq] at hy
  simp only [callSlice, target_jTarget ht, takenLanes, hy]
  exact (apply_ite some ..).symm

theorem callFault_none {e : Iss} {o : BitVec 24} {t : VAddr} {k : Nat} (ht : targetOf e.pc o t) (hsome : (callSlice e o k).isSome = true)
    (hroom : sliceMask k (activeOn e.g) ≠ 0 → (e.g.sl k).stack.length < 64) : callFault e o k = none := by
  have hfull : (takenLanes e k != 0 && decide (stackLimit ≤ (e.g.sl k).stack.length)) = false := by
    rw [Bool.and_eq_false_imp]
    exact fun htaken => decide_eq_false (Nat.not_le.2 (hroom (bne_iff_ne.1 htaken)))
  simp only [callFault, target_jTarget ht, hfull, Option.isNone_some, Option.isNone_eq_false_iff.2 hsome, Bool.false_eq_true, if_false]

theorem bra_divides {s : State} {e : Iss} {o : BitVec 24} {t : VAddr} (h : issOf s = some e) (hq : Quiet e) (hr : someRuns e)
    (ht : targetOf e.pc o t) (hd : ∀ k ∈ e.sls, (divided (e.g.sl k) (sliceMask k (activeOn e.g)) t (e.pc + 4)).isSome = true) :
    ∃ u, exec (.bra o) s = .next u ∧ SliceResult s u e fun k x => (divided x (sliceMask k (activeOn e.g)) t (e.pc + 4)).getD x := by
  rw [exec_bra]
  refine runsOn_result (f := braSlice e o) h ?_ hq hr rfl fun k hk => ?_
  · exact legal_go.2 fun k hk => by rw [braSlice_eq ht]; exact hd k hk
  · obtain ⟨y, hy⟩ := Option.isSome_iff_exists.1 (hd k hk)
    rw [braSlice_eq ht, hy]
    exact ⟨rfl, divided_runsOn hy⟩

theorem call_divides {s : State} {e : Iss} {o : BitVec 24} {t : VAddr} (h : issOf s = some e) (hq : Quiet e) (hr : someRuns e)
    (ht : targetOf e.pc o t) (hd : ∀ k ∈ e.sls, (divided (e.g.sl k) (sliceMask k (activeOn e.g)) t (e.pc + 4)).isSome = true ∧
      (sliceMask k (activeOn e.g) ≠ 0 → (e.g.sl k).stack.length < 64)) :
    ∃ u, exec (.call o) s = .next u ∧ SliceResult s u e fun k x =>
      match divided x (sliceMask k (activeOn e.g)) t (e.pc + 4) with
      | some y => if sliceMask k (activeOn e.g) = 0 then y else withReturn (sliceMask k (activeOn e.g)) (e.pc + 4) y
      | none => x := by
  rw [exec_call]
  refine runsOn_result (f := callSlice e o) h ?_ hq hr rfl fun k hk => ?_
  · refine judgeSlices_go.2 fun k hk => ?_
    obtain ⟨hsome, hroom⟩ := hd k hk
    obtain ⟨y, hy⟩ := Option.isSome_iff_exists.1 hsome
    exact callFault_none ht (by rw [callSlice_eq ht hy]; rfl) hroom
  · obtain ⟨y, hy⟩ := Option.isSome_iff_exists.1 (hd k hk).1
    rw [callSlice_eq ht hy, hy]
    refine ⟨rfl, ?_⟩
    dsimp only
    split
    · exact divided_runsOn hy
    · exact (divided_runsOn hy).withReturn _ _

/-- Settles O6: each slice of the cohort divides by R127, and CALL's return entry leaves a slice running. -/
theorem branchAndCall : Obligations.BranchAndCall := by
  unfold Obligations.BranchAndCall
  exact fun s e o t h hq hr ht => ⟨bra_divides h hq hr ht, call_divides h hq hr ht⟩

/-! ## BRX (R132) -/

theorem leadLane_eq (e : Iss) (k : Nat) :
    leadLane e k = 4 * k + ((List.range 4).filter fun j => runOn e.g (4 * k + j)).headD 0 := by
  unfold leadLane
  rw [List.headD_eq_head?_getD, List.head?_filter, List.find?_map]
  show (Option.map _ (List.find? (fun j => runOn e.g (4 * k + j)) _)).getD _ = _
  cases (List.range 4).find? fun j => runOn e.g (4 * k + j) <;> rfl

theorem brxSide_eq (e : Iss) (a : Byte) (k : Nat) : brxSide e a k = (brxGoes e a (leadLane e k), brxSideOf e a k) := by
  unfold brxSide brxSideOf
  rw [leadLane_eq]
  rfl

/-- What BRX makes of a slice that divides into `y`: with LNK it holds a return entry, unless its side falls through (R132). -/
def brxMade (e : Iss) (a : Byte) (lnk : BitVec 1) (k : Nat) (y : Slice) : Slice :=
  if lnk = 1 ∧ brxGoes e a (leadLane e k) ≠ (e.pc + 4).toNat then withReturn (brxSideOf e a k) (e.pc + 4) y else y

theorem brxMade_runsOn {e : Iss} {a : Byte} {lnk : BitVec 1} {k : Nat} {x y : Slice} (h : RunsOn x y) : RunsOn x (brxMade e a lnk k y) := by
  unfold brxMade
  split
  · exact h.withReturn _ _
  · exact h

theorem brxSlice_eq {e : Iss} {a : Byte} {lnk : BitVec 1} {k : Nat} {y : Slice}
    (hy : divided (e.g.sl k) (brxSideOf e a k) (BitVec.ofNat 56 (brxGoes e a (leadLane e k))) e.pc = some y) :
    brxSlice e a (lnk == 1) k = some (brxMade e a lnk k y) := by
  rw [divided_eq] at hy
  simp only [brxSlice, brxSide_eq, hy, brxMade, Bool.and_eq_true, beq_iff_eq, decide_eq_true_eq]
  split <;> rfl

theorem brxFault_none {e : Iss} {a : Byte} {lnk : BitVec 1} {k : Nat} (hpair : pairOk e.n a = true)
    (haddr : ∀ j < 4, activeOn e.g (4 * k + j) = true → rdPair e.g (4 * k + j) a % 4 = 0 ∧ rdPair e.g (4 * k + j) a < 2 ^ 56)
    (hsome : (brxSlice e a (lnk == 1) k).isSome = true) (hroom : lnk = 1 → (e.g.sl k).stack.length < 64) :
    brxFault e a (lnk == 1) k = none := by
  have hlanes : (((List.range 4).map fun j => 4 * k + j).any fun l => activeOn e.g l &&
      (rdPair e.g l a % 4 != 0 || decide (2 ^ 56 ≤ rdPair e.g l a))) = false := by
    rw [List.any_map, List.any_eq_false]
    intro j hj
    simp only [Function.comp_apply, Bool.and_eq_true, Bool.or_eq_true, bne_iff_ne, decide_eq_true_eq]
    rintro ⟨hact, hbad⟩
    obtain ⟨halign, hlow⟩ := haddr j (List.mem_range.1 hj) hact
    exact hbad.elim (fun hne => hne halign) (Nat.not_le.2 hlow)
  have hfull : ∀ p : Bool, (lnk == 1 && p && decide (stackLimit ≤ (e.g.sl k).stack.length)) = false := fun p => by
    rw [Bool.and_eq_false_imp]
    intro hlnk
    rw [Bool.and_eq_true, beq_iff_eq] at hlnk
    exact decide_eq_false (Nat.not_le.2 (hroom hlnk.1))
  simp only [brxFault, hpair, hlanes, hfull, Bool.not_true, Bool.false_eq_true, if_false, Option.isNone_eq_false_iff.2 hsome]

theorem brx_divides {s : State} {e : Iss} {a : Byte} {lnk : BitVec 1} (h : issOf s = some e) (hq : Quiet e) (hr : someRuns e)
    (hpair : pairOk e.n a = true) (hk : ∀ k ∈ e.sls,
      (∀ j < 4, activeOn e.g (4 * k + j) = true → rdPair e.g (4 * k + j) a % 4 = 0 ∧ rdPair e.g (4 * k + j) a < 2 ^ 56) ∧
      (divided (e.g.sl k) (brxSideOf e a k) (BitVec.ofNat 56 (brxGoes e a (leadLane e k))) e.pc).isSome = true ∧
      (lnk = 1 → (e.g.sl k).stack.length < 64)) :
    ∃ u, exec (.brx a lnk) s = .next u ∧ SliceResult s u e fun k x =>
      match divided x (brxSideOf e a k) (BitVec.ofNat 56 (brxGoes e a (leadLane e k))) e.pc with
      | some y => brxMade e a lnk k y
      | none => x := by
  rw [exec_brx]
  refine runsOn_result (f := brxSlice e a (lnk == 1)) h ?_ hq hr rfl fun k hmem => ?_
  · refine judgeSlices_go.2 fun k hmem => ?_
    obtain ⟨haddr, hsome, hroom⟩ := hk k hmem
    obtain ⟨y, hy⟩ := Option.isSome_iff_exists.1 hsome
    exact brxFault_none hpair haddr (by rw [brxSlice_eq hy]; rfl) hroom
  · obtain ⟨y, hy⟩ := Option.isSome_iff_exists.1 (hk k hmem).2.1
    rw [brxSlice_eq hy, hy]
    exact ⟨rfl, brxMade_runsOn (divided_runsOn hy)⟩

end Sys2Proof.Machine
end

section
/-! PROOFS. Proofs/Votes.lean: ELECT and VOTE (R138, R139). -/

namespace Sys2Proof.Machine

/-! ## The least and the bits of an ascending list -/

theorem head_iff_least {ls : List Nat} (hs : ls.Pairwise (· < ·)) {l : Nat} (hl : l ∈ ls) :
    (ls.head? == some l) = true ↔ ∀ j ∈ ls, l ≤ j := by
  cases ls with
  | nil => cases hl
  | cons x ls =>
    have hx : ∀ j ∈ ls, x < j := (List.pairwise_cons.1 hs).1
    rw [List.head?_cons, beq_iff_eq, Option.some.injEq]
    constructor
    · rintro rfl j hj
      rcases List.mem_cons.1 hj with rfl | hj
      · exact le_rfl
      · exact (hx j hj).le
    · intro hle
      rcases List.mem_cons.1 hl with rfl | hl
      · rfl
      · exact absurd (hle x List.mem_cons_self) (Nat.not_le.2 (hx l hl))

theorem testBit_sum_two_pow {ls : List Nat} (hs : ls.Pairwise (· < ·)) (j : Nat) :
    (ls.map fun l => 2 ^ l).sum.testBit j = decide (j ∈ ls) := by
  rw [Bool.eq_iff_iff, decide_eq_true_eq, ← Nat.mem_bitIndices, Nat.bitIndices_sum_map_two_pow hs.sortedLT]

/-! ## ELECT (R138) -/

/-- Whether lane `l` is the one that ELECT chooses, of the cohort or of the lane's slice. -/
def elected (e : Iss) (sub : BitVec 1) (l : Nat) : Bool :=
  if sub = 0 then e.active.head? == some l else (e.active.filter fun j => j / 4 == l / 4).head? == some l

theorem elect_elects {s : State} {e : Iss} (d : BitVec 3) (sub : BitVec 1) (h : issOf s = some e) (hroom : RoomForTraps e) :
    ∃ t, exec (.elect d sub) s = .next t ∧ PredResult s t e d.toNat (elected e sub) noConds := by
  rw [exec_elect]
  exact pred_spec h rfl hroom rfl

theorem elected_cohort {e : Iss} {l : Nat} (hl : l ∈ e.active) : elected e 0 l = true ↔ ∀ j ∈ e.active, l ≤ j :=
  head_iff_least (active_sorted e) hl

theorem elected_slice {e : Iss} {l : Nat} (hl : l ∈ e.active) : elected e 1 l = true ↔ ∀ j ∈ e.active, j / 4 = l / 4 → l ≤ j := by
  refine (head_iff_least ((active_sorted e).filter fun j => j / 4 == l / 4) (List.mem_filter.2 ⟨hl, beq_self_eq_true _⟩)).trans ?_
  simp only [List.mem_filter, beq_iff_eq, and_imp]

/-! ## VOTE (R139) -/

/-- The value of ALL, ANY or EQ over predicate `p` in the active lanes. -/
def voted (e : Iss) (p : Nat) (sub : BitVec 2) : Bool :=
  if sub = 0 then e.active.all (predAt e.g p) else if sub = 1 then e.active.any (predAt e.g p)
  else e.active.all (predAt e.g p) || !e.active.any (predAt e.g p)

theorem vote_votes {s : State} {e : Iss} (d : Byte) (a : BitVec 3) {sub : BitVec 2} (h : issOf s = some e) (hroom : RoomForTraps e)
    (hsub : sub ≠ 3) : ∃ t, exec (.vote d a sub) s = .next t ∧ PredResult s t e d.toNat (fun _ => voted e a.toNat sub) noConds := by
  rw [exec_vote]
  exact pred_spec h (legal_go.2 fun _ _ => by rw [bne_iff_ne.2 hsub, Bool.true_or]) hroom (if_neg hsub)

theorem all_or_none_iff {ls : List Nat} {p : Nat → Bool} : (ls.all p || !ls.any p) = true ↔ ∀ i ∈ ls, ∀ j ∈ ls, p i = p j := by
  constructor
  · intro h
    rw [Bool.or_eq_true, List.all_eq_true, Bool.not_eq_true', List.any_eq_false] at h
    rcases h with hall | hnone
    · exact fun i hi j hj => by rw [hall i hi, hall j hj]
    · exact fun i hi j hj => by rw [Bool.eq_false_iff.2 (hnone i hi), Bool.eq_false_iff.2 (hnone j hj)]
  · intro h
    cases hany : ls.any p with
    | false => simp
    | true =>
      obtain ⟨i, hi, hpi⟩ := List.any_eq_true.1 hany
      rw [Bool.or_eq_true, List.all_eq_true]
      exact .inl fun j hj => (h j hj i hi).trans hpi

theorem ballot_testBit (e : Iss) (p j : Nat) : (ballot e p).testBit j = decide (j ∈ e.active ∧ predAt e.g p j = true) := by
  unfold ballot
  rw [testBit_sum_two_pow ((active_sorted e).filter _)]
  simp only [List.mem_filter]

theorem ballot_lt (e : Iss) (p : Nat) : ballot e p < 2 ^ 32 :=
  Nat.lt_pow_two_of_testBit _ fun j hj => by
    rw [ballot_testBit, decide_eq_false_iff_not]
    exact fun h => absurd (active_lt h.1) (Nat.not_lt.2 hj)

theorem vote_ballot {s : State} {e : Iss} {d : Byte} (a : BitVec 3) (h : issOf s = some e) (hroom : RoomForTraps e) (hd : declOk e.n d = true) :
    ∃ t, exec (.vote d a 3) s = .next t ∧ Result s t e e.active d (fun _ => false) (fun _ => ballot e a.toNat) noConds := by
  rw [exec_vote]
  refine result_spec h (legal_go.2 fun _ _ => by rw [hd, Bool.or_true]) hroom ⟨false, rfl⟩ fun _ _ hw => ?_
  cases hw

/-- Settles O11: the lowest active lane is the head of the ascending list of active lanes, and the ballot is the sum of its lanes' bits. -/
theorem electionsAndVotes : Obligations.ElectionsAndVotes := by
  unfold Obligations.ElectionsAndVotes
  refine ⟨fun s e d h hroom => ⟨?_, ?_⟩, fun s e d a h hroom => ⟨?_, ?_, ?_, fun hd => ?_⟩⟩
  · obtain ⟨t, ht, hres⟩ := elect_elects d 0 h hroom
    exact ⟨t, _, ht, hres, fun _ => elected_cohort⟩
  · obtain ⟨t, ht, hres⟩ := elect_elects d 1 h hroom
    exact ⟨t, _, ht, hres, fun _ => elected_slice⟩
  · obtain ⟨t, ht, hres⟩ := vote_votes d a (sub := 0) h hroom (by decide)
    exact ⟨t, _, ht, hres, fun _ _ => List.all_eq_true⟩
  · obtain ⟨t, ht, hres⟩ := vote_votes d a (sub := 1) h hroom (by decide)
    exact ⟨t, _, ht, hres, fun _ _ => List.any_eq_true⟩
  · obtain ⟨t, ht, hres⟩ := vote_votes d a (sub := 2) h hroom (by decide)
    exact ⟨t, _, ht, hres, fun _ _ => all_or_none_iff⟩
  · obtain ⟨t, ht, hres⟩ := vote_ballot a h hroom hd
    exact ⟨t, _, ht, hres, fun _ _ => ⟨ballot_lt e _, fun j _ => ballot_testBit e _ j⟩⟩

end Sys2Proof.Machine
end

section
/-! PROOFS. Proofs/StackOperations.lean: RET, RPUSH, JOIN and the unwinding of the reconvergence stack (R128, R131, R133, R134). -/

namespace Sys2Proof.Machine

/-! ## Instructions that act on the top entry -/

/-- An instruction that makes `f` of each slice, and is legal where `f` is defined. -/
theorem top_result {s : State} {e : Iss} {f : Slice → Option Slice} {F : Slice → Slice} (h : issOf s = some e) (hq : Quiet e)
    (hf : ∀ k ∈ e.sls, f (e.g.sl k) = some (F (e.g.sl k))) (hframe : ∀ x, (F x).retired = x.retired ∧ (F x).regang = x.regang)
    (hlive : ∃ k ∈ e.sls, ∃ y, e.g.slices[k]? = some y ∧ (F y).run ≠ 0) :
    ∃ t, issue s (fun e => legal e fun k => (f (e.g.sl k)).isSome) (fun e => sliceBody e fun _ x => (f x).getD x) = .next t ∧
      SliceResult s t e fun _ x => F x := by
  have heq : ∀ k x, k ∈ e.sls → e.g.slices[k]? = some x → (f x).getD x = F x := fun k x hk hx => by
    have hfk := hf k hk
    rw [sl_of hx] at hfk
    rw [hfk, Option.getD_some]
  obtain ⟨k, hk, y, hy, hrun⟩ := hlive
  refine slice_result (F := fun _ x => F x) h ?_ hq rfl heq ⟨k, hk, y, hy, fin_run hrun⟩ fun i hi x hx => ?_
  · exact legal_go.2 fun i hi => by rw [hf i hi]; rfl
  · rw [heq i x hi hx]
    exact hframe x

/-! ## RET (R131) -/

/-- A slice after RET: the lanes of its top entry that have not exited go on at the return address. -/
def afterRet (y : Slice) : Slice :=
  match y.stack with
  | x :: r => { y with run := x.lanes &&& ~~~y.exited, pc := x.pc, stack := r }
  | [] => y

theorem afterRet_frame (y : Slice) : (afterRet y).retired = y.retired ∧ (afterRet y).regang = y.regang := by
  unfold afterRet
  split <;> exact ⟨rfl, rfl⟩

theorem retSlice_eq {y : Slice} (h : ∃ x r, y.stack = x :: r ∧ x.kind = .call) : retSlice y = some (afterRet y) := by
  obtain ⟨x, r, hs, hk⟩ := h
  simp only [retSlice, afterRet, hs, hk, beq_self_eq_true, if_true]

theorem retSlice_none {y : Slice} (h : ¬ ∃ x r, y.stack = x :: r ∧ x.kind = .call) : retSlice y = none := by
  unfold retSlice
  split
  · rfl
  · rename_i x r hs
    exact if_neg fun hk => h ⟨x, r, hs, beq_iff_eq.1 hk⟩

theorem ret_returns {s : State} {e : Iss} (h : issOf s = some e) (hq : Quiet e)
    (htop : ∀ k ∈ e.sls, ∃ x r, (e.g.sl k).stack = x :: r ∧ x.kind = .call)
    (hlive : ∃ k ∈ e.sls, ∃ y x r, e.g.slices[k]? = some y ∧ y.stack = x :: r ∧ x.lanes &&& ~~~y.exited ≠ 0) :
    ∃ t, exec .ret s = .next t ∧ SliceResult s t e fun _ y => afterRet y := by
  obtain ⟨k, hk, y, x, r, hy, hs, hl⟩ := hlive
  rw [exec_ret]
  refine top_result h hq (fun i hi => retSlice_eq (htop i hi)) afterRet_frame ⟨k, hk, y, hy, ?_⟩
  simpa only [afterRet, hs] using hl

theorem ret_faults {s : State} {e : Iss} {k : Nat} (h : issOf s = some e)
    (hk : lowestSuch e k fun k => ¬ ∃ x r, (e.g.sl k).stack = x :: r ∧ x.kind = .call) :
    exec .ret s = .next (raise e k .illegalOp 0) := by
  rw [exec_ret]
  refine legal_fault h rfl (lowestSuch_congr hk fun i _ => ⟨fun hno => by rw [retSlice_none hno]; rfl, fun hnone hyes => ?_⟩)
  rw [retSlice_eq hyes] at hnone
  cases hnone

/-! ## RPUSH (R133) -/

theorem rpushFault_none {e : Iss} {o : BitVec 24} {t : VAddr} {k : Nat} (ht : targetOf e.pc o t) (hroom : (e.g.sl k).stack.length < 64) :
    rpushFault e o k = none := by
  simp only [rpushFault, target_jTarget ht, Option.isNone_some, Bool.false_eq_true, if_false]
  exact if_neg (Nat.not_le.2 hroom)

theorem rpushFault_full {e : Iss} {o : BitVec 24} {t : VAddr} {k : Nat} (ht : targetOf e.pc o t) (hfull : 64 ≤ (e.g.sl k).stack.length) :
    rpushFault e o k = some .stackOverflow := by
  simp only [rpushFault, target_jTarget ht, Option.isNone_some, Bool.false_eq_true, if_false]
  exact if_pos hfull

theorem rpush_pushes {s : State} {e : Iss} {o : BitVec 24} {t : VAddr} (h : issOf s = some e) (hq : Quiet e) (ht : targetOf e.pc o t)
    (hr : someRuns e) (hroom : ∀ k ∈ e.sls, (e.g.sl k).stack.length < 64) :
    ∃ u, exec (.rpush o) s = .next u ∧ SliceResult s u e fun _ y => { y with
      stack := { kind := .joinpt, lanes := y.run, pc := t, pend := 0, ppc := 0 } :: y.stack, pc := y.pc + 4 } := by
  obtain ⟨k, hk, y, hy, hrun⟩ := hr
  rw [exec_rpush]
  refine slice_result h ?_ hq rfl (fun i x _ _ => ?_) ⟨k, hk, y, hy, fin_run hrun⟩ fun _ _ _ _ => ⟨rfl, rfl⟩
  · exact judgeSlices_go.2 fun i hi => rpushFault_none ht (hroom i hi)
  · rw [target_jTarget ht, Option.getD_some]

theorem rpush_overflows {s : State} {e : Iss} {o : BitVec 24} {t : VAddr} {k : Nat} (h : issOf s = some e) (ht : targetOf e.pc o t)
    (hk : lowestSuch e k fun k => 64 ≤ (e.g.sl k).stack.length) : exec (.rpush o) s = .next (raise e k .stackOverflow 0) := by
  rw [exec_rpush]
  refine judge_fault h rfl (lowestSuch_congr hk fun i _ => ⟨fun hfull => by rw [rpushFault_full ht hfull]; rfl, fun hsome => ?_⟩)
    (rpushFault_full ht hk.2.1)
  by_contra hroom
  rw [rpushFault_none ht (Nat.not_le.1 hroom)] at hsome
  cases hsome

/-! ## JOIN (R134) -/

/-- A slice after JOIN: the waiting side of its top entry is released, or the entry is popped and its lanes go on past the JOIN. -/
def joined (y : Slice) : Slice :=
  match y.stack with
  | x :: r =>
    if x.pend = 0 then { y with run := x.lanes &&& ~~~y.exited, pc := y.pc + 4, stack := r }
    else { y with run := x.pend, pc := x.ppc, stack := { x with pend := 0 } :: r }
  | [] => y

theorem joined_frame (y : Slice) : (joined y).retired = y.retired ∧ (joined y).regang = y.regang := by
  unfold joined
  split
  · split <;> exact ⟨rfl, rfl⟩
  · exact ⟨rfl, rfl⟩

theorem joined_runs {y : Slice} {x : StackEntry} {r : List StackEntry} (hs : y.stack = x :: r)
    (hl : x.pend ≠ 0 ∨ x.lanes &&& ~~~y.exited ≠ 0) : (joined y).run ≠ 0 := by
  simp only [joined, hs]
  split
  · rename_i hpend
    exact hl.resolve_left (not_not_intro hpend)
  · assumption

theorem joinSlice_eq {y : Slice} (h : ∃ x r, y.stack = x :: r ∧ x.kind = .joinpt ∧ x.pc = y.pc) : joinSlice y = some (joined y) := by
  obtain ⟨x, r, hs, hk, hpc⟩ := h
  simp only [joinSlice, joined, hs, hk, hpc, beq_self_eq_true, Bool.and_self, if_true, bne_iff_ne, ne_eq, ite_not]
  split <;> rfl

theorem joinSlice_none {y : Slice} (h : ¬ ∃ x r, y.stack = x :: r ∧ x.kind = .joinpt ∧ x.pc = y.pc) : joinSlice y = none := by
  unfold joinSlice
  split
  · rfl
  · rename_i x r hs
    refine if_neg fun htop => h ⟨x, r, hs, ?_⟩
    rwa [Bool.and_eq_true, beq_iff_eq, beq_iff_eq] at htop

theorem join_joins {s : State} {e : Iss} (h : issOf s = some e) (hq : Quiet e)
    (htop : ∀ k ∈ e.sls, ∃ x r, (e.g.sl k).stack = x :: r ∧ x.kind = .joinpt ∧ x.pc = (e.g.sl k).pc)
    (hlive : ∃ k ∈ e.sls, ∃ y x r, e.g.slices[k]? = some y ∧ y.stack = x :: r ∧ (x.pend ≠ 0 ∨ x.lanes &&& ~~~y.exited ≠ 0)) :
    ∃ t, exec .join s = .next t ∧ SliceResult s t e fun _ y => joined y := by
  obtain ⟨k, hk, y, x, r, hy, hs, hl⟩ := hlive
  rw [exec_join]
  exact top_result h hq (fun i hi => joinSlice_eq (htop i hi)) joined_frame ⟨k, hk, y, hy, joined_runs hs hl⟩

theorem join_faults {s : State} {e : Iss} {k : Nat} (h : issOf s = some e)
    (hk : lowestSuch e k fun k => ¬ ∃ x r, (e.g.sl k).stack = x :: r ∧ x.kind = .joinpt ∧ x.pc = (e.g.sl k).pc) :
    exec .join s = .next (raise e k .illegalOp 0) := by
  rw [exec_join]
  refine legal_fault h rfl (lowestSuch_congr hk fun i _ => ⟨fun hno => by rw [joinSlice_none hno]; rfl, fun hnone hyes => ?_⟩)
  rw [joinSlice_eq hyes] at hnone
  cases hnone

/-! ## Unwinding (R128) -/

theorem unwind_releases {x : Slice} {a : StackEntry} {r : List StackEntry} (hk : a.kind = .joinpt) (hp : a.pend ≠ 0) :
    unwind x (a :: r) = { x with run := a.pend, pc := a.ppc, stack := { a with pend := 0 } :: r } := by
  rw [unwind]
  exact if_pos (by rw [hk, beq_self_eq_true, Bool.true_and, bne_iff_ne]; exact hp)

theorem unwind_pops {x : Slice} {a : StackEntry} {r : List StackEntry} (h : a.kind ≠ .joinpt ∨ a.pend = 0) :
    unwind x (a :: r) =
      (let y := if a.kind = .trap then { x with mode := a.mode, im := a.im } else x
       if a.lanes &&& ~~~x.exited ≠ 0 then
         { y with run := a.lanes &&& ~~~x.exited, pc := if a.kind = .joinpt then a.pc + 4 else a.pc, stack := r }
       else unwind y r) := by
  have hno : ¬ (a.kind == .joinpt && a.pend != 0) = true := by
    rw [Bool.and_eq_true, beq_iff_eq, bne_iff_ne]
    exact fun ⟨hk, hp⟩ => h.elim (fun hne => hne hk) hp
  rw [unwind, if_neg hno]
  simp only [beq_iff_eq, bne_iff_ne, apply_ite Slice.exited, ite_self]

/-- Settles O19: RET and JOIN act on the top entry, RPUSH and BRX's link push one, and unwinding follows the stack. -/
theorem stackAndUnwinding : Obligations.StackAndUnwinding := by
  unfold Obligations.StackAndUnwinding
  refine ⟨fun s e h hq => ⟨ret_returns h hq, fun k hk => ret_faults h hk, fun o t ht hr hroom => rpush_pushes h hq ht hr hroom,
    fun o t k ht hk => rpush_overflows h ht hk, join_joins h hq, fun k hk => join_faults h hk,
    fun a lnk hpair hr hk => brx_divides h hq hr hpair fun k hmem => (hk k hmem).2⟩,
    fun x a r => ⟨rfl, unwind_releases, fun hpop y hy => ?_⟩⟩
  subst hy
  rw [unwind_pops hpop]
  exact ⟨fun hl => if_pos hl, fun hl => if_neg (not_not_intro hl)⟩

end Sys2Proof.Machine
end

section
/-! PROOFS. Proofs/GroupEnds.lean: EXIT and REGANG, and what the end of an issue settles of the gang (R115, R128, R135, R136). -/

namespace Sys2Proof.Machine

/-! ## The slices after an issue -/

theorem sliceBody_file (e : Iss) (f : Nat → Slice → Slice) : SameFile e.g (sliceBody e f).g :=
  ⟨rfl, rfl, rfl, rfl, rfl, rfl, rfl, rfl, rfl, rfl⟩

/-- The slices of a gang whose cohort has changed its slices by `f` and retired (R81). -/
theorem retired_slice {e : Iss} {g r : Gang} {f : Nat → Slice → Slice} (hr : r.slices = (sliceBody e f).g.slices)
    (hg : g.slices = (retireGang e r).slices) (k : Nat) : g.slices[k]? = (e.g.slices[k]?).map (countRetired e k (f k)) := by
  rw [hg, retireGang_slice, hr]
  show ((e.g.slices.mapIdx fun k (x : Slice) => if e.mask.getLsbD k then f k x else x)[k]?).map _ = _
  rw [List.getElem?_mapIdx, Option.map_map]
  cases e.g.slices[k]? with
  | none => rfl
  | some x =>
    simp only [Option.map_some, Function.comp_apply, countRetired]
    split <;> rfl

/-- Where REGANG's settling puts the gang `g`, the gang of the issue is `g` in the end. -/
theorem afterSettle_setGang {e : Iss} {s : State} (gid : Nat) (g : Gang) (hgi : e.gi < s.exe.gangs.length) :
    (afterSettle e gid (setGang s e.gi g)).exe.gangs[e.gi]? = some g := by
  rw [afterSettle_gangs, setGang_gangs, modAt_get, if_pos rfl, List.getElem?_eq_getElem hgi]
  rfl

/-! ## EXIT (R136) -/

theorem exitSlice_eq (act : BitVec 4) (x : Slice) : exitSlice act x = afterExit act x := rfl

theorem afterExit_regang (act : BitVec 4) (x : Slice) : (afterExit act x).regang = x.regang := by
  unfold afterExit
  split
  · exact unwind_regang _ _
  · rfl

/-- What EXIT does of its own: its lanes end, and their regions close (R136, R356). -/
def exitBody (e : Iss) : Eff :=
  let r := sliceBody e fun k x => exitSlice (e.act k) x
  { r with g := { r.g with opens := r.g.opens.filter fun o => !activeOn e.g o.lane || !e.mask.getLsbD (o.lane / 4) } }

theorem exec_exit_eq {s : State} {e : Iss} (h : issOf s = some e) : exec .exit s = .next (finish e (exitBody e)) := by
  rw [exec_exit]
  exact issue_go h rfl

/-- A running group all of whose gangs have ended is EXITING (R115). -/
theorem groupExit_exits {s : State} {gid : Nat} {grp : Group} (hg : s.exe.groups[gid]? = some grp) (hrun : grp.state = .running)
    (hend : ∀ i ∈ grp.gangs, ∀ g, s.exe.gangs[i]? = some g → gangEnded g = true) :
    ((groupExit s gid).exe.groups[gid]?).map Group.state = some .exiting := by
  have hlapse : lapse s gid grp = s := by
    unfold lapse
    rw [hrun]
  unfold groupExit
  rw [hg]
  dsimp only
  rw [hlapse, if_pos]
  · rw [modAt_get, if_pos rfl, hg]
    rfl
  · rw [hrun, Bool.and_eq_true, List.all_eq_true]
    refine ⟨rfl, fun i hi => ?_⟩
    split
    · exact hend i hi _ ‹_›
    · rfl

/-- The group of a cohort outside fixed gear after its issue is what its exit leaves. -/
theorem afterSettle_groups {e : Iss} (hf : e.kern.fixed = false) (gid : Nat) (s : State) :
    (afterSettle e gid s).exe.groups = (groupExit s gid).exe.groups := by
  simp only [afterSettle, hf, Bool.false_eq_true, if_false, idle_groups, noteIssue_groups]

theorem exit_slices_regang {e : Iss} {g : Gang} (hsl : ∀ k, g.slices[k]? = (e.g.slices[k]?).map (countRetired e k (afterExit (e.act k))))
    (hno : ∀ k < 8, (e.g.sl k).regang = none) : ∀ k < 8, (g.sl k).regang = none := by
  intro k hk
  cases hx : e.g.slices[k]? with
  | none =>
    have hg : g.slices[k]? = none := by rw [hsl, hx]; rfl
    show ((g.slices[k]?).getD { pc := 0 }).regang = none
    rw [hg]
    rfl
  | some x =>
    have hg : g.slices[k]? = some (countRetired e k (afterExit (e.act k)) x) := by rw [hsl, hx]; rfl
    have hxk := hno k hk
    rw [sl_of hx] at hxk
    rw [sl_of hg]
    unfold countRetired
    split
    · exact (afterExit_regang _ _).trans hxk
    · exact hxk

/-- EXIT leaves no slice at REGANG where none stood there: nothing is settled, and the group may end. -/
theorem exit_ends {s : State} {e : Iss} (h : issOf s = some e) (hq : Quiet e) (hno : ∀ k < 8, (e.g.sl k).regang = none) :
    ∃ ps g, finish e (exitBody e) = afterSettle e g.grp (setGang { s with ctl := { s.ctl with parts := ps } } e.gi g) ∧
      g.grp = e.g.grp ∧ ∀ k, g.slices[k]? = (e.g.slices[k]?).map (countRetired e k (afterExit (e.act k))) := by
  obtain ⟨ps, g, hslices, hfile, -, -, heq⟩ := finish_chain (r := exitBody e) hq
  have hsl := retired_slice (f := fun k x => exitSlice (e.act k) x) rfl hslices
  refine ⟨ps, g, ?_, hfile.grp, hsl⟩
  rw [heq, settleRegang, allRegang_none (exit_slices_regang hsl hno)]
  show afterSettle e g.grp (setGang { e.s with ctl := { e.s.ctl with parts := ps } } e.gi g) = _
  rw [(issOf_some h).1]

/-- Settles O20: no slice stands at REGANG, so that the gang's slices stay as they ended, and the group's exit is the last word. -/
theorem exitEndsLanes : Obligations.ExitEndsLanes := by
  unfold Obligations.ExitEndsLanes
  intro s e h hq hno
  obtain ⟨ps, g, heq, hgrp, hsl⟩ := exit_ends h hq hno
  obtain ⟨hes, -, -, hgroup, -⟩ := issOf_some h
  have hgi := issOf_gi_lt h
  have hst : (exitBody e).st = s := hes
  obtain ⟨g', hg', hafter, honly, hcur⟩ := finish_spec e (exitBody e) (noOverflow_quiet hq _) (by rw [hst]; exact hgi)
  rw [hst] at honly
  have hgang : (finish e (exitBody e)).exe.gangs[e.gi]? = some g := by rw [heq]; exact afterSettle_setGang _ g hgi
  obtain rfl : g' = g := Option.some.inj (hg'.symm.trans hgang)
  have hfile := hafter.file
  refine ⟨_, g', exec_exit_eq h, hg', honly, hcur, fun k x hx => by rw [hsl, hx]; rfl, hfile.regs, hfile.preds, hfile.sregs, hafter.issues,
    hfile.opens, fun hend hfix hrun => ?_⟩
  rw [heq, afterSettle_gangs] at hend
  rw [heq, afterSettle_groups hfix, hgrp]
  refine groupExit_exits hgroup hrun fun i hi y hy => List.all_eq_true.2 fun x hx => ?_
  obtain ⟨hrun0, hstack⟩ := hend i hi y hy x hx
  simp [Slice.finished, hrun0, hstack]

/-! ## Slices stopped at REGANG (R135) -/

theorem mem_liveSlices {g : Gang} {k : Nat} : k ∈ liveSlices g ↔ k < 8 ∧ (g.sl k).finished = false := by
  unfold liveSlices
  rw [List.mem_filter, List.mem_range, Bool.not_eq_true']

theorem liveSlices_sorted (g : Gang) : (liveSlices g).Pairwise (· < ·) := List.pairwise_lt_range.filter _

/-- The lowest of the slices that have not finished. -/
theorem liveSlices_low {g : Gang} {k : Nat} (hk : k ∈ liveSlices g) :
    (liveSlices g).headD 0 ∈ liveSlices g ∧ ∀ j ∈ liveSlices g, (liveSlices g).headD 0 ≤ j := by
  have hs := liveSlices_sorted g
  generalize liveSlices g = ls at *
  cases ls with
  | nil => cases hk
  | cons x ls =>
    refine ⟨List.mem_cons_self, fun j hj => ?_⟩
    rcases List.mem_cons.1 hj with rfl | hj
    · exact le_rfl
    · exact ((List.pairwise_cons.1 hs).1 j hj).le

theorem allRegang_true {g : Gang} {k : Nat} (hk : k ∈ liveSlices g) (h : ∀ j ∈ liveSlices g, (g.sl j).regang ≠ none) : allRegang g = true := by
  unfold allRegang
  rw [Bool.and_eq_true, Bool.not_eq_true', List.isEmpty_eq_false_iff_exists_mem, List.all_eq_true]
  exact ⟨⟨k, hk⟩, fun j hj => bne_iff_ne.2 (h j hj)⟩

theorem regangAgrees_iff {g : Gang} {k : Nat} (hk : k ∈ liveSlices g) : regangAgrees g = true ↔
    ∀ j ∈ liveSlices g, (g.sl j).pc = (g.sl k).pc ∧ (g.sl j).regang = (g.sl k).regang := by
  have hlow := (liveSlices_low hk).1
  simp only [regangAgrees, List.all_eq_true, Bool.and_eq_true, beq_iff_eq]
  constructor
  · intro h j hj
    obtain ⟨hpc, hreg⟩ := h j hj
    obtain ⟨hpck, hregk⟩ := h k hk
    exact ⟨hpc.trans hpck.symm, hreg.trans hregk.symm⟩
  · intro h j hj
    obtain ⟨hpc, hreg⟩ := h j hj
    obtain ⟨hpcl, hregl⟩ := h _ hlow
    exact ⟨hpc.trans hpcl.symm, hreg.trans hregl.symm⟩

/-! ## REGANG (R135) -/

/-- What REGANG does of its own: the slices of its cohort stop. -/
def regangBody (e : Iss) (tok : BitVec 24) : Eff := sliceBody e fun _ x => { x with regang := some tok }

theorem exec_regang_eq {s : State} {e : Iss} (tok : BitVec 24) (h : issOf s = some e) :
    exec (.regang tok) s = .next (finish e (regangBody e tok)) := by
  rw [exec_regang]
  exact issue_go h rfl

/-- A slice after REGANG has retired: it has stopped where the cohort holds it. -/
def atRegang (e : Iss) (tok : BitVec 24) (k : Nat) (x : Slice) : Slice := countRetired e k (fun x => { x with regang := some tok }) x

theorem atRegang_frame (e : Iss) (tok : BitVec 24) (k : Nat) (x : Slice) :
    (atRegang e tok k x).finished = x.finished ∧ (atRegang e tok k x).pc = x.pc := by
  unfold atRegang countRetired
  split <;> exact ⟨rfl, rfl⟩

theorem atRegang_regang (e : Iss) (tok : BitVec 24) (k : Nat) (x : Slice) :
    (atRegang e tok k x).regang = if e.mask.getLsbD k then some tok else x.regang := by
  unfold atRegang countRetired
  split <;> rfl

/-- The gang `g` is the cohort's with its slices stopped at REGANG and retired. -/
def Stopped (e : Iss) (tok : BitVec 24) (g : Gang) : Prop := ∀ k, g.slices[k]? = (e.g.slices[k]?).map (atRegang e tok k)

section
variable {s : State} {e : Iss} {tok : BitVec 24} {g : Gang}

/-- REGANG ends with its slices stopped, and the gang settled. -/
theorem regang_settles (h : issOf s = some e) (hq : Quiet e) : ∃ ps g, Stopped e tok g ∧
    finish e (regangBody e tok) = afterSettle e g.grp
      (settleRegang { s with ctl := { s.ctl with parts := ps } } e.gi e.grp e.kern false g) := by
  obtain ⟨ps, g, hslices, -, -, -, heq⟩ := finish_chain (r := regangBody e tok) hq
  refine ⟨ps, g, retired_slice rfl hslices, ?_⟩
  rw [heq]
  show afterSettle e g.grp (settleRegang { e.s with ctl := { e.s.ctl with parts := ps } } e.gi e.grp e.kern false g) = _
  rw [(issOf_some h).1]

theorem stopped_sl (hg : Stopped e tok g) (hlen : e.g.slices.length = 8) {k : Nat} (hk : k < 8) : g.sl k = atRegang e tok k (e.g.sl k) := by
  have hx : e.g.slices[k]? = some (e.g.slices[k]'(hlen ▸ hk)) := List.getElem?_eq_getElem _
  rw [sl_of hx]
  exact sl_of (by rw [hg k, hx]; rfl)

theorem stopped_live (hg : Stopped e tok g) (hlen : e.g.slices.length = 8) : liveSlices g = liveSlices e.g :=
  List.filter_congr fun k hk => by rw [stopped_sl hg hlen (List.mem_range.1 hk), (atRegang_frame e tok k _).1]

theorem stopped_pc (hg : Stopped e tok g) (hlen : e.g.slices.length = 8) {k : Nat} (hk : k < 8) : (g.sl k).pc = (e.g.sl k).pc := by
  rw [stopped_sl hg hlen hk, (atRegang_frame e tok k _).2]

theorem stopped_in (hg : Stopped e tok g) (hlen : e.g.slices.length = 8) {k : Nat} (hk : k ∈ e.sls) : (g.sl k).regang = some tok := by
  rw [stopped_sl hg hlen (sls_lt hk), atRegang_regang, if_pos (getLsbD_of_mem_sls hk)]

theorem stopped_out (hg : Stopped e tok g) (hlen : e.g.slices.length = 8) {k : Nat} (hk : k < 8) (hout : k ∉ e.sls) :
    (g.sl k).regang = (e.g.sl k).regang := by
  rw [stopped_sl hg hlen hk, atRegang_regang, if_neg fun hm => hout (mem_mask.2 ⟨hk, hm⟩)]

/-- All have stopped where every slice outside the cohort has finished or had stopped before. -/
theorem stopped_all (hg : Stopped e tok g) (hlen : e.g.slices.length = 8) {c : Nat} (hc : c ∈ e.sls) (hcf : (e.g.sl c).finished = false)
    (hout : ∀ k < 8, k ∉ e.sls → (e.g.sl k).finished = true ∨ (e.g.sl k).regang ≠ none) : c ∈ liveSlices g ∧ allRegang g = true := by
  have hcg : c ∈ liveSlices g := by rw [stopped_live hg hlen]; exact mem_liveSlices.2 ⟨sls_lt hc, hcf⟩
  refine ⟨hcg, allRegang_true hcg fun k hk => ?_⟩
  rw [stopped_live hg hlen, mem_liveSlices] at hk
  by_cases hin : k ∈ e.sls
  · simp [stopped_in hg hlen hin]
  · rw [stopped_out hg hlen hk.1 hin]
    exact (hout k hk.1 hin).resolve_left (by simp [hk.2])

theorem regangMerge_slice (hg : Stopped e tok g) {k : Nat} {x : Slice} (hx : e.g.slices[k]? = some x) :
    (regangMerge g).slices[k]? = some (if x.finished then countRetired e k (fun x => { x with regang := some tok }) x
      else { countRetired e k id x with regang := none, pc := x.pc + 4 }) := by
  show (g.slices.map _)[k]? = _
  rw [List.getElem?_map, hg k, hx]
  simp only [Option.map_some, (atRegang_frame e tok k x).1, Option.some.injEq]
  split
  · rfl
  · unfold atRegang countRetired
    split <;> rfl

/-- The cohort stops, and waits while another slice still runs. -/
theorem regang_waits (h : issOf s = some e) (hq : Quiet e) (hlen : e.g.slices.length = 8)
    (hother : ∃ k < 8, k ∉ e.sls ∧ (e.g.sl k).finished = false ∧ (e.g.sl k).regang = none) :
    ∃ t, exec (.regang tok) s = .next t ∧ SliceResult s t e fun _ x => { x with regang := some tok } := by
  obtain ⟨k, hk, hout, hfin, hreg⟩ := hother
  have hx : e.g.slices[k]? = some (e.g.slices[k]'(hlen ▸ hk)) := List.getElem?_eq_getElem _
  have hm : ¬ e.mask.getLsbD k = true := fun hm => hout (mem_mask.2 ⟨hk, hm⟩)
  rw [exec_regang]
  refine slice_spec h rfl hq (issOf_some h).1 rfl (sliceBody_file e _) rfl hk hx ?_ ?_ fun _ _ _ _ => rfl
  · rw [if_neg hm, ← sl_of hx, hfin]
  · rw [if_neg hm, ← sl_of hx, hreg]

/-- The stopped slices agree, and go on as one cohort. -/
theorem regang_merges (h : issOf s = some e) (hq : Quiet e) (hlen : e.g.slices.length = 8) (hr : someRuns e)
    (hout : ∀ k < 8, k ∉ e.sls → (e.g.sl k).finished = true ∨ ((e.g.sl k).regang = some tok ∧ (e.g.sl k).pc = e.pc))
    (hin : ∀ k ∈ e.sls, (e.g.sl k).pc = e.pc ∧ (e.g.sl k).finished = false) :
    ∃ g, Stopped e tok g ∧ (finish e (regangBody e tok)).exe.gangs[e.gi]? = some (regangMerge g) := by
  have hgi := issOf_gi_lt h
  obtain ⟨c, hc, -⟩ := hr
  obtain ⟨ps, g, hg, heq⟩ := regang_settles (tok := tok) h hq
  obtain ⟨hcg, hall⟩ := stopped_all hg hlen hc (hin c hc).2 fun k hk hk' => (hout k hk hk').imp_right fun hs => by simp [hs.1]
  have hagree : regangAgrees g = true := by
    refine (regangAgrees_iff hcg).2 fun k hk => ?_
    rw [stopped_live hg hlen, mem_liveSlices] at hk
    rw [stopped_pc hg hlen hk.1, stopped_pc hg hlen (sls_lt hc), (hin c hc).1, stopped_in hg hlen hc]
    by_cases hki : k ∈ e.sls
    · exact ⟨(hin k hki).1, stopped_in hg hlen hki⟩
    · obtain ⟨hreg, hpc⟩ := (hout k hk.1 hki).resolve_left (by simp [hk.2])
      exact ⟨hpc, (stopped_out hg hlen hk.1 hki).trans hreg⟩
  refine ⟨g, hg, ?_⟩
  rw [heq]
  simp only [settleRegang, hall, hagree, Bool.not_true, Bool.false_eq_true, if_true, if_false]
  exact afterSettle_setGang _ _ hgi

/-- The stopped slices do not agree, and the lowest of them faults. -/
theorem regang_mismatch (h : issOf s = some e) (hq : Quiet e) (hlen : e.g.slices.length = 8) (hr : someRuns e)
    (hout : ∀ k < 8, k ∉ e.sls → (e.g.sl k).finished = true ∨ (e.g.sl k).regang ≠ none)
    (hin : ∀ k ∈ e.sls, (e.g.sl k).finished = false)
    (hbad : ∃ k < 8, k ∉ e.sls ∧ (e.g.sl k).finished = false ∧ ((e.g.sl k).regang ≠ some tok ∨ (e.g.sl k).pc ≠ e.pc)) :
    ∃ g s', Stopped e tok g ∧ (liveSlices e.g).headD 0 ∈ liveSlices e.g ∧ (finish e (regangBody e tok)).ctl.faults =
      s.ctl.faults ++ [sliceRec s' g e.grp e.kern ((liveSlices e.g).headD 0) (some .illegalOp) 0] := by
  have hc : e.sls.headD 0 ∈ e.sls := by
    obtain ⟨c, hc, -⟩ := hr
    cases hs : e.sls with
    | nil => rw [hs] at hc; cases hc
    | cons x xs => exact List.mem_cons_self
  obtain ⟨ps, g, hg, heq⟩ := regang_settles (tok := tok) h hq
  obtain ⟨hcg, hall⟩ := stopped_all hg hlen hc (hin _ hc) hout
  have hlive := stopped_live hg hlen
  obtain ⟨k, hk, hko, hkf, hne⟩ := hbad
  have hdis : regangAgrees g = false := by
    refine Bool.eq_false_iff.2 fun hagree => ?_
    obtain ⟨hpc, hreg⟩ := (regangAgrees_iff hcg).1 hagree k (by rw [hlive]; exact mem_liveSlices.2 ⟨hk, hkf⟩)
    rw [stopped_pc hg hlen hk, stopped_pc hg hlen (sls_lt hc)] at hpc
    rw [stopped_out hg hlen hk hko, stopped_in hg hlen hc] at hreg
    exact hne.elim (fun hn => hn hreg) fun hn => hn hpc
  refine ⟨g, { s with ctl := { s.ctl with parts := ps } }, hg, (liveSlices_low (hlive ▸ hcg)).1, ?_⟩
  rw [heq, afterSettle_faults]
  simp only [settleRegang, hall, hdis, hlive, Bool.not_false, if_true, addFault_faults, setGang_ctl]

end

/-- Settles O21: the three cases of what REGANG's settling finds, each read off the slices stopped and retired. -/
theorem regangMerges : Obligations.RegangMerges := by
  unfold Obligations.RegangMerges
  intro s e tok h hq hr hlen
  refine ⟨regang_waits h hq hlen, fun hout hin => ?_, fun hout hin hbad => ?_⟩
  · obtain ⟨g, hg, hgang⟩ := regang_merges h hq hlen hr hout hin
    have hst : (regangBody e tok).st = s := (issOf_some h).1
    obtain ⟨g', hg', hafter, honly, -⟩ := finish_spec e (regangBody e tok) (noOverflow_quiet hq _) (by rw [hst]; exact issOf_gi_lt h)
    obtain rfl : g' = regangMerge g := Option.some.inj (hg'.symm.trans hgang)
    rw [hst] at honly
    refine ⟨_, _, exec_regang_eq tok h, hg', honly, (sliceBody_file e _).trans hafter.file, hafter.issues, ?_, fun k x hx => regangMerge_slice hg hx⟩
    show [BitVec.ofNat 8 (((liveSlices g).map fun k => 2 ^ k).sum)] = _
    rw [stopped_live hg hlen]
    rfl
  · obtain ⟨g, s', hg, hlow, hfaults⟩ := regang_mismatch h hq hlen hr hout hin hbad
    obtain ⟨hlow8, hfin⟩ := mem_liveSlices.1 hlow
    refine ⟨_, _, exec_regang_eq tok h, fun k hk hkf => (liveSlices_low hlow).2 k (mem_liveSlices.2 ⟨hk, hkf⟩), hfin, _, hfaults, rfl, rfl, rfl, ?_⟩
    exact congrArg (BitVec.zeroExtend 64) (stopped_pc hg hlen hlow8)

end Sys2Proof.Machine
end

section
/-! PROOFS. Proofs/IntegerArithmetic.lean: IADD, ISUB, IMUL, IMAD, IMIN, IMAX, IMULH, IABS and IDOT4 (R141, R143 to R145). -/

namespace Sys2Proof.Machine

/-- An instruction of three registers whose elements are `f` of the elements of its operands, exactly, saturated as `sat` says of
the mode word. -/
theorem arith3_exactly {s : State} {e : Iss} {ty : Nat → Bool} {d a b : Byte} (h : issOf s = some e) (hroom : RoomForTraps e)
    (hf : Fits e ty [d] [a, b] []) (sat : BitVec 24 → Bool) (f : Nat → Int → Int → Int → Int) :
    ∃ t v, arith3 s ty d a b (fun t m x y c => intMap t (sat m) (f (tyWidth t)) x y c) = .next t ∧
      Result s t e e.active d e.wide v noConds ∧ ∀ l ∈ e.active, ∀ i < tyCount (e.lty l),
        Exactly (e.lty l) (sat (e.lmode l)) (f (tyWidth (e.lty l)) (e.int a l i) (e.int b l i) (e.int d l i))
          (elemOf (e.lty l) (v l) i) := by
  obtain ⟨t, ht, hres⟩ := arith3_spec h hroom hf
  exact ⟨t, _, ht, hres, fun l _ i hi => exactly_intMap _ _ _ _ _ _ _ hi⟩

/-- IMULH's quotient is the floor of the product's high half under either division. -/
theorem execImulh_eq (d a b : Byte) (s : State) : execImulh d a b s =
    arith3 s setInt d a b fun t _ x y c => intMap t false (fun x y _ => x * y / 2 ^ tyWidth t) x y c := by
  simp only [execImulh, Int.fdiv_eq_ediv_of_nonneg _ (show (0 : Int) ≤ 2 ^ tyWidth _ by positivity)]

theorem execIabs_eq (d a : Byte) (s : State) : execIabs d a s =
    arith2 s setSigned d a fun t m x => intMap t (mSat m) (fun x _ _ => |x|) x 0 0 := by
  have habs : ∀ x : Int, (if x < 0 then -x else x) = |x| := fun x => by
    split
    case isTrue hneg => rw [abs_of_neg hneg]
    case isFalse hpos => rw [abs_of_nonneg (not_lt.1 hpos)]
  simp only [execIabs, habs]

/-- The sum of four products and the old d, wrapped or saturated once (R145). -/
theorem idot4Val_exactly {t w : Nat} (sat : Bool) (a b c : Nat) (hw : w = if t = 10 then 0 else 1) :
    Exactly w sat (intVal w c + intVal t (elemOf t a 0) * intVal t (elemOf t b 0) + intVal t (elemOf t a 1) * intVal t (elemOf t b 1)
      + intVal t (elemOf t a 2) * intVal t (elemOf t b 2) + intVal t (elemOf t a 3) * intVal t (elemOf t b 3)) (idot4Val t sat a b c) := by
  have hsum : ∀ f : Nat → Int, ((List.range 4).map f).sum = f 0 + f 1 + f 2 + f 3 := fun f => by
    simp [List.range_succ, add_assoc]
  unfold idot4Val
  rw [← hw, hsum]
  simp only [← add_assoc]
  exact exactly_satWrap _ _ _

/-- Settles O7: the elements of the eight instructions are those of `intMap`, exact by `exactly_intMap`; IDOT4 saturates or wraps one
exact sum. -/
theorem integerArithmetic : Obligations.IntegerArithmetic := by
  unfold Obligations.IntegerArithmetic
  refine ⟨fun s e d a b h hroom => ?_, fun s e d a b h hroom hf => ?_⟩
  · simp only [List.forall_mem_cons, exec_iadd, exec_isub, exec_imul, exec_imad, exec_imin, exec_imax, exec_imulh, execImulh_eq,
      exec_iabs, execIabs_eq]
    refine ⟨fun hf => arith3_exactly h hroom hf mSat fun _ x y _ => x + y, fun hf => arith3_exactly h hroom hf mSat fun _ x y _ => x - y,
      fun hf => arith3_exactly h hroom hf mSat fun _ x y _ => x * y, fun hf => arith3_exactly h hroom hf mSat fun _ x y c => x * y + c,
      fun hf => arith3_exactly h hroom hf (fun _ => false) fun _ x y _ => min x y,
      fun hf => arith3_exactly h hroom hf (fun _ => false) fun _ x y _ => max x y,
      fun hf => arith3_exactly h hroom hf (fun _ => false) fun w x y _ => x * y / 2 ^ w, fun hf => ?_, List.forall_mem_nil _⟩
    obtain ⟨t, ht, hres⟩ := arith2_spec h hroom hf
    exact ⟨t, _, ht, hres, fun l _ i hi => exactly_intMap _ _ (fun x _ _ => |x|) _ _ _ _ hi⟩
  · rw [exec_idot4]
    obtain ⟨t, ht, hres⟩ := arith3_spec h hroom hf
    exact ⟨t, _, ht, hres, fun l _ w hw => idot4Val_exactly _ _ _ _ hw⟩

end Sys2Proof.Machine
end

section
/-! PROOFS. Proofs/BitInstructions.lean: the logic instructions, the shifts, POPC, CLZ, BREV, BFE and BFI, bit by bit (R146 to R149). -/

namespace Sys2Proof.Machine

/-! ## Bits of a complement, and two's complement of a quotient -/

theorem notW_testBit (w x j : Nat) : (notW w x).testBit j = (decide (j < w) && !x.testBit j) := by
  unfold notW
  rw [Nat.sub_sub, Nat.add_comm 1, Nat.testBit_two_pow_sub_succ (Nat.mod_lt _ (by positivity)), Nat.testBit_mod_two_pow]
  cases decide (j < w) <;> rfl

theorem wrap_natCast (x n : Nat) : wrap (x : Int) n = x % 2 ^ n := by
  zify
  rw [wrap_cast]

/-- A value in the range of n-bit two's complement is what its pattern reads as. -/
theorem signed_wrap {z : Int} {n : Nat} (h1 : -(2 ^ n : Int) ≤ 2 * z) (h2 : 2 * z < 2 ^ n) : signed (wrap z n) n = z :=
  signed_unique (by rw [wrap_cast]; exact Int.dvd_self_sub_of_emod_eq rfl) h1 h2

/-- A quotient by a power of two lies between 0 and the dividend, or between the dividend and −1. -/
theorem ediv_two_pow_range {s : Int} {n : Nat} (m : Nat) (h1 : -(2 ^ n : Int) ≤ 2 * s) (h2 : 2 * s < 2 ^ n) :
    -(2 ^ n : Int) ≤ 2 * (s / 2 ^ m) ∧ 2 * (s / 2 ^ m) < 2 ^ n := by
  have hm : (1 : Int) ≤ 2 ^ m := by exact_mod_cast Nat.one_le_two_pow
  rcases lt_or_ge s 0 with hneg | hpos
  · have hlow : s ≤ s / 2 ^ m := (Int.le_ediv_iff_mul_le (by omega)).2 (by nlinarith)
    have hup : s / 2 ^ m < 0 := Int.ediv_neg_of_neg_of_pos hneg (by omega)
    omega
  · have hlow : 0 ≤ s / 2 ^ m := Int.ediv_nonneg hpos (by omega)
    have hup : s / 2 ^ m ≤ s := Int.ediv_le_self _ hpos
    omega

/-- A shift by the width or more leaves the sign alone. -/
theorem ediv_two_pow_sign {s : Int} {n : Nat} (h1 : -(2 ^ n : Int) ≤ s) (h2 : s < 2 ^ n) : s / 2 ^ n = if s < 0 then -1 else 0 := by
  have hn : (0 : Int) < 2 ^ n := by positivity
  split
  case isTrue hneg =>
    have hlow : -1 ≤ s / 2 ^ n := (Int.le_ediv_iff_mul_le hn).2 (by omega)
    have hup : s / 2 ^ n < 0 := Int.ediv_neg_of_neg_of_pos hneg hn
    omega
  case isFalse hpos => exact Int.ediv_eq_zero_of_lt (not_lt.1 hpos) h2

/-! ## AND, OR, XOR and ANDN (R146) -/

/-- An instruction `p.1` that combines its operands bit by bit by `p.2`, over their full width. -/
theorem logic_result {s : State} {e : Iss} {d a b : Byte} (h : issOf s = some e) (hroom : RoomForTraps e) (hf : Fits e setAny [d] [a, b] [])
    {p : Instr × (Bool → Bool → Bool)} {f : Nat → Nat → Nat → Nat} (hp : exec p.1 s = arith3 s setAny d a b fun t _ x y _ => f t x y)
    (hlt : ∀ t x y, x < 2 ^ fullWidth t → y < 2 ^ fullWidth t → f t x y < 2 ^ fullWidth t)
    (hbit : ∀ t x y j, j < fullWidth t → (f t x y).testBit j = p.2 (x.testBit j) (y.testBit j)) :
    ∃ t v, exec p.1 s = .next t ∧ Result s t e e.active d e.wide v noConds ∧
      ∀ l ∈ e.active, ∀ w, w = (if e.wide l then 64 else 32) → v l < 2 ^ w ∧
        ∀ j < w, (v l).testBit j = p.2 ((e.val a l).testBit j) ((e.val b l).testBit j) := by
  obtain ⟨t, ht, hres⟩ := arith3_spec h hroom hf
  refine ⟨t, _, hp.trans ht, hres, ?_⟩
  rintro l hl w rfl
  have hval : ∀ c, e.val c l < 2 ^ fullWidth (e.lty l) := fun c => rdT_lt _ _ _ _ (active_lt hl)
  exact ⟨hlt _ _ _ (hval a) (hval b), fun j hj => hbit _ _ _ j hj⟩

/-! ## Shifts (R147) -/

theorem shlElem_eq (w x k : Nat) : shlElem w x k % 2 ^ w = if w ≤ k then 0 else x <<< k % 2 ^ w := by
  unfold shlElem
  split
  · exact Nat.zero_mod _
  · rw [Nat.mod_mod, Nat.shiftLeft_eq]

theorem shrElem_eq {w x : Nat} (k : Nat) (hx : x < 2 ^ w) : shrElem w x k % 2 ^ w = if w ≤ k then 0 else x >>> k := by
  unfold shrElem
  split
  · exact Nat.zero_mod _
  · rw [Nat.shiftRight_eq_div_pow]
    exact Nat.mod_eq_of_lt ((Nat.div_le_self _ _).trans_lt hx)

theorem sarElem_signed (w x k : Nat) : signed (sarElem w x k % 2 ^ w) w = signed x w / 2 ^ k := by
  obtain ⟨h1, h2⟩ := signed_range x w
  have hcount : signed x w / 2 ^ (if w ≤ k then w else k) = signed x w / 2 ^ k := by
    split
    case isTrue hk =>
      have hpow : (2 : Int) ^ w ≤ 2 ^ k := by exact_mod_cast Nat.pow_le_pow_right (by decide) hk
      rw [ediv_two_pow_sign (by omega) (by omega), ediv_two_pow_sign (by omega) (by omega)]
    case isFalse => rfl
  unfold sarElem
  rw [Nat.mod_eq_of_lt (wrap_lt _ _), Int.fdiv_eq_ediv_of_nonneg _ (by positivity), hcount]
  obtain ⟨h3, h4⟩ := ediv_two_pow_range k h1 h2
  exact signed_wrap h3 h4

theorem rotElem_testBit {w x j : Nat} (k : Nat) (hx : x < 2 ^ w) (hj : j < w) :
    (rotElem w x k % 2 ^ w).testBit ((j + k) % w) = x.testBit j := by
  have hr : k % w < w := Nat.mod_lt _ (by omega)
  have hlow : x / 2 ^ (w - k % w) < 2 ^ (k % w) := by
    refine Nat.div_lt_of_lt_mul ?_
    rwa [← pow_add, Nat.sub_add_cancel hr.le]
  unfold rotElem
  dsimp only
  rw [Nat.mod_mod, ← Nat.add_mod_mod j, mul_comm x, Nat.testBit_mod_two_pow, Nat.testBit_two_pow_mul_add _ hlow,
    Nat.testBit_div_two_pow, decide_eq_true (Nat.mod_lt _ (by omega)), Bool.true_and]
  rcases lt_or_ge (j + k % w) w with hin | hout
  · rw [Nat.mod_eq_of_lt hin, if_neg (by omega), Nat.add_sub_cancel]
  · rw [Nat.mod_eq_sub_mod hout, Nat.mod_eq_of_lt (by omega), if_pos (by omega)]
    congr 1
    omega

/-- A shift `p.1` whose elements have the property `p.2` of the width, the element of a and the count. -/
theorem shift_result {s : State} {e : Iss} {d a b : Byte} (h : issOf s = some e) (hroom : RoomForTraps e) (hf : Fits e setInt [d] [a] [b])
    {p : Instr × (Nat → Nat → Nat → Nat → Prop)} {f : Nat → Nat → Nat → Nat}
    (hp : exec p.1 s = arithB s setInt d a b fun t x y _ => shiftMap t x y f) (hbits : ∀ w x k, x < 2 ^ w → p.2 w x k (f w x k % 2 ^ w)) :
    ∃ t v, exec p.1 s = .next t ∧ Result s t e e.active d e.wide v noConds ∧
      ∀ l ∈ e.active, ∀ i < tyCount (e.lty l),
        p.2 (tyWidth (e.lty l)) (elemOf (e.lty l) (e.val a l) i) (shiftBy e b l i) (elemOf (e.lty l) (v l) i) := by
  obtain ⟨t, ht, hres⟩ := arithB_spec h hroom hf
  refine ⟨t, _, hp.trans ht, hres, fun l _ i hi => ?_⟩
  unfold shiftMap
  rw [elemOf_mapElems _ _ _ hi]
  exact hbits _ _ _ (elemOf_lt _ _ _)

/-! ## POPC, CLZ and BREV (R148) -/

theorem fullWidth_of_setWide {t : Nat} (h : setWide t = true) : fullWidth t = tyWidth t := by
  have ht : t ≤ 3 := of_decide_eq_true h
  interval_cases t <;> rfl

/-- An operand of a WIDE type has no bit above its element. -/
theorem val_lt_of_setWide {e : Iss} {l : Nat} (c : Byte) (hl : l ∈ e.active) (h : setWide (e.lty l) = true) :
    e.val c l < 2 ^ tyWidth (e.lty l) := by
  rw [← fullWidth_of_setWide h]
  exact rdT_lt _ _ _ _ (active_lt hl)

theorem popcount_eq_length (x w : Nat) : popcount x w = ((List.range w).filter fun j => x.testBit j).length := by
  induction w generalizing x with
  | zero => rfl
  | succ w ih =>
    have hshift : ((List.range w).map Nat.succ).filter (fun j => x.testBit j) =
        ((List.range w).filter fun j => (x / 2).testBit j).map Nat.succ := by
      rw [List.filter_map]
      simp only [Function.comp_def, Nat.testBit_succ]
    rw [popcount, ih, List.range_succ_eq_map, List.filter_cons, hshift, Nat.testBit_zero]
    rcases Nat.mod_two_eq_zero_or_one x with h0 | h1
    · rw [h0, if_neg (by decide), List.length_map, Nat.zero_add]
    · rw [h1, if_pos (by decide), List.length_cons, List.length_map, Nat.add_comm]

theorem clzCount_spec {w x : Nat} (hx : x < 2 ^ w) : clzCount w x ≤ w ∧ x < 2 ^ (w - clzCount w x) ∧
    (clzCount w x < w → 2 ^ (w - clzCount w x - 1) ≤ x) := by
  unfold clzCount
  split
  case isTrue h0 => exact ⟨le_rfl, by rw [h0]; positivity, fun h => absurd h (lt_irrefl w)⟩
  case isFalse h0 =>
    have hlog : x.log2 < w := (Nat.log2_lt h0).2 hx
    rw [show w - (w - 1 - x.log2) = x.log2 + 1 by omega]
    exact ⟨by omega, Nat.lt_log2_self, fun _ => Nat.log2_self_le h0⟩

theorem bitRev_lt (x w : Nat) : bitRev x w < 2 ^ w := by
  induction w generalizing x with
  | zero => exact Nat.one_pos
  | succ w ih =>
    have hlow := ih (x / 2)
    have hbit : x % 2 * 2 ^ w ≤ 1 * 2 ^ w := Nat.mul_le_mul_right _ (by omega)
    rw [bitRev, pow_succ]
    omega

theorem bitRev_testBit {x w j : Nat} (hj : j < w) : (bitRev x w).testBit (w - 1 - j) = x.testBit j := by
  induction w generalizing x j with
  | zero => exact absurd hj (Nat.not_lt_zero j)
  | succ w ih =>
    rw [bitRev, mul_comm, Nat.testBit_two_pow_mul_add _ (bitRev_lt _ _)]
    cases j with
    | zero =>
      rw [if_neg (by omega), show w + 1 - 1 - 0 - w = 0 by omega, Nat.testBit_zero, Nat.mod_mod, Nat.testBit_zero]
    | succ j =>
      rw [if_pos (by omega), show w + 1 - 1 - (j + 1) = w - 1 - j by omega, ih (by omega), Nat.testBit_succ]

/-! ## BFE and BFI (R149) -/

/-- The field that BFE names, in the element's width: sign-extended from its length under a signed type. -/
theorem bfeVal_exactly {t ctl pos len f : Nat} (a : Nat) (hpos : pos = ctl % 2 ^ 8) (hlen : len = ctl / 2 ^ 8 % 2 ^ 8)
    (hf : f = (intVal t a / 2 ^ pos % 2 ^ len).toNat) :
    Exactly t false (if tySigned t ∧ len ≠ 0 then signed f len else f) (bfeVal t a ctl) := by
  have hp : bits ctl 7 0 = pos := by rw [hpos, bits, pow_zero, Nat.div_one]
  have hl : bits ctl 15 8 = len := hlen.symm
  unfold bfeVal
  simp only [hp, hl, Int.fdiv_eq_ediv_of_nonneg _ (show (0 : Int) ≤ 2 ^ pos by positivity), ← hf, ← wrap_natCast, Bool.and_eq_true,
    bne_iff_ne]
  split <;> exact exactly_satWrap t false _

theorem bfiVal_lt {t : Nat} (a ctl base : Nat) (hb : base < 2 ^ tyWidth t) : bfiVal t a ctl base < 2 ^ tyWidth t :=
  Nat.or_lt_two_pow (Nat.and_le_left.trans_lt hb) (Nat.and_lt_two_pow _ (Nat.mod_lt _ (by positivity)))

theorem bfiVal_testBit {t ctl pos len j : Nat} (a base : Nat) (hpos : pos = ctl % 2 ^ 8) (hlen : len = ctl / 2 ^ 8 % 2 ^ 8)
    (hj : j < tyWidth t) :
    (bfiVal t a ctl base).testBit j = if pos ≤ j ∧ j < pos + len then a.testBit (j - pos) else base.testBit j := by
  have hp : bits ctl 7 0 = pos := by rw [hpos, bits, pow_zero, Nat.div_one]
  have hl : bits ctl 15 8 = len := hlen.symm
  have hmask : ((2 ^ len - 1) * 2 ^ pos % 2 ^ tyWidth t).testBit j = decide (pos ≤ j ∧ j < pos + len) := by
    rw [Nat.testBit_mod_two_pow, Nat.testBit_mul_two_pow, Nat.testBit_two_pow_sub_one, decide_eq_true hj, Bool.true_and,
      ← Bool.decide_and]
    exact decide_eq_decide.2 (by omega)
  have hfield : (a % 2 ^ len * 2 ^ pos % 2 ^ tyWidth t).testBit j = (decide (pos ≤ j ∧ j < pos + len) && a.testBit (j - pos)) := by
    rw [Nat.testBit_mod_two_pow, Nat.testBit_mul_two_pow, Nat.testBit_mod_two_pow, decide_eq_true hj, Bool.true_and, ← Bool.and_assoc,
      ← Bool.decide_and]
    exact congrArg (· && _) (decide_eq_decide.2 (by omega))
  unfold bfiVal
  dsimp only
  rw [hp, hl]
  refine (Nat.testBit_or _ _ _).trans ?_
  refine (congrArg₂ _ (Nat.testBit_and _ _ _) (Nat.testBit_and _ _ _)).trans ?_
  rw [notW_testBit, hmask, hfield, decide_eq_true hj]
  split
  case isTrue hin => simp [hin]
  case isFalse hout => simp [hout]

/-- Settles O8: one lemma for each shape, and the bits of each function of the model. -/
theorem bitInstructions : Obligations.BitInstructions := by
  unfold Obligations.BitInstructions
  refine ⟨fun s e d a b h hroom hf => ?_, fun s e d a b h hroom hf => ?_, fun s e d a b h hroom => ⟨fun hf => ⟨?_, ?_⟩, fun hf => ?_, fun hf => ⟨?_, ?_⟩⟩⟩
  · refine List.forall_mem_cons.2 ⟨logic_result h hroom hf (exec_and d a b s) ?_ ?_, List.forall_mem_cons.2
      ⟨logic_result h hroom hf (exec_or d a b s) ?_ ?_, List.forall_mem_cons.2
      ⟨logic_result h hroom hf (exec_xor d a b s) ?_ ?_, List.forall_mem_singleton.2 (logic_result h hroom hf (exec_andn d a b s) ?_ ?_)⟩⟩⟩
    · exact fun _ _ _ _ hy => Nat.and_lt_two_pow _ hy
    · exact fun _ _ _ _ _ => Nat.testBit_and _ _ _
    · exact fun _ _ _ hx hy => Nat.or_lt_two_pow hx hy
    · exact fun _ _ _ _ _ => Nat.testBit_or _ _ _
    · exact fun _ _ _ hx hy => Nat.xor_lt_two_pow hx hy
    · exact fun _ _ _ _ _ => Nat.testBit_xor _ _ _
    · exact fun _ _ _ hx _ => Nat.and_le_left.trans_lt hx
    · refine fun t x y j hj => (Nat.testBit_and _ _ _).trans ?_
      rw [notW_testBit, decide_eq_true hj, Bool.true_and]
  · refine List.forall_mem_cons.2 ⟨shift_result h hroom hf (exec_shl d a b s) ?_, List.forall_mem_cons.2
      ⟨shift_result h hroom hf (exec_shr d a b s) ?_, List.forall_mem_cons.2
      ⟨shift_result h hroom hf (exec_sar d a b s) ?_, List.forall_mem_singleton.2 (shift_result h hroom hf (exec_rot d a b s) ?_)⟩⟩⟩
    · exact fun w x k _ => shlElem_eq w x k
    · exact fun _ _ k hx => shrElem_eq k hx
    · exact fun w x k _ => sarElem_signed w x k
    · exact fun _ _ k hx _ hj => rotElem_testBit k hx hj
  · rw [exec_popc]
    obtain ⟨t, ht, hres⟩ := countShape_spec h hroom hf
    exact ⟨t, _, ht, hres, fun _ _ => popcount_eq_length _ _⟩
  · rw [exec_clz]
    obtain ⟨t, ht, hres⟩ := countShape_spec h hroom hf
    exact ⟨t, _, ht, hres, fun l hl => clzCount_spec (val_lt_of_setWide a hl (hf _ (active_slice hl)).1)⟩
  · rw [exec_brev]
    obtain ⟨t, ht, hres⟩ := arith2_spec h hroom hf
    exact ⟨t, _, ht, hres, fun _ _ => ⟨bitRev_lt _ _, fun _ hj => bitRev_testBit hj⟩⟩
  · rw [exec_bfe]
    obtain ⟨t, ht, hres⟩ := arithB_spec h hroom hf
    exact ⟨t, _, ht, hres, fun _ _ _ _ _ hpos hlen hfld => bfeVal_exactly _ hpos hlen hfld⟩
  · rw [exec_bfi]
    obtain ⟨t, ht, hres⟩ := arithB_spec h hroom hf
    exact ⟨t, _, ht, hres, fun l hl _ _ hpos hlen => ⟨bfiVal_lt _ _ _ (val_lt_of_setWide d hl (hf _ (active_slice hl)).1),
      fun _ hj => bfiVal_testBit _ _ hpos hlen hj⟩⟩

end Sys2Proof.Machine
end

section
/-! PROOFS. Proofs/MovesAndShuffles.lean: MOV, MOVI, MOVH, SEL, LEA and the shuffles (R151 to R154). -/

namespace Sys2Proof.Machine

/-! ## Moves (R151, R152) -/

/-- An instruction that writes 32 bits into one register of every active lane. -/
theorem word_result {s : State} {e : Iss} {j : Iss → Judge} {b : Iss → Eff} {d : Byte} {v : Nat → Nat} (h : issOf s = some e)
    (hj : j e = .go) (hroom : RoomForTraps e) (hb : b e = resultBody e e.active d (fun _ => false) v noConds) :
    ∃ t, issue s j b = .next t ∧ Result s t e e.active d (fun _ => false) v noConds :=
  result_spec h hj hroom ⟨false, hb⟩ fun _ _ hw => absurd hw Bool.false_ne_true

/-- An instruction whose operands are declared 32-bit registers alone is legal where they fit. -/
theorem legal_of_fits {e : Iss} {ty : Nat → Bool} {d : Byte} (hf : Fits e ty [] [] [d]) : legal e (fun _ => declOk e.n d) = .go :=
  legal_go.2 fun k hk => (hf k hk).2.2.2 d (List.mem_singleton_self d)

/-- SEL writes every running lane. -/
theorem sel_result {s : State} {e : Iss} {d a b : Byte} (h : issOf s = some e) (hroom : RoomForTraps e) (hf : Fits e setAny [d] [a, b] []) :
    ∃ t, exec (.sel d a b) s = .next t ∧
      Result s t e e.running d e.wide (fun l => e.val (if guardTrue e.g l then a else b) l) noConds := by
  rw [exec_sel]
  refine result_spec (w := e.wide) h (legal_go.2 fun k hk => ?_) hroom ⟨true, rfl⟩ fun l hl hw => hf.room' (d := d) (by simp) hl hw
  obtain ⟨hty, hdst, hsrc, -⟩ := hf k hk
  rw [hty, hdst d (by simp), hsrc a (by simp), hsrc b (by simp)]
  rfl

/-! ## LEA (R153) -/

theorem lea_result {s : State} {e : Iss} {d a b : Byte} (h : issOf s = some e) (hroom : RoomForTraps e)
    (hty : ∀ k ∈ e.sls, setAny (e.ty k) = true) (hd : pairOk e.n d = true) (ha : wideOk e.n a = true) (hb : declOk e.n b = true) :
    ∃ t, exec (.lea d a b) s = .next t ∧ Result s t e e.active d (fun _ => true)
      (fun l => wrap ((rd64 e.g l a false : Int) + signed (rd e.g l b) 32 * leaScale (e.lty l)) 64) noConds := by
  rw [exec_lea]
  refine result_spec h (legal_go.2 fun k hk => ?_) hroom ⟨false, rfl⟩ fun _ _ _ => pair_room hd
  rw [hty k hk, hd, ha, hb]
  rfl

/-- A pattern differs from its value by a multiple of 2^n. -/
theorem wrap_eq_add (z : Int) (n : Nat) : ∃ k : Int, (wrap z n : Int) = z + k * 2 ^ n := by
  refine ⟨-(z / 2 ^ n), ?_⟩
  rw [wrap_cast, Int.emod_def]
  ring

/-! ## Shuffles (R154) -/

/-- The lane whose source a shuffle gives to lane `l`: `src l` where that lane is active, else `l` itself. -/
def shuffleLane (e : Iss) (src : Nat → Option Nat) (l : Nat) : Nat :=
  match src l with
  | some j => if e.active.contains j then j else l
  | none => l

theorem shuffleLane_active {e : Iss} {src : Nat → Option Nat} {l j : Nat} (hs : src l = some j) (hj : j ∈ e.active) :
    shuffleLane e src l = j := by
  unfold shuffleLane
  rw [hs]
  exact if_pos (List.contains_iff_mem.2 hj)

theorem shuffleLane_own {e : Iss} {src : Nat → Option Nat} {l : Nat} (hs : ∀ j ∈ e.active, src l ≠ some j) : shuffleLane e src l = l := by
  unfold shuffleLane
  split
  case h_1 j hj => exact if_neg fun hc => hs j (List.contains_iff_mem.1 hc) hj
  case h_2 => rfl

/-- A shuffle `p.1` whose source lane is the one that `p.2` names. -/
theorem shuffle_result {s : State} {e : Iss} {d a : Byte} (h : issOf s = some e) (hroom : RoomForTraps e) (hf : Fits e setAny [d] [a] [])
    {p : Instr × (Nat → Nat → Prop)} {src : Nat → Option Nat} (hp : exec p.1 s = shuffle d a s src)
    (hsrc : ∀ l j, j < 32 → (src l = some j ↔ p.2 l j)) :
    ∃ t v, exec p.1 s = .next t ∧ Result s t e e.active d e.wide v noConds ∧
      ∀ l ∈ e.active, (∀ j ∈ e.active, p.2 l j → v l = rdT e.g (e.lty l) j a) ∧ ((∀ j ∈ e.active, ¬ p.2 l j) → v l = e.val a l) := by
  have hres : ∃ t, shuffle d a s src = .next t ∧
      Result s t e e.active d e.wide (fun l => rdT e.g (e.lty l) (shuffleLane e src l) a) noConds := by
    refine result_spec (w := e.wide) h (legal_go.2 fun k hk => ?_) hroom ⟨false, rfl⟩ fun l hl hw => hf.room (d := d) (by simp) hl hw
    obtain ⟨hty, hdst, hok, -⟩ := hf k hk
    rw [hty, hdst d (by simp), hok a (by simp)]
    rfl
  obtain ⟨t, ht, hres⟩ := hres
  refine ⟨t, _, hp.trans ht, hres, fun l _ => ⟨fun j hj hlj => ?_, fun hno => ?_⟩⟩
  · rw [shuffleLane_active ((hsrc l j (active_lt hj)).2 hlj) hj]
  · rw [shuffleLane_own fun j hj hs => hno j hj ((hsrc l j (active_lt hj)).1 hs)]
    rfl

/-- Settles O9: each instruction is one issue with a result, and the source lane of each shuffle is the one its rule names. -/
theorem movesAndShuffles : Obligations.MovesAndShuffles := by
  unfold Obligations.MovesAndShuffles
  refine ⟨fun s e d a b i h hroom => ⟨fun hf => ?_, fun hf => ⟨?_, ?_⟩, fun hf => sel_result h hroom hf⟩,
    fun s e d a b h hroom hty hd ha hb => ?_, fun s e d a n h hroom hf => ?_⟩
  · rw [exec_mov]
    exact arith2_spec h hroom hf
  · rw [exec_movi]
    exact word_result h (legal_of_fits hf) hroom rfl
  · rw [exec_movh]
    exact word_result h (legal_of_fits hf) hroom rfl
  · obtain ⟨t, ht, hres⟩ := lea_result h hroom hty hd ha hb
    exact ⟨t, _, ht, hres, fun l _ => ⟨wrap_lt _ _, wrap_eq_add _ _⟩⟩
  · refine List.forall_mem_cons.2 ⟨shuffle_result h hroom hf (exec_shfli d a n s) ?_, List.forall_mem_cons.2
      ⟨shuffle_result h hroom hf (exec_shflx d a n s) ?_, List.forall_mem_cons.2
      ⟨shuffle_result h hroom hf (exec_shflu d a n s) ?_, List.forall_mem_singleton.2 (shuffle_result h hroom hf (exec_shfld d a n s) ?_)⟩⟩⟩
    · exact fun l j _ => Option.some_inj.trans eq_comm
    · exact fun l j _ => Option.some_inj.trans eq_comm
    · intro l j _
      dsimp only
      split
      · exact iff_of_false (by simp) (by omega)
      · rw [Option.some_inj]
        omega
    · intro l j _
      dsimp only
      split
      · exact iff_of_false (by simp) (by omega)
      · exact Option.some_inj.trans eq_comm

end Sys2Proof.Machine
end

section
/-! PROOFS. Proofs/Predicates.lean: predicate logic, ICMP, SCMP, P2V and V2P (R44, R150, R155 to R157). -/

namespace Sys2Proof.Machine

/-! ## Predicate logic and compares (R150, R155, R157) -/

/-- A predicate instruction `p.1` that combines two predicates by `p.2`. -/
theorem predOp_result {s : State} {e : Iss} {d a b a' b' : BitVec 3} (h : issOf s = some e) (hroom : RoomForTraps e)
    {p : Instr × (Bool → Bool → Bool)} {f : Bool → Bool → Bool} (hp : exec p.1 s = predOp d a' b' s f)
    (hf : ∀ l, f (predAt e.g a'.toNat l) (predAt e.g b'.toNat l) = p.2 (predAt e.g a.toNat l) (predAt e.g b.toNat l)) :
    ∃ t, exec p.1 s = .next t ∧ PredResult s t e d.toNat (fun l => p.2 (predAt e.g a.toNat l) (predAt e.g b.toNat l)) noConds := by
  rw [hp]
  exact pred_spec h rfl hroom (congrArg (fun v => predBody e d.toNat v noConds) (funext hf))

/-- The six condition codes of R150. -/
theorem cmpInt_iff {c : BitVec 3} (hc : c.toNat < 6) (x y : Int) : cmpInt c.toNat x y = true ↔ holdsCond c x y := by
  have hcode : c = 0 ∨ c = 1 ∨ c = 2 ∨ c = 3 ∨ c = 4 ∨ c = 5 := by bv_omega
  unfold holdsCond
  rcases hcode with rfl | rfl | rfl | rfl | rfl | rfl <;> simp [cmpInt]

theorem icmp_result {s : State} {e : Iss} {d : BitVec 3} {a b : Byte} (c : BitVec 3) (h : issOf s = some e) (hroom : RoomForTraps e)
    (hf : Fits e setWide [] [a, b] []) : ∃ t, exec (.icmp c d a b) s = .next t ∧
      PredResult s t e d.toNat (fun l => cmpInt c.toNat (intVal (e.lty l) (e.val a l)) (intVal (e.lty l) (e.val b l))) noConds := by
  rw [exec_icmp]
  refine pred_spec h (legal_go.2 fun k hk => ?_) hroom rfl
  obtain ⟨hty, -, hsrc, -⟩ := hf k hk
  rw [hty, hsrc a (by simp), hsrc b (by simp)]
  rfl

/-- The slice of the lowest active lane, which SCMP and S2V read by (log 83). -/
theorem headD_of_head? {ls : List Nat} {k : Nat} (h : ls.head?.map (· / 4) = some k) : ls.headD 0 / 4 = k := by
  cases ls with
  | nil => cases h
  | cons l ls => exact Option.some.inj h

theorem scmp_result {s : State} {e : Iss} {d : BitVec 3} {a b : Byte} (c : BitVec 3) (h : issOf s = some e) (hroom : RoomForTraps e)
    (hty : ∀ k ∈ e.sls, e.ty k ≤ 1) (hsld : sldPending e = false) : ∃ t, exec (.scmp c d a b) s = .next t ∧
      PredResult s t e d.toNat (fun _ => cmpInt c.toNat (intVal (e.ty (e.active.headD 0 / 4)) (rdS e.g (e.active.headD 0 / 4) a))
        (intVal (e.ty (e.active.headD 0 / 4)) (rdS e.g (e.active.headD 0 / 4) b))) noConds := by
  rw [exec_scmp]
  exact pred_spec h (Judge.and_go.2 ⟨legal_go.2 fun k hk => decide_eq_true (hty k hk), uniReady_go.2 hsld⟩) hroom rfl

/-! ## P2V (R156) -/

/-- The predicate file of a lane is the sum of the bits of its true predicates. -/
theorem predFile_eq_sum (g : Gang) (l : Nat) : predFile g l = (((List.range 8).filter fun p => predAt g p l).map fun p => 2 ^ p).sum := by
  unfold predFile
  rw [List.sum_map_ite (fun p => predAt g p l = true)]
  simp

theorem predFile_testBit (g : Gang) (l j : Nat) : (predFile g l).testBit j = decide (j < 8 ∧ predAt g j l = true) := by
  rw [predFile_eq_sum, testBit_sum_two_pow (List.pairwise_lt_range.filter _)]
  simp only [List.mem_filter, List.mem_range]

theorem predFile_lt (g : Gang) (l : Nat) : predFile g l < 2 ^ 8 :=
  Nat.lt_pow_two_of_testBit _ fun j hj => by
    rw [predFile_testBit, decide_eq_false_iff_not]
    exact fun h => absurd h.1 (Nat.not_lt.2 hj)

theorem p2v_file {s : State} {e : Iss} {d : Byte} (a : BitVec 3) (h : issOf s = some e) (hroom : RoomForTraps e) (hd : declOk e.n d = true) :
    ∃ t, exec (.p2v d a 1) s = .next t ∧ Result s t e e.active d (fun _ => false) (predFile e.g) noConds := by
  rw [exec_p2v]
  exact word_result h (legal_go.2 fun _ _ => hd) hroom rfl

/-! ## V2P (R156) -/

/-- Predicate `q` of lane `l` in the predicate map `m`, as `predAt` reads it of a gang. -/
def predIn (m : SMap 32) (q l : Nat) : Bool := q == 0 || (smGet m q).getLsbD l

theorem predAt_eq_predIn (g : Gang) (q l : Nat) : predAt g q l = predIn g.preds q l := rfl

/-- Several predicates of one lane set one after another. -/
theorem predIn_foldl_setPred (m : SMap 32) (ps : List Nat) (f : Nat → Bool) (q l : Nat) {j : Nat} (hj : j < 32) :
    predIn (ps.foldl (fun m p => setPred m p l (f p)) m) q j = if q ≠ 0 ∧ q ∈ ps ∧ j = l then f q else predIn m q j := by
  induction ps generalizing m with
  | nil => simp
  | cons p ps ih =>
    have hset : predIn (setPred m p l (f p)) q j = if q ≠ 0 ∧ q = p ∧ j = l then f p else predIn m q j := smGet_setPred m p q l (f p) j hj
    rw [List.foldl_cons, ih, hset]
    by_cases hq : q = p
    · subst hq
      simp +contextual
    · simp [hq]

theorem predIn_setPredFile (m : SMap 32) (v : Nat) {q l j : Nat} (hq : q < 8) (hj : j < 32) :
    predIn (setPredFile m l v) q j = if q ≠ 0 ∧ j = l then v.testBit q else predIn m q j := by
  unfold setPredFile
  rw [predIn_foldl_setPred _ _ _ _ _ hj]
  simp [hq]

/-- The predicate files of several lanes set one after another. -/
theorem predIn_foldl_setPredFile (m : SMap 32) (ls : List Nat) (v : Nat → Nat) {q j : Nat} (hq : q < 8) (hj : j < 32) :
    predIn (ls.foldl (fun m l => setPredFile m l (v l)) m) q j = if q ≠ 0 ∧ j ∈ ls then (v j).testBit q else predIn m q j := by
  induction ls generalizing m with
  | nil => simp
  | cons l ls ih =>
    rw [List.foldl_cons, ih, predIn_setPredFile _ _ hq hj]
    by_cases hl : j = l
    · subst hl
      simp +contextual
    · simp [hl]

/-- The body of V2P FILE. -/
def predFileBody (e : Iss) (a : Byte) : Eff :=
  { st := e.s, g := { e.adv with preds := e.active.foldl (fun m l => setPredFile m l (rd e.g l a)) e.adv.preds } }

theorem v2p_file {s : State} {e : Iss} {a : Byte} (d : BitVec 3) (h : issOf s = some e) (hroom : RoomForTraps e) (ha : declOk e.n a = true) :
    ∃ t g, exec (.v2p d a 1) s = .next t ∧ Retired t e g ∧ OnlyGang s t e.gi ∧ SameFile (predFileBody e a).g g := by
  have hst : (predFileBody e a).st = s := (issOf_some h).1
  have hex : exec (.v2p d a 1) s = issue s (fun e => legal e fun _ => declOk e.n a) fun e => predFileBody e a := rfl
  obtain ⟨t, g, ht, hret, honly, hfile, -⟩ := issue_retires (j := fun e => legal e fun _ => declOk e.n a) (b := fun e => predFileBody e a) h (legal_go.2 fun _ _ => ha) hroom
    (congrArg (fun s => s.exe.gangs) hst) (fun k => (adv_sl_tally e k).2.2) (adv_slices_length e) (fun k => (adv_sl_tally e k).2.1) rfl
  exact ⟨t, g, hex.trans ht, hret, hst ▸ honly, hfile⟩

/-- Settles O10: each instruction is one issue with a predicate or a register result; V2P FILE sets the files of the active lanes one
after another. -/
theorem predicates : Obligations.Predicates := by
  unfold Obligations.Predicates
  refine ⟨fun s e d a b h hroom => ?_, fun s e c d a b h hroom hc => ⟨fun hf => ?_, fun hty hsld => ?_⟩,
    fun s e d p h hroom hd => ⟨?_, ?_, ?_, ?_⟩⟩
  · exact List.forall_mem_cons.2 ⟨predOp_result h hroom (exec_pand d a b s) fun _ => rfl, List.forall_mem_cons.2
      ⟨predOp_result h hroom (exec_por d a b s) fun _ => rfl, List.forall_mem_cons.2
      ⟨predOp_result h hroom (exec_pxor d a b s) fun _ => rfl, List.forall_mem_cons.2
      ⟨predOp_result h hroom (exec_pnot d a s) fun _ => rfl, List.forall_mem_singleton.2
      (predOp_result h hroom (exec_pmov d a s) fun _ => rfl)⟩⟩⟩⟩
  · obtain ⟨t, ht, hres⟩ := icmp_result c h hroom hf
    exact ⟨t, _, ht, hres, fun _ _ => cmpInt_iff hc _ _⟩
  · obtain ⟨t, ht, hres⟩ := scmp_result c h hroom hty hsld
    refine ⟨t, _, ht, hres, fun _ _ k hk => ?_⟩
    rw [headD_of_head? hk]
    exact cmpInt_iff hc _ _
  · rw [exec_p2v]
    exact word_result h (legal_go.2 fun _ _ => hd) hroom rfl
  · obtain ⟨t, ht, hres⟩ := p2v_file p h hroom hd
    exact ⟨t, _, ht, hres, fun l _ => ⟨predFile_lt _ _, fun j hj => by simp [predFile_testBit, hj]⟩⟩
  · rw [exec_v2p]
    exact pred_spec h (legal_go.2 fun _ _ => hd) hroom rfl
  · obtain ⟨t, g, ht, hret, honly, hfile⟩ := v2p_file p h hroom hd
    refine ⟨t, g, ht, hret, honly, hfile.regs, hfile.sregs,
      ⟨hfile.trapBase, hfile.fpxEn, hfile.dbgCtl, hfile.gear, hfile.axCount, hfile.opens, hfile.grp⟩, fun q l hq hl => ?_⟩
    rw [predAt_eq_predIn, hfile.preds]
    exact predIn_foldl_setPredFile _ _ _ hq hl

end Sys2Proof.Machine
end

section
/-! PROOFS. Proofs/UniformInstructions.lean: the uniform instructions (R157, R158). -/

namespace Sys2Proof.Machine

/-! ## Words and the model's numbers -/

theorem rdS_lt (g : Gang) (k : Nat) (c : Byte) : rdS g k c < 2 ^ 32 := by
  unfold rdS
  split
  · exact (smGet g.sregs _).isLt
  · split
    · exact (g.sl k).im.isLt
    · positivity

theorem signed_eq_toInt (x n : Nat) : signed x n = (BitVec.ofNat n x).toInt := by
  rw [BitVec.toInt_eq_toNat_cond, BitVec.toNat_ofNat]
  unfold signed
  dsimp only
  split <;> push_cast <;> rfl

theorem ofNat_wrap_sub (n x y : Nat) : BitVec.ofNat n (wrap ((x : Int) - y) n) = BitVec.ofNat n x - BitVec.ofNat n y := by
  have hwrap : BitVec.ofNat n (wrap ((x : Int) - y) n) = BitVec.ofInt n ((x : Int) - y) := by
    refine BitVec.eq_of_toNat_eq ?_
    rw [BitVec.toNat_ofNat, Nat.mod_eq_of_lt (wrap_lt _ _), BitVec.toNat_ofInt, Nat.cast_pow]
    rfl
  rw [hwrap, Int.sub_eq_add_neg, BitVec.ofInt_add, BitVec.ofInt_neg, BitVec.ofInt_natCast, BitVec.ofInt_natCast, BitVec.sub_eq_add_neg]

theorem ofNat_shlElem (n x k : Nat) : BitVec.ofNat n (shlElem n x k) = BitVec.ofNat n x <<< k := by
  refine BitVec.eq_of_toNat_eq ?_
  rw [BitVec.toNat_ofNat, shlElem_eq, BitVec.toNat_shiftLeft, BitVec.toNat_ofNat, Nat.shiftLeft_eq, Nat.shiftLeft_eq, Nat.mod_mul_mod]
  split
  case isTrue hk => exact (Nat.mod_eq_zero_of_dvd ((pow_dvd_pow 2 hk).mul_left x)).symm
  case isFalse => rfl

theorem ofNat_shrElem {n x : Nat} (k : Nat) (hx : x < 2 ^ n) : BitVec.ofNat n (shrElem n x k) = BitVec.ofNat n x >>> k := by
  refine BitVec.eq_of_toNat_eq ?_
  rw [BitVec.toNat_ofNat, shrElem_eq k hx, BitVec.toNat_ushiftRight, BitVec.toNat_ofNat, Nat.mod_eq_of_lt hx]
  split
  case isTrue hk =>
    rw [Nat.shiftRight_eq_div_pow]
    exact (Nat.div_eq_of_lt (hx.trans_le (Nat.pow_le_pow_right (by decide) hk))).symm
  case isFalse => rfl

theorem ofNat_sarElem (n x k : Nat) : BitVec.ofNat n (sarElem n x k) = (BitVec.ofNat n x).sshiftRight k := by
  refine BitVec.eq_of_toInt_eq ?_
  rw [BitVec.toInt_sshiftRight, ← signed_eq_toInt, ← signed_eq_toInt, Int.shiftRight_eq_div_pow,
    ← Nat.mod_eq_of_lt (show sarElem n x k < 2 ^ n from wrap_lt _ _), sarElem_signed, Nat.cast_pow]
  rfl

/-! ## The shapes -/

theorem uniBody_congr {e : Iss} {v w : Nat → Nat} (d : Byte) (hv : ∀ k, BitVec.ofNat 32 (v k) = BitVec.ofNat 32 (w k)) :
    uniBody e d v = uniBody e d w := by
  simp only [uniBody, hv]

/-- A uniform instruction of two sources, given as a word of the slice that is read. -/
theorem uniOp_result {s : State} {e : Iss} {d a b : Byte} {ok : Nat → Bool} {f : Nat → Nat → Nat → Nat} {w : Nat → Word}
    (h : issOf s = some e) (hroom : RoomForTraps e) (hsld : sldPending e = false) (hok : ∀ k ∈ e.sls, ok (e.ty k) = true)
    (hw : ∀ k, BitVec.ofNat 32 (f (e.ty k) (rdS e.g k a) (rdS e.g k b)) = w k) :
    ∃ t, uniOp d a b s ok f = .next t ∧ UniResult s t e d fun k => (w k).toNat :=
  uni_spec h (Judge.and_go.2 ⟨legal_go.2 hok, uniReady_go.2 hsld⟩) hroom
    (uniBody_congr d fun k => by rw [hw, BitVec.ofNat_toNat, BitVec.setWidth_eq])

/-- A uniform instruction `p.1` that computes `p.2` of the words of its sources, under every element type. -/
theorem uniRow_result {s : State} {e : Iss} {d a b a' b' : Byte} (h : issOf s = some e) (hroom : RoomForTraps e) (hsld : sldPending e = false)
    {p : Instr × (Word → Word → Word)} {f : Nat → Nat → Nat} (hp : exec p.1 s = uniOp d a' b' s (fun _ => true) fun _ => f)
    (hf : ∀ k, BitVec.ofNat 32 (f (rdS e.g k a') (rdS e.g k b')) = p.2 (BitVec.ofNat 32 (rdS e.g k a)) (BitVec.ofNat 32 (rdS e.g k b))) :
    ∃ t, exec p.1 s = .next t ∧ UniResult s t e d fun k => (p.2 (BitVec.ofNat 32 (rdS e.g k a)) (BitVec.ofNat 32 (rdS e.g k b))).toNat := by
  rw [hp]
  exact uniOp_result h hroom hsld (fun _ _ => rfl) hf

theorem s2v_result {s : State} {e : Iss} {d : Byte} (a : Byte) (h : issOf s = some e) (hroom : RoomForTraps e) (hsld : sldPending e = false)
    (hd : declOk e.n d = true) : ∃ t, exec (.s2v d a) s = .next t ∧
      Result s t e e.active d (fun _ => false) (fun _ => rdS e.g (e.active.headD 0 / 4) a) noConds := by
  rw [exec_s2v]
  exact word_result h (Judge.and_go.2 ⟨legal_go.2 fun _ _ => hd, uniReady_go.2 hsld⟩) hroom rfl

theorem v2s_result {s : State} {e : Iss} {a : Byte} (d : Byte) (h : issOf s = some e) (hroom : RoomForTraps e) (hsld : sldPending e = false)
    (ha : declOk e.n a = true) : ∃ t, exec (.v2s d a) s = .next t ∧ UniResult s t e d fun _ => rd e.g (e.active.headD 0) a := by
  rw [exec_v2s]
  exact uni_spec h (Judge.and_go.2 ⟨legal_go.2 fun _ _ => ha, uniReady_go.2 hsld⟩) hroom rfl

/-- SADD waits for an outstanding SLD (R158). -/
theorem sadd_stalls {s : State} {e : Iss} (d a b : Byte) (h : issOf s = some e) (hsld : sldPending e = true) :
    exec (.sadd d a b) s = .next (idle s) := by
  rw [exec_sadd]
  refine issue_stall h ?_
  have hlegal : (legal e fun _ => true) = .go := legal_go.2 fun _ _ => rfl
  rw [hlegal]
  exact if_pos hsld

/-- Settles O12: each instruction is one issue that writes a uniform register, or a register of every active lane, with the word that the
model's number stands for. -/
theorem uniformInstructions : Obligations.UniformInstructions := by
  unfold Obligations.UniformInstructions
  refine fun s e d a b i h hroom => ⟨fun hsld => ⟨?_, fun hty => ?_, fun hd => ?_, fun ha => ?_⟩, sadd_stalls d a b h⟩
  · refine List.forall_mem_cons.2 ⟨uniRow_result h hroom hsld (exec_sadd d a b s) fun _ => BitVec.ofNat_add _ _, List.forall_mem_cons.2
      ⟨uniRow_result h hroom hsld (exec_ssub d a b s) fun _ => ofNat_wrap_sub _ _ _, List.forall_mem_cons.2
      ⟨uniRow_result h hroom hsld (exec_smul d a b s) fun _ => BitVec.ofNat_mul _ _, List.forall_mem_cons.2
      ⟨uniRow_result h hroom hsld (exec_sand d a b s) fun _ => BitVec.ofNat_and, List.forall_mem_cons.2
      ⟨uniRow_result h hroom hsld (exec_sor d a b s) fun _ => BitVec.ofNat_or, List.forall_mem_cons.2
      ⟨uniRow_result h hroom hsld (exec_sxor d a b s) fun _ => BitVec.ofNat_xor, List.forall_mem_cons.2
      ⟨uniRow_result h hroom hsld (exec_sshl d a b s) fun k => ?_, List.forall_mem_cons.2
      ⟨uniRow_result h hroom hsld (exec_smov d a s) fun _ => rfl, List.forall_mem_singleton.2 ?_⟩⟩⟩⟩⟩⟩⟩⟩
    · have hcount : (BitVec.ofNat 32 (rdS e.g k b)).toNat = rdS e.g k b := by
        rw [BitVec.toNat_ofNat, Nat.mod_eq_of_lt (rdS_lt _ _ _)]
      dsimp only
      rw [ofNat_shlElem, hcount]
    · rw [exec_smovi]
      exact uni_spec h (uniReady_go.2 hsld) hroom rfl
  · rw [exec_sshr]
    refine uniOp_result h hroom hsld (fun k hk => decide_eq_true (hty k hk)) fun k => ?_
    split
    · exact ofNat_sarElem _ _ _
    · exact ofNat_shrElem _ (rdS_lt _ _ _)
  · obtain ⟨t, ht, hres⟩ := s2v_result a h hroom hsld hd
    exact ⟨t, _, ht, hres, fun _ _ k hk => by rw [headD_of_head? hk]⟩
  · obtain ⟨t, ht, hres⟩ := v2s_result d h hroom hsld ha
    exact ⟨t, _, ht, hres, fun l hl => by rw [List.headD_eq_head?_getD, hl]; rfl⟩

end Sys2Proof.Machine
end

section
/-! PROOFS. Proofs/FloatFormats.lean: the codes of the formats that hold infinities and NaNs as IEEE 754 does, by their magnitude bits
(R22, R24), and the element types of FP (R48, R159). -/

namespace Sys2Proof.Machine

/-! ## Magnitude and sign of a code -/

theorem magF_lt (f : Fmt) (x : Nat) : magF f x < 2 ^ (f.eb + f.mb) := Nat.mod_lt _ (by positivity)

theorem infCode_lt (f : Fmt) : infCode f < 2 ^ (f.eb + f.mb) := by
  unfold infCode
  rw [pow_add]
  exact Nat.mul_lt_mul_of_pos_right (Nat.sub_lt (by positivity) one_pos) (by positivity)

/-- The exponent bits of a code are all ones from infinity upward. -/
theorem magF_exponent_top (f : Fmt) (x : Nat) : magF f x / 2 ^ f.mb = 2 ^ f.eb - 1 ↔ infCode f ≤ magF f x := by
  have hlt : magF f x / 2 ^ f.mb < 2 ^ f.eb := Nat.div_lt_of_lt_mul (by rw [← pow_add, Nat.add_comm]; exact magF_lt f x)
  unfold infCode
  rw [← Nat.le_div_iff_mul_le (by positivity)]
  omega

theorem signBit_eq_testBit (f : Fmt) (x : Nat) : (x / 2 ^ (f.eb + f.mb) % 2 == 1) = x.testBit (f.eb + f.mb) := by
  rw [Nat.testBit_eq_decide_div_mod_eq]
  rfl

theorem magF_sign_add {f : Fmt} {m : Nat} (h : m < 2 ^ (f.eb + f.mb)) : magF f (2 ^ (f.eb + f.mb) + m) = m := by
  unfold magF
  rw [Nat.add_mod_left, Nat.mod_eq_of_lt h]

theorem testBit_sign_add {f : Fmt} {m : Nat} (h : m < 2 ^ (f.eb + f.mb)) :
    (2 ^ (f.eb + f.mb) + m).testBit (f.eb + f.mb) = true := by
  rw [Nat.testBit_two_pow_add_eq, Nat.testBit_lt_two_pow h]
  rfl

/-! ## What a code stands for (R22) -/

/-- Infinities and NaNs stand at the top exponent, as in every format of FP. -/
def Fmt.ieee (f : Fmt) : Prop := f.ieeeNan = true ∧ f.onesNan = false

theorem decodeF_top {f : Fmt} {x : Nat} (hf : f.ieee) (h : infCode f ≤ magF f x) :
    decodeF f x = if magF f x = infCode f then .inf (x.testBit (f.eb + f.mb)) else .nan := by
  have hexp : magF f x / 2 ^ f.mb = 2 ^ f.eb - 1 := (magF_exponent_top f x).2 h
  have hfrac : magF f x % 2 ^ f.mb = 0 ↔ magF f x = infCode f := by
    have hdiv := Nat.div_add_mod (magF f x) (2 ^ f.mb)
    rw [hexp, mul_comm] at hdiv
    unfold infCode
    omega
  unfold magF at *
  simp [decodeF, hf.1, hexp, hfrac, ← signBit_eq_testBit]

/-- A code below infinity stands for a number of its sign, which is 0 exactly where its magnitude is. -/
theorem decodeF_fin {f : Fmt} {x : Nat} (hf : f.ieee) (h : magF f x < infCode f) :
    ∃ m e, decodeF f x = .fin (x.testBit (f.eb + f.mb)) m e ∧ (m = 0 ↔ magF f x = 0) := by
  have hexp : ¬ magF f x / 2 ^ f.mb = 2 ^ f.eb - 1 := fun he => absurd ((magF_exponent_top f x).1 he) (Nat.not_le.2 h)
  have hdiv := Nat.div_add_mod (magF f x) (2 ^ f.mb)
  have hsign := signBit_eq_testBit f x
  unfold magF at *
  unfold decodeF
  simp only [hf.1, hf.2, hexp, hsign, Bool.true_and, Bool.false_and, beq_iff_eq, Bool.false_eq_true, if_false]
  split
  case isTrue h0 =>
    rw [h0, mul_zero, zero_add] at hdiv
    exact ⟨_, _, rfl, by rw [hdiv]⟩
  case isFalse h0 =>
    have hpos : 0 < 2 ^ f.mb := by positivity
    refine ⟨_, _, rfl, iff_of_false (by omega) fun hz => h0 ?_⟩
    rw [hz, Nat.zero_div]

theorem decodeF_nan_iff {f : Fmt} {x : Nat} (hf : f.ieee) : decodeF f x = .nan ↔ infCode f < magF f x := by
  rcases lt_or_ge (magF f x) (infCode f) with hlt | hge
  · obtain ⟨m, e, hfin, -⟩ := decodeF_fin hf hlt
    rw [hfin]
    exact iff_of_false FVal.noConfusion (Nat.lt_asymm hlt)
  · rw [decodeF_top hf hge]
    split
    case isTrue heq => exact iff_of_false FVal.noConfusion (Nat.not_lt.2 heq.le)
    case isFalse hne => exact iff_of_true rfl (lt_of_le_of_ne hge (Ne.symm hne))

/-! ## The element types of FP -/

theorem setFp_cases {t : Nat} (h : setFp t = true) : t = 4 ∨ t = 5 ∨ t = 6 ∨ t = 7 := by
  simpa only [setFp, Bool.or_eq_true, beq_iff_eq, or_assoc] using h

theorem tyFmt_ieee {t : Nat} (h : setFp t = true) : (tyFmt t).ieee := by
  obtain rfl | rfl | rfl | rfl := setFp_cases h <;> exact ⟨rfl, rfl⟩

/-- A code of an element type of FP is a sign bit above its exponent and fraction. -/
theorem tyWidth_eq_sign {t : Nat} (h : setFp t = true) : tyWidth t = (tyFmt t).eb + (tyFmt t).mb + 1 := by
  obtain rfl | rfl | rfl | rfl := setFp_cases h <;> rfl

theorem canonNan_lt {t : Nat} (h : setFp t = true) : canonNan (tyFmt t) < 2 ^ tyWidth t := by
  obtain rfl | rfl | rfl | rfl := setFp_cases h <;> decide

end Sys2Proof.Machine
end

section
/-! PROOFS. Proofs/FloatArithmetic.lean: the shapes of floating-point instructions, element by element, and FADD, FSUB, FMUL, FFMA,
FDIV and FSCALE (R160, R162). -/

namespace Sys2Proof.Machine

/-! ## Shapes (R160) -/

/-- An issue whose results are formed per element by `f`, at the element type of each lane. -/
theorem elements_result {s : State} {e : Iss} {ty : Nat → Bool} {ss ps : List Byte} {j : Iss → Judge} {b : Iss → Eff} {d : Byte}
    (h : issOf s = some e) (hj : j e = .go) (hroom : RoomForTraps e) (hf : Fits e ty [d] ss ps) {f : Nat → Nat → Nat × Conds}
    (hb : b e = floatBody e d e.wide fun l => packRes (e.lty l) ((List.range (tyCount (e.lty l))).map (f l))) :
    ∃ t v c, issue s j b = .next t ∧ Result s t e e.active d e.wide v c ∧ perElement e v c f := by
  obtain ⟨t, ht, hres⟩ := result_spec h hj hroom ⟨false, hb⟩ fun l hl hw => hf.room (d := d) (List.mem_singleton_self d) hl hw
  exact ⟨t, _, _, ht, hres, packRes_perElement e f⟩

/-- An issue that writes a 32-bit result with its conditions, `f l` in lane `l`. -/
theorem floatWord_result {s : State} {e : Iss} {j : Iss → Judge} {b : Iss → Eff} {d : Byte} {f : Nat → Nat × Conds} (h : issOf s = some e)
    (hj : j e = .go) (hroom : RoomForTraps e) (hb : b e = floatBody e d (fun _ => false) f) :
    ∃ t, issue s j b = .next t ∧ Result s t e e.active d (fun _ => false) (fun l => (f l).1) fun l => (f l).2 :=
  result_spec h hj hroom ⟨false, hb⟩ fun _ _ hw => absurd hw Bool.false_ne_true

theorem noRst.notRst {e : Iss} (h : noRst e) {k : Nat} (hk : k ∈ e.sls) : notRst (e.mode k) = true := bne_iff_ne.2 (h k hk)

/-- What an elementwise instruction asks of the mode word: not RST where it rounds. -/
theorem rounding_ok {e : Iss} {rounds : Bool} (hrst : rounds = true → noRst e) {k : Nat} (hk : k ∈ e.sls) :
    (!rounds || notRst (e.mode k)) = true := by
  cases rounds with
  | false => rfl
  | true => exact (hrst rfl).notRst hk

/-- An elementwise instruction of three registers. -/
theorem float3_result {s : State} {e : Iss} {ty : Nat → Bool} {rounds : Bool} {d a b : Byte} (h : issOf s = some e) (hroom : RoomForTraps e)
    (hrst : rounds = true → noRst e) (hf : Fits e ty [d] [a, b] []) (f : Fmt → Nat → Bool → Nat → Nat → Nat → Nat × Conds) :
    ∃ t v c, float3 s ty rounds d a b f = .next t ∧ Result s t e e.active d e.wide v c ∧ perElement e v c fun l i =>
      f (tyFmt (e.lty l)) (mRound (e.lmode l)) (mSat (e.lmode l)) (codeOf e a l i) (codeOf e b l i) (codeOf e d l i) := by
  refine elements_result h (legal_go.2 fun k hk => ?_) hroom hf rfl
  obtain ⟨hty, hdst, hsrc, -⟩ := hf k hk
  rw [hty, rounding_ok hrst hk, hdst d (by simp), hsrc a (by simp), hsrc b (by simp)]
  rfl

/-- An elementwise instruction of one source. -/
theorem float2_result {s : State} {e : Iss} {ty : Nat → Bool} {rounds : Bool} {d a : Byte} (h : issOf s = some e) (hroom : RoomForTraps e)
    (hrst : rounds = true → noRst e) (hf : Fits e ty [d] [a] []) (f : Fmt → Nat → Bool → Nat → Nat × Conds) :
    ∃ t v c, float2 s ty rounds d a f = .next t ∧ Result s t e e.active d e.wide v c ∧ perElement e v c fun l i =>
      f (tyFmt (e.lty l)) (mRound (e.lmode l)) (mSat (e.lmode l)) (codeOf e a l i) := by
  refine elements_result h (legal_go.2 fun k hk => ?_) hroom hf rfl
  obtain ⟨hty, hdst, hsrc, -⟩ := hf k hk
  rw [hty, rounding_ok hrst hk, hdst d (by simp), hsrc a (by simp)]
  rfl

/-! ## Arithmetic (R162) -/

theorem fscale_result {s : State} {e : Iss} {d a b : Byte} (h : issOf s = some e) (hroom : RoomForTraps e) (hrst : noRst e)
    (hf : Fits e setFp [d] [a] [b]) : ∃ t v c, exec (.fscale d a b) s = .next t ∧ Result s t e e.active d e.wide v c ∧
      perElement e v c fun l i => finishF (tyFmt (e.lty l)) (mRound (e.lmode l)) (mSat (e.lmode l))
        (scaleF (numOf e a l i) (if tyCount (e.lty l) = 1 then signed (rd e.g l b) 32 else signed (elemOf (e.lty l) (rd e.g l b) i) 16)) := by
  rw [exec_fscale]
  refine elements_result h (legal_go.2 fun k hk => ?_) hroom hf rfl
  obtain ⟨hty, hdst, hsrc, hdecl⟩ := hf k hk
  rw [hty, hrst.notRst hk, hdst d (by simp), hsrc a (by simp), hdecl b (by simp)]
  rfl

/-- Settles O13: the five are elementwise instructions of three registers, each element finished once from its exact result, and FSCALE
is one of its own shape. -/
theorem floatArithmetic : Obligations.FloatArithmetic := by
  unfold Obligations.FloatArithmetic
  refine fun s e d a b h hroom hrst => ⟨fun hf => ?_, fun hf => fscale_result h hroom hrst hf⟩
  have hrow := float3_result (rounds := true) h hroom (fun _ => hrst) hf
  simp only [List.forall_mem_cons, exec_fadd, exec_fsub, exec_fmul, exec_ffma, exec_fdiv]
  exact ⟨hrow _, hrow _, hrow _, hrow _, hrow _, List.forall_mem_nil _⟩

end Sys2Proof.Machine
end

section
/-! PROOFS. Proofs/FloatFunctions.lean: FRINT and the special functions, element by element, and their special operands (R166 to R168). -/

namespace Sys2Proof.Machine

/-! ## Special operands, by the value that the code stands for (R168) -/

section
variable {f : Fmt} {x : Nat} (rm : Nat) (sat : Bool)

theorem special_nan (h : decodeF f x = .nan) : ∀ g ∈ [frcpF, frsqF, fsqrtF, fexp2F, flog2F, fsinF, fcosF, ftanhF],
    g f rm sat x = (canonNan f, 0) := by
  simp [frcpF, divF, finishF, frsqF, fsqrtF, fexp2F, flog2F, fsinF, fcosF, ftanhF, h]

/-- The results at a zero of the sign `n`: its own code where the function is odd, 1 or an infinity elsewhere. -/
theorem special_zero {n : Bool} {e : Int} (h : decodeF f x = .fin n 0 e) :
    frcpF f rm sat x = (withSign f n (infCode f), condDZ) ∧ frsqF f rm sat x = (withSign f n (infCode f), condDZ) ∧
    fsqrtF f rm sat x = (x, 0) ∧ fexp2F f rm sat x = (oneCode f, 0) ∧ flog2F f rm sat x = (withSign f true (infCode f), condDZ) ∧
    fsinF f rm sat x = (x, 0) ∧ fcosF f rm sat x = (oneCode f, 0) ∧ ftanhF f rm sat x = (x, 0) := by
  simp [frcpF, divF, finishF, frsqF, fsqrtF, fexp2F, flog2F, fsinF, fcosF, ftanhF, h]

theorem roundTo_zero (neg : Bool) (den : Nat) : roundTo f rm sat neg 0 den = (withSign f neg 0, 0) := by
  simp [roundTo, roundMag]

theorem special_inf {n : Bool} (h : decodeF f x = .inf n) :
    frcpF f rm sat x = (withSign f n 0, 0) ∧ ftanhF f rm sat x = (withSign f n (oneCode f), 0) ∧
    fexp2F f rm sat x = (if n then 0 else infCode f, 0) ∧ ∀ g ∈ [fsinF, fcosF], g f rm sat x = (canonNan f, condNV) := by
  refine ⟨?_, ?_, ?_, ?_⟩
  · simp [frcpF, divF, finishF, h, roundTo_zero]
  · simp [ftanhF, h]
  · cases n <;> simp [fexp2F, h]
  · simp [fsinF, fcosF, h]

theorem special_pos_inf (h : decodeF f x = .inf false) :
    frsqF f rm sat x = (0, 0) ∧ fsqrtF f rm sat x = (x, 0) ∧ flog2F f rm sat x = (x, 0) := by
  simp [frsqF, fsqrtF, flog2F, h]

/-- Below zero there is no root and no logarithm. -/
theorem special_negative (h : decodeF f x = .inf true ∨ ∃ m e, decodeF f x = .fin true m e ∧ m ≠ 0) :
    ∀ g ∈ [frsqF, fsqrtF, flog2F], g f rm sat x = (canonNan f, condNV) := by
  obtain hd | ⟨m, e, hd, hm⟩ := h
  · simp [frsqF, fsqrtF, flog2F, hd]
  · simp [frsqF, fsqrtF, flog2F, hd, hm]

end

/-! ## The codes of R168's table -/

theorem magF_of_lt {f : Fmt} {m : Nat} (h : m < 2 ^ (f.eb + f.mb)) : magF f m = m := Nat.mod_eq_of_lt h

theorem decodeF_zero {f : Fmt} {x : Nat} (hf : f.ieee) (hinf : 0 < infCode f) (h : magF f x = 0) :
    ∃ e, decodeF f x = .fin (x.testBit (f.eb + f.mb)) 0 e := by
  obtain ⟨m, e, hd, hm⟩ := decodeF_fin hf (h ▸ hinf)
  obtain rfl := hm.2 h
  exact ⟨e, hd⟩

theorem decodeF_infCode {f : Fmt} {x : Nat} (hf : f.ieee) (h : magF f x = infCode f) :
    decodeF f x = .inf (x.testBit (f.eb + f.mb)) := by
  rw [decodeF_top hf h.ge, if_pos h]

theorem ieee_of_mem {f : Fmt} (h : f ∈ [F32, F16, BF16]) : f.ieee ∧ 0 < infCode f := by
  simp only [List.mem_cons, List.not_mem_nil, or_false] at h
  obtain rfl | rfl | rfl := h <;> exact ⟨⟨rfl, rfl⟩, by decide⟩

/-- Settles O14: the nine are elementwise instructions of one source; the operands of the table decode to a NaN, a zero, an infinity or
a negative number, at which each function has one branch. -/
theorem floatFunctions : Obligations.FloatFunctions := by
  unfold Obligations.FloatFunctions
  refine ⟨fun s e d a h hroom hrst => ?_, fun f rm sat x hmem _ => ?_⟩
  · have hrow := fun ty (hf : Fits e ty [d] [a] []) => float2_result (rounds := true) h hroom (fun _ => hrst) hf
    simp only [List.forall_mem_cons, exec_frint, exec_frcp, exec_fsqrt, exec_frsq, exec_fexp2, exec_flog2, exec_fsin, exec_fcos, exec_ftanh]
    exact ⟨fun hf => hrow _ hf _, fun hf => hrow _ hf _, fun hf => hrow _ hf _, fun hf => hrow _ hf _, fun hf => hrow _ hf _,
      fun hf => hrow _ hf _, fun hf => hrow _ hf _, fun hf => hrow _ hf _, fun hf => hrow _ hf _, List.forall_mem_nil _⟩
  obtain ⟨hf, hinf⟩ := ieee_of_mem hmem
  have hlt := infCode_lt f
  refine ⟨special_nan rm sat, ?_, ?_, ?_, ?_, fun hlow hhigh => ?_⟩
  · rintro rfl
    obtain ⟨e, hzero⟩ := decodeF_zero hf hinf (Nat.zero_mod _)
    rw [Nat.zero_testBit] at hzero
    exact special_zero rm sat hzero
  · rintro rfl
    obtain ⟨e, hzero⟩ := decodeF_zero hf hinf (Nat.mod_self _)
    rw [Nat.testBit_two_pow_self] at hzero
    exact special_zero rm sat hzero
  · rintro rfl
    have hdec := decodeF_infCode hf (magF_of_lt hlt)
    rw [Nat.testBit_lt_two_pow hlt] at hdec
    obtain ⟨hrcp, htanh, hexp2, htrig⟩ := special_inf rm sat hdec
    obtain ⟨hrsq, hsqrt, hlog2⟩ := special_pos_inf rm sat hdec
    exact ⟨hrcp, hrsq, hsqrt, hexp2, hlog2, htanh, htrig⟩
  · rintro rfl
    have hdec := decodeF_infCode hf (magF_sign_add hlt)
    rw [testBit_sign_add hlt] at hdec
    obtain ⟨hrcp, htanh, hexp2, htrig⟩ := special_inf rm sat hdec
    exact ⟨hrcp, hexp2, htanh, List.forall_mem_append.2 ⟨special_negative rm sat (.inl hdec), htrig⟩⟩
  · obtain ⟨m, rfl⟩ := Nat.exists_eq_add_of_le hlow.le
    have hm : m < infCode f := Nat.lt_of_add_lt_add_left hhigh
    have hmag := magF_sign_add (hm.trans hlt)
    obtain ⟨k, e, hdec, hk⟩ := decodeF_fin hf (hmag ▸ hm)
    rw [testBit_sign_add (hm.trans hlt)] at hdec
    exact special_negative rm sat (.inr ⟨k, e, hdec, fun hz => by rw [hmag] at hk; omega⟩)

end Sys2Proof.Machine
end

section
/-! PROOFS. Proofs/FloatOrder.lean: FMIN, FMAX, FABS, FNEG, FCMP and FCLASS (R163 to R165). -/

namespace Sys2Proof.Machine

/-! ## FMIN and FMAX (R163) -/

theorem minmaxF_nan {f : Fmt} {x y : Nat} (wantMax : Bool) (h : decodeF f x = .nan ∨ decodeF f y = .nan) :
    minmaxF f wantMax x y = canonNan f := by
  unfold minmaxF
  split
  case h_1 => rfl
  case h_2 => rfl
  case h_3 hx hy =>
    obtain hn | hn := h
    · exact absurd hn hx
    · exact absurd hn hy

/-- −0 stands below +0; otherwise the order is that of the numbers. -/
theorem minmaxF_number {f : Fmt} {x y : Nat} (wantMax : Bool) (hx : decodeF f x ≠ .nan) (hy : decodeF f y ≠ .nan) :
    minmaxF f wantMax x y =
      if cmpF (decodeF f x) (decodeF f y) < 0 ∨ (cmpF (decodeF f x) (decodeF f y) = 0 ∧ x.testBit (f.eb + f.mb) = true)
      then (if wantMax then y else x) else (if wantMax then x else y) := by
  unfold minmaxF
  split
  case h_1 hn => exact absurd hn hx
  case h_2 hn _ => exact absurd hn hy
  case h_3 =>
    simp only [signBit_eq_testBit, Bool.or_eq_true, Bool.and_eq_true, decide_eq_true_eq]
    cases wantMax
    · rw [if_neg Bool.false_ne_true, if_neg Bool.false_ne_true, if_neg Bool.false_ne_true]
    · rw [if_pos rfl, if_pos rfl, if_pos rfl]

theorem minmaxF_lt {f : Fmt} {x y n : Nat} (wantMax : Bool) (hnan : canonNan f < n) (hx : x < n) (hy : y < n) :
    minmaxF f wantMax x y < n := by
  by_cases h : decodeF f x = .nan ∨ decodeF f y = .nan
  · rwa [minmaxF_nan wantMax h]
  · rw [not_or] at h
    rw [minmaxF_number wantMax h.1 h.2]
    split <;> split <;> assumption

/-! ## Results without conditions -/

theorem sliceConds_congr (k : Nat) {ls : List Nat} {c c' : Nat → Conds} (h : ∀ l ∈ ls, c l = c' l) : sliceConds k ls c = sliceConds k ls c' := by
  unfold sliceConds
  rw [List.map_congr_left fun l hl => h l (List.mem_filter.1 hl).1]

/-- A result counts only the conditions of the lanes that it is written in. -/
theorem Result.congr_conds {s t : State} {e : Iss} {ls : List Nat} {d : Byte} {w : Nat → Bool} {v : Nat → Nat} {c c' : Nat → Conds}
    (hres : Result s t e ls d w v c) (h : ∀ l ∈ ls, c l = c' l) : Result s t e ls d w v c' := by
  obtain ⟨g, hret, honly, hwrote, hpreds, hsregs, hctl, hraised, hadv⟩ := hres
  exact ⟨g, hret, honly, hwrote, hpreds, hsregs, hctl, fun k hk => sliceConds_congr k h ▸ hraised k hk, hadv⟩

theorem orConds_map_zero {α : Type} (ls : List α) : orConds (ls.map fun _ => (0 : Conds)) = 0 := by
  induction ls with
  | nil => rfl
  | cons x ls ih => exact (BitVec.zero_or).trans ih

/-- The elements of a result that raises no condition. -/
def quietElements (s t : State) (e : Iss) (d : Byte) (v : Nat → Nat) (f : Nat → Nat → Nat) : Prop :=
  Result s t e e.active d e.wide v noConds ∧
    ∀ l ∈ e.active, ∀ i < tyCount (e.lty l), elemOf (e.lty l) (v l) i = f l i % 2 ^ tyWidth (e.lty l)

theorem quietElements_of {s t : State} {e : Iss} {d : Byte} {v : Nat → Nat} {c : Nat → Conds} {f : Nat → Nat → Nat}
    (hres : Result s t e e.active d e.wide v c) (hper : perElement e v c fun l i => (f l i, 0)) : quietElements s t e d v f :=
  ⟨hres.congr_conds fun l hl => (hper l hl).1.trans (orConds_map_zero _), fun l hl => (hper l hl).2⟩

theorem float3_quiet {s : State} {e : Iss} {ty : Nat → Bool} {d a b : Byte} (h : issOf s = some e) (hroom : RoomForTraps e)
    (hf : Fits e ty [d] [a, b] []) (f : Fmt → Nat → Nat → Nat) :
    ∃ t v, float3 s ty false d a b (fun g _ _ x y _ => (f g x y, 0)) = .next t ∧
      quietElements s t e d v fun l i => f (tyFmt (e.lty l)) (codeOf e a l i) (codeOf e b l i) := by
  obtain ⟨t, v, c, ht, hres, hper⟩ := float3_result h hroom (fun hr => absurd hr Bool.false_ne_true) hf fun g _ _ x y _ => (f g x y, 0)
  exact ⟨t, v, ht, quietElements_of hres hper⟩

theorem float2_quiet {s : State} {e : Iss} {ty : Nat → Bool} {d a : Byte} (h : issOf s = some e) (hroom : RoomForTraps e)
    (hf : Fits e ty [d] [a] []) (f : Fmt → Nat → Nat) :
    ∃ t v, float2 s ty false d a (fun g _ _ x => (f g x, 0)) = .next t ∧
      quietElements s t e d v fun l i => f (tyFmt (e.lty l)) (codeOf e a l i) := by
  obtain ⟨t, v, c, ht, hres, hper⟩ := float2_result h hroom (fun hr => absurd hr Bool.false_ne_true) hf fun g _ _ x => (f g x, 0)
  exact ⟨t, v, ht, quietElements_of hres hper⟩

/-! ## FABS and FNEG (R163) -/

theorem magF_testBit {f : Fmt} {j : Nat} (x : Nat) (hj : j < f.eb + f.mb + 1) :
    (magF f x).testBit j = if j = f.eb + f.mb then false else x.testBit j := by
  unfold magF
  rw [Nat.testBit_mod_two_pow]
  split
  case isTrue htop => rw [htop, decide_eq_false (lt_irrefl _), Bool.false_and]
  case isFalse hlow => rw [decide_eq_true (by omega), Bool.true_and]

/-- Adding the sign's weight inverts the sign bit and carries out of the code. -/
theorem neg_testBit {f : Fmt} {j : Nat} (x : Nat) (hj : j < f.eb + f.mb + 1) :
    ((x + 2 ^ (f.eb + f.mb)) % 2 ^ fmtWidth f).testBit j = if j = f.eb + f.mb then !x.testBit j else x.testBit j := by
  have hw : j < fmtWidth f := by unfold fmtWidth; omega
  rw [Nat.testBit_mod_two_pow, decide_eq_true hw, Bool.true_and, Nat.add_comm]
  split
  case isTrue htop => rw [htop, Nat.testBit_two_pow_add_eq]
  case isFalse hlow => exact Nat.testBit_two_pow_add_gt (by omega) x

/-! ## FCMP (R164) -/

theorem fcmpF_nan {f : Fmt} {x y : Nat} (c : Nat) (h : decodeF f x = .nan ∨ decodeF f y = .nan) :
    fcmpF f c x y = (c == 1 || c == 6) := by
  unfold fcmpF
  split
  case h_1 => rfl
  case h_2 => rfl
  case h_3 hx hy =>
    obtain hn | hn := h
    · exact absurd hn hx
    · exact absurd hn hy

theorem fcmpF_iff (f : Fmt) (c : BitVec 3) (x y : Nat) : fcmpF f c.toNat x y = true ↔
    if decodeF f x = .nan ∨ decodeF f y = .nan then c = 1 ∨ c = 6
    else (c = 0 ∧ cmpF (decodeF f x) (decodeF f y) = 0) ∨ (c = 1 ∧ cmpF (decodeF f x) (decodeF f y) ≠ 0) ∨
      (c = 2 ∧ cmpF (decodeF f x) (decodeF f y) < 0) ∨ (c = 3 ∧ cmpF (decodeF f x) (decodeF f y) ≤ 0) ∨
      (c = 4 ∧ 0 < cmpF (decodeF f x) (decodeF f y)) ∨ (c = 5 ∧ 0 ≤ cmpF (decodeF f x) (decodeF f y)) ∨ c = 7 := by
  have hcode : c = 0 ∨ c = 1 ∨ c = 2 ∨ c = 3 ∨ c = 4 ∨ c = 5 ∨ c = 6 ∨ c = 7 := by bv_omega
  split
  case isTrue hnan =>
    rw [fcmpF_nan _ hnan]
    rcases hcode with rfl | rfl | rfl | rfl | rfl | rfl | rfl | rfl <;> decide
  case isFalse hnum =>
    rw [not_or] at hnum
    unfold fcmpF
    split
    case h_1 hn => exact absurd hn hnum.1
    case h_2 hn _ => exact absurd hn hnum.2
    case h_3 => rcases hcode with rfl | rfl | rfl | rfl | rfl | rfl | rfl | rfl <;> simp

theorem fcmp_result {s : State} {e : Iss} {p : BitVec 3} {a b : Byte} (c : BitVec 3) (h : issOf s = some e) (hroom : RoomForTraps e)
    (hf : Fits e setScal [] [a, b] []) : ∃ t, exec (.fcmp c p a b) s = .next t ∧
      PredResult s t e p.toNat (fun l => fcmpF (tyFmt (e.lty l)) c.toNat (e.val a l) (e.val b l)) noConds := by
  rw [exec_fcmp]
  refine pred_spec h (legal_go.2 fun k hk => ?_) hroom rfl
  obtain ⟨hty, -, hsrc, -⟩ := hf k hk
  rw [hty, hsrc a (by simp), hsrc b (by simp)]
  rfl

/-! ## FCLASS (R165) -/

theorem classOf_eq_magF (f : Fmt) (x : Nat) : classOf f x =
    if infCode f < magF f x then 8
    else if magF f x = infCode f then (if x.testBit (f.eb + f.mb) then 0 else 7)
    else if magF f x = 0 then (if x.testBit (f.eb + f.mb) then 3 else 4)
    else if magF f x < 2 ^ f.mb then (if x.testBit (f.eb + f.mb) then 2 else 5)
    else (if x.testBit (f.eb + f.mb) then 1 else 6) := rfl

theorem classOf_le (f : Fmt) (x : Nat) : classOf f x ≤ 8 := by
  rw [classOf_eq_magF]
  repeat' split
  all_goals omega

theorem classF_eq_two_pow {f : Fmt} (hf : f.ieee) (x : Nat) : classF f x = 2 ^ classOf f x := by
  unfold classF
  rw [signBit_eq_testBit, classOf_eq_magF]
  rcases lt_trichotomy (magF f x) (infCode f) with hfin | hinf | hnan
  · obtain ⟨m, e, hdec, hm⟩ := decodeF_fin hf hfin
    simp only [hdec, hm]
    rw [if_neg (Nat.lt_asymm hfin), if_neg hfin.ne]
    split
    · split <;> rfl
    · split <;> split <;> rfl
  · simp only [decodeF_infCode hf hinf]
    rw [if_neg (Nat.not_lt.2 hinf.le), if_pos hinf]
    split <;> rfl
  · simp only [(decodeF_nan_iff hf).2 hnan]
    rw [if_pos hnan]

/-- The bits of a mask of one class in each half word. -/
theorem classMask_testBit (n : Nat) {c : Nat → Nat} (hc : ∀ i, c i ≤ 8) (j : Nat) :
    ((List.range n).map fun i => 2 ^ (16 * i) * 2 ^ c i).sum.testBit j = decide (j / 16 < n ∧ j % 16 = c (j / 16)) := by
  have hsorted : ((List.range n).map fun i => 16 * i + c i).Pairwise (· < ·) :=
    List.pairwise_map.2 (List.pairwise_lt_range.imp fun {i k} hik => by have := hc i; omega)
  have hbits := testBit_sum_two_pow hsorted j
  rw [List.map_map] at hbits
  simp only [← pow_add]
  refine hbits.trans (decide_eq_decide.2 ?_)
  simp only [List.mem_map, List.mem_range]
  constructor
  · rintro ⟨i, hi, rfl⟩
    have hci := hc i
    have hdiv : (16 * i + c i) / 16 = i := by omega
    rw [hdiv]
    exact ⟨hi, by omega⟩
  · rintro ⟨hlt, hmod⟩
    exact ⟨j / 16, hlt, by omega⟩

theorem tyCount_le_of_setFp {t : Nat} (h : setFp t = true) : tyCount t ≤ 2 := by
  obtain rfl | rfl | rfl | rfl := setFp_cases h <;> decide

/-- The mask of FCLASS in lane `l`. -/
def classMask (e : Iss) (a : Byte) (l : Nat) : Nat :=
  ((List.range (tyCount (e.lty l))).map fun i => 2 ^ (16 * i) * classF (tyFmt (e.lty l)) (codeOf e a l i)).sum

theorem fclass_result {s : State} {e : Iss} {d a : Byte} (h : issOf s = some e) (hroom : RoomForTraps e) (hf : Fits e setFp [] [a] [d]) :
    ∃ t, exec (.fclass d a) s = .next t ∧ Result s t e e.active d (fun _ => false) (classMask e a) noConds := by
  rw [exec_fclass]
  refine word_result h (legal_go.2 fun k hk => ?_) hroom rfl
  obtain ⟨hty, -, hsrc, hdecl⟩ := hf k hk
  rw [hty, hdecl d (by simp), hsrc a (by simp)]
  rfl

theorem classMask_bits {e : Iss} {l : Nat} (a : Byte) (hty : setFp (e.lty l) = true) (j : Nat) : (classMask e a l).testBit j =
    decide (j / 16 < tyCount (e.lty l) ∧ j % 16 = classOf (tyFmt (e.lty l)) (codeOf e a l (j / 16))) := by
  unfold classMask
  simp only [classF_eq_two_pow (tyFmt_ieee hty)]
  exact classMask_testBit _ (fun _ => classOf_le _ _) j

theorem classMask_lt {e : Iss} {l : Nat} (a : Byte) (hty : setFp (e.lty l) = true) : classMask e a l < 2 ^ 32 := by
  refine Nat.lt_pow_two_of_testBit _ fun j hj => ?_
  have hcount := tyCount_le_of_setFp hty
  rw [classMask_bits a hty, decide_eq_false_iff_not]
  exact fun hb => by omega

/-! ## O15 -/

/-- Settles O15: the elements of FMIN and FMAX are those of `minmaxF`, FABS and FNEG change the sign bit alone, FCMP is `fcmpF` of
element 0, and FCLASS sets the bit `classOf` in the half word of each element. -/
theorem floatOrderAndCompares : Obligations.FloatOrderAndCompares := by
  unfold Obligations.FloatOrderAndCompares
  refine ⟨fun s e d a b h hroom => ⟨fun hf p hp => ?_, fun hf p hp => ?_⟩, fun s e c p d a b h hroom => ⟨fun hf => ?_, fun hf => ?_⟩⟩
  · have hexec : exec p.1 s = float3 s setFp false d a b fun f _ _ x y _ => (minmaxF f p.2 x y, 0) := by
      rcases List.mem_pair.1 hp with rfl | rfl <;> rfl
    obtain ⟨t, v, ht, hres, helem⟩ := float3_quiet h hroom hf fun f x y => minmaxF f p.2 x y
    refine ⟨t, v, hexec.trans ht, hres, ?_⟩
    rintro l hl i hi _ _ r rfl rfl rfl
    have hty : setFp (e.lty l) = true := (hf _ (active_slice hl)).1
    have hval : elemOf (e.lty l) (v l) i = minmaxF (tyFmt (e.lty l)) p.2 (codeOf e a l i) (codeOf e b l i) :=
      (helem l hl i hi).trans (Nat.mod_eq_of_lt (minmaxF_lt _ (canonNan_lt hty) (elemOf_lt _ _ _) (elemOf_lt _ _ _)))
    rw [hval, tyWidth_eq_sign hty, Nat.add_sub_cancel]
    split
    case isTrue hnan => exact minmaxF_nan _ hnan
    case isFalse hnum =>
      rw [not_or] at hnum
      exact minmaxF_number _ hnum.1 hnum.2
  · have hexec : ∃ g : Fmt → Nat → Nat, exec p.1 s = float2 s setFp false d a (fun f _ _ x => (g f x, 0)) ∧
        ∀ f x j, j < f.eb + f.mb + 1 → (g f x).testBit j = if j = f.eb + f.mb then p.2 (x.testBit j) else x.testBit j := by
      rcases List.mem_pair.1 hp with rfl | rfl
      · exact ⟨magF, rfl, fun _ x _ hj => magF_testBit x hj⟩
      · exact ⟨fun f x => (x + 2 ^ (f.eb + f.mb)) % 2 ^ fmtWidth f, rfl, fun _ x _ hj => neg_testBit x hj⟩
    obtain ⟨g, hexec, hbit⟩ := hexec
    obtain ⟨t, v, ht, hres, helem⟩ := float2_quiet h hroom hf g
    refine ⟨t, v, hexec.trans ht, hres, fun l hl i hi j hj => ?_⟩
    have hw := tyWidth_eq_sign (hf _ (active_slice hl)).1
    rw [helem l hl i hi, Nat.testBit_mod_two_pow, decide_eq_true hj, Bool.true_and, hbit _ _ _ (hw ▸ hj),
      show tyWidth (e.lty l) - 1 = _ from congrArg (· - 1) hw]
    rfl
  · obtain ⟨t, ht, hres⟩ := fcmp_result (p := p) c h hroom hf
    refine ⟨t, _, ht, hres, ?_⟩
    rintro l hl _ _ _ rfl rfl rfl
    have hcode : ∀ r, codeOf e r l 0 = e.val r l := fun r =>
      codeOf_zero (active_lt hl) (tyCount_of_setScal (hf _ (active_slice hl)).1)
    unfold numOf
    rw [hcode, hcode]
    exact fcmpF_iff _ _ _ _
  · obtain ⟨t, ht, hres⟩ := fclass_result h hroom hf
    refine ⟨t, _, ht, hres, fun l hl => ?_⟩
    have hty : setFp (e.lty l) = true := (hf _ (active_slice hl)).1
    exact ⟨classMask_lt a hty, fun j _ => classMask_bits a hty j⟩

end Sys2Proof.Machine
end

section
/-! PROOFS. Proofs/ScaleDotAndCrossLane.lean: RNG, QMX, DQMX, FDOT2, GAMAX and GRED (R171 to R173, R175 to R177). -/

namespace Sys2Proof.Machine

theorem rng_result {s : State} {e : Iss} {d a : Byte} (str : Byte) (h : issOf s = some e) (hroom : RoomForTraps e)
    (hf : Fits e (fun _ => true) [] [] [d, a]) : ∃ t, exec (.rng d a str) s = .next t ∧ Result s t e e.active d (fun _ => false)
      (fun l => rngWord e.ctx.desc.seed.toNat e.kern.ord str.toNat (rd e.g l a)) noConds := by
  rw [exec_rng]
  refine word_result h (legal_go.2 fun k hk => ?_) hroom rfl
  obtain ⟨-, -, -, hdecl⟩ := hf k hk
  rw [hdecl d (by simp), hdecl a (by simp)]
  rfl

/-- An issue that rounds a 32-bit result from three declared 32-bit registers. -/
theorem roundedWord_result {s : State} {e : Iss} {ty : Nat → Bool} {d a b : Byte} {body : Iss → Eff} {f : Nat → Nat × Conds}
    (h : issOf s = some e) (hroom : RoomForTraps e) (hrst : noRst e) (hf : Fits e ty [] [] [d, a, b])
    (hb : body e = floatBody e d (fun _ => false) f) :
    ∃ t, issue s (fun e => legal e fun k => ty (e.ty k) && notRst (e.mode k) && declOk e.n d && declOk e.n a && declOk e.n b) body = .next t ∧
      Result s t e e.active d (fun _ => false) (fun l => (f l).1) fun l => (f l).2 := by
  refine floatWord_result h (legal_go.2 fun k hk => ?_) hroom hb
  obtain ⟨hty, -, -, hdecl⟩ := hf k hk
  rw [hty, hrst.notRst hk, hdecl d (by simp), hdecl a (by simp), hdecl b (by simp)]
  rfl

/-! ## Microscaling (R172, R173) -/

/-- A code of a block is read at its scale and rounded once to F32. -/
theorem dqmxVal_eq {rm a b f sc code : Nat} (sat : Bool) (hf : f = a / 2 ^ 16 % 16) (hsc : sc = b / 2 ^ 8 % 256) (hcode : code = a % 2 ^ elemWidth f) :
    dqmxVal rm sat a b =
      if f < 2 ∨ 7 < f then (canonNan F32, condNV)
      else if sc = 255 then (canonNan F32, 0)
      else match elemValue f code with
        | .fin n m x => finishF F32 rm sat (finExact n m (x + (sc : Int) - 127))
        | y => cvtFF F32 rm sat y := by
  subst hf hsc hcode
  rfl

theorem dqmx_result {s : State} {e : Iss} {d a b : Byte} (h : issOf s = some e) (hroom : RoomForTraps e) (hrst : noRst e)
    (hf : Fits e setF32 [] [] [d, a, b]) {r : Nat → Nat × Conds}
    (hr : r = fun l => dqmxVal (mRound (e.lmode l)) (mSat (e.lmode l)) (rd e.g l a) (rd e.g l b)) :
    ∃ t, exec (.dqmx d a b) s = .next t ∧ Result s t e e.active d (fun _ => false) (fun l => (r l).1) fun l => (r l).2 := by
  subst hr
  rw [exec_dqmx]
  exact roundedWord_result h hroom hrst hf rfl

theorem qmx_result {s : State} {e : Iss} {d a : Byte} (f : BitVec 3) (h : issOf s = some e) (hroom : RoomForTraps e) (hrst : noRst e)
    (hf : Fits e setF32 [] [] [d, a]) : ∃ t, exec (.qmx d a f) s = .next t ∧
      Result s t e e.active d (fun _ => false) (fun l => (qmxWord e a f.toNat l).1) fun l => (qmxWord e a f.toNat l).2 := by
  rw [exec_qmx]
  refine floatWord_result h (legal_go.2 fun k hk => ?_) hroom rfl
  obtain ⟨hty, -, -, hdecl⟩ := hf k hk
  rw [hty, hrst.notRst hk, hdecl d (by simp), hdecl a (by simp)]
  rfl

theorem qmxWord_none {e : Iss} {a : Byte} {f : Nat} (l : Nat) (h : mxScale f (e.active.map fun j => decodeF F32 (rd e.g j a)) = none) :
    qmxWord e a f l = (f * 2 ^ 16 + 255 * 2 ^ 8, condNV) := by
  unfold qmxWord
  rw [h]

theorem qmxWord_some {e : Iss} {a : Byte} {f : Nat} {x : Int} (l : Nat)
    (h : mxScale f (e.active.map fun j => decodeF F32 (rd e.g j a)) = some x) :
    qmxWord e a f l = (f * 2 ^ 16 + (x + 127).toNat * 2 ^ 8 + (mxElem f (mRound (e.lmode l)) x (decodeF F32 (rd e.g l a))).1,
      (mxElem f (mRound (e.lmode l)) x (decodeF F32 (rd e.g l a))).2) := by
  unfold qmxWord
  rw [h]

/-! ## FDOT2 (R177) -/

theorem fdot2_result {s : State} {e : Iss} {d a b : Byte} (h : issOf s = some e) (hroom : RoomForTraps e) (hrst : noRst e)
    (hf : Fits e setHalf [] [] [d, a, b]) {r : Nat → Nat × Conds}
    (hr : r = fun l => fdot2F (tyFmt (e.lty l)) (mRound (e.lmode l)) (mSat (e.lmode l)) (rd e.g l a) (rd e.g l b) (rd e.g l d)) :
    ∃ t, exec (.fdot2 d a b) s = .next t ∧ Result s t e e.active d (fun _ => false) (fun l => (r l).1) fun l => (r l).2 := by
  subst hr
  rw [exec_fdot2]
  exact roundedWord_result h hroom hrst hf rfl

/-! ## Gang reductions (R175, R176) -/

theorem gamax_result {s : State} {e : Iss} {d a : Byte} (h : issOf s = some e) (hroom : RoomForTraps e) (hf : Fits e setFps [d] [a] []) :
    ∃ t, exec (.gamax d a) s = .next t ∧
      Result s t e e.active d (fun _ => false) (fun l => mapElems (e.lty l) (gamaxElem e a (e.lty l))) noConds := by
  rw [exec_gamax]
  refine word_result h (legal_go.2 fun k hk => ?_) hroom rfl
  obtain ⟨hty, hdst, hsrc, -⟩ := hf k hk
  rw [hty, hdst d (by simp), hsrc a (by simp)]
  rfl

theorem gred_result {s : State} {e : Iss} {d a : Byte} (sub : BitVec 2) (h : issOf s = some e) (hroom : RoomForTraps e) (hrst : noRst e)
    (hf : Fits e setFp [d] [a] []) : ∃ t v c, exec (.gred d a sub) s = .next t ∧ Result s t e e.active d e.wide v c ∧
      perElement e v c fun l i => gredElem e a sub.toNat (e.lty l) i := by
  rw [exec_gred]
  refine elements_result h (legal_go.2 fun k hk => ?_) hroom hf rfl
  obtain ⟨hty, hdst, hsrc, -⟩ := hf k hk
  rw [hty, hrst.notRst hk, hdst d (by simp), hsrc a (by simp)]
  rfl

/-- Settles O17: each instruction is one issue whose words are those of the model's function; DQMX and QMX by the cases of their
scale, GAMAX and GRED element by element. -/
theorem scaleDotAndCrossLane : Obligations.ScaleDotAndCrossLane := by
  unfold Obligations.ScaleDotAndCrossLane
  refine ⟨fun s e d a b str h hroom => ⟨fun hf => rng_result str h hroom hf, fun hf hrst => ?_, fun hf hrst => ?_⟩,
    fun s e d a f sub h hroom => ⟨fun hf hrst _ => ?_, fun hf => ?_, fun hf hrst _ => gred_result sub h hroom hrst hf⟩⟩
  · obtain ⟨t, ht, hres⟩ := dqmx_result h hroom hrst hf rfl
    refine ⟨t, _, _, ht, hres, fun l _ f sc code hfmt hsc hcode => ?_⟩
    have hval := dqmxVal_eq (rm := mRound (e.lmode l)) (mSat (e.lmode l)) hfmt hsc hcode
    split
    case isTrue hbad => exact hval.trans (if_pos hbad)
    case isFalse hfmt =>
      rw [if_neg hfmt] at hval
      split
      case isTrue hnan => exact hval.trans (if_pos hnan)
      case isFalse hscale =>
        rw [if_neg hscale] at hval
        cases helem : elemValue f code with
        | nan => rwa [helem] at hval
        | inf n => rwa [helem] at hval
        | fin n m x => rwa [helem] at hval
  · obtain ⟨t, ht, hres⟩ := fdot2_result h hroom hrst hf rfl
    exact ⟨t, _, _, ht, hres, fun _ _ => rfl⟩
  · obtain ⟨t, ht, hres⟩ := qmx_result f h hroom hrst hf
    refine ⟨t, _, _, ht, hres, fun l _ => ?_⟩
    cases hscale : mxScale f.toNat (e.active.map fun j => decodeF F32 (rd e.g j a)) with
    | none => exact Prod.ext_iff.1 (qmxWord_none l hscale)
    | some x => exact Prod.ext_iff.1 (qmxWord_some l hscale)
  · obtain ⟨t, ht, hres⟩ := gamax_result h hroom hf
    exact ⟨t, _, ht, hres, fun _ _ i hi => elemOf_mapElems _ _ i hi⟩

end Sys2Proof.Machine
end

section
/-! PROOFS. Proofs/PackAndTwoOfFour.lean: PACKL and UNPACKL, bit by bit, and CMP24 (R174, R178). -/

namespace Sys2Proof.Machine

/-! ## Bits of a string of codes (R174) -/

/-- Bit `n` of a string of `w`-bit codes is bit `n % w` of code `n / w`. -/
theorem packElems_testBit {w : Nat} (hw : 0 < w) (l : List Nat) (n : Nat) :
    (packElems w l).testBit n = (l.getD (n / w) 0).testBit (n % w) := by
  induction l generalizing n with
  | nil => simp [packElems]
  | cons x xs ih =>
    rw [packElems, Nat.add_comm, Nat.testBit_two_pow_mul_add _ (Nat.mod_lt _ (by positivity))]
    split
    case isTrue hlow => rw [Nat.testBit_mod_two_pow, decide_eq_true hlow, Bool.true_and, Nat.div_eq_of_lt hlow, Nat.mod_eq_of_lt hlow]; rfl
    case isFalse hhigh =>
      obtain ⟨m, rfl⟩ := Nat.exists_eq_add_of_le (Nat.not_lt.1 hhigh)
      rw [Nat.add_sub_cancel_left, ih, Nat.add_div_left _ hw, Nat.add_mod_left]
      rfl

/-- The codes of the active lanes below `n`, 0 in place of the others. -/
def activeCodes (e : Iss) (a : Byte) (n : Nat) : List Nat := (List.range n).map fun l => if e.active.contains l then rd e.g l a else 0

theorem activeCodes_testBit (e : Iss) (a : Byte) (n k j : Nat) : ((activeCodes e a n).getD k 0).testBit j =
    decide (k < n ∧ k ∈ e.active ∧ (rd e.g k a).testBit j = true) := by
  unfold activeCodes
  rw [List.getD_eq_getElem?_getD, List.getElem?_map]
  rcases lt_or_ge k n with hin | hout
  · rw [List.getElem?_range hin]
    simp only [Option.map_some, Option.getD_some, List.contains_iff_mem]
    split
    case isTrue hact => simp [hin, hact]
    case isFalse hact => simp [hact]
  · rw [List.getElem?_eq_none (by simpa using hout)]
    simp [Nat.not_lt.2 hout]

theorem activeString_testBit {w : Nat} (hw : 0 < w) (e : Iss) (a : Byte) (k n : Nat) : (packElems w (activeCodes e a k)).testBit n =
    decide (n / w < k ∧ n / w ∈ e.active ∧ (rd e.g (n / w) a).testBit (n % w) = true) := by
  rw [packElems_testBit hw, activeCodes_testBit]

theorem elemWidth_pos (c : Nat) : 0 < elemWidth c := by
  unfold elemWidth
  repeat' split
  all_goals omega

theorem elemWidth_le (c : Nat) : elemWidth c ≤ 16 := by
  unfold elemWidth
  repeat' split
  all_goals omega

/-! ## PACKL -/

/-- Word `l` of the string of `w`-bit codes, 0 beyond its end. -/
def packlWord (e : Iss) (a : Byte) (w l : Nat) : Nat := if l < w then packElems w (activeCodes e a 32) / 2 ^ (32 * l) % 2 ^ 32 else 0

theorem packlWord_lt (e : Iss) (a : Byte) (w l : Nat) : packlWord e a w l < 2 ^ 32 := by
  unfold packlWord
  split
  · exact Nat.mod_lt _ (by positivity)
  · positivity

theorem packlWord_testBit {w j : Nat} (hw : 0 < w) (e : Iss) (a : Byte) (l : Nat) (hj : j < 32) : (packlWord e a w l).testBit j =
    decide (l < w ∧ (32 * l + j) / w ∈ e.active ∧ (rd e.g ((32 * l + j) / w) a).testBit ((32 * l + j) % w) = true) := by
  unfold packlWord
  split
  case isTrue hl =>
    rw [Nat.testBit_mod_two_pow, decide_eq_true hj, Bool.true_and, Nat.testBit_div_two_pow, Nat.add_comm j, activeString_testBit hw]
    refine decide_eq_decide.2 ⟨fun hb => ⟨hl, hb.2⟩, fun hb => ⟨active_lt hb.2.1, hb.2⟩⟩
  case isFalse hl => simp [hl]

/-- The format that PACKL reads stands in b of the lowest active lane. -/
theorem packFmt_head {e : Iss} {l : Nat} (b : Byte) (h : e.active.head? = some l) : packFmt e b = rd e.g l b % 16 := by
  unfold packFmt bits
  rw [List.headD_eq_head?_getD, h, pow_zero, Nat.div_one]
  rfl

theorem packl_format_go {e : Iss} {b : Byte} (h : ∀ l, e.active.head? = some l → rd e.g l b % 16 ≤ 8) :
    (if !e.active.isEmpty && decide (8 < packFmt e b) then Judge.fault (e.active.headD 0 / 4) .illegalOp 0 else .go) = .go := by
  refine if_neg fun hbad => ?_
  rw [Bool.and_eq_true, decide_eq_true_eq] at hbad
  cases hact : e.active with
  | nil => rw [hact] at hbad; exact absurd hbad.1 Bool.false_ne_true
  | cons l ls =>
    have hhead : e.active.head? = some l := by rw [hact]; rfl
    have hle := h l hhead
    rw [packFmt_head b hhead] at hbad
    omega

theorem packl_result {s : State} {e : Iss} {d a b : Byte} (h : issOf s = some e) (hroom : RoomForTraps e)
    (hf : Fits e (fun _ => true) [] [] [d, a, b]) (hfmt : ∀ l, e.active.head? = some l → rd e.g l b % 16 ≤ 8) :
    ∃ t, exec (.packl d a b) s = .next t ∧ Result s t e e.active d (fun _ => false) (packlWord e a (elemWidth (packFmt e b))) noConds := by
  rw [exec_packl]
  refine word_result h (Judge.and_go.2 ⟨legal_go.2 fun k hk => ?_, packl_format_go hfmt⟩) hroom rfl
  obtain ⟨-, -, -, hdecl⟩ := hf k hk
  rw [hdecl d (by simp), hdecl a (by simp), hdecl b (by simp)]
  rfl

/-! ## UNPACKL -/

/-- The code that lane `l` reads of the string of `w` words, its format above it. -/
def unpacklWord (e : Iss) (a : Byte) (f l : Nat) : Nat :=
  f * 2 ^ 16 + packElems 32 (activeCodes e a (elemWidth f)) / 2 ^ (elemWidth f * l) % 2 ^ elemWidth f

theorem unpackl_code_lt (str f l : Nat) : str / 2 ^ (elemWidth f * l) % 2 ^ elemWidth f < 2 ^ 16 :=
  (Nat.mod_lt _ (by positivity)).trans_le (Nat.pow_le_pow_right (by decide) (elemWidth_le f))

theorem unpacklWord_format (e : Iss) (a : Byte) (f l : Nat) : unpacklWord e a f l / 2 ^ 16 = f := by
  unfold unpacklWord
  rw [Nat.add_comm, Nat.add_mul_div_right _ _ (by positivity), Nat.div_eq_of_lt (unpackl_code_lt _ _ _), Nat.zero_add]

theorem unpacklWord_testBit {l j : Nat} (e : Iss) (a : Byte) (f : Nat) (hl : l < 32) (hj : j < 16) : (unpacklWord e a f l).testBit j =
    decide (j < elemWidth f ∧ (elemWidth f * l + j) / 32 ∈ e.active ∧
      (rd e.g ((elemWidth f * l + j) / 32) a).testBit ((elemWidth f * l + j) % 32) = true) := by
  unfold unpacklWord
  rw [mul_comm f, Nat.testBit_two_pow_mul_add _ (unpackl_code_lt _ _ _), if_pos hj, Nat.testBit_mod_two_pow, Nat.testBit_div_two_pow,
    Nat.add_comm j, activeString_testBit (by decide), ← Bool.decide_and]
  refine decide_eq_decide.2 ⟨fun hb => ⟨hb.1, hb.2.2⟩, fun hb => ⟨hb.1, ?_, hb.2⟩⟩
  have hstr : elemWidth f * l ≤ elemWidth f * 31 := Nat.mul_le_mul_left _ (by omega)
  omega

theorem unpackl_result {s : State} {e : Iss} {d a : Byte} (f : BitVec 4) (h : issOf s = some e) (hroom : RoomForTraps e)
    (hf : Fits e (fun _ => true) [] [] [d, a]) :
    ∃ t, exec (.unpackl d a f) s = .next t ∧ Result s t e e.active d (fun _ => false) (unpacklWord e a f.toNat) noConds := by
  rw [exec_unpackl]
  refine word_result h (legal_go.2 fun k hk => ?_) hroom rfl
  obtain ⟨-, -, -, hdecl⟩ := hf k hk
  rw [hdecl d (by simp), hdecl a (by simp)]
  rfl

/-! ## The first greatest of a list of keys (R178) -/

/-- Index `m` goes before index `n`: a greater key, or the lower of two equal ones. -/
def Beats (ks : List Nat) (m n : Nat) : Prop := nth ks n 0 < nth ks m 0 ∨ (nth ks n 0 = nth ks m 0 ∧ m < n)

theorem Beats.trans {ks : List Nat} {k m n : Nat} (h : Beats ks k m) (h' : Beats ks m n) : Beats ks k n := by
  unfold Beats at *
  omega

/-- `r` is the index of the list that goes before every other. -/
def FirstBest (ks l : List Nat) (r : Nat) : Prop := r ∈ l ∧ ∀ n ∈ l, n ≠ r → Beats ks r n

/-- One comparison of `bestIndex`. -/
def betterOf (ks : List Nat) (skip : Option Nat) (b i : Nat) : Nat :=
  if some b == skip || nth ks b 0 < nth ks i 0 then i else b

/-- One comparison of a candidate not excluded with a later index. -/
theorem betterOf_beats {ks : List Nat} {skip : Option Nat} {b i : Nat} (hskip : some b ≠ skip) (hlt : b < i) :
    (betterOf ks skip b i = i ∧ Beats ks i b) ∨ (betterOf ks skip b i = b ∧ Beats ks b i) := by
  have hb : (some b == skip) = false := beq_eq_false_iff_ne.2 hskip
  unfold betterOf Beats
  rw [hb, Bool.false_or]
  by_cases hkey : nth ks b 0 < nth ks i 0
  · exact .inl ⟨if_pos (decide_eq_true hkey), .inl hkey⟩
  · exact .inr ⟨if_neg (by simpa using hkey), by omega⟩

/-- What goes after some member of a list goes after its best. -/
theorem FirstBest.beats {ks l : List Nat} {x y r : Nat} (h : FirstBest ks l r) (hx : x ∈ l) (hxy : Beats ks x y) : Beats ks r y := by
  by_cases hr : x = r
  · exact hr ▸ hxy
  · exact (h.2 x hx hr).trans hxy

theorem foldl_betterOf {ks : List Nat} {skip : Option Nat} {b : Nat} {l : List Nat} (hsorted : (b :: l).Pairwise (· < ·))
    (hskip : ∀ n ∈ b :: l, some n ≠ skip) : FirstBest ks (b :: l) (l.foldl (betterOf ks skip) b) := by
  induction l generalizing b with
  | nil => exact ⟨List.mem_singleton_self b, fun n hn hne => absurd (List.mem_singleton.1 hn) hne⟩
  | cons i l ih =>
    obtain ⟨hlt, hsorted'⟩ := List.pairwise_cons.1 hsorted
    rw [List.foldl_cons]
    obtain ⟨hstep, hbeats⟩ | ⟨hstep, hbeats⟩ := betterOf_beats (ks := ks) (hskip b List.mem_cons_self) (hlt i List.mem_cons_self)
    · rw [hstep]
      have hbest := ih hsorted' fun n hn => hskip n (List.mem_cons_of_mem b hn)
      exact ⟨List.mem_cons_of_mem b hbest.1, List.forall_mem_cons.2 ⟨fun _ => hbest.beats List.mem_cons_self hbeats, hbest.2⟩⟩
    · rw [hstep]
      have hsub : (b :: l).Sublist (b :: i :: l) := (List.sublist_cons_self i l).cons_cons b
      have hbest := ih (hsorted.sublist hsub) fun n hn => hskip n (hsub.subset hn)
      obtain ⟨hb, hl⟩ := List.forall_mem_cons.1 hbest.2
      exact ⟨hsub.subset hbest.1, List.forall_mem_cons.2 ⟨hb, List.forall_mem_cons.2
        ⟨fun _ => hbest.beats List.mem_cons_self hbeats, hl⟩⟩⟩

/-- The indices of the four elements that are not excluded. -/
def candidates (skip : Option Nat) : List Nat := (List.range 4).filter fun i => some i != skip

theorem mem_candidates {skip : Option Nat} {n : Nat} : n ∈ candidates skip ↔ n < 4 ∧ some n ≠ skip := by
  simp [candidates]

theorem candidates_eq_cons {skip : Option Nat} (h : ∀ i, skip = some i → i < 4) :
    candidates skip = (if skip == some 0 then 1 else 0) :: (candidates skip).tail := by
  cases skip with
  | none => rfl
  | some i =>
    have hi := h i rfl
    interval_cases i <;> rfl

theorem bestIndex_firstBest (ks : List Nat) {skip : Option Nat} (h : ∀ i, skip = some i → i < 4) :
    FirstBest ks (candidates skip) (bestIndex ks skip) := by
  have hcons := candidates_eq_cons h
  have hsorted : (candidates skip).Pairwise (· < ·) := List.pairwise_lt_range.filter _
  have hskip : ∀ n ∈ candidates skip, some n ≠ skip := fun n hn => (mem_candidates.1 hn).2
  have hself : ∀ b, betterOf ks skip b b = b := fun b => ite_self b
  have hfold : bestIndex ks skip = (candidates skip).foldl (betterOf ks skip) (if skip == some 0 then 1 else 0) := rfl
  rw [hcons] at hsorted hskip hfold ⊢
  rw [hfold, List.foldl_cons, hself]
  exact foldl_betterOf hsorted hskip

/-! ## CMP24 -/

/-- The two indices that CMP24 keeps go before both others. -/
theorem cmp24Pick_spec {ks : List Nat} {i j : Nat} (h : cmp24Pick ks = (i, j)) :
    i < j ∧ j < 4 ∧ ∀ n < 4, n ≠ i → n ≠ j → ∀ m, m = i ∨ m = j → Beats ks m n := by
  obtain ⟨hmem1, hbest1⟩ := bestIndex_firstBest ks (skip := none) fun _ h => by cases h
  have hlt1 : bestIndex ks none < 4 := (mem_candidates.1 hmem1).1
  obtain ⟨hmem2, hbest2⟩ := bestIndex_firstBest ks (skip := some (bestIndex ks none)) fun _ h => Option.some.inj h ▸ hlt1
  unfold cmp24Pick at h
  dsimp only at h
  generalize bestIndex ks none = x at *
  generalize bestIndex ks (some x) = y at *
  obtain ⟨hlt2, hne⟩ := mem_candidates.1 hmem2
  have hne : y ≠ x := fun h => hne (congrArg some h)
  have hboth : ∀ n < 4, n ≠ x → n ≠ y → ∀ m, m = x ∨ m = y → Beats ks m n := by
    rintro n hn hnx hny m (rfl | rfl)
    · exact hbest1 n (mem_candidates.2 ⟨hn, Option.some_ne_none n⟩) hnx
    · exact hbest2 n (mem_candidates.2 ⟨hn, fun h => hnx (Option.some.inj h)⟩) hny
  split at h
  case isTrue hlt =>
    obtain ⟨rfl, rfl⟩ := Prod.mk.inj h
    exact ⟨hlt, hlt2, hboth⟩
  case isFalse hge =>
    obtain ⟨rfl, rfl⟩ := Prod.mk.inj h
    exact ⟨by omega, hlt1, fun n hn hny hnx m hm => hboth n hn hnx hny m hm.symm⟩

theorem setC24_cases {t : Nat} (h : setC24 t = true) : t = 6 ∨ t = 7 ∨ t = 10 ∨ t = 12 ∨ t = 13 := by
  simpa only [setC24, Bool.or_eq_true, beq_iff_eq, or_assoc] using h

/-- The four elements that CMP24 reads in lane `l`: of a pair where they are half words. -/
def cmp24Source (e : Iss) (a : Byte) (l : Nat) : Nat := if tyWidth (e.lty l) = 16 then rdPair e.g l a else rd e.g l a

theorem setHalf_iff_width {t : Nat} (h : setC24 t = true) : setHalf t = true ↔ tyWidth t = 16 := by
  obtain rfl | rfl | rfl | rfl | rfl := setC24_cases h <;> decide

theorem cmp24Key_eq {t : Nat} (x : Nat) (h : setC24 t = true) : cmp24Key t x =
    if t = 10 then (signed x 8).natAbs else if decodeF (tyFmt t) x = .nan then 2 ^ 32 else x % 2 ^ (tyWidth t - 1) := by
  unfold cmp24Key
  split
  case isTrue => rfl
  case isFalse h10 =>
    have hmag : magF (tyFmt t) x = x % 2 ^ (tyWidth t - 1) := by
      obtain rfl | rfl | rfl | rfl | rfl := setC24_cases h
      · rfl
      · rfl
      · exact absurd rfl h10
      · rfl
      · rfl
    rw [hmag]
    cases decodeF (tyFmt t) x <;> rfl

theorem nth_map_range {n i : Nat} (f : Nat → Nat) (h : i < n) : nth ((List.range n).map f) i 0 = f i := by
  unfold nth
  rw [List.getElem?_map, List.getElem?_range h]
  rfl

/-- The keys of CMP24's four elements in lane `l`. -/
def cmp24Keys (e : Iss) (a : Byte) (l : Nat) : List Nat :=
  (List.range 4).map fun i => cmp24Key (e.lty l) (elemOf (e.lty l) (cmp24Source e a l) i)

theorem cmp24Keys_nth {e : Iss} {l n : Nat} (a : Byte) (hty : setC24 (e.lty l) = true) (hn : n < 4) :
    nth (cmp24Keys e a l) n 0 = keyOf e a l n := by
  unfold cmp24Keys
  rw [nth_map_range _ hn, cmp24Key_eq _ hty]
  rfl

/-- The two kept elements, or their two indices. -/
theorem cmp24Val_eq {e : Iss} {a : Byte} {l i j : Nat} (sub : Nat) (hpick : cmp24Pick (cmp24Keys e a l) = (i, j)) (hi : i < 4) (hj : j < 4) :
    cmp24Val (e.lty l) sub (cmp24Source e a l) =
      if sub = 0 then elemOf (e.lty l) (cmp24Source e a l) i + 2 ^ tyWidth (e.lty l) * elemOf (e.lty l) (cmp24Source e a l) j
      else i + 4 * j := by
  have hkeys : ((List.range 4).map (elemOf (e.lty l) (cmp24Source e a l))).map (cmp24Key (e.lty l)) = cmp24Keys e a l := List.map_map
  have hval : cmp24Val (e.lty l) sub (cmp24Source e a l) =
      let es := (List.range 4).map (elemOf (e.lty l) (cmp24Source e a l))
      let q := cmp24Pick (es.map (cmp24Key (e.lty l)))
      if sub = 0 then nth es q.1 0 + 2 ^ tyWidth (e.lty l) * nth es q.2 0 else q.1 + 4 * q.2 := rfl
  dsimp only at hval
  rw [hval, hkeys, hpick, nth_map_range _ hi, nth_map_range _ hj]

theorem cmp24_result {s : State} {e : Iss} {d a : Byte} (sub : BitVec 1) (h : issOf s = some e) (hroom : RoomForTraps e)
    (hf : Fits e setC24 [] [] [d]) (ha : ∀ k ∈ e.sls, if setHalf (e.ty k) then pairOk e.n a = true else declOk e.n a = true) :
    ∃ t, exec (.cmp24 d a sub) s = .next t ∧ Result s t e e.active d (fun _ => false)
      (fun l => cmp24Val (e.lty l) sub.toNat (if setHalf (e.lty l) then rdPair e.g l a else rd e.g l a)) noConds := by
  rw [exec_cmp24]
  refine word_result h (legal_go.2 fun k hk => ?_) hroom rfl
  obtain ⟨hty, -, -, hdecl⟩ := hf k hk
  have hsrc : (if setHalf (e.ty k) then pairOk e.n a else declOk e.n a) = true :=
    (apply_ite (· = true) (setHalf (e.ty k) = true) _ _).mpr (ha k hk)
  rw [hty, hdecl d (by simp), hsrc]
  rfl

/-- Settles O18: PACKL and UNPACKL cut words of one string whose bits are those of the codes (`activeString_testBit`), and the two indices
of CMP24 are the best of four and the best of the three left (`cmp24Pick_spec`). -/
theorem packAndTwoOfFour : Obligations.PackAndTwoOfFour := by
  unfold Obligations.PackAndTwoOfFour
  refine ⟨fun s e d a b f h hroom => ⟨fun hf hfmt => ?_, fun hf _ => ?_⟩, fun s e d a sub h hroom hf ha => ?_⟩
  · obtain ⟨t, ht, hres⟩ := packl_result h hroom hf hfmt
    refine ⟨t, _, ht, hres, ?_⟩
    rintro l hl _ rfl j -
    rw [packFmt_head b hl]
    exact ⟨packlWord_lt _ _ _ _, fun i hi => packlWord_testBit (elemWidth_pos _) e a j hi⟩
  · obtain ⟨t, ht, hres⟩ := unpackl_result f h hroom hf
    refine ⟨t, _, ht, hres, ?_⟩
    rintro l hl _ rfl
    exact ⟨unpacklWord_format _ _ _ _, fun j hj => unpacklWord_testBit e a _ (active_lt hl) hj⟩
  · obtain ⟨t, ht, hres⟩ := cmp24_result sub h hroom hf ha
    refine ⟨t, _, ht, hres, fun l hl => ?_⟩
    have hty : setC24 (e.lty l) = true := (hf _ (active_slice hl)).1
    have hsrc : (if setHalf (e.lty l) then rdPair e.g l a else rd e.g l a) = cmp24Source e a l :=
      if_congr (setHalf_iff_width hty) rfl rfl
    obtain ⟨⟨i, j⟩, hpick⟩ : ∃ q, cmp24Pick (cmp24Keys e a l) = q := ⟨_, rfl⟩
    obtain ⟨hij, hj, hbest⟩ := cmp24Pick_spec hpick
    have hi : i < 4 := hij.trans hj
    refine ⟨i, j, hij, hj, fun n hn hni hnj m hm => ?_, ?_⟩
    · have hm4 : m < 4 := by omega
      rw [← cmp24Keys_nth a hty hn, ← cmp24Keys_nth a hty hm4]
      exact hbest n hn hni hnj m hm
    · rintro _ _ rfl rfl
      rw [hsrc, cmp24Val_eq _ hpick hi hj]
      exact if_congr (by rw [← BitVec.toNat_inj]; rfl) rfl rfl

end Sys2Proof.Machine
end

section
/-! PROOFS. Proofs/AccessCells.lean: an access is cut at cell boundaries (R192, R198). -/

namespace Sys2Proof.Machine

/-- The part that a piece of a lane's access becomes under the translation of its address. -/
def piecePart (l : Nat) (data : List Byte) (c : Nat × Nat × Nat) (x : Xl) : MemPart × Nat :=
  ({ lane := l, va := BitVec.ofNat 64 c.1, pa := x.pa, len := c.2.2, off := c.2.1, leaf := x.leaf,
     wdata := (data.drop c.2.1).take c.2.2 }, x.leaf)

/-- The parts of a lane's access are its pieces in order, each translated on its own. -/
theorem laneParts_pieces {s : State} {die : Nat} {c : Ctx} {l ea n need : Nat} {data : List Byte} {ps : List (MemPart × Nat)}
    (h : laneParts s die c l ea n need data = .ok ps) :
    List.Forall₂ (fun d p => ∃ x, xlate s die c d.1 need = .ok x ∧ p = piecePart l data d x) (splitCells ea 4 0 n) ps :=
  laneParts_fold h

theorem forall₂_mem_right {α β : Type} {R : α → β → Prop} {as : List α} {bs : List β} (h : List.Forall₂ R as bs) {b : β} (hb : b ∈ bs) :
    ∃ a ∈ as, R a b := by
  induction h with
  | nil => cases hb
  | cons hr _ ih =>
    rcases List.mem_cons.1 hb with rfl | hb
    · exact ⟨_, List.mem_cons_self, hr⟩
    · obtain ⟨a, ha, hab⟩ := ih hb
      exact ⟨a, List.mem_cons_of_mem _ ha, hab⟩

/-- Settles O25: `splitCells` cuts the access into pieces that follow one another, and each part is one piece translated on its own. -/
theorem accessesAreCutAtCells : Obligations.AccessesAreCutAtCells := by
  unfold Obligations.AccessesAreCutAtCells
  intro s die c l ea n need data ps hn hps
  have hpieces := laneParts_pieces hps
  obtain ⟨hcut, hcover, hsum⟩ := splitCells_spec ea 4 0 n (by omega)
  refine ⟨fun p hp => ?_, fun i hi => ?_, ?_⟩
  · obtain ⟨d, hd, x, hx, rfl⟩ := forall₂_mem_right hpieces hp
    obtain ⟨-, -, hpos, hva, hcell⟩ := hcut d hd
    exact ⟨rfl, hpos, congrArg (BitVec.ofNat 64) hva, hcell, rfl, rfl, x, hva ▸ hx, rfl, rfl⟩
  · obtain ⟨d, hd, hlo, hhi⟩ := hcover i (Nat.zero_le i) (by omega)
    obtain ⟨p, hp, x, -, rfl⟩ := forall₂_mem_right hpieces.flip hd
    exact ⟨_, hp, hlo, hhi⟩
  · have hlen : List.Forall₂ (· = ·) ((splitCells ea 4 0 n).map fun d => d.2.2) (ps.map fun p => p.1.len) :=
      List.forall₂_map_left_iff.2 (List.forall₂_map_right_iff.2 (hpieces.imp fun _ _ ⟨_, _, hp⟩ => hp ▸ rfl))
    rw [List.forall₂_eq_eq_eq] at hlen
    rw [← hlen, hsum]

end Sys2Proof.Machine
end

section
/-! PROOFS. Proofs/ServiceEvents.lean: error counters and data losses, throttling, trips and the module reset (R195, R330, R402, R411,
R412, R414). -/

namespace Sys2Proof.Machine

/-! ## The loss of a die keeps the error counters (R330, R411) -/

theorem ackWriter_errUncorr (s : State) (w : Writer) : (ackWriter s w).sys.errUncorr = s.sys.errUncorr := by
  unfold ackWriter
  repeat' split
  all_goals rfl

theorem ownDone_errUncorr (s : State) (x : Txn) (a : Nat) : (ownDone s x a).sys.errUncorr = s.sys.errUncorr := by
  have store : ∀ (m : Mem) (o : MemOp) (i : Nat) (p : MemPart),
      (trimL2 (ackWrite { s with mem := storeAtSlice m a o p } o i p.pa) a (frameOf x.grain)).sys.errUncorr = s.sys.errUncorr :=
    fun _ _ _ _ => congrArg Sys.errUncorr (trimL2_side _ _ _).sys
  unfold ownDone
  cases x.writer with
  | part op i =>
    dsimp only
    repeat' split
    · rfl
    · rfl
    · exact store _ _ _ _
  | nobody => rfl
  | copy _ => rfl
  | peer _ _ _ _ => rfl
  | engine _ => rfl

theorem countAck_errUncorr (s : State) (x : Txn) (a : Nat) : (countAck s x a).sys.errUncorr = s.sys.errUncorr := by
  unfold countAck
  dsimp only
  split
  · unfold txnDone
    dsimp only
    split
    · exact ackWriter_errUncorr _ _
    · exact ownDone_errUncorr _ _ _
  · rfl

theorem removeAgent_errUncorr (s : State) (a : Nat) : (removeAgent s a).sys.errUncorr = s.sys.errUncorr := by
  unfold removeAgent
  refine List.foldlRecOn (motive := fun t : State => t.sys.errUncorr = s.sys.errUncorr) _ _ rfl fun t ht i _ => ?_
  split
  · exact (countAck_errUncorr t _ a).trans ht
  · exact ht

theorem logOrphan_errUncorr (s : State) (x : Orphan) : (logOrphan s x).sys.errUncorr = s.sys.errUncorr := by
  unfold logOrphan
  split
  · rfl
  · dsimp only
    split
    · rfl
    · exact congrArg Sys.errUncorr (vaBytes_side _ _ _ _).sys

theorem loseDie_errUncorr (s : State) (die : Nat) : (loseDie s die).sys.errUncorr = s.sys.errUncorr := by
  unfold loseDie
  split
  · rfl
  · extract_lets listed hit orphans t u v
    have ht : t.sys.errUncorr = s.sys.errUncorr :=
      List.foldlRecOn (motive := fun t : State => t.sys.errUncorr = s.sys.errUncorr) _ _ rfl fun _ h _ _ => h
    have hu : u.sys.errUncorr = t.sys.errUncorr :=
      List.foldlRecOn (motive := fun u : State => u.sys.errUncorr = t.sys.errUncorr) _ _ rfl fun _ h x _ =>
        (logOrphan_errUncorr _ x).trans h
    exact (removeAgent_errUncorr (dropDie u die) die).trans (hu.trans ht)

theorem loseDie_lost (s : State) {die : Nat} (h : die < 8) : die ∈ (loseDie s die).sys.lostDies := by
  unfold loseDie
  split
  case isTrue hc => simpa [Nat.not_le.2 h] using hc
  case isFalse => exact List.mem_cons_self

/-! ## Data losses (R195, R411) -/

/-- A record of DATA_LOSS on its way to the hub, after the die's count of uncorrectable errors has risen. -/
theorem dataLoss_addFault {s u : State} {die : Nat} {r : FaultRec} {info : Dbl} (hsys : u.sys = (countUncorr s die 1).sys)
    (hfaults : u.ctl.faults = s.ctl.faults) (hcode : r.code = some .dataLoss) (hinfo : r.info = info) :
    DataLoss s (addFault u r) r.part r.ctx r.kind die info := by
  refine ⟨?_, r, ?_, rfl, rfl, hcode, rfl, hinfo⟩
  · show ErrCounted _ u.sys.errUncorr die 1
    rw [hsys]
    exact countErr_spec _ _ _
  · show u.ctl.faults ++ [r] = _
    rw [hfaults]

theorem homeLoss_spec (s : State) (part cid die slice : Nat) (addr : Dbl) :
    DataLoss s (homeLoss s part cid die slice addr) part cid 5 die addr :=
  dataLoss_addFault (u := countUncorr s die 1) rfl rfl rfl rfl

theorem opFault_eq {s : State} {o : MemOp} {grp : Group} {k : Kernel} (hgrp : s.exe.groups[(opGang s o).grp]? = some grp)
    (hk : s.ctl.kernels[o.kern]? = some k) (code : FaultCode) (info : Dbl) (exact : Bool) : opFault s o code info exact =
      addFault { s with mem := { s.mem with ops := s.mem.ops.filter fun q => q.id != o.id } }
        { sliceRec s (opGang s o) grp k o.slice (some code) info with
          exact := exact, pc := o.pc.zeroExtend 64, part := o.part, ctx := o.ctx } := by
  unfold opFault
  dsimp only
  rw [hgrp, hk]

theorem fromBelow_ops (s : State) (llc : Bool) (m : Mem) (cell : Nat) : (fromBelow s llc m cell).ops = m.ops := by
  unfold fromBelow
  split
  · obtain ⟨b, hb⟩ := memPut_only (staleCell s cell) m (32 * cell)
    rw [hb]
  · rfl

theorem dropBlock_ops (s : State) (tier : MemTier) (core pa : Nat) : (dropBlock s tier core pa).ops = s.mem.ops := by
  have below : ∀ (llc : Bool) (cells : List Nat) (m : Mem), m.ops = s.mem.ops → (cells.foldl (fromBelow s llc) m).ops = s.mem.ops :=
    fun llc cells m hm => List.foldlRecOn (motive := fun x : Mem => x.ops = s.mem.ops) cells _ hm fun x hx cell _ =>
      (fromBelow_ops s llc x cell).trans hx
  unfold dropBlock
  cases tier with
  | l1 => exact l1Drop_ops _ _
  | localSlice => rfl
  | homeSlice =>
    dsimp only
    split
    · rfl
    · exact below _ _ _ rfl
  | llc =>
    dsimp only
    split
    · rfl
    · exact below _ _ _ rfl
  | lpddr => rfl
  | window => rfl

theorem l1Drop_l1 (m : Mem) (p : L1Block → Bool) : (l1Drop m p).l1 = m.l1.filter fun b => !p b := by
  obtain ⟨q, hq⟩ := predLearns_only (m.l1.filter p) { m with l1 := m.l1.filter fun b => !p b }
  unfold l1Drop
  rw [hq]

/-- The block of a core's L1 that held a cell has left it. -/
theorem dropBlock_l1 (s : State) (core pa : Nat) : ∀ y ∈ (dropBlock s .l1 core pa).l1, y.core = core → y.frame = paFrame pa →
    cellIn (paOff pa) < y.start ∨ y.start + y.cells.length ≤ cellIn (paOff pa) := by
  intro y hy hcore hframe
  have hkept : y ∈ (l1Drop s.mem fun b => b.isOf core (paFrame pa) && decide (b.start ≤ cellIn (paOff pa)) &&
    decide (cellIn (paOff pa) < b.start + b.cells.length)).l1 := hy
  rw [l1Drop_l1] at hkept
  have hout := (List.mem_filter.1 hkept).2
  simp only [L1Block.isOf, hcore, hframe, beq_self_eq_true, Bool.true_and, Bool.not_eq_true', Bool.and_eq_false_iff,
    decide_eq_false_iff_not] at hout
  omega

/-- The data of a part of an operation: its context loses them, the operation is gone, and so is the block of L1 that held them. -/
theorem loseData_spec {s : State} {o : MemOp} {grp : Group} {k : Kernel} (p : MemPart) (tier : MemTier)
    (hgrp : s.exe.groups[(opGang s o).grp]? = some grp) (hk : s.ctl.kernels[o.kern]? = some k) :
    DataLoss s (loseData s o p tier) o.part o.ctx 1 (coreDie o.core) p.va ∧
      ((loseData s o p tier).mem.ops = s.mem.ops.filter fun q => q.id != o.id) ∧
      (tier = .l1 → ∀ y ∈ (loseData s o p tier).mem.l1, y.core = o.core → y.frame = paFrame p.pa →
        cellIn (paOff p.pa) < y.start ∨ y.start + y.cells.length ≤ cellIn (paOff p.pa)) := by
  unfold loseData
  dsimp only
  rw [opFault_eq (s := { countUncorr s (coreDie o.core) 1 with mem := dropBlock (countUncorr s (coreDie o.core) 1) tier o.core p.pa })
    hgrp hk]
  refine ⟨dataLoss_addFault rfl rfl rfl rfl, ?_, ?_⟩
  · exact congrArg (List.filter fun q => q.id != o.id) (dropBlock_ops _ tier o.core p.pa)
  · rintro rfl
    exact dropBlock_l1 _ o.core p.pa

theorem sliceLoss_spec {s : State} {gi k : Nat} {g : Gang} {grp : Group} {kn : Kernel} {ok : Gang → Bool} (addr : Dbl)
    (hg : s.exe.gangs[gi]? = some g) (hgrp : s.exe.groups[g.grp]? = some grp) (hkn : s.ctl.kernels[grp.kern]? = some kn) (hk : k < 8)
    (hok : ok g = true) :
    DataLoss s (sliceLoss s gi k addr ok) kn.part kn.ctx 1 (coreDie grp.core) addr ∧ (sliceLoss s gi k addr ok).mem = s.mem := by
  have hkern : kernOf s grp = some kn := hkn
  unfold sliceLoss
  simp only [hg, hgrp, hkern, hk, hok, and_self, if_true]
  exact ⟨dataLoss_addFault rfl rfl rfl rfl, rfl⟩

theorem streamLoss_spec {s : State} {gid : Nat} {grp : Group} {u : TileStream} {k : Kernel} (addr : Dbl)
    (hgrp : s.exe.groups[gid]? = some grp) (hu : grp.tile = some u) (hk : s.ctl.kernels[grp.kern]? = some k) :
    DataLoss s (streamLoss s gid addr) k.part k.ctx 3 (coreDie grp.core) addr ∧
      (streamLoss s gid addr).exe.groups[gid]? = some { grp with tile := some { u with stopped := true } } ∧
      (streamLoss s gid addr).mem = s.mem := by
  have hkern : kernOf s grp = some k := hk
  unfold streamLoss
  simp only [hgrp, hu, hkern]
  refine ⟨?_, ?_, rfl⟩
  · exact dataLoss_addFault rfl rfl rfl (BitVec.ofNat_toNat 64 addr)
  · show (modAt s.exe.groups gid _)[gid]? = _
    rw [modAt_get, if_pos rfl, hgrp]
    rfl

theorem copyLoss_spec {s : State} {c : Copy} (cell : Nat) (hc : c.stopped = false) :
    DataLoss s (copyLoss s c cell) c.part c.ctx 2 (coreDie c.core) (BitVec.ofNat 64 (copyAddr c cell)) ∧
      (copyLoss s c cell).mem = s.mem ∧ ∀ x ∈ (copyLoss s c cell).exe.copies, x.id = c.id → x.stopped = true := by
  unfold copyLoss
  rw [hc]
  refine ⟨dataLoss_addFault rfl rfl rfl rfl, rfl, fun x hx hid => ?_⟩
  obtain ⟨y, -, rfl⟩ := List.mem_map.1 hx
  by_cases hy : (y.id == c.id) = true
  · rw [if_pos hy]
  · rw [if_neg hy] at hid
    exact absurd (beq_iff_eq.2 hid) hy

theorem partialLoss_spec {s : State} {p : Partial} {c : Ctx} (hc : findCtx s.ctl.ctxs p.part p.ctx = some c) :
    DataLoss s (partialLoss s p) p.part p.ctx 5 ((p.loc.die).getD (coreDie p.core))
      (BitVec.ofNat 64 (elemVa (accSlot c (handleSlot p.handle.toNat)) p.elem)) ∧
      (partialLoss s p).ctl.partials = s.ctl.partials.filter fun q => q.id != p.id := by
  unfold partialLoss
  simp only [hc]
  exact ⟨dataLoss_addFault rfl rfl rfl rfl, rfl⟩

/-! ## Throttling, trips, and the boot (R402, R414) -/

theorem stepTemp_eq {k : Nat} (h1 : 1 ≤ k) (h3 : k ≤ 3) : stepTemp k = 90 + 5 * k := by
  obtain rfl | rfl | rfl : k = 1 ∨ k = 2 ∨ k = 3 := by omega
  all_goals rfl

/-- The step is the highest that holds at the temperature, or none. -/
theorem throttleStep_spec (now temp : Nat) : throttleStep now temp ≤ 3 ∧
    (throttleStep now temp = 0 ∨ stepHolds now temp (throttleStep now temp)) ∧
    ∀ j, throttleStep now temp < j → j ≤ 3 → ¬ stepHolds now temp j := by
  have on : ∀ k, 1 ≤ k → k ≤ 3 → ((decide (stepTemp k ≤ temp) || (decide (k ≤ now) && decide (stepTemp k < temp + 3))) = true ↔
      stepHolds now temp k) := fun k h1 h3 => by
    rw [stepTemp_eq h1 h3]
    simp [stepHolds]
  have h1 := on 1 (by omega) (by omega)
  have h2 := on 2 (by omega) (by omega)
  have h3 := on 3 (by omega) (by omega)
  unfold throttleStep
  dsimp only
  split
  case isTrue hon => exact ⟨by omega, .inr (h3.1 hon), fun j hj hle => by omega⟩
  case isFalse hoff3 =>
    split
    case isTrue hon =>
      refine ⟨by omega, .inr (h2.1 hon), fun j hj hle => ?_⟩
      obtain rfl : j = 3 := by omega
      exact mt h3.2 hoff3
    case isFalse hoff2 =>
      split
      case isTrue hon =>
        refine ⟨by omega, .inr (h1.1 hon), fun j hj hle => ?_⟩
        obtain rfl | rfl : j = 2 ∨ j = 3 := by omega
        exacts [mt h2.2 hoff2, mt h3.2 hoff3]
      case isFalse hoff1 =>
        refine ⟨by omega, .inl rfl, fun j hj hle => ?_⟩
        obtain rfl | rfl | rfl : j = 1 ∨ j = 2 ∨ j = 3 := by omega
        exacts [mt h1.2 hoff1, mt h2.2 hoff2, mt h3.2 hoff3]

theorem trip_tripped (s : State) : Tripped s (trip s) := by
  obtain ⟨-, hctxs, hops⟩ := discards_spec (s.ctl.parts.map Partition.id) s
  refine ⟨rfl, fun c hc p hp he => ?_, fun o ho p hp he => ?_⟩
  · exact (hctxs c hc).1 (he ▸ List.mem_map_of_mem hp)
  · exact (hops o ho).1 (he ▸ List.mem_map_of_mem hp)

/-- The stages of the boot from the first: all are measured where all verify, and the first that does not stops them. -/
theorem bootStages_first (flash : List (List Byte)) {n : Nat} (hn : n ≤ 11)
    (hok : ∀ j < n, Config.stageSignatureOk (j + 1) (nth flash j []) = true) :
    (n = 11 → bootStages flash 11 1 = ((List.range 11).map (fun j => Config.sha512 (nth flash j [])), none)) ∧
    (n < 11 → Config.stageSignatureOk (n + 1) (nth flash n []) = false →
      bootStages flash 11 1 = ((List.range n).map (fun j => Config.sha512 (nth flash j [])) ++ [0], some (n + 1))) := by
  have h := bootStages_spec flash 11 0 n hn
  simp only [Nat.zero_add] at h
  exact h hok

/-! ## The events of service -/

theorem exec_uncorrectable_loadData {s : State} {op i : Nat} {o : MemOp} {p : MemPart} (tier : MemTier) (ho : findOp s.mem op = some o)
    (hp : o.parts[i]? = some p) : exec (.uncorrectableError (.loadData op i tier)) s = .next (loseData s o p tier) := by
  rw [exec_uncorrectableError]
  unfold execUncorrectableError onOp
  simp only [ho, hp]

/-- The module reset (R402, R411, R412). -/
theorem exec_moduleReset_spec (s : State) : ∃ t, exec .moduleReset s = .next t ∧ t.mem.bytes = s.mem.bytes ∧ t.mem.lpddr = s.mem.lpddr ∧
    t.mem.host = s.mem.host ∧ t.mem.keys = s.mem.keys ∧ t.mem.ops = [] ∧ t.mem.l2 = [] ∧ t.ctl = State.reset.ctl ∧ t.exe.gangs = [] ∧
    t.exe.groups = [] ∧ t.sys.links = List.replicate 24 {} ∧ t.sys.tripped = s.sys.clocksStopped ∧ t.sys.clocksStopped = false ∧
    t.sys.ptp = s.sys.ptp ∧ t.sys.domId = 0x1FF ∧ t.sys.kickstand = (Config.recordKickstand (nth s.sys.flash 1 []) && !s.sys.nextFull) ∧
    ∀ n, n ≤ 11 → (∀ j < n, Config.stageSignatureOk (j + 1) (nth s.sys.flash j []) = true) →
      (n = 11 → t.sys.measures = (List.range 11).map (fun j => Config.sha512 (nth s.sys.flash j [])) ∧ t.sys.bootFailed = none) ∧
      (n < 11 → Config.stageSignatureOk (n + 1) (nth s.sys.flash n []) = false → t.sys.bootFailed = some (n + 1) ∧
        t.sys.measures = (List.range n).map (fun j => Config.sha512 (nth s.sys.flash j [])) ++ [0]) := by
  refine ⟨_, rfl, rfl, rfl, rfl, rfl, rfl, rfl, rfl, rfl, rfl, rfl, rfl, rfl, rfl, rfl, rfl, fun n hn hok => ?_⟩
  obtain ⟨hall, hstop⟩ := bootStages_first s.sys.flash hn hok
  exact ⟨fun h => ⟨congrArg Prod.fst (hall h), congrArg Prod.snd (hall h)⟩,
    fun h hbad => ⟨congrArg Prod.snd (hstop h hbad), congrArg Prod.fst (hstop h hbad)⟩⟩

/-- Settles O38: each site of an uncorrectable error by the record it sends, the throttle step by its thresholds, a trip by what
discarding every partition's contexts leaves, and the boot by its stages. -/
theorem serviceEvents : Obligations.ServiceEvents := by
  unfold Obligations.ServiceEvents
  intro s die slice a b
  refine ⟨?corrected, ?scrub, ?noContent, ?control, ?loadData, ?writeBack, ?copyData, ?homeMemory, ?sliceData, ?streamData, ?heldPartial,
    ?throttle, ?trip, ?undervoltage, ?training, exec_moduleReset_spec s⟩
  case corrected => exact fun h => ⟨_, by rw [exec_correctedError]; exact if_pos h, countErr_spec _ _ _⟩
  case scrub => exact fun h => ⟨_, _, by rw [exec_patrolScrub]; exact if_pos h, countErr_spec _ _ _, countErr_spec _ _ _⟩
  case noContent =>
    exact fun h => ⟨_, congrArg Host.Outcome.next (if_pos h), countErr_spec _ _ _⟩
  case control =>
    refine fun h => ⟨_, congrArg Host.Outcome.next (if_pos h), ?_, loseDie_lost _ h⟩
    rw [loseDie_errUncorr]
    exact countErr_spec _ _ _
  case loadData =>
    intro o p tier grp k ho hp hgrp hk
    obtain ⟨hloss, hops, hl1⟩ := loseData_spec p tier hgrp hk
    exact ⟨_, exec_uncorrectable_loadData tier ho hp, hloss, hops, hl1⟩
  case writeBack =>
    intro y hy
    refine ⟨lostBlock s y b, ?_, homeLoss_spec _ _ _ _ _ _, rfl⟩
    rw [exec_uncorrectableError]
    unfold execUncorrectableError
    simp only [hy]
  case copyData =>
    intro c hc hrun
    have hid : c.id = a := by simpa using List.find?_some hc
    subst hid
    refine ⟨copyLoss s c b, ?_, copyLoss_spec b hrun⟩
    rw [exec_uncorrectableError]
    unfold execUncorrectableError
    simp only [hc]
  case homeMemory =>
    intro c va hc site hsite
    refine ⟨homeLoss s a b die slice va, ?_, homeLoss_spec s a b die slice va, rfl, rfl⟩
    rw [exec_uncorrectableError]
    unfold execUncorrectableError
    simp only [List.mem_cons, List.not_mem_nil, or_false] at hsite
    obtain rfl | rfl := hsite
    all_goals simp only [hc]
  case sliceData =>
    intro g grp k va hg hgrp hk hb
    exact ⟨fun hdeep => ⟨_, rfl, sliceLoss_spec 0 hg hgrp hk hb (decide_eq_true hdeep)⟩, _, rfl, sliceLoss_spec va hg hgrp hk hb rfl⟩
  case streamData => exact fun grp u k va hgrp hu hk => ⟨_, rfl, streamLoss_spec va hgrp hu hk⟩
  case heldPartial =>
    intro p c hp hc
    have hid : p.id = a := by simpa using List.find?_some hp
    subst hid
    refine ⟨partialLoss s p, _, ?_, partialLoss_spec hc⟩
    rw [exec_uncorrectableError]
    unfold execUncorrectableError
    simp only [hp]
  case throttle =>
    intro ha
    obtain ⟨hle, hholds, hhighest⟩ := throttleStep_spec s.sys.step a
    exact ⟨throttleStep s.sys.step a, hle, congrArg Host.Outcome.next (if_neg (Nat.not_le.2 ha)), hholds, hhighest⟩
  case trip =>
    intro ha i hi
    have htrip := trip_tripped { s with sys := { s.sys with temp := a % 256, step := throttleStep s.sys.step a } }
    simp only [List.mem_cons, List.not_mem_nil, or_false] at hi
    obtain rfl | rfl := hi
    · exact ⟨_, congrArg Host.Outcome.next (if_pos ha), htrip⟩
    · exact ⟨_, if_pos ha, htrip⟩
  case undervoltage => exact fun ha => ⟨_, if_pos ha, trip_tripped s⟩
  case training => exact fun hk => if_pos hk

end Sys2Proof.Machine
end

section
/-! PROOFS. Proofs/HomeReads.lean: fills and reads of loads at their homes and at peers (R187, R189, R193, R326, R336, R337). -/

namespace Sys2Proof.Machine

/-! ## What a home keeps -/

theorem HomeSide.homeKeeps {s t : State} (h : HomeSide NoByte s t) : HomeKeeps s t :=
  fun hg off ha => (h.mem.bytes hg off ha).2 id

theorem HomeKeeps.after {s t u : State} (k : HomeKeeps t u) (h : HomeSide NoByte s t) : HomeKeeps s u := fun hg off ha =>
  (k (h.mem.grains hg) off (h.mem.bytes hg off ha).1).trans (h.homeKeeps hg off ha)

/-- A further change that leaves the bytes and their keys. -/
theorem HomeKeeps.same {s t u : State} (h : HomeKeeps s t) (hb : u.mem.bytes = t.mem.bytes) (hk : u.mem.keys = t.mem.keys) : HomeKeeps s u :=
  fun hg off ha => (memByte_same hb hk off).trans (h hg off ha)

/-- The cell of a part is read at its home as before. -/
theorem coCell_atHome {s t : State} (h : HomeSide NoByte s t) (hg : GrainsOk s.mem.dir) {off : Nat}
    (ha : ∀ j < 32, HomeAlone s.mem (off / 32 * 32 + j)) : coCell t.mem (cellOf off) = coCell s.mem (cellOf off) := by
  have hcell : 16 * frameOf off + cellIn off = cellOf off := by unfold frameOf cellIn cellOf; omega
  rw [← hcell]
  refine coCell_keep h hg fun j hj => ?_
  rw [show 512 * frameOf off + 32 * cellIn off + j = off / 32 * 32 + j by unfold frameOf cellIn; omega]
  exact ha j hj

theorem raiseClock_only (m : Mem) (core home : Nat) : ∃ c, raiseClock m core home = { m with clocks := c } := by
  unfold raiseClock
  split
  · exact ⟨_, rfl⟩
  · exact ⟨m.clocks, rfl⟩

/-- The cell of a frame that an address names (R2, R305). -/
theorem cellIn_paOff (pa : Nat) : cellIn (paOff pa) = pa / 32 % 16 := by
  unfold cellIn paOff
  omega

/-- The grain of a leaf is one of three (R313). -/
theorem leafGrain_sizes (leaf : Nat) : leafGrain leaf = 32 ∨ leafGrain leaf = 128 ∨ leafGrain leaf = 512 := by
  unfold leafGrain
  split
  · exact .inl rfl
  · split
    · exact .inr (.inl rfl)
    · exact .inr (.inr rfl)

/-! ## A part that takes its data (R189, R212) -/

section
variable {s : State} {o : MemOp} {frame : Nat} {below : Nat → Option (BitVec 256)} {p : MemPart} (hframe : paFrame p.pa = frame)
  (hgot : p.got = none) (hcap : captureOk s.mem.ops o p = true)
include hframe hgot hcap

theorem fillPart_l1 {d : BitVec 256} (huse : l1Usable s o p = true) (hheld : l1Cell s.mem.l1 o.core frame (p.pa / 32 % 16) = some d) :
    fillPart s o frame below p = { p with got := some (cellBytes d (p.pa % 32) p.len) } := by
  unfold fillPart
  simp [hframe, hgot, hcap, huse, hheld]

theorem fillPart_below {c : BitVec 256} (hmiss : l1Usable s o p = false ∨ l1Cell s.mem.l1 o.core frame (p.pa / 32 % 16) = none)
    (hturn : homeTurn (ownDev s.sys) s.mem.ops o p = true) (hc : below p.pa = some c) :
    fillPart s o frame below p = { p with got := some (cellBytes (overlayStores s.mem o false p.pa c) (p.pa % 32) p.len) } := by
  have hl1 : (if l1Usable s o p = true then l1Cell s.mem.l1 o.core frame (p.pa / 32 % 16) else none) = none := by
    rcases hmiss with h | h <;> simp [h]
  unfold fillPart
  simp [hframe, hgot, hcap, hl1, hturn, hc]

/-- A part whose turn has come, and whose cell the tier below returns, has its data. -/
theorem fillPart_got (hturn : homeTurn (ownDev s.sys) s.mem.ops o p = true) (hc : (below p.pa).isSome = true) :
    (fillPart s o frame below p).got.isSome = true := by
  obtain ⟨c, hc⟩ := Option.isSome_iff_exists.1 hc
  by_cases hl1 : l1Usable s o p = true ∧ (l1Cell s.mem.l1 o.core frame (p.pa / 32 % 16)).isSome = true
  · obtain ⟨huse, hheld⟩ := hl1
    obtain ⟨d, hd⟩ := Option.isSome_iff_exists.1 hheld
    rw [fillPart_l1 hframe hgot hcap huse hd]
    rfl
  · have hmiss : l1Usable s o p = false ∨ l1Cell s.mem.l1 o.core frame (p.pa / 32 % 16) = none := by
      rw [not_and_or] at hl1
      exact hl1.imp Bool.eq_false_iff.2 fun h => Option.not_isSome_iff_eq_none.1 h
    rw [fillPart_below hframe hgot hcap hmiss hturn hc]
    rfl

end

/-! ## The tier below L1 (R181, R326) -/

theorem servedAtHome_ctl {s t : State} (h : t.ctl = s.ctl) (o : MemOp) (p : MemPart) : servedAtHome t o p = servedAtHome s o p := by
  unfold servedAtHome
  rw [h]

theorem belowCell_served {s : State} {o : MemOp} {p : MemPart} {pa : Nat} (hloc : paLocal (ownDev s.sys) pa = true)
    (hserved : servedAtHome s o p = true) : belowCell s o p pa =
      if txnBusy s.mem (paOff pa) || !homeUp s (paOff pa) then none else some (coCell s.mem (cellOf (paOff pa))) := by
  unfold belowCell
  dsimp only
  rw [if_neg (by rw [local_not_host hloc]; exact Bool.false_ne_true), if_pos hloc, if_pos hserved]

/-- The state before a fill from below L1: what the home itself serves has been recalled from the slices that own it (R326). -/
def fillState (s : State) (o : MemOp) (p0 : MemPart) (frame : Nat) : State :=
  if paLocal (ownDev s.sys) p0.pa && servedAtHome s o p0 && !txnBusy s.mem (paOff p0.pa) then
    (cellsOf (requestParts s.mem o frame) frame).foldl (fun s i => homeRecall s none (frameOf (paOff p0.pa) * 512 + 32 * i) 32) s
  else s

theorem fillState_recalled (s : State) (o : MemOp) (p0 : MemPart) (frame : Nat) : Recalled s (fillState s o p0 frame) := by
  unfold fillState
  split
  · exact recalled_fold s _ fun i => frameOf (paOff p0.pa) * 512 + 32 * i
  · exact ⟨.refl _ s, rfl, rfl⟩

/-- The recalls before a fill leave what the tier below returns: whether it returns a cell, and the cell where no other copy of it is
modified. -/
theorem belowCell_fillState {s : State} (hg : GrainsOk s.mem.dir) {o : MemOp} {p0 : MemPart} {frame pa : Nat} (hpa : paFrame pa = paFrame p0.pa) :
    (belowCell (fillState s o p0 frame) o p0 pa).isSome = (belowCell s o p0 pa).isSome ∧
    ((paLocal (ownDev s.sys) p0.pa = true → ∀ j < 32, HomeAlone s.mem (paOff pa / 32 * 32 + j)) →
      belowCell (fillState s o p0 frame) o p0 pa = belowCell s o p0 pa) := by
  by_cases hhome : paLocal (ownDev s.sys) p0.pa = true ∧ servedAtHome s o p0 = true
  · obtain ⟨hloc0, hserved⟩ := hhome
    have hr := fillState_recalled s o p0 frame
    have hloc : paLocal (ownDev s.sys) pa = true := by rw [(paFrame_same hpa (ownDev s.sys)).1, hloc0]
    have hbusy : txnBusy (fillState s o p0 frame).mem (paOff pa) = txnBusy s.mem (paOff pa) := by unfold txnBusy; rw [hr.txns]
    have hup : homeUp (fillState s o p0 frame) (paOff pa) = homeUp s (paOff pa) := by unfold homeUp; rw [hr.side.sys]
    have hloc' : paLocal (ownDev (fillState s o p0 frame).sys) pa = true := by rw [hr.side.sys, hloc]
    have hserved' : servedAtHome (fillState s o p0 frame) o p0 = true := by rw [servedAtHome_ctl hr.side.ctl, hserved]
    rw [belowCell_served hloc' hserved', belowCell_served hloc hserved, hbusy, hup]
    refine ⟨?_, fun ha => ?_⟩
    · by_cases hwait : (txnBusy s.mem (paOff pa) || !homeUp s (paOff pa)) = true
      · rw [if_pos hwait, if_pos hwait]
      · rw [if_neg hwait, if_neg hwait, Option.isSome_some, Option.isSome_some]
    · rw [coCell_atHome hr.side hg (ha hloc0)]
  · have hs : fillState s o p0 frame = s := by
      unfold fillState
      rw [if_neg fun h => hhome (by simp only [Bool.and_eq_true] at h; exact h.1)]
    rw [hs]
    exact ⟨rfl, fun _ => rfl⟩

/-! ## FILL_COMPLETE -/

section
variable {s : State} {op frame : Nat} {o : MemOp} {p0 : MemPart} {rest : List MemPart} (ho : findOp s.mem op = some o)
  (hload : isLoad o = true) (hneed : (o.parts.filter fun p => paFrame p.pa == frame && p.got.isNone) = p0 :: rest)
include ho hload hneed

omit ho hload in
theorem neededPart_mem : p0 ∈ o.parts ∧ paFrame p0.pa = frame := by
  have hmem : p0 ∈ o.parts.filter fun p => paFrame p.pa == frame && p.got.isNone := hneed ▸ List.mem_cons_self
  have hp := List.mem_filter.1 hmem
  simp only [Bool.and_eq_true, beq_iff_eq] at hp
  exact ⟨hp.1, hp.2.1⟩

/-- A fill from below L1 where no peer is to be asked. -/
theorem fillComplete_below (hb : paPeer s p0.pa = false ∨ (belowCell s o p0 p0.pa).isSome = true) : exec (.fillComplete op frame) s =
    .next (fillFrame (fillState s o p0 frame) o p0 frame (belowCell (fillState s o p0 frame) o p0)) := by
  have hpeer : (paPeer s p0.pa && (belowCell s o p0 p0.pa).isNone) = false := by
    rcases hb with h | h
    · rw [h]; rfl
    · rw [Option.isNone_eq_false_iff.2 h]; exact Bool.and_false _
  rw [exec_fillComplete]
  unfold execFillComplete
  simp only [ho, hload, hneed, hpeer, Bool.false_eq_true, if_false]
  rfl

/-- A fill from below L1: the parts that may take their data have it, and of the rest of the machine only copies change. -/
theorem fillComplete_fills (hg : GrainsOk s.mem.dir) (hb : paPeer s p0.pa = false ∨ (belowCell s o p0 p0.pa).isSome = true) :
    ∃ t, exec (.fillComplete op frame) s = .next t ∧ t.exe.gangs = s.exe.gangs ∧ t.ctl = s.ctl ∧ t.sys = s.sys ∧ HomeKeeps s t ∧
      ∀ k p c, o.parts[k]? = some p → paFrame p.pa = frame → p.got = none → captureOk s.mem.ops o p = true →
        (∀ d, l1Usable s o p = true → l1Cell s.mem.l1 o.core frame (p.pa / 32 % 16) = some d →
          PartNow t.mem op k fun q => q.got = some (cellBytes d (p.pa % 32) p.len)) ∧
        (l1Usable s o p = false ∨ l1Cell s.mem.l1 o.core frame (p.pa / 32 % 16) = none → homeTurn (ownDev s.sys) s.mem.ops o p = true →
          (paLocal (ownDev s.sys) p0.pa = true → CellAtHome s p) → belowCell s o p0 p.pa = some c →
          PartNow t.mem op k fun q => q.got = some (cellBytes (overlayStores s.mem o false p.pa c) (p.pa % 32) p.len)) := by
  have hr := fillState_recalled s o p0 frame
  obtain ⟨-, hframe0⟩ := neededPart_mem hneed
  obtain ⟨hctl, hsys, hgangs, hkeeps, -⟩ := fillFrame_side (fillState s o p0 frame) o p0 frame (belowCell (fillState s o p0 frame) o p0)
  refine ⟨_, fillComplete_below ho hload hneed hb, hgangs.trans hr.side.gangs, hctl.trans hr.side.ctl, hsys.trans hr.side.sys,
    hkeeps.after hr.side, fun k p c hp hframe hgot hcap => ?_⟩
  have hcap' : captureOk (fillState s o p0 frame).mem.ops o p = true := by rw [hr.side.mem.ops]; exact hcap
  have huse : l1Usable (fillState s o p0 frame) o p = l1Usable s o p := by unfold l1Usable; rw [hr.side.sys, hr.side.ctl]
  refine ⟨fun d hu hd => fillFrame_part hr.side.mem.ops ho hload hp ?_, fun hmiss hturn halone hc => fillFrame_part hr.side.mem.ops ho hload hp ?_⟩
  · rw [fillPart_l1 hframe hgot hcap' (huse.trans hu) (by rw [hr.l1]; exact hd)]
  · have hc' := ((belowCell_fillState hg (o := o) (frame := frame) (hframe.trans hframe0.symm)).2 halone).trans hc
    rw [fillPart_below hframe hgot hcap' (by rw [huse, hr.l1]; exact hmiss) (by rw [hr.side.sys, hr.side.mem.ops]; exact hturn) hc',
      overlayStores_ops hr.side.mem.ops]

/-- A fill from below L1 gives a part whose turn has come its data. -/
theorem fillComplete_got (hg : GrainsOk s.mem.dir) (hb : paPeer s p0.pa = false ∨ (belowCell s o p0 p0.pa).isSome = true) {k : Nat} {p : MemPart}
    (hp : o.parts[k]? = some p) (hframe : paFrame p.pa = frame) (hgot : p.got = none) (hcap : captureOk s.mem.ops o p = true)
    (hturn : homeTurn (ownDev s.sys) s.mem.ops o p = true) (hc : (belowCell s o p0 p.pa).isSome = true) :
    ∃ t, exec (.fillComplete op frame) s = .next t ∧ PartNow t.mem op k fun q => q.got.isSome = true := by
  have hr := fillState_recalled s o p0 frame
  obtain ⟨-, hframe0⟩ := neededPart_mem hneed
  refine ⟨_, fillComplete_below ho hload hneed hb, fillFrame_part hr.side.mem.ops ho hload hp ?_⟩
  refine fillPart_got hframe hgot (by rw [hr.side.mem.ops]; exact hcap) (by rw [hr.side.sys, hr.side.mem.ops]; exact hturn) ?_
  rw [(belowCell_fillState hg (hframe.trans hframe0.symm)).1]
  exact hc

variable (hpeer : paPeer s p0.pa = true) (hnone : belowCell s o p0 p0.pa = none)
include hpeer hnone

/-- A load of a lost peer's memory raises LINK_LOSS (R336). -/
theorem fillComplete_lost (hgone : peerGone s p0.pa = true) {grp : Group} {k : Kernel} (hgrp : s.exe.groups[(opGang s o).grp]? = some grp)
    (hk : s.ctl.kernels[o.kern]? = some k) : ∃ t, exec (.fillComplete op frame) s = .next t ∧ OpFaults s t o .linkLoss p0.va := by
  refine ⟨opFault s o .linkLoss p0.va true, ?_, opFault_spec hgrp hk _ _ _⟩
  rw [exec_fillComplete]
  unfold execFillComplete
  simp only [ho, hload, hneed, hpeer, hnone, hgone, Option.isNone_none, Bool.and_self, if_true]

/-- The first fill of a frame of a peer sends the READ (R337). -/
theorem fillComplete_asks (hgone : peerGone s p0.pa = false) (hperf : p0.performed = false)
    (hsend : canSend s.sys (paDev p0.pa) (frameOf (paOff p0.pa)) 0 = true) (hturn : homeTurn (ownDev s.sys) s.mem.ops o p0 = true) :
    exec (.fillComplete op frame) s = .next (peerRead s o p0 (peerRange s o p0 (cellsOf (requestParts s.mem o frame) frame))) := by
  rw [exec_fillComplete]
  unfold execFillComplete
  simp only [ho, hload, hneed, hpeer, hnone, hgone, hperf, hsend, hturn, Option.isNone_none, Bool.and_self, Bool.not_false, Bool.false_eq_true,
    if_true, if_false]

end

/-- The READ to a peer goes out, and the parts of its frame are marked as asked for. -/
theorem peerRead_sent {s : State} {o : MemOp} {p0 : MemPart} (r : Nat × Nat) :
    let t := peerRead s o p0 r
    t.ctl = s.ctl ∧ t.exe = s.exe ∧ t.mem.bytes = s.mem.bytes ∧
      (∃ m, Sent s t o p0 m (.read (paOff p0.pa / 512 * 512 + 32 * r.1) (32 * (r.2 + 1 - r.1)))) ∧
      ∀ k p, isLoad o = true → findOp s.mem o.id = some o → o.parts[k]? = some p → paFrame p.pa = paFrame p0.pa →
        PartNow t.mem o.id k fun q => q.performed = true := by
  refine ⟨rfl, rfl, rfl, ⟨_, rfl, rfl, rfl, rfl, rfl, rfl, rfl, rfl⟩, fun k p hload ho hp hframe => ?_⟩
  refine PartNow.map (m := s.mem) _ rfl (fun q => by split <;> rfl) (findOp_part ho hp) fun o' p' ho' hp' he => ?_
  obtain rfl : o = o' := Option.some.inj (ho.symm.trans ho')
  subst he
  rw [if_pos (by simp [hload])]
  refine ⟨{ p' with performed := true }, ?_, rfl⟩
  show (modIf o.parts _ _)[k]? = _
  unfold modIf
  rw [List.getElem?_map, hp, Option.map_some, if_pos (by simp [hframe])]

/-! ## The answer of a peer (R337) -/

/-- The cells that a peer's answer brings: those of the range asked for, free values by the draws from `base` (log 14). -/
def answerCell (base : Nat) (r : Nat × Nat) (pa : Nat) : Option (BitVec 256) :=
  if r.1 ≤ pa / 32 % 16 ∧ pa / 32 % 16 ≤ r.2 then some (peerCell base (pa / 32 % 16)) else none

theorem peerFill_rest (s : State) (o : MemOp) (p0 : MemPart) (r : Nat × Nat) : (peerFill s o p0 r).ctl = s.ctl ∧ (peerFill s o p0 r).sys = s.sys ∧
    (peerFill s o p0 r).exe.gangs = s.exe.gangs ∧ (peerFill s o p0 r).mem.ops = s.mem.ops ∧ (peerFill s o p0 r).mem.bytes = s.mem.bytes := by
  unfold peerFill
  dsimp only
  split
  · exact ⟨rfl, rfl, rfl, rfl, rfl⟩
  · generalize hm : l2Put _ _ _ _ _ _ _ = m
    have hops : m.ops = s.mem.ops ∧ m.bytes = s.mem.bytes := by
      rw [← hm]
      unfold l2Put l2Remove
      dsimp only
      split <;> exact ⟨rfl, rfl⟩
    have hside := trimL2_side { s with exe := { s.exe with fresh := s.exe.fresh + 65 }, mem := m } (coreDie o.core) (peerFrame p0.pa)
    exact ⟨hside.ctl, hside.sys, hside.gangs, hside.mem.ops.trans hops.1, (trimSet_bytes _ _ _ _).1.trans hops.2⟩

/-- The cell of every part of a request lies in the range that a READ of a peer asks for (R187, R193). -/
theorem peerRange_has {s : State} {o : MemOp} (p0 : MemPart) {cs : List Nat} {i : Nat} (hi : i ∈ cs) (h16 : i < 16) :
    (peerRange s o p0 cs).1 ≤ i ∧ i ≤ (peerRange s o p0 cs).2 := by
  have hbounds := foldl_min_le cs i hi
  unfold peerRange
  split
  · exact hbounds
  · have hw : (wantedOf s.mem o cs).1 ≤ i ∧ i ≤ (wantedOf s.mem o cs).2 := wanted_has _ _ _ _ _ _ i hbounds.1 hbounds.2 h16
    unfold roundOut
    rcases leafGrain_sizes p0.leaf with h | h | h <;> rw [h] <;> dsimp only <;> omega

/-- The cell of a part of a load is among those of its request. -/
theorem requestCells_mem {m : Mem} {op : Nat} {o : MemOp} {p : MemPart} (ho : findOp m op = some o) (hload : isLoad o = true) (hp : p ∈ o.parts) :
    p.pa / 32 % 16 ∈ cellsOf (requestParts m o (paFrame p.pa)) (paFrame p.pa) := by
  have hissue : o ∈ issueLoads m o.issue := List.mem_filter.2 ⟨List.mem_of_find?_eq_some ho, by simp [hload]⟩
  have hreq : p ∈ requestParts m o (paFrame p.pa) := List.mem_flatMap.2 ⟨o, hissue, List.mem_filter.2 ⟨hp, beq_self_eq_true _⟩⟩
  exact List.mem_map_of_mem (List.mem_filter.2 ⟨hreq, beq_self_eq_true _⟩)

section
variable {s : State} {op frame : Nat} {o : MemOp} {p0 : MemPart} {rest : List MemPart} (ho : findOp s.mem op = some o)
  (hload : isLoad o = true) (hneed : (o.parts.filter fun p => paFrame p.pa == frame && p.got.isNone) = p0 :: rest)
  (hpeer : paPeer s p0.pa = true) (hnone : belowCell s o p0 p0.pa = none) (hgone : peerGone s p0.pa = false)
include ho hload hneed hpeer hnone hgone

/-- The next fill brings the peer's answer to the parts of the frame (R189, R337). -/
theorem fillComplete_answered (hperf : p0.performed = true) (hans : answerable s.sys o.id (some frame) = true) :
    ∃ t, exec (.fillComplete op frame) s = .next t ∧ t.ctl = s.ctl ∧ t.exe.gangs = s.exe.gangs ∧ t.mem.bytes = s.mem.bytes ∧
      t.sys = { s.sys with flight := s.sys.flight.filter fun m => !m.named o.id (some frame) } ∧
      ∀ k p, o.parts[k]? = some p → paFrame p.pa = frame → p.got = none → captureOk s.mem.ops o p = true →
        homeTurn (ownDev s.sys) s.mem.ops o p = true → PartNow t.mem op k fun q => q.got.isSome = true := by
  generalize hr : peerRange s o p0 (cellsOf (requestParts s.mem o frame) frame) = r
  generalize hu : peerFill (ackReq s o.id (some frame)) o p0 r = u
  obtain ⟨hctl, hsys, hgangs, hops, hbytes⟩ := hu ▸ peerFill_rest (ackReq s o.id (some frame)) o p0 r
  have hexec : exec (.fillComplete op frame) s = .next (fillFrame u o p0 frame (answerCell s.exe.fresh r)) := by
    rw [exec_fillComplete, ← hu, ← hr]
    unfold execFillComplete
    simp only [ho, hload, hneed, hpeer, hnone, hgone, hperf, hans, Option.isNone_none, Bool.and_self, Bool.not_true, Bool.false_eq_true,
      if_true, if_false]
    rfl
  obtain ⟨fctl, fsys, fgangs, -, fbytes⟩ := fillFrame_side u o p0 frame (answerCell s.exe.fresh r)
  refine ⟨_, hexec, fctl.trans hctl, fgangs.trans hgangs, fbytes.trans hbytes, fsys.trans hsys, fun k p hp hframe hgot hcap hturn => ?_⟩
  have hown : ownDev u.sys = ownDev s.sys := by rw [hsys]; rfl
  refine fillFrame_part hops ho hload hp (fillPart_got hframe hgot (by rw [hops]; exact hcap) (by rw [hown, hops]; exact hturn) ?_)
  have hin := peerRange_has (s := s) (o := o) p0 (hframe ▸ requestCells_mem ho hload (List.mem_of_getElem? hp)) (Nat.mod_lt _ (by decide))
  rw [hr] at hin
  unfold answerCell
  rw [if_pos hin]
  rfl

end

end Sys2Proof.Machine
end

section
/-! PROOFS. Proofs/HomeStores.lean: READs, OWNs and WRITEs of loads and stores served at their homes, and O42 (R189, R191, R193, R326). -/

namespace Sys2Proof.Machine

/-! ## HOME_READ (R187, R193, R326) -/

/-- Nothing stands before a part at its home (R326, R381). -/
theorem CellFree.part {s : State} {a : Nat} {p : MemPart} (h : CellFree s a p) :
    txnBusy s.mem (paOff p.pa) = false ∧ noticeAhead s.mem a (paOff p.pa) = false := by
  have hj := h (paOff p.pa % 32) (Nat.mod_lt _ (by decide))
  rwa [Nat.div_add_mod'] at hj

/-- A READ that is due brings its cell into the reader's slice, with the home's bytes where no other copy is modified. -/
theorem homeRead_brings {s : State} {op i : Nat} {o : MemOp} {p : MemPart} (hg : GrainsOk s.mem.dir) (ho : findOp s.mem op = some o)
    (hp : o.parts[i]? = some p) (hload : isLoad o = true) (hgot : p.got = none) (hloc : paLocal (ownDev s.sys) p.pa = true)
    (hup : homeUp s (paOff p.pa) = true) (hserved : servedAtHome s o p = false) (hturn : homeTurn (ownDev s.sys) s.mem.ops o p = true)
    (hfree : CellFree s (coreDie o.core) p)
    (hcell : l2Cell s.mem.l2 0 (coreDie o.core) (frameOf (paOff p.pa)) (cellIn (paOff p.pa)) = none) :
    ∃ t, exec (.homeRead op i) s = .next t ∧ OnlyCopies s t ∧ HomeKeeps s t ∧
      (l2Cell t.mem.l2 0 (coreDie o.core) (frameOf (paOff p.pa)) (cellIn (paOff p.pa))).isSome = true ∧
      (CellAtHome s p → (l2Cell t.mem.l2 0 (coreDie o.core) (frameOf (paOff p.pa)) (cellIn (paOff p.pa))).map L2Cell.data =
        some (coCell s.mem (cellOf (paOff p.pa)))) := by
  obtain ⟨hbusy, hnotice⟩ := hfree.part
  generalize hw : wantedOf s.mem o (cellsOf (requestParts s.mem o (paFrame p.pa)) (paFrame p.pa)) = w
  generalize hu : readRange s (coreDie o.core) ⟨o.part, o.ctx, allocPolicy o p⟩ (leafWayp p.leaf) (frameOf (paOff p.pa)) (leafGrain p.leaf) w = u
  have hexec : exec (.homeRead op i) s = .next { u with mem := raiseClock u.mem o.core (homeKey (ownDev s.sys) p.pa) } := by
    rw [exec_homeRead, ← hu, ← hw]
    unfold execHomeRead
    simp only [ho, hp, hload, hgot, hloc, hup, hserved, hturn, hbusy, hnotice, hcell, Option.isNone_none, Bool.not_false, Bool.and_self, if_true]
  have hside : HomeSide NoByte s u := hu ▸ readRange_side _ _ _ _ _ _ _
  have hbounds := foldl_min_le _ _ (requestCells_mem ho hload (List.mem_of_getElem? hp))
  have hin : w.1 ≤ cellIn (paOff p.pa) ∧ cellIn (paOff p.pa) ≤ w.2 := by
    rw [← hw, cellIn_paOff]
    exact wanted_has _ _ _ _ _ _ _ hbounds.1 hbounds.2 (Nat.mod_lt _ (by decide))
  have hdie : homeDie (512 * frameOf (paOff p.pa)) ≠ coreDie o.core := by
    unfold servedAtHome at hserved
    simp only [Bool.or_eq_false_iff, beq_eq_false_iff_ne] at hserved
    have hne := hserved.1.1
    unfold homeDie frameOf dieBytes at *
    omega
  have hbase : 512 * frameOf (paOff p.pa) + 32 * cellIn (paOff p.pa) = paOff p.pa / 32 * 32 := by unfold frameOf cellIn; omega
  have hfirst := hfree 0 (by decide)
  rw [Nat.add_zero, ← hbase] at hfirst
  obtain ⟨c, hc, hdata⟩ := readRange_cell (g := ⟨o.part, o.ctx, allocPolicy o p⟩) (wayp := leafWayp p.leaf) hg hdie
    (show cellIn (paOff p.pa) < 16 from Nat.mod_lt _ (by decide)) hin (leafGrain_sizes p.leaf) hcell hfirst.1 hfirst.2
  rw [hu] at hc
  obtain ⟨clocks, hclock⟩ := raiseClock_only u.mem o.core (homeKey (ownDev s.sys) p.pa)
  rw [hclock] at hexec
  refine ⟨_, hexec, ⟨hside.ctl, hside.sys, hside.gangs, hside.mem.ops⟩, hside.homeKeeps.same rfl rfl, ?_, fun ha => ?_⟩
  · rw [hc]
    rfl
  · rw [hc, Option.map_some, hdata fun j hj => by rw [hbase]; exact ha j hj,
      show 16 * frameOf (paOff p.pa) + cellIn (paOff p.pa) = cellOf (paOff p.pa) by unfold frameOf cellIn cellOf; omega]

/-! ## A store in the slice that owns its grain (R191, R326) -/

/-- Blocks changed but for what they hold give the same bytes. -/
theorem l2Cell_map_data {l : List L2Block} {F : L2Block → L2Block} (hF : ∀ b, (F b).die = b.die ∧ (F b).frame = b.frame ∧ (F b).start = b.start ∧
      (F b).expiry = b.expiry ∧ (F b).cells.map L2Cell.data = b.cells.map L2Cell.data) (now die frame i : Nat) :
    (l2Cell (l.map F) now die frame i).map L2Cell.data = (l2Cell l now die frame i).map L2Cell.data := by
  unfold l2Cell
  have hlen : ∀ b, (F b).cells.length = b.cells.length := fun b => by
    have := congrArg List.length (hF b).2.2.2.2
    simpa using this
  have hpred : ((fun b : L2Block => b.die == die && b.frame == frame && decide (b.start ≤ i) && decide (i < b.start + b.cells.length) && b.live now) ∘ F) =
      fun b => b.die == die && b.frame == frame && decide (b.start ≤ i) && decide (i < b.start + b.cells.length) && b.live now := by
    funext b
    obtain ⟨hdie, hframe, hstart, hexp, -⟩ := hF b
    simp only [Function.comp, L2Block.live, hdie, hframe, hstart, hexp, hlen b]
  rw [List.find?_map, hpred]
  cases l.find? _ with
  | none => rfl
  | some b =>
    obtain ⟨-, -, hstart, -, hdata⟩ := hF b
    dsimp only [Option.map_some]
    rw [hstart, ← List.getElem?_map, hdata, List.getElem?_map]

/-- A recall marks the cells of its grain clean, and leaves what they hold. -/
theorem recallGrain_data (m : Mem) (g size now die frame i : Nat) :
    (l2Cell (recallGrain m g size).l2 now die frame i).map L2Cell.data = (l2Cell m.l2 now die frame i).map L2Cell.data := by
  refine l2Cell_map_data (fun b => ?_) now die frame i
  split
  · refine ⟨rfl, rfl, rfl, rfl, List.ext_getElem? fun j => ?_⟩
    simp only [List.getElem?_map, List.getElem?_mapIdx, Option.map_map]
    congr 1
    funext c
    simp only [Function.comp]
    split <;> rfl
  · exact ⟨rfl, rfl, rfl, rfl, rfl⟩

theorem growRecall_data (m : Mem) (off size now die frame i : Nat) :
    (l2Cell (growRecall m off size).l2 now die frame i).map L2Cell.data = (l2Cell m.l2 now die frame i).map L2Cell.data := by
  unfold growRecall
  dsimp only
  split
  · exact recallGrain_data _ _ _ _ _ _ _
  · rfl

theorem trimL2_bytes (s : State) (die frame : Nat) : (trimL2 s die frame).mem.bytes = s.mem.bytes ∧ (trimL2 s die frame).mem.keys = s.mem.keys :=
  trimSet_bytes die frame 64 s

/-- The slice that performs a store holds the cell with the store's bytes over what it held, or over the home's copy. -/
theorem storeAtSlice_cell (m : Mem) (die : Nat) (o : MemOp) (p : MemPart) (now : Nat) :
    l2Cell (storeAtSlice m die o p).l2 now die (frameOf (paOff p.pa)) (cellIn (paOff p.pa)) =
      some ⟨cellPut (((l2Cell m.l2 0 die (frameOf (paOff p.pa)) (cellIn (paOff p.pa))).map L2Cell.data).getD (coCell m (cellOf (paOff p.pa))))
        (paOff p.pa % 32) p.wdata, true⟩ := by
  have hi : cellIn (paOff p.pa) < 16 := Nat.mod_lt _ (by decide)
  unfold storeAtSlice
  dsimp only
  cases l2Cell m.l2 0 die (frameOf (paOff p.pa)) (cellIn (paOff p.pa)) with
  | none => exact l2Cell_put hi (by simp)
  | some c => exact l2Cell_put hi (by simp)

section
variable {s : State} {op i : Nat} {o : MemOp} {p : MemPart} (ho : findOp s.mem op = some o) (hp : o.parts[i]? = some p)
  (hstore : isStore o = true) (hmay : MayPerform s o i p)
include ho hp hstore hmay

section
variable (haway : homeDie (paOff p.pa) ≠ coreDie o.core) (hpol : leafPolicy p.leaf ≠ 3)
  (hnotice : noticeAhead s.mem (coreDie o.core) (paOff p.pa) = false)
include haway hpol hnotice

theorem homeOwn_header (hlate : lateHeader s p = true) {grp : Group} {k : Kernel} (hgrp : s.exe.groups[(opGang s o).grp]? = some grp)
    (hk : s.ctl.kernels[o.kern]? = some k) : ∃ t, exec (.homeOwn op i) s = .next t ∧ OpFaults s t o .permFault p.va := by
  obtain ⟨hperf, hloc, hup, hbusy, hok, hinner⟩ := hmay
  refine ⟨opFault s o .permFault p.va false, ?_, opFault_spec hgrp hk _ _ _⟩
  rw [exec_homeOwn]
  unfold execHomeOwn
  simp only [ho, hp, hstore, hperf, hloc, hup, bne_iff_ne.2 haway, bne_iff_ne.2 hpol, hbusy, hnotice, hok, hinner, hlate, Bool.not_false,
    Bool.and_self, if_true]

/-- An OWN that no other agent holds up is performed at once in the requester's slice, and acknowledged. -/
theorem homeOwn_performs (hg : GrainsOk s.mem.dir) (hlate : lateHeader s p = false)
    (hothers : (liveAgents s (coveredSet (dirGrow s.mem.dir (paOff p.pa) (leafGrain p.leaf)) s.sys.ptp)).filter (fun b => b != coreDie o.core) = []) :
    ∃ t, exec (.homeOwn op i) s = .next t ∧ t.ctl = s.ctl ∧ t.sys = s.sys ∧ t.exe.gangs = s.exe.gangs ∧ HomeKeeps s t ∧
      PartNow t.mem op i (fun q => q.performed = true ∧ q.acked = true) ∧
      ∀ c, l2Cell s.mem.l2 0 (coreDie o.core) (frameOf (paOff p.pa)) (cellIn (paOff p.pa)) = c → c.isSome = true ∨ CellAtHome s p →
        l2Cell t.mem.l2 0 (coreDie o.core) (frameOf (paOff p.pa)) (cellIn (paOff p.pa)) =
          some ⟨cellPut ((c.map L2Cell.data).getD (coCell s.mem (cellOf (paOff p.pa)))) (paOff p.pa % 32) p.wdata, true⟩ := by
  obtain ⟨hperf, hloc, hup, hbusy, hok, hinner⟩ := hmay
  have hgrow := growRecall_side s.mem (paOff p.pa) (leafGrain p.leaf)
  have hdir := growRecall_dir s.mem (paOff p.pa) (leafGrain p.leaf)
  have hdata := growRecall_data s.mem (paOff p.pa) (leafGrain p.leaf) 0 (coreDie o.core) (frameOf (paOff p.pa)) (cellIn (paOff p.pa))
  generalize hm : growRecall s.mem (paOff p.pa) (leafGrain p.leaf) = m at *
  have hexec : ∃ dir, exec (.homeOwn op i) s = .next (trimL2 (ackWrite { s with mem := storeAtSlice { m with dir := dir } (coreDie o.core) o p }
      o i p.pa) (coreDie o.core) (frameOf (paOff p.pa))) := by
    refine ⟨dirPut s.sys.ptp s.mem.dir { dirGrow s.mem.dir (paOff p.pa) (leafGrain p.leaf) with
      coarse := false, vec := 0, ptrs := [coreDie o.core], owned := true }, ?_⟩
    rw [exec_homeOwn]
    unfold execHomeOwn
    simp only [ho, hp, hstore, hperf, hloc, hup, bne_iff_ne.2 haway, bne_iff_ne.2 hpol, hbusy, hnotice, hok, hinner, hlate, hm, hdir, hothers,
      List.isEmpty_nil, Bool.not_false, Bool.and_self, Bool.false_eq_true, if_true, if_false]
  obtain ⟨dir, hexec⟩ := hexec
  obtain ⟨hctl, hsys, hgangs, -, hdone⟩ := storeDone s { m with dir := dir } o i p (coreDie o.core) (frameOf (paOff p.pa)) hgrow.ops
  obtain ⟨-, -, -, hack⟩ := ackWrite_rest { s with mem := storeAtSlice { m with dir := dir } (coreDie o.core) o p } o i p.pa
  have hid := findOp_id ho
  refine ⟨_, hexec, hctl, hsys, hgangs, ?_, ?_, fun c hc hdef => ?_⟩
  · refine (HomeSide.of_mem (s := s) hgrow).homeKeeps.same ?_ ?_
    · exact (trimL2_bytes _ _ _).1.trans (by rw [hack]; rfl)
    · exact (trimL2_bytes _ _ _).2.trans (by rw [hack]; rfl)
  · rw [← hid] at ho ⊢
    exact hdone ho hp
  · rw [trimL2_cell, hack]
    refine (storeAtSlice_cell { m with dir := dir } (coreDie o.core) o p 0).trans ?_
    dsimp only
    rw [hdata, hc]
    rcases hdef with hsome | ha
    · obtain ⟨x, rfl⟩ := Option.isSome_iff_exists.1 hsome
      rw [Option.map_some, Option.getD_some, Option.getD_some]
    · rw [show coCell { m with dir := dir } (cellOf (paOff p.pa)) = coCell s.mem (cellOf (paOff p.pa)) from
        coCell_atHome (HomeSide.of_mem (s := s) hgrow) hg ha]

/-- An OWN that other agents hold up waits for their acknowledgements in a transaction. -/
theorem homeOwn_waits (hlate : lateHeader s p = false)
    (hothers : (liveAgents s (coveredSet (dirGrow s.mem.dir (paOff p.pa) (leafGrain p.leaf)) s.sys.ptp)).filter (fun b => b != coreDie o.core) ≠ []) :
    ∃ t, exec (.homeOwn op i) s = .next t ∧ OnlyCopies s t ∧ HomeKeeps s t ∧
      TxnFor s t (dirGrow s.mem.dir (paOff p.pa) (leafGrain p.leaf)) op i (some (coreDie o.core)) 0 0
        ((liveAgents s (coveredSet (dirGrow s.mem.dir (paOff p.pa) (leafGrain p.leaf)) s.sys.ptp)).filter fun b => b != coreDie o.core) := by
  obtain ⟨hperf, hloc, hup, hbusy, hok, hinner⟩ := hmay
  have hgrow := growRecall_side s.mem (paOff p.pa) (leafGrain p.leaf)
  have hdir := growRecall_dir s.mem (paOff p.pa) (leafGrain p.leaf)
  have htxns := (growRecall_txns s.mem (paOff p.pa) (leafGrain p.leaf)).1
  generalize hm : growRecall s.mem (paOff p.pa) (leafGrain p.leaf) = m at *
  generalize he : dirGrow s.mem.dir (paOff p.pa) (leafGrain p.leaf) = e at *
  generalize hbs : (liveAgents s (coveredSet e s.sys.ptp)).filter (fun b => b != coreDie o.core) = others at *
  have hexec : exec (.homeOwn op i) s = .next (openTxn { s with mem := m } e (.part op i) (some (coreDie o.core)) 0 0 others) := by
    rw [exec_homeOwn]
    unfold execHomeOwn
    simp only [ho, hp, hstore, hperf, hloc, hup, bne_iff_ne.2 haway, bne_iff_ne.2 hpol, hbusy, hnotice, hok, hinner, hlate, hm, hdir, he, hbs,
      List.isEmpty_eq_false_iff.2 hothers, Bool.not_false, Bool.and_self, Bool.false_eq_true, if_true, if_false]
  have hside : HomeSide NoByte s (openTxn { s with mem := m } e (.part op i) (some (coreDie o.core)) 0 0 others) :=
    (HomeSide.of_mem hgrow).openTxn _ _ _ _ _ fun hg => he ▸ dirGrow_ok hg _ _
  refine ⟨_, hexec, ⟨hside.ctl, hside.sys, hside.gangs, hside.mem.ops⟩, hside.homeKeeps, newTxn { s with mem := m } e _ _ _ _ _, ?_,
    rfl, rfl, rfl, rfl, rfl, rfl, rfl, rfl⟩
  show m.txns ++ _ = _
  rw [htxns]

end

/-! ## A store in the home's copy (R326) -/

section
variable (hhome : homeDie (paOff p.pa) = coreDie o.core ∨ leafPolicy p.leaf = 3)
include hhome

theorem homeWrite_header (hlate : lateHeader s p = true) {grp : Group} {k : Kernel} (hgrp : s.exe.groups[(opGang s o).grp]? = some grp)
    (hk : s.ctl.kernels[o.kern]? = some k) : ∃ t, exec (.homeWrite op i) s = .next t ∧ OpFaults s t o .permFault p.va := by
  obtain ⟨hperf, hloc, hup, hbusy, hok, hinner⟩ := hmay
  have hhere : (homeDie (paOff p.pa) == coreDie o.core || leafPolicy p.leaf == 3) = true := by simpa using hhome
  refine ⟨opFault s o .permFault p.va false, ?_, opFault_spec hgrp hk _ _ _⟩
  rw [exec_homeWrite]
  unfold execHomeWrite
  simp only [ho, hp, hstore, hperf, hloc, hup, hhere, hbusy, hok, hinner, hlate, Bool.not_false, Bool.and_self, if_true]

theorem exec_homeWrite_due (hlate : lateHeader s p = false) : ∃ u,
    u = homeWriteCell { s with mem := markPart s.mem op i false } (.part op i) p.leaf (paOff p.pa) p.wdata ∧
    exec (.homeWrite op i) s = .next (if writerWaits u.mem (.part op i) then u else ackWrite u o i p.pa) := by
  obtain ⟨hperf, hloc, hup, hbusy, hok, hinner⟩ := hmay
  have hhere : (homeDie (paOff p.pa) == coreDie o.core || leafPolicy p.leaf == 3) = true := by simpa using hhome
  refine ⟨_, rfl, ?_⟩
  rw [exec_homeWrite]
  unfold execHomeWrite
  simp only [ho, hp, hstore, hperf, hloc, hup, hhere, hbusy, hok, hinner, hlate, Bool.not_false, Bool.and_self, Bool.false_eq_true, if_true,
    if_false]

/-- A WRITE that is due puts the store's bytes into the home's copy; it is acknowledged at once where no transaction of its part is in
progress then. -/
theorem homeWrite_performs (hlate : lateHeader s p = false) : ∃ u t,
    u = homeWriteCell { s with mem := markPart s.mem op i false } (.part op i) p.leaf (paOff p.pa) p.wdata ∧
    exec (.homeWrite op i) s = .next t ∧ t.ctl = s.ctl ∧ t.sys = s.sys ∧ t.exe.gangs = s.exe.gangs ∧
    (∀ j < p.wdata.length, memByte t.mem (paOff p.pa + j) = p.wdata.getD j 0) ∧ PartNow t.mem op i (fun q => q.performed = true) ∧
    t.mem.txns = u.mem.txns ∧ (writerWaits u.mem (.part op i) = false → PartNow t.mem op i fun q => q.acked = true) := by
  obtain ⟨u, hu, hexec⟩ := exec_homeWrite_due ho hp hstore hmay hhome hlate
  have hside := hu ▸ homeWriteCell_side { s with mem := markPart s.mem op i false } (.part op i) p.leaf (paOff p.pa) p.wdata
  have hbytes : ∀ j < p.wdata.length, memByte u.mem (paOff p.pa + j) = p.wdata.getD j 0 := fun j hj =>
    hu ▸ homeWriteCell_put { s with mem := markPart s.mem op i false } (.part op i) p.leaf (paOff p.pa) p.wdata j hj
  have hid := findOp_id ho
  subst hid
  have hdone : PartNow u.mem o.id i fun q => q.performed = true := by
    refine PartNow.congr hside.mem.ops ((markPart_now false (findOp_part ho hp)).mono ?_)
    rintro q ⟨-, -, rfl⟩
    rfl
  by_cases hw : writerWaits u.mem (.part o.id i) = true
  · rw [if_pos hw] at hexec
    refine ⟨u, u, hu, hexec, hside.ctl, hside.sys, hside.gangs, hbytes, hdone, rfl, fun h => ?_⟩
    rw [hw] at h
    cases h
  · rw [if_neg hw] at hexec
    obtain ⟨hexe, hctl, hsys, hmem⟩ := ackWrite_rest u o i p.pa
    have hacked := ackWrite_now (pa := p.pa) hdone
    refine ⟨u, _, hu, hexec, hctl.trans hside.ctl, hsys.trans hside.sys, (congrArg Exe.gangs hexe).trans hside.gangs, fun j hj => ?_,
      hacked.mono fun q h => h.1, ?_, fun _ => hacked.mono fun q h => h.2⟩
    · rw [memByte_same (m := u.mem) (by rw [hmem]) (by rw [hmem])]
      exact hbytes j hj
    · rw [hmem]

end
end

theorem homeAlloc_txns (s : State) (frame : Nat) (cs : List Nat) (write whole : Bool) (policy wayp : Nat) :
    (homeAlloc s frame cs write whole policy wayp).mem.txns = s.mem.txns :=
  (homeAlloc_step s frame cs write whole policy wayp (homeDie (512 * frame) + 1) frame 0 rfl (Nat.ne_of_lt (Nat.lt_succ_self _))).txns

/-- A WRITE that meets no transaction opens one for the agents covered, where there are any (R326). -/
theorem homeWriteCell_txns {s : State} {w : Writer} {leaf off : Nat} {bs : List Byte} (hbusy : txnBusy s.mem off = false) :
    let e := dirGrow s.mem.dir off (leafGrain leaf)
    let agents := liveAgents s (coveredSet e s.sys.ptp)
    (agents = [] → (homeWriteCell s w leaf off bs).mem.txns = s.mem.txns) ∧
    (agents ≠ [] → ∃ u, (homeWriteCell s w leaf off bs).mem.txns = s.mem.txns ++ [newTxn u e w none off bs.length agents]) := by
  have hdir := growRecall_dir s.mem off (leafGrain leaf)
  have htxns := (growRecall_txns s.mem off (leafGrain leaf)).1
  have hfree : txnBusy (growRecall s.mem off (leafGrain leaf)) off = false := by unfold txnBusy at hbusy ⊢; rw [htxns]; exact hbusy
  generalize hm : growRecall s.mem off (leafGrain leaf) = m at *
  have halloc := homeAlloc_txns { s with mem := homePut m off bs } (frameOf off) [cellIn off] true (bs.length == 32) (leafPolicy leaf) (leafWayp leaf)
  have hput : (homePut m off bs).txns = s.mem.txns := by
    obtain ⟨b, hb⟩ := memPut_only bs m off
    unfold homePut
    rw [hb]
    exact htxns
  generalize hv : homeAlloc { s with mem := homePut m off bs } (frameOf off) [cellIn off] true (bs.length == 32) (leafPolicy leaf)
    (leafWayp leaf) = v at halloc
  refine ⟨fun hnone => ?_, fun hsome => ⟨v, ?_⟩⟩
  · unfold homeWriteCell
    simp only [hm, hv, hdir, hfree, hnone, List.isEmpty_nil, Bool.false_eq_true, if_false, if_true]
    exact halloc.trans hput
  · unfold homeWriteCell
    simp only [hm, hv, hdir, hfree, List.isEmpty_eq_false_iff.2 hsome, Bool.false_eq_true, if_false]
    exact congrArg (· ++ _) (halloc.trans hput)

/-- The acknowledgement of a WRITE: at once where the home covers no agent, else with a transaction (R326). -/
theorem homeWrite_acknowledges {s : State} {op i : Nat} {o : MemOp} {p : MemPart} (ho : findOp s.mem op = some o) (hp : o.parts[i]? = some p)
    (hstore : isStore o = true) (hmay : MayPerform s o i p) (hhome : homeDie (paOff p.pa) = coreDie o.core ∨ leafPolicy p.leaf = 3)
    (hlate : lateHeader s p = false) (hwaits : writerWaits s.mem (.part op i) = false) :
    let e := dirGrow s.mem.dir (paOff p.pa) (leafGrain p.leaf)
    let agents := liveAgents s (coveredSet e s.sys.ptp)
    ∃ t, exec (.homeWrite op i) s = .next t ∧ t.ctl = s.ctl ∧ t.sys = s.sys ∧ t.exe.gangs = s.exe.gangs ∧
      (∀ j < p.wdata.length, memByte t.mem (paOff p.pa + j) = p.wdata.getD j 0) ∧ PartNow t.mem op i (fun q => q.performed = true) ∧
      (agents = [] → PartNow t.mem op i fun q => q.acked = true) ∧
      (agents ≠ [] → TxnFor s t e op i none (paOff p.pa) p.wdata.length agents) := by
  obtain ⟨u, t, hu, hexec, hctl, hsys, hgangs, hbytes, hperf, htxns, hack⟩ := homeWrite_performs ho hp hstore hmay hhome hlate
  obtain ⟨-, -, -, hbusy, -, -⟩ := hmay
  obtain ⟨hnone, hsome⟩ := homeWriteCell_txns (s := { s with mem := markPart s.mem op i false }) (w := .part op i) (leaf := p.leaf)
    (bs := p.wdata) hbusy
  rw [← hu] at hnone hsome
  refine ⟨t, hexec, hctl, hsys, hgangs, hbytes, hperf, fun h => hack ?_, fun h => ?_⟩
  · unfold writerWaits
    rw [hnone h]
    exact hwaits
  · obtain ⟨v, hv⟩ := hsome h
    exact ⟨_, htxns.trans hv, rfl, rfl, rfl, rfl, rfl, rfl, rfl, rfl⟩

/-! ## O42 -/

/-- Settles O42: each of the four events by the branch that its conditions choose; the recalls that come before a fill, an OWN or a WRITE
change nothing that the conditions speak of, and no byte that the home alone holds. -/
theorem homeReadsAndWrites : Obligations.HomeReadsAndWrites := by
  unfold Obligations.HomeReadsAndWrites
  rintro s op i frame o ⟨-, -, -, hg⟩ ho
  refine ⟨fun p0 rest hload hneed => ⟨fillComplete_fills ho hload hneed hg, fun hpeer hnone => ⟨?lost, ?asks, ?answered⟩⟩, ?read, ?store⟩
  case lost => exact fun hgone grp k hgrp hk => fillComplete_lost ho hload hneed hpeer hnone hgone hgrp hk
  case asks =>
    intro hgone hperf hsend hturn
    obtain ⟨-, hframe⟩ := neededPart_mem hneed
    obtain ⟨hctl, hexe, hbytes, ⟨m, hsent⟩, hmarked⟩ :=
      peerRead_sent (s := s) (o := o) (p0 := p0) (peerRange s o p0 (cellsOf (requestParts s.mem o frame) frame))
    have hid := findOp_id ho
    subst hid
    exact ⟨_, m, _, fillComplete_asks ho hload hneed hpeer hnone hgone hperf hsend hturn, hctl, hexe, hbytes, hsent, rfl,
      fun k p hp hpf => hmarked k p hload ho hp (hpf.trans hframe.symm)⟩
  case answered => exact fun hgone hperf hans => fillComplete_answered ho hload hneed hpeer hnone hgone hperf hans
  case read =>
    exact fun p hp hload hgot hloc hup hserved hturn hfree hcell => homeRead_brings hg ho hp hload hgot hloc hup hserved hturn hfree hcell
  case store =>
    intro p hp hstore hmay
    refine ⟨fun haway hpol hnotice => ⟨?_, ?_, ?_⟩, fun hhome => ⟨?_, ?_⟩⟩
    · exact fun hlate grp k hgrp hk => homeOwn_header ho hp hstore hmay haway hpol hnotice hlate hgrp hk
    · exact homeOwn_performs ho hp hstore hmay haway hpol hnotice hg
    · exact homeOwn_waits ho hp hstore hmay haway hpol hnotice
    · exact fun hlate grp k hgrp hk => homeWrite_header ho hp hstore hmay hhome hlate hgrp hk
    · exact homeWrite_acknowledges ho hp hstore hmay hhome

end Sys2Proof.Machine
end

section
/-! PROOFS. Proofs/MemoryEvents.lean: invalidations and their acknowledgements, notices, leases, sweeps and walks when they are due, and
O59 (R187, R189, R310, R319, R325 to R329, R337). -/

namespace Sys2Proof.Machine

/-! ## Transactions (R325, R326, R328, R337) -/

/-- An agent that has not answered removes the grain and acknowledges. -/
theorem invalidate_answers {s : State} {txn agent : Nat} {x : Txn} (hx : findTxn s.mem txn = some x) (hout : agent ∈ x.outstanding)
    (hleased : agent ≠ 9) (hnew : ∀ a ∈ x.acks, a.1 ≠ agent) :
    ∃ t y, exec (.invalidate txn agent) s = .next t ∧ findTxn t.mem txn = some y ∧ ∃ a ∈ y.acks, a.1 = agent := by
  have hcond : (x.outstanding.contains agent && agent != 9 && !(x.acks.any fun a => a.1 == agent)) = true := by
    have hany : (x.acks.any fun a => a.1 == agent) = false := List.any_eq_false.2 fun a ha => by simpa using hnew a ha
    simp [hout, hleased, hany]
  have hremoved : (if agent < 8 then l2Remove s.mem agent (frameOf x.grain) (grainCells x.grain x.size) else s.mem).txns = s.mem.txns := by
    split
    · exact l2Remove_txns _ _ _ _
    · rfl
  rw [exec_invalidate]
  unfold execInvalidate
  simp only [hx, hcond, if_true]
  generalize (if agent < 8 then l2Remove s.mem agent (frameOf x.grain) (grainCells x.grain x.size) else s.mem) = m at hremoved ⊢
  generalize (if agent < 8 then l2Dirty s.mem.l2 agent (frameOf x.grain) (grainCells x.grain x.size) else []) = dirt
  refine ⟨_, _, rfl, findTxn_modIf hx (fun z => { z with acks := z.acks ++ [(agent, incOf s agent, dirt)] }) (fun _ hz => hz)
    ((dropAbove_txns _ _ _ _).trans ?_), _, List.mem_append_right _ List.mem_cons_self, rfl⟩
  dsimp only
  rw [hremoved]

/-- An acknowledgement that no notice of its agent precedes is counted. -/
theorem invalidateAck_counts {s : State} {txn agent : Nat} {x : Txn} {d : List (Nat × Byte)} (hx : findTxn s.mem txn = some x)
    (hack : x.acks.find? (fun a => a.1 == agent) = some (agent, (smGet s.sys.agentInc agent).toNat, d))
    (hnotice : noticeAhead s.mem agent x.grain = false) :
    exec (.invalidateAck txn agent) s = .next (countAck s x agent) := by
  rw [exec_invalidateAck]
  unfold execInvalidateAck incOf
  simp only [hx, hack, hnotice, ne_eq, not_true_eq_false, Bool.false_eq_true, if_false]

/-- Agent 9's acknowledgement is counted once no lease holds it back. -/
theorem horizonReached_counts {s : State} {txn : Nat} {x : Txn} (hx : findTxn s.mem txn = some x) (hout : 9 ∈ x.outstanding)
    (hlease : leaseHolds s.mem s.sys.ptp s.sys.guardNs x.grain = false) : exec (.horizonReached txn) s = .next (countAck s x 9) := by
  rw [exec_horizonReached]
  unfold execHorizonReached
  simp only [hx, hlease, List.contains_iff_mem.2 hout, Bool.not_false, Bool.and_self, if_true]

/-! ## Notices (R329, R381) -/

/-- A notice that reaches its home is taken. -/
theorem noticeAtHome_takes {s : State} {id : Nat} {n : Notice} (hn : (s.mem.notices.find? fun n => n.id == id) = some n) :
    ∃ t, noticeAtHome n.data.isSome id s = .next t ∧ ∀ y ∈ t.mem.notices, y.id ≠ id := by
  have gone : ∀ y ∈ s.mem.notices.filter (fun y => y.id != id), y.id ≠ id := fun y hy => by simpa using (List.mem_filter.1 hy).2
  unfold noticeAtHome
  simp only [hn, bne_self_eq_false, Bool.false_eq_true, if_false]
  generalize s.mem.txns.find? _ = on
  obtain ⟨b, hb⟩ := mergeBytes_bytes { s.mem with notices := s.mem.notices.filter fun y => y.id != id } on (n.data.getD [])
  rw [hb]
  repeat' split
  all_goals exact ⟨_, rfl, gone⟩

/-! ## Leases, the sweep and walks (R310, R319, R325, R337) -/

/-- A lease that has ended leaves the slice. -/
theorem leaseExpiry_drops (s : State) (die frame : Nat) : ∃ t, exec (.leaseExpiry die frame) s = .next t ∧
    ∀ i ∈ expiredCells s die frame, l2Cell t.mem.l2 0 die frame i = none := by
  refine ⟨expireFrame s die frame, rfl, fun i hi => ?_⟩
  unfold expireFrame
  dsimp only
  split
  · rename_i hempty
    rw [List.isEmpty_iff.1 hempty] at hi
    cases hi
  · obtain ⟨l1, pr, h⟩ := l1Drop_only (l2Remove s.mem die frame (expiredCells s die frame)) fun b => coreDie b.core == die &&
      b.frame + 2 ^ 43 == frame && (expiredCells s die frame).any fun i => decide (b.start ≤ i) && decide (i < b.start + b.cells.length)
    rw [h]
    exact l2Cell_remove s.mem 0 die frame hi

/-- No entry that a sweep leaves is free. -/
theorem directorySweep_frees (s : State) (die slice : Nat) : ∃ t, exec (.directorySweep die slice) s = .next t ∧
    ∀ e ∈ t.mem.dir, dirEmpty s.sys.ptp e = false :=
  ⟨_, rfl, fun e he => by simpa using (List.mem_filter.1 he).2⟩

/-- A walk that its die's walkers have taken up ends, in a context that is not halting. -/
theorem pageWalk_ends {s : State} {part cid die : Nat} {va : Dbl} {w : Walk} {c : Ctx} {p : Partition}
    (hw : (s.mem.walks.find? fun w => w.die == die && w.part == part && w.ctx == cid && w.page == va.toNat / 2 ^ 16) = some w)
    (hc : findCtx s.ctl.ctxs part cid = some c) (hp : findPart s.ctl.parts part = some p) (hon : walkOn s.mem.walks w = true)
    (hhalting : c.state ≠ .halting) (hhalted : c.state ≠ .halted) :
    ∃ t, exec (.pageWalk part cid die va) s = .next t ∧ w ∉ t.mem.walks := by
  have gone : w ∉ s.mem.walks.filter fun x => x != w := fun h => by simpa using (List.mem_filter.1 h).2
  rw [exec_pageWalk]
  unfold execPageWalk
  simp only [hw, hc, hp, hon, beq_eq_false_iff_ne.2 hhalting, beq_eq_false_iff_ne.2 hhalted, Bool.not_true, Bool.or_self, Bool.false_eq_true,
    if_false]
  split
  · exact ⟨_, rfl, gone⟩
  · exact ⟨_, rfl, gone⟩

/-! ## O59 -/

/-- Settles O59: the requests at homes as O42's lemmas have them, and every other event by the branch in which it is due. -/
theorem memoryEventsComplete : Obligations.MemoryEventsComplete := by
  unfold Obligations.MemoryEventsComplete
  refine ⟨?requests, ?transactions, ?notices, fun s die frame slice => ⟨leaseExpiry_drops s die frame, directorySweep_frees s die slice⟩,
    fun s part cid die va w c p hw hc hp hon hhalting hhalted => pageWalk_ends hw hc hp hon hhalting hhalted⟩
  case requests =>
    rintro s op i o p ⟨-, -, -, hg⟩ ho hp hloc hup hfree
    refine ⟨?read, ?fill, ?own, ?write⟩
    case read =>
      rintro hload hgot ⟨haway, hpol⟩ hheader hturn hcell
      have hserved : servedAtHome s o p = false := by
        unfold servedAtHome
        rw [beq_eq_false_iff_ne.2 haway, beq_eq_false_iff_ne.2 hpol, hheader]
        rfl
      obtain ⟨t, hexec, -, -, hheld, -⟩ := homeRead_brings hg ho hp hload hgot hloc hup hserved hturn hfree hcell
      exact ⟨t, hexec, hheld⟩
    case fill =>
      intro hload hgot hcap hturn hbelow hone
      have hneed : (o.parts.filter fun q => paFrame q.pa == paFrame p.pa && q.got.isNone) = [p] := by
        rw [hone]
        simp [hgot]
      exact fillComplete_got ho hload hneed hg (.inr hbelow) hp rfl hgot hcap hturn hbelow
    case own =>
      rintro hstore hmay hlate ⟨haway, hpol⟩ halone
      have hothers : (liveAgents s (coveredSet (dirGrow s.mem.dir (paOff p.pa) (leafGrain p.leaf)) s.sys.ptp)).filter
          (fun b => b != coreDie o.core) = [] := List.filter_eq_nil_iff.2 fun a ha => by simpa using halone a ha
      obtain ⟨t, hexec, -, -, -, -, hnow, -⟩ := homeOwn_performs ho hp hstore hmay haway hpol hfree.part.2 hg hlate hothers
      exact ⟨t, hexec, hnow⟩
    case write =>
      intro hstore hmay hlate hhome
      obtain ⟨u, t, -, hexec, -, -, -, hbytes, hnow, -, -⟩ := homeWrite_performs ho hp hstore hmay (.inl hhome) hlate
      exact ⟨t, hexec, hnow, hbytes⟩
  case transactions =>
    intro s txn agent x hx hout
    refine ⟨fun h9 hnew => invalidate_answers hx hout h9 hnew, fun d hack hnotice => ?_, fun h9 hlease => ?_⟩
    · exact ⟨_, invalidateAck_counts hx hack hnotice, countAck_gone hx⟩
    · subst h9
      exact ⟨_, horizonReached_counts hx hout hlease, countAck_gone hx⟩
  case notices =>
    intro s id n hn
    have htaken := noticeAtHome_takes hn
    refine ⟨fun hnone => ?_, fun hsome => ?_⟩
    · rw [hnone] at htaken
      exact htaken
    · rw [Option.isSome_iff_ne_none.2 hsome] at htaken
      exact htaken

end Sys2Proof.Machine
end
